-- ==== Sys2Proof/Word.lean ====
section
/-!
DEFINITION. The word types of the Sheran Z4 (05 R97, R98) and their plainest arithmetic: lane masks, one value per
lane, and reading and writing one lane.
-/
namespace Sys2Proof

/-- One byte of memory. -/
abbrev Byte := BitVec 8
/-- A 32-bit register, or one lane of a vector register. -/
abbrev Word := BitVec 32
/-- A 64-bit value: a register pair, an address, a lane mask held in a register. -/
abbrev DWord := BitVec 64
/-- A set of lanes, bit `l` for lane `l` (14 R266). -/
abbrev Lanes := BitVec 64
/-- An instruction word (14 R251). -/
abbrev IWord := BitVec 128
/-- A vector register: one word per lane, lane 0 first (05 R97). -/
abbrev LaneVec := List Word

/-- The number of lanes of a group (01 R13). -/
def laneCount : Nat := 64

/-- The vector register holding `f l` in lane `l`. -/
def LaneVec.ofFn (f : Nat → Word) : LaneVec := (List.range laneCount).map f

/-- Lane `l` of a vector register; lanes a register does not hold read zero. -/
def LaneVec.get (v : LaneVec) (l : Nat) : Word := v.getD l 0#32

/-- The zero vector register (01 R27). -/
def LaneVec.zero : LaneVec := List.replicate laneCount 0#32

@[simp] theorem LaneVec.get_ofFn (f : Nat → Word) (l : Nat) (h : l < laneCount) :
    (LaneVec.ofFn f).get l = f l := by
  simp [LaneVec.ofFn, LaneVec.get, List.getD_eq_getElem?_getD, h]

@[simp] theorem LaneVec.get_zero (l : Nat) : LaneVec.zero.get l = 0#32 := by
  simp [LaneVec.zero, LaneVec.get, List.getD_eq_getElem?_getD, List.getElem?_replicate]
  split <;> rfl

/-- Whether lane `l` is in a set of lanes. -/
def Lanes.has (m : Lanes) (l : Nat) : Bool := m.getLsbD l

/-- The set of the lanes below 64 that satisfy `p`. -/
def Lanes.ofPred (p : Nat → Bool) : Lanes :=
  (List.range laneCount).foldl (fun m l => if p l then m ||| (1#64 <<< l) else m) 0#64

/-- The lanes of a set in ascending order (14 R266). -/
def Lanes.toList (m : Lanes) : List Nat := (List.range laneCount).filter m.has

/-- The number of lanes of a set. -/
def Lanes.count (m : Lanes) : Nat := m.toList.length

/-- The lowest lane of a set, if any. -/
def Lanes.lowest (m : Lanes) : Option Nat := m.toList.head?

/-- The lanes of a group: all 64, or lanes 0 to 31 in narrow mode (01 R18). -/
def Lanes.all (narrow : Bool) : Lanes := if narrow then 0xFFFF_FFFF#64 else 0xFFFF_FFFF_FFFF_FFFF#64

/-- The bits `hi:lo` of a value as a number. -/
def bits {n : Nat} (x : BitVec n) (lo w : Nat) : Nat := (x.extractLsb' lo w).toNat

/-- `b` as 1 or 0. -/
def bitOf (b : Bool) : Nat := if b then 1 else 0

end Sys2Proof
end

