-- ==== Sys2Proof/Config.lean ====
section
/-!
DEFINITION. What the manual fixes for every Sheran Z4 (00 R1) and the free values: constants with no body that stand
for what the manual leaves open. Nothing evaluates a free value, so a theorem about one holds for every value of it.
-/
namespace Sys2Proof.Config

/-- Dies of a package (00 R1). -/
def dies : Nat := 4
/-- Active cores of a die: logical numbers 0 to 39 (00 R5). -/
def coresPerDie : Nat := 40
/-- Physical cores of a die (00 R5). -/
def physCoresPerDie : Nat := 44
/-- Package core indices (00 R5). -/
def cores : Nat := 160
/-- Group slots of a quarter, and of a core (01 R19). -/
def groupSlotsPerQuarter : Nat := 16
def groupSlotsPerCore : Nat := 64
/-- Vector registers of a quarter (01 R19). -/
def vregsPerQuarter : Nat := 512
/-- Team slots of a core (01 R19). -/
def teamSlotsPerCore : Nat := 16
/-- Lines of a core's L1 and instruction cache, 128 bytes each, and instructions of a scheduler's fetch buffer (00 R1). -/
def l1Lines : Nat := 2048
def icacheLines : Nat := 1024
def fetchBuffer : Nat := 8

/-- Scratchpad bytes of a core, and the allocation granule (00 R1). -/
def spadBytes : Nat := 0x8_0000
def granule : Nat := 4096
/-- Physical map slots of a quarter (07 R135). -/
def mapSlotsPerQuarter : Nat := 16
/-- Pans of a Rake and its room for records (04 R84). -/
def pans : Nat := 32
def rakeRoom : Nat := 4096
/-- Split and region entries of a group's hardware tables (03 R56). -/
def splitTable : Nat := 8
def regionTable : Nat := 16
/-- Requests a Sluice holds (08 R173). -/
def sluiceRoom : Nat := 1024
/-- Engine counters saturate issue at this value (08 R159). -/
def counterMax : Nat := 63
/-- clk of the 2.25 GHz main clock in one microsecond (00 R1, 10 R197). -/
def clkPerUs : Nat := 2250
/-- Longest self-check of a quiesce, in clk: 250 microseconds (00 R8). -/
def selfCheckClk : Nat := 250 * 2250
/-- Work queues (00 R1). -/
def queues : Nat := 8192
/-- Records of a continuation block (04 R94). -/
def blockRecords : Nat := 1024

/-- FREE VALUE. Which of several enabled moves comes next where no rule of the manual orders them, indexed by
`State.freeCtr` (log 3). -/
opaque pick : Nat → Nat
/-- FREE VALUE. Where the driver places the private regions of a context's groups: the first of them, by context number (05
R111 gives no address; log 11). -/
opaque privateBase : Nat → Nat
/-- FREE VALUE. Byte `i` of the image that command 0x08 writes; the context save layout is opaque (11 R216; log 12). -/
opaque contextImageByte : Nat → Nat → Byte
/-- FREE VALUE. Where in the save region the device writes an area: the layout is opaque (11 R216; log 12). -/
opaque saveOffset : Nat → Nat
/-- FREE VALUE. A byte of the SHA-384 measurement of the image that a boot has loaded on a die: the number of the boot, the die,
the byte (13 R247; log 13). -/
opaque measurements : Nat → Nat → Nat → Byte
/-- FREE VALUE. The rollback counters at a boot, as an attestation report holds them, by the number of the boot (13 R247; log
13). -/
opaque rollbackCounters : Nat → List Byte
/-- FREE VALUE. How an attestation report writes the map of retired physical cores and vacant indices: the manual gives it no
layout (13 R247; log 13). -/
opaque coreMap : List Bool → List Bool → List Byte
/-- FREE VALUE. Byte `i` of the two signatures of an attestation report, 64 + 3,309 bytes (13 R247; log 13). -/
opaque attestSignature : Nat → Nat → Byte

/-- FREE VALUE. Bytes of the check area that one item of a store stream takes (12 R235 gives no layout; log 16). -/
opaque streamItemBytes : Nat

/-- FREE VALUE. The die whose HBM holds a physical address (00 R4; the manual gives no interleaving; log 17). -/
opaque homeDie : Nat → Nat
/-- FREE VALUE. This device's 16-bit number on the fabric (13 R241; log 18). -/
opaque deviceNumber : Nat
/-- FREE VALUE. Physical address of this device's export table node (13 R242; log 18). -/
opaque exportRoot : Nat
/-- FREE VALUE. Frequency in MHz that a core drops to under a condition of 13 R249 (log 19). -/
opaque throttledMhz : Nat → Nat

/-- FREE VALUE. A byte whose source the model does not hold: another device's memory as a copy reads it, or an uncorrectable
granule as the host die reads it or a spared row holds it; by fresh number and place (logs 21, 75). -/
opaque openByte : Nat → Nat → Byte

/-- FREE VALUE. The instruction bits in the record of a fetch at a fabric address, which reads no instruction (13 R241;
log 20). -/
opaque unfetched : Nat → IWord

end Sys2Proof.Config
end

