-- ==== Sys2Proof/Syntax.lean ====
section
/-!
DEFINITION. The syntax of SN4 (14 R251 to R264) and of the device's own steps: operand codes, guards, the six formats,
type codes, and `Instr`, one constructor per row of spec/opcode_table.json.
-/
namespace Sys2Proof

/-- An operand code (02 R36, 05 R97, 14 R259). `bad` holds a code that names no operand: 0x14C to 0x14F and
0x152 to 0x3FF. -/
inductive Opnd where
  | v (n : Fin 256)
  | s (n : Fin 64)
  | o (n : Fin 8)
  | l (n : Fin 4)
  | zero
  | imm
  | bad (code : BitVec 10)
  deriving DecidableEq, Repr

/-- An instruction's guard (14 R259): none, a bit of a vector register, or a bit of a scalar register. `reg` of
`scalar` may exceed 63; the instruction then traps when it issues. -/
inductive Guard where
  | always
  | vector (neg : Bool) (bit : BitVec 5) (reg : BitVec 8)
  | scalar (neg : Bool) (bit : BitVec 5) (reg : BitVec 8)
  deriving DecidableEq, Repr

/-- Bits 31:10 of word 0, common to every format (14 R251). -/
structure Hdr where
  rm : BitVec 3
  sat : Bool
  wbs : Bool
  hold : Bool
  guard : Guard
  deriving DecidableEq, Repr

/-- Format R (14 R252, R253). -/
structure RFmt where
  h : Hdr
  d : Opnd
  a : Opnd
  b : Opnd
  c : Opnd
  ma : BitVec 4
  mb : BitVec 4
  mc : BitVec 4
  ta : Bool
  tb : Bool
  tc : Bool
  mod : BitVec 7
  imm : Word
  deriving DecidableEq, Repr

/-- Format I (14 R254). -/
structure IFmt where
  h : Hdr
  d : Opnd
  a : Opnd
  b : Opnd
  imm64 : DWord
  deriving DecidableEq, Repr

/-- Format M (14 R255). -/
structure MFmt where
  h : Hdr
  d : Opnd
  a : Opnd
  b : Opnd
  c : Opnd
  ma : BitVec 4
  space : BitVec 4
  mc : BitVec 4
  ta : Bool
  tc : Bool
  mod : BitVec 7
  disp : Word
  deriving DecidableEq, Repr

/-- Format S, the sweep form (14 R256). -/
structure SFmt where
  h : Hdr
  d : Opnd
  a : Opnd
  b : Opnd
  stepB : BitVec 10
  ma : BitVec 4
  mb : BitVec 4
  ta : Bool
  tb : Bool
  mod : BitVec 7
  count : BitVec 12
  stepA : BitVec 10
  stepD : BitVec 10
  deriving DecidableEq, Repr

/-- Format C (14 R257). -/
structure CFmt where
  h : Hdr
  d : Opnd
  a : Opnd
  b : Opnd
  xoff : Word
  toff : Word
  deriving DecidableEq, Repr

/-- Format K (14 R258). -/
structure KFmt where
  h : Hdr
  d : Opnd
  a : Opnd
  b : Opnd
  c : Opnd
  mod : BitVec 7
  kimm : Word
  deriving DecidableEq, Repr

/-- Integer type codes `t` (14 R263). -/
inductive IntTy where
  | s32 | b32 | s64 | b64
  deriving DecidableEq, Repr

/-- Float type codes `t` (14 R263). -/
inductive FloTy where
  | f32 | f16x2 | bf16x2
  deriving DecidableEq, Repr

/-- Element type codes `u` (14 R263). -/
inductive EltTy where
  | s32 | b32 | s64 | b64 | f32 | f16x2 | bf16x2
  deriving DecidableEq, Repr

/-- Width codes `w` of loads and stores (14 R263). -/
inductive Width where
  | b8 | s8 | b16 | s16 | b32 | b64
  deriving DecidableEq, Repr

/-- Conversion codes `c` (14 R263). -/
inductive CvtTy where
  | f32 | f16 | bf16 | e4m3 | e5m2 | e2m1 | e8m0 | s8 | s16 | s32 | s64 | b8 | b16 | b32 | b64
  deriving DecidableEq, Repr

/-- Census element codes `e` (14 R263). -/
inductive CenTy where
  | f32 | f16x2 | bf16x2 | e4m3x4 | e5m2x4 | e2m1x8
  deriving DecidableEq, Repr

/-- MACC source codes `s` (14 R263). -/
inductive MaccTy where
  | bf16x2 | f16x2 | f32 | e4m3x4 | e5m2x4 | e2m1x8 | s8x4
  deriving DecidableEq, Repr

/-- What the boot ROM and the self-check of one die found at reset (00 R5, 13 R246): whether each of the two
signatures verifies and the version is not below the rollback counter, and which physical cores pass. -/
structure DieBoot where
  ed25519 : Bool
  mlDsa65 : Bool
  versionOk : Bool
  pass : List Bool
  deriving DecidableEq, Repr

/-- What happens at reset: one report a die, and the management ring that host firmware registers (13 R238). -/
structure BootReport where
  dies : List DieBoot
  mgmtBase : Nat
  mgmtVec : Nat
  deriving DecidableEq, Repr

/-- A condition of 13 R249 under which a core drops below 2.25 GHz, or its end. -/
inductive Thermal where
  | coolantHot | coolantSlow | junctionHot | recovered (mhz : Nat)
  deriving DecidableEq, Repr

/-- An access of the host die to device memory (13 R237), by physical address. `release` marks a write with release
semantics at SYS scope. -/
inductive HostAccess where
  | read (pa n : Nat)
  | write (pa : Nat) (data : List Byte) (release : Bool)
  deriving DecidableEq, Repr

/-- A step of chunk `num` of a copy, or of row `num` of a fabric command: at most how many bytes it reads and writes (09
R181). -/
structure ChunkMove where
  num : Nat
  rd : Nat
  wr : Nat
  deriving DecidableEq, Repr

/-- A remote copy (13 R242): one of this device's fabric commands reaching its target, with the status the target or
the link gives; a command of another device that writes rows of bytes at offsets of this one's export window; or one that
reads rows of it, each an offset and a length. -/
inductive RemoteWrite where
  | outgoing (copy : Nat) (remoteFault : Bool)
  | row (copy : Nat) (m : ChunkMove)
  | incoming (rows : List (Nat × List Byte))
  | incomingRead (rows : List (Nat × Nat))
  deriving DecidableEq, Repr

/-- What the switch meets (13 R245): the first contribution of an instance arrives; its time limit has passed; its buffering,
with `others` bytes of other instances, cannot hold contributions of `bytes` each. -/
inductive SredMet where
  | arrived
  | late
  | full (bytes others : Nat)
  deriving DecidableEq, Repr

/-- What the switch meets of which instance. -/
structure SredEvent where
  inst : Nat
  met : SredMet
  deriving DecidableEq, Repr

/-- The instructions and the device's own steps: one constructor per row of spec/opcode_table.json. -/
inductive Instr where
  -- integer class, format R (14 R264)
  | and (t : IntTy) (f : RFmt)
  | andn (t : IntTy) (f : RFmt)
  | bfe (t : IntTy) (f : RFmt)
  | bfi (t : IntTy) (f : RFmt)
  | brev (t : IntTy) (f : RFmt)
  | clz (t : IntTy) (f : RFmt)
  | iabs (t : IntTy) (f : RFmt)
  | iadd (t : IntTy) (f : RFmt)
  | iaddImm64 (signed : Bool) (f : IFmt)
  | icmp (t : IntTy) (f : RFmt)
  | imad (t : IntTy) (f : RFmt)
  | imax (t : IntTy) (f : RFmt)
  | imin (t : IntTy) (f : RFmt)
  | imul (t : IntTy) (f : RFmt)
  | imulh (t : IntTy) (f : RFmt)
  | isub (t : IntTy) (f : RFmt)
  | lea (t : IntTy) (f : RFmt)
  | or (t : IntTy) (f : RFmt)
  | popc (t : IntTy) (f : RFmt)
  | prmt (t : IntTy) (f : RFmt)
  | sar (t : IntTy) (f : RFmt)
  | sel (t : IntTy) (f : RFmt)
  | shf (t : IntTy) (f : RFmt)
  | shl (t : IntTy) (f : RFmt)
  | shr (t : IntTy) (f : RFmt)
  | xor (t : IntTy) (f : RFmt)
  -- float class (21 R320) and its sweeps (R323)
  | fadd (t : FloTy) (f : RFmt)
  | fclass (t : FloTy) (f : RFmt)
  | fcmp (t : FloTy) (f : RFmt)
  | fcospi (t : FloTy) (f : RFmt)
  | fexp2 (t : FloTy) (f : RFmt)
  | fgetexp (t : FloTy) (f : RFmt)
  | flog2 (t : FloTy) (f : RFmt)
  | fma (t : FloTy) (f : RFmt)
  | fmax (t : FloTy) (f : RFmt)
  | fmin (t : FloTy) (f : RFmt)
  | fmul (t : FloTy) (f : RFmt)
  | frcp (t : FloTy) (f : RFmt)
  | frnd (t : FloTy) (f : RFmt)
  | frsq (t : FloTy) (f : RFmt)
  | fscale (t : FloTy) (f : RFmt)
  | fsinpi (t : FloTy) (f : RFmt)
  | fsqrt (t : FloTy) (f : RFmt)
  | faddSweep (t : FloTy) (f : SFmt)
  | fmaSweep (t : FloTy) (f : SFmt)
  | fmulSweep (t : FloTy) (f : SFmt)
  -- conversion, quantisation, census, random numbers (20 R311, 21 R331, 20 R306, 23 R383)
  | cvt (c : CvtTy) (f : RFmt)
  | cvtSweep (c : CvtTy) (f : SFmt)
  | famax (t : FloTy) (f : RFmt)
  | fquant (t : FloTy) (f : RFmt)
  | fquantSweep (t : FloTy) (f : SFmt)
  | census (e : CenTy) (f : RFmt)
  | rng (f : RFmt)
  -- map and latent class (07 R137)
  | mapres (f : RFmt)
  | mapbind (f : MFmt)
  | mapwr (f : RFmt)
  | maprd (f : RFmt)
  | maprel (f : RFmt)
  | ldl (f : MFmt)
  | ldlSweep (f : SFmt)
  | macc (m : MaccTy) (f : RFmt)
  | maccSweep (m : MaccTy) (f : SFmt)
  | sweepIteration (g sp : Nat)
  -- lane class (22 R358, 23 R379)
  | lred (u : EltTy) (f : RFmt)
  | lscan (u : EltTy) (f : RFmt)
  | matchLanes (u : EltTy) (f : RFmt)
  | part (u : EltTy) (f : RFmt)
  | shfl (u : EltTy) (f : RFmt)
  | vote (u : EltTy) (f : RFmt)
  -- memory class
  | ld (w : Width) (f : MFmt)
  | lds (w : Width) (f : MFmt)
  | st (w : Width) (f : MFmt)
  | sts (w : Width) (f : MFmt)
  | atom (u : EltTy) (f : MFmt)
  | red (u : EltTy) (f : MFmt)
  | pref (f : MFmt)
  | cctl (f : MFmt)
  | fence (f : KFmt)
  -- engines and barriers (08)
  | copy (f : RFmt)
  | binit (f : RFmt)
  | barr (f : RFmt)
  | bexp (f : RFmt)
  | btest (f : RFmt)
  | bwait (f : RFmt)
  | waitc (f : RFmt)
  -- tasks (04 R79)
  | spawn (f : RFmt)
  | jdec (f : MFmt)
  | jwait (f : MFmt)
  | freg (f : RFmt)
  | fres (f : MFmt)
  -- control class
  | bra (f : CFmt)
  | braD (f : CFmt)
  | brk (f : CFmt)
  | brx (f : CFmt)
  | call (f : CFmt)
  | ret (f : CFmt)
  | exit (f : CFmt)
  | exitJ (f : MFmt)
  | gsync (f : CFmt)
  | join (f : CFmt)
  | nop (f : CFmt)
  | yield (f : CFmt)
  -- system class
  | bkpt (f : KFmt)
  | dflush (f : KFmt)
  | fltrd (f : KFmt)
  | fmtset (f : KFmt)
  | iret (f : KFmt)
  | movB32 (f : RFmt)
  | movB64 (f : RFmt)
  | movB64Imm64 (f : IFmt)
  | movsr (f : KFmt)
  | setsr (f : KFmt)
  | pgmap (f : MFmt)
  | trap (f : KFmt)
  | trapEsc (f : KFmt)
  -- steps of groups, homes and the Rake
  | faultRecordDeferredDelivery (g : Nat)
  | hwBreakpoint (g sp : Nat)
  | loadReturn (op : Nat) (lanes fromL1 : Lanes)
  | ldlReturn (op : Nat)
  | atomReturn (op : Nat)
  | storePerform (op : Nat) (lanes : Lanes)
  | atomicAtHome (op k : Nat)
  | joinCounterDecrement (op k : Nat)
  | jwaitWake (g sp : Nat)
  | censusFold (op k : Nat)
  | futureRegistration (op k : Nat)
  | futureResolution (op : Nat)
  | gateDecrement (op : Nat)
  | sluiceDeferredPark (op k : Nat)
  | mapBindComplete (op : Nat)
  | panTimerExpiry (core pan : Nat)
  | panLaunch (core pan : Nat)
  | brineIntake (core ctx : Nat)
  | deferredRecordFile (k : Nat)
  | groupRestore (g : Nat)
  | groupRetire (g : Nat)
  | teamRetire (t : Nat)
  | gridCompletion (gr : Nat)
  -- steps of the queue unit and the dispatcher
  | launchPacketTake (q : Nat)
  | queueTailUpdate (q : Nat)
  | teamDispatch
  | concurrentPlacement (gr : Nat)
  | reproWavePlacement (gr : Nat)
  | queueAgeing (q : Nat)
  | preemptQueue (q : Nat)
  | resumeQueue (q : Nat)
  | preemptContext (q : Nat)
  | resumeContext (q : Nat)
  | splitHalt (g sp : Nat)
  | contextSave (g : Nat)
  | groupResume (g : Nat)
  | reproSyncProceed (g sp : Nat)
  | mapresDeferredGrant (g sp : Nat)
  -- steps of the copy engines, the fabric and the comparator
  | copyChunk (c : Nat) (m : ChunkMove)
  | copyCompletion (c : Nat)
  | c3CompletionRecord (c : Nat)
  | remoteCopyWrite (w : RemoteWrite)
  | sredInstanceReduce (grp inst : Nat) (agree : Bool) (others : List (Nat × List Byte))
  | sredTimeoutAbort (grp : Nat) (e : SredEvent)
  | linkLoss (copies : List Nat)
  | checkCompare (t : Nat)
  | tlbLeaseExpiry (core k : Nat)
  -- package steps
  | reset (b : BootReport)
  | selfCheckDone (die : Nat) (pass : List Bool)
  | thermalEvent (core : Nat) (e : Thermal)
  -- management commands (13 R238)
  | createContext (num block : DWord)
  | terminateContext (num : DWord)
  | registerQueue (q base slots ctx age : DWord)
  | releaseQueue (q : DWord)
  | quiesceDie (die : DWord)
  | faultRepaired (rec : DWord)
  | setBreakpoints (ctx list : DWord)
  | contextRead (ctx g buf : DWord)
  | reductionGroup (n list len limit : DWord)
  | captureSet (core unit src : DWord)
  | captureRead (core unit buf : DWord)
  | powerCap (watts : DWord)
  | attest (nonce report : DWord)
  | faultUnrepairable (rec : DWord)
  | contextSettings (ctx highwater lease : DWord)
  | resumeGroup (rec point : DWord)
  | poolAdd (ctx list count : DWord)
  -- fetches that reach no instruction, reserved commands, the host
  | reservedEncoding (w : IWord)
  | instructionFetchFault (g sp : Nat)
  | reservedQueueCommand (q : Nat)
  | reservedManagementCommand
  | debuggerHalt (g : Nat)
  | computeDiePowerOff
  | hostDieAccess (a : HostAccess)
  deriving DecidableEq, Repr

end Sys2Proof
end

