-- ==== Sys2Proof/WellFormed.lean ====
section
/-!
DEFINITION. Which instructions are legal encodings (14 R262 and the entries' own field rules): `Instr.checks` lists
every check of an instruction with the name of the rejection, `WellFormed` says that all of them pass. Operand kinds,
allocations and privilege are checked when an instruction issues, not here.
-/
namespace Sys2Proof

/-- Why a word is no instruction (14 R262); every one of them traps with ILLEGAL_ENCODING. -/
inductive Reject where
  /-- The opcode map does not list the code (R264). -/
  | reservedOpcode
  /-- Bits that the format marks with a dash are set (R252). -/
  | dashBits
  /-- GK = 11, or GK = 00 with other guard bits set (R259). -/
  | guardField
  /-- RM = 7 in a rounding opcode, or RM set where it is unused (R261). -/
  | roundingCode
  /-- A scope of 5 to 7 (R171, R334, R353). -/
  | scopeCode
  /-- A type code that the entry does not accept (R263). -/
  | typeCode
  /-- A field that the format or the entry marks zero or unused is set (R262). -/
  | fieldNotZero
  /-- SAT where the entry gives it no meaning (R261). -/
  | satNotAllowed
  /-- WBS where R101 forbids it. -/
  | wbsNotAllowed
  /-- HOLD where R103 forbids it. -/
  | holdNotAllowed
  /-- Selector 15, or a slot field outside the entry's range (R262, R137). -/
  | mapSelector
  /-- A transpose bit with selector 0 (R262). -/
  | transposeNoSelector
  /-- A negate or absolute bit on a B-type source (R260). -/
  | signBitOnBType
  /-- COUNT = 0 (R256). -/
  | countZero
  /-- A reserved value of a field the entry lists (R262). -/
  | reservedValue
  deriving DecidableEq, Repr

/-- A check: whether it passes, and the rejection when it does not. -/
abbrev Check := Bool × Reject

/-- The check that `b` holds, rejecting with `r`. -/
def ck (b : Bool) (r : Reject) : Check := (b, r)

/-- The operand code 0x000 that an unused field holds (20 intro). -/
def Opnd.unused : Opnd := .v 0

/-- Whether an operand is well formed: `bad` holds only codes that name no operand (14 R259). -/
def Opnd.wf : Opnd → Bool
  | .bad c => (0x14C ≤ c.toNat && c.toNat ≤ 0x14F) || 0x152 ≤ c.toNat
  | _ => true

/-- Whether a type is an S type. -/
def IntTy.signed : IntTy → Bool
  | .s32 | .s64 => true
  | .b32 | .b64 => false

/-- Width of an integer type in bits. -/
def IntTy.width : IntTy → Nat
  | .s32 | .b32 => 32
  | .s64 | .b64 => 64

def EltTy.isB : EltTy → Bool
  | .b32 | .b64 => true
  | _ => false

def EltTy.isFloat : EltTy → Bool
  | .f32 | .f16x2 | .bf16x2 => true
  | _ => false

/-- Width of an element type in bits: a 64-bit pair or one word (14 R263). -/
def EltTy.width : EltTy → Nat
  | .s64 | .b64 => 64
  | _ => 32

def EltTy.signed : EltTy → Bool
  | .s32 | .s64 => true
  | _ => false

/-- Element width of a conversion type in bits (06 R116, R117). -/
def CvtTy.width : CvtTy → Nat
  | .f32 | .s32 | .b32 => 32
  | .f16 | .bf16 | .s16 | .b16 => 16
  | .e4m3 | .e5m2 | .e8m0 | .s8 | .b8 => 8
  | .e2m1 => 4
  | .s64 | .b64 => 64

/-- The conversion type of a code (14 R263); 15 is reserved. -/
def CvtTy.ofCode : Nat → Option CvtTy
  | 0 => some .f32 | 1 => some .f16 | 2 => some .bf16 | 3 => some .e4m3 | 4 => some .e5m2
  | 5 => some .e2m1 | 6 => some .e8m0 | 7 => some .s8 | 8 => some .s16 | 9 => some .s32
  | 10 => some .s64 | 11 => some .b8 | 12 => some .b16 | 13 => some .b32 | 14 => some .b64
  | _ => none

def FloTy.positions : FloTy → Nat
  | .f32 => 1
  | _ => 2

/-- Positions of a destination type in a 32-bit word (20 R311). -/
def CvtTy.slotsPerWord (t : CvtTy) : Nat := 32 / min t.width 32

/-- Whether a MACC source type carries block scales (07 R151). -/
def MaccTy.scaled : MaccTy → Bool
  | .e4m3x4 | .e5m2x4 | .e2m1x8 => true
  | _ => false

namespace Chk

/-- No rounding, saturation, ring or chain use: RM, SAT, WBS and HOLD are zero (R258, R261). -/
def plain (h : Hdr) : List Check :=
  [ck (h.rm == 0) .roundingCode, ck (!h.sat) .satNotAllowed, ck (!h.wbs) .wbsNotAllowed, ck (!h.hold) .holdNotAllowed]

/-- RM of a rounding opcode (R261). -/
def round (h : Hdr) : List Check := [ck (h.rm != 7) .roundingCode]

/-- RM as a scope; SAT, WBS and HOLD zero (R171). -/
def scope (h : Hdr) : List Check :=
  [ck (h.rm.toNat ≤ 4) .scopeCode, ck (!h.sat) .satNotAllowed, ck (!h.wbs) .wbsNotAllowed, ck (!h.hold) .holdNotAllowed]

def sat (h : Hdr) (ok : Bool) : List Check := [ck (!h.sat || ok) .satNotAllowed]

/-- WBS and HOLD of an instruction that may enter the ring (R101, R103). -/
def ring (h : Hdr) (d : Opnd) : List Check := [ck (!h.wbs || d == .zero) .wbsNotAllowed]

def noRing (h : Hdr) : List Check := [ck (!h.wbs) .wbsNotAllowed, ck (!h.hold) .holdNotAllowed]

/-- An operand field that the instruction does not read. -/
def unused (o : Opnd) : List Check := [ck (o == .unused) .fieldNotZero]

/-- A field that must hold ZERO, else ILLEGAL_ENCODING. -/
def isZero (o : Opnd) : List Check := [ck (o == .zero) .fieldNotZero]

/-- The map field of a source that the instruction reads (R262). -/
def selRead (m : BitVec 4) (t : Bool) : List Check :=
  [ck (m != 15) .mapSelector, ck (!t || m != 0) .transposeNoSelector]

/-- The map field of a source that the instruction does not read (R145). -/
def selNone (m : BitVec 4) (t : Bool) : List Check := [ck (m == 0) .fieldNotZero, ck (!t) .fieldNotZero]

/-- MOD bits outside `allowed` are zero. -/
def mod (m allowed : BitVec 7) : List Check := [ck (m &&& ~~~allowed == 0) .fieldNotZero]

/-- Negate and absolute bits: allowed on `mask` unless the source type is a B type (R260). -/
def sign (m mask : BitVec 7) (isB : Bool) : List Check := [ck (!isB || m &&& mask == 0) .signBitOnBType]

/-- IMM32 is zero when no source reads it (R253). -/
def imm (f : RFmt) : List Check :=
  [ck (f.a == .imm || f.b == .imm || f.c == .imm || f.imm == 0) .fieldNotZero]

def kimm (f : KFmt) : List Check :=
  [ck (f.a == .imm || f.b == .imm || f.c == .imm || f.kimm == 0) .fieldNotZero]

/-- The map fields of a format-R instruction that takes none. -/
def noMaps (f : RFmt) : List Check := selNone f.ma f.ta ++ selNone f.mb f.tb ++ selNone f.mc f.tc

def noMapsM (f : MFmt) : List Check := selNone f.ma f.ta ++ selNone f.mc f.tc

/-- SPACE 0 to 2 (R255, R262). -/
def space (f : MFmt) : List Check := [ck (f.space.toNat ≤ 2) .reservedValue]

/-- The sources a format-R instruction reads: A, then B, then C; the others are unused and unmapped. -/
def sources (f : RFmt) (n : Nat) : List Check :=
  selRead f.ma f.ta ++
  (if 2 ≤ n then selRead f.mb f.tb else unused f.b ++ selNone f.mb f.tb) ++
  (if 3 ≤ n then selRead f.mc f.tc else unused f.c ++ selNone f.mc f.tc)

/-- The mould of the integer class (R291, R346, R376): accepted types, sources, sign bits, other MOD bits, SAT. -/
def intClass (t : IntTy) (f : RFmt) (types : List IntTy) (n : Nat) (signMask extra : BitVec 7) (satOk : Bool) :
    List Check :=
  [ck (types.contains t) .typeCode] ++ round f.h ++ sat f.h satOk ++ ring f.h f.d ++ sources f n ++
  mod f.mod (signMask ||| extra) ++ sign f.mod signMask (!t.signed) ++ imm f

def signA : BitVec 7 := 0b0000011#7
def signAB : BitVec 7 := 0b0001111#7
def signABC : BitVec 7 := 0b0111111#7
def allInt : List IntTy := [.s32, .b32, .s64, .b64]
def bOnly : List IntTy := [.b32, .b64]
def sOnly : List IntTy := [.s32, .s64]

/-- The mould of the float class (R320). -/
def floClass (f : RFmt) (n : Nat) (extra : BitVec 7) (satOk : Bool) : List Check :=
  round f.h ++ sat f.h satOk ++ ring f.h f.d ++ sources f n ++
  mod f.mod ((if n = 1 then signA else if n = 2 then signAB else signABC) ||| extra) ++ imm f

/-- The fields common to every sweep (R256). -/
def sweep (f : SFmt) : List Check :=
  round f.h ++ noRing f.h ++ [ck (f.count != 0) .countZero] ++ selRead f.ma f.ta

/-- FADD, FMUL and FMA sweeps (R323). -/
def floSweep (f : SFmt) (signMask : BitVec 7) : List Check :=
  sweep f ++ selRead f.mb f.tb ++ mod f.mod signMask

/-- Destination code and position of CVT (R311). -/
def cvtMod (m : BitVec 7) : List Check :=
  match CvtTy.ofCode (bits m 0 4) with
  | none => [ck (false) .reservedValue]
  | some t => [ck (bits m 4 3 < t.slotsPerWord) .reservedValue]

/-- Target code 3, 4 or 5 of FAMAX and FQUANT (R331). -/
def quantTarget (m : BitVec 7) : List Check :=
  [ck (bits m 0 4 == 3 || bits m 0 4 == 4 || bits m 0 4 == 5) .reservedValue]

/-- Position of FQUANT's result (R332). -/
def quantPos (t : FloTy) (m : BitVec 7) : List Check :=
  [ck (bits m 4 3 % t.positions == 0 &&
    bits m 4 3 + t.positions - 1 < (if bits m 0 4 == 5 then 8 else 4)) .reservedValue]

/-- The slot field of the slot management instructions: 1 to 12, no transpose bit (R137, R364). -/
def slotField (m : BitVec 4) (t : Bool) : List Check :=
  [ck (1 ≤ m.toNat && m.toNat ≤ 12) .mapSelector, ck (!t) .fieldNotZero]

/-- SFMT 0 to 5 in MOD 91:89 (R135). -/
def sfmt (m : BitVec 7) : List Check := [ck (bits m 0 3 ≤ 5) .reservedValue]

/-- Rank and slot of LDL (R357). -/
def ldlMod (m : BitVec 7) (ma : BitVec 4) (ta : Bool) : List Check :=
  [ck (bits m 0 2 != 3) .reservedValue, ck (m &&& 0b1100000#7 == 0) .fieldNotZero] ++
  (if m.getLsbD 4 then [ck (ma != 0 && ma != 15) .mapSelector] else [ck (ma == 0) .mapSelector, ck (!ta) .fieldNotZero])

/-- MOD of MACC (R362). -/
def maccMod (s : MaccTy) (m : BitVec 7) (ma : BitVec 4) : List Check :=
  [ck (ma != 0 && ma != 15) .mapSelector, ck (m &&& 0b1000000#7 == 0) .fieldNotZero,
   ck (s.scaled || m &&& 0b0111100#7 == 0) .fieldNotZero]

/-- LRED and LSCAN (R358). -/
def lane (u : EltTy) (f : RFmt) (extra : BitVec 7) : List Check :=
  round f.h ++ ring f.h f.d ++ sources f 1 ++ mod f.mod (0b0111111#7 ||| extra) ++ sign f.mod signA u.isB ++
  [ck (bits f.mod 2 4 ≤ 5) .reservedValue, ck (bits f.mod 2 4 ≤ 2 || u.isB) .reservedValue,
   ck (!f.h.sat || u.isFloat || bits f.mod 2 4 == 0) .satNotAllowed] ++ imm f

/-- The lane instructions that take no map (R358 MATCH, R379). -/
def laneNoMap (f : RFmt) (readsB : Bool) : List Check :=
  round f.h ++ sat f.h false ++ ring f.h f.d ++ noMaps f ++ (if readsB then [] else unused f.b) ++ unused f.c ++ imm f

/-- RM and SEM of LD and ST (R353, R384): RM is a scope with .RLX, .ACQ or .REL, and zero when plain. -/
def semScope (f : MFmt) : List Check :=
  [ck (bits f.mod 4 2 != 3) .reservedValue, ck (if bits f.mod 4 2 == 0 then f.h.rm == 0 else f.h.rm.toNat ≤ 4) .scopeCode,
   ck (!f.h.sat) .satNotAllowed] ++ noRing f.h

/-- The address instructions that use no map field. -/
def address (f : MFmt) : List Check := noMapsM f ++ space f

/-- Types that an atomic operation takes (R171). -/
def atomTypes : Nat → List EltTy
  | 0 => [.s32, .b32, .s64, .b64]
  | 1 | 2 => [.s32, .b32, .s64, .b64]
  | 3 | 4 | 5 | 6 | 7 => [.b32, .b64]
  | 8 | 9 | 10 => [.f32, .f16x2, .bf16x2]
  | _ => []

def atomic (u : EltTy) (f : MFmt) : List Check :=
  scope f.h ++ address f ++ mod f.mod 0b0111111#7 ++
  [ck (bits f.mod 0 4 ≤ 10) .reservedValue, ck ((atomTypes (bits f.mod 0 4)).contains u) .typeCode]

/-- The barrier mould (R296). -/
def barrier (f : RFmt) (m : BitVec 7) : List Check := plain f.h ++ noMaps f ++ mod f.mod m ++ imm f

/-- The M-format task instructions and EXIT.J (R79, R318): MOD zero, C unused. -/
def taskAddr (f : MFmt) : List Check := plain f.h ++ address f ++ mod f.mod 0 ++ unused f.c

/-- A control instruction (R257, R301). -/
def control (f : CFmt) : List Check := plain f.h ++ unused f.b

def noGuard (h : Hdr) : List Check := [ck (h.guard == .always) .guardField]

/-- A control instruction with no operand (R345, R374). -/
def bare (f : CFmt) : List Check :=
  control f ++ unused f.d ++ unused f.a ++ [ck (f.xoff == 0) .fieldNotZero, ck (f.toff == 0) .fieldNotZero]

/-- A system instruction (R258). -/
def system (f : KFmt) (m : BitVec 7) : List Check := plain f.h ++ mod f.mod m ++ kimm f

/-- Special-register numbers that R105 lists. -/
def srNumbers : List Nat :=
  [0x00, 0x01, 0x02, 0x03, 0x04, 0x05, 0x06, 0x08, 0x0A, 0x0C, 0x0D, 0x0E, 0x10, 0x12, 0x14, 0x16, 0x18, 0x1A,
   0x1C, 0x1E, 0x20, 0x22, 0x24]

/-- MOVSR and SETSR: KIMM holds the number of a listed register (22 R372, 23 R392). -/
def specialReg (f : KFmt) : List Check :=
  plain f.h ++ mod f.mod 0 ++ [ck (srNumbers.contains f.kimm.toNat) .reservedValue]

end Chk

open Chk in
/-- Every encoding check of an instruction, in a fixed order. The device's own steps have no encoding. -/
def Instr.checks : Instr → List Check
  | .and t f | .andn t f | .or t f | .xor t f => intClass t f bOnly 2 signAB 0 false
  | .bfe t f => intClass t f allInt 2 signAB 0 false
  | .bfi t f => intClass t f bOnly 3 signABC 0 false
  | .brev t f | .clz t f | .popc t f => intClass t f bOnly 1 signA 0 false
  | .iabs t f => intClass t f sOnly 1 signA 0 true
  | .iadd t f | .imul t f | .isub t f => intClass t f allInt 2 signAB 0 true
  | .iaddImm64 _ f => round f.h ++ ring f.h f.d
  | .icmp t f =>
      intClass t f allInt 2 signAB 0b1110000#7 false ++ [ck (bits f.mod 4 3 ≤ 5) .reservedValue]
  | .imad t f => intClass t f allInt 3 signABC 0 true
  | .imax t f | .imin t f | .imulh t f => intClass t f allInt 2 signAB 0 false
  | .lea t f => intClass t f allInt 3 0 0 false
  | .prmt t f => intClass t f [.b32] 3 0 0 false
  | .sar t f => intClass t f sOnly 2 signA 0 false
  | .sel t f => intClass t f allInt 3 signAB 0 false
  | .shf t f => intClass t f bOnly 3 signAB 0b1000000#7 false
  | .shl t f | .shr t f => intClass t f bOnly 2 signA 0 false
  | .fadd _ f | .fmax _ f | .fmin _ f | .fmul _ f | .fscale _ f => floClass f 2 0 true
  | .fclass _ f | .fcospi _ f | .fexp2 _ f | .fgetexp _ f | .flog2 _ f | .frcp _ f | .frsq _ f | .fsinpi _ f
  | .fsqrt _ f => floClass f 1 0 true
  | .frnd _ f => floClass f 1 0 false
  | .fcmp _ f => floClass f 2 0b1110000#7 true
  | .fma _ f => floClass f 3 0 true
  | .faddSweep _ f | .fmulSweep _ f => floSweep f signAB
  | .fmaSweep _ f => floSweep f signABC
  | .cvt _ f => round f.h ++ ring f.h f.d ++ sources f 1 ++ cvtMod f.mod ++ imm f
  | .cvtSweep _ f => sweep f ++ selNone f.mb f.tb ++ unused f.b ++ [ck (f.stepB == 0) .fieldNotZero] ++ cvtMod f.mod
  | .famax _ f => round f.h ++ ring f.h f.d ++ sources f 1 ++ mod f.mod 0b0001111#7 ++ quantTarget f.mod ++ imm f
  | .fquant t f =>
      round f.h ++ ring f.h f.d ++ sources f 2 ++ quantTarget f.mod ++ quantPos t f.mod ++ imm f
  | .fquantSweep t f => sweep f ++ selRead f.mb f.tb ++ quantTarget f.mod ++ quantPos t f.mod
  | .census _ f => round f.h ++ sat f.h false ++ noRing f.h ++ noMaps f ++ mod f.mod 0 ++ imm f
  | .rng f => round f.h ++ sat f.h false ++ ring f.h f.d ++ noMaps f ++ mod f.mod 0 ++ imm f
  | .mapres f => plain f.h ++ noMaps f ++ unused f.b ++ unused f.c ++ mod f.mod 0 ++ imm f
  | .mapbind f =>
      plain f.h ++ unused f.d ++ unused f.c ++ slotField f.ma f.ta ++ selNone f.mc f.tc ++ space f ++
      mod f.mod 0b0011111#7 ++ sfmt f.mod
  | .mapwr f =>
      round f.h ++ noRing f.h ++ unused f.d ++ slotField f.ma f.ta ++ selNone f.mb f.tb ++ selNone f.mc f.tc ++
      mod f.mod 0b0011111#7 ++ sfmt f.mod ++ imm f
  | .maprd f =>
      round f.h ++ sat f.h false ++ ring f.h f.d ++ unused f.a ++ unused f.b ++ slotField f.ma f.ta ++
      selNone f.mb f.tb ++ selNone f.mc f.tc ++ mod f.mod 0b0111111#7 ++ sfmt f.mod ++
      [ck (bits f.mod 4 2 != 3) .reservedValue] ++ imm f
  | .maprel f =>
      plain f.h ++ isZero f.d ++ isZero f.a ++ isZero f.b ++ isZero f.c ++ slotField f.ma f.ta ++
      selNone f.mb f.tb ++ selNone f.mc f.tc ++ mod f.mod 0 ++ imm f
  | .ldl f =>
      round f.h ++ noRing f.h ++ unused f.c ++ space f ++ selRead f.ma f.ta ++ selNone f.mc f.tc ++
      ldlMod f.mod f.ma f.ta
  | .ldlSweep f =>
      sweep f ++ selNone f.mb f.tb ++ unused f.b ++ [ck (f.stepB == 0) .fieldNotZero, ck (f.stepA == 0) .reservedValue] ++
      ldlMod f.mod f.ma f.ta
  | .macc s f =>
      round f.h ++ ring f.h f.d ++ selRead f.ma f.ta ++ selNone f.mb f.tb ++ selNone f.mc f.tc ++
      maccMod s f.mod f.ma ++ imm f
  | .maccSweep s f => sweep f ++ selNone f.mb f.tb ++ maccMod s f.mod f.ma
  | .lred u f => lane u f 0
  | .lscan u f => lane u f 0b1000000#7
  | .matchLanes _ f | .part _ f => laneNoMap f false ++ mod f.mod 0
  | .shfl u f => laneNoMap f true ++ mod f.mod 0b0110011#7 ++ sign f.mod signA u.isB
  | .vote u f =>
      [ck (u == .b32) .typeCode] ++ laneNoMap f true ++ mod f.mod 0b0011100#7 ++ [ck (bits f.mod 2 3 ≤ 5) .reservedValue]
  | .ld _ f => semScope f ++ address f ++ unused f.c ++ mod f.mod 0b0110000#7
  | .lds _ f =>
      plain f.h ++ address f ++ unused f.c ++ mod f.mod 0b0000011#7 ++ [ck (bits f.mod 0 2 != 3) .reservedValue]
  | .st w f => [ck (w != .s8 && w != .s16) .typeCode] ++ semScope f ++ address f ++ mod f.mod 0b0110000#7
  | .sts w f =>
      [ck (w != .s8 && w != .s16) .typeCode] ++ plain f.h ++ address f ++ mod f.mod 0b0000011#7 ++
      [ck (bits f.mod 0 2 != 3) .reservedValue]
  | .atom u f => atomic u f
  | .red u f =>
      atomic u f ++ [ck (bits f.mod 0 4 != 7) .reservedValue, ck (bits f.mod 4 2 == 0 || bits f.mod 4 2 == 2) .reservedValue]
  | .pref f => plain f.h ++ address f ++ unused f.c ++ mod f.mod 0b0000001#7
  | .cctl f =>
      plain f.h ++ address f ++ mod f.mod 0b0000011#7 ++ [ck (bits f.mod 0 2 ≤ 1) .reservedValue]
  | .fence f =>
      scope f.h ++ unused f.d ++ unused f.a ++ unused f.b ++ unused f.c ++ mod f.mod 0b0000011#7 ++ kimm f ++
      [ck (bits f.mod 0 2 != 0) .reservedValue]
  | .copy f =>
      plain f.h ++ noMaps f ++ mod f.mod 0b0111111#7 ++
      [ck (bits f.mod 0 3 ≤ 3) .reservedValue,
       ck (if bits f.mod 0 3 == 2 then bits f.imm 20 12 == 0 && bits f.imm 16 4 ≤ 5
        else if bits f.mod 0 3 == 3 then bits f.imm 24 8 == 0 && bits f.imm 16 4 ≤ 2 && bits f.imm 20 4 ≤ 2
        else f.imm == 0) .reservedValue]
  | .binit f => barrier f 0b0000011#7 ++ unused f.d
  | .barr f =>
      barrier f 0b0000111#7 ++ unused f.d ++
      [ck (!f.mod.getLsbD 0 || f.b == .zero) .fieldNotZero, ck (f.mod.getLsbD 1 || f.c == .zero) .fieldNotZero]
  | .bexp f => barrier f 0b0000001#7 ++ unused f.d ++ unused f.c
  | .btest f => barrier f 0 ++ unused f.c
  | .bwait f => barrier f 0 ++ unused f.d ++ unused f.c
  | .waitc f => barrier f 0b0000011#7 ++ isZero f.d ++ isZero f.b ++ isZero f.c
  | .spawn f =>
      plain f.h ++ noMaps f ++ mod f.mod 0b0011111#7 ++
      [ck (bits f.mod 0 3 ≤ 4) .reservedValue, ck (bits f.imm 10 22 == 0) .fieldNotZero,
       ck (f.mod.getLsbD 4 || bits f.imm 0 10 == 0) .fieldNotZero]
  | .freg f =>
      plain f.h ++ noMaps f ++ mod f.mod 0b0001111#7 ++
      [ck (bits f.mod 0 3 ≤ 4) .reservedValue, ck (bits f.imm 10 22 == 0) .fieldNotZero]
  | .jdec f | .jwait f | .fres f | .exitJ f => taskAddr f
  | .bra f => control f ++ unused f.d ++ unused f.a ++ [ck (f.xoff == 0) .fieldNotZero]
  | .braD f => control f ++ unused f.d ++ unused f.a
  | .brk f =>
      control f ++ unused f.d ++ unused f.a ++
      [ck (bits f.xoff 8 24 == 0) .fieldNotZero, ck (bits f.xoff 0 8 != 0) .reservedValue]
  | .brx f | .ret f => control f ++ unused f.d ++ [ck (f.xoff == 0) .fieldNotZero]
  | .call f => control f ++ [ck (f.xoff == 0) .fieldNotZero]
  | .exit f => bare f
  | .gsync f | .join f | .nop f | .yield f => bare f ++ noGuard f.h
  | .bkpt f | .dflush f | .iret f => system f 0 ++ unused f.d ++ unused f.a ++ unused f.b ++ unused f.c
  | .fltrd f => system f 0b0000001#7 ++ unused f.a ++ unused f.b ++ unused f.c
  | .fmtset f =>
      system f 0b0011111#7 ++ unused f.d ++ unused f.b ++ unused f.c ++ [ck (bits f.mod 0 5 != 0) .reservedValue]
  | .movB32 f | .movB64 f => plain f.h ++ sources f 1 ++ mod f.mod 0 ++ imm f
  | .movB64Imm64 f => plain f.h ++ unused f.a
  | .movsr f =>
      specialReg f ++ unused f.b ++ unused f.c
  | .setsr f =>
      specialReg f ++ unused f.d ++ unused f.c
  | .pgmap f => plain f.h ++ address f ++ unused f.c ++ mod f.mod 0b0000001#7
  | .trap f => plain f.h ++ mod f.mod 0 ++ unused f.d ++ unused f.b ++ unused f.c
  | .trapEsc f =>
      system f 0b0000001#7 ++ unused f.d ++ unused f.a ++ unused f.b ++ unused f.c ++
      [ck (f.mod == 1) .reservedValue, ck (f.kimm == 0) .fieldNotZero]
  | .sweepIteration .. | .faultRecordDeferredDelivery .. | .hwBreakpoint .. | .loadReturn .. | .ldlReturn ..
  | .atomReturn .. | .storePerform .. | .atomicAtHome .. | .joinCounterDecrement .. | .jwaitWake .. | .censusFold ..
  | .futureRegistration .. | .futureResolution .. | .gateDecrement .. | .sluiceDeferredPark .. | .mapBindComplete ..
  | .panTimerExpiry .. | .panLaunch .. | .brineIntake .. | .deferredRecordFile .. | .groupRestore .. | .groupRetire ..
  | .teamRetire .. | .gridCompletion .. | .launchPacketTake .. | .queueTailUpdate .. | .teamDispatch
  | .concurrentPlacement .. | .reproWavePlacement .. | .queueAgeing .. | .preemptQueue .. | .resumeQueue ..
  | .preemptContext .. | .resumeContext .. | .splitHalt .. | .contextSave .. | .groupResume .. | .reproSyncProceed ..
  | .mapresDeferredGrant .. | .copyChunk .. | .copyCompletion .. | .c3CompletionRecord .. | .remoteCopyWrite ..
  | .sredInstanceReduce .. | .sredTimeoutAbort .. | .linkLoss .. | .checkCompare .. | .tlbLeaseExpiry .. | .reset ..
  | .selfCheckDone .. | .thermalEvent .. | .createContext .. | .terminateContext .. | .registerQueue ..
  | .releaseQueue .. | .quiesceDie .. | .faultRepaired .. | .setBreakpoints .. | .contextRead .. | .reductionGroup ..
  | .captureSet .. | .captureRead .. | .powerCap .. | .attest .. | .faultUnrepairable .. | .contextSettings ..
  | .resumeGroup .. | .poolAdd .. | .reservedEncoding .. | .instructionFetchFault .. | .reservedQueueCommand ..
  | .reservedManagementCommand | .debuggerHalt .. | .computeDiePowerOff | .hostDieAccess .. => []

/-- Whether a constructor is one of the device's own steps, which no word encodes. -/
def Instr.isEvent : Instr → Bool
  | .sweepIteration .. | .faultRecordDeferredDelivery .. | .hwBreakpoint .. | .loadReturn .. | .ldlReturn ..
  | .atomReturn .. | .storePerform .. | .atomicAtHome .. | .joinCounterDecrement .. | .jwaitWake .. | .censusFold ..
  | .futureRegistration .. | .futureResolution .. | .gateDecrement .. | .sluiceDeferredPark .. | .mapBindComplete ..
  | .panTimerExpiry .. | .panLaunch .. | .brineIntake .. | .deferredRecordFile .. | .groupRestore .. | .groupRetire ..
  | .teamRetire .. | .gridCompletion .. | .launchPacketTake .. | .queueTailUpdate .. | .teamDispatch
  | .concurrentPlacement .. | .reproWavePlacement .. | .queueAgeing .. | .preemptQueue .. | .resumeQueue ..
  | .preemptContext .. | .resumeContext .. | .splitHalt .. | .contextSave .. | .groupResume .. | .reproSyncProceed ..
  | .mapresDeferredGrant .. | .copyChunk .. | .copyCompletion .. | .c3CompletionRecord .. | .remoteCopyWrite ..
  | .sredInstanceReduce .. | .sredTimeoutAbort .. | .linkLoss .. | .checkCompare .. | .tlbLeaseExpiry .. | .reset ..
  | .selfCheckDone .. | .thermalEvent .. | .createContext .. | .terminateContext .. | .registerQueue ..
  | .releaseQueue .. | .quiesceDie .. | .faultRepaired .. | .setBreakpoints .. | .contextRead .. | .reductionGroup ..
  | .captureSet .. | .captureRead .. | .powerCap .. | .attest .. | .faultUnrepairable .. | .contextSettings ..
  | .resumeGroup .. | .poolAdd .. | .reservedEncoding .. | .instructionFetchFault .. | .reservedQueueCommand ..
  | .reservedManagementCommand | .debuggerHalt .. | .computeDiePowerOff | .hostDieAccess .. => true
  | _ => false

/-- The name of the first encoding check an instruction fails, if any. -/
def Instr.reject? (i : Instr) : Option Reject := (i.checks.find? (fun c => !c.1)).map Prod.snd

/-- The operand codes an instruction holds. -/
def Instr.opnds : Instr → List Opnd
  | .and _ f | .andn _ f | .bfe _ f | .bfi _ f | .brev _ f | .clz _ f | .iabs _ f | .iadd _ f | .icmp _ f | .imad _ f
  | .imax _ f | .imin _ f | .imul _ f | .imulh _ f | .isub _ f | .lea _ f | .or _ f | .popc _ f | .prmt _ f
  | .sar _ f | .sel _ f | .shf _ f | .shl _ f | .shr _ f | .xor _ f => [f.d, f.a, f.b, f.c]
  | .fadd _ f | .fclass _ f | .fcmp _ f | .fcospi _ f | .fexp2 _ f | .fgetexp _ f | .flog2 _ f | .fma _ f | .fmax _ f
  | .fmin _ f | .fmul _ f | .frcp _ f | .frnd _ f | .frsq _ f | .fscale _ f | .fsinpi _ f | .fsqrt _ f | .famax _ f
  | .fquant _ f => [f.d, f.a, f.b, f.c]
  | .cvt _ f | .census _ f | .macc _ f => [f.d, f.a, f.b, f.c]
  | .rng f | .mapres f | .mapwr f | .maprd f | .maprel f | .copy f | .binit f | .barr f | .bexp f | .btest f | .bwait f
  | .waitc f | .spawn f | .freg f | .movB32 f | .movB64 f => [f.d, f.a, f.b, f.c]
  | .lred _ f | .lscan _ f | .matchLanes _ f | .part _ f | .shfl _ f | .vote _ f => [f.d, f.a, f.b, f.c]
  | .iaddImm64 _ f | .movB64Imm64 f => [f.d, f.a, f.b]
  | .faddSweep _ f | .fmaSweep _ f | .fmulSweep _ f | .fquantSweep _ f | .cvtSweep _ f | .maccSweep _ f | .ldlSweep f =>
      [f.d, f.a, f.b]
  | .mapbind f | .ldl f | .ld _ f | .lds _ f | .st _ f | .sts _ f | .atom _ f | .red _ f | .pref f | .cctl f | .jdec f
  | .jwait f | .fres f | .exitJ f | .pgmap f => [f.d, f.a, f.b, f.c]
  | .bra f | .braD f | .brk f | .brx f | .call f | .ret f | .exit f | .gsync f | .join f | .nop f | .yield f =>
      [f.d, f.a, f.b]
  | .fence f | .bkpt f | .dflush f | .fltrd f | .fmtset f | .iret f | .movsr f | .setsr f | .trap f | .trapEsc f =>
      [f.d, f.a, f.b, f.c]
  | _ => []

/-- A well-formed machine instruction: an instruction word encodes it, every encoding check passes, and its operand
codes are codes. -/
def WellFormed (i : Instr) : Prop :=
  i.isEvent = false ∧ i.checks.all Prod.fst = true ∧ i.opnds.all Opnd.wf = true

end Sys2Proof
end

