-- ==== Sys2Proof/Decode.lean ====
section
/-!
DEFINITION. The decoder and the encoder of SN4 (14 R251 to R264). An instruction is split into an opcode and a body, one
of the six formats; `Body.word` and `Body.ofWord` lay a body out in its 128 bits, `Instr.parts` and `Instr.ofParts`
give each instruction its opcode. `decode` is total: a word that is no instruction is rejected by name.
-/
namespace Sys2Proof

/-- The 96 bits above word 0, by format, with the header of word 0 (R252). -/
inductive Body where
  | r (f : RFmt)
  | i (f : IFmt)
  | m (f : MFmt)
  | s (f : SFmt)
  | c (f : CFmt)
  | k (f : KFmt)
  deriving DecidableEq, Repr

/-- The six formats. -/
inductive Format where
  | r | i | m | s | c | k
  deriving DecidableEq, Repr

def Body.format : Body → Format
  | .r _ => .r | .i _ => .i | .m _ => .m | .s _ => .s | .c _ => .c | .k _ => .k

/-! Operand codes, guards and headers. -/

/-- The 10-bit code of an operand (05 R97). -/
def Opnd.code : Opnd → BitVec 10
  | .v n => BitVec.ofNat 10 n.val
  | .s n => BitVec.ofNat 10 (0x100 + n.val)
  | .o n => BitVec.ofNat 10 (0x140 + n.val)
  | .l n => BitVec.ofNat 10 (0x148 + n.val)
  | .zero => 0x150#10
  | .imm => 0x151#10
  | .bad c => c

/-- The operand a 10-bit code names (05 R97, R259). -/
def Opnd.ofCode (c : BitVec 10) : Opnd :=
  if h : c.toNat < 0x100 then .v ⟨c.toNat, h⟩
  else if h : c.toNat < 0x140 then .s ⟨c.toNat - 0x100, by omega⟩
  else if h : c.toNat < 0x148 then .o ⟨c.toNat - 0x140, by omega⟩
  else if h : c.toNat < 0x14C then .l ⟨c.toNat - 0x148, by omega⟩
  else if c = 0x150#10 then .zero
  else if c = 0x151#10 then .imm
  else .bad c

/-- One bit as a bit vector. -/
def bit1 (b : Bool) : BitVec 1 := BitVec.ofBool b

/-- Bits 31:16 of word 0: GR, GB, GN and GK (R251, R259). -/
def Guard.word : Guard → BitVec 16
  | .always => 0#16
  | .vector n b r => r ++ b ++ bit1 n ++ 0b01#2
  | .scalar n b r => r ++ b ++ bit1 n ++ 0b10#2

/-- The guard of bits 31:16 of word 0; none when GK = 11, or GK = 00 with other bits set (R262). -/
def Guard.ofWord (w : BitVec 16) : Option Guard :=
  match bits w 0 2 with
  | 0 => if w = 0#16 then some .always else none
  | 1 => some (.vector (w.getLsbD 2) (w.extractLsb' 3 5) (w.extractLsb' 8 8))
  | 2 => some (.scalar (w.getLsbD 2) (w.extractLsb' 3 5) (w.extractLsb' 8 8))
  | _ => none

/-- Bits 31:10 of word 0 (R251). -/
def Hdr.word (h : Hdr) : BitVec 22 :=
  h.guard.word ++ bit1 h.hold ++ bit1 h.wbs ++ bit1 h.sat ++ h.rm

def Hdr.ofWord (w : BitVec 22) : Option Hdr :=
  (Guard.ofWord (w.extractLsb' 6 16)).map fun g =>
    { rm := w.extractLsb' 0 3, sat := w.getLsbD 3, wbs := w.getLsbD 4, hold := w.getLsbD 5, guard := g }

/-! The six formats, from bit 127 down to bit 10 (R252). -/

def RFmt.word (f : RFmt) : BitVec 118 :=
  f.imm ++ f.mod ++ bit1 f.tc ++ bit1 f.tb ++ bit1 f.ta ++ f.mc ++ f.mb ++ f.ma ++ f.c.code ++ 0#2 ++ f.b.code ++
  f.a.code ++ f.d.code ++ f.h.word

/-- In format I bits 127:96 are the low and bits 95:64 the high half of the immediate (R254). -/
def IFmt.word (f : IFmt) : BitVec 118 :=
  f.imm64.extractLsb' 0 32 ++ f.imm64.extractLsb' 32 32 ++ 0#2 ++ f.b.code ++ f.a.code ++ f.d.code ++ f.h.word

def MFmt.word (f : MFmt) : BitVec 118 :=
  f.disp ++ f.mod ++ bit1 f.tc ++ 0#1 ++ bit1 f.ta ++ f.mc ++ f.space ++ f.ma ++ f.c.code ++ 0#2 ++ f.b.code ++
  f.a.code ++ f.d.code ++ f.h.word

def SFmt.word (f : SFmt) : BitVec 118 :=
  f.stepD ++ f.stepA ++ f.count ++ f.mod ++ 0#1 ++ bit1 f.tb ++ bit1 f.ta ++ 0#4 ++ f.mb ++ f.ma ++ f.stepB ++ 0#2 ++
  f.b.code ++ f.a.code ++ f.d.code ++ f.h.word

def CFmt.word (f : CFmt) : BitVec 118 :=
  f.toff ++ f.xoff ++ 0#2 ++ f.b.code ++ f.a.code ++ f.d.code ++ f.h.word

def KFmt.word (f : KFmt) : BitVec 118 :=
  f.kimm ++ f.mod ++ 0#15 ++ f.c.code ++ 0#2 ++ f.b.code ++ f.a.code ++ f.d.code ++ f.h.word

/-- Bits 127:10 of a body's word. -/
def Body.word : Body → BitVec 118
  | .r f => f.word | .i f => f.word | .m f => f.word | .s f => f.word | .c f => f.word | .k f => f.word

/-- Whether the bits that the format marks with a dash are zero (R252). Bit numbers are those of the 118-bit value. -/
def Format.dashesZero (F : Format) (w : BitVec 118) : Bool :=
  bits w 52 2 == 0 &&
  match F with
  | .r | .i | .c => true
  | .m => bits w 77 1 == 0
  | .s => bits w 72 4 == 0 && bits w 78 1 == 0
  | .k => bits w 64 15 == 0

/-- The operand field whose lowest bit is `lo` of the word. -/
def opndAt (w : BitVec 118) (lo : Nat) : Opnd := Opnd.ofCode (w.extractLsb' lo 10)

/-- The body of format `F` that bits 127:10 hold, given the header. -/
def Format.body (F : Format) (h : Hdr) (w : BitVec 118) : Body :=
  let d := opndAt w 22
  let a := opndAt w 32
  let b := opndAt w 42
  let c := opndAt w 54
  let mod : BitVec 7 := w.extractLsb' 79 7
  match F with
  | .r => .r { h, d, a, b, c, ma := w.extractLsb' 64 4, mb := w.extractLsb' 68 4, mc := w.extractLsb' 72 4,
               ta := w.getLsbD 76, tb := w.getLsbD 77, tc := w.getLsbD 78, mod, imm := w.extractLsb' 86 32 }
  | .i => .i { h, d, a, b, imm64 := w.extractLsb' 54 32 ++ w.extractLsb' 86 32 }
  | .m => .m { h, d, a, b, c, ma := w.extractLsb' 64 4, space := w.extractLsb' 68 4, mc := w.extractLsb' 72 4,
               ta := w.getLsbD 76, tc := w.getLsbD 78, mod, disp := w.extractLsb' 86 32 }
  | .s => .s { h, d, a, b, stepB := w.extractLsb' 54 10, ma := w.extractLsb' 64 4, mb := w.extractLsb' 68 4,
               ta := w.getLsbD 76, tb := w.getLsbD 77, mod, count := w.extractLsb' 86 12,
               stepA := w.extractLsb' 98 10, stepD := w.extractLsb' 108 10 }
  | .c => .c { h, d, a, b, xoff := w.extractLsb' 54 32, toff := w.extractLsb' 86 32 }
  | .k => .k { h, d, a, b, c, mod, kimm := w.extractLsb' 86 32 }

/-! Type codes (R263). -/

def IntTy.code : IntTy → Nat
  | .s32 => 0 | .b32 => 1 | .s64 => 2 | .b64 => 3

def IntTy.ofCode : Nat → Option IntTy
  | 0 => some .s32 | 1 => some .b32 | 2 => some .s64 | 3 => some .b64 | _ => none

def FloTy.code : FloTy → Nat
  | .f32 => 0 | .f16x2 => 1 | .bf16x2 => 2

def FloTy.ofCode : Nat → Option FloTy
  | 0 => some .f32 | 1 => some .f16x2 | 2 => some .bf16x2 | _ => none

def EltTy.code : EltTy → Nat
  | .s32 => 0 | .b32 => 1 | .s64 => 2 | .b64 => 3 | .f32 => 4 | .f16x2 => 5 | .bf16x2 => 6

def EltTy.ofCode : Nat → Option EltTy
  | 0 => some .s32 | 1 => some .b32 | 2 => some .s64 | 3 => some .b64 | 4 => some .f32 | 5 => some .f16x2
  | 6 => some .bf16x2 | _ => none

def Width.code : Width → Nat
  | .b8 => 0 | .s8 => 1 | .b16 => 2 | .s16 => 3 | .b32 => 4 | .b64 => 5

def Width.ofCode : Nat → Option Width
  | 0 => some .b8 | 1 => some .s8 | 2 => some .b16 | 3 => some .s16 | 4 => some .b32 | 5 => some .b64 | _ => none

def CvtTy.code : CvtTy → Nat
  | .f32 => 0 | .f16 => 1 | .bf16 => 2 | .e4m3 => 3 | .e5m2 => 4 | .e2m1 => 5 | .e8m0 => 6 | .s8 => 7 | .s16 => 8
  | .s32 => 9 | .s64 => 10 | .b8 => 11 | .b16 => 12 | .b32 => 13 | .b64 => 14

def CenTy.code : CenTy → Nat
  | .f32 => 0 | .f16x2 => 1 | .bf16x2 => 2 | .e4m3x4 => 3 | .e5m2x4 => 4 | .e2m1x8 => 5

def CenTy.ofCode : Nat → Option CenTy
  | 0 => some .f32 | 1 => some .f16x2 | 2 => some .bf16x2 | 3 => some .e4m3x4 | 4 => some .e5m2x4
  | 5 => some .e2m1x8 | _ => none

def MaccTy.code : MaccTy → Nat
  | .bf16x2 => 0 | .f16x2 => 1 | .f32 => 2 | .e4m3x4 => 3 | .e5m2x4 => 4 | .e2m1x8 => 5 | .s8x4 => 6

def MaccTy.ofCode : Nat → Option MaccTy
  | 0 => some .bf16x2 | 1 => some .f16x2 | 2 => some .f32 | 3 => some .e4m3x4 | 4 => some .e5m2x4
  | 5 => some .e2m1x8 | 6 => some .s8x4 | _ => none

/-! The opcode map (R264). -/

/-- The integer class: function number `f` of 0x004 + 4f + t. -/
def intOf (f : Nat) (t : IntTy) (x : RFmt) : Option Instr :=
  match f with
  | 0 => some (.and t x) | 1 => some (.andn t x) | 2 => some (.bfe t x) | 3 => some (.bfi t x)
  | 4 => some (.brev t x) | 5 => some (.clz t x) | 6 => some (.iabs t x) | 7 => some (.iadd t x)
  | 8 => some (.icmp t x) | 9 => some (.imad t x) | 10 => some (.imax t x) | 11 => some (.imin t x)
  | 12 => some (.imul t x) | 13 => some (.imulh t x) | 14 => some (.isub t x) | 15 => some (.lea t x)
  | 16 => some (.or t x) | 17 => some (.popc t x) | 18 => some (.prmt t x) | 19 => some (.sar t x)
  | 20 => some (.sel t x) | 21 => some (.shf t x) | 22 => some (.shl t x) | 23 => some (.shr t x)
  | 24 => some (.xor t x)
  | _ => none

/-- The float class: function number `f` of 0x080 + 4f + t. -/
def floOf (f : Nat) (t : FloTy) (x : RFmt) : Option Instr :=
  match f with
  | 0 => some (.fadd t x) | 1 => some (.fclass t x) | 2 => some (.fcmp t x) | 3 => some (.fcospi t x)
  | 4 => some (.fexp2 t x) | 5 => some (.fgetexp t x) | 6 => some (.flog2 t x) | 7 => some (.fma t x)
  | 8 => some (.fmax t x) | 9 => some (.fmin t x) | 10 => some (.fmul t x) | 11 => some (.frcp t x)
  | 12 => some (.frnd t x) | 13 => some (.frsq t x) | 14 => some (.fscale t x) | 15 => some (.fsinpi t x)
  | 16 => some (.fsqrt t x)
  | _ => none

/-- The lane class: function number `f` of 0x180 + 8f + u. -/
def laneOf (f : Nat) (u : EltTy) (x : RFmt) : Option Instr :=
  match f with
  | 0 => some (.lred u x) | 1 => some (.lscan u x) | 2 => some (.matchLanes u x) | 3 => some (.part u x)
  | 4 => some (.shfl u x) | 5 => some (.vote u x)
  | _ => none

/-- Loads and stores: function number `f` of 0x1C0 + 8f + w. -/
def memOf (f : Nat) (w : Width) (x : MFmt) : Option Instr :=
  match f with
  | 0 => some (.ld w x) | 1 => some (.st w x) | 2 => some (.lds w x) | 3 => some (.sts w x)
  | _ => none

/-- Codes of format R that carry no type. -/
def plainR (c : Nat) (x : RFmt) : Option Instr :=
  match c with
  | 0x132 => some (.rng x) | 0x140 => some (.mapres x) | 0x142 => some (.mapwr x) | 0x143 => some (.maprd x)
  | 0x144 => some (.maprel x) | 0x240 => some (.copy x) | 0x248 => some (.binit x) | 0x249 => some (.barr x)
  | 0x24A => some (.bexp x) | 0x24B => some (.btest x) | 0x24C => some (.bwait x) | 0x24D => some (.waitc x)
  | 0x280 => some (.spawn x) | 0x283 => some (.freg x) | 0x305 => some (.movB32 x) | 0x306 => some (.movB64 x)
  | _ => none

/-- The instruction of a format-R code. -/
def Instr.ofR (c : Nat) (x : RFmt) : Option Instr :=
  if 0x004 ≤ c ∧ c ≤ 0x067 then (IntTy.ofCode ((c - 4) % 4)).bind fun t => intOf ((c - 4) / 4) t x
  else if 0x080 ≤ c ∧ c ≤ 0x0C3 then (FloTy.ofCode (c % 4)).bind fun t => floOf ((c - 0x80) / 4) t x
  else if 0x100 ≤ c ∧ c ≤ 0x10F then (CvtTy.ofCode (c - 0x100)).map fun t => .cvt t x
  else if 0x120 ≤ c ∧ c ≤ 0x123 then (FloTy.ofCode (c - 0x120)).map fun t => .famax t x
  else if 0x124 ≤ c ∧ c ≤ 0x127 then (FloTy.ofCode (c - 0x124)).map fun t => .fquant t x
  else if 0x12C ≤ c ∧ c ≤ 0x131 then (CenTy.ofCode (c - 0x12C)).map fun t => .census t x
  else if 0x150 ≤ c ∧ c ≤ 0x15D then (MaccTy.ofCode ((c - 0x150) / 2)).map fun t => .macc t x
  else if 0x180 ≤ c ∧ c ≤ 0x1AF then (EltTy.ofCode (c % 8)).bind fun t => laneOf ((c - 0x180) / 8) t x
  else plainR c x

/-- The instruction of a format-I code. -/
def Instr.ofI (c : Nat) (x : IFmt) : Option Instr :=
  match c with
  | 0x068 => some (.iaddImm64 true x) | 0x069 => some (.iaddImm64 false x) | 0x30B => some (.movB64Imm64 x)
  | _ => none

/-- The instruction of a format-M code. -/
def Instr.ofM (c : Nat) (x : MFmt) : Option Instr :=
  if 0x1C0 ≤ c ∧ c ≤ 0x1DF then (Width.ofCode (c % 8)).bind fun w => memOf ((c - 0x1C0) / 8) w x
  else if 0x1E0 ≤ c ∧ c ≤ 0x1E7 then (EltTy.ofCode (c - 0x1E0)).map fun u => .atom u x
  else if 0x1E8 ≤ c ∧ c ≤ 0x1EF then (EltTy.ofCode (c - 0x1E8)).map fun u => .red u x
  else match c with
  | 0x141 => some (.mapbind x) | 0x14C => some (.ldl x) | 0x1F0 => some (.pref x) | 0x1F1 => some (.cctl x)
  | 0x281 => some (.jdec x) | 0x282 => some (.jwait x) | 0x284 => some (.fres x) | 0x2C6 => some (.exitJ x)
  | 0x308 => some (.pgmap x)
  | _ => none

/-- The instruction of a format-S code. -/
def Instr.ofS (c : Nat) (x : SFmt) : Option Instr :=
  if 0x0C4 ≤ c ∧ c ≤ 0x0C7 then (FloTy.ofCode (c - 0x0C4)).map fun t => .faddSweep t x
  else if 0x0C8 ≤ c ∧ c ≤ 0x0CB then (FloTy.ofCode (c - 0x0C8)).map fun t => .fmaSweep t x
  else if 0x0CC ≤ c ∧ c ≤ 0x0CF then (FloTy.ofCode (c - 0x0CC)).map fun t => .fmulSweep t x
  else if 0x110 ≤ c ∧ c ≤ 0x11F then (CvtTy.ofCode (c - 0x110)).map fun t => .cvtSweep t x
  else if 0x128 ≤ c ∧ c ≤ 0x12B then (FloTy.ofCode (c - 0x128)).map fun t => .fquantSweep t x
  else if 0x150 ≤ c ∧ c ≤ 0x15D then (MaccTy.ofCode ((c - 0x151) / 2)).map fun t => .maccSweep t x
  else if c = 0x14D then some (.ldlSweep x)
  else none

/-- The instruction of a format-C code. -/
def Instr.ofC (c : Nat) (x : CFmt) : Option Instr :=
  match c with
  | 0x2C0 => some (.bra x) | 0x2C1 => some (.braD x) | 0x2C2 => some (.brk x) | 0x2C3 => some (.brx x)
  | 0x2C4 => some (.call x) | 0x2C5 => some (.exit x) | 0x2C7 => some (.gsync x) | 0x2C8 => some (.join x)
  | 0x2C9 => some (.nop x) | 0x2CA => some (.ret x) | 0x2CB => some (.yield x)
  | _ => none

/-- The instruction of a format-K code. -/
def Instr.ofK (c : Nat) (x : KFmt) : Option Instr :=
  match c with
  | 0x1F2 => some (.fence x) | 0x300 => some (.bkpt x) | 0x301 => some (.dflush x) | 0x302 => some (.fltrd x)
  | 0x303 => some (.fmtset x) | 0x304 => some (.iret x) | 0x307 => some (.movsr x) | 0x309 => some (.setsr x)
  | 0x30A => some (if x.mod.getLsbD 0 then .trapEsc x else .trap x)
  | _ => none

/-- The format of an opcode (R264); none for a code that the map does not list, except that a reserved type code of a
listed row is rejected by `Instr.ofParts`. -/
def Format.ofOpcode (c : Nat) : Option Format :=
  if 0x004 ≤ c ∧ c ≤ 0x067 then some .r
  else if c = 0x068 ∨ c = 0x069 ∨ c = 0x30B then some .i
  else if 0x080 ≤ c ∧ c ≤ 0x0C3 then some .r
  else if 0x0C4 ≤ c ∧ c ≤ 0x0CF then some .s
  else if 0x100 ≤ c ∧ c ≤ 0x10F then some .r
  else if 0x110 ≤ c ∧ c ≤ 0x11F then some .s
  else if 0x120 ≤ c ∧ c ≤ 0x127 then some .r
  else if 0x128 ≤ c ∧ c ≤ 0x12B then some .s
  else if 0x12C ≤ c ∧ c ≤ 0x132 then some .r
  else if 0x140 ≤ c ∧ c ≤ 0x144 then some (if c = 0x141 then .m else .r)
  else if c = 0x14C then some .m
  else if c = 0x14D then some .s
  else if 0x150 ≤ c ∧ c ≤ 0x15D then some (if c % 2 = 0 then .r else .s)
  else if 0x180 ≤ c ∧ c ≤ 0x1AF then some .r
  else if 0x1C0 ≤ c ∧ c ≤ 0x1F1 then some .m
  else if c = 0x1F2 then some .k
  else if c = 0x240 ∨ (0x248 ≤ c ∧ c ≤ 0x24D) then some .r
  else if 0x280 ≤ c ∧ c ≤ 0x284 then some (if c = 0x280 ∨ c = 0x283 then .r else .m)
  else if 0x2C0 ≤ c ∧ c ≤ 0x2CB then some (if c = 0x2C6 then .m else .c)
  else if 0x300 ≤ c ∧ c ≤ 0x304 then some .k
  else if c = 0x305 ∨ c = 0x306 then some .r
  else if c = 0x308 then some .m
  else if c = 0x307 ∨ c = 0x309 ∨ c = 0x30A then some .k
  else none

/-- The instruction of an opcode and a body. -/
def Instr.ofParts (c : Nat) : Body → Option Instr
  | .r x => Instr.ofR c x
  | .i x => Instr.ofI c x
  | .m x => Instr.ofM c x
  | .s x => Instr.ofS c x
  | .c x => Instr.ofC c x
  | .k x => Instr.ofK c x

/-- The opcode and the body of an instruction (R264); none for a step of the device, which no word encodes. -/
def Instr.parts : Instr → Option (Nat × Body)
  | .and t f => some (0x004 + t.code, .r f)
  | .andn t f => some (0x008 + t.code, .r f)
  | .bfe t f => some (0x00C + t.code, .r f)
  | .bfi t f => some (0x010 + t.code, .r f)
  | .brev t f => some (0x014 + t.code, .r f)
  | .clz t f => some (0x018 + t.code, .r f)
  | .iabs t f => some (0x01C + t.code, .r f)
  | .iadd t f => some (0x020 + t.code, .r f)
  | .iaddImm64 sg f => some (if sg then 0x068 else 0x069, .i f)
  | .icmp t f => some (0x024 + t.code, .r f)
  | .imad t f => some (0x028 + t.code, .r f)
  | .imax t f => some (0x02C + t.code, .r f)
  | .imin t f => some (0x030 + t.code, .r f)
  | .imul t f => some (0x034 + t.code, .r f)
  | .imulh t f => some (0x038 + t.code, .r f)
  | .isub t f => some (0x03C + t.code, .r f)
  | .lea t f => some (0x040 + t.code, .r f)
  | .or t f => some (0x044 + t.code, .r f)
  | .popc t f => some (0x048 + t.code, .r f)
  | .prmt t f => some (0x04C + t.code, .r f)
  | .sar t f => some (0x050 + t.code, .r f)
  | .sel t f => some (0x054 + t.code, .r f)
  | .shf t f => some (0x058 + t.code, .r f)
  | .shl t f => some (0x05C + t.code, .r f)
  | .shr t f => some (0x060 + t.code, .r f)
  | .xor t f => some (0x064 + t.code, .r f)
  | .fadd t f => some (0x080 + t.code, .r f)
  | .fclass t f => some (0x084 + t.code, .r f)
  | .fcmp t f => some (0x088 + t.code, .r f)
  | .fcospi t f => some (0x08C + t.code, .r f)
  | .fexp2 t f => some (0x090 + t.code, .r f)
  | .fgetexp t f => some (0x094 + t.code, .r f)
  | .flog2 t f => some (0x098 + t.code, .r f)
  | .fma t f => some (0x09C + t.code, .r f)
  | .fmax t f => some (0x0A0 + t.code, .r f)
  | .fmin t f => some (0x0A4 + t.code, .r f)
  | .fmul t f => some (0x0A8 + t.code, .r f)
  | .frcp t f => some (0x0AC + t.code, .r f)
  | .frnd t f => some (0x0B0 + t.code, .r f)
  | .frsq t f => some (0x0B4 + t.code, .r f)
  | .fscale t f => some (0x0B8 + t.code, .r f)
  | .fsinpi t f => some (0x0BC + t.code, .r f)
  | .fsqrt t f => some (0x0C0 + t.code, .r f)
  | .faddSweep t f => some (0x0C4 + t.code, .s f)
  | .fmaSweep t f => some (0x0C8 + t.code, .s f)
  | .fmulSweep t f => some (0x0CC + t.code, .s f)
  | .cvt c f => some (0x100 + c.code, .r f)
  | .cvtSweep c f => some (0x110 + c.code, .s f)
  | .famax t f => some (0x120 + t.code, .r f)
  | .fquant t f => some (0x124 + t.code, .r f)
  | .fquantSweep t f => some (0x128 + t.code, .s f)
  | .census e f => some (0x12C + e.code, .r f)
  | .rng f => some (0x132, .r f)
  | .mapres f => some (0x140, .r f)
  | .mapbind f => some (0x141, .m f)
  | .mapwr f => some (0x142, .r f)
  | .maprd f => some (0x143, .r f)
  | .maprel f => some (0x144, .r f)
  | .ldl f => some (0x14C, .m f)
  | .ldlSweep f => some (0x14D, .s f)
  | .macc m f => some (0x150 + 2 * m.code, .r f)
  | .maccSweep m f => some (0x151 + 2 * m.code, .s f)
  | .lred u f => some (0x180 + u.code, .r f)
  | .lscan u f => some (0x188 + u.code, .r f)
  | .matchLanes u f => some (0x190 + u.code, .r f)
  | .part u f => some (0x198 + u.code, .r f)
  | .shfl u f => some (0x1A0 + u.code, .r f)
  | .vote u f => some (0x1A8 + u.code, .r f)
  | .ld w f => some (0x1C0 + w.code, .m f)
  | .st w f => some (0x1C8 + w.code, .m f)
  | .lds w f => some (0x1D0 + w.code, .m f)
  | .sts w f => some (0x1D8 + w.code, .m f)
  | .atom u f => some (0x1E0 + u.code, .m f)
  | .red u f => some (0x1E8 + u.code, .m f)
  | .pref f => some (0x1F0, .m f)
  | .cctl f => some (0x1F1, .m f)
  | .fence f => some (0x1F2, .k f)
  | .copy f => some (0x240, .r f)
  | .binit f => some (0x248, .r f)
  | .barr f => some (0x249, .r f)
  | .bexp f => some (0x24A, .r f)
  | .btest f => some (0x24B, .r f)
  | .bwait f => some (0x24C, .r f)
  | .waitc f => some (0x24D, .r f)
  | .spawn f => some (0x280, .r f)
  | .jdec f => some (0x281, .m f)
  | .jwait f => some (0x282, .m f)
  | .freg f => some (0x283, .r f)
  | .fres f => some (0x284, .m f)
  | .bra f => some (0x2C0, .c f)
  | .braD f => some (0x2C1, .c f)
  | .brk f => some (0x2C2, .c f)
  | .brx f => some (0x2C3, .c f)
  | .call f => some (0x2C4, .c f)
  | .exit f => some (0x2C5, .c f)
  | .exitJ f => some (0x2C6, .m f)
  | .gsync f => some (0x2C7, .c f)
  | .join f => some (0x2C8, .c f)
  | .nop f => some (0x2C9, .c f)
  | .ret f => some (0x2CA, .c f)
  | .yield f => some (0x2CB, .c f)
  | .bkpt f => some (0x300, .k f)
  | .dflush f => some (0x301, .k f)
  | .fltrd f => some (0x302, .k f)
  | .fmtset f => some (0x303, .k f)
  | .iret f => some (0x304, .k f)
  | .movB32 f => some (0x305, .r f)
  | .movB64 f => some (0x306, .r f)
  | .movsr f => some (0x307, .k f)
  | .pgmap f => some (0x308, .m f)
  | .setsr f => some (0x309, .k f)
  | .trap f | .trapEsc f => some (0x30A, .k f)
  | .movB64Imm64 f => some (0x30B, .i f)
  | _ => none

/-! The decoder and the encoder. -/

/-- The instruction that a word's fields give, before its own encoding checks. -/
def parse (w : IWord) : Except Reject Instr :=
  let c := bits w 0 10
  let rest : BitVec 118 := w.extractLsb' 10 118
  match Format.ofOpcode c with
  | none => .error .reservedOpcode
  | some F =>
    if F.dashesZero rest then
      match Hdr.ofWord (rest.extractLsb' 0 22) with
      | none => .error .guardField
      | some h =>
        match Instr.ofParts c (F.body h rest) with
        | none => .error .typeCode
        | some i => .ok i
    else .error .dashBits

/-- The instruction a word encodes, or why it encodes none (R262). -/
def decode (w : IWord) : Except Reject Instr :=
  match parse w with
  | .error r => .error r
  | .ok i =>
    match i.reject? with
    | none => .ok i
    | some r => .error r

/-- The word of an instruction. A step of the device has none: it gets the word 0, which is no instruction (R262), and
a reserved encoding its own word. -/
def encode (i : Instr) : IWord :=
  match i.parts with
  | some (c, b) => b.word ++ BitVec.ofNat 10 c
  | none => match i with
    | .reservedEncoding w => w
    | _ => 0#128

/-- The word that 16 bytes hold, the first at the lowest address (R251). -/
def wordOfBytes (bs : List Byte) : IWord :=
  bs.foldr (fun b acc => (acc <<< 8) ||| b.zeroExtend 128) 0#128

/-- The 16 bytes of a word, little-endian. -/
def bytesOfWord (w : IWord) : List Byte := (List.range 16).map fun i => w.extractLsb' (8 * i) 8

/-- The instruction at the bits the opcode table gives a row: the word whose bits at and above `nbits` are zero, laid
out in memory order and decoded. -/
def decodeTableWord (nbits w : Nat) : Option Instr :=
  (decode (wordOfBytes (bytesOfWord (BitVec.ofNat 128 (w % 2 ^ nbits))))).toOption

end Sys2Proof
end

