-- ==== Sys2Proof/Machine/State.lean ====
section
/-!
DEFINITION. The state of the Sheran Z4, as plain data: the package, its dies and cores, contexts, queues, grids, teams,
groups, splits, and everything issued and not yet performed. INVENTORY.md lists each piece with the rule that names it.
Fields marked MODEL'S OWN are no state of the manual.
-/
namespace Sys2Proof.Machine

/-- Why the machine stops. -/
inductive Fault where
  /-- Raised by `exec` for an instruction of a split when no split is issuing (`State.cur` names none, or names one that
  does not exist). `step` never raises it. Safe: nothing happens. -/
  | noIssuer
  deriving DecidableEq, Repr

/-- Why the model gives no meaning. -/
inductive Refusal where
  /-- Raised by an arm of `exec` whose instruction has no meaning in the model yet. Safe: nothing happens. -/
  | notModelled (mnemonic : String)
  deriving DecidableEq, Repr

/-- The three address spaces (14 R255). -/
inductive Space where
  | global | scratch | priv
  deriving DecidableEq, Repr

/-- The scopes of the memory model (09 R178). -/
inductive Scope where
  | grp | team | core | dev | sys
  deriving DecidableEq, Repr

/-! ## Registers of quarters and groups -/

/-- Who wrote a latch: group and split (03 R75), and how often the split's MEMBERS had changed by then (05 R102). -/
structure Tag where
  gid : Nat
  sid : Nat
  epoch : Nat
  deriving DecidableEq, Repr

/-- One latch of a quarter's ring (05 R100). -/
structure Latch where
  val : LaneVec
  tag : Option Tag
  deriving DecidableEq, Repr

/-- A completed .DEV phase whose waiters still wait for the reductions that its harvest applied (09 R189): the phase's key, and
the greatest LT among its events (12 R230, R233). -/
structure PhaseDue where
  key : Nat × Nat
  lt : Option Nat
  deriving DecidableEq, Repr

/-- What a split waits for (03 R53, R67). `seen`: the home has met zero since (04 R93), and `lt` is the logical time of the
decrement that made it (12 R230). -/
inductive SplitState where
  | ready
  | joined
  | synced
  | waitJoin (va : DWord) (pa : Nat) (seen : Bool) (lt : Option Nat)
  | waitPhase (off phase : Nat) (due : Option PhaseDue)
  deriving DecidableEq, Repr

/-- A split entry (03 R53) with the facts the scheduler keeps about it. -/
structure Split where
  sid : Nat
  members : Lanes
  /-- How often MEMBERS has changed (05 R102). -/
  epoch : Nat
  em : Lanes
  pc : DWord
  fmt : BitVec 9
  region : Option Nat
  state : SplitState
  swpidx : Nat
  /-- In the hardware table, not in the split area (03 R56). -/
  resident : Bool
  /-- Order of parking, for the victims of R56 and the evictions of R89. -/
  parkSeq : Nat
  /-- CLOCK of the last issue (12 R229). -/
  stamp : Nat
  /-- MODEL'S OWN: its agent of the memory model, and the agents whose accesses come before (09 R174, R184). -/
  agent : Nat
  before : List Nat
  /-- Instructions issued in the current hold chain, and the PC of its first (05 R103, R104). -/
  chainLen : Nat
  chainPC : DWord
  /-- The sweep in progress and its next iteration (14 R270). -/
  sweep : Option (Instr × Nat)
  /-- The request whose reply its instruction waits for (04 R96, R341). -/
  awaiting : Option Nat
  /-- A synchronising operation waits for its key within a scope, or may now proceed (12 R231). -/
  syncWait : Option Scope
  syncOk : Bool
  /-- Its next instruction is fetched afresh, after CCTL (20 R305). -/
  refetch : Bool
  /-- The next issue does not match breakpoints (11 R219). -/
  bpSkip : Bool
  /-- A breakpoint address reached inside the current hold chain (11 R218). -/
  bpMatch : Option DWord
  /-- It stands at its halt point (11 R214). -/
  halted : Bool
  /-- Its last YIELD: CLOCK then, and the splits that were eligible beside it, each as group, split and `issues` (23
  R375). -/
  yield : Option (Nat × List (Nat × Nat × Nat))
  /-- MODEL'S OWN: how many instructions it has issued. -/
  issues : Nat
  deriving DecidableEq, Repr

/-- A region entry (03 R54). `depth` is its distance from the outermost; `seq` its order of opening (R56). -/
structure Region where
  rid : Nat
  joinPC : DWord
  expected : Lanes
  arrived : Lanes
  savedEM : Lanes
  savedFMT : BitVec 9
  parent : Option Nat
  depth : Nat
  seq : Nat
  resident : Bool
  /-- MODEL'S OWN: agents of the splits that arrived, or exited inside it, whose accesses come before those of the split
  that its close makes (09 R184). -/
  agents : List Nat
  deriving DecidableEq, Repr

/-- The trap shadow (11 R211): what trap entry saves and IRET restores. -/
structure Shadow where
  sid : Nat
  em : Lanes
  fmt : BitVec 9
  swpidx : Nat
  status : BitVec 6
  s56 : List Word
  ring : List Latch
  /-- PC at which the trap was taken (11 R212). -/
  pc : DWord
  chainLen : Nat
  chainPC : DWord
  /-- A breakpoint address reached inside that chain (11 R218). -/
  bpMatch : Option DWord
  /-- What its record would hold in AUX0 and AUX1, for TRAP.ESC (11 R213). -/
  aux0 : DWord
  aux1 : DWord
  deriving DecidableEq, Repr

/-- State of a logical map slot (07 R135). -/
inductive SlotState where
  | unbound | binding | bound
  deriving DecidableEq, Repr

/-- A logical slot m1 to m12 (07 R135). `bad`: an image error left it UNBOUND; the MAPBIND's PC and the physical
address (07 R141). -/
structure Slot where
  st : SlotState
  phys : Nat
  sfmt : Nat
  src : DWord
  space : Space
  tbind : Bool
  reload : Bool
  bad : Option (DWord × Nat)
  /-- It is to be bound again from its source before the group issues (07 R155). -/
  rebind : Bool
  deriving DecidableEq, Repr

/-- A reserved physical slot: its number in the quarter, 64 x 64 elements by row, and scales `2i + b` (07 R136). -/
structure PhysSlot where
  num : Nat
  elems : List (BitVec 16)
  scales : List Byte
  deriving DecidableEq, Repr

/-- The four engine classes (08 R159). -/
inductive EngClass where
  | c0 | c1 | c2 | c3
  deriving DecidableEq, Repr

/-- One operation that an engine counter counts: counters fall in order (08 R159). -/
structure EngOp where
  cls : EngClass
  op : Nat
  done : Bool
  deriving DecidableEq, Repr

/-- A load that met an uncorrectable error, not yet delivered (10 R205): the load's PC, the physical address, its
destination registers as operand codes. -/
structure BadLoad where
  pc : DWord
  pa : Nat
  dst : List Opnd
  deriving DecidableEq, Repr

/-- How far a restored group has come (11 R217): `due`, nothing of it issues until GROUP_RESUME; `faulted`, a re-bind met a
fault, and only its handler issues until the re-bind succeeds (07 R155). -/
inductive Resume where
  | done | due | faulted
  deriving DecidableEq, Repr

/-- Where a group or a team is: on its core, moved out of the way (04 R89), or saved by a pre-emption (11 R216). -/
inductive Place where
  | resident | evicted | saved
  deriving DecidableEq, Repr

/-! ## Records for the driver -/

/-- A trap record (11 R206). -/
structure TrapRec where
  cause : Nat
  source : Nat
  slot : Nat
  swpidx : Nat
  insweep : Bool
  inchain : Bool
  inhandler : Bool
  gridid : Nat
  pc : DWord
  mask : DWord
  aux0 : DWord
  aux1 : DWord
  core : Nat
  quarter : Nat
  grpid : Nat
  teamid : Nat
  time : Nat
  deriving DecidableEq, Repr

/-- How a group came to halt for the driver, which says how it may resume (13 R240). -/
inductive HaltKind where
  /-- A Handler cause in a context with no handler. -/
  | noHandler
  /-- A trap raised in a handler. -/
  | inHandler
  /-- TRAP.ESC. -/
  | escape
  /-- A hardware breakpoint, or BKPT. -/
  | breakpoint (bkpt : Bool)
  /-- A debugger's halt. -/
  | debugger
  /-- PRIVATE_HIGH_WATER, MEMORY_UNCORRECTABLE, FETCH_FAULT. -/
  | driver
  /-- A trap for the handler at which a checked copy stands until the comparison (12 R236). -/
  | compared
  deriving DecidableEq, Repr

/-- What a fault record stands for, for the commands of 13 R240. -/
inductive RecLink where
  | group (gid : Nat)
  | sluice (gid : Nat) (die page : Nat)
  | copy (cid : Nat)
  | log
  deriving DecidableEq, Repr

/-- A record for a context's fault ring, written or waiting for room (11 R208). -/
structure DriverRec where
  ctx : Nat
  body : TrapRec
  link : RecLink
  deriving DecidableEq, Repr

/-- A group halted for the driver. `at`: the address of its record, once delivered; a debugger's halt has none. -/
structure DriverHalt where
  kind : HaltKind
  body : TrapRec
  sid : Nat
  addr : Option Nat
  deriving DecidableEq, Repr

/-! ## Work -/

/-- An entry descriptor as the device reads it (01 R20). -/
structure Desc where
  code : DWord
  vregs0 : Nat
  vregs1 : Nat
  groups0 : Nat
  groups1 : Nat
  spad : Nat
  coal : Nat
  timer : Nat
  prog : Nat
  narrow : Bool
  repro : Bool
  checked : Bool
  spwok : Bool
  deriving DecidableEq, Repr

/-- A thread record (04 R77). A gated record's join address is its gate counter (R95). `handle` names an entry of
`State.handles`. `lt` is the logical time of the operation that filed it (12 R230). -/
structure ThreadRec where
  ctx : Nat
  grid : Nat
  entry : DWord
  desc : Desc
  n : Nat
  payload : List Word
  join : DWord
  gated : Bool
  handle : Option Nat
  lt : Nat
  deriving DecidableEq, Repr

/-- What a barrier object's phase has met: whether an arrival was .DEV (08 R170), the greatest LT among its events and the
key of its latest arrival (12 R230, R233). -/
structure PhaseInfo where
  phase : Nat
  dev : Bool
  lt : Option Nat
  key : Option (Nat × Nat)
  deriving DecidableEq, Repr

/-- What is known of a barrier object, by its offset in its scratchpad (08 R165). `lots`: the bytes landed and not yet used up
by a completed phase, oldest first, each lot with the LT of its copy (12 R230). `latent`: no instruction or copy has named the
object yet, and these are the 128 bits that it would hold had every store to it been followed by the check (log 53). -/
structure BarObj where
  off : Nat
  phases : List PhaseInfo
  lots : List (Nat × Nat)
  latent : Option Nat
  deriving DecidableEq, Repr

/-- A scratchpad region handed away by SPAWN.H (04 R78, R83): its first granule and count in the parent team, its bytes and
barrier objects while no child holds them, and the child team once launched. -/
structure Handle where
  hid : Nat
  core : Nat
  parent : Nat
  first : Nat
  count : Nat
  bytes : List Host.Cell
  objs : List BarObj
  child : Option Nat
  deriving DecidableEq, Repr

/-- A pan of a Rake (04 R84, R86). -/
structure Pan where
  grid : Nat
  entry : DWord
  recs : List ThreadRec
  timerStart : Nat
  expired : Bool
  deriving DecidableEq, Repr

/-- State of one element of an access in flight. `seen`: a global store that the agents of its core see while its home has
not performed it, with its place among those of the core (09 R178, R182); `parked`: in a Sluice, with its place in parking
order; `held`: in the core's request path, the Sluice being full (08 R173). -/
inductive ElemState where
  | pending | seen (seq : Nat) | parked (seq : Nat) | held (seq : Nat) | done
  deriving DecidableEq, Repr

/-- One access to one element (09 R174): a lane's, or one piece of a larger read. `pa` is the physical address when it was
translated at issue. `data2` holds the swap value of a CAS. `op`: the read-modify-write it makes. `res`: what it read;
`bad`: the physical address of an uncorrectable granule it met (10 R205). -/
structure Elem where
  lane : Nat
  space : Space
  va : DWord
  pa : Option Nat
  size : Nat
  data : DWord
  data2 : DWord
  u : EltTy
  op : Nat
  st : ElemState
  res : DWord
  bad : Option Nat
  deriving DecidableEq, Repr

/-- What an operation in flight does. -/
inductive OpKind where
  /-- LD, LDS: destination, whose form is scalar when it is a scalar register. -/
  | load (w : Width) (dst : Opnd)
  /-- PREF: to the L1, or to the home only. -/
  | pref (l1 : Bool)
  | store
  /-- ATOM with its destination, or RED. -/
  | rmw (u : EltTy) (dst : Option Opnd)
  /-- LDL (07 R157): its fields, FMT, members and active lanes, the slot's contents, SRSEED, and each lane's SRCTR before
  its roundings. -/
  | ldl (f : MFmt) (fmt : BitVec 9) (members active : Lanes) (view : Option (Nat × List (BitVec 16) × List Byte))
      (seed : DWord) (ctrs : LaneVec)
  /-- A map bind of slot `k` (07 R140). -/
  | bind (k : Nat)
  /-- JDEC, or EXIT.J (04 R92). -/
  | dec (exit : Bool)
  /-- CENSUS and COPY.CEN: one reduction per word changed (06 R134). -/
  | fold
  /-- FREG: one record an element, results to `dst` (04 R95). -/
  | futReg (recs : List ThreadRec) (dst : Opnd)
  /-- FRES. -/
  | futRes
  /-- The resolution of a COPY.F. -/
  | copyF (cid : Nat)
  /-- A gate decrement and the record behind it, released by the future at a physical address (04 R95). -/
  | gate (rec : ThreadRec) (fut : Nat)
  /-- The increment of a packet's DONE word (12 R401). -/
  | doneInc
  deriving DecidableEq, Repr

/-- An operation issued and not yet wholly performed. `gid` is the group it belongs to for ordering, or its own id. -/
structure Op where
  id : Nat
  gid : Nat
  sid : Nat
  agent : Nat
  before : List Nat
  ctx : Nat
  /-- The grid it belongs to for completion (01 R30). -/
  grid : Nat
  team : Nat
  core : Nat
  die : Nat
  /-- What a record of it holds besides cause and AUX words (11 R206). -/
  tmpl : TrapRec
  /-- It translates in supervisor mode (10 R194). -/
  sup : Bool
  kind : OpKind
  acq : Bool
  rel : Bool
  scope : Scope
  /-- LT and global group index of its instruction (12 R230). -/
  lt : Nat
  gindex : Nat
  /-- A reduction that a harvest applies: its place in the order of application (12 R233). -/
  harvest : Option Nat
  elems : List Elem
  deriving DecidableEq, Repr

/-- A FENCE.REL: later writes of its agent follow the agent's accesses before it (09 R179, R183), and wait for the parked
requests of its group (08 R173). `wide`: at DEV or SYS scope. -/
structure FenceMark where
  id : Nat
  gid : Nat
  agent : Nat
  before : List Nat
  wide : Bool
  deriving DecidableEq, Repr

/-- Kinds of a COPY (08 R162). -/
inductive CopyKind where
  | plain
  | future
  | census (ty : CvtTy) (b0 : Int)
  | sred (group op ty : Nat)
  deriving DecidableEq, Repr

/-- A chunk of a copy under way: its number, the bytes read so far, and how many of them are written (09 R181). -/
structure ChunkPart where
  num : Nat
  read : List Byte
  written : Nat
  deriving DecidableEq, Repr

/-- A copy command (08 R161 to R163). `done` holds the numbers of the chunks performed. -/
structure Copy where
  cid : Nat
  gid : Nat
  sid : Nat
  agent : Nat
  before : List Nat
  ctx : Nat
  grid : Nat
  team : Nat
  core : Nat
  die : Nat
  /-- What a record of it holds besides cause and AUX words (11 R206). -/
  tmpl : TrapRec
  sup : Bool
  cls : EngClass
  kind : CopyKind
  ssp : Bool
  dsp : Bool
  src : DWord
  dst : DWord
  rowBytes : Nat
  rows : Nat
  sstride : Int
  dstride : Int
  bar : Option Nat
  /-- The address that C names, if any. -/
  caddr : Option DWord
  done : List Nat
  parts : List ChunkPart
  /-- Elements already read, for COPY.CEN and COPY.SRED. -/
  data : List (Nat × List Byte)
  stopped : Bool
  /-- Kept as a resume record of a saved group (11 R215). -/
  suspended : Bool
  /-- Every chunk is performed and its action presented; the future's request, if any, is not yet accepted. -/
  acting : Bool
  /-- Status of a C3 command once known (08 R164). -/
  status : Option Nat
  /-- The SRED instance it contributes to (13 R244), or the operation that presents its action. -/
  inst : Option Nat
  lt : Nat
  gindex : Nat
  deriving DecidableEq, Repr

/-- A hardware breakpoint whose address a split matched inside a hold chain that has ended: the split, the address matched, the
chain's next instruction, and the split's members (11 R218). -/
structure BpDue where
  sid : Nat
  addr : DWord
  pc : DWord
  mask : Lanes
  deriving DecidableEq, Repr

/-- A resident, evicted or saved group. -/
structure Group where
  gid : Nat
  team : Nat
  grid : Nat
  ctx : Nat
  core : Nat
  quarter : Nat
  grpid : Nat
  teamid : Nat
  gridid : Nat
  /-- MODEL'S OWN (log 11): which private region is its own, among those of its context's groups. -/
  priv : Nat
  nteam : Word
  ngrp : Nat
  role : Nat
  /-- Global group index (01 R16, 04 R87). -/
  gindex : Nat
  narrow : Bool
  repro : Bool
  /-- A copy of a checked team (12 R235). -/
  checked : Bool
  vregs : List LaneVec
  oregs : List LaneVec
  sregs : List Word
  status : BitVec 6
  srseed : DWord
  srctr : LaneVec
  lclk : DWord
  lbase : Nat
  parts : List DWord
  trapcause : Word
  trappc : DWord
  trapmask : DWord
  shadow : Option Shadow
  /-- Per lane, the faulting address and fault word of the trap being handled, for FLTRD (10 R200, 22 R337). -/
  faults : List (Nat × DWord × Nat)
  splits : List Split
  regions : List Region
  slots : List Slot
  phys : List PhysSlot
  eng : List EngOp
  badLoads : List BadLoad
  place : Place
  /-- A pre-emption asks it to halt (11 R214). -/
  haltReq : Bool
  /-- The halt of a hardware breakpoint that a chain's end brings (11 R218). -/
  bpDue : Option BpDue
  driver : Option DriverHalt
  /-- The latch ring saved with it, when a split was mid-chain (11 R216). -/
  savedRing : Option (List Latch)
  /-- Splits still to issue in the current round of a reproducible group (12 R232). -/
  round : List Nat
  /-- MAPRES of a reproducible group waits for free slots (12 R234): the split, the instruction and the number asked
  for. -/
  mapresWait : Option (Nat × Instr × Nat)
  resume : Resume
  deriving DecidableEq, Repr

/-- What a checked copy's store stream holds (12 R235). -/
structure StreamItem where
  /-- Which instruction or chunk of the copy wrote it. -/
  batch : Nat
  grpid : Nat
  lane : Nat
  va : DWord
  /-- The physical address it was translated to; none where the translation of a reduction faulted. -/
  pa : Option Nat
  size : Nat
  /-- The RMW of a RED or a fold; none for a plain write. -/
  rmw : Option (EltTy × Nat)
  data : DWord
  deriving DecidableEq, Repr

/-- A team (01 R13, R25, R29). `spad` holds its scratchpad, a received region at `spadSize` (04 R88). -/
structure Team where
  tid : Nat
  grid : Nat
  ctx : Nat
  teamid : Nat
  core : Nat
  spawned : Bool
  spadSize : Nat
  recv : Option Nat
  recvSize : Nat
  spad : List Host.Cell
  objs : List BarObj
  prio : Nat
  /-- Order of placement or launch. -/
  seq : Nat
  place : Place
  /-- A pre-emption stops its copies, its groups having retired, and saves it (00 R8, 12 R228). -/
  haltReq : Bool
  /-- The cores that it has run on before its present one (12 R236). -/
  ranOn : List Nat
  /-- 0 for an unchecked team; 1, 2, 3 for the copies of a checked one; 4 for a third copy that the comparator has accepted
  (12 R235, R236). -/
  copyNo : Nat
  stream : List StreamItem
  /-- It overflowed the check area, which held so many bytes then (12 R236). -/
  overflow : Option Nat
  /-- Records of the traps that a checked copy's groups have taken and that await the comparison (12 R236). -/
  traps : List TrapRec
  deriving DecidableEq, Repr

/-- How a copy of a checked team ended: its core, the cores that it ran on before, its stream, and the traps it stands at (12
R236). -/
structure CopyRun where
  no : Nat
  core : Nat
  ranOn : List Nat
  stream : List StreamItem
  traps : List TrapRec
  deriving DecidableEq, Repr

/-- A checked team under comparison (12 R236). `third`: its two copies differed and a third run decides. `accepted`: the copy
whose stream is performed, with the items still to perform; `item`: the operation of the item under way. -/
structure CheckRun where
  grid : Nat
  teamid : Nat
  runs : List CopyRun
  third : Bool
  accepted : Option CopyRun
  item : Option Nat
  deriving DecidableEq, Repr

/-- A RED or census fold buffered for harvest (12 R233). `order`: its instruction's place in program order. -/
structure Buffered where
  lt : Nat
  gindex : Nat
  order : Nat
  op : Op
  deriving DecidableEq, Repr

/-- How far a grid is (01 R30, 12 R224, R401). -/
inductive GridPhase where
  | active
  /-- STATUS is written; the DONE increment is the request named. -/
  | counting (op : Nat)
  | complete
  deriving DecidableEq, Repr

/-- A grid (01 R13, 12 R222). -/
structure Grid where
  uid : Nat
  ctx : Nat
  gridid : Nat
  queue : Nat
  slot : Nat
  /-- Physical address of its packet. -/
  pkt : Nat
  desc : Desc
  args : DWord
  teams : Nat
  prio : Nat
  chk : Nat
  seed : DWord
  done : DWord
  nextTeam : Nat
  retired : Nat
  /-- Teams to run again from their beginning (00 R10, 12 R236): TEAMID, and whether as checked copies. -/
  rerun : List (Nat × Bool)
  spawnedGroups : Nat
  orphans : Nat
  lost : Bool
  faulted : Bool
  invalid : Bool
  admission : Bool
  /-- Capacity counted when the packet was taken: the wave size of a reproducible grid (12 R232). -/
  capacity : Nat
  /-- LBASE of the groups of the current wave, and the greatest LT that a group of the grid reached (12 R230, R232). -/
  waveBase : Nat
  maxLT : Nat
  buffered : List Buffered
  /-- clk that it has waited as the head grid since its last placement or step of ageing, and the steps of ageing since that
  placement (12 R226). -/
  waited : Nat
  aged : Nat
  /-- A team of it passed on no core, and no team has retired since (01 R26). -/
  refused : Bool
  /-- Pre-empted by a command of its queue (12 R228). -/
  preempted : Bool
  phase : GridPhase
  deriving DecidableEq, Repr

/-- A work queue (12 R220). -/
structure Queue where
  num : Nat
  base : Nat
  k : Nat
  ctx : Nat
  age : Nat
  tail : Nat
  head : Nat
  taken : Nat
  /-- The command word last carried out, bits 191:128 of the header. -/
  ack : DWord
  stopped : Bool
  preempted : Bool
  /-- A command in progress: its word. -/
  cmd : Option DWord
  deriving DecidableEq, Repr

/-- A context (13 R239). -/
structure Context where
  num : Nat
  ptroot : Nat
  lease : Nat
  /-- The longest lease in force (10 R198). -/
  leaseMax : Nat
  splitArea : Nat
  fabric : Bool
  highWater : Nat
  brineBase : Nat
  brineCap : Nat
  brine : List ThreadRec
  handler : DWord
  fring : Nat
  fringK : Nat
  tail : Nat
  drop : Nat
  poolK : Nat
  fvec : Nat
  pool : Nat
  check : Nat
  checkSz : Nat
  save : Nat
  saveSz : Nat
  bps : List DWord
  /-- Pre-empted by a context command (12 R228), and by a quiesce (00 R8). -/
  preempted : Bool
  quiesced : Bool
  /-- GRIDID of the next launch (01 R15). -/
  nextGrid : Nat
  terminating : Bool
  deriving DecidableEq, Repr

/-- A future's continuation block (04 R94: opaque layout), by the physical address of the future's block. -/
structure Block where
  ctx : Nat
  addr : Nat
  recs : List ThreadRec
  deriving DecidableEq, Repr

/-! ## Hardware of the package -/

/-- A TLB entry (10 R196, R197). `page` is the virtual page base; `expiry` in clk. -/
structure TlbEntry where
  fetch : Bool
  ctx : Nat
  page : Nat
  large : Bool
  frame : Nat
  r : Bool
  w : Bool
  x : Bool
  s : Bool
  d : Bool
  expiry : Nat
  deriving DecidableEq, Repr

/-- A capture unit (13 R248). -/
structure Capture where
  source : Option Nat
  min : Nat
  max : Nat
  buckets : List Nat
  deriving DecidableEq, Repr

/-- A line of a core's L1: the context and virtual line it was read by, its physical line, 128 bytes (05 R115). -/
structure L1Line where
  ctx : Nat
  vline : Nat
  pline : Nat
  data : List Byte
  deriving DecidableEq, Repr

/-- A line of a core's instruction cache: context, virtual line, its eight instructions (05 R115). -/
structure ILine where
  ctx : Nat
  vline : Nat
  words : List IWord
  deriving DecidableEq, Repr

/-- An instruction in a fetch buffer (09 R191): quarter, context, address. -/
structure BufInstr where
  quarter : Nat
  ctx : Nat
  va : Nat
  word : IWord
  deriving DecidableEq, Repr

/-- A core, by package index (00 R5). -/
structure Core where
  active : Bool
  pans : List (Option Pan)
  l1 : List L1Line
  icache : List ILine
  /-- The fetch buffers of the four schedulers, most recent first (00 R1). -/
  fbuf : List BufInstr
  tlb : List TlbEntry
  captures : List Capture
  mhz : Nat
  /-- The requests of pre-emption for which it runs at 2.25 GHz, each as the groups that it named (13 R249). -/
  boosts : List (List Nat)
  deriving DecidableEq, Repr

/-- What has become of a physical core (00 R5, R7). -/
inductive CoreMark where
  | spare | retired | logical (k : Nat)
  deriving DecidableEq, Repr

/-- A compute die. -/
structure Die where
  booted : Bool
  rejected : Bool
  phys : List CoreMark
  /-- A quiesce holds it: CLOCK when it began (00 R8). -/
  quiesce : Option Nat
  deriving DecidableEq, Repr

/-- A reduction group (13 R244). -/
structure SredGroup where
  num : Nat
  devices : List Nat
  limit : Nat
  nextInst : Nat
  deriving DecidableEq, Repr

/-- An instance of a reduction: CLOCK of its first contribution, and whether the switch aborted it (13 R245). -/
structure SredInst where
  group : Nat
  inst : Nat
  first : Nat
  aborted : Bool
  deriving DecidableEq, Repr

/-- MODEL'S OWN (log 3). How a quarter chooses a split (12 R229): the first that issues in a clk, or the second of a pair (03
R71), being in each case the oldest eligible one apart from those named, whose operands are not ready. -/
inductive IssueRule where
  | first (unready : List (Nat × Nat))
  | second (unready : List (Nat × Nat))
  deriving DecidableEq, Repr

/-- MODEL'S OWN (log 3). What a fetch reads where it holds the instruction: a fetch buffer, the instruction cache, memory
(09 R191). -/
inductive FetchFrom where
  | buffer | cache | memory
  deriving DecidableEq, Repr

/-- MODEL'S OWN (log 3). Which agent moves next. -/
inductive Turn where
  /-- A split issues. -/
  | issue (gid sid : Nat) (src : FetchFrom) (rule : IssueRule)
  /-- The agents of a core come to see elements of a store of theirs (09 R178). -/
  | showStore (op : Nat) (lanes : Lanes)
  /-- One of the device's own steps. -/
  | event (e : Instr)
  /-- The device carries out the next management command (13 R238). -/
  | management
  /-- Time passes. -/
  | clk (n : Nat)
  /-- An uncorrectable error appears in the 32-byte granule at a physical address (10 R205). -/
  | ecc (pa : Nat)
  /-- A capture unit takes a sample (13 R248). -/
  | sample (core unit v : Nat)
  /-- A core's governor sets its frequency (13 R249). -/
  | governor (core mhz : Nat)
  /-- Line `k` of a core's L1 is replaced. -/
  | evictLine (core k : Nat)
  deriving DecidableEq, Repr

/-- The machine. -/
structure State where
  clock : DWord
  mem : List Host.Cell
  badGranules : List Nat
  remote : List Host.Cell
  dies : List Die
  cores : List Core
  /-- The 640 latch rings, quarter `q` of core `c` at `4c + q`. -/
  rings : List (List Latch)
  contexts : List Context
  queues : List Queue
  grids : List Grid
  teams : List Team
  groups : List Group
  handles : List Handle
  ops : List Op
  fences : List FenceMark
  copies : List Copy
  blocks : List Block
  /-- Words that a decrement of a reproducible grid brought to zero, and its logical time (12 R230). -/
  joinZeros : List (Nat × Nat)
  /-- Released records that wait in a continuation block for room, with the releasing core and the future's physical address
  (21 R341). -/
  deferredRecs : List (Nat × Nat × ThreadRec)
  checks : List CheckRun
  /-- Records written to fault rings, with their addresses (13 R240). -/
  records : List (Nat × DriverRec)
  /-- Records that wait for room in a full ring (11 R208). -/
  undelivered : List DriverRec
  sredGroups : List SredGroup
  sredInsts : List SredInst
  mgmtBase : Option Nat
  mgmtHead : Nat
  mgmtVec : Nat
  irqs : List Nat
  /-- Signals to the driver other than interrupt vectors' own records: thermal events by core (13 R249). -/
  thermal : List (Nat × Thermal)
  powerCap : Nat
  powered : Bool
  lastCore : Nat
  lastQueue : Option Nat
  /-- Bytes that the host die has read, most recent first (13 R237). -/
  hostReads : List (Nat × List Byte)
  /-- Bytes that other devices' commands have read, most recent first (13 R242). -/
  remoteReads : List (List Byte)
  /-- MODEL'S OWN (logs 3, 4). -/
  turns : List Turn
  freeCtr : Nat
  nextId : Nat
  /-- MODEL'S OWN (log 13): how many times the package has booted. -/
  boots : Nat
  cur : Option (Nat × Nat)
  deriving DecidableEq, Repr

/-- The zero latch with no writer (01 R27). -/
def Latch.zero : Latch := { val := LaneVec.zero, tag := none }

/-- A ring whose latches read zero. -/
def emptyRing : List Latch := List.replicate 4 Latch.zero

/-- A core that has held no work; active cores are named by the boot step (00 R5). -/
def Core.idle : Core :=
  { active := false, pans := List.replicate Config.pans none, l1 := [], icache := [], fbuf := [], tlb := [],
    captures := List.replicate 4 { source := none, min := 0, max := 0, buckets := List.replicate 32 0 },
    mhz := 2250, boosts := [] }

/-- A die before its firmware has loaded: no core has passed the self-check yet. -/
def Die.dark : Die :=
  { booted := false, rejected := false, phys := List.replicate Config.physCoresPerDie .retired, quiesce := none }

/-- The machine right after reset: no context, queue or work, memory with nothing listed; the boot step (RESET) then
loads firmware and numbers the cores (00 R5, 13 R246). -/
def State.reset : State :=
  { clock := 0#64, mem := [], badGranules := [], remote := [],
    dies := List.replicate Config.dies Die.dark,
    cores := List.replicate Config.cores Core.idle,
    rings := List.replicate (4 * Config.cores) emptyRing,
    contexts := [], queues := [], grids := [], teams := [], groups := [], handles := [], ops := [], fences := [],
    copies := [], blocks := [], joinZeros := [], deferredRecs := [], checks := [], records := [], undelivered := [],
    sredGroups := [], sredInsts := [], mgmtBase := none, mgmtHead := 0, mgmtVec := 0, irqs := [],
    thermal := [], powerCap := 3600, powered := true, lastCore := 159, lastQueue := none, hostReads := [], remoteReads := [],
    turns := [], freeCtr := 0, nextId := 1, boots := 0, cur := none }

end Sys2Proof.Machine
end

