-- ==== Sys2Proof/Machine/Number.lean ====
section
/-!
DEFINITION. Number formats and rounding (06 R116 to R131): exact values, the one rounding routine, the counter generator,
conversions, block scales, and the exact or correctly rounded functions.
-/
namespace Sys2Proof.Machine

/-! ## Flags (05 R109) -/

abbrev Flags := BitVec 6

def fNone : Flags := 0b000000#6
def fInvalid : Flags := 0b000001#6
def fDivZero : Flags := 0b000010#6
def fOverflow : Flags := 0b000100#6
def fUnderflow : Flags := 0b001000#6
def fInexact : Flags := 0b010000#6
def fLatchLost : Flags := 0b100000#6

/-! ## Formats (R116) -/

/-- A floating-point format: width, fraction width, bias, codes of the largest finite value and of the canonical NaN
(none for E2M1), whether it has infinities, and whether FTZ applies (R121). -/
structure Fmt where
  w : Nat
  m : Nat
  bias : Nat
  maxFin : Nat
  nan : Option Nat
  inf : Option Nat
  flush : Bool
  deriving DecidableEq, Repr

def fmtF32 : Fmt :=
  { w := 32, m := 23, bias := 127, maxFin := 0x7F7FFFFF, nan := some 0x7FC00000, inf := some 0x7F800000, flush := true }
def fmtF16 : Fmt := { w := 16, m := 10, bias := 15, maxFin := 0x7BFF, nan := some 0x7E00, inf := some 0x7C00, flush := true }
def fmtBF16 : Fmt := { w := 16, m := 7, bias := 127, maxFin := 0x7F7F, nan := some 0x7FC0, inf := some 0x7F80, flush := true }
def fmtE4M3 : Fmt := { w := 8, m := 3, bias := 7, maxFin := 0x7E, nan := some 0x7F, inf := none, flush := false }
def fmtE5M2 : Fmt := { w := 8, m := 2, bias := 15, maxFin := 0x7B, nan := some 0x7E, inf := some 0x7C, flush := false }
def fmtE2M1 : Fmt := { w := 4, m := 1, bias := 1, maxFin := 0x7, nan := none, inf := none, flush := false }

/-- The element format of a float type. -/
def fmtOf : FloTy → Fmt
  | .f32 => fmtF32 | .f16x2 => fmtF16 | .bf16x2 => fmtBF16

/-- The float format of a conversion type, if it is one. -/
def cvtFmt : CvtTy → Option Fmt
  | .f32 => some fmtF32 | .f16 => some fmtF16 | .bf16 => some fmtBF16 | .e4m3 => some fmtE4M3
  | .e5m2 => some fmtE5M2 | .e2m1 => some fmtE2M1
  | _ => none

/-! ## Exact values -/

/-- A value: a NaN with its sign, `made` when it is produced from non-NaN inputs (R122); an infinity; or the finite
value (m + ε) 2^e with its sign, 0 < ε < 1 when `sticky` and ε = 0 otherwise. -/
inductive FVal where
  | nan (neg made : Bool)
  | inf (neg : Bool)
  | fin (neg : Bool) (m : Nat) (e : Int) (sticky : Bool)
  deriving DecidableEq, Repr

def FVal.zero (neg : Bool) : FVal := .fin neg 0 0 false

def FVal.isNaN : FVal → Bool
  | .nan .. => true
  | _ => false

def FVal.isZero : FVal → Bool
  | .fin _ 0 _ false => true
  | _ => false

def FVal.sign : FVal → Bool
  | .nan n _ | .inf n | .fin n _ _ _ => n

def FVal.negate : FVal → FVal
  | .nan n k => .nan (!n) k
  | .inf n => .inf (!n)
  | .fin n m e s => .fin (!n) m e s

def FVal.abs : FVal → FVal
  | .nan _ k => .nan false k
  | .inf _ => .inf false
  | .fin _ m e s => .fin false m e s

/-- The number of bits of a positive number; 0 for 0. -/
def bitLen (n : Nat) : Nat := if n = 0 then 0 else Nat.log2 n + 1

/-- floor(log2 |v|) of a non-zero finite value. -/
def FVal.exponent (m : Nat) (e : Int) : Int := (bitLen m : Int) - 1 + e

/-- The value a code of a format holds (R116); with `ftz`, a subnormal F32, F16 or BF16 reads as zero (R121). -/
def FVal.ofBits (F : Fmt) (ftz : Bool) (x : Nat) : FVal :=
  let neg := x / 2 ^ (F.w - 1) % 2 == 1
  let mag := x % 2 ^ (F.w - 1)
  if mag > F.maxFin then
    if F.inf = some mag then .inf neg else .nan neg false
  else
    let E := mag / 2 ^ F.m
    let frac := mag % 2 ^ F.m
    if E = 0 then
      if ftz && F.flush then .zero neg
      else if frac = 0 then .zero neg
      else .fin neg frac (1 - (F.bias : Int) - F.m) false
    else .fin neg (2 ^ F.m + frac) ((E : Int) - F.bias - F.m) false

/-- The value of an E8M0 code (R117). -/
def FVal.ofE8M0 (x : Nat) : FVal :=
  if x = 0xFF then .nan false false else .fin false 1 ((x : Int) - 127) false

/-- The value of an integer. -/
def FVal.ofInt (i : Int) : FVal := .fin (decide (i < 0)) i.natAbs 0 false

/-! ## The counter generator (R126) -/

def ccg (k0 k1 c : Word) : Word :=
  let x := c ^^^ k0
  let x := x * 0x2C1B3C6D#32
  let x := x ^^^ (x >>> 15)
  let x := x * 0x297A2D39#32
  let x := x ^^^ (x >>> 12)
  let x := x ^^^ k1
  let x := x * 0x2C1B3C6D#32
  x ^^^ (x >>> 16)

/-! ## Rounding (R119 to R123) -/

/-- The rounding modes with an effect; DYN is resolved before (R119). -/
inductive Rm where
  | rne | rz | rd | ru | rna | sr
  deriving DecidableEq, Repr

/-- The mode of a code 0 to 5. -/
def Rm.ofCode : Nat → Rm
  | 0 => .rne | 1 => .rz | 2 => .rd | 3 => .ru | 4 => .rna | _ => .sr

/-- What a rounding needs to know: mode, effective saturation, FTZ, and the lane's random word for SR (R127). -/
structure RCtx where
  rm : Rm
  sat : Bool
  ftz : Bool
  x : Word
  deriving DecidableEq, Repr

/-- A rounded result: its code, the flags it raises, and whether it is a NaN produced from non-NaN inputs (R132). -/
structure Rounded where
  val : Nat
  flags : Flags
  produced : Bool
  deriving DecidableEq, Repr

/-- Whether the magnitude n + f, f = (rem + ε) / 2^shift, moves to n + 1 (R119, R127). -/
def roundUp (rm : Rm) (neg : Bool) (n rem shift : Nat) (sticky : Bool) (x : Word) : Bool :=
  let inexact := rem != 0 || sticky
  match rm with
  | .rne => decide (2 * rem > 2 ^ shift) || (2 * rem == 2 ^ shift && (sticky || n % 2 == 1))
  | .rz => false
  | .rd => neg && inexact
  | .ru => !neg && inexact
  | .rna => decide (2 * rem ≥ 2 ^ shift)
  | .sr => decide (rem * 2 ^ 32 / 2 ^ shift > x.toNat)

/-- (m + ε) 2^e as n + f on the grid of spacing 2^g: n, the remainder, the shift it is over, and whether ε stands. -/
def onGrid (m : Nat) (e : Int) (g : Int) : Nat × Nat × Nat :=
  if g ≤ e then (m * 2 ^ (e - g).toNat, 0, 0)
  else
    let k := (g - e).toNat
    (m / 2 ^ k, m % 2 ^ k, k)

/-- The code that overflow gives (R120), and whether it is a NaN produced. -/
def overflowCode (F : Fmt) (neg : Bool) (rm : Rm) (sat : Bool) : Nat × Bool :=
  if sat then (F.maxFin, false)
  else match F.inf with
  | some i =>
    (match rm with
     | .rne | .rna | .sr => i
     | .rz => F.maxFin
     | .rd => if neg then i else F.maxFin
     | .ru => if neg then F.maxFin else i, false)
  | none =>
    match F.nan with
    | some q => (q, true)
    | none => (F.maxFin, false)

/-- One value rounded to a format (R120 to R123). -/
def roundTo (F : Fmt) (c : RCtx) (v : FVal) : Rounded :=
  let signBit (neg : Bool) : Nat := if neg then 2 ^ (F.w - 1) else 0
  match v with
  | .nan neg made =>
    match F.nan with
    | some q => { val := signBit neg + q, flags := if made then fInvalid else fNone, produced := made }
    | none => { val := 0, flags := fInvalid, produced := false }
  | .inf neg =>
    match F.inf with
    | some i => { val := signBit neg + i, flags := fNone, produced := false }
    | none =>
      let (code, p) := overflowCode F neg c.rm c.sat
      { val := signBit neg + code, flags := fOverflow ||| fInexact, produced := p }
  | .fin neg m e sticky =>
    if m = 0 && !sticky then { val := signBit neg, flags := fNone, produced := false }
    else
      let emin : Int := 1 - F.bias
      let ev := FVal.exponent m e
      let q := max ev emin
      let (n, rem, k) := onGrid m e (q - F.m)
      let inexact := rem != 0 || sticky
      let n' := if roundUp c.rm neg n rem k sticky c.x then n + 1 else n
      let code := n' + (q - emin).toNat * 2 ^ F.m
      if code > F.maxFin then
        let (oc, p) := overflowCode F neg c.rm c.sat
        { val := signBit neg + oc, flags := fOverflow ||| fInexact, produced := p }
      else if c.ftz && F.flush && code != 0 && decide (code < 2 ^ F.m) then
        { val := signBit neg, flags := fUnderflow ||| fInexact, produced := false }
      else
        { val := signBit neg + code,
          flags := (if inexact then fInexact else fNone) ||| (if inexact && decide (ev < emin) then fUnderflow else fNone),
          produced := false }

/-- A finite value rounded to an integer; whether it was inexact (R125). -/
def roundToInt (rm : Rm) (x : Word) (neg : Bool) (m : Nat) (e : Int) (sticky : Bool) : Int × Bool :=
  let (n, rem, k) := onGrid m e 0
  let n' := if roundUp rm neg n rem k sticky x then n + 1 else n
  (if neg then -(n' : Int) else n', rem != 0 || sticky)

/-! ## Exact arithmetic -/

/-- The NaN an operation returns for its operands in order: the first NaN input's sign (R122). -/
def firstNaN (vs : List FVal) : Option FVal := vs.find? FVal.isNaN

/-- A signed finite value as an integer multiple of 2^g, g not above its exponent. -/
def scaledInt (neg : Bool) (m : Nat) (e g : Int) : Int :=
  let k := (m * 2 ^ (e - g).toNat : Nat)
  if neg then -(k : Int) else k

/-- The exact sum of two exact values, with the zero signs of R120; `rd`: the mode is RD. -/
def fAdd (rd : Bool) (a b : FVal) : FVal :=
  match firstNaN [a, b] with
  | some n => n
  | none =>
    match a, b with
    | .inf p, .inf q => if p = q then .inf p else .nan false true
    | .inf p, _ => .inf p
    | _, .inf q => .inf q
    | .fin p m e _, .fin q n f _ =>
      if m = 0 ∧ n = 0 then .zero (if p = q then p else rd)
      else
        let g := min e f
        let t := scaledInt p m e g + scaledInt q n f g
        if t = 0 then .zero rd else .fin (decide (t < 0)) t.natAbs g false
    | x, _ => x

/-- The exact product of two exact values. -/
def fMul (a b : FVal) : FVal :=
  match firstNaN [a, b] with
  | some n => n
  | none =>
    let neg := a.sign != b.sign
    match a, b with
    | .inf _, y => if y.isZero then .nan false true else .inf neg
    | x, .inf _ => if x.isZero then .nan false true else .inf neg
    | .fin _ m e _, .fin _ n f _ => .fin neg (m * n) (e + f) false
    | x, _ => x

/-- The exact a * b + c. A NaN operand in order A, B, C is returned before any other is made (R122). -/
def fFma (rd : Bool) (a b c : FVal) : FVal :=
  match firstNaN [a, b, c] with
  | some n => n
  | none => fAdd rd (fMul a b) c

/-- The order of two values that are no NaN: a < b. -/
def fLt (a b : FVal) : Bool :=
  match a, b with
  | .inf p, .inf q => p && !q
  | .inf p, _ => p
  | _, .inf q => !q
  | .fin p m e _, .fin q n f _ => decide (scaledInt p m e (min e f) < scaledInt q n f (min e f))
  | _, _ => false

def fEq (a b : FVal) : Bool := !fLt a b && !fLt b a

/-- The smaller or larger of two values, with -0 below +0 (R324); an operand is returned as it is. -/
def fMinMax (max : Bool) (a b : FVal) : FVal :=
  match firstNaN [a, b] with
  | some n => n
  | none =>
    let less := fLt a b || (fEq a b && a.sign && !b.sign)
    if less = max then b else a

/-! ## Conversions (R124, R125) -/

/-- The E8M0 code of a value (R124). -/
def toE8M0 (v : FVal) : Rounded :=
  match v with
  | .nan _ made => { val := 0xFF, flags := if made then fInvalid else fNone, produced := made }
  | .inf _ => { val := 0xFF, flags := fInvalid, produced := true }
  | .fin _ 0 _ false => { val := 0, flags := fInvalid, produced := false }
  | .fin _ m e st =>
    let k := FVal.exponent m e + 127
    let code : Int := max 0 (min 254 k)
    let exact := !st && m == 2 ^ (bitLen m - 1) && code == k
    { val := code.toNat, flags := if exact then fNone else fInexact, produced := false }

/-- Least and greatest value of an integer of width `w`. -/
def intRange (signed : Bool) (w : Nat) : Int × Int :=
  if signed then (-(2 ^ (w - 1) : Nat), (2 ^ (w - 1) : Nat) - 1) else (0, (2 ^ w : Nat) - 1)

/-- An integer modulo 2^w as a code. -/
def wrapInt (w : Nat) (i : Int) : Nat := (i % (2 ^ w : Nat)).toNat

/-- An integer clamped to a range. -/
def clampInt (r : Int × Int) (i : Int) : Int := max r.1 (min r.2 i)

/-- A value converted to an integer type (R125). -/
def toInteger (signed : Bool) (w : Nat) (c : RCtx) (v : FVal) : Rounded :=
  let r := intRange signed w
  match v with
  | .nan .. => { val := 0, flags := fInvalid, produced := false }
  | .inf neg => { val := wrapInt w (if neg then r.1 else r.2), flags := fInvalid, produced := false }
  | .fin neg m e st =>
    let (i, inexact) := roundToInt c.rm c.x neg m e st
    if i < r.1 ∨ i > r.2 then { val := wrapInt w (clampInt r i), flags := fInvalid, produced := false }
    else { val := wrapInt w i, flags := if inexact then fInexact else fNone, produced := false }

/-- A value converted to a float format, special inputs by the table of R124. -/
def toFloat (F : Fmt) (c : RCtx) (v : FVal) : Rounded :=
  let signBit (neg : Bool) : Nat := if neg then 2 ^ (F.w - 1) else 0
  match v with
  | .inf neg =>
    match F.inf with
    | some i => { val := signBit neg + i, flags := fNone, produced := false }
    | none =>
      match F.nan with
      | some q => { val := signBit neg + (if c.sat then F.maxFin else q), flags := fInvalid, produced := !c.sat }
      | none => { val := signBit neg + F.maxFin, flags := fInvalid, produced := false }
  | .nan neg made =>
    match F.nan with
    | some q => { val := signBit neg + q, flags := if made then fInvalid else fNone, produced := made }
    | none => { val := 0, flags := fInvalid, produced := false }
  | v => roundTo F c v

/-! ## Block scales (R129, R130) -/

def emaxOf (F : Fmt) : Int := if F.w = 4 then 2 else if F.m = 3 then 8 else 15

/-- The scale of a block from its largest magnitude (R129). -/
def blockScale (F : Fmt) (amax : FVal) : Rounded :=
  match amax with
  | .nan .. => { val := 0xFF, flags := fNone, produced := false }
  | .inf _ => { val := 0xFF, flags := fInvalid, produced := true }
  | .fin _ 0 _ _ => { val := 0, flags := fNone, produced := false }
  | .fin _ m e _ =>
    { val := (max 0 (min 254 (FVal.exponent m e - emaxOf F + 127))).toNat, flags := fNone, produced := false }

/-- x divided by the scale of code s (R130): exact; scale 0xFF makes every element a NaN input with its own sign. -/
def divScale (s : Nat) (x : FVal) : FVal :=
  if s = 0xFF then .nan x.sign false
  else match x with
  | .fin n m e st => .fin n m (e - ((s : Int) - 127)) st
  | v => v

/-! ## The functions of R131

Division and square roots are exact integer operations with a sticky remainder. FEXP2, FLOG2, FSINPI and FCOSPI work in
fixed point with hundreds of guard bits; their results are irrational outside the exact cases, so the bits computed and
a sticky bit determine every rounding (log 14). -/

/-- Guard bits of the function computations. -/
def fnBits : Nat := 512

/-- floor(sqrt n), by bits from 2^k down. -/
def isqrtFrom (n : Nat) (k : Nat) (r : Nat) : Nat :=
  match k with
  | 0 => if (r + 1) * (r + 1) ≤ n then r + 1 else r
  | k + 1 => isqrtFrom n k (if (r + 2 ^ (k + 1)) * (r + 2 ^ (k + 1)) ≤ n then r + 2 ^ (k + 1) else r)

def isqrt (n : Nat) : Nat := isqrtFrom n (bitLen n / 2) 0

/-- 1 / ((m) 2^e): fixed quotient with a sticky remainder. -/
def fRecip (neg : Bool) (m : Nat) (e : Int) : FVal :=
  let k := bitLen m + fnBits
  .fin neg (2 ^ k / m) (-e - k) (2 ^ k % m != 0)

/-- sqrt(m 2^e), m > 0. -/
def fRoot (m : Nat) (e : Int) : FVal :=
  let p : Nat := if (e - 2 * fnBits) % 2 = 0 then 2 * fnBits else 2 * fnBits + 1
  let n := m * 2 ^ p
  let r := isqrt n
  .fin false r ((e - p) / 2) (r * r != n)

/-- 1 / sqrt(m 2^e), m > 0. -/
def fRecipRoot (m : Nat) (e : Int) : FVal :=
  let k0 := bitLen m + 2 * fnBits
  let k : Nat := if (-e - k0) % 2 = 0 then k0 else k0 + 1
  let q := 2 ^ k / m
  let r := isqrt q
  .fin false r ((-e - k) / 2) (r * r != q || 2 ^ k % m != 0)

/-- The integer part of m 2^e (rounded down) and the fraction as a multiple of 2^-k with k bits. -/
def splitFrac (m : Nat) (e : Int) : Nat × Nat × Nat :=
  if 0 ≤ e then (m * 2 ^ e.toNat, 0, 0) else (m / 2 ^ (-e).toNat, m % 2 ^ (-e).toNat, (-e).toNat)

/-- The product of 2^(2^-i) over the set bits of a fraction of `k` bits, in fixed point; `root` is 2^(2^-i). -/
def exp2Frac (frac : Nat) (k : Nat) (root acc : Nat) : Nat :=
  match k with
  | 0 => acc
  | k + 1 =>
    let root' := isqrt (root * 2 ^ fnBits)
    exp2Frac frac k root' (if frac.testBit k then acc * root' / 2 ^ fnBits else acc)

/-- 2^v of a finite v. Exponents beyond any format's range are cut to 100,000 in magnitude, which rounds alike. -/
def fExp2 (neg : Bool) (m : Nat) (e : Int) : FVal :=
  let e' : Int := if 40 < e then 40 else e
  let (n, frac, k) := splitFrac m e'
  let n := min n 100000
  if frac = 0 then .fin false 1 (if neg then -(n : Int) else n) false
  else
    let (i, f) : Int × Nat := if neg then (-(n : Int) - 1, 2 ^ k - frac) else (n, frac)
    .fin false (exp2Frac f k (2 ^ (fnBits + 1)) (2 ^ fnBits)) (i - fnBits) true

/-- The first `k` bits of log2 of y 2^-p, 1 <= y 2^-p < 2. -/
def log2Bits (p : Nat) (k : Nat) (y acc : Nat) : Nat :=
  match k with
  | 0 => acc
  | k + 1 =>
    let z := y * y / 2 ^ p
    if 2 ^ (p + 1) ≤ z then log2Bits p k (z / 2) (2 * acc + 1) else log2Bits p k z (2 * acc)

/-- log2 of m 2^e, m > 0. -/
def fLog2 (m : Nat) (e : Int) : FVal :=
  let i := FVal.exponent m e
  let k := bitLen m - 1
  if m = 2 ^ k then if i = 0 then .zero false else FVal.ofInt i
  else
    let bitsN : Nat := 256
    let f := log2Bits fnBits bitsN (m * 2 ^ fnBits / 2 ^ k) 0
    if 0 ≤ i then .fin false (i.toNat * 2 ^ bitsN + f) (-(bitsN : Int)) true
    else .fin true ((-i).toNat * 2 ^ bitsN - f - 1) (-(bitsN : Int)) true

/-- Fraction bits of the rotations below. -/
def trigBits : Nat := 768

/-- (cos, sin) of pi t, t = frac 2^-k in [0, 1/2], in fixed point: rotations by pi 2^-i, i = 1, 2, …, for the set bits
from the top. `c`, `sn` are cos and sin of pi 2^-i of the bit before. -/
def rotate (frac : Nat) (k : Nat) (c sn accC accS : Int) : Int × Int :=
  let one : Int := (2 ^ trigBits : Nat)
  match k with
  | 0 => (accC, accS)
  | k + 1 =>
    -- half angles: cos(a/2) = sqrt((1 + cos a)/2), sin(a/2) = sin a / (2 cos(a/2))
    let c' : Int := isqrt (((one + c) / 2 * one).toNat)
    let s' : Int := sn * one / (2 * c')
    if frac.testBit k then
      rotate frac k c' s' ((accC * c' - accS * s') / one) ((accS * c' + accC * s') / one)
    else rotate frac k c' s' accC accS

/-- sin(pi t) for t = frac 2^-k, 0 < t < 1/2. -/
def sinPiFrac (frac k : Nat) : Nat :=
  let one : Int := (2 ^ trigBits : Nat)
  -- t < 1/2: the bit of weight 1/2 is clear, and the rotation by pi/2 is where the halving starts
  (rotate frac (k - 1) 0 one one 0).2.toNat

/-- sin(pi t) as a value, for t = n + frac 2^-k in [0, 2) with `neg` its sign; the exact cases are taken before. -/
def sinPiVal (neg : Bool) (n frac k : Nat) : FVal :=
  let sgn := neg != (n % 2 == 1)
  -- fold t into (0, 1/2)
  let half := 2 ^ (k - 1)
  let f := if frac > half then 2 ^ k - frac else frac
  .fin sgn (sinPiFrac f k) (-(trigBits : Int)) true

/-- FSINPI of a finite value (R131). -/
def fSinPi (neg : Bool) (m : Nat) (e : Int) : FVal :=
  let (n, frac, k) := splitFrac m e
  if frac = 0 then .zero neg
  else if 2 * frac = 2 ^ k then .fin (neg != (n % 2 == 1)) 1 0 false
  else sinPiVal neg n frac k

/-- FCOSPI of a finite value (R131): cos(pi x) = sin(pi (x + 1/2)), even in x. -/
def fCosPi (m : Nat) (e : Int) : FVal :=
  let (n, frac, k) := splitFrac m e
  if frac = 0 then .fin (n % 2 == 1) 1 0 false
  else if 2 * frac = 2 ^ k then .zero false
  else
    let g := frac + 2 ^ (k - 1)
    sinPiVal false (n + g / 2 ^ k) (g % 2 ^ k) k

end Sys2Proof.Machine
end

