-- ==== Sys2Proof/Machine/Memory.lean ====
section
/-!
DEFINITION. Memory as a list of (address, byte) pairs in one canonical form: addresses strictly rising, and no entry
equal to what an unlisted address reads as, 0x00 (log 1). Wider accesses are little-endian (00 R11). The same form
holds physical memory, a team's scratchpad (zero-filled by 01 R27) and the memory of other devices.
-/
namespace Sys2Proof.Machine

/-- What an unlisted address reads as: zero fill in scratchpad (01 R27); DESIGN CHOICE for other memory (log 1). -/
def memDefault : Byte := 0x00#8

/-- The byte at an address. -/
def memRead (m : List Host.Cell) (a : Nat) : Byte :=
  match m with
  | [] => memDefault
  | (x, b) :: t => if x = a then b else memRead t a

/-- The memory with byte `b` at address `a`. -/
def memWrite (m : List Host.Cell) (a : Nat) (b : Byte) : List Host.Cell :=
  match m with
  | [] => if b = memDefault then [] else [(a, b)]
  | (x, c) :: t =>
    if a < x then if b = memDefault then (x, c) :: t else (a, b) :: (x, c) :: t
    else if a = x then if b = memDefault then t else (a, b) :: t
    else (x, c) :: memWrite t a b

/-- The canonical form, above a lower bound: addresses at least `lo` and strictly rising, no default byte listed. -/
def memWfFrom (lo : Nat) (m : List Host.Cell) : Bool :=
  match m with
  | [] => true
  | (x, b) :: t => decide (lo ≤ x) && b != memDefault && memWfFrom (x + 1) t

/-- The canonical form. -/
def memWf (m : List Host.Cell) : Bool := memWfFrom 0 m

/-- The little-endian value of `n` bytes at `a` (00 R11). -/
def memReadN (m : List Host.Cell) (a n : Nat) : Nat :=
  match n with
  | 0 => 0
  | k + 1 => (memRead m a).toNat + 256 * memReadN m (a + 1) k

/-- The memory with the low `n` bytes of `v` at `a`, little-endian. -/
def memWriteN (m : List Host.Cell) (a n v : Nat) : List Host.Cell :=
  match n with
  | 0 => m
  | k + 1 => memWriteN (memWrite m a (BitVec.ofNat 8 v)) (a + 1) k (v / 256)

/-- The bytes at `a`, `a + 1`, … -/
def memReadBytes (m : List Host.Cell) (a n : Nat) : List Byte :=
  match n with
  | 0 => []
  | k + 1 => memRead m a :: memReadBytes m (a + 1) k

/-- The memory with a run of bytes at `a`. -/
def memWriteBytes (m : List Host.Cell) (a : Nat) (bs : List Byte) : List Host.Cell :=
  match bs with
  | [] => m
  | b :: t => memWriteBytes (memWrite m a b) (a + 1) t

/-- The memory with `n` bytes at `a` reading as the default. -/
def memClear (m : List Host.Cell) (a n : Nat) : List Host.Cell :=
  m.filter fun c => !(decide (a ≤ c.1) && decide (c.1 < a + n))

/-- The part of a memory at `[a, a + n)`, moved to start at `base`. -/
def memSlice (m : List Host.Cell) (a n base : Nat) : List Host.Cell :=
  m.filterMap fun c => if a ≤ c.1 ∧ c.1 < a + n then some (c.1 - a + base, c.2) else none

/-- The little-endian value of a run of bytes. -/
def bytesToNat (bs : List Byte) : Nat := bs.foldr (fun b n => b.toNat + 256 * n) 0

/-- The low `n` bytes of a value, little-endian. -/
def natToBytes (n v : Nat) : List Byte :=
  match n with
  | 0 => []
  | k + 1 => BitVec.ofNat 8 v :: natToBytes k (v / 256)

/-! ## Physical memory of the package -/

/-- The value of `n` bytes at a physical address; one past the HBM is plain memory as any other (log 80). -/
def physRead (s : State) (pa n : Nat) : Nat := memReadN s.mem pa n

/-- The 32-byte granules that `n` bytes at `pa` touch (10 R205). -/
def granulesOf (pa n : Nat) : List Nat := (List.range ((pa + n - 1) / 32 + 1 - pa / 32)).map (· + pa / 32)

/-- Whether a read of `n` bytes at `pa` meets an uncorrectable error; the address of the first bad granule. -/
def badGranule? (s : State) (pa n : Nat) : Option Nat :=
  ((granulesOf pa n).find? (s.badGranules.contains ·)).map (· * 32)

/-- A write of bytes at a physical address, for units that write whole records. A write that covers a whole granule
clears its error (10 R205). -/
def physWriteBytes (s : State) (pa : Nat) (bs : List Byte) : State :=
  { s with
    mem := memWriteBytes s.mem pa bs
    badGranules := s.badGranules.filter fun g => !(decide (pa ≤ g * 32) && decide (g * 32 + 32 ≤ pa + bs.length)) }

/-- A write of the low `n` bytes of `v` at a physical address. -/
def physWrite (s : State) (pa n v : Nat) : State := physWriteBytes s pa (natToBytes n v)

end Sys2Proof.Machine
end

