-- ==== Sys2Proof/Machine/Reports.lean ====
section
/-!
DEFINITION. Finding and replacing the parts of the state by their identities, free choices, the causes of traps (11 R207)
and the records that go to the driver (11 R206, R208).
-/
namespace Sys2Proof.Machine

/-! ## Sorting -/

/-- `x` before the first element it does not exceed. -/
def insertLe {α : Type} (le : α → α → Bool) (x : α) : List α → List α
  | [] => [x]
  | y :: t => if le x y then x :: y :: t else y :: insertLe le x t

/-- A list in ascending order; equal elements keep their order. -/
def sortLe {α : Type} (le : α → α → Bool) (l : List α) : List α := l.foldr (insertLe le) []

/-! ## Lookup and replacement -/

def groupOf (s : State) (gid : Nat) : Option Group := s.groups.find? (·.gid == gid)
def splitOf (g : Group) (sid : Nat) : Option Split := g.splits.find? (·.sid == sid)
def regionOf (g : Group) (rid : Nat) : Option Region := g.regions.find? (·.rid == rid)
def teamOf (s : State) (tid : Nat) : Option Team := s.teams.find? (·.tid == tid)
def gridOf (s : State) (uid : Nat) : Option Grid := s.grids.find? (·.uid == uid)
def queueOf (s : State) (n : Nat) : Option Queue := s.queues.find? (·.num == n)
def copyOf (s : State) (cid : Nat) : Option Copy := s.copies.find? (·.cid == cid)
def opOf (s : State) (id : Nat) : Option Op := s.ops.find? (·.id == id)
def handleOf (s : State) (hid : Nat) : Option Handle := s.handles.find? (·.hid == hid)

/-- The context of a number. -/
def ctxOf (s : State) (n : Nat) : Option Context := s.contexts.find? (·.num == n)

/-- Group `g` in place of the group of its identity. -/
def setGroup (s : State) (g : Group) : State :=
  { s with groups := s.groups.map fun x => if x.gid = g.gid then g else x }
def setSplit (g : Group) (p : Split) : Group :=
  { g with splits := g.splits.map fun x => if x.sid = p.sid then p else x }
def setRegion (g : Group) (r : Region) : Group :=
  { g with regions := g.regions.map fun x => if x.rid = r.rid then r else x }
def setTeam (s : State) (t : Team) : State :=
  { s with teams := s.teams.map fun x => if x.tid = t.tid then t else x }
def setGrid (s : State) (g : Grid) : State :=
  { s with grids := s.grids.map fun x => if x.uid = g.uid then g else x }
def setQueue (s : State) (q : Queue) : State :=
  { s with queues := s.queues.map fun x => if x.num = q.num then q else x }
def setCtx (s : State) (c : Context) : State :=
  { s with contexts := s.contexts.map fun x => if x.num = c.num then c else x }
def setCopy (s : State) (c : Copy) : State :=
  { s with copies := s.copies.map fun x => if x.cid = c.cid then c else x }
def setOp (s : State) (o : Op) : State :=
  { s with ops := s.ops.map fun x => if x.id = o.id then o else x }

def updGroup (s : State) (gid : Nat) (f : Group → Group) : State :=
  match groupOf s gid with
  | some g => setGroup s (f g)
  | none => s
def updTeam (s : State) (tid : Nat) (f : Team → Team) : State :=
  match teamOf s tid with
  | some t => setTeam s (f t)
  | none => s
def updGrid (s : State) (uid : Nat) (f : Grid → Grid) : State :=
  match gridOf s uid with
  | some g => setGrid s (f g)
  | none => s
def updSplit (s : State) (gid sid : Nat) (f : Split → Split) : State :=
  updGroup s gid fun g => match splitOf g sid with
    | some p => setSplit g (f p)
    | none => g

/-- A fresh identity and the state that has used it. -/
def fresh (s : State) : Nat × State := (s.nextId, { s with nextId := s.nextId + 1 })

/-- A free choice below `n`, and the state that has used it (log 3). -/
def choose (s : State) (n : Nat) : Nat × State :=
  (Config.pick s.freeCtr % n, { s with freeCtr := s.freeCtr + 1 })

/-- The ring of quarter `q` of core `c`. -/
def ringOf (s : State) (c q : Nat) : List Latch := s.rings.getD (4 * c + q) emptyRing
def setRing (s : State) (c q : Nat) (r : List Latch) : State := { s with rings := s.rings.set (4 * c + q) r }

/-- The die of a core (00 R5). -/
def dieOf (core : Nat) : Nat := core / Config.coresPerDie

/-- Whether a group is resident and neither evicted, saved nor halted. -/
def Group.running (g : Group) : Bool := g.place == .resident && g.driver.isNone

/-- The group runs a supervisor handler (11 R211). -/
def Group.inHandler (g : Group) : Bool := g.shadow.isSome

/-- FMT at group creation (01 R27). -/
def fmtInit (narrow : Bool) : BitVec 9 := if narrow then 0x140#9 else 0x040#9

/-- The logical time of a group (12 R230). -/
def Group.lt (g : Group) : Nat := g.lclk.toNat + g.lbase

/-! ## Reports to the driver (11 R206, R208) -/

/-- The record's first word, which is also TRAPCAUSE (R206). -/
def TrapRec.word0 (r : TrapRec) : Nat :=
  r.cause % 256 + 2 ^ 8 * (r.source % 16) + 2 ^ 12 * (r.slot % 16) + 2 ^ 16 * (r.swpidx % 4096) +
  2 ^ 28 * bitOf r.insweep + 2 ^ 29 * bitOf r.inchain + 2 ^ 30 * bitOf r.inhandler

/-- The 64 bytes of a record (R206). -/
def TrapRec.bytes (r : TrapRec) : List Byte :=
  natToBytes 4 r.word0 ++ natToBytes 4 r.gridid ++ natToBytes 8 r.pc.toNat ++ natToBytes 8 r.mask.toNat ++
  natToBytes 8 r.aux0.toNat ++ natToBytes 8 r.aux1.toNat ++
  natToBytes 4 (r.core % 2 ^ 16 + 2 ^ 16 * (r.quarter % 4) + 2 ^ 18 * (r.grpid % 16)) ++ natToBytes 4 r.teamid ++
  natToBytes 8 r.time ++ natToBytes 8 0

/-- A message with an interrupt vector to the host die (13 R237). -/
def signal (s : State) (vec : Nat) : State := { s with irqs := s.irqs ++ [vec] }

/-- Whether a context's fault ring has room: TAIL - HEAD below 2^k, HEAD read from the header (R208). -/
def ringHasRoom (s : State) (c : Context) : Bool :=
  decide ((c.tail + 2 ^ 64 - physRead s (c.fring + 8) 8) % 2 ^ 64 < 2 ^ c.fringK)

/-- The address of the next record of a context's ring (R208). -/
def nextRecAddr (c : Context) : Nat := c.fring + 64 + 64 * (c.tail % 2 ^ c.fringK)

/-- A record written to its ring: the record, then TAIL, then the interrupt (R208). -/
def writeRec (s : State) (c : Context) (r : DriverRec) : State :=
  let a := nextRecAddr c
  let s := physWriteBytes s a r.body.bytes
  let s := physWrite s c.fring 8 (c.tail + 1)
  let s := setCtx s { c with tail := c.tail + 1 }
  let s := { s with records := (a, r) :: s.records.filter fun x => x.1 ≠ a }
  let s := match r.link with
    | .group gid => updGroup s gid fun g => { g with driver := g.driver.map fun d => { d with addr := some a } }
    | _ => s
  signal s c.fvec

/-- A record for the driver (R208): a log-only one is written, or dropped and counted when the ring is full; any other
is written if the ring has room and no earlier one waits, else it waits. -/
def report (s : State) (r : DriverRec) : State :=
  match ctxOf s r.ctx with
  | none => s
  | some c =>
    match r.link with
    | .log =>
      if ringHasRoom s c then writeRec s c r
      else setCtx (physWrite s (c.fring + 16) 8 (c.drop + 1)) { c with drop := c.drop + 1 }
    | _ =>
      if ringHasRoom s c && !(s.undelivered.any (·.ctx == r.ctx)) then writeRec s c r
      else { s with undelivered := s.undelivered ++ [r] }

/-! ## Trap causes (11 R207) -/

inductive Cause where
  | illegalEncoding | privileged | operandIllegal | mapUnbound | mapFormat | chainLength | misaligned
  | pageNotPresent | pagePermission | scratchpadRange | privateHighWater | barrierOverrun | barrierPhase
  | regionUnderflow | splitSpillFault | futureDoubleResolve | spawnEntryInvalid | handleInvalid | nanProduced
  | nondeterministicOp | breakpoint | trapInstruction | memoryUncorrectable | fetchFault | compareMismatch
  | checkOverflow
  deriving DecidableEq, Repr

def Cause.code : Cause → Nat
  | .illegalEncoding => 0x01 | .privileged => 0x02 | .operandIllegal => 0x03 | .mapUnbound => 0x04
  | .mapFormat => 0x05 | .chainLength => 0x06 | .misaligned => 0x07 | .pageNotPresent => 0x08
  | .pagePermission => 0x09 | .scratchpadRange => 0x0A | .privateHighWater => 0x0B | .barrierOverrun => 0x0C
  | .barrierPhase => 0x0D | .regionUnderflow => 0x0E | .splitSpillFault => 0x0F | .futureDoubleResolve => 0x10
  | .spawnEntryInvalid => 0x11 | .handleInvalid => 0x12 | .nanProduced => 0x13 | .nondeterministicOp => 0x14
  | .breakpoint => 0x15 | .trapInstruction => 0x16 | .memoryUncorrectable => 0x17 | .fetchFault => 0x18
  | .compareMismatch => 0x19 | .checkOverflow => 0x1A

/-- Causes delivered to the driver, whatever the context's handler (R207). -/
def Cause.toDriver : Cause → Bool
  | .privateHighWater | .breakpoint | .memoryUncorrectable | .fetchFault | .compareMismatch | .checkOverflow => true
  | _ => false

/-- A record of the queue unit, a home or the management unit that concerns no group (R401). -/
def blankRec (s : State) (gridid : Nat) (cause : Cause) (source : Nat) (aux0 aux1 : DWord) : TrapRec :=
  { cause := cause.code, source, slot := 0, swpidx := 0, insweep := false, inchain := false, inhandler := false, gridid,
    pc := 0#64, mask := 0#64, aux0, aux1, core := 0, quarter := 0, grpid := 0, teamid := 0, time := s.clock.toNat }

end Sys2Proof.Machine
end

