-- ==== Sys2Proof/Machine/Translate.lean ====
section
/-!
DEFINITION. Address translation (10 R192 to R199): page-table entries and walks, the TLB of a core with its leases,
and the fault word.
-/
namespace Sys2Proof.Machine

/-- The ACCESS codes of a fault word (10 R200). -/
inductive Access where
  | load | store | rmw | bind | ldl | fetch
  deriving DecidableEq, Repr

def Access.code : Access → Nat
  | .load => 0 | .store => 1 | .rmw => 2 | .bind => 3 | .ldl => 4 | .fetch => 5

/-- Whether an access needs W (10 R194). -/
def Access.writes : Access → Bool
  | .store | .rmw => true
  | _ => false

/-- The REASON codes of a fault word (10 R200). -/
inductive Reason where
  | notPresent | permission | malformed | supervisor
  deriving DecidableEq, Repr

def Reason.code : Reason → Nat
  | .notPresent => 0 | .permission => 1 | .malformed => 2 | .supervisor => 3

/-- A translation fault: its address, and what the fault word says. -/
structure PageFault where
  va : DWord
  access : Access
  reason : Reason
  large : Bool
  deriving DecidableEq, Repr

/-- The fault word (10 R200). -/
def PageFault.word (f : PageFault) : Nat := f.access.code + 8 * f.reason.code + 32 * bitOf f.large

/-- Whether the fault is PAGE_NOT_PRESENT, else PAGE_PERMISSION (10 R194). -/
def PageFault.notPresent (f : PageFault) : Bool :=
  match f.reason with
  | .notPresent | .malformed => true
  | .permission | .supervisor => false

/-! ## Page-table entries (10 R193) -/

def pteV (e : DWord) : Bool := e.getLsbD 0
def pteLeaf (e : DWord) : Bool := e.getLsbD 1
def pteR (e : DWord) : Bool := e.getLsbD 2
def pteW (e : DWord) : Bool := e.getLsbD 3
def pteX (e : DWord) : Bool := e.getLsbD 4
def pteS (e : DWord) : Bool := e.getLsbD 5
def pteA (e : DWord) : Bool := e.getLsbD 7
def pteD (e : DWord) : Bool := e.getLsbD 8
/-- Physical address of the page or node: bits 51:16 of the entry. -/
def pteFrame (e : DWord) : Nat := bits e 16 36 * 0x1_0000
/-- A reserved bit is set (10 R193). -/
def pteReserved (e : DWord) : Bool := bits e 9 7 != 0 || bits e 52 12 != 0
/-- A valid entry that breaks R194 at its level. -/
def pteMalformed (level : Nat) (e : DWord) : Bool :=
  pteReserved e ||
  (match level with
   | 0 | 1 => pteLeaf e
   | 2 => false
   | _ => !pteLeaf e) ||
  (!pteLeaf e && bits e 2 7 != 0) ||
  (level == 2 && pteLeaf e && bits e 16 13 != 0)

/-- The index of a level in a virtual address (10 R192). -/
def vaIndex (va : Nat) (level : Nat) : Nat :=
  match level with
  | 0 => va / 2 ^ 55 % 4
  | 1 => va / 2 ^ 42 % 8192
  | 2 => va / 2 ^ 29 % 8192
  | _ => va / 2 ^ 16 % 8192

/-- Where a walk ends: an invalid or malformed entry, or a leaf; in each case its level and physical address. -/
inductive WalkEnd where
  | invalid (level pa : Nat)
  | malformed (level pa : Nat)
  | leaf (level pa : Nat) (e : DWord)
  deriving DecidableEq, Repr

/-- The entry at a physical address. -/
def pteAt (s : State) (pa : Nat) : DWord := BitVec.ofNat 64 (physRead s pa 8)

/-- The walk from a node, over the levels that remain (10 R192, R194). -/
def walkFrom (s : State) (va : Nat) (levels : List Nat) (node : Nat) : WalkEnd :=
  match levels with
  | [] => .invalid 3 node
  | l :: rest =>
    let pa := node + 8 * vaIndex va l
    let e := pteAt s pa
    if !pteV e then .invalid l pa
    else if pteMalformed l e then .malformed l pa
    else if pteLeaf e then .leaf l pa e
    else walkFrom s va rest (pteFrame e)

/-- The walk of a virtual address from a root node. -/
def walk (s : State) (root va : Nat) : WalkEnd := walkFrom s va [0, 1, 2, 3] root

/-- Why a leaf or a TLB entry denies an access (10 R194). -/
def denied? (a : Access) (sup : Bool) (r w x sv : Bool) : Option Reason :=
  if sv && !sup then some .supervisor
  else match a with
  | .load | .bind | .ldl => if r then none else some .permission
  | .store | .rmw => if w then none else some .permission
  | .fetch => if x then none else some .permission

/-- The physical address that a leaf gives a virtual address (10 R192). -/
def leafAddr (level : Nat) (frame va : Nat) : Nat :=
  if level = 2 then frame + va % 2 ^ 29 else frame + va % 2 ^ 16

/-- Bits set in a table entry, an atomic OR at its home (R195); in an uncorrectable granule it is not performed, and is
logged (R205; log 54). -/
def orEntry (s : State) (ctx pa : Nat) (e : DWord) (set : Nat) : State :=
  if set = 0 then s
  else match badGranule? s pa 8 with
  | some b => report s { ctx, link := .log, body := blankRec s 0 .memoryUncorrectable 4 0#64 (BitVec.ofNat 64 b) }
  | none => physWrite s pa 8 (e.toNat + set)

/-- A walk that makes an access, with the state it leaves: every leaf it ends at has A set, and D for a write that is not
denied (10 R195). No TLB is used: this is how copy engines, homes and the queue unit translate (log 15). -/
def walkAccess (s : State) (c : Context) (va : DWord) (a : Access) (sup : Bool) : Except PageFault Nat × State :=
  if bits va 57 7 ≠ 0 then (.error { va, access := a, reason := .malformed, large := false }, s)
  else match walk s c.ptroot va.toNat with
  | .invalid _ _ => (.error { va, access := a, reason := .notPresent, large := false }, s)
  | .malformed l pa =>
    (.error { va, access := a, reason := .malformed, large := l == 2 && pteLeaf (pteAt s pa) }, s)
  | .leaf l pa e =>
    let seen := if pteA e then 0 else 0x80
    match denied? a sup (pteR e) (pteW e) (pteX e) (pteS e) with
    | some r => (.error { va, access := a, reason := r, large := l == 2 }, orEntry s c.num pa e seen)
    | none =>
      (.ok (leafAddr l (pteFrame e) va.toNat), orEntry s c.num pa e (seen + if a.writes && !pteD e then 0x100 else 0))

/-- The core of an index. -/
def coreOf (s : State) (c : Nat) : Core := s.cores.getD c Core.idle

/-- The state with core `c` replaced. -/
def setCore (s : State) (c : Nat) (k : Core) : State := { s with cores := s.cores.set c k }

/-- Whether a TLB entry covers a virtual address. -/
def TlbEntry.covers (t : TlbEntry) (fetch : Bool) (ctx va : Nat) : Bool :=
  t.fetch == fetch && t.ctx == ctx && (if t.large then va / 2 ^ 29 * 2 ^ 29 else va / 2 ^ 16 * 2 ^ 16) == t.page

/-- The entry a lookup uses: a 64 KiB entry before a 512 MiB one, its lease not expired (10 R196, R197). -/
def tlbLookup (k : Core) (now : Nat) (fetch : Bool) (ctx va : Nat) : Option TlbEntry :=
  let live := k.tlb.filter fun t => t.covers fetch ctx va && decide (now < t.expiry)
  match live.find? (!·.large) with
  | some t => some t
  | none => live.head?

/-- The TLB without the data entry for an address's page, if it holds one: a lookup that faults drops it (10 R196). -/
def tlbDropData (k : Core) (now ctx va : Nat) : Core :=
  match tlbLookup k now false ctx va with
  | some t => { k with tlb := k.tlb.filter (· != t) }
  | none => k

/-- Translation by a core's TLB (10 R195 to R197): the physical address, or the fault; and the state with walks' A and
D bits, filled and dropped entries. -/
def translate (s : State) (c : Nat) (ctx : Context) (va : DWord) (a : Access) (sup : Bool) :
    Except PageFault Nat × State :=
  let fetch := a == .fetch
  let drop (s : State) : State := setCore s c (tlbDropData (coreOf s c) s.clock.toNat ctx.num va.toNat)
  if bits va 57 7 ≠ 0 then (.error { va, access := a, reason := .malformed, large := false }, s)
  else
    let k := coreOf s c
    let refill (s : State) : Except PageFault Nat × State :=
      match walkAccess s ctx va a sup with
      | (.error f, s) => (.error f, drop s)
      | (.ok pa, s') =>
        match walk s' ctx.ptroot va.toNat with
        | .leaf l _ e =>
          let large := l == 2
          let t : TlbEntry :=
            { fetch, ctx := ctx.num, page := if large then va.toNat / 2 ^ 29 * 2 ^ 29 else va.toNat / 2 ^ 16 * 2 ^ 16,
              large, frame := pteFrame e, r := pteR e, w := pteW e, x := pteX e, s := pteS e, d := pteD e,
              expiry := s'.clock.toNat + ctx.lease * Config.clkPerUs }
          let k' := coreOf s' c
          let old := k'.tlb.filter fun u => !(u.fetch == fetch && u.ctx == t.ctx && u.page == t.page && u.large == t.large)
          (.ok pa, setCore s' c { k' with tlb := t :: old })
        | _ => (.ok pa, s')
    match tlbLookup k s.clock.toNat fetch ctx.num va.toNat with
    | some t =>
      match denied? a sup t.r t.w t.x t.s with
      | some r => (.error { va, access := a, reason := r, large := t.large }, drop s)
      | none =>
        if a.writes && !t.d then refill s
        else (.ok (leafAddr (if t.large then 2 else 3) t.frame va.toNat), s)
    | none => refill s

/-- Whether an address lies in the fabric window of its context (13 R241). -/
def inFabric (ctx : Context) (va : DWord) : Bool := ctx.fabric && va.getLsbD 56 && bits va 57 7 == 0

/-- Whether a run of `n` bytes, at most a few pages, touches the fabric window: its first byte or its last lies in it. -/
def fabricRun (ctx : Context) (va : DWord) (n : Nat) : Bool :=
  inFabric ctx va || inFabric ctx (va + BitVec.ofNat 64 (n - 1))

end Sys2Proof.Machine
end

