-- ==== Sys2Proof/Machine/Ops.lean ====
section
/-!
DEFINITION. The named operations that instructions share: the driver's ring and halts, taking a trap and returning from one
(11 R206 to R213), engine counters (08 R159), and the issue of one instruction: its checks, its effect, and what every
issued instruction changes (PC, LCLK, hold chain).
-/
namespace Sys2Proof.Machine

/-! ## Traps (11 R207, R209) -/

/-- A trap an instruction takes: its cause, lanes, slot selector, AUX words, and for a memory fault the address and fault
word of each lane (R206, R337). `sweep` is the iteration of an interrupted sweep; `hold`: the instruction has HOLD = 1, so
that it stands in a chain even where it is the first (R209). -/
structure TrapReq where
  cause : Cause
  mask : Lanes
  slot : Nat := 0
  aux0 : DWord := 0#64
  aux1 : DWord := 0#64
  faults : List (Nat × DWord × Nat) := []
  sweep : Option Nat := none
  hold : Bool := false
  deriving DecidableEq, Repr

/-- The record of a trap of a split (R206). -/
def trapRecord (s : State) (g : Group) (p : Split) (t : TrapReq) (source : Nat) : TrapRec :=
  { cause := t.cause.code, source, slot := t.slot, swpidx := t.sweep.getD 0, insweep := t.sweep.isSome,
    inchain := decide (0 < p.chainLen) || t.hold, inhandler := g.inHandler, gridid := g.gridid, pc := p.pc, mask := t.mask,
    aux0 := t.aux0, aux1 := t.aux1, core := g.core, quarter := g.quarter, grpid := g.grpid, teamid := g.teamid,
    time := s.clock.toNat }

/-- A sweep under way stands at its next iteration, in SWPIDX (11 R214, R219). -/
def Split.holdSweep (p : Split) : Split :=
  match p.sweep with
  | some (_, n) => { p with swpidx := n, sweep := none }
  | none => p

/-- A group of a checked copy whose traps wait for the comparison (12 R236). -/
def comparedCopy (s : State) (g : Group) : Bool := g.checked && (teamOf s g.team).all (·.copyNo != 4)

/-- The ring that a halt keeps with a group: that of a split inside a hold chain (05 R104). -/
def chainRing (s : State) (g : Group) : Option (List Latch) :=
  if g.splits.any fun p => decide (0 < p.chainLen) then some (ringOf s g.core g.quarter) else g.savedRing

/-- The group halts for the driver with a record; a halt inside a hold chain keeps the ring (05 R104); in a checked copy the record waits for the comparison (12 R236). -/
def haltForDriver (s : State) (g : Group) (sid : Nat) (kind : HaltKind) (r : TrapRec) : State :=
  let s := setGroup s
    { g with driver := some { kind, body := r, sid, addr := none }, splits := g.splits.map Split.holdSweep,
             savedRing := if kind = .breakpoint true then g.savedRing else chainRing s g }
  if comparedCopy s g then updTeam s g.team fun t => { t with traps := t.traps ++ [r] }
  else report s { ctx := g.ctx, body := r, link := .group g.gid }

/-- The lanes a trapping sweep leaves its iteration in: SWPIDX and no sweep in progress (07 R154). -/
def Split.stopSweep (p : Split) (t : TrapReq) : Split :=
  match t.sweep with
  | some n => { p with swpidx := n, sweep := none }
  | none => { p with sweep := none }

/-- What FLTRD can read of a trap: addresses and fault words of the memory faults it lists (21 R337). -/
def fltrdFaults (t : TrapReq) : List (Nat × DWord × Nat) :=
  match t.cause with
  | .pageNotPresent | .pagePermission | .misaligned | .scratchpadRange => t.faults
  | _ => []

/-- Trap entry to the in-lane handler (R211), in one step: the shadow, TRAPCAUSE, TRAPPC and TRAPMASK, EM and FMT, the
PC at the handler. `r`: the trap as its record tells it; a ring kept since the trap goes to the shadow. -/
def enterHandler (s : State) (g : Group) (p : Split) (r : TrapRec) (faults : List (Nat × DWord × Nat)) (handler : DWord) :
    State :=
  let sh : Shadow :=
    { sid := p.sid, em := p.em, fmt := p.fmt, swpidx := p.swpidx, status := g.status,
      s56 := (g.sregs.drop 56).take 8, ring := g.savedRing.getD (ringOf s g.core g.quarter), pc := p.pc,
      chainLen := p.chainLen, chainPC := p.chainPC, bpMatch := p.bpMatch, aux0 := r.aux0, aux1 := r.aux1 }
  let p' : Split :=
    { p with
      em := r.mask &&& p.members, fmt := (fmtInit g.narrow &&& 0x19F#9) ||| (p.fmt &&& 0x060#9), pc := handler,
      chainLen := 0, chainPC := 0#64, sweep := none, awaiting := none, syncWait := none, syncOk := false,
      bpSkip := false, bpMatch := none }
  setGroup s (setSplit
    { g with
      shadow := some sh, trapcause := BitVec.ofNat 32 r.word0, trappc := p.pc, trapmask := r.mask, faults,
      savedRing := none } p')

/-- Taking a trap at the instruction of split `sid` (R207, R209, R211, R213). The instruction has had no effect. A checked
copy stands at it until the comparison, which delivers it (12 R236). -/
def takeTrap (s : State) (gid sid : Nat) (t : TrapReq) : State :=
  match groupOf s gid with
  | none => s
  | some g0 =>
    match splitOf g0 sid with
    | none => s
    | some p0 =>
      let p := p0.stopSweep t
      let g := setSplit g0 { p with awaiting := none, syncWait := none, syncOk := false }
      let handler := (ctxOf s g.ctx).elim 0#64 (·.handler)
      if t.cause.toDriver then
        haltForDriver s g sid (if t.cause = .breakpoint then .breakpoint false else .driver) (trapRecord s g p t 1)
      else if g.inHandler then haltForDriver s g sid .inHandler (trapRecord s g p t 1)
      else if handler = 0#64 then haltForDriver s g sid .noHandler (trapRecord s g p t 1)
      else if comparedCopy s g then
        haltForDriver s { g with faults := fltrdFaults t } sid .compared (trapRecord s g p t 0)
      else enterHandler s g p (trapRecord s g p t 0) (fltrdFaults t) handler

/-- Returning from the handler (R212): every item of the shadow, and the PC at TRAPPC. -/
def returnFromHandler (s : State) (g : Group) (sh : Shadow) : State :=
  match splitOf g sh.sid with
  | none => s
  | some p =>
    let p' : Split :=
      { p with
        em := sh.em &&& p.members, fmt := sh.fmt, swpidx := if g.trappc = sh.pc then sh.swpidx else 0, pc := g.trappc,
        chainLen := sh.chainLen, chainPC := sh.chainPC, bpMatch := sh.bpMatch, sweep := none }
    let s := setRing s g.core g.quarter sh.ring
    setGroup s (setSplit
      { g with shadow := none, faults := [], status := sh.status, sregs := g.sregs.take 56 ++ sh.s56 } p')

/-! ## Engine counters (08 R159) -/

/-- The value of a counter: operations of the class not yet counted off. -/
def counter (g : Group) (c : EngClass) : Nat := (g.eng.filter (·.cls == c)).length

/-- One more operation of a class. -/
def engAdd (g : Group) (c : EngClass) (op : Nat) : Group :=
  { g with eng := g.eng ++ [{ cls := c, op, done := false }] }

/-- The operations left once the completed oldest ones of each class are counted off: `blocked` holds the classes whose
oldest operation is not complete. -/
def engPop (blocked : List EngClass) (l : List EngOp) : List EngOp :=
  match l with
  | [] => []
  | e :: t =>
    if e.done && !blocked.contains e.cls then engPop blocked t
    else e :: engPop (e.cls :: blocked) t

/-- An operation completes: the counter falls when every older one of its class has (R159). -/
def engDone (g : Group) (op : Nat) : Group :=
  { g with eng := engPop [] (g.eng.map fun e => if e.op = op then { e with done := true } else e) }

/-! ## Issue -/

/-- What an issued instruction reads: the state, its group and split as they stand at issue, and their context. -/
structure Iss where
  s : State
  i : Instr
  g : Group
  p : Split
  ctx : Context

/-- What an instruction does: a new state, a new state whose PC the instruction has set, a trap (with what translation
left in the TLB and the tables), or nothing yet: it waits and issues again. -/
inductive Eff where
  | done (s : State)
  | jump (s : State)
  | trap (s : State) (t : TrapReq)
  | wait (s : State)

/-- The trap of an instruction whose AUX words are its own bits (R207). -/
def illegal (u : Iss) (c : Cause) : Eff :=
  let w := encode u.i
  .trap u.s { cause := c, mask := u.p.members, aux0 := w.extractLsb' 0 64, aux1 := w.extractLsb' 64 64 }

def operandIllegal (u : Iss) : Eff := illegal u .operandIllegal

/-- For FLTRD, a misaligned or out-of-range access that acts once gives each lane of MASK the same values (22 R337). -/
def onceFaults (c : Cause) (m : Lanes) (a : DWord) : List (Nat × DWord × Nat) :=
  match c with
  | .misaligned | .scratchpadRange => m.toList.map fun l => (l, a, 0)
  | _ => []

/-- A trap of the whole split with the AUX words given. -/
def trapAll (u : Iss) (c : Cause) (aux0 aux1 : Nat) : Eff :=
  .trap u.s { cause := c, mask := u.p.members, aux0 := BitVec.ofNat 64 aux0, aux1 := BitVec.ofNat 64 aux1,
              faults := onceFaults c u.p.members (BitVec.ofNat 64 aux0) }

/-- The header of an instruction (14 R251). -/
def instrHdr (i : Instr) : Option Hdr :=
  match i.parts with
  | some (_, .r f) => some f.h
  | some (_, .i f) => some f.h
  | some (_, .m f) => some f.h
  | some (_, .s f) => some f.h
  | some (_, .c f) => some f.h
  | some (_, .k f) => some f.h
  | none => none

def instrGuard (i : Instr) : Guard := ((instrHdr i).map Hdr.guard).getD .always
def instrHold (i : Instr) : Bool := ((instrHdr i).map Hdr.hold).getD false

/-- The instructions permitted only in a supervisor handler (11 R211, 05 R106). -/
def instrPrivileged : Instr → Bool
  | .iret _ | .fltrd _ | .pgmap _ | .trapEsc _ => true
  | .movsr f | .setsr f => f.kimm == 0x20#32 || f.kimm == 0x22#32 || f.kimm == 0x24#32
  | _ => false

/-- An operand that is a scalar register. -/
def isScalar : Opnd → Bool
  | .s _ => true
  | _ => false

/-- A sweep form (14 R256). -/
def isSweep : Instr → Bool
  | .faddSweep .. | .fmaSweep .. | .fmulSweep .. | .cvtSweep .. | .fquantSweep .. | .maccSweep .. | .ldlSweep _ => true
  | _ => false

/-- A vector instruction: it acts for each lane of Active() (03 R69). With a scalar destination an arithmetic instruction
or a load acts once instead (14 R253); LRED and VOTE still read a vector (22 R359, 23 R382). -/
def perLane : Instr → Bool
  | .and _ f | .andn _ f | .iadd _ f | .imax _ f | .imin _ f | .imul _ f | .imulh _ f | .isub _ f | .or _ f | .xor _ f
  | .bfe _ f | .sar _ f | .shl _ f | .shr _ f | .bfi _ f | .sel _ f | .shf _ f | .brev _ f | .iabs _ f | .clz _ f
  | .popc _ f | .icmp _ f | .imad _ f | .lea _ f | .prmt _ f | .fma _ f | .rng f | .fadd _ f | .fcmp _ f | .fmax _ f
  | .fmin _ f | .fmul _ f | .fscale _ f | .fquant _ f | .fclass _ f | .fcospi _ f | .fexp2 _ f | .fgetexp _ f
  | .flog2 _ f | .frcp _ f | .frnd _ f | .frsq _ f | .fsinpi _ f | .fsqrt _ f | .famax _ f | .cvt _ f
  | .movB32 f | .movB64 f => !isScalar f.d
  | .iaddImm64 _ f | .movB64Imm64 f => !isScalar f.d
  | .ld _ f | .lds _ f => !isScalar f.d
  | .lred .. | .lscan .. | .matchLanes .. | .part .. | .shfl .. | .vote .. | .mapwr _ | .maprd _ | .macc .. | .ldl _
  | .census .. | .st .. | .sts .. | .atom .. | .red .. | .pref _ | .jdec _ | .spawn _ | .freg _ => true
  | i => isSweep i

/-- An exit: it meets the deferred error of every load of its group (10 R205), and a handler may not issue it (03 R63). -/
def isExit : Instr → Bool
  | .exit _ | .exitJ _ => true
  | _ => false

/-- The mode forbids the instruction (R211). -/
def modeForbids (u : Iss) : Bool := if u.g.inHandler then isExit u.i else instrPrivileged u.i

/-- Whether the guard's register exists (14 R259, R262). -/
def guardLegal (g : Group) (gd : Guard) : Bool :=
  match gd with
  | .always => true
  | .vector _ _ r => decide (r.toNat < g.vregs.length)
  | .scalar _ _ r => decide (r.toNat < 64)

def isIret : Instr → Bool
  | .iret _ => true
  | _ => false

/-- The issuing split behind its instruction: its PC, the stamp, the hold chain (05 R103, R104), and the marks that the
issue used up. IRET may leave its split mid-chain (11 R212). -/
def retiredSplit (u : Iss) (next : Bool) (p : Split) : Split :=
  { p with
    pc := if next then p.pc + 16#64 else p.pc, stamp := u.s.clock.toNat, syncOk := false, syncWait := none,
    bpSkip := false, bpMatch := if instrHold u.i || isIret u.i then p.bpMatch else none, issues := p.issues + 1,
    chainLen := if isIret u.i then p.chainLen else if instrHold u.i then p.chainLen + 1 else 0,
    chainPC := if isIret u.i then p.chainPC
      else if instrHold u.i then (if p.chainLen = 0 then u.p.pc else p.chainPC) else 0#64 }

/-- The group of an issued instruction: LCLK (05 R107), and its round, which a split leaves with one instruction or the end
of its hold chain (12 R232). -/
def retiredGroup (u : Iss) (g : Group) : Group :=
  { g with lclk := g.lclk + 1#64, round := if instrHold u.i then g.round else g.round.filter (· != u.p.sid) }

/-- The end of a hold chain in which a breakpoint address was reached makes its halt due, before the instruction that the
chain's last one leads to (11 R218); a group that it ends does not halt. -/
def chainBp (u : Iss) (g : Group) : Group :=
  match u.p.bpMatch with
  | some a =>
    if instrHold u.i || g.splits.isEmpty then g
    else
      let pc := ((splitOf g u.p.sid).map Split.pc).getD (u.p.pc + 16#64)
      { g with bpDue := some { sid := u.p.sid, addr := a, pc, mask := u.p.members } }
  | none => g

/-- Bookkeeping of an issued instruction. `next`: the PC advances. -/
def retire (s : State) (u : Iss) (next : Bool) : State :=
  updGroup (updSplit (updGroup s u.g.gid (retiredGroup u)) u.g.gid u.p.sid (retiredSplit u next)) u.g.gid (chainBp u)

/-- A trap of an instruction as its record tells it: in a hold chain, or at a sweep, which starts at SWPIDX. -/
def TrapReq.by (t : TrapReq) (u : Iss) : TrapReq :=
  { t with hold := instrHold u.i, sweep := if isSweep u.i then t.sweep.or (some u.p.swpidx) else t.sweep }

/-- What an effect makes of the state. -/
def commit (u : Iss) (e : Eff) : State :=
  match e with
  | .done s => retire s u true
  | .jump s => retire s u false
  | .trap s t => takeTrap s u.g.gid u.p.sid (t.by u)
  | .wait s => s

/-- The issuing split, its group and its context. -/
def issuer (s : State) (i : Instr) : Option Iss :=
  match s.cur with
  | none => none
  | some (gid, sid) =>
    match groupOf s gid with
    | none => none
    | some g =>
      match splitOf g sid, ctxOf s g.ctx with
      | some p, some ctx => some { s, i, g, p, ctx }
      | _, _ => none

/-- A vector instruction of a split with EM = 0: no effect, no check, no fault (03 R69, 14 R270). -/
def Iss.idle (u : Iss) : Bool := perLane u.i && u.p.em == 0#64

/-- What an idle instruction leaves: nothing, but that a sweep ends with SWPIDX zero (R270). -/
def idleEff (u : Iss) : Eff :=
  .done (if isSweep u.i then updSplit u.s u.g.gid u.p.sid fun p => { p with swpidx := 0 } else u.s)

/-- The checks every instruction meets before its own, in the order of R210: PRIVILEGED, CHAIN_LENGTH, the guard. -/
def firstTrap (u : Iss) : Option Eff :=
  if modeForbids u then some (trapAll u .privileged 0 0)
  else if decide (7 ≤ u.p.chainLen) && instrHold u.i then some (trapAll u .chainLength u.p.chainPC.toNat 0)
  else if !u.idle && !guardLegal u.g (instrGuard u.i) then some (operandIllegal u)
  else none

end Sys2Proof.Machine
end

