-- ==== Sys2Proof/Machine/Flags.lean ====
section
/-!
DEFINITION. Flags and rounding controls: STATUS (05 R109), the fields of FMT (05 R107, R108), effective rounding and
saturation (14 R267), and what one lane gathers while its results are formed: SRCTR, flags, and a NaN produced.
-/
namespace Sys2Proof.Machine

/-! ## FMT (05 R107) -/

def fmtRM (f : BitVec 9) : Nat := bits f 0 3
def fmtFTZ (f : BitVec 9) : Bool := f.getLsbD 3
def fmtNANTRAP (f : BitVec 9) : Bool := f.getLsbD 4
def fmtHB (f : BitVec 9) : Nat := bits f 5 2
def fmtSATDEF (f : BitVec 9) : Bool := f.getLsbD 7
def fmtW32 (f : BitVec 9) : Bool := f.getLsbD 8

/-- Whether a value may be written to FMT: RM below 6 and HB below 3 (05 R108). -/
def fmtValid (f : BitVec 9) : Bool := decide (fmtRM f < 6) && decide (fmtHB f < 3)

/-! ## STATUS (05 R109) -/

/-- Flags raised: each sets the group's bit. -/
def raiseFlags (g : Group) (f : Flags) : Group := { g with status := g.status ||| f }

/-- A write to clear: a one clears its bit, bits 31:6 are ignored. -/
def clearFlags (g : Group) (w : Word) : Group := { g with status := g.status &&& ~~~(w.extractLsb' 0 6) }

/-! ## Effective rounding (14 R267) -/

/-- The rounding environment of an instruction: RmEff, SatEff, FTZ, and the key of R127. -/
structure REnv where
  rm : Rm
  sat : Bool
  ftz : Bool
  k0 : Word
  k1 : Word

def rmEff (h : Hdr) (fmt : BitVec 9) : Rm := Rm.ofCode (if h.rm = 6#3 then fmtRM fmt else h.rm.toNat)
def satEff (h : Hdr) (fmt : BitVec 9) : Bool := h.sat || fmtSATDEF fmt

def rEnv (h : Hdr) (fmt : BitVec 9) (seed : DWord) : REnv :=
  { rm := rmEff h fmt, sat := satEff h fmt, ftz := fmtFTZ fmt, k0 := seed.extractLsb' 0 32, k1 := seed.extractLsb' 32 32 }

/-- What a lane gathers: its SRCTR, the flags raised, whether a NaN was produced, and the first mapped source (its
place in A, B, C, and its selector) that produced one (06 R128, R132). -/
structure Lane where
  ctr : Word
  flags : Flags
  produced : Bool
  slot : Option (Nat × Nat)
  deriving DecidableEq, Repr

def Lane.start (ctr : Word) : Lane := { ctr, flags := fNone, produced := false, slot := none }

/-- One rounding made in a lane: under SR it uses and advances SRCTR (06 R127, R128). -/
def roundLane (E : REnv) (f : RCtx → Rounded) (L : Lane) : Nat × Lane :=
  let r := f { rm := E.rm, sat := E.sat, ftz := E.ftz, x := ccg E.k0 E.k1 L.ctr }
  (r.val, { L with ctr := if E.rm = .sr then L.ctr + 1#32 else L.ctr, flags := L.flags ||| r.flags,
                   produced := L.produced || r.produced })

/-- A result that no rounding makes: its flags, and whether it is a NaN produced. -/
def plainLane (r : Rounded) (L : Lane) : Nat × Lane :=
  (r.val, { L with flags := L.flags ||| r.flags, produced := L.produced || r.produced })

/-- Flags that a mapped sum raises by truncation: INEXACT, and no UNDERFLOW (07 R147; log 41). -/
def markInexact (b : Bool) (L : Lane) : Lane := if b then { L with flags := L.flags ||| fInexact } else L

/-- Evaluating `f` at p = 0 to n - 1 in order, packing results of width `w` (06 R118, R128). -/
def packLanes (w n : Nat) (f : Nat → Lane → Nat × Lane) (L : Lane) : Nat × Lane :=
  (List.range n).foldl (fun acc p => let r := f p acc.2; (acc.1 + r.1 * 2 ^ (w * p), r.2)) (0, L)

end Sys2Proof.Machine
end

