-- ==== Sys2Proof/Machine/Map.lean ====
section
/-!
DEFINITION. The mapped operand (07 R145 to R152): the matrix a selector names, the terms of an output lane, and the exact
grid sum.
-/
namespace Sys2Proof.Machine

/-- The matrix a selector names: the built-ins mh and ms, or a slot's contents (07 R135, R152). -/
inductive MapView where
  | hadamard (h : Nat)
  | ones
  | slot (sfmt : Nat) (elems : List (BitVec 16)) (scales : List Byte)

/-- Whether a slot format carries block scales (07 R135). -/
def sfmtScaled (n : Nat) : Bool := n == 2 || n == 3 || n == 4

/-- The element type of a slot format (07 R135). -/
def sfmtCvt : Nat → CvtTy
  | 0 => .bf16 | 1 => .f16 | 2 => .e4m3 | 3 => .e5m2 | 4 => .e2m1 | _ => .s8

/-- Bytes of a row of an image (07 R135). -/
def sfmtRowBytes (n : Nat) : Nat := if n ≤ 1 then 128 else if n = 4 then 32 else 64

/-- Bytes of an image (07 R135). -/
def sfmtImage (n : Nat) : Nat := 64 * sfmtRowBytes n + if sfmtScaled n then 128 else 0

/-- The value of a code of a conversion type; subnormals of F32, F16 and BF16 read as zero with `ftz` (06 R121). -/
def cvtVal (t : CvtTy) (ftz : Bool) (x : Nat) : FVal :=
  match cvtFmt t with
  | some F => FVal.ofBits F ftz x
  | none =>
    match t with
    | .e8m0 => FVal.ofE8M0 x
    | .s8 | .s16 | .s32 | .s64 =>
      FVal.ofInt (if x < 2 ^ (t.width - 1) then (x : Int) else (x : Int) - (2 ^ t.width : Nat))
    | _ => FVal.ofInt x

/-- Element M'[i][j] and its scale (07 R136, R146, R152). -/
def mapElem (v : MapView) (tb ftz : Bool) (i j : Nat) : FVal :=
  match v with
  | .ones => FVal.ofInt 1
  | .hadamard h =>
    if i / h = j / h then
      FVal.ofInt (if ((List.range 6).filter fun b => i.testBit b && j.testBit b).length % 2 = 0 then 1 else -1)
    else FVal.zero false
  | .slot f elems scales =>
    let (r, c) := if tb then (j, i) else (i, j)
    let e := cvtVal (sfmtCvt f) ftz (elems.getD (64 * r + c) 0#16).toNat
    if sfmtScaled f then fMul e (FVal.ofE8M0 (scales.getD (2 * r + c / 32) 0x7F#8).toNat) else e

/-- An input lane of a mapped operand, and whether it is a live member of the issuing split. -/
abbrev MapLane := Nat × Bool

/-- The input lanes: 0 to 63, or 0 to 31 in narrow mode (07 R146). -/
def mapLanesOf (members : Lanes) (narrow : Bool) : List MapLane :=
  (List.range (if narrow then 32 else laneCount)).map fun j => (j, members.has j)

/-- The terms of output lane `i` (07 R146), one for each input lane, with its source value and source scale; zero for a
lane that is no member. -/
def mapTerms (v : MapView) (tb ftz : Bool) (js : List MapLane) (i : Nat) (x xs : Nat → FVal) : List FVal :=
  js.map fun j => if j.2 then fMul (fMul (mapElem v tb ftz i j.1) (x j.1)) (xs j.1) else .zero false

/-- A finite value truncated toward zero to a multiple of 2^g, in units of 2^g, and whether bits were lost. -/
def truncTo (g : Int) : FVal → Int × Bool
  | .fin n m e _ =>
    let (q, r, _) := onGrid m e g
    (if n then -(q : Int) else q, r != 0)
  | _ => (0, false)

/-- floor(log2 |t|) of a non-zero finite value. -/
def finExp : FVal → Option Int
  | .fin _ m e _ => if m = 0 then none else some (FVal.exponent m e)
  | _ => none

/-- The exact grid sum (07 R147, R148): the sum, and whether truncation discarded a non-zero bit. -/
def gridSum (rd : Bool) (terms : List FVal) (add : Option FVal) : FVal × Bool :=
  let all := terms ++ add.toList
  let made := all.any fun t => match t with | .nan _ k => k | _ => false
  let nan := all.any FVal.isNaN
  let pinf := all.any fun t => match t with | .inf n => !n | _ => false
  let ninf := all.any fun t => match t with | .inf n => n | _ => false
  if made || (pinf && ninf) then (.nan false true, false)
  else if nan then (.nan false false, false)
  else if pinf || ninf then (.inf ninf, false)
  else
    match (all.filterMap finExp).max? with
    | none => (.zero (rd || (!all.isEmpty && all.all fun t => t.sign)), false)
    | some E =>
      let g := E - 50
      let parts := all.map (truncTo g)
      let sum := (parts.map Prod.fst).sum
      let lost := parts.any Prod.snd
      if sum = 0 then (.zero rd, lost) else (.fin (decide (sum < 0)) sum.natAbs g false, lost)

/-- A grid sum of integer terms as an integer of 32 bits: wrapped, or clamped when saturating (07 R150, R152). -/
def sumToS32 (sat : Bool) (v : FVal) : Nat :=
  let i := (truncTo 0 v).1
  wrapInt 32 (if sat then clampInt (intRange true 32) i else i)

/-- Whether a type of a mapped source is allowed for a matrix (07 R135, R152): element type and positions. -/
def mapAllowed (v : MapView) (t : CvtTy) (n : Nat) : Bool :=
  match v with
  | .slot f _ _ =>
    match f with
    | 0 => (t == .bf16 && n == 2) || (t == .f32 && n == 1)
    | 1 => (t == .f16 && n == 2) || (t == .f32 && n == 1)
    | 2 => t == .e4m3 && n == 4
    | 3 => t == .e5m2 && n == 4
    | 4 => t == .e2m1 && n == 8
    | _ => t == .s8 && n == 4
  | _ =>
    match t with
    | .f32 | .s32 => n == 1
    | .f16 | .bf16 => n == 1 || n == 2
    | .e4m3 | .e5m2 | .s8 => n == 4
    | .e2m1 => n == 8
    | _ => false

/-- Logical slot `k` (1 to 12) of a group; selector 0 names none. -/
def slotOf (g : Group) (k : Nat) : Option Slot := if k = 0 then none else g.slots[k - 1]?

/-- The contents of the physical slot a logical one holds. -/
def physOf (g : Group) (sl : Slot) : Option PhysSlot := g.phys.find? (·.num == sl.phys)

/-- The matrix a selector 1 to 14 names, for an issuing split; none while the slot is not BOUND. -/
def mapView (g : Group) (fmt : BitVec 9) (sel : Nat) : Option MapView :=
  if sel = 13 then some (.hadamard (16 * 2 ^ fmtHB fmt))
  else if sel = 14 then some .ones
  else match slotOf g sel with
  | none => none
  | some sl =>
    if sl.st = .bound then (physOf g sl).map fun p => .slot sl.sfmt p.elems p.scales else none

/-- The trap, or the wait, of an instruction that names a slot that is not BOUND (07 R138, R141, R145). An image error
traps the first instruction that names the slot. -/
def slotTrap (u : Iss) (sel : Nat) : Option Eff :=
  if sel = 0 ∨ 12 < sel then none
  else match slotOf u.g sel with
  | none => some (operandIllegal u)
  | some sl =>
    match sl.bad with
    | some (pc, pa) =>
      let s := setGroup u.s { u.g with slots := u.g.slots.set (sel - 1) { sl with bad := none } }
      some (.trap s { cause := .memoryUncorrectable, mask := u.p.members, aux0 := pc, aux1 := BitVec.ofNat 64 pa })
    | none =>
      match sl.st with
      | .unbound => some (.trap u.s { cause := .mapUnbound, mask := u.p.members, slot := sel })
      | .binding => some (.wait u.s)
      | .bound => none

/-- MAP_FORMAT of a mapped source (11 R400). -/
def mapFormatTrap (u : Iss) (sel : Nat) (t : CvtTy) (n : Nat) : Eff :=
  let a0 := if 12 < sel then 0xFF else ((slotOf u.g sel).map Slot.sfmt).getD 0
  .trap u.s { cause := .mapFormat, mask := u.p.members, slot := sel, aux0 := BitVec.ofNat 64 a0,
              aux1 := BitVec.ofNat 64 (t.code + 256 * n) }

end Sys2Proof.Machine
end

