-- ==== Sys2Proof/Machine/Operands.lean ====
section
/-!
DEFINITION. Operands (14 R252 to R260, R267 to R269; 05 R97 to R102): guards and active lanes, reading and writing every
operand form, latches, mapped sources, effective addresses and their checks, and the one driver of the instructions that
compute a value per lane.
-/
namespace Sys2Proof.Machine

/-! ## Guards and lanes (14 R259, R267) -/

/-- GuardTrue(l): lane l's guard. -/
def guardTrue (g : Group) (gd : Guard) (l : Nat) : Bool :=
  match gd with
  | .always => true
  | .vector n b r => ((g.vregs.getD r.toNat LaneVec.zero).get l).getLsbD b.toNat != n
  | .scalar n b r => (g.sregs.getD r.toNat 0#32).getLsbD b.toNat != n

def guardIsVector : Guard → Bool
  | .vector .. => true
  | _ => false

/-- The guard of an instruction that acts once: false only for a false scalar guard. -/
def scalarGuard (g : Group) (gd : Guard) : Bool :=
  match gd with
  | .scalar .. => guardTrue g gd 0
  | _ => true

/-- Active(): lanes of EM whose guard is true. -/
def active (u : Iss) : Lanes := u.p.em &&& Lanes.ofPred (guardTrue u.g (instrGuard u.i))

/-- The members whose guard is true: what EXIT and BRK select (03 R65, 21 R319). -/
def guardedMembers (u : Iss) : Lanes := u.p.members &&& Lanes.ofPred (guardTrue u.g (instrGuard u.i))

/-! ## Operand kinds -/

/-- A vector register within the allocation (05 R97). -/
def vecOk (g : Group) (n : Nat) : Bool := decide (n < g.vregs.length)

/-- A vector pair: even, and both registers within the allocation (05 R98). -/
def vecPairOk (g : Group) (n : Nat) : Bool := n % 2 == 0 && decide (n + 1 < g.vregs.length)

/-- A vector or scalar register of 32 bits, or a pair when `wide`. -/
def vsOk (g : Group) (wide : Bool) : Opnd → Bool
  | .v n => if wide then vecPairOk g n.val else vecOk g n.val
  | .s n => !wide || n.val % 2 == 0
  | _ => false

/-- A scalar register, or a scalar pair when `wide`. -/
def sOk (wide : Bool) : Opnd → Bool
  | .s n => !wide || n.val % 2 == 0
  | _ => false

/-- A scalar register or IMM. -/
def siOk : Opnd → Bool
  | .s _ | .imm => true
  | _ => false

/-- A data source (14 R253, R259): any register of the right width, ZERO, or IMM; in scalar form no vector operand. -/
def srcOk (g : Group) (scal wide : Bool) : Opnd → Bool
  | .v n => !scal && (if wide then vecPairOk g n.val else vecOk g n.val)
  | .s n => !wide || n.val % 2 == 0
  | .o _ | .l _ => !scal && !wide
  | .zero | .imm => true
  | .bad _ => false

/-- A destination (14 R259): a vector, operand-file or scalar register of the right width, or ZERO. -/
def dstOk (g : Group) (wide : Bool) : Opnd → Bool
  | .v n => if wide then vecPairOk g n.val else vecOk g n.val
  | .s n => !wide || n.val % 2 == 0
  | .o _ => !wide
  | .zero => true
  | .l _ | .imm | .bad _ => false

/-- A source that may carry a selector (07 R145). -/
def mappable : Opnd → Bool
  | .v _ | .o _ | .l _ => true
  | _ => false

/-! ## Reading registers -/

/-- Latch `n` as the split reads it, and whether it is lost (05 R102, 03 R75). -/
def latchRead (s : State) (g : Group) (p : Split) (n : Nat) : LaneVec × Bool :=
  let x := (ringOf s g.core g.quarter).getD n Latch.zero
  match x.tag with
  | some t => if t.gid = g.gid ∧ t.sid = p.sid ∧ t.epoch = p.epoch then (x.val, false) else (LaneVec.zero, true)
  | none => (LaneVec.zero, true)

/-- One 32-bit register, latch or constant, in lane `l`. -/
def readWord (u : Iss) (imm : Word) (o : Opnd) (l : Nat) : Word :=
  match o with
  | .v n => (u.g.vregs.getD n.val LaneVec.zero).get l
  | .s n => u.g.sregs.getD n.val 0#32
  | .o n => (u.g.oregs.getD n.val LaneVec.zero).get l
  | .l n => (latchRead u.s u.g u.p n.val).1.get l
  | .imm => imm
  | .zero | .bad _ => 0#32

/-- The next register of a pair or a run. -/
def opPlus (o : Opnd) (k : Nat) : Opnd :=
  match o with
  | .v n => if h : n.val + k < 256 then .v ⟨n.val + k, h⟩ else .zero
  | .s n => if h : n.val + k < 64 then .s ⟨n.val + k, h⟩ else .zero
  | x => x

/-- A register or pair in lane `l` as a number (05 R98); a 64-bit immediate is given whole. -/
def readNat (u : Iss) (imm : DWord) (wide : Bool) (o : Opnd) (l : Nat) : Nat :=
  match o with
  | .imm => if wide then imm.toNat else imm.toNat % 2 ^ 32
  | _ =>
    let lo := (readWord u 0#32 o l).toNat
    if wide then lo + 2 ^ 32 * (readWord u 0#32 (opPlus o 1) l).toNat else lo

/-- Reg(code)[l] of a pair as 64 bits. -/
def readPair (u : Iss) (o : Opnd) (l : Nat) : DWord := BitVec.ofNat 64 (readNat u 0#64 true o l)

/-- IMM32 as a source of a type reads it (14 R253). -/
def immFor (t : CvtTy) (imm : Word) : DWord :=
  match t with
  | .s64 => imm.signExtend 64
  | _ => imm.zeroExtend 64

/-- A latch source of the instruction reads zero because it is lost (05 R109). -/
def latchLost (u : Iss) (os : List Opnd) : Bool :=
  os.any fun o => match o with
    | .l n => (latchRead u.s u.g u.p n.val).2
    | _ => false

/-! ## Sources (14 R268) -/

/-- A source as the instruction names it: code, map field, sign bits, element type and positions. -/
structure Src where
  o : Opnd
  sel : Nat := 0
  tb : Bool := false
  neg : Bool := false
  abs : Bool := false
  t : CvtTy
  n : Nat := 1

/-- A source resolved: its raw value per lane, and the matrix its selector names. -/
structure RSrc where
  raw : Nat → Nat
  view : Option MapView
  src : Src

def Src.wide (x : Src) : Bool := x.t.width == 64

/-- Whether a source's operand kind is allowed, its map included (07 R145). -/
def srcLegal (g : Group) (scal : Bool) (x : Src) : Bool :=
  srcOk g scal x.wide x.o && (x.sel == 0 || (mappable x.o && !scal))

/-- The first trap or wait of the mapped sources: MAP_UNBOUND of any before MAP_FORMAT of any (11 R210). -/
def mapTrap (u : Iss) (xs : List Src) : Option Eff :=
  match xs.findSome? fun x => slotTrap u x.sel with
  | some e => some e
  | none => xs.findSome? fun x =>
    if x.sel = 0 then none
    else match mapView u.g u.p.fmt x.sel with
    | none => some (.wait u.s)
    | some v => if mapAllowed v x.t x.n then none else some (mapFormatTrap u x.sel x.t x.n)

/-- A register source resolved. -/
def resolveSrc (u : Iss) (imm : Word) (x : Src) : RSrc :=
  { raw := readNat u (immFor x.t imm) x.wide x.o, view := if x.sel = 0 then none else mapView u.g u.p.fmt x.sel, src := x }

/-- Element `p` of a raw word (06 R118). -/
def elemAt (t : CvtTy) (raw p : Nat) : Nat := raw / 2 ^ (t.width * p) % 2 ^ t.width

/-- Absolute value and negation of a code: the sign bit of a float, two's complement of an integer (14 R260). -/
def applySign (t : CvtTy) (neg abs : Bool) (x : Nat) : Nat :=
  let w := t.width
  match cvtFmt t with
  | some _ =>
    let x := if abs then x % 2 ^ (w - 1) else x
    if neg then (if x < 2 ^ (w - 1) then x + 2 ^ (w - 1) else x - 2 ^ (w - 1)) else x
  | none =>
    let x := if abs && decide (2 ^ (w - 1) ≤ x) then (2 ^ w - x) % 2 ^ w else x
    if neg then (2 ^ w - x) % 2 ^ w else x

/-- Src(k, l, p): element `p` of a source in lane `l` as a code of its type, mapped sources rounded once (14 R268). `js`
are the lanes that enter a map; `ord` is the source's place in A, B, C. -/
def fetchElem (E : REnv) (js : List MapLane) (ord : Nat) (x : RSrc) (l p : Nat) (L : Lane) : Nat × Lane :=
  let t := x.src.t
  match x.view with
  | none => (applySign t x.src.neg x.src.abs (elemAt t (x.raw l) p), L)
  | some v =>
    let terms := mapTerms v x.src.tb E.ftz js l (fun j => cvtVal t E.ftz (elemAt t (x.raw j) p)) (fun _ => FVal.ofInt 1)
    let (sum, lost) := gridSum (E.rm == .rd) terms none
    let (c, L') := roundLane E (fun c => match cvtFmt t with
      | some F => roundTo F c sum
      | none => { val := sumToS32 c.sat sum, flags := fNone, produced := false }) L
    let L' := if (cvtFmt t).isSome then markInexact lost L' else L'
    let L' := if L'.produced && !L.produced then { L' with slot := L'.slot.or (some (ord, x.src.sel)) } else L'
    (applySign t x.src.neg x.src.abs c, L')

/-! ## Writing results (14 R269, 05 R100) -/

/-- A vector register with new values in the lanes of `m`. -/
def mergeLanes (m : Lanes) (old : LaneVec) (new : Nat → Word) : LaneVec :=
  LaneVec.ofFn fun l => if m.has l then new l else old.get l

/-- A 32-bit vector or operand-file register written in the lanes of `m`. -/
def writeReg (g : Group) (d : Opnd) (m : Lanes) (new : Nat → Word) : Group :=
  match d with
  | .v n => { g with vregs := g.vregs.set n.val (mergeLanes m (g.vregs.getD n.val LaneVec.zero) new) }
  | .o n => { g with oregs := g.oregs.set n.val (mergeLanes m (g.oregs.getD n.val LaneVec.zero) new) }
  | _ => g

/-- The whole value of a 32-bit vector or operand-file register; with destination `_`, the results and zero. -/
def regValue (g : Group) (d : Opnd) (m : Lanes) (new : Nat → Word) : LaneVec :=
  match d with
  | .v n => g.vregs.getD n.val LaneVec.zero
  | .o n => g.oregs.getD n.val LaneVec.zero
  | _ => mergeLanes m LaneVec.zero new

/-- A scalar register written. -/
def writeScalar (g : Group) (d : Opnd) (v : Word) : Group :=
  match d with
  | .s n => { g with sregs := g.sregs.set n.val v }
  | _ => g

/-- A scalar register or pair written with a number. -/
def writeScalarNat (g : Group) (wide : Bool) (d : Opnd) (v : Nat) : Group :=
  let g := writeScalar g d (BitVec.ofNat 32 v)
  if wide then writeScalar g (opPlus d 1) (BitVec.ofNat 32 (v / 2 ^ 32)) else g

/-- A result entering the ring of its quarter: l3 is lost (05 R100). -/
def pushRing (s : State) (g : Group) (p : Split) (v : LaneVec) : State :=
  setRing s g.core g.quarter
    ({ val := v, tag := some { gid := g.gid, sid := p.sid, epoch := p.epoch } } ::
      (ringOf s g.core g.quarter).take 3)

/-- Vector results of an instruction: the register or pair, then the ring when the instruction enters it; DST = ZERO with
WBS = 0 discards the result (14 R259, 05 R100, R101). -/
def writeVector (s : State) (g : Group) (p : Split) (d : Opnd) (wbs wide ring : Bool) (m : Lanes) (new : Nat → Nat) :
    State :=
  let lo := fun l => BitVec.ofNat 32 (new l)
  let hi := fun l => BitVec.ofNat 32 (new l / 2 ^ 32)
  let g1 := writeReg g d m lo
  let g2 := if wide then writeReg g1 (opPlus d 1) m hi else g1
  let s := setGroup s g2
  if !ring || (d == .zero && !wbs) then s
  else
    let s := pushRing s g2 p (regValue g2 d m lo)
    if wide then pushRing s g2 p (regValue g2 (opPlus d 1) m hi) else s

/-! ## Instructions that compute a value per lane (14 R266, R269) -/

/-- NAN_PRODUCED of the lanes that produced a NaN (06 R132): `smask` is its mask when the instruction acts once. -/
def nanTrap (u : Iss) (rs : List (Nat × Lane)) (smask : Option Lanes) : Option TrapReq :=
  let bad := rs.filter fun r => r.2.produced
  if bad.isEmpty || !fmtNANTRAP u.p.fmt then none
  else
    let slots := bad.filterMap fun r => r.2.slot
    let slot := match slots.map Prod.fst |>.min? with
      | none => 0
      | some o => ((slots.find? (·.1 == o)).map Prod.snd).getD 0
    some { cause := .nanProduced, mask := smask.getD (Lanes.ofPred fun l => bad.any (·.1 == l)), slot }

/-- The flags of a list of lanes. -/
def flagsOf (rs : List (Nat × Lane)) : Flags := rs.foldl (fun f r => f ||| r.2.flags) fNone

/-- SRCTR after the lanes' roundings. -/
def putCtrs (g : Group) (rs : List (Nat × Lane)) : Group :=
  { g with srctr := LaneVec.ofFn fun l => match rs.find? (·.1 == l) with
      | some r => r.2.ctr
      | none => g.srctr.get l }

/-- The lanes of a mapped operand for a split (07 R146). -/
def mapLanes (u : Iss) : List MapLane := mapLanesOf u.p.members u.g.narrow

/-- A lane's outcome: its number, its result, and what it gathered. -/
abbrev LaneOut := Nat × Nat × Lane

/-- MOV belongs to the system class: its result does not enter the ring (05 R100, 22 R370). -/
def entersRing : Instr → Bool
  | .movB32 _ | .movB64 _ | .movB64Imm64 _ => false
  | _ => true

/-- The end of an instruction whose lanes' results are `out`: the NaN trap, or counters, flags and the writes (14 R269).
In scalar form `out` holds one entry, the value written to the scalar destination; its flags and its NaN trap are those of the
lowest member, whether or not EM holds it (log 83). A lost latch read raises LATCHLOST though no lane be active (log 81). -/
def finishLanes (u : Iss) (h : Hdr) (d : Opnd) (wide : Bool) (os : List Opnd) (smask : Option Lanes) (act : Lanes)
    (out : List LaneOut) : Eff :=
  let tr := out.map fun r => (r.1, r.2.2)
  match nanTrap u tr smask with
  | some t => .trap u.s t
  | none =>
    let lost := if latchLost u os then fLatchLost else fNone
    let g := raiseFlags (putCtrs u.g tr) (flagsOf tr ||| lost)
    if isScalar d then .done (setGroup u.s (writeScalarNat g wide d ((out.head?.map (·.2.1)).getD 0)))
    else
      let vals := fun l => ((out.find? (·.1 == l)).map (·.2.1)).getD 0
      .done (writeVector u.s g u.p d h.wbs wide (entersRing u.i) act vals)

/-- Operand kinds of a lane instruction with destination `d` and sources `xs` (14 R253, R259): in scalar form, no
vector operand and no vector guard. -/
def lanesLegal (u : Iss) (h : Hdr) (d : Opnd) (wide : Bool) (xs : List Src) : Bool :=
  dstOk u.g wide d && xs.all (srcLegal u.g (isScalar d)) && !(isScalar d && guardIsVector h.guard)

/-- The common course of an instruction that computes values for a set of lanes: operand checks, slot checks, the lanes'
outcomes by `f`, and the writes. `legal`: the entry's own operand rules hold. In scalar form `f` is given the lowest
member alone. `smask`: the mask of a NaN trap in scalar form. -/
def runSet (u : Iss) (h : Hdr) (d : Opnd) (wide : Bool) (xs : List Src) (imm : Word) (legal : Bool) (smask : Lanes)
    (f : REnv → List RSrc → List Nat → List LaneOut) : Eff :=
  let scal := isScalar d
  if !(legal && lanesLegal u h d wide xs) then operandIllegal u
  else match mapTrap u xs with
  | some e => e
  | none =>
    if scal && !scalarGuard u.g h.guard then .done u.s
    else
      let lanes := if scal then [(u.p.members.lowest).getD 0] else (active u).toList
      finishLanes u h d wide (xs.map Src.o) (if scal then some smask else none) (active u)
        (f (rEnv h u.p.fmt u.g.srseed) (xs.map (resolveSrc u imm)) lanes)

/-- The common course of an instruction that computes one value per lane, or one in scalar form. -/
def runLanes (u : Iss) (h : Hdr) (d : Opnd) (wide : Bool) (xs : List Src) (imm : Word) (legal : Bool)
    (f : REnv → List RSrc → Nat → Lane → Nat × Lane) : Eff :=
  runSet u h d wide xs imm legal u.p.members fun E rs lanes =>
    lanes.map fun l => (l, f E rs l (Lane.start (u.g.srctr.get l)))

/-! ## Effective addresses (14 R255, 05 R110, R111) -/

/-- The space a SPACE code names. -/
def spaceOf (c : BitVec 4) : Space := if c = 0#4 then .global else if c = 1#4 then .scratch else .priv

/-- The displacement: zero when the C field reads IMM (20 R290). -/
def dispOf (f : MFmt) : Word := if f.c = .imm then 0#32 else f.disp

/-- Base and index of the right kinds for the space; `vec`: vector registers are allowed (14 R255). -/
def addrOk (g : Group) (vec : Bool) (f : MFmt) : Bool :=
  let base := match spaceOf f.space with
    | .global => if vec then vsOk g true f.a else sOk true f.a
    | _ => if vec then vsOk g false f.a else sOk false f.a
  let idx := f.b == .zero || (if vec then vsOk g false f.b else sOk false f.b)
  base && idx

/-- EffAddr(l): a global address, or an offset modulo 2^32. -/
def effAddr (u : Iss) (f : MFmt) (l : Nat) : DWord :=
  match spaceOf f.space with
  | .global =>
    readPair u f.a l + (readWord u 0#32 f.b l).signExtend 64 + (dispOf f).signExtend 64
  | _ => (readWord u 0#32 f.a l + readWord u 0#32 f.b l + dispOf f).zeroExtend 64

/-- Bytes of scratchpad a team's groups may address: SPAD and the region received (05 R110). Granules handed away stay below the
bound, and an access to them is HANDLE_INVALID (04 R83; log 82). -/
def spadLimit (t : Team) : Nat := t.spadSize + t.recvSize

/-- A team's allocation size: what it may address less what it has handed away (05 R110). -/
def allocSize (s : State) (t : Team) : Nat :=
  spadLimit t - ((s.handles.filter (·.parent == t.tid)).map fun h => h.count * Config.granule).sum

/-- Whether some of the `n` bytes at an offset of a team lie in granules handed away (04 R83). -/
def handedAway (s : State) (tid off n : Nat) : Bool :=
  s.handles.any fun h => h.parent == tid && decide (h.first * Config.granule < off + n) &&
    decide (off < (h.first + h.count) * Config.granule)

/-- The team of an issuing split. -/
def teamOfIss (u : Iss) : Team :=
  (teamOf u.s u.g.team).getD
    { tid := u.g.team, grid := u.g.grid, ctx := u.g.ctx, teamid := 0, core := u.g.core, spawned := false, spadSize := 0,
      recv := none, recvSize := 0, spad := [], objs := [], prio := 0, seq := 0, place := .resident, haltReq := false, ranOn := [],
      copyNo := 0, stream := [], overflow := none, traps := [] }

/-- The virtual address of a private offset: after the split area of the group's region, one of 2^24 of 8 GiB (03 R57, 05
R111; log 11). -/
def privAddr (c : Context) (k : Nat) (off : DWord) : DWord :=
  BitVec.ofNat 64 ((Config.privateBase c.num + k) % 2 ^ 24 * 2 ^ 33 + c.splitArea + off.toNat % 2 ^ 32)

/-- A trap of the lanes `ls`, AUX words by the lowest of them (11 R207, R210). -/
def laneTrap (s : State) (c : Cause) (ls : List Nat) (aux0 aux1 : Nat → DWord) (flt : Nat → Nat) : Eff :=
  let l0 := ls.headD 0
  .trap s { cause := c, mask := Lanes.ofPred ls.contains, aux0 := aux0 l0, aux1 := aux1 l0,
            faults := ls.map fun l => (l, aux0 l, flt l) }

/-- The alignment, range and handle checks of an access of `size` bytes in every lane of `ls`, in the order of R210: the
first trap, or none. `span` is how many bytes from the address must lie in range. -/
def addrTrap (u : Iss) (sp : Space) (ls : List Nat) (ea : Nat → DWord) (align span : Nat) : Option Eff :=
  let mis := ls.filter fun l => (ea l).toNat % align ≠ 0
  if mis ≠ [] then some (laneTrap u.s .misaligned mis ea (fun _ => 0#64) (fun _ => 0))
  else match sp with
  | .global => none
  | .scratch =>
    let t := teamOfIss u
    let lim := spadLimit t
    let out := ls.filter fun l => decide (lim < (ea l).toNat + span)
    if out ≠ [] then some (laneTrap u.s .scratchpadRange out ea (fun _ => BitVec.ofNat 64 (allocSize u.s t)) (fun _ => 0))
    else
      let gone := ls.filter fun l => handedAway u.s t.tid (ea l).toNat span
      if gone ≠ [] then some (laneTrap u.s .handleInvalid gone ea (fun _ => 0#64) (fun _ => 0)) else none
  | .priv =>
    let hw := u.ctx.highWater * 0x1_0000
    let out := ls.filter fun l => decide (hw ≤ (ea l).toNat)
    if out ≠ [] then some (laneTrap u.s .privateHighWater out ea (fun _ => BitVec.ofNat 64 hw) (fun _ => 0)) else none

/-- What one lookup of a page gave: the physical address of its first byte, or the fault. -/
abbrev PageLook := Nat × Except PageFault Nat

/-- A lane's translation by the lookup of its page. -/
def byLook (r : Except PageFault Nat) (va : DWord) : Except PageFault Nat :=
  match r with
  | .ok base => .ok (base + va.toNat % 0x1_0000)
  | .error f => .error { f with va }

/-- The translations of lanes in ascending order, each distinct page looked up once (10 R196), with the state the walks
leave: physical addresses and faults. -/
def translateLanes (s : State) (u : Iss) (a : Access) (ls : List Nat) (va : Nat → DWord) :
    State × List (Nat × Nat) × List (Nat × PageFault) :=
  let r := ls.foldl (fun acc l =>
    let page := (va l).toNat / 0x1_0000
    let (r, s', looks) : Except PageFault Nat × State × List PageLook :=
      match acc.2.2.2.find? (·.1 == page) with
      | some x => (byLook x.2 (va l), acc.1, acc.2.2.2)
      | none =>
        match translate acc.1 u.g.core u.ctx (va l) a u.g.inHandler with
        | (.ok pa, s') => (.ok pa, s', (page, .ok (pa - (va l).toNat % 0x1_0000)) :: acc.2.2.2)
        | (.error e, s') => (.error e, s', (page, .error e) :: acc.2.2.2)
    match r with
    | .ok pa => (s', acc.2.1 ++ [(l, pa)], acc.2.2.1, looks)
    | .error e => (s', acc.2.1, acc.2.2.1 ++ [(l, e)], looks)) ((s, [], [], []) : State × List (Nat × Nat) × List (Nat × PageFault) × List PageLook)
  (r.1, r.2.1, r.2.2.1)

/-- The page-fault trap of a list of faults (10 R200): PAGE_NOT_PRESENT if any lane's page was not present. -/
def pageTrap (s : State) (fs : List (Nat × PageFault)) : Eff :=
  let np := fs.filter fun f => f.2.notPresent
  let (c, ls) := if np.isEmpty then (Cause.pagePermission, fs) else (Cause.pageNotPresent, np)
  let look (l : Nat) : Option PageFault := (ls.find? (·.1 == l)).map Prod.snd
  laneTrap s c (ls.map Prod.fst) (fun l => ((look l).map PageFault.va).getD 0#64)
    (fun l => BitVec.ofNat 64 (((look l).map PageFault.word).getD 0)) (fun l => ((look l).map PageFault.word).getD 0)

/-- Some lane's global address lies in the fabric window (13 R241). -/
def fabricAddr (u : Iss) (sp : Space) (ls : List Nat) (ea : Nat → DWord) : Bool :=
  sp == .global && ls.any fun l => inFabric u.ctx (ea l)

/-- The virtual address an access of a space translates: none in scratchpad. -/
def accessVA (u : Iss) (sp : Space) (a : DWord) : DWord :=
  match sp with
  | .priv => privAddr u.ctx u.g.priv a
  | _ => a

/-- Every check of an access made at issue: alignment, range, then translation of each lane. Either a trap, or the state
and each lane's virtual and physical address. -/
def accessLanes (u : Iss) (sp : Space) (a : Access) (ls : List Nat) (ea : Nat → DWord) (align span : Nat) :
    Except Eff (State × List (Nat × DWord × Option Nat)) :=
  match addrTrap u sp ls ea align span with
  | some e => .error e
  | none =>
    match sp with
    | .scratch => .ok (u.s, ls.map fun l => (l, ea l, none))
    | _ =>
      let va := fun l => accessVA u sp (ea l)
      let (s, pas, fs) := translateLanes u.s u a ls va
      if fs.isEmpty then .ok (s, pas.map fun x => (x.1, va x.1, some x.2)) else .error (pageTrap s fs)

end Sys2Proof.Machine
end

