-- ==== Sys2Proof/Machine/Issue.lean ====
section
/-!
DEFINITION. Issue of an instruction: the registers it uses, waiting for loads in flight, deferred memory errors (10 R205),
the order of synchronising operations in a reproducible grid (12 R230, R231), and `runInstr`, through which every
instruction of a split runs.
-/
namespace Sys2Proof.Machine

/-- The registers of a run: a base operand and how many. -/
abbrev RegRun := Opnd × Nat

def regsOf (r : RegRun) : List Opnd := (List.range r.2).map (opPlus r.1)

/-- Registers of an operand of an integer type. -/
def iw (t : IntTy) : Nat := t.width / 32
def ew (u : EltTy) : Nat := u.width / 32
def ww (w : Width) : Nat := if w = .b64 then 2 else 1
def cw (c : CvtTy) : Nat := if c.width = 64 then 2 else 1

/-- Positions of a MACC source (07 R150). -/
def maccPos : MaccTy → Nat
  | .bf16x2 | .f16x2 => 2
  | .f32 => 1
  | .e4m3x4 | .e5m2x4 | .s8x4 => 4
  | .e2m1x8 => 8

/-- Base and index registers of an address. -/
def addrRegs (f : MFmt) : List RegRun := [(f.a, if f.space = 0#4 then 2 else 1), (f.b, 1)]

/-- A scalar operand by its code, or ZERO. -/
def opndOfCode (c : Nat) : Opnd := Opnd.ofCode (BitVec.ofNat 10 c)

/-- How wide a special register is, and whether each lane has its own (05 R105). -/
inductive SrKind where
  | u32 | u64 | v32
  deriving DecidableEq, Repr

/-- The kind of a listed register. -/
def srKind (n : Nat) : SrKind :=
  if n = 0x00 ∨ n = 0x12 then .v32
  else if n ≤ 0x06 ∨ (0x0C ≤ n ∧ n ≤ 0x0E) ∨ n = 0x20 then .u32
  else .u64

/-- Registers of an operand that a special register is read to or written from (22 R372, 23 R392). -/
def srWords (n : Nat) : Nat := if srKind n = .u64 then 2 else 1

/-- The registers an instruction reads or writes, its guard apart. -/
def instrRuns : Instr → List RegRun
  | .and t f | .andn t f | .iadd t f | .imax t f | .imin t f | .imul t f | .imulh t f | .isub t f | .or t f | .xor t f =>
      [(f.d, iw t), (f.a, iw t), (f.b, iw t)]
  | .bfe t f | .sar t f | .shl t f | .shr t f => [(f.d, iw t), (f.a, iw t), (f.b, 1)]
  | .bfi t f | .sel t f | .shf t f => [(f.d, iw t), (f.a, iw t), (f.b, iw t), (f.c, 1)]
  | .brev t f | .iabs t f => [(f.d, iw t), (f.a, iw t)]
  | .clz t f | .popc t f => [(f.d, 1), (f.a, iw t)]
  | .iaddImm64 _ f => [(f.d, 2), (f.a, 2)]
  | .icmp t f => [(f.d, 1), (f.a, iw t), (f.b, iw t)]
  | .imad t f => [(f.d, iw t), (f.a, iw t), (f.b, iw t), (f.c, iw t)]
  | .lea t f => [(f.d, iw t), (f.a, iw t), (f.b, 1), (f.c, 1)]
  | .prmt _ f | .fma _ f | .rng f => [(f.d, 1), (f.a, 1), (f.b, 1), (f.c, 1)]
  | .fadd _ f | .fcmp _ f | .fmax _ f | .fmin _ f | .fmul _ f | .fscale _ f | .fquant _ f =>
      [(f.d, 1), (f.a, 1), (f.b, 1)]
  | .fclass _ f | .fcospi _ f | .fexp2 _ f | .fgetexp _ f | .flog2 _ f | .frcp _ f | .frnd _ f | .frsq _ f
  | .fsinpi _ f | .fsqrt _ f | .famax _ f => [(f.d, 1), (f.a, 1)]
  | .faddSweep _ f | .fmaSweep _ f | .fmulSweep _ f | .fquantSweep _ f | .maccSweep _ f => [(f.d, 1), (f.a, 1), (f.b, 1)]
  | .cvt c f => [(f.d, if bits f.mod 0 4 = 10 ∨ bits f.mod 0 4 = 14 then 2 else 1), (f.a, cw c)]
  | .cvtSweep _ f => [(f.d, 1), (f.a, 1)]
  | .census _ f => [(f.a, 2), (f.b, 1), (f.c, 1)]
  | .mapres f => [(f.d, 1), (f.a, 1)]
  | .mapbind f => addrRegs f
  | .mapwr f => [(f.a, 1), (f.b, 1), (f.c, 1)]
  | .maprd f => [(f.d, 1), (f.c, 1)]
  | .maprel _ => []
  | .ldl f => (f.d, if f.mod.getLsbD 4 then bits f.mod 2 2 + 1 else 2) :: addrRegs f
  | .ldlSweep f => [(f.d, 1), (f.a, 2)]
  | .macc m f => [(f.d, maccPos m), (f.a, 1), (f.b, 1), (f.c, maccPos m)]
  | .sweepIteration .. => []
  | .lred u f | .lscan u f => [(f.d, ew u), (f.a, ew u)]
  | .matchLanes u f => [(f.d, 2), (f.a, ew u)]
  | .part u f => [(f.d, 1), (f.a, ew u)]
  | .shfl u f => [(f.d, ew u), (f.a, ew u), (f.b, 1)]
  | .vote _ f => [(f.d, if bits f.mod 2 3 = 3 then 2 else 1), (f.a, 1), (f.b, 1)]
  | .ld w f | .lds w f => (f.d, ww w) :: addrRegs f
  | .st w f | .sts w f => (f.c, ww w) :: addrRegs f
  | .atom u f => (f.d, ew u) :: (f.c, if bits f.mod 0 4 = 7 then 2 * ew u else ew u) :: addrRegs f
  | .red u f => (f.c, ew u) :: addrRegs f
  | .pref f | .jdec f | .jwait f | .fres f | .exitJ f => addrRegs f
  | .cctl f => (f.c, 1) :: addrRegs f
  | .fence _ | .bkpt _ | .dflush _ | .trapEsc _ => []
  | .iret _ => [(.s 56, 8)]
  | .copy f => [(f.a, 8), (f.b, 1), (f.c, 2)]
  | .binit f | .barr f | .bexp f | .bwait f => [(f.a, 1), (f.b, 1), (f.c, 1)]
  | .btest f => [(f.d, 1), (f.a, 1), (f.b, 1)]
  | .waitc f => [(f.a, 1)]
  | .spawn f => [(f.d, 1), (f.a, 2), (f.b, bits f.mod 0 3), (f.c, 2), (opndOfCode (bits f.imm 0 10), if f.mod.getLsbD 4 then 1 else 0)]
  | .freg f => [(f.d, 1), (f.a, 2), (f.b, 2), (f.c, 2), (opndOfCode (bits f.imm 0 10), bits f.mod 0 3)]
  | .bra _ | .braD _ | .brk _ | .exit _ | .gsync _ | .join _ | .nop _ | .yield _ => []
  | .brx f | .ret f => [(f.a, 2)]
  | .call f => [(f.d, 2), (f.a, 2)]
  | .fltrd f => [(f.d, if f.mod.getLsbD 0 then 1 else 2)]
  | .fmtset f | .trap f => [(f.a, 1)]
  | .movB32 f => [(f.d, 1), (f.a, 1)]
  | .movB64 f => [(f.d, 2), (f.a, 2)]
  | .movB64Imm64 f => [(f.d, 2)]
  | .movsr f => [(f.d, srWords (bits f.kimm 0 8))]
  | .setsr f => [(f.b, srWords (bits f.kimm 0 8))]
  | .pgmap f => (f.d, 1) :: addrRegs f
  | _ => []

/-- The guard's register. -/
def guardReg : Guard → List Opnd
  | .always => []
  | .vector _ _ r => [opndOfCode r.toNat]
  | .scalar _ _ r => [opndOfCode (0x100 + r.toNat)]

/-- Every register an instruction reads or writes. -/
def instrRegs (i : Instr) : List Opnd :=
  ((instrRuns i).flatMap regsOf ++ guardReg (instrGuard i)).filter fun o => match o with
    | .v _ | .s _ | .o _ => true
    | _ => false

/-- The registers an operation in flight will write. -/
def opDsts (o : Op) : List Opnd :=
  match o.kind with
  | .load w d => regsOf (d, ww w)
  | .rmw u (some d) => regsOf (d, ew u)
  | .ldl f .. => regsOf (f.d, if f.mod.getLsbD 4 then bits f.mod 2 2 + 1 else 2)
  | .futReg _ d => [d]
  | _ => []

/-- It reads or writes STATUS: MOVSR and SETSR of it, and IRET (11 R212). -/
def usesStatus : Instr → Bool
  | .movsr f | .setsr f => bits f.kimm 0 8 == 0x0D
  | .iret _ => true
  | _ => false

/-- An LDL.X in flight, which raises its flags when it returns. -/
def raisesLater (o : Op) : Bool :=
  match o.kind with
  | .ldl f .. => f.mod.getLsbD 4
  | _ => false

/-- Whether a register of the instruction is still to be written by an access in flight, or STATUS by the flags of one, which
act in issue order (05 R109): it waits. -/
def waitsForLoad (u : Iss) : Bool :=
  let mine := u.s.ops.filter fun o => o.gid == u.g.gid && u.p.awaiting != some o.id
  let pend := mine.flatMap opDsts
  (!pend.isEmpty && (isExit u.i || (instrRegs u.i).any pend.contains)) || (usesStatus u.i && mine.any raisesLater)

/-- WAITC on C0, and EXIT, meet every deferred memory error of their group (10 R205). -/
def meetsErrors : Instr → Bool
  | .waitc f => bits f.mod 0 2 == 0
  | .exit _ | .exitJ _ => true
  | _ => false

/-- The deferred error an instruction meets: MEMORY_UNCORRECTABLE with the load's PC and the physical address. -/
def badLoadTrap (u : Iss) : Option Eff :=
  let regs := instrRegs u.i
  match u.g.badLoads.find? fun b => meetsErrors u.i || b.dst.any regs.contains with
  | none => none
  | some b =>
    some (.trap (setGroup u.s { u.g with badLoads := u.g.badLoads.filter (· != b) })
      { cause := .memoryUncorrectable, mask := u.p.members, aux0 := b.pc, aux1 := BitVec.ofNat 64 b.pa })

def Elem.isDone (e : Elem) : Bool := e.st == .done

/-- Every element is performed. -/
def Op.performed (o : Op) : Bool := o.elems.all Elem.isDone

/-! ## Reproducible order (12 R230, R231) -/

/-- The scope a code of the RM field names (08 R171). -/
def scopeOf (c : BitVec 3) : Scope :=
  match c.toNat with
  | 0 => .grp | 1 => .team | 2 => .core | 3 => .dev | _ => .sys

/-- The scope of an access to a space: a private one acts at GRP, one in scratchpad at TEAM at most (05 R111, 08 R172, 22
R355). -/
def spaceScope (space : BitVec 4) (rm : BitVec 3) : Scope :=
  if space = 2#4 then .grp else if space = 1#4 then (if scopeOf rm = .grp then .grp else .team) else scopeOf rm

/-- A DEV or SYS scope. -/
def scopeWide : Scope → Bool
  | .dev | .sys => true
  | _ => false

/-- The scope of a synchronising operation of R231; none for another instruction. -/
def syncScope : Instr → Option Scope
  | .atom _ f => some (spaceScope f.space f.h.rm)
  | .barr f => some (if f.mod.getLsbD 2 then .dev else .team)
  | .spawn _ | .freg _ | .fres _ | .jdec _ | .exitJ _ | .dflush _ => some .dev
  | .ld _ f | .st _ f => if bits f.mod 4 2 = 2 then some (spaceScope f.space f.h.rm) else none
  | _ => none

/-- Whether every live split of a group is JOINED, SYNCED or WAITING. -/
def Group.parked (g : Group) : Bool :=
  g.splits.all fun p => match p.state with
    | .ready => false
    | _ => true

/-- Key order: logical time, then global group index. -/
def keyLt (a b : Group) : Bool := decide (a.lt < b.lt) || (a.lt == b.lt && decide (a.gindex < b.gindex))

/-- Two groups are one group of the two copies of a checked team (R235). -/
def twins (a b : Group) : Bool := a.checked && b.checked && a.grid == b.grid && a.gindex == b.gindex

/-- Whether a group's key is less than that of every other live group of its reach that is not parked (R231). -/
def keyLeast (s : State) (g : Group) (sc : Scope) : Bool :=
  s.groups.all fun x =>
    x.gid == g.gid || twins x g || x.parked || x.grid != g.grid ||
    ((sc == .grp || sc == .team) && x.team != g.team) || keyLt g x

/-- A synchronising operation in flight (R231). -/
def isSyncOp (o : Op) : Bool :=
  match o.kind with
  | .load .. | .store => o.acq || o.rel
  | .rmw _ (some _) | .futReg .. | .futRes | .dec _ | .gate .. => true
  | _ => false

/-- Another group's synchronising operation within reach has issued and is not yet performed. -/
def syncBusy (s : State) (g : Group) (sc : Scope) : Bool :=
  s.ops.any fun o =>
    isSyncOp o && o.gid != g.gid && o.grid == g.grid && !((sc == .grp || sc == .team) && o.team != g.team) &&
    o.elems.any fun e => match e.st with
      | .pending | .seen _ => true
      | _ => false

/-- A synchronising operation of a reproducible group waits until its key is the least of its reach and those that took
effect before it are performed. -/
def syncWaits (u : Iss) : Bool :=
  u.g.repro && u.p.awaiting.isNone &&
  match syncScope u.i with
  | none => false
  | some sc => syncBusy u.s u.g sc || (!u.p.syncOk && !keyLeast u.s u.g sc)

/-! ## Eligibility -/

/-- The other splits of a group whose split is in its handler do not issue (11 R211). -/
def shadowBlocks (g : Group) (sid : Nat) : Bool :=
  match g.shadow with
  | some sh => sh.sid != sid
  | none => false

/-- A split is mid-chain: the chain's last instruction has not issued (05 R104). One that a pre-emption has halted at that
instruction is to issue it afresh. -/
def midChain (g : Group) (p : Split) : Bool :=
  decide (0 < p.chainLen) && p.sweep.isNone && p.syncWait.isNone && p.awaiting.isNone && g.mapresWait.isNone && !p.halted

/-- A restored group issues once it is resumed; while a re-bind is at fault only its handler does (07 R155, 11 R217). -/
def resumed (g : Group) : Bool :=
  match g.resume with
  | .done => true
  | .due => false
  | .faulted => g.inHandler

/-- A chain of another split holds the quarter (05 R103); a chain whose last instruction has issued and still waits holds
back its own group alone (03 R72, 12 R231). -/
def chainBlocks (s : State) (g : Group) (p : Split) : Bool :=
  (g.splits.any fun q => decide (0 < q.chainLen) && q.sid != p.sid) ||
  s.groups.any fun x => x.gid != g.gid && x.core == g.core && x.quarter == g.quarter && x.running && resumed x &&
    x.splits.any (midChain x)

/-- READY splits in ascending order of least member (12 R232). -/
def readyOrder (g : Group) : List Nat :=
  (sortLe (fun a b : Split => decide ((a.members.lowest).getD 64 ≤ (b.members.lowest).getD 64))
    (g.splits.filter fun p => p.state == .ready)).map Split.sid

/-- What is left of a reproducible group's round, or the next round (R232). -/
def roundOf (g : Group) : List Nat :=
  let left := g.round.filter fun i => g.splits.any fun p => p.sid == i && p.state == .ready
  if left.isEmpty then readyOrder g else left

/-- A reproducible group's split comes next in its round, or goes on with its chain or its handler. -/
def roundAllows (g : Group) (p : Split) : Bool :=
  !g.repro || decide (0 < p.chainLen) || g.inHandler || (roundOf g).head? == some p.sid

/-- The group belongs to a checked copy that overflowed the check area (12 R236). -/
def copyEnded (s : State) (g : Group) : Bool := ((teamOf s g.team).bind Team.overflow).isSome

/-- A halt point: an instruction or iteration boundary that is not inside a hold chain (11 R214). -/
def atBoundary (g : Group) (p : Split) : Bool := !midChain g p && p.awaiting.isNone

/-- The reply that a split waits for has come. -/
def replyIn (s : State) (p : Split) : Bool :=
  match p.awaiting.bind (opOf s) with
  | some o => o.performed
  | none => true

/-- The split is READY, nothing holds it, no pre-emption stops it here, and no breakpoint's halt is due. -/
def mayIssue (s : State) (g : Group) (p : Split) : Bool :=
  g.running && resumed g && g.bpDue.isNone && p.state == .ready && !p.halted && p.sweep.isNone && p.syncWait.isNone && g.mapresWait.isNone &&
  replyIn s p && !shadowBlocks g p.sid && !chainBlocks s g p && roundAllows g p && !copyEnded s g &&
  !(g.haltReq && atBoundary g p)

/-- The other splits of a quarter that may issue. -/
def rivals (s : State) (g : Group) (p : Split) : List (Group × Split) :=
  (s.groups.filter fun x => x.core == g.core && x.quarter == g.quarter).flatMap fun x =>
    (x.splits.filter fun q => !(x.gid == g.gid && q.sid == p.sid) && mayIssue s x q).map fun q => (x, q)

/-- The order of choice of 12 R229: by stamp, then global group index, then least member lane. -/
def choiceKey (x : Group × Split) : Nat × Nat × Nat := (x.2.stamp, x.1.gindex, (x.2.members.lowest).getD 64)

def keyBefore (a b : Nat × Nat × Nat) : Bool :=
  decide (a.1 < b.1) || (a.1 == b.1 && (decide (a.2.1 < b.2.1) || (a.2.1 == b.2.1 && decide (a.2.2 < b.2.2))))

/-- YIELD still makes the split ineligible under rule 2: for 64 clk, unless every split marked at the YIELD has issued
since (23 R375). -/
def yieldHolds (s : State) (p : Split) : Bool :=
  match p.yield with
  | none => false
  | some (t, ms) => decide (s.clock.toNat < t + 64) && ms.any fun m =>
      ((groupOf s m.1).bind fun g => splitOf g m.2.1).any fun q => decide (q.issues ≤ m.2.2)

/-- A split that may be the second of a pair: one other of its group has issued in this clk, and neither is in a hold chain
(03 R71). -/
def coIssues (s : State) (g : Group) (p : Split) : Bool :=
  p.chainLen == 0 && p.stamp != s.clock.toNat &&
  (match g.splits.filter fun q => q.stamp == s.clock.toNat with
    | [q] => q.chainLen == 0
    | _ => false)

/-- A split that is passed over, its operands or counters not being ready. -/
def unreadyIn (l : List (Nat × Nat)) (x : Group × Split) : Bool := l.contains (x.1.gid, x.2.sid)

/-- The choice among a quarter's splits (12 R229): a hold chain goes on; else the oldest eligible split of the quarter, those
that YIELD holds apart; as the second of a pair, the oldest eligible one of the group. The splits of `unready` are not
eligible: which have their operands and counters ready is timing, and free (log 3). -/
def chosen (s : State) (g : Group) (p : Split) (rule : IssueRule) : Bool :=
  g.repro || decide (0 < p.chainLen) ||
  match rule with
  | .first unready => !yieldHolds s p && (rivals s g p).all fun x =>
      x.1.repro || unreadyIn unready x || yieldHolds s x.2 || !keyBefore (choiceKey x) (choiceKey (g, p))
  | .second unready => coIssues s g p && (rivals s g p).all fun x =>
      x.1.gid != g.gid || unreadyIn unready x || !keyBefore (choiceKey x) (choiceKey (g, p))

/-- The splits that are eligible beside one that yields, each with the instructions it has issued; a hold chain ends with its
YIELD. Whether the operands of each are ready is timing, and free (log 3). -/
def yieldMarks (s : State) (g : Group) (p : Split) : List (Nat × Nat × Nat) × State :=
  (rivals (setGroup s (setSplit g { p with chainLen := 0 })) g p).foldl (fun acc x =>
    let r := choose acc.2 2
    (if r.1 = 1 then acc.1 ++ [(x.1.gid, x.2.sid, x.2.issues)] else acc.1, r.2)) ([], s)

/-! ## Running an instruction -/

/-- The traps that come before an instruction's own: of an EXIT the deferred memory errors first, as its entry orders them (21
R319, 11 R210). -/
def earlyTrap (u : Iss) : Option Eff := if isExit u.i then (badLoadTrap u).or (firstTrap u) else firstTrap u

/-- One instruction of the issuing split: a fault of the model when none issues, else the next state. -/
def runInstr (i : Instr) (body : Iss → Eff) (s : State) : Host.Outcome State Fault Refusal :=
  match issuer s i with
  | none => .fault .noIssuer
  | some u =>
    .next (commit u
      (match earlyTrap u with
       | some e => e
       | none =>
         if u.idle then idleEff u
         else match badLoadTrap u with
         | some e => e
         | none =>
           if waitsForLoad u then .wait u.s
           else if syncWaits u then .wait (updSplit u.s u.g.gid u.p.sid fun p => { p with syncWait := syncScope u.i })
           else body u))

end Sys2Proof.Machine
end

