-- ==== Sys2Proof/Machine/IntClass.lean ====
section
/-!
DEFINITION. The integer class: bitwise and field operations (20 R291, R292), integer arithmetic (22 R346 to R349), and
OR, POPC, PRMT, shifts, SEL and XOR (23 R376 to R378). None rounds or raises a flag; S32 sources may carry mh or ms.
-/
namespace Sys2Proof.Machine

/-- The conversion type that an integer type's elements have. -/
def intCvt : IntTy → CvtTy
  | .s32 => .s32 | .b32 => .b32 | .s64 => .s64 | .b64 => .b64

/-- Source A, B or C of a format-R instruction, with its map and sign bits (14 R260). -/
def srcA (f : RFmt) (t : CvtTy) (n : Nat) : Src :=
  { o := f.a, sel := f.ma.toNat, tb := f.ta, neg := f.mod.getLsbD 0, abs := f.mod.getLsbD 1, t, n }
def srcB (f : RFmt) (t : CvtTy) (n : Nat) : Src :=
  { o := f.b, sel := f.mb.toNat, tb := f.tb, neg := f.mod.getLsbD 2, abs := f.mod.getLsbD 3, t, n }
def srcC (f : RFmt) (t : CvtTy) (n : Nat) : Src :=
  { o := f.c, sel := f.mc.toNat, tb := f.tc, neg := f.mod.getLsbD 4, abs := f.mod.getLsbD 5, t, n }

/-- A source without sign bits: a shift count, a selector, a control word. -/
def Src.plain (x : Src) : Src := { x with neg := false, abs := false }

/-- The integer a code of a type stands for: signed for S types (22 R347). -/
def intVal (t : IntTy) (x : Nat) : Int :=
  if t.signed && decide (2 ^ (t.width - 1) ≤ x) then (x : Int) - (2 ^ t.width : Nat) else x

/-- The last step of 22 R347: clamped to the type when saturating, else modulo 2^w. -/
def intFinish (t : IntTy) (sat : Bool) (v : Int) : Nat :=
  wrapInt t.width (if sat then clampInt (intRange t.signed t.width) v else v)

/-- The environment of the integer class: RM has no effect, so that no mapped source is rounded under SR (R346, 06 R128). -/
def intEnv (E : REnv) : REnv := { E with rm := .rne }

/-- The common course of an integer instruction: one value per lane, no rounding. -/
def intLanes (u : Iss) (f : RFmt) (wideD : Bool) (xs : List Src)
    (op : REnv → List RSrc → Nat → Lane → Nat × Lane) : Eff :=
  runLanes u f.h f.d wideD xs f.imm true fun E => op (intEnv E)

/-- One source per lane: the result is `op` of A's code. -/
def int1 (u : Iss) (f : RFmt) (t : IntTy) (wideD : Bool) (op : Nat → Nat) : Eff :=
  intLanes u f wideD [srcA f (intCvt t) 1] fun E rs l L =>
    match rs with
    | [a] => let (x, L) := fetchElem E (mapLanes u) 0 a l 0 L; (op x, L)
    | _ => (0, L)

/-- Two sources per lane; `tb` is the type of B. -/
def int2 (u : Iss) (f : RFmt) (t : IntTy) (wideD : Bool) (b : Src) (op : REnv → Nat → Nat → Nat) : Eff :=
  intLanes u f wideD [srcA f (intCvt t) 1, b] fun E rs l L =>
    match rs with
    | [a, b] =>
      let (x, L) := fetchElem E (mapLanes u) 0 a l 0 L
      let (y, L) := fetchElem E (mapLanes u) 1 b l 0 L
      (op E x y, L)
    | _ => (0, L)

/-- Three sources per lane. -/
def int3 (u : Iss) (f : RFmt) (t : IntTy) (wideD : Bool) (b c : Src) (op : REnv → Nat → Nat → Nat → Nat) : Eff :=
  intLanes u f wideD [srcA f (intCvt t) 1, b, c] fun E rs l L =>
    match rs with
    | [a, b, c] =>
      let (x, L) := fetchElem E (mapLanes u) 0 a l 0 L
      let (y, L) := fetchElem E (mapLanes u) 1 b l 0 L
      let (z, L) := fetchElem E (mapLanes u) 2 c l 0 L
      (op E x y z, L)
    | _ => (0, L)

/-- Two sources of the type itself. -/
def intBin (u : Iss) (f : RFmt) (t : IntTy) (op : REnv → Nat → Nat → Nat) : Eff :=
  int2 u f t (t.width == 64) (srcB f (intCvt t) 1) op

/-- A control or count operand: always one 32-bit value (20 R292, 23 R376). -/
def countB (f : RFmt) : Src := { o := f.b, sel := f.mb.toNat, tb := f.tb, t := .b32 }
def countC (f : RFmt) : Src := { o := f.c, sel := f.mc.toNat, tb := f.tc, t := .b32 }
/-- BFE's control: it keeps its sign bits, which only an S type may set (14 R260), and takes no map (20 R291). -/
def ctrlB (f : RFmt) : Src := { countB f with neg := f.mod.getLsbD 2, abs := f.mod.getLsbD 3 }

/-- pos', len' of a control word (20 R292). -/
def fieldCtl (w ctl : Nat) : Nat × Nat :=
  let pos := min (ctl % 256) w
  (pos, min (ctl / 256 % 256) (w - pos))

/-- BFE (20 R292). -/
def bfeOp (t : IntTy) (a ctl : Nat) : Nat :=
  let (pos, len) := fieldCtl t.width ctl
  let f := a / 2 ^ pos % 2 ^ len
  if t.signed && decide (0 < len) && f.testBit (len - 1) then f + 2 ^ t.width - 2 ^ len else f

/-- BFI (20 R292). -/
def bfiOp (w a b ctl : Nat) : Nat :=
  let (pos, len) := fieldCtl w ctl
  let keep := b % 2 ^ pos + b / 2 ^ (pos + len) * 2 ^ (pos + len)
  keep + a % 2 ^ len * 2 ^ pos

/-- BREV (20 R291). -/
def brevOp (w a : Nat) : Nat := (List.range w).foldl (fun r k => 2 * r + (if a.testBit k then 1 else 0)) 0

/-- POPC (23 R376). -/
def popcOp (w a : Nat) : Nat := ((List.range w).filter a.testBit).length

/-- CLZ (20 R291). -/
def clzOp (w a : Nat) : Nat := w - bitLen a

/-- A condition code of ICMP (22 R348). -/
def icmpOp (cc : Nat) (a b : Int) : Bool :=
  match cc with
  | 0 => a == b | 1 => a != b | 2 => decide (a < b) | 3 => decide (a ≤ b) | 4 => decide (b < a) | _ => decide (b ≤ a)

/-- One byte of PRMT (23 R377). -/
def prmtByte (pool : Nat → Nat) (sel : Nat) : Nat :=
  let b := pool (sel % 8)
  let f := match sel / 8 % 4 with
    | 0 => b
    | 1 => 0
    | 2 => if b.testBit 7 then 255 else 0
    | _ => 255
  if sel.testBit 5 then brevOp 8 f else f

/-- PRMT (23 R377). -/
def prmtOp (a b c : Nat) : Nat :=
  let pool := fun k => (if k < 4 then a / 2 ^ (8 * k) else b / 2 ^ (8 * (k - 4))) % 256
  (List.range 4).foldl (fun r k => r + prmtByte pool (c / 2 ^ (8 * k) % 256) * 2 ^ (8 * k)) 0

/-- SHF (23 R378). -/
def shfOp (right : Bool) (w a b c : Nat) : Nat :=
  let n := min c w
  let x := a + b * 2 ^ w
  if right then x / 2 ^ n % 2 ^ w else x * 2 ^ n / 2 ^ w % 2 ^ w

/-- SHL, SHR, SAR (23 R376). -/
def shlOp (w a n : Nat) : Nat := if w ≤ n then 0 else a * 2 ^ n % 2 ^ w
def shrOp (w a n : Nat) : Nat := if w ≤ n then 0 else a / 2 ^ n
def sarOp (t : IntTy) (a n : Nat) : Nat := wrapInt t.width (intVal t a / (2 ^ min n (t.width - 1) : Nat))

/-- LEA (22 R349): a + b 2^sh modulo 2^w. -/
def leaOp (t : IntTy) (a b c : Nat) : Nat :=
  let sh := c % (if t.width = 64 then 64 else 32)
  let b' : Int := if t = .s64 && decide (2 ^ 31 ≤ b) then (b : Int) - 2 ^ 32 else b
  wrapInt t.width (a + b' * (2 ^ sh : Nat))

def execAnd (t : IntTy) (f : RFmt) (s : State) : Host.Outcome State Fault Refusal :=
  runInstr (.and t f) (fun u => intBin u f t fun _ a b => a &&& b) s

def execAndn (t : IntTy) (f : RFmt) (s : State) : Host.Outcome State Fault Refusal :=
  runInstr (.andn t f) (fun u => intBin u f t fun _ a b => a &&& (2 ^ t.width - 1 - b)) s

def execOr (t : IntTy) (f : RFmt) (s : State) : Host.Outcome State Fault Refusal :=
  runInstr (.or t f) (fun u => intBin u f t fun _ a b => a ||| b) s

def execXor (t : IntTy) (f : RFmt) (s : State) : Host.Outcome State Fault Refusal :=
  runInstr (.xor t f) (fun u => intBin u f t fun _ a b => a ^^^ b) s

def execBfe (t : IntTy) (f : RFmt) (s : State) : Host.Outcome State Fault Refusal :=
  runInstr (.bfe t f) (fun u => int2 u f t (t.width == 64) (ctrlB f) fun _ a b => bfeOp t a b) s

def execBfi (t : IntTy) (f : RFmt) (s : State) : Host.Outcome State Fault Refusal :=
  runInstr (.bfi t f) (fun u => int3 u f t (t.width == 64) (srcB f (intCvt t) 1) (countC f)
    fun _ a b c => bfiOp t.width a b c) s

def execBrev (t : IntTy) (f : RFmt) (s : State) : Host.Outcome State Fault Refusal :=
  runInstr (.brev t f) (fun u => int1 u f t (t.width == 64) (brevOp t.width)) s

def execClz (t : IntTy) (f : RFmt) (s : State) : Host.Outcome State Fault Refusal :=
  runInstr (.clz t f) (fun u => int1 u f t false (clzOp t.width)) s

def execPopc (t : IntTy) (f : RFmt) (s : State) : Host.Outcome State Fault Refusal :=
  runInstr (.popc t f) (fun u => int1 u f t false (popcOp t.width)) s

def execIabs (t : IntTy) (f : RFmt) (s : State) : Host.Outcome State Fault Refusal :=
  runInstr (.iabs t f) (fun u => int1 u f t (t.width == 64) fun a =>
    intFinish t (satEff f.h u.p.fmt) ((intVal t a).natAbs : Int)) s

def execIadd (t : IntTy) (f : RFmt) (s : State) : Host.Outcome State Fault Refusal :=
  runInstr (.iadd t f) (fun u => intBin u f t fun E a b => intFinish t E.sat (intVal t a + intVal t b)) s

def execIsub (t : IntTy) (f : RFmt) (s : State) : Host.Outcome State Fault Refusal :=
  runInstr (.isub t f) (fun u => intBin u f t fun E a b => intFinish t E.sat (intVal t a - intVal t b)) s

def execImul (t : IntTy) (f : RFmt) (s : State) : Host.Outcome State Fault Refusal :=
  runInstr (.imul t f) (fun u => intBin u f t fun E a b => intFinish t E.sat (intVal t a * intVal t b)) s

def execImulh (t : IntTy) (f : RFmt) (s : State) : Host.Outcome State Fault Refusal :=
  runInstr (.imulh t f) (fun u => intBin u f t fun _ a b =>
    wrapInt t.width (intVal t a * intVal t b / (2 ^ t.width : Nat))) s

def execImax (t : IntTy) (f : RFmt) (s : State) : Host.Outcome State Fault Refusal :=
  runInstr (.imax t f) (fun u => intBin u f t fun _ a b => if intVal t a < intVal t b then b else a) s

def execImin (t : IntTy) (f : RFmt) (s : State) : Host.Outcome State Fault Refusal :=
  runInstr (.imin t f) (fun u => intBin u f t fun _ a b => if intVal t b < intVal t a then b else a) s

def execIcmp (t : IntTy) (f : RFmt) (s : State) : Host.Outcome State Fault Refusal :=
  runInstr (.icmp t f) (fun u => int2 u f t false (srcB f (intCvt t) 1) fun _ a b =>
    bitOf (icmpOp (bits f.mod 4 3) (intVal t a) (intVal t b))) s

def execImad (t : IntTy) (f : RFmt) (s : State) : Host.Outcome State Fault Refusal :=
  runInstr (.imad t f) (fun u => int3 u f t (t.width == 64) (srcB f (intCvt t) 1) (srcC f (intCvt t) 1)
    fun E a b c => intFinish t E.sat (intVal t a * intVal t b + intVal t c)) s

def execLea (t : IntTy) (f : RFmt) (s : State) : Host.Outcome State Fault Refusal :=
  runInstr (.lea t f) (fun u => int3 u f t (t.width == 64) (countB f) (countC f) fun _ a b c => leaOp t a b c) s

def execPrmt (t : IntTy) (f : RFmt) (s : State) : Host.Outcome State Fault Refusal :=
  runInstr (.prmt t f) (fun u => int3 u f t false (countB f) (countC f) fun _ a b c => prmtOp a b c) s

def execSar (t : IntTy) (f : RFmt) (s : State) : Host.Outcome State Fault Refusal :=
  runInstr (.sar t f) (fun u => int2 u f t (t.width == 64) (countB f) fun _ a b => sarOp t a b) s

def execShl (t : IntTy) (f : RFmt) (s : State) : Host.Outcome State Fault Refusal :=
  runInstr (.shl t f) (fun u => int2 u f t (t.width == 64) (countB f) fun _ a b => shlOp t.width a b) s

def execShr (t : IntTy) (f : RFmt) (s : State) : Host.Outcome State Fault Refusal :=
  runInstr (.shr t f) (fun u => int2 u f t (t.width == 64) (countB f) fun _ a b => shrOp t.width a b) s

def execSel (t : IntTy) (f : RFmt) (s : State) : Host.Outcome State Fault Refusal :=
  runInstr (.sel t f) (fun u => int3 u f t (t.width == 64) (srcB f (intCvt t) 1) (countC f)
    fun _ a b c => if c % 2 = 1 then a else b) s

def execShf (t : IntTy) (f : RFmt) (s : State) : Host.Outcome State Fault Refusal :=
  runInstr (.shf t f) (fun u => int3 u f t (t.width == 64) (srcB f (intCvt t) 1) (countC f)
    fun _ a b c => shfOp (f.mod.getLsbD 6) t.width a b c) s

/-- IADD with a 64-bit immediate, format I (14 R254, 22 R347): its sources carry no modifier and no map; every IMM
source reads the 64-bit value. -/
def execIaddImm64 (signed : Bool) (f : IFmt) (s : State) : Host.Outcome State Fault Refusal :=
  runInstr (.iaddImm64 signed f) (fun u =>
    let t : IntTy := if signed then .s64 else .b64
    runLanes u f.h f.d true [{ o := f.a, t := intCvt t }] 0#32 (f.b == .imm)
      fun E rs l L => match rs with
        | [a] =>
          let (x, L) := fetchElem E (mapLanes u) 0 a l 0 L
          let x := if f.a = .imm then f.imm64.toNat else x
          (intFinish t E.sat (intVal t x + intVal t f.imm64.toNat), L)
        | _ => (0, L)) s

end Sys2Proof.Machine
end

