-- ==== Sys2Proof/Machine/FloatClass.lean ====
section
/-!
DEFINITION. The float class (21 R320 to R330): each mnemonic's exact result, rounded once per position. The operation of
each is a function of the elements' codes, which the sweeps of R323 share.
-/
namespace Sys2Proof.Machine

/-- The conversion type of a float type's elements. -/
def floCvt : FloTy → CvtTy
  | .f32 => .f32 | .f16x2 => .f16 | .bf16x2 => .bf16

/-- The result of one position from the codes of its sources (21 R321). -/
abbrev PosOp := REnv → List Nat → Lane → Nat × Lane

/-- All positions of a source, in ascending order (06 R128). -/
def fetchAll (E : REnv) (js : List MapLane) (ord : Nat) (x : RSrc) (l : Nat) (L : Lane) : List Nat × Lane :=
  (List.range x.src.n).foldl (fun acc p => let r := fetchElem E js ord x l p acc.2; (acc.1 ++ [r.1], r.2)) ([], L)

/-- Every source of a lane in order A, B, C. -/
def fetchSources (E : REnv) (js : List MapLane) (xs : List RSrc) (l : Nat) (L : Lane) : List (List Nat) × Lane :=
  (xs.zipIdx).foldl (fun acc x => let r := fetchAll E js x.2 x.1 l acc.2; (acc.1 ++ [r.1], r.2)) ([], L)

/-- One lane of a float instruction: its sources, then each position's result (21 R321). -/
def floLane (t : FloTy) (op : PosOp) (E : REnv) (js : List MapLane) (xs : List RSrc) (l : Nat) (L : Lane) : Nat × Lane :=
  let (cs, L) := fetchSources E js xs l L
  packLanes (fmtOf t).w t.positions (fun p L => op E (cs.map fun c => c.getD p 0) L) L

/-- A float instruction in format R with `n` sources. -/
def runFloat (u : Iss) (t : FloTy) (f : RFmt) (n : Nat) (op : PosOp) : Eff :=
  let T := floCvt t
  let xs := [srcA f T t.positions, srcB f T t.positions, srcC f T t.positions].take n
  runLanes u f.h f.d false xs f.imm true fun E rs l L => floLane t op E (mapLanes u) rs l L

/-- The value of a source element, flushed by R121. -/
def floVal (t : FloTy) (E : REnv) (c : Nat) : FVal := FVal.ofBits (fmtOf t) E.ftz c

/-- A result rounded once, with flags of its own. -/
def roundFlo (t : FloTy) (E : REnv) (v : FVal) (fl : Flags) (L : Lane) : Nat × Lane :=
  roundLane E (fun c => let r := roundTo (fmtOf t) c v; { r with flags := r.flags ||| fl }) L

/-- A value exact in the format, written without rounding; a NaN becomes canonical with its sign (06 R122). -/
def exactFlo (t : FloTy) (v : FVal) (fl : Flags) (L : Lane) : Nat × Lane :=
  let r := roundTo (fmtOf t) { rm := .rz, sat := false, ftz := false, x := 0#32 } v
  plainLane { r with flags := r.flags ||| fl } L

def opAdd (t : FloTy) : PosOp := fun E cs L =>
  roundFlo t E (fAdd (E.rm == .rd) (floVal t E (cs.getD 0 0)) (floVal t E (cs.getD 1 0))) fNone L

def opMul (t : FloTy) : PosOp := fun E cs L =>
  roundFlo t E (fMul (floVal t E (cs.getD 0 0)) (floVal t E (cs.getD 1 0))) fNone L

def opFma (t : FloTy) : PosOp := fun E cs L =>
  roundFlo t E (fFma (E.rm == .rd) (floVal t E (cs.getD 0 0)) (floVal t E (cs.getD 1 0)) (floVal t E (cs.getD 2 0)))
    fNone L

/-- FMAX, FMIN (21 R324). -/
def opMinMax (t : FloTy) (max : Bool) : PosOp := fun E cs L =>
  exactFlo t (fMinMax max (floVal t E (cs.getD 0 0)) (floVal t E (cs.getD 1 0))) fNone L

/-- FCMP's conditions (21 R325). -/
def fcmpCond (cc : Nat) (a b : FVal) : Bool :=
  let un := a.isNaN || b.isNaN
  match cc with
  | 0 => !un && fEq a b
  | 1 => un || !fEq a b
  | 2 => !un && fLt a b
  | 3 => !un && !fLt b a
  | 4 => !un && fLt b a
  | 5 => !un && !fLt a b
  | 6 => !un
  | _ => un

def opCmp (t : FloTy) (cc : Nat) : PosOp := fun E cs L =>
  (bitOf (fcmpCond cc (floVal t E (cs.getD 0 0)) (floVal t E (cs.getD 1 0))), L)

/-- The class bit of a code (21 R326). -/
def fclassBit (F : Fmt) (c : Nat) : Nat :=
  let neg := c.testBit (F.w - 1)
  let mag := c % 2 ^ (F.w - 1)
  if mag > F.maxFin then
    if F.inf = some mag then (if neg then 0 else 7) else (if neg then 9 else 8)
  else if mag = 0 then (if neg then 3 else 4)
  else if mag < 2 ^ F.m then (if neg then 2 else 5)
  else if neg then 1 else 6

def opClass (t : FloTy) : PosOp := fun _ cs L => (2 ^ fclassBit (fmtOf t) (cs.getD 0 0), L)

/-- FGETEXP (21 R327). -/
def opGetExp (t : FloTy) : PosOp := fun E cs L =>
  match floVal t E (cs.getD 0 0) with
  | .nan n k => exactFlo t (.nan n k) fNone L
  | .inf _ => exactFlo t (.inf false) fNone L
  | .fin _ m e _ =>
    if m = 0 then exactFlo t (.inf true) fDivZero L
    else
      let k := FVal.exponent m e
      exactFlo t (if k = 0 then .zero false else FVal.ofInt k) fNone L

/-- b truncated toward zero, cut to 100,000 in magnitude, beyond which every format's result is the same. -/
def truncExp (neg : Bool) (m : Nat) (e : Int) : Int :=
  let n : Nat := if 17 < e then 100000 else (onGrid m e 0).1
  let n := min n 100000
  if neg then -(n : Int) else n

/-- a 2^trunc(b) (21 R328). -/
def valScale (a b : FVal) : FVal :=
  match firstNaN [a, b] with
  | some n => n
  | none =>
    match a, b with
    | .inf n, .inf k => if k then .nan false true else .inf n
    | .fin n m _ _, .inf k => if k then .zero n else if m = 0 then .nan false true else .inf n
    | .inf n, _ => .inf n
    | .fin n m e st, .fin k m' e' _ => if m = 0 then .zero n else .fin n m (e + truncExp k m' (if m' = 0 then 0 else e')) st
    | x, _ => x

/-- FSCALE (21 R328). -/
def opScale (t : FloTy) : PosOp := fun E cs L =>
  roundFlo t E (valScale (floVal t E (cs.getD 0 0)) (floVal t E (cs.getD 1 0))) fNone L

/-- FRND (21 R329): the integral value the mode selects; a zero takes a's sign; no flag of its own. -/
def opRnd (t : FloTy) : PosOp := fun E cs L =>
  let c := cs.getD 0 0
  roundLane E (fun rc =>
    let v := match floVal t E c with
      | .fin n m e _ =>
        let (i, _) := roundToInt rc.rm rc.x n m e false
        .fin n i.natAbs 0 false
      | v => v
    let r := roundTo (fmtOf t) { rm := .rz, sat := false, ftz := false, x := 0#32 } v
    { r with flags := fNone }) L

/-- FRCP (06 R131). -/
def valRcp : FVal → FVal × Flags
  | .fin n m e _ => if m = 0 then (.inf n, fDivZero) else (fRecip n m e, fNone)
  | .inf n => (.zero n, fNone)
  | v => (v, fNone)

/-- FRSQ (06 R131). -/
def valRsq : FVal → FVal × Flags
  | .fin n m e _ =>
    if m = 0 then (.inf n, fDivZero) else if n then (.nan false true, fNone) else (fRecipRoot m e, fNone)
  | .inf n => (if n then .nan false true else .zero false, fNone)
  | v => (v, fNone)

/-- FSQRT (06 R131). -/
def valSqrt : FVal → FVal × Flags
  | .fin n m e _ => if m = 0 then (.zero n, fNone) else if n then (.nan false true, fNone) else (fRoot m e, fNone)
  | .inf n => (if n then .nan false true else .inf false, fNone)
  | v => (v, fNone)

/-- FEXP2 (06 R131). -/
def valExp2 : FVal → FVal × Flags
  | .fin n m e _ => (if m = 0 then FVal.ofInt 1 else fExp2 n m e, fNone)
  | .inf n => (if n then .zero false else .inf false, fNone)
  | v => (v, fNone)

/-- FLOG2 (06 R131). -/
def valLog2 : FVal → FVal × Flags
  | .fin n m e _ => if m = 0 then (.inf true, fDivZero) else if n then (.nan false true, fNone) else (fLog2 m e, fNone)
  | .inf n => (if n then .nan false true else .inf false, fNone)
  | v => (v, fNone)

/-- FSINPI (06 R131). -/
def valSinPi : FVal → FVal × Flags
  | .fin n m e _ => (if m = 0 then .zero n else fSinPi n m e, fNone)
  | .inf _ => (.nan false true, fNone)
  | v => (v, fNone)

/-- FCOSPI (06 R131). -/
def valCosPi : FVal → FVal × Flags
  | .fin _ m e _ => (if m = 0 then FVal.ofInt 1 else fCosPi m e, fNone)
  | .inf _ => (.nan false true, fNone)
  | v => (v, fNone)

/-- A function of one operand, rounded once (21 R330). -/
def opFun (t : FloTy) (f : FVal → FVal × Flags) : PosOp := fun E cs L =>
  let (v, fl) := f (floVal t E (cs.getD 0 0))
  roundFlo t E v fl L

def execFadd (t : FloTy) (f : RFmt) (s : State) : Host.Outcome State Fault Refusal :=
  runInstr (.fadd t f) (fun u => runFloat u t f 2 (opAdd t)) s

def execFmul (t : FloTy) (f : RFmt) (s : State) : Host.Outcome State Fault Refusal :=
  runInstr (.fmul t f) (fun u => runFloat u t f 2 (opMul t)) s

def execFma (t : FloTy) (f : RFmt) (s : State) : Host.Outcome State Fault Refusal :=
  runInstr (.fma t f) (fun u => runFloat u t f 3 (opFma t)) s

def execFmax (t : FloTy) (f : RFmt) (s : State) : Host.Outcome State Fault Refusal :=
  runInstr (.fmax t f) (fun u => runFloat u t f 2 (opMinMax t true)) s

def execFmin (t : FloTy) (f : RFmt) (s : State) : Host.Outcome State Fault Refusal :=
  runInstr (.fmin t f) (fun u => runFloat u t f 2 (opMinMax t false)) s

def execFcmp (t : FloTy) (f : RFmt) (s : State) : Host.Outcome State Fault Refusal :=
  runInstr (.fcmp t f) (fun u => runFloat u t f 2 (opCmp t (bits f.mod 4 3))) s

def execFclass (t : FloTy) (f : RFmt) (s : State) : Host.Outcome State Fault Refusal :=
  runInstr (.fclass t f) (fun u => runFloat u t f 1 (opClass t)) s

def execFgetexp (t : FloTy) (f : RFmt) (s : State) : Host.Outcome State Fault Refusal :=
  runInstr (.fgetexp t f) (fun u => runFloat u t f 1 (opGetExp t)) s

def execFscale (t : FloTy) (f : RFmt) (s : State) : Host.Outcome State Fault Refusal :=
  runInstr (.fscale t f) (fun u => runFloat u t f 2 (opScale t)) s

def execFrnd (t : FloTy) (f : RFmt) (s : State) : Host.Outcome State Fault Refusal :=
  runInstr (.frnd t f) (fun u => runFloat u t f 1 (opRnd t)) s

def execFrcp (t : FloTy) (f : RFmt) (s : State) : Host.Outcome State Fault Refusal :=
  runInstr (.frcp t f) (fun u => runFloat u t f 1 (opFun t valRcp)) s

def execFrsq (t : FloTy) (f : RFmt) (s : State) : Host.Outcome State Fault Refusal :=
  runInstr (.frsq t f) (fun u => runFloat u t f 1 (opFun t valRsq)) s

def execFsqrt (t : FloTy) (f : RFmt) (s : State) : Host.Outcome State Fault Refusal :=
  runInstr (.fsqrt t f) (fun u => runFloat u t f 1 (opFun t valSqrt)) s

def execFexp2 (t : FloTy) (f : RFmt) (s : State) : Host.Outcome State Fault Refusal :=
  runInstr (.fexp2 t f) (fun u => runFloat u t f 1 (opFun t valExp2)) s

def execFlog2 (t : FloTy) (f : RFmt) (s : State) : Host.Outcome State Fault Refusal :=
  runInstr (.flog2 t f) (fun u => runFloat u t f 1 (opFun t valLog2)) s

def execFsinpi (t : FloTy) (f : RFmt) (s : State) : Host.Outcome State Fault Refusal :=
  runInstr (.fsinpi t f) (fun u => runFloat u t f 1 (opFun t valSinPi)) s

def execFcospi (t : FloTy) (f : RFmt) (s : State) : Host.Outcome State Fault Refusal :=
  runInstr (.fcospi t f) (fun u => runFloat u t f 1 (opFun t valCosPi)) s

end Sys2Proof.Machine
end

