-- ==== Sys2Proof/Machine/Convert.lean ====
section
/-!
DEFINITION. Conversion, block scales, quantisation and random numbers: CVT (20 R311 to R314), FAMAX (21 R331), FQUANT
(21 R332), RNG (23 R383). The conversion and the quantisation of one lane are shared with their sweeps.
-/
namespace Sys2Proof.Machine

/-- Whether a conversion type is one of integers, and whether it is signed. -/
def cvtIsInt : CvtTy → Bool
  | .s8 | .s16 | .s32 | .s64 | .b8 | .b16 | .b32 | .b64 => true
  | _ => false

def cvtSigned : CvtTy → Bool
  | .s8 | .s16 | .s32 | .s64 => true
  | _ => false

/-- A conversion between integer types (20 R313). -/
def intToInt (st dt : CvtTy) (sat : Bool) (x : Nat) : Nat :=
  let v : Int := if cvtSigned st && decide (2 ^ (st.width - 1) ≤ x) then (x : Int) - (2 ^ st.width : Nat) else x
  wrapInt dt.width (if sat then clampInt (intRange (cvtSigned dt) dt.width) v else v)

/-- One code converted (20 R312, 06 R124, R125). -/
def convertCode (st dt : CvtTy) (ftz : Bool) (c : RCtx) (x : Nat) : Rounded :=
  let v := cvtVal st ftz x
  match cvtFmt dt with
  | some F => toFloat F c v
  | none =>
    if dt = .e8m0 then toE8M0 v
    else if cvtIsInt st then { val := intToInt st dt c.sat x, flags := fNone, produced := false }
    else toInteger (cvtSigned dt) dt.width c v

/-- A word or pair with the field of `n` bits at bit `lo` replaced. -/
def insertField (old lo n v : Nat) : Nat :=
  old % 2 ^ lo + v % 2 ^ n * 2 ^ lo + old / 2 ^ (lo + n) * 2 ^ (lo + n)

/-- One lane of CVT: the source code `x`, the destination word `old`, the position. -/
def cvtLane (st dt : CvtTy) (E : REnv) (x old pos : Nat) (L : Lane) : Nat × Lane :=
  let (r, L) := roundLane E (fun c => convertCode st dt E.ftz c x) L
  (insertField old (dt.width * pos) dt.width r, L)

/-- The destination type and position in MOD (20 R311). -/
def cvtDest (m : BitVec 7) : CvtTy := (CvtTy.ofCode (bits m 0 4)).getD .f32
def cvtPos (m : BitVec 7) : Nat := bits m 4 3

def execCvt (c : CvtTy) (f : RFmt) (s : State) : Host.Outcome State Fault Refusal :=
  runInstr (.cvt c f) (fun u =>
    let dt := cvtDest f.mod
    let src : Src := { o := f.a, sel := f.ma.toNat, tb := f.ta, t := c }
    runLanes u f.h f.d (dt.width == 64) [src] f.imm true fun E rs l L =>
      match rs with
      | [a] =>
        let (x, L) := fetchElem E (mapLanes u) 0 a l 0 L
        let old := if f.h.wbs then 0 else readNat u 0#64 (dt.width == 64) f.d l
        cvtLane c dt E x old (cvtPos f.mod) L
      | _ => (0, L)) s

/-- The target format of FAMAX and FQUANT. -/
def quantFmt (m : BitVec 7) : Fmt := ((CvtTy.ofCode (bits m 0 4)).bind cvtFmt).getD fmtE4M3

/-- The largest magnitude of a list of codes (21 R331): NaN if any is, with no flushing. -/
def amaxOf (F : Fmt) (xs : List Nat) : FVal :=
  (xs.map fun x => (FVal.ofBits F false x).abs).foldl (fMinMax true) (.zero false)

/-- FAMAX over the lanes of one block: each position's scale from every lane of the block (21 R331). -/
def famaxBlock (t : FloTy) (T : Fmt) (fetched : List (Nat × List Nat × Lane)) : List LaneOut :=
  let ss := (List.range t.positions).map fun p => blockScale T (amaxOf (fmtOf t) (fetched.map fun x => x.2.1.getD p 0))
  let word := ss.zipIdx.foldl (fun w r => w + r.1.val * 256 ^ r.2) 0
  let made := ss.any fun r => r.produced
  let fl := ss.foldl (fun f r => f ||| r.flags) fNone
  fetched.map fun x => (x.1, word, { x.2.2 with flags := x.2.2.flags ||| fl, produced := x.2.2.produced || made })

def execFamax (t : FloTy) (f : RFmt) (s : State) : Host.Outcome State Fault Refusal :=
  runInstr (.famax t f) (fun u =>
    let T := quantFmt f.mod
    let src : Src := { o := f.a, sel := f.ma.toNat, tb := f.ta, t := floCvt t, n := t.positions }
    runSet u f.h f.d false [src] f.imm true (active u) fun E rs lanes =>
      match rs with
      | [a] =>
        let fetched := lanes.map fun l => (l, fetchAll E (mapLanes u) 0 a l (Lane.start (u.g.srctr.get l)))
        famaxBlock t T (fetched.filter fun x => x.1 < 32) ++ famaxBlock t T (fetched.filter fun x => 32 ≤ x.1)
      | _ => []) s

/-- One lane of FQUANT: the element codes, the scale word, the destination word and position (21 R332). -/
def quantLane (t : FloTy) (T : Fmt) (E : REnv) (xs : List Nat) (scales old pos : Nat) (L : Lane) : Nat × Lane :=
  (xs.zipIdx).foldl (fun acc x =>
    let s := scales / 256 ^ x.2 % 256
    let r := roundLane E (fun c => toFloat T c (divScale s (FVal.ofBits (fmtOf t) E.ftz x.1))) acc.2
    (insertField acc.1 (T.w * (pos + x.2)) T.w r.1, r.2)) (old, L)

/-- B of FQUANT: the scales, never mapped and never a latch (21 R332). -/
def quantScaleOk (f : RFmt) : Bool :=
  f.mb == 0 && (match f.b with
    | .l _ => false
    | _ => true)

def execFquant (t : FloTy) (f : RFmt) (s : State) : Host.Outcome State Fault Refusal :=
  runInstr (.fquant t f) (fun u =>
    let T := quantFmt f.mod
    let src : Src := { o := f.a, sel := f.ma.toNat, tb := f.ta, t := floCvt t, n := t.positions }
    runLanes u f.h f.d false [src, { o := f.b, t := .b32 }] f.imm (quantScaleOk f) fun E rs l L =>
      match rs with
      | [a, b] =>
        let (xs, L) := fetchAll E (mapLanes u) 0 a l L
        let old := if f.h.wbs then 0 else readNat u 0#64 false f.d l
        quantLane t T E xs (b.raw l) old (cvtPos f.mod) L
      | _ => (0, L)) s

def execRng (f : RFmt) (s : State) : Host.Outcome State Fault Refusal :=
  runInstr (.rng f) (fun u =>
    runLanes u f.h f.d false [{ o := f.a, t := .b32 }, { o := f.b, t := .b32 }, { o := f.c, t := .b32 }] f.imm true
      fun _ rs l L => match rs with
        | [a, b, c] =>
          ((ccg (BitVec.ofNat 32 (a.raw l)) (BitVec.ofNat 32 (b.raw l)) (BitVec.ofNat 32 (c.raw l))).toNat, L)
        | _ => (0, L)) s

end Sys2Proof.Machine
end

