-- ==== Sys2Proof/Machine/LaneClass.lean ====
section
/-!
DEFINITION. The lane class: LRED, LSCAN, MATCH (22 R358 to R361), PART, SHFL, VOTE (23 R379 to R382).
-/
namespace Sys2Proof.Machine

/-- The element type of a lane instruction: the integer type, or the float type. -/
def eltInt : EltTy → Option IntTy
  | .s32 => some .s32 | .b32 => some .b32 | .s64 => some .s64 | .b64 => some .b64
  | _ => none

def eltFlo : EltTy → FloTy
  | .f16x2 => .f16x2 | .bf16x2 => .bf16x2 | _ => .f32

/-- The conversion type of an element type's positions. -/
def eltCvt (u : EltTy) : CvtTy :=
  match eltInt u with
  | some t => intCvt t
  | none => floCvt (eltFlo u)

def eltPositions (u : EltTy) : Nat :=
  match eltInt u with
  | some _ => 1
  | none => (eltFlo u).positions

/-- ReduceOp of an integer type over codes (R359): 0 ADD, 1 MIN, 2 MAX, 3 AND, 4 OR, 5 XOR. -/
def reduceInt (t : IntTy) (op : Nat) (sat : Bool) (xs : List Nat) : Nat :=
  match xs with
  | [] => 0
  | x :: rest =>
    match op with
    | 0 => intFinish t sat ((xs.map (intVal t)).sum)
    | 1 => rest.foldl (fun a b => if intVal t b < intVal t a then b else a) x
    | 2 => rest.foldl (fun a b => if intVal t a < intVal t b then b else a) x
    | 3 => rest.foldl (fun a b => a &&& b) x
    | 4 => rest.foldl (fun a b => a ||| b) x
    | _ => rest.foldl (fun a b => a ^^^ b) x

/-- ReduceOp of a float type over codes, in ascending lane order (R359): the sum is exact and rounded once. -/
def reduceFlo (t : FloTy) (op : Nat) (E : REnv) (xs : List Nat) (L : Lane) : Nat × Lane :=
  let vs := xs.map (floVal t E)
  match vs with
  | [] => (0, L)
  | v :: rest =>
    if op = 0 then
      roundFlo t E (match firstNaN vs with
        | some n => n
        | none => rest.foldl (fAdd (E.rm == .rd)) v) fNone L
    else exactFlo t (rest.foldl (fMinMax (op == 2)) v) fNone L

/-- ReduceOp of one position. -/
def reducePos (u : EltTy) (op : Nat) (E : REnv) (xs : List Nat) (L : Lane) : Nat × Lane :=
  match eltInt u with
  | some t => (reduceInt t op E.sat xs, L)
  | none => reduceFlo (eltFlo u) op E xs L

/-- The identity an exclusive scan gives its first lane (R360). -/
def scanIdentity (u : EltTy) (op : Nat) : Nat :=
  match eltInt u with
  | some t =>
    let r := intRange t.signed t.width
    match op with
    | 1 => wrapInt t.width r.2
    | 2 => wrapInt t.width r.1
    | 3 => 2 ^ t.width - 1
    | _ => 0
  | none =>
    let inf := ((fmtOf (eltFlo u)).inf).getD 0
    match op with
    | 1 => inf
    | 2 => inf + 2 ^ ((fmtOf (eltFlo u)).w - 1)
    | _ => 0

/-- ReduceOp of every position over the fetched lanes. -/
def reduceAll (u : EltTy) (op : Nat) (E : REnv) (cols : List (List Nat)) (L : Lane) : Nat × Lane :=
  packLanes (eltCvt u).width (eltPositions u) (fun p L => reducePos u op E (cols.map fun c => c.getD p 0) L) L

/-- OP of LRED and LSCAN. -/
def laneOp (m : BitVec 7) : Nat := bits m 2 4

/-- A lane's source elements with what the lane gathered. -/
abbrev LaneSource := Nat × List Nat × Lane

/-- Source A of every lane of a set, mapped roundings made in each (R359). -/
def fetchLanes (u : Iss) (E : REnv) (x : RSrc) (lanes : List Nat) : List LaneSource :=
  lanes.map fun l => (l, fetchAll E (mapLanes u) 0 x l (Lane.start (u.g.srctr.get l)))

/-- LRED (R359). The lowest lane's counter makes the roundings of the result; a NaN produced there is one in every lane.
Each lane's outcome holds the result. -/
def lredOut (u : EltTy) (op : Nat) (E : REnv) (fs : List LaneSource) : List LaneOut :=
  match fs with
  | [] => []
  | f0 :: rest =>
    let (r, L0) := reduceAll u op E (fs.map fun f => f.2.1) { f0.2.2 with produced := false }
    (f0.1, r, { L0 with produced := f0.2.2.produced || L0.produced }) ::
      rest.map fun f => (f.1, r, { f.2.2 with produced := f.2.2.produced || L0.produced })

/-- LSCAN (R360). `before`: the lanes already met, in order. -/
def lscanOut (u : EltTy) (op : Nat) (excl : Bool) (E : REnv) (before : List (List Nat)) (fs : List LaneSource) :
    List LaneOut :=
  match fs with
  | [] => []
  | f :: rest =>
    let upto := before ++ [f.2.1]
    let cols := if excl then before else upto
    let r :=
      if cols.isEmpty then packLanes (eltCvt u).width (eltPositions u) (fun _ L => (scanIdentity u op, L)) f.2.2
      else reduceAll u op E cols f.2.2
    (f.1, r) :: lscanOut u op excl E upto rest

/-- The common course of a lane instruction that reads A as a vector over L, whatever its destination (R359, R379):
operand checks, slot checks, and the writes. -/
def runCross (u : Iss) (h : Hdr) (d : Opnd) (wide : Bool) (xs : List Src) (imm : Word) (legal : Bool)
    (f : REnv → List RSrc → List Nat → List LaneOut) : Eff :=
  if !(legal && dstOk u.g wide d && xs.all (srcLegal u.g false)) then operandIllegal u
  else match mapTrap u xs with
  | some e => e
  | none =>
    finishLanes u h d wide (xs.map Src.o) none (active u)
      (f (rEnv h u.p.fmt u.g.srseed) (xs.map (resolveSrc u imm)) (active u).toList)

/-- A lane instruction that has no effect and no fault when Active() is empty: LRED, PART, VOTE (R359, R380, R382). -/
def unlessEmpty (u : Iss) (e : Eff) : Eff := if active u == 0#64 then .done u.s else e

/-- A as LRED and LSCAN read it. -/
def laneSrc (u : EltTy) (f : RFmt) : Src := srcA f (eltCvt u) (eltPositions u)

def execLred (u : EltTy) (f : RFmt) (s : State) : Host.Outcome State Fault Refusal :=
  runInstr (.lred u f) (fun x =>
    unlessEmpty x <| runCross x f.h f.d (u.width == 64) [laneSrc u f] f.imm true fun E rs lanes =>
      match rs with
      | [a] => lredOut u (laneOp f.mod) E (fetchLanes x E a lanes)
      | _ => []) s

def execLscan (u : EltTy) (f : RFmt) (s : State) : Host.Outcome State Fault Refusal :=
  runInstr (.lscan u f) (fun x =>
    runCross x f.h f.d (u.width == 64) [laneSrc u f] f.imm (!isScalar f.d) fun E rs lanes =>
      match rs with
      | [a] => lscanOut u (laneOp f.mod) (f.mod.getLsbD 6) E [] (fetchLanes x E a lanes)
      | _ => []) s

/-- A register operand: what MATCH compares and PART reads as its key. -/
def isRegister : Opnd → Bool
  | .v _ | .s _ | .o _ | .l _ => true
  | _ => false

/-- A source read as bits: the word, or the pair of a 64-bit type. -/
def bitSrc (u : EltTy) (o : Opnd) : Src := { o, t := if u.width = 64 then .b64 else .b32 }

def execMatchLanes (u : EltTy) (f : RFmt) (s : State) : Host.Outcome State Fault Refusal :=
  runInstr (.matchLanes u f) (fun x =>
    runCross x f.h f.d true [bitSrc u f.a] f.imm (!isScalar f.d && isRegister f.a) fun _ rs lanes =>
      match rs with
      | [a] => lanes.map fun l =>
          (l, (Lanes.ofPred fun m => lanes.contains m && a.raw m == a.raw l).toNat, Lane.start (x.g.srctr.get l))
      | _ => []) s

/-- The classes of PART: distinct keys in order of their lowest lane (R380). -/
def partClasses (key : Nat → Nat) (lanes : List Nat) : List Nat :=
  lanes.foldl (fun ks l => if ks.contains (key l) then ks else ks ++ [key l]) []

/-- The lanes of a class. -/
def classLanes (key : Nat → Nat) (lanes : List Nat) (k : Nat) : List Nat := lanes.filter fun l => key l == k

/-- PART's result in lane `l` (R380). -/
def partWord (key : Nat → Nat) (lanes ks : List Nat) (l : Nat) : Nat :=
  (ks.idxOf (key l)) + 2 ^ 8 * ((classLanes key lanes (key l)).filter (· < l)).length + 2 ^ 16 * ks.length

def execPart (u : EltTy) (f : RFmt) (s : State) : Host.Outcome State Fault Refusal :=
  runInstr (.part u f) (fun x =>
    let a := resolveSrc x f.imm (bitSrc u f.a)
    let lanes := (active x).toList
    let ks := partClasses a.raw lanes
    let parts := (List.range 4).map fun k => match ks[k]? with
      | some key => Lanes.ofPred (classLanes a.raw lanes key).contains
      | none => 0#64
    unlessEmpty x <| runCross { x with g := { x.g with parts } } f.h f.d false [bitSrc u f.a] f.imm (!isScalar f.d && isRegister f.a) fun _ _ lanes =>
      lanes.map fun l => (l, partWord a.raw lanes ks l, Lane.start (x.g.srctr.get l))) s

/-- The source lane of SHFL and whether it lies in its segment (R381). -/
def shflLane (mode : Nat) (narrow : Bool) (l ctl : Nat) : Int × Bool :=
  let W := 2 ^ (6 - min (ctl / 256 % 8) 6)
  let W := if narrow then min W 32 else W
  let base := l / W * W
  let u := ctl % 128
  let x : Int := if u < 64 then u else (u : Int) - 128
  let s : Int := match mode with
    | 0 => ((base + u % W : Nat) : Int)
    | 1 => l + x
    | 2 => base + ((l : Int) - base + x) % (W : Int)
    | _ => ((base + (l ^^^ u) % W : Nat) : Int)
  (s, decide ((base : Int) ≤ s) && decide (s < (base : Int) + W))

def execShfl (u : EltTy) (f : RFmt) (s : State) : Host.Outcome State Fault Refusal :=
  runInstr (.shfl u f) (fun x =>
    let t := eltCvt u
    let a : Src := { o := f.a, t, n := eltPositions u }
    runCross x f.h f.d (u.width == 64) [a, { o := f.b, t := .b32 }] f.imm (!isScalar f.d && f.b != .zero) fun _ rs lanes =>
      match rs with
      | [a, b] => lanes.map fun l =>
          let (sl, ok) := shflLane (bits f.mod 4 2) x.g.narrow l (b.raw l)
          let v := a.raw (if ok && x.p.members.has sl.toNat then sl.toNat else l)
          let n := eltPositions u
          let w := t.width
          let r := (List.range n).foldl (fun r p =>
            r + applySign t (f.mod.getLsbD 0) (f.mod.getLsbD 1) (elemAt t v p) * 2 ^ (w * p)) 0
          (l, r, Lane.start (x.g.srctr.get l))
      | _ => []) s

/-- VOTE's result over the predicates of L in ascending lane order (R382). -/
def voteResult (mode : Nat) (lanes : List Nat) (pred : Nat → Bool) : Nat :=
  let ones := lanes.filter pred
  match mode with
  | 0 => bitOf (ones.length == lanes.length)
  | 1 => bitOf (!ones.isEmpty)
  | 2 => bitOf (ones.isEmpty || ones.length == lanes.length)
  | 3 => (Lanes.ofPred ones.contains).toNat
  | 4 => ones.length
  | _ => ones.headD 64

/-- B of VOTE: a scalar register, IMM or ZERO (R379). -/
def voteBitOk : Opnd → Bool
  | .s _ | .imm | .zero => true
  | _ => false

def execVote (u : EltTy) (f : RFmt) (s : State) : Host.Outcome State Fault Refusal :=
  runInstr (.vote u f) (fun x =>
    let mode := bits f.mod 2 3
    unlessEmpty x <| runCross x f.h f.d (mode == 3) [{ o := f.a, t := .b32 }, { o := f.b, t := .b32 }] f.imm (voteBitOk f.b)
      fun _ rs lanes => match rs with
        | [a, b] =>
          let r := voteResult mode lanes fun l => (a.raw l).testBit (b.raw l % 32)
          lanes.map fun l => (l, r, Lane.start (x.g.srctr.get l))
        | _ => []) s

end Sys2Proof.Machine
end

