-- ==== Sys2Proof/Machine/BarrierObj.lean ====
section
/-!
DEFINITION. Scratchpad storage and the barrier objects in it (08 R165 to R170): layout, the completion check and what it
wakes, and writes to scratchpad words, which the check follows.
-/
namespace Sys2Proof.Machine

/-- A barrier object (R165). -/
structure Bar where
  phase : Nat
  exp : Nat
  arr : Nat
  ahead : Nat
  ovr : Bool
  trapovr : Bool
  carry : Bool
  expbytes : Nat
  landed : Nat
  deriving DecidableEq, Repr

/-- The object in 16 bytes (R165). -/
def Bar.ofNat (x : Nat) : Bar :=
  { phase := x % 2 ^ 16, exp := x / 2 ^ 16 % 2 ^ 16, arr := x / 2 ^ 32 % 2 ^ 16, ahead := x / 2 ^ 48 % 2 ^ 13,
    ovr := x.testBit 61, trapovr := x.testBit 62, carry := x.testBit 63, expbytes := x / 2 ^ 64 % 2 ^ 32,
    landed := x / 2 ^ 96 % 2 ^ 32 }

/-- The 128 bits of an object. -/
def Bar.toNat (b : Bar) : Nat :=
  b.phase % 2 ^ 16 + 2 ^ 16 * (b.exp % 2 ^ 16) + 2 ^ 32 * (b.arr % 2 ^ 16) + 2 ^ 48 * (b.ahead % 2 ^ 13) +
  2 ^ 61 * bitOf b.ovr + 2 ^ 62 * bitOf b.trapovr + 2 ^ 63 * bitOf b.carry + 2 ^ 64 * (b.expbytes % 2 ^ 32) +
  2 ^ 96 * (b.landed % 2 ^ 32)

/-- No phase of it completes (R165). -/
def Bar.uninit (b : Bar) : Bool := b.exp == 0 && b.expbytes == 0

/-- Phase `p` is completed (R166). -/
def Bar.completed (b : Bar) (p : Nat) : Bool :=
  let k := (b.phase + 2 ^ 16 - p % 2 ^ 16) % 2 ^ 16
  decide (1 ≤ k) && decide (k ≤ 0x7FFF)

/-- One turn of the loop of R166. -/
def Bar.advance (b : Bar) : Bar :=
  { b with phase := (b.phase + 1) % 2 ^ 16, landed := if b.carry then b.landed - b.expbytes else 0, arr := b.ahead,
           ahead := 0 }

/-- The loop's condition. -/
def Bar.ripe (b : Bar) : Bool := !b.uninit && decide (b.exp ≤ b.arr) && decide (b.expbytes ≤ b.landed)

/-- Bytes of the oldest lots used up. -/
def useLots (n : Nat) (lots : List (Nat × Nat)) : List (Nat × Nat) :=
  match lots with
  | [] => []
  | (k, lt) :: rest => if k ≤ n then useLots (n - k) rest else (k - n, lt) :: rest

/-- Who holds the byte at an offset of a team's scratchpad: the team, or for granules handed away (04 R83) the handle
before a child holds it and the child after (20 R310). The result is a team with its offset, or a handle with its offset.
Regions handed on are followed `fuel` deep. -/
def spadOwner (s : State) (fuel tid off : Nat) : (Nat ⊕ Nat) × Nat :=
  match fuel with
  | 0 => (.inl tid, off)
  | n + 1 =>
    match s.handles.find? fun h => h.parent == tid && decide (h.first * Config.granule ≤ off) &&
        decide (off < (h.first + h.count) * Config.granule) with
    | none => (.inl tid, off)
    | some h =>
      let o := off - h.first * Config.granule
      match h.child with
      | none => (.inr h.hid, o)
      | some c => spadOwner s n c (((teamOf s c).map Team.spadSize).getD 0 + o)

/-- Where the bytes at an offset of a team's scratchpad are. -/
def spadPlace (s : State) (tid off : Nat) : (Nat ⊕ Nat) × Nat := spadOwner s (s.handles.length + 1) tid off

/-- Bytes of one granule. -/
def spadReadIn (s : State) (tid off n : Nat) : Nat :=
  match spadPlace s tid off with
  | (.inl t, o) => ((teamOf s t).map fun t => memReadN t.spad o n).getD 0
  | (.inr h, o) => ((handleOf s h).map fun h => memReadN h.bytes o n).getD 0

/-- Bytes of one granule written. -/
def spadPutIn (s : State) (tid off n v : Nat) : State :=
  match spadPlace s tid off with
  | (.inl t, o) => updTeam s t fun t => { t with spad := memWriteN t.spad o n v }
  | (.inr h, o) => { s with handles := s.handles.map fun x => if x.hid = h then { x with bytes := memWriteN x.bytes o n v } else x }

/-- The runs of one granule each that `n` bytes at an offset make: offset and length. -/
def spadRuns (off n : Nat) : List (Nat × Nat) :=
  (List.range ((off + n - 1) / Config.granule + 1 - off / Config.granule)).map fun j =>
    let lo := max off (Config.granule * (off / Config.granule + j))
    (lo, min (off + n) (Config.granule * (off / Config.granule + j) + Config.granule) - lo)

/-- All in one granule. -/
def oneGranule (off n : Nat) : Bool := off / Config.granule == (off + n - 1) / Config.granule

/-- The bytes of a team's scratchpad; each granule is read where it is (20 R310). -/
def spadRead (s : State) (tid off n : Nat) : Nat :=
  if oneGranule off n then spadReadIn s tid off n
  else bytesToNat ((spadRuns off n).flatMap fun r => natToBytes r.2 (spadReadIn s tid r.1 r.2))

/-- Bytes written, with no check. -/
def spadPut (s : State) (tid off n v : Nat) : State :=
  if oneGranule off n then spadPutIn s tid off n v
  else (spadRuns off n).foldl (fun s r => spadPutIn s tid r.1 r.2 (v / 2 ^ (8 * (r.1 - off)) % 2 ^ (8 * r.2))) s

def barAt (s : State) (tid off : Nat) : Bar := Bar.ofNat (spadRead s tid off 16)
def putBar (s : State) (tid off : Nat) (b : Bar) : State := spadPut s tid off 16 b.toNat

/-- The objects known in a place: a team, or a handle whose granules no child holds. -/
def objsAt (s : State) (pl : Nat ⊕ Nat) : List BarObj :=
  match pl with
  | .inl t => ((teamOf s t).map Team.objs).getD []
  | .inr h => ((handleOf s h).map Handle.objs).getD []

def setObjs (s : State) (pl : Nat ⊕ Nat) (l : List BarObj) : State :=
  match pl with
  | .inl t => updTeam s t fun t => { t with objs := l }
  | .inr h => { s with handles := s.handles.map fun x => if x.hid = h then { x with objs := l } else x }

/-- The object at an offset among some; one not met before has met nothing. -/
def findObj (l : List BarObj) (off : Nat) : BarObj :=
  (l.find? (·.off == off)).getD { off, phases := [], lots := [], latent := none }

/-- What is known of the object at an offset of a team's scratchpad. -/
def objOf (s : State) (tid off : Nat) : BarObj :=
  let pl := spadPlace s tid off
  findObj (objsAt s pl.1) pl.2

/-- What is known of the object at an offset changed. -/
def putObj (s : State) (tid off : Nat) (f : BarObj → BarObj) : State :=
  let pl := spadPlace s tid off
  let l := objsAt s pl.1
  setObjs s pl.1 (f (findObj l pl.2) :: l.filter (·.off != pl.2))

/-- The object as one that has been named. -/
def nameObj (s : State) (tid off : Nat) (f : BarObj → BarObj) : State := putObj s tid off fun o => { f o with latent := none }

/-- What phase `p` of an object has met. -/
def BarObj.info (o : BarObj) (p : Nat) : PhaseInfo :=
  (o.phases.find? (·.phase == p % 2 ^ 16)).getD { phase := p % 2 ^ 16, dev := false, lt := none, key := none }

def BarObj.setInfo (o : BarObj) (i : PhaseInfo) : BarObj :=
  { o with phases := i :: o.phases.filter (·.phase != i.phase) }

def maxOpt (a : Option Nat) (b : Nat) : Option Nat := some (max (a.getD b) b)

/-- An event of logical time `lt` counts toward phase `p` (12 R230). -/
def BarObj.event (o : BarObj) (p lt : Nat) : BarObj :=
  let i := o.info p
  o.setInfo { i with lt := maxOpt i.lt lt }

/-- An arrival for phase `p`. -/
def BarObj.arrival (o : BarObj) (p : Nat) (dev : Bool) (lt gindex : Nat) : BarObj :=
  let i := o.info p
  let later := match i.key with
    | none => true
    | some (l, g) => decide (l < lt) || (l == lt && decide (g < gindex))
  o.setInfo { i with dev := i.dev || dev, lt := maxOpt i.lt lt, key := if later then some (lt, gindex) else i.key }

/-- An acquire at DEV or SYS scope on a core: its L1 lines are discarded (09 R182). -/
def acquireDev (s : State) (core : Nat) : State := setCore s core { coreOf s core with l1 := [] }

/-- A waiting group's LBASE after a wait that events of greatest LT `w` completed (12 R230). -/
def raiseLbase (g : Group) (w : Option Nat) : Group :=
  match w with
  | some w => if g.repro && decide (g.lt < w + 1) then { g with lbase := g.lbase + (w + 1 - g.lt) } else g
  | none => g

/-- The same for a wait that its instruction finds complete: it counts from the LT that the instruction leaves. -/
def raiseLbaseAtIssue (g : Group) (w : Option Nat) : Group :=
  match w with
  | some w => if g.repro && decide (g.lt < w) then { g with lbase := g.lbase + (w - g.lt) } else g
  | none => g

/-- A split that waited on a phase goes on: READY, with the acquire of R170. -/
def goOnPhase (s : State) (gid sid : Nat) (lt : Option Nat) (dev : Bool) : State :=
  match groupOf s gid with
  | none => s
  | some g =>
    let s := setGroup s (raiseLbase g lt)
    let s := updSplit s gid sid fun q => { q with state := .ready }
    if dev then acquireDev s g.core else s

/-- A split that waits on phase `p` of an object goes on, the phase being complete. In a reproducible grid the harvest of a
.DEV phase comes between: its waiters go on once what it applied is performed or dropped (09 R189; `settleKeys`). -/
def wakeSplit (s : State) (gid sid : Nat) (o : BarObj) (p : Nat) : State :=
  match groupOf s gid with
  | none => s
  | some g =>
    let i := o.info p
    match (if g.repro && i.dev then i.key else none) with
    | none => goOnPhase s gid sid i.lt i.dev
    | some key => updSplit s gid sid fun q => match q.state with
      | .waitPhase off ph _ => { q with state := .waitPhase off ph (some { key, lt := i.lt }) }
      | _ => q

/-- The splits that wait on the object at an offset of a team's scratchpad, by whichever team's offset they name it (20 R310):
group, split, phase. -/
def waiters (s : State) (tid off : Nat) : List (Nat × Nat × Nat) :=
  let pl := spadPlace s tid off
  (s.groups.filter fun g => g.place == .resident).flatMap fun g =>
    g.splits.filterMap fun p => match p.state with
      | .waitPhase o ph none => if spadPlace s g.team o = pl then some (g.gid, p.sid, ph) else none
      | _ => none

/-- An object with what it has met, and the phases that a check has completed. -/
structure Checked where
  bar : Bar
  obj : BarObj
  passed : List Nat

/-- One turn of the loop of R166. What passes on under CARRY counts toward the next phase too (12 R230), and nothing has
met the phase after that one yet. -/
def Checked.turn (x : Checked) : Checked :=
  let b := x.bar.advance
  let lots := if x.bar.carry then useLots x.bar.expbytes x.obj.lots else []
  let o := { x.obj with lots, phases := x.obj.phases.filter fun i => i.phase != (b.phase + 1) % 2 ^ 16 }
  { bar := b, obj := lots.foldl (fun o l => o.event b.phase l.2) o, passed := x.passed ++ [x.bar.phase] }

/-- The loop of R166. -/
def Checked.loop (x : Checked) (fuel : Nat) : Checked :=
  match fuel with
  | 0 => x
  | n + 1 => if x.bar.ripe then x.turn.loop n else x

/-- The loop to its end: with no arrivals expected each turn uses up landed bytes, else ARR, then AHEAD. -/
def settle (b : Bar) (o : BarObj) : Checked := Checked.loop { bar := b, obj := o, passed := [] } (b.landed + 4)

/-- The completion check and the waking that follows (R166, R299), with the keys of the .DEV phases it completed, at
which a reproducible grid is harvested (R170, 12 R233). -/
def barCheck (s : State) (tid off : Nat) : State × List (Nat × Nat) :=
  let x := settle (barAt s tid off) (objOf s tid off)
  if x.passed.isEmpty then
    ((waiters s tid off).foldl (fun s w => if x.bar.completed w.2.2 then wakeSplit s w.1 w.2.1 x.obj w.2.2 else s) s, [])
  else
    let s := nameObj (putBar s tid off x.bar) tid off fun _ => x.obj
    let done (p : Nat) : Bool := x.bar.completed p || x.passed.contains p
    let s := (waiters s tid off).foldl (fun s w => if done w.2.2 then wakeSplit s w.1 w.2.1 x.obj w.2.2 else s) s
    (s, x.passed.filterMap fun p => let i := x.obj.info p; if i.dev then i.key else none)

/-! ## Objects that nothing has named yet (log 53)

Any 16 bytes at a 16-aligned offset may be an object that stores build before an instruction or a copy names it. Its bytes are
kept as they are stored, since they may as well be data, and beside them, where they differ, what they would be had each store
been followed by the check. -/

/-- Some object of a place is named. -/
def isNamed (l : List BarObj) (off : Nat) : Bool := l.any fun o => o.off == off && o.latent.isNone

/-- An object has been named. -/
def named (s : State) (tid off : Nat) : Bool :=
  let pl := spadPlace s tid off
  isNamed (objsAt s pl.1) pl.2

/-- An object that an instruction or a copy names: one not named before takes the bytes that the checks after its stores have
left (log 53). No split waits on it yet. -/
def meetObj (s : State) (tid off : Nat) : State :=
  if named s tid off then s
  else
    let raw := spadRead s tid off 16
    let v := (objOf s tid off).latent.getD (settle (Bar.ofNat raw) { off := 0, phases := [], lots := [], latent := none }).bar.toNat
    nameObj (if v = raw then s else putBar s tid off (Bar.ofNat v)) tid off fun o => { o with phases := [], lots := [] }

/-- The part of `x` from bit `p`, `k` bits wide, replaced. -/
def putField (x p k v : Nat) : Nat := x % 2 ^ p + 2 ^ p * (v % 2 ^ k) + 2 ^ (p + k) * (x / 2 ^ (p + k))

/-- A cell of 16 bytes at `cell` after `f` has acted on the `n` bytes at `o`; an access that the cell does not hold whole only
writes, and `f` is constant. -/
def cellAfter (cell o n : Nat) (f : Nat → Nat) (old : Nat) : Nat :=
  let new := f (old / 2 ^ (8 * (o - cell)) % 2 ^ (8 * n))
  let lo := max o cell
  let hi := min (o + n) (cell + 16)
  putField old (8 * (lo - cell)) (8 * (hi - lo)) (new / 2 ^ (8 * (lo - o)))

/-- What an unnamed object would hold after an access that has found `raw` in its bytes and leaves `now`. -/
def latentNext (o : BarObj) (raw now : Nat) (g : Nat → Nat) : Option Nat :=
  let v := (settle (Bar.ofNat (g (o.latent.getD raw))) { off := 0, phases := [], lots := [], latent := none }).bar.toNat
  if v = now then none else some v

/-- The object at a cell of a place, which `raw` held, after the access that `g` makes of it: a named one is checked. -/
def afterAccess (s : State) (tid cell raw : Nat) (g : Nat → Nat) : State × List (Nat × Nat) :=
  if named s tid cell then barCheck s tid cell
  else
    let pl := spadPlace s tid cell
    let l := objsAt s pl.1
    let rest := l.filter (·.off != pl.2)
    match latentNext (findObj l pl.2) raw (spadRead s tid cell 16) g with
    | none => (if rest.length = l.length then s else setObjs s pl.1 rest, [])
    | some v => (setObjs s pl.1 ({ off := pl.2, phases := [], lots := [], latent := some v } :: rest), [])

/-- The cells that `n` bytes at an offset touch. -/
def cellsOf (off n : Nat) : List Nat := (List.range ((off + n - 1) / 16 + 1 - off / 16)).map fun k => 16 * (off / 16 + k)

/-- A read-modify-write, or a write where `f` is constant, of `n` bytes of scratchpad as one operation; each object changed is
followed by its completion check (R165, R166). -/
def spadUpdate (s : State) (tid off n : Nat) (f : Nat → Nat) : State × List (Nat × Nat) :=
  let t := spadPut s tid off n (f (spadRead s tid off n))
  (cellsOf off n).foldl (fun r c =>
    let q := afterAccess r.1 tid c (spadRead s tid c 16) (cellAfter c off n f)
    (q.1, r.2 ++ q.2)) (t, [])

/-- Bytes written to scratchpad, with the checks that follow. -/
def spadWrite (s : State) (tid off n v : Nat) : State × List (Nat × Nat) := spadUpdate s tid off n fun _ => v

/-- Bytes that an engine lands (R169): they add to LANDED, saturating, for whatever phase is current. An object in granules
handed away is the child's (20 R310). -/
def landBytes (s : State) (tid off n lt : Nat) : State × List (Nat × Nat) :=
  let s := meetObj s tid off
  let b := barAt s tid off
  let b' : Bar := { b with landed := min (b.landed + n) (2 ^ 32 - 1) }
  barCheck (nameObj (putBar s tid off b') tid off fun x => { x.event b.phase lt with lots := x.lots ++ [(n, lt)] }) tid off

end Sys2Proof.Machine
end

