-- ==== Sys2Proof/Machine/Access.lean ====
section
/-!
DEFINITION. Memory accesses in flight (09 R174 to R186, 08 R159, R171, R172): their order, what a load reads, and how a
load, a store or a read-modify-write is performed. Every access is issued as an `Op` of `State.ops` and performed later by
a step of its own.
-/
namespace Sys2Proof.Machine

/-! ## Order -/

/-- Whether an agent is the operation's own or comes before it (R174, R184). -/
def Op.follows (o : Op) (agent : Nat) : Bool := o.agent == agent || o.before.contains agent

def Elem.isParked (e : Elem) : Bool :=
  match e.st with
  | .parked _ | .held _ => true
  | _ => false

/-- It only reads. -/
def Op.reads (o : Op) : Bool :=
  match o.kind with
  | .load .. | .pref _ | .ldl .. | .bind _ => true
  | _ => false

/-- It is an access of the memory model: a prefetch orders nothing (23 R389). -/
def Op.orders (o : Op) : Bool :=
  match o.kind with
  | .pref _ => false
  | _ => true

/-- Two ranges share a byte. -/
def rangesMeet (a n b m : Nat) : Bool := decide (a < b + m) && decide (b < a + n)

/-- The physical address of an element: as translated at issue, else as the tables stand. -/
def elemPhys (s : State) (o : Op) (e : Elem) : Option Nat :=
  match e.pa with
  | some p => some p
  | none =>
    (ctxOf s o.ctx).bind fun c => match walk s c.ptroot e.va.toNat with
      | .leaf l _ x => some (leafAddr l (pteFrame x) e.va.toNat)
      | _ => none

/-- Two elements share a byte of memory. -/
def elemsMeet (s : State) (o : Op) (e : Elem) (o' : Op) (e' : Elem) : Bool :=
  match e.space, e'.space with
  | .scratch, .scratch => o.team == o'.team && rangesMeet e.va.toNat e.size e'.va.toNat e'.size
  | .scratch, _ | _, .scratch => false
  | _, _ =>
    match elemPhys s o e, elemPhys s o' e' with
    | some p, some q => rangesMeet p e.size q e'.size
    | _, _ => o.ctx == o'.ctx && rangesMeet e.va.toNat e.size e'.va.toNat e'.size

/-- The older accesses that an operation's agent has issued, or its predecessors have. -/
def olderOps (s : State) (o : Op) : List Op := s.ops.filter fun x => decide (x.id < o.id) && o.follows x.agent && x.orders

/-- The agents of its core see a store that its home has not performed (R178, R182). -/
def Elem.shown (e : Elem) : Bool :=
  match e.st with
  | .seen _ => true
  | _ => false

/-- What a release or fence at DEV or SYS scope (`wide`) waits for, or one at a narrower scope: performed, or seen by every
agent of the core (R178). -/
def Op.settledFor (o : Op) (wide : Bool) : Bool := o.elems.all fun e => e.isDone || (!wide && e.shown)

/-- Stores of a core that its agents saw before `n`, and that are not performed. -/
def coreSeen (s : State) (core n : Nat) : Bool :=
  s.ops.any fun o => o.core == core && o.elems.any fun e => match e.st with
    | .seen k => decide (k < n)
    | _ => false

/-- Some request of a group is parked, `id` apart (08 R173). -/
def parkedBeside (s : State) (gid id : Nat) : Bool := s.ops.any fun o => o.gid == gid && o.id != id && o.elems.any Elem.isParked

/-- Some request of a group is parked (08 R173). -/
def groupParked (s : State) (gid : Nat) : Bool := s.ops.any fun o => o.gid == gid && o.elems.any Elem.isParked

/-- A gate decrement of a group is not performed: its releases wait (04 R95). -/
def gatesOut (s : State) (gid : Nat) : Bool :=
  s.ops.any fun o => o.gid == gid && !o.performed && (match o.kind with
    | .gate .. => true
    | _ => false)

/-- The fences between an older access and a write of the operation (R179, R183). -/
def fencesBetween (s : State) (o x : Op) : List FenceMark :=
  if o.reads then []
  else s.fences.filter fun f =>
    decide (f.id < o.id) && decide (x.id < f.id) && o.follows f.agent && (f.agent == x.agent || f.before.contains x.agent)

/-- A write that follows a FENCE.REL waits for the requests of the group that were issued before the fence and are parked
(08 R173, 21 R335). -/
def fenceParked (s : State) (o : Op) : Bool :=
  !o.reads && s.fences.any fun f => decide (f.id < o.id) && o.follows f.agent &&
    s.ops.any fun x => x.gid == f.gid && decide (x.id < f.id) && x.elems.any Elem.isParked

/-- Requests that a rule sets in order take their turns: the gate decrements of one future in index order (04 R95), the
reductions of one grid as their harvests apply them (12 R233). -/
def turnOk (s : State) (o : Op) : Bool :=
  s.ops.all fun x =>
    !(match o.kind, x.kind with
      | .gate _ f, .gate _ f' => f == f' && decide (x.id < o.id)
      | _, _ => match o.harvest, x.harvest with
        | some n, some m => x.grid == o.grid && decide (m < n)
        | _, _ => false) ||
    x.elems.all fun e => match e.st with
      | .pending | .held _ => false
      | _ => true

/-- The order of whole operations: an older acquire holds back, a release waits, a fence separates (R177 to R179, R183,
R355, R385). A release at DEV scope also covers what its agent may have read of stores that only its core has seen. -/
def opReady (s : State) (o : Op) : Bool :=
  (olderOps s o).all (fun x => x.performed ||
    (!x.acq && (!o.rel || x.settledFor (scopeWide o.scope)) && (fencesBetween s o x).all fun f => x.settledFor f.wide)) &&
  !(o.rel && (parkedBeside s o.gid o.id || gatesOut s o.gid || (scopeWide o.scope && coreSeen s o.core o.id))) &&
  !fenceParked s o && turnOk s o

/-- A global load that the core's L1 may serve (R182, R355). -/
def l1Allowed (o : Op) (e : Elem) : Bool := e.space == .global && !scopeWide o.scope

/-- A read that takes what its core has seen. -/
def coreRead (o : Op) (e : Elem) : Bool := o.reads && l1Allowed o e

/-- Elements of older accesses that share a byte with an element and are not performed, newest first. What the core has
seen is performed for its plain loads. -/
def olderMeets (s : State) (o : Op) (e : Elem) : List (Op × Elem) :=
  ((olderOps s o).flatMap fun x => (x.elems.filter fun y =>
    !y.isDone && !(coreRead o e && y.shown) && elemsMeet s o e x y).map fun y => (x, y)).reverse

/-- The value an element takes from its agent's own latest earlier store, not yet performed (R175): the store covers the
element, and no older load of the location is outstanding. -/
def forwarded (s : State) (o : Op) (e : Elem) : Option Nat :=
  match olderMeets s o e with
  | [] => none
  | (x, y) :: rest =>
    match x.kind, elemPhys s o e, elemPhys s x y with
    | .store, some p, some q =>
      if coreRead o e && decide (q ≤ p) && decide (p + e.size ≤ q + y.size) && rest.all (fun r => !r.1.reads)
      then some (y.data.toNat / 256 ^ (p - q) % 256 ^ e.size)
      else none
    | _, _, _ => none

/-- A store that the element's core saw before it, to the same bytes, is to be performed first. -/
def behindSeen (s : State) (o : Op) (e : Elem) : Bool :=
  !coreRead o e && s.ops.any fun x => x.core == o.core && x.elems.any fun y =>
    (match y.st, e.st with
      | .seen m, .seen n => decide (m < n)
      | .seen _, _ => true
      | _, _ => false) && elemsMeet s o e x y

/-- Whether an element may be performed now. -/
def elemReady (s : State) (o : Op) (e : Elem) : Bool :=
  opReady s o && !behindSeen s o e && ((olderMeets s o e).isEmpty || (forwarded s o e).isSome)

/-- The lineage of a split: whether an older access of it is outstanding. `loads`: loads alone are meant. -/
def splitOutstanding (s : State) (p : Split) (loads : Bool) : Bool :=
  s.ops.any fun o => (o.agent == p.agent || p.before.contains o.agent) && o.orders && !o.performed &&
    (!loads || (match o.kind with
      | .store => false
      | _ => true))

/-- A release at issue: every earlier access of the split is performed, or for a scope within the core seen by it; no
request of the group is parked (R173) and no gate decrement of it outstanding (04 R95). -/
def released (u : Iss) (wide : Bool) : Bool :=
  !(u.s.ops.any fun o => (o.agent == u.p.agent || u.p.before.contains o.agent) && o.orders && !o.settledFor wide) &&
  !groupParked u.s u.g.gid && !gatesOut u.s u.g.gid && !(wide && coreSeen u.s u.g.core u.s.nextId)

/-! ## Records of operations -/

/-- The template of the records that an operation may cause (11 R206). -/
def recTemplate (u : Iss) (mask : Lanes) : TrapRec :=
  { trapRecord u.s u.g u.p { cause := .memoryUncorrectable, mask } 0 with inchain := false }

/-- A record of an operation. -/
def opRecord (s : State) (tmpl : TrapRec) (cause : Cause) (source : Nat) (mask : Lanes) (aux0 aux1 : DWord) : TrapRec :=
  { tmpl with cause := cause.code, source, mask, aux0, aux1, time := s.clock.toNat }

def laneBit (l : Nat) : Lanes := 1#64 <<< l

/-- An uncorrectable error logged to the driver (10 R205). -/
def logEcc (s : State) (o : Op) (e : Elem) (pa : Nat) : State :=
  report s { ctx := o.ctx, link := .log,
             body := opRecord s o.tmpl .memoryUncorrectable 4 (laneBit e.lane) o.tmpl.pc (BitVec.ofNat 64 pa) }

/-! ## Issue -/

/-- A new element of an access. -/
def mkElem (lane : Nat) (space : Space) (va : DWord) (pa : Option Nat) (size : Nat) : Elem :=
  { lane, space, va, pa, size, data := 0#64, data2 := 0#64, u := .b32, op := 0, st := .pending, res := 0#64, bad := none }

/-- An operation of the issuing split, with a fresh identity. -/
def mkOp (u : Iss) (s : State) (kind : OpKind) (acq rel : Bool) (scope : Scope) (elems : List Elem) : Op × State :=
  let (id, s) := fresh s
  let mask := Lanes.ofPred fun l => elems.any (·.lane == l)
  ({ id, gid := u.g.gid, sid := u.p.sid, agent := u.p.agent, before := u.p.before, ctx := u.g.ctx, grid := u.g.grid,
     team := u.g.team, core := u.g.core, die := dieOf u.g.core, tmpl := recTemplate u mask, sup := u.g.inHandler, kind,
     acq, rel, scope, lt := u.g.lt, gindex := u.g.gindex, harvest := none, elems }, s)

/-- An operation joins those in flight, and its class counts it. -/
def addOp (u : Iss) (s : State) (kind : OpKind) (acq rel : Bool) (scope : Scope) (cls : Option EngClass)
    (elems : List Elem) : State :=
  let (o, s) := mkOp u s kind acq rel scope elems
  let s := { s with ops := s.ops ++ [o] }
  match cls with
  | some c => updGroup s u.g.gid fun g => engAdd g c o.id
  | none => s

/-- The class counter stands at 63: the instruction stalls (08 R159). -/
def engFull (u : Iss) (c : EngClass) : Bool := decide (Config.counterMax ≤ counter u.g c)

/-- Fences that order nothing outstanding any more are forgotten. -/
def dropFences (s : State) : State :=
  { s with fences := s.fences.filter fun f =>
      s.ops.any fun o => decide (o.id < f.id) && (o.gid == f.gid || f.agent == o.agent || f.before.contains o.agent) }

/-- An operation wholly performed leaves the list. -/
def removeOp (s : State) (id : Nat) : State := dropFences { s with ops := s.ops.filter (·.id != id) }

/-- A class counts an operation that is performed as it issues (08 R159). -/
def engTick (g : Group) (c : EngClass) (id : Nat) : Group := engDone (engAdd g c id) id

/-- The class counter of an operation counts it off (08 R159). -/
def countOff (s : State) (o : Op) : State := updGroup s o.gid fun g => engDone g o.id

/-! ## The L1 (05 R115, 09 R182) -/

def lineOf (a : Nat) : Nat := a / 128

/-- The bytes of a line with those of a write replaced. -/
def patchLine (data : List Byte) (start pa : Nat) (bs : List Byte) : List Byte :=
  data.zipIdx.map fun x =>
    let a := start + x.2
    if pa ≤ a ∧ a < pa + bs.length then bs.getD (a - pa) x.1 else x.1

/-- Every write of an agent of the core updates the core's lines. -/
def l1Update (s : State) (core pa : Nat) (bs : List Byte) : State :=
  let c := coreOf s core
  let patch (x : L1Line) : L1Line :=
    if rangesMeet (x.pline * 128) 128 pa bs.length then { x with data := patchLine x.data (x.pline * 128) pa bs } else x
  if c.l1.isEmpty then s else setCore s core { c with l1 := c.l1.map patch }

/-- The core's line of a virtual and physical address. -/
def l1Find (s : State) (core ctx va pa : Nat) : Option L1Line :=
  (coreOf s core).l1.find? fun x => x.ctx == ctx && x.vline == lineOf va && x.pline == lineOf pa

/-- What a core's agents see of stores not yet performed: physical addresses and bytes, in the order they came to be seen. -/
def seenWrites (s : State) (core : Nat) : List (Nat × List Byte) :=
  let l := s.ops.flatMap fun o => if o.core = core then o.elems.filterMap fun e => match e.st with
    | .seen n => some (n, e.pa.getD 0, natToBytes e.size e.data.toNat)
    | _ => none else []
  (sortLe (fun a b => decide (a.1 ≤ b.1)) l).map Prod.snd

/-- Bytes of memory as a core sees them. -/
def coreBytes (s : State) (core pa n : Nat) : List Byte :=
  (seenWrites s core).foldl (fun bs w => patchLine bs pa w.1 w.2) (memReadBytes s.mem pa n)

/-- The value of bytes of memory as a core sees them. -/
def coreValue (s : State) (core pa n : Nat) : Nat :=
  if (seenWrites s core).isEmpty then physRead s pa n else bytesToNat (coreBytes s core pa n)

/-- A line brought to the core from its home; other copies of the line are refreshed, or dropped where it holds an
uncorrectable granule. Over its capacity, the L1 gives up the line brought longest ago (00 R1; log 55). -/
def l1Fill (s : State) (core ctx va pa : Nat) : State :=
  let base := lineOf pa * 128
  let c := coreOf s core
  if (badGranule? s base 128).isSome then setCore s core { c with l1 := c.l1.filter fun x => x.pline != lineOf pa }
  else
    let data := coreBytes s core base 128
    let old := (c.l1.map fun x => if x.pline = lineOf pa then { x with data } else x).filter fun x =>
      !(x.ctx == ctx && x.vline == lineOf va)
    setCore s core { c with l1 := ({ ctx, vline := lineOf va, pline := lineOf pa, data } :: old).take Config.l1Lines }

/-- The core's copies of a line refreshed from the home (R182). -/
def l1Refresh (s : State) (core pa : Nat) : State :=
  let base := lineOf pa * 128
  let c := coreOf s core
  let bad := (badGranule? s base 128).isSome
  let data := coreBytes s core base 128
  if c.l1.isEmpty then s
  else
    let kept := c.l1.filter fun x => !(bad && x.pline == lineOf pa)
    setCore s core { c with l1 := kept.map fun x => if x.pline = lineOf pa then { x with data } else x }

/-! ## Read-modify-writes (08 R171) -/

/-- FADD, FMAX, FMIN of one position: subnormals honoured, RNE, no flag; old is operand A (R171). -/
def rmwFlo (F : Fmt) (op : Nat) (old v : Nat) : Nat :=
  let a := FVal.ofBits F false old
  let b := FVal.ofBits F false v
  let r := if op = 8 then fAdd false a b else fMinMax (op == 9) a b
  (roundTo F { rm := .rne, sat := false, ftz := false, x := 0#32 } r).val

/-- The integer an element of a type holds. -/
def rmwInt (u : EltTy) (x : Nat) : Int :=
  if u.signed && decide (2 ^ (u.width - 1) ≤ x) then (x : Int) - (2 ^ u.width : Nat) else x

/-- What memory becomes (R171). `op` 11 is the saturating count of a census fold (06 R133). -/
def rmwValue (u : EltTy) (op old v swap : Nat) : Nat :=
  match op with
  | 0 => (old + v) % 2 ^ u.width
  | 1 => if rmwInt u v < rmwInt u old then v else old
  | 2 => if rmwInt u old < rmwInt u v then v else old
  | 3 => old &&& v
  | 4 => old ||| v
  | 5 => old ^^^ v
  | 6 => v
  | 7 => if old = v then swap else old
  | 11 => min (old + v) (2 ^ 32 - 1)
  | _ =>
    match u with
    | .f16x2 => rmwFlo fmtF16 op (old % 2 ^ 16) (v % 2 ^ 16) + 2 ^ 16 * rmwFlo fmtF16 op (old / 2 ^ 16) (v / 2 ^ 16)
    | .bf16x2 => rmwFlo fmtBF16 op (old % 2 ^ 16) (v % 2 ^ 16) + 2 ^ 16 * rmwFlo fmtBF16 op (old / 2 ^ 16) (v / 2 ^ 16)
    | _ => rmwFlo fmtF32 op old v

/-! ## Store streams of checked teams (12 R235) -/

/-- The group is a copy of a checked team, and the access is global. -/
def streams (g : Group) (sp : Space) : Bool := g.checked && sp == .global

/-- The team is a copy of a checked team. -/
def copyTeam (s : State) (tid : Nat) : Bool := (teamOf s tid).any (·.copyNo != 0)

/-- An element that a checked copy writes to global memory: it is performed into the team's stream. -/
def Op.streamed (s : State) (o : Op) (e : Elem) : Bool :=
  e.space == .global && copyTeam s o.team && (match o.kind with
    | .store | .rmw _ none | .fold => true
    | _ => false)

/-- Bytes of a context's check area in use: every running checked copy's stream. -/
def checkInUse (s : State) (ctx : Nat) : Nat :=
  ((s.teams.filter fun t => t.ctx == ctx && t.copyNo != 0).map fun t => t.stream.length).sum * Config.streamItemBytes

/-- Items that enter the stream of a checked copy; a copy that would overflow the check area is marked (12 R236). -/
def streamPut (s : State) (ctx team : Nat) (items : List StreamItem) : State :=
  let size := ((ctxOf s ctx).map Context.checkSz).getD 0
  if size < checkInUse s ctx + items.length * Config.streamItemBytes then
    updTeam s team fun t => { t with overflow := some (checkInUse s ctx) }
  else updTeam s team fun t => { t with stream := t.stream ++ items }

/-- The item of an element. A reduction's place, by which the copy's own loads find it, is that of the tables as they stand. -/
def streamItem (s : State) (o : Op) (e : Elem) : StreamItem :=
  { batch := o.id, grpid := o.tmpl.grpid, lane := e.lane, va := e.va, pa := elemPhys s o e, size := e.size,
    rmw := match o.kind with
      | .store => none
      | _ => some (e.u, e.op)
    data := e.data }

/-- An element of a checked copy performed, as its team sees it: it enters the stream. -/
def streamElem (s : State) (o : Op) (e : Elem) : State := streamPut s o.ctx o.team [streamItem s o e]

/-- Which byte of an item lies at an address: by physical address where both have one. -/
def StreamItem.byteAt (it : StreamItem) (va : Nat) (pa : Option Nat) : Option Nat :=
  match it.pa, pa with
  | some q, some p => if q ≤ p ∧ p < q + it.size then some (p - q) else none
  | _, _ => if it.va.toNat ≤ va ∧ va < it.va.toNat + it.size then some (va - it.va.toNat) else none

/-- The byte at an address as a stream leaves it: `items` newest first, `base` memory by virtual and physical address. -/
def streamByte (base : Nat → Option Nat → Byte) (items : List StreamItem) (va : Nat) (pa : Option Nat) : Byte :=
  match items with
  | [] => base va pa
  | it :: older =>
    match it.byteAt va pa with
    | none => streamByte base older va pa
    | some k =>
      let old (j : Nat) : Byte := streamByte base older (it.va.toNat + j) (it.pa.map (· + j))
      let new := match it.rmw with
        | none => it.data.toNat
        | some (u, op) => rmwValue u op (bytesToNat ((List.range it.size).map old)) it.data.toNat 0
      BitVec.ofNat 8 (new / 256 ^ k)

/-- Memory at an address, a virtual one as the tables stand. -/
def peekByte (s : State) (ctx va : Nat) (pa : Option Nat) : Byte :=
  match pa, ctxOf s ctx with
  | some p, _ => memRead s.mem p
  | none, none => memDefault
  | none, some c =>
    match walk s c.ptroot va with
    | .leaf l _ x => memRead s.mem (leafAddr l (pteFrame x) va)
    | _ => memDefault

/-- The stream of a checked copy, newest first; none for another team. -/
def streamOf (s : State) (tid : Nat) : List StreamItem :=
  match teamOf s tid with
  | some t => if t.copyNo = 0 then [] else t.stream.reverse
  | none => []

/-! ## Performing loads -/

/-- The value of an element of a checked copy's load: its stream over what it reads (12 R235). -/
def streamValue (s : State) (o : Op) (e : Elem) (base : Nat → Option Nat → Byte) : Nat :=
  bytesToNat ((List.range e.size).map fun k => streamByte base (streamOf s o.team) (e.va.toNat + k) (e.pa.map (· + k)))

/-- The copy's own stream alone gives every byte of an element. -/
def streamCovers (s : State) (o : Op) (e : Elem) : Bool :=
  (List.range e.size).all fun k => (streamOf s o.team).any fun it =>
    it.rmw.isNone && (it.byteAt (e.va.toNat + k) (e.pa.map (· + k))).isSome

/-- What an element of a load reads, with the state a home read leaves: the value, and the address of a bad granule. `l1`:
the core's L1 serves it where it may. A checked copy's own stream comes before either. -/
def readElem (s : State) (o : Op) (e : Elem) (l1 : Bool) : Nat × Option Nat × State :=
  match e.space with
  | .scratch => (spadRead s o.team e.va.toNat e.size, none, s)
  | _ =>
    let pa := e.pa.getD 0
    let va := e.va.toNat
    let streams := e.space == .global && !(streamOf s o.team).isEmpty
    match forwarded s o e with
    | some v => (v, none, s)
    | none =>
      match (if l1 && l1Allowed o e then l1Find s o.core o.ctx va pa else none) with
      | some x =>
        (if streams then streamValue s o e fun a _ => x.data.getD (a % 128) memDefault
         else bytesToNat ((x.data.drop (pa % 128)).take e.size), none, s)
      | none =>
        match (if streams && streamCovers s o e then none else badGranule? s pa e.size) with
        | some b => (0, some b, s)
        | none =>
          (if streams then streamValue s o e fun a p => BitVec.ofNat 8 (coreValue s o.core (p.getD (pa + a - va)) 1)
           else coreValue s o.core pa e.size, none, l1Fill s o.core o.ctx va pa)

/-- Two elements of one load name the same place: they receive one value (R176). -/
def sameElem (e f : Elem) : Bool := e.space == f.space && e.size == f.size && (if e.space = .scratch then e.va == f.va else e.pa == f.pa)

/-- Element `k` of a load performed, with every element of the load that names the same place. -/
def loadElem (s : State) (id : Nat) (l1 : Lanes) (k : Nat) : State :=
  match opOf s id with
  | none => s
  | some o =>
    match o.elems[k]? with
    | none => s
    | some e =>
      if e.st == .pending && elemReady s o e then
        let (v, bad, s) := readElem s o e (l1.has e.lane)
        setOp s { o with elems := o.elems.map fun f =>
          if f.st == .pending && sameElem e f then { f with st := .done, res := BitVec.ofNat 64 v, bad } else f }
      else s

/-- The value a load's element gives its register (22 R354). -/
def loadValue (w : Width) (x : Nat) : Nat :=
  match w with
  | .s8 => if x < 2 ^ 7 then x else x + 2 ^ 32 - 2 ^ 8
  | .s16 => if x < 2 ^ 15 then x else x + 2 ^ 32 - 2 ^ 16
  | _ => x

/-- A completed access writes a register or pair: a scalar once, a vector in the lanes of its elements. -/
def writeLoaded (g : Group) (dst : Opnd) (wide : Bool) (es : List (Nat × Nat)) : Group :=
  if isScalar dst then writeScalarNat g wide dst ((es.head?.map Prod.snd).getD 0)
  else
    let m := Lanes.ofPred fun l => es.any (·.1 == l)
    let v := fun l => ((es.find? (·.1 == l)).map Prod.snd).getD 0
    let g := writeReg g dst m fun l => BitVec.ofNat 32 (v l)
    if wide then writeReg g (opPlus dst 1) m fun l => BitVec.ofNat 32 (v l / 2 ^ 32) else g

/-- A scalar that an access issued before a trap brings while the handler runs is also in what IRET restores (11 R209, R212). -/
def shadowLoaded (g : Group) (o : Op) (dst : Opnd) (wide : Bool) (es : List (Nat × Nat)) : Group :=
  match g.shadow with
  | some sh =>
    if o.tmpl.inhandler || !isScalar dst then g
    else
      let x := writeLoaded { g with sregs := g.sregs.take 56 ++ sh.s56 } dst wide es
      { g with shadow := some { sh with s56 := (x.sregs.drop 56).take 8 } }
  | none => g

/-- An acquire at DEV or SYS scope that completes (R182, R355). Private and scratchpad accesses act at narrower scopes. -/
def acquireOp (s : State) (o : Op) : State :=
  if o.acq && scopeWide o.scope then acquireDev s o.core else s

/-- A load that met an uncorrectable granule: no lane of its destination is written (10 R205). -/
def failLoad (s : State) (o : Op) (pa : Nat) : State :=
  updGroup s o.gid fun g => { g with badLoads := g.badLoads ++ [{ pc := o.tmpl.pc, pa, dst := opDsts o }] }

/-- The end of an LD or LDS whose every element has returned. -/
def finishLoad (s : State) (o : Op) (w : Width) (dst : Opnd) : State :=
  let s := match o.elems.findSome? Elem.bad with
    | some pa => failLoad s o pa
    | none => updGroup s o.gid fun g =>
      let es := o.elems.map fun e => (e.lane, loadValue w e.res.toNat)
      writeLoaded (shadowLoaded g o dst (w == .b64) es) dst (w == .b64) es
  removeOp (countOff (acquireOp s o) o) o.id

/-! ## Performing stores -/

/-- The words that decrements brought to zero, after a write of `n` bytes at `pa` (12 R230). -/
def zerosAfter (s : State) (pa n : Nat) (lt : Option Nat) : List (Nat × Nat) :=
  let old := s.joinZeros.filter fun x => !rangesMeet x.1 4 pa n
  match lt with
  | some l => if physRead s pa 4 = 0 then (pa, l) :: old else old
  | none => old

/-- A split that waits in JWAIT for a word written, which now is zero: the home reports it (04 R93). -/
def Split.meetZero (p : Split) (s : State) (pa n : Nat) (lt : Option Nat) : Split :=
  match p.state with
  | .waitJoin va a false _ =>
    if rangesMeet a 4 pa n && physRead s a 4 == 0 then { p with state := .waitJoin va a true lt } else p
  | _ => p

/-- What the home notes of a write of `n` bytes at `pa`; `lt`: the logical time of a decrement in a reproducible grid. -/
def noteZero (s : State) (pa n : Nat) (lt : Option Nat) : State :=
  { s with
    groups := s.groups.map fun g => { g with splits := g.splits.map fun p => p.meetZero s pa n lt }
    joinZeros := zerosAfter s pa n lt }

/-- The granules that elements cover wholly (10 R205). -/
def coveredGranules (es : List Elem) (bad : List Nat) : List Nat :=
  bad.filter fun g => (List.range 32).all fun k =>
    es.any fun e => match e.pa with
      | some p => decide (p ≤ g * 32 + k) && decide (g * 32 + k < p + e.size)
      | none => false

/-- An element touches a granule. -/
def touches (e : Elem) (g : Nat) : Bool :=
  match e.pa with
  | some p => rangesMeet p e.size (g * 32) 32
  | none => false

/-- The elements of a store that are not performed yet. -/
def unperformed (o : Op) : List Elem := o.elems.filter fun e => e.st == .pending || e.shown

/-- The elements that replace an uncorrectable granule together with `e` (10 R205). -/
def granuleMates (s : State) (o : Op) (e : Elem) : List Elem :=
  if o.streamed s e then [] else
  let gs := (coveredGranules (unperformed o) s.badGranules).filter (touches e)
  (unperformed o).filter fun x => gs.any (touches x)

/-- One element of a store performed: into a checked copy's stream, at its home, in private memory or in scratchpad; a partial store into an
uncorrectable granule is not, and is logged (10 R205). -/
def storeElem (s : State) (o : Op) (e : Elem) : State × List (Nat × Nat) :=
  match e.space with
  | .scratch => spadWrite s o.team e.va.toNat e.size e.data.toNat
  | _ =>
    if o.streamed s e then (streamElem s o e, []) else
    let pa := e.pa.getD 0
    match badGranule? s pa e.size with
    | some b => (logEcc s o e b, [])
    | none =>
      let s := physWrite s pa e.size e.data.toNat
      let s := if e.shown then s else l1Update s o.core pa (natToBytes e.size e.data.toNat)
      (noteZero s pa e.size none, [])

/-- The elements of a store in `lanes` that may be performed now; those that replace an uncorrectable granule go together. -/
def storeReady (s : State) (o : Op) (lanes : Lanes) : List Elem :=
  (unperformed o).filter fun e =>
    (lanes.has e.lane || (granuleMates s o e).any fun x => lanes.has x.lane) && elemReady s o e &&
    (granuleMates s o e).all (elemReady s o)

/-- A store's elements performed together, with the phase completions they cause. -/
def performStore (s : State) (o : Op) (lanes : Lanes) : State × List (Nat × Nat) :=
  let es := storeReady s o lanes
  let clear := coveredGranules (es.filter fun e => !o.streamed s e) s.badGranules
  let s := { s with badGranules := s.badGranules.filter fun g => !clear.contains g }
  let (s, ks) := es.foldl (fun acc e => let r := storeElem acc.1 o e; (r.1, acc.2 ++ r.2)) (s, [])
  let o' := { o with elems := o.elems.map fun e => if es.contains e then { e with st := .done } else e }
  (if o'.performed then removeOp (countOff s o) o.id else setOp s o', ks)

/-- A global store's element comes to be seen by the agents of its core (R178). -/
def showElem (s : State) (id k : Nat) : State :=
  match opOf s id with
  | none => s
  | some o =>
    match o.elems[k]? with
    | none => s
    | some e =>
      if e.st == .pending && e.space == .global && !o.streamed s e && elemReady s o e && (badGranule? s (e.pa.getD 0) e.size).isNone then
        let (n, s) := fresh s
        let s := setOp s { o with elems := o.elems.set k { e with st := .seen n } }
        l1Update s o.core (e.pa.getD 0) (natToBytes e.size e.data.toNat)
      else s

/-- The elements of a store in `lanes` come to be seen by the agents of its core. -/
def showStore (s : State) (id : Nat) (lanes : Lanes) : State :=
  match opOf s id with
  | none => s
  | some o =>
    match o.kind with
    | .store => (List.range o.elems.length).foldl (fun s k =>
        if (o.elems[k]?).any fun e => lanes.has e.lane then showElem s id k else s) s
    | _ => s

/-! ## Accesses from outside the compute dies (13 R237, R242) -/

/-- A bad granule that a write of `n` bytes covers only in part. -/
def partlyBad (s : State) (pa n : Nat) : Option Nat :=
  ((granulesOf pa n).find? fun g => s.badGranules.contains g && !(decide (pa ≤ g * 32) && decide (g * 32 + 32 ≤ pa + n))).map
    (· * 32)

/-- The record of a memory error that no context caused, in the context of lowest number (log 5). -/
def eccLog (s : State) (pa : Nat) : State :=
  match (sortLe (fun a b : Context => decide (a.num ≤ b.num)) s.contexts).head? with
  | none => s
  | some c => report s { ctx := c.num, link := .log, body := blankRec s 0 .memoryUncorrectable 4 0#64 (BitVec.ofNat 64 pa) }

/-- The part of a write from outside that lies in one granule: it replaces a granule that it covers; into an uncorrectable one that it
covers in part it is not performed, and the event is logged (10 R205). -/
def hostGranule (pa : Nat) (bs : List Byte) (s : State) (g : Nat) : State :=
  let lo := max pa (32 * g)
  let part := (bs.drop (lo - pa)).take (min (pa + bs.length) (32 * g + 32) - lo)
  if s.badGranules.contains g && part.length != 32 then eccLog s (32 * g) else physWriteBytes s lo part

/-- A write of the host die, or of another device. -/
def hostWrite (s : State) (pa : Nat) (bs : List Byte) : State :=
  if bs.isEmpty then s
  else if (partlyBad s pa bs.length).isNone then noteZero (physWriteBytes s pa bs) pa bs.length none
  else noteZero ((granulesOf pa bs.length).foldl (hostGranule pa bs) s) pa bs.length none

/-- Bytes of memory as they are read from outside; those of an uncorrectable granule are free (log 21). The first is number
`start` of its read. -/
def outsideBytes (s : State) (start pa n : Nat) : List Byte :=
  (List.range n).map fun k =>
    if s.badGranules.contains ((pa + k) / 32) then Config.openByte s.freeCtr (start + k) else memRead s.mem (pa + k)

/-! ## Performing read-modify-writes -/

/-- Element `k` of an operation with a new state. -/
def setElem (s : State) (o : Op) (k : Nat) (e : Elem) : State := setOp s { o with elems := o.elems.set k e }

/-- A grid whose request was dropped completes with REDUCTION_LOST (01 R31). -/
def loseReduction (s : State) (grid : Nat) : State := updGrid s grid fun g => { g with lost := true }

/-- One element's read-modify-write at a physical address, or in scratchpad. It is not performed in an uncorrectable
granule: an ATOM's lane is then bad, a reduction is dropped, and the event is logged (10 R205, 20 R294). -/
def rmwElem (s : State) (o : Op) (k : Nat) (e : Elem) (pa : Nat) : State × List (Nat × Nat) :=
  let new (old : Nat) : Nat := rmwValue e.u e.op old e.data.toNat e.data2.toNat
  match e.space with
  | .scratch =>
    let old := spadRead s o.team e.va.toNat e.size
    let (s, ks) := spadUpdate s o.team e.va.toNat e.size new
    (setElem s o k { e with st := .done, res := BitVec.ofNat 64 old }, ks)
  | _ =>
    match badGranule? s pa e.size with
    | some b =>
      let atom := match o.kind with
        | .rmw _ (some _) => true
        | _ => false
      let s := logEcc s o e b
      (setElem (if atom then s else loseReduction s o.grid) o k { e with st := .done, bad := some b }, [])
    | none =>
      let old := physRead s pa e.size
      let v := new old
      let dec := match o.kind with
        | .dec _ | .gate .. => if ((gridOf s o.grid).map fun g => g.desc.repro).getD false then some o.lt else none
        | _ => none
      let s := noteZero (l1Update (physWrite s pa e.size v) o.core pa (natToBytes e.size v)) pa e.size dec
      let s := match o.kind with
        | .rmw _ (some _) => l1Refresh s o.core pa
        | _ => s
      (setElem s o k { e with st := .done, res := BitVec.ofNat 64 old }, [])

/-- The end of an ATOM: old values to its destination (20 R294). -/
def finishAtom (s : State) (o : Op) (u : EltTy) (dst : Opnd) : State :=
  let good := o.elems.filter fun e => e.bad.isNone
  let s := match o.elems.findSome? Elem.bad with
    | some pa => if dst = .zero then s else failLoad s o pa
    | none => s
  let s := updGroup s o.gid fun g => writeLoaded g dst (u.width == 64) (good.map fun e => (e.lane, e.res.toNat))
  removeOp (countOff s o) o.id

end Sys2Proof.Machine
end

