-- ==== Sys2Proof/Machine/Home.lean ====
section
/-!
DEFINITION. The Rake's filing of thread records (04 R84), and what home slices do: requests translated after their
instruction retires, the Sluice (08 R173), decrements, futures (04 R92 to R96), and harvest (12 R233).
-/
namespace Sys2Proof.Machine

/-! ## Filing a record (R84) -/

/-- Records in the pans of a Rake. -/
def rakeCount (c : Core) : Nat := (c.pans.map fun p => (p.map fun x => x.recs.length).getD 0).sum

/-- The pan bound to a record's entry and grid. -/
def panFor (c : Core) (r : ThreadRec) : Option Nat :=
  c.pans.findIdx? fun p => match p with
    | some x => x.grid == r.grid && x.entry == r.entry
    | none => false

/-- A pan with one more record at its tail; a timer starts when the pan was empty (R86). -/
def panAdd (now : Nat) (p : Option Pan) (r : ThreadRec) : Pan :=
  match p with
  | some x => { x with recs := x.recs ++ [r] }
  | none => { grid := r.grid, entry := r.entry, recs := [r], timerStart := now, expired := false }

/-- The pan that a record would join on a core: bound to its entry and grid, else the first unbound one; none without
room. -/
def panChoice (c : Core) (r : ThreadRec) : Option Nat :=
  if Config.rakeRoom ≤ rakeCount c then none
  else match panFor c r with
  | some i => some i
  | none => c.pans.findIdx? Option.isNone

/-- Steps 2 and 3 of R84 on a core; none when there is no room. -/
def fileInRake (s : State) (core : Nat) (r : ThreadRec) : Option State :=
  let c := coreOf s core
  (panChoice c r).map fun i =>
    setCore s core { c with pans := c.pans.set i (some (panAdd s.clock.toNat (c.pans.getD i none) r)) }

/-- File(rec) (R84): a pan, else the brine queue; none when no record is made. The layout of the brine ring is opaque: its
records are held in `Context.brine`, and its bytes in memory are not written (log 72). -/
def fileRec (s : State) (core : Nat) (r : ThreadRec) : Option State :=
  match fileInRake s core r with
  | some s => some s
  | none =>
    (ctxOf s r.ctx).bind fun c =>
      if c.brine.length < c.brineCap then some (setCtx s { c with brine := c.brine ++ [r] }) else none

/-- The context is being terminated (01 R32). -/
def ctxEnding (s : State) (n : Nat) : Bool := ((ctxOf s n).map Context.terminating).getD true

/-- The grid is reproducible. -/
def gridRepro (s : State) (uid : Nat) : Bool := (gridOf s uid).any fun g => g.desc.repro

/-- A released record that waits for room, and behind which a record goes: of the same future on the same core (21 R341), and in
a reproducible grid any of the grid on the core, whose records are filed in synchronisation order (04 R87, 21 R344). -/
def filesBefore (s : State) (core fut : Nat) (r : ThreadRec) (d : Nat × Nat × ThreadRec) : Bool :=
  d.1 == core && (d.2.1 == fut || (d.2.2.grid == r.grid && gridRepro s r.grid))

/-- A record released by the future at `fut` that is to be filed: with no room, or behind an earlier record, it waits in the
future's block (21 R341); one of a terminated context is discarded. -/
def fileOrDefer (s : State) (core fut : Nat) (r : ThreadRec) : State :=
  if ctxEnding s r.ctx then s
  else match (if s.deferredRecs.any (filesBefore s core fut r) then none else fileRec s core r) with
  | some s => s
  | none => { s with deferredRecs := s.deferredRecs ++ [(core, fut, r)] }

/-! ## Parking (08 R173) -/

/-- The 64 KiB page of an element. -/
def Elem.page (e : Elem) : Nat := e.va.toNat / 0x1_0000

/-- The slice of a die at which an element parks: virtual address bits 21:16. -/
def Elem.slice (e : Elem) : Nat := e.page % 64

/-- Requests that the Sluice of a slice holds. -/
def sluiceCount (s : State) (die slice : Nat) : Nat :=
  (s.ops.map fun o => if o.die = die then (o.elems.filter fun e => (match e.st with
    | .parked _ => true
    | _ => false) && e.slice == slice).length else 0).sum

/-- A request is one of those that an operation parks behind: of its group, or applied by a harvest of its grid before it
(R173, 12 R233). -/
def parksBehind (o x : Op) : Bool :=
  x.ctx == o.ctx && (x.gid == o.gid || (x.grid == o.grid && (match x.harvest, o.harvest with
    | some m, some n => decide (m < n)
    | _, _ => false)))

/-- An earlier request to the element's page is parked. -/
def behindParked (s : State) (o : Op) (e : Elem) : Bool :=
  s.ops.any fun x => parksBehind o x && x.elems.any fun y => y.isParked && y.page == e.page

/-- The core's request path holds a faulting request: no further non-returning request is accepted (R173). -/
def pathHeld (s : State) (core : Nat) : Bool :=
  s.ops.any fun o => o.core == core && o.elems.any fun e => match e.st with
    | .held _ => true
    | _ => false

/-- The fault record of a parked request. -/
def sluiceRecord (s : State) (o : Op) (e : Elem) (f : PageFault) : DriverRec :=
  { ctx := o.ctx, link := .sluice o.gid o.die e.page,
    body := opRecord s o.tmpl (if f.notPresent then .pageNotPresent else .pagePermission) 2 (laneBit e.lane) f.va
      (BitVec.ofNat 64 f.word) }

/-- Element `k` parks, or is held while its Sluice is full; a request that faults itself is reported. One of a terminated
context is discarded (01 R32). -/
def parkElem (s : State) (o : Op) (k : Nat) (e : Elem) (f : Option PageFault) : State :=
  if ctxEnding s o.ctx then setElem s o k { e with st := .done }
  else
  let (seq, s) := fresh s
  let room := decide (sluiceCount s o.die e.slice < Config.sluiceRoom)
  let s := setElem s o k { e with st := if room then .parked seq else .held seq }
  match f with
  | some f => if room then report s (sluiceRecord s o e f) else s
  | none => s

/-! ## What a home does with each request -/

/-- A future's state word (04 R94). -/
def futState (w : Nat) : Nat := w % 4
def futCount (w : Nat) : Nat := w / 4 % 2 ^ 14
def futWord (head count state : Nat) : Nat := head * 2 ^ 16 + count % 2 ^ 14 * 4 + state

/-- The block of the future at a physical address. Its layout is opaque: its records are held here, and its bytes in memory are
not written (log 71). -/
def blockOf (s : State) (pa : Nat) : Block :=
  (s.blocks.find? (·.addr == pa)).getD { ctx := 0, addr := pa, recs := [] }

def setBlock (s : State) (b : Block) : State :=
  { s with blocks := if b.recs.isEmpty then s.blocks.filter (·.addr != b.addr)
      else b :: s.blocks.filter (·.addr != b.addr) }

/-- The grid of a record has not completed (01 R30). -/
def gridLive (s : State) (uid : Nat) : Bool :=
  match gridOf s uid with
  | some g => g.phase == .active
  | none => false

/-- The release of a record (04 R95): discarded when its grid has completed; a gated one decrements its gate first, as a
request of the releasing group; any other is filed on the releasing core. `o`: the releasing request, `fut` the future's
physical address. -/
def releaseRec (s : State) (o : Op) (fut : Nat) (counted : Bool) (r : ThreadRec) : State :=
  if !gridLive s r.grid then s
  else
    let s := if counted then updGrid s r.grid fun g => { g with orphans := g.orphans - 1 } else s
    let r := { r with lt := o.lt }
    if r.gated then
      let (id, s) := fresh s
      let e := { mkElem 0 .global r.join none 4 with u := .b32, op := 0, data := 0xFFFF_FFFF#64 }
      let g : Op := { o with id, grid := r.grid, kind := .gate r fut, acq := false, rel := false, elems := [e] }
      { s with ops := s.ops ++ [g] }
    else fileOrDefer s o.core fut r

/-- The resolution of a future: its records are released in index order (R95). -/
def resolveFuture (s : State) (o : Op) (pa : Nat) : State :=
  let w := physRead s pa 8
  let b := blockOf s pa
  let s := l1Update (physWrite s pa 8 (futWord (w / 2 ^ 16) 0 2)) o.core pa (natToBytes 8 (futWord (w / 2 ^ 16) 0 2))
  let s := setBlock s { b with recs := [] }
  (b.recs.take (futCount w)).foldl (fun s r => releaseRec s o pa true r) s

/-- A registration at the home (R95): the result, and the state it leaves. -/
def registerFuture (s : State) (o : Op) (pa : Nat) (r : ThreadRec) : Nat × State :=
  let w := physRead s pa 8
  match futState w with
  | 3 => (3, s)
  | 2 => (1, releaseRec s o pa false r)
  | _ =>
    if Config.blockRecords ≤ futCount w then (2, s)
    else
      let v := futWord (w / 2 ^ 16) (futCount w + 1) 1
      let b := blockOf s pa
      let s := l1Update (physWrite s pa 8 v) o.core pa (natToBytes 8 v)
      let s := setBlock s { ctx := o.ctx, addr := pa, recs := b.recs.take (futCount w) ++ [r] }
      (0, updGrid s r.grid fun g => { g with orphans := g.orphans + 1 })

/-- The records that a COPY.F logs on a future it cannot resolve (08 R163). -/
def copyFRecord (s : State) (o : Op) (e : Elem) (w : Nat) : DriverRec :=
  { ctx := o.ctx, link := .log,
    body := if futState w = 2
      then opRecord s o.tmpl .futureDoubleResolve 3 o.tmpl.mask e.va (BitVec.ofNat 64 w)
      else opRecord s o.tmpl .operandIllegal 4 o.tmpl.mask o.tmpl.aux0 o.tmpl.aux1 }

/-- A future operation whose word lies in an uncorrectable granule is not performed, and is logged (10 R205). -/
def futureEcc (s : State) (o : Op) (k : Nat) (e : Elem) (b : Nat) : State :=
  let s := setElem (logEcc s o e b) o k { e with st := .done, bad := some b }
  match o.kind with
  | .copyF _ => loseReduction s o.grid
  | _ => s

/-- One request performed at its home. `res` of FRES: 0 resolved, 1 already resolved, 2 reserved state, with the word in
`data2`; of FREG: the result of R95. -/
def performHome (s : State) (o : Op) (k : Nat) (e : Elem) (pa : Nat) : State × List (Nat × Nat) :=
  match o.kind, (match o.kind with
    | .futRes | .futReg .. | .copyF _ => badGranule? s pa 8
    | _ => none) with
  | _, some b => (futureEcc s o k e b, [])
  | .futRes, none =>
    let w := physRead s pa 8
    let code := match futState w with
      | 2 => 1
      | 3 => 2
      | _ => 0
    let s := setElem s o k { e with st := .done, res := BitVec.ofNat 64 code, data2 := BitVec.ofNat 64 w }
    (if code = 0 then resolveFuture s o pa else s, [])
  | .futReg recs _, none =>
    match recs[k]? with
    | none => (s, [])
    | some r =>
      let (res, s) := registerFuture s o pa r
      (setElem s ((opOf s o.id).getD o) k { e with st := .done, res := BitVec.ofNat 64 res }, [])
  | .copyF _, none =>
    let w := physRead s pa 8
    let s := setElem s o k { e with st := .done }
    (if futState w < 2 then resolveFuture s o pa else report s (copyFRecord s o e w), [])
  | .gate r fut, none =>
    let (s, ks) := rmwElem s o k e pa
    (if e.bad.isNone && physRead s pa 4 == 0 && (badGranule? s pa 4).isNone then fileOrDefer s o.core fut r else s, ks)
  | _, none => rmwElem s o k e pa

/-- An operation with no element left leaves the list; a RED counts off as it does. ATOM, FREG and FRES stay until their
replies are taken. -/
def settleOp (s : State) (id : Nat) : State :=
  match opOf s id with
  | none => s
  | some o =>
    let counts := o.elems.all fun e => match e.st with
      | .pending | .held _ => false
      | _ => true
    let s := match o.kind with
      | .rmw _ none => if counts then countOff s o else s
      | _ => s
    match o.kind with
    | .rmw _ (some _) | .futReg .. | .futRes | .load .. | .ldl .. | .bind _ | .pref _ => s
    | _ => if o.performed then removeOp s id else s

/-- Whether a request is of those translated on the way to their home (08 R173). -/
def Op.lateTranslated (o : Op) : Bool :=
  match o.kind with
  | .rmw _ none | .dec _ | .fold | .copyF _ | .gate .. | .doneInc => true
  | _ => false

/-- The translation of a request on its way: by its core's TLB for those a core sends, by a walk for the others (log 15). -/
def translateLate (s : State) (o : Op) (c : Context) (e : Elem) : Except PageFault Nat × State :=
  match o.kind with
  | .rmw .. | .dec _ | .fold => translate s o.core c e.va .rmw o.sup
  | _ => walkAccess s c e.va .rmw o.sup

/-- Lanes of an ATOM on one element, and of an FREG on one future, take consecutive places (20 R294, 21 R341). -/
def Op.consecutive (o : Op) : Bool :=
  match o.kind with
  | .rmw _ (some _) | .futReg .. => true
  | _ => false

/-- The elements performed with element `k`: those not performed yet that name the same place, where lanes take
consecutive places. -/
def withElem (o : Op) (k : Nat) (e : Elem) : List Nat :=
  if o.consecutive then
    (List.range o.elems.length).filter fun j => j == k || (o.elems[j]?).any fun x => x.st == .pending && sameElem e x
  else [k]

/-- Element `k` performed, and the elements that go with it, in ascending order. -/
def performTogether (s : State) (o : Op) (k : Nat) (e : Elem) (pa : Nat) : State × List (Nat × Nat) :=
  (withElem o k e).foldl (fun r j =>
    match opOf r.1 o.id with
    | none => r
    | some o =>
      match o.elems[j]? with
      | none => r
      | some x => let q := performHome r.1 o j x pa; (q.1, r.2 ++ q.2)) (s, [])

/-- Element `k` of a request on its way: performed, or parked behind another or by its own fault. Elements go in ascending
order (08 R172). -/
def homeStep (s : State) (id k : Nat) : State × List (Nat × Nat) :=
  match opOf s id with
  | none => (s, [])
  | some o =>
    match o.elems[k]? with
    | none => (s, [])
    | some e =>
      if e.st != .pending || !elemReady s o e || (o.elems.take k).any (fun x => x.st == .pending) then (s, [])
      else if o.streamed s e then
        (settleOp (setElem (streamElem s o e) o k { e with st := .done }) id, [])
      else if !o.lateTranslated || e.space == .scratch then
        let (s, ks) := performTogether s o k e (e.pa.getD 0)
        (settleOp s id, ks)
      else if behindParked s o e then (settleOp (parkElem s o k e none) id, [])
      else
        match ctxOf s o.ctx with
        | none => (s, [])
        | some c =>
          match translateLate s o c e with
          | (.error f, s) => (settleOp (parkElem s o k e (some f)) id, [])
          | (.ok pa, s) =>
            let (s, ks) := performHome s o k e pa
            (settleOp s id, ks)

/-! ## Replay and dropping (08 R173, 13 R240) -/

/-- A parked element's place in parking order. -/
def Elem.seq (e : Elem) : Nat :=
  match e.st with
  | .parked n | .held n => n
  | _ => 0

/-- An earlier request that it parks behind is parked. -/
def earlierParked (s : State) (o : Op) (e : Elem) : Bool :=
  s.ops.any fun x => parksBehind o x && x.elems.any fun y =>
    y.isParked && y.page == e.page && decide (y.seq < e.seq)

/-- The parked elements of a page, in parking order: sequence, operation, element. -/
def parkedOn (s : State) (ctx page : Nat) : List (Nat × Op × Nat) :=
  sortLe (fun a b => decide (a.1 ≤ b.1)) (s.ops.flatMap fun o =>
    if o.ctx = ctx then (o.elems.zipIdx.filter fun x => x.1.isParked && x.1.page == page).map fun x => (x.1.seq, o, x.2) else [])

/-- The requests that a fault of a group on a page holds: the group's own, and those of others parked behind them, whichever
die's Sluice holds them (08 R173, 12 R233). In parking order: sequence, operation, element. -/
def parkedAt (s : State) (ctx gid page : Nat) : List (Nat × Nat × Nat) :=
  ((parkedOn s ctx page).foldl (fun (acc : List (Nat × Op × Nat)) x =>
    if x.2.1.gid = gid ∨ acc.any (fun y => parksBehind x.2.1 y.2.1) then acc ++ [x] else acc) []).map
    fun x => (x.1, x.2.1.id, x.2.2)

/-- One parked request translated afresh: performed, or parked again with a record; behind one that has parked again it stays
where it is. -/
def replayElem (acc : State × List (Nat × Nat)) (x : Nat × Nat × Nat) : State × List (Nat × Nat) :=
  let s := acc.1
  match opOf s x.2.1 with
  | none => acc
  | some o =>
    match o.elems[x.2.2]?, ctxOf s o.ctx with
    | some e, some c =>
      if earlierParked s o e then acc
      else match walkAccess s c e.va .rmw o.sup with
      | (.error f, s) => (report s (sluiceRecord s o e f), acc.2)
      | (.ok pa, s) =>
        let (s, ks) := performHome s o x.2.2 e pa
        (settleOp s o.id, acc.2 ++ ks)
    | _, _ => acc

/-- The requests parked behind a fault replay. They are global, and complete no phase of a barrier object. -/
def replayParked (s : State) (ctx gid page : Nat) : State :=
  ((parkedAt s ctx gid page).foldl replayElem (s, [])).1

/-- The requests parked behind a fault are dropped: their grids complete with REDUCTION_LOST (01 R31). -/
def dropParked (s : State) (ctx gid page : Nat) : State :=
  (parkedAt s ctx gid page).foldl (fun s x =>
    match opOf s x.2.1 with
    | none => s
    | some o =>
      match o.elems[x.2.2]? with
      | none => s
      | some e =>
        let s := loseReduction s o.grid
        settleOp (setElem s o x.2.2 { e with st := .done }) o.id) s

/-! ## Harvest (12 R233) -/

/-- A buffered request joins the operations in flight, after those applied before it; each of its elements is performed at
once or parks where nothing holds it, else when nothing does. -/
def applyBuffered (s : State) (b : Buffered) : State :=
  let (n, s) := fresh s
  let s := { s with ops := s.ops ++ [{ b.op with harvest := some n }] }
  (List.range b.op.elems.length).foldl (fun s k => (homeStep s b.op.id k).1) s

/-- Application order: global group index, then program order. -/
def bufferedLe (a b : Buffered) : Bool := decide (a.gindex < b.gindex) || (a.gindex == b.gindex && decide (a.order ≤ b.order))

/-- Whether a buffered request has a key less than `key`; every one does at grid end. -/
def Buffered.before (b : Buffered) (key : Option (Nat × Nat)) : Bool :=
  match key with
  | none => true
  | some (l, g) => decide (b.lt < l) || (b.lt == l && decide (b.gindex < g))

/-- A harvest of a grid with a key. -/
def harvestGrid (s : State) (grid : Nat) (key : Option (Nat × Nat)) : State :=
  match gridOf s grid with
  | none => s
  | some g =>
    let due := sortLe bufferedLe (g.buffered.filter (·.before key))
    due.foldl applyBuffered (setGrid s { g with buffered := g.buffered.filter fun b => !b.before key })

/-- A request that a harvest applied for a key less than `key` is neither performed nor dropped (09 R189, 21 R316). -/
def harvestOut (s : State) (grid : Nat) (key : Nat × Nat) : Bool :=
  s.ops.any fun o => !o.performed && o.grid == grid && o.harvest.isSome &&
    (decide (o.lt < key.1) || (o.lt == key.1 && decide (o.gindex < key.2)))

/-- The resident splits of a grid whose .DEV phase is complete, with what they wait for: group, split, the phase's harvest. -/
def phasesDue (s : State) (grid : Nat) : List (Nat × Nat × PhaseDue) :=
  (s.groups.filter fun g => g.grid == grid && g.place == .resident).flatMap fun g =>
    g.splits.filterMap fun p => match p.state with
      | .waitPhase _ _ (some d) => some (g.gid, p.sid, d)
      | _ => none

/-- Those whose harvest is wholly performed or dropped go on (09 R189). -/
def wakeHarvested (s : State) (grid : Nat) : State :=
  (phasesDue s grid).foldl (fun s x => if harvestOut s grid x.2.2.key then s else goOnPhase s x.1 x.2.1 x.2.2.lt true) s

/-- The harvests that phase completions of a reproducible grid's team bring (08 R170), and the waiters that go on once a harvest
is performed. -/
def harvestKeys (s : State) (grid : Nat) (ks : List (Nat × Nat)) : State :=
  if gridRepro s grid then wakeHarvested (ks.foldl (fun s k => harvestGrid s grid (some k)) s) grid else s

/-- In every grid, the waiters whose harvest is over go on. -/
def wakeAll (s : State) : State := s.grids.foldl (fun s g => harvestKeys s g.uid []) s

/-- What a home or scratchpad step leaves, with the harvests it brings. -/
def settleKeys (grid : Nat) (r : State × List (Nat × Nat)) : State := harvestKeys r.1 grid r.2

end Sys2Proof.Machine
end

