-- ==== Sys2Proof/Machine/LoadStore.lean ====
section
/-!
DEFINITION. Loads and stores: LD and LDS (22 R353 to R356), ST and STS (23 R384 to R386), PREF (R389), CCTL (20 R304,
R305), FENCE (21 R334, R335).
-/
namespace Sys2Proof.Machine

/-- Bytes of an element (14 R263). -/
def widthBytes : Width → Nat
  | .b8 | .s8 => 1
  | .b16 | .s16 => 2
  | .b32 => 4
  | .b64 => 8

/-- A trap of an instruction that acts once: the mask is the split's members (11 R210), each with the fault of the one
access. -/
def onceTrap (u : Iss) (e : Eff) : Eff :=
  match e with
  | .trap s t =>
    .trap s { t with mask := u.p.members, faults := match t.faults with
      | [] => []
      | f :: _ => u.p.members.toList.map fun l => (l, f.2) }
  | e => e

/-- Where each lane accesses: its lane, virtual address or offset, physical address. -/
abbrev LanePlace := Nat × DWord × Option Nat

/-- Offsets of a .ROW or .COL run (05 R114): its first offset, step and number of words. -/
structure Run where
  first : DWord
  step : Nat
  words : Nat

/-- The run of a shaped access; `col`: .COL. -/
def shapeRun (u : Iss) (f : MFmt) (col : Bool) : Run :=
  { first := effAddr u f 0, step := if col then 256 else 4, words := if u.g.narrow then 32 else 64 }

/-- The checks of a run: alignment, then the allocation, then handed granules; none depends on the lane. -/
def runTrap (u : Iss) (r : Run) (align : Nat) : Option Eff :=
  let t := teamOfIss u
  let a := r.first.toNat
  let lim := spadLimit t
  if a % align ≠ 0 then some (trapAll u .misaligned a 0)
  else if lim < a + r.step * (r.words - 1) + 4 then some (trapAll u .scratchpadRange a (allocSize u.s t))
  else if (List.range r.words).any fun k => handedAway u.s t.tid (a + r.step * k) 4 then
    some (trapAll u .handleInvalid a 0)
  else none

/-- Places of the active lanes in a run. -/
def runPlaces (r : Run) (lanes : List Nat) : List LanePlace :=
  lanes.map fun l => (l, BitVec.ofNat 64 ((r.first.toNat + r.step * l) % 2 ^ 32), none)

/-- Shape bits of LDS and STS: 0 per lane, 1 .ROW, 2 .COL. -/
def shapeOf (m : BitVec 7) : Nat := bits m 0 2

/-- Operand kinds of an address for a .ROW or .COL: a scalar base, and a scalar or ZERO index. -/
def shapeAddrOk (f : MFmt) : Bool := sOk false f.a && (f.b == .zero || sOk false f.b)

/-- The places of the lanes of an access, or its trap. -/
def placesOf (u : Iss) (f : MFmt) (a : Access) (shape size : Nat) (once : Bool) (lanes : List Nat) :
    Except Eff (State × List LanePlace) :=
  if shape = 0 then
    match accessLanes u (spaceOf f.space) a lanes (effAddr u f) size size with
    | .error e => .error (if once then onceTrap u e else e)
    | .ok r => .ok r
  else
    let r := shapeRun u f (shape == 2)
    match runTrap u r (if shape = 1 then 256 else 4) with
    | some e => .error e
    | none => .ok (u.s, runPlaces r lanes)

/-- The scope at which an LD or ST acts (22 R355): a plain access at none wider than its group, a private one at GRP. -/
def semScopeOf (f : MFmt) : Scope :=
  if bits f.mod 4 2 = 0 then .grp else spaceScope f.space f.h.rm

/-- Lanes whose global addresses lie in a fabric window make the instruction illegal (13 R241). -/
def fabricIllegal (u : Iss) (f : MFmt) (lanes : List Nat) : Bool :=
  fabricAddr u (spaceOf f.space) lanes (effAddr u f)

/-- LD and LDS (R354). -/
def loadBody (u : Iss) (w : Width) (f : MFmt) (shape : Nat) (spaces : List (BitVec 4)) : Eff :=
  let scal := isScalar f.d
  let legal := spaces.contains f.space && f.d != .zero && dstOk u.g (w == .b64) f.d && addrOk u.g (!scal) f &&
    !(scal && guardIsVector f.h.guard) &&
    (shape == 0 || (shapeAddrOk f && w == .b32 && (match f.d with
      | .v _ => true
      | _ => false)))
  let lanes := if scal then (if scalarGuard u.g f.h.guard then [(u.p.members.lowest).getD 0] else [])
    else (active u).toList
  if !legal || fabricIllegal u f lanes then operandIllegal u
  else match placesOf u f .load shape (widthBytes w) scal lanes with
  | .error e => e
  | .ok (s, ps) =>
    if lanes.isEmpty then .done s
    else if engFull u .c0 then .wait u.s
    else
      let acq := bits f.mod 4 2 == 2 && shape == 0 && f.space != 1#4
      .done (addOp u s (.load w f.d) acq false (semScopeOf f) (some .c0)
        (ps.map fun p => mkElem p.1 (spaceOf f.space) p.2.1 p.2.2 (widthBytes w)))

def execLd (w : Width) (f : MFmt) (s : State) : Host.Outcome State Fault Refusal :=
  runInstr (.ld w f) (fun u => loadBody u w f 0 [0#4, 2#4]) s

def execLds (w : Width) (f : MFmt) (s : State) : Host.Outcome State Fault Refusal :=
  runInstr (.lds w f) (fun u => loadBody u w f (shapeOf f.mod) [1#4]) s

/-! ## Stores -/

/-- The elements of a store: of the lanes that write one element, the highest alone writes (09 R176). -/
def lastWriters (es : List Elem) : List Elem :=
  es.filter fun e => !(es.any fun x => decide (e.lane < x.lane) && sameElem e x)

/-- ST and STS (R385). -/
def storeBody (u : Iss) (w : Width) (f : MFmt) (shape : Nat) (spaces : List (BitVec 4)) : Eff :=
  let wide := w == .b64
  let dataOk := match f.c with
    | .imm => !wide && shape == 0
    | .zero => true
    | .l _ | .bad _ => false
    | .o n => !wide && decide (n.val < 8)
    | c => vsOk u.g wide c
  let legal := spaces.contains f.space && f.d == .zero && dataOk && addrOk u.g true f &&
    (shape == 0 || (shapeAddrOk f && w == .b32))
  let lanes := (active u).toList
  if !legal || fabricIllegal u f lanes then operandIllegal u
  else match placesOf u f .store shape (widthBytes w) false lanes with
  | .error e => e
  | .ok (s, ps) =>
    if lanes.isEmpty then .done s
    else
    let value (l : Nat) : Nat := readNat u (f.disp.zeroExtend 64) wide f.c l % 256 ^ widthBytes w
    let es := lastWriters (ps.map fun p =>
      { mkElem p.1 (spaceOf f.space) p.2.1 p.2.2 (widthBytes w) with data := BitVec.ofNat 64 (value p.1) })
    if engFull u .c0 || (f.space != 1#4 && pathHeld u.s u.g.core) then .wait u.s
    else
      let rel := bits f.mod 4 2 == 2 && f.space != 1#4
      .done (addOp u s .store false rel (semScopeOf f) (some .c0) es)

def execSt (w : Width) (f : MFmt) (s : State) : Host.Outcome State Fault Refusal :=
  runInstr (.st w f) (fun u => storeBody u w f 0 [0#4, 2#4]) s

def execSts (w : Width) (f : MFmt) (s : State) : Host.Outcome State Fault Refusal :=
  runInstr (.sts w f) (fun u => storeBody u w f (shapeOf f.mod) [1#4]) s

/-! ## PREF, CCTL, FENCE -/

/-- The lines that PREF's lanes name and can reach, with the state the walks leave: a walk that would fault is not
performed (R389). -/
def prefLines (u : Iss) (f : MFmt) (lanes : List Nat) : State × List LanePlace :=
  lanes.foldl (fun acc l =>
    let sp := spaceOf f.space
    let ea := effAddr u f l
    if (sp == .global && inFabric u.ctx ea) || (sp == .priv && decide (u.ctx.highWater * 0x1_0000 ≤ ea.toNat)) then acc
    else
      let va := BitVec.ofNat 64 ((accessVA u sp ea).toNat / 128 * 128)
      if acc.2.any (fun p => p.2.1 == va) then acc
      else match translate acc.1 u.g.core u.ctx va .load u.g.inHandler with
      | (.ok pa, s) => (s, acc.2 ++ [(l, va, some pa)])
      | (.error _, _) => acc) (u.s, [])

def execPref (f : MFmt) (s : State) : Host.Outcome State Fault Refusal :=
  runInstr (.pref f) (fun u =>
    if f.d != .zero || f.space == 1#4 || !addrOk u.g true f then operandIllegal u
    else
      let lanes := (active u).toList
      if lanes.isEmpty then .done u.s
      else if engFull u .c0 then .wait u.s
      else
        let (s, ps) := prefLines u f lanes
        if ps.isEmpty then .done s
        else .done (addOp u s (.pref (!f.mod.getLsbD 0)) false false .grp (some .c0)
          (ps.map fun p => mkElem p.1 (spaceOf f.space) p.2.1 p.2.2 128))) s

/-- CCTL's length operand. -/
def cctlLen (u : Iss) (f : MFmt) : Nat := readNat u (f.disp.zeroExtend 64) false f.c 0

/-- CCTL (20 R305): lines of the range, by context and virtual line (R304). The split's next instruction is fetched afresh. -/
def cctlApply (u : Iss) (op a n : Nat) : State :=
  let c := coreOf u.s u.g.core
  let inRange (line : Nat) : Bool := decide (lineOf a ≤ line) && decide (line ≤ lineOf (a + n - 1))
  let hits (ctx line : Nat) : Bool := ctx == u.g.ctx && inRange line
  let s := setCore u.s u.g.core
    (if op = 0 then { c with icache := c.icache.filter fun x => !hits x.ctx x.vline,
                             fbuf := c.fbuf.filter fun x => !hits x.ctx (lineOf x.va) }
     else { c with l1 := c.l1.filter fun x => !hits x.ctx x.vline })
  updSplit s u.g.gid u.p.sid fun p => { p with refetch := true }

/-- Writes of the split that its core's fetches do not see yet: .IFLUSH waits for them, so that what is fetched after it is
what the split wrote (09 R191; log 57). -/
def writesUnseen (u : Iss) : Bool :=
  u.s.ops.any fun o => (o.agent == u.p.agent || u.p.before.contains o.agent) && !o.settledFor false && (match o.kind with
    | .store | .rmw .. => o.elems.any fun e => e.space != .scratch && !e.isParked
    | _ => false)

def execCctl (f : MFmt) (s : State) : Host.Outcome State Fault Refusal :=
  runInstr (.cctl f) (fun u =>
    if f.d != .zero || f.space != 0#4 || !addrOk u.g false f || !siOk f.c || guardIsVector f.h.guard then operandIllegal u
    else if !scalarGuard u.g f.h.guard then .done u.s
    else
      let n := cctlLen u f
      let a := effAddr u f 0
      if 0x10_0000 < n then operandIllegal u
      else if n = 0 then .done u.s
      else if 2 ^ 57 < a.toNat + n ∨ inFabric u.ctx a ∨ inFabric u.ctx (a + BitVec.ofNat 64 (n - 1)) then operandIllegal u
      else if bits f.mod 0 2 = 0 && writesUnseen u then .wait u.s
      else .done (cctlApply u (bits f.mod 0 2) a.toNat n)) s

/-- FENCE (21 R335): .ACQ and .AR wait for what they order and discard the L1; .REL marks the agent's order. A release at
DEV scope covers what its core alone has seen (09 R178). -/
def fenceBody (u : Iss) (kind : Nat) (sc : Scope) : Eff :=
  if kind = 1 then
    if splitOutstanding u.s u.p true then .wait u.s
    else .done (if scopeWide sc then acquireDev u.s u.g.core else u.s)
  else if groupParked u.s u.g.gid || gatesOut u.s u.g.gid || (scopeWide sc && coreSeen u.s u.g.core u.s.nextId && kind = 2) then
    .wait u.s
  else if kind = 2 then
    let (id, s) := fresh u.s
    .done (dropFences { s with fences := s.fences ++
      [{ id, gid := u.g.gid, agent := u.p.agent, before := u.p.before, wide := scopeWide sc }] })
  else if !released u (scopeWide sc) then .wait u.s
  else .done (if scopeWide sc then acquireDev u.s u.g.core else u.s)

def execFence (f : KFmt) (s : State) : Host.Outcome State Fault Refusal :=
  runInstr (.fence f) (fun u =>
    if guardIsVector f.h.guard then operandIllegal u
    else if !scalarGuard u.g f.h.guard then .done u.s
    else fenceBody u (bits f.mod 0 2) (scopeOf f.h.rm)) s

end Sys2Proof.Machine
end

