-- ==== Sys2Proof/Machine/Atomics.lean ====
section
/-!
DEFINITION. ATOM (20 R293 to R295), RED (23 R387, R388), CENSUS (20 R306, R307), DFLUSH (21 R316, R317).
-/
namespace Sys2Proof.Machine

/-- Bytes of an atomic's element. -/
def atomBytes (u : EltTy) : Nat := u.width / 8

/-- The operand C of an atomic (20 R293): a vector register or pair, a scalar or pair, IMM for 32-bit types; for CAS, a
vector run. -/
def atomDataOk (g : Group) (u : EltTy) (op : Nat) (c : Opnd) : Bool :=
  let wide := u.width == 64
  if op = 7 then
    match c with
    | .v n => if wide then vecPairOk g n.val && decide (n.val + 3 < g.vregs.length) else decide (n.val + 1 < g.vregs.length)
    | _ => false
  else match c with
  | .imm => !wide
  | c => vsOk g wide c

/-- The element of a lane's read-modify-write. -/
def atomElem (x : Iss) (u : EltTy) (f : MFmt) (p : LanePlace) : Elem :=
  let wide := u.width == 64
  let op := bits f.mod 0 4
  { mkElem p.1 (spaceOf f.space) p.2.1 p.2.2 (atomBytes u) with
    u, op, data := BitVec.ofNat 64 (readNat x (f.disp.zeroExtend 64) wide f.c p.1),
    data2 := if op = 7 then BitVec.ofNat 64 (readNat x 0#64 wide (opPlus f.c (u.width / 32)) p.1) else 0#64 }

/-- Operand kinds common to ATOM and RED. -/
def atomicLegal (x : Iss) (u : EltTy) (f : MFmt) : Bool :=
  addrOk x.g true f && decide (f.space.toNat ≤ 2) && atomDataOk x.g u (bits f.mod 0 4) f.c

def execAtom (u : EltTy) (f : MFmt) (s : State) : Host.Outcome State Fault Refusal :=
  runInstr (.atom u f) (fun x =>
    let dOk := f.d == .zero || (match f.d with
      | .v n => if u.width = 64 then vecPairOk x.g n.val else vecOk x.g n.val
      | _ => false)
    let lanes := (active x).toList
    if !(dOk && atomicLegal x u f) || fabricIllegal x f lanes || streams x.g (spaceOf f.space) then operandIllegal x
    else if lanes.isEmpty then .done x.s
    else match accessLanes x (spaceOf f.space) .rmw lanes (effAddr x f) (atomBytes u) (atomBytes u) with
    | .error e => e
    | .ok (s, ps) =>
      if engFull x .c0 then .wait x.s
      else
        let sem := bits f.mod 4 2
        .done (addOp x s (.rmw u (some f.d)) (sem == 1 || sem == 3) (decide (2 ≤ sem)) (spaceScope f.space f.h.rm) (some .c0)
          (ps.map (atomElem x u f)))) s

/-- A request that a reproducible grid buffers for harvest (12 R233); C0 counts a RED and counts it off (log 56). -/
def bufferOp (x : Iss) (kind : OpKind) (rel : Bool) (sc : Scope) (es : List Elem) : State :=
  let (o, s) := mkOp x x.s kind false rel sc es
  let s := match kind with
    | .rmw .. => updGroup s x.g.gid fun g => engTick g .c0 o.id
    | _ => s
  updGrid s x.g.grid fun g =>
    { g with buffered := g.buffered ++ [{ lt := x.g.lt, gindex := x.g.gindex, order := o.id, op := o }] }

def execRed (u : EltTy) (f : MFmt) (s : State) : Host.Outcome State Fault Refusal :=
  runInstr (.red u f) (fun x =>
    let lanes := (active x).toList
    let sp := spaceOf f.space
    if !(f.d == .zero && atomicLegal x u f) || fabricIllegal x f lanes then operandIllegal x
    else if lanes.isEmpty then .done x.s
    else match addrTrap x sp lanes (effAddr x f) (atomBytes u) (atomBytes u) with
    | some e => e
    | none =>
      let es := lanes.map fun l => atomElem x u f (l, accessVA x sp (effAddr x f l), none)
      let rel := bits f.mod 4 2 == 2
      let sc := spaceScope f.space f.h.rm
      if engFull x .c0 then .wait x.s
      else if x.g.repro && sp != .scratch && !streams x.g sp then .done (bufferOp x (.rmw u none) rel sc es)
      else if pathHeld x.s x.g.core && !streams x.g sp then .wait x.s
      else .done (addOp x x.s (.rmw u none) false rel sc (some .c0) es)) s

/-! ## The census (06 R133, R134) -/

/-- The element type of CENSUS and its positions. -/
def cenCvt : CenTy → CvtTy
  | .f32 => .f32 | .f16x2 => .f16 | .bf16x2 => .bf16 | .e4m3x4 => .e4m3 | .e5m2x4 => .e5m2 | .e2m1x8 => .e2m1

/-- The exponent an element counts at; none for a zero, an infinity or a NaN. -/
def cenExp (v : FVal) : Option Int := finExp v

/-- The bucket of an element (R133). -/
def cenBucket (b0 : Int) (v : FVal) : Nat :=
  match v with
  | .nan .. | .inf _ => 63
  | v =>
    match cenExp v with
    | none => 0
    | some e => if e < b0 then 1 else if b0 + 61 ≤ e then 62 else (e - b0 + 1).toNat

/-- The reductions of a fold: one for each word changed (R134). `lane` is the lane they are recorded under. -/
def foldElems (space : Space) (block : DWord) (lane : Nat) (t : CvtTy) (b0 : Int) (codes : List Nat) : List Elem :=
  let vs := codes.map fun c => cvtVal t false c
  let word (off : Nat) (u : EltTy) (op v : Nat) : Elem :=
    { mkElem lane space (block + BitVec.ofNat 64 off) none 4 with u, op, data := BitVec.ofNat 64 v }
  let counts := (List.range 64).filterMap fun k =>
    let n := (vs.filter fun v => cenBucket b0 v == k).length
    if n = 0 then none else some (word (4 * k) .b32 11 n)
  let es := vs.filterMap cenExp
  let ends := match es.min?, es.max? with
    | some lo, some hi => [word 0x100 .s32 1 (wrapInt 32 lo), word 0x104 .s32 2 (wrapInt 32 hi)]
    | _, _ => []
  counts ++ ends

/-- Every element of CENSUS's active lanes. -/
def cenCodes (x : Iss) (e : CenTy) (b : Opnd) (lanes : List Nat) : List Nat :=
  lanes.flatMap fun l =>
    (List.range (32 / (cenCvt e).width)).map fun p => elemAt (cenCvt e) (readNat x 0#64 false b l) p

def execCensus (e : CenTy) (f : RFmt) (s : State) : Host.Outcome State Fault Refusal :=
  runInstr (.census e f) (fun x =>
    let bOk := match f.b with
      | .v n => vecOk x.g n.val
      | .o _ => true
      | _ => false
    let b0 := (BitVec.ofNat 32 (readNat x (f.imm.zeroExtend 64) false f.c 0)).toInt
    let block := readPair x f.a 0
    if !(f.d == .zero && sOk true f.a && bOk && siOk f.c && decide (-160 ≤ b0) && decide (b0 ≤ 127)) ||
      fabricRun x.ctx block 0x108
    then operandIllegal x
    else if active x == 0#64 then .done x.s
    else if block.toNat % 8 ≠ 0 then trapAll x .misaligned block.toNat 0
    else
      let lanes := (active x).toList
      let es := foldElems .global block (lanes.headD 0) (cenCvt e) b0 (cenCodes x e f.b lanes)
      if es.isEmpty then .done x.s
      else if x.g.repro && !streams x.g .global then .done (bufferOp x .fold false .dev es)
      else if pathHeld x.s x.g.core && !streams x.g .global then .wait x.s
      else .done (addOp x x.s .fold false false .dev none es)) s

/-! ## DFLUSH (21 R316) -/

/-- A request that DFLUSH waits for: a RED, a JDEC or a fold. -/
def flushes (o : Op) : Bool :=
  match o.kind with
  | .rmw _ none | .fold => true
  | .dec exit => !exit
  | _ => false

/-- Requests that DFLUSH waits for: those of the group, or in a reproducible grid those of the grid that a harvest with the
group's key has applied. -/
def flushPending (s : State) (g : Group) : Bool :=
  if g.repro then harvestOut s g.grid (g.lt, g.gindex)
  else s.ops.any fun o => !o.performed && flushes o && o.gid == g.gid

/-- The buffered requests of a team's own reductions are left out in a checked team (R317); it has none buffered for
global memory. -/
def dflushHarvest (x : Iss) : State := harvestGrid x.s x.g.grid (some (x.g.lt, x.g.gindex))

/-- What DFLUSH waits for happens before the later accesses of its split: the core's lines, which may be older, are discarded
(R317). -/
def flushed (x : Iss) (s : State) : Eff := if flushPending s x.g then .wait s else .done (acquireDev s x.g.core)

def execDflush (f : KFmt) (s : State) : Host.Outcome State Fault Refusal :=
  runInstr (.dflush f) (fun x =>
    if guardIsVector f.h.guard then operandIllegal x
    else if !scalarGuard x.g f.h.guard then .done x.s
    else flushed x (if x.g.repro then dflushHarvest x else x.s)) s

end Sys2Proof.Machine
end

