-- ==== Sys2Proof/Machine/MapSlots.lean ====
section
/-!
DEFINITION. Map slots and the latent stage: MAPRES (07 R139, 22 R365), MAPBIND (R140, R141, R366), MAPWR (R142, R367),
MAPRD (R143, R368), MAPREL (R144, R369), MACC (R150, R151, R362), LDL (R156, R157, R357).
-/
namespace Sys2Proof.Machine

/-! ## MAPRES -/

/-- Physical slots of a quarter that no resident group reserves. -/
def freeSlots (s : State) (core quarter : Nat) : List Nat :=
  (List.range Config.mapSlotsPerQuarter).filter fun n =>
    !(s.groups.any fun g => g.core == core && g.quarter == quarter && g.place == .resident && g.phys.any (·.num == n))

/-- A physical slot as it is reserved. Nothing reads it before a bind. -/
def PhysSlot.new (n : Nat) : PhysSlot := { num := n, elems := List.replicate 4096 0#16, scales := List.replicate 128 0x7F#8 }

/-- Physical slots that logical slots hold. -/
def heldSlots (g : Group) : List Nat := (g.slots.filter fun x => x.st != .unbound).map Slot.phys

/-- The reservation raised by the lowest free slots of the quarter. -/
def reserveMore (s : State) (g : Group) (k : Nat) : Group :=
  { g with phys := g.phys ++ ((freeSlots s g.core g.quarter).take k).map PhysSlot.new }

/-- The reservation lowered by `k` slots that no logical slot holds, the highest first. -/
def reserveLess (g : Group) (k : Nat) : Group :=
  let idle := (g.phys.map PhysSlot.num).filter fun n => !(heldSlots g).contains n
  let gone := idle.drop (idle.length - k)
  { g with phys := g.phys.filter fun x => !gone.contains x.num }

/-- The end of MAPRES: its result in d. -/
def mapresDone (u : Iss) (g : Group) (d : Opnd) (ok : Nat) : Eff := .done (setGroup u.s (writeScalarNat g false d ok))

/-- MAPRES of n slots (R139). In a reproducible grid (12 R234) a rise over a reservation held is illegal, and a rise
that finds too few free slots waits for its grant. -/
def mapresBody (u : Iss) (d : Opnd) (n : Nat) : Eff :=
  let have_ := u.g.phys.length
  if 12 < n then operandIllegal u
  else if n ≤ have_ then
    if n < (heldSlots u.g).length then operandIllegal u else mapresDone u (reserveLess u.g (have_ - n)) d 1
  else if u.g.repro && decide (0 < have_) then operandIllegal u
  else if n - have_ ≤ (freeSlots u.s u.g.core u.g.quarter).length then
    mapresDone u (reserveMore u.s { u.g with mapresWait := none } (n - have_)) d 1
  else if u.g.repro then .wait (setGroup u.s { u.g with mapresWait := some (u.p.sid, u.i, n - have_) })
  else mapresDone u u.g d 0

def execMapres (f : RFmt) (s : State) : Host.Outcome State Fault Refusal :=
  runInstr (.mapres f) (fun u =>
    if guardIsVector f.h.guard || !(f.d == .zero || sOk false f.d) || !siOk f.a then operandIllegal u
    else if !scalarGuard u.g f.h.guard then .done u.s
    else mapresBody u f.d (readNat u (f.imm.zeroExtend 64) false f.a 0)) s

/-! ## Reading a run of bytes in 8-byte pieces (R141) -/

/-- Address and size of the pieces of `n` bytes at `a`, cut at multiples of 8. -/
def piecesOf (a n : Nat) : List (Nat × Nat) :=
  (List.range ((a + n - 1) / 8 + 1 - a / 8)).map fun k =>
    let lo := max a (8 * (a / 8 + k))
    (lo, min (a + n) (8 * (a / 8 + k) + 8) - lo)

/-- Every page of `n` bytes at a global address translated (R140, R357): a trap of the split, or the state and the
physical address of each page. -/
def translateRun (u : Iss) (acc : Access) (a : DWord) (n : Nat) : Except Eff (State × List (Nat × Nat)) :=
  let p0 := a.toNat / 0x1_0000
  let count := (a.toNat + n - 1) / 0x1_0000 + 1 - p0
  let va (k : Nat) : DWord := if k = 0 then a else BitVec.ofNat 64 ((p0 + k) * 0x1_0000)
  let (s, pas, fs) := translateLanes u.s u acc (List.range count) va
  if fs.isEmpty then .ok (s, pas.map fun x => (p0 + x.1, x.2 / 0x1_0000 * 0x1_0000))
  else .error (onceTrap u (pageTrap s fs))

/-- The elements that read a run: piece `k` under lane `k` mod 64. -/
def pieceElems (sp : Space) (a n : Nat) (pages : List (Nat × Nat)) : List Elem :=
  (piecesOf a n).zipIdx.map fun x =>
    let va := x.1.1
    let pa := ((pages.find? (·.1 == va / 0x1_0000)).map fun p => p.2 + va % 0x1_0000)
    mkElem (x.2 % 64) sp (BitVec.ofNat 64 va) pa x.1.2

/-- The bytes that the pieces of a run have read. -/
def pieceBytes (es : List Elem) : List Byte := es.flatMap fun e => natToBytes e.size e.res.toNat

/-! ## MAPBIND -/

/-- Element j of a row's bytes (R136). -/
def rowElem (sf : Nat) (row : List Byte) (j : Nat) : BitVec 16 :=
  let b (k : Nat) : Nat := (row.getD k 0#8).toNat
  if sf ≤ 1 then BitVec.ofNat 16 (b (2 * j) + 256 * b (2 * j + 1))
  else if sf = 4 then BitVec.ofNat 16 (b (j / 2) / 16 ^ (j % 2) % 16)
  else BitVec.ofNat 16 (b j)

/-- The 64 x 64 elements by row, or transposed. -/
def gridOfElems (tb : Bool) (f : Nat → Nat → BitVec 16) : List (BitVec 16) :=
  (List.range 4096).map fun k => if tb then f (k % 64) (k / 64) else f (k / 64) (k % 64)

/-- Elements and scales of an image (R136). -/
def imageOf (sf : Nat) (tb : Bool) (bs : List Byte) : List (BitVec 16) × List Byte :=
  let rb := sfmtRowBytes sf
  let rows := (List.range 64).map fun i => (bs.drop (i * rb)).take rb
  (gridOfElems tb fun i j => rowElem sf (rows.getD i []) j,
   if sfmtScaled sf then (bs.drop (64 * rb)).take 128 else List.replicate 128 0x7F#8)

/-- A group with logical slot k replaced. -/
def setSlot (g : Group) (k : Nat) (x : Slot) : Group := { g with slots := g.slots.set (k - 1) x }

/-- A group with the contents of a physical slot replaced. -/
def setPhys (g : Group) (n : Nat) (c : List (BitVec 16) × List Byte) : Group :=
  { g with phys := g.phys.map fun p => if p.num = n then { p with elems := c.1, scales := c.2 } else p }

/-- The physical slot a bind of a logical slot takes (R140). -/
def bindPhys (g : Group) (x : Slot) : Option Nat :=
  if x.st = .unbound then
    ((sortLe (fun a b => decide (a ≤ b)) (g.phys.map PhysSlot.num)).filter fun n => !(heldSlots g).contains n).head?
  else some x.phys

/-- Fields of MOD: SFMT, T, RELOAD or RAW. -/
def modSfmt (m : BitVec 7) : Nat := bits m 0 3
def modT (m : BitVec 7) : Bool := m.getLsbD 3
def modTop (m : BitVec 7) : Bool := m.getLsbD 4

/-- The trap of an image error left on a slot, taken by the first instruction that names it (R141). -/
def slotBadTrap (u : Iss) (k : Nat) (x : Slot) : Option Eff :=
  x.bad.map fun b =>
    .trap (setGroup u.s (setSlot u.g k { x with bad := none }))
      { cause := .memoryUncorrectable, mask := u.p.members, aux0 := b.1, aux1 := BitVec.ofNat 64 b.2 }

/-- Operand kinds of MAPBIND (R138, R140, R366). -/
def bindLegal (g : Group) (f : MFmt) : Bool :=
  let zero := f.a == .zero
  (if zero then f.b == .zero && f.space == 0#4 && f.disp == 0#32 && !modTop f.mod
   else decide (f.space.toNat ≤ 1) && addrOk g false f) &&
  !(modT f.mod && sfmtScaled (modSfmt f.mod)) && !guardIsVector f.h.guard

/-- The image's checks (R140, R366): the elements that read it. -/
def bindElems (u : Iss) (f : MFmt) : Except Eff (State × List Elem) :=
  let a := effAddr u f 0
  let n := sfmtImage (modSfmt f.mod)
  let t := teamOfIss u
  if a.toNat % 256 ≠ 0 then .error (trapAll u .misaligned a.toNat 0)
  else if f.space = 0#4 then
    (translateRun u .bind a n).map fun r => (r.1, pieceElems .global a.toNat n r.2)
  else if spadLimit t < a.toNat + n then .error (trapAll u .scratchpadRange a.toNat (allocSize u.s t))
  else if handedAway u.s t.tid a.toNat n then .error (trapAll u .handleInvalid a.toNat 0)
  else .ok (u.s, pieceElems .scratch a.toNat n [])

/-- The slot as a bind leaves it. -/
def bindSlot (f : MFmt) (n : Nat) (st : SlotState) (src : DWord) : Slot :=
  { st, phys := n, sfmt := modSfmt f.mod, src, space := spaceOf f.space, tbind := modT f.mod, reload := modTop f.mod,
    bad := none, rebind := false }

def execMapbind (f : MFmt) (s : State) : Host.Outcome State Fault Refusal :=
  runInstr (.mapbind f) (fun u =>
    let k := f.ma.toNat
    let fab := f.space = 0#4 ∧ fabricRun u.ctx (effAddr u f 0) (sfmtImage (modSfmt f.mod)) = true
    match bindLegal u.g f, slotOf u.g k with
    | true, some x =>
      if !scalarGuard u.g f.h.guard then .done u.s
      else if f.a ≠ .zero ∧ fab then operandIllegal u
      else match slotBadTrap u k x, bindPhys u.g x with
      | some e, _ => e
      | none, none => operandIllegal u
      | none, some n =>
        if x.st = .binding then .wait u.s
        else if f.a = .zero then
          .done (setGroup u.s (setPhys (setSlot u.g k (bindSlot f n .bound 0#64)) n
            (List.replicate 4096 0#16, List.replicate 128 0x7F#8)))
        else match bindElems u f with
        | .error e => e
        | .ok (s, es) =>
          if engFull u .c2 then .wait u.s
          else
            let s := updGroup s u.g.gid fun g => setSlot g k (bindSlot f n .binding (effAddr u f 0))
            .done (addOp u s (.bind k) false false .grp (some .c2) es)
    | _, _ => operandIllegal u) s

/-! ## MAPWR, MAPRD, MAPREL -/

/-- The format check of an instruction that names a slot and its format (11 R400). -/
def sfmtTrap (u : Iss) (k sf : Nat) (raw : Bool) : Option Eff :=
  match slotTrap u k, slotOf u.g k with
  | some e, _ => some e
  | none, some x =>
    if x.sfmt = sf then none
    else some (.trap u.s { cause := .mapFormat, mask := u.p.members, slot := k, aux0 := BitVec.ofNat 64 x.sfmt,
                           aux1 := BitVec.ofNat 64 (2 ^ 16 + sf + 2 ^ 17 * bitOf raw) })
  | none, none => some (operandIllegal u)

/-- Lane j's element of MAPWR (R142): converted from F32, or the raw bits. -/
def mapwrLane (E : REnv) (sf : Nat) (raw : Bool) (x : Nat) (L : Lane) : Nat × Lane :=
  if raw then (x % 2 ^ (sfmtCvt sf).width, L)
  else roundLane E (fun c => convertF32 (sfmtCvt sf) E.ftz c x) L
where
  convertF32 (t : CvtTy) (ftz : Bool) (c : RCtx) (x : Nat) : Rounded :=
    match cvtFmt t with
    | some F => toFloat F c (cvtVal .f32 ftz x)
    | none => toInteger (cvtSignedS8 t) t.width c (cvtVal .f32 ftz x)
  cvtSignedS8 : CvtTy → Bool
    | .s8 => true
    | _ => false

/-- A slot's contents with row `c`, or column `c`, written in the lanes of `out`. -/
def writeRow (p : PhysSlot) (t : Bool) (c : Nat) (out : List (Nat × Nat)) : PhysSlot :=
  { p with elems := out.foldl (fun es x =>
      es.set (if t then 64 * x.1 + c else 64 * c + x.1) (BitVec.ofNat 16 x.2)) p.elems }

/-- Scales of row `c` written. -/
def writeScales (p : PhysSlot) (c : Nat) (b : Word) : PhysSlot :=
  { p with scales := (p.scales.set (2 * c) (b.extractLsb' 0 8)).set (2 * c + 1) (b.extractLsb' 8 8) }

/-- MAPWR's end: the NaN trap, or counters, flags, the row, the scales and the RELOAD mark. -/
def mapwrDone (u : Iss) (f : RFmt) (k : Nat) (x : Slot) (out : List LaneOut) : Eff :=
  let tr := out.map fun r => (r.1, r.2.2)
  match nanTrap u tr none with
  | some t => .trap u.s t
  | none =>
    let c := readNat u (f.imm.zeroExtend 64) false f.c 0 % 64
    let scaled := sfmtScaled (modSfmt f.mod) && !modT f.mod
    let put (p : PhysSlot) : PhysSlot :=
      let p := writeRow p (modT f.mod) c (out.map fun r => (r.1, r.2.1))
      if scaled then writeScales p c (readWord u 0#32 f.b 0) else p
    let g := raiseFlags (putCtrs u.g tr) (flagsOf tr)
    .done (setGroup u.s (setSlot { g with phys := g.phys.map fun p => if p.num = x.phys then put p else p } k
      { x with reload := false, rebind := false }))

/-- A vector or operand-file register. -/
def vecOrFile (g : Group) : Opnd → Bool
  | .v n => vecOk g n.val
  | .o _ => true
  | _ => false

def execMapwr (f : RFmt) (s : State) : Host.Outcome State Fault Refusal :=
  runInstr (.mapwr f) (fun u =>
    let k := f.ma.toNat
    let sf := modSfmt f.mod
    let legal := vecOrFile u.g f.a && (f.b == .zero || sOk false f.b) && siOk f.c &&
      (f.b == .zero || (sfmtScaled sf && !modT f.mod))
    if !legal then operandIllegal u
    else match sfmtTrap u k sf (modTop f.mod), slotOf u.g k with
    | some e, _ => e
    | none, none => operandIllegal u
    | none, some x =>
      let lanes := (active u).toList
      if lanes.isEmpty then .done u.s
      else
        let E := rEnv f.h u.p.fmt u.g.srseed
        mapwrDone u f k x (lanes.map fun l =>
          (l, mapwrLane E sf (modTop f.mod) (readNat u 0#64 false f.a l) (Lane.start (u.g.srctr.get l))))) s

/-- Lane j of MAPRD (R143): `kind` 0 raw, 1 value, 2 scales. -/
def maprdLane (E : REnv) (p : PhysSlot) (sf kind : Nat) (t : Bool) (c j : Nat) (L : Lane) : Nat × Lane :=
  let r := if t then j else c
  let e := (p.elems.getD (if t then 64 * j + c else 64 * c + j) 0#16).toNat
  let scale (r b : Nat) : Nat := (p.scales.getD (2 * r + b) 0x7F#8).toNat
  match kind with
  | 0 => (e, L)
  | 1 =>
    if sf = 5 then
      roundLane E (fun _ => { val := if e < 128 then e else e + 2 ^ 32 - 256, flags := fNone, produced := false }) L
    else
      let v := cvtVal (sfmtCvt sf) E.ftz e
      let b := (if t then c else j) / 32
      let v := if sfmtScaled sf then fMul v (FVal.ofE8M0 (scale r b)) else v
      roundLane E (fun rc => roundTo fmtF32 rc v) L
  | _ => (if j < 2 then scale c j else 0, L)

def execMaprd (f : RFmt) (s : State) : Host.Outcome State Fault Refusal :=
  runInstr (.maprd f) (fun u =>
    let k := f.ma.toNat
    let sf := modSfmt f.mod
    let kind := bits f.mod 4 2
    let legal := (vecOrFile u.g f.d || f.d == .zero) && siOk f.c &&
      !(kind == 2 && (modT f.mod || !sfmtScaled sf))
    if !legal then operandIllegal u
    else match sfmtTrap u k sf false, (slotOf u.g k).bind (physOf u.g) with
    | some e, _ => e
    | none, none => operandIllegal u
    | none, some p =>
      let E := rEnv f.h u.p.fmt u.g.srseed
      let c := readNat u (f.imm.zeroExtend 64) false f.c 0 % 64
      finishLanes u f.h f.d false [] none (active u) ((active u).toList.map fun l =>
        (l, maprdLane E p sf kind (modT f.mod) c l (Lane.start (u.g.srctr.get l))))) s

def execMaprel (f : RFmt) (s : State) : Host.Outcome State Fault Refusal :=
  runInstr (.maprel f) (fun u =>
    let k := f.ma.toNat
    if guardIsVector f.h.guard then operandIllegal u
    else if !scalarGuard u.g f.h.guard then .done u.s
    else match slotOf u.g k with
    | none => operandIllegal u
    | some x =>
      match slotBadTrap u k x with
      | some e => e
      | none =>
        match x.st with
        | .binding => .wait u.s
        | .unbound => .done u.s
        | .bound => .done (setGroup u.s (setSlot u.g k { x with st := .unbound, rebind := false }))) s

/-! ## MACC (R150, R151) -/

/-- Element type and positions of a MACC source (R362). -/
def maccCvt : MaccTy → CvtTy
  | .bf16x2 => .bf16 | .f16x2 => .f16 | .f32 => .f32 | .e4m3x4 => .e4m3 | .e5m2x4 => .e5m2 | .e2m1x8 => .e2m1 | .s8x4 => .s8

/-- What MACC reads: its map, source, scale words by lane, and addend words by position and lane. -/
structure MaccIn where
  view : MapView
  sel : Nat
  tb : Bool
  src : Nat → Nat
  scales : Option (Nat → Nat)
  add : Nat → Nat → Nat

/-- Lane `i` of MACC: a word for each position, the lowest position in the lowest 32 bits. `m`: NEGA, NEGC, BY, LG. A NaN that the
addend makes in the sum names the slot of the source (log 84). -/
def maccLane (E : REnv) (js : List MapLane) (ty : MaccTy) (m : BitVec 7) (x : MaccIn) (i : Nat) (L : Lane) : Nat × Lane :=
  let t := maccCvt ty
  let scale (p j : Nat) : FVal := match x.scales with
    | some w => FVal.ofE8M0 (w (32 * (j / 32) + 8 * bits m 4 2 + p) / 256 ^ bits m 2 2 % 256)
    | none => FVal.ofInt 1
  let neg (b : Bool) (v : FVal) : FVal := if b then v.negate else v
  packLanes 32 (maccPos ty) (fun p L =>
    let terms := mapTerms x.view x.tb E.ftz js i (fun j => cvtVal t E.ftz (elemAt t (x.src j) p)) (scale p)
    let add := cvtVal (if ty = .s8x4 then .s32 else .f32) E.ftz (x.add p i)
    let (sum, lost) := gridSum (E.rm == .rd) (terms.map (neg (m.getLsbD 0))) (some (neg (m.getLsbD 1) add))
    let r := roundLane E (fun c => if ty = .s8x4 then { val := sumToS32 c.sat sum, flags := fNone, produced := false }
      else roundTo fmtF32 c sum) L
    let L' := if ty = .s8x4 then r.2 else markInexact lost r.2
    (r.1, if L'.produced && !L.produced then { L' with slot := some (0, x.sel) } else L')) L

/-- Position `p` of a packed result. -/
def posWord (v p : Nat) : Nat := v / 2 ^ (32 * p) % 2 ^ 32

/-- The writes of MACC, position by position, each entering the ring (R150). -/
def maccWrite (s : State) (u : Iss) (g : Group) (d : Opnd) (wbs : Bool) (n : Nat) (act : Lanes) (v : Nat → Nat) : State :=
  ((List.range n).foldl (fun (acc : State × Group) p =>
    let s := writeVector acc.1 acc.2 u.p (opPlus d p) wbs false true act fun l => posWord (v l) p
    (s, (groupOf s g.gid).getD acc.2)) (s, g)).1

/-- A run of `n` main-file registers from a multiple of `n` (R150). -/
def runOk (g : Group) (n : Nat) : Opnd → Bool
  | .v r => r.val % n == 0 && decide (r.val + n ≤ g.vregs.length)
  | _ => false

def MaccTy.isScaled : MaccTy → Bool
  | .e4m3x4 | .e5m2x4 | .e2m1x8 => true
  | _ => false

/-- Operand kinds of MACC (R362). -/
def maccLegal (g : Group) (ty : MaccTy) (f : RFmt) : Bool :=
  let n := maccPos ty
  (runOk g n f.d || (f.d == .zero && f.h.wbs)) && (mappable f.a && srcOk g false false f.a) &&
  (if MaccTy.isScaled ty then (match f.b with
    | .v r => vecOk g r.val
    | _ => false) else f.b == .zero) &&
  (f.c == .zero || runOk g n f.c)

/-- The source of MACC as the slot checks see it. -/
def maccSrc (ty : MaccTy) (o : Opnd) (ma : BitVec 4) (ta : Bool) : Src :=
  { o, sel := ma.toNat, tb := ta, t := maccCvt ty, n := maccPos ty }

def execMacc (ty : MaccTy) (f : RFmt) (s : State) : Host.Outcome State Fault Refusal :=
  runInstr (.macc ty f) (fun u =>
    if !maccLegal u.g ty f then operandIllegal u
    else match mapTrap u [maccSrc ty f.a f.ma f.ta], mapView u.g u.p.fmt f.ma.toNat with
    | some e, _ => e
    | none, none => .wait u.s
    | none, some view =>
      let act := active u
      let x : MaccIn :=
        { view, sel := f.ma.toNat, tb := f.ta, src := fun j => readNat u 0#64 false f.a j,
          scales := if MaccTy.isScaled ty then some (readNat u 0#64 false f.b) else none,
          add := fun p i => readNat u 0#64 false (opPlus f.c p) i }
      let E := rEnv f.h u.p.fmt u.g.srseed
      let out := act.toList.map fun l => (l, maccLane E (mapLanes u) ty f.mod x l (Lane.start (u.g.srctr.get l)))
      let tr := out.map fun r => (r.1, r.2.2)
      match nanTrap u tr none with
      | some t => .trap u.s t
      | none =>
        let lost := if latchLost u [f.a] then fLatchLost else fNone
        let g := raiseFlags (putCtrs u.g tr) (flagsOf tr ||| lost)
        .done (maccWrite (setGroup u.s g) u g f.d f.h.wbs (maccPos ty) act
          fun l => ((out.find? (·.1 == l)).map (·.2.1)).getD 0)) s

/-! ## LDL (R156, R157) -/

/-- Rank and number of rows. -/
def ldlRank (m : BitVec 7) : Nat := 16 * 2 ^ bits m 0 2
def ldlRows (m : BitVec 7) : Nat := bits m 2 2 + 1
def ldlX (m : BitVec 7) : Bool := m.getLsbD 4
def ldlBytes (m : BitVec 7) : Nat := ldlRows m * (ldlRank m + 1)

/-- Registers or segments that LDL writes. -/
def ldlRun (m : BitVec 7) : Nat := if ldlX m then ldlRows m else 2

/-- Byte `k` of row `p`; byte r is the row's scale. -/
def rowByte (m : BitVec 7) (bs : List Byte) (p k : Nat) : Nat := (bs.getD (p * (ldlRank m + 1) + k) 0#8).toNat

/-- Lane `j` of .A: the packed data and the scales (R157). -/
def absorbLane (m : BitVec 7) (bs : List Byte) (j : Nat) : Nat :=
  let q := ldlRows m
  let r := ldlRank m
  let data := ((List.range q).map fun p => if j < r then rowByte m bs p j * 256 ^ p else 0).sum
  let p := j % 32
  let scale := if 4 ≤ p then 0 else if p < q then rowByte m bs p r else 0x7F
  data + 2 ^ 32 * scale

/-- Lane `i` of .X: one mapped value a row, each rounded to F32 (R157, R357). -/
def expandLane (E : REnv) (js : List MapLane) (m : BitVec 7) (view : MapView) (sel : Nat) (tb : Bool) (bs : List Byte)
    (i : Nat) (L : Lane) : Nat × Lane :=
  let r := ldlRank m
  packLanes 32 (ldlRows m) (fun p L =>
    let x (j : Nat) : FVal := if j < r then cvtVal .e4m3 E.ftz (rowByte m bs p j) else .zero false
    let terms := mapTerms view tb E.ftz js i x fun _ => FVal.ofE8M0 (rowByte m bs p r)
    let (sum, lost) := gridSum (E.rm == .rd) terms none
    let r := roundLane E (fun c => roundTo fmtF32 c sum) L
    let L' := markInexact lost r.2
    (r.1, if L'.produced && !L.produced then { L' with slot := some (0, sel) } else L')) L

/-- The matrix an LDL in flight holds. -/
def ldlView (fmt : BitVec 9) (sel : Nat) (v : Option (Nat × List (BitVec 16) × List Byte)) : MapView :=
  match v with
  | some (sf, es, ss) => .slot sf es ss
  | none => if sel = 13 then .hadamard (16 * 2 ^ fmtHB fmt) else .ones

/-- Every lane of an LDL. -/
def ldlLanes (E : REnv) (js : List MapLane) (m : BitVec 7) (view : MapView) (sel : Nat) (tb : Bool) (bs : List Byte)
    (ctrs : LaneVec) (act : Lanes) : List LaneOut :=
  act.toList.map fun l =>
    if ldlX m then (l, expandLane E js m view sel tb bs l (Lane.start (ctrs.get l)))
    else (l, absorbLane m bs l, Lane.start (ctrs.get l))

/-- The registers of an LDL written; no ring (R100). -/
def ldlWrite (g : Group) (d : Opnd) (n : Nat) (act : Lanes) (out : List LaneOut) : Group :=
  (List.range n).foldl (fun g p =>
    writeReg g (opPlus d p) act fun l =>
      BitVec.ofNat 32 (posWord (((out.find? (·.1 == l)).map (·.2.1)).getD 0) p)) g

/-- Operand kinds of LDL (R357). -/
def ldlLegal (u : Iss) (f : MFmt) : Bool :=
  (match f.d with
    | .v n => decide (n.val + ldlRun f.mod ≤ u.g.vregs.length)
    | _ => false) &&
  f.space == 0#4 && addrOk u.g false f && !(u.g.narrow && ldlRank f.mod == 64)

/-- The source of .X as the slot checks see it: an E4M3 slot, mh or ms (11 R400). -/
def ldlSlotTrap (u : Iss) (x : Bool) (ma : BitVec 4) : Option Eff :=
  if !x then none
  else match slotTrap u ma.toNat, mapView u.g u.p.fmt ma.toNat with
  | some e, _ => some e
  | none, none => some (.wait u.s)
  | none, some (.slot sf _ _) => if sf = 2 then none else some (mapFormatTrap u ma.toNat .e4m3 1)
  | none, some _ => none

/-- SRCTR of the lanes of `act` advanced by `n` (06 R128). -/
def advanceCtrs (g : Group) (act : Lanes) (n : Nat) : Group :=
  { g with srctr := mergeLanes act g.srctr fun l => g.srctr.get l + BitVec.ofNat 32 n }

/-- The pieces of an operation read at once, if each may be: the bytes, the address of an uncorrectable granule met, and
the state. `l1` tells which copy a piece may read. -/
def readNow (s : State) (o : Op) (l1 : Bool) : Option (List Byte × Option Nat × State) :=
  if !o.elems.all (elemReady s o) then none
  else some (o.elems.foldl (fun acc e =>
    let r := readElem acc.2.2 o e l1
    (acc.1 ++ natToBytes e.size r.1, acc.2.1.or r.2.1, r.2.2)) ([], none, s))

/-- The slot contents that an LDL keeps. -/
def keepView (v : Option MapView) : Option (Nat × List (BitVec 16) × List Byte) :=
  match v with
  | some (.slot sf es ss) => some (sf, es, ss)
  | _ => none

/-- The counters of an LDL.X under SR: they advance as it issues, whatever its rows turn out to hold (log 74). -/
def ldlCtrs (u : Iss) (f : MFmt) (act : Lanes) (g : Group) : Group :=
  if ldlX f.mod && rmEff f.h u.p.fmt == .sr then advanceCtrs g act (ldlRows f.mod) else g

/-- LDL with NaN traps enabled: the rows are read at issue, so that the trap of 06 R132 is precise. -/
def ldlNow (u : Iss) (s : State) (f : MFmt) (act : Lanes) (es : List Elem) : Eff :=
  let (o, s) := mkOp u s .store false false .grp es
  let (c, s) := choose s 2
  match readNow s { o with kind := .load .b64 f.d } (c == 1) with
  | none => .wait u.s
  | some (bs, bad, s) =>
    let s := updGroup s u.g.gid fun g => engTick g .c0 o.id
    match bad with
    | some pa => .done (updGroup s u.g.gid fun g =>
        ldlCtrs u f act { g with badLoads := g.badLoads ++ [{ pc := u.p.pc, pa, dst := regsOf (f.d, ldlRun f.mod) }] })
    | none =>
      let E := rEnv f.h u.p.fmt u.g.srseed
      let view := ldlView u.p.fmt f.ma.toNat (keepView (mapView u.g u.p.fmt f.ma.toNat))
      let out := ldlLanes E (mapLanes u) f.mod view f.ma.toNat f.ta bs u.g.srctr act
      let tr := out.map fun r => (r.1, r.2.2)
      match nanTrap u tr none with
      | some t => .trap s t
      | none => .done (updGroup s u.g.gid fun g =>
          ldlWrite (raiseFlags (putCtrs g tr) (flagsOf tr)) f.d (ldlRun f.mod) act out)

def execLdl (f : MFmt) (s : State) : Host.Outcome State Fault Refusal :=
  runInstr (.ldl f) (fun u =>
    let act := active u
    let a := effAddr u f 0
    let fab := fabricRun u.ctx a (ldlBytes f.mod)
    if !ldlLegal u f || fab then operandIllegal u
    else match ldlSlotTrap u (ldlX f.mod) f.ma with
    | some e => e
    | none =>
      if act == 0#64 then .done u.s
      else match translateRun u .ldl a (ldlBytes f.mod) with
      | .error e => e
      | .ok (s, pages) =>
        let es := pieceElems .global a.toNat (ldlBytes f.mod) pages
        if engFull u .c0 then .wait u.s
        else if ldlX f.mod && fmtNANTRAP u.p.fmt then ldlNow u s f act es
        else
          let view := if ldlX f.mod then keepView (mapView u.g u.p.fmt f.ma.toNat) else none
          let s := addOp u s (.ldl f u.p.fmt u.p.members act view u.g.srseed u.g.srctr) false false .grp (some .c0) es
          .done (updGroup s u.g.gid (ldlCtrs u f act))) s

/-- The flags of an access that returns: in STATUS, and where its instruction came before the trap whose handler runs, in what
IRET restores (05 R109, 11 R209). Those of an instruction of a handler that is left are gone with it. -/
def flagsLater (g : Group) (o : Op) (fl : Flags) : Group :=
  match g.shadow with
  | none => if o.tmpl.inhandler then g else raiseFlags g fl
  | some sh =>
    if o.tmpl.inhandler then raiseFlags g fl
    else raiseFlags { g with shadow := some { sh with status := (raiseFlags { g with status := sh.status } fl).status } } fl

/-- The end of an LDL whose every piece has been read. -/
def finishLdl (s : State) (o : Op) (f : MFmt) (fmt : BitVec 9) (members act : Lanes)
    (view : Option (Nat × List (BitVec 16) × List Byte)) (seed : DWord) (ctrs : LaneVec) : State :=
  let s := match o.elems.findSome? Elem.bad with
    | some pa => failLoad s o pa
    | none =>
      let E := rEnv f.h fmt seed
      let out := ldlLanes E (mapLanesOf members (fmtW32 fmt)) f.mod (ldlView fmt f.ma.toNat view) f.ma.toNat f.ta (pieceBytes o.elems) ctrs act
      updGroup s o.gid fun g => ldlWrite (flagsLater g o (flagsOf (out.map fun r => (r.1, r.2.2)))) f.d (ldlRun f.mod) act out
  removeOp (countOff s o) o.id

/-- The end of a bind whose every piece has been read (R140, R141). -/
def finishBind (s : State) (o : Op) (k : Nat) : State :=
  let s := updGroup s o.gid fun g =>
    match slotOf g k with
    | none => g
    | some x =>
      match o.elems.findSome? Elem.bad with
      | some pa => setSlot g k { x with st := .unbound, bad := some (o.tmpl.pc, pa) }
      | none => setPhys (setSlot g k { x with st := .bound }) x.phys (imageOf x.sfmt x.tbind (pieceBytes o.elems))
  removeOp (countOff s o) o.id

end Sys2Proof.Machine
end

