-- ==== Sys2Proof/Machine/Requests.lean ====
section
/-!
DEFINITION. The steps by which accesses in flight return or are performed: loads (22 R354), LDL (07 R157), binds (07
R140), atomics (08 R172, 20 R294), stores (23 R385), and the requests that act at a home (04 R92, R95, 06 R134, 08 R173). A
step that is not enabled changes nothing.
-/
namespace Sys2Proof.Machine

/-- The indexes of an operation's elements in a set of lanes. -/
def elemsIn (o : Op) (lanes : Lanes) : List Nat :=
  (o.elems.zipIdx.filter fun x => lanes.has x.1.lane).map Prod.snd

/-- The loads of some elements performed. -/
def loadElems (s : State) (id : Nat) (lanes fromL1 : Lanes) : State :=
  match opOf s id with
  | none => s
  | some o => (elemsIn o lanes).foldl (fun s k => loadElem s id fromL1 k) s

/-- Element `k` of a prefetch: its line is brought to the L1, or only to its home (23 R389). -/
def prefElem (s : State) (id : Nat) (l1 : Bool) (k : Nat) : State :=
  match opOf s id with
  | none => s
  | some o =>
    match o.elems[k]? with
    | none => s
    | some e =>
      if e.st == .pending then
        let s := if l1 then l1Fill s o.core o.ctx e.va.toNat (e.pa.getD 0) else s
        setElem s o k { e with st := .done }
      else s

/-- The end of a load or prefetch, once every element has returned. -/
def endReads (s : State) (id : Nat) : State :=
  match opOf s id with
  | none => s
  | some o =>
    if !o.performed then s
    else match o.kind with
    | .load w d => finishLoad s o w d
    | .pref _ => removeOp (countOff s o) o.id
    | _ => s

def execLoadReturn (op : Nat) (lanes fromL1 : Lanes) (s : State) : Host.Outcome State Fault Refusal :=
  match (opOf s op).map Op.kind with
  | some (.load ..) => .next (endReads (loadElems s op lanes fromL1) op)
  | some (.pref l1) =>
    .next (endReads (match opOf s op with
      | some o => (elemsIn o lanes).foldl (fun s k => prefElem s op l1 k) s
      | none => s) op)
  | some (.ldl ..) | some (.bind _) => .next (loadElems s op lanes fromL1)
  | _ => .next s

/-- Every lane. -/
def allLanes : Lanes := 0xFFFF_FFFF_FFFF_FFFF#64

def execLdlReturn (op : Nat) (s : State) : Host.Outcome State Fault Refusal :=
  match (opOf s op).map Op.kind with
  | some (.ldl f fmt members act view seed ctrs) =>
    let s := loadElems s op allLanes 0#64
    match opOf s op with
    | some o => .next (if o.performed then finishLdl s o f fmt members act view seed ctrs else s)
    | none => .next s
  | _ => .next s

def execMapBindComplete (op : Nat) (s : State) : Host.Outcome State Fault Refusal :=
  match (opOf s op).map Op.kind with
  | some (.bind k) =>
    let s := loadElems s op allLanes 0#64
    match opOf s op with
    | some o => .next (if o.performed then finishBind s o k else s)
    | none => .next s
  | _ => .next s

def execAtomReturn (op : Nat) (s : State) : Host.Outcome State Fault Refusal :=
  match opOf s op with
  | none => .next s
  | some o =>
    match o.kind with
    | .rmw u (some d) => .next (if o.performed then finishAtom s o u d else s)
    | _ => .next s

def execStorePerform (op : Nat) (lanes : Lanes) (s : State) : Host.Outcome State Fault Refusal :=
  match opOf s op with
  | none => .next s
  | some o =>
    match o.kind with
    | .store => .next (settleKeys o.grid (performStore s o lanes))
    | _ => .next s

/-- A step of element `k` of operation `id` at its home, with the harvests it brings. -/
def homeRequest (s : State) (id k : Nat) : State :=
  match opOf s id with
  | none => s
  | some o => settleKeys o.grid (homeStep s id k)

/-- An ATOM with acquire semantics that is wholly performed. -/
def atomAcquire (s : State) (id : Nat) : State :=
  match opOf s id with
  | none => s
  | some o => if o.performed then acquireOp s o else s

def execAtomicAtHome (op k : Nat) (s : State) : Host.Outcome State Fault Refusal :=
  match (opOf s op).map Op.kind with
  | some (.rmw ..) => .next (atomAcquire (homeRequest s op k) op)
  | _ => .next s

def execJoinCounterDecrement (op k : Nat) (s : State) : Host.Outcome State Fault Refusal :=
  match (opOf s op).map Op.kind with
  | some (.dec _) => .next (homeRequest s op k)
  | _ => .next s

def execCensusFold (op k : Nat) (s : State) : Host.Outcome State Fault Refusal :=
  match (opOf s op).map Op.kind with
  | some .fold => .next (homeRequest s op k)
  | _ => .next s

def execFutureRegistration (op k : Nat) (s : State) : Host.Outcome State Fault Refusal :=
  match (opOf s op).map Op.kind with
  | some (.futReg ..) => .next (homeRequest s op k)
  | _ => .next s

def execFutureResolution (op : Nat) (s : State) : Host.Outcome State Fault Refusal :=
  match (opOf s op).map Op.kind with
  | some .futRes | some (.copyF _) => .next (homeRequest s op 0)
  | _ => .next s

def execGateDecrement (op : Nat) (s : State) : Host.Outcome State Fault Refusal :=
  match (opOf s op).map Op.kind with
  | some (.gate ..) => .next (homeRequest s op 0)
  | _ => .next s

/-- Whether element `k` is held in the core's path, first among those held for its slice, and its Sluice has room. -/
def mayPark (s : State) (o : Op) (e : Elem) : Bool :=
  match e.st with
  | .held n =>
    decide (sluiceCount s o.die e.slice < Config.sluiceRoom) &&
    s.ops.all fun x => x.die != o.die || x.elems.all fun y => match y.st with
      | .held m => y.slice != e.slice || decide (n ≤ m)
      | _ => true
  | _ => false

def execSluiceDeferredPark (op k : Nat) (s : State) : Host.Outcome State Fault Refusal :=
  match opOf s op with
  | none => .next s
  | some o =>
    match o.elems[k]?, ctxOf s o.ctx with
    | some e, some c =>
      if !mayPark s o e then .next s
      else if earlierParked s o e then .next (settleOp (setElem s o k { e with st := .parked e.seq }) op)
      else match walkAccess s c e.va .rmw o.sup with
      | (.error f, s) => .next (settleOp (report (setElem s o k { e with st := .parked e.seq }) (sluiceRecord s o e f)) op)
      | (.ok pa, s) =>
        let (s, ks) := performHome s o k e pa
        .next (settleKeys o.grid (settleOp s op, ks))
    | _, _ => .next s

end Sys2Proof.Machine
end

