-- ==== Sys2Proof/Machine/Tasks.lean ====
section
/-!
DEFINITION. Entry descriptors (01 R20, R21), SPAWN (04 R81 to R83, 23 R394, R395), JDEC (R92, 22 R351), JWAIT (R93, R352),
FREG (R95, 21 R340 to R342), FRES (R96, R343, R344), and the wake of a JWAIT.
-/
namespace Sys2Proof.Machine

/-! ## Entry descriptors (01 R20, R21) -/

/-- The descriptor in 64 bytes. -/
def Desc.ofNat (x : Nat) : Desc :=
  let fld (lo w : Nat) : Nat := x / 2 ^ lo % 2 ^ w
  { code := BitVec.ofNat 64 (fld 0 64), vregs0 := fld 64 8, vregs1 := fld 72 8, groups0 := fld 80 5, groups1 := fld 85 5,
    spad := fld 96 20, coal := fld 128 7, timer := fld 136 16, prog := fld 152 2, narrow := x.testBit 154,
    repro := x.testBit 155, checked := x.testBit 156, spwok := x.testBit 157 }

/-- The reserved fields of 64 bytes are zero. -/
def descReserved (x : Nat) : Bool :=
  x / 2 ^ 90 % 2 ^ 6 == 0 && x / 2 ^ 116 % 2 ^ 12 == 0 && !x.testBit 135 && x / 2 ^ 158 == 0

/-- The descriptor is valid, its address apart (R21). -/
def Desc.valid (d : Desc) : Bool :=
  bits d.code 0 4 == 0 && bits d.code 57 7 == 0 &&
  decide (1 ≤ d.vregs0) && decide (d.vregs0 ≤ 32) &&
  (if d.groups1 = 0 then d.vregs1 == 0 else decide (1 ≤ d.vregs1) && decide (d.vregs1 ≤ 32)) &&
  decide (1 ≤ d.groups0) && decide (d.groups0 + d.groups1 ≤ 16) && decide (d.groups1 ≤ 15) &&
  decide (d.spad ≤ Config.spadBytes) && d.prog != 3 &&
  (if d.spwok then decide (1 ≤ d.coal) && decide (d.coal ≤ 64) && d.groups0 == 1 && d.groups1 == 0
   else d.coal == 0 && d.timer == 0) &&
  (!d.checked || (d.repro && d.prog == 2))

/-- SPAWN and FREG may name the descriptor in a group's grid (R21). -/
def descSpawnable (g : Group) (x : Nat) : Bool :=
  let d := Desc.ofNat x
  descReserved x && d.valid && d.spwok && d.narrow == g.narrow && d.repro == g.repro && !d.checked

/-! ## Operands of SPAWN and FREG -/

/-- Payload registers: n vector registers within the allocation, or ZERO when n is 0. -/
def payloadOk (g : Group) (n : Nat) (p : Opnd) : Bool :=
  if n = 0 then p == .zero
  else match p with
  | .v r => decide (r.val + n ≤ g.vregs.length)
  | _ => false

/-- Destination of SPAWN and FREG. -/
def taskDst (g : Group) : Opnd → Bool
  | .v r => vecOk g r.val
  | .zero => true
  | _ => false

/-- A join or gate address operand: present with .J, else ZERO. -/
def joinOk (g : Group) (j : Bool) (c : Opnd) : Bool := if j then vsOk g true c else c == .zero

/-- The lane's record (R77). -/
def laneRecord (u : Iss) (e : Opnd) (n : Nat) (p : Opnd) (j : Bool) (c : Opnd) (gated : Bool) (desc : Nat) (l : Nat) :
    ThreadRec :=
  { ctx := u.g.ctx, grid := u.g.grid, entry := readPair u e l, desc := Desc.ofNat desc, n,
    payload := (List.range n).map fun k => readWord u 0#32 (opPlus p k) l,
    join := if j then readPair u c l else 0#64, gated, handle := none, lt := u.g.lt }

/-- The descriptors that the lanes name (R81): alignment, then every read as a load of the split, then validity. Either a
trap, or the state and each lane's 64 bytes. -/
def readEntries (u : Iss) (e : Opnd) (lanes : List Nat) : Except Eff (State × List (Nat × Nat)) :=
  let ent := readPair u e
  let invalid (s : State) (ls : List Nat) : Eff := laneTrap s .spawnEntryInvalid ls ent (fun _ => 0#64) (fun _ => 0)
  let mis := lanes.filter fun l => (ent l).toNat % 64 ≠ 0
  if mis ≠ [] then .error (invalid u.s mis)
  else
    let (s, pas, fs) := translateLanes u.s u .load lanes ent
    if !fs.isEmpty then .error (pageTrap s fs)
    else
      let (o, _) := mkOp u s (.load .b64 .zero) false false .grp []
      let (s, ds) := pas.foldl (fun (acc : State × List (Nat × Nat × Option Nat)) x =>
        let (c, s) := choose acc.1 2
        let r := readElem s o (mkElem x.1 .global (ent x.1) (some x.2) 64) (c == 1)
        (r.2.2, acc.2 ++ [(x.1, r.1, r.2.1)])) (s, [])
      let bad := ds.filter fun x => x.2.2.isSome
      match bad with
      | b :: _ =>
        .error (laneTrap s .memoryUncorrectable (bad.map fun x => x.1) (fun _ => u.p.pc)
          (fun _ => BitVec.ofNat 64 (b.2.2.getD 0)) (fun _ => 0))
      | [] =>
        let wrong := ds.filter fun x => !descSpawnable u.g x.2.1
        if wrong.isEmpty then .ok (s, ds.map fun x => (x.1, x.2.1))
        else .error (invalid s (wrong.map fun x => x.1))

/-- The first lanes whose address of a kind breaks its alignment. -/
def misaligned (u : Iss) (s : State) (c : Opnd) (n : Nat) (lanes : List Nat) : Option Eff :=
  let mis := lanes.filter fun l => (readPair u c l).toNat % n ≠ 0
  if mis = [] then none else some (laneTrap s .misaligned mis (readPair u c) (fun _ => 0#64) (fun _ => 0))

/-! ## SPAWN -/

/-- A handle (R78): granules of the team's allocation, none of them handed away. -/
def handleValid (u : Iss) (h : Word) : Bool :=
  let first := bits h 0 8
  let count := bits h 8 8
  let t := teamOfIss u
  bits h 16 16 == 0 && decide (1 ≤ count) && decide (count ≤ 128) &&
  decide ((first + count) * Config.granule ≤ spadLimit t) &&
  !handedAway u.s t.tid (first * Config.granule) (count * Config.granule)

/-- The granules of a handle leave the team (R83). -/
def handGranules (u : Iss) (s : State) (h : Word) : Nat × State :=
  let a := bits h 0 8 * Config.granule
  let n := bits h 8 8 * Config.granule
  let (hid, s) := fresh s
  let inRegion (o : BarObj) : Bool := decide (a ≤ o.off) && decide (o.off < a + n)
  let bytes := ((teamOf s u.g.team).map fun t => memSlice t.spad a n 0).getD []
  let objs := (((teamOf s u.g.team).map Team.objs).getD []).filter inRegion
  let s := updTeam s u.g.team fun t =>
    { t with spad := memClear t.spad a n, objs := t.objs.filter fun o => !inRegion o }
  (hid, { s with handles := s.handles ++
    [{ hid, core := u.g.core, parent := u.g.team, first := bits h 0 8, count := bits h 8 8, bytes,
       objs := objs.map fun o => { o with off := o.off - a }, child := none }] })

/-- In a reproducible grid, the first released record of it that waits for room on the group's core: records are filed in
synchronisation order (04 R87, 21 R344). -/
def deferredAhead (u : Iss) : Option ThreadRec :=
  if u.g.repro then
    (u.s.deferredRecs.find? fun d => d.1 == u.g.core && d.2.2.grid == u.g.grid).map fun d => d.2.2
  else none

/-- The lanes' records filed in ascending order, with each lane's result. -/
def fileLanes (u : Iss) (s : State) (recs : List (Nat × ThreadRec)) : State × List (Nat × Bool) :=
  recs.foldl (fun acc x => match if (deferredAhead u).isSome then none else fileRec acc.1 u.g.core x.2 with
    | some s => (s, acc.2 ++ [(x.1, true)])
    | none => (acc.1, acc.2 ++ [(x.1, false)])) (s, [])

/-- SPAWN once its descriptors are read: joins, handle, filing (R81). -/
def spawnFile (u : Iss) (f : RFmt) (s : State) (ds : List (Nat × Nat)) : Eff :=
  let n := bits f.mod 0 3
  let j := f.mod.getLsbD 3
  let hand := f.mod.getLsbD 4
  let lanes := ds.map Prod.fst
  let h := readWord u 0#32 (opndOfCode (bits f.imm 0 10)) 0
  match if j then misaligned u s f.c 4 lanes else none with
  | some e => e
  | none =>
    if hand && !handleValid u h then
      .trap s { cause := .handleInvalid, mask := u.p.members, aux0 := h.zeroExtend 64 }
    else
      let recs := ds.map fun x => (x.1, laneRecord u f.a n f.b j f.c false x.2 x.1)
      let (hid, sh) := handGranules u s h
      let recs' := if hand then recs.map fun x => (x.1, { x.2 with handle := some hid }) else recs
      let (s', oks) := fileLanes u (if hand then sh else s) recs'
      let failed := oks.any fun x => !x.2
      if failed && u.g.repro then .trap s { cause := .nondeterministicOp, mask := Lanes.ofPred fun l => oks.any fun x => x.1 == l && !x.2 }
      else
        let s' := if failed && hand then s else s'
        .done (updGroup s' u.g.gid fun g => writeReg g f.d (Lanes.ofPred lanes.contains)
          fun l => BitVec.ofNat 32 (bitOf (oks.any fun x => x.1 == l && x.2)))

def execSpawn (f : RFmt) (s : State) : Host.Outcome State Fault Refusal :=
  runInstr (.spawn f) (fun u =>
    let n := bits f.mod 0 3
    let j := f.mod.getLsbD 3
    let hand := f.mod.getLsbD 4
    let lanes := (active u).toList
    let legal := taskDst u.g f.d && vsOk u.g true f.a && payloadOk u.g n f.b && joinOk u.g j f.c &&
      (!hand || sOk false (opndOfCode (bits f.imm 0 10))) && !u.g.checked
    let fab := lanes.any fun l => inFabric u.ctx (readPair u f.a l) || (j && inFabric u.ctx (readPair u f.c l))
    if !legal || fab then operandIllegal u
    else if lanes.isEmpty then .done u.s
    else if hand && lanes.length != 1 then operandIllegal u
    else if !released u true || (deferredAhead u).any (fun r => (fileRec u.s u.g.core r).isSome) then .wait u.s
    else match readEntries u f.a lanes with
    | .error e => e
    | .ok (s, ds) => spawnFile u f s ds) s

/-! ## JDEC and JWAIT -/

/-- The element that decrements a counter. -/
def decElem (l : Nat) (va : DWord) : Elem :=
  { mkElem l .global va none 4 with u := .b32, op := 0, data := 0xFFFF_FFFF#64 }

def execJdec (f : MFmt) (s : State) : Host.Outcome State Fault Refusal :=
  runInstr (.jdec f) (fun u =>
    let lanes := (active u).toList
    if f.d != .zero || f.space != 0#4 || !addrOk u.g true f || u.g.checked || fabricIllegal u f lanes then operandIllegal u
    else if lanes.isEmpty then .done u.s
    else match addrTrap u .global lanes (effAddr u f) 4 4 with
    | some e => e
    | none =>
      if groupParked u.s u.g.gid || pathHeld u.s u.g.core then .wait u.s
      else .done (addOp u u.s (.dec false) false true .dev none (lanes.map fun l => decElem l (effAddr u f l)))) s

/-- The common operand kinds of JWAIT and FRES (R80). -/
def scalarAddrLegal (u : Iss) (f : MFmt) : Bool :=
  f.d == .zero && f.space == 0#4 && addrOk u.g false f && !guardIsVector f.h.guard

/-- The checks of an address that acts once: alignment and translation. -/
def scalarPlace (u : Iss) (f : MFmt) (a : Access) (n : Nat) : Except Eff (State × Nat) :=
  let va := effAddr u f 0
  if va.toNat % n ≠ 0 then .error (trapAll u .misaligned va.toNat 0)
  else match translateLanes u.s u a [0] fun _ => va with
  | (s, [(_, pa)], _) => .ok (s, pa)
  | (s, _, fs) => .error (onceTrap u (pageTrap s fs))

/-- The logical time of the decrement that brought a word to zero, if any. -/
def zeroLt (s : State) (pa : Nat) : Option Nat := (s.joinZeros.find? (·.1 == pa)).map Prod.snd

/-- JWAIT's read at the home, once no older access of the split to the word is outstanding (R93). -/
def jwaitBody (u : Iss) (va : DWord) (s : State) (pa : Nat) : Eff :=
  let e := mkElem 0 .global va (some pa) 4
  let (o, _) := mkOp u s (.load .b32 .zero) true false .dev [e]
  if !(elemReady s o e) then .wait u.s
  else if let some b := badGranule? s pa 4 then
    .trap s { cause := .memoryUncorrectable, mask := u.p.members, aux0 := u.p.pc, aux1 := BitVec.ofNat 64 b }
  else if physRead s pa 4 = 0 then
    .done (acquireDev (updGroup s u.g.gid fun g => raiseLbaseAtIssue g (zeroLt s pa)) u.g.core)
  else
    let (seq, s) := fresh s
    .done (updSplit s u.g.gid u.p.sid fun p => { p with state := .waitJoin va pa false none, parkSeq := seq })

def execJwait (f : MFmt) (s : State) : Host.Outcome State Fault Refusal :=
  runInstr (.jwait f) (fun u =>
    if !scalarAddrLegal u f then operandIllegal u
    else if !scalarGuard u.g f.h.guard then .done u.s
    else if inFabric u.ctx (effAddr u f 0) then operandIllegal u
    else match scalarPlace u f .load 4 with
    | .error e => e
    | .ok (s, pa) => jwaitBody u (effAddr u f 0) s pa) s

/-- The home reports the counter zero: the split goes on, with acquire semantics (R93, 12 R230). -/
def jwaitWake (s : State) (g : Group) (p : Split) : State :=
  match p.state with
  | .waitJoin _ pa seen lt =>
    if seen || physRead s pa 4 == 0 then
      let w := if seen then lt else zeroLt s pa
      let s := setGroup s (setSplit (raiseLbase g w) { p with state := .ready })
      acquireDev s g.core
    else s
  | _ => s

def execJwaitWake (g sp : Nat) (s : State) : Host.Outcome State Fault Refusal :=
  match groupOf s g with
  | none => .next s
  | some x =>
    match splitOf x sp with
    | some p => .next (if x.place == .resident then jwaitWake s x p else s)
    | none => .next s

/-! ## FREG and FRES -/

/-- Whether every future that lanes of a reproducible grid name has room for them (R342). -/
def futuresHaveRoom (s : State) (pas : List (Nat × Nat)) : Bool :=
  pas.all fun x =>
    let w := physRead s x.2 8
    decide (2 ≤ futState w) || decide (futCount w + (pas.filter fun y => y.2 == x.2).length ≤ Config.blockRecords)

/-- The split waits for the replies of a request it sent. -/
def await (s : State) (u : Iss) : State :=
  updSplit s u.g.gid u.p.sid fun p => { p with awaiting := (s.ops.getLast?).map Op.id }

/-- FREG's replies written to d (R341). A word that could not be read leaves its lane to the trap of 10 R205. -/
def fregDone (u : Iss) (o : Op) (d : Opnd) : Eff :=
  let good := o.elems.filter fun e => e.bad.isNone
  let s := match o.elems.findSome? Elem.bad with
    | some pa => if d = .zero then u.s else failLoad u.s o pa
    | none => u.s
  let s := updGroup s u.g.gid fun g =>
    writeReg g d (Lanes.ofPred fun l => good.any (·.lane == l)) fun l =>
      ((good.find? (·.lane == l)).map fun e => e.res.setWidth 32).getD 0#32
  .done (updSplit (removeOp s o.id) u.g.gid u.p.sid fun p => { p with awaiting := none })

/-- FREG's checks and its requests (R340). -/
def fregStart (u : Iss) (f : RFmt) (lanes : List Nat) : Eff :=
  let n := bits f.mod 0 3
  let j := f.mod.getLsbD 3
  let p := opndOfCode (bits f.imm 0 10)
  match readEntries u f.b lanes with
  | .error e => e
  | .ok (s, ds) =>
    match if j then misaligned u s f.c 4 lanes else none with
    | some e => e
    | none =>
      match misaligned u s f.a 8 lanes with
      | some e => e
      | none =>
        let (s, pas, fs) := translateLanes s u .rmw lanes (readPair u f.a)
        if !fs.isEmpty then pageTrap s fs
        else if u.g.repro && !futuresHaveRoom s pas then .trap s { cause := .nondeterministicOp, mask := u.p.members }
        else
          let recs := ds.map fun x => laneRecord u f.b n p j f.c j x.2 x.1
          let es := pas.map fun x => mkElem x.1 .global (readPair u f.a x.1) (some x.2) 8
          .wait (await (addOp u s (.futReg recs f.d) false true .dev none es) u)

def execFreg (f : RFmt) (s : State) : Host.Outcome State Fault Refusal :=
  runInstr (.freg f) (fun u =>
    let lanes := (active u).toList
    let j := f.mod.getLsbD 3
    let legal := taskDst u.g f.d && vsOk u.g true f.a && vsOk u.g true f.b && joinOk u.g j f.c &&
      payloadOk u.g (bits f.mod 0 3) (opndOfCode (bits f.imm 0 10)) && !u.g.checked
    let fab := lanes.any fun l =>
      inFabric u.ctx (readPair u f.a l) || inFabric u.ctx (readPair u f.b l) || (j && inFabric u.ctx (readPair u f.c l))
    match u.p.awaiting.bind (opOf u.s) with
    | some o => if o.performed then fregDone u o f.d else .wait u.s
    | none =>
      if !legal || fab then operandIllegal u
      else if lanes.isEmpty then .done u.s
      else if !released u true then .wait u.s
      else fregStart u f lanes) s

/-- FRES once its reply is in (R344). -/
def fresDone (u : Iss) (o : Op) : Eff :=
  let s := updSplit (removeOp u.s o.id) u.g.gid u.p.sid fun p => { p with awaiting := none }
  match o.elems with
  | e :: _ =>
    if e.bad.isSome then .done s
    else if e.res = 1#64 then
      .trap s { cause := .futureDoubleResolve, mask := u.p.members, aux0 := e.va, aux1 := e.data2 }
    else if e.res = 2#64 then operandIllegal { u with s }
    else .done s
  | [] => .done s

def execFres (f : MFmt) (s : State) : Host.Outcome State Fault Refusal :=
  runInstr (.fres f) (fun u =>
    match u.p.awaiting.bind (opOf u.s) with
    | some o => if o.performed then fresDone u o else .wait u.s
    | none =>
      if !scalarAddrLegal u f then operandIllegal u
      else if !scalarGuard u.g f.h.guard then .done u.s
      else if inFabric u.ctx (effAddr u f 0) || u.g.checked then operandIllegal u
      else match scalarPlace u f .rmw 8 with
      | .error e => e
      | .ok (s, pa) =>
        if !released u true then .wait u.s
        else .wait (await (addOp u s .futRes false true .dev none [mkElem 0 .global (effAddr u f 0) (some pa) 8]) u)) s

end Sys2Proof.Machine
end

