-- ==== Sys2Proof/Machine/Sweeps.lean ====
section
/-!
DEFINITION. Sweeps (07 R153, R154, R158, 14 R256, R270): the start of each sweep form (20 R314, 21 R323, R333, 22 R362,
R357) and one iteration. A sweep that has started is issued no further; its iterations are steps of their own, and the last
one retires the instruction.
-/
namespace Sys2Proof.Machine

/-! ## Starting -/

/-- A sweep operand names a scalar register (R256). -/
def sweepBase (o : Opnd) : Bool := sOk false o

/-- The start of a sweep (R270). -/
def sweepStart (u : Iss) (legal : Bool) : Eff :=
  if !legal then operandIllegal u
  else .wait (updSplit u.s u.g.gid u.p.sid fun p => { p with sweep := some (u.i, p.swpidx) })

def execFaddSweep (t : FloTy) (f : SFmt) (s : State) : Host.Outcome State Fault Refusal :=
  runInstr (.faddSweep t f) (fun u => sweepStart u (sweepBase f.d && sweepBase f.a && sweepBase f.b)) s

def execFmaSweep (t : FloTy) (f : SFmt) (s : State) : Host.Outcome State Fault Refusal :=
  runInstr (.fmaSweep t f) (fun u => sweepStart u (sweepBase f.d && sweepBase f.a && sweepBase f.b)) s

def execFmulSweep (t : FloTy) (f : SFmt) (s : State) : Host.Outcome State Fault Refusal :=
  runInstr (.fmulSweep t f) (fun u => sweepStart u (sweepBase f.d && sweepBase f.a && sweepBase f.b)) s

def execCvtSweep (c : CvtTy) (f : SFmt) (s : State) : Host.Outcome State Fault Refusal :=
  runInstr (.cvtSweep c f) (fun u =>
    sweepStart u (sweepBase f.d && sweepBase f.a)) s

def execFquantSweep (t : FloTy) (f : SFmt) (s : State) : Host.Outcome State Fault Refusal :=
  runInstr (.fquantSweep t f) (fun u =>
    sweepStart u (sweepBase f.d && sweepBase f.a && sweepBase f.b && f.mb == 0#4)) s

def execMaccSweep (m : MaccTy) (f : SFmt) (s : State) : Host.Outcome State Fault Refusal :=
  runInstr (.maccSweep m f) (fun u =>
    sweepStart u (sweepBase f.d && sweepBase f.a && (if MaccTy.isScaled m then sweepBase f.b else f.b == .zero))) s

def execLdlSweep (f : SFmt) (s : State) : Host.Outcome State Fault Refusal :=
  runInstr (.ldlSweep f) (fun u =>
    sweepStart u (sweepBase f.d && sOk true f.a && !(u.g.narrow && ldlRank f.mod == 64))) s

/-! ## Segments (R153) -/

/-- The offset of an operand's segment at iteration n. -/
def segOff (u : Iss) (o : Opnd) (step : BitVec 10) (n : Nat) : Nat :=
  ((((readWord u 0#32 o 0).toNat : Int) + (n : Int) * 4 * step.toInt) % (2 ^ 32 : Nat)).toNat

/-- A run of segments: offset and number of registers. -/
abbrev Seg := Nat × Nat

/-- The first trap of the segments (R270): MISALIGNED, then SCRATCHPAD_RANGE, then HANDLE_INVALID. -/
def segTrap (u : Iss) (segs : List Seg) : Option Eff :=
  let t := teamOfIss u
  let lim := spadLimit t
  match segs.find? fun x => x.1 % 4 ≠ 0 with
  | some x => some (trapAll u .misaligned x.1 0)
  | none =>
    match segs.find? fun x => decide (lim < x.1 + 256 * x.2) with
    | some x => some (trapAll u .scratchpadRange x.1 (allocSize u.s t))
    | none => (segs.find? fun x => handedAway u.s t.tid x.1 (256 * x.2)).map fun x => trapAll u .handleInvalid x.1 0

/-- The iteration as accesses of the split: it waits for older accesses that it must follow. -/
def segsReady (u : Iss) (segs : List Seg) : Bool :=
  let es := segs.map fun x => mkElem 0 .scratch (BitVec.ofNat 64 x.1) none (256 * x.2)
  let (o, _) := mkOp u u.s .store false false .grp es
  es.all fun e => opReady u.s o && (olderMeets u.s o e).isEmpty

/-- Lane `l` of register `p` of a run. -/
def segWord (u : Iss) (x : Seg) (p l : Nat) : Nat := spadRead u.s u.g.team (x.1 + 256 * p + 4 * l) 4

/-- The words of an iteration written: lane by lane, position by position, each with the checks that follow (08 R166). -/
def segWrite (u : Iss) (s : State) (x : Seg) (out : List (Nat × Nat)) : State :=
  settleKeys u.g.grid (out.foldl (fun r l => (List.range x.2).foldl (fun r p =>
    let q := spadWrite r.1 u.g.team (x.1 + 256 * p + 4 * l.1) 4 (posWord l.2 p)
    (q.1, r.2 ++ q.2)) r) (s, []))

/-- Lane `l` of a register or pair. -/
def segVal (u : Iss) (x : Seg) (l : Nat) : Nat := ((List.range x.2).map fun p => segWord u x p l * 2 ^ (32 * p)).sum

/-- A source read from a segment. -/
def segSrc (u : Iss) (x : Seg) (src : Src) : RSrc :=
  { raw := segVal u x, view := if src.sel = 0 then none else mapView u.g u.p.fmt src.sel, src }

/-- The end of an iteration: its NaN trap, or its counters, flags and writes. -/
def segFinish (u : Iss) (s : State) (d : Seg) (out : List LaneOut) : Eff :=
  let tr := out.map fun r => (r.1, r.2.2)
  match nanTrap u tr none with
  | some t => .trap s t
  | none => .done (segWrite u (updGroup s u.g.gid fun g => raiseFlags (putCtrs g tr) (flagsOf tr)) d
      (out.map fun r => (r.1, r.2.1)))

/-- An iteration over scratchpad segments: the slots' checks, the segments' (07 R138), readiness, then each active lane by
`f` (R154, R270). The slots are as they stand at each iteration (log 85). -/
def segBody (u : Iss) (h : Hdr) (segs : List Seg) (d : Seg) (xs : List (Seg × Src))
    (f : REnv → List RSrc → Nat → Lane → Nat × Lane) : Eff :=
  match (mapTrap u (xs.map Prod.snd)).or (segTrap u segs) with
  | some e => e
  | none =>
    if !segsReady u segs then .wait u.s
    else
      let E := rEnv h u.p.fmt u.g.srseed
      let rs := xs.map fun x => segSrc u x.1 x.2
      segFinish u u.s d ((active u).toList.map fun l => (l, f E rs l (Lane.start (u.g.srctr.get l))))

/-- The format-R instruction that an iteration stands for: maps and sign bits. -/
def sweepR (f : SFmt) : RFmt :=
  { h := f.h, d := .zero, a := .zero, b := .zero, c := .zero, ma := f.ma, mb := f.mb, mc := 0#4, ta := f.ta, tb := f.tb,
    tc := false, mod := f.mod, imm := 0#32 }

/-- FADD, FMUL and FMA sweeps (21 R323). `n`: sources, the addend being the destination segment. -/
def floSweepBody (u : Iss) (t : FloTy) (f : SFmt) (n k : Nat) (op : PosOp) : Eff :=
  let T := floCvt t
  let r := sweepR f
  let d := (segOff u f.d f.stepD k, 1)
  let a := (segOff u f.a f.stepA k, 1)
  let b := (segOff u f.b f.stepB k, 1)
  let xs := [(a, srcA r T t.positions), (b, srcB r T t.positions), (d, srcC r T t.positions)].take n
  segBody u f.h [d, a, b] d xs fun E rs l L => floLane t op E (mapLanes u) rs l L

/-- CVT's sweep (20 R314); a 64-bit type is a run of two registers. -/
def cvtSweepBody (u : Iss) (c : CvtTy) (f : SFmt) (k : Nat) : Eff :=
  let d := (segOff u f.d f.stepD k, cw (cvtDest f.mod))
  let a := (segOff u f.a f.stepA k, cw c)
  let src : Src := { o := .zero, sel := f.ma.toNat, tb := f.ta, t := c }
  segBody u f.h [d, a] d [(a, src)] fun E rs l L =>
    match rs with
    | [x] =>
      let (v, L) := fetchElem E (mapLanes u) 0 x l 0 L
      cvtLane c (cvtDest f.mod) E v (segVal u d l) (cvtPos f.mod) L
    | _ => (0, L)

/-- FQUANT's sweep (21 R333). -/
def quantSweepBody (u : Iss) (t : FloTy) (f : SFmt) (k : Nat) : Eff :=
  let d := (segOff u f.d f.stepD k, 1)
  let a := (segOff u f.a f.stepA k, 1)
  let b := (segOff u f.b f.stepB k, 1)
  let src : Src := { o := .zero, sel := f.ma.toNat, tb := f.ta, t := floCvt t, n := t.positions }
  segBody u f.h [d, a, b] d [(a, src)] fun E rs l L =>
    match rs with
    | [x] =>
      let (xs, L) := fetchAll E (mapLanes u) 0 x l L
      quantLane t (quantFmt f.mod) E xs (segWord u b 0 l) (segWord u d 0 l) (cvtPos f.mod) L
    | _ => (0, L)

/-- MACC's sweep (R153): the destination run is the addend. -/
def maccSweepBody (u : Iss) (m : MaccTy) (f : SFmt) (k : Nat) : Eff :=
  let d := (segOff u f.d f.stepD k, maccPos m)
  let a := (segOff u f.a f.stepA k, 1)
  let b := (segOff u f.b f.stepB k, 1)
  let scaled := MaccTy.isScaled m
  segBody u f.h (if scaled then [d, a, b] else [d, a]) d [(a, maccSrc m .zero f.ma f.ta)] fun E rs l L =>
    match rs.findSome? RSrc.view with
    | none => (0, L)
    | some view =>
      let x : MaccIn :=
        { view, sel := f.ma.toNat, tb := f.ta, src := segWord u a 0,
          scales := if scaled then some (segWord u b 0) else none, add := fun p i => segWord u d p i }
      maccLane E (mapLanes u) m f.mod x l L

/-- LDL's sweep (R158): iteration n reads the rows at base + n q(r + 1), translated and read at once. -/
def ldlSweepBody (u : Iss) (f : SFmt) (k : Nat) : Eff :=
  let n := ldlBytes f.mod
  let va := readPair u f.a 0 + BitVec.ofNat 64 (k * n)
  let d := (segOff u f.d f.stepD k, ldlRun f.mod)
  if fabricRun u.ctx va n then operandIllegal u
  else match (ldlSlotTrap u (ldlX f.mod) f.ma).or (segTrap u [d]) with
  | some e => e
  | none =>
    if !segsReady u [d] || engFull u .c0 then .wait u.s
    else
      match translateRun u .ldl va n with
      | .error e => e
      | .ok (s, pages) =>
        let (o, s) := mkOp u s (.load .b64 .zero) false false .grp (pieceElems .global va.toNat n pages)
        let (c, s) := choose s 2
        match (readNow s o (c == 1)).map fun r => (r.1, r.2.1, updGroup r.2.2 u.g.gid fun g => engTick g .c0 o.id) with
        | none => .wait u.s
        | some (_, some pa, s) =>
          .trap s { cause := .memoryUncorrectable, mask := u.p.members, aux0 := u.p.pc, aux1 := BitVec.ofNat 64 pa }
        | some (bs, none, s) =>
          let E := rEnv f.h u.p.fmt u.g.srseed
          let view := ldlView u.p.fmt f.ma.toNat (keepView (mapView u.g u.p.fmt f.ma.toNat))
          segFinish u s d (ldlLanes E (mapLanes u) f.mod view f.ma.toNat f.ta bs u.g.srctr (active u))

/-! ## Iterations -/

/-- COUNT of a sweep. -/
def sweepCount : Instr → Nat
  | .faddSweep _ f | .fmaSweep _ f | .fmulSweep _ f | .cvtSweep _ f | .fquantSweep _ f | .maccSweep _ f | .ldlSweep f =>
      f.count.toNat
  | _ => 0

/-- Body(n). -/
def sweepBody (u : Iss) (n : Nat) : Eff :=
  match u.i with
  | .faddSweep t f => floSweepBody u t f 2 n (opAdd t)
  | .fmulSweep t f => floSweepBody u t f 2 n (opMul t)
  | .fmaSweep t f => floSweepBody u t f 3 n (opFma t)
  | .cvtSweep c f => cvtSweepBody u c f n
  | .fquantSweep t f => quantSweepBody u t f n
  | .maccSweep m f => maccSweepBody u m f n
  | .ldlSweep f => ldlSweepBody u f n
  | _ => .done u.s

/-- What an iteration leaves: the next one due, or the sweep complete with SWPIDX zero; a trap names the iteration. -/
def sweepCommit (u : Iss) (n : Nat) (e : Eff) : State :=
  match e with
  | .done s | .jump s =>
    if n + 1 < sweepCount u.i then updSplit s u.g.gid u.p.sid fun p => { p with sweep := some (u.i, n + 1) }
    else retire (updSplit s u.g.gid u.p.sid fun p => { p with sweep := none, swpidx := 0 }) u true
  | .trap s t => takeTrap s u.g.gid u.p.sid { t with sweep := some n }
  | .wait s => s

/-- An iteration of a running group's sweep. -/
def sweepIter (u : Iss) (n : Nat) : State :=
  if sweepCount u.i ≤ n then
    retire (updSplit u.s u.g.gid u.p.sid fun p => { p with sweep := none, swpidx := 0 }) u true
  else if waitsForLoad u then u.s
  else sweepCommit u n (sweepBody u n)

/-- The next iteration of a sweep runs: no pre-emption is pending, at which the sweep stops between iterations (R270). -/
def sweepRuns (g : Group) (p : Split) : Bool := g.running && !g.haltReq && !p.halted && !shadowBlocks g p.sid

def execSweepIteration (g sp : Nat) (s : State) : Host.Outcome State Fault Refusal :=
  match groupOf s g with
  | none => .next s
  | some x =>
    match splitOf x sp, ctxOf s x.ctx with
    | some p, some ctx =>
      match p.sweep with
      | some (i, n) =>
        if sweepRuns x p then .next (sweepIter { s, i, g := x, p, ctx } n) else .next s
      | none => .next s
    | _, _ => .next s

end Sys2Proof.Machine
end

