-- ==== Sys2Proof/Machine/Barriers.lean ====
section
/-!
DEFINITION. The barrier instructions: BINIT, BARR, BEXP, BTEST, BWAIT (08 R165 to R170, 20 R296 to R299).
-/
namespace Sys2Proof.Machine

/-- Older accesses of the split to the bytes are performed, and nothing older holds the split's accesses back. -/
def spadReady (u : Iss) (off n : Nat) : Bool :=
  let e := mkElem 0 .scratch (BitVec.ofNat 64 off) none n
  let (o, _) := mkOp u u.s .store false false .grp [e]
  opReady u.s o && (olderMeets u.s o e).isEmpty

/-- The value of a scalar or immediate operand. -/
def barVal (u : Iss) (f : RFmt) (o : Opnd) : Nat := readNat u (f.imm.zeroExtend 64) false o 0

/-- The offset operand. -/
def barOff (u : Iss) (f : RFmt) : Nat := readNat u 0#64 false f.a 0

/-- The checks of a 16-byte object at an offset (R297). -/
def objTrap (u : Iss) (off : Nat) : Option Eff :=
  let t := teamOfIss u
  let lim := spadLimit t
  if off % 16 ≠ 0 then some (trapAll u .misaligned off 0)
  else if lim < off + 16 then some (trapAll u .scratchpadRange off (allocSize u.s t))
  else if handedAway u.s t.tid off 16 then some (trapAll u .handleInvalid off 0)
  else none

/-- The issuing split, its object met. -/
def met (u : Iss) (off : Nat) : Iss := { u with s := meetObj u.s u.g.team off }

/-- The common course of a barrier instruction: operand kinds, a false guard (R167), the operands' values, an operation
that the mode forbids, the object's checks, then `body` on the object once older accesses to it are performed. -/
def runBarrier (u : Iss) (f : RFmt) (kinds values nondet : Bool) (body : Iss → Nat → Bar → Eff) : Eff :=
  if !(kinds && sOk false f.a) || guardIsVector f.h.guard then operandIllegal u
  else if !scalarGuard u.g f.h.guard then .done u.s
  else if !values then operandIllegal u
  else if nondet then trapAll u .nondeterministicOp 0 0
  else
    let off := barOff u f
    match objTrap u off with
    | some e => e
    | none =>
      let v := met u off
      if spadReady u off 16 then body v off (barAt v.s u.g.team off) else .wait u.s

def execBinit (f : RFmt) (s : State) : Host.Outcome State Fault Refusal :=
  runInstr (.binit f) (fun u =>
    let n := barVal u f f.b
    let b := barVal u f f.c
    runBarrier u f (siOk f.b && siOk f.c) (decide (n ≤ 8191) && (n != 0 || b != 0)) false fun u off _ =>
      let o : Bar :=
        { phase := 0, exp := n, arr := 0, ahead := 0, ovr := false, trapovr := f.mod.getLsbD 0, carry := f.mod.getLsbD 1,
          expbytes := b, landed := 0 }
      let s := nameObj (putBar u.s u.g.team off o) u.g.team off fun x => { x with phases := [], lots := [] }
      .done (settleKeys u.g.grid (barCheck s u.g.team off))) s

/-- BARRIER_PHASE: the object's offset and the phase named (11 R207). -/
def phaseTrap (u : Iss) (off p : Nat) : Eff := trapAll u .barrierPhase off p

/-- An arrival of count `n` for phase `p` (R168). -/
def arrive (u : Iss) (off : Nat) (b : Bar) (n p : Nat) (dev : Bool) : Eff :=
  let k := (p + 2 ^ 16 - b.phase) % 2 ^ 16
  let cur := if k = 0 then b.arr else b.ahead
  let excess := decide (b.exp < cur + n)
  if 2 ≤ k then phaseTrap u off p
  else if excess && b.trapovr then trapAll u .barrierOverrun off (b.toNat % 2 ^ 64)
  else
    let v := if excess then b.exp else cur + n
    let b := { b with ovr := b.ovr || excess }
    let b := if k = 0 then { b with arr := v } else { b with ahead := v }
    let s := nameObj (putBar u.s u.g.team off b) u.g.team off fun o => o.arrival p dev u.g.lt u.g.gindex
    .done (settleKeys u.g.grid (barCheck s u.g.team off))

def execBarr (f : RFmt) (s : State) : Host.Outcome State Fault Refusal :=
  runInstr (.barr f) (fun u =>
    let l := f.mod.getLsbD 0
    let pp := f.mod.getLsbD 1
    let n := if l then max 1 (active u).count else barVal u f f.b
    runBarrier u f ((l || siOk f.b) && (!pp || siOk f.c)) (decide (1 ≤ n) && decide (n ≤ 8191)) false fun u off b =>
      if b.uninit then operandIllegal u
      else if !released u (f.mod.getLsbD 2) then .wait u.s
      else arrive u off b n (if pp then barVal u f f.c % 2 ^ 16 else b.phase) (f.mod.getLsbD 2)) s

def execBexp (f : RFmt) (s : State) : Host.Outcome State Fault Refusal :=
  runInstr (.bexp f) (fun u =>
    runBarrier u f (siOk f.b) true false fun u off b =>
      let v := barVal u f f.b
      let x := if f.mod.getLsbD 0 then v else (b.expbytes + v) % 2 ^ 32
      if b.uninit || (b.exp == 0 && x == 0) then operandIllegal u
      else
        let s := nameObj (putBar u.s u.g.team off { b with expbytes := x }) u.g.team off fun o => o.event b.phase u.g.lt
        .done (settleKeys u.g.grid (barCheck s u.g.team off))) s

/-- The phase lies from 2 to 0x8000 after the current one: neither current, next nor completed (R167). -/
def phaseBad (b : Bar) (p : Nat) : Bool :=
  let k := (p + 2 ^ 16 - b.phase) % 2 ^ 16
  decide (2 ≤ k) && decide (k ≤ 0x8000)

/-- The acquire of a completed phase (R170). -/
def phaseAcquire (u : Iss) (s : State) (off p : Nat) : State :=
  if ((objOf u.s u.g.team off).info p).dev then acquireDev s u.g.core else s

def execBtest (f : RFmt) (s : State) : Host.Outcome State Fault Refusal :=
  runInstr (.btest f) (fun u =>
    runBarrier u f (siOk f.b && sOk false f.d) true u.g.repro fun u off b =>
      let p := barVal u f f.b % 2 ^ 16
      if phaseBad b p then phaseTrap u off p
      else
        let s := setGroup u.s (writeScalarNat u.g false f.d (bitOf (b.completed p)))
        .done (if b.completed p then phaseAcquire u s off p else s)) s

def execBwait (f : RFmt) (s : State) : Host.Outcome State Fault Refusal :=
  runInstr (.bwait f) (fun u =>
    runBarrier u f (siOk f.b) true false fun u off b =>
      let p := barVal u f f.b % 2 ^ 16
      if b.uninit then operandIllegal u
      else if phaseBad b p then phaseTrap u off p
      else if b.completed p then
        let i := (objOf u.s u.g.team off).info p
        if u.g.repro && i.dev && i.key.any (harvestOut u.s u.g.grid) then .wait u.s
        else .done (phaseAcquire u (setGroup u.s (raiseLbaseAtIssue u.g i.lt)) off p)
      else
        let (seq, s) := fresh u.s
        .done (updSplit s u.g.gid u.p.sid fun q => { q with state := .waitPhase off p none, parkSeq := seq })) s

end Sys2Proof.Machine
end

