-- ==== Sys2Proof/Machine/Engines.lean ====
section
/-!
DEFINITION. Copy commands: COPY (08 R161 to R164, 20 R308 to R310), the steps of an engine that performs one (08 R163,
09 R185), and WAITC (08 R160, 23 R398).
-/
namespace Sys2Proof.Machine

/-! ## The command block (R161) -/

/-- The fields of a command. -/
structure CopyBlk where
  src : DWord
  dst : DWord
  rowBytes : Nat
  rows : Nat
  sstride : Int
  dstride : Int
  reserved : Bool

/-- The block in eight scalar registers from `o`. -/
def copyBlk (u : Iss) (o : Opnd) : CopyBlk :=
  let w (k : Nat) : Word := readWord u 0#32 (opPlus o k) 0
  { src := readPair u o 0, dst := readPair u (opPlus o 2) 0, rowBytes := bits (w 4) 0 24, rows := bits (w 5) 0 16,
    sstride := (w 6).toInt, dstride := (w 7).toInt, reserved := bits (w 4) 24 8 != 0 || bits (w 5) 16 16 != 0 }

/-- The address of a row. -/
def rowAddr (a : DWord) (stride : Int) (k : Nat) : DWord := a + BitVec.ofInt 64 ((k : Int) * stride)

/-- Some row of one side of a command lies in the fabric window. -/
def copyFabric (c : Context) (spad : Bool) (a : DWord) (stride : Int) (b : CopyBlk) : Bool :=
  !spad && (List.range b.rows).any fun k =>
    fabricRun c (rowAddr a stride k) b.rowBytes

/-- Fields of MOD and IMM32 (R162). -/
def copyKindCode (f : RFmt) : Nat := bits f.mod 0 3
def copySsp (f : RFmt) : Bool := f.mod.getLsbD 3
def copyDsp (f : RFmt) : Bool := f.mod.getLsbD 4
def copyBar (f : RFmt) : Bool := f.mod.getLsbD 5

/-- Census types of COPY.CEN. -/
def copyCenTy : Nat → CvtTy
  | 0 => .f32 | 1 => .f16 | 2 => .bf16 | 3 => .e4m3 | 4 => .e5m2 | _ => .e2m1

def copyKind (f : RFmt) : CopyKind :=
  match copyKindCode f with
  | 1 => .future
  | 2 => .census (copyCenTy (bits f.imm 16 4)) (f.imm.extractLsb' 0 16).toInt
  | 3 => .sred (bits f.imm 0 16) (bits f.imm 16 4) (bits f.imm 20 4)
  | _ => .plain

/-- Bytes of an element of COPY.CEN (20 R309) and of COPY.SRED. -/
def cenBytes (t : CvtTy) : Nat := max 1 (t.width / 8)
def sredBytes (ty : Nat) : Nat := if ty = 1 then 2 else 4

/-- The limits of each kind (R309). -/
def copyKindOk (f : RFmt) (b : CopyBlk) : Bool :=
  match copyKind f with
  | .census t b0 => b.rowBytes % cenBytes t == 0 && decide (-160 ≤ b0) && decide (b0 ≤ 127)
  | .sred _ _ ty =>
    !copySsp f && !copyDsp f && !copyBar f && b.rowBytes * b.rows % sredBytes ty == 0 &&
    decide (b.rowBytes * b.rows ≤ 2 ^ 24)
  | _ => true

/-- Operand kinds of COPY, its block apart (R162). -/
def copyOperands (f : RFmt) : Bool :=
  f.d == .zero &&
  (match f.a with
    | .s n => n.val % 8 == 0
    | _ => false) &&
  (if copyBar f then sOk false f.b && copyDsp f else f.b == .zero) &&
  (match copyKind f with
    | .future | .census .. => sOk true f.c
    | _ => f.c == .zero || sOk true f.c)

/-- The command acts on the fabric: class C3 (R308). -/
def copyIsC3 (f : RFmt) (fab : Bool) : Bool := copyKindCode f == 3 || fab

/-- The first row of one side that leaves the allocation, or touches granules handed away. -/
def rowsOutside (lim : Nat) (a : DWord) (stride : Int) (b : CopyBlk) : Option Nat :=
  ((List.range b.rows).find? fun k => decide (lim < (rowAddr a stride k).toNat + b.rowBytes)).map fun k =>
    (rowAddr a stride k).toNat

def rowsGone (s : State) (tid : Nat) (a : DWord) (stride : Int) (b : CopyBlk) : Option Nat :=
  ((List.range b.rows).find? fun k => handedAway s tid (rowAddr a stride k).toNat b.rowBytes).map fun k =>
    (rowAddr a stride k).toNat

/-- MISALIGNED, SCRATCHPAD_RANGE, HANDLE_INVALID of a COPY (R162). -/
def copyTrap (u : Iss) (f : RFmt) (b : CopyBlk) (bar : Option Nat) (caddr : DWord) : Option Eff :=
  let t := teamOfIss u
  let lim := spadLimit t
  let out := (bar.bind fun o => if lim < o + 16 then some o else none)
  let src := if copySsp f then rowsOutside lim b.src b.sstride b else none
  let dst := if copyDsp f then rowsOutside lim b.dst b.dstride b else none
  let goneB := (bar.bind fun o => if handedAway u.s t.tid o 16 then some o else none)
  let goneS := if copySsp f then rowsGone u.s t.tid b.src b.sstride b else none
  let goneD := if copyDsp f then rowsGone u.s t.tid b.dst b.dstride b else none
  let k := copyKindCode f
  match bar.bind fun o => if o % 16 ≠ 0 then some o else none with
  | some o => some (trapAll u .misaligned o 0)
  | none =>
    if (k = 1 ∨ k = 2) ∧ caddr.toNat % 8 ≠ 0 then some (trapAll u .misaligned caddr.toNat 0)
    else match src.or (dst.or out) with
    | some o => some (trapAll u .scratchpadRange o (allocSize u.s t))
    | none => (goneS.or (goneD.or goneB)).map fun o => trapAll u .handleInvalid o 0

/-- The command as it starts. A record of it may hold the instruction's bits in its AUX words. -/
def newCopy (u : Iss) (f : RFmt) (b : CopyBlk) (c3 : Bool) (cid : Nat) : Copy :=
  let w := encode u.i
  { cid, gid := u.g.gid, sid := u.p.sid, agent := u.p.agent, before := u.p.before, ctx := u.g.ctx, grid := u.g.grid,
    team := u.g.team, core := u.g.core, die := dieOf u.g.core,
    tmpl := { recTemplate u u.p.members with aux0 := w.extractLsb' 0 64, aux1 := w.extractLsb' 64 64 },
    sup := u.g.inHandler, cls := if c3 then .c3 else .c1, kind := copyKind f, ssp := copySsp f, dsp := copyDsp f,
    src := b.src, dst := b.dst, rowBytes := b.rowBytes, rows := b.rows, sstride := b.sstride, dstride := b.dstride,
    bar := if copyBar f then some (readNat u 0#64 false f.b 0) else none,
    caddr := if f.c = .zero then none else some (readPair u f.c 0), done := [], parts := [], data := [], stopped := false, suspended := false,
    acting := false, status := none, inst := none, lt := u.g.lt, gindex := u.g.gindex }

/-- The k-th COPY.SRED of a group from this device contributes to instance k (13 R244). -/
def sredTicket (s : State) (c : Copy) : State × Copy :=
  match c.kind with
  | .sred n _ _ =>
    match s.sredGroups.find? (·.num == n) with
    | some g =>
      ({ s with sredGroups := s.sredGroups.map fun x => if x.num = n then { x with nextInst := x.nextInst + 1 } else x },
        { c with inst := some g.nextInst })
    | none => (s, c)
  | _ => (s, c)

def execCopy (f : RFmt) (s : State) : Host.Outcome State Fault Refusal :=
  runInstr (.copy f) (fun u =>
    if guardIsVector f.h.guard then operandIllegal u
    else if !scalarGuard u.g f.h.guard then .done u.s
    else if !copyOperands f then operandIllegal u
    else
      let b := copyBlk u f.a
      let k := copyKindCode f
      let caddr := if f.c = .zero then 0#64 else readPair u f.c 0
      let fabS := copyFabric u.ctx (copySsp f) b.src b.sstride b
      let fabD := copyFabric u.ctx (copyDsp f) b.dst b.dstride b
      let fab := fabS || fabD
      let c3 := copyIsC3 f fab
      let bad := b.reserved || b.rowBytes == 0 || b.rows == 0 ||
        (copySsp f && bits b.src 32 32 != 0) || (copyDsp f && bits b.dst 32 32 != 0) ||
        (k != 0 && (fab || fabricRun u.ctx caddr (if k = 2 then 0x108 else 8))) || !copyKindOk f b ||
        (k == 0 && !c3 && f.c != .zero) || (u.g.checked && (k == 1 || k == 3 || fab))
      let bar := if copyBar f then some (readNat u 0#64 false f.b 0) else none
      if bad then operandIllegal u
      else if k = 1 ∧ u.g.repro = true then trapAll u .nondeterministicOp 0 0
      else match copyTrap u f b bar caddr with
      | some e => e
      | none =>
        let cls := if c3 then EngClass.c3 else EngClass.c1
        if engFull u cls then .wait u.s
        else
          let (cid, s) := fresh u.s
          let s := updGroup s u.g.gid fun g => engAdd g cls cid
          let (s, c) := sredTicket s (newCopy u f b c3 cid)
          let s := match bar with
            | some o => meetObj s u.g.team o
            | none => s
          .done { s with copies := s.copies ++ [c] }) s

/-! ## Chunks (R163) -/

/-- A chunk: its row, source and destination addresses, and size. -/
structure Chunk where
  row : Nat
  src : DWord
  dst : DWord
  len : Nat
  deriving DecidableEq, Repr

/-- The chunks of a row: cut at every destination address that is a multiple of 4,096. -/
def rowChunks (c : Copy) (k : Nat) : List Chunk :=
  let d := rowAddr c.dst c.dstride k
  let sa := rowAddr c.src c.sstride k
  let a := d.toNat
  (List.range ((a + c.rowBytes - 1) / 4096 + 1 - a / 4096)).map fun j =>
    let lo := max a (4096 * (a / 4096 + j))
    let hi := min (a + c.rowBytes) (4096 * (a / 4096 + j) + 4096)
    { row := k, src := sa + BitVec.ofNat 64 (lo - a), dst := BitVec.ofNat 64 lo, len := hi - lo }

/-- Every chunk of a command, in row order. -/
def Copy.chunks (c : Copy) : List Chunk := (List.range c.rows).flatMap (rowChunks c)

/-- Every access that happens before the COPY's issue is performed (09 R185). -/
def copyMayRun (s : State) (c : Copy) : Bool :=
  !coreSeen s c.core c.cid && s.ops.all fun o =>
    !(decide (o.id < c.cid) && (o.agent == c.agent || c.before.contains o.agent) && o.orders) || o.performed

/-- A chunk of a lower-numbered row that overlaps chunk `k` is still to be performed. -/
def chunkHeld (c : Copy) (chs : List Chunk) (k : Nat) (x : Chunk) : Bool :=
  (chs.zipIdx.take k).any fun y =>
    !c.done.contains y.2 && decide (y.1.row < x.row) && rangesMeet y.1.dst.toNat y.1.len x.dst.toNat x.len

/-- What stops a command: a translation fault or an uncorrectable granule. -/
inductive CopyStop where
  | fault (f : PageFault)
  | ecc (pa : Nat)

/-- The record of a command that stops (11 R207, 10 R205). -/
def stopCopy (s : State) (c : Copy) (x : CopyStop) : State :=
  let s := setCopy s { c with stopped := true }
  let body := match x with
    | .fault f => opRecord s c.tmpl (if f.notPresent then .pageNotPresent else .pagePermission) 3 c.tmpl.mask f.va
        (BitVec.ofNat 64 f.word)
    | .ecc pa => opRecord s c.tmpl .memoryUncorrectable 3 c.tmpl.mask c.tmpl.pc (BitVec.ofNat 64 pa)
  report s { ctx := c.ctx, body, link := .copy c.cid }

/-- The runs of one page each that `n` bytes at a virtual address make, with physical addresses: translated in order by
walks of the engine (log 15), with the state the walks leave. -/
def copyPages (s : State) (c : Copy) (acc : Access) (va : DWord) (n : Nat) : Except PageFault (List (DWord × Nat × Nat)) × State :=
  match ctxOf s c.ctx with
  | none => (.ok [], s)
  | some ctx =>
    let a := va.toNat
    (List.range ((a + n - 1) / 0x1_0000 + 1 - a / 0x1_0000)).foldl (fun r j =>
      match r.1 with
      | .error e => (.error e, r.2)
      | .ok l =>
        let lo := max a (0x1_0000 * (a / 0x1_0000 + j))
        let hi := min (a + n) (0x1_0000 * (a / 0x1_0000 + j) + 0x1_0000)
        match walkAccess r.2 ctx (BitVec.ofNat 64 lo) acc c.sup with
        | (.error e, s) => (.error e, s)
        | (.ok pa, s) => (.ok (l ++ [(BitVec.ofNat 64 lo, pa, hi - lo)]), s)) (.ok [], s)

/-- Bytes of a team's scratchpad. -/
def spadBytesAt (s : State) (tid off n : Nat) : List Byte := natToBytes n (spadRead s tid off n)

/-- The bytes that a read of `n` bytes brings, or what stops it, with the state the walks leave. -/
def copyRead (s : State) (c : Copy) (va : DWord) (n : Nat) : Except CopyStop (List Byte) × State :=
  if c.ssp then (.ok (spadBytesAt s c.team va.toNat n), s)
  else match copyPages s c .load va n with
  | (.error f, s) => (.error (.fault f), s)
  | (.ok pages, s) =>
    match pages.findSome? fun p => badGranule? s p.2.1 p.2.2 with
    | some pa => (.error (.ecc pa), s)
    | none =>
      let items := streamOf s c.team
      (.ok (pages.flatMap fun p =>
        if items.isEmpty then memReadBytes s.mem p.2.1 p.2.2
        else (List.range p.2.2).map fun k => streamByte (peekByte s c.ctx) items (p.1.toNat + k) (some (p.2.1 + k))), s)

/-- The stream items of a checked copy's global writes: naturally aligned pieces of at most 8 bytes. -/
def copyItems (c : Copy) (va : DWord) (pa : Nat) (bs : List Byte) : List StreamItem :=
  (piecesOf va.toNat bs.length).map fun p =>
    { batch := c.cid, grpid := c.tmpl.grpid, lane := 0, va := BitVec.ofNat 64 p.1, pa := some (pa + (p.1 - va.toNat)), size := p.2,
      rmw := none, data := BitVec.ofNat 64 (bytesToNat ((bs.drop (p.1 - va.toNat)).take p.2)) }

/-- The uncorrectable granules that a write of `n` bytes covers wholly are replaced (10 R205). -/
def clearBad (s : State) (pa n : Nat) : State :=
  { s with badGranules := s.badGranules.filter fun g => !(decide (pa ≤ g * 32) && decide (g * 32 + 32 ≤ pa + n)) }

/-- Bytes `lo` on of a write of `n` bytes at `va` written, or what stops it. A write into scratchpad is followed by the checks
of the objects it changes (R166). -/
def copyWrite (s : State) (c : Copy) (va : DWord) (n lo : Nat) (bs : List Byte) : Option CopyStop × State :=
  if c.dsp then (none, settleKeys c.grid (spadWrite s c.team (va.toNat + lo) bs.length (bytesToNat bs)))
  else match copyPages s c .store va n with
  | (.error f, s) => (some (.fault f), s)
  | (.ok pages, s) =>
    match pages.findSome? fun p => partlyBad s p.2.1 p.2.2 with
    | some pa => (some (.ecc pa), s)
    | none =>
      let at' := va.toNat + lo
      let s := if copyTeam s c.team then s else pages.foldl (fun s p => clearBad s p.2.1 p.2.2) s
      -- the part of each page's run that is written: virtual address, physical address, bytes
      let parts := pages.filterMap fun p =>
        let a := max at' p.1.toNat
        let b := min (at' + bs.length) (p.1.toNat + p.2.2)
        if a < b then some (BitVec.ofNat 64 a, p.2.1 + (a - p.1.toNat), (bs.drop (a - at')).take (b - a)) else none
      (none,
        if copyTeam s c.team then parts.foldl (fun s x => streamPut s c.ctx c.team (copyItems c x.1 x.2.1 x.2.2)) s
        else parts.foldl (fun s x => noteZero (physWriteBytes s x.2.1 x.2.2) x.2.1 x.2.2.length none) s)

/-- How far `m` bytes of `n` at an address reach, in whole 8-byte units (09 R181). -/
def wholeUnits (a n m : Nat) : Nat := if n ≤ m then n else min n (m + (8 - (a + m) % 8) % 8)

/-- How far `m` bytes of `n` at an address reach without cutting a unit. -/
def fullUnits (a n m : Nat) : Nat := if n ≤ m then n else m - min m ((a + m) % 8)

/-- Where part `k` of a command is written: a chunk, or a row of a fabric command. -/
def Copy.partDst (c : Copy) (k : Nat) : Option DWord :=
  if c.cls = .c3 then some (rowAddr c.dst c.dstride k) else (c.chunks[k]?).map Chunk.dst

/-- A chunk of a command as far as it has come. -/
def partOf (c : Copy) (k : Nat) : ChunkPart := (c.parts.find? (·.num == k)).getD { num := k, read := [], written := 0 }

def setPart (c : Copy) (p : ChunkPart) : Copy := { c with parts := p :: c.parts.filter (·.num != p.num) }

/-- A chunk read `rd` bytes further. -/
def readPart (s : State) (c : Copy) (k : Nat) (x : Chunk) (rd : Nat) : Option CopyStop × State × Copy :=
  let p := partOf c k
  let have' := p.read.length
  let upto := if rd = 0 then have' else wholeUnits x.src.toNat x.len (have' + rd)
  if upto ≤ have' then (none, s, setPart c p)
  else match copyRead s c (x.src + BitVec.ofNat 64 have') (upto - have') with
  | (.error e, s) => (some e, s, c)
  | (.ok bs, s) => (none, s, setPart c { p with read := p.read ++ bs })

/-- A chunk written `wr` bytes further, as far as it has been read. -/
def writePart (s : State) (c : Copy) (k : Nat) (x : Chunk) (wr : Nat) : Option CopyStop × State × Copy :=
  let p := partOf c k
  let upto := min (wholeUnits x.dst.toNat x.len (p.written + wr)) (fullUnits x.dst.toNat x.len p.read.length)
  if wr = 0 ∨ upto ≤ p.written then (none, s, c)
  else match copyWrite s c x.dst x.len p.written ((p.read.drop p.written).take (upto - p.written)) with
  | (some e, s) => (some e, s, c)
  | (none, s) => (none, s, setPart c { p with written := upto })

/-- A chunk that is wholly written is performed: a census keeps what was read, and its bytes land (R169). -/
def endChunk (s : State) (c : Copy) (k : Nat) (x : Chunk) : State :=
  let p := partOf c k
  if p.written < x.len then setCopy s c
  else
    let data := match c.kind with
      | .census .. => c.data ++ [(k, p.read)]
      | _ => c.data
    let s := setCopy s { c with done := c.done ++ [k], parts := c.parts.filter (·.num != k), data }
    match c.bar with
    | some off => settleKeys c.grid (landBytes s c.team off x.len c.lt)
    | none => s

/-- A step of a chunk: read `rd` bytes further, then written `wr` bytes further, in 8-byte units (09 R181). -/
def performPart (s : State) (c : Copy) (k : Nat) (x : Chunk) (rd wr : Nat) : State :=
  match readPart s c k x rd with
  | (some e, s, c) => stopCopy s c e
  | (none, s, c) =>
    match writePart s c k x wr with
    | (some e, s, c) => stopCopy s c e
    | (none, s, c) => endChunk s c k x

/-- Two chunks write bytes of one 8-byte unit. -/
def shareUnit (x y : Chunk) : Bool :=
  decide (x.dst.toNat / 8 ≤ (y.dst.toNat + y.len - 1) / 8) && decide (y.dst.toNat / 8 ≤ (x.dst.toNat + x.len - 1) / 8)

/-- The chunks still to be performed that chunk `k` shares 8-byte units with, however indirectly, itself among them, in
order: the bytes that a command writes within a unit are written together (09 R181). -/
def unitMates (c : Copy) (chs : List Chunk) (k : Nat) : List Nat :=
  let all := (List.range chs.length).filter fun j => !c.done.contains j
  let grow (l : List Nat) : List Nat := all.filter fun j => l.contains j ||
    l.any fun i => match chs[i]?, chs[j]? with
      | some x, some y => shareUnit x y
      | _, _ => false
  (List.range all.length).foldl (fun l _ => grow l) [k]

/-- A chunk performed whole. -/
def performChunk (s : State) (cid k : Nat) : State :=
  match copyOf s cid with
  | none => s
  | some c =>
    match c.chunks[k]? with
    | some x => if c.stopped || c.done.contains k then s else performPart s c k x x.len x.len
    | none => s

/-- Chunk `k` is not begun any more: the command's group has halted for a pre-emption, or has retired and its team is
pre-empted, and the command stops at the next chunk boundary (11 R215). -/
def copyStops (s : State) (c : Copy) (k : Nat) : Bool :=
  !(c.parts.any (·.num == k)) && (match groupOf s c.gid with
    | some g => g.haltReq && (g.place != .resident || g.splits.all Split.halted)
    | none => (teamOf s c.team).any Team.haltReq)

/-- A step of a chunk that may be performed; chunks that share 8-byte units are performed in one step. -/
def execCopyChunk (c : Nat) (m : ChunkMove) (s : State) : Host.Outcome State Fault Refusal :=
  match copyOf s c with
  | none => .next s
  | some cp =>
    let chs := cp.chunks
    let k := m.num
    match chs[k]? with
    | none => .next s
    | some x =>
      if cp.cls == .c1 && !cp.stopped && !cp.suspended && !cp.done.contains k && copyMayRun s cp && !chunkHeld cp chs k x &&
        !copyStops s cp k
      then .next (match unitMates cp chs k with
        | [_] => performPart s cp k x m.rd m.wr
        | ks => ks.foldl (fun s j => performChunk s c j) s)
      else .next s

/-! ## Completion (R163, R159) -/

/-- Every byte a command read, in row order. -/
def copyData (c : Copy) : List Byte :=
  (sortLe (fun a b => decide (a.1 ≤ b.1)) c.data).flatMap Prod.snd

/-- Element codes of bytes. -/
def byteCodes (t : CvtTy) (bs : List Byte) : List Nat :=
  let n := bytesToNat bs
  (List.range (bs.length * 8 / t.width)).map fun k => elemAt t n k

/-- The operation by which a command's action is presented. -/
def actionOp (c : Copy) (id : Nat) (kind : OpKind) (es : List Elem) : Op :=
  { id, gid := c.gid, sid := c.sid, agent := id, before := [], ctx := c.ctx, grid := c.grid, team := c.team, core := c.core,
    die := c.die, tmpl := c.tmpl, sup := c.sup, kind, acq := false, rel := false, scope := .dev, lt := c.lt,
    gindex := c.gindex, harvest := none, elems := es }

/-- The command counts off and is gone. -/
def copyGone (s : State) (c : Copy) : State :=
  let s := updGroup s c.gid fun g => engDone g c.cid
  { s with copies := s.copies.filter (·.cid != c.cid) }

/-- The action of a command all of whose chunks are performed: a future's resolution or a census fold is presented; a
command with no action counts off. -/
def copyAct (s : State) (c : Copy) : State :=
  match c.kind with
  | .future =>
    let (id, s) := fresh s
    let o := actionOp c id (.copyF c.cid) [mkElem 0 .global (c.caddr.getD 0#64) none 8]
    setCopy { s with ops := s.ops ++ [o] } { c with acting := true, inst := some id }
  | .census t b0 =>
    let es := foldElems .global (c.caddr.getD 0#64) 0 t b0 (byteCodes t (copyData c))
    let (id, s) := fresh s
    let o := actionOp c id .fold es
    if gridRepro s c.grid && !copyTeam s c.team then
      copyGone (updGrid s c.grid fun g => { g with buffered := g.buffered ++ [{ lt := c.lt, gindex := c.gindex, order := c.cid, op := o }] }) c
    else setCopy { s with ops := s.ops ++ [o] } { c with acting := true, inst := some id }
  | _ => copyGone s c

/-- The action's requests have been accepted: performed, or parked in the Sluice (R159). -/
def actionAccepted (s : State) (c : Copy) : Bool :=
  match c.inst.bind (opOf s) with
  | none => true
  | some o => o.elems.all fun e => match e.st with
    | .pending | .held _ => false
    | _ => true

def execCopyCompletion (c : Nat) (s : State) : Host.Outcome State Fault Refusal :=
  match copyOf s c with
  | none => .next s
  | some cp =>
    if cp.cls != .c1 || cp.suspended then .next s
    else if cp.acting then .next (if actionAccepted s cp then copyGone s cp else s)
    else if cp.done.length = cp.chunks.length then .next (copyAct s cp)
    else .next s

/-! ## WAITC -/

def waitcClass (f : RFmt) : EngClass :=
  match bits f.mod 0 2 with
  | 0 => .c0 | 1 => .c1 | 2 => .c2 | _ => .c3

def execWaitc (f : RFmt) (s : State) : Host.Outcome State Fault Refusal :=
  runInstr (.waitc f) (fun u =>
    let t := readNat u (f.imm.zeroExtend 64) false f.a 0
    if !siOk f.a || guardIsVector f.h.guard then operandIllegal u
    else if !scalarGuard u.g f.h.guard then .done u.s
    else if 63 < t then operandIllegal u
    else if t < counter u.g (waitcClass f) then .wait u.s
    else match waitcClass f with
    | .c1 | .c3 => .done (acquireDev u.s u.g.core)
    | _ => .done u.s) s

end Sys2Proof.Machine
end

