-- ==== Sys2Proof/Machine/Control.lean ====
section
/-!
DEFINITION. Divergence and the control class: BRA, BRA.D, BRK, BRX, CALL, RET (03 R59 to R65, 20 R301 to R303, 23 R391),
EXIT and EXIT.J (R63, 04 R91, 21 R319), GSYNC and JOIN (R62, R66, 22 R345), NOP and YIELD (23 R374, R375), and the
opportunistic merge (R64).
-/
namespace Sys2Proof.Machine

/-! ## Agents (09 R174, R184) -/

/-- The agents whose accesses come before those of a split that continues `p`: its own and its predecessors', while they
have an access or a fence outstanding. -/
def lineage (s : State) (as : List Nat) : List Nat :=
  as.eraseDups.filter fun a => s.ops.any (·.agent == a) || s.fences.any (·.agent == a)

def Split.agents (p : Split) : List Nat := p.agent :: p.before

/-- A split as a new agent that follows `as`. -/
def renew (s : State) (as : List Nat) (p : Split) : Split × State :=
  let (a, s) := fresh s
  ({ p with agent := a, before := lineage s as }, s)

/-- The lanes `x` no longer belong to a split. -/
def Split.leave (p : Split) (x : Lanes) : Split :=
  { p with members := p.members &&& ~~~x, em := p.em &&& ~~~x, epoch := p.epoch + 1 }

/-- The issuing split with the stamp of this issue, by which it is ranked among the READY ones (R56). -/
def Iss.issued (u : Iss) : Split := { u.p with stamp := u.s.clock.toNat }

/-! ## Tables (R56 to R58) -/

/-- Records of the split area. -/
def areaRecords (c : Context) : Nat := c.splitArea / 32

/-- Room for `ns` more splits and `nr` more regions, hardware tables and split area together. -/
def tablesHold (c : Context) (g : Group) (ns nr : Nat) : Bool :=
  decide ((g.splits.length + ns - Config.splitTable) + (g.regions.length + nr - Config.regionTable) ≤ areaRecords c)

/-- The order of victims (R56): JOINED by arrival, then SYNCED or WAITING by parking, then READY by oldest issue; ties by
lowest member. `parkSeq` rises in order of parking. -/
def victimRank (p : Split) : Nat × Nat × Nat :=
  let low := (p.members.lowest).getD 64
  match p.state with
  | .joined => (0, p.parkSeq, low)
  | .synced | .waitJoin .. | .waitPhase .. => (1, p.parkSeq, low)
  | .ready => (2, p.stamp, low)

def rankLt (a b : Nat × Nat × Nat) : Bool :=
  decide (a.1 < b.1) || (a.1 == b.1 && (decide (a.2.1 < b.2.1) || (a.2.1 == b.2.1 && decide (a.2.2 < b.2.2))))

/-- The resident split to be written to the split area when the table is full, other than `keep`. -/
def splitVictim (g : Group) (keep : Nat) : Option Nat :=
  let res := g.splits.filter fun p => p.resident && p.sid != keep
  ((sortLe (fun a b => !rankLt (victimRank b) (victimRank a)) res).head?).map Split.sid

/-- Split `keep` has a place in the hardware table. An entry that gives way is only marked as not resident: the layout of the
split area is opaque, and the model writes none of its bytes in memory (log 70). -/
def makeResident (g : Group) (keep : Nat) : Group :=
  let full := decide (Config.splitTable ≤ (g.splits.filter fun p => p.resident && p.sid != keep).length)
  let v := if full then splitVictim g keep else none
  { g with splits := g.splits.map fun p =>
      if p.sid = keep then { p with resident := true }
      else if v = some p.sid then { p with resident := false } else p }

/-- The region to be written out when the table is full: of least depth, opened earliest (R56). -/
def regionVictim (g : Group) : Option Nat :=
  let res := g.regions.filter Region.resident
  ((sortLe (fun a b => decide (a.depth < b.depth) || (a.depth == b.depth && decide (a.seq ≤ b.seq))) res).head?).map Region.rid

/-- A new region in the table. -/
def addRegion (g : Group) (r : Region) : Group :=
  let v := if Config.regionTable ≤ (g.regions.filter Region.resident).length then regionVictim g else none
  { g with regions := (g.regions.map fun x => if v = some x.rid then { x with resident := false } else x) ++ [r] }

/-- A new split in the table. -/
def addSplit (g : Group) (p : Split) : Group := makeResident { g with splits := g.splits ++ [p] } p.sid

/-- SPLIT_SPILL_FAULT (R58). -/
def spillTrap (u : Iss) : Eff := trapAll u .splitSpillFault u.ctx.splitArea 0

/-! ## Region chains and the close check (R54, R61) -/

/-- A region chain, innermost first; `fuel` bounds its length. -/
def chainFrom (g : Group) (fuel : Nat) (r : Option Nat) : List Region :=
  match fuel with
  | 0 => []
  | n + 1 =>
    match r.bind (regionOf g) with
    | none => []
    | some x => x :: chainFrom g n x.parent

def chainOf (g : Group) (p : Split) : List Region := chainFrom g (g.regions.length + 1) p.region

/-- A split as it is made: nothing of a chain, a sweep or a halt is under way. -/
def Split.born (p : Split) : Split :=
  { p with state := .ready, resident := true, parkSeq := 0, chainLen := 0, chainPC := 0#64, sweep := none, swpidx := 0,
           awaiting := none, syncWait := none, syncOk := false, refetch := false, bpSkip := false, bpMatch := none,
           halted := false, yield := none, issues := 0 }

/-- The split that a close makes (R61). -/
def mergedSplit (r : Region) (joined : List Split) (p : Split) : Split :=
  { Split.born p with
    members := r.expected, em := r.savedEM &&& r.expected, fmt := r.savedFMT, pc := r.joinPC + 16#64, region := r.parent,
    stamp := ((joined.map Split.stamp).min?).getD 0 }

/-- The close check of a region. -/
def closeCheck (s : State) (gid rid : Nat) : State :=
  match groupOf s gid with
  | none => s
  | some g =>
    match regionOf g rid with
    | none => s
    | some r =>
      let without : Group := { g with regions := g.regions.filter (·.rid != rid) }
      if r.expected = 0#64 then setGroup s without
      else if r.arrived ≠ r.expected then s
      else
        let joined := g.splits.filter fun p => p.state == .joined && p.region == some rid
        match joined with
        | [] => s
        | p :: _ =>
          let (sid, s) := fresh s
          let (m, s) := renew s (r.agents ++ joined.flatMap Split.agents) { mergedSplit r joined p with sid }
          let rest := { without with splits := g.splits.filter fun q => !(q.state == .joined && q.region == some rid) }
          setGroup s (addSplit rest m)

/-- The close checks of regions, innermost first. -/
def closeChecks (s : State) (gid : Nat) (rs : List Region) : State := rs.foldl (fun s r => closeCheck s gid r.rid) s

/-- GSYNC's release (R66): every live split that is not JOINED is SYNCED. -/
def syncRelease (s : State) (gid : Nat) : State :=
  match groupOf s gid with
  | none => s
  | some g =>
    let live := g.splits.filter fun p => p.state != .joined
    let synced := live.filter fun p => p.state == .synced
    if synced.isEmpty || synced.length != live.length then s
    else
      let as := synced.flatMap Split.agents
      let (s, ps) := synced.foldl (fun acc p =>
        let r := renew acc.1 as { p with state := .ready }
        (r.2, acc.2 ++ [r.1])) (s, [])
      setGroup s (ps.foldl setSplit g)

/-! ## Branches -/

/-- A code target (14 R257). -/
def target (base : DWord) (off : Word) : DWord := base + 16#64 * off.signExtend 64

/-- Whether the split branches (R60, R69): a uniform guard decides for all, a vector guard by the active lanes; none when
they disagree. -/
def branches (u : Iss) : Option Bool :=
  match instrGuard u.i with
  | .vector .. =>
    let t := active u
    if t = 0#64 then some false else if t = u.p.em then some true else none
  | gd => some (guardTrue u.g gd 0)

/-- The split at a new PC. -/
def jumpTo (u : Iss) (s : State) (pc : DWord) : Eff := .jump (updSplit s u.g.gid u.p.sid fun p => { p with pc })

/-- A jump to an indirect target, which must be a multiple of 16 (R251). -/
def jumpAligned (u : Iss) (s : State) (t : DWord) : Eff :=
  if bits t 0 4 ≠ 0 then trapAll u .misaligned t.toNat 0 else jumpTo u s t

/-- The common course of a branch: the guard's decision, then `go`. -/
def branchIf (u : Iss) (go : Eff) : Eff :=
  match branches u with
  | none => operandIllegal u
  | some false => .done u.s
  | some true => go

def execBra (f : CFmt) (s : State) : Host.Outcome State Fault Refusal :=
  runInstr (.bra f) (fun u => branchIf u (jumpTo u u.s (target u.p.pc f.toff))) s

/-- The division of a split by BRA.D (R59). -/
def divide (u : Iss) (taken : Lanes) (tgt join : DWord) : Eff :=
  if !tablesHold u.ctx u.g 1 1 then spillTrap u
  else
    let (rid, s) := fresh u.s
    let r : Region :=
      { rid, joinPC := join, expected := u.p.members, arrived := 0#64, savedEM := u.p.em, savedFMT := u.p.fmt,
        parent := u.p.region, depth := (chainOf u.g u.p).length + 1, seq := rid, resident := true, agents := [] }
    let (sid, s) := fresh s
    let t0 : Split :=
      { Split.born u.p with
        sid, members := taken, em := taken, pc := tgt, region := some rid, stamp := u.s.clock.toNat }
    let (t, s) := renew s u.p.agents t0
    let (p, s) := renew s u.p.agents
      { u.issued.leave taken with pc := u.p.pc + 16#64, region := some rid }
    .jump (setGroup s (addSplit (addRegion (setSplit u.g p) r) t))

def execBraD (f : CFmt) (s : State) : Host.Outcome State Fault Refusal :=
  runInstr (.braD f) (fun u =>
    let taken := active u
    let tgt := target u.p.pc f.toff
    if taken = 0#64 then .done u.s
    else if taken = u.p.em then jumpTo u u.s tgt
    else divide u taken tgt (target u.p.pc f.xoff)) s

/-- The regions of a list with lanes no longer expected. -/
def unexpect (g : Group) (rs : List Region) (x : Lanes) (as : List Nat) : Group :=
  rs.foldl (fun g r => match regionOf g r.rid with
    | some r => setRegion g { r with expected := r.expected &&& ~~~x, agents := r.agents ++ as }
    | none => g) g

/-- The lanes `x` leave the `n` innermost regions (R65). -/
def breakOut (u : Iss) (x : Lanes) (rs : List Region) (tgt : DWord) : Eff :=
  let parent := (rs.getLast?).bind Region.parent
  if x = u.p.members then
    let (p, s) := renew u.s u.p.agents { u.p with pc := tgt, region := parent }
    let s := setGroup s (unexpect (setSplit u.g p) rs x [])
    .jump (syncRelease (closeChecks s u.g.gid rs) u.g.gid)
  else if !tablesHold u.ctx u.g 1 0 then spillTrap u
  else
    let (sid, s) := fresh u.s
    let (b, s) := renew s u.p.agents
      { Split.born u.p with sid, members := x, em := u.p.em &&& x, pc := tgt, region := parent, stamp := u.s.clock.toNat }
    let (p, s) := renew s u.p.agents
      { u.issued.leave x with pc := u.p.pc + 16#64 }
    let s := setGroup s (addSplit (unexpect (setSplit u.g p) rs x []) b)
    .jump (syncRelease (closeChecks s u.g.gid rs) u.g.gid)

def execBrk (f : CFmt) (s : State) : Host.Outcome State Fault Refusal :=
  runInstr (.brk f) (fun u =>
    let n := bits f.xoff 0 8
    let chain := chainOf u.g u.p
    let x := guardedMembers u
    if chain.length < n then trapAll u .regionUnderflow n chain.length
    else if x = 0#64 then .done u.s
    else breakOut u x (chain.take n) (target u.p.pc f.toff)) s

/-- The common target of BRX's active lanes. -/
def commonTarget (u : Iss) (f : CFmt) : Option DWord :=
  match (active u).toList.map fun l => target (readPair u f.a l) f.toff with
  | [] => none
  | t :: ts => if ts.all (· == t) then some t else none

def execBrx (f : CFmt) (s : State) : Host.Outcome State Fault Refusal :=
  runInstr (.brx f) (fun u =>
    if !vsOk u.g true f.a then operandIllegal u
    else branchIf u
      (if isScalar f.a then jumpAligned u u.s (target (readPair u f.a 0) f.toff)
       else if active u == 0#64 then .done u.s
       else match commonTarget u f with
       | none => operandIllegal u
       | some t => jumpAligned u u.s t)) s

def execCall (f : CFmt) (s : State) : Host.Outcome State Fault Refusal :=
  runInstr (.call f) (fun u =>
    if !(sOk true f.d && (f.a == .zero || sOk true f.a)) then operandIllegal u
    else
      let base := if f.a = .zero then u.p.pc else readPair u f.a 0
      let s := setGroup u.s (writeScalarNat u.g true f.d (u.p.pc + 16#64).toNat)
      branchIf u (jumpAligned u s (target base f.toff))) s

def execRet (f : CFmt) (s : State) : Host.Outcome State Fault Refusal :=
  runInstr (.ret f) (fun u =>
    if !sOk true f.a then operandIllegal u
    else branchIf u (jumpAligned u u.s (target (readPair u f.a 0) f.toff))) s

/-! ## EXIT (R63, R319) -/

/-- The lanes `x` of the issuing split exit. -/
def exitLanes (u : Iss) (s : State) (x : Lanes) : State :=
  match groupOf s u.g.gid with
  | none => s
  | some g =>
    let chain := chainOf g u.p
    let g := unexpect g chain x u.p.agents
    let g := if u.p.members &&& ~~~x = 0#64 then { g with splits := g.splits.filter (·.sid != u.p.sid) }
      else setSplit g (u.issued.leave x)
    syncRelease (closeChecks (setGroup s g) g.gid chain) g.gid

def execExit (f : CFmt) (s : State) : Host.Outcome State Fault Refusal :=
  runInstr (.exit f) (fun u =>
    let x := guardedMembers u
    if x = 0#64 then .done u.s else .done (exitLanes u u.s x)) s

/-- EXIT.J once its operands are legal: alignment and translation of every address, then the exit and the decrements. -/
def exitJBody (u : Iss) (f : MFmt) (x : Lanes) : Eff :=
  let ls := x.toList.filter fun l => effAddr u f l != 0#64
  match addrTrap u .global ls (effAddr u f) 4 4 with
  | some e => e
  | none =>
    let (s, _, fs) := translateLanes u.s u .rmw ls (effAddr u f)
    if !fs.isEmpty then pageTrap s fs
    else if !ls.isEmpty && (groupParked u.s u.g.gid || pathHeld u.s u.g.core) then .wait u.s
    else
      let s := if ls.isEmpty then s
        else addOp u s (.dec true) false true .dev none (ls.map fun l => decElem l (effAddr u f l))
      .done (exitLanes u s x)

def execExitJ (f : MFmt) (s : State) : Host.Outcome State Fault Refusal :=
  runInstr (.exitJ f) (fun u =>
    let x := guardedMembers u
    let ls := x.toList
    let anyAddr := ls.any fun l => effAddr u f l != 0#64
    if f.d != .zero || f.space != 0#4 || !addrOk u.g true f || fabricIllegal u f ls || (u.g.checked && anyAddr)
    then operandIllegal u
    else if x = 0#64 then .done u.s
    else exitJBody u f x) s

/-! ## JOIN, GSYNC, NOP, YIELD -/

/-- The issuing split parks, with the stamp of this issue. -/
def parkAs (u : Iss) (st : SplitState) : State :=
  let (seq, s) := fresh u.s
  updSplit s u.g.gid u.p.sid fun p => { p with state := st, parkSeq := seq, stamp := u.s.clock.toNat }

def execJoin (f : CFmt) (s : State) : Host.Outcome State Fault Refusal :=
  runInstr (.join f) (fun u =>
    match u.p.region.bind (regionOf u.g) with
    | none => .done u.s
    | some r =>
      if r.joinPC ≠ u.p.pc then .done u.s
      else
        let s := updGroup (parkAs u .joined) u.g.gid fun g => setRegion g { r with arrived := r.arrived ||| u.p.members }
        .done (syncRelease (closeCheck s u.g.gid r.rid) u.g.gid)) s

def execGsync (f : CFmt) (s : State) : Host.Outcome State Fault Refusal :=
  runInstr (.gsync f) (fun u => .done (syncRelease (parkAs u .synced) u.g.gid)) s

def execNop (f : CFmt) (s : State) : Host.Outcome State Fault Refusal :=
  runInstr (.nop f) (fun u => .done u.s) s

def execYield (f : CFmt) (s : State) : Host.Outcome State Fault Refusal :=
  runInstr (.yield f) (fun u =>
    if u.g.repro then .done u.s
    else
      let (ms, s) := yieldMarks u.s u.g u.p
      .done (updSplit s u.g.gid u.p.sid fun p => { p with yield := some (u.s.clock.toNat, ms) })) s

/-! ## Opportunistic merge (R64) -/

/-- A split whose instruction has issued and has not retired: a sweep under way, or a reply awaited. It stands no longer
before that instruction's issue (log 40). -/
def Split.underWay (p : Split) : Bool := p.sweep.isSome || p.awaiting.isSome

/-- Whether `q` merges into `p`, which is about to issue. -/
def mergesInto (p q : Split) : Bool :=
  q.sid != p.sid && q.resident && q.state == .ready && q.pc == p.pc && q.region == p.region && q.fmt == p.fmt &&
  q.chainLen == 0 && !q.underWay

/-- The splits of a group that merge into the one about to issue, which keeps its SWPIDX (log 40). Its instruction is fetched
afresh if that of any of them was to be (20 R305). -/
def mergeBefore (s : State) (gid sid : Nat) : State :=
  match groupOf s gid with
  | none => s
  | some g =>
    match splitOf g sid with
    | none => s
    | some p =>
      let qs := g.splits.filter (mergesInto p)
      if g.repro || p.underWay || qs.isEmpty then s
      else
        let all := p :: qs
        let m := all.foldl (fun m q => m ||| q.members) 0#64
        let e := all.foldl (fun m q => m ||| q.em) 0#64
        let (p', s) := renew s (all.flatMap Split.agents)
          { p with
            members := m, em := e, epoch := p.epoch + 1, stamp := ((all.map Split.stamp).min?).getD p.stamp,
            refetch := all.any Split.refetch }
        setGroup s (setSplit { g with splits := g.splits.filter fun q => !(qs.any (·.sid == q.sid)) } p')

end Sys2Proof.Machine
end

