-- ==== Sys2Proof/Machine/System.lean ====
section
/-!
DEFINITION. The system class: MOV (22 R370, R371), MOVSR (R372, R373), SETSR (23 R392, R393), FMTSET (21 R338, R339),
BKPT (20 R300), TRAP and TRAP.ESC (23 R396, R397), IRET (22 R350), FLTRD (21 R336, R337), PGMAP (10 R201, 23 R390).
-/
namespace Sys2Proof.Machine

/-! ## MOV -/

def execMovB32 (f : RFmt) (s : State) : Host.Outcome State Fault Refusal :=
  runInstr (.movB32 f) (fun u =>
    runLanes u f.h f.d false [{ o := f.a, sel := f.ma.toNat, tb := f.ta, t := .b32 }] f.imm true fun _ rs l L =>
      match rs with
      | [a] => (a.raw l, L)
      | _ => (0, L)) s

def execMovB64 (f : RFmt) (s : State) : Host.Outcome State Fault Refusal :=
  runInstr (.movB64 f) (fun u =>
    runLanes u f.h f.d true [{ o := f.a, sel := f.ma.toNat, tb := f.ta, t := .b64 }] f.imm true fun _ rs l L =>
      match rs with
      | [a] => (a.raw l, L)
      | _ => (0, L)) s

def execMovB64Imm64 (f : IFmt) (s : State) : Host.Outcome State Fault Refusal :=
  runInstr (.movB64Imm64 f) (fun u =>
    runLanes u f.h f.d true [] 0#32 (f.b == .imm) fun _ _ _ L => (f.imm64.toNat, L)) s

/-! ## Special registers (05 R105) -/

/-- Registers that software may write. -/
def srWritable (n : Nat) : Bool := [0x0A, 0x0C, 0x0D, 0x10, 0x12, 0x20, 0x22, 0x24].contains n

/-- The value of a register in lane `l`, as it stands at issue (22 R373). -/
def srValue (u : Iss) (n l : Nat) : Nat :=
  let g := u.g
  match n with
  | 0x00 => l
  | 0x01 => g.grpid
  | 0x02 => g.teamid
  | 0x03 => g.gridid
  | 0x04 => g.nteam.toNat
  | 0x05 => g.ngrp
  | 0x06 => g.role
  | 0x08 => u.p.members.toNat
  | 0x0A => u.p.em.toNat
  | 0x0C => u.p.fmt.toNat
  | 0x0D => g.status.toNat
  | 0x0E => u.p.swpidx
  | 0x10 => g.srseed.toNat
  | 0x12 => (g.srctr.get l).toNat
  | 0x14 => u.s.clock.toNat
  | 0x16 => g.lclk.toNat
  | 0x18 => (g.parts.getD 0 0#64).toNat
  | 0x1A => (g.parts.getD 1 0#64).toNat
  | 0x1C => (g.parts.getD 2 0#64).toNat
  | 0x1E => (g.parts.getD 3 0#64).toNat
  | 0x20 => g.trapcause.toNat
  | 0x22 => g.trappc.toNat
  | 0x24 => g.trapmask.toNat
  | _ => 0

/-- The destinations MOVSR allows a kind (R372). -/
def movsrDst (g : Group) (k : SrKind) (d : Opnd) : Bool :=
  match d with
  | .s n => match k with
    | .v32 => false
    | .u32 => true
    | .u64 => n.val % 2 == 0
  | .v n => if k = .u64 then vecPairOk g n.val else vecOk g n.val
  | .o _ => k != .u64
  | _ => false

def execMovsr (f : KFmt) (s : State) : Host.Outcome State Fault Refusal :=
  runInstr (.movsr f) (fun u =>
    let n := bits f.kimm 0 8
    let k := srKind n
    let scal := isScalar f.d
    if f.a != .imm || !movsrDst u.g k f.d || (scal && guardIsVector f.h.guard) then operandIllegal u
    else if scal && !scalarGuard u.g f.h.guard then .done u.s
    else if n = 0x14 ∧ u.g.repro = true then trapAll u .nondeterministicOp 0 0
    else if scal then .done (setGroup u.s (writeScalarNat u.g (k == .u64) f.d (srValue u n 0)))
    else .done (writeVector u.s u.g u.p f.d false (k == .u64) false (active u) (srValue u n))) s

/-- The sources SETSR allows a kind (R392). -/
def setsrSrc (g : Group) (k : SrKind) (b : Opnd) : Bool :=
  b == .zero ||
  match k with
  | .u32 => sOk false b
  | .u64 => sOk true b
  | .v32 => (match b with
    | .v n => vecOk g n.val
    | .o _ => true
    | _ => false)

/-- FMT as SETSR writes it: W32 is kept (05 R108). -/
def fmtWrite (old : BitVec 9) (a : Word) : BitVec 9 := (old &&& 0x100#9) ||| (a.setWidth 9 &&& 0x0FF#9)

/-- The effect of SETSR of a uniform register (R393). Bit 31 of TRAPCAUSE is reserved: a write of it is ignored (00 R12). -/
def setsrUniform (u : Iss) (n v : Nat) : Eff :=
  let w : DWord := BitVec.ofNat 64 v
  let grp (f : Group → Group) : Eff := .done (updGroup u.s u.g.gid f)
  let spl (f : Split → Split) : Eff := .done (updSplit u.s u.g.gid u.p.sid f)
  match n with
  | 0x0A => spl fun p => { p with em := w &&& p.members }
  | 0x0C =>
    let new := fmtWrite u.p.fmt (w.setWidth 32)
    if fmtValid new then spl fun p => { p with fmt := new } else operandIllegal u
  | 0x0D => grp fun g => clearFlags g (w.setWidth 32)
  | 0x10 => grp fun g => { g with srseed := w }
  | 0x20 => grp fun g => { g with trapcause := w.setWidth 32 &&& 0x7FFF_FFFF#32 }
  | 0x22 => grp fun g => { g with trappc := w }
  | 0x24 => grp fun g => { g with trapmask := w }
  | _ => operandIllegal u

def execSetsr (f : KFmt) (s : State) : Host.Outcome State Fault Refusal :=
  runInstr (.setsr f) (fun u =>
    let n := bits f.kimm 0 8
    let k := srKind n
    if f.a != .imm || !(srWritable n && setsrSrc u.g k f.b) || (k != .v32 && guardIsVector f.h.guard) then operandIllegal u
    else if k = .v32 then
      .done (setGroup u.s { u.g with srctr := mergeLanes (active u) u.g.srctr (readWord u 0#32 f.b) })
    else if !scalarGuard u.g f.h.guard then .done u.s
    else setsrUniform u n (readNat u 0#64 (k == .u64) f.b 0)) s

/-! ## FMTSET -/

/-- The bits of FMT that FMTSET's MOD selects (21 R338). -/
def fmtMask (m : BitVec 7) : BitVec 9 :=
  (if m.getLsbD 0 then 0x007#9 else 0#9) ||| (if m.getLsbD 1 then 0x008#9 else 0#9) |||
  (if m.getLsbD 2 then 0x010#9 else 0#9) ||| (if m.getLsbD 3 then 0x060#9 else 0#9) |||
  (if m.getLsbD 4 then 0x080#9 else 0#9)

def execFmtset (f : KFmt) (s : State) : Host.Outcome State Fault Refusal :=
  runInstr (.fmtset f) (fun u =>
    if !siOk f.a || guardIsVector f.h.guard then operandIllegal u
    else if !scalarGuard u.g f.h.guard then .done u.s
    else
      let a := (BitVec.ofNat 9 (readNat u (f.kimm.zeroExtend 64) false f.a 0))
      let m := fmtMask f.mod
      let new := (u.p.fmt &&& ~~~m) ||| (a &&& m)
      if fmtValid new then .done (updSplit u.s u.g.gid u.p.sid fun p => { p with fmt := new }) else operandIllegal u) s

/-! ## BKPT, TRAP, TRAP.ESC, IRET -/

/-- A register of the group is still to be written by an access in flight: a debug halt waits for it (11 R219). -/
def regWritesPending (s : State) (gid : Nat) : Bool :=
  s.ops.any fun o => o.gid == gid && match o.kind with
    | .load .. | .ldl .. | .rmw _ (some _) | .futReg .. => true
    | _ => false

/-- The record of a breakpoint: the matched PC and the breakpoint's number. -/
def bkptRecord (u : Iss) (k : Nat) : TrapRec :=
  { trapRecord u.s u.g u.p { cause := .breakpoint, mask := u.p.members, aux0 := u.p.pc, aux1 := BitVec.ofNat 64 k } 1 with
    inchain := false }

def execBkpt (f : KFmt) (s : State) : Host.Outcome State Fault Refusal :=
  runInstr (.bkpt f) (fun u =>
    if guardIsVector f.h.guard then operandIllegal u
    else if !scalarGuard u.g f.h.guard then .done u.s
    else if regWritesPending u.s u.g.gid then .wait u.s
    else .done (haltForDriver u.s u.g u.p.sid (.breakpoint true) (bkptRecord u 0xFF))) s

def execTrap (f : KFmt) (s : State) : Host.Outcome State Fault Refusal :=
  runInstr (.trap f) (fun u =>
    let act := active u
    if f.a ≠ .imm then operandIllegal u
    else if act = 0#64 then .done u.s
    else .trap u.s { cause := .trapInstruction, mask := act, aux0 := f.kimm.zeroExtend 64 }) s

/-- The record of TRAP.ESC (23 R397). -/
def escRecord (u : Iss) (sh : Shadow) : TrapRec :=
  let c := u.g.trapcause
  { trapRecord u.s u.g u.p { cause := .trapInstruction, mask := u.g.trapmask } 1 with
    cause := bits c 0 8, slot := bits c 12 4, swpidx := bits c 16 12, insweep := c.getLsbD 28, inchain := c.getLsbD 29,
    inhandler := true, pc := u.g.trappc, mask := u.g.trapmask, aux0 := sh.aux0, aux1 := sh.aux1 }

def execTrapEsc (f : KFmt) (s : State) : Host.Outcome State Fault Refusal :=
  runInstr (.trapEsc f) (fun u =>
    if guardIsVector f.h.guard then operandIllegal u
    else if !scalarGuard u.g f.h.guard then .done u.s
    else match u.g.shadow with
    | none => trapAll u .privileged 0 0
    | some sh =>
      let g := setSplit u.g { u.p with chainLen := 0, chainPC := 0#64 }
      .wait (haltForDriver u.s g u.p.sid .escape (escRecord u sh))) s

def execIret (f : KFmt) (s : State) : Host.Outcome State Fault Refusal :=
  runInstr (.iret f) (fun u =>
    if guardIsVector f.h.guard then operandIllegal u
    else if !scalarGuard u.g f.h.guard then .done u.s
    else if bits u.g.trappc 0 4 ≠ 0 then trapAll u .misaligned u.g.trappc.toNat 0
    else match u.g.shadow with
    | none => trapAll u .privileged 0 0
    | some sh => .jump (returnFromHandler u.s u.g sh)) s

/-! ## FLTRD -/

/-- The address and fault word of a lane of the trap being handled; zero for any other lane. -/
def fltOf (g : Group) (l : Nat) : DWord × Nat := ((g.faults.find? (·.1 == l)).map Prod.snd).getD (0#64, 0)

def execFltrd (f : KFmt) (s : State) : Host.Outcome State Fault Refusal :=
  runInstr (.fltrd f) (fun u =>
    let fw := f.mod.getLsbD 0
    let ok := match f.d with
      | .v n => if fw then vecOk u.g n.val else vecPairOk u.g n.val
      | _ => false
    if !ok then operandIllegal u
    else .done (writeVector u.s u.g u.p f.d false (!fw) false (active u)
      fun l => if fw then (fltOf u.g l).2 else (fltOf u.g l).1.toNat)) s

/-! ## PGMAP -/

/-- Zeros at `n` bytes of physical memory: a whole frame, whose errors are cleared. -/
def physZero (s : State) (pa n : Nat) : State :=
  { s with mem := memClear s.mem pa n
           badGranules := s.badGranules.filter fun g => !(decide (pa ≤ g * 32) && decide (g * 32 + 32 ≤ pa + n)) }

/-- Entry `i` of a context's frame pool (13 R239). -/
def poolEntry (c : Context) (i : Nat) : Nat := c.pool + 64 + 8 * i

/-- The pool's last frame taken, if any. -/
def poolTake (s : State) (c : Context) : Option (Nat × State) :=
  let n := physRead s c.pool 8
  if n = 0 then none
  else
    let f := bits (pteAt s (poolEntry c (n - 1))) 16 36 * 0x1_0000
    some (f, physWrite s c.pool 8 (n - 1))

/-- The frame taken last goes back to its pool. -/
def poolReturn (s : State) (c : Context) : State := physWrite s c.pool 8 (physRead s c.pool 8 + 1)

/-- A swap that is not performed because its entry lies in an uncorrectable granule, logged (10 R205; log 75). -/
def swapFailed (s : State) (c : Context) (b : Nat) : State :=
  report s { ctx := c.num, link := .log, body := blankRec s 0 .memoryUncorrectable 4 0#64 (BitVec.ofNat 64 b) }

/-- One lane of PGMAP: its result, and the state. A leaf that the walk ends at has its A set (R195). -/
def pgmapLane (s : State) (c : Context) (va : DWord) (rw : Bool) : Nat × State :=
  if bits va 57 7 ≠ 0 ∨ inFabric c va then (3, s)
  else match walk s c.ptroot va.toNat with
  | .leaf _ pa e => (2, orEntry s c.num pa e (if pteA e then 0 else 0x80))
  | .malformed .. => (3, s)
  | .invalid l pa =>
    if l < 3 then (3, s)
    else match poolTake s c with
    | none => (1, s)
    | some (f, s) =>
      let e := 0x47 + (if rw then 0x08 else 0) + f
      let s := physZero s f 0x1_0000
      match badGranule? s pa 8 with
      | some b => (2, swapFailed (poolReturn s c) c b)
      | none => (0, physWrite s pa 8 e)

/-- PGMAP's lanes in ascending order. -/
def pgmapLanes (u : Iss) (f : MFmt) (lanes : List Nat) : State × List (Nat × Nat) :=
  lanes.foldl (fun acc l =>
    let r := pgmapLane acc.1 u.ctx (effAddr u f l) (f.mod.getLsbD 0)
    (r.2, acc.2 ++ [(l, r.1)])) (u.s, [])

def execPgmap (f : MFmt) (s : State) : Host.Outcome State Fault Refusal :=
  runInstr (.pgmap f) (fun u =>
    let lanes := (active u).toList
    if !taskDst u.g f.d || f.space != 0#4 || !addrOk u.g true f then operandIllegal u
    else if lanes.isEmpty then .done u.s
    else if !released u true then .wait u.s
    else
      let (s, out) := pgmapLanes u f lanes
      .done (updGroup s u.g.gid fun g => writeReg g f.d (active u) fun l =>
        BitVec.ofNat 32 (((out.find? (·.1 == l)).map Prod.snd).getD 0))) s

/-! ## Encodings that name no instruction -/

/-- A word that breaks an encoding rule: ILLEGAL_ENCODING, AUX words its bits (14 R262, 11 R207). -/
def execReservedEncoding (w : IWord) (s : State) : Host.Outcome State Fault Refusal :=
  match issuer s (.reservedEncoding w) with
  | none => .fault .noIssuer
  | some u =>
    .next (takeTrap u.s u.g.gid u.p.sid
      { cause := .illegalEncoding, mask := u.p.members, aux0 := w.extractLsb' 0 64, aux1 := w.extractLsb' 64 64 })

end Sys2Proof.Machine
end

