-- ==== Sys2Proof/Machine/Halts.lean ====
section
/-!
DEFINITION. Which splits may issue (03 R67, R72, R73, 05 R103, 12 R229, R232), fetching an instruction (09 R191, 10 R203),
and the halts of a group: breakpoints and debugger halts (11 R218, R219), halt points (R214), records that wait for room
(R208), and the leave to issue of waiting operations of reproducible groups (12 R231, R234).
-/
namespace Sys2Proof.Machine

/-! ## Hardware breakpoints (R218) -/

/-- An instruction in a quarter's fetch buffer. -/
def bufInstr (s : State) (core quarter ctx va : Nat) : Option IWord :=
  ((coreOf s core).fbuf.find? fun x => x.quarter == quarter && x.ctx == ctx && x.va == va).map BufInstr.word

/-- An instruction in the core's instruction cache. -/
def lineInstr (s : State) (core ctx va : Nat) : Option IWord :=
  ((coreOf s core).icache.find? fun x => x.ctx == ctx && x.vline == lineOf va).bind fun x => x.words[va % 128 / 16]?

/-- The number of the breakpoint that the driver sets at an address. -/
def bpNumber (c : Context) (a : DWord) : Option Nat := c.bps.findIdx? (· == a)

/-- The breakpoint that stops a split before its next instruction, outside a chain. -/
def bpHit (c : Context) (p : Split) : Option Nat := if p.chainLen ≠ 0 ∨ p.bpSkip = true then none else bpNumber c p.pc

/-- A breakpoint address reached inside a chain is remembered until the chain ends (`chainBp`), while the driver sets it. -/
def markBp (s : State) (gid sid : Nat) : State :=
  match groupOf s gid with
  | none => s
  | some g =>
    match ctxOf s g.ctx with
    | none => s
    | some c => updSplit s gid sid fun p =>
      let old := p.bpMatch.filter c.bps.contains
      { p with bpMatch :=
          if p.chainLen = 0 then none
          else old.or (if !p.bpSkip && c.bps.contains p.pc then some p.pc else none) }

/-- The instruction at a PC, as its quarter's buffer, its core's cache or memory holds it. -/
def instrAt (s : State) (core quarter : Nat) (c : Context) (pc : DWord) : Option Instr :=
  let w := match (bufInstr s core quarter c.num pc.toNat).or (lineInstr s core c.num pc.toNat), walk s c.ptroot pc.toNat with
    | some w, _ => some w
    | none, .leaf l _ e => some (BitVec.ofNat 128 (physRead s (leafAddr l (pteFrame e) pc.toNat) 16))
    | none, _ => none
  w.bind fun w => match decode w with
    | .ok i => some i
    | .error _ => none

/-- The iteration at which a split stands, where its next instruction is a sweep (11 R206). -/
def sweepAt (s : State) (g : Group) (c : Context) (p : Split) : Option Nat :=
  if (instrAt s g.core g.quarter c p.pc).any isSweep then some p.swpidx else none

/-- The group halts at breakpoint `k`, matched at address `a`, before the instruction at which `p` stands. -/
def breakAt (s : State) (x : Group) (c : Context) (p : Split) (k : Nat) (a : DWord) (mask : Lanes) (chain : Bool) : State :=
  haltForDriver s x p.sid (.breakpoint false)
    (trapRecord s x p
      { cause := .breakpoint, mask, aux0 := a, aux1 := BitVec.ofNat 64 k, sweep := sweepAt s x c p, hold := chain } 1)

/-- The split that a due halt names: the one that ended the chain, or the one that goes on at the chain's next instruction. -/
def dueSplit (g : Group) (d : BpDue) : Option Split :=
  ((splitOf g d.sid).or (g.splits.find? fun p => p.pc == d.pc)).or g.splits.head?

/-- The halt that the end of a chain has made due is taken at once, wherever the group's splits stand (11 R218); none when the
driver sets the breakpoint no more. -/
def breakDue (s : State) (x : Group) (c : Context) (d : BpDue) : State :=
  let y := { x with bpDue := none }
  match dueSplit x d, bpNumber c d.addr with
  | some p, some k => breakAt s y c { p with pc := d.pc } k d.addr d.mask true
  | _, _ => setGroup s y

def execHwBreakpoint (g sp : Nat) (s : State) : Host.Outcome State Fault Refusal :=
  match groupOf s g with
  | none => .next s
  | some x =>
    match splitOf x sp, ctxOf s x.ctx with
    | some p, some c =>
      if regWritesPending s g then .next s
      else match x.bpDue with
      | some d => .next (if x.running && resumed x then breakDue s x c d else s)
      | none =>
        match bpHit c p with
        | none => .next s
        | some k => .next (if mayIssue s x p then breakAt s x c p k p.pc p.members false else s)
    | _, _ => .next s

/-- The split may issue, the choice falls on it, and no breakpoint stops it. -/
def issuable (s : State) (g : Group) (p : Split) (rule : IssueRule) : Bool :=
  mayIssue s g p && chosen s g p rule &&
  (match ctxOf s g.ctx with
   | some c => (bpHit c p).isNone
   | none => false)

/-! ## Fetch (09 R191, 10 R203) -/

/-- What a fetch brings; `busy`: its bytes are being written, and it is tried again. -/
inductive Fetched where
  | word (w : IWord)
  | fault (f : PageFault)
  | ecc (pa : Nat)
  | fabric
  | misaligned
  | busy
  deriving DecidableEq, Repr

/-- A fetched instruction in its quarter's buffer, which holds the eight fetched last (00 R1; log 55). -/
def bufferInstr (s : State) (core quarter ctx va : Nat) (w : IWord) : State :=
  let k := coreOf s core
  let mine := ({ quarter, ctx, va, word := w } :: k.fbuf.filter fun x => x.quarter == quarter && !(x.ctx == ctx && x.va == va))
  setCore s core { k with fbuf := mine.take Config.fetchBuffer ++ k.fbuf.filter fun x => x.quarter != quarter }

/-- Some of an instruction's bytes are written and others still to be, by one store or one copy: no fetch reads a mixture
(09 R191). -/
def tornUnit (s : State) (core pa : Nat) : Bool :=
  (s.ops.any fun o =>
    let es : List Elem := match o.kind with
      | .store => o.elems.filter fun e => e.space != .scratch && (e.pa.any fun p => rangesMeet p e.size pa 16)
      | _ => []
    let new (e : Elem) : Bool := e.isDone || (e.shown && o.core == core)
    es.any new && !es.all new) ||
  s.copies.any fun c => !c.dsp && c.parts.any fun p =>
    match c.partDst p.num, ctxOf s c.ctx with
    | some d, some ctx =>
      decide (0 < p.written) && (match walk s ctx.ptroot (d.toNat + p.written) with
        | .leaf l _ e =>
          let b := leafAddr l (pteFrame e) (d.toNat + p.written)
          decide (pa < b) && decide (b < pa + 16)
        | _ => false)
    | _, _ => false

/-- The line of an instruction brought to the instruction cache; one with an uncorrectable granule is not kept, nor one with an
instruction that is being written, and over its capacity the cache gives up the line brought longest ago (00 R1; log 55). -/
def fillLine (s : State) (core ctx va pa : Nat) : State :=
  let k := coreOf s core
  let base := lineOf pa * 128
  let others := k.icache.filter fun x => !(x.ctx == ctx && x.vline == lineOf va)
  let words := (List.range 8).map fun j => BitVec.ofNat 128 (coreValue s core (base + 16 * j) 16)
  setCore s core { k with icache :=
    if (badGranule? s base 128).isSome || (List.range 8).any (fun j => tornUnit s core (base + 16 * j)) then others
    else ({ ctx, vline := lineOf va, words } :: others).take Config.icacheLines }

/-- The fetch of 16 bytes as one unit, from what `src` names where that holds them. One in a fetch buffer needs no translation
any more; after CCTL none comes from there (20 R305). A PC that is not a multiple of 16 is never fetched (14 R251; log 58). -/
def fetchAt (s : State) (core quarter : Nat) (c : Context) (pc : DWord) (src : FetchFrom) (afresh sup : Bool) : Fetched × State :=
  let va := pc.toNat
  match (if src == .buffer && !afresh then bufInstr s core quarter c.num va else none) with
  | some w => (.word w, s)
  | none =>
    if va % 16 ≠ 0 then (.misaligned, s)
    else if inFabric c pc then (.fabric, s)
    else match translate s core c pc .fetch sup with
    | (.error f, s) => (.fault f, s)
    | (.ok pa, s) =>
      match (if src == .memory then none else lineInstr s core c.num va) with
      | some w => (.word w, bufferInstr s core quarter c.num va w)
      | none =>
        match badGranule? s pa 16 with
        | some b => (.ecc b, s)
        | none =>
          if tornUnit s core pa then (.busy, s)
          else
            let w := BitVec.ofNat 128 (coreValue s core pa 16)
            (.word w, bufferInstr (fillLine s core c.num va pa) core quarter c.num va w)

/-- The trap of a fetch that brings no instruction: FETCH_FAULT, or MEMORY_UNCORRECTABLE at the fetched PC (10 R204, R205);
at a fabric address OPERAND_ILLEGAL (13 R241). -/
def fetchTrap (s : State) (gid sid : Nat) (r : Fetched) : State :=
  let m := (((groupOf s gid).bind fun g => splitOf g sid).map Split.members).getD 0#64
  let pc := (((groupOf s gid).bind fun g => splitOf g sid).map Split.pc).getD 0#64
  match r with
  | .word _ | .busy => s
  | .misaligned => takeTrap s gid sid { cause := .misaligned, mask := m, aux0 := pc }
  | .fault f => takeTrap s gid sid { cause := .fetchFault, mask := m, aux0 := f.va, aux1 := BitVec.ofNat 64 f.word }
  | .ecc pa => takeTrap s gid sid { cause := .memoryUncorrectable, mask := m, aux0 := pc, aux1 := BitVec.ofNat 64 pa }
  | .fabric =>
    let w := Config.unfetched s.freeCtr
    takeTrap { s with freeCtr := s.freeCtr + 1 } gid sid
      { cause := .operandIllegal, mask := m, aux0 := w.extractLsb' 0 64, aux1 := w.extractLsb' 64 64 }

def execInstructionFetchFault (g sp : Nat) (s : State) : Host.Outcome State Fault Refusal :=
  match groupOf s g with
  | none => .next s
  | some x =>
    match splitOf x sp, ctxOf s x.ctx with
    | some p, some c =>
      if !(mayIssue s x p && (bpHit c p).isNone) then .next s
      else
        let (r, s') := fetchAt s x.core x.quarter c p.pc .memory p.refetch x.inHandler
        .next (match r with
          | .word _ | .misaligned => s
          | r => fetchTrap s' g sp r)
    | _, _ => .next s

/-! ## Halts -/

/-- No split of the group is inside a hold chain or waits for a reply. -/
def atRest (g : Group) : Bool := g.splits.all (atBoundary g)

def execDebuggerHalt (g : Nat) (s : State) : Host.Outcome State Fault Refusal :=
  match groupOf s g with
  | none => .next s
  | some x =>
    match x.splits with
    | [] => .next s
    | p :: _ =>
      if x.place != .resident || x.driver.isSome || !atRest x || regWritesPending s g then .next s
      else
        let r := trapRecord s x p { cause := .breakpoint, mask := p.members } 1
        .next (setGroup s
          { x with driver := some { kind := .debugger, body := r, sid := p.sid, addr := none },
                   splits := x.splits.map Split.holdSweep, savedRing := chainRing s x })

/-- A group named by a pre-emption that has not yet halted. -/
def stillHalting (s : State) (gid : Nat) : Bool :=
  (groupOf s gid).any fun g => g.haltReq && g.place == .resident && g.splits.any fun p => !p.halted

/-- A core sped up for a pre-emption returns to its governor's frequency once every group named has halted (13 R249). -/
def endBoost (s : State) : State :=
  { s with cores := s.cores.map fun c => { c with boosts := c.boosts.filter fun l => l.any (stillHalting s) } }

/-- A split at its halt point: parked, or at an instruction or iteration boundary; a halted group's stands where it is, and so
does one that the handler of another split holds back. -/
def atHaltPoint (g : Group) (p : Split) : Bool :=
  p.state != .ready || g.driver.isSome || shadowBlocks g p.sid || atBoundary g p

def execSplitHalt (g sp : Nat) (s : State) : Host.Outcome State Fault Refusal :=
  match groupOf s g with
  | none => .next s
  | some x =>
    match splitOf x sp with
    | none => .next s
    | some p =>
      if x.haltReq && x.place == .resident && !p.halted && atHaltPoint x p then
        let x := { x with mapresWait := x.mapresWait.filter fun w => w.1 != sp }
        .next (endBoost (setGroup s (setSplit x
          { p.holdSweep with halted := true, syncWait := none, syncOk := false })))
      else .next s

/-- An undelivered record is written once its ring has room, after earlier ones of its context (R208). -/
def execFaultRecordDeferredDelivery (k : Nat) (s : State) : Host.Outcome State Fault Refusal :=
  match s.undelivered[k]? with
  | none => .next s
  | some r =>
    match ctxOf s r.ctx with
    | none => .next s
    | some c =>
      if ringHasRoom s c && !((s.undelivered.take k).any (·.ctx == r.ctx)) then
        .next (writeRec { s with undelivered := s.undelivered.eraseIdx k } c r)
      else .next s

/-! ## Waiting operations of reproducible groups -/

/-- The operation may take effect now: its key is the least of its reach and none before it is under way (R231). -/
def syncReady (s : State) (g : Group) (sc : Scope) : Bool := keyLeast s g sc && !syncBusy s g sc

def execReproSyncProceed (g sp : Nat) (s : State) : Host.Outcome State Fault Refusal :=
  match groupOf s g with
  | none => .next s
  | some x =>
    match (splitOf x sp).bind Split.syncWait with
    | none => .next s
    | some sc =>
      if syncReady s x sc then .next (updSplit s g sp fun p => { p with syncWait := none, syncOk := true }) else .next s

/-- A MAPRES that waits for free slots runs once there are enough. -/
def execMapresDeferredGrant (g sp : Nat) (s : State) : Host.Outcome State Fault Refusal :=
  match groupOf s g with
  | none => .next s
  | some x =>
    match x.mapresWait with
    | some (sid, .mapres f, n) =>
      if sid == sp && x.running && !x.haltReq && decide (n ≤ (freeSlots s x.core x.quarter).length) then
        match execMapres f { s with cur := some (g, sp) } with
        | .next t => .next { t with cur := none }
        | r => r
      else .next s
    | _ => .next s

end Sys2Proof.Machine
end

