-- ==== Sys2Proof/Machine/Place.lean ====
section
/-!
DEFINITION. Room on cores and the placing of teams (01 R19, R25 to R27, 13 R239): the resource check, the state a new
group starts with, teams created on a core, and the offer of a team to the cores in order.
-/
namespace Sys2Proof.Machine

/-! ## Room -/

/-- What is free on a core: per quarter, group slots, vector registers and map slots; team slots; scratchpad bytes. -/
structure Room where
  slots : List Nat
  regs : List Nat
  maps : List Nat
  teams : Nat
  spad : Nat
  deriving DecidableEq, Repr

/-- An empty core (R19). -/
def Room.empty : Room :=
  { slots := List.replicate 4 Config.groupSlotsPerQuarter, regs := List.replicate 4 Config.vregsPerQuarter,
    maps := List.replicate 4 Config.mapSlotsPerQuarter, teams := Config.teamSlotsPerCore, spad := Config.spadBytes }

/-- Rounded up to the granule (R19). -/
def roundGranule (n : Nat) : Nat := (n + Config.granule - 1) / Config.granule * Config.granule

/-- A team stands on a core. -/
def teamHere (s : State) (c tid : Nat) : Bool := s.teams.any fun t => t.tid == tid && t.core == c && t.place == .resident

/-- Bytes of a region handed away that lie on a core outside the allocation of a resident parent (04 R83). -/
def strayBytes (s : State) (c : Nat) (h : Handle) : Nat :=
  let here := match h.child with
    | none => h.core == c
    | some t => teamHere s c t
  if here && !teamHere s c h.parent then h.count * Config.granule else 0

/-- What is free on core `c`. -/
def roomOf (s : State) (c : Nat) : Room :=
  let gs := s.groups.filter fun g => g.core == c && g.place == .resident
  let ts := s.teams.filter fun t => t.core == c && t.place == .resident
  let inQ (q : Nat) : List Group := gs.filter (·.quarter == q)
  { slots := (List.range 4).map fun q => Config.groupSlotsPerQuarter - (inQ q).length
    regs := (List.range 4).map fun q => Config.vregsPerQuarter - ((inQ q).map fun g => g.vregs.length).sum
    maps := (List.range 4).map fun q => Config.mapSlotsPerQuarter - ((inQ q).map fun g => g.phys.length).sum
    teams := Config.teamSlotsPerCore - ts.length
    spad := Config.spadBytes - ((ts.map Team.spadSize).sum + (s.handles.map (strayBytes s c)).sum) }

/-- The quarter for a group: a free slot, enough registers and map slots, and of those the most free registers; ties go to
the lower number (R25, 00 R3). -/
def seat (r : Room) (regs maps : Nat) : Option Nat :=
  (List.range 4).foldl (fun best q =>
    if 0 < r.slots.getD q 0 ∧ regs ≤ r.regs.getD q 0 ∧ maps ≤ r.maps.getD q 0 then
      match best with
      | some b => if r.regs.getD b 0 < r.regs.getD q 0 then some q else some b
      | none => some q
    else best) none

/-- A quarter's room less a group. -/
def Room.take (r : Room) (q regs maps : Nat) : Room :=
  { r with slots := r.slots.set q (r.slots.getD q 0 - 1), regs := r.regs.set q (r.regs.getD q 0 - regs),
           maps := r.maps.set q (r.maps.getD q 0 - maps) }

/-- Quarters for groups in GRPID order, each given by its registers and map slots. -/
def seatAll (r : Room) (needs : List (Nat × Nat)) : Option (List Nat × Room) :=
  match needs with
  | [] => some ([], r)
  | (n, k) :: rest =>
    match seat r n k with
    | none => none
    | some q => (seatAll (r.take q n k) rest).map fun x => (q :: x.1, x.2)

/-- The resource check of a core for a team (R25). `pan`: it may use the slots kept for pan launches, which every other
team leaves free (04 R89). -/
def admits (r : Room) (needs : List (Nat × Nat)) (spad : Nat) (pan : Bool) : Option (List Nat) :=
  if r.teams < (if pan then 1 else 2) ∨ r.spad < spad then none
  else match seatAll r needs with
  | some (qs, r') => if pan || decide (1 ≤ r'.slots.sum) then some qs else none
  | none => none

/-! ## The save region (13 R239, 11 R216) -/

/-- Bytes of a group's save area. -/
def groupArea (regs maps : Nat) : Nat := 16384 + 256 * regs + 8320 * maps

/-- Bytes that the save areas of every group and team of a context take. -/
def ctxArea (s : State) (ctx : Nat) : Nat :=
  ((s.groups.filter (·.ctx == ctx)).map fun g => groupArea g.vregs.length g.phys.length).sum +
  ((s.teams.filter (·.ctx == ctx)).map fun t => t.spadSize + t.recvSize).sum

/-- The save region can hold them and `extra` bytes more. -/
def saveHolds (s : State) (ctx extra : Nat) : Bool :=
  match ctxOf s ctx with
  | some c => decide (ctxArea s ctx + extra ≤ c.saveSz)
  | none => false

/-- `n` bytes written to the save region of a context (11 R216): the layout is opaque, so which bytes and what they hold is
free (log 12). -/
def writeArea (s : State) (ctx n : Nat) : State :=
  match ctxOf s ctx with
  | none => s
  | some c =>
    if n = 0 ∨ c.saveSz < n then s
    else
      let img := (List.range n).map (Config.contextImageByte s.freeCtr)
      { physWriteBytes s (c.save + Config.saveOffset s.freeCtr % (c.saveSz - n + 1)) img with freeCtr := s.freeCtr + 1 }

/-! ## Descriptors -/

/-- Registers of each group of a team, in GRPID order (R17). -/
def descSizes (d : Desc) : List Nat := List.replicate d.groups0 (8 * d.vregs0) ++ List.replicate d.groups1 (8 * d.vregs1)

def Desc.groups (d : Desc) : Nat := d.groups0 + d.groups1

/-- What a team of an entry needs of a core. -/
def descNeeds (d : Desc) : List (Nat × Nat) := (descSizes d).map fun n => (n, 0)

/-- Save areas of one team of an entry. -/
def descArea (d : Desc) : Nat := ((descSizes d).map fun n => groupArea n 0).sum + roundGranule d.spad

/-! ## Group creation (R27) -/

/-- An UNBOUND logical slot. -/
def Slot.unbound : Slot :=
  { st := .unbound, phys := 0, sfmt := 0, src := 0#64, space := .global, tbind := false, reload := false, bad := none,
    rebind := false }

/-- The first split of a group. -/
def firstSplit (sid agent : Nat) (m : Lanes) (pc : DWord) (narrow : Bool) (now : Nat) : Split :=
  { sid, members := m, epoch := 0, em := m, pc, fmt := fmtInit narrow, region := none, state := .ready, swpidx := 0, resident := true,
    parkSeq := 0, stamp := now, agent, before := [], chainLen := 0, chainPC := 0#64, sweep := none, awaiting := none,
    syncWait := none, syncOk := false, refetch := false, bpSkip := false, bpMatch := none, halted := false, yield := none, issues := 0 }

/-- The words of a 64-bit value. -/
def loWord (x : DWord) : Word := x.extractLsb' 0 32
def hiWord (x : DWord) : Word := x.extractLsb' 32 32

/-- Scalar registers whose first ones are given. -/
def scalars (l : List Word) : List Word := l ++ List.replicate (64 - l.length) 0#32

/-- The first private region of a context that none of its groups has (05 R111; log 11). -/
def freePriv (s : State) (ctx : Nat) : Nat :=
  let used := (s.groups.filter (·.ctx == ctx)).map Group.priv
  ((List.range (used.length + 1)).find? fun k => !used.contains k).getD 0

/-- A group as it starts. `t`: its team; `priv`: its private region; `first`: its split; `s03`: s0 to s3; `v`: its first
vector registers. -/
def startGroup (gr : Grid) (t : Team) (gid quarter grpid role regs gindex nteam ngrp lbase priv : Nat) (first : Split)
    (s03 : List Word) (v : List LaneVec) : Group :=
  { gid, team := t.tid, grid := gr.uid, ctx := gr.ctx, core := t.core, quarter, grpid, teamid := t.teamid,
    gridid := gr.gridid, priv, nteam := BitVec.ofNat 32 nteam, ngrp, role, gindex, narrow := gr.desc.narrow,
    repro := gr.desc.repro, checked := t.copyNo != 0, vregs := (v ++ List.replicate regs LaneVec.zero).take regs,
    oregs := List.replicate 8 LaneVec.zero, sregs := scalars s03, status := 0#6,
    srseed := gr.seed ^^^ BitVec.ofNat 64 gindex, srctr := LaneVec.zero, lclk := 0#64, lbase,
    parts := List.replicate 4 0#64, trapcause := 0#32, trappc := 0#64, trapmask := 0#64, shadow := none, faults := [],
    splits := [first], regions := [], slots := List.replicate 12 Slot.unbound, phys := [], eng := [], badLoads := [],
    place := .resident, haltReq := false, bpDue := none, driver := none, savedRing := none, round := [], mapresWait := none,
    resume := .done }

/-- A team with nothing in its scratchpad. -/
def startTeam (gr : Grid) (tid teamid core seq copyNo : Nat) (spawned : Bool) (spad : Nat) : Team :=
  { tid, grid := gr.uid, ctx := gr.ctx, teamid, core, spawned, spadSize := roundGranule spad, recv := none, recvSize := 0,
    spad := [], objs := [], prio := gr.prio, seq, place := .resident, haltReq := false, ranOn := [], copyNo,
    stream := [], overflow := none, traps := [] }

/-- One launched group of a new team, in quarter `q`. -/
def addLaunched (gr : Grid) (t : Team) (lbase : Nat) (s : State) (x : Nat × Nat × Nat) : State :=
  let (regs, q, grpid) := x
  let (gid, s) := fresh s
  let (sid, s) := fresh s
  let (agent, s) := fresh s
  let d := gr.desc
  let f := firstSplit sid agent (Lanes.all d.narrow) d.code d.narrow s.clock.toNat
  let g := startGroup gr t gid q grpid (if grpid < d.groups0 then 0 else 1) regs (t.teamid * d.groups + grpid) gr.teams
    d.groups lbase (freePriv s gr.ctx) f [loWord gr.args, hiWord gr.args] []
  { s with groups := s.groups ++ [g] }

/-- Team `teamid` of a grid on a core, its groups in quarters `qs` (R27). Its groups observe what the wait words' release
covers (12 R223). -/
def createTeam (s : State) (gr : Grid) (teamid copyNo core : Nat) (qs : List Nat) (lbase : Nat) : State :=
  let (tid, s) := fresh s
  let t := startTeam gr tid teamid core tid copyNo false gr.desc.spad
  let s := acquireDev { s with teams := s.teams ++ [t], lastCore := core } core
  (((descSizes gr.desc).zip qs).zipIdx.map fun x => (x.1.1, x.1.2, x.2)).foldl (addLaunched gr t lbase) s

/-! ## Offering a team to the cores (R26) -/

/-- A core that may receive teams: an active index (00 R6, R7) on a die that no quiesce holds (R8). -/
def coreOpen (s : State) (c : Nat) : Bool :=
  (coreOf s c).active && ((s.dies[dieOf c]?).map fun d => d.quiesce.isNone).getD false

/-- Core indices from the one after the last receiver, wrapping (R26). -/
def coreOrder (s : State) : List Nat := (List.range Config.cores).map fun k => (s.lastCore + 1 + k) % Config.cores

/-- The first core in order that passes the check, `skip` apart. -/
def offer (s : State) (needs : List (Nat × Nat)) (spad : Nat) (pan : Bool) (skip : List Nat) : Option (Nat × List Nat) :=
  (coreOrder s).findSome? fun c =>
    if coreOpen s c && !skip.contains c then (admits (roomOf s c) needs spad pan).map fun qs => (c, qs) else none

/-- Refused grids are offered to the cores again (R26). -/
def offerAgain (s : State) : State := { s with grids := s.grids.map fun g => { g with refused := false } }

/-- The active cores (R6). How the device reports their number to the driver is left open, and the model has no such report
(log 65). -/
def activeCores (s : State) : List Nat := (List.range Config.cores).filter fun c => (coreOf s c).active

/-! ## Checked teams (12 R235) -/

/-- Team `i` of a grid is checked. -/
def teamChecked (gr : Grid) (i : Nat) : Bool :=
  gr.desc.checked && (ccg (loWord gr.seed) (hiWord gr.seed) (BitVec.ofNat 32 i)).toNat % 2 ^ gr.chk == 0

/-- Which runs of a team are placed together: one unchecked, two copies, or a third copy on a core that ran neither. -/
inductive RunKind where
  | plain
  | pair
  | third (cores : List Nat)
  deriving DecidableEq, Repr

/-- One run of a team placed on the first core that passes; the state as it stands when none does. -/
def placeRun (s : State) (gr : Grid) (teamid copyNo : Nat) (skip : List Nat) (lbase : Nat) : Except State State :=
  match offer s (descNeeds gr.desc) (roundGranule gr.desc.spad) false skip with
  | some (c, qs) => .ok (createTeam s gr teamid copyNo c qs lbase)
  | none => .error s

/-- A team placed. -/
def placeTeam (s : State) (gr : Grid) (lbase : Nat) (u : Nat × RunKind) : Except State State :=
  match u.2 with
  | .plain => placeRun s gr u.1 0 [] lbase
  | .third cores => placeRun s gr u.1 3 cores lbase
  | .pair =>
    match placeRun s gr u.1 1 [] lbase with
    | .error s => .error s
    | .ok s1 => placeRun { s1 with checks := s1.checks ++ [{ grid := gr.uid, teamid := u.1, runs := [], third := false, accepted := none, item := none }] }
        gr u.1 2 [s1.lastCore] lbase

/-- Several teams placed in order. -/
def placeTeams (s : State) (gr : Grid) (lbase : Nat) (us : List (Nat × RunKind)) : Except State State :=
  us.foldl (fun acc u => match acc with
    | .error e => .error e
    | .ok s => placeTeam s gr lbase u) (.ok s)

/-- How a team that has not run yet runs. -/
def firstKind (gr : Grid) (i : Nat) : RunKind := if teamChecked gr i then .pair else .plain

/-! ## Capacity (R24) -/

/-- The machine with every core empty. -/
def emptied (s : State) : State :=
  { s with groups := [], teams := [], handles := [], dies := s.dies.map fun d => { d with quiesce := none } }

/-- Teams from `i` that the dispatch rule places one after another, at most `fuel`. -/
def countPlaced (gr : Grid) (fuel i : Nat) (s : State) : Nat :=
  match fuel with
  | 0 => 0
  | n + 1 =>
    match placeTeam s gr 0 (i, firstKind gr i) with
    | .ok s => 1 + countPlaced gr n (i + 1) s
    | .error _ => 0

/-- Teams that one empty core takes. -/
def perCore (d : Desc) (fuel : Nat) (r : Room) : Nat :=
  match fuel with
  | 0 => 0
  | n + 1 =>
    if r.teams < 2 ∨ r.spad < roundGranule d.spad then 0
    else match seatAll r (descNeeds d) with
    | some (_, r') =>
      if 1 ≤ r'.slots.sum then 1 + perCore d n { r' with teams := r.teams - 1, spad := r.spad - roundGranule d.spad } else 0
    | none => 0

/-- A grid's capacity: every active core empty. Teams that run once are alike, so cores count alike. -/
def capacityOf (s : State) (gr : Grid) : Nat :=
  if gr.desc.checked then countPlaced gr (min gr.teams (Config.cores * Config.teamSlotsPerCore)) 0 (emptied s)
  else (activeCores s).length * perCore gr.desc Config.teamSlotsPerCore Room.empty

end Sys2Proof.Machine
end

