-- ==== Sys2Proof/Machine/Rake.lean ====
section
/-!
DEFINITION. The Rake (04 R84 to R90): pan timers, launches with the evictions that make room for them, brine intake, and
released records that wait for room (21 R341).
-/
namespace Sys2Proof.Machine

/-! ## Grids at a stop -/

/-- A context whose work a command, a quiesce or a termination stops. -/
def ctxStopped (s : State) (n : Nat) : Bool :=
  match ctxOf s n with
  | some c => c.preempted || c.quiesced || c.terminating
  | none => true

/-- No team of the grid is placed: pre-empted by command, quiesced, or its context terminated. -/
def gridStopped (s : State) (gr : Grid) : Bool := gr.preempted || ctxStopped s gr.ctx

/-! ## Pans (R86, R87) -/

/-- COAL, capped at 32 in narrow mode. -/
def coalOf (d : Desc) : Nat := if d.narrow then min d.coal 32 else d.coal

/-- The entry descriptor of a pan: as its first record holds it. -/
def Pan.desc? (p : Pan) : Option Desc := p.recs.head?.map ThreadRec.desc

/-- Every live group of the grid is parked (R87). -/
def gridParked (s : State) (uid : Nat) : Bool := s.groups.all fun g => g.grid != uid || g.parked

/-- The pan is ready. -/
def panReady (s : State) (p : Pan) : Bool :=
  match p.desc? with
  | none => false
  | some d =>
    decide (coalOf d ≤ p.recs.length) ||
    (if d.repro then gridParked s p.grid else p.expired || d.timer == 0)

def execPanTimerExpiry (core pan : Nat) (s : State) : Host.Outcome State Fault Refusal :=
  let c := coreOf s core
  match (c.pans[pan]?).join with
  | none => .next s
  | some p =>
    match p.desc? with
    | none => .next s
    | some d =>
      if !d.repro && decide (p.timerStart + 64 * d.timer ≤ s.clock.toNat) && !p.expired then
        .next (setCore s core { c with pans := c.pans.set pan (some { p with expired := true }) })
      else .next s

/-- The records of a pan's next launch: one with a handle goes alone, and those before it go without it. -/
def launchRecs (p : Pan) (c : Nat) : List ThreadRec :=
  match p.recs with
  | [] => []
  | r :: _ =>
    if r.handle.isSome then [r] else (p.recs.take c).takeWhile fun x => x.handle.isNone

/-- The pan after a launch of `n` records: unbound when empty, else its timer starts again. -/
def panAfter (now n : Nat) (p : Pan) : Option Pan :=
  match p.recs.drop n with
  | [] => none
  | rs => some { p with recs := rs, timerStart := now, expired := false }

/-- LBASE of a spawned group (12 R230): one more than the LT of the record that made the pan ready, or than the greatest
LT of the grid's live groups. -/
def spawnBase (s : State) (p : Pan) (d : Desc) : Nat :=
  if !d.repro then 0
  else match p.recs[coalOf d - 1]? with
  | some r => r.lt + 1
  | none => ((s.groups.filter (·.grid == p.grid)).map Group.lt).foldl max 0 + 1

/-! ## Eviction (R67, R89) -/

/-- A candidate (R67): every live split JOINED, SYNCED or WAITING and at least one WAITING, on its core and not stopped. A group
halted for a pre-emption or for the driver, and one restored and not yet resumed, are none (log 60). -/
def evictable (g : Group) : Bool :=
  g.running && !g.haltReq && g.resume == .done && g.parked && g.splits.any fun p => match p.state with
    | .waitJoin .. | .waitPhase .. => true
    | _ => false

/-- Nothing of the group is under way that a save waits for (11 R215): its accesses are performed or parked and no bind is in
progress. What its core alone has seen is performed as well: it may go on where it would not be seen (09 R178; log 76). -/
def drained (s : State) (g : Group) : Bool :=
  (s.ops.all fun o => o.gid != g.gid || match o.kind with
    | .gate .. | .copyF _ => true
    | .load .. | .ldl .. | .rmw _ (some _) | .bind _ => false
    | _ => o.elems.all fun e => match e.st with
      | .done | .parked _ => true
      | _ => false) &&
  (g.slots.all fun x => x.st != .binding) && !coreSeen s g.core s.nextId

/-- Since when a group is parked, in order of parking. -/
def parkedSince (g : Group) : Nat := (g.splits.map Split.parkSeq).foldl max 0

/-- The runs of scratchpad, by offset and length, that a command reads, writes, or lands bytes in. -/
def copySpadRuns (c : Copy) : List (Nat × Nat) :=
  (if c.ssp then (List.range c.rows).map fun k => ((rowAddr c.src c.sstride k).toNat, c.rowBytes) else []) ++
  (if c.dsp then (List.range c.rows).map fun k => ((rowAddr c.dst c.dstride k).toNat, c.rowBytes) else []) ++
  (match c.bar with
   | some o => [(o, 16)]
   | none => [])

/-- A copy in flight works on a team's scratchpad or on a barrier object in it (08 R170): the team's own, or its parent's on
granules handed to it (20 R310). -/
def copyHolds (s : State) (tid : Nat) : Bool :=
  s.copies.any fun c =>
    if c.team = tid then c.ssp || c.dsp || c.bar.isSome
    else (s.handles.any fun h => h.child == some tid) &&
      (copySpadRuns c).any fun r => (spadRuns r.1 r.2).any fun x => (spadPlace s c.team x.1).1 == .inl tid

/-- The team's groups that stand on its core. -/
def residentOf (s : State) (tid : Nat) : List Group := s.groups.filter fun g => g.team == tid && g.place == .resident

/-- A group's slots as a save keeps them: a RELOAD slot only its source (07 R155). -/
def saveSlots (g : Group) : Group :=
  { g with slots := g.slots.map fun x => if x.st == .bound && x.reload then { x with rebind := true } else x }

/-- A team's scratchpad and team slot go to the save area. -/
def teamAway (s : State) (tid : Nat) (p : Place) : State :=
  match teamOf s tid with
  | none => s
  | some t => setTeam (writeArea s t.ctx (t.spadSize + t.recvSize)) { t with place := p, haltReq := t.haltReq && p != .saved }

/-- A team whose groups have all left goes too. -/
def teamFollows (s : State) (tid : Nat) (p : Place) : State :=
  if (residentOf s tid).isEmpty then teamAway s tid p else s

/-- A group evicted to the save area. -/
def evict (s : State) (gid : Nat) : State :=
  match groupOf s gid with
  | none => s
  | some g =>
    teamFollows (setGroup (writeArea s g.ctx (groupArea g.vregs.length g.phys.length)) { saveSlots g with place := .evicted })
      g.team .evicted

/-- The groups of a quarter to evict for `regs` registers and a slot: candidates longest parked first, no more than the need;
none if they do not make room. A group whose going would take its team's scratchpad from a copy is passed over. -/
def takeVictims (s : State) (room : Nat × Nat) (regs : Nat) (cands : List Group) : Option (List Nat) :=
  let r := cands.foldl (fun (acc : (Nat × Nat) × List Nat) g =>
    if 0 < acc.1.1 ∧ regs ≤ acc.1.2 then acc
    else if copyHolds s g.team && (residentOf s g.team).all (fun x => x.gid == g.gid || acc.2.contains x.gid) then acc
    else ((acc.1.1 + 1, acc.1.2 + g.vregs.length), acc.2 ++ [g.gid])) (room, [])
  if 0 < r.1.1 ∧ regs ≤ r.1.2 then some r.2 else none

/-- Candidates among some groups, longest parked first. -/
def candidates (gs : List Group) : List Group :=
  sortLe (fun a b => decide (parkedSince a ≤ parkedSince b)) (gs.filter evictable)

/-- Step 1: groups of the quarter that needs the fewest evictions; ties go to the lower one. -/
def groupVictims (s : State) (core regs : Nat) : Option (List Nat) :=
  let r := roomOf s core
  ((List.range 4).filterMap fun q =>
    takeVictims s (r.slots.getD q 0, r.regs.getD q 0) regs
      (candidates (s.groups.filter fun g => g.core == core && g.quarter == q && g.place == .resident))).foldl
    (fun best v => match best with
      | some b => if v.length < b.length then some v else some b
      | none => some v) none

/-- Step 2: the team longest parked of those all of whose resident groups are candidates. -/
def teamVictim (s : State) (core : Nat) : Option (List Nat) :=
  let ts := s.teams.filterMap fun t =>
    let gs := residentOf s t.tid
    if t.core == core && t.place == .resident && !gs.isEmpty && gs.all evictable && !copyHolds s t.tid then
      some ((gs.map parkedSince).foldl max 0, gs.map Group.gid)
    else none
  ((sortLe (fun a b => decide (a.1 ≤ b.1)) ts).head?).map Prod.snd

/-- Step 2 until the launch fits; each turn evicts one team. -/
def evictTeams (fuel : Nat) (s : State) (core spad : Nat) : State :=
  match fuel with
  | 0 => s
  | n + 1 =>
    let r := roomOf s core
    if 1 ≤ r.teams ∧ spad ≤ r.spad then s
    else match teamVictim s core with
    | none => s
    | some gs => evictTeams n (gs.foldl evict s) core spad

/-- The core with the room that evictions make. -/
def makeRoom (s : State) (core regs spad : Nat) : State :=
  let r := roomOf s core
  let s1 := if (seat r regs 0).isSome then s
    else match groupVictims s core regs with
    | some gs => gs.foldl evict s
    | none => s
  evictTeams Config.teamSlotsPerCore s1 core spad

/-- Evictions are made only of groups that are drained, and only while the save region holds every group and team of their
contexts (13 R239). -/
def evictionsAllowed (s s' : State) : Bool :=
  s.groups.all fun g =>
    match groupOf s' g.gid with
    | some g' => g'.place == g.place || (drained s g && saveHolds s g.ctx 0)
    | none => true

/-! ## Launch (R88, R89) -/

/-- Lane values of a launch's records. -/
def recLanes (rs : List ThreadRec) (f : ThreadRec → Word) : LaneVec := LaneVec.ofFn fun l => ((rs[l]?).map f).getD 0#32

/-- The join address that a record's lane receives; zero for a gated one. -/
def recJoin (r : ThreadRec) : DWord := if r.gated then 0#64 else r.join

/-- The launched team receives the region of a handle at the end of its own scratchpad. -/
def receive (s : State) (tid hid : Nat) : State :=
  match handleOf s hid with
  | none => s
  | some h =>
    let n := h.count * Config.granule
    let s := updTeam s tid fun t =>
      { t with recv := some hid, recvSize := n,
               objs := t.objs ++ h.objs.map fun o => { o with off := t.spadSize + o.off },
               spad := (memSlice h.bytes 0 n t.spadSize).foldl (fun m c => memWrite m c.1 c.2) t.spad }
    { s with handles := s.handles.map fun x => if x.hid = hid then { x with bytes := [], objs := [], child := some tid } else x }

/-- One group of records launched on a core, in quarter `q`. A launch is no placement by the dispatcher: the core that received
the previous team stays the one that R26 counts from (log 61). -/
def launch (s : State) (gr : Grid) (core q lbase : Nat) (d : Desc) (rs : List ThreadRec) : State :=
  let (tid, s) := fresh s
  let (gid, s) := fresh s
  let (sid, s) := fresh s
  let (agent, s) := fresh s
  let t := startTeam gr tid 0 core tid 0 true d.spad
  let gindex := 2 ^ 63 + gr.spawnedGroups
  let f := firstSplit sid agent (Lanes.ofPred fun l => decide (l < rs.length)) d.code d.narrow s.clock.toNat
  let v := (List.range 4).map (fun k => recLanes rs fun r => r.payload.getD k 0#32) ++
    [recLanes rs fun r => loWord (recJoin r), recLanes rs fun r => hiWord (recJoin r)]
  let hand := (rs.head?).bind ThreadRec.handle
  let size := ((hand.bind (handleOf s)).map fun h => h.count * Config.granule).getD 0
  let s2 : Word := if hand.isSome then BitVec.ofNat 32 t.spadSize else 0#32
  let g := startGroup gr t gid q 0 0 (8 * d.vregs0) gindex 1 1 lbase (freePriv s gr.ctx) f [0#32, 0#32, s2, BitVec.ofNat 32 size] v
  let s := acquireDev { s with teams := s.teams ++ [t], groups := s.groups ++ [g] } core
  let s := updGrid s gr.uid fun x => { x with spawnedGroups := x.spawnedGroups + 1 }
  match hand with
  | some h => receive s tid h
  | none => s

/-- The launch of a ready pan, once room is made. -/
def launchPan (s : State) (core pan : Nat) (p : Pan) (d : Desc) (gr : Grid) : Option State :=
  let spad := roundGranule d.spad
  let s' := makeRoom s core (8 * d.vregs0) spad
  match admits (roomOf s' core) [(8 * d.vregs0, 0)] spad true with
  | some [q] =>
    if evictionsAllowed s s' && saveHolds s' gr.ctx (groupArea (8 * d.vregs0) 0 + spad) then
      let rs := launchRecs p (coalOf d)
      let s1 := launch s' gr core q (spawnBase s p d) d rs
      let c := coreOf s1 core
      some (setCore s1 core { c with pans := c.pans.set pan (panAfter s.clock.toNat rs.length p) })
    else none
  | _ => none

/-- A pre-empted concurrent grid is not back whole: some group of it is still to halt, or some team is saved or on its way (01
R24; log 73). -/
def gridAway (s : State) (gr : Grid) : Bool :=
  gr.desc.prog == 0 &&
  ((s.groups.any fun g => g.grid == gr.uid && g.haltReq) ||
   s.teams.any fun t => t.grid == gr.uid && (t.place == .saved || t.haltReq))

/-- A core that is no longer active launches nothing: records in its pans wait until its index is active again (00 R7;
log 62). -/
def execPanLaunch (core pan : Nat) (s : State) : Host.Outcome State Fault Refusal :=
  match ((coreOf s core).pans[pan]?).join with
  | none => .next s
  | some p =>
    match p.desc?, gridOf s p.grid with
    | some d, some gr =>
      if panReady s p && coreOpen s core && !gridStopped s gr && !gridAway s gr
      then .next ((launchPan s core pan p d gr).getD s) else .next s
    | _, _ => .next s

/-! ## Brine (R85) -/

/-- A group of the context stands on the core. -/
def ctxResident (s : State) (core ctx : Nat) : Bool :=
  s.groups.any fun g => g.core == core && g.ctx == ctx && g.place == .resident

/-- A Rake may take from the context's brine queue: a group of the context stands on its core. Where none stands on any core and
the context is not stopped, any Rake may, so that every record is launched in the end (R77, R90; log 27). -/
def mayTake (s : State) (core ctx : Nat) : Bool :=
  ctxResident s core ctx || (!ctxStopped s ctx && s.groups.all fun g => g.ctx != ctx || g.place != .resident)

/-- The record may go to this core: one with a handle only to the core of its region. -/
def recFits (s : State) (core : Nat) (r : ThreadRec) : Bool :=
  match r.handle.bind (handleOf s) with
  | some h => h.core == core
  | none => true

/-- A Rake's intake: the head record is taken whether or not its grid is pre-empted, and is launched once it is not. A record
with a handle goes to the core of its region whether or not a group of the context stands there (log 63). -/
def execBrineIntake (core ctx : Nat) (s : State) : Host.Outcome State Fault Refusal :=
  match ctxOf s ctx with
  | none => .next s
  | some c =>
    match c.brine with
    | [] => .next s
    | r :: rest =>
      if (mayTake s core ctx || (r.handle.isSome && !ctxStopped s ctx)) && recFits s core r && coreOpen s core then
        match fileInRake s core r with
        | some s => .next (setCtx s { c with brine := rest })
        | none => .next s
      else .next s

/-- A released record that waits for room is filed, after the earlier ones that it goes behind (21 R341, R344). -/
def execDeferredRecordFile (k : Nat) (s : State) : Host.Outcome State Fault Refusal :=
  match s.deferredRecs[k]? with
  | none => .next s
  | some (core, fut, r) =>
    if (s.deferredRecs.take k).any (filesBefore s core fut r) then .next s
    else match fileRec s core r with
    | some s => .next { s with deferredRecs := s.deferredRecs.eraseIdx k }
    | none => .next s

end Sys2Proof.Machine
end

