-- ==== Sys2Proof/Machine/Save.lean ====
section
/-!
DEFINITION. Pre-emption, context save and resume (03 R76, 07 R155, 11 R214 to R217, 12 R228): the command words of a queue,
saving a group once it is halted and drained, placing a saved or evicted group again (00 R3), and what happens before it
issues.
-/
namespace Sys2Proof.Machine

/-! ## Command words (12 R220, R228) -/

/-- The command word of a queue's header. -/
def cmdWord (s : State) (q : Queue) : DWord := BitVec.ofNat 64 (physRead s (q.base + 16) 8)

def cmdOp (w : DWord) : Nat := bits w 0 8
def cmdSeq (w : DWord) : Nat := bits w 8 56

/-- The command of a queue that is to be carried out now: one with a new SEQ, whatever the queue still has in progress. -/
def newCmd (s : State) (q : Queue) : Option DWord :=
  let w := cmdWord s q
  if cmdSeq w ≠ cmdSeq (q.cmd.getD q.ack) then some w else none

/-- ACK written. -/
def ackQueue (s : State) (q : Queue) (w : DWord) : State :=
  setQueue (physWrite s (q.base + 24) 8 w.toNat) { q with ack := w, cmd := none }

/-- The grids that a queue's command names: its own, or its context's. -/
def cmdNames (q : Queue) (w : DWord) (gr : Grid) : Bool :=
  if cmdOp w = 3 ∨ cmdOp w = 4 then gr.ctx == q.ctx else gr.queue == q.num && gr.ctx == q.ctx

/-- The command's work on a grid, if it names the grid: `off` while a pre-emption has not come about, `back` once a resume has.
What another pre-emption still stops is not restored by it (log 44). -/
def cmdMet (s : State) (q : Queue) (w : DWord) (grid : Nat) (off back : Bool) : Bool :=
  match gridOf s grid with
  | none => true
  | some gr =>
    !cmdNames q w gr || (if cmdOp w = 1 ∨ cmdOp w = 3 then !off else gridStopped s gr || (back && !off))

/-- Every group and team that the command concerns has been saved, or restored (R228). A resume that comes while a pre-emption
still halts groups waits until these have been saved and restored. -/
def cmdDone (s : State) (q : Queue) (w : DWord) : Bool :=
  (s.groups.all fun g => cmdMet s q w g.grid g.haltReq (g.place != .saved && g.resume != .due)) &&
  s.teams.all fun t => cmdMet s q w t.grid t.haltReq (t.place != .saved)

/-- The ACK of every command whose groups have all come so far. -/
def settleAcks (s : State) : State :=
  s.queues.foldl (fun s q => match q.cmd with
    | some w => if cmdDone s q w then ackQueue s q w else s
    | none => s) s

/-! ## Asking groups to halt (R214, R215) -/

/-- Records of some grids in a core's pans go to their context's brine queue, in pan and FIFO order (04 R85). -/
def spillPans (s : State) (core : Nat) (sel : Nat → Bool) : State :=
  let c := coreOf s core
  let out := c.pans.filter fun p => (p.map fun x => sel x.grid).getD false
  if out.isEmpty then s
  else
    let recs := out.flatMap fun p => (p.map Pan.recs).getD []
    let pans := c.pans.map fun p => if (p.map fun x => sel x.grid).getD false then none else p
    recs.foldl (fun s r => match ctxOf s r.ctx with
      | some x => setCtx s { x with brine := x.brine ++ [r] }
      | none => s) (setCore s core { c with pans })

/-- A core below 2.25 GHz with a group that a request names runs at 2.25 GHz until every group named has halted (13 R249): those
that have not halted already. -/
def boost (s : State) (sel : Team → Bool) : State :=
  let gs := s.groups.filter fun g => (teamOf s g.team).any sel && g.place == .resident && g.splits.any fun p => !p.halted
  { s with cores := s.cores.zipIdx.map fun x =>
      if x.1.mhz < 2250 ∧ gs.any (·.core == x.2) = true then { x.1 with boosts := gs.map Group.gid :: x.1.boosts } else x.1 }

/-- The groups of some teams are asked to halt, and the teams to leave. -/
def askHalt (s : State) (sel : Team → Bool) : State :=
  let r := boost s sel
  { r with
    groups := s.groups.map fun g => if (teamOf s g.team).any sel && g.place != .saved then { g with haltReq := true } else g
    teams := s.teams.map fun t => if sel t && t.place != .saved then { t with haltReq := true } else t }

/-- The work of some grids is pre-empted: its groups halt and its pans' records leave. -/
def preemptGrids (s : State) (sel : Nat → Bool) : State :=
  (List.range Config.cores).foldl (fun s c => spillPans s c sel) (askHalt s fun t => sel t.grid)

def gridIds (s : State) (sel : Grid → Bool) : List Nat := (s.grids.filter sel).map Grid.uid

/-- Command OP `op` of queue `q`, with what it does. -/
def runCmd (s : State) (qn op : Nat) (f : Queue → DWord → State) : State :=
  match queueOf s qn with
  | none => s
  | some q =>
    match newCmd s q with
    | some w => if cmdOp w = op then settleAcks (f q w) else s
    | none => s

/-- The queue with the command in progress. -/
def beginCmd (s : State) (q : Queue) (w : DWord) : State := setQueue s { q with cmd := some w }

def execPreemptQueue (q : Nat) (s : State) : Host.Outcome State Fault Refusal :=
  .next (runCmd s q 1 fun q w =>
    let s := beginCmd s { q with preempted := true } w
    let ids := gridIds s fun g => g.queue == q.num && g.ctx == q.ctx
    let s := { s with grids := s.grids.map fun g => if ids.contains g.uid then { g with preempted := true } else g }
    preemptGrids s ids.contains)

def execResumeQueue (q : Nat) (s : State) : Host.Outcome State Fault Refusal :=
  .next (runCmd s q 2 fun q w =>
    let s := beginCmd s { q with preempted := false } w
    { s with grids := s.grids.map fun g => if g.queue = q.num ∧ g.ctx = q.ctx then { g with preempted := false } else g })

def execPreemptContext (q : Nat) (s : State) : Host.Outcome State Fault Refusal :=
  .next (runCmd s q 3 fun q w =>
    match ctxOf s q.ctx with
    | none => beginCmd s q w
    | some c =>
      let s := setCtx (beginCmd s q w) { c with preempted := true }
      preemptGrids s (gridIds s fun g => g.ctx == q.ctx).contains)

def execResumeContext (q : Nat) (s : State) : Host.Outcome State Fault Refusal :=
  .next (runCmd s q 4 fun q w =>
    match ctxOf s q.ctx with
    | none => beginCmd s q w
    | some c => setCtx (beginCmd s q w) { c with preempted := false })

/-- A reserved OP, and a new SEQ with OP 0, which names no command, are acknowledged only (R220, R228). -/
def execReservedQueueCommand (q : Nat) (s : State) : Host.Outcome State Fault Refusal :=
  match queueOf s q with
  | none => .next s
  | some x =>
    match newCmd s x with
    | some w => .next (if cmdOp w = 0 ∨ 5 ≤ cmdOp w then ackQueue s x w else s)
    | none => .next s

/-! ## Saving a group (R215, R216) -/

/-- No command of the group that a save waits for: fabric commands have completed, an action presented has been accepted, and
a copy stands at a chunk boundary. -/
def copiesIdle (s : State) (sel : Copy → Bool) : Bool :=
  s.copies.all fun c => !sel c || (c.cls == .c1 && !c.acting && (c.stopped || c.parts.isEmpty))

/-- The remainders of the copies are kept as resume records. -/
def suspend (s : State) (sel : Copy → Bool) : State :=
  { s with copies := s.copies.map fun c => if sel c then { c with suspended := true, parts := [] } else c }

/-- The group may be written out. -/
def mayWrite (s : State) (g : Group) : Bool :=
  g.haltReq && copiesIdle s (fun c => c.gid == g.gid) &&
  (match g.place with
   | .resident => !g.splits.isEmpty && g.splits.all Split.halted && drained s g
   | .evicted => true
   | .saved => false)

/-- A team leaves to be saved: each of its groups is saved; or all have retired, a pre-emption stops it, and commands of theirs
are not complete. The commands have come to where they are kept as resume records (11 R215). -/
def teamSaves (s : State) (t : Team) : Bool :=
  let gs := s.groups.filter (·.team == t.tid)
  t.place != .saved && gs.all (·.place == .saved) && copiesIdle s (·.team == t.tid) &&
  (!gs.isEmpty || (t.haltReq && s.copies.any (·.team == t.tid)))

/-- A team is evicted whole: none of its groups stands on its core, though some are not saved, and no copy holds its
scratchpad (04 R89). -/
def teamEvicts (s : State) (t : Team) : Bool :=
  t.place == .resident && (residentOf s t.tid).isEmpty && (s.groups.any fun g => g.team == t.tid && g.place == .evicted) &&
  !copyHolds s t.tid

/-- A team none of whose groups stands on its core goes too (00 R3, 04 R89): saved, with the copies that its retired groups left
as resume records, or evicted. -/
def teamGoes (s : State) (tid : Nat) : State :=
  match teamOf s tid with
  | none => s
  | some t =>
    if teamSaves s t then suspend (teamAway s tid .saved) fun c => c.team == tid
    else if teamEvicts s t then teamAway s tid .evicted
    else s

/-- The group written out: its saved C1 counts its resume records alone (R215). -/
def writeOut (s : State) (g : Group) : State :=
  let s := spillPans s g.core (· == g.grid)
  let s := writeArea s g.ctx (groupArea g.vregs.length g.phys.length)
  let s := setGroup s { saveSlots g with place := .saved, haltReq := false, eng := g.eng.filter fun e => !e.done }
  teamGoes (endBoost (suspend s fun c => c.gid == g.gid)) g.team

/-- A save of group `g`; or of team `g`, whose groups have all left or retired and whose commands have come so far since. -/
def execContextSave (g : Nat) (s : State) : Host.Outcome State Fault Refusal :=
  match groupOf s g with
  | none => .next (if (teamOf s g).any (fun t => teamSaves s t || teamEvicts s t) then settleAcks (teamGoes s g) else s)
  | some x => .next (if mayWrite s x then settleAcks (writeOut s x) else s)

/-! ## Placing a group again (00 R3) -/

/-- Physical slots renumbered from the free ones of a quarter, in order. -/
def renumber (g : Group) (free : List Nat) : Group :=
  let move (n : Nat) : Nat := ((g.phys.findIdx? (·.num == n)).bind fun i => free[i]?).getD n
  { g with phys := g.phys.map (fun p => { p with num := move p.num })
           slots := g.slots.map fun x => if x.st = .unbound then x else { x with phys := move x.phys } }

/-- A core forgets the instructions of a context that it holds: what its groups flushed elsewhere is not to be run from an
older copy here (09 R191). -/
def dropInstrs (s : State) (core ctx : Nat) : State :=
  let k := coreOf s core
  setCore s core { k with icache := k.icache.filter (·.ctx != ctx), fbuf := k.fbuf.filter (·.ctx != ctx) }

/-- A group placed in quarter `q` of a core. It issues once it is resumed. -/
def seatGroup (s : State) (core : Nat) (x : Nat × Nat) : State :=
  match groupOf s x.1 with
  | none => s
  | some g =>
    let g := renumber g (freeSlots s core x.2)
    setGroup (dropInstrs s core g.ctx) { g with
      core, quarter := x.2, place := .resident, haltReq := false, resume := .due,
      splits := g.splits.map fun p => { p with halted := false } }

/-- The commands of a team go on at an engine of its core's die (11 R217). -/
def reissue (s : State) (core : Nat) (sel : Copy → Bool) : State :=
  { s with copies := s.copies.map fun c => if sel c then { c with suspended := false, core, die := dieOf core } else c }

/-- The groups of a team saved whole, in GRPID order. -/
def teamGroups (s : State) (tid : Nat) : List Group :=
  sortLe (fun a b => decide (a.grpid ≤ b.grpid)) (s.groups.filter (·.team == tid))

/-- A team needs its own allocation, and room for a region it received unless that lies in a resident parent's. -/
def teamSpad (s : State) (core : Nat) (t : Team) : Nat :=
  t.spadSize +
  match t.recv.bind (handleOf s) with
  | some h => if teamHere s core h.parent then 0 else t.recvSize
  | none => 0

def CheckRun.isOf (k : CheckRun) (t : Team) : Bool := k.grid == t.grid && k.teamid == t.teamid

/-- The cores that a copy of a checked team keeps away from: those on which another copy of it stands, or has run (12 R235, R236;
log 77). -/
def barredCores (s : State) (t : Team) : List Nat :=
  if t.copyNo = 0 then []
  else
    (s.teams.flatMap fun x => if x.tid != t.tid && x.copyNo != 0 && x.grid == t.grid && x.teamid == t.teamid then x.core :: x.ranOn
      else []) ++
    (s.checks.filter (·.isOf t)).flatMap fun k => k.runs.flatMap fun r => r.core :: r.ranOn

/-- Whether a core admits a team saved whole, and the quarters of its groups. -/
def admitsTeam (s : State) (t : Team) (core : Nat) : Option (List Nat) :=
  if coreOpen s core && !(barredCores s t).contains core then
    admits (roomOf s core) ((teamGroups s t.tid).map fun g => (g.vregs.length, g.phys.length)) (teamSpad s core t) t.spawned
  else none

/-- A team saved whole placed on one core: its former core, else the first in order. It is then the most recently placed (12
R227). -/
def restoreTeam (s : State) (t : Team) : Option State :=
  ((t.core :: coreOrder s).findSome? fun c => (admitsTeam s t c).map fun qs => (c, qs)).map fun r =>
    let (core, qs) := r
    let (seq, s) := fresh s
    let ranOn := if core = t.core then t.ranOn else t.core :: t.ranOn
    let s := setTeam s { t with core, seq, place := .resident, haltReq := false, ranOn }
    let s := { s with lastCore := core, handles := s.handles.map fun h => if t.recv = some h.hid then { h with core } else h }
    let s := reissue s core fun c => c.team == t.tid && !(s.groups.any fun g => g.gid == c.gid)
    acquireDev ((((teamGroups s t.tid).map Group.gid).zip qs).foldl (fun s x => seatGroup s core x) s) core

/-- A quarter of its core for an evicted group: its former one if it has room, else by the rule of R25. A team that was not
spawned leaves the core's group slot for pan launches free. -/
def quarterFor (s : State) (g : Group) (spawned : Bool) : Option Nat :=
  let r := roomOf s g.core
  let n := g.vregs.length
  let k := g.phys.length
  if !spawned && decide (r.slots.sum < 2) then none
  else if 0 < r.slots.getD g.quarter 0 ∧ n ≤ r.regs.getD g.quarter 0 ∧ k ≤ r.maps.getD g.quarter 0 then some g.quarter
  else seat r n k

/-- A group placed on its team's core, once a quarter has room. -/
def restoreGroup (s : State) (g : Group) (t : Team) : Option State :=
  (quarterFor s { g with core := t.core } t.spawned).map fun q => acquireDev (seatGroup s t.core (g.gid, q)) t.core

/-- The event that an evicted group waits for has occurred (04 R89). -/
def awake (s : State) (g : Group) : Bool :=
  g.splits.any fun p => match p.state with
    | .ready => true
    | .waitJoin _ pa seen _ => seen || physRead s pa 4 == 0
    | .waitPhase off ph none => (barAt s g.team off).completed ph
    | .waitPhase _ _ (some d) => !harvestOut s g.grid d.key
    | _ => false

/-! ## Resuming (R155, R217) -/

/-- A WAITING split re-tests its condition. One whose .DEV phase is complete waits for its harvest alone (`settleKeys`). -/
def retest (s : State) (gid : Nat) (p : Split) : State :=
  match groupOf s gid with
  | none => s
  | some g =>
    match p.state with
    | .waitJoin .. => jwaitWake s g p
    | .waitPhase off ph none => if (barAt s g.team off).completed ph then wakeSplit s gid p.sid (objOf s g.team off) ph else s
    | _ => s

/-- An image read again from its source: an uncorrectable granule leaves the slot UNBOUND as a bind does (R141). -/
def rebindSlot (u : Iss) (k : Nat) (x : Slot) : Except Eff State :=
  let n := sfmtImage x.sfmt
  let keep (s : State) (bs : List Byte) : State :=
    updGroup s u.g.gid fun g => setPhys (setSlot g k { x with rebind := false }) x.phys (imageOf x.sfmt x.tbind bs)
  if x.space = .scratch then .ok (keep u.s (natToBytes n (spadRead u.s u.g.team x.src.toNat n)))
  else match translateRun u .bind x.src n with
  | .error e => .error e
  | .ok (s, pages) =>
    let es := pieceElems .global x.src.toNat n pages
    match es.findSome? fun e => badGranule? s (e.pa.getD 0) e.size with
    | some pa => .ok (updGroup s u.g.gid fun g => setSlot g k { x with st := .unbound, rebind := false, bad := some (u.p.pc, pa) })
    | none => .ok (keep s (es.flatMap fun e => memReadBytes s.mem (e.pa.getD 0) e.size))

/-- The slots of a group to be bound again, one after another. -/
def rebindAll (u : Iss) (ks : List (Slot × Nat)) : Except Eff State :=
  ks.foldl (fun acc x => match acc with
    | .error e => .error e
    | .ok s => rebindSlot { u with s } (x.2 + 1) x.1) (.ok u.s)

/-- The split at whose next instruction a re-bind's fault is taken: in a handler its own, else the READY one of least
member. -/
def resumeSplit (g : Group) : Option Split :=
  match g.shadow with
  | some sh => splitOf g sh.sid
  | none => ((readyOrder g).head?).bind (splitOf g)

def setResume (s : State) (gid : Nat) (r : Resume) : State := updGroup s gid fun g => { g with resume := r }

/-- The re-binds of a group that may issue: done, or its fault taken as a precise trap before the instruction at which it
resumes, as that instruction's; with no split READY they wait. -/
def rebindGroup (s : State) (gid : Nat) : State :=
  match groupOf s gid with
  | none => s
  | some g =>
    let ks := g.slots.zipIdx.filter fun x => x.1.rebind
    if ks.isEmpty then setResume s gid .done
    else match resumeSplit g, ctxOf s g.ctx with
    | some p, some ctx =>
      let u : Iss := { s, i := (instrAt s g.core g.quarter ctx p.pc).getD (.groupResume gid), g, p, ctx }
      match rebindAll u ks with
      | .ok s => setResume s gid .done
      | .error (.trap s t) => setResume (takeTrap s gid p.sid (t.by u)) gid .faulted
      | .error _ => s
    | _, _ => s

/-- The latch ring saved with a group goes to its quarter (05 R104). -/
def restoreRing (s : State) (g : Group) : State :=
  match g.savedRing with
  | some r => setGroup (setRing s g.core g.quarter r) { g with savedRing := none }
  | none => s

/-- A chain of another group is under way in the quarter that a saved ring is to go to. -/
def ringBusy (s : State) (g : Group) : Bool :=
  g.savedRing.isSome && s.groups.any fun x =>
    x.gid != g.gid && x.core == g.core && x.quarter == g.quarter && x.running && resumed x && x.splits.any (midChain x)

def execGroupResume (g : Nat) (s : State) : Host.Outcome State Fault Refusal :=
  match groupOf s g with
  | none => .next s
  | some x =>
    let due := x.resume == .due || (x.resume == .faulted && !x.inHandler && x.driver.isNone)
    if x.place != .resident || !due || (x.driver.isNone && ringBusy s x) || (gridOf s x.grid).any (gridAway s) then .next s
    else
      let s := reissue s x.core fun c => c.gid == g && c.suspended
      let s := settleKeys x.grid (x.splits.foldl (fun s p => retest s g p) s, [])
      let r := match x.driver, groupOf s g with
        | some _, _ => setResume s g (if x.slots.any Slot.rebind then .faulted else .done)
        | none, some y => rebindGroup (restoreRing s y) g
        | none, none => s
      .next (settleAcks r)

end Sys2Proof.Machine
end

