-- ==== Sys2Proof/Machine/Dispatcher.lean ====
section
/-!
DEFINITION. The dispatcher (01 R23 to R26, 12 R225 to R227, R232): effective priorities and ageing, the choice of a grid,
the placing of its next team, of a concurrent grid, or of a wave, the return of pre-empted teams, and pre-emption for
priority.
-/
namespace Sys2Proof.Machine

/-! ## Work waiting to be placed -/

/-- Teams of a grid that have been pre-empted and saved whole. -/
def savedTeams (s : State) (gr : Grid) : List Team := s.teams.filter fun t => t.grid == gr.uid && t.place == .saved

/-- A team is on its way out, in whole or in part. -/
def teamLeaving (s : State) (t : Team) : Bool := t.haltReq || s.groups.any fun g => g.team == t.tid && g.haltReq

/-- Some team of the grid is still to leave for a pre-emption. -/
def gridHalting (s : State) (uid : Nat) : Bool := s.teams.any fun t => t.grid == uid && teamLeaving s t

/-- A launched team of the grid is on its way out: until it is saved and back, no launched team of the grid is placed (R225). -/
def launchedLeaving (s : State) (gr : Grid) : Bool :=
  s.teams.any fun t => t.grid == gr.uid && (gr.desc.prog == 0 || !t.spawned) && teamLeaving s t

/-- Teams are placed in waves, each whole: a concurrent grid, and a reproducible one (R232). -/
def inWaves (gr : Grid) : Bool := gr.desc.repro || gr.desc.prog == 0

/-- How a team to be run again runs: unchecked, as a third copy, or as two copies. -/
def rerunKind (s : State) (gr : Grid) (x : Nat × Bool) : RunKind :=
  if !x.2 then .plain
  else match s.checks.find? fun k => k.grid == gr.uid && k.teamid == x.1 && k.third with
  | some k => .third (k.runs.flatMap fun r => r.core :: r.ranOn)
  | none => .pair

/-- The new teams that leave the dispatcher next, with how they run: one to be run again, the next team, a whole concurrent
grid, or the next wave once every earlier team has retired. A grid refused at its take places none (R22, R24). -/
def nextTeams (s : State) (gr : Grid) : List (Nat × RunKind) :=
  match gr.rerun with
  | x :: _ => [(x.1, rerunKind s gr x)]
  | [] =>
    if gr.teams ≤ gr.nextTeam ∨ gr.invalid ∨ gr.admission then []
    else if inWaves gr then
      if gr.retired = gr.nextTeam then
        (List.range (min gr.capacity (gr.teams - gr.nextTeam))).map fun k => (gr.nextTeam + k, firstKind gr (gr.nextTeam + k))
      else []
    else [(gr.nextTeam, .plain)]

/-- A taken grid with a team to place or to bring back. -/
def gridWaits (s : State) (gr : Grid) : Bool :=
  gr.phase == .active && !gridStopped s gr && (!(savedTeams s gr).isEmpty || !(nextTeams s gr).isEmpty)

/-! ## Priority (R225, R226) -/

/-- Grids in the order in which their packets were taken. -/
def bySlot (l : List Grid) : List Grid := sortLe (fun a b => decide (a.slot ≤ b.slot)) l

/-- The head grid of a queue: the first that waits. -/
def headGrid (s : State) (q : Nat) : Option Grid := (bySlot (s.grids.filter fun g => g.queue == q && gridWaits s g)).head?

/-- The effective priority of the queue of a grid. -/
def effPrio (s : State) (gr : Grid) : Nat :=
  match headGrid s gr.queue with
  | some h => min 7 (h.prio + h.aged)
  | none => gr.prio

/-- The place of a queue in the round that starts after the one last served. -/
def roundPlace (s : State) (q : Nat) : Nat :=
  match s.lastQueue with
  | none => q
  | some l => (q + Config.queues - 1 - l % Config.queues) % Config.queues

/-- The grids that wait, in the order in which the dispatcher turns to them. -/
def turnOrder (s : State) : List Grid :=
  sortLe (fun a b =>
    decide (effPrio s b < effPrio s a) ||
    (effPrio s a == effPrio s b &&
      (decide (roundPlace s a.queue < roundPlace s b.queue) ||
       (a.queue == b.queue && decide (a.slot ≤ b.slot))))) (s.grids.filter (gridWaits s))

/-- Ageing (R226): the effective priority rises by one for each AGE for which the head grid has waited. -/
def execQueueAgeing (q : Nat) (s : State) : Host.Outcome State Fault Refusal :=
  match queueOf s q, headGrid s q with
  | some x, some h =>
    let t := x.age * Config.clkPerUs
    if x.age ≠ 0 ∧ t ≤ h.waited ∧ h.prio + h.aged < 7 then
      .next (setGrid s { h with aged := h.aged + 1, waited := h.waited - t })
    else .next s
  | _, _ => .next s

/-- Time passes for the head grids, which are those with a team waiting to be placed (R226). -/
def waitOn (s : State) (n : Nat) : State :=
  { s with grids := s.grids.map fun g =>
      if ((headGrid s g.queue).map Grid.uid) = some g.uid then { g with waited := g.waited + n } else g }

/-! ## Pre-emption for priority (R227) -/

/-- The machine without some teams and their groups. -/
def without (s : State) (tids : List Nat) : State :=
  { s with teams := s.teams.filter fun t => !tids.contains t.tid, groups := s.groups.filter fun g => !tids.contains g.team }

/-- Resident teams of lower PRIO on a core: lowest first, of equals the most recently placed first. -/
def lowerTeams (s : State) (core prio : Nat) : List Team :=
  sortLe (fun a b => decide (a.prio < b.prio) || (a.prio == b.prio && decide (b.seq ≤ a.seq)))
    (s.teams.filter fun t => t.core == core && t.place == .resident && decide (t.prio < prio))

/-- What a team needs of a core. -/
structure Need where
  groups : List (Nat × Nat)
  spad : Nat
  pan : Bool
  skip : List Nat

/-- The first core, in order, that would admit the team without its resident teams of lower PRIO. -/
def preemptCore (s : State) (prio : Nat) (n : Need) : Option Nat :=
  (coreOrder s).find? fun c =>
    coreOpen s c && !n.skip.contains c &&
    !(lowerTeams s c prio).isEmpty &&
    (admits (roomOf (without s ((lowerTeams s c prio).map Team.tid)) c) n.groups n.spad n.pan).isSome

/-- The teams that leave with a team: the later ones of a parallel grid, a concurrent grid whole. -/
def leavesWith (s : State) (t : Team) : List Nat :=
  match gridOf s t.grid with
  | none => [t.tid]
  | some gr =>
    (s.teams.filter fun x => x.tid == t.tid ||
      (x.grid == t.grid && x.place != .saved &&
        (gr.desc.prog == 0 || (gr.desc.prog == 1 && !t.spawned && !x.spawned && decide (t.teamid < x.teamid))))).map Team.tid

/-- A team fits nowhere: one more victim is asked to leave, none while one on the core is on its way. -/
def makeWay (s tried : State) (prio : Nat) (n : Need) : Option State :=
  match preemptCore tried prio n with
  | none => none
  | some c =>
    let vs := (lowerTeams s c prio)
    if vs.any (teamLeaving s) then some s
    else match vs with
    | [] => none
    | v :: _ =>
      let tids := leavesWith s v
      some (askHalt s fun t => tids.contains t.tid)

/-! ## A turn (R225) -/

/-- What a turn does. -/
inductive TurnKind where
  | team
  | whole (grid : Nat)
  | wave (grid : Nat)
  | restore (tids : List Nat)
  | preempt
  | refused
  deriving DecidableEq, Repr

/-- The first of some saved teams that fits. -/
def firstFit (s : State) (ts : List Team) : Option (TurnKind × State) :=
  ts.findSome? fun t => (restoreTeam s t).map fun s => (.restore [t.tid], s)

/-- A concurrent grid's launched teams return together; else the first that fits nowhere, and the state then. -/
def restoreAll (s : State) (ts : List Team) : Except (Team × State) State :=
  ts.foldl (fun acc t => match acc with
    | .error e => .error e
    | .ok s => match restoreTeam s t with
      | some s => .ok s
      | none => .error (t, s)) (.ok s)

/-- What a saved team needs of a core. -/
def savedNeed (s : State) (t : Team) : Need :=
  { groups := (teamGroups s t.tid).map fun g => (g.vregs.length, g.phys.length), spad := t.spadSize + t.recvSize,
    pan := t.spawned, skip := barredCores s t }

/-- Pre-emption for a saved team that fits nowhere. -/
def makeWaySaved (s tried : State) (gr : Grid) (t : Team) : Option (TurnKind × State) :=
  (makeWay s tried gr.prio (savedNeed s t)).map fun s => (.preempt, s)

/-- The saved spawned teams of a grid, in the order in which they were launched. -/
def savedSpawned (s : State) (gr : Grid) : List Team :=
  sortLe (fun a b => decide (a.tid ≤ b.tid)) ((savedTeams s gr).filter Team.spawned)

/-- The saved launched teams of a grid by TEAMID, the copies of a checked one in the order in which they were placed. -/
def savedLaunched (s : State) (gr : Grid) : List Team :=
  sortLe (fun a b : Team => decide (a.teamid < b.teamid) || (a.teamid == b.teamid && decide (a.tid ≤ b.tid)))
    ((savedTeams s gr).filter fun t => !t.spawned)

/-- The return of the lowest saved launched team, or of a concurrent grid's together (R24, R225). -/
def serveLaunched (s : State) (gr : Grid) : Option (TurnKind × State) :=
  let la := savedLaunched s gr
  match restoreAll s (if gr.desc.prog = 0 then la else la.take 1) with
  | .ok s' => some (.restore ((if gr.desc.prog = 0 then la else la.take 1).map Team.tid), s')
  | .error (t, tried) => makeWaySaved s tried gr t

/-- A grid once teams of it are placed. -/
def placed (s : State) (gr : Grid) (n : Nat) (again : Bool) (base : Nat) : State :=
  updGrid s gr.uid fun g =>
    { g with nextTeam := if again then g.nextTeam else g.nextTeam + n, rerun := if again then g.rerun.drop 1 else g.rerun,
             waveBase := base }

/-- LBASE of the teams to be placed: that of the current wave for one that runs again, zero for the first wave, else one more
than the greatest LT reached (R230, R232). -/
def baseOf (gr : Grid) : Nat :=
  if !gr.rerun.isEmpty then gr.waveBase
  else if gr.nextTeam = 0 ∨ !gr.desc.repro then 0
  else gr.maxLT + 1

/-- The cores that a run which fits nowhere keeps away from: those of the runs before a third one; that of its first copy, where
the second copy does not fit (R235). `tried`: the state then. -/
def newSkip (s tried : State) (us : List (Nat × RunKind)) : List Nat :=
  match us with
  | [(_, .third cores)] => cores
  | _ => match tried.checks.getLast?, tried.teams.getLast? with
    | some k, some t => if tried.checks.length > s.checks.length && k.isOf t && t.copyNo == 1 then [t.core] else []
    | _, _ => []

/-- The placing of new teams. A team that passes on no core, and for which no core qualifies, stops the grid's dispatch until
some team retires (R26). -/
def serveNew (s : State) (gr : Grid) : Option (TurnKind × State) :=
  let us := nextTeams s gr
  let runs := (us.map fun u => if u.2 = .pair then 2 else 1).sum
  if us.isEmpty || gr.refused || !saveHolds s gr.ctx (runs * descArea gr.desc) then none
  else
    let kind := if !gr.rerun.isEmpty || !inWaves gr then TurnKind.team
      else if gr.desc.repro then .wave gr.uid else .whole gr.uid
    match placeTeams s gr (baseOf gr) us with
    | .ok s' => some (kind, placed s' gr us.length (!gr.rerun.isEmpty) (baseOf gr))
    | .error tried =>
      match makeWay s tried gr.prio
        { groups := descNeeds gr.desc, spad := roundGranule gr.desc.spad, pan := false, skip := newSkip s tried us } with
      | some s => some (.preempt, s)
      | none => some (.refused, updGrid s gr.uid fun g => { g with refused := true })

/-- The turn of one grid (R225): its oldest saved spawned team that fits; else its lowest saved launched team; else, once none
of its launched teams is on its way out, new teams of it. A spawned team that fits nowhere pre-empts when nothing else of the
grid does. -/
def serveWaiting (s : State) (gr : Grid) : Option (TurnKind × State) :=
  let sp := if gr.desc.prog = 0 ∧ gridHalting s gr.uid = true then [] else savedSpawned s gr
  let la := if launchedLeaving s gr then none
    else if (savedLaunched s gr).isEmpty then serveNew s gr else serveLaunched s gr
  (firstFit s sp).or (la.or (sp.head?.bind (makeWaySaved s s gr)))

/-- The grid's effective priority is its PRIO again when a team of it is placed (R226). -/
def notWaiting (s : State) (gr : Grid) : State := updGrid s gr.uid fun g => { g with waited := 0, aged := 0 }

/-- The turn of one grid, with what follows from it for the order of turns. -/
def serveGrid (s : State) (gr : Grid) : Option (TurnKind × State) :=
  (serveWaiting s gr).map fun r =>
    (r.1, if r.1 = .preempt ∨ r.1 = .refused then r.2 else { notWaiting r.2 gr with lastQueue := some gr.queue })

/-- The dispatcher's next turn: the first grid in order that it can serve. -/
def nextTurn (s : State) : Option (TurnKind × State) := (turnOrder s).findSome? (serveGrid s)

/-- A turn is taken by the step that stands for its kind. -/
def takeTurn (s : State) (mine : TurnKind → Bool) : State :=
  match nextTurn s with
  | some (k, s') => if mine k then s' else s
  | none => s

def execTeamDispatch (s : State) : Host.Outcome State Fault Refusal :=
  .next (takeTurn s fun k => k == .team || k == .preempt || k == .refused)

def execConcurrentPlacement (gr : Nat) (s : State) : Host.Outcome State Fault Refusal :=
  .next (takeTurn s fun k => k == .whole gr)

def execReproWavePlacement (gr : Nat) (s : State) : Host.Outcome State Fault Refusal :=
  .next (takeTurn s fun k => k == .wave gr)

/-- The turn at which a team returns. -/
def restoreTurn (s : State) (tid : Nat) : State :=
  takeTurn s fun k => match k with
    | .restore ts => ts.contains tid
    | _ => false

/-- An evicted group comes back when the event it waits for has occurred, with its team if that is saved whole (04 R89,
00 R3); a pre-empted one with its team at its grid's turn, or to the core where its team still stands. `g` may also be a saved
team, whose groups may all have retired. -/
def execGroupRestore (g : Nat) (s : State) : Host.Outcome State Fault Refusal :=
  match groupOf s g with
  | none => .next (if (teamOf s g).any (·.place == .saved) then settleAcks (restoreTurn s g) else s)
  | some x =>
    match teamOf s x.team, gridOf s x.grid with
    | some t, some gr =>
      match x.place with
      | .resident => .next s
      | .saved =>
        if t.place = .resident then
          .next (if gridStopped s gr || gridHalting s gr.uid then s else (restoreGroup s x t).getD s)
        else .next (restoreTurn s t.tid)
      | .evicted =>
        if x.haltReq || gridStopped s gr || !awake s x then .next s
        else match t.place with
        | .resident => .next ((restoreGroup s x t).getD s)
        | .evicted => .next ((restoreTeam s t).getD s)
        | .saved => .next s
    | _, _ => .next s

end Sys2Proof.Machine
end

