-- ==== Sys2Proof/Machine/QueueUnit.lean ====
section
/-!
DEFINITION. The queue unit (12 R220 to R224, R401): TAIL, the taking of a launch packet; and the end of work: groups, teams
and grids retire and complete (01 R28 to R31, 12 R236).
-/
namespace Sys2Proof.Machine

/-! ## Taking a packet -/

/-- TAIL stands more than the slot count past HEAD (R221). -/
def Queue.overfull (q : Queue) : Bool := decide (2 ^ q.k < (q.tail + 2 ^ 64 - q.head) % 2 ^ 64)

def execQueueTailUpdate (q : Nat) (s : State) : Host.Outcome State Fault Refusal :=
  match queueOf s q with
  | none => .next s
  | some x =>
    let x' := { x with tail := physRead s x.base 8 }
    let s := setQueue s { x' with stopped := x.stopped || x'.overfull }
    .next (if x'.overfull && !x.stopped then signal s s.mgmtVec else s)

/-- Bits `lo + w - 1 : lo` of a record. -/
def fld (x lo w : Nat) : Nat := x / 2 ^ lo % 2 ^ w

/-- A wait word's address obeys R222. -/
def waitOk (x en lo : Nat) : Bool :=
  fld x lo 64 % 4 == 0 && fld x (lo + 57) 7 == 0 && (x.testBit en || fld x lo 64 == 0)

/-- DONE obeys R222. -/
def doneOk (x : Nat) : Bool := fld x 384 2 == 0 && fld x 441 7 == 0

/-- The packet obeys R222 and R12, CHK apart. -/
def packetOk (x : Nat) : Bool :=
  fld x 0 6 == 0 && fld x 57 7 == 0 && fld x 169 7 == 0 && fld x 184 8 == 0 && waitOk x 163 256 && waitOk x 164 320 &&
  doneOk x

/-- Why a read of the queue unit brings nothing: the cause, the address and the fault word. -/
abbrev ReadFault := Cause × DWord × Nat

/-- A read of the queue unit in a context, with the state its walk leaves: never in supervisor mode, by a walk of its own. An
uncorrectable error has the fault word of its access alone. -/
def queueRead (s : State) (c : Context) (va : DWord) (n : Nat) : Except ReadFault Nat × State :=
  match walkAccess s c va .load false with
  | (.error f, s) => (.error (if f.notPresent then .pageNotPresent else .pagePermission, f.va, f.word), s)
  | (.ok pa, s) =>
    (if (badGranule? s pa n).isSome then .error (.memoryUncorrectable, va, Access.load.code) else .ok (physRead s pa n), s)

/-- One wait word as it is read: whether it is satisfied, `(w - value) mod 2^32 < 2^31`. One that is not enabled is, and so is
one whose address breaks R222, which is not read (log 59). -/
def waitWord (s : State) (c : Context) (x en addr val : Nat) : Except ReadFault Bool × State :=
  if !x.testBit en || !waitOk x en addr then (.ok true, s)
  else
    let r := queueRead s c (BitVec.ofNat 64 (fld x addr 64)) 4
    (r.1.map fun v => decide ((v + 2 ^ 32 - fld x val 32) % 2 ^ 32 < 2 ^ 31), r.2)

/-- Both wait words, each read each time a packet is considered (R401). -/
def waitWords (s : State) (c : Context) (x : Nat) : Except ReadFault Bool × State :=
  let a := waitWord s c x 163 256 448
  let b := waitWord a.2 c x 164 320 480
  (a.1.bind fun p => b.1.map fun q => p && q, b.2)

/-- The descriptor of a packet, read once (R22): none when it is invalid. -/
def readDesc (s : State) (c : Context) (x : Nat) : Except ReadFault (Option Desc) × State :=
  let r := queueRead s c (BitVec.ofNat 64 (fld x 0 64)) 64
  (r.1.map fun v =>
    let d := Desc.ofNat v
    if descReserved v && d.valid && (d.checked || fld x 165 4 == 0) then some d else none, r.2)

/-- The next GRIDID of a context (R15). -/
def nextGridId (n : Nat) : Nat := if n + 1 = 2 ^ 32 then 1 else n + 1

/-- The grid of a packet (R222). An invalid one has no descriptor; a DONE that breaks R222 is never written (R401). -/
def packetGrid (q : Queue) (c : Context) (uid x : Nat) (d : Option Desc) : Grid :=
  { uid, ctx := c.num, gridid := c.nextGrid, queue := q.num, slot := q.taken, pkt := q.base + 64 + 64 * (q.taken % 2 ^ q.k),
    desc := d.getD (Desc.ofNat 0), args := BitVec.ofNat 64 (fld x 64 64),
    teams := if fld x 128 32 = 0 then 2 ^ 32 else fld x 128 32, prio := fld x 160 3, chk := fld x 165 4,
    seed := BitVec.ofNat 64 (fld x 192 64), done := if doneOk x then BitVec.ofNat 64 (fld x 384 64) else 0#64,
    nextTeam := 0, retired := 0, rerun := [], spawnedGroups := 0, orphans := 0, lost := false, faulted := false,
    invalid := d.isNone, admission := false, capacity := 0, waveBase := 0, maxLT := 0, buffered := [],
    waited := 0, aged := 0, refused := false, preempted := false, phase := .active }

/-- A packet taken: its grid, whose capacity is counted where its class needs it (R24, R232). -/
def takePacket (s : State) (q : Queue) (c : Context) (x : Nat) (d : Option Desc) : State :=
  let (uid, s) := fresh s
  let g := packetGrid q c uid x d
  let cap := if inWaves g && d.isSome then capacityOf s g else 0
  let g := { g with capacity := cap, admission := d.isSome && g.desc.prog == 0 && decide (cap < g.teams) }
  let s := setQueue s { q with taken := q.taken + 1 }
  let s := setCtx s { (ctxOf s c.num).getD c with nextGrid := nextGridId c.nextGrid }
  { s with grids := s.grids ++ [g] }

/-- A packet whose descriptor or wait word cannot be read: a log-only record, and a grid that places no team (R401). -/
def takeUnreadable (s : State) (q : Queue) (c : Context) (x : Nat) (f : ReadFault) : State :=
  report (takePacket s q c x none)
    { ctx := c.num, link := .log, body := blankRec s c.nextGrid f.1 4 f.2.1 (BitVec.ofNat 64 f.2.2) }

/-- The previous packet of the queue has placed its last team, or has completed (R223). -/
def previousPlaced (s : State) (q : Queue) : Bool :=
  s.grids.all fun g => g.queue != q.num || g.phase != .active || decide (g.teams ≤ g.nextTeam)

/-- The queue may take a packet, its wait words apart. -/
def mayTakePacket (s : State) (q : Queue) : Bool :=
  !q.stopped && !q.overfull && !q.preempted && !ctxStopped s q.ctx && decide (q.taken < q.tail) && previousPlaced s q

def execLaunchPacketTake (q : Nat) (s : State) : Host.Outcome State Fault Refusal :=
  match queueOf s q with
  | none => .next s
  | some qu =>
    match ctxOf s qu.ctx with
    | none => .next s
    | some c =>
      let x := physRead s (qu.base + 64 + 64 * (qu.taken % 2 ^ qu.k)) 64
      if !mayTakePacket s qu then .next s
      else match waitWords s c x with
      | (.error f, s) => .next (takeUnreadable s qu c x f)
      | (.ok false, s) => .next s
      | (.ok true, s) =>
        if !packetOk x then .next (takePacket s qu c x none)
        else match readDesc s c x with
        | (.error f, s) => .next (takeUnreadable s qu c x f)
        | (.ok d, s) => .next (takePacket s qu c x d)

/-! ## Groups and teams retire (01 R28, R29) -/

/-- The logged record of an image error that no instruction named (07 R141): SOURCE 4, the slot, the MAPBIND's PC and the
physical address. -/
def slotRecord (s : State) (g : Group) (k : Nat) (b : DWord × Nat) : DriverRec :=
  { ctx := g.ctx, link := .log,
    body := { blankRec s g.gridid .memoryUncorrectable 4 b.1 (BitVec.ofNat 64 b.2) with
      slot := k, pc := b.1, core := g.core, quarter := g.quarter, grpid := g.grpid, teamid := g.teamid } }

/-- The image errors of a group that ends, logged. -/
def logSlots (s : State) (g : Group) : State :=
  g.slots.zipIdx.foldl (fun s x => match x.1.bad with
    | some b => report s (slotRecord s g (x.2 + 1) b)
    | none => s) s

/-- LT reached by a group of a wave (12 R232): a spawned group belongs to none. -/
def noteLT (s : State) (g : Group) : State :=
  if ((teamOf s g.team).map Team.spawned).getD false then s
  else updGrid s g.grid fun gr => { gr with maxLT := max gr.maxLT g.lt }

def execGroupRetire (g : Nat) (s : State) : Host.Outcome State Fault Refusal :=
  match groupOf s g with
  | none => .next s
  | some x =>
    if x.splits.isEmpty && counter x .c0 == 0 && counter x .c2 == 0 then
      let s := noteLT (logSlots s x) x
      .next (settleAcks (endBoost (teamGoes { s with groups := s.groups.filter (·.gid != g) } x.team)))
    else .next s

/-- The region that a team received by SPAWN.H returns to its parent team, or is freed when that has retired (R83). It returns
whole, also where the team has handed part of it on: a grandchild keeps its own bytes of that part (log 66). -/
def returnRegion (s : State) (t : Team) : State :=
  match t.recv.bind (handleOf s) with
  | none => s
  | some h =>
    let a := h.first * Config.granule
    let n := h.count * Config.granule
    let bs := memReadBytes t.spad t.spadSize n
    let back := (t.objs.filter fun o => decide (t.spadSize ≤ o.off)).map fun o => { o with off := a + (o.off - t.spadSize) }
    let s := updTeam s h.parent fun p => { p with spad := memWriteBytes p.spad a bs, objs := p.objs ++ back }
    { s with handles := s.handles.filter (·.hid != h.hid) }

/-- The team's slot and scratchpad are freed, and refused grids are offered again (R26). -/
def removeTeam (s : State) (tid : Nat) : State := offerAgain { s with teams := s.teams.filter (·.tid != tid) }

/-- A launched team of a grid has retired. -/
def countRetired (s : State) (t : Team) : State :=
  updGrid s t.grid fun g => { g with retired := if t.spawned then g.retired else g.retired + 1 }

/-- How a copy of a checked team ended. -/
def copyRun (t : Team) : CopyRun := { no := t.copyNo, core := t.core, ranOn := t.ranOn, stream := t.stream, traps := t.traps }

/-! ## Performing a stream (12 R236) -/

/-- The operation that stands for a stream's writes: it belongs to no group. -/
def streamOp (s : State) (t : Team) (id : Nat) (kind : OpKind) (es : List Elem) : Op :=
  { id, gid := id, sid := 0, agent := id, before := [], ctx := t.ctx, grid := t.grid, team := 0, core := t.core,
    die := dieOf t.core,
    tmpl := { blankRec s (((gridOf s t.grid).map Grid.gridid).getD 0) .memoryUncorrectable 4 0#64 0#64 with
      core := t.core, teamid := t.teamid },
    sup := false, kind, acq := false, rel := false, scope := .dev, lt := 0, gindex := 0, harvest := none, elems := es }

/-- One item of a stream performed: a write at the place it was translated to, or a reduction at its home, as operation `id`.
`items`: it, and those after it. -/
def performItem (t : Team) (items : List StreamItem) (s : State) (id : Nat) (x : StreamItem) : State :=
  let elem (y : StreamItem) : Elem := { mkElem y.lane .global y.va y.pa y.size with data := y.data }
  let mark (o : Op) : Op := { o with tmpl := { o.tmpl with grpid := x.grpid, mask := laneBit x.lane } }
  match x.rmw with
  | none =>
    let e := elem x
    let mates := (items.filter fun y => y.batch == x.batch && y.rmw.isNone).map elem
    let clear := (coveredGranules mates s.badGranules).filter (touches e)
    (storeElem { s with badGranules := s.badGranules.filter fun g => !clear.contains g } (mark (streamOp s t id .store [e])) e).1
  | some (u, op) =>
    let e := { elem x with pa := none, u, op }
    settleKeys t.grid (homeStep { s with ops := s.ops ++ [mark (streamOp s t id (.rmw u none) [e])] } id 0)

/-- A stream performed in its order, as far as its first request that parks: what is left, that request's operation, and the
state. -/
def performItems (t : Team) (items : List StreamItem) (s : State) : List StreamItem × Option Nat × State :=
  match items with
  | [] => ([], none, s)
  | x :: rest =>
    let (id, s) := fresh s
    let s := performItem t (x :: rest) s id x
    if (opOf s id).isSome then (rest, some id, s) else performItems t rest s

/-- The check is over. -/
def dropCheck (s : State) (k : CheckRun) : State :=
  { s with checks := s.checks.filter fun x => !(x.grid == k.grid && x.teamid == k.teamid) }

def setCheck (s : State) (k : CheckRun) : State :=
  { s with checks := s.checks.map fun x => if x.grid = k.grid ∧ x.teamid = k.teamid then k else x }

/-- The stream of an accepted copy is performed as the team's writes, and the team retires (R236); where a request of it parks,
the rest follows when that is performed or dropped. -/
def performRun (s : State) (k : CheckRun) (r : CopyRun) : State :=
  match gridOf s k.grid with
  | none => dropCheck s k
  | some g =>
    let t := startTeam g 0 k.teamid r.core 0 4 false 0
    match performItems t r.stream s with
    | (_, none, s) => countRetired (dropCheck s k) t
    | (rest, some id, s) => setCheck s { k with accepted := some { r with stream := rest }, item := some id }

/-- Everything of the team has retired or completed (R29), and all that a copy writes is in its stream. -/
def teamDone (s : State) (t : Team) : Bool :=
  (s.groups.all fun g => g.team != t.tid) && (s.copies.all fun c => c.team != t.tid) &&
  (t.copyNo == 0 || s.ops.all fun o => o.team != t.tid)

/-- A team that has finished: an unchecked one is freed, a copy under comparison leaves its stream, and one that the
comparator has accepted performs it. -/
def retireTeam (s : State) (t : Team) : State :=
  match t.copyNo with
  | 0 => countRetired (removeTeam (returnRegion s t) t.tid) t
  | 4 =>
    match s.checks.find? (·.isOf t) with
    | some k => performRun (removeTeam s t.tid) k (copyRun t)
    | none => countRetired (removeTeam s t.tid) t
  | _ => { removeTeam s t.tid with checks := s.checks.map fun k => if k.isOf t then { k with runs := k.runs ++ [copyRun t] } else k }

def execTeamRetire (t : Nat) (s : State) : Host.Outcome State Fault Refusal :=
  match teamOf s t with
  | none => .next s
  | some x => .next (if teamDone s x && x.overflow.isNone then retireTeam s x else s)

/-! ## Grid completion (01 R30, R31, 12 R224, R401) -/

/-- A request of R173 of a grid. -/
def gridRequest (o : Op) : Bool :=
  match o.kind with
  | .rmw _ none | .dec _ | .fold | .copyF _ | .gate .. => true
  | _ => false

/-- Records of a grid in some pan, in a brine queue, or released and waiting for room. -/
def gridRecords (s : State) (uid : Nat) : Bool :=
  (s.cores.any fun c => c.pans.any fun p => (p.map fun x => x.grid == uid).getD false) ||
  (s.contexts.any fun c => c.brine.any fun r => r.grid == uid) || s.deferredRecs.any fun x => x.2.2.grid == uid

/-- Every condition of R30 holds; a grid that places no team, or whose context is terminated, has none but its commands. -/
def gridDone (s : State) (gr : Grid) : Bool :=
  (gr.faulted || gr.invalid || gr.admission || (decide (gr.teams ≤ gr.nextTeam) && gr.rerun.isEmpty)) &&
  (s.teams.all fun t => t.grid != gr.uid) && (s.groups.all fun g => g.grid != gr.uid) &&
  (s.checks.all fun k => k.grid != gr.uid) && (s.copies.all fun c => c.grid != gr.uid) && !gridRecords s gr.uid &&
  s.ops.all fun o => o.grid != gr.uid || !gridRequest o

/-- The status of highest precedence (R31). -/
def gridStatus (gr : Grid) : Nat :=
  if gr.faulted then 4 else if gr.invalid then 3 else if gr.admission then 2 else if gr.lost then 1
  else if 0 < gr.orphans then 5 else 0

/-- The increment of DONE: a request at the word's home, which parks among the slices of the die that holds the packet. -/
def doneOp (s : State) (gr : Grid) (id : Nat) : Op :=
  { id, gid := id, sid := 0, agent := id, before := [], ctx := gr.ctx, grid := gr.uid, team := 0, core := Config.cores,
    die := Config.homeDie gr.pkt % Config.dies, tmpl := blankRec s gr.gridid .pageNotPresent 2 0#64 0#64, sup := false,
    kind := .doneInc, acq := false, rel := true, scope := .sys, lt := 0, gindex := 0, harvest := none,
    elems := [{ mkElem 64 .global gr.done none 4 with u := .b32, op := 0, data := 1#64 }] }

/-- HEAD once the leading complete packets are passed. -/
def headPast (s : State) (q : Queue) (fuel : Nat) : Nat :=
  match fuel with
  | 0 => 0
  | n + 1 =>
    if s.grids.any fun g => g.queue == q.num && g.slot == q.head && g.phase == .complete
    then 1 + headPast s { q with head := (q.head + 1) % 2 ^ 64 } n else 0

/-- HEAD advances over every leading packet whose grid has completed. -/
def advanceHead (s : State) (qn : Nat) : State :=
  match queueOf s qn with
  | none => s
  | some q =>
    let n := headPast s q s.grids.length
    let head := (q.head + n) % 2 ^ 64
    let passed (g : Grid) : Bool := g.queue == qn && g.phase == .complete &&
      decide ((g.slot + 2 ^ 64 - q.head) % 2 ^ 64 < n)
    if n = 0 then s
    else setQueue { physWrite s (q.base + 8) 8 head with grids := s.grids.filter fun g => !passed g } { q with head }

/-- The last grid of a terminated context takes the context, its queues and its continuation blocks with it. -/
def dropContext (s : State) (n : Nat) : State :=
  if ((ctxOf s n).map Context.terminating).getD false && s.grids.all (fun g => g.ctx != n) then
    { s with contexts := s.contexts.filter (·.num != n), queues := s.queues.filter (·.ctx != n),
             blocks := s.blocks.filter (·.ctx != n) }
  else s

/-- A grid whose DONE word is counted is complete. -/
def finishGrid (s : State) (gr : Grid) : State :=
  dropContext (advanceHead (setGrid s { gr with phase := .complete }) gr.queue) gr.ctx

/-- The completion of a grid every condition of which holds: buffered reductions are applied, then STATUS is written, and
DONE incremented. -/
def completeGrid (s : State) (gr : Grid) : State :=
  if !gr.buffered.isEmpty && !gr.faulted then harvestGrid s gr.uid none
  else
    let s := physWrite s (gr.pkt + 22) 1 (gridStatus gr)
    if gr.done = 0#64 then finishGrid s gr
    else
      let (id, s) := fresh s
      let s := setGrid s { gr with phase := .counting id }
      homeRequest { s with ops := s.ops ++ [doneOp s gr id] } id 0

def execGridCompletion (gr : Nat) (s : State) : Host.Outcome State Fault Refusal :=
  match gridOf s gr with
  | none => .next s
  | some g =>
    match g.phase with
    | .active => .next (if gridDone s g then completeGrid s g else s)
    | .counting op => .next (if (opOf s op).isNone then finishGrid s g else s)
    | .complete => .next s

end Sys2Proof.Machine
end

