-- ==== Sys2Proof/Machine/Check.lean ====
section
/-!
DEFINITION. The comparator of checked teams (12 R236), and the retirement of a core (00 R7).
-/
namespace Sys2Proof.Machine

/-! ## Retiring a core (R7) -/

/-- The logical number of a package core index on its die. -/
def logicalOf (core : Nat) : Nat := core % Config.coresPerDie

/-- The core's index receives no further teams, and its physical core is retired: the one that holds the index now, also where
a quiesce has given the index to a spare since the run (log 67). -/
def retireCore (s : State) (core : Nat) : State :=
  let d := dieOf core
  let s := setCore s core { coreOf s core with active := false }
  match s.dies[d]? with
  | none => s
  | some x =>
    let x := { x with phys := x.phys.map fun m => if m = .logical (logicalOf core) then .retired else m }
    { s with dies := s.dies.set d x }

/-! ## Ends of copies -/

/-- The teams that run for a check. -/
def checkTeams (s : State) (k : CheckRun) : List Team := s.teams.filter fun t => k.isOf t && t.copyNo != 0

/-- A copy that has trapped stands still: every group of it is halted or parked and nothing of it is under way. -/
def trapRests (s : State) (t : Team) : Bool :=
  !t.traps.isEmpty && t.place == .resident && (s.groups.all fun g => g.team != t.tid || g.driver.isSome || g.parked) &&
  (s.ops.all fun o => o.team != t.tid) && s.copies.all fun c => c.team != t.tid || c.stopped

/-- The copies that have come to an end: retired, or standing at a trap. -/
def endedRuns (s : State) (k : CheckRun) : List CopyRun :=
  k.runs ++ ((checkTeams s k).filter (trapRests s)).map copyRun

/-- Copy `no` of a check, if it has ended. -/
def endedRun (s : State) (k : CheckRun) (no : Nat) : Option CopyRun := (endedRuns s k).find? (·.no == no)

/-- Items compared: a group's own, by address and then in stream order, whatever physical address they were translated to and
however copies ran. -/
def groupItems (r : CopyRun) (grpid : Nat) : List StreamItem :=
  sortLe (fun a b => decide (a.va.toNat ≤ b.va.toNat)) ((r.stream.filter (·.grpid == grpid)).map fun x => { x with batch := 0, pa := none })

/-- A trap record apart from CORE, QUARTER and TIME. -/
def bareTrap (r : TrapRec) : TrapRec := { r with core := 0, quarter := 0, time := 0 }

/-- A copy's traps in GRPID order. -/
def bareTraps (r : CopyRun) : List TrapRec :=
  sortLe (fun a b => decide (a.grpid ≤ b.grpid)) (r.traps.map bareTrap)

/-- Two copies match: their streams group by group and element by element, and their traps. -/
def runsMatch (a b : CopyRun) : Bool :=
  ((List.range 16).all fun i => groupItems a i == groupItems b i) && bareTraps a == bareTraps b

/-! ## What the comparator does -/

/-- The copies of a team are discarded with everything of theirs under way; the room that they leave is offered again (log 64). -/
def discardCopies (s : State) (k : CheckRun) : State :=
  let tids := (checkTeams s k).map Team.tid
  let here (tid : Nat) : Bool := tids.contains tid
  endBoost <| dropFences
    { offerAgain s with
      groups := s.groups.filter fun g => !here g.team
      ops := s.ops.filter fun o => !here o.team
      copies := s.copies.filter fun c => !here c.team
      teams := s.teams.filter fun t => !here t.tid }

/-- The team runs again from its beginning (00 R10). -/
def runAgain (s : State) (k : CheckRun) (checked : Bool) : State :=
  updGrid s k.grid fun g => { g with rerun := g.rerun ++ [(k.teamid, checked)] }

/-- A log-only record of the comparator. -/
def checkLog (s : State) (k : CheckRun) (cause : Cause) (aux0 aux1 : Nat) : State :=
  match gridOf s k.grid with
  | none => s
  | some g => report s
      { ctx := g.ctx, link := .log,
        body := { blankRec s g.gridid cause 4 (BitVec.ofNat 64 aux0) (BitVec.ofNat 64 aux1) with teamid := k.teamid } }

/-- A group that stands at a trap for the handler enters it. -/
def enterCompared (s : State) (g : Group) : State :=
  match g.driver with
  | none => s
  | some d =>
    match splitOf g d.sid, d.kind with
    | some p, .compared =>
      enterHandler s { g with driver := none } p d.body g.faults ((ctxOf s g.ctx).elim 0#64 (·.handler))
    | _, _ => s

/-- The record of a trap that halted a group of a copy for the driver. -/
def reportTrap (s : State) (t : Team) (r : TrapRec) : State :=
  match s.groups.find? fun g => g.team == t.tid && g.grpid == r.grpid with
  | some g =>
    if (g.driver.map DriverHalt.kind) = some .compared then s else report s { ctx := t.ctx, body := r, link := .group g.gid }
  | none => s

/-- The traps at which the copies stand are delivered once: to the driver for the groups of copy `no`, or by each copy's
entry into the handler (R236; log 37). -/
def deliverTraps (s : State) (k : CheckRun) (no : Nat) : State :=
  match (checkTeams s k).find? (·.copyNo == no) with
  | none => s
  | some t =>
    let tids := (checkTeams s k).map Team.tid
    let s := t.traps.foldl (fun s r => reportTrap s t r) s
    let s := (s.groups.filter fun g => tids.contains g.team).foldl enterCompared s
    { s with teams := s.teams.map fun x => if k.isOf x then { x with traps := [] } else x }

/-- A match of the two copies. -/
def checkMatch (s : State) (k : CheckRun) (a : CopyRun) : State :=
  if a.traps.isEmpty then performRun s k a else deliverTraps s k 1

/-- A mismatch: nothing is performed and a third copy decides. -/
def checkMismatch (s : State) (k : CheckRun) (a b : CopyRun) : State :=
  runAgain (setCheck (discardCopies s k) { k with runs := [a, b], third := true }) k true

/-- The third copy has matched one: it is accepted, and the other copy's core is retired. -/
def outvote (s : State) (k : CheckRun) (c : CopyRun) (loser : Nat) : State :=
  let s := checkLog (retireCore s loser) k .compareMismatch loser c.core
  if c.traps.isEmpty then performRun s k c
  else
    let s := deliverTraps s k 3
    { s with teams := s.teams.map fun t => if k.isOf t && t.copyNo == 3 then { t with copyNo := 4 } else t }

/-- The third copy compared with both. -/
def checkThird (s : State) (k : CheckRun) (a b c : CopyRun) : State :=
  if runsMatch c a then outvote s k c b.core
  else if runsMatch c b then outvote s k c a.core
  else runAgain (dropCheck (discardCopies s k) k) k true

/-- A copy that would overflow the check area ends both: the team runs again unchecked. -/
def checkOverflow (s : State) (k : CheckRun) (used : Nat) : State :=
  checkLog (runAgain (dropCheck (discardCopies s k) k) k false) k .checkOverflow used k.teamid

def execCheckCompare (t : Nat) (s : State) : Host.Outcome State Fault Refusal :=
  match s.checks[t]? with
  | none => .next s
  | some k =>
    match k.accepted, (checkTeams s k).findSome? Team.overflow with
    | some r, _ => .next (if (k.item.bind (opOf s)).isNone then performRun s k r else s)
    | none, some n => .next (checkOverflow s k n)
    | none, none =>
      match endedRun s k 1, endedRun s k 2 with
      | some a, some b =>
        if !k.third then .next (if runsMatch a b then checkMatch s k a else checkMismatch s k a b)
        else match endedRun s k 3 with
        | some c => .next (checkThird s k a b c)
        | none => .next s
      | _, _ => .next s

end Sys2Proof.Machine
end

