-- ==== Sys2Proof/Machine/Fabric.lean ====
section
/-!
DEFINITION. Fabric commands (08 R163, R164, 13 R241 to R243), writes of other devices through the export window (R242),
reductions in the switch (R244, R245), and lost links.
-/
namespace Sys2Proof.Machine

/-! ## The rows of a command -/

/-- An address of a command on the given side lies on another device. -/
def remoteRow (s : State) (c : Copy) (spad : Bool) (va : DWord) : Bool :=
  !spad && ((ctxOf s c.ctx).map fun x => inFabric x va).getD false

/-- Row `k` as the command reads it. Another device's memory is its own: what it holds is free (log 21). -/
def c3ReadRow (s : State) (c : Copy) (k : Nat) : Except CopyStop (List Byte) × State :=
  let va := rowAddr c.src c.sstride k
  if remoteRow s c c.ssp va then
    (.ok ((List.range c.rowBytes).map (Config.openByte s.freeCtr)), { s with freeCtr := s.freeCtr + 1 })
  else copyRead s c va c.rowBytes

/-- Row `k` written. -/
def c3WriteRow (s : State) (c : Copy) (k : Nat) (bs : List Byte) : Option CopyStop × State :=
  let va := rowAddr c.dst c.dstride k
  if remoteRow s c c.dsp va then (none, { s with remote := memWriteBytes s.remote va.toNat bs })
  else copyWrite s c va bs.length 0 bs

/-- The rows read, in order, each kept with its number. -/
def c3ReadAll (s : State) (c : Copy) : Except CopyStop (List (Nat × List Byte)) × State :=
  (List.range c.rows).foldl (fun acc k => match acc.1 with
    | .error _ => acc
    | .ok l => let r := c3ReadRow acc.2 c k; (r.1.map fun bs => l ++ [(k, bs)], r.2)) (.ok [], s)

/-- Rows written in order. -/
def c3WriteAll (s : State) (c : Copy) (rows : List (Nat × List Byte)) : Option CopyStop × State :=
  rows.foldl (fun acc r => match acc.1 with
    | some _ => acc
    | none => c3WriteRow acc.2 c r.1 r.2) (none, s)

/-- The bytes of the command's chunks land (R169). -/
def c3Land (s : State) (c : Copy) : State :=
  match c.bar with
  | none => s
  | some off => c.chunks.foldl (fun s x => settleKeys c.grid (landBytes s c.team off x.len c.lt)) s

/-- A C3 command that may act. -/
def c3MayAct (s : State) (c : Copy) : Bool :=
  c.cls == .c3 && !c.stopped && !c.suspended && c.status.isNone && copyMayRun s c

/-- The status of a command is known. -/
def c3Status (s : State) (c : Copy) (st : Nat) : State := setCopy s { c with status := some st }

/-- A row of a command as one piece. -/
def rowChunk (c : Copy) (k : Nat) : Chunk :=
  { row := k, src := rowAddr c.src c.sstride k, dst := rowAddr c.dst c.dstride k, len := c.rowBytes }

/-- No two rows write into one 8-byte unit, and every row is written on this device: they may be written in parts (09 R181). -/
def rowsApart (s : State) (c : Copy) : Bool :=
  (List.range c.rows).all fun i =>
    !remoteRow s c c.dsp (rowAddr c.dst c.dstride i) && (List.range i).all fun j => !shareUnit (rowChunk c i) (rowChunk c j)

/-- The rows of a command as they are read: those read in parts, else all in one step. -/
def c3Rows (s : State) (c : Copy) : Except CopyStop (List (Nat × List Byte)) × State :=
  if c.parts.isEmpty then c3ReadAll s c else (.ok ((List.range c.rows).map fun k => (k, (partOf c k).read)), s)

/-- Of a command that reads in parts, every row is read. -/
def rowsRead (c : Copy) : Bool := c.parts.isEmpty || (List.range c.rows).all fun k => (partOf c k).read.length == c.rowBytes

/-- A command whose bytes are known: every page is translated before any byte is written, and a local fault stops it. Its status
is OK from then on. One that has read in parts writes in parts, where it may; any other in one step. -/
def c3Commit (s : State) (c : Copy) (rows : List (Nat × List Byte)) : State :=
  match c3WriteAll s c rows with
  | (some e, _) => stopCopy s c e
  | (none, t) =>
    if c.parts.isEmpty || !rowsApart s c then
      let c := { c with parts := [] }
      c3Status (c3Land t c) c 0
    else c3Status s { c with parts := rows.map fun r => { num := r.1, read := r.2, written := 0 } } 0

/-- A command to or from another device performed (R164). -/
def c3Perform (s : State) (c : Copy) : State :=
  if !rowsRead c then s
  else match c3Rows s c with
  | (.error e, s1) => stopCopy s1 c e
  | (.ok rows, s1) => c3Commit s1 c rows

/-- Row `k` read `rd` bytes further; another device's memory is read whole. -/
def c3ReadPart (s : State) (c : Copy) (k rd : Nat) : Option CopyStop × State × Copy :=
  if !remoteRow s c c.ssp (rowAddr c.src c.sstride k) then readPart s c k (rowChunk c k) rd
  else match c3ReadRow s c k with
  | (.error e, s) => (some e, s, c)
  | (.ok bs, s) => (none, s, setPart c { num := k, read := bs, written := 0 })

/-- A command whose rows are all written is performed, and its bytes land (R169). -/
def c3EndRows (s : State) (c : Copy) : State :=
  if c.parts.any fun p => decide (p.written < c.rowBytes) then setCopy s c
  else c3Land (setCopy s { c with parts := [] }) c

/-- A step of one row, in 8-byte units (09 R181): read while the command's status is open, written once it is OK. -/
def c3RowStep (s : State) (c : Copy) (m : ChunkMove) : State :=
  let done (r : Option CopyStop × State × Copy) (f : State → Copy → State) : State :=
    match r.1 with
    | some e => stopCopy r.2.1 r.2.2 e
    | none => f r.2.1 r.2.2
  if c.cls != .c3 || c.stopped || c.suspended || !copyMayRun s c || decide (c.rows ≤ m.num) then s
  else match c.status with
  | none => done (c3ReadPart s c m.num m.rd) setCopy
  | some 0 =>
    if c.parts.any (·.num == m.num) then done (writePart s c m.num (rowChunk c m.num) m.wr) c3EndRows else s
  | some _ => s

/-! ## Writes of other devices (R242) -/

/-- An export entry grants an access: V, and R for a read or W for a write (R242). -/
def exportGrants (e : DWord) (write : Bool) : Bool := pteV e && (if write then pteW e else pteR e)

/-- The physical address that the export table gives an offset: entries of 512 MiB, whose FRAME is aligned to their size, or
nodes of 64 KiB pages; only V, R, W and FRAME are checked. -/
def exportAddr (s : State) (write : Bool) (off : Nat) : Option Nat :=
  let e := pteAt s (Config.exportRoot + 8 * (off / 2 ^ 29 % 4096))
  if !pteV e then none
  else if pteLeaf e then
    (if exportGrants e write && pteFrame e % 2 ^ 29 == 0 then some (pteFrame e + off % 2 ^ 29) else none)
  else
    let x := pteAt s (pteFrame e + 8 * (off / 2 ^ 16 % 8192))
    if exportGrants x write then some (pteFrame x + off % 2 ^ 16) else none

/-- The pages of a run of the export window: physical address, place in the run, and length of each. -/
def exportPages (s : State) (write : Bool) (off n : Nat) : Option (List (Nat × Nat × Nat)) :=
  (List.range ((off + n - 1) / 0x1_0000 + 1 - off / 0x1_0000)).foldl (fun acc j => acc.bind fun l =>
    let lo := max off (0x1_0000 * (off / 0x1_0000 + j))
    let hi := min (off + n) (0x1_0000 * (off / 0x1_0000 + j) + 0x1_0000)
    (exportAddr s write lo).map fun pa => l ++ [(pa, lo - off, hi - lo)]) (some [])

/-- One row of another device's command written; a write that covers an uncorrectable granule in part is not performed there,
and is logged (10 R205). -/
def incomingRow (s : State) (off : Nat) (data : List Byte) : State :=
  match exportPages s true off data.length with
  | none => s
  | some ps => ps.foldl (fun s p => hostWrite s p.1 ((data.drop p.2.1).take p.2.2)) s

/-- Another device's command: every page of it is checked before any byte is written. -/
def incomingWrite (s : State) (rows : List (Nat × List Byte)) : State :=
  let rows := rows.filter fun r => !r.2.isEmpty
  if rows.all fun r => (exportPages s true r.1 r.2.length).isSome then
    rows.foldl (fun s r => incomingRow s r.1 r.2) s
  else s

/-- Rows that another device's command reads, if every page of them may be read. -/
def incomingBytes (s : State) (rows : List (Nat × Nat)) : Option (List Byte) :=
  rows.foldl (fun acc r => acc.bind fun l => (exportPages s false r.1 r.2).map fun ps =>
    ps.foldl (fun l p => l ++ outsideBytes s l.length p.1 p.2.2) l) (some [])

/-- A COPY.SRED that belongs to no reduction: its group is not defined (log 22). -/
def sredHomeless (s : State) (c : Copy) : Bool :=
  match c.kind with
  | .sred n _ _ => c.inst.isNone || s.sredGroups.all fun g => g.num != n
  | _ => false

def isSred (c : Copy) : Bool :=
  match c.kind with
  | .sred .. => true
  | _ => false

def execRemoteCopyWrite (w : RemoteWrite) (s : State) : Host.Outcome State Fault Refusal :=
  match w with
  | .incoming rows => .next (incomingWrite s rows)
  | .incomingRead rows => .next (match incomingBytes s (rows.filter fun r => r.2 != 0) with
    | some bs => { s with remoteReads := bs :: s.remoteReads, freeCtr := s.freeCtr + 1 }
    | none => s)
  | .row cid m => .next (match copyOf s cid with
    | some c => c3RowStep s c m
    | none => s)
  | .outgoing cid bad =>
    match copyOf s cid with
    | none => .next s
    | some c =>
      if !c3MayAct s c then .next s
      else if isSred c then .next (if sredHomeless s c then c3Status s c 2 else s)
      else .next (if bad then c3Status s c 2 else c3Perform s c)

/-! ## Reductions in the switch (R244, R245) -/

/-- This device's contribution to an instance. -/
def sredCopy (s : State) (grp inst : Nat) : Option Copy :=
  s.copies.find? fun c => c.inst == some inst && c3MayAct s c && (match c.kind with
    | .sred n _ _ => n == grp
    | _ => false)

/-- One step of the reduction: F32 and BF16 by RNE with -0 < +0, S32 wrapping. -/
def sredOp (op ty acc x : Nat) : Nat :=
  match ty, op with
  | 2, 0 => rmwValue .s32 0 acc x 0
  | 2, 1 => rmwValue .s32 2 acc x 0
  | 2, _ => rmwValue .s32 1 acc x 0
  | 1, k => rmwFlo fmtBF16 (8 + k) acc x
  | _, k => rmwFlo fmtF32 (8 + k) acc x

/-- The elements of a contribution. -/
def sredElems (ty : Nat) (bs : List Byte) : List Nat :=
  (List.range (bs.length / sredBytes ty)).map fun k => bytesToNat ((bs.drop (k * sredBytes ty)).take (sredBytes ty))

/-- Contributions in ascending rank order reduced element by element. -/
def sredReduce (op ty : Nat) (xs : List (List Byte)) : List Byte :=
  match xs.map (sredElems ty) with
  | [] => []
  | x :: rest => (rest.foldl (fun acc y => List.zipWith (sredOp op ty) acc y) x).flatMap (natToBytes (sredBytes ty))

/-- An array cut into the rows of a command. -/
def rowsOf (c : Copy) (bs : List Byte) : List (Nat × List Byte) :=
  (List.range c.rows).map fun k => (k, (bs.drop (k * c.rowBytes)).take c.rowBytes)

/-- The contributions of every rank, this device's among them; none while some have not arrived. -/
def contributions (g : SredGroup) (mine : List Byte) (others : List (Nat × List Byte)) : Option (List (List Byte)) :=
  (List.range g.devices.length).foldl (fun acc r => acc.bind fun l =>
    (if g.devices.getD r 0 = Config.deviceNumber then some mine else (others.find? (·.1 == r)).map Prod.snd).map
      fun b => l ++ [b]) (some [])

/-- The instance was aborted. -/
def sredAborted (s : State) (grp inst : Nat) : Bool :=
  s.sredInsts.any fun x => x.group == grp && x.inst == inst && x.aborted

/-- A complete instance: unequal sizes, operations or types give REMOTE_FAULT to every rank, else the result is written. -/
def sredComplete (s : State) (g : SredGroup) (c : Copy) (op ty : Nat) (agree : Bool) (others : List (Nat × List Byte)) : State :=
  if !rowsRead c then s
  else match c3Rows s c with
  | (.error e, s1) => stopCopy s1 c e
  | (.ok rows, s1) =>
    let mine := rows.flatMap Prod.snd
    match contributions g mine others with
    | none => s
    | some xs =>
      if !agree || !g.devices.contains Config.deviceNumber || xs.any (fun b => b.length != mine.length) then c3Status s1 c 2
      else c3Commit s1 c (rowsOf c (sredReduce op ty xs))

/-- The time limit of an instance has passed since its first arrival. -/
def sredLate (s : State) (g : SredGroup) (inst : Nat) : Bool :=
  s.sredInsts.any fun x => x.group == g.num && x.inst == inst && decide (x.first + g.limit * Config.clkPerUs < s.clock.toNat)

/-- Every contribution of an instance has arrived, within its limit. -/
def execSredInstanceReduce (grp inst : Nat) (agree : Bool) (others : List (Nat × List Byte)) (s : State) :
    Host.Outcome State Fault Refusal :=
  match sredCopy s grp inst, s.sredGroups.find? (·.num == grp) with
  | some c, some g =>
    if sredAborted s grp inst then .next (c3Status s c 1)
    else if sredLate s g inst then .next s
    else match c.kind with
    | .sred _ op ty => .next (sredComplete s g c op ty agree others)
    | _ => .next s
  | _, _ => .next s

/-- An instance and what is known of it. -/
def putInst (s : State) (x : SredInst) : State :=
  { s with sredInsts := x :: s.sredInsts.filter fun y => !(y.group == x.group && y.inst == x.inst) }

/-- The switch aborts an instance: this device's contribution, present or to come, receives LATE_ABORT. -/
def abortInst (s : State) (grp inst : Nat) : State :=
  let first := ((s.sredInsts.find? fun x => x.group == grp && x.inst == inst).map SredInst.first).getD s.clock.toNat
  let s := putInst s { group := grp, inst, first, aborted := true }
  match s.copies.find? fun c => c.inst == some inst && c.status.isNone && (match c.kind with
      | .sred n _ _ => n == grp
      | _ => false) with
  | some c => c3Status s c 1
  | none => s

/-- Contributions of `bytes` from every rank, beside `others`, exceed the switch's 256 MiB of buffering (R245). -/
def sredOverflows (g : SredGroup) (bytes others : Nat) : Bool := decide (2 ^ 28 < g.devices.length * bytes + others)

def execSredTimeoutAbort (grp : Nat) (e : SredEvent) (s : State) : Host.Outcome State Fault Refusal :=
  let inst := e.inst
  match s.sredGroups.find? (·.num == grp) with
  | none => .next s
  | some g =>
    if sredAborted s grp inst then .next s
    else match e.met with
    | .arrived =>
      .next (if s.sredInsts.any fun x => x.group == grp && x.inst == inst then s
        else putInst s { group := grp, inst, first := s.clock.toNat, aborted := false })
    | .late => .next (if sredLate s g inst then abortInst s grp inst else s)
    | .full bytes others => .next (if sredOverflows g bytes others then abortInst s grp inst else s)

/-- A lost link: LINK_FAILED to the commands named that have no status yet. -/
def execLinkLoss (copies : List Nat) (s : State) : Host.Outcome State Fault Refusal :=
  .next { s with copies := s.copies.map fun c =>
    if c.cls == .c3 && c.status.isNone && copies.contains c.cid then { c with status := some 3 } else c }

/-! ## Completion (08 R164) -/

/-- The completion record, 8 bytes, if the command names one; then the command counts off. One in a fabric window is written to
the other device (13 R241). -/
def c3Finish (s : State) (c : Copy) (st : Nat) : State :=
  match c.caddr with
  | none => copyGone s c
  | some a =>
    if remoteRow s c false a then copyGone { s with remote := memWriteBytes s.remote a.toNat (natToBytes 8 st) } c
    else match copyWrite s { c with dsp := false } a 8 0 (natToBytes 8 st) with
    | (some e, s) => stopCopy s c e
    | (none, s) => copyGone s c

def execC3CompletionRecord (c : Nat) (s : State) : Host.Outcome State Fault Refusal :=
  match copyOf s c with
  | none => .next s
  | some x =>
    match x.status with
    | some st => .next (if x.cls == .c3 && !x.stopped && (st != 0 || x.parts.isEmpty) then c3Finish s x st else s)
    | none => .next s

end Sys2Proof.Machine
end

