-- ==== Sys2Proof/Machine/Manage.lean ====
section
/-!
DEFINITION. The management ring and its commands (13 R238 to R240, R244, R247 to R249, 00 R8, 01 R32, 11 R218). A command
is carried out when it is the next record of the ring; carrying out one that is not changes nothing.
-/
namespace Sys2Proof.Machine

/-! ## The ring (R238) -/

/-- The record at HEAD. -/
def mgmtSlot (s : State) (base : Nat) : Nat := base + 64 + 64 * (s.mgmtHead % 256)

/-- The command of a record: a reserved OP or a reserved field makes it a reserved command. -/
def mgmtInstr (x : Nat) : Instr :=
  let a (k : Nat) : DWord := BitVec.ofNat 64 (fld x (64 * k + 64) 64)
  if fld x 24 40 ≠ 0 then .reservedManagementCommand
  else match fld x 0 16 with
  | 0x01 => .createContext (a 0) (a 1)
  | 0x02 => .terminateContext (a 0)
  | 0x03 => .registerQueue (a 0) (a 1) (a 2) (a 3) (a 4)
  | 0x04 => .releaseQueue (a 0)
  | 0x05 => .quiesceDie (a 0)
  | 0x06 => .faultRepaired (a 0)
  | 0x07 => .setBreakpoints (a 0) (a 1)
  | 0x08 => .contextRead (a 0) (a 1) (a 2)
  | 0x09 => .reductionGroup (a 0) (a 1) (a 2) (a 3)
  | 0x0A => .captureSet (a 0) (a 1) (a 2)
  | 0x0B => .captureRead (a 0) (a 1) (a 2)
  | 0x0C => .powerCap (a 0)
  | 0x0D => .attest (a 0) (a 1)
  | 0x0E => .faultUnrepairable (a 0)
  | 0x0F => .contextSettings (a 0) (a 1) (a 2)
  | 0x10 => .resumeGroup (a 0) (a 1)
  | 0x11 => .poolAdd (a 0) (a 1) (a 2)
  | _ => .reservedManagementCommand

/-- The next command of the ring: none while it is empty, or while a quiesce is being carried out. -/
def mgmtNext (s : State) : Option Instr :=
  s.mgmtBase.bind fun base =>
    if physRead s base 8 = s.mgmtHead ∨ s.dies.any (fun d => d.quiesce.isSome) = true then none
    else some (mgmtInstr (physRead s (mgmtSlot s base) 64))

/-- The end of a command: STATUS, then HEAD, then the signal. -/
def mgmtFinish (s : State) (status : Nat) : State :=
  match s.mgmtBase with
  | none => s
  | some base =>
    let s := physWrite s (mgmtSlot s base + 2) 1 status
    let head := (s.mgmtHead + 1) % 2 ^ 64
    signal { physWrite s (base + 8) 8 head with mgmtHead := head } s.mgmtVec

/-- What a command comes to: it is done, or rejected with nothing changed, or the device is busy with its subject. -/
inductive Done where
  | ok (s : State)
  | rejected
  | busy

/-- Command `i`, if it is the next. -/
def runMgmt (i : Instr) (s : State) (body : Done) : Host.Outcome State Fault Refusal :=
  if mgmtNext s = some i then
    match body with
    | .ok s' => .next (mgmtFinish s' 0)
    | .rejected => .next (mgmtFinish s 1)
    | .busy => .next (mgmtFinish s 2)
  else .next s

/-- What a command does to the context it names. -/
def onCtx (s : State) (n : DWord) (f : Context → Done) : Done :=
  match ctxOf s n.toNat with
  | some c => if c.terminating then .rejected else f c
  | none => .rejected

def execReservedManagementCommand (s : State) : Host.Outcome State Fault Refusal :=
  runMgmt .reservedManagementCommand s .rejected

/-! ## Contexts -/

/-- The block obeys the ranges of R239 and R12. -/
def blockOk (x : Nat) : Bool :=
  let aligned (lo : Nat) : Bool := fld x lo 16 == 0
  fld x 84 12 == 0 && fld x 224 32 == 0 && fld x 416 32 == 0 && x / 2 ^ 768 == 0 &&
  aligned 0 && decide (fld x 64 16 ≤ 1024) && decide (fld x 80 3 ≤ 4) && aligned 128 &&
  decide (fld x 192 32 ≤ 0x100_0000) && aligned 320 && decide (4 ≤ fld x 384 8) && decide (fld x 384 8 ≤ 16) &&
  decide (4 ≤ fld x 392 8) && decide (fld x 392 8 ≤ 20) && aligned 448 && aligned 512 && aligned 576 &&
  (fld x 512 64 != 0 || fld x 576 64 == 0) && aligned 640 && aligned 704

/-- The lease of a block: 0 selects 64. -/
def blockLease (x : Nat) : Nat := if fld x 64 16 = 0 then 64 else fld x 64 16

/-- The context that a block describes. -/
def blockContext (num x : Nat) : Context :=
  { num, ptroot := fld x 0 64, lease := blockLease x, leaseMax := blockLease x, splitArea := 4096 * fld x 80 3,
    fabric := x.testBit 83, highWater := fld x 96 32, brineBase := fld x 128 64, brineCap := fld x 192 32,
    brine := [], handler := BitVec.ofNat 64 (fld x 256 64), fring := fld x 320 64, fringK := fld x 384 8, tail := 0, drop := 0,
    poolK := fld x 392 8, fvec := fld x 400 16, pool := fld x 448 64, check := fld x 512 64, checkSz := fld x 576 64,
    save := fld x 640 64, saveSz := fld x 704 64, bps := List.replicate 8 0xFFFF_FFFF_FFFF_FFFF#64, preempted := false,
    quiesced := false, nextGrid := 1, terminating := false }

/-- A new context; its fault ring counts from zero (log 24). -/
def createContext (s : State) (num x : Nat) : State :=
  let c := blockContext num x
  let s := physWrite (physWrite s c.fring 8 0) (c.fring + 16) 8 0
  { s with contexts := s.contexts ++ [c] }

def execCreateContext (num block : DWord) (s : State) : Host.Outcome State Fault Refusal :=
  let x := physRead s block.toNat 256
  runMgmt (.createContext num block) s
    (if num.toNat < 0x1_0000 ∧ (ctxOf s num.toNat).isNone ∧ block.toNat % 64 = 0 ∧ blockOk x = true
     then .ok (createContext s num.toNat x) else .rejected)

/-- An access that has left its core and returns nothing to it. -/
def Op.nonReturning (o : Op) : Bool :=
  match o.kind with
  | .store | .rmw _ none | .dec _ | .fold | .copyF _ | .gate .. | .doneInc => true
  | _ => false

/-- The parked elements of a terminated context's access are discarded; one with nothing left is gone. -/
def dropParkedElems (o : Op) : Op :=
  { o with elems := o.elems.map fun e => if e.isParked then { e with st := .done } else e }

/-- The termination of a context (01 R32): its groups stop at once, its records and parked requests are discarded, its copy
and fabric commands stop, and its grids are to complete with CONTEXT_FAULTED. Accesses on their way are still performed.
Records that wait for room in its fault ring are dropped (log 9). -/
def terminate (s : State) (c : Context) : State :=
  let n := c.num
  let mine (tid : Nat) : Bool := s.teams.any fun t => t.tid == tid && t.ctx == n
  let held := s.contexts.flatMap (fun x => if x.num = n then x.brine.filterMap ThreadRec.handle else []) ++
    s.cores.flatMap (fun k => k.pans.flatMap fun p => (p.map fun x => (x.recs.filter (·.ctx == n)).filterMap ThreadRec.handle).getD [])
  let ops := (s.ops.filter fun o => o.ctx != n || o.nonReturning).map fun o => if o.ctx = n then dropParkedElems o else o
  let s := setCtx s { c with terminating := true, brine := [] }
  endBoost <| dropFences
    { s with
      groups := s.groups.filter (·.ctx != n)
      teams := s.teams.filter (·.ctx != n)
      handles := s.handles.filter fun h => !(mine h.parent || (h.child.map mine).getD false || held.contains h.hid)
      ops := ops.filter fun o => o.ctx != n || !o.performed
      copies := s.copies.filter (·.ctx != n)
      cores := s.cores.map fun k => { k with pans := k.pans.map fun p => p.filter fun x => x.recs.all fun r => r.ctx != n }
      deferredRecs := s.deferredRecs.filter (·.2.2.ctx != n)
      undelivered := s.undelivered.filter (·.ctx != n)
      checks := s.checks.filter fun k => s.grids.any fun g => g.uid == k.grid && g.ctx != n
      grids := s.grids.map fun g => if g.ctx = n ∧ g.phase = .active then { g with faulted := true, rerun := [], buffered := [] } else g }

def execTerminateContext (num : DWord) (s : State) : Host.Outcome State Fault Refusal :=
  runMgmt (.terminateContext num) s
    (onCtx s num fun c => .ok (settleAcks (dropContext (terminate s c) c.num)))

def execContextSettings (ctx highwater lease : DWord) (s : State) : Host.Outcome State Fault Refusal :=
  runMgmt (.contextSettings ctx highwater lease) s
    (onCtx s ctx fun c =>
      if 2 ^ 32 ≤ highwater.toNat ∨ 1024 < lease.toNat then .rejected
      else
        let c := if highwater = 0#64 then c else { c with highWater := highwater.toNat }
        let c := if lease = 0#64 then c else { c with lease := lease.toNat, leaseMax := max c.leaseMax lease.toNat }
        .ok (setCtx s c))

/-- The words of a list in memory. -/
def memWords (s : State) (a size n : Nat) : List Nat := (List.range n).map fun k => physRead s (a + size * k) size

def execSetBreakpoints (ctx list : DWord) (s : State) : Host.Outcome State Fault Refusal :=
  runMgmt (.setBreakpoints ctx list) s
    (onCtx s ctx fun c =>
      let l := (memWords s list.toNat 8 8).map (BitVec.ofNat 64)
      if l.all (fun x => x == 0xFFFF_FFFF_FFFF_FFFF#64 || bits x 0 4 == 0) then .ok (setCtx s { c with bps := l }) else .rejected)

/-- Command 0x08 writes a group's image, whose layout is opaque (11 R216; log 12). -/
def execContextRead (ctx g buf : DWord) (s : State) : Host.Outcome State Fault Refusal :=
  runMgmt (.contextRead ctx g buf) s
    (onCtx s ctx fun c =>
      match groupOf s g.toNat with
      | some x =>
        if x.ctx = c.num then
          let img := (List.range (groupArea x.vregs.length x.phys.length)).map (Config.contextImageByte s.freeCtr)
          .ok { physWriteBytes s buf.toNat img with freeCtr := s.freeCtr + 1 }
        else .rejected
      | none => .rejected)

/-- Frames appended to a pool, in order. -/
def poolAppend (s : State) (c : Context) (fs : List Nat) : State :=
  let n := physRead s c.pool 8
  physWrite (fs.zipIdx.foldl (fun s x => physWrite s (poolEntry c (n + x.2)) 8 x.1) s) c.pool 8 (n + fs.length)

def execPoolAdd (ctx list count : DWord) (s : State) : Host.Outcome State Fault Refusal :=
  runMgmt (.poolAdd ctx list count) s
    (onCtx s ctx fun c =>
      if 2 ^ c.poolK < physRead s c.pool 8 + count.toNat then .rejected
      else
        let fs := memWords s list.toNat 8 count.toNat
        if fs.all fun f => f % 0x1_0000 == 0 && f / 2 ^ 52 == 0 then .ok (poolAppend s c fs) else .rejected)

/-! ## Queues (12 R220) -/

/-- The k of a slot count 2^k, from 4 to 16. -/
def slotsK (n : Nat) : Option Nat := ((List.range 13).map (· + 4)).find? fun k => 2 ^ k == n

/-- A queue registered: HEAD is written as zero, ACK as the command word stands, and TAIL is taken as it is found; the driver is
signalled of one that stands past the slots (R221). -/
def registerQueue (s : State) (num base k ctx age : Nat) : State :=
  let w := physRead s (base + 16) 8
  let s := physWrite (physWrite s (base + 8) 8 0) (base + 24) 8 w
  let q : Queue :=
    { num, base, k, ctx, age, tail := physRead s base 8, head := 0, taken := 0, ack := BitVec.ofNat 64 w, stopped := false,
      preempted := false, cmd := none }
  let s := { s with queues := s.queues ++ [{ q with stopped := q.overfull }] }
  if q.overfull then signal s s.mgmtVec else s

def execRegisterQueue (q base slots ctx age : DWord) (s : State) : Host.Outcome State Fault Refusal :=
  runMgmt (.registerQueue q base slots ctx age) s
    (onCtx s ctx fun c =>
      match slotsK slots.toNat with
      | none => .rejected
      | some k =>
        if q.toNat < Config.queues ∧ (queueOf s q.toNat).isNone ∧ base.toNat % 0x1_0000 = 0 ∧ age.toNat < 0x1_0000
        then .ok (registerQueue s q.toNat base.toNat k c.num age.toNat) else .rejected)

/-- A queue with an incomplete grid is busy (log 25). -/
def execReleaseQueue (q : DWord) (s : State) : Host.Outcome State Fault Refusal :=
  runMgmt (.releaseQueue q) s
    (match queueOf s q.toNat with
     | none => .rejected
     | some x =>
       if s.grids.any fun g => g.queue == x.num then .busy
       else .ok { s with queues := s.queues.filter (·.num != x.num) })

/-! ## Faults (R240, 08 R173) -/

/-- The fault record that the device wrote at an address. -/
def recAt (s : State) (a : DWord) : Option DriverRec := (s.records.find? (·.1 == a.toNat)).map Prod.snd

def execFaultRepaired (rec : DWord) (s : State) : Host.Outcome State Fault Refusal :=
  runMgmt (.faultRepaired rec) s
    (match recAt s rec with
     | none => .rejected
     | some r =>
       match r.link with
       | .sluice gid _ page => .ok (wakeAll (replayParked s r.ctx gid page))
       | .copy cid => .ok { s with copies := s.copies.map fun c => if c.cid = cid then { c with stopped := false } else c }
       | .group _ | .log => .ok s)

def execFaultUnrepairable (rec : DWord) (s : State) : Host.Outcome State Fault Refusal :=
  runMgmt (.faultUnrepairable rec) s
    (match recAt s rec with
     | none => .rejected
     | some r =>
       match r.link with
       | .sluice gid _ page => .ok (wakeAll (dropParked s r.ctx gid page))
       | .copy _ | .group _ | .log => .ok s)

/-! ## Resuming a halted group -/

/-- The group goes on where it stands; its ring and re-binds come first (GROUP_RESUME). -/
def goOn (g : Group) : Group := { g with driver := none, resume := .due }

/-- It goes on at TRAPPC with the shadow restored as by IRET (11 R212). -/
def goOnShadow (g : Group) (sh : Shadow) : Group :=
  match splitOf g sh.sid with
  | none => goOn g
  | some p =>
    let p' : Split :=
      { p with
        em := sh.em &&& p.members, fmt := sh.fmt, swpidx := if g.trappc = sh.pc then sh.swpidx else 0, pc := g.trappc,
        chainLen := sh.chainLen, chainPC := sh.chainPC, bpMatch := sh.bpMatch, sweep := none }
    goOn (setSplit
      { g with shadow := none, faults := [], status := sh.status, sregs := g.sregs.take 56 ++ sh.s56, savedRing := some sh.ring } p')

/-- The group changes where its halted split goes on. -/
def goOnSplit (g : Group) (sid : Nat) (f : Split → Split) : Group :=
  match splitOf g sid with
  | some p => goOn (setSplit g (f p))
  | none => goOn g

/-- The group at the resume point named, if the record allows it. -/
def resumeAt (g : Group) (d : DriverHalt) (point : Nat) : Option Group :=
  match point, d.kind with
  | 0, .breakpoint true => some (goOn g)
  | 0, .breakpoint false => some (goOnSplit g d.sid fun p => { p with bpSkip := true })
  | 0, .debugger => none
  | 0, k =>
    match g.shadow with
    | some sh => if k = .escape ∨ d.body.inhandler = true then some (goOnShadow g sh) else some (goOn g)
    | none => some (goOn g)
  | 1, .escape => some (goOnSplit g d.sid fun p => { p with pc := p.pc + 16#64 })
  | 2, .noHandler => some (goOnSplit g d.sid fun p => { p with pc := d.body.pc + 16#64, swpidx := 0 })
  | _, _ => none

/-- The record halts the group now. -/
def haltsNow (g : Group) (rec : Nat) : Bool := (g.driver.bind DriverHalt.addr) == some rec

/-- The twin of a group in the other copy of its checked team: it halted at the same trap (12 R236). -/
def twinOf (s : State) (g : Group) : Option Group :=
  s.groups.find? fun x => x.gid != g.gid && twins g x && x.driver.isSome

/-- The twin goes on in the same way. -/
def resumeTwin (s : State) (g : Group) (point : Nat) : State :=
  match twinOf s g with
  | none => s
  | some x =>
    match x.driver.bind fun d => resumeAt x d point with
    | some x' => setGroup s x'
    | none => s

def execResumeGroup (rec point : DWord) (s : State) : Host.Outcome State Fault Refusal :=
  runMgmt (.resumeGroup rec point) s
    (match (recAt s rec).map DriverRec.link with
     | some (.group gid) =>
       match groupOf s gid with
       | none => .rejected
       | some g =>
         if !haltsNow g rec.toNat then .rejected
         else match g.driver.bind fun d => resumeAt g d point.toNat with
         | some g' => .ok (resumeTwin (setGroup s g') g point.toNat)
         | none => .rejected
     | _ => .rejected)

/-! ## Quiesce (00 R8) -/

/-- A context resident on the die: a team of it is, one that is evicted whole by the core that it left (log 47). -/
def onDie (s : State) (die : Nat) (c : Context) : Bool :=
  s.teams.any fun t => t.ctx == c.num && dieOf t.core == die && t.place != .saved

/-- Every context resident on the die is pre-empted; the self-check follows (SELF_CHECK_DONE), which ends the command. -/
def beginQuiesce (s : State) (die : Nat) (d : Die) : State :=
  let cs := (s.contexts.filter (onDie s die)).map Context.num
  let s := { s with
    contexts := s.contexts.map fun c => if cs.contains c.num then { c with quiesced := true } else c
    dies := s.dies.set die { d with quiesce := some s.clock.toNat } }
  preemptGrids s (gridIds s fun g => cs.contains g.ctx).contains

/-- A die that has not booted is not quiesced: STATUS 1 (log 78). -/
def execQuiesceDie (die : DWord) (s : State) : Host.Outcome State Fault Refusal :=
  if mgmtNext s = some (.quiesceDie die) then
    match s.dies[die.toNat]? with
    | some d => .next (if d.booted then beginQuiesce s die.toNat d else mgmtFinish s 1)
    | none => .next (mgmtFinish s 1)
  else .next s

/-! ## Reduction groups, capture units, power, attestation -/

def execReductionGroup (n list len limit : DWord) (s : State) : Host.Outcome State Fault Refusal :=
  runMgmt (.reductionGroup n list len limit) s
    (if n.toNat < 0x1_0000 ∧ 2 ≤ len.toNat ∧ len.toNat ≤ 4096 ∧ limit.toNat ≤ 10000 then
      let g : SredGroup :=
        { num := n.toNat, devices := memWords s list.toNat 2 len.toNat, limit := if limit = 0#64 then 200 else limit.toNat,
          nextInst := 0 }
      .ok { s with sredGroups := g :: s.sredGroups.filter (·.num != g.num),
                   sredInsts := s.sredInsts.filter (·.group != g.num) }
     else .rejected)

/-- A unit that has been cleared. -/
def Capture.cleared (src : Option Nat) : Capture := { source := src, min := 0, max := 0, buckets := List.replicate 32 0 }

def execCaptureSet (core unit src : DWord) (s : State) : Host.Outcome State Fault Refusal :=
  runMgmt (.captureSet core unit src) s
    (if core.toNat < Config.cores ∧ unit.toNat < 4 ∧ src.toNat ≤ 5 then
      let k := coreOf s core.toNat
      .ok (setCore s core.toNat { k with captures := k.captures.set unit.toNat (Capture.cleared (some src.toNat)) })
     else .rejected)

/-- The 136-byte block of a unit (R248). -/
def Capture.bytes (c : Capture) : List Byte := (c.min :: c.max :: c.buckets).flatMap (natToBytes 4)

def execCaptureRead (core unit buf : DWord) (s : State) : Host.Outcome State Fault Refusal :=
  runMgmt (.captureRead core unit buf) s
    (if core.toNat < Config.cores ∧ unit.toNat < 4 then
      .ok (physWriteBytes s buf.toNat (((coreOf s core.toNat).captures.getD unit.toNat (Capture.cleared none)).bytes))
     else .rejected)

def execPowerCap (watts : DWord) (s : State) : Host.Outcome State Fault Refusal :=
  runMgmt (.powerCap watts) s
    (if 1800 ≤ watts.toNat ∧ watts.toNat ≤ 3600 then .ok { s with powerCap := watts.toNat } else .rejected)

/-- The measurements of the images that are loaded, one for each booted die, in die order. -/
def imageMeasures (s : State) : List Byte :=
  s.dies.zipIdx.flatMap fun d => if d.1.booted then (List.range 48).map (Config.measurements s.boots d.2) else []

/-- The report (R247): the nonce, the measurements and rollback counters of the boot, the map of retired physical cores and
vacant indices as they stand, and the two signatures (log 13). -/
def attestReport (s : State) (nonce : Nat) : List Byte :=
  memReadBytes s.mem nonce 32 ++ imageMeasures s ++ Config.rollbackCounters s.boots ++
  Config.coreMap (s.dies.flatMap fun d => d.phys.map (· == .retired)) (s.cores.map fun k => !k.active) ++
  (List.range (64 + 3309)).map (Config.attestSignature s.freeCtr)

def execAttest (nonce report : DWord) (s : State) : Host.Outcome State Fault Refusal :=
  runMgmt (.attest nonce report) s
    (.ok { physWriteBytes s report.toNat (attestReport s nonce.toNat) with freeCtr := s.freeCtr + 1 })

end Sys2Proof.Machine
end

