-- ==== Sys2Proof/Machine/Package.lean ====
section
/-!
DEFINITION. The package (00 R5 to R9, 13 R237, R246, R248 to R250): reset and boot, the self-check of a quiesce, power,
temperature, accesses of the host die, the expiry of TLB leases, capture samples, governors and memory errors.
-/
namespace Sys2Proof.Machine

/-! ## Reset (R5, R246) -/

/-- Marks of physical cores from the next logical number: passing cores take numbers in order while there are any, then are
spares; failing ones are retired. -/
def numberCores (next : Nat) : List Bool → List CoreMark
  | [] => []
  | true :: t => if next < Config.coresPerDie then .logical next :: numberCores (next + 1) t else .spare :: numberCores next t
  | false :: t => .retired :: numberCores next t

/-- A die's image loads only if both signatures verify and its version is not below the rollback counter. -/
def imageAccepted (b : DieBoot) : Bool := b.ed25519 && b.mlDsa65 && b.versionOk

/-- A die after reset. Physical cores that the report does not name have not passed. -/
def bootDie (b : DieBoot) : Die :=
  if imageAccepted b then
    { booted := true, rejected := false, quiesce := none,
      phys := numberCores 0 ((b.pass ++ List.replicate Config.physCoresPerDie false).take Config.physCoresPerDie) }
  else { Die.dark with rejected := true }

/-- A logical number of a die is held by a physical core. -/
def Die.holds (d : Die) (k : Nat) : Bool := d.phys.contains (.logical k)

/-- Index `c` is active: a core of its die holds its logical number (R6). -/
def indexActive (dies : List Die) (c : Nat) : Bool := ((dies[dieOf c]?).map fun d => d.holds (logicalOf c)).getD false

/-- Rows of HBM with an uncorrectable granule spared (10 R205). What a spared granule then holds is free (log 75). -/
def spareRows (s : State) (sel : Nat → Bool) : State :=
  let gs := s.badGranules.filter sel
  if gs.isEmpty then s
  else
    let t := gs.zipIdx.foldl (fun t x =>
      physWriteBytes t (32 * x.1) ((List.range 32).map fun k => Config.openByte s.freeCtr (32 * x.2 + k))) s
    { t with badGranules := s.badGranules.filter fun g => !sel g, freeCtr := s.freeCtr + 1 }

/-- The granule lies in the HBM of a die (00 R4; log 17). -/
def granuleOn (die g : Nat) : Bool := Config.homeDie (32 * g) % Config.dies == die

/-- The machine after a reset with a boot report. Memory that was powered keeps its contents, the rows to be spared apart, since a
reset counts as a quiesce (R8); the management ring starts empty at its base (log 5). -/
def booted (s : State) (b : BootReport) : State :=
  let dies := (List.range Config.dies).map fun d =>
    bootDie (b.dies.getD d { ed25519 := false, mlDsa65 := false, versionOk := false, pass := [] })
  let r := State.reset
  let s := spareRows s fun _ => true
  let t : State :=
    { r with
      mem := s.mem, badGranules := s.badGranules, remote := s.remote, hostReads := s.hostReads, dies,
      cores := (List.range Config.cores).map fun c => { Core.idle with active := indexActive dies c }
      mgmtBase := some b.mgmtBase, mgmtVec := b.mgmtVec, irqs := s.irqs, turns := s.turns, freeCtr := s.freeCtr,
      nextId := s.nextId, boots := s.boots + 1 }
  physWrite t (b.mgmtBase + 8) 8 0

def execReset (b : BootReport) (s : State) : Host.Outcome State Fault Refusal := .next (booted s b)

/-! ## Quiesce and self-check (R8, R9) -/

/-- Every context that the quiesce of a die pre-empted is saved: its groups, and its teams whose groups have all retired (01
R29). -/
def quiesced (s : State) : Bool :=
  let held (n : Nat) : Bool := ((ctxOf s n).map Context.quiesced).getD false
  (s.groups.all fun g => g.place == .saved || !held g.ctx) && s.teams.all fun t => t.place == .saved || !held t.ctx

/-- Physical cores after a self-check: one that fails is retired. -/
def checkPhys (phys : List CoreMark) (pass : List Bool) : List CoreMark :=
  phys.zipIdx.map fun x => if pass.getD x.2 false then x.1 else .retired

/-- Logical number `k`, held by no core, goes to the lowest-numbered spare (R9). -/
def giveSpare (phys : List CoreMark) (k : Nat) : List CoreMark :=
  if phys.contains (.logical k) then phys
  else match phys.findIdx? (· == .spare) with
  | some i => phys.set i (.logical k)
  | none => phys

/-- The logical numbers whose core fails the self-check. A spare that fails is retired with no record: it has no package index
(log 68). -/
def failed (d : Die) (pass : List Bool) : List Nat :=
  (List.range Config.coresPerDie).filter fun k => d.holds k && !((checkPhys d.phys pass).contains (.logical k))

/-- The record of a core that fails the self-check; it goes to the context of lowest number (log 5). -/
def selfCheckLog (s : State) (core : Nat) : State :=
  match (sortLe (fun a b : Context => decide (a.num ≤ b.num)) s.contexts).head? with
  | none => s
  | some c =>
    let body := blankRec s 0 .compareMismatch 4 (BitVec.ofNat 64 core) 0xFFFF_FFFF_FFFF_FFFF#64
    report s { ctx := c.num, link := .log, body }

/-- Retirements and spare enables of a die take effect, with the sparing of rows in its HBM (10 R205), and its contexts resume. Where
the passing spares are fewer than the retired numbers, the lower numbers are served (log 79). -/
def endQuiesce (s : State) (die : Nat) (d : Die) (pass : List Bool) : State :=
  let s := (failed d pass).foldl (fun s k => selfCheckLog s (Config.coresPerDie * die + k)) s
  let s := spareRows s (granuleOn die)
  let phys := (List.range Config.coresPerDie).foldl giveSpare (checkPhys d.phys pass)
  let dies := s.dies.set die { d with phys, quiesce := none }
  { s with
    dies := dies
    cores := s.cores.zipIdx.map fun x => if dieOf x.2 = die then { x.1 with active := indexActive dies x.2 } else x.1
    contexts := s.contexts.map fun c => { c with quiesced := false } }

def execSelfCheckDone (die : Nat) (pass : List Bool) (s : State) : Host.Outcome State Fault Refusal :=
  match s.dies[die]? with
  | none => .next s
  | some d => .next (if d.quiesce.isSome && quiesced s then mgmtFinish (endQuiesce s die d pass) 0 else s)

/-! ## Power and temperature (R249, R250) -/

/-- A frequency that a governor may set: 2.25 to 2.6 GHz in steps of 25 MHz. -/
def governed (mhz : Nat) : Bool := decide (2250 ≤ mhz) && decide (mhz ≤ 2600) && mhz % 25 == 0

/-- A condition lowers a core's frequency to a value the manual does not give (log 19); its end restores one that the
governor sets. The driver is signalled of each condition. -/
def execThermalEvent (core : Nat) (e : Thermal) (s : State) : Host.Outcome State Fault Refusal :=
  if s.cores.length ≤ core then .next s
  else
    let k := coreOf s core
    match e with
    | .recovered mhz => .next (if governed mhz then setCore s core { k with mhz } else s)
    | _ =>
      let s := setCore s core { k with mhz := min (Config.throttledMhz s.freeCtr) 2249 }
      .next (signal { s with freeCtr := s.freeCtr + 1, thermal := s.thermal ++ [(core, e)] } s.mgmtVec)

/-- A governor's setting, of a core that no condition holds below 2.25 GHz. -/
def setGovernor (s : State) (core mhz : Nat) : State :=
  if core < s.cores.length ∧ governed mhz = true ∧ 2250 ≤ (coreOf s core).mhz
  then setCore s core { coreOf s core with mhz } else s

/-- The host die removes the compute dies' power while no context is resident; what they held is lost. -/
def execComputeDiePowerOff (s : State) : Host.Outcome State Fault Refusal :=
  if s.teams.all fun t => t.place == .saved then
    .next { State.reset with
      powered := false, remote := s.remote, hostReads := s.hostReads, irqs := s.irqs, turns := s.turns, freeCtr := s.freeCtr,
      nextId := s.nextId, boots := s.boots }
  else .next s

/-! ## The host die (R237) -/

/-- Bytes that the host die reads. -/
def hostRead (s : State) (pa n : Nat) : State :=
  { s with hostReads := (pa, outsideBytes s 0 pa n) :: s.hostReads, freeCtr := s.freeCtr + 1 }

def execHostDieAccess (a : HostAccess) (s : State) : Host.Outcome State Fault Refusal :=
  match a with
  | .read pa n => .next (hostRead s pa n)
  | .write pa bs _ => .next (hostWrite s pa bs)

/-! ## Leases (10 R197) -/

def execTlbLeaseExpiry (core k : Nat) (s : State) : Host.Outcome State Fault Refusal :=
  match (coreOf s core).tlb[k]? with
  | some t =>
    .next (if t.expiry ≤ s.clock.toNat then setCore s core { coreOf s core with tlb := (coreOf s core).tlb.eraseIdx k } else s)
  | none => .next s

/-! ## Capture samples, memory errors, replaced lines -/

/-- The bucket of a sample: floor(log2 v), and 0 for v = 0. -/
def sampleBucket (v : Nat) : Nat := if v = 0 then 0 else Nat.log2 v

/-- A unit with one more sample; the first one sets both extremes. -/
def captureSample (c : Capture) (v : Nat) : Capture :=
  let first := c.buckets.all (· == 0)
  { c with
    min := if first then v else min c.min v
    max := if first then v else max c.max v
    buckets := c.buckets.modify (sampleBucket v) fun n => min (n + 1) (2 ^ 32 - 1) }

/-- The core's clock in MHz: a pre-emption raises one below 2.25 GHz (R249). -/
def Core.clockMhz (k : Core) : Nat := if k.boosts.isEmpty then k.mhz else max k.mhz 2250

/-- The value of a sample: pan occupancy, the records in the core's pans (log 69), and the core's clock as they stand; what the
model does not hold, as it is measured. -/
def sampleValue (k : Core) (src v : Nat) : Nat :=
  if src = 3 then rakeCount k else if src = 4 then Core.clockMhz k else v

/-- A sample taken by a running unit of a core. -/
def takeSample (s : State) (core unit v : Nat) : State :=
  let k := coreOf s core
  match k.captures[unit]? with
  | some c =>
    match c.source with
    | some src =>
      if v < 2 ^ 32 then setCore s core { k with captures := k.captures.set unit (captureSample c (sampleValue k src v)) } else s
    | none => s
  | none => s

/-- An uncorrectable error appears in the granule at a physical address (10 R205). -/
def eccError (s : State) (pa : Nat) : State :=
  if s.badGranules.contains (pa / 32) then s else { s with badGranules := pa / 32 :: s.badGranules }

/-- Line `k` of a core's L1 is replaced. -/
def evictL1 (s : State) (core k : Nat) : State := setCore s core { coreOf s core with l1 := (coreOf s core).l1.eraseIdx k }

end Sys2Proof.Machine
end

