-- ==== Sys2Proof/Machine/Dispatch.lean ====
section
/-!
DEFINITION. The meaning of every instruction and of every step of the device: one arm per constructor, each one call.
-/
namespace Sys2Proof.Machine

def exec (i : Instr) (s : State) : Host.Outcome State Fault Refusal :=
  match i with
  | .and t f => Sys2Proof.Machine.execAnd t f s
  | .andn t f => Sys2Proof.Machine.execAndn t f s
  | .bfe t f => Sys2Proof.Machine.execBfe t f s
  | .bfi t f => Sys2Proof.Machine.execBfi t f s
  | .brev t f => Sys2Proof.Machine.execBrev t f s
  | .clz t f => Sys2Proof.Machine.execClz t f s
  | .iabs t f => Sys2Proof.Machine.execIabs t f s
  | .iadd t f => Sys2Proof.Machine.execIadd t f s
  | .iaddImm64 signed f => Sys2Proof.Machine.execIaddImm64 signed f s
  | .icmp t f => Sys2Proof.Machine.execIcmp t f s
  | .imad t f => Sys2Proof.Machine.execImad t f s
  | .imax t f => Sys2Proof.Machine.execImax t f s
  | .imin t f => Sys2Proof.Machine.execImin t f s
  | .imul t f => Sys2Proof.Machine.execImul t f s
  | .imulh t f => Sys2Proof.Machine.execImulh t f s
  | .isub t f => Sys2Proof.Machine.execIsub t f s
  | .lea t f => Sys2Proof.Machine.execLea t f s
  | .or t f => Sys2Proof.Machine.execOr t f s
  | .popc t f => Sys2Proof.Machine.execPopc t f s
  | .prmt t f => Sys2Proof.Machine.execPrmt t f s
  | .sar t f => Sys2Proof.Machine.execSar t f s
  | .sel t f => Sys2Proof.Machine.execSel t f s
  | .shf t f => Sys2Proof.Machine.execShf t f s
  | .shl t f => Sys2Proof.Machine.execShl t f s
  | .shr t f => Sys2Proof.Machine.execShr t f s
  | .xor t f => Sys2Proof.Machine.execXor t f s
  | .fadd t f => Sys2Proof.Machine.execFadd t f s
  | .fclass t f => Sys2Proof.Machine.execFclass t f s
  | .fcmp t f => Sys2Proof.Machine.execFcmp t f s
  | .fcospi t f => Sys2Proof.Machine.execFcospi t f s
  | .fexp2 t f => Sys2Proof.Machine.execFexp2 t f s
  | .fgetexp t f => Sys2Proof.Machine.execFgetexp t f s
  | .flog2 t f => Sys2Proof.Machine.execFlog2 t f s
  | .fma t f => Sys2Proof.Machine.execFma t f s
  | .fmax t f => Sys2Proof.Machine.execFmax t f s
  | .fmin t f => Sys2Proof.Machine.execFmin t f s
  | .fmul t f => Sys2Proof.Machine.execFmul t f s
  | .frcp t f => Sys2Proof.Machine.execFrcp t f s
  | .frnd t f => Sys2Proof.Machine.execFrnd t f s
  | .frsq t f => Sys2Proof.Machine.execFrsq t f s
  | .fscale t f => Sys2Proof.Machine.execFscale t f s
  | .fsinpi t f => Sys2Proof.Machine.execFsinpi t f s
  | .fsqrt t f => Sys2Proof.Machine.execFsqrt t f s
  | .faddSweep t f => Sys2Proof.Machine.execFaddSweep t f s
  | .fmaSweep t f => Sys2Proof.Machine.execFmaSweep t f s
  | .fmulSweep t f => Sys2Proof.Machine.execFmulSweep t f s
  | .cvt c f => Sys2Proof.Machine.execCvt c f s
  | .cvtSweep c f => Sys2Proof.Machine.execCvtSweep c f s
  | .famax t f => Sys2Proof.Machine.execFamax t f s
  | .fquant t f => Sys2Proof.Machine.execFquant t f s
  | .fquantSweep t f => Sys2Proof.Machine.execFquantSweep t f s
  | .census e f => Sys2Proof.Machine.execCensus e f s
  | .rng f => Sys2Proof.Machine.execRng f s
  | .mapres f => Sys2Proof.Machine.execMapres f s
  | .mapbind f => Sys2Proof.Machine.execMapbind f s
  | .mapwr f => Sys2Proof.Machine.execMapwr f s
  | .maprd f => Sys2Proof.Machine.execMaprd f s
  | .maprel f => Sys2Proof.Machine.execMaprel f s
  | .ldl f => Sys2Proof.Machine.execLdl f s
  | .ldlSweep f => Sys2Proof.Machine.execLdlSweep f s
  | .macc m f => Sys2Proof.Machine.execMacc m f s
  | .maccSweep m f => Sys2Proof.Machine.execMaccSweep m f s
  | .sweepIteration g sp => Sys2Proof.Machine.execSweepIteration g sp s
  | .lred u f => Sys2Proof.Machine.execLred u f s
  | .lscan u f => Sys2Proof.Machine.execLscan u f s
  | .matchLanes u f => Sys2Proof.Machine.execMatchLanes u f s
  | .part u f => Sys2Proof.Machine.execPart u f s
  | .shfl u f => Sys2Proof.Machine.execShfl u f s
  | .vote u f => Sys2Proof.Machine.execVote u f s
  | .ld w f => Sys2Proof.Machine.execLd w f s
  | .lds w f => Sys2Proof.Machine.execLds w f s
  | .st w f => Sys2Proof.Machine.execSt w f s
  | .sts w f => Sys2Proof.Machine.execSts w f s
  | .atom u f => Sys2Proof.Machine.execAtom u f s
  | .red u f => Sys2Proof.Machine.execRed u f s
  | .pref f => Sys2Proof.Machine.execPref f s
  | .cctl f => Sys2Proof.Machine.execCctl f s
  | .fence f => Sys2Proof.Machine.execFence f s
  | .copy f => Sys2Proof.Machine.execCopy f s
  | .binit f => Sys2Proof.Machine.execBinit f s
  | .barr f => Sys2Proof.Machine.execBarr f s
  | .bexp f => Sys2Proof.Machine.execBexp f s
  | .btest f => Sys2Proof.Machine.execBtest f s
  | .bwait f => Sys2Proof.Machine.execBwait f s
  | .waitc f => Sys2Proof.Machine.execWaitc f s
  | .spawn f => Sys2Proof.Machine.execSpawn f s
  | .jdec f => Sys2Proof.Machine.execJdec f s
  | .jwait f => Sys2Proof.Machine.execJwait f s
  | .freg f => Sys2Proof.Machine.execFreg f s
  | .fres f => Sys2Proof.Machine.execFres f s
  | .bra f => Sys2Proof.Machine.execBra f s
  | .braD f => Sys2Proof.Machine.execBraD f s
  | .brk f => Sys2Proof.Machine.execBrk f s
  | .brx f => Sys2Proof.Machine.execBrx f s
  | .call f => Sys2Proof.Machine.execCall f s
  | .ret f => Sys2Proof.Machine.execRet f s
  | .exit f => Sys2Proof.Machine.execExit f s
  | .exitJ f => Sys2Proof.Machine.execExitJ f s
  | .gsync f => Sys2Proof.Machine.execGsync f s
  | .join f => Sys2Proof.Machine.execJoin f s
  | .nop f => Sys2Proof.Machine.execNop f s
  | .yield f => Sys2Proof.Machine.execYield f s
  | .bkpt f => Sys2Proof.Machine.execBkpt f s
  | .dflush f => Sys2Proof.Machine.execDflush f s
  | .fltrd f => Sys2Proof.Machine.execFltrd f s
  | .fmtset f => Sys2Proof.Machine.execFmtset f s
  | .iret f => Sys2Proof.Machine.execIret f s
  | .movB32 f => Sys2Proof.Machine.execMovB32 f s
  | .movB64 f => Sys2Proof.Machine.execMovB64 f s
  | .movB64Imm64 f => Sys2Proof.Machine.execMovB64Imm64 f s
  | .movsr f => Sys2Proof.Machine.execMovsr f s
  | .setsr f => Sys2Proof.Machine.execSetsr f s
  | .pgmap f => Sys2Proof.Machine.execPgmap f s
  | .trap f => Sys2Proof.Machine.execTrap f s
  | .trapEsc f => Sys2Proof.Machine.execTrapEsc f s
  | .faultRecordDeferredDelivery g => Sys2Proof.Machine.execFaultRecordDeferredDelivery g s
  | .hwBreakpoint g sp => Sys2Proof.Machine.execHwBreakpoint g sp s
  | .loadReturn op lanes fromL1 => Sys2Proof.Machine.execLoadReturn op lanes fromL1 s
  | .ldlReturn op => Sys2Proof.Machine.execLdlReturn op s
  | .atomReturn op => Sys2Proof.Machine.execAtomReturn op s
  | .storePerform op lanes => Sys2Proof.Machine.execStorePerform op lanes s
  | .atomicAtHome op k => Sys2Proof.Machine.execAtomicAtHome op k s
  | .joinCounterDecrement op k => Sys2Proof.Machine.execJoinCounterDecrement op k s
  | .jwaitWake g sp => Sys2Proof.Machine.execJwaitWake g sp s
  | .censusFold op k => Sys2Proof.Machine.execCensusFold op k s
  | .futureRegistration op k => Sys2Proof.Machine.execFutureRegistration op k s
  | .futureResolution op => Sys2Proof.Machine.execFutureResolution op s
  | .gateDecrement op => Sys2Proof.Machine.execGateDecrement op s
  | .sluiceDeferredPark op k => Sys2Proof.Machine.execSluiceDeferredPark op k s
  | .mapBindComplete op => Sys2Proof.Machine.execMapBindComplete op s
  | .panTimerExpiry core pan => Sys2Proof.Machine.execPanTimerExpiry core pan s
  | .panLaunch core pan => Sys2Proof.Machine.execPanLaunch core pan s
  | .brineIntake core ctx => Sys2Proof.Machine.execBrineIntake core ctx s
  | .deferredRecordFile k => Sys2Proof.Machine.execDeferredRecordFile k s
  | .groupRestore g => Sys2Proof.Machine.execGroupRestore g s
  | .groupRetire g => Sys2Proof.Machine.execGroupRetire g s
  | .teamRetire t => Sys2Proof.Machine.execTeamRetire t s
  | .gridCompletion gr => Sys2Proof.Machine.execGridCompletion gr s
  | .launchPacketTake q => Sys2Proof.Machine.execLaunchPacketTake q s
  | .queueTailUpdate q => Sys2Proof.Machine.execQueueTailUpdate q s
  | .teamDispatch => Sys2Proof.Machine.execTeamDispatch s
  | .concurrentPlacement gr => Sys2Proof.Machine.execConcurrentPlacement gr s
  | .reproWavePlacement gr => Sys2Proof.Machine.execReproWavePlacement gr s
  | .queueAgeing q => Sys2Proof.Machine.execQueueAgeing q s
  | .preemptQueue q => Sys2Proof.Machine.execPreemptQueue q s
  | .resumeQueue q => Sys2Proof.Machine.execResumeQueue q s
  | .preemptContext q => Sys2Proof.Machine.execPreemptContext q s
  | .resumeContext q => Sys2Proof.Machine.execResumeContext q s
  | .splitHalt g sp => Sys2Proof.Machine.execSplitHalt g sp s
  | .contextSave g => Sys2Proof.Machine.execContextSave g s
  | .groupResume g => Sys2Proof.Machine.execGroupResume g s
  | .reproSyncProceed g sp => Sys2Proof.Machine.execReproSyncProceed g sp s
  | .mapresDeferredGrant g sp => Sys2Proof.Machine.execMapresDeferredGrant g sp s
  | .copyChunk c m => Sys2Proof.Machine.execCopyChunk c m s
  | .copyCompletion c => Sys2Proof.Machine.execCopyCompletion c s
  | .c3CompletionRecord c => Sys2Proof.Machine.execC3CompletionRecord c s
  | .remoteCopyWrite w => Sys2Proof.Machine.execRemoteCopyWrite w s
  | .sredInstanceReduce grp inst agree others => Sys2Proof.Machine.execSredInstanceReduce grp inst agree others s
  | .sredTimeoutAbort grp e => Sys2Proof.Machine.execSredTimeoutAbort grp e s
  | .linkLoss copies => Sys2Proof.Machine.execLinkLoss copies s
  | .checkCompare t => Sys2Proof.Machine.execCheckCompare t s
  | .tlbLeaseExpiry core k => Sys2Proof.Machine.execTlbLeaseExpiry core k s
  | .reset b => Sys2Proof.Machine.execReset b s
  | .selfCheckDone die pass => Sys2Proof.Machine.execSelfCheckDone die pass s
  | .thermalEvent core e => Sys2Proof.Machine.execThermalEvent core e s
  | .createContext num block => Sys2Proof.Machine.execCreateContext num block s
  | .terminateContext num => Sys2Proof.Machine.execTerminateContext num s
  | .registerQueue q base slots ctx age => Sys2Proof.Machine.execRegisterQueue q base slots ctx age s
  | .releaseQueue q => Sys2Proof.Machine.execReleaseQueue q s
  | .quiesceDie die => Sys2Proof.Machine.execQuiesceDie die s
  | .faultRepaired rec => Sys2Proof.Machine.execFaultRepaired rec s
  | .setBreakpoints ctx list => Sys2Proof.Machine.execSetBreakpoints ctx list s
  | .contextRead ctx g buf => Sys2Proof.Machine.execContextRead ctx g buf s
  | .reductionGroup n list len limit => Sys2Proof.Machine.execReductionGroup n list len limit s
  | .captureSet core unit src => Sys2Proof.Machine.execCaptureSet core unit src s
  | .captureRead core unit buf => Sys2Proof.Machine.execCaptureRead core unit buf s
  | .powerCap watts => Sys2Proof.Machine.execPowerCap watts s
  | .attest nonce report => Sys2Proof.Machine.execAttest nonce report s
  | .faultUnrepairable rec => Sys2Proof.Machine.execFaultUnrepairable rec s
  | .contextSettings ctx highwater lease => Sys2Proof.Machine.execContextSettings ctx highwater lease s
  | .resumeGroup rec point => Sys2Proof.Machine.execResumeGroup rec point s
  | .poolAdd ctx list count => Sys2Proof.Machine.execPoolAdd ctx list count s
  | .reservedEncoding w => Sys2Proof.Machine.execReservedEncoding w s
  | .instructionFetchFault g sp => Sys2Proof.Machine.execInstructionFetchFault g sp s
  | .reservedQueueCommand q => Sys2Proof.Machine.execReservedQueueCommand q s
  | .reservedManagementCommand => Sys2Proof.Machine.execReservedManagementCommand s
  | .debuggerHalt g => Sys2Proof.Machine.execDebuggerHalt g s
  | .computeDiePowerOff => Sys2Proof.Machine.execComputeDiePowerOff s
  | .hostDieAccess a => Sys2Proof.Machine.execHostDieAccess a s

end Sys2Proof.Machine
end

