-- ==== Sys2Proof/Machine/Turns.lean ====
section
/-!
DEFINITION. One move of the machine: the issue of a split (fetch, decode, execute), a step of the device, the next
management command, or time; and which moves are enabled. No rule of the manual orders moves of different agents: they come
as `State.turns` names them, else as free choices among the enabled ones (log 3).
-/
namespace Sys2Proof.Machine

/-- An instruction executed for a split. -/
def execFor (i : Instr) (gid sid : Nat) (s : State) : Host.Outcome State Fault Refusal :=
  match exec i { s with cur := some (gid, sid) } with
  | .next t => .next { t with cur := none }
  | r => r

/-- A fetched word executed: one that decodes to no instruction is a reserved encoding (14 R262). -/
def execWord (w : IWord) (gid sid : Nat) (s : State) : Host.Outcome State Fault Refusal :=
  match decode w with
  | .ok i => execFor i gid sid s
  | .error _ => execFor (.reservedEncoding w) gid sid s

/-- What precedes the fetch of a split that is to issue: its round (12 R232), its entry in the hardware table (03 R56),
opportunistic merges (R64), a breakpoint inside a chain (11 R218). -/
def beforeFetch (s : State) (gid sid : Nat) : State :=
  markBp (mergeBefore (updGroup s gid fun g => { makeResident g sid with round := roundOf g }) gid sid) gid sid

/-- The fetch and execution of a split's next instruction. -/
def fetchAndRun (s : State) (gid sid : Nat) (src : FetchFrom) : Host.Outcome State Fault Refusal :=
  match groupOf s gid with
  | none => .next s
  | some g =>
    match splitOf g sid, ctxOf s g.ctx with
    | some p, some c =>
      match fetchAt s g.core g.quarter c p.pc src p.refetch g.inHandler with
      | (.word w, s) => execWord w gid sid (updSplit s gid sid fun p => { p with refetch := false })
      | (r, s) => .next (fetchTrap s gid sid r)
    | _, _ => .next s

/-- A split issues, if it may. -/
def issueTurn (s : State) (gid sid : Nat) (src : FetchFrom) (rule : IssueRule) : Host.Outcome State Fault Refusal :=
  match groupOf s gid with
  | none => .next s
  | some g =>
    match splitOf g sid with
    | none => .next s
    | some p => if issuable s g p rule then fetchAndRun (beforeFetch s gid sid) gid sid src else .next s

/-- The steps of the device: every constructor that no word encodes, but the reserved encoding, which a split issues. -/
def ownStep (e : Instr) : Bool :=
  e.isEvent && (match e with
    | .reservedEncoding _ => false
    | _ => true)

/-- Time passes. -/
def passTime (s : State) (n : Nat) : State := { waitOn s n with clock := s.clock + BitVec.ofNat 64 n }

/-- One move. -/
def runTurn (t : Turn) (s : State) : Host.Outcome State Fault Refusal :=
  match t with
  | .issue gid sid src rule => issueTurn s gid sid src rule
  | .event e => if ownStep e then exec e s else .next s
  | .management =>
    match mgmtNext s with
    | some i => exec i s
    | none => .next s
  | .clk n => .next (passTime s n)
  | .ecc pa => .next (eccError s pa)
  | .sample core unit v => .next (takeSample s core unit v)
  | .governor core mhz => .next (setGovernor s core mhz)
  | .evictLine core k => .next (evictL1 s core k)
  | .showStore op lanes => .next (showStore s op lanes)

/-! ## Enabled moves -/

/-- The choices that a quarter may make for a split (12 R229): every other split of its quarter has its operands ready, or none
has. The moves that `turns` names choose among any. -/
def issueRules (s : State) (g : Group) (p : Split) : List IssueRule :=
  let others := (s.groups.filter fun x => x.core == g.core && x.quarter == g.quarter).flatMap fun x =>
    (x.splits.filter fun q => !(x.gid == g.gid && q.sid == p.sid)).map fun q => (x.gid, q.sid)
  [.first [], .first others, .second [], .second others]

/-- Moves of the groups and their splits. -/
def groupMoves (s : State) (g : Group) : List Turn :=
  [.event (.groupRestore g.gid), .event (.groupRetire g.gid), .event (.contextSave g.gid), .event (.groupResume g.gid)] ++
  g.splits.flatMap fun p =>
    ((issueRules s g p).flatMap fun r => [.memory, .cache, .buffer].map fun f => .issue g.gid p.sid f r) ++
    [.event (.hwBreakpoint g.gid p.sid),
     .event (.sweepIteration g.gid p.sid), .event (.jwaitWake g.gid p.sid), .event (.splitHalt g.gid p.sid),
     .event (.reproSyncProceed g.gid p.sid), .event (.mapresDeferredGrant g.gid p.sid)]

/-- Moves of an access in flight. -/
def opMoves (o : Op) : List Turn :=
  [.event (.loadReturn o.id allLanes 0#64), .event (.loadReturn o.id allLanes allLanes), .event (.ldlReturn o.id),
   .event (.atomReturn o.id), .event (.storePerform o.id allLanes), .event (.futureResolution o.id),
   .event (.gateDecrement o.id), .event (.mapBindComplete o.id)] ++
  o.elems.zipIdx.flatMap fun x =>
    let m := laneBit x.1.lane
    [.event (.loadReturn o.id m 0#64), .event (.loadReturn o.id m m), .event (.storePerform o.id m), .showStore o.id m,
     .event (.atomicAtHome o.id x.2), .event (.joinCounterDecrement o.id x.2), .event (.censusFold o.id x.2),
     .event (.futureRegistration o.id x.2), .event (.sluiceDeferredPark o.id x.2)]

/-- Moves of a copy or fabric command. -/
def copyMoves (c : Copy) : List Turn :=
  [.event (.copyCompletion c.cid), .event (.c3CompletionRecord c.cid), .event (.remoteCopyWrite (.outgoing c.cid false)),
   .event (.remoteCopyWrite (.outgoing c.cid true))] ++
  ((List.range c.rows).flatMap fun k =>
    [c.rowBytes, 8].map fun n => .event (.remoteCopyWrite (.row c.cid ⟨k, n, n⟩))) ++
  ((List.range c.chunks.length).flatMap fun k =>
    [(4096, 4096), (4096, 0), (0, 4096), (8, 8), (8, 0), (0, 8)].map fun n => .event (.copyChunk c.cid ⟨k, n.1, n.2⟩)) ++
  (match c.kind, c.inst with
   | .sred g _ _, some i => [.event (.sredTimeoutAbort g ⟨i, .arrived⟩), .event (.sredTimeoutAbort g ⟨i, .late⟩)]
   | _, _ => [])

/-- Moves of a core: its Rake, its TLB, its L1. -/
def coreMoves (s : State) (c : Nat) : List Turn :=
  let k := coreOf s c
  ((List.range k.pans.length).flatMap fun i => [.event (.panTimerExpiry c i), .event (.panLaunch c i)]) ++
  (s.contexts.map fun x => .event (.brineIntake c x.num)) ++
  ((List.range k.tlb.length).map fun i => .event (.tlbLeaseExpiry c i)) ++
  (List.range k.l1.length).map fun i => .evictLine c i

/-- Moves of a queue. -/
def queueMoves (q : Queue) : List Turn :=
  [.event (.launchPacketTake q.num), .event (.queueTailUpdate q.num), .event (.queueAgeing q.num), .event (.preemptQueue q.num),
   .event (.resumeQueue q.num), .event (.preemptContext q.num), .event (.resumeContext q.num),
   .event (.reservedQueueCommand q.num)]

/-- Every move that the device might make of itself. -/
def moves (s : State) : List Turn :=
  s.groups.flatMap (groupMoves s) ++ s.ops.flatMap opMoves ++ s.copies.flatMap copyMoves ++
  (List.range s.cores.length).flatMap (coreMoves s) ++ s.queues.flatMap queueMoves ++
  (s.teams.flatMap fun t =>
    [.event (.teamRetire t.tid), .event (.contextSave t.tid), .event (.groupRestore t.tid)]) ++
  (s.grids.flatMap fun g =>
    [.event (.gridCompletion g.uid), .event (.concurrentPlacement g.uid), .event (.reproWavePlacement g.uid)]) ++
  ((List.range s.undelivered.length).map fun k => .event (.faultRecordDeferredDelivery k)) ++
  ((List.range s.deferredRecs.length).map fun k => .event (.deferredRecordFile k)) ++
  ((List.range s.checks.length).map fun k => .event (.checkCompare k)) ++ [.event .teamDispatch, .management]

/-- A move changes something. -/
def acts (s : State) (t : Turn) : Bool :=
  match runTurn t s with
  | .next s' => decide (s' ≠ s)
  | _ => true

/-- The next move when none is named: any that acts, or the passing of one clk. -/
def nextMove (s : State) : Turn × State :=
  let l := (moves s).filter (acts s)
  if l.isEmpty then (.clk 1, s)
  else
    let (k, s) := choose s (l.length + 1)
    (l.getD k (.clk 1), s)

end Sys2Proof.Machine
end

