-- ==== Sys2Proof/Machine/Step.lean ====
section
/-!
DEFINITION. One step of the machine, and the placing of one instruction where the next step fetches it.
-/
namespace Sys2Proof.Machine

/-- One step: the first of the moves that `turns` names, else the next move. -/
def step (s : State) : Host.Outcome State Fault Refusal :=
  match s.turns with
  | t :: rest => runTurn t { s with turns := rest }
  | [] => runTurn (nextMove s).1 (nextMove s).2

/-! ## A program placed (log 26) -/

namespace Probe

/-- Page tables at 0x1_0000: the first entry names the node itself, the second maps 512 MiB of virtual addresses at 2^29 to
physical 0. -/
def nodeAt : Nat := 0x1_0000
def codePA : Nat := 0x1000
def codeVA : DWord := 0x2000_1000#64

def context : Context :=
  { num := 0, ptroot := nodeAt, lease := 64, leaseMax := 64, splitArea := 16384, fabric := false, highWater := 16,
    brineBase := 0x10_0000, brineCap := 64, brine := [], handler := 0#64, fring := 0x2_0000, fringK := 4, tail := 0, drop := 0,
    poolK := 4, fvec := 1, pool := 0x3_0000, check := 0, checkSz := 0, save := 0x100_0000, saveSz := 0x100_0000,
    bps := List.replicate 8 0xFFFF_FFFF_FFFF_FFFF#64, preempted := false, quiesced := false, nextGrid := 2,
    terminating := false }

def desc : Desc :=
  { code := codeVA, vregs0 := 4, vregs1 := 0, groups0 := 1, groups1 := 0, spad := 4096, coal := 0, timer := 0, prog := 2,
    narrow := false, repro := false, checked := false, spwok := false }

/-- The grid, team, group and split whose numbers start at `n`. -/
def grid (n : Nat) : Grid :=
  { uid := n, ctx := 0, gridid := 1, queue := 0, slot := 0, pkt := 0x4_0040, desc, args := 0#64, teams := 1, prio := 0,
    chk := 0, seed := 0#64, done := 0#64, nextTeam := 1, retired := 0, rerun := [], spawnedGroups := 0, orphans := 0,
    lost := false, faulted := false, invalid := false, admission := false, capacity := 0, waveBase := 0,
    maxLT := 0, buffered := [], waited := 0, aged := 0, refused := false, preempted := false, phase := .active }

def team (n : Nat) : Team := startTeam (grid n) (n + 1) 0 0 (n + 1) 0 false 4096

def group (n : Nat) : Group :=
  startGroup (grid n) (team n) (n + 2) 0 0 0 32 0 1 1 0 0
    (firstSplit (n + 3) (n + 4) (Lanes.all false) codeVA false 0) [] []

end Probe

/-- The instruction at the bits of a table row stored where the next step fetches: in the one split of a group that stands
for a program launched from a queue. -/
def State.withFetchWord (s : State) (nbits w : Nat) : State :=
  let n := s.nextId
  let m := memWriteN (memWriteN s.mem Probe.nodeAt 8 0x1_0001) (Probe.nodeAt + 8) 8 0x19F
  { s with
    mem := memWriteN m Probe.codePA 16 (w % 2 ^ nbits)
    badGranules := []
    cores := s.cores.map fun c => { c with tlb := [], icache := [], fbuf := [] }
    contexts := [Probe.context], grids := [Probe.grid n], teams := [Probe.team n], groups := [Probe.group n]
    turns := [.issue (n + 2) (n + 3) .memory (.first [])], nextId := n + 5 }

end Sys2Proof.Machine
end

