-- ==== Sys2Proof/Safety.lean ====
section
/-!
DEFINITION. What counts as a safe run, in the terms that statements use: a step that answers a next state, the invariants
that every step keeps, and the vocabulary of statements about one instruction: when it reaches its own effect, and what
it leaves unchanged.
-/
namespace Sys2Proof.Machine

/-- The machine goes on: neither a fault nor a refusal. -/
def Runs (s : State) : Prop := ∃ t, step s = .next t

/-- Device memory keeps its canonical form: addresses strictly rising, no byte listed that an unlisted address reads as. -/
def MemOk (s : State) : Prop := memWf s.mem = true

/-! ## When an instruction of a split reaches its own effect -/

/-- No check that every instruction meets first stops it (11 R210): it is permitted in the group's mode, its hold chain is
not too long, its guard's register exists, no deferred memory error and no access in flight stands on its registers
(10 R205), and a synchronising operation need not wait (12 R231). Nor is it a vector instruction of a split with EM = 0,
which has no effect (03 R69; `FirstChecks` states it). -/
def clear (u : Iss) : Bool :=
  (firstTrap u).isNone && !u.idle && (badLoadTrap u).isNone && !waitsForLoad u && !syncWaits u

/-- In `t` the instruction has done nothing but take a trap of this cause, with these lanes and AUX words (11 R206, R209). -/
def Trapped (u : Iss) (c : Cause) (mask : Lanes) (aux0 aux1 : DWord) (t : State) : Prop :=
  ∃ r : TrapReq, r.cause = c ∧ r.mask = mask ∧ r.aux0 = aux0 ∧ r.aux1 = aux1 ∧ t = takeTrap u.s u.g.gid u.p.sid r

/-- A trap whose AUX words are the instruction's own bits (11 R207). -/
def Rejected (u : Iss) (c : Cause) (t : State) : Prop :=
  Trapped u c u.p.members ((encode u.i).extractLsb' 0 64) ((encode u.i).extractLsb' 64 64) t

/-! ## Registers -/

/-- One lane of a register: a scalar register reads the same in every lane. -/
def regWord (g : Group) (o : Opnd) (l : Nat) : Word :=
  match o with
  | .v n => (g.vregs.getD n.val LaneVec.zero).get l
  | .o n => (g.oregs.getD n.val LaneVec.zero).get l
  | .s n => g.sregs.getD n.val 0#32
  | _ => 0#32

/-- The group holds the register: a vector register within its allocation, a scalar or an operand-file register. -/
def regHeld (g : Group) (o : Opnd) : Bool :=
  match o with
  | .v n => decide (n.val < g.vregs.length)
  | .o n => decide (n.val < g.oregs.length)
  | .s n => decide (n.val < g.sregs.length)
  | _ => false

/-- `g'` holds the registers of `g`, but for destination `d` (and the next register of a pair when `wide`), which holds
`val` in the lanes of `ls`; a scalar register holds the value of the first of them. -/
structure Written (g g' : Group) (d : Opnd) (wide : Bool) (ls : List Nat) (val : Nat → Nat) : Prop where
  low : regHeld g d = true → ∀ l < 64,
    regWord g' d l =
      if isScalar d then (if ls = [] then regWord g d l else BitVec.ofNat 32 (val (ls.headD 0)))
      else if ls.contains l then BitVec.ofNat 32 (val l) else regWord g d l
  high : wide = true → regHeld g (opPlus d 1) = true → ∀ l < 64,
    regWord g' (opPlus d 1) l =
      if isScalar d then (if ls = [] then regWord g (opPlus d 1) l else BitVec.ofNat 32 (val (ls.headD 0) / 2 ^ 32))
      else if ls.contains l then BitVec.ofNat 32 (val l / 2 ^ 32) else regWord g (opPlus d 1) l
  kept : ∀ o, o ≠ d → (wide = true → o ≠ opPlus d 1) → ∀ l, regWord g' o l = regWord g o l
  held : ∀ o, regHeld g' o = regHeld g o

/-! ## What an instruction of a split leaves unchanged -/

/-- The breakpoint halt that the end of an instruction leaves due: that of an address matched in its hold chain when the chain
ends with it, at the instruction that follows; else what was due before (11 R218). -/
def breakOwed (u : Iss) (old : Option BpDue) (pc : DWord) : Option BpDue :=
  match u.p.bpMatch with
  | some a => if instrHold u.i then old else some { sid := u.p.sid, addr := a, pc, mask := u.p.members }
  | none => old

/-- In `t`, after the instruction, the group and its split are `g'` and `p'`; every other split of the group, every other
group, every ring but that of the group's quarter, and the rest of the machine with every byte of its memories are as
before. Of the group only registers, STATUS, SRCTR, LCLK, the splits, the order of issue and a breakpoint's halt that is due may
differ. -/
structure Stepped (u : Iss) (t : State) (g' : Group) (p' : Split) : Prop where
  group : groupOf t u.g.gid = some g'
  split : splitOf g' u.p.sid = some p'
  groups : ∀ n, n ≠ u.g.gid → groupOf t n = groupOf u.s n
  splits : ∀ n, n ≠ u.p.sid → splitOf g' n = splitOf u.g n
  machine : { t with groups := u.s.groups, rings := u.s.rings } = u.s
  mem : ∀ a, memRead t.mem a = memRead u.s.mem a
  rings : ∀ c q, 4 * c + q ≠ 4 * u.g.core + u.g.quarter → ringOf t c q = ringOf u.s c q
  own : { g' with
          vregs := u.g.vregs, oregs := u.g.oregs, sregs := u.g.sregs, status := u.g.status, srctr := u.g.srctr,
          lclk := u.g.lclk, splits := u.g.splits, round := u.g.round, bpDue := u.g.bpDue } = u.g
  lclk : g'.lclk = u.g.lclk + 1#64
  bp : g'.bpDue = breakOwed u u.g.bpDue p'.pc

/-- The split goes on behind its instruction: its PC, its hold chain (05 R103), and nothing else that the manual names. -/
structure Advanced (u : Iss) (p' : Split) (pc : DWord) : Prop where
  pc : p'.pc = pc
  chain : p'.chainLen = if instrHold u.i then u.p.chainLen + 1 else 0
  first : 0 < p'.chainLen → p'.chainPC = if u.p.chainLen = 0 then u.p.pc else u.p.chainPC
  matched : p'.bpMatch = if instrHold u.i then u.p.bpMatch else none
  rest : { p' with
           pc := u.p.pc, chainLen := u.p.chainLen, chainPC := u.p.chainPC, stamp := u.p.stamp, syncOk := u.p.syncOk,
           syncWait := u.p.syncWait, bpSkip := u.p.bpSkip, bpMatch := u.p.bpMatch, issues := u.p.issues,
           yield := u.p.yield } = u.p

/-! ## Instructions that give one value per lane (14 R266 to R269) -/

/-- The lanes an instruction computes: its active lanes, or in scalar form the lowest member when a scalar guard allows
it (14 R259, R267). -/
def resultLanes (u : Iss) (h : Hdr) (d : Opnd) : List Nat :=
  if isScalar d then (if scalarGuard u.g h.guard then [(u.p.members.lowest).getD 0] else []) else (active u).toList

/-- No lane's NaN traps (06 R132): none is produced, or FMT.NANTRAP is 0. -/
def noNanTrap (u : Iss) (ls : List Nat) (lane : Nat → Lane) : Bool :=
  !fmtNANTRAP u.p.fmt || ls.all fun l => !(lane l).produced

/-- The whole register that a result leaves, or for destination `_` the results and zero: what enters the ring. -/
def wholeResult (g' : Group) (d : Opnd) (ls : List Nat) (val : Nat → Nat) : LaneVec :=
  LaneVec.ofFn fun l =>
    if d = .zero then (if ls.contains l then BitVec.ofNat 32 (val l) else 0#32) else regWord g' d l

/-- A latch that this split has just written (05 R100, R102). -/
def enteredLatch (u : Iss) (v : LaneVec) : Latch :=
  { val := v, tag := some { gid := u.g.gid, sid := u.p.sid, epoch := u.p.epoch } }

/-- The results enter the ring: of a vector, operand-file or WBS destination (05 R100, R101). -/
def toRing (h : Hdr) (d : Opnd) : Bool := !isScalar d && !(d == .zero && !h.wbs)

/-- Whether an instruction acts: always in vector form, where it may write no lane, else when its guard allows it. -/
def lanesAct (d : Opnd) (ls : List Nat) : Bool := !isScalar d || ls != []

/-- What an instruction leaves that computes `val l` in each lane `l` of `ls`, gathering flags and SRCTR in `lane l`, for
destination `d`; `os` are its sources. When it does not act it only advances; a result that enters the ring shifts it even
where no lane is active (05 R100). -/
def LaneEffect (u : Iss) (d : Opnd) (wide enters acts : Bool) (os : List Opnd) (ls : List Nat) (val : Nat → Nat)
    (lane : Nat → Lane) (t : State) : Prop :=
  ∃ g' p', Stepped u t g' p' ∧ Advanced u p' (u.p.pc + 16#64) ∧ Written u.g g' d wide ls val ∧
    (∀ k < 6, g'.status.getLsbD k =
      (u.g.status.getLsbD k || ls.any (fun l => (lane l).flags.getLsbD k) ||
        (acts && latchLost u os && fLatchLost.getLsbD k))) ∧
    (∀ l < 64, g'.srctr.get l = if ls.contains l then (lane l).ctr else u.g.srctr.get l) ∧
    (4 * u.g.core + u.g.quarter < u.s.rings.length →
      ringOf t u.g.core u.g.quarter =
        if acts = true ∧ enters = true then
          ((if wide then [enteredLatch u (wholeResult g' (opPlus d 1) ls fun l => val l / 2 ^ 32)] else []) ++
            [enteredLatch u (wholeResult g' d ls val)] ++ ringOf u.s u.g.core u.g.quarter).take 4
        else ringOf u.s u.g.core u.g.quarter)

/-- Sources `xs` of an integer instruction in lane `l`, in order A, B, C: the code of element 0 of each, and what the lane
gathered (14 R268). Nothing is rounded (22 R346). -/
def sourceCodes (u : Iss) (h : Hdr) (imm : Word) (xs : List Src) (l : Nat) : List Nat × Lane :=
  xs.zipIdx.foldl (fun acc x =>
    let r := fetchElem (intEnv (rEnv h u.p.fmt u.g.srseed)) (mapLanes u) x.2 (resolveSrc u imm x.1) l 0 acc.2
    (acc.1 ++ [r.1], r.2)) ([], Lane.start (u.g.srctr.get l))

def codeOf (u : Iss) (h : Hdr) (imm : Word) (xs : List Src) (k l : Nat) : Nat := (sourceCodes u h imm xs l).1.getD k 0

/-- The operands of a lane instruction are allowed, and every map it names is bound and fits (14 R253, R259; 07 R145). -/
def operandsOk (u : Iss) (h : Hdr) (d : Opnd) (wide : Bool) (xs : List Src) : Bool :=
  lanesLegal u h d wide xs && (mapTrap u xs).isNone

/-- An instruction of one result per lane, made of the codes of its sources by `op`. -/
def Computes (u : Iss) (h : Hdr) (d : Opnd) (wide : Bool) (xs : List Src) (imm : Word) (Gives : Nat → Nat → Prop)
    (t : State) : Prop :=
  ∃ val, (∀ l ∈ resultLanes u h d, Gives l (val l)) ∧
    LaneEffect u d wide (toRing h d) (lanesAct d (resultLanes u h d)) (xs.map Src.o) (resultLanes u h d) val (fun l => (sourceCodes u h imm xs l).2) t

/-! ## The integer class -/

/-- The last step of 22 R347: `r` is the exact value `v` clamped to the type when saturating, else modulo 2^w. -/
def Finishes (t : IntTy) (sat : Bool) (v : Int) (r : Nat) : Prop :=
  if sat then
    intVal t r = (if t.signed then max (-(2 ^ (t.width - 1) : Int)) (min v (2 ^ (t.width - 1) - 1))
      else max 0 (min v (2 ^ t.width - 1)))
  else (r : Int) % 2 ^ t.width = v % 2 ^ t.width

/-- Instructions of two sources of the type itself. -/
inductive IntBin where
  | and | andn | or | xor | iadd | isub | imul | imulh | imax | imin
  deriving DecidableEq, Repr

def IntBin.instr (o : IntBin) (t : IntTy) (f : RFmt) : Instr :=
  match o with
  | .and => .and t f | .andn => .andn t f | .or => .or t f | .xor => .xor t f | .iadd => .iadd t f
  | .isub => .isub t f | .imul => .imul t f | .imulh => .imulh t f | .imax => .imax t f | .imin => .imin t f

/-- `r` is the result on codes `a` and `b` (20 R291, 22 R346, 23 R376). -/
def IntBin.Gives (o : IntBin) (t : IntTy) (sat : Bool) (a b r : Nat) : Prop :=
  match o with
  | .and => ∀ k < t.width, r.testBit k = (a.testBit k && b.testBit k)
  | .andn => ∀ k < t.width, r.testBit k = (a.testBit k && !b.testBit k)
  | .or => ∀ k < t.width, r.testBit k = (a.testBit k || b.testBit k)
  | .xor => ∀ k < t.width, r.testBit k = (a.testBit k != b.testBit k)
  | .iadd => Finishes t sat (intVal t a + intVal t b) r
  | .isub => Finishes t sat (intVal t a - intVal t b) r
  | .imul => Finishes t sat (intVal t a * intVal t b) r
  | .imulh => Finishes t false (intVal t a * intVal t b / 2 ^ t.width) r
  | .imax => intVal t r = max (intVal t a) (intVal t b)
  | .imin => intVal t r = min (intVal t a) (intVal t b)

/-- Instructions of a value and a count or a control word, which is one 32-bit operand. -/
inductive IntShift where
  | bfe | sar | shl | shr
  deriving DecidableEq, Repr

def IntShift.instr (o : IntShift) (t : IntTy) (f : RFmt) : Instr :=
  match o with
  | .bfe => .bfe t f | .sar => .sar t f | .shl => .shl t f | .shr => .shr t f

def IntShift.second (o : IntShift) (f : RFmt) : Src :=
  match o with
  | .bfe => ctrlB f
  | _ => countB f

/-- SAR takes S types only, SHL and SHR B types only (23 R376). -/
def IntShift.accepts (o : IntShift) (t : IntTy) : Bool :=
  match o with
  | .bfe => true
  | .sar => t.signed
  | .shl | .shr => !t.signed

/-- pos' and len' of a control word (20 R292). -/
def fieldPos (w c : Nat) : Nat := min (c % 256) w
def fieldLen (w c : Nat) : Nat := min (c / 256 % 256) (w - fieldPos w c)

/-- `r` is the result on code `a` and count or control `n` (20 R292, 23 R376), bit by bit. -/
def IntShift.Gives (o : IntShift) (t : IntTy) (a n r : Nat) : Prop :=
  let w := t.width
  match o with
  | .bfe =>
    let p := fieldPos w n
    let len := fieldLen w n
    ∀ k < w, r.testBit k = if k < len then a.testBit (p + k) else t.signed && decide (0 < len) && a.testBit (p + len - 1)
  | .sar => ∀ k < w, r.testBit k = a.testBit (min (k + min n (w - 1)) (w - 1))
  | .shl => ∀ k < w, r.testBit k = (decide (n ≤ k) && a.testBit (k - n))
  | .shr => ∀ k < w, r.testBit k = (decide (k + n < w) && a.testBit (k + n))

/-- Instructions of three sources. -/
inductive IntTri where
  | bfi | imad | lea | prmt | sel | shf
  deriving DecidableEq, Repr

def IntTri.instr (o : IntTri) (t : IntTy) (f : RFmt) : Instr :=
  match o with
  | .bfi => .bfi t f | .imad => .imad t f | .lea => .lea t f | .prmt => .prmt t f | .sel => .sel t f | .shf => .shf t f

/-- The type as the sources of an instruction have it: the second and the third may be 32-bit values. -/
def IntTri.sources (o : IntTri) (t : IntTy) (f : RFmt) : List Src :=
  srcA f (intCvt t) 1 ::
  match o with
  | .imad => [srcB f (intCvt t) 1, srcC f (intCvt t) 1]
  | .lea | .prmt => [countB f, countC f]
  | .bfi | .sel | .shf => [srcB f (intCvt t) 1, countC f]

/-- PRMT takes B32 only, BFI and SHF B types only (20 R291, 23 R376). -/
def IntTri.accepts (o : IntTri) (t : IntTy) : Bool :=
  match o with
  | .prmt => t == .b32
  | .bfi | .shf => !t.signed
  | _ => true

/-- Bit `j` of pool byte `k` of PRMT, and of the byte that a selector builds (23 R377). -/
def poolBit (a b k j : Nat) : Bool := if k < 4 then a.testBit (8 * k + j) else b.testBit (8 * (k - 4) + j)
def prmtBit (a b sel j : Nat) : Bool :=
  let j := if sel.testBit 5 then 7 - j else j
  match sel / 8 % 4 with
  | 0 => poolBit a b (sel % 8) j
  | 1 => false
  | 2 => poolBit a b (sel % 8) 7
  | _ => true

/-- `r` is the result on codes `a`, `b` and `c` (20 R292; 22 R346, R349; 23 R376 to R378). `right`: MOD 95 of SHF. -/
def IntTri.Gives (o : IntTri) (t : IntTy) (sat right : Bool) (a b c r : Nat) : Prop :=
  let w := t.width
  match o with
  | .bfi =>
    let p := fieldPos w c
    ∀ k < w, r.testBit k = if p ≤ k ∧ k < p + fieldLen w c then a.testBit (k - p) else b.testBit k
  | .imad => Finishes t sat (intVal t a * intVal t b + intVal t c) r
  | .lea =>
    (r : Int) % 2 ^ w =
      (a + (if t = .s64 then intVal .s32 b else (b : Int)) * 2 ^ (if w = 64 then c % 64 else c % 32)) % 2 ^ w
  | .prmt => ∀ k < 4, ∀ j < 8, r.testBit (8 * k + j) = prmtBit a b (c / 2 ^ (8 * k) % 256) j
  | .sel => r = if c.testBit 0 then a else b
  | .shf => ∀ k < w, r.testBit k =
      (let n := min c w
       let j := if right then k + n else k + w - n
       if j < w then a.testBit j else decide (j < 2 * w) && b.testBit (j - w))

/-- Instructions of one source. -/
inductive IntOne where
  | brev | clz | iabs | popc
  deriving DecidableEq, Repr

def IntOne.instr (o : IntOne) (t : IntTy) (f : RFmt) : Instr :=
  match o with
  | .brev => .brev t f | .clz => .clz t f | .iabs => .iabs t f | .popc => .popc t f

/-- The destination is a pair: CLZ and POPC write one register whatever the type (20 R291, 23 R376). -/
def IntOne.wide (o : IntOne) (t : IntTy) : Bool :=
  match o with
  | .clz | .popc => false
  | _ => t.width == 64

/-- `r` is the result on code `a` (20 R291, 22 R346, 23 R376). CLZ: the bits above `w - 1 - r` are 0, and the next is 1. -/
def IntOne.Gives (o : IntOne) (t : IntTy) (sat : Bool) (a r : Nat) : Prop :=
  let w := t.width
  match o with
  | .brev => ∀ k < w, r.testBit k = a.testBit (w - 1 - k)
  | .clz => r ≤ w ∧ (∀ k < r, a.testBit (w - 1 - k) = false) ∧ (r < w → a.testBit (w - 1 - r) = true)
  | .popc => r = ((List.range w).filter a.testBit).length
  | .iabs => Finishes t sat (intVal t a).natAbs r

/-- ICMP's conditions (22 R348). -/
def icmpHolds (cc : Nat) (a b : Int) : Prop :=
  match cc with
  | 0 => a = b
  | 1 => a ≠ b
  | 2 => a < b
  | 3 => a ≤ b
  | 4 => b < a
  | _ => b ≤ a

/-! ## The float class -/

inductive FloatOp where
  | fadd | fmul | fma | fmax | fmin | fcmp | fclass | fgetexp | fscale | frnd | frcp | frsq | fsqrt | fexp2 | flog2
  | fsinpi | fcospi
  deriving DecidableEq, Repr

def FloatOp.instr (o : FloatOp) (t : FloTy) (f : RFmt) : Instr :=
  match o with
  | .fadd => .fadd t f | .fmul => .fmul t f | .fma => .fma t f | .fmax => .fmax t f | .fmin => .fmin t f
  | .fcmp => .fcmp t f | .fclass => .fclass t f | .fgetexp => .fgetexp t f | .fscale => .fscale t f
  | .frnd => .frnd t f | .frcp => .frcp t f | .frsq => .frsq t f | .fsqrt => .fsqrt t f | .fexp2 => .fexp2 t f
  | .flog2 => .flog2 t f | .fsinpi => .fsinpi t f | .fcospi => .fcospi t f

/-- Number of sources (21 R320). -/
def FloatOp.arity : FloatOp → Nat
  | .fma => 3
  | .fadd | .fmul | .fmax | .fmin | .fcmp | .fscale => 2
  | _ => 1

def FloatOp.sources (o : FloatOp) (t : FloTy) (f : RFmt) : List Src :=
  [srcA f (floCvt t) t.positions, srcB f (floCvt t) t.positions, srcC f (floCvt t) t.positions].take o.arity

/-- The result of one position from the values of its sources (21 R324 to R330, 06 R131): the exact value rounded once; or
an exact value; or FRND's integral value; or FCMP's 0 or 1 and FCLASS's class bit. -/
def FloatOp.position (o : FloatOp) (t : FloTy) (cc : Nat) (E : REnv) (codes : List Nat) (L : Lane) : Nat × Lane :=
  let rd := E.rm == .rd
  let c := codes.getD 0 0
  let a := floVal t E c
  let b := floVal t E (codes.getD 1 0)
  let fn := fun r : FVal × Flags => roundFlo t E r.1 r.2 L
  match o with
  | .fadd => fn (fAdd rd a b, fNone)
  | .fmul => fn (fMul a b, fNone)
  | .fma => fn (fFma rd a b (floVal t E (codes.getD 2 0)), fNone)
  | .fscale => fn (valScale a b, fNone)
  | .frcp => fn (valRcp a) | .frsq => fn (valRsq a) | .fsqrt => fn (valSqrt a) | .fexp2 => fn (valExp2 a)
  | .flog2 => fn (valLog2 a) | .fsinpi => fn (valSinPi a) | .fcospi => fn (valCosPi a)
  | .fmax => exactFlo t (fMinMax true a b) fNone L
  | .fmin => exactFlo t (fMinMax false a b) fNone L
  | .fgetexp => opGetExp t E codes L
  | .frnd => opRnd t E codes L
  | .fcmp => (if fcmpCond cc a b then 1 else 0, L)
  | .fclass => (2 ^ fclassBit (fmtOf t) c, L)

/-- Lane `l` of a float instruction: its sources in order, then each position in ascending order (06 R128, 21 R321). -/
def FloatOp.lane (o : FloatOp) (u : Iss) (t : FloTy) (f : RFmt) (l : Nat) : Nat × Lane :=
  let E := rEnv f.h u.p.fmt u.g.srseed
  let c := fetchSources E (mapLanes u) ((o.sources t f).map (resolveSrc u f.imm)) l (Lane.start (u.g.srctr.get l))
  packLanes (fmtOf t).w t.positions (fun p L => o.position t (bits f.mod 4 3) E (c.1.map fun x => x.getD p 0) L) c.2

/-! ## Conversions, quantisation, random numbers and moves -/

/-- CVT in lane `l` (20 R311, R312): the source converted and rounded once, in its field of the old destination, or of
zeros under WBS. -/
def cvtCode (u : Iss) (c : CvtTy) (f : RFmt) (l : Nat) : Nat × Lane :=
  let E := rEnv f.h u.p.fmt u.g.srseed
  let src : Src := { o := f.a, sel := f.ma.toNat, tb := f.ta, t := c }
  let x := fetchElem E (mapLanes u) 0 (resolveSrc u f.imm src) l 0 (Lane.start (u.g.srctr.get l))
  roundLane E (fun rc => convertCode c (cvtDest f.mod) E.ftz rc x.1) x.2

/-- `r` is `old` but for the `n` bits from bit `lo`, which hold `v`; `w` bits in all. -/
def FieldOf (w old lo n v r : Nat) : Prop :=
  ∀ k < w, r.testBit k = if lo ≤ k ∧ k < lo + n then v.testBit (k - lo) else old.testBit k

/-- FQUANT in lane `l` (21 R332). -/
def quantOut (u : Iss) (t : FloTy) (f : RFmt) (l : Nat) : Nat × Lane :=
  let E := rEnv f.h u.p.fmt u.g.srseed
  let src : Src := { o := f.a, sel := f.ma.toNat, tb := f.ta, t := floCvt t, n := t.positions }
  let x := fetchAll E (mapLanes u) 0 (resolveSrc u f.imm src) l (Lane.start (u.g.srctr.get l))
  quantLane t (quantFmt f.mod) E x.1 (readNat u (f.imm.zeroExtend 64) false f.b l)
    (if f.h.wbs then 0 else readNat u 0#64 false f.d l) (cvtPos f.mod) x.2

/-- The positions of FAMAX's source in lane `l`. -/
def famaxCodes (u : Iss) (t : FloTy) (f : RFmt) (l : Nat) : List Nat × Lane :=
  let src : Src := { o := f.a, sel := f.ma.toNat, tb := f.ta, t := floCvt t, n := t.positions }
  fetchAll (rEnv f.h u.p.fmt u.g.srseed) (mapLanes u) 0 (resolveSrc u f.imm src) l (Lane.start (u.g.srctr.get l))

/-- FAMAX's scale of position `p` for the block of 32 lanes that holds lane `l` (21 R331): from the largest magnitude over
the lanes of the instruction in that block. -/
def famaxScale (u : Iss) (t : FloTy) (f : RFmt) (l p : Nat) : Rounded :=
  blockScale (quantFmt f.mod)
    (amaxOf (fmtOf t) (((resultLanes u f.h f.d).filter fun k => k / 32 == l / 32).map fun k => (famaxCodes u t f k).1.getD p 0))

/-- FAMAX in lane `l`: its scales in bytes 0 and up. -/
def famaxOut (u : Iss) (t : FloTy) (f : RFmt) (l : Nat) : Nat × Lane :=
  let ss := (List.range t.positions).map (famaxScale u t f l)
  let L := (famaxCodes u t f l).2
  (ss.zipIdx.foldl (fun w r => w + r.1.val * 256 ^ r.2) 0,
   { L with flags := L.flags ||| ss.foldl (fun x r => x ||| r.flags) fNone, produced := L.produced || ss.any fun r => r.produced })

/-- A lane that gathers nothing. -/
def idle (u : Iss) (l : Nat) : Lane := Lane.start (u.g.srctr.get l)

/-! ## The lane class -/

/-- Outcomes by lane. -/
def outVal (out : List LaneOut) (l : Nat) : Nat := ((out.find? (·.1 == l)).map (·.2.1)).getD 0
def outLane (out : List LaneOut) (l : Nat) : Lane := ((out.find? (·.1 == l)).map (·.2.2)).getD (Lane.start 0#32)

/-- `r` is ReduceOp `op` of an integer type over the codes `xs` (22 R359). -/
def ReducesInt (t : IntTy) (op : Nat) (sat : Bool) (xs : List Nat) (r : Nat) : Prop :=
  match op with
  | 0 => Finishes t sat (xs.map (intVal t)).sum r
  | 1 => (∃ x ∈ xs, intVal t r = intVal t x) ∧ ∀ x ∈ xs, intVal t r ≤ intVal t x
  | 2 => (∃ x ∈ xs, intVal t r = intVal t x) ∧ ∀ x ∈ xs, intVal t x ≤ intVal t r
  | 3 => ∀ k < t.width, r.testBit k = xs.all (·.testBit k)
  | 4 => ∀ k < t.width, r.testBit k = xs.any (·.testBit k)
  | _ => ∀ k < t.width, r.testBit k = decide ((xs.filter (·.testBit k)).length % 2 = 1)

/-- Source A of LRED and LSCAN in every active lane. -/
def laneSources (x : Iss) (u : EltTy) (f : RFmt) : List LaneSource :=
  fetchLanes x (rEnv f.h x.p.fmt x.g.srseed) (resolveSrc x f.imm (laneSrc u f)) (active x).toList

/-- The code of an integer type that LRED or LSCAN reads in lane `l`. -/
def laneCode (x : Iss) (u : EltTy) (f : RFmt) (l : Nat) : Nat :=
  (fetchAll (rEnv f.h x.p.fmt x.g.srseed) (mapLanes x) 0 (resolveSrc x f.imm (laneSrc u f)) l (idle x l)).1.getD 0 0

/-- A register, latch or immediate of a lane instruction's source, as bits. -/
def rawBits (x : Iss) (u : EltTy) (imm : Word) (o : Opnd) (l : Nat) : Nat :=
  readNat x (imm.zeroExtend 64) (u.width == 64) o l

/-- VOTE over lanes `L` (23 R382): ALL, ANY, UNI, BALLOT, POP, FIRST. -/
def Votes (mode : Nat) (L : List Nat) (pred : Nat → Bool) (r : Nat) : Prop :=
  match mode with
  | 0 => r = if L.all pred then 1 else 0
  | 1 => r = if L.any pred then 1 else 0
  | 2 => r = if L.all pred || !L.any pred then 1 else 0
  | 3 => ∀ k < 64, r.testBit k = (L.contains k && pred k)
  | 4 => r = L.countP pred
  | _ => r = (L.find? pred).getD 64

/-- The lane that SHFL reads for lane `l` (23 R381): its own when the source lies outside its segment or is no member. -/
def shflFrom (x : Iss) (f : RFmt) (l : Nat) : Nat :=
  let r := shflLane (bits f.mod 4 2) x.g.narrow l (readNat x (f.imm.zeroExtend 64) false f.b l)
  if r.2 && x.p.members.has r.1.toNat then r.1.toNat else l

/-- PART's registers after it (23 R380): the lanes of the first four classes. -/
def partMasks (x : Iss) (u : EltTy) (f : RFmt) : List DWord :=
  let lanes := (active x).toList
  let key := rawBits x u f.imm f.a
  (List.range 4).map fun k => match (partClasses key lanes)[k]? with
    | some c => Lanes.ofPred (classLanes key lanes c).contains
    | none => 0#64

/-! ## Identities -/

/-- MODEL'S OWN numbers name groups, splits and regions once each, all below the next one. -/
structure IdsOk (s : State) : Prop where
  groups : (s.groups.map Group.gid).Nodup
  fresh : ∀ g ∈ s.groups, g.gid < s.nextId
  splits : ∀ g ∈ s.groups, (g.splits.map Split.sid).Nodup ∧ ∀ p ∈ g.splits, p.sid < s.nextId
  regions : ∀ g ∈ s.groups, (g.regions.map Region.rid).Nodup ∧ ∀ r ∈ g.regions, r.rid < s.nextId

/-! ## The control class -/

/-- The instruction only moves its split to `pc`: no register, no flag, no memory, no other split. -/
def Goes (u : Iss) (pc : DWord) (t : State) : Prop :=
  ∃ g' p', Stepped u t g' p' ∧ Advanced u p' pc ∧ g'.vregs = u.g.vregs ∧ g'.oregs = u.g.oregs ∧ g'.sregs = u.g.sregs ∧
    g'.status = u.g.status ∧ g'.srctr = u.g.srctr ∧ t.rings = u.s.rings

/-- A split and a region without what the manual does not name (the model's agents) and without where their entries
stand, hardware table or split area. -/
def bareSplit (p : Split) : Split := { p with agent := 0, before := [], resident := true, epoch := 0 }
def bareRegion (r : Region) : Region := { r with agents := [], resident := true }

/-- From `s` to `t` nothing has changed but the splits and regions of group `gid`. -/
structure Reshaped (gid : Nat) (s t : State) : Prop where
  machine : { t with groups := s.groups, nextId := s.nextId } = s
  groups : ∀ n, n ≠ gid → groupOf t n = groupOf s n
  own : ∀ g, groupOf s gid = some g → ∃ g', groupOf t gid = some g' ∧ { g' with splits := g.splits, regions := g.regions } = g

/-- The splits and regions of group `gid` in `t`, as the manual names them. -/
def Shape (gid : Nat) (t : State) (ps : List Split) (rs : List Region) : Prop :=
  ∃ g, groupOf t gid = some g ∧ g.splits.map bareSplit = ps.map bareSplit ∧ g.regions.map bareRegion = rs.map bareRegion

/-- The splits of a group with `p` in place of its namesake. -/
def putSplit (g : Group) (p : Split) : List Split := g.splits.map fun x => if x.sid = p.sid then p else x

/-- The regions of a group with the lanes `x` no longer expected by those of a chain. -/
def expectLess (g : Group) (chain : List Region) (x : Lanes) : List Region :=
  g.regions.map fun r => if chain.any (·.rid == r.rid) then { r with expected := r.expected &&& ~~~x } else r

/-! ## Records for the driver (11 R206, R208) -/

/-- A record of group `gid` stands in its context's fault ring, TAIL counts it and the driver is told; or, with no room or
an earlier record waiting, it waits. Memory has changed nowhere else. `a`: the record's address. -/
def Delivered (s t : State) (c : Context) (gid : Nat) (r : TrapRec) (a : Option Nat) : Prop :=
  if ringHasRoom s c && !(s.undelivered.any fun x => x.ctx == c.num) then
    a = some (nextRecAddr c) ∧ (∀ k < 64, memRead t.mem (nextRecAddr c + k) = r.bytes.getD k 0#8) ∧
      physRead t c.fring 8 = (c.tail + 1) % 2 ^ 64 ∧ t.irqs = s.irqs ++ [c.fvec] ∧
      (∀ x, (x < c.fring ∨ c.fring + 8 ≤ x) → (x < nextRecAddr c ∨ nextRecAddr c + 64 ≤ x) → memRead t.mem x = memRead s.mem x) ∧
      (∃ c', ctxOf t c.num = some c' ∧ c'.tail = c.tail + 1) ∧ t.undelivered = s.undelivered
  else a = none ∧ t.mem = s.mem ∧ t.irqs = s.irqs ∧
    t.undelivered = s.undelivered ++ [{ ctx := c.num, body := r, link := .group gid }]

/-- In `t` group `g` of `s` is halted for the driver with record `r`, and its registers are as before. -/
def HaltedWith (s t : State) (g : Group) (sid : Nat) (c : Context) (kind : HaltKind) (r : TrapRec) : Prop :=
  ∃ g' h, groupOf t g.gid = some g' ∧ g'.driver = some h ∧ h.kind = kind ∧ h.body = r ∧ h.sid = sid ∧
    g'.vregs = g.vregs ∧ g'.oregs = g.oregs ∧ g'.sregs = g.sregs ∧ g'.status = g.status ∧ g'.srctr = g.srctr ∧
    t.rings = s.rings ∧ Delivered s t c g.gid r h.addr

/-! ## The system class -/

/-- The instruction leaves every register and ring, all memory, every other group and every other split as they were. -/
structure OnlyState (u : Iss) (t : State) (g' : Group) (p' : Split) : Prop where
  group : groupOf t u.g.gid = some g'
  split : splitOf g' u.p.sid = some p'
  machine : { t with groups := u.s.groups } = u.s
  groups : ∀ n, n ≠ u.g.gid → groupOf t n = groupOf u.s n
  splits : ∀ n, n ≠ u.p.sid → splitOf g' n = splitOf u.g n
  vregs : g'.vregs = u.g.vregs
  oregs : g'.oregs = u.g.oregs
  sregs : g'.sregs = u.g.sregs
  pc : p'.pc = u.p.pc + 16#64
  members : p'.members = u.p.members

/-- What SETSR leaves in special register `n` in lane `l`, given the value `v` of its source there (23 R393); bit 31 of
TRAPCAUSE is reserved and reads zero (00 R12, 11 R206). -/
def setsrLeaves (u : Iss) (n : Nat) (v l : Nat) : Nat :=
  match n with
  | 0x0A => (BitVec.ofNat 64 v &&& u.p.members).toNat
  | 0x0C => (u.p.fmt.toNat / 256 * 256 + v % 256)
  | 0x0D => (u.g.status &&& ~~~BitVec.ofNat 6 v).toNat
  | 0x12 => if (active u).has l then v % 2 ^ 32 else (u.g.srctr.get l).toNat
  | 0x20 => v % 2 ^ 31
  | _ => v % 2 ^ 64

/-! ## Accesses -/

/-- From `s` to `t` only walks and lookups have happened: the A and D bits of page-table entries, and TLBs (10 R195); and,
where some granule is uncorrectable, the logged records of walks that met one (R205; log 54). -/
def Walked (s t : State) : Prop :=
  { t with mem := s.mem, badGranules := s.badGranules, cores := s.cores, contexts := s.contexts, records := s.records,
           irqs := s.irqs } = s ∧ t.cores.length = s.cores.length ∧
  (s.badGranules = [] → t.badGranules = [] ∧ t.contexts = s.contexts ∧ t.records = s.records ∧ t.irqs = s.irqs)

/-- From `s` (behind the walks of the instruction) to `t` the instruction has put one access of its own in flight and
counted it in class `cls`, and nothing else: no register and no memory has changed (08 R159, 09 R174). -/
structure Launched (u : Iss) (s t : State) (cls : Option EngClass) (o : Op) : Prop where
  walked : Walked u.s s
  ops : t.ops = u.s.ops ++ [o]
  own : o.gid = u.g.gid ∧ o.sid = u.p.sid ∧ o.agent = u.p.agent ∧ o.before = u.p.before ∧ o.ctx = u.g.ctx ∧
    o.grid = u.g.grid ∧ o.team = u.g.team ∧ o.core = u.g.core ∧ o.sup = u.g.inHandler
  group : groupOf t u.g.gid =
    some { u.g with eng := u.g.eng ++ (cls.map fun c => { cls := c, op := o.id, done := false }).toList }
  groups : ∀ n, n ≠ u.g.gid → groupOf t n = groupOf u.s n
  rest : { t with ops := s.ops, groups := s.groups, nextId := s.nextId } = s

/-- The operands of LD and LDS are allowed (14 R253, R259; 22 R353, R356). -/
def loadOk (u : Iss) (w : Width) (f : MFmt) (shape : Nat) (spaces : List (BitVec 4)) : Bool :=
  let scal := isScalar f.d
  spaces.contains f.space && f.d != .zero && dstOk u.g (w == .b64) f.d && addrOk u.g (!scal) f &&
    !(scal && guardIsVector f.h.guard) &&
    (shape == 0 || (shapeAddrOk f && w == .b32 && (match f.d with
      | .v _ => true
      | _ => false))) && !fabricIllegal u f (resultLanes u f.h f.d)

/-- The operands of ST and STS are allowed (23 R384, R386). -/
def storeOk (u : Iss) (w : Width) (f : MFmt) (shape : Nat) (spaces : List (BitVec 4)) : Bool :=
  let wide := w == .b64
  spaces.contains f.space && f.d == .zero &&
    (match f.c with
     | .imm => !wide && shape == 0
     | .zero => true
     | .l _ | .bad _ => false
     | .o n => !wide && decide (n.val < 8)
     | c => vsOk u.g wide c) && addrOk u.g true f && (shape == 0 || (shapeAddrOk f && w == .b32)) &&
    !fabricIllegal u f (active u).toList

/-- The elements a store writes: each lane's value, and of the lanes that name one place the highest alone (09 R176). -/
def storeElems (u : Iss) (w : Width) (f : MFmt) (ps : List LanePlace) : List Elem :=
  lastWriters (ps.map fun p =>
    { mkElem p.1 (spaceOf f.space) p.2.1 p.2.2 (widthBytes w) with
      data := BitVec.ofNat 64 (readNat u (f.disp.zeroExtend 64) (w == .b64) f.c p.1 % 256 ^ widthBytes w) })

/-- A write of value `v` to `n` bytes at `pa`, and to no other byte. -/
def Wrote (s t : State) (pa n v : Nat) : Prop :=
  physRead t pa n = v % 256 ^ n ∧ ∀ x, (x < pa ∨ pa + n ≤ x) → memRead t.mem x = memRead s.mem x

/-- Element `k` of operation `o` is next to be performed: pending, in no scratchpad, ready (09 R175 to R184), and no element
before it is pending (08 R172). -/
def elemNext (s : State) (o : Op) (k : Nat) (e : Elem) : Bool :=
  o.elems[k]? == some e && e.st == .pending && e.space != .scratch && elemReady s o e &&
    !((o.elems.take k).any fun x => x.st == .pending)

/-- The same of an element in scratchpad. -/
def spadNext (s : State) (o : Op) (k : Nat) (e : Elem) : Bool :=
  o.elems[k]? == some e && e.st == .pending && e.space == .scratch && elemReady s o e &&
    !((o.elems.take k).any fun x => x.st == .pending)

/-- Where element `e` acts, and the state its translation leaves: as translated at issue, or by a late translation that no
parked request holds up (08 R173). -/
def Reaches (s : State) (o : Op) (e : Elem) (pa : Nat) (s1 : State) : Prop :=
  if o.lateTranslated then
    behindParked s o e = false ∧ ∃ c, ctxOf s o.ctx = some c ∧ translateLate s o c e = (.ok pa, s1)
  else pa = e.pa.getD 0 ∧ s1 = s

/-- The byte at `x` lies in no element of a list. -/
def outside (es : List Elem) (x : Nat) : Prop := ∀ e ∈ es, x < e.pa.getD 0 ∨ e.pa.getD 0 + e.size ≤ x

/-- Two elements share no byte. -/
def apart (a b : Elem) : Prop := a.pa.getD 0 + a.size ≤ b.pa.getD 0 ∨ b.pa.getD 0 + b.size ≤ a.pa.getD 0

/-- Two elements share no byte of scratchpad. -/
def spadApart (a b : Elem) : Prop := a.va.toNat + a.size ≤ b.va.toNat ∨ b.va.toNat + b.size ≤ a.va.toNat

/-- The `n` bytes at an offset are all the team's own, and touch no barrier object that has been named. -/
def plainSpad (s : State) (tid off n : Nat) : Prop :=
  handedAway s tid off n = false ∧ ∀ x, named s tid x = true → x + 16 ≤ off ∨ off + n ≤ x

/-- The value of a place once the elements of a list have acted on it, one after another, from the value `v` (08 R172); `e`
stands for an element that does not exist. -/
def placeValue (o : Op) (e : Elem) (v : Nat) (js : List Nat) : Nat :=
  js.foldl (fun v j =>
    let x := (o.elems[j]?).getD e
    rmwValue x.u x.op v x.data.toNat x.data2.toNat % 256 ^ e.size) v

/-- Element `k` of operation `id` in `t`. -/
def elemAt? (t : State) (id k : Nat) : Option Elem := (opOf t id).bind fun o => o.elems[k]?

/-- The returned values of an access are in its destination: each good element's value in its lane, and no other lane or
register of the group has changed. -/
def Returned (g g' : Group) (d : Opnd) (wide : Bool) (es : List (Nat × Nat)) : Prop :=
  (isScalar d = true → ∀ e, es = [e] → g'.sregs = (writeScalarNat g wide d e.2).sregs) ∧
  (isScalar d = false → ∀ e ∈ es, e.1 < 64 → regHeld g d = true →
    regWord g' d e.1 = BitVec.ofNat 32 e.2 ∧
      (wide = true → regHeld g (opPlus d 1) = true → regWord g' (opPlus d 1) e.1 = BitVec.ofNat 32 (e.2 / 2 ^ 32))) ∧
  (isScalar d = false → ∀ l < 64, (∀ e ∈ es, e.1 ≠ l) → ∀ o, regWord g' o l = regWord g o l) ∧
  (∀ o, o ≠ d → (wide = true → o ≠ opPlus d 1) → ∀ l, regWord g' o l = regWord g o l) ∧
  g'.status = g.status ∧ g'.srctr = g.srctr ∧ g'.splits = g.splits

/-! ## Sweeps (07 R153, R154; 14 R270) -/

/-- The sweep forms that compute by lane. -/
inductive SweepOp where
  | fadd (t : FloTy) | fmul (t : FloTy) | fma (t : FloTy) | cvt (c : CvtTy) | fquant (t : FloTy) | macc (m : MaccTy)
  deriving DecidableEq, Repr

def SweepOp.instr (o : SweepOp) (f : SFmt) : Instr :=
  match o with
  | .fadd t => .faddSweep t f | .fmul t => .fmulSweep t f | .fma t => .fmaSweep t f | .cvt c => .cvtSweep c f
  | .fquant t => .fquantSweep t f | .macc m => .maccSweep m f

/-- The operands of a sweep form are allowed (14 R256; 20 R314; 21 R323, R333; 22 R362). -/
def SweepOp.legal (o : SweepOp) (f : SFmt) : Bool :=
  sOk false f.d && sOk false f.a &&
  match o with
  | .cvt _ => true
  | .macc m => if MaccTy.isScaled m then sOk false f.b else f.b == .zero
  | .fquant _ => sOk false f.b && f.mb == 0#4
  | _ => sOk false f.b

/-- The segments of iteration `n`: destination, A and, where the form has it, B (07 R153). -/
def SweepOp.segs (o : SweepOp) (u : Iss) (f : SFmt) (n : Nat) : List Seg :=
  let d := segOff u f.d f.stepD n
  let a := segOff u f.a f.stepA n
  let b := segOff u f.b f.stepB n
  match o with
  | .cvt c => [(d, cw (cvtDest f.mod)), (a, cw c)]
  | .macc m => [(d, maccPos m), (a, 1)] ++ (if MaccTy.isScaled m then [(b, 1)] else [])
  | _ => [(d, 1), (a, 1), (b, 1)]

/-- The sources that may name a map, in order A, B, C; the addend of FMA stands in the destination's segment. -/
def SweepOp.sources (o : SweepOp) (f : SFmt) : List Src :=
  match o with
  | .fadd t => FloatOp.sources .fadd t (sweepR f) | .fmul t => FloatOp.sources .fmul t (sweepR f)
  | .fma t => FloatOp.sources .fma t (sweepR f)
  | .cvt c => [{ o := .zero, sel := f.ma.toNat, tb := f.ta, t := c }]
  | .fquant t => [{ o := .zero, sel := f.ma.toNat, tb := f.ta, t := floCvt t, n := t.positions }]
  | .macc m => [maccSrc m .zero f.ma f.ta]

/-- The sources of iteration `n`, read from their segments. -/
def SweepOp.read (o : SweepOp) (u : Iss) (f : SFmt) (n : Nat) : List RSrc :=
  let x := o.segs u f n
  (([x.getD 1 (0, 0), x.getD 2 (0, 0), x.getD 0 (0, 0)].zip (o.sources f))).map fun y => segSrc u y.1 y.2

/-- Lane `l` of iteration `n`: the value for its destination, and what the lane gathered. -/
def SweepOp.lane (o : SweepOp) (u : Iss) (f : SFmt) (n l : Nat) : Nat × Lane :=
  let E := rEnv f.h u.p.fmt u.g.srseed
  let js := mapLanes u
  let xs := o.read u f n
  let d := (o.segs u f n).getD 0 (0, 0)
  let b := (o.segs u f n).getD 2 (0, 0)
  let L := Lane.start (u.g.srctr.get l)
  let float (x : FloatOp) (t : FloTy) : Nat × Lane :=
    let c := fetchSources E js xs l L
    packLanes (fmtOf t).w t.positions (fun p L => x.position t 0 E (c.1.map fun y => y.getD p 0) L) c.2
  match o with
  | .fadd t => float .fadd t
  | .fmul t => float .fmul t
  | .fma t => float .fma t
  | .cvt c =>
    let x := fetchElem E js 0 (xs.getD 0 (segSrc u (0, 0) { o := .zero, t := c })) l 0 L
    cvtLane c (cvtDest f.mod) E x.1 (segVal u d l) (cvtPos f.mod) x.2
  | .fquant t =>
    let x := fetchAll E js 0 (xs.getD 0 (segSrc u (0, 0) { o := .zero, t := floCvt t })) l L
    quantLane t (quantFmt f.mod) E x.1 (segWord u b 0 l) (segWord u d 0 l) (cvtPos f.mod) x.2
  | .macc m =>
    match mapView u.g u.p.fmt f.ma.toNat with
    | none => (0, L)
    | some view =>
      maccLane E js m f.mod
        { view, sel := f.ma.toNat, tb := f.ta, src := segWord u ((o.segs u f n).getD 1 (0, 0)) 0,
          scales := if MaccTy.isScaled m then some (segWord u b 0) else none, add := fun p i => segWord u d p i } l L

/-- A team's scratchpad, and that of handles, keep the canonical form. -/
def SpadsOk (s : State) : Prop :=
  (∀ t ∈ s.teams, memWf t.spad = true) ∧ ∀ h ∈ s.handles, memWf h.bytes = true

/-- From `s` to `t` iteration `n` of a sweep has written the words of `out` to its destination's segments in the active
lanes, and nothing else but flags and counters; the next iteration is due, or the sweep is over (07 R154, 14 R270). -/
structure Swept (u : Iss) (s : State) (n : Nat) (d : Seg) (out : Nat → Nat × Lane) (t : State) : Prop where
  words : ∀ l ∈ (active u).toList, ∀ p < d.2,
    spadRead t u.g.team (d.1 + 256 * p + 4 * l) 4 = (out l).1 / 2 ^ (32 * p) % 2 ^ 32
  bytes : ∀ x, handedAway s u.g.team x 1 = false →
    (∀ l ∈ (active u).toList, ∀ p < d.2, x < d.1 + 256 * p + 4 * l ∨ d.1 + 256 * p + 4 * l + 4 ≤ x) →
    spadRead t u.g.team x 1 = spadRead s u.g.team x 1
  teams : ∀ k, k ≠ u.g.team → teamOf t k = teamOf s k
  machine : { t with groups := s.groups, teams := s.teams } = s
  groups : ∀ k, k ≠ u.g.gid → groupOf t k = groupOf s k
  group : ∃ g' p', groupOf t u.g.gid = some g' ∧ splitOf g' u.p.sid = some p' ∧
    { g' with status := u.g.status, srctr := u.g.srctr, splits := u.g.splits, lclk := u.g.lclk, round := u.g.round,
              bpDue := u.g.bpDue } = u.g ∧
    (∀ k < 6, g'.status.getLsbD k = (u.g.status.getLsbD k || (active u).toList.any fun l => (out l).2.flags.getLsbD k)) ∧
    (∀ l < 64, g'.srctr.get l = if (active u).has l then (out l).2.ctr else u.g.srctr.get l) ∧
    (∀ k, k ≠ u.p.sid → splitOf g' k = splitOf u.g k) ∧
    if n + 1 < sweepCount u.i then
      p' = { u.p with sweep := some (u.i, n + 1) } ∧ g'.lclk = u.g.lclk ∧ g'.bpDue = u.g.bpDue
    else Advanced { u with p := { u.p with sweep := none, swpidx := 0 } } p' (u.p.pc + 16#64) ∧ g'.lclk = u.g.lclk + 1#64 ∧
      g'.bpDue = breakOwed u u.g.bpDue p'.pc

/-- Split `sp` of group `g` is in a sweep whose iteration `n` may run: the group runs and is not to halt, the split is not halted
and waits for no load, and no other split of the group is in a handler. -/
def sweepDue (s : State) (g sp n : Nat) (u : Iss) : Prop :=
  u.s = s ∧ groupOf s g = some u.g ∧ splitOf u.g sp = some u.p ∧ ctxOf s u.g.ctx = some u.ctx ∧ u.p.sweep = some (u.i, n) ∧
  n < sweepCount u.i ∧ u.g.running = true ∧ u.g.haltReq = false ∧ u.p.halted = false ∧ shadowBlocks u.g sp = false ∧ waitsForLoad u = false

/-- Every split of the grid whose .DEV phase is complete waits for a harvest that is still out: none is to be woken (09 R189). -/
def phasesHeld (s : State) (grid : Nat) : Prop := ∀ x ∈ phasesDue s grid, harvestOut s grid x.2.2.key = true

/-- No barrier object that has been named stands in a segment. -/
def noObjectIn (u : Iss) (d : Seg) : Prop :=
  ∀ x ∈ (teamOfIss u).objs, x.latent = none → x.off + 16 ≤ d.1 ∨ d.1 + 256 * d.2 ≤ x.off

/-! ## Map slots and the latent stage (07 R135 to R157) -/

/-- Element `j` of row `i` of an image whose bytes are `bs` (07 R136): 16-bit elements, bytes, or nibbles. -/
def imageElem (sf : Nat) (bs : List Byte) (i j : Nat) : Nat :=
  let b (k : Nat) : Nat := (bs.getD k 0#8).toNat
  match sf with
  | 0 | 1 => b (128 * i + 2 * j) + 256 * b (128 * i + 2 * j + 1)
  | 4 => b (32 * i + j / 2) / 16 ^ (j % 2) % 16
  | _ => b (64 * i + j)

/-- A physical slot holds an image, transposed or not: its elements by row, and scales 2i + b, which are 1 where the format
has none (07 R136, R140). -/
def HoldsImage (q : PhysSlot) (sf : Nat) (transposed : Bool) (bs : List Byte) : Prop :=
  (∀ i < 64, ∀ j < 64, q.elems.getD (64 * i + j) 0#16 =
    BitVec.ofNat 16 (if transposed then imageElem sf bs j i else imageElem sf bs i j)) ∧
  ∀ k < 128, q.scales.getD k 0#8 = if sfmtScaled sf then bs.getD (64 * sfmtRowBytes sf + k) 0#8 else 0x7F#8

/-- A run of `n` registers from `d` holds `val`, 32 bits a register, in the lanes of `act`; no other register has changed. -/
structure RunWritten (g g' : Group) (d : Opnd) (n : Nat) (act : Lanes) (val : Nat → Nat) : Prop where
  run : ∀ p < n, regHeld g (opPlus d p) = true → ∀ l < 64,
    regWord g' (opPlus d p) l =
      if act.has l then BitVec.ofNat 32 (val l / 2 ^ (32 * p)) else regWord g (opPlus d p) l
  kept : ∀ o, (∀ p < n, o ≠ opPlus d p) → ∀ l, regWord g' o l = regWord g o l
  held : ∀ o, regHeld g' o = regHeld g o

/-- What MACC reads. -/
def maccIn (u : Iss) (ty : MaccTy) (f : RFmt) (view : MapView) : MaccIn :=
  { view, sel := f.ma.toNat, tb := f.ta, src := readNat u 0#64 false f.a,
    scales := if MaccTy.isScaled ty then some (readNat u 0#64 false f.b) else none,
    add := fun p => readNat u 0#64 false (opPlus f.c p) }

/-- Lane `l` of MACC (07 R150). -/
def maccOut (u : Iss) (ty : MaccTy) (f : RFmt) (view : MapView) (l : Nat) : Nat × Lane :=
  maccLane (rEnv f.h u.p.fmt u.g.srseed) (mapLanes u) ty f.mod (maccIn u ty f view) l (Lane.start (u.g.srctr.get l))

/-- What MACC leaves: each position's sums in the run of the destination in the active lanes, flags and counters; the run enters
the ring in order, even where no lane is active (05 R100). -/
def MaccLeaves (u : Iss) (ty : MaccTy) (f : RFmt) (view : MapView) (t : State) : Prop :=
  let ls := (active u).toList
  ∃ g' p', Stepped u t g' p' ∧ Advanced u p' (u.p.pc + 16#64) ∧
    RunWritten u.g g' f.d (maccPos ty) (active u) (fun l => (maccOut u ty f view l).1) ∧ g'.sregs = u.g.sregs ∧
    (∀ k < 6, g'.status.getLsbD k = (u.g.status.getLsbD k ||
      ls.any (fun l => (maccOut u ty f view l).2.flags.getLsbD k) || (latchLost u [f.a] && fLatchLost.getLsbD k))) ∧
    (∀ l < 64, g'.srctr.get l = if (active u).has l then (maccOut u ty f view l).2.ctr else u.g.srctr.get l) ∧
    (4 * u.g.core + u.g.quarter < u.s.rings.length →
      ringOf t u.g.core u.g.quarter =
        (((List.range (maccPos ty)).reverse.map fun p =>
          enteredLatch u (wholeResult g' (opPlus f.d p) ls fun l => (maccOut u ty f view l).1 / 2 ^ (32 * p))) ++
          ringOf u.s u.g.core u.g.quarter).take 4)

/-- Lane `l` of an LDL whose rows' bytes are `bs` (07 R157). -/
def ldlOut (E : REnv) (js : List MapLane) (f : MFmt) (view : MapView) (bs : List Byte) (ctrs : LaneVec) (l : Nat) : Nat × Lane :=
  if ldlX f.mod then expandLane E js f.mod view f.ma.toNat f.ta bs l (Lane.start (ctrs.get l))
  else (absorbLane f.mod bs l, Lane.start (ctrs.get l))

/-! ## Barrier objects (08 R165 to R170) -/

/-- One completion of the loop of R166. -/
def Bar.complete (b : Bar) : Bar :=
  { b with phase := (b.phase + 1) % 2 ^ 16, landed := if b.carry then b.landed - b.expbytes else 0, arr := b.ahead,
           ahead := 0 }

/-- The completion check of R166 leaves `c` of `b`, having completed the phases of the list in order. -/
inductive Settles : Bar → Bar → List Nat → Prop where
  | stop (b : Bar) : (b.exp = 0 ∧ b.expbytes = 0) ∨ ¬ (b.exp ≤ b.arr ∧ b.expbytes ≤ b.landed) → Settles b b []
  | turn (b c : Bar) (ps : List Nat) : ¬ (b.exp = 0 ∧ b.expbytes = 0) → b.exp ≤ b.arr → b.expbytes ≤ b.landed →
      Settles b.complete c ps → Settles b c (b.phase :: ps)

/-- From `s` to `t` the object at `off` has been named: one not named before, which stores may have built, holds what the checks
after those stores have left, which is kept beside its bytes where it differs from their own check (log 53). Nothing but the
object has changed. -/
structure Met (s t : State) (tid off : Nat) : Prop where
  kept : named s tid off = true → t = s
  checked : named s tid off = false → handedAway s tid off 16 = false → (objOf s tid off).latent = none →
    ∃ ps, Settles (barAt s tid off) (barAt t tid off) ps
  latent : named s tid off = false → handedAway s tid off 16 = false → ∀ v, (objOf s tid off).latent = some v →
    (∃ tm, teamOf s tid = some tm) → barAt t tid off = Bar.ofNat v
  now : (∃ tm, teamOf s tid = some tm) → handedAway s tid off 16 = false → named t tid off = true
  bytes : ∀ x, handedAway s tid x 1 = false → (x < off ∨ off + 16 ≤ x) → spadRead t tid x 1 = spadRead s tid x 1
  teams : ∀ k, k ≠ tid → handedAway s tid off 16 = false → teamOf t k = teamOf s k
  rest : { t with teams := s.teams, handles := s.handles } = s

/-- The team's reductions are not buffered for harvest (12 R233). -/
def plainGrid (s : State) (grid : Nat) : Prop := (gridOf s grid).map (fun g => g.desc.repro) ≠ some true

/-- From `s` to `t` the object at `off` has become `b` and the completion check has followed: it wakes the splits that wait
on a phase that is completed now, or was in some turn of the check; those of a reproducible group are not stated here. No
register, no other byte of scratchpad and no byte of memory has changed. -/
structure BarPut (s t : State) (tid off : Nat) (b : Bar) : Prop where
  object : ∃ c ps, Settles b c ps ∧ barAt t tid off = c ∧
    ∀ g p ph, groupOf s g.gid = some g → g.team = tid → g.place = .resident → g.repro = false → p ∈ g.splits →
      p.state = .waitPhase off ph none →
      ∃ g' p', groupOf t g.gid = some g' ∧ splitOf g' p.sid = some p' ∧
        p'.state = if c.completed ph ∨ ph ∈ ps then .ready else p.state
  registers : ∀ n g, groupOf s n = some g → ∃ g', groupOf t n = some g' ∧ g'.vregs = g.vregs ∧ g'.oregs = g.oregs ∧
    g'.sregs = g.sregs ∧ g'.status = g.status ∧ g'.srctr = g.srctr ∧ g'.splits.map Split.pc = g.splits.map Split.pc
  mem : t.mem = s.mem ∧ t.rings = s.rings ∧ t.ops = s.ops
  bytes : ∀ x, handedAway s tid x 1 = false → (x < off ∨ off + 16 ≤ x) → spadRead t tid x 1 = spadRead s tid x 1
  teams : ∀ k, k ≠ tid → teamOf t k = teamOf s k

/-- A barrier instruction reaches its object: operand kinds, guard, the object's checks, and older accesses to it (08 R167,
20 R297). -/
def barrierOk (u : Iss) (f : RFmt) : Bool :=
  sOk false f.a && !guardIsVector f.h.guard && scalarGuard u.g f.h.guard && (objTrap u (barOff u f)).isNone &&
    spadReady u (barOff u f) 16

/-- From `s` to `t` only core `c`'s L1 has lost its lines, if at all: those of an acquire at DEV scope when `dev` (09 R182). -/
def Acquired (s t : State) (c : Nat) (dev : Bool) : Prop :=
  if dev then t = acquireDev s c else t = s

/-! ## Copies (08 R161 to R164) -/

/-- The command that COPY makes obeys the limits of its kind (08 R162; 13 R241; 20 R309). -/
def copyLimits (u : Iss) (f : RFmt) : Bool :=
  let b := copyBlk u f.a
  let k := copyKindCode f
  let caddr := if f.c = .zero then 0#64 else readPair u f.c 0
  let fab := copyFabric u.ctx (copySsp f) b.src b.sstride b || copyFabric u.ctx (copyDsp f) b.dst b.dstride b
  !(b.reserved || b.rowBytes == 0 || b.rows == 0 ||
    (copySsp f && bits b.src 32 32 != 0) || (copyDsp f && bits b.dst 32 32 != 0) ||
    (k != 0 && (fab || fabricRun u.ctx caddr (if k = 2 then 0x108 else 8))) || !copyKindOk f b ||
    (k == 0 && !copyIsC3 f fab && f.c != .zero) || (u.g.checked && (k == 1 || k == 3 || fab)))

/-- The class of the command. -/
def copyClass (u : Iss) (f : RFmt) : EngClass :=
  let b := copyBlk u f.a
  if copyIsC3 f (copyFabric u.ctx (copySsp f) b.src b.sstride b || copyFabric u.ctx (copyDsp f) b.dst b.dstride b) then .c3 else .c1

/-- A command is no longer in flight, its counter has counted it off, and nothing else has changed. -/
def CopyDone (s t : State) (c : Copy) : Prop :=
  (∀ x, x ∈ t.copies ↔ x ∈ s.copies ∧ x.cid ≠ c.cid) ∧ t.mem = s.mem ∧ t.ops = s.ops ∧
    (∀ n, n ≠ c.gid → groupOf t n = groupOf s n) ∧
    (∀ g, groupOf s c.gid = some g → groupOf t c.gid = some (engDone g c.cid)) ∧
    { t with copies := s.copies, groups := s.groups } = s

/-! ## Tasks and futures (04 R77 to R96) -/

/-- The operands of SPAWN are allowed (23 R395). -/
def spawnOk (u : Iss) (f : RFmt) : Bool :=
  let j := f.mod.getLsbD 3
  taskDst u.g f.d && vsOk u.g true f.a && payloadOk u.g (bits f.mod 0 3) f.b && joinOk u.g j f.c &&
    (!f.mod.getLsbD 4 || sOk false (opndOfCode (bits f.imm 0 10))) && !u.g.checked &&
    !((active u).toList.any fun l => inFabric u.ctx (readPair u f.a l) || (j && inFabric u.ctx (readPair u f.c l)))

/-- The operands of FREG are allowed (21 R340). -/
def fregOk (u : Iss) (f : RFmt) : Bool :=
  let j := f.mod.getLsbD 3
  taskDst u.g f.d && vsOk u.g true f.a && vsOk u.g true f.b && joinOk u.g j f.c &&
    payloadOk u.g (bits f.mod 0 3) (opndOfCode (bits f.imm 0 10)) && !u.g.checked &&
    !((active u).toList.any fun l =>
      inFabric u.ctx (readPair u f.a l) || inFabric u.ctx (readPair u f.b l) || (j && inFabric u.ctx (readPair u f.c l)))

/-- No lane's address in operand `c` breaks its alignment. -/
def alignedTo (u : Iss) (c : Opnd) (n : Nat) (ls : List Nat) : Bool := ls.all fun l => (readPair u c l).toNat % n == 0

/-- From `s` to `t` only walks and reads of memory have happened. -/
def OnlyRead (s t : State) : Prop := Walked s { t with freeCtr := s.freeCtr }

/-- The split has sent a request `o` and waits for its reply; nothing else has changed behind the walks and reads. -/
def Asked (u : Iss) (t : State) (o : Op) : Prop :=
  t.ops = u.s.ops ++ [o] ∧ o.gid = u.g.gid ∧ o.agent = u.p.agent ∧ o.grid = u.g.grid ∧ o.core = u.g.core ∧ o.rel = true ∧
    groupOf t u.g.gid = some (setSplit u.g { u.p with awaiting := some o.id }) ∧
    (∀ n, n ≠ u.g.gid → groupOf t n = groupOf u.s n) ∧
    OnlyRead u.s { t with ops := u.s.ops, groups := u.s.groups, nextId := u.s.nextId }

/-- Record `r` is filed (04 R84): in the pan bound to its entry and grid, else in the first unbound pan, whose timer
starts, while the Rake has room; else at the end of its context's brine queue, while that has room; else it is not. -/
def Filed (s : State) (core : Nat) (r : ThreadRec) (out : Option State) : Prop :=
  let c := coreOf s core
  let bound := c.pans.findIdx? fun p => match p with
    | some x => x.grid == r.grid && x.entry == r.entry
    | none => false
  let free := c.pans.findIdx? Option.isNone
  let brine : Prop := match ctxOf s r.ctx with
    | none => out = none
    | some x => if x.brine.length < x.brineCap then out = some (setCtx s { x with brine := x.brine ++ [r] }) else out = none
  if rakeCount c < 4096 then
    match bound, free with
    | some i, _ => ∃ p, c.pans[i]? = some (some p) ∧
        out = some (setCore s core { c with pans := c.pans.set i (some { p with recs := p.recs ++ [r] }) })
    | none, some i =>
      let p : Pan := { grid := r.grid, entry := r.entry, recs := [r], timerStart := s.clock.toNat, expired := false }
      out = some (setCore s core { c with pans := c.pans.set i (some p) })
    | none, none => brine
  else brine

/-- The release of a record (04 R95): nothing once its grid has completed; else it is no longer an orphan when `counted`,
and is filed on the releasing core, or sends the decrement of its gate. `fut`: the physical address of the future. -/
def Released (s : State) (o : Op) (fut : Nat) (counted : Bool) (r : ThreadRec) (t : State) : Prop :=
  if gridLive s r.grid then
    ∃ s1, s1 = (if counted then updGrid s r.grid fun g => { g with orphans := g.orphans - 1 } else s) ∧
      if r.gated then
        ∃ x e, t.ops = s1.ops ++ [x] ∧ x.kind = .gate { r with lt := o.lt } fut ∧ x.elems = [e] ∧ e.va = r.join ∧ e.size = 4 ∧
          e.data = 0xFFFF_FFFF#64 ∧ x.grid = r.grid ∧ x.gid = o.gid ∧ x.core = o.core ∧ { t with ops := s1.ops, nextId := s1.nextId } = s1
      else t = fileOrDefer s1 o.core fut { r with lt := o.lt }
  else t = s

/-- The records released one after another. -/
inductive ReleasedAll (o : Op) (fut : Nat) : State → List ThreadRec → State → Prop where
  | nil (s : State) : ReleasedAll o fut s [] s
  | cons (s t v : State) (r : ThreadRec) (rs : List ThreadRec) :
      Released s o fut true r t → ReleasedAll o fut t rs v → ReleasedAll o fut s (r :: rs) v

/-- One registration of record `r` at the future at `pa` (04 R95): refused with 3 in the reserved state; released at once, with
1, when the future is resolved; refused with 2 when the block is full; else 0, and the record is the last of the block. -/
def Registered (s : State) (o : Op) (pa : Nat) (r : ThreadRec) (res : Nat) (t : State) : Prop :=
  let w := physRead s pa 8
  let n := w / 4 % 2 ^ 14
  if w % 4 = 3 then res = 3 ∧ t = s
  else if w % 4 = 2 then res = 1 ∧ Released s o pa false r t
  else if 1024 ≤ n then res = 2 ∧ t = s
  else res = 0 ∧ Wrote s t pa 8 (w / 2 ^ 16 * 2 ^ 16 + (n + 1) * 4 + 1) ∧
    (blockOf t pa).recs = (blockOf s pa).recs.take n ++ [r] ∧
    (∀ g, gridOf s r.grid = some g → gridOf t r.grid = some { g with orphans := g.orphans + 1 }) ∧
    { t with mem := s.mem, badGranules := s.badGranules, cores := s.cores, blocks := s.blocks, grids := s.grids } = s

/-- The registrations of the lanes of an FREG that name one future, in consecutive places (21 R341): each element takes its
result. `rs`: the lanes' records. -/
inductive RegisteredAll (o : Op) (rs : List ThreadRec) (pa : Nat) : State → List Nat → State → Prop where
  | nil (s : State) : RegisteredAll o rs pa s [] s
  | cons (s t v : State) (j res : Nat) (js : List Nat) (x : Elem) (r : ThreadRec) : o.elems[j]? = some x →
      rs[j]? = some r → Registered s o pa r res t →
      RegisteredAll o rs pa
        (setElem t ((opOf t o.id).getD o) j { x with st := .done, res := BitVec.ofNat 64 res }) js v →
      RegisteredAll o rs pa s (j :: js) v

/-! ## Pages (10 R192 to R201) -/

/-- A walk that ends at leaf `e`, which stands at `pa`, sets its A bit where it is clear (10 R195); into an uncorrectable granule
it writes nothing, and the event is logged (R205; log 54). -/
def LeafSeen (s : State) (c : Context) (pa : Nat) (e : DWord) (t : State) : Prop :=
  if pteA e then t = s
  else match badGranule? s pa 8 with
  | none => t = physWrite s pa 8 (e.toNat + 0x80)
  | some b => t = report s
      { ctx := c.num, link := .log, body := blankRec s 0 .memoryUncorrectable 4 0#64 (BitVec.ofNat 64 b) }

/-- One lane of PGMAP (10 R201): 3 where the address is malformed or a table above the leaf is missing, 2 where a mapping
stands, 1 where the pool is empty; else 0, with the last frame of the pool taken, zeroed and mapped. An entry in an
uncorrectable granule is not written: the frame goes back, the result is 2 and the event is logged (log 75). -/
def Mapped (s : State) (c : Context) (va : DWord) (rw : Bool) (r : Nat) (t : State) : Prop :=
  if bits va 57 7 ≠ 0 ∨ inFabric c va = true then r = 3 ∧ t = s
  else match walk s c.ptroot va.toNat with
  | .leaf _ pa e => r = 2 ∧ LeafSeen s c pa e t
  | .malformed .. => r = 3 ∧ t = s
  | .invalid l pa =>
    let n := physRead s c.pool 8
    if l < 3 then r = 3 ∧ t = s
    else if n = 0 then r = 1 ∧ t = s
    else
      let f := bits (BitVec.ofNat 64 (physRead s (c.pool + 64 + 8 * (n - 1)) 8)) 16 36 * 0x1_0000
      let s1 := physZero (physWrite s c.pool 8 (n - 1)) f 0x1_0000
      match badGranule? s1 pa 8 with
      | none => r = 0 ∧ t = physWrite s1 pa 8 (0x47 + (if rw then 8 else 0) + f)
      | some b => r = 2 ∧ t = report (physWrite s1 c.pool 8 (physRead s1 c.pool 8 + 1))
          { ctx := c.num, link := .log, body := blankRec s1 0 .memoryUncorrectable 4 0#64 (BitVec.ofNat 64 b) }

/-- The lanes of a PGMAP one after another. -/
inductive MappedAll (c : Context) (va : Nat → DWord) (rw : Bool) : State → List Nat → List (Nat × Nat) → State → Prop where
  | nil (s : State) : MappedAll c va rw s [] [] s
  | cons (s t v : State) (l r : Nat) (ls : List Nat) (rs : List (Nat × Nat)) :
      Mapped s c (va l) rw r t → MappedAll c va rw t ls rs v → MappedAll c va rw s (l :: ls) ((l, r) :: rs) v

/-! ## The end of work, and launches (01 R20 to R31, 12 R220 to R224) -/

/-- The status of highest precedence (01 R31). -/
def statusOf (x : Grid) : Nat :=
  if x.faulted then 4 else if x.invalid then 3 else if x.admission then 2 else if x.lost then 1
  else if 0 < x.orphans then 5 else 0

/-- The packet of grid `x` of a queue, `i` behind HEAD, has a grid that is complete. -/
def packetDone (s : State) (q : Queue) (i : Nat) : Prop :=
  ∃ g ∈ s.grids, g.queue = q.num ∧ g.slot = (q.head + i) % 2 ^ 64 ∧ g.phase = .complete

/-- From `s` to `t` grid `x` is complete and HEAD of its queue has passed every leading packet whose grid is (12 R224). -/
def Completed (s : State) (x : Grid) (q : Queue) (t : State) : Prop :=
  let s1 := setGrid s { x with phase := .complete }
  ∃ n, (∀ i < n, packetDone s1 q i) ∧ (n < s.grids.length → ¬ packetDone s1 q n) ∧
    queueOf t q.num = some { q with head := (q.head + n) % 2 ^ 64 } ∧
    (0 < n → physRead t (q.base + 8) 8 = (q.head + n) % 2 ^ 64) ∧
    (∀ a, (n = 0 ∨ a < q.base + 8 ∨ q.base + 16 ≤ a) → memRead t.mem a = memRead s.mem a) ∧
    (∀ g ∈ s1.grids, g.phase ≠ .complete → g ∈ t.grids) ∧
    { t with mem := s.mem, badGranules := s.badGranules, queues := s.queues, grids := s.grids } = s

/-- From `s` to `t` the packet of `q` whose 512 bits are `x` has been taken, with descriptor `d`, none when it is invalid: it
has a grid of the next GRIDID with the packet's fields, and the queue stands at the next packet (01 R15, R21, R24; 12 R222). -/
structure Taken (s : State) (q : Queue) (c : Context) (x : Nat) (d : Option Desc) (t : State) : Prop where
  grid : ∃ g, t.grids = s.grids ++ [g] ∧ g.uid = s.nextId ∧ g.ctx = c.num ∧ g.gridid = c.nextGrid ∧ g.queue = q.num ∧
    g.slot = q.taken ∧ g.pkt = q.base + 64 + 64 * (q.taken % 2 ^ q.k) ∧ (∀ e, d = some e → g.desc = e) ∧
    g.args.toNat = x / 2 ^ 64 % 2 ^ 64 ∧ g.teams = (if x / 2 ^ 128 % 2 ^ 32 = 0 then 2 ^ 32 else x / 2 ^ 128 % 2 ^ 32) ∧
    g.prio = x / 2 ^ 160 % 8 ∧ g.chk = x / 2 ^ 165 % 16 ∧ g.seed.toNat = x / 2 ^ 192 % 2 ^ 64 ∧
    g.done.toNat = (if x / 2 ^ 384 % 4 = 0 ∧ x / 2 ^ 441 % 2 ^ 7 = 0 then x / 2 ^ 384 % 2 ^ 64 else 0) ∧
    g.invalid = d.isNone ∧ g.nextTeam = 0 ∧ g.retired = 0 ∧ g.phase = .active ∧
    (∀ e, d = some e → (g.admission = true ↔ e.prog = 0 ∧ capacityOf s g < g.teams))
  queue : queueOf t q.num = some { q with taken := q.taken + 1 }
  context : ∀ x, ctxOf s c.num = some x →
    ctxOf t c.num = some { x with nextGrid := if c.nextGrid + 1 = 2 ^ 32 then 1 else c.nextGrid + 1 }
  rest : { t with grids := s.grids, queues := s.queues, contexts := s.contexts, nextId := s.nextId } = s

/-- A packet that the queue unit cannot read the parts of: taken as invalid, with a log-only record (12 R401). -/
def Unreadable (s : State) (q : Queue) (c : Context) (x : Nat) (f : Cause × DWord × Nat) (t : State) : Prop :=
  ∃ s1 r, Taken s q c x none s1 ∧ t = report s1 r ∧ r.ctx = c.num ∧ r.link = .log ∧ r.body.cause = f.1.code ∧
    r.body.source = 4 ∧ r.body.aux0 = f.2.1 ∧ r.body.aux1 = BitVec.ofNat 64 f.2.2 ∧ r.body.gridid = c.nextGrid

/-! ## Dispatch (01 R25 to R27, 12 R225) -/

/-- Core `c` passes the check of R25 for a team of `gr`, with its groups in quarters `qs`. -/
def Passes (s : State) (gr : Grid) (c : Nat) (qs : List Nat) : Prop :=
  coreOpen s c = true ∧ admits (roomOf s c) (descNeeds gr.desc) (roundGranule gr.desc.spad) false = some qs

/-- Core `c` is the first, from the one after the last that received a team, that passes the check (01 R26). -/
def FirstCore (s : State) (gr : Grid) (c : Nat) (qs : List Nat) : Prop :=
  ∃ k < 160, c = (s.lastCore + 1 + k) % 160 ∧ Passes s gr c qs ∧ ∀ j < k, ∀ rs, ¬ Passes s gr ((s.lastCore + 1 + j) % 160) rs

/-- Unchecked teams of a grid placed one after another, each on the first core that passes. -/
inductive PlacedAll (gr : Grid) (base : Nat) : State → List Nat → State → Prop where
  | nil (s : State) : PlacedAll gr base s [] s
  | cons (s t : State) (i c : Nat) (is qs : List Nat) : FirstCore s gr c qs →
      PlacedAll gr base (createTeam s gr i 0 c qs base) is t → PlacedAll gr base s (i :: is) t

/-- Group `g`, of GRPID `k`, `n` registers and quarter `q`, as R27 starts it in team `tm` of `gr`. -/
def StartsAs (gr : Grid) (tm : Team) (base k n q : Nat) (g : Group) : Prop :=
  g.team = tm.tid ∧ g.grid = gr.uid ∧ g.ctx = gr.ctx ∧ g.core = tm.core ∧ g.quarter = q ∧ g.grpid = k ∧
  g.teamid = tm.teamid ∧ g.gridid = gr.gridid ∧ g.nteam = BitVec.ofNat 32 gr.teams ∧ g.ngrp = gr.desc.groups0 + gr.desc.groups1 ∧
  g.role = (if k < gr.desc.groups0 then 0 else 1) ∧ g.gindex = tm.teamid * (gr.desc.groups0 + gr.desc.groups1) + k ∧
  g.vregs = List.replicate n LaneVec.zero ∧ g.oregs = List.replicate 8 LaneVec.zero ∧
  g.sregs = gr.args.extractLsb' 0 32 :: gr.args.extractLsb' 32 32 :: List.replicate 62 0#32 ∧ g.status = 0#6 ∧
  g.srseed = gr.seed ^^^ BitVec.ofNat 64 g.gindex ∧ g.srctr = LaneVec.zero ∧ g.lclk = 0#64 ∧ g.lbase = base ∧
  g.regions = [] ∧ g.phys = [] ∧ g.eng = [] ∧ g.shadow = none ∧ g.place = .resident ∧
  (∀ x ∈ g.slots, x.st = .unbound) ∧
  ∃ f, g.splits = [f] ∧ f.pc = gr.desc.code ∧ f.members = Lanes.all gr.desc.narrow ∧ f.em = f.members ∧
    f.fmt = fmtInit gr.desc.narrow ∧ f.region = none ∧ f.state = .ready ∧ f.swpidx = 0

/-- An evicted or saved group placed again: in quarter `q` of core `c`, to be resumed before it issues, its registers and
splits as they were (00 R3, 11 R217). -/
def Reseated (x : Group) (c q : Nat) (g : Group) : Prop :=
  g.core = c ∧ g.quarter = q ∧ g.place = .resident ∧ g.resume = .due ∧
  g.splits = x.splits.map (fun p => { p with halted := false }) ∧
  { g with core := x.core, quarter := x.quarter, place := x.place, haltReq := x.haltReq, resume := x.resume, splits := x.splits,
           phys := x.phys, slots := x.slots } = x

/-- `n` teams of a grid have been placed in a turn of its queue (12 R225, R226, R230). -/
def served (s : State) (gr : Grid) (n base : Nat) : State :=
  { updGrid s gr.uid (fun g =>
      { g with nextTeam := g.nextTeam + n, waveBase := base, waited := 0, aged := 0 }) with
    lastQueue := some gr.queue }

/-! ## Pre-emption (11 R214 to R217, 12 R220, R228) -/

/-- From `s` to `t` nothing has changed but that command `w` of queue `q` is acknowledged. -/
def Acked (s : State) (q : Queue) (w : DWord) (t : State) : Prop :=
  queueOf t q.num = some { q with ack := w, cmd := none } ∧ (∀ k, k ≠ q.num → queueOf t k = queueOf s k) ∧
  Wrote s t (q.base + 24) 8 w.toNat ∧
  { t with queues := s.queues, mem := s.mem, badGranules := s.badGranules } = s

/-- A harvest of a reproducible grid up to a key is over: nothing that it applied is left (09 R189). -/
def harvestOver (s : State) (grid : Nat) (key : Nat × Nat) : Bool := gridRepro s grid && !harvestOut s grid key

/-- What the re-test of a resumed group's split leaves of its state (11 R217). One whose .DEV phase is complete in a reproducible
group waits on for what the phase's harvest applied (09 R189). -/
def retested (s : State) (g : Group) (p : Split) : SplitState :=
  match p.state with
  | .waitJoin va pa seen lt => if seen || physRead s pa 4 == 0 then .ready else .waitJoin va pa seen lt
  | .waitPhase off ph none =>
    let i := (objOf s g.team off).info ph
    if (barAt s g.team off).completed ph = false then .waitPhase off ph none
    else match (if g.repro && i.dev then i.key else none) with
    | none => .ready
    | some key => if harvestOver s g.grid key then .ready else .waitPhase off ph (some { key, lt := i.lt })
  | .waitPhase off ph (some d) => if harvestOver s g.grid d.key then .ready else .waitPhase off ph (some d)
  | x => x

/-! ## Checked teams, the package, management -/

/-- Memory after the writes of a stream, in its order. -/
def streamMem (m : List Host.Cell) (items : List StreamItem) : List Host.Cell :=
  items.foldl (fun m x => memWriteBytes m (x.pa.getD 0) (natToBytes x.size x.data.toNat)) m

/-- Cores but for the requests of pre-emption that speed them up. -/
def bareCores (s : State) : List Core := s.cores.map fun k => { k with boosts := [] }

/-- Everything of a check's running copies is gone, with nothing performed (12 R236). -/
def Discarded (s : State) (k : CheckRun) (t : State) : Prop :=
  let copy (tm : Team) : Prop := tm.grid = k.grid ∧ tm.teamid = k.teamid ∧ tm.copyNo ≠ 0
  (∀ x, x ∈ t.teams ↔ x ∈ s.teams ∧ ∀ tm ∈ s.teams, copy tm → x.tid ≠ tm.tid) ∧
  (∀ g, g ∈ t.groups ↔ g ∈ s.groups ∧ ∀ tm ∈ s.teams, copy tm → g.team ≠ tm.tid) ∧
  (∀ c, c ∈ t.copies ↔ c ∈ s.copies ∧ ∀ tm ∈ s.teams, copy tm → c.team ≠ tm.tid) ∧
  t.mem = s.mem ∧ bareCores t = bareCores s ∧ t.dies = s.dies

/-- The grid has one more team to run again (00 R10). -/
def Reruns (s : State) (k : CheckRun) (checked : Bool) (t : State) : Prop :=
  ∀ g, gridOf s k.grid = some g →
    gridOf t k.grid = some { g with rerun := g.rerun ++ [(k.teamid, checked)], refused := false }

/-- Core `c` is retired: its index is vacant, its physical core retired, and no other changes (00 R6, R7). -/
def Retired (s : State) (c : Nat) (t : State) : Prop :=
  (coreOf t c).active = false ∧ (∀ i, i ≠ c → (coreOf t i).active = (coreOf s i).active) ∧
  (∀ d, s.dies[c / 40]? = some d → t.dies[c / 40]? = some { d with
    phys := d.phys.map fun m => if m = .logical (c % 40) then .retired else m }) ∧
  ∀ i, i ≠ c / 40 → t.dies[i]? = s.dies[i]?

/-- A management command has ended: STATUS is written, HEAD advances, and the driver is signalled (13 R238). -/
def Ended (s : State) (status : Nat) (t : State) : Prop :=
  ∃ base, s.mgmtBase = some base ∧ t.mgmtHead = (s.mgmtHead + 1) % 2 ^ 64 ∧ t.irqs = s.irqs ++ [s.mgmtVec] ∧
    memRead t.mem (base + 64 + 64 * (s.mgmtHead % 256) + 2) = BitVec.ofNat 8 status ∧
    physRead t (base + 8) 8 = (s.mgmtHead + 1) % 2 ^ 64 ∧
    (∀ a, a ≠ base + 64 + 64 * (s.mgmtHead % 256) + 2 → (a < base + 8 ∨ base + 16 ≤ a) → memRead t.mem a = memRead s.mem a) ∧
    { t with mgmtHead := s.mgmtHead, irqs := s.irqs, mem := s.mem, badGranules := s.badGranules } = s

/-- Instruction `i`, the next management command, ends with `status` in the state `s1` that its effect leaves. -/
def Commanded (i : Instr) (s s1 : State) (status : Nat) : Prop := ∃ t, exec i s = .next t ∧ Ended s1 status t

/-- A command ends as done with an effect `s1` when `ok` holds, else as rejected with none. -/
def Does (i : Instr) (s : State) (ok : Prop) (s1 : State) : Prop :=
  (ok → MemOk s1 → Commanded i s s1 0) ∧ (¬ ok → Commanded i s s 1)

/-- The number names a context that is not being terminated. -/
def Holds (s : State) (n : DWord) (c : Context) : Prop := ctxOf s n.toNat = some c ∧ c.terminating = false

/-! ## Invariants -/

/-- Every memory keeps its canonical form: device memory, that of other devices, and the scratchpads. -/
def MemsOk (s : State) : Prop := MemOk s ∧ memWf s.remote = true ∧ SpadsOk s

/-! ## A step that issues -/

/-- A header with no guard and no bit set but the rounding code. -/
def bareHdr (rm : BitVec 3) : Hdr := { rm, sat := false, wbs := false, hold := false, guard := .always }

/-- A body of format R with no map, MOD, immediate or third source. -/
def bareR (h : Hdr) (d a b : Opnd) : RFmt :=
  { h, d, a, b, c := .v 0, ma := 0#4, mb := 0#4, mc := 0#4, ta := false, tb := false, tc := false, mod := 0#7, imm := 0#32 }

/-- A word given as its four 32-bit words, the first at the lowest address (14 R251). -/
def wordOf (w0 w1 w2 w3 : BitVec 32) : IWord := w3 ++ w2 ++ w1 ++ w0

end Sys2Proof.Machine
end

