-- ==== Sys2Proof/Certificates/Slice0/Obligations.lean ====
section
/-!
DEFINITION. The statements for the provers: each formalises rules of spec/, which OBLIGATIONS.json cites.
-/
open Sys2Proof Sys2Proof.Machine

/-! ## The integer class -/

/-- AND, ANDN, OR, XOR, IADD, ISUB, IMUL, IMULH, IMAX and IMIN complete in every form, vector or scalar, mapped or not, and
leave the result of the table in their destination and the ring, and nothing else (20 R291, 22 R346 and R347, 23 R376). -/
def Obligations.IntegerTwoSources : Prop :=
  ∀ (o : IntBin) (t : IntTy) (f : RFmt) (s : State) (u : Iss),
    let xs := [srcA f (intCvt t) 1, srcB f (intCvt t) 1]
    issuer s (o.instr t f) = some u → clear u = true → operandsOk u f.h f.d (t.width == 64) xs = true →
    ∃ s', exec (o.instr t f) s = .next s' ∧
      Computes u f.h f.d (t.width == 64) xs f.imm
        (fun l r => o.Gives t (satEff f.h u.p.fmt) (codeOf u f.h f.imm xs 0 l) (codeOf u f.h f.imm xs 1 l) r) s'

/-- BFE, SAR, SHL and SHR complete and leave the field or the shifted value, bit by bit (20 R292, 23 R376). -/
def Obligations.IntegerFieldsAndShifts : Prop :=
  ∀ (o : IntShift) (t : IntTy) (f : RFmt) (s : State) (u : Iss),
    let xs := [srcA f (intCvt t) 1, o.second f]
    o.accepts t = true → issuer s (o.instr t f) = some u → clear u = true →
    operandsOk u f.h f.d (t.width == 64) xs = true →
    ∃ s', exec (o.instr t f) s = .next s' ∧
      Computes u f.h f.d (t.width == 64) xs f.imm
        (fun l r => o.Gives t (codeOf u f.h f.imm xs 0 l) (codeOf u f.h f.imm xs 1 l) r) s'

/-- BFI, IMAD, LEA, PRMT, SEL and SHF complete and leave the result of the table (20 R292, 22 R346 to R349, 23 R376 to
R378). -/
def Obligations.IntegerThreeSources : Prop :=
  ∀ (o : IntTri) (t : IntTy) (f : RFmt) (s : State) (u : Iss),
    let xs := o.sources t f
    o.accepts t = true → issuer s (o.instr t f) = some u → clear u = true →
    operandsOk u f.h f.d (t.width == 64) xs = true →
    ∃ s', exec (o.instr t f) s = .next s' ∧
      Computes u f.h f.d (t.width == 64) xs f.imm
        (fun l r => o.Gives t (satEff f.h u.p.fmt) (f.mod.getLsbD 6) (codeOf u f.h f.imm xs 0 l)
          (codeOf u f.h f.imm xs 1 l) (codeOf u f.h f.imm xs 2 l) r) s'

/-- BREV, CLZ, IABS and POPC complete and leave the result of the table (20 R291, 22 R346 and R347, 23 R376). -/
def Obligations.IntegerOneSource : Prop :=
  ∀ (o : IntOne) (t : IntTy) (f : RFmt) (s : State) (u : Iss),
    let xs := [srcA f (intCvt t) 1]
    issuer s (o.instr t f) = some u → clear u = true → operandsOk u f.h f.d (o.wide t) xs = true →
    ∃ s', exec (o.instr t f) s = .next s' ∧
      Computes u f.h f.d (o.wide t) xs f.imm
        (fun l r => o.Gives t (satEff f.h u.p.fmt) (codeOf u f.h f.imm xs 0 l) r) s'

/-- ICMP completes and leaves 1 where its condition holds, else 0, in one 32-bit register; IADD with a 64-bit immediate
completes and leaves the sum, the immediate in place of every IMM source; with another source B it traps OPERAND_ILLEGAL
(14 R254, 22 R347 and R348). No word with another condition code decodes to ICMP (R348). -/
def Obligations.IntegerCompareAndImmediate : Prop :=
  (∀ (t : IntTy) (f : RFmt) (s : State) (u : Iss),
    let xs := [srcA f (intCvt t) 1, srcB f (intCvt t) 1]
    issuer s (.icmp t f) = some u → clear u = true → operandsOk u f.h f.d false xs = true →
    ∃ s', exec (.icmp t f) s = .next s' ∧
      Computes u f.h f.d false xs f.imm
        (fun l r =>
          let holds := icmpHolds (bits f.mod 4 3) (intVal t (codeOf u f.h f.imm xs 0 l)) (intVal t (codeOf u f.h f.imm xs 1 l))
          (holds → r = 1) ∧ (¬ holds → r = 0)) s') ∧
  (∀ (w : IWord) (t : IntTy) (f : RFmt), decode w = .ok (.icmp t f) → bits f.mod 4 3 < 6) ∧
  (∀ (signed : Bool) (f : IFmt) (s : State) (u : Iss),
    let t : IntTy := if signed then .s64 else .b64
    let xs : List Src := [{ o := f.a, t := intCvt t }]
    issuer s (.iaddImm64 signed f) = some u → clear u = true → operandsOk u f.h f.d true xs = true →
    ∃ s', exec (.iaddImm64 signed f) s = .next s' ∧
      if f.b ≠ .imm then Rejected u .operandIllegal s' else
      Computes u f.h f.d true xs 0#32
        (fun l r =>
          Finishes t (satEff f.h u.p.fmt)
            (intVal t (if f.a = .imm then f.imm64.toNat else codeOf u f.h 0#32 xs 0 l) + intVal t f.imm64.toNat) r) s')

/-! ## The float class, conversions and random numbers -/

/-- The 17 float mnemonics complete where no NaN traps: each position's exact result rounded once, flags and counters with
it, and nothing else changed. Under NANTRAP an instruction whose lanes produce a NaN has no effect but the trap NAN_PRODUCED,
of the lanes that produced one, or of the members in scalar form (21 R320 to R330; 06 R132). The exact results of FEXP2, FLOG2,
FSINPI and FCOSPI rounded once are what the model's 512-bit method gives (log 14), and a scalar form raises its flags and takes
its trap whatever EM holds (log 83). -/
def Obligations.FloatClass : Prop :=
  (∀ (o : FloatOp) (t : FloTy) (f : RFmt) (s : State) (u : Iss),
    let xs := o.sources t f
    let ls := resultLanes u f.h f.d
    issuer s (o.instr t f) = some u → clear u = true → operandsOk u f.h f.d false xs = true →
    noNanTrap u ls (fun l => (o.lane u t f l).2) = true →
    ∃ s', exec (o.instr t f) s = .next s' ∧
      LaneEffect u f.d false (toRing f.h f.d) (lanesAct f.d ls) (xs.map Src.o) ls (fun l => (o.lane u t f l).1)
        (fun l => (o.lane u t f l).2) s') ∧
  (∀ (o : FloatOp) (t : FloTy) (f : RFmt) (s : State) (u : Iss),
    let xs := o.sources t f
    let ls := resultLanes u f.h f.d
    issuer s (o.instr t f) = some u → clear u = true → operandsOk u f.h f.d false xs = true →
    noNanTrap u ls (fun l => (o.lane u t f l).2) = false →
    ∃ r : TrapReq, r.cause = .nanProduced ∧ r.aux0 = 0#64 ∧ r.aux1 = 0#64 ∧
      (∀ l < 64, r.mask.has l = if isScalar f.d then u.p.members.has l else ls.contains l && (o.lane u t f l).2.produced) ∧
      exec (o.instr t f) s = .next (takeTrap s u.g.gid u.p.sid r))

/-- CVT completes where no NaN traps: the converted code stands in its field of the destination, the other bits as they
were, or zero under WBS (20 R311, R312). FAMAX, FQUANT and RNG complete with the values of their entries (21 R331, R332;
23 R383). -/
def Obligations.Conversions : Prop :=
  (∀ (c : CvtTy) (f : RFmt) (s : State) (u : Iss),
    let xs : List Src := [{ o := f.a, sel := f.ma.toNat, tb := f.ta, t := c }]
    let w := (cvtDest f.mod).width
    let ls := resultLanes u f.h f.d
    issuer s (.cvt c f) = some u → clear u = true → operandsOk u f.h f.d (w == 64) xs = true →
    noNanTrap u ls (fun l => (cvtCode u c f l).2) = true →
    ∃ s' val, exec (.cvt c f) s = .next s' ∧
      (∀ l ∈ ls, FieldOf (if w = 64 then 64 else 32) (if f.h.wbs then 0 else readNat u 0#64 (w == 64) f.d l)
        (w * cvtPos f.mod) w (cvtCode u c f l).1 (val l)) ∧
      LaneEffect u f.d (w == 64) (toRing f.h f.d) (lanesAct f.d ls) [f.a] ls val (fun l => (cvtCode u c f l).2) s') ∧
  (∀ (t : FloTy) (f : RFmt) (s : State) (u : Iss),
    let xs : List Src := [{ o := f.a, sel := f.ma.toNat, tb := f.ta, t := floCvt t, n := t.positions }, { o := f.b, t := .b32 }]
    let ls := resultLanes u f.h f.d
    issuer s (.fquant t f) = some u → clear u = true → quantScaleOk f = true → operandsOk u f.h f.d false xs = true →
    noNanTrap u ls (fun l => (quantOut u t f l).2) = true →
    ∃ s', exec (.fquant t f) s = .next s' ∧
      LaneEffect u f.d false (toRing f.h f.d) (lanesAct f.d ls) [f.a, f.b] ls (fun l => (quantOut u t f l).1)
        (fun l => (quantOut u t f l).2) s') ∧
  (∀ (t : FloTy) (f : RFmt) (s : State) (u : Iss),
    let xs : List Src := [{ o := f.a, sel := f.ma.toNat, tb := f.ta, t := floCvt t, n := t.positions }]
    let ls := resultLanes u f.h f.d
    issuer s (.famax t f) = some u → clear u = true → operandsOk u f.h f.d false xs = true →
    noNanTrap u ls (fun l => (famaxOut u t f l).2) = true →
    ∃ s', exec (.famax t f) s = .next s' ∧
      LaneEffect u f.d false (toRing f.h f.d) (lanesAct f.d ls) [f.a] ls (fun l => (famaxOut u t f l).1)
        (fun l => (famaxOut u t f l).2) s') ∧
  (∀ (f : RFmt) (s : State) (u : Iss),
    let xs : List Src := [{ o := f.a, t := .b32 }, { o := f.b, t := .b32 }, { o := f.c, t := .b32 }]
    issuer s (.rng f) = some u → clear u = true → operandsOk u f.h f.d false xs = true →
    ∃ s', exec (.rng f) s = .next s' ∧
      LaneEffect u f.d false (toRing f.h f.d) (lanesAct f.d (resultLanes u f.h f.d)) [f.a, f.b, f.c] (resultLanes u f.h f.d)
        (fun l => (ccg (readWord u f.imm f.a l) (readWord u f.imm f.b l) (readWord u f.imm f.c l)).toNat) (idle u) s')

/-! ## The lane class -/

/-- LRED and LSCAN complete where no NaN traps. Of an integer type, LRED leaves the reduction of every active lane's code,
and LSCAN of the lanes up to each, or below it with .EXCL; of a float type the lanes' codes reduce in ascending order
(22 R358 to R360). -/
def Obligations.LaneReductions : Prop :=
  (∀ (e : EltTy) (f : RFmt) (s : State) (u : Iss),
    let ls := (active u).toList
    let out := lredOut e (laneOp f.mod) (rEnv f.h u.p.fmt u.g.srseed) (laneSources u e f)
    issuer s (.lred e f) = some u → clear u = true →
    (dstOk u.g (e.width == 64) f.d && srcLegal u.g false (laneSrc e f) && (mapTrap u [laneSrc e f]).isNone) = true →
    noNanTrap u ls (outLane out) = true →
    ∃ s', exec (.lred e f) s = .next s' ∧
      LaneEffect u f.d (e.width == 64) (toRing f.h f.d) (ls != []) [f.a] ls (outVal out) (outLane out) s' ∧
      ∀ t, eltInt e = some t → ∀ l ∈ ls,
        ReducesInt t (laneOp f.mod) (satEff f.h u.p.fmt) (ls.map (laneCode u e f)) (outVal out l)) ∧
  (∀ (e : EltTy) (f : RFmt) (s : State) (u : Iss),
    let ls := (active u).toList
    let excl := f.mod.getLsbD 6
    let out := lscanOut e (laneOp f.mod) excl (rEnv f.h u.p.fmt u.g.srseed) [] (laneSources u e f)
    issuer s (.lscan e f) = some u → clear u = true → isScalar f.d = false →
    (dstOk u.g (e.width == 64) f.d && srcLegal u.g false (laneSrc e f) && (mapTrap u [laneSrc e f]).isNone) = true →
    noNanTrap u ls (outLane out) = true →
    ∃ s', exec (.lscan e f) s = .next s' ∧
      LaneEffect u f.d (e.width == 64) (toRing f.h f.d) true [f.a] ls (outVal out) (outLane out) s' ∧
      ∀ t, eltInt e = some t → ∀ l ∈ ls,
        let below := ls.filter fun k => if excl then decide (k < l) else decide (k ≤ l)
        if below = [] then outVal out l = scanIdentity e (laneOp f.mod)
        else ReducesInt t (laneOp f.mod) (satEff f.h u.p.fmt) (below.map (laneCode u e f)) (outVal out l))

/-- MATCH leaves in each lane the active lanes of equal value; SHFL the value of the lane its segment and control name, by
positions with their sign bits; VOTE its combination of the active lanes' predicates; PART the class, the place in it and
the number of classes, and the masks of the first four classes in PART0 to PART3 (22 R361, 23 R379 to R382). Which value a
narrow SHFL.OFF leaves of its own lane, and ZERO or IMM as A, are read as logs 41 and 35 say. -/
def Obligations.LaneCrossings : Prop :=
  (∀ (e : EltTy) (f : RFmt) (s : State) (u : Iss),
    let ls := (active u).toList
    issuer s (.matchLanes e f) = some u → clear u = true → isScalar f.d = false → isRegister f.a = true →
    (dstOk u.g true f.d && srcLegal u.g false (bitSrc e f.a)) = true →
    ∃ s' val, exec (.matchLanes e f) s = .next s' ∧
      (∀ l ∈ ls, ∀ k < 64, (val l).testBit k = (ls.contains k && rawBits u e f.imm f.a k == rawBits u e f.imm f.a l)) ∧
      LaneEffect u f.d true (toRing f.h f.d) true [f.a] ls val (idle u) s') ∧
  (∀ (e : EltTy) (f : RFmt) (s : State) (u : Iss),
    let ls := (active u).toList
    let t := eltCvt e
    issuer s (.shfl e f) = some u → clear u = true → isScalar f.d = false → f.b ≠ .zero →
    (dstOk u.g (e.width == 64) f.d && srcLegal u.g false { o := f.a, t } && srcLegal u.g false { o := f.b, t := .b32 }) = true →
    ∃ s' val, exec (.shfl e f) s = .next s' ∧
      (∀ l ∈ ls, ∀ p < eltPositions e, elemAt t (val l) p =
        applySign t (f.mod.getLsbD 0) (f.mod.getLsbD 1)
          (elemAt t (readNat u (immFor t f.imm) (t.width == 64) f.a (shflFrom u f l)) p)) ∧
      LaneEffect u f.d (e.width == 64) (toRing f.h f.d) true [f.a, f.b] ls val (idle u) s') ∧
  (∀ (e : EltTy) (f : RFmt) (s : State) (u : Iss),
    let ls := (active u).toList
    let mode := bits f.mod 2 3
    issuer s (.vote e f) = some u → clear u = true → voteBitOk f.b = true →
    (dstOk u.g (mode == 3) f.d && srcLegal u.g false { o := f.a, t := .b32 } && srcLegal u.g false { o := f.b, t := .b32 }) = true →
    ∃ s' val, exec (.vote e f) s = .next s' ∧
      (∀ l ∈ ls, Votes mode ls (fun k => (readWord u f.imm f.a k).getLsbD ((readWord u f.imm f.b k).toNat % 32)) (val l)) ∧
      LaneEffect u f.d (mode == 3) (toRing f.h f.d) (ls != []) [f.a, f.b] ls val (idle u) s') ∧
  (∀ (e : EltTy) (f : RFmt) (s : State) (u : Iss),
    let ls := (active u).toList
    let key := rawBits u e f.imm f.a
    issuer s (.part e f) = some u → clear u = true → isScalar f.d = false → isRegister f.a = true →
    (dstOk u.g false f.d && srcLegal u.g false (bitSrc e f.a)) = true →
    ∃ s', exec (.part e f) s = .next s' ∧
      LaneEffect { u with g := { u.g with parts := if ls = [] then u.g.parts else partMasks u e f } } f.d false
        (toRing f.h f.d) (ls != []) [f.a] ls (partWord key ls (partClasses key ls)) (idle u) s')

/-! ## Moves and special registers -/

/-- MOV, MOVSR and FLTRD complete with the value of their source, and do not enter the ring (22 R370 to R373, 21 R336 and
R337). -/
def Obligations.Moves : Prop :=
  (∀ (f : RFmt) (s : State) (u : Iss),
    let xs : List Src := [{ o := f.a, sel := f.ma.toNat, tb := f.ta, t := .b32 }]
    issuer s (.movB32 f) = some u → clear u = true → operandsOk u f.h f.d false xs = true →
    ∃ s', exec (.movB32 f) s = .next s' ∧
      LaneEffect u f.d false false (lanesAct f.d (resultLanes u f.h f.d)) [f.a] (resultLanes u f.h f.d)
        (fun l => (readWord u f.imm f.a l).toNat) (idle u) s') ∧
  (∀ (f : RFmt) (s : State) (u : Iss),
    let xs : List Src := [{ o := f.a, sel := f.ma.toNat, tb := f.ta, t := .b64 }]
    issuer s (.movB64 f) = some u → clear u = true → operandsOk u f.h f.d true xs = true →
    ∃ s', exec (.movB64 f) s = .next s' ∧
      LaneEffect u f.d true false (lanesAct f.d (resultLanes u f.h f.d)) [f.a] (resultLanes u f.h f.d)
        (fun l => if f.a = .imm then f.imm.toNat else (readPair u f.a l).toNat) (idle u) s') ∧
  (∀ (f : IFmt) (s : State) (u : Iss),
    issuer s (.movB64Imm64 f) = some u → clear u = true → (f.b == .imm && operandsOk u f.h f.d true []) = true →
    ∃ s', exec (.movB64Imm64 f) s = .next s' ∧
      LaneEffect u f.d true false (lanesAct f.d (resultLanes u f.h f.d)) [] (resultLanes u f.h f.d) (fun _ => f.imm64.toNat) (idle u) s') ∧
  (∀ (f : KFmt) (s : State) (u : Iss),
    let n := bits f.kimm 0 8
    let k := srKind n
    issuer s (.movsr f) = some u → clear u = true → (f.a == .imm && movsrDst u.g k f.d) = true →
    (isScalar f.d && guardIsVector f.h.guard) = false → (n = 0x14 → u.g.repro = false) →
    ∃ s', exec (.movsr f) s = .next s' ∧
      LaneEffect u f.d (k == .u64) false true [] (resultLanes u f.h f.d)
        (fun l => srValue u n (if isScalar f.d then 0 else l)) (idle u) s') ∧
  (∀ (f : KFmt) (s : State) (u : Iss),
    let fw := f.mod.getLsbD 0
    issuer s (.fltrd f) = some u → clear u = true → dstOk u.g (!fw) f.d = true → (∃ n, f.d = .v n) →
    ∃ s', exec (.fltrd f) s = .next s' ∧
      LaneEffect u f.d (!fw) false true [] (active u).toList
        (fun l => if fw then (fltOf u.g l).2 else (fltOf u.g l).1.toNat) (idle u) s')

/-! ## The control class -/

/-- BRA, BRX, CALL and RET complete: the split goes to the target when its guard says so, else to the next instruction, and
nothing else changes but the link that a CALL writes when it branches (03 R60; 20 R301 to R303; 23 R391). A plain branch
whose active lanes disagree traps with OPERAND_ILLEGAL, and so does BRX whose lanes name targets that differ; BRX, CALL and
RET to a misaligned target trap with MISALIGNED, CALL with no link written. That an unguarded or scalar-guarded branch of a
split with EM = 0 branches is the model's choice (log 46). -/
def Obligations.Branches : Prop :=
  (∀ (f : CFmt) (s : State) (u : Iss) (b : Bool), issuer s (.bra f) = some u → clear u = true → branches u = some b →
    ∃ t, exec (.bra f) s = .next t ∧ Goes u (if b then target u.p.pc f.toff else u.p.pc + 16#64) t) ∧
  (∀ (f : CFmt) (s : State) (u : Iss), issuer s (.bra f) = some u → clear u = true → branches u = none →
    ∃ t, exec (.bra f) s = .next t ∧ Rejected u .operandIllegal t) ∧
  (∀ (f : CFmt) (s : State) (u : Iss) (b : Bool), issuer s (.brx f) = some u → clear u = true → branches u = some b →
    vsOk u.g true f.a = true →
    let lanes := if isScalar f.a then [0] else (active u).toList
    let tgt := fun l => target (readPair u f.a l) f.toff
    (∀ l ∈ lanes, tgt l = tgt (lanes.headD 0) ∧ bits (tgt l) 0 4 = 0) →
    ∃ t, exec (.brx f) s = .next t ∧
      Goes u (if b = true ∧ lanes ≠ [] then tgt (lanes.headD 0) else u.p.pc + 16#64) t) ∧
  (∀ (f : CFmt) (s : State) (u : Iss), issuer s (.brx f) = some u → clear u = true → branches u = some true →
    vsOk u.g true f.a = true →
    let lanes := if isScalar f.a then [0] else (active u).toList
    let tgt := fun l => target (readPair u f.a l) f.toff
    ((∃ l ∈ lanes, tgt l ≠ tgt (lanes.headD 0)) → ∃ t, exec (.brx f) s = .next t ∧ Rejected u .operandIllegal t) ∧
    (lanes ≠ [] → (∀ l ∈ lanes, tgt l = tgt (lanes.headD 0)) → bits (tgt (lanes.headD 0)) 0 4 ≠ 0 →
      ∃ t, exec (.brx f) s = .next t ∧ Trapped u .misaligned u.p.members (tgt (lanes.headD 0)) 0#64 t)) ∧
  (∀ (f : CFmt) (s : State) (u : Iss) (b : Bool), issuer s (.call f) = some u → clear u = true → branches u = some b →
    (sOk true f.d && (f.a == .zero || sOk true f.a)) = true →
    let tgt := target (if f.a = .zero then u.p.pc else readPair u f.a 0) f.toff
    bits tgt 0 4 = 0 →
    ∃ t, exec (.call f) s = .next t ∧
      (b = false → Goes u (u.p.pc + 16#64) t) ∧
      (b = true → ∃ g' p', Stepped u t g' p' ∧ Advanced u p' tgt ∧
        Written u.g g' f.d true [0] (fun _ => (u.p.pc + 16#64).toNat) ∧ g'.status = u.g.status ∧ g'.srctr = u.g.srctr ∧
        t.rings = s.rings)) ∧
  (∀ (f : CFmt) (s : State) (u : Iss), issuer s (.call f) = some u → clear u = true → branches u = some true →
    (sOk true f.d && (f.a == .zero || sOk true f.a)) = true →
    let tgt := target (if f.a = .zero then u.p.pc else readPair u f.a 0) f.toff
    bits tgt 0 4 ≠ 0 → ∃ t, exec (.call f) s = .next t ∧ Trapped u .misaligned u.p.members tgt 0#64 t) ∧
  (∀ (f : CFmt) (s : State) (u : Iss) (b : Bool), issuer s (.ret f) = some u → clear u = true → branches u = some b →
    sOk true f.a = true → bits (target (readPair u f.a 0) f.toff) 0 4 = 0 →
    ∃ t, exec (.ret f) s = .next t ∧ Goes u (if b then target (readPair u f.a 0) f.toff else u.p.pc + 16#64) t) ∧
  (∀ (f : CFmt) (s : State) (u : Iss), issuer s (.ret f) = some u → clear u = true → branches u = some true →
    sOk true f.a = true → bits (target (readPair u f.a 0) f.toff) 0 4 ≠ 0 →
    ∃ t, exec (.ret f) s = .next t ∧ Trapped u .misaligned u.p.members (target (readPair u f.a 0) f.toff) 0#64 t)

/-- BRA.D: with active lanes that agree the split falls through or branches whole; else it divides, and the taken lanes are a
new split of a new region that expects every member (03 R59). With no room it traps with SPLIT_SPILL_FAULT (R58). That an entry
which spills changes no byte of memory, and which entry that is, are the model's choice (logs 70, 40). -/
def Obligations.DivergingBranch : Prop :=
  (∀ (f : CFmt) (s : State) (u : Iss), issuer s (.braD f) = some u → clear u = true →
    (active u = 0#64 → ∃ t, exec (.braD f) s = .next t ∧ Goes u (u.p.pc + 16#64) t) ∧
    (active u ≠ 0#64 → active u = u.p.em →
      ∃ t, exec (.braD f) s = .next t ∧ Goes u (target u.p.pc f.toff) t)) ∧
  (∀ (f : CFmt) (s : State) (u : Iss), IdsOk s → issuer s (.braD f) = some u → clear u = true → active u ≠ 0#64 →
    active u ≠ u.p.em → tablesHold u.ctx u.g 1 1 = true →
    ∃ s1 rid sid, exec (.braD f) s = .next (retire s1 u false) ∧ Reshaped u.g.gid s s1 ∧
      (∀ r ∈ u.g.regions, r.rid ≠ rid) ∧ (∀ p ∈ u.g.splits, p.sid ≠ sid) ∧
      Shape u.g.gid s1
        (putSplit u.g { u.p with members := u.p.members &&& ~~~active u, em := u.p.em &&& ~~~active u,
                                 pc := u.p.pc + 16#64, region := some rid, stamp := s.clock.toNat } ++
          [{ Split.born u.p with sid, members := active u, em := active u, pc := target u.p.pc f.toff, region := some rid,
                                 stamp := s.clock.toNat }])
        (u.g.regions ++
          [{ rid, joinPC := target u.p.pc f.xoff, expected := u.p.members, arrived := 0#64, savedEM := u.p.em,
             savedFMT := u.p.fmt, parent := u.p.region, depth := (chainOf u.g u.p).length + 1, seq := rid,
             resident := true, agents := [] }])) ∧
  (∀ (f : CFmt) (s : State) (u : Iss), issuer s (.braD f) = some u → clear u = true → active u ≠ 0#64 →
    active u ≠ u.p.em → tablesHold u.ctx u.g 1 1 = false →
    ∃ t, exec (.braD f) s = .next t ∧ Trapped u .splitSpillFault u.p.members (BitVec.ofNat 64 u.ctx.splitArea) 0#64 t)

/-- BRK takes its guarded members out of the innermost regions, which expect them no longer, to the target; JOIN parks its
split in a region whose join address is its own, and else only advances; GSYNC parks its split. The close checks of the
regions concerned and the release of a whole group at GSYNC follow (03 R61, R62, R65, R66). That JOIN and GSYNC retire when they
park, and that spilled entries change no byte of memory, are the model's reading (logs 29, 70). -/
def Obligations.RegionsLeftAndJoined : Prop :=
  (∀ (f : CFmt) (s : State) (u : Iss), IdsOk s → issuer s (.brk f) = some u → clear u = true →
    let n := bits f.xoff 0 8
    let chain := (chainOf u.g u.p).take n
    let x := guardedMembers u
    let region := (chain.getLast?).bind Region.parent
    n ≤ (chainOf u.g u.p).length → (x = u.p.members ∨ tablesHold u.ctx u.g 1 0 = true) →
    (x = 0#64 → ∃ t, exec (.brk f) s = .next t ∧ Goes u (u.p.pc + 16#64) t) ∧
    (x ≠ 0#64 → ∃ s1,
      exec (.brk f) s = .next (retire (syncRelease (closeChecks s1 u.g.gid chain) u.g.gid) u false) ∧
      Reshaped u.g.gid s s1 ∧
      (x = u.p.members → Shape u.g.gid s1 (putSplit u.g { u.p with pc := target u.p.pc f.toff, region })
        (expectLess u.g chain x)) ∧
      (x ≠ u.p.members → ∃ sid, (∀ p ∈ u.g.splits, p.sid ≠ sid) ∧ Shape u.g.gid s1
        (putSplit u.g { u.p with members := u.p.members &&& ~~~x, em := u.p.em &&& ~~~x, pc := u.p.pc + 16#64,
                                 stamp := s.clock.toNat } ++
          [{ Split.born u.p with sid, members := x, em := u.p.em &&& x, pc := target u.p.pc f.toff, region,
                                 stamp := s.clock.toNat }])
        (expectLess u.g chain x)))) ∧
  (∀ (f : CFmt) (s : State) (u : Iss), IdsOk s → issuer s (.join f) = some u → clear u = true →
    match u.p.region.bind (regionOf u.g) with
    | none => ∃ t, exec (.join f) s = .next t ∧ Goes u (u.p.pc + 16#64) t
    | some r =>
      (r.joinPC ≠ u.p.pc → ∃ t, exec (.join f) s = .next t ∧ Goes u (u.p.pc + 16#64) t) ∧
      (r.joinPC = u.p.pc → ∃ s1 k,
        exec (.join f) s = .next (retire (syncRelease (closeCheck s1 u.g.gid r.rid) u.g.gid) u true) ∧
        Reshaped u.g.gid s s1 ∧
        Shape u.g.gid s1 (putSplit u.g { u.p with state := .joined, parkSeq := k, stamp := s.clock.toNat })
          (u.g.regions.map fun x => if x.rid = r.rid then { r with arrived := r.arrived ||| u.p.members } else x))) ∧
  (∀ (f : CFmt) (s : State) (u : Iss), IdsOk s → issuer s (.gsync f) = some u → clear u = true →
    ∃ s1 k, exec (.gsync f) s = .next (retire (syncRelease s1 u.g.gid) u true) ∧ Reshaped u.g.gid s s1 ∧
      Shape u.g.gid s1 (putSplit u.g { u.p with state := .synced, parkSeq := k, stamp := s.clock.toNat }) u.g.regions)

/-- EXIT removes its guarded members from the split, which is freed when it has no other, and from what every region of its
chain expects; the close checks follow (03 R63, 21 R319). In a handler it traps with PRIVILEGED (`FirstChecks`). That spilled
regions change no byte of memory is the model's choice (log 70). -/
def Obligations.Exits : Prop :=
  ∀ (f : CFmt) (s : State) (u : Iss), IdsOk s → issuer s (.exit f) = some u → clear u = true → u.g.inHandler = false →
    let x := guardedMembers u
    let chain := chainOf u.g u.p
    (x = 0#64 → ∃ t, exec (.exit f) s = .next t ∧ Goes u (u.p.pc + 16#64) t) ∧
    (x ≠ 0#64 → ∃ s1,
      exec (.exit f) s = .next (retire (syncRelease (closeChecks s1 u.g.gid chain) u.g.gid) u true) ∧
      Reshaped u.g.gid s s1 ∧
      Shape u.g.gid s1
        (if u.p.members &&& ~~~x = 0#64 then u.g.splits.filter fun p => p.sid != u.p.sid
         else putSplit u.g { u.p with members := u.p.members &&& ~~~x, em := u.p.em &&& ~~~x, stamp := s.clock.toNat })
        (expectLess u.g chain x))

/-- The close check: a region that expects no lane is discarded; one whose every expected lane has arrived is freed, and its
JOINED splits become one split of those lanes behind the join, with the EM and FMT that the region saved; any other
stands (03 R61). That a spilled region changes no byte of memory is the model's choice (log 70). -/
def Obligations.RegionClose : Prop :=
  ∀ (s : State) (gid rid : Nat) (g : Group) (r : Region), groupOf s gid = some g → regionOf g rid = some r →
    let joined := g.splits.filter fun p => p.state == .joined && p.region == some rid
    Reshaped gid s (closeCheck s gid rid) ∧
    (r.expected = 0#64 → Shape gid (closeCheck s gid rid) g.splits (g.regions.filter fun x => x.rid != rid)) ∧
    (r.expected ≠ 0#64 → r.arrived ≠ r.expected → closeCheck s gid rid = s) ∧
    (r.expected ≠ 0#64 → r.arrived = r.expected → joined ≠ [] → ∃ m : Split,
      Shape gid (closeCheck s gid rid)
        ((g.splits.filter fun p => !(p.state == .joined && p.region == some rid)) ++ [m])
        (g.regions.filter fun x => x.rid != rid) ∧
      m.members = r.expected ∧ m.em = r.savedEM &&& r.expected ∧ m.fmt = r.savedFMT ∧ m.pc = r.joinPC + 16#64 ∧
      m.region = r.parent ∧ m.state = .ready ∧ (∀ p ∈ joined, m.stamp ≤ p.stamp) ∧ (∃ p ∈ joined, m.stamp = p.stamp))

/-- GSYNC releases: when every live split that is not JOINED is SYNCED, all of them become READY where they stand; else
nothing changes (03 R66). They stand behind the GSYNC, which retired when it parked, and spilled entries change no byte of memory:
the model's reading (logs 29, 70). -/
def Obligations.GroupSyncRelease : Prop :=
  ∀ (s : State) (gid : Nat) (g : Group), IdsOk s → groupOf s gid = some g →
    Reshaped gid s (syncRelease s gid) ∧
    ((∃ p ∈ g.splits, p.state ≠ .joined ∧ p.state ≠ .synced) → syncRelease s gid = s) ∧
    ((∀ p ∈ g.splits, p.state = .joined ∨ p.state = .synced) →
      Shape gid (syncRelease s gid)
        (g.splits.map fun p => if p.state = .synced then { p with state := .ready } else p) g.regions)

/-! ## Traps and the system class -/

/-- Trap entry to the in-lane handler: the shadow, TRAPCAUSE, TRAPPC and TRAPMASK, EM, FMT and the PC, as listed; no other
register, split, group or byte of memory changes (11 R206, R209, R211). INCHAIN is 1 at an instruction with HOLD = 1 and at
the last of its chain. A copy of a checked team enters its handler after the comparison alone (12 R236). -/
def Obligations.TrapEntry : Prop :=
  ∀ (s : State) (gid sid : Nat) (r : TrapReq) (g : Group) (p : Split) (c : Context),
    groupOf s gid = some g → splitOf g sid = some p → ctxOf s g.ctx = some c → r.cause.toDriver = false →
    g.inHandler = false → c.handler ≠ 0#64 → comparedCopy s g = false →
    let t := takeTrap s gid sid r
    ∃ g' p' sh, groupOf t gid = some g' ∧ splitOf g' sid = some p' ∧ g'.shadow = some sh ∧
      sh.em = p.em ∧ sh.fmt = p.fmt ∧ sh.swpidx = r.sweep.getD p.swpidx ∧ sh.status = g.status ∧
      sh.s56 = (g.sregs.drop 56).take 8 ∧ sh.ring = g.savedRing.getD (ringOf s g.core g.quarter) ∧ sh.pc = p.pc ∧
      sh.chainLen = p.chainLen ∧ sh.chainPC = p.chainPC ∧ sh.bpMatch = p.bpMatch ∧ p'.chainLen = 0 ∧ p'.bpMatch = none ∧
      g'.trappc = p.pc ∧ g'.trapmask = r.mask ∧
      bits g'.trapcause 0 8 = r.cause.code ∧ bits g'.trapcause 8 4 = 0 ∧ bits g'.trapcause 12 4 = r.slot % 16 ∧
      bits g'.trapcause 16 12 = r.sweep.getD 0 % 4096 ∧ g'.trapcause.getLsbD 28 = r.sweep.isSome ∧
      g'.trapcause.getLsbD 29 = (decide (0 < p.chainLen) || r.hold) ∧ bits g'.trapcause 30 2 = 0 ∧
      p'.em = r.mask &&& p.members ∧ p'.members = p.members ∧ p'.pc = c.handler ∧
      (∀ k < 9, p'.fmt.getLsbD k = if k = 5 ∨ k = 6 then p.fmt.getLsbD k else (fmtInit g.narrow).getLsbD k) ∧
      g'.vregs = g.vregs ∧ g'.oregs = g.oregs ∧ g'.sregs = g.sregs ∧ g'.status = g.status ∧ g'.srctr = g.srctr ∧
      g'.lclk = g.lclk ∧ { t with groups := s.groups } = s ∧ (∀ n, n ≠ gid → groupOf t n = groupOf s n) ∧
      ∀ n, n ≠ sid → splitOf g' n = splitOf g n

/-- A trap of a driver's cause, one in a handler, and one in a context without a handler halt the group for the driver, with
SOURCE 1 and the record of the trap (11 R206 to R208, R213). -/
def Obligations.TrapToDriver : Prop :=
  ∀ (s : State) (gid sid : Nat) (r : TrapReq) (g : Group) (p : Split) (c : Context), MemOk s →
    groupOf s gid = some g → splitOf g sid = some p → ctxOf s g.ctx = some c → comparedCopy s g = false →
    (r.cause.toDriver = true ∨ g.inHandler = true ∨ c.handler = 0#64) →
    let tr := trapRecord s g (p.stopSweep r) r 1
    tr.cause = r.cause.code ∧ tr.source = 1 ∧ tr.inhandler = g.inHandler ∧ tr.inchain = (decide (0 < p.chainLen) || r.hold) ∧
      tr.pc = p.pc ∧ tr.mask = r.mask ∧ tr.aux0 = r.aux0 ∧ tr.aux1 = r.aux1 ∧ tr.core = g.core ∧
      tr.gridid = g.gridid ∧ tr.teamid = g.teamid ∧ tr.time = s.clock.toNat ∧
      ∃ kind, HaltedWith s (takeTrap s gid sid r) g sid c kind tr

/-- The first checks of every instruction of a split: a privileged one outside the handler, and EXIT or EXIT.J in it, traps
with PRIVILEGED, the eighth of a hold chain that would not end there with CHAIN_LENGTH, one guarded by a register that does
not exist with OPERAND_ILLEGAL, in this order (11 R210, R211; 03 R63; 05 R103; 14 R259); before them an exit takes the
deferred error of a load of its group (10 R205, 21 R319). A vector instruction of a split with
EM = 0 completes with no effect, no further check and no fault; a sweep leaves SWPIDX zero (03 R69, 14 R270). That PRIVILEGED
and CHAIN_LENGTH are taken with EM = 0 too is the model's reading (log 34). -/
def Obligations.FirstChecks : Prop :=
  ∀ (i : Instr) (s : State) (u : Iss), i.isEvent = false → issuer s i = some u →
    let privileged := if u.g.inHandler then isExit i else instrPrivileged i
    let tooLong := decide (7 ≤ u.p.chainLen) && instrHold i
    let first := isExit i = true → u.g.badLoads = []
    (isExit i = true → u.g.badLoads ≠ [] → ∃ b ∈ u.g.badLoads, ∃ r : TrapReq, r.cause = .memoryUncorrectable ∧
      r.mask = u.p.members ∧ r.aux0 = b.pc ∧ r.aux1 = BitVec.ofNat 64 b.pa ∧
      exec i s = .next (takeTrap (setGroup s { u.g with badLoads := u.g.badLoads.filter (· != b) }) u.g.gid u.p.sid r)) ∧
    (first → privileged = true → ∃ t, exec i s = .next t ∧ Trapped u .privileged u.p.members 0#64 0#64 t) ∧
    (first → privileged = false → tooLong = true →
      ∃ t, exec i s = .next t ∧ Trapped u .chainLength u.p.members u.p.chainPC 0#64 t) ∧
    (first → privileged = false → tooLong = false → u.idle = false → guardLegal u.g (instrGuard i) = false →
      ∃ t, exec i s = .next t ∧ Rejected u .operandIllegal t) ∧
    (privileged = false → tooLong = false → perLane i = true → u.p.em = 0#64 →
      let v := { u with p := { u.p with swpidx := if isSweep i then 0 else u.p.swpidx } }
      ∃ t, exec i s = .next t ∧ Goes v (u.p.pc + 16#64) t)

/-- TRAP takes the trap of its active lanes with its immediate; a word that decodes to no instruction takes
ILLEGAL_ENCODING with its own bits; BKPT and TRAP.ESC halt the group for the driver, BKPT after the instruction and TRAP.ESC
with what the handler leaves in TRAPCAUSE, TRAPPC and TRAPMASK (11 R207, R213, R219; 14 R262; 20 R300; 23 R396, R397). -/
def Obligations.TrapInstructions : Prop :=
  (∀ (f : KFmt) (s : State) (u : Iss), issuer s (.trap f) = some u → clear u = true → f.a = .imm →
    (active u ≠ 0#64 →
      ∃ t, exec (.trap f) s = .next t ∧ Trapped u .trapInstruction (active u) (f.kimm.zeroExtend 64) 0#64 t) ∧
    (active u = 0#64 → ∃ t, exec (.trap f) s = .next t ∧ Goes u (u.p.pc + 16#64) t)) ∧
  (∀ (w : IWord) (s : State) (u : Iss), issuer s (.reservedEncoding w) = some u →
    ∃ t, exec (.reservedEncoding w) s = .next t ∧
      Trapped u .illegalEncoding u.p.members (w.extractLsb' 0 64) (w.extractLsb' 64 64) t) ∧
  (∀ (f : KFmt) (s : State) (u : Iss), MemOk s → issuer s (.bkpt f) = some u → clear u = true →
    guardIsVector f.h.guard = false → scalarGuard u.g f.h.guard = true → regWritesPending s u.g.gid = false →
    comparedCopy s u.g = false →
    ∃ t r, exec (.bkpt f) s = .next t ∧ HaltedWith s t u.g u.p.sid u.ctx (.breakpoint true) r ∧
      r.cause = Cause.breakpoint.code ∧ r.source = 1 ∧ r.mask = u.p.members ∧ r.aux0 = u.p.pc ∧ r.aux1 = 0xFF#64 ∧
      r.pc = u.p.pc ∧ ∃ g' p', groupOf t u.g.gid = some g' ∧ splitOf g' u.p.sid = some p' ∧ p'.pc = u.p.pc + 16#64) ∧
  (∀ (f : KFmt) (s : State) (u : Iss) (sh : Shadow), MemOk s → issuer s (.trapEsc f) = some u → clear u = true →
    guardIsVector f.h.guard = false → scalarGuard u.g f.h.guard = true → u.g.shadow = some sh → comparedCopy s u.g = false →
    ∃ t r, exec (.trapEsc f) s = .next t ∧ HaltedWith s t u.g u.p.sid u.ctx .escape r ∧ r.source = 1 ∧
      r.cause = bits u.g.trapcause 0 8 ∧ r.slot = bits u.g.trapcause 12 4 ∧ r.swpidx = bits u.g.trapcause 16 12 ∧
      r.pc = u.g.trappc ∧ r.mask = u.g.trapmask ∧ r.aux0 = sh.aux0 ∧ r.aux1 = sh.aux1 ∧ r.inhandler = true ∧
      ∃ g', groupOf t u.g.gid = some g' ∧ g'.shadow = some sh)

/-- IRET restores every item of the trap shadow and the latch ring, and the split goes on at TRAPPC with its restored EM;
SWPIDX is 0 when TRAPPC was changed (11 R212, 22 R350). A breakpoint matched in a hold chain that ends with IRET is due there
(11 R218). -/
def Obligations.HandlerReturn : Prop :=
  ∀ (f : KFmt) (s : State) (u : Iss) (sh : Shadow), issuer s (.iret f) = some u → clear u = true →
    guardIsVector f.h.guard = false → u.g.shadow = some sh → sh.sid = u.p.sid → bits u.g.trappc 0 4 = 0 →
    4 * u.g.core + u.g.quarter < s.rings.length →
    (scalarGuard u.g f.h.guard = false → ∃ t, exec (.iret f) s = .next t ∧
      ∃ g' p', groupOf t u.g.gid = some g' ∧ splitOf g' u.p.sid = some p' ∧ p'.pc = u.p.pc + 16#64 ∧ g'.shadow = some sh) ∧
    (scalarGuard u.g f.h.guard = true → ∃ t g' p', exec (.iret f) s = .next t ∧
      groupOf t u.g.gid = some g' ∧ splitOf g' u.p.sid = some p' ∧ g'.shadow = none ∧ g'.status = sh.status ∧
      g'.sregs = u.g.sregs.take 56 ++ sh.s56 ∧ ringOf t u.g.core u.g.quarter = sh.ring ∧
      p'.em = sh.em &&& u.p.members ∧ p'.fmt = sh.fmt ∧ p'.pc = u.g.trappc ∧ p'.members = u.p.members ∧
      p'.swpidx = (if u.g.trappc = sh.pc then sh.swpidx else 0) ∧ p'.chainLen = sh.chainLen ∧ p'.chainPC = sh.chainPC ∧
      p'.bpMatch = sh.bpMatch ∧ g'.bpDue = breakOwed u u.g.bpDue u.g.trappc ∧
      g'.vregs = u.g.vregs ∧ g'.oregs = u.g.oregs ∧ g'.srctr = u.g.srctr ∧
      { t with groups := s.groups, rings := s.rings } = s ∧ (∀ n, n ≠ u.g.gid → groupOf t n = groupOf s n) ∧
      ∀ n, n ≠ u.p.sid → splitOf g' n = splitOf u.g n)

/-- SETSR writes the register it names, as far as it is writable, and no other listed register but LCLK; FMTSET writes the
fields of FMT that it selects from the same bits of its source, or traps OPERAND_ILLEGAL and changes nothing where RM or HB would
be reserved (23 R392, R393; 21 R338, R339). -/
def Obligations.SpecialRegisterWrites : Prop :=
  (∀ (f : KFmt) (s : State) (u : Iss), issuer s (.setsr f) = some u → clear u = true →
    let n := bits f.kimm 0 8
    let k := srKind n
    let v := fun l => readNat u 0#64 (k == .u64) f.b l
    (f.a == .imm && srWritable n && setsrSrc u.g k f.b) = true → (k ≠ .v32 → guardIsVector f.h.guard = false) →
    (n = 0x0C → fmtValid (fmtWrite u.p.fmt (BitVec.ofNat 32 (v 0))) = true) →
    ∃ t g' p', exec (.setsr f) s = .next t ∧ OnlyState u t g' p' ∧
      let after : Iss := { u with g := g', p := p' }
      (∀ l < 64, srValue after n l =
        if k = .v32 ∨ scalarGuard u.g f.h.guard = true then setsrLeaves u n (v (if k = .v32 then l else 0)) l
        else srValue u n l) ∧
      ∀ m, m ≠ n → m ≠ 0x16 → ∀ l, srValue after m l = srValue u m l) ∧
  (∀ (f : KFmt) (s : State) (u : Iss), issuer s (.fmtset f) = some u → clear u = true → siOk f.a = true →
    guardIsVector f.h.guard = false →
    let a := readNat u (f.kimm.zeroExtend 64) false f.a 0
    let new := (u.p.fmt &&& ~~~fmtMask f.mod) ||| (BitVec.ofNat 9 a &&& fmtMask f.mod)
    (∀ i < 9, new.getLsbD i =
      if i < 8 ∧ f.mod.getLsbD (if i < 3 then 0 else if i = 3 then 1 else if i = 4 then 2 else if i < 7 then 3 else 4) = true
      then a.testBit i else u.p.fmt.getLsbD i) ∧
    ((scalarGuard u.g f.h.guard = false ∨ (bits new 0 3 < 6 ∧ bits new 5 2 < 3)) →
      ∃ t g' p', exec (.fmtset f) s = .next t ∧ OnlyState u t g' p' ∧
        p'.fmt = (if scalarGuard u.g f.h.guard then new else u.p.fmt) ∧ p'.em = u.p.em ∧ g'.status = u.g.status ∧
        g'.srctr = u.g.srctr ∧ g'.srseed = u.g.srseed) ∧
    (scalarGuard u.g f.h.guard = true → ¬ (bits new 0 3 < 6 ∧ bits new 5 2 < 3) →
      ∃ t, exec (.fmtset f) s = .next t ∧ Rejected u .operandIllegal t))

/-! ## Accesses at issue -/

/-- What every issued instruction leaves of its own: LCLK one more, the split behind it and its chain, and the halt of a
breakpoint matched in a chain that ends (11 R218); nothing else. NOP does no more, and YIELD also marks its split with the time
and with splits that are eligible beside it, each with its number of issues, but in a reproducible group; a hold chain ends
with its YIELD (05 R103, R107; 23 R374, R375). Which of them are ready is free (log 3). -/
def Obligations.Retirement : Prop :=
  (∀ (s : State) (u : Iss) (g : Group) (p : Split), groupOf s u.g.gid = some g → splitOf g u.p.sid = some p →
    isIret u.i = false →
    ∃ g' p', groupOf (retire s u true) u.g.gid = some g' ∧ splitOf g' u.p.sid = some p' ∧ g'.lclk = g.lclk + 1#64 ∧
      p'.pc = p.pc + 16#64 ∧ p'.chainLen = (if instrHold u.i then p.chainLen + 1 else 0) ∧ p'.em = p.em ∧
      p'.members = p.members ∧ p'.fmt = p.fmt ∧ p'.state = p.state ∧ p'.region = p.region ∧ p'.swpidx = p.swpidx ∧
      g'.bpDue = breakOwed u g.bpDue p'.pc ∧
      { g' with lclk := g.lclk, splits := g.splits, round := g.round, bpDue := g.bpDue } = g ∧
      { retire s u true with groups := s.groups } = s ∧
      (∀ n, n ≠ u.g.gid → groupOf (retire s u true) n = groupOf s n) ∧ ∀ n, n ≠ u.p.sid → splitOf g' n = splitOf g n) ∧
  (∀ (f : CFmt) (s : State) (u : Iss), issuer s (.nop f) = some u → clear u = true →
    ∃ t, exec (.nop f) s = .next t ∧ Goes u (u.p.pc + 16#64) t) ∧
  (∀ (f : CFmt) (s : State) (u : Iss), issuer s (.yield f) = some u → clear u = true →
    ∃ t, exec (.yield f) s = .next t ∧ Goes u (u.p.pc + 16#64) { t with freeCtr := s.freeCtr } ∧
      ∃ g p, groupOf t u.g.gid = some g ∧ splitOf g u.p.sid = some p ∧
        if u.g.repro then p.yield = u.p.yield
        else ∃ ms, p.yield = some (s.clock.toNat, ms) ∧
          ∀ m ∈ ms, ∃ x ∈ rivals (setGroup s (setSplit u.g { u.p with chainLen := 0 })) u.g u.p, m = (x.1.gid, x.2.sid, x.2.issues))

/-- LD, LDS and PREF: once their addresses are found good, one access for the lanes is in flight, counted in C0, and the
instruction is done; no register is written yet (08 R159, 22 R353 to R356, 23 R389). With no lane they do nothing, but a run
of LDS meets its checks even so (05 R114). -/
def Obligations.LoadIssue : Prop :=
  (∀ (w : Width) (f : MFmt) (s : State) (u : Iss), issuer s (.ld w f) = some u → clear u = true →
    loadOk u w f 0 [0#4, 2#4] = true →
    let ls := resultLanes u f.h f.d
    (ls = [] → ∃ t, exec (.ld w f) s = .next t ∧ Goes u (u.p.pc + 16#64) t) ∧
    ∀ s1 ps, ls ≠ [] → placesOf u f .load 0 (widthBytes w) (isScalar f.d) ls = .ok (s1, ps) → engFull u .c0 = false →
      ∃ s2 o, exec (.ld w f) s = .next (retire s2 u true) ∧ Launched u s1 s2 (some .c0) o ∧ o.kind = .load w f.d ∧
        o.acq = (bits f.mod 4 2 == 2) ∧ o.rel = false ∧ o.scope = semScopeOf f ∧
        o.elems = ps.map fun p => mkElem p.1 (spaceOf f.space) p.2.1 p.2.2 (widthBytes w)) ∧
  (∀ (w : Width) (f : MFmt) (s : State) (u : Iss), issuer s (.lds w f) = some u → clear u = true →
    loadOk u w f (shapeOf f.mod) [1#4] = true →
    let ls := resultLanes u f.h f.d
    (∀ e, placesOf u f .load (shapeOf f.mod) (widthBytes w) (isScalar f.d) ls = .error e →
      exec (.lds w f) s = .next (commit u e)) ∧
    ∀ s1 ps, placesOf u f .load (shapeOf f.mod) (widthBytes w) (isScalar f.d) ls = .ok (s1, ps) →
      (ls = [] → ∃ t, exec (.lds w f) s = .next t ∧ Goes u (u.p.pc + 16#64) t) ∧
      (ls ≠ [] → engFull u .c0 = false → ∃ s2 o, exec (.lds w f) s = .next (retire s2 u true) ∧ Launched u s1 s2 (some .c0) o ∧ o.kind = .load w f.d ∧
        o.acq = false ∧ o.rel = false ∧
        o.elems = ps.map fun p => mkElem p.1 .scratch p.2.1 p.2.2 (widthBytes w))) ∧
  (∀ (f : MFmt) (s : State) (u : Iss), issuer s (.pref f) = some u → clear u = true →
    (f.d == .zero && f.space != 1#4 && addrOk u.g true f) = true → (active u).toList ≠ [] → engFull u .c0 = false →
    let ps := (prefLines u f (active u).toList).2
    let s1 := (prefLines u f (active u).toList).1
    (ps = [] → exec (.pref f) s = .next (retire s1 u true) ∧ Walked s s1) ∧
    (ps ≠ [] → ∃ s2 o, exec (.pref f) s = .next (retire s2 u true) ∧ Launched u s1 s2 (some .c0) o ∧
      o.kind = .pref (!f.mod.getLsbD 0) ∧ o.elems = ps.map fun p => mkElem p.1 (spaceOf f.space) p.2.1 p.2.2 128))

/-- ST and STS: once their addresses are found good, their lanes' values are in flight, counted in C0 (09 R176, 23 R384 to
R386). With no lane they do nothing, but a run of STS meets its checks even so (05 R114). A store to global or private memory
waits while its core's path is held (08 R173). -/
def Obligations.StoreIssue : Prop :=
  (∀ (w : Width) (f : MFmt) (s : State) (u : Iss), issuer s (.st w f) = some u → clear u = true →
    storeOk u w f 0 [0#4, 2#4] = true →
    let ls := (active u).toList
    (ls = [] → ∃ t, exec (.st w f) s = .next t ∧ Goes u (u.p.pc + 16#64) t) ∧
    (∀ e, placesOf u f .store 0 (widthBytes w) false ls = .error e → exec (.st w f) s = .next (commit u e)) ∧
    ∀ s1 ps, ls ≠ [] → placesOf u f .store 0 (widthBytes w) false ls = .ok (s1, ps) → engFull u .c0 = false →
      (pathHeld s u.g.core = true → exec (.st w f) s = .next s) ∧
      (pathHeld s u.g.core = false →
        ∃ s2 o, exec (.st w f) s = .next (retire s2 u true) ∧ Launched u s1 s2 (some .c0) o ∧ o.kind = .store ∧
          o.acq = false ∧ o.rel = (bits f.mod 4 2 == 2) ∧ o.scope = semScopeOf f ∧ o.elems = storeElems u w f ps)) ∧
  (∀ (w : Width) (f : MFmt) (s : State) (u : Iss), issuer s (.sts w f) = some u → clear u = true →
    storeOk u w f (shapeOf f.mod) [1#4] = true →
    let ls := (active u).toList
    (∀ e, placesOf u f .store (shapeOf f.mod) (widthBytes w) false ls = .error e → exec (.sts w f) s = .next (commit u e)) ∧
    ∀ s1 ps, placesOf u f .store (shapeOf f.mod) (widthBytes w) false ls = .ok (s1, ps) →
      (ls = [] → ∃ t, exec (.sts w f) s = .next t ∧ Goes u (u.p.pc + 16#64) t) ∧
      (ls ≠ [] → engFull u .c0 = false →
        ∃ s2 o, exec (.sts w f) s = .next (retire s2 u true) ∧ Launched u s1 s2 (some .c0) o ∧ o.kind = .store ∧
          o.acq = false ∧ o.rel = false ∧ o.elems = storeElems u w f ps))

/-- Where the lanes of an access act: at their effective addresses, in private memory at the group's own part of the
context's space, in a .ROW or .COL at their place in the run; every address is aligned (14 R255, R256; 05 R111, R114). Where
private memory begins is the model's choice (log 11). -/
def Obligations.AccessPlaces : Prop :=
  ∀ (u : Iss) (f : MFmt) (a : Access) (shape size : Nat) (once : Bool) (ls : List Nat) (s1 : State) (ps : List LanePlace),
    placesOf u f a shape size once ls = .ok (s1, ps) →
    Walked u.s s1 ∧
    (shape = 0 →
      ps.map (fun p => (p.1, p.2.1)) = ls.map (fun l => (l, accessVA u (spaceOf f.space) (effAddr u f l))) ∧
      (∀ l ∈ ls, (effAddr u f l).toNat % size = 0) ∧
      (spaceOf f.space = .scratch → s1 = u.s ∧ ∀ l ∈ ls, (effAddr u f l).toNat + size ≤ spadLimit (teamOfIss u)) ∧
      (spaceOf f.space = .priv → ∀ l ∈ ls, (effAddr u f l).toNat < u.ctx.highWater * 0x1_0000)) ∧
    (shape ≠ 0 → s1 = u.s ∧ ∀ p ∈ ps, p.2.1.toNat = ((effAddr u f 0).toNat + (if shape = 2 then 256 else 4) * p.1) % 2 ^ 32)

/-- ATOM, RED, CENSUS, JDEC and EXIT.J: their read-modify-writes are in flight; those that return nothing are translated
later, on the way to their home; a reproducible grid buffers its global RED for harvest, and C0 counts it off (log 56), but
that of a checked copy, which is to enter its team's stream (12 R235) (08 R171 to R173, 04 R91 and R92, 06 R133 and R134, 20 R293, R306; 22 R351; 23 R387). -/
def Obligations.AtomicIssue : Prop :=
  (∀ (e : EltTy) (f : MFmt) (s : State) (u : Iss), issuer s (.atom e f) = some u → clear u = true →
    (f.d = .zero ∨ ∃ n, f.d = .v n) → dstOk u.g (e.width == 64) f.d = true → atomicLegal u e f = true →
    fabricIllegal u f (active u).toList = false → streams u.g (spaceOf f.space) = false → (active u).toList ≠ [] →
    engFull u .c0 = false →
    ∀ s1 ps, accessLanes u (spaceOf f.space) .rmw (active u).toList (effAddr u f) (atomBytes e) (atomBytes e) = .ok (s1, ps) →
      ∃ s2 o, exec (.atom e f) s = .next (retire s2 u true) ∧ Launched u s1 s2 (some .c0) o ∧
        o.kind = .rmw e (some f.d) ∧ o.acq = (bits f.mod 4 2 == 1 || bits f.mod 4 2 == 3) ∧
        o.rel = decide (2 ≤ bits f.mod 4 2) ∧ o.elems = ps.map (atomElem u e f)) ∧
  (∀ (e : EltTy) (f : MFmt) (s : State) (u : Iss), issuer s (.red e f) = some u → clear u = true →
    (f.d == .zero && atomicLegal u e f) = true → fabricIllegal u f (active u).toList = false → (active u).toList ≠ [] →
    addrTrap u (spaceOf f.space) (active u).toList (effAddr u f) (atomBytes e) (atomBytes e) = none → engFull u .c0 = false →
    let own := streams u.g (spaceOf f.space)
    let es := (active u).toList.map fun l => atomElem u e f (l, accessVA u (spaceOf f.space) (effAddr u f l), none)
    (own = true ∨ (u.g.repro = false ∨ spaceOf f.space = .scratch) ∧ pathHeld s u.g.core = false →
      ∃ s2 o, exec (.red e f) s = .next (retire s2 u true) ∧ Launched u s s2 (some .c0) o ∧ o.kind = .rmw e none ∧
        o.rel = (bits f.mod 4 2 == 2) ∧ o.elems = es) ∧
    (own = false → u.g.repro = true → spaceOf f.space ≠ .scratch → ∀ x, gridOf s u.g.grid = some x →
      ∃ s2 o, exec (.red e f) s = .next (retire s2 u true) ∧ o.kind = .rmw e none ∧ o.rel = (bits f.mod 4 2 == 2) ∧
        o.agent = u.p.agent ∧ o.before = u.p.before ∧ o.elems = es ∧
        gridOf s2 u.g.grid = some { x with buffered := x.buffered ++
          [{ lt := u.g.lt, gindex := u.g.gindex, order := s.nextId, op := o }] } ∧
        groupOf s2 u.g.gid = some (engTick u.g .c0 s.nextId) ∧ (∀ k, k ≠ u.g.gid → groupOf s2 k = groupOf s k) ∧
        { s2 with groups := s.groups, grids := s.grids, nextId := s.nextId } = s)) ∧
  (∀ (e : CenTy) (f : RFmt) (s : State) (u : Iss), issuer s (.census e f) = some u → clear u = true →
    let b0 := (BitVec.ofNat 32 (readNat u (f.imm.zeroExtend 64) false f.c 0)).toInt
    let block := readPair u f.a 0
    let ls := (active u).toList
    let es := foldElems .global block (ls.headD 0) (cenCvt e) b0 (cenCodes u e f.b ls)
    (f.d == .zero && sOk true f.a && siOk f.c && decide (-160 ≤ b0) && decide (b0 ≤ 127)) = true →
    ((∃ n, f.b = .v n ∧ vecOk u.g n.val = true) ∨ ∃ n, f.b = .o n) → fabricRun u.ctx block 0x108 = false →
    active u ≠ 0#64 → block.toNat % 8 = 0 → es ≠ [] →
    (streams u.g .global = true ∨ u.g.repro = false ∧ pathHeld s u.g.core = false) →
    ∃ s2 o, exec (.census e f) s = .next (retire s2 u true) ∧ Launched u s s2 none o ∧ o.kind = .fold ∧ o.elems = es) ∧
  (∀ (f : MFmt) (s : State) (u : Iss), issuer s (.jdec f) = some u → clear u = true →
    (f.d == .zero && f.space == 0#4 && addrOk u.g true f) = true → u.g.checked = false →
    fabricIllegal u f (active u).toList = false → (active u).toList ≠ [] →
    (∀ l ∈ (active u).toList, (effAddr u f l).toNat % 4 = 0) → groupParked s u.g.gid = false →
    pathHeld s u.g.core = false →
    ∃ s2 o, exec (.jdec f) s = .next (retire s2 u true) ∧ Launched u s s2 none o ∧ o.kind = .dec false ∧ o.rel = true ∧
      o.scope = .dev ∧ o.elems = (active u).toList.map fun l => decElem l (effAddr u f l)) ∧
  (∀ (f : MFmt) (s : State) (u : Iss), issuer s (.exitJ f) = some u → clear u = true → u.g.inHandler = false →
    let x := guardedMembers u
    let ls := x.toList.filter fun l => effAddr u f l != 0#64
    (f.d == .zero && f.space == 0#4 && addrOk u.g true f) = true → fabricIllegal u f x.toList = false →
    (u.g.checked = true → ls = []) → x ≠ 0#64 → addrTrap u .global ls (effAddr u f) 4 4 = none →
    (translateLanes s u .rmw ls (effAddr u f)).2.2 = [] →
    let s1 := (translateLanes s u .rmw ls (effAddr u f)).1
    (ls = [] → exec (.exitJ f) s = .next (retire (exitLanes u s1 x) u true)) ∧
    (ls ≠ [] → groupParked s u.g.gid = false → pathHeld s u.g.core = false →
      ∃ s2 o, exec (.exitJ f) s = .next (retire (exitLanes u s2 x) u true) ∧ Launched u s1 s2 none o ∧ o.kind = .dec true ∧
        o.rel = true ∧ o.scope = .dev ∧ o.elems = ls.map fun l => decElem l (effAddr u f l)))

/-- CCTL drops from its core's instruction cache and fetch buffers, or its L1, what its range holds and nothing else, and the
split's next instruction is fetched afresh; FENCE.REL marks the order of its
agent; FENCE.ACQ and .AR, once what they order is performed, discard the L1 at DEV and SYS scope; DFLUSH is done once the
group's requests are performed, in a reproducible grid after a harvest, and discards the L1, so that no later load of its
split reads an older line. None of the others changes a value in memory (20 R304, R305; 21 R316, R317, R334, R335). What a
fence waits for is read as log 36 says, and what .IFLUSH waits for as log 57 says. -/
def Obligations.CachesAndFences : Prop :=
  (∀ (f : MFmt) (s : State) (u : Iss), issuer s (.cctl f) = some u → clear u = true →
    (f.d == .zero && f.space == 0#4 && addrOk u.g false f && siOk f.c && !guardIsVector f.h.guard) = true →
    scalarGuard u.g f.h.guard = true → u.g.core < s.cores.length →
    let n := cctlLen u f
    let a := (effAddr u f 0).toNat
    let hit := fun line => decide (a / 128 ≤ line) && decide (line ≤ (a + n - 1) / 128)
    0 < n → n ≤ 0x10_0000 → a + n ≤ 2 ^ 57 → inFabric u.ctx (effAddr u f 0) = false →
    inFabric u.ctx (effAddr u f 0 + BitVec.ofNat 64 (n - 1)) = false → (bits f.mod 0 2 = 0 → writesUnseen u = false) →
    let c := coreOf s u.g.core
    ∃ s2 c', exec (.cctl f) s = .next (retire s2 u true) ∧ { s2 with cores := s.cores, groups := s.groups } = s ∧
      groupOf s2 u.g.gid = some (setSplit u.g { u.p with refetch := true }) ∧
      (∀ k, k ≠ u.g.gid → groupOf s2 k = groupOf s k) ∧ coreOf s2 u.g.core = c' ∧
      (∀ k, k ≠ u.g.core → coreOf s2 k = coreOf s k) ∧
      { c' with icache := c.icache, fbuf := c.fbuf, l1 := c.l1 } = c ∧
      (bits f.mod 0 2 = 0 → c'.l1 = c.l1 ∧
        (∀ x, x ∈ c'.icache ↔ x ∈ c.icache ∧ ¬ (x.ctx = u.g.ctx ∧ hit x.vline = true)) ∧
        ∀ x, x ∈ c'.fbuf ↔ x ∈ c.fbuf ∧ ¬ (x.ctx = u.g.ctx ∧ hit (x.va / 128) = true)) ∧
      (bits f.mod 0 2 ≠ 0 → c'.icache = c.icache ∧ c'.fbuf = c.fbuf ∧
        ∀ x, x ∈ c'.l1 ↔ x ∈ c.l1 ∧ ¬ (x.ctx = u.g.ctx ∧ hit x.vline = true))) ∧
  (∀ (f : KFmt) (s : State) (u : Iss), issuer s (.fence f) = some u → clear u = true →
    guardIsVector f.h.guard = false → scalarGuard u.g f.h.guard = true →
    let kind := bits f.mod 0 2
    let wide := scopeWide (scopeOf f.h.rm)
    (kind = 2 → groupParked s u.g.gid = false → gatesOut s u.g.gid = false →
      (wide = true → coreSeen s u.g.core s.nextId = false) → ∃ s2, exec (.fence f) s = .next (retire s2 u true) ∧
      { s2 with fences := s.fences, nextId := s.nextId } = s ∧
      ∀ o ∈ s.ops, o.id < s.nextId → (o.agent = u.p.agent ∨ o.agent ∈ u.p.before) →
        ∃ m ∈ s2.fences, m.id = s.nextId ∧ m.gid = u.g.gid ∧ m.agent = u.p.agent ∧ m.before = u.p.before ∧ m.wide = wide) ∧
    (kind ≠ 2 → (kind = 1 → splitOutstanding s u.p true = false) → (kind ≠ 1 → released u wide = true) →
      ∃ s2, exec (.fence f) s = .next (retire s2 u true) ∧ { s2 with cores := s.cores } = s ∧
        (wide = false → s2 = s) ∧ (wide = true → u.g.core < s.cores.length → (coreOf s2 u.g.core).l1 = []))) ∧
  (∀ (f : KFmt) (s : State) (u : Iss), issuer s (.dflush f) = some u → clear u = true →
    guardIsVector f.h.guard = false →
    (scalarGuard u.g f.h.guard = false → ∃ t, exec (.dflush f) s = .next t ∧ Goes u (u.p.pc + 16#64) t) ∧
    (scalarGuard u.g f.h.guard = true →
      let h := if u.g.repro then harvestGrid s u.g.grid (some (u.g.lt, u.g.gindex)) else s
      (flushPending h u.g = false → ∃ s2, exec (.dflush f) s = .next (retire s2 u true) ∧
        { s2 with cores := h.cores } = h ∧ (u.g.core < h.cores.length → (coreOf s2 u.g.core).l1 = []) ∧
        ∀ k, k ≠ u.g.core → coreOf s2 k = coreOf h k) ∧
      (flushPending h u.g = true → exec (.dflush f) s = .next h)))

/-! ## Accesses performed -/

/-- An element of a load reads memory at its place, when its agent has no store of it in flight and no line of the L1 is to
serve it; every pending element of the load that names the place receives the value (09 R175, R176; 22 R354). One that meets
an uncorrectable granule receives none and notes its address (10 R205). Over memory stand the stores that its core alone has
seen (09 R178). When the L1 may serve a line is the model's choice
(log 36). -/
def Obligations.LoadElement : Prop :=
  ∀ (s : State) (id : Nat) (l1 : Lanes) (k : Nat) (o : Op) (e : Elem), opOf s id = some o → o.elems[k]? = some e →
    e.st = .pending → elemReady s o e = true →
    let t := loadElem s id l1 k
    t.mem = s.mem ∧ t.groups = s.groups ∧
    (e.space ≠ .scratch → forwarded s o e = none → l1.has e.lane = false → streamOf s o.team = [] →
      ∀ j x, o.elems[j]? = some x → elemAt? t id j = some
        (if x.st = .pending ∧ sameElem e x = true then
          { x with st := .done, bad := badGranule? s (e.pa.getD 0) e.size,
                   res := if (badGranule? s (e.pa.getD 0) e.size).isSome then 0#64
                     else BitVec.ofNat 64 (coreValue s o.core (e.pa.getD 0) e.size) }
         else x)) ∧
    (seenWrites s o.core = [] → coreValue s o.core (e.pa.getD 0) e.size = physRead s (e.pa.getD 0) e.size) ∧
    (e.space = .scratch → ∀ j x, o.elems[j]? = some x → elemAt? t id j = some
        (if x.st = .pending ∧ sameElem e x = true then
          { x with st := .done, bad := none, res := BitVec.ofNat 64 (spadRead s o.team e.va.toNat e.size) }
         else x))

/-- A load whose elements have all returned writes its destination, sign or zero extended, and is in flight no longer; with
an uncorrectable element it writes nothing and its error waits for its readers. A prefetch writes no register; a load with
elements still to return stays. An ATOM whose elements are all performed writes their old values (22 R354, 10 R205, 20
R294). -/
def Obligations.AccessReplies : Prop :=
  (∀ (s : State) (op : Nat) (lanes fromL1 : Lanes) (o o1 : Op) (w : Width) (d : Opnd) (g : Group),
    opOf s op = some o → o.kind = .load w d →
    let s1 := loadElems s op lanes fromL1
    opOf s1 op = some o1 → o1.kind = .load w d → groupOf s1 o1.gid = some g →
    ∃ t, exec (.loadReturn op lanes fromL1) s = .next t ∧ t.mem = s1.mem ∧
      (o1.performed = false → t = s1) ∧
      (o1.performed = true → (∀ x ∈ t.ops, x.id ≠ op) ∧ ∃ g', groupOf t o1.gid = some g' ∧
        (o1.elems.findSome? Elem.bad = none → (o1.elems.map Elem.lane).Nodup → dstOk g (w == .b64) d = true →
          Returned g g' d (w == .b64) (o1.elems.map fun e => (e.lane, loadValue w e.res.toNat))) ∧
        (∀ pa, o1.elems.findSome? Elem.bad = some pa →
          g'.vregs = g.vregs ∧ g'.oregs = g.oregs ∧ g'.sregs = g.sregs ∧
          g'.badLoads = g.badLoads ++ [{ pc := o1.tmpl.pc, pa, dst := opDsts o1 }]))) ∧
  (∀ (s : State) (op : Nat) (lanes fromL1 : Lanes) (o : Op) (b : Bool) (g : Group),
    opOf s op = some o → o.kind = .pref b → groupOf s o.gid = some g →
    ∃ t g', exec (.loadReturn op lanes fromL1) s = .next t ∧ t.mem = s.mem ∧ groupOf t o.gid = some g' ∧
      { g' with eng := g.eng } = g) ∧
  (∀ (s : State) (op : Nat) (o : Op) (e : EltTy) (d : Opnd) (g : Group), opOf s op = some o → o.kind = .rmw e (some d) →
    groupOf s o.gid = some g →
    ∃ t, exec (.atomReturn op) s = .next t ∧ t.mem = s.mem ∧ (o.performed = false → t = s) ∧
      (o.performed = true → (∀ x ∈ t.ops, x.id ≠ op) ∧ ∃ g', groupOf t o.gid = some g' ∧
        (isScalar d = false → (o.elems.map Elem.lane).Nodup → dstOk g (e.width == 64) d = true →
          Returned g g' d (e.width == 64) ((o.elems.filter fun x => x.bad.isNone).map fun x => (x.lane, x.res.toNat))) ∧
        g'.badLoads = g.badLoads ++ (match o.elems.findSome? Elem.bad with
          | some pa => if d = .zero then [] else [{ pc := o.tmpl.pc, pa, dst := opDsts o }]
          | none => [])))

/-- The ready elements of a store are performed: each writes its bytes, in memory or in scratchpad, and no others, whatever
their order; the store is in flight no longer once all are (09 R174 to R176, 23 R385). A global store of a checked copy enters
its team's stream instead, and leaves memory as it is (12 R235; log 56). A store to a barrier object that has been named is
followed by the object's completion check (08 R165, R166; of one not named yet log 53). -/
def Obligations.StorePerformed : Prop :=
  ∀ (s : State) (op : Nat) (lanes : Lanes) (o : Op), opOf s op = some o → o.kind = .store →
    let es := storeReady s o lanes
    (MemOk s → s.badGranules = [] → copyTeam s o.team = false → (∀ e ∈ es, e.space ≠ .scratch) → es.Pairwise apart →
      ∃ t, exec (.storePerform op lanes) s = .next t ∧
        (∀ e ∈ es, physRead t (e.pa.getD 0) e.size = e.data.toNat % 256 ^ e.size) ∧
        (∀ x, outside es x → memRead t.mem x = memRead s.mem x) ∧
        ((∀ e ∈ o.elems, e ∈ es ∨ e.st = .done) → ∀ x ∈ t.ops, x.id ≠ op)) ∧
    (∀ tm c, copyTeam s o.team = true → teamOf s o.team = some tm → ctxOf s o.ctx = some c → (∀ e ∈ es, e.space = .global) →
      checkInUse s o.ctx + es.length * Config.streamItemBytes ≤ c.checkSz →
      ∃ t, exec (.storePerform op lanes) s = .next t ∧ t.mem = s.mem ∧
        teamOf t o.team = some { tm with stream := tm.stream ++ es.map (streamItem s o) }) ∧
    (∀ tm, SpadsOk s → teamOf s o.team = some tm → (∀ e ∈ es, e.space = .scratch ∧ plainSpad s o.team e.va.toNat e.size) →
      es.Pairwise spadApart →
      ∃ t, exec (.storePerform op lanes) s = .next t ∧ t.mem = s.mem ∧
        (∀ e ∈ es, 0 < e.size → spadRead t o.team e.va.toNat e.size = e.data.toNat % 256 ^ e.size) ∧
        ∀ x, handedAway s o.team x 1 = false → (∀ e ∈ es, x < e.va.toNat ∨ e.va.toNat + e.size ≤ x) →
          spadRead t o.team x 1 = spadRead s o.team x 1) ∧
    (∀ tm e off, IdsOk s → SpadsOk s → teamOf s o.team = some tm → plainGrid s o.grid → es = [e] → e.space = .scratch →
      0 < e.size → off % 16 = 0 → off ≤ e.va.toNat → e.va.toNat + e.size ≤ off + 16 → named s o.team off = true →
      handedAway s o.team off 16 = false →
      let s1 := spadPut s o.team e.va.toNat e.size e.data.toNat
      ∃ t, exec (.storePerform op lanes) s = .next t ∧
        BarPut s1 { t with ops := s1.ops } o.team off (barAt s1 o.team off))

/-- One read-modify-write of a RED, a decrement or a census fold at its home, or those of an ATOM's lanes on one element, which
take consecutive places: memory holds the new value of the table, only there, and each element of an ATOM the value before it
(08 R171, R172; 04 R92; 06 R134; 20 R293, R294). An ATOM or RED in scratchpad does the same there, followed by the check of a
named barrier object that it changes (08 R165, R166; log 53). What a checked copy reduces enters its team's stream, and leaves
memory as it is (12 R235; log 56). -/
def Obligations.AtomicAtHome : Prop :=
  (∀ (i : Nat → Nat → Instr) (s : State) (op k : Nat) (o : Op) (e : Elem) (pa : Nat) (s1 : State),
    opOf s op = some o →
    ((i = .atomicAtHome ∧ ∃ u d, o.kind = .rmw u d) ∨ (i = .joinCounterDecrement ∧ ∃ x, o.kind = .dec x) ∨
      (i = .censusFold ∧ o.kind = .fold)) →
    elemNext s o k e = true → o.streamed s e = false → Reaches s o e pa s1 → MemOk s1 → badGranule? s1 pa e.size = none →
    let js := withElem o k e
    ∃ t, exec (i op k) s = .next t ∧ Wrote s1 t pa e.size (placeValue o e (physRead s1 pa e.size) js) ∧ k ∈ js ∧
      (∀ u d, o.kind = .rmw u (some d) → ∀ done j rest x, js = done ++ j :: rest → o.elems[j]? = some x →
        elemAt? t op j = some { x with st := .done, res := BitVec.ofNat 64 (placeValue o e (physRead s1 pa e.size) done) }) ∧
      ((∀ u d, o.kind ≠ .rmw u (some d)) → js = [k])) ∧
  (∀ (i : Nat → Nat → Instr) (s : State) (op k : Nat) (o : Op) (e : Elem) (tm : Team) (c : Context), opOf s op = some o →
    ((i = .atomicAtHome ∧ ∃ u, o.kind = .rmw u none) ∨ (i = .censusFold ∧ o.kind = .fold)) → elemNext s o k e = true →
    o.streamed s e = true → teamOf s o.team = some tm → ctxOf s o.ctx = some c →
    checkInUse s o.ctx + Config.streamItemBytes ≤ c.checkSz →
    ∃ t, exec (i op k) s = .next t ∧ t.mem = s.mem ∧
      teamOf t o.team = some { tm with stream := tm.stream ++ [streamItem s o e] }) ∧
  (∀ (s : State) (op k : Nat) (o : Op) (e : Elem) (u : EltTy) (d : Option Opnd) (tm : Team), opOf s op = some o →
    o.kind = .rmw u d → spadNext s o k e = true → SpadsOk s → teamOf s o.team = some tm → 0 < e.size →
    let js := withElem o k e
    let old := spadRead s o.team e.va.toNat e.size
    (plainSpad s o.team e.va.toNat e.size →
      ∃ t, exec (.atomicAtHome op k) s = .next t ∧ t.mem = s.mem ∧ k ∈ js ∧ (d = none → js = [k]) ∧
        spadRead t o.team e.va.toNat e.size = placeValue o e old js ∧
        (∀ x, handedAway s o.team x 1 = false → (x < e.va.toNat ∨ e.va.toNat + e.size ≤ x) →
          spadRead t o.team x 1 = spadRead s o.team x 1) ∧
        (d.isSome = true → ∀ done j rest x, js = done ++ j :: rest → o.elems[j]? = some x →
          elemAt? t op j = some { x with st := .done, res := BitVec.ofNat 64 (placeValue o e old done) })) ∧
    (∀ off, IdsOk s → plainGrid s o.grid → js = [k] → off % 16 = 0 → off ≤ e.va.toNat → e.va.toNat + e.size ≤ off + 16 →
      named s o.team off = true → handedAway s o.team off 16 = false →
      let s1 := spadPut s o.team e.va.toNat e.size (placeValue o e old js)
      ∃ t, exec (.atomicAtHome op k) s = .next t ∧
        BarPut s1 { t with ops := s1.ops } o.team off (barAt s1 o.team off)))

/-! ## Sweeps and maps -/

/-- A sweep starts at SWPIDX, and its iterations are then due; with EM = 0 it has no effect and makes no check. An iteration
reads the segments at base + n step, computes as the plain form does in every active lane, and writes the destination's
segment; with the last, the sweep retires. A write to a barrier object that lies in the segment is followed by its check, as
every scratchpad write is, and is not stated here. C0 counts an LDL iteration and counts it off (08 R159) (07 R153, R154, R158; 14 R270; 20 R314; 21 R323, R333; 22 R357, R362). -/
def Obligations.Sweeps : Prop :=
  (∀ (o : SweepOp) (f : SFmt) (s : State) (u : Iss), issuer s (o.instr f) = some u → clear u = true →
    (o.legal f = true →
      exec (o.instr f) s = .next (updSplit s u.g.gid u.p.sid fun p => { p with sweep := some (o.instr f, p.swpidx) })) ∧
    (o.legal f = false → ∃ t, exec (o.instr f) s = .next t ∧ Rejected u .operandIllegal t)) ∧
  (∀ (i : Instr) (s : State) (u : Iss), isSweep i = true → issuer s i = some u → firstTrap u = none → u.p.em = 0#64 →
    exec i s = .next (retire (updSplit s u.g.gid u.p.sid fun p => { p with swpidx := 0 }) u true)) ∧
  (∀ (f : SFmt) (s : State) (u : Iss), issuer s (.ldlSweep f) = some u → clear u = true →
    sOk false f.d = true → sOk true f.a = true → (u.g.narrow && ldlRank f.mod == 64) = false →
    exec (.ldlSweep f) s = .next (updSplit s u.g.gid u.p.sid fun p => { p with sweep := some (.ldlSweep f, p.swpidx) })) ∧
  (∀ (o : SweepOp) (f : SFmt) (s : State) (g sp n : Nat) (u : Iss), sweepDue s g sp n u → u.i = o.instr f → SpadsOk s →
    let segs := o.segs u f n
    noObjectIn u (segs.getD 0 (0, 0)) → phasesHeld s u.g.grid → segTrap u segs = none → segsReady u segs = true → mapTrap u (o.sources f) = none →
    noNanTrap u (active u).toList (fun l => (o.lane u f n l).2) = true →
    ∃ t, exec (.sweepIteration g sp) s = .next t ∧ Swept u s n (segs.getD 0 (0, 0)) (o.lane u f n) t) ∧
  (∀ (f : SFmt) (s s1 s2 : State) (g sp n : Nat) (u : Iss) (pages : List (Nat × Nat)) (bs : List Byte),
    sweepDue s g sp n u → u.i = .ldlSweep f → SpadsOk s →
    let va := readPair u f.a 0 + BitVec.ofNat 64 (n * ldlBytes f.mod)
    let d := (segOff u f.d f.stepD n, ldlRun f.mod)
    noObjectIn u d → phasesHeld s u.g.grid → segTrap u [d] = none → fabricRun u.ctx va (ldlBytes f.mod) = false →
    segsReady u [d] = true → engFull u .c0 = false → ldlSlotTrap u (ldlX f.mod) f.ma = none →
    translateRun u .ldl va (ldlBytes f.mod) = .ok (s1, pages) →
    (let o := (mkOp u s1 (.load .b64 .zero) false false .grp (pieceElems .global va.toNat (ldlBytes f.mod) pages)).1
     readNow (choose s1 2).2 o ((choose s1 2).1 == 1) = some (bs, none, s2)) →
    let E := rEnv f.h u.p.fmt u.g.srseed
    let view := ldlView u.p.fmt f.ma.toNat (keepView (mapView u.g u.p.fmt f.ma.toNat))
    let out := fun l =>
      if ldlX f.mod then expandLane E (mapLanes u) f.mod view f.ma.toNat f.ta bs l (Lane.start (u.g.srctr.get l))
      else (absorbLane f.mod bs l, Lane.start (u.g.srctr.get l))
    noNanTrap u (active u).toList (fun l => (out l).2) = true →
    ∃ t, exec (.sweepIteration g sp) s = .next t ∧ Swept { u with g := engTick u.g .c0 s1.nextId } s2 n d out t)

/-- MAPRES raises the reservation by the lowest free slots of the quarter, lowers it by slots that no logical slot holds, or
fails with 0 and no effect; a raise that waits is granted when slots are free. MAPBIND of ZERO binds a slot of zeros and scales
1 at once; of an image, the slot is BINDING and the reads of the whole image are in flight in class C2; they end in a slot that
holds the image, or, with an uncorrectable granule, in an UNBOUND slot that remembers it (07 R136, R138 to R141; 12 R234; 22
R365, R366). -/
def Obligations.MapSlots : Prop :=
  (∀ (f : RFmt) (s : State) (u : Iss), issuer s (.mapres f) = some u → clear u = true →
    guardIsVector f.h.guard = false → (f.d == .zero || sOk false f.d) = true → siOk f.a = true →
    scalarGuard u.g f.h.guard = true →
    let n := readNat u (f.imm.zeroExtend 64) false f.a 0
    let had := u.g.phys.length
    let held := heldSlots u.g
    let free := freeSlots s u.g.core u.g.quarter
    n ≤ 12 →
    (held.length ≤ n → n ≤ had → ∃ ph,
      exec (.mapres f) s = .next (retire (setGroup s (writeScalarNat { u.g with phys := ph } false f.d 1)) u true) ∧
      (∀ x ∈ ph, x ∈ u.g.phys) ∧ (∀ x ∈ u.g.phys, x.num ∈ held → x ∈ ph) ∧
      ((u.g.phys.map PhysSlot.num).Nodup → held.Nodup → (∀ k ∈ held, k ∈ u.g.phys.map PhysSlot.num) → ph.length = n)) ∧
    (had < n → (u.g.repro = true → had = 0) → n - had ≤ free.length → ∃ ph,
      exec (.mapres f) s = .next (retire (setGroup s
        (writeScalarNat { u.g with phys := u.g.phys ++ ph, mapresWait := none } false f.d 1)) u true) ∧
      ph.map PhysSlot.num = free.take (n - had)) ∧
    (had < n → u.g.repro = false → free.length < n - had →
      exec (.mapres f) s = .next (retire (setGroup s (writeScalarNat u.g false f.d 0)) u true)) ∧
    (had < n → u.g.repro = true → had = 0 → free.length < n - had →
      exec (.mapres f) s = .next (setGroup s { u.g with mapresWait := some (u.p.sid, .mapres f, n - had) }))) ∧
  (∀ (s : State) (g sp n : Nat) (x : Group) (f : RFmt), groupOf s g = some x → x.mapresWait = some (sp, .mapres f, n) →
    x.running = true → x.haltReq = false → n ≤ (freeSlots s x.core x.quarter).length →
    ∀ p c, splitOf x sp = some p → ctxOf s x.ctx = some c →
    ∃ t, exec (.mapres f) { s with cur := some (g, sp) } = .next t ∧
      exec (.mapresDeferredGrant g sp) s = .next { t with cur := none }) ∧
  (∀ (f : MFmt) (s : State) (u : Iss) (x : Slot) (n : Nat), issuer s (.mapbind f) = some u → clear u = true →
    bindLegal u.g f = true → slotOf u.g f.ma.toNat = some x → scalarGuard u.g f.h.guard = true →
    (f.a ≠ .zero → f.space = 0#4 → fabricRun u.ctx (effAddr u f 0) (sfmtImage (modSfmt f.mod)) = false) → x.bad = none → bindPhys u.g x = some n →
    x.st ≠ .binding →
    (f.a = .zero → ∃ g', exec (.mapbind f) s = .next (retire (setGroup s g') u true) ∧
      { g' with slots := u.g.slots, phys := u.g.phys } = u.g ∧
      g'.slots = u.g.slots.set (f.ma.toNat - 1) (bindSlot f n .bound 0#64) ∧
      ∀ p ∈ u.g.phys, (p.num ≠ n → p ∈ g'.phys) ∧
        (p.num = n → ∃ q ∈ g'.phys, q.num = n ∧ (∀ k < 4096, q.elems.getD k 1#16 = 0#16) ∧ ∀ k < 128, q.scales.getD k 0#8 = 0x7F#8)) ∧
    (f.a ≠ .zero → ∀ s1 es, bindElems u f = .ok (s1, es) → engFull u .c2 = false →
      let a := effAddr u f 0
      a.toNat % 256 = 0 ∧ (∃ pages, es = pieceElems (spaceOf f.space) a.toNat (sfmtImage (modSfmt f.mod)) pages) ∧
      ∃ s2 o, exec (.mapbind f) s = .next (retire s2 u true) ∧ Walked s s1 ∧ s2.ops = s.ops ++ [o] ∧
        o.kind = .bind f.ma.toNat ∧ o.elems = es ∧ o.gid = u.g.gid ∧ o.agent = u.p.agent ∧
        groupOf s2 u.g.gid = some
          { u.g with slots := u.g.slots.set (f.ma.toNat - 1) (bindSlot f n .binding a),
                     eng := u.g.eng ++ [{ cls := .c2, op := o.id, done := false }] } ∧
        (∀ k, k ≠ u.g.gid → groupOf s2 k = groupOf s k) ∧
        { s2 with ops := s1.ops, groups := s1.groups, nextId := s1.nextId } = s1)) ∧
  (∀ (s : State) (op k : Nat) (o o1 : Op) (g : Group) (x : Slot), opOf s op = some o → o.kind = .bind k →
    let s1 := loadElems s op allLanes 0#64
    opOf s1 op = some o1 → o1.performed = true → o1.kind = .bind k → groupOf s1 o1.gid = some g → slotOf g k = some x →
    ∃ t g', exec (.mapBindComplete op) s = .next t ∧ t.mem = s1.mem ∧ (∀ y ∈ t.ops, y.id ≠ op) ∧
      groupOf t o1.gid = some g' ∧ { g' with slots := g.slots, phys := g.phys, eng := g.eng } = g ∧
      (o1.elems.findSome? Elem.bad = none → g'.slots = g.slots.set (k - 1) { x with st := .bound } ∧
        ∀ p ∈ g.phys, (p.num ≠ x.phys → p ∈ g'.phys) ∧
          (p.num = x.phys → ∃ q ∈ g'.phys, q.num = p.num ∧ HoldsImage q x.sfmt x.tbind (pieceBytes o1.elems))) ∧
      (∀ pa, o1.elems.findSome? Elem.bad = some pa →
        g'.slots = g.slots.set (k - 1) { x with st := .unbound, bad := some (o1.tmpl.pc, pa) } ∧ g'.phys = g.phys))

/-- MAPWR writes a row, or a column, of a BOUND slot in the active lanes, each element converted or raw, and the row's
scales, and ends its RELOAD; MAPRD reads one; MAPREL leaves a BOUND slot UNBOUND; the slot that a MAPWR or MAPREL has changed is
not bound again from its source (07 R142 to R144, R155; 22 R367 to R369). MAPRD with ZERO as its destination writes nothing, and
MAPWR with ZERO as its scale source writes scale 0x00, which is the model's reading (logs 35, 28). -/
def Obligations.MapRows : Prop :=
  (∀ (f : RFmt) (s : State) (u : Iss) (x : Slot), issuer s (.mapwr f) = some u → clear u = true →
    let sf := modSfmt f.mod
    let raw := modTop f.mod
    (vecOrFile u.g f.a && (f.b == .zero || sOk false f.b) && siOk f.c &&
      (f.b == .zero || (sfmtScaled sf && !modT f.mod))) = true →
    sfmtTrap u f.ma.toNat sf raw = none → slotOf u.g f.ma.toNat = some x → active u ≠ 0#64 →
    let out := fun l => mapwrLane (rEnv f.h u.p.fmt u.g.srseed) sf raw (readNat u 0#64 false f.a l) (Lane.start (u.g.srctr.get l))
    noNanTrap u (active u).toList (fun l => (out l).2) = true →
    let c := readNat u (f.imm.zeroExtend 64) false f.c 0 % 64
    ∃ g', exec (.mapwr f) s = .next (retire (setGroup s g') u true) ∧
      { g' with status := u.g.status, srctr := u.g.srctr, slots := u.g.slots, phys := u.g.phys } = u.g ∧
      g'.slots = u.g.slots.set (f.ma.toNat - 1) { x with reload := false, rebind := false } ∧
      (∀ k < 6, g'.status.getLsbD k = (u.g.status.getLsbD k || (active u).toList.any fun l => (out l).2.flags.getLsbD k)) ∧
      (∀ l < 64, g'.srctr.get l = if (active u).has l then (out l).2.ctr else u.g.srctr.get l) ∧
      (raw = true → ∀ l, (out l).1 = readNat u 0#64 false f.a l % 2 ^ (sfmtCvt sf).width) ∧
      ∀ p ∈ u.g.phys, (p.num ≠ x.phys → p ∈ g'.phys) ∧
        (p.num = x.phys → p.elems.length = 4096 → p.scales.length = 128 → ∃ q ∈ g'.phys, q.num = p.num ∧
          (∀ i < 64, ∀ j < 64, q.elems.getD (64 * i + j) 0#16 =
            if (if modT f.mod then j else i) = c ∧ (active u).has (if modT f.mod then i else j) = true
            then BitVec.ofNat 16 (out (if modT f.mod then i else j)).1 else p.elems.getD (64 * i + j) 0#16) ∧
          ∀ k < 128, q.scales.getD k 0#8 =
            if sfmtScaled sf = true ∧ modT f.mod = false ∧ k / 2 = c
            then (readWord u 0#32 f.b 0).extractLsb' (8 * (k % 2)) 8 else p.scales.getD k 0#8)) ∧
  (∀ (f : RFmt) (s : State) (u : Iss) (x : Slot) (p : PhysSlot), issuer s (.maprd f) = some u → clear u = true →
    let sf := modSfmt f.mod
    let kind := bits f.mod 4 2
    ((vecOrFile u.g f.d || f.d == .zero) && siOk f.c && !(kind == 2 && (modT f.mod || !sfmtScaled sf))) = true →
    sfmtTrap u f.ma.toNat sf false = none → slotOf u.g f.ma.toNat = some x → physOf u.g x = some p →
    let c := readNat u (f.imm.zeroExtend 64) false f.c 0 % 64
    let out := fun l => maprdLane (rEnv f.h u.p.fmt u.g.srseed) p sf kind (modT f.mod) c l (Lane.start (u.g.srctr.get l))
    noNanTrap u (active u).toList (fun l => (out l).2) = true →
    ∃ t, exec (.maprd f) s = .next t ∧
      LaneEffect u f.d false (toRing f.h f.d) true [] (active u).toList (fun l => (out l).1) (fun l => (out l).2) t) ∧
  (∀ (f : RFmt) (s : State) (u : Iss) (x : Slot), issuer s (.maprel f) = some u → clear u = true →
    guardIsVector f.h.guard = false → scalarGuard u.g f.h.guard = true → slotOf u.g f.ma.toNat = some x → x.bad = none →
    (x.st = .unbound → exec (.maprel f) s = .next (retire s u true)) ∧
    (x.st = .bound → exec (.maprel f) s = .next (retire (setGroup s
      { u.g with slots := u.g.slots.set (f.ma.toNat - 1) { x with st := .unbound, rebind := false } }) u true)))

/-- MACC completes and leaves in each active lane, position by position, the exact grid sum of its products and addend rounded
once; the run of results enters the ring in order. It completes whenever its operands are allowed and its map is bound and
fits, unless NANTRAP is 1 and a lane produces a NaN; then it has no effect but the trap, which names the map's slot also where the
addend made the NaN, the model's reading (log 84) (07 R138, R147 to R151; 05 R100; 06 R132; 22 R362). -/
def Obligations.MaccSums : Prop :=
  ∀ (ty : MaccTy) (f : RFmt) (s : State) (u : Iss), issuer s (.macc ty f) = some u → clear u = true →
    maccLegal u.g ty f = true → f.ma ≠ 0#4 → mapTrap u [maccSrc ty f.a f.ma f.ta] = none →
    ∃ view, mapView u.g u.p.fmt f.ma.toNat = some view ∧
      let quiet := noNanTrap u (active u).toList (fun l => (maccOut u ty f view l).2)
      (fmtNANTRAP u.p.fmt = false → ∃ t, exec (.macc ty f) s = .next t ∧ MaccLeaves u ty f view t) ∧
      (quiet = true → ∃ t, exec (.macc ty f) s = .next t ∧ MaccLeaves u ty f view t) ∧
      (quiet = false → ∃ r : TrapReq, r.cause = .nanProduced ∧ r.slot = f.ma.toNat ∧
        (∀ l < 64, r.mask.has l = ((active u).has l && (maccOut u ty f view l).2.produced)) ∧
        exec (.macc ty f) s = .next (takeTrap s u.g.gid u.p.sid r))

/-- LDL: the reads of its rows are in flight, with the fields, the map and the counters as they stand at issue; its end
writes each active lane's packed bytes and scales, or mapped values, to its run of vector registers and no ring, and raises its
flags, in what IRET restores too where it came before the trap whose handler runs. The counters of an .X form advance as it
issues (log 74), and under NANTRAP it reads its rows at issue (log 56) (05 R109; 06 R132; 07 R156, R157; 11 R209; 22 R357). -/
def Obligations.LatentLoads : Prop :=
  (∀ (f : MFmt) (s s1 : State) (u : Iss) (pages : List (Nat × Nat)), issuer s (.ldl f) = some u → clear u = true →
    let a := effAddr u f 0
    let n := ldlBytes f.mod
    ldlLegal u f = true → fabricRun u.ctx a n = false →
    ldlSlotTrap u (ldlX f.mod) f.ma = none → active u ≠ 0#64 → translateRun u .ldl a n = .ok (s1, pages) →
    engFull u .c0 = false →
    let view := mapView u.g u.p.fmt f.ma.toNat
    ((ldlX f.mod && fmtNANTRAP u.p.fmt) = false →
      ∃ s2 o, Launched u s1 s2 (some .c0) o ∧ o.elems = pieceElems .global a.toNat n pages ∧ o.acq = false ∧ o.rel = false ∧
        o.kind = .ldl f u.p.fmt u.p.members (active u) (if ldlX f.mod then keepView view else none) u.g.srseed u.g.srctr ∧
        exec (.ldl f) s = .next (retire (updGroup s2 u.g.gid fun g =>
          if ldlX f.mod && rmEff f.h u.p.fmt == .sr then advanceCtrs g (active u) (ldlRows f.mod) else g) u true)) ∧
    ((ldlX f.mod && fmtNANTRAP u.p.fmt) = true → ∀ bs s2,
      (let o := (mkOp u s1 (.load .b64 f.d) false false .grp (pieceElems .global a.toNat n pages)).1
       let c := choose (mkOp u s1 (.load .b64 f.d) false false .grp (pieceElems .global a.toNat n pages)).2 2
       readNow c.2 o (c.1 == 1) = some (bs, none, s2)) →
      let out := ldlOut (rEnv f.h u.p.fmt u.g.srseed) (mapLanes u) f (ldlView u.p.fmt f.ma.toNat (keepView view)) bs u.g.srctr
      noNanTrap u (active u).toList (fun l => (out l).2) = true →
      ∃ t g', exec (.ldl f) s = .next (retire t u true) ∧ { t with groups := s2.groups } = s2 ∧
        groupOf t u.g.gid = some g' ∧ RunWritten u.g g' f.d (ldlRun f.mod) (active u) (fun l => (out l).1))) ∧
  (∀ (s : State) (op : Nat) (o o1 : Op) (g : Group) (f : MFmt) (fmt : BitVec 9) (members act : Lanes)
    (view : Option (Nat × List (BitVec 16) × List Byte)) (seed : DWord) (ctrs : LaneVec),
    opOf s op = some o → o.kind = .ldl f fmt members act view seed ctrs →
    let s1 := loadElems s op allLanes 0#64
    opOf s1 op = some o1 → o1.performed = true → groupOf s1 o1.gid = some g →
    let out := ldlOut (rEnv f.h fmt seed) (mapLanesOf members (fmtW32 fmt)) f (ldlView fmt f.ma.toNat view) (pieceBytes o1.elems) ctrs
    ∃ t g', exec (.ldlReturn op) s = .next t ∧ t.mem = s1.mem ∧ t.rings = s1.rings ∧ (∀ y ∈ t.ops, y.id ≠ op) ∧
      groupOf t o1.gid = some g' ∧ g'.sregs = g.sregs ∧ g'.splits = g.splits ∧ g'.srctr = g.srctr ∧
      (o1.elems.findSome? Elem.bad = none →
        (∀ n, f.d = .v n → RunWritten g g' f.d (ldlRun f.mod) act (fun l => (out l).1)) ∧
        (let raised := fun k => act.toList.any fun l => (out l).2.flags.getLsbD k
         (∀ k < 6, g'.status.getLsbD k =
           (g.status.getLsbD k || ((!o1.tmpl.inhandler || g.shadow.isSome) && raised k))) ∧
         ∀ sh, g.shadow = some sh → ∃ sh', g'.shadow = some sh' ∧
           ∀ k < 6, sh'.status.getLsbD k = (sh.status.getLsbD k || (!o1.tmpl.inhandler && raised k)))) ∧
      (∀ pa, o1.elems.findSome? Elem.bad = some pa → g'.vregs = g.vregs ∧ g'.status = g.status ∧
        g'.badLoads = g.badLoads ++ [{ pc := o1.tmpl.pc, pa, dst := opDsts o1 }]))

/-! ## Barriers and copies -/

/-- BINIT, BARR and BEXP leave their object as 08 R167 and R168 say and run the completion check; BTEST reads whether a phase
is completed; BWAIT goes on, or waits for it (08 R165 to R170; 20 R296 to R299). The object after a completed phase follows
R166 to the letter (log 39). An object that no instruction has named before, which stores may have built, has its checks first
(R165, R166; log 53): `s0` is the state with the object met. A BWAIT that finds its phase incomplete retires and its split waits
(log 29); one that finds a .DEV phase complete waits while the phase's harvest is out (09 R189). -/
def Obligations.BarrierInstructions : Prop :=
  (∀ (f : RFmt) (s : State) (u : Iss), issuer s (.binit f) = some u → clear u = true → IdsOk s → SpadsOk s →
    let n := barVal u f f.b
    let b := barVal u f f.c
    let s0 := meetObj s u.g.team (barOff u f)
    (siOk f.b && siOk f.c) = true → n ≤ 8191 → (n ≠ 0 ∨ b ≠ 0) → barrierOk u f = true →
    ∃ s2, exec (.binit f) s = .next (retire s2 u true) ∧ Met s s0 u.g.team (barOff u f) ∧ BarPut s0 s2 u.g.team (barOff u f)
      { phase := 0, exp := n, arr := 0, ahead := 0, ovr := false, trapovr := f.mod.getLsbD 0, carry := f.mod.getLsbD 1,
        expbytes := b, landed := 0 }) ∧
  (∀ (f : RFmt) (s : State) (u : Iss), issuer s (.barr f) = some u → clear u = true → IdsOk s → SpadsOk s →
    let l := f.mod.getLsbD 0
    let n := if l then max 1 (active u).count else barVal u f f.b
    let s0 := meetObj s u.g.team (barOff u f)
    let b := barAt s0 u.g.team (barOff u f)
    let p := if f.mod.getLsbD 1 then barVal u f f.c % 2 ^ 16 else b.phase
    let k := (p + 2 ^ 16 - b.phase) % 2 ^ 16
    let cur := if k = 0 then b.arr else b.ahead
    ((l || siOk f.b) && (!f.mod.getLsbD 1 || siOk f.c)) = true → 1 ≤ n → n ≤ 8191 → barrierOk u f = true →
    b.uninit = false → released u (f.mod.getLsbD 2) = true → plainGrid s u.g.grid →
    Met s s0 u.g.team (barOff u f) ∧
    (2 ≤ k → ∃ t, exec (.barr f) s = .next t ∧
      Trapped (met u (barOff u f)) .barrierPhase u.p.members (BitVec.ofNat 64 (barOff u f)) (BitVec.ofNat 64 p) t) ∧
    (k < 2 → b.exp < cur + n → b.trapovr = true → ∃ t, exec (.barr f) s = .next t ∧
      Trapped (met u (barOff u f)) .barrierOverrun u.p.members (BitVec.ofNat 64 (barOff u f)) (BitVec.ofNat 64 b.toNat) t) ∧
    (k < 2 → (b.exp < cur + n → b.trapovr = false) →
      let new := min (cur + n) b.exp
      ∃ s2, exec (.barr f) s = .next (retire s2 u true) ∧ BarPut s0 s2 u.g.team (barOff u f)
        { b with ovr := b.ovr || decide (b.exp < cur + n), arr := if k = 0 then new else b.arr,
                 ahead := if k = 0 then b.ahead else new % 2 ^ 13 })) ∧
  (∀ (f : RFmt) (s : State) (u : Iss), issuer s (.bexp f) = some u → clear u = true → IdsOk s → SpadsOk s →
    let s0 := meetObj s u.g.team (barOff u f)
    let b := barAt s0 u.g.team (barOff u f)
    let v := barVal u f f.b
    let x := if f.mod.getLsbD 0 then v else (b.expbytes + v) % 2 ^ 32
    siOk f.b = true → barrierOk u f = true → b.uninit = false → (b.exp ≠ 0 ∨ x ≠ 0) → plainGrid s u.g.grid →
    ∃ s2, exec (.bexp f) s = .next (retire s2 u true) ∧ Met s s0 u.g.team (barOff u f) ∧ BarPut s0 s2 u.g.team (barOff u f) { b with expbytes := x }) ∧
  (∀ (f : RFmt) (s : State) (u : Iss), issuer s (.btest f) = some u → clear u = true → SpadsOk s →
    let s0 := meetObj s u.g.team (barOff u f)
    let b := barAt s0 u.g.team (barOff u f)
    let p := barVal u f f.b % 2 ^ 16
    (siOk f.b && sOk false f.d) = true → barrierOk u f = true → u.g.repro = false → phaseBad b p = false →
    ∃ s2, exec (.btest f) s = .next (retire s2 u true) ∧ Met s s0 u.g.team (barOff u f) ∧
      Acquired (setGroup s0 (writeScalarNat u.g false f.d (if b.completed p then 1 else 0))) s2 u.g.core
        (b.completed p && ((objOf s0 u.g.team (barOff u f)).info p).dev)) ∧
  (∀ (f : RFmt) (s : State) (u : Iss), issuer s (.bwait f) = some u → clear u = true → SpadsOk s →
    let s0 := meetObj s u.g.team (barOff u f)
    let b := barAt s0 u.g.team (barOff u f)
    let p := barVal u f f.b % 2 ^ 16
    let i := (objOf s0 u.g.team (barOff u f)).info p
    let out := u.g.repro && i.dev && i.key.any (harvestOut s0 u.g.grid)
    siOk f.b = true → barrierOk u f = true → b.uninit = false → phaseBad b p = false →
    Met s s0 u.g.team (barOff u f) ∧
    (b.completed p = true → out = true → exec (.bwait f) s = .next s0) ∧
    (b.completed p = true → out = false → ∃ s2, exec (.bwait f) s = .next (retire s2 u true) ∧
      Acquired (setGroup s0 (raiseLbaseAtIssue u.g i.lt)) s2 u.g.core i.dev) ∧
    (b.completed p = false → ∃ s2, exec (.bwait f) s = .next (retire s2 u true) ∧
      groupOf s2 u.g.gid = some (setSplit u.g { u.p with state := .waitPhase (barOff u f) p none, parkSeq := s0.nextId }) ∧
      (∀ n, n ≠ u.g.gid → groupOf s2 n = groupOf s n) ∧ { s2 with groups := s0.groups, nextId := s0.nextId } = s0))

/-- COPY puts its command in flight with the fields of its block, counted in C1, or C3 when it acts on the fabric; one that names a
barrier object meets it (log 53); a chunk that
shares no 8-byte unit with another, performed in one step, writes the bytes it reads, and no others; a command all of whose chunks are performed counts off, or presents its action.
WAITC goes on once its counter is low enough (08 R159 to R163, R169; 09 R185; 20 R308 to R310; 23 R398). The writes of a
chunk into an uncorrectable granule are left to log 45. -/
def Obligations.CopyCommands : Prop :=
  (∀ (f : RFmt) (s : State) (u : Iss), issuer s (.copy f) = some u → clear u = true →
    let b := copyBlk u f.a
    let bar := if copyBar f then some (readNat u 0#64 false f.b 0) else none
    let caddr := if f.c = .zero then none else some (readPair u f.c 0)
    guardIsVector f.h.guard = false → copyOperands f = true → scalarGuard u.g f.h.guard = true → copyLimits u f = true →
    (copyKindCode f = 1 → u.g.repro = false) → copyTrap u f b bar (caddr.getD 0#64) = none → engFull u (copyClass u f) = false →
    ∃ s2 c, exec (.copy f) s = .next (retire s2 u true) ∧ s2.copies = s.copies ++ [c] ∧
      (c.cls = copyClass u f ∧ c.kind = copyKind f ∧ c.ssp = copySsp f ∧ c.dsp = copyDsp f ∧ c.src = b.src ∧ c.dst = b.dst ∧
        c.rowBytes = b.rowBytes ∧ c.rows = b.rows ∧ c.sstride = b.sstride ∧ c.dstride = b.dstride ∧ c.bar = bar ∧
        c.caddr = caddr ∧ c.done = [] ∧ c.parts = [] ∧ c.data = [] ∧ c.stopped = false ∧ c.suspended = false ∧ c.acting = false ∧
        c.status = none ∧ c.gid = u.g.gid ∧ c.team = u.g.team ∧ c.grid = u.g.grid ∧ c.ctx = u.g.ctx ∧ c.core = u.g.core ∧
        c.sup = u.g.inHandler) ∧
      groupOf s2 u.g.gid = some { u.g with eng := u.g.eng ++ [{ cls := copyClass u f, op := c.cid, done := false }] } ∧
      (∀ n, n ≠ u.g.gid → groupOf s2 n = groupOf s n) ∧
      (let s0 := match bar with
         | some o => meetObj s u.g.team o
         | none => s
       { s2 with copies := s.copies, groups := s.groups, sredGroups := s.sredGroups, nextId := s.nextId } = s0 ∧
       ∀ o, bar = some o → SpadsOk s → Met s s0 u.g.team o) ∧
      (∀ n op ty, c.kind = .sred n op ty → ∀ x, s.sredGroups.find? (·.num == n) = some x → c.inst = some x.nextInst)) ∧
  (∀ (s s1 s2 : State) (cid k rd wr ps pd : Nat) (c : Copy) (x : Chunk), copyOf s cid = some c → c.chunks[k]? = some x →
    c.cls = .c1 → c.stopped = false → c.suspended = false → c.done.contains k = false → copyMayRun s c = true →
    chunkHeld c c.chunks k x = false → copyStops s c k = false → c.parts = [] → unitMates c c.chunks k = [k] →
    0 < x.len → x.len ≤ rd → x.len ≤ wr → c.bar = none → c.dsp = false → c.ssp = false → MemOk s →
    copyPages s c .load x.src x.len = (.ok [(x.src, ps, x.len)], s1) → badGranule? s1 ps x.len = none →
    (teamOf s c.team).map Team.copyNo = some 0 →
    copyPages s1 c .store x.dst x.len = (.ok [(x.dst, pd, x.len)], s2) → partlyBad s2 pd x.len = none →
    ∃ t c', exec (.copyChunk cid ⟨k, rd, wr⟩) s = .next t ∧
      (∀ i < x.len, memRead t.mem (pd + i) = memRead s1.mem (ps + i)) ∧
      (∀ a, (a < pd ∨ pd + x.len ≤ a) → memRead t.mem a = memRead s2.mem a) ∧
      copyOf t cid = some c' ∧ c'.done = c.done ++ [k] ∧ (∀ n, n ≠ cid → copyOf t n = copyOf s n) ∧ t.teams = s.teams) ∧
  (∀ (s : State) (cid k rd wr : Nat) (c : Copy) (x : Chunk) (off : Nat) (tm : Team), copyOf s cid = some c → c.chunks[k]? = some x →
    c.cls = .c1 → c.stopped = false → c.suspended = false → c.done.contains k = false → copyMayRun s c = true →
    chunkHeld c c.chunks k x = false → copyStops s c k = false → c.parts = [] → unitMates c c.chunks k = [k] →
    0 < x.len → x.len ≤ rd → x.len ≤ wr → c.bar = some off → c.dsp = true → c.ssp = true → IdsOk s → SpadsOk s →
    plainGrid s c.grid → off % 16 = 0 → teamOf s c.team = some tm → s.handles = [] → named s c.team off = true →
    plainSpad s c.team x.dst.toNat x.len →
    ∃ t, exec (.copyChunk cid ⟨k, rd, wr⟩) s = .next t ∧
      (let s1 := spadPut s c.team x.dst.toNat x.len (bytesToNat (natToBytes x.len (spadRead s c.team x.src.toNat x.len)))
       let b := barAt s1 c.team off
       BarPut s1 { t with copies := s1.copies } c.team off { b with landed := min (b.landed + x.len) (2 ^ 32 - 1) })) ∧
  (∀ (s : State) (cid : Nat) (c : Copy), copyOf s cid = some c → c.cls = .c1 → c.suspended = false →
    (c.acting = false → c.done.length = c.chunks.length → c.kind = .plain →
      ∃ t, exec (.copyCompletion cid) s = .next t ∧ CopyDone s t c) ∧
    (c.acting = false → c.done.length = c.chunks.length → c.kind = .future →
      ∃ t o, exec (.copyCompletion cid) s = .next t ∧ t.ops = s.ops ++ [o] ∧ o.kind = .copyF cid ∧ o.grid = c.grid ∧
        o.ctx = c.ctx ∧ o.elems = [mkElem 0 .global (c.caddr.getD 0#64) none 8] ∧ t.mem = s.mem ∧
        copyOf t cid = some { c with acting := true, inst := some o.id }) ∧
    (c.acting = false → c.done.length = c.chunks.length → ∀ ty b0, c.kind = .census ty b0 →
      (copyTeam s c.team = true ∨ plainGrid s c.grid) →
      ∃ t o, exec (.copyCompletion cid) s = .next t ∧ t.ops = s.ops ++ [o] ∧ o.kind = .fold ∧
        o.elems = foldElems .global (c.caddr.getD 0#64) 0 ty b0 (byteCodes ty (copyData c)) ∧ t.mem = s.mem) ∧
    (c.acting = true → actionAccepted s c = true → ∃ t, exec (.copyCompletion cid) s = .next t ∧ CopyDone s t c)) ∧
  (∀ (f : RFmt) (s : State) (u : Iss), issuer s (.waitc f) = some u → clear u = true →
    let t := readNat u (f.imm.zeroExtend 64) false f.a 0
    siOk f.a = true → guardIsVector f.h.guard = false → t ≤ 63 → scalarGuard u.g f.h.guard = true →
    (counter u.g (waitcClass f) ≤ t → ∃ s2, exec (.waitc f) s = .next (retire s2 u true) ∧
      Acquired s s2 u.g.core (waitcClass f == .c1 || waitcClass f == .c3)) ∧
    (t < counter u.g (waitcClass f) → exec (.waitc f) s = .next s))

/-- Commands of the fabric: reads and writes of other devices through the export window, of whole commands, a row of this
device's sent to it, or read in parts of 8-byte units (09 R181), the result of a reduction in rank order, an abort after the time limit of an instance or when the switch's
buffering is full, a lost link; each leaves its status, and the completion record ends the command (08 R163, R164; 13 R241 to
R245). This device's number and export table, what other devices hold, and a reduction in no group are the model's choice (logs
18, 21, 22). -/
def Obligations.FabricCommands : Prop :=
  (∀ (s : State) (cid : Nat) (c : Copy), copyOf s cid = some c → c3MayAct s c = true → isSred c = false →
    exec (.remoteCopyWrite (.outgoing cid true)) s = .next (setCopy s { c with status := some 2 }) ∧
    ∀ s1 bs, c.bar = none → c.parts = [] → c.rows = 1 → remoteRow s c c.dsp c.dst = true → remoteRow s c c.ssp c.src = false →
      copyRead s c c.src c.rowBytes = (.ok bs, s1) → memWf s.remote = true →
      ∃ t, exec (.remoteCopyWrite (.outgoing cid false)) s = .next t ∧ t.mem = s1.mem ∧
        (∀ i < bs.length, memRead t.remote (c.dst.toNat + i) = bs.getD i 0#8) ∧
        (∀ a, (a < c.dst.toNat ∨ c.dst.toNat + bs.length ≤ a) → memRead t.remote a = memRead s.remote a) ∧
        copyOf t cid = some { c with status := some 0 }) ∧
  (∀ (s s1 : State) (cid k rd wr : Nat) (c : Copy) (bs : List Byte), copyOf s cid = some c → c3MayAct s c = true → k < c.rows →
    let a := rowAddr c.src c.sstride k
    let have' := (partOf c k).read.length
    let upto := min c.rowBytes (8 * ((a.toNat + have' + rd + 7) / 8) - a.toNat)
    remoteRow s c c.ssp a = false → 0 < rd → have' < upto →
    copyRead s c (a + BitVec.ofNat 64 have') (upto - have') = (.ok bs, s1) →
    ∃ c', exec (.remoteCopyWrite (.row cid ⟨k, rd, wr⟩)) s = .next (setCopy s1 c') ∧
      (partOf c' k).read = (partOf c k).read ++ bs ∧ (partOf c' k).written = (partOf c k).written ∧
      { c' with parts := c.parts } = c ∧ ∀ j, j ≠ k → partOf c' j = partOf c j) ∧
  (∀ (s : State) (rows : List (Nat × List Byte)) (asked : List (Nat × Nat)),
    ((∃ r ∈ rows, r.2 ≠ [] ∧ exportPages s true r.1 r.2.length = none) →
      exec (.remoteCopyWrite (.incoming rows)) s = .next s) ∧
    (∀ off data pa, rows = [(off, data)] → data ≠ [] → exportPages s true off data.length = some [(pa, 0, data.length)] →
      partlyBad s pa data.length = none → MemOk s → ∃ t, exec (.remoteCopyWrite (.incoming rows)) s = .next t ∧
        (∀ i < data.length, memRead t.mem (pa + i) = data.getD i 0#8) ∧
        ∀ a, (a < pa ∨ pa + data.length ≤ a) → memRead t.mem a = memRead s.mem a) ∧
    ((∃ r ∈ asked, r.2 ≠ 0 ∧ exportPages s false r.1 r.2 = none) →
      exec (.remoteCopyWrite (.incomingRead asked)) s = .next s) ∧
    (∀ off n pa, asked = [(off, n)] → n ≠ 0 → exportPages s false off n = some [(pa, 0, n)] →
      ∃ bs, exec (.remoteCopyWrite (.incomingRead asked)) s =
          .next { s with remoteReads := bs :: s.remoteReads, freeCtr := s.freeCtr + 1 } ∧ bs.length = n ∧
        ∀ i < n, s.badGranules.contains ((pa + i) / 32) = false → bs.getD i 0#8 = memRead s.mem (pa + i))) ∧
  (∀ (s : State) (grp inst op ty : Nat) (agree : Bool) (others : List (Nat × List Byte)) (c : Copy) (g : SredGroup),
    sredCopy s grp inst = some c → c.kind = .sred grp op ty → c.bar = none → c.parts = [] → s.sredGroups.find? (·.num == grp) = some g →
    (sredAborted s grp inst = true →
      exec (.sredInstanceReduce grp inst agree others) s = .next (setCopy s { c with status := some 1 })) ∧
    (sredAborted s grp inst = false → sredLate s g inst = false → ∀ s1 rows xs, c3ReadAll s c = (.ok rows, s1) →
      contributions g (rows.flatMap Prod.snd) others = some xs →
      ((agree = false ∨ g.devices.contains Config.deviceNumber = false ∨ ∃ b ∈ xs, b.length ≠ (rows.flatMap Prod.snd).length) →
        exec (.sredInstanceReduce grp inst agree others) s = .next (setCopy s1 { c with status := some 2 })) ∧
      (agree = true → g.devices.contains Config.deviceNumber = true → (∀ b ∈ xs, b.length = (rows.flatMap Prod.snd).length) →
        ∀ s2, c3WriteAll s1 c (rowsOf c (sredReduce op ty xs)) = (none, s2) →
          exec (.sredInstanceReduce grp inst agree others) s = .next (setCopy s2 { c with status := some 0 })))) ∧
  (∀ (op ty : Nat) (x : List Byte) (rest : List (List Byte)) (k : Nat), (∀ b ∈ rest, b.length = x.length) →
    k < x.length / sredBytes ty →
    (sredElems ty (sredReduce op ty (x :: rest))).getD k 0 =
      (rest.foldl (fun acc b => sredOp op ty acc ((sredElems ty b).getD k 0)) ((sredElems ty x).getD k 0)) %
        256 ^ sredBytes ty) ∧
  (∀ (s : State) (grp inst : Nat) (g : SredGroup), s.sredGroups.find? (·.num == grp) = some g →
    sredAborted s grp inst = false →
    (∀ e, ((e = .late ∧ sredLate s g inst = true) ∨ ∃ n m, e = .full n m ∧ 2 ^ 28 < g.devices.length * n + m) →
      ∃ t, exec (.sredTimeoutAbort grp ⟨inst, e⟩) s = .next t ∧ sredAborted t grp inst = true ∧ t.mem = s.mem ∧
        t.copies.length = s.copies.length) ∧
    (sredLate s g inst = false → exec (.sredTimeoutAbort grp ⟨inst, .late⟩) s = .next s) ∧
    (∀ x ∈ s.sredInsts, x.group = g.num → x.inst = inst → x.first + g.limit * 2250 < s.clock.toNat → sredLate s g inst = true) ∧
    ((s.sredInsts.any fun x => x.group == grp && x.inst == inst) = false →
      exec (.sredTimeoutAbort grp ⟨inst, .arrived⟩) s = .next { s with sredInsts :=
        { group := grp, inst, first := s.clock.toNat, aborted := false } :: s.sredInsts })) ∧
  (∀ (s : State) (l : List Nat), exec (.linkLoss l) s = .next { s with copies := s.copies.map fun c =>
    if c.cls = .c3 ∧ c.status = none ∧ c.cid ∈ l then { c with status := some 3 } else c }) ∧
  (∀ (s : State) (cid st : Nat) (c : Copy), copyOf s cid = some c → c.status = some st → c.cls = .c3 → c.stopped = false →
    (st = 0 → c.parts = []) →
    (c.caddr = none → ∃ t, exec (.c3CompletionRecord cid) s = .next t ∧ CopyDone s t c) ∧
    (∀ s1 a pd, c.caddr = some a → remoteRow s c false a = false → copyPages s c .store a 8 = (.ok [(a, pd, 8)], s1) →
      partlyBad s1 pd 8 = none → copyTeam s c.team = false → MemOk s → st < 2 ^ 64 →
      ∃ t, exec (.c3CompletionRecord cid) s = .next t ∧ Wrote s1 t pd 8 st ∧ ∀ x ∈ t.copies, x.cid ≠ cid) ∧
    (∀ a, c.caddr = some a → remoteRow s c false a = true → memWf s.remote = true → st < 2 ^ 64 →
      ∃ t, exec (.c3CompletionRecord cid) s = .next t ∧ t.mem = s.mem ∧ memReadN t.remote a.toNat 8 = st ∧
        ∀ x ∈ t.copies, x.cid ≠ cid))

/-! ## Tasks and futures -/

/-- SPAWN reads its lanes' descriptors, files their records in ascending order and leaves 1 in the lanes whose record was
filed, else 0; a handle's granules leave the team with its record (04 R81 to R83; 23 R394, R395). In a reproducible grid it
waits behind a released record of its grid that can be filed, and files none past one that cannot (04 R87; log 86). -/
def Obligations.SpawnRecords : Prop :=
  ∀ (f : RFmt) (s s1 : State) (u : Iss) (ds : List (Nat × Nat)), issuer s (.spawn f) = some u → clear u = true →
    spawnOk u f = true → (active u).toList ≠ [] → released u true = true →
    (deferredAhead u).any (fun r => (fileRec s u.g.core r).isSome) = false →
    readEntries u f.a (active u).toList = .ok (s1, ds) →
    let ls := (active u).toList
    let j := f.mod.getLsbD 3
    (j = true → alignedTo u f.c 4 ls = true) →
    OnlyRead s s1 ∧ ds.map Prod.fst = ls ∧ (∀ x ∈ ds, descSpawnable u.g x.2 = true) ∧
    let recs := ds.map fun x => (x.1, laneRecord u f.a (bits f.mod 0 3) f.b j f.c false x.2 x.1)
    let put := fun (s2 : State) (oks : List (Nat × Bool)) => retire (updGroup s2 u.g.gid fun g =>
      writeReg g f.d (Lanes.ofPred ls.contains) fun l => if oks.any (fun x => x.1 == l && x.2) then 1#32 else 0#32) u true
    (f.mod.getLsbD 4 = false → ∀ s2 oks, fileLanes u s1 recs = (s2, oks) → (u.g.repro = true → ∀ x ∈ oks, x.2 = true) →
      exec (.spawn f) s = .next (put s2 oks)) ∧
    (f.mod.getLsbD 4 = true → ls.length = 1 →
      let h := readWord u 0#32 (opndOfCode (bits f.imm 0 10)) 0
      handleValid u h = true → ∀ hid sh s2 oks, handGranules u s1 h = (hid, sh) →
        fileLanes u sh (recs.map fun x => (x.1, { x.2 with handle := some hid })) = (s2, oks) →
        hid = s.nextId ∧
        (∃ x, sh.handles = s.handles ++ [x] ∧ x.hid = hid ∧ x.parent = u.g.team ∧ x.first = bits h 0 8 ∧
          x.count = bits h 8 8 ∧ x.child = none) ∧
        ((∀ x ∈ oks, x.2 = true) → exec (.spawn f) s = .next (put s2 oks)) ∧
        ((∃ x ∈ oks, x.2 = false) → u.g.repro = false → exec (.spawn f) s = .next (put s1 oks)))

/-- FREG and FRES send their requests and wait; their replies write d, retire them, or trap. JWAIT goes on when its counter is
zero, else waits, and the home's report wakes it (04 R93, R95, R96; 21 R340 to R344; 22 R352; 12 R230). That a waiting JWAIT
retires at its issue is read as log 29 says. -/
def Obligations.FuturesAndJoins : Prop :=
  (∀ (f : RFmt) (s s1 s2 : State) (u : Iss) (ds pas : List (Nat × Nat)), issuer s (.freg f) = some u → clear u = true →
    u.p.awaiting = none → fregOk u f = true → (active u).toList ≠ [] → released u true = true →
    readEntries u f.b (active u).toList = .ok (s1, ds) →
    let j := f.mod.getLsbD 3
    (j = true → alignedTo u f.c 4 (active u).toList = true) → alignedTo u f.a 8 (active u).toList = true →
    translateLanes s1 u .rmw (active u).toList (readPair u f.a) = (s2, pas, []) →
    (u.g.repro = true → futuresHaveRoom s2 pas = true) →
    ∃ t o, exec (.freg f) s = .next t ∧ Asked u t o ∧
      o.kind = .futReg (ds.map fun x =>
        laneRecord u f.b (bits f.mod 0 3) (opndOfCode (bits f.imm 0 10)) j f.c j x.2 x.1) f.d ∧
      o.elems = pas.map fun x => mkElem x.1 .global (readPair u f.a x.1) (some x.2) 8) ∧
  (∀ (f : RFmt) (s : State) (u : Iss) (id : Nat) (o : Op), issuer s (.freg f) = some u → clear u = true →
    u.p.awaiting = some id → opOf s id = some o → o.performed = true → o.elems.findSome? Elem.bad = none →
    (o.elems.map Elem.lane).Nodup → taskDst u.g f.d = true →
    ∃ s2 g', exec (.freg f) s = .next (retire s2 u true) ∧ (∀ x ∈ s2.ops, x.id ≠ id) ∧ s2.mem = s.mem ∧
      groupOf s2 u.g.gid = some g' ∧
      Returned { u.g with splits := g'.splits } g' f.d false (o.elems.map fun e => (e.lane, e.res.toNat)) ∧
      splitOf g' u.p.sid = some { u.p with awaiting := none }) ∧
  (∀ (f : MFmt) (s s1 : State) (u : Iss) (pa : Nat), issuer s (.fres f) = some u → clear u = true → u.p.awaiting = none →
    scalarAddrLegal u f = true → inFabric u.ctx (effAddr u f 0) = false → u.g.checked = false →
    scalarGuard u.g f.h.guard = true → scalarPlace u f .rmw 8 = .ok (s1, pa) → released u true = true →
    ∃ t o, exec (.fres f) s = .next t ∧ Asked u t o ∧ o.kind = .futRes ∧
      o.elems = [mkElem 0 .global (effAddr u f 0) (some pa) 8]) ∧
  (∀ (f : MFmt) (s : State) (u : Iss) (id : Nat) (o : Op) (e : Elem), issuer s (.fres f) = some u → clear u = true →
    u.p.awaiting = some id → opOf s id = some o → o.elems = [e] → e.st = .done → e.bad = none →
    let s1 := updSplit (removeOp s id) u.g.gid u.p.sid fun p => { p with awaiting := none }
    (e.res = 0#64 → exec (.fres f) s = .next (retire s1 u true)) ∧
    (e.res = 1#64 → ∃ t, exec (.fres f) s = .next t ∧
      Trapped { u with s := s1 } .futureDoubleResolve u.p.members e.va e.data2 t) ∧
    (e.res = 2#64 → ∃ t, exec (.fres f) s = .next t ∧ Rejected { u with s := s1 } .operandIllegal t)) ∧
  (∀ (f : MFmt) (s s1 : State) (u : Iss) (pa : Nat), issuer s (.jwait f) = some u → clear u = true →
    scalarAddrLegal u f = true → inFabric u.ctx (effAddr u f 0) = false → scalarGuard u.g f.h.guard = true →
    scalarPlace u f .load 4 = .ok (s1, pa) →
    (let e := mkElem 0 .global (effAddr u f 0) (some pa) 4
     elemReady s1 (mkOp u s1 (.load .b32 .zero) true false .dev [e]).1 e = true) →
    badGranule? s1 pa 4 = none →
    Walked s s1 ∧
    (physRead s1 pa 4 = 0 → exec (.jwait f) s = .next (retire (acquireDev
      (setGroup s1 (raiseLbaseAtIssue u.g (zeroLt s1 pa))) u.g.core) u true)) ∧
    (physRead s1 pa 4 ≠ 0 → exec (.jwait f) s = .next (retire (setGroup { s1 with nextId := s1.nextId + 1 }
      (setSplit u.g { u.p with state := .waitJoin (effAddr u f 0) pa false none, parkSeq := s1.nextId })) u true))) ∧
  (∀ (s : State) (g sp pa : Nat) (va : DWord) (seen : Bool) (lt : Option Nat) (x : Group) (p : Split),
    groupOf s g = some x → splitOf x sp = some p → x.place = .resident → p.state = .waitJoin va pa seen lt →
    ((seen = true ∨ physRead s pa 4 = 0) → exec (.jwaitWake g sp) s = .next (acquireDev (setGroup s
      (setSplit (raiseLbase x (if seen then lt else zeroLt s pa)) { p with state := .ready })) x.core)) ∧
    (seen = false → physRead s pa 4 ≠ 0 → exec (.jwaitWake g sp) s = .next s))

/-- A gate's decrement; when it brings the gate to zero, the record behind it is filed on the releasing core. At a future's home:
a registration adds its record while the future is pending and has room, releases it when it is resolved, and is refused when
full or reserved, lanes on one future one after another; a resolution makes the word resolved, with no count, and releases the
records of its block in index order (04 R94 to R96; 08 R163; 21 R341). Waiters of a reproducible grid whose harvest is then over
go on (09 R189). That the block's bytes are not written, and HEAD is not used, is the model's choice (log 71). -/
def Obligations.FutureHomes : Prop :=
  (∀ (s : State) (op fut : Nat) (o : Op) (r : ThreadRec) (e : Elem) (pa : Nat) (s1 : State), opOf s op = some o →
    o.kind = .gate r fut → elemNext s o 0 e = true → e.bad = none → e.size = 4 → Reaches s o e pa s1 → MemOk s1 →
    badGranule? s1 pa 4 = none →
    let v := rmwValue e.u e.op (physRead s1 pa 4) e.data.toNat e.data2.toNat
    ∃ s2 t, exec (.gateDecrement op) s = .next t ∧ Wrote s1 s2 pa 4 v ∧ (∀ x, memRead t.mem x = memRead s2.mem x) ∧
      t = settleKeys o.grid (settleOp (if v % 2 ^ 32 = 0 then fileOrDefer s2 o.core fut r else s2) op, []) ∧ s2.cores.length = s1.cores.length ∧
      s2.deferredRecs = s1.deferredRecs ∧ s2.contexts = s1.contexts ∧
      ∀ c, (coreOf s2 c).pans = (coreOf s1 c).pans) ∧
  (∀ (s : State) (op k : Nat) (o : Op) (e : Elem) (rs : List ThreadRec) (d : Opnd), opOf s op = some o →
    o.kind = .futReg rs d → rs.length = o.elems.length → elemNext s o k e = true → MemOk s →
    badGranule? s (e.pa.getD 0) 8 = none →
    ∃ t, exec (.futureRegistration op k) s = .next (settleKeys o.grid (t, [])) ∧ k ∈ withElem o k e ∧
      RegisteredAll o rs (e.pa.getD 0) s (withElem o k e) t) ∧
  (∀ (s s1 : State) (op pa : Nat) (o : Op) (e : Elem), opOf s op = some o →
    (o.kind = .futRes ∨ ∃ cid, o.kind = .copyF cid) → elemNext s o 0 e = true → Reaches s o e pa s1 → MemOk s1 →
    badGranule? s1 pa 8 = none →
    let w := physRead s1 pa 8
    ∃ t, exec (.futureResolution op) s = .next t ∧
      (w % 4 < 2 → ∃ s2 s3, Wrote s1 s2 pa 8 (w / 2 ^ 16 * 2 ^ 16 + 2) ∧ s2.cores.length = s1.cores.length ∧
        s2.contexts = s1.contexts ∧ s2.grids = s1.grids ∧ (blockOf s2 pa).recs = [] ∧
        ReleasedAll o pa s2 ((blockOf s1 pa).recs.take (w / 4 % 2 ^ 14)) s3 ∧ t = settleKeys o.grid (settleOp s3 op, [])) ∧
      (o.kind = .futRes → o.elems = [e] → (2 ≤ w % 4 → t.mem = s1.mem) ∧ ∃ x, elemAt? t op 0 = some x ∧ x.st = .done ∧
        x.data2 = BitVec.ofNat 64 w ∧ x.res = if w % 4 = 2 then 1#64 else if w % 4 = 3 then 2#64 else 0#64))

/-- File(rec), and what a released record does with no room: it waits and is filed later, in order among those of its future and
core, or of its grid and core where that is reproducible. A pan's timer expires at timer x 64 clk; a ready pan launches one
group of one lane for each record, which starts at the entry's code with the records' payloads and join addresses in v0 to v5
(04 R84 to R89; 21 R341, R344). Which slots a pan launch may take, that the brine ring's bytes are not written, and which
Rake may take a record from it are read as logs 30, 72, 27 and 63 say. -/
def Obligations.RakeAndPans : Prop :=
  (∀ (s : State) (core : Nat) (r : ThreadRec), Filed s core r (fileRec s core r)) ∧
  (∀ (s : State) (core fut : Nat) (r : ThreadRec), ctxEnding s r.ctx = false →
    let behind := s.deferredRecs.any fun d => d.1 == core && (d.2.1 == fut || (d.2.2.grid == r.grid && gridRepro s r.grid))
    (∀ t, behind = false → fileRec s core r = some t → fileOrDefer s core fut r = t) ∧
    ((behind = true ∨ fileRec s core r = none) →
      fileOrDefer s core fut r = { s with deferredRecs := s.deferredRecs ++ [(core, fut, r)] })) ∧
  (∀ (s t : State) (k core fut : Nat) (r : ThreadRec), s.deferredRecs[k]? = some (core, fut, r) →
    (∀ x ∈ s.deferredRecs.take k, x.1 = core → x.2.1 ≠ fut ∧ (x.2.2.grid = r.grid → gridRepro s r.grid = false)) → fileRec s core r = some t →
    exec (.deferredRecordFile k) s = .next { t with deferredRecs := s.deferredRecs.eraseIdx k }) ∧
  (∀ (s t : State) (core ctx : Nat) (c : Context) (r : ThreadRec) (rest : List ThreadRec), ctxOf s ctx = some c →
    c.brine = r :: rest → coreOpen s core = true → recFits s core r = true →
    (ctxResident s core ctx = true ∨ (ctxStopped s ctx = false ∧
      (r.handle ≠ none ∨ ∀ g ∈ s.groups, g.ctx = ctx → g.place ≠ .resident))) →
    (fileInRake s core r = some t → exec (.brineIntake core ctx) s = .next (setCtx t { c with brine := rest })) ∧
    (fileInRake s core r = none → exec (.brineIntake core ctx) s = .next s)) ∧
  (∀ (s : State) (core pan : Nat) (p : Pan) (d : Desc), ((coreOf s core).pans[pan]?).join = some p → p.desc? = some d →
    d.repro = false → p.expired = false → p.timerStart + 64 * d.timer ≤ s.clock.toNat →
    exec (.panTimerExpiry core pan) s = .next (setCore s core
      { coreOf s core with pans := (coreOf s core).pans.set pan (some { p with expired := true }) })) ∧
  (∀ (s : State) (core pan q : Nat) (p : Pan) (d : Desc) (gr : Grid), ((coreOf s core).pans[pan]?).join = some p →
    p.desc? = some d → gridOf s p.grid = some gr → panReady s p = true → coreOpen s core = true → gridStopped s gr = false →
    gridAway s gr = false → core < s.cores.length → IdsOk s →
    let regs := 8 * d.vregs0
    let spad := roundGranule d.spad
    let s' := makeRoom s core regs spad
    admits (roomOf s' core) [(regs, 0)] spad true = some [q] → evictionsAllowed s s' = true →
    saveHolds s' gr.ctx (groupArea regs 0 + spad) = true → gr.desc.narrow = d.narrow →
    let rs := launchRecs p (coalOf d)
    ∃ t g f, exec (.panLaunch core pan) s = .next t ∧ t.mem = s'.mem ∧ t.groups = s'.groups ++ [g] ∧
      (coreOf t core).pans[pan]? = some (panAfter s.clock.toNat rs.length p) ∧
      g.splits = [f] ∧ f.pc = d.code ∧ f.members = Lanes.ofPred (fun l => decide (l < rs.length)) ∧ f.em = f.members ∧
      f.state = .ready ∧ f.fmt = fmtInit d.narrow ∧ g.core = core ∧ g.quarter = q ∧ g.grid = p.grid ∧ g.ctx = gr.ctx ∧
      g.vregs.length = regs ∧ g.status = 0#6 ∧ g.regions = [] ∧
      (∀ k < 6, k < regs → ∀ l < 64, (g.vregs.getD k LaneVec.zero).get l =
        match rs[l]? with
        | none => 0#32
        | some r => if k < 4 then r.payload.getD k 0#32
          else (if r.gated then 0#64 else r.join).extractLsb' (32 * (k - 4)) 32) ∧
      (∀ k, 6 ≤ k → k < regs → g.vregs.getD k LaneVec.zero = LaneVec.zero) ∧
      (rs.all (fun r => r.handle.isNone) = true → g.sregs = List.replicate 64 0#32))

/-! ## Translation and pages -/

/-- A walk gives the leaf's address and sets A, and D for a write, in the leaf and nowhere else, or faults with the reason of
10 R194; a TLB entry in force is used as it stands, and a miss fills one whose lease runs from now (10 R192 to R197). A leaf in
an uncorrectable granule is used as it stands and its A and D are not set, but logged (10 R205; log 54). Which of the engines
walk without a TLB is the model's choice (log 15). -/
def Obligations.Translation : Prop :=
  (∀ (s : State) (c : Context) (va : DWord) (a : Access) (sup : Bool), bits va 57 7 ≠ 0 →
    walkAccess s c va a sup = (.error { va, access := a, reason := .malformed, large := false }, s)) ∧
  (∀ (s : State) (c : Context) (va : DWord) (a : Access) (sup : Bool), bits va 57 7 = 0 →
    (∀ l pa, walk s c.ptroot va.toNat = .invalid l pa →
      walkAccess s c va a sup = (.error { va, access := a, reason := .notPresent, large := false }, s)) ∧
    (∀ l pa, walk s c.ptroot va.toNat = .malformed l pa → ∃ large,
      walkAccess s c va a sup = (.error { va, access := a, reason := .malformed, large }, s)) ∧
    (∀ l pa e, walk s c.ptroot va.toNat = .leaf l pa e →
      let no := denied? a sup (pteR e) (pteW e) (pteX e) (pteS e)
      let out := match no with
        | some r => .error { va, access := a, reason := r, large := l == 2 }
        | none => .ok (if l = 2 then pteFrame e + va.toNat % 2 ^ 29 else pteFrame e + va.toNat % 2 ^ 16)
      (MemOk s → badGranule? s pa 8 = none → ∃ t, walkAccess s c va a sup = (out, t) ∧
        (∀ k < 64, (pteAt t pa).getLsbD k = (e.getLsbD k || k == 7 || (k == 8 && a.writes && no.isNone))) ∧
        (∀ x, (x < pa ∨ pa + 8 ≤ x) → memRead t.mem x = memRead s.mem x) ∧
        { t with mem := s.mem, badGranules := s.badGranules } = s) ∧
      (∀ b, badGranule? s pa 8 = some b → pteA e = false → ∃ t r, walkAccess s c va a sup = (out, t) ∧
        t = report s { ctx := c.num, link := .log, body := r } ∧ t.mem = s.mem ∧
        r.cause = Cause.memoryUncorrectable.code ∧ r.source = 4 ∧ r.aux1 = BitVec.ofNat 64 b))) ∧
  (∀ (s : State) (c : Nat) (ctx : Context) (va : DWord) (a : Access) (sup : Bool), bits va 57 7 = 0 →
    (∀ t, tlbLookup (coreOf s c) s.clock.toNat (a == .fetch) ctx.num va.toNat = some t →
      s.clock.toNat < t.expiry ∧ t ∈ (coreOf s c).tlb ∧
      (denied? a sup t.r t.w t.x t.s = none → (a.writes = true → t.d = true) →
        translate s c ctx va a sup =
          (.ok (if t.large then t.frame + va.toNat % 2 ^ 29 else t.frame + va.toNat % 2 ^ 16), s)) ∧
      (∀ r, denied? a sup t.r t.w t.x t.s = some r → ∃ s2,
        translate s c ctx va a sup = (.error { va, access := a, reason := r, large := t.large }, s2) ∧
        { s2 with cores := s.cores } = s ∧ (c < s.cores.length → a ≠ .fetch → t ∉ (coreOf s2 c).tlb))) ∧
    (tlbLookup (coreOf s c) s.clock.toNat (a == .fetch) ctx.num va.toNat = none →
      (∀ f s1, walkAccess s ctx va a sup = (.error f, s1) → ∃ s2, translate s c ctx va a sup = (.error f, s2) ∧
        { s2 with cores := s1.cores } = s1 ∧
        (c < s1.cores.length → ∀ t, tlbLookup (coreOf s1 c) s1.clock.toNat false ctx.num va.toNat = some t →
          t ∉ (coreOf s2 c).tlb ∧ ∀ u ∈ (coreOf s1 c).tlb, u ≠ t → u ∈ (coreOf s2 c).tlb)) ∧
      (∀ pa s1 l pe e, walkAccess s ctx va a sup = (.ok pa, s1) → walk s1 ctx.ptroot va.toNat = .leaf l pe e →
        ∃ s2, translate s c ctx va a sup = (.ok pa, s2) ∧ { s2 with cores := s1.cores } = s1 ∧
          (c < s.cores.length → ∃ t ∈ (coreOf s2 c).tlb, t.ctx = ctx.num ∧ t.frame = pteFrame e ∧ t.r = pteR e ∧
            t.w = pteW e ∧ t.x = pteX e ∧ t.s = pteS e ∧ t.d = pteD e ∧
            t.expiry = s1.clock.toNat + ctx.lease * 2250))))

/-- PGMAP maps its lanes' pages in ascending order and leaves each lane's result; a request held in its core's path parks
when its Sluice has room, behind an earlier one of its group, or with its own fault reported, or is performed; a waiting
record is written once its ring has room (10 R201; 08 R173; 11 R208; 23 R390). -/
def Obligations.PagesAndParking : Prop :=
  (∀ (f : MFmt) (s : State) (u : Iss), issuer s (.pgmap f) = some u → clear u = true →
    (taskDst u.g f.d && f.space == 0#4 && addrOk u.g true f) = true → (active u).toList ≠ [] → released u true = true →
    ∃ s2 rs, MappedAll u.ctx (effAddr u f) (f.mod.getLsbD 0) s (active u).toList rs s2 ∧
      exec (.pgmap f) s = .next (retire (updGroup s2 u.g.gid fun g => writeReg g f.d (active u) fun l =>
        BitVec.ofNat 32 (((rs.find? (·.1 == l)).map Prod.snd).getD 0)) u true)) ∧
  (∀ (s : State) (op k : Nat) (o : Op) (e : Elem) (c : Context), opOf s op = some o → o.elems[k]? = some e →
    ctxOf s o.ctx = some c →
    (mayPark s o e = false → exec (.sluiceDeferredPark op k) s = .next s) ∧
    (mayPark s o e = true →
      (earlierParked s o e = true →
        exec (.sluiceDeferredPark op k) s = .next (settleOp (setElem s o k { e with st := .parked e.seq }) op)) ∧
      (earlierParked s o e = false → ∀ f s1, walkAccess s c e.va .rmw o.sup = (.error f, s1) →
        exec (.sluiceDeferredPark op k) s = .next (settleOp (report (setElem s1 o k { e with st := .parked e.seq })
          { ctx := o.ctx, link := .sluice o.gid o.die (e.va.toNat / 0x1_0000),
            body := opRecord s1 o.tmpl (if f.notPresent then .pageNotPresent else .pagePermission) 2 (laneBit e.lane) f.va
              (BitVec.ofNat 64 f.word) }) op)) ∧
      (earlierParked s o e = false → ∀ pa s1, walkAccess s c e.va .rmw o.sup = (.ok pa, s1) → MemOk s1 →
        (∃ u d, o.kind = .rmw u d) → e.space ≠ .scratch → badGranule? s1 pa e.size = none →
        ∃ t, exec (.sluiceDeferredPark op k) s = .next t ∧
          Wrote s1 t pa e.size (rmwValue e.u e.op (physRead s1 pa e.size) e.data.toNat e.data2.toNat)))) ∧
  (∀ (s : State) (k : Nat) (r : DriverRec) (c : Context), MemOk s → s.undelivered[k]? = some r → ctxOf s r.ctx = some c →
    ringHasRoom s c = true → (∀ x ∈ s.undelivered.take k, x.ctx ≠ r.ctx) →
    ∃ t, exec (.faultRecordDeferredDelivery k) s = .next t ∧
      (∀ i < 64, memRead t.mem (nextRecAddr c + i) = r.body.bytes.getD i 0#8) ∧
      physRead t c.fring 8 = (c.tail + 1) % 2 ^ 64 ∧ t.irqs = s.irqs ++ [c.fvec] ∧
      t.undelivered = s.undelivered.eraseIdx k ∧
      ∀ x, (x < c.fring ∨ c.fring + 8 ≤ x) → (x < nextRecAddr c ∨ nextRecAddr c + 64 ≤ x) →
        memRead t.mem x = memRead s.mem x)

/-- A hardware breakpoint halts the group for the driver before the instruction at its address, one met inside a chain when the
chain has ended; a fetch that brings no instruction takes its trap; a debugger's halt and a halt point leave the group as it
stands; an operation of a reproducible group may proceed when its key is the least (10 R204, R205; 11 R214, R218, R219; 12
R231; 13 R241). What a fetch in a fabric window brings, that a debugger's halt leaves no record, that a breakpoint met in a
chain and since unset halts nothing, and that a split halted at its chain's last instruction keeps its ring are the model's
choice (logs 20, 33, 86). -/
def Obligations.Halts : Prop :=
  (∀ (s : State) (g sp k : Nat) (x : Group) (p : Split) (c : Context), MemOk s → groupOf s g = some x →
    splitOf x sp = some p → ctxOf s x.ctx = some c → x.bpDue = none → bpHit c p = some k → mayIssue s x p = true →
    regWritesPending s g = false → comparedCopy s x = false →
    ∃ t r, exec (.hwBreakpoint g sp) s = .next t ∧ HaltedWith s t x sp c (.breakpoint false) r ∧
      r.cause = Cause.breakpoint.code ∧ r.source = 1 ∧ r.pc = p.pc ∧ r.mask = p.members ∧ r.aux0 = p.pc ∧
      r.aux1 = BitVec.ofNat 64 k) ∧
  (∀ (c : Context) (p : Split), ((p.chainLen ≠ 0 ∨ p.bpSkip = true) → bpHit c p = none) ∧
    ((∀ k : Nat, c.bps[k]? ≠ some p.pc) → bpHit c p = none) ∧ ∀ k, bpHit c p = some k → c.bps[k]? = some p.pc) ∧
  (∀ (s : State) (g sp k : Nat) (x : Group) (p q : Split) (c : Context) (d : BpDue), MemOk s → groupOf s g = some x →
    splitOf x sp = some p → ctxOf s x.ctx = some c → x.bpDue = some d → x.running = true → resumed x = true →
    regWritesPending s g = false → comparedCopy s x = false → dueSplit x d = some q →
    (c.bps[k]? = some d.addr → (∀ i < k, c.bps[i]? ≠ some d.addr) → ∃ t r, exec (.hwBreakpoint g sp) s = .next t ∧
      HaltedWith s t { x with bpDue := none } q.sid c (.breakpoint false) r ∧ r.cause = Cause.breakpoint.code ∧ r.source = 1 ∧
      r.pc = d.pc ∧ r.mask = d.mask ∧ r.aux0 = d.addr ∧ r.aux1 = BitVec.ofNat 64 k ∧ r.inchain = true ∧
      (groupOf t g).bind Group.bpDue = none) ∧
    ((∀ i : Nat, c.bps[i]? ≠ some d.addr) → exec (.hwBreakpoint g sp) s = .next (setGroup s { x with bpDue := none }))) ∧
  (∀ (s s1 : State) (g sp : Nat) (x : Group) (p : Split) (c : Context) (r : Fetched), groupOf s g = some x →
    splitOf x sp = some p → ctxOf s x.ctx = some c → mayIssue s x p = true → bpHit c p = none →
    fetchAt s x.core x.quarter c p.pc .memory p.refetch x.inHandler = (r, s1) →
    (∀ f, r = .fault f → groupOf s1 g = some x → exec (.instructionFetchFault g sp) s = .next (takeTrap s1 g sp
      { cause := .fetchFault, mask := p.members, aux0 := f.va, aux1 := BitVec.ofNat 64 f.word })) ∧
    (∀ pa, r = .ecc pa → groupOf s1 g = some x → exec (.instructionFetchFault g sp) s = .next (takeTrap s1 g sp
      { cause := .memoryUncorrectable, mask := p.members, aux0 := p.pc, aux1 := BitVec.ofNat 64 pa })) ∧
    (r = .fabric → groupOf s1 g = some x → ∃ a0 a1, exec (.instructionFetchFault g sp) s = .next
      (takeTrap { s1 with freeCtr := s1.freeCtr + 1 } g sp
        { cause := .operandIllegal, mask := p.members, aux0 := a0, aux1 := a1 })) ∧
    ((∃ w, r = .word w) ∨ r = .misaligned → exec (.instructionFetchFault g sp) s = .next s) ∧
    (r = .busy → exec (.instructionFetchFault g sp) s = .next s1)) ∧
  (∀ (s : State) (core quarter : Nat) (c : Context) (pc : DWord) (src : FetchFrom) (sup : Bool), pc.toNat % 16 = 0 →
    inFabric c pc = false → bufInstr s core quarter c.num pc.toNat = none →
    (∀ f s1, translate s core c pc .fetch sup = (.error f, s1) → fetchAt s core quarter c pc src true sup = (.fault f, s1)) ∧
    (∀ pa s1, translate s core c pc .fetch sup = (.ok pa, s1) → (src = .memory ∨ lineInstr s1 core c.num pc.toNat = none) →
      (∀ b, badGranule? s1 pa 16 = some b → fetchAt s core quarter c pc src true sup = (.ecc b, s1)) ∧
      (badGranule? s1 pa 16 = none → tornUnit s1 core pa = false → ∃ s2,
        fetchAt s core quarter c pc src true sup = (.word (BitVec.ofNat 128 (coreValue s1 core pa 16)), s2) ∧
        { s2 with cores := s1.cores } = s1))) ∧
  (∀ (s : State) (g : Nat) (x : Group) (p : Split) (ps : List Split), groupOf s g = some x → x.splits = p :: ps →
    x.place = .resident → x.driver = none → atRest x = true → regWritesPending s g = false →
    ∃ h, h.kind = .debugger ∧ h.addr = none ∧ exec (.debuggerHalt g) s = .next (setGroup s
      { x with driver := some h, splits := x.splits.map Split.holdSweep, savedRing := chainRing s x })) ∧
  (∀ (s : State) (g sp : Nat) (x : Group) (p : Split), groupOf s g = some x → splitOf x sp = some p →
    (x.haltReq && x.place == .resident && !p.halted && atHaltPoint x p) = true → IdsOk s →
    ∃ t g' p', exec (.splitHalt g sp) s = .next t ∧ groupOf t g = some g' ∧ splitOf g' sp = some p' ∧ p'.halted = true ∧
      p'.pc = p.pc ∧ p'.members = p.members ∧ p'.em = p.em ∧ p'.state = p.state ∧ p'.chainLen = p.chainLen ∧
      g'.mapresWait = x.mapresWait.filter (fun w => w.1 != sp) ∧ p'.syncWait = none ∧
      (∀ i n, p.sweep = some (i, n) → p'.swpidx = n ∧ p'.sweep = none) ∧
      g'.vregs = x.vregs ∧ g'.oregs = x.oregs ∧ g'.sregs = x.sregs ∧ g'.status = x.status ∧ g'.srctr = x.srctr ∧
      (∀ n, n ≠ sp → splitOf g' n = splitOf x n) ∧ { t with groups := s.groups, cores := s.cores } = s) ∧
  (∀ (s : State) (g sp : Nat) (x : Group) (p : Split) (sc : Scope), groupOf s g = some x → splitOf x sp = some p →
    p.syncWait = some sc →
    (syncReady s x sc = true → exec (.reproSyncProceed g sp) s = .next (setGroup s
      (setSplit x { p with syncWait := none, syncOk := true }))) ∧
    (syncReady s x sc = false → exec (.reproSyncProceed g sp) s = .next s))


/-! ## Launches and the end of work -/

/-- A group retires once no split of it is left and C0 and C2 are zero; a team once its groups have retired and its commands
have completed: its scratchpad region goes back to a parent that has not retired, which is the model's reading (logs 31, 66),
a copy under comparison leaves its stream. A team whose other groups have left goes too. A grid every condition of which holds
writes STATUS, increments DONE, and HEAD passes it (01 R28 to R31; 04 R83, R89; 12 R224, R228, R236, R401). -/
def Obligations.Lifecycle : Prop :=
  (∀ (s : State) (g : Nat) (x : Group), groupOf s g = some x → IdsOk s → (∀ q ∈ s.queues, q.cmd = none) →
    (∀ sl ∈ x.slots, sl.bad = none) →
    let mates := s.groups.filter fun y => y.team == x.team && y.gid != g
    let saves := fun tm : Team => tm.place ≠ .saved ∧ (∀ y ∈ mates, y.place = .saved) ∧
      (∀ c ∈ s.copies, c.team = tm.tid → c.cls = .c1 ∧ c.acting = false ∧ (c.stopped = true ∨ c.parts = [])) ∧
      (mates ≠ [] ∨ (tm.haltReq = true ∧ ∃ c ∈ s.copies, c.team = tm.tid))
    let leaves := fun tm : Team => tm.place = .resident ∧ (∀ y ∈ mates, y.place ≠ .resident) ∧ (∃ y ∈ mates, y.place = .evicted) ∧
      copyHolds s tm.tid = false
    (x.splits = [] → counter x .c0 = 0 → counter x .c2 = 0 → ∃ t, exec (.groupRetire g) s = .next t ∧
      (∀ y, y ∈ t.groups ↔ y ∈ s.groups ∧ y.gid ≠ g) ∧
      (∀ y, gridOf s x.grid = some y → ∃ z, gridOf t x.grid = some z ∧ z.maxLT =
        if (teamOf s x.team).map Team.spawned = some true then y.maxLT else max y.maxLT x.lt) ∧
      (∀ y z, gridOf s x.grid = some y → gridOf t x.grid = some z → { z with maxLT := y.maxLT } = y) ∧
      (∀ tm, teamOf s x.team = some tm →
        (saves tm → teamOf t x.team = some { tm with place := .saved, haltReq := false } ∧
          ∀ c ∈ t.copies, c.team = x.team → c.suspended = true) ∧
        (¬ saves tm → t.copies = s.copies ∧
          (leaves tm → teamOf t x.team = some { tm with place := .evicted }) ∧
          (¬ leaves tm → t.mem = s.mem ∧ ∀ k, teamOf t k = teamOf s k))) ∧
      t.ops = s.ops ∧ t.queues = s.queues) ∧
    ((x.splits ≠ [] ∨ counter x .c0 ≠ 0 ∨ counter x .c2 ≠ 0) → exec (.groupRetire g) s = .next s)) ∧
  (∀ (s : State) (x : Group) (k : Nat) (sl : Slot) (b : DWord × Nat), x.slots[k]? = some sl → sl.bad = some b →
    (∀ i y, i ≠ k → x.slots[i]? = some y → y.bad = none) → ∃ r, logSlots s x = report s r ∧ r.ctx = x.ctx ∧ r.link = .log ∧
      r.body.cause = Cause.memoryUncorrectable.code ∧ r.body.source = 4 ∧ r.body.slot = k + 1 ∧ r.body.pc = b.1 ∧
      r.body.aux1 = BitVec.ofNat 64 b.2) ∧
  (∀ (s : State) (n : Nat) (x : Team), teamOf s n = some x →
    let ended := (∀ g ∈ s.groups, g.team ≠ n) ∧ (∀ c ∈ s.copies, c.team ≠ n) ∧ x.overflow = none ∧
      (x.copyNo = 0 ∨ ∀ o ∈ s.ops, o.team ≠ n)
    (¬ ended → exec (.teamRetire n) s = .next s) ∧
    (ended → x.copyNo = 0 → ∃ t, exec (.teamRetire n) s = .next t ∧ teamOf t n = none ∧ t.mem = s.mem ∧
      t.groups = s.groups ∧ (∀ y ∈ t.grids, y.refused = false) ∧
      (∀ y, gridOf s x.grid = some y → gridOf t x.grid =
        some { y with retired := if x.spawned then y.retired else y.retired + 1, refused := false }) ∧
      (x.recv.bind (handleOf s) = none → ∀ k, k ≠ n → teamOf t k = teamOf s k) ∧
      (∀ h p, x.recv.bind (handleOf s) = some h → h.parent ≠ n → teamOf s h.parent = some p → memWf p.spad = true →
        ∃ p', teamOf t h.parent = some p' ∧ { p' with spad := p.spad, objs := p.objs } = p ∧
          (∀ b, b ∈ p'.objs ↔ b ∈ p.objs ∨
            ∃ b' ∈ x.objs, x.spadSize ≤ b'.off ∧ b = { b' with off := h.first * 4096 + (b'.off - x.spadSize) }) ∧
          (∀ i < h.count * 4096, memRead p'.spad (h.first * 4096 + i) = memRead x.spad (x.spadSize + i)) ∧
          (∀ a, (a < h.first * 4096 ∨ (h.first + h.count) * 4096 ≤ a) → memRead p'.spad a = memRead p.spad a) ∧
          ∀ k ∈ t.handles, k.hid ≠ h.hid)) ∧
    (ended → (x.copyNo = 1 ∨ x.copyNo = 2 ∨ x.copyNo = 3) → ∃ t, exec (.teamRetire n) s = .next t ∧ teamOf t n = none ∧
      { t with teams := s.teams, checks := s.checks, grids := s.grids } = s ∧
      t.checks = s.checks.map fun k => if k.grid = x.grid ∧ k.teamid = x.teamid
        then { k with runs := k.runs ++ [{ no := x.copyNo, core := x.core, ranOn := x.ranOn, stream := x.stream, traps := x.traps }] }
        else k) ∧
    (ended → x.copyNo = 4 → (∀ i ∈ x.stream, i.rmw = none) → s.badGranules = [] → MemOk s → (∀ o ∈ s.ops, o.id < s.nextId) →
      teamOf s 0 = none → ∀ y k, gridOf s x.grid = some y → k ∈ s.checks → k.grid = x.grid → k.teamid = x.teamid →
      ∃ t, exec (.teamRetire n) s = .next t ∧ teamOf t n = none ∧ t.mem = streamMem s.mem x.stream ∧
        gridOf t x.grid = some { y with retired := y.retired + 1, refused := false } ∧
        t.checks = s.checks.filter fun z => !(z.grid == x.grid && z.teamid == x.teamid))) ∧
  (∀ (s : State) (n : Nat) (x : Grid) (q : Queue), gridOf s n = some x → queueOf s x.queue = some q → q.head < 2 ^ 64 →
    MemOk s → (∀ c, ctxOf s x.ctx = some c → c.terminating = false) →
    (x.phase = .active → gridDone s x = false → exec (.gridCompletion n) s = .next s) ∧
    (x.phase = .active → gridDone s x = true → (x.buffered = [] ∨ x.faulted = true) →
      ∃ s1 t, Wrote s s1 (x.pkt + 22) 1 (statusOf x) ∧ { s1 with mem := s.mem, badGranules := s.badGranules } = s ∧
        exec (.gridCompletion n) s = .next t ∧
        (x.done = 0#64 → Completed s1 x q t) ∧
        (x.done ≠ 0#64 → t.queues = s.queues ∧ (∃ y, gridOf t n = some y ∧ y.phase = .counting s.nextId) ∧
          ∀ o, o = doneOp s x s.nextId →
            let s2 := { setGrid s1 { x with phase := .counting s.nextId } with ops := s.ops ++ [o], nextId := s.nextId + 1 }
            ∀ e, o.elems = [e] → opOf s s.nextId = none → elemNext s2 o 0 e = true →
              e.va = x.done ∧ e.size = 4 ∧
              (∀ pa s3, Reaches s2 o e pa s3 → MemOk s3 → badGranule? s3 pa 4 = none →
                Wrote s3 t pa 4 (physRead s3 pa 4 + 1) ∧ opOf t s.nextId = none) ∧
              (∀ c f s3, behindParked s2 o e = false → ctxOf s x.ctx = some c → translateLate s2 o c e = (.error f, s3) →
                ∃ e', elemAt? t s.nextId 0 = some e' ∧ e'.isParked = true ∧ e'.va = x.done))) ∧
    (∀ op, x.phase = .counting op → opOf s op = none → ∃ t, exec (.gridCompletion n) s = .next t ∧ Completed s x q t) ∧
    (∀ op, x.phase = .counting op → opOf s op ≠ none → exec (.gridCompletion n) s = .next s))

/-- The queue unit follows TAIL, takes a packet that lies below it once its wait words are satisfied and the packet before has
placed its last team, and ages its head grid (01 R15, R21, R22, R24; 12 R220 to R223, R226, R401). That a wait word with a bad
address holds nothing up is the model's choice (log 59). -/
def Obligations.QueueUnit : Prop :=
  (∀ (s : State) (n : Nat) (q : Queue), queueOf s n = some q →
    let tail := physRead s q.base 8
    let full := decide (2 ^ q.k < (tail + 2 ^ 64 - q.head) % 2 ^ 64)
    exec (.queueTailUpdate n) s = .next { setQueue s { q with tail, stopped := q.stopped || full } with
      irqs := s.irqs ++ if full = true ∧ q.stopped = false then [s.mgmtVec] else [] }) ∧
  (∀ (s : State) (n : Nat) (q : Queue) (c : Context), queueOf s n = some q → ctxOf s q.ctx = some c →
    let x := physRead s (q.base + 64 + 64 * (q.taken % 2 ^ q.k)) 64
    (mayTakePacket s q = false → exec (.launchPacketTake n) s = .next s) ∧
    (mayTakePacket s q = true →
      (∀ f s1, waitWords s c x = (.error f, s1) → ∃ t, exec (.launchPacketTake n) s = .next t ∧ Unreadable s1 q c x f t) ∧
      (∀ s1, waitWords s c x = (.ok false, s1) → exec (.launchPacketTake n) s = .next s1) ∧
      (∀ s1, waitWords s c x = (.ok true, s1) →
        (packetOk x = false → ∃ t, exec (.launchPacketTake n) s = .next t ∧ Taken s1 q c x none t) ∧
        (∀ f s2, packetOk x = true → readDesc s1 c x = (.error f, s2) →
          ∃ t, exec (.launchPacketTake n) s = .next t ∧ Unreadable s2 q c x f t) ∧
        (∀ d s2, packetOk x = true → readDesc s1 c x = (.ok d, s2) →
          ∃ t, exec (.launchPacketTake n) s = .next t ∧ Taken s2 q c x d t)))) ∧
  (∀ (s s1 s2 : State) (c : Context) (x : Nat) (a b : Except ReadFault Bool), waitWord s c x 163 256 448 = (a, s1) →
    waitWord s1 c x 164 320 480 = (b, s2) → waitWords s c x = (match a, b with
      | .error f, _ => .error f
      | .ok _, .error f => .error f
      | .ok p, .ok q => .ok (p && q), s2)) ∧
  (∀ (c : Context) (x en addr val : Nat) (s s1 : State),
    (x.testBit en = false ∨ waitOk x en addr = false → waitWord s c x en addr val = (.ok true, s)) ∧
    (x.testBit en = true → waitOk x en addr = true →
      (∀ f, queueRead s c (BitVec.ofNat 64 (x / 2 ^ addr % 2 ^ 64)) 4 = (.error f, s1) →
        waitWord s c x en addr val = (.error f, s1)) ∧
      (∀ v < 2 ^ 32, queueRead s c (BitVec.ofNat 64 (x / 2 ^ addr % 2 ^ 64)) 4 = (.ok v, s1) →
        waitWord s c x en addr val = (.ok (decide (((v : Int) - (x / 2 ^ val % 2 ^ 32 : Nat)) % 2 ^ 32 < 2 ^ 31)), s1)))) ∧
  (∀ (s s1 : State) (c : Context) (va : DWord) (n : Nat),
    (∀ f, walkAccess s c va .load false = (.error f, s1) → queueRead s c va n =
      (.error (if f.notPresent then .pageNotPresent else .pagePermission, f.va, f.word), s1)) ∧
    (∀ pa, walkAccess s c va .load false = (.ok pa, s1) →
      (badGranule? s1 pa n = none → queueRead s c va n = (.ok (physRead s1 pa n), s1)) ∧
      (∀ b, badGranule? s1 pa n = some b → queueRead s c va n = (.error (.memoryUncorrectable, va, 0), s1)))) ∧
  (∀ (s : State) (q : Queue), mayTakePacket s q = true ↔ q.stopped = false ∧ q.preempted = false ∧ ctxStopped s q.ctx = false ∧
    (q.tail + 2 ^ 64 - q.head) % 2 ^ 64 ≤ 2 ^ q.k ∧ q.taken < q.tail ∧ ∀ g ∈ s.grids, g.queue = q.num → g.phase = .active → g.teams ≤ g.nextTeam) ∧
  (∀ (s : State) (n : Nat) (q : Queue) (h : Grid), queueOf s n = some q → headGrid s n = some h →
    exec (.queueAgeing n) s =
      if q.age ≠ 0 ∧ q.age * 2250 ≤ h.waited ∧ h.prio + h.aged < 7
      then .next (setGrid s { h with aged := h.aged + 1, waited := h.waited - q.age * 2250 }) else .next s) ∧
  (∀ (s : State) (n i : Nat) (g : Grid), s.grids[i]? = some g → (waitOn s n).grids[i]? =
    some (if (headGrid s g.queue).map Grid.uid = some g.uid then { g with waited := g.waited + n } else g))


/-- The dispatcher turns to the grid of highest effective priority, then round the queues, then in slot order; its new teams go
in TEAMID order to the first core that passes the check, a concurrent grid's and a wave's all together, and their groups start
as R27 says. A team that fits nowhere asks a team of lower PRIO to leave; evicted and pre-empted groups come back, a copy of a
checked team on no core on which the other stands or has run (00 R3; 01 R24 to R27; 04 R89; 12 R225 to R227, R230, R232,
R235). That a restored team counts as the one placed last, which slots a restored team may take, and the cores that a copy
keeps off are read as logs 61, 30 and 77 say. -/
def Obligations.Dispatch : Prop :=
  (∀ (s : State) (gr g : Grid) (rest : List Grid), (∀ x ∈ s.grids, x.queue < 8192) → turnOrder s = gr :: rest →
    g ∈ s.grids → gridWaits s g = true →
    effPrio s g < effPrio s gr ∨ (effPrio s g = effPrio s gr ∧
      (roundPlace s gr.queue < roundPlace s g.queue ∨ (gr.queue = g.queue ∧ gr.slot ≤ g.slot)))) ∧
  (∀ (s : State) (gr : Grid) (rest : List Grid) (is : List Nat) (s1 : State), turnOrder s = gr :: rest →
    savedTeams s gr = [] → gr.rerun = [] → gr.desc.checked = false → gr.invalid = false → gr.admission = false →
    gr.nextTeam < gr.teams → gr.refused = false → launchedLeaving s gr = false →
    let wave := gr.desc.repro || gr.desc.prog == 0
    let base := if gr.nextTeam = 0 ∨ gr.desc.repro = false then 0 else gr.maxLT + 1
    (wave = true → gr.retired = gr.nextTeam ∧ 0 < gr.capacity) →
    is = (if wave then (List.range (min gr.capacity (gr.teams - gr.nextTeam))).map (gr.nextTeam + ·) else [gr.nextTeam]) →
    saveHolds s gr.ctx (is.length * descArea gr.desc) = true → PlacedAll gr base s is s1 →
    exec (if gr.desc.repro then .reproWavePlacement gr.uid else if gr.desc.prog = 0 then .concurrentPlacement gr.uid
        else .teamDispatch) s =
      .next (served s1 gr is.length base)) ∧
  (∀ (s : State) (gr : Grid) (i c base : Nat) (qs : List Nat), qs.length = gr.desc.groups0 + gr.desc.groups1 →
    let t := createTeam s gr i 0 c qs base
    ∃ tm gs, t.teams = s.teams ++ [tm] ∧ t.groups = s.groups ++ gs ∧ gs.length = gr.desc.groups0 + gr.desc.groups1 ∧
      t.lastCore = c ∧ t.mem = s.mem ∧ tm.tid = s.nextId ∧ tm.grid = gr.uid ∧ tm.teamid = i ∧ tm.core = c ∧ tm.spad = [] ∧
      tm.spadSize = (gr.desc.spad + 4095) / 4096 * 4096 ∧ tm.place = .resident ∧ tm.prio = gr.prio ∧
      ∀ k g, gs[k]? = some g → StartsAs gr tm base k
        (if k < gr.desc.groups0 then 8 * gr.desc.vregs0 else 8 * gr.desc.vregs1) (qs.getD k 0) g) ∧
  (∀ (r : Room) (n k q : Nat), let fits := fun q => q < 4 ∧ 0 < r.slots.getD q 0 ∧ n ≤ r.regs.getD q 0 ∧ k ≤ r.maps.getD q 0
    (seat r n k = some q ↔ fits q ∧ ∀ p, fits p → r.regs.getD p 0 < r.regs.getD q 0 ∨
      (r.regs.getD p 0 = r.regs.getD q 0 ∧ q ≤ p)) ∧
    (seat r n k = none ↔ ∀ p, ¬ fits p)) ∧
  (∀ (s : State) (gr : Grid) (rest : List Grid) (c : Nat) (v : Team) (vs : List Team), turnOrder s = gr :: rest →
    savedTeams s gr = [] → gr.rerun = [] → gr.desc.checked = false → gr.invalid = false → gr.admission = false →
    gr.nextTeam < gr.teams → gr.desc.repro = false → gr.desc.prog ≠ 0 → saveHolds s gr.ctx (descArea gr.desc) = true →
    gr.refused = false → launchedLeaving s gr = false → (∀ k < 160, ∀ qs, ¬ Passes s gr k qs) →
    preemptCore s gr.prio { groups := descNeeds gr.desc, spad := roundGranule gr.desc.spad, pan := false, skip := [] } = some c →
    lowerTeams s c gr.prio = v :: vs →
    (∀ t ∈ v :: vs, t.haltReq = false ∧ ∀ g ∈ s.groups, g.team = t.tid → g.haltReq = false) →
    v.prio < gr.prio ∧ v.core = c ∧ (∀ t ∈ s.teams, t.core = c → t.place = .resident → v.prio ≤ t.prio) ∧
    exec .teamDispatch s = .next (askHalt s fun t => (leavesWith s v).contains t.tid) ∧
    (askHalt s fun t => (leavesWith s v).contains t.tid).teams = s.teams.map fun t =>
      if (leavesWith s v).contains t.tid = true ∧ t.place ≠ .saved then { t with haltReq := true } else t) ∧
  (∀ (s : State) (gr : Grid), turnOrder s = [gr] →
    savedTeams s gr = [] → gr.rerun = [] → gr.desc.checked = false → gr.invalid = false → gr.admission = false →
    gr.nextTeam < gr.teams → gr.desc.repro = false → gr.desc.prog ≠ 0 → saveHolds s gr.ctx (descArea gr.desc) = true →
    launchedLeaving s gr = false → (∀ k < 160, ∀ qs, ¬ Passes s gr k qs) →
    preemptCore s gr.prio { groups := descNeeds gr.desc, spad := roundGranule gr.desc.spad, pan := false, skip := [] } = none →
    exec .teamDispatch s = .next (if gr.refused then s else updGrid s gr.uid fun g => { g with refused := true })) ∧
  (∀ (s : State) (gr : Grid), turnOrder s = [gr] → savedTeams s gr = [] → (gr.refused = true ∨ launchedLeaving s gr = true) →
    exec .teamDispatch s = .next s) ∧
  (∀ (s : State) (c : Nat), ∀ g ∈ s.groups, g.ctx = c → g.priv ≠ freePriv s c) ∧
  (∀ (s : State) (n q : Nat) (x : Group) (tm : Team) (gr : Grid), IdsOk s → groupOf s n = some x → teamOf s x.team = some tm →
    gridOf s x.grid = some gr → x.place = .evicted → x.haltReq = false → gridStopped s gr = false → awake s x = true →
    tm.place = .resident → quarterFor s { x with core := tm.core } tm.spawned = some q →
    (let r := roomOf s tm.core
     (tm.spawned = true ∨ 2 ≤ r.slots.sum) ∧ 0 < r.slots.getD q 0 ∧ x.vregs.length ≤ r.regs.getD q 0 ∧
       x.phys.length ≤ r.maps.getD q 0) ∧
    ∃ s1 g, groupOf s1 n = some g ∧ Reseated x tm.core q g ∧ (∀ k, k ≠ n → groupOf s1 k = groupOf s k) ∧
      { s1 with groups := s.groups, cores := s.cores } = s ∧ (∀ l ∈ (coreOf s1 tm.core).icache, l.ctx ≠ x.ctx) ∧
      exec (.groupRestore n) s = .next (acquireDev s1 tm.core)) ∧
  (∀ (s s1 : State) (gr : Grid) (rest : List Grid) (n : Nat) (x : Group) (tm : Team), IdsOk s → turnOrder s = gr :: rest →
    groupOf s n = some x → teamOf s x.team = some tm → gridOf s x.grid = some gr → x.place = .saved → savedTeams s gr = [tm] →
    gridHalting s gr.uid = false → restoreTeam s tm = some s1 →
    exec (.groupRestore n) s = .next { notWaiting s1 gr with lastQueue := some gr.queue } ∧
    ∃ c, (∀ qs, admitsTeam s tm tm.core = some qs → c = tm.core) ∧ (∃ qs, admitsTeam s tm c = some qs) ∧
      teamOf s1 tm.tid = some { tm with
        core := c, seq := s.nextId, place := .resident, haltReq := false
        ranOn := if c = tm.core then tm.ranOn else tm.core :: tm.ranOn } ∧ s1.lastCore = c ∧ s1.mem = s.mem ∧
      (∀ y ∈ s.groups, y.team = tm.tid → ∃ g q, groupOf s1 y.gid = some g ∧ Reseated y c q g) ∧
      (∀ y ∈ s.groups, y.team ≠ tm.tid → groupOf s1 y.gid = some y) ∧
      s1.copies = s.copies.map fun k => if k.team = tm.tid ∧ ∀ g ∈ s.groups, g.gid ≠ k.gid
        then { k with suspended := false, core := c, die := c / 40 } else k) ∧
  (∀ (s s1 : State) (gr : Grid) (rest : List Grid) (n : Nat) (tm : Team), turnOrder s = gr :: rest → groupOf s n = none →
    teamOf s n = some tm → tm.place = .saved → savedTeams s gr = [tm] → gridHalting s gr.uid = false →
    restoreTeam s tm = some s1 →
    exec (.groupRestore n) s = .next (settleAcks { notWaiting s1 gr with lastQueue := some gr.queue })) ∧
  (∀ (s : State) (t x : Team) (core : Nat), x ∈ s.teams → x.tid ≠ t.tid → x.copyNo ≠ 0 → t.copyNo ≠ 0 → x.grid = t.grid →
    x.teamid = t.teamid → (core = x.core ∨ core ∈ x.ranOn) → admitsTeam s t core = none)


/-! ## Pre-emption -/

/-- A new command word pre-empts or resumes its queue or its context, and is acknowledged when every group and team concerned has
been saved, or restored; a reserved one is acknowledged only. A group whose splits have all halted and that is drained is
written out, and so is a team whose groups have retired; a restored group re-tests its waiting splits, and goes on with its
ring and its copies (03 R76; 04 R85; 11 R214 to R217; 12 R220, R228; 13 R249). That a command which replaces one in progress
leaves that one without its ACK, that a concurrent grid goes on only when it is back whole, spawned teams among it, and that
the brine ring's bytes are not written are the model's choice (logs 44, 73, 72). -/
def Obligations.Preemption : Prop :=
  (∀ (s : State) (n : Nat) (q : Queue), queueOf s n = some q → newCmd s q = none →
    ∀ i ∈ [Instr.preemptQueue n, .resumeQueue n, .preemptContext n, .resumeContext n, .reservedQueueCommand n],
      exec i s = .next s) ∧
  (∀ (s : State) (n : Nat) (q : Queue) (w : DWord) (c : Context), queueOf s n = some q → newCmd s q = some w →
    (cmdOp w = 1 ∨ cmdOp w = 3) → ctxOf s q.ctx = some c → s.cores.length = 160 →
    let ids := gridIds s (cmdNames q w)
    ∃ s1, exec (if cmdOp w = 1 then .preemptQueue n else .preemptContext n) s = .next (settleAcks s1) ∧
      queueOf s1 n = some { q with preempted := q.preempted || cmdOp w == 1, cmd := some w } ∧ s1.mem = s.mem ∧
      (∀ gr ∈ s1.grids, cmdNames q w gr = true → gridStopped s1 gr = true) ∧
      (∀ y ∈ s1.queues, (y.num = n ∨ (cmdOp w = 3 ∧ y.ctx = q.ctx)) → mayTakePacket s1 y = false) ∧
      s1.groups = s.groups.map (fun g => if (teamOf s g.team).any (fun t => ids.contains t.grid) = true ∧ g.place ≠ .saved
        then { g with haltReq := true } else g) ∧
      s1.teams = s.teams.map (fun t => if ids.contains t.grid = true ∧ t.place ≠ .saved then { t with haltReq := true } else t) ∧
      (∀ (i : Nat) (k : Core), s.cores[i]? = some k → ∃ k', s1.cores[i]? = some k' ∧
        (∀ p, some p ∈ k'.pans → ids.contains p.grid = false) ∧
        let named := s.groups.filter fun g => (teamOf s g.team).any (fun t => ids.contains t.grid) && g.place == .resident &&
          g.splits.any fun p => !p.halted
        k'.boosts = if k.mhz < 2250 ∧ ∃ g ∈ named, g.core = i then named.map Group.gid :: k.boosts else k.boosts) ∧
      (∀ k ∈ s.cores, ∀ p, some p ∈ k.pans → ids.contains p.grid = true → ∀ r ∈ p.recs, ∀ x, ctxOf s r.ctx = some x →
        ∃ x', ctxOf s1 r.ctx = some x' ∧ r ∈ x'.brine)) ∧
  (∀ (s : State) (n : Nat) (q : Queue) (w : DWord) (c : Context), queueOf s n = some q → newCmd s q = some w →
    (cmdOp w = 2 ∨ cmdOp w = 4) → ctxOf s q.ctx = some c →
    ∃ s1, exec (if cmdOp w = 2 then .resumeQueue n else .resumeContext n) s = .next (settleAcks s1) ∧
      queueOf s1 n = some { q with preempted := q.preempted && cmdOp w == 4, cmd := some w } ∧
      (cmdOp w = 2 → ∀ gr ∈ s1.grids, cmdNames q w gr = true → gr.preempted = false) ∧
      (cmdOp w = 4 → ctxOf s1 q.ctx = some { c with preempted := false }) ∧
      { s1 with queues := s.queues, grids := s.grids, contexts := s.contexts } = s) ∧
  (∀ (s : State) (n : Nat) (q : Queue) (w : DWord), queueOf s n = some q → (s.queues.map Queue.num).Nodup → MemOk s →
    (newCmd s q = some w → (cmdOp w = 0 ∨ 5 ≤ cmdOp w) → ∃ t, exec (.reservedQueueCommand n) s = .next t ∧ Acked s q w t) ∧
    (q.cmd = some w → (∀ y ∈ s.queues, y.num ≠ n → y.cmd = none) →
      (cmdDone s q w = false → settleAcks s = s) ∧ (cmdDone s q w = true → Acked s q w (settleAcks s)))) ∧
  (∀ (s : State) (q : Queue) (w : DWord), cmdDone s q w = true ↔
    (∀ g ∈ s.groups, ∀ gr, gridOf s g.grid = some gr → cmdNames q w gr = true →
      if cmdOp w = 1 ∨ cmdOp w = 3 then g.haltReq = false
      else gridStopped s gr = true ∨ (g.place ≠ .saved ∧ g.resume ≠ .due ∧ g.haltReq = false)) ∧
    (∀ t ∈ s.teams, ∀ gr, gridOf s t.grid = some gr → cmdNames q w gr = true →
      if cmdOp w = 1 ∨ cmdOp w = 3 then t.haltReq = false
      else gridStopped s gr = true ∨ (t.place ≠ .saved ∧ t.haltReq = false))) ∧
  (∀ (s : State) (n : Nat) (x : Group), groupOf s n = some x → IdsOk s → (∀ q ∈ s.queues, q.cmd = none) →
    (mayWrite s x = false → exec (.contextSave n) s = .next s) ∧
    (mayWrite s x = true → ∃ t g, exec (.contextSave n) s = .next t ∧ groupOf t n = some g ∧ g.place = .saved ∧
      g.haltReq = false ∧ { g with place := x.place, haltReq := x.haltReq, slots := x.slots, eng := x.eng } = x ∧
      g.eng = x.eng.filter (fun e => !e.done) ∧
      (∀ (k : Nat) (sl : Slot), x.slots[k]? = some sl →
        g.slots[k]? = some { sl with rebind := sl.rebind || (sl.st == .bound && sl.reload) }) ∧
      (∀ k, k ≠ n → groupOf t k = groupOf s k) ∧
      (∀ c, ctxOf s x.ctx = some c → (∀ tm, teamOf s x.team = some tm → tm.ctx = x.ctx) → MemOk s →
        ∀ a, (a < c.save ∨ c.save + c.saveSz ≤ a) → memRead t.mem a = memRead s.mem a) ∧
      (∀ c ∈ t.copies, c.gid = n → c.suspended = true) ∧
      ∀ tm, teamOf s x.team = some tm →
        let mates := s.groups.filter fun y => y.team == x.team && y.gid != n
        ((∃ y ∈ mates, y.place = .resident) → teamOf t x.team = some tm) ∧
        (tm.place ≠ .saved → (∀ y ∈ mates, y.place = .saved) →
          (∀ c ∈ s.copies, c.team = x.team → c.cls = .c1 ∧ c.acting = false ∧ (c.stopped = true ∨ c.parts = [])) →
          teamOf t x.team = some { tm with place := .saved, haltReq := false } ∧
            ∀ c ∈ t.copies, c.team = x.team → c.suspended = true))) ∧
  (∀ (s : State) (n : Nat) (tm : Team), teamOf s n = some tm → groupOf s n = none → (∀ q ∈ s.queues, q.cmd = none) →
    (∀ y ∈ s.groups, y.team ≠ n) → tm.place ≠ .saved →
    let waits := tm.haltReq = true ∧ (∃ c ∈ s.copies, c.team = n) ∧
      ∀ c ∈ s.copies, c.team = n → c.cls = .c1 ∧ c.acting = false ∧ (c.stopped = true ∨ c.parts = [])
    (waits → ∃ t, exec (.contextSave n) s = .next t ∧ teamOf t n = some { tm with place := .saved, haltReq := false } ∧
      t.groups = s.groups ∧ t.copies = s.copies.map fun c => if c.team = n then { c with suspended := true, parts := [] } else c) ∧
    (¬ waits → exec (.contextSave n) s = .next s)) ∧
  (∀ (s : State) (n : Nat) (x : Group), groupOf s n = some x → IdsOk s → (∀ q ∈ s.queues, q.cmd = none) →
    (x.place ≠ .resident ∨ x.resume = .done ∨ (∃ gr, gridOf s x.grid = some gr ∧ gridAway s gr = true) →
      exec (.groupResume n) s = .next s) ∧
    (x.place = .resident → x.resume = .due → x.driver = none → ringBusy s x = false → (∀ sl ∈ x.slots, sl.rebind = false) →
      (∀ gr, gridOf s x.grid = some gr → gridAway s gr = false) →
      ∃ t g, exec (.groupResume n) s = .next t ∧ groupOf t n = some g ∧ g.resume = .done ∧ g.savedRing = none ∧
        g.splits = x.splits.map (fun p => { p with state := retested s x p }) ∧
        { g with resume := x.resume, savedRing := x.savedRing, splits := x.splits, lbase := x.lbase } = x ∧
        (∀ y ∈ s.groups, y.gid ≠ n → (gridRepro s x.grid = false ∨ y.grid ≠ x.grid ∨
          ∀ p ∈ y.splits, ∀ off ph d, p.state ≠ .waitPhase off ph (some d)) → groupOf t y.gid = some y) ∧ t.mem = s.mem ∧
        (∀ r, x.savedRing = some r → 4 * x.core + x.quarter < s.rings.length → ringOf t x.core x.quarter = r) ∧
        t.copies = s.copies.map fun c => if c.gid = n ∧ c.suspended = true
          then { c with suspended := false, core := x.core, die := x.core / 40 } else c))


/-! ## Checked teams -/

/-- Two copies that ended alike perform one stream, in its order; copies that differ are discarded and the team runs a third
time, on a core that neither copy ran on; the third copy decides, and the core outvoted is retired and logged; a stream that
overflows the check area ends both copies, and the team runs again unchecked (00 R6, R7, R10; 12 R235, R236). The order in
which streams are compared, the fields of the records, which physical core is retired, that discarded copies free refused
grids, and the cores that a copy keeps off are read as logs 6, 7, 67, 64 and 77 say. -/
def Obligations.CheckedTeams : Prop :=
  (∀ (s : State) (n : Nat) (k : CheckRun), s.checks[n]? = some k → k.accepted = none →
    (∀ b, (checkTeams s k).findSome? Team.overflow = some b → ∃ s1 t r, exec (.checkCompare n) s = .next t ∧ Discarded s k s1 ∧
      s1.checks = s.checks ∧ (∀ g, gridOf s k.grid = some g →
        t = report { updGrid s1 k.grid (fun g => { g with rerun := g.rerun ++ [(k.teamid, false)] }) with
          checks := s.checks.filter fun x => !(x.grid == k.grid && x.teamid == k.teamid) } r ∧
        r.link = .log ∧ r.ctx = g.ctx ∧ r.body.cause = Cause.checkOverflow.code ∧ r.body.source = 4 ∧
        r.body.aux0 = BitVec.ofNat 64 b ∧ r.body.aux1 = BitVec.ofNat 64 k.teamid)) ∧
    ((checkTeams s k).findSome? Team.overflow = none →
      (∀ a b, endedRun s k 1 = some a → endedRun s k 2 = some b → k.third = false →
        (runsMatch a b = true → a.traps = [] → ∀ g, gridOf s k.grid = some g → MemOk s → s.badGranules = [] →
          (∀ x ∈ a.stream, x.rmw = none) → (∀ o ∈ s.ops, o.id < s.nextId) → teamOf s 0 = none →
          ∃ t, exec (.checkCompare n) s = .next t ∧ t.mem = streamMem s.mem a.stream ∧
            gridOf t k.grid = some { g with retired := g.retired + 1 } ∧
            t.checks = s.checks.filter fun x => !(x.grid == k.grid && x.teamid == k.teamid)) ∧
        (runsMatch a b = false → ∃ t, exec (.checkCompare n) s = .next t ∧ Discarded s k t ∧ Reruns s k true t ∧
          t.checks = s.checks.map fun x => if x.grid = k.grid ∧ x.teamid = k.teamid
            then { k with runs := [a, b], third := true } else x)) ∧
      (∀ a b c, endedRun s k 1 = some a → endedRun s k 2 = some b → endedRun s k 3 = some c → k.third = true →
        (runsMatch c a = false → runsMatch c b = false → ∃ t, exec (.checkCompare n) s = .next t ∧ Discarded s k t ∧
          Reruns s k true t ∧ t.checks = s.checks.filter fun x => !(x.grid == k.grid && x.teamid == k.teamid)) ∧
        (∀ loser, (runsMatch c a = true ∧ loser = b.core) ∨ (runsMatch c a = false ∧ runsMatch c b = true ∧ loser = a.core) →
          c.traps = [] → ∀ g, gridOf s k.grid = some g → MemOk s → loser < s.cores.length →
          ∃ s1 s2 r, Retired s loser s1 ∧ { s1 with cores := s.cores, dies := s.dies } = s ∧ s2 = report s1 r ∧
            r.ctx = g.ctx ∧ r.link = .log ∧ r.body.cause = Cause.compareMismatch.code ∧ r.body.source = 4 ∧
            r.body.aux0 = BitVec.ofNat 64 loser ∧ r.body.aux1 = BitVec.ofNat 64 c.core ∧
            (s2.badGranules = [] → (∀ x ∈ c.stream, x.rmw = none) → (∀ o ∈ s.ops, o.id < s.nextId) → teamOf s 0 = none →
              ∃ t, exec (.checkCompare n) s = .next t ∧
              t.mem = streamMem s2.mem c.stream ∧ (coreOf t loser).active = false ∧
              gridOf t k.grid = some { g with retired := g.retired + 1 } ∧
              t.checks = s.checks.filter fun x => !(x.grid == k.grid && x.teamid == k.teamid)))))) ∧
  (∀ (s : State) (n : Nat) (k : CheckRun) (r : CopyRun), s.checks[n]? = some k → k.accepted = some r →
    (∀ i, k.item = some i → opOf s i ≠ none → exec (.checkCompare n) s = .next s) ∧
    ((∀ i, k.item = some i → opOf s i = none) → ∀ g, gridOf s k.grid = some g → MemOk s → s.badGranules = [] →
      (∀ x ∈ r.stream, x.rmw = none) → (∀ o ∈ s.ops, o.id < s.nextId) → teamOf s 0 = none →
      ∃ t, exec (.checkCompare n) s = .next t ∧ t.mem = streamMem s.mem r.stream ∧
        gridOf t k.grid = some { g with retired := g.retired + 1 } ∧
        t.checks = s.checks.filter fun x => !(x.grid == k.grid && x.teamid == k.teamid))) ∧
  (∀ (a b : CopyRun), runsMatch a b = true ↔ bareTraps a = bareTraps b ∧ ∀ i < 16, groupItems a i = groupItems b i) ∧
  (∀ (s : State) (gr : Grid) (i : Nat) (k : CheckRun), (s.checks.find? fun k => k.grid == gr.uid && k.teamid == i && k.third) = some k →
    ∃ cs, rerunKind s gr (i, true) = .third cs ∧ ∀ c, c ∈ cs ↔ ∃ r ∈ k.runs, c = r.core ∨ c ∈ r.ranOn)


/-! ## The package and its management -/

/-- A reset numbers the passing cores of each die whose image loads; a self-check retires the cores that fail and gives their
numbers to spares; a core's frequency falls on a thermal condition, of which the driver hears; power goes only while no team
is resident; the host die reads and writes memory; a TLB entry goes when its lease has run out (00 R5 to R9; 10 R197, R205; 13
R237, R246, R249, R250). What a reset leaves that the manual does not name, that memory keeps its contents and spared granules
do not, which retired number gets the last spare, what a capture of the pans counts, that a failing spare gets no record, and
when power may go are the model's choice (logs 5, 1, 75, 79, 69, 68, 47). -/
def Obligations.Package : Prop :=
  (∀ (s : State) (b : BootReport), MemOk s → ∃ t, exec (.reset b) s = .next t ∧
    (∀ d < 4, ∀ x, b.dies[d]? = some x → ∃ y, t.dies[d]? = some y ∧
      (y.booted = true ↔ x.ed25519 = true ∧ x.mlDsa65 = true ∧ x.versionOk = true) ∧ (y.rejected = !y.booted) ∧
      (y.booted = true → y.phys.length = 44 ∧ ∀ i < 44,
        let k := ((x.pass.take i).filter id).length
        y.phys[i]? = some (if x.pass.getD i false = true then (if k < 40 then .logical k else .spare) else .retired))) ∧
    (∀ c < 160, (coreOf t c).active = true ↔ ∃ y, t.dies[c / 40]? = some y ∧ .logical (c % 40) ∈ y.phys) ∧
    (∀ a, (a < b.mgmtBase + 8 ∨ b.mgmtBase + 16 ≤ a) → s.badGranules.contains (a / 32) = false →
      memRead t.mem a = memRead s.mem a) ∧
    t.badGranules = [] ∧ physRead t (b.mgmtBase + 8) 8 = 0 ∧ t.mgmtBase = some b.mgmtBase ∧ t.mgmtHead = 0 ∧ t.mgmtVec = b.mgmtVec ∧
    t.clock = 0#64 ∧ t.contexts = [] ∧ t.queues = [] ∧ t.grids = [] ∧ t.teams = [] ∧ t.groups = [] ∧ t.ops = [] ∧
    t.copies = [] ∧ t.lastCore = 159 ∧ t.lastQueue = none ∧ t.powered = true) ∧
  (∀ (s : State) (n : Nat) (pass : List Bool) (d : Die), s.dies[n]? = some d →
    ((d.quiesce = none ∨ quiesced s = false) → exec (.selfCheckDone n pass) s = .next s) ∧
    (d.quiesce.isSome = true → quiesced s = true → MemOk s → s.mgmtBase.isSome = true →
      let s0 := (failed d pass).foldl (fun s k => selfCheckLog s (40 * n + k)) s
      ∃ s1 t d', exec (.selfCheckDone n pass) s = .next t ∧ Ended s1 0 t ∧ s1.dies[n]? = some d' ∧
        (∀ a, ¬ (s0.badGranules.contains (a / 32) = true ∧ granuleOn n (a / 32) = true) → memRead s1.mem a = memRead s0.mem a) ∧
        s1.badGranules = s0.badGranules.filter (fun g => !granuleOn n g) ∧
        d'.quiesce = none ∧ (∀ i, i ≠ n → s1.dies[i]? = s.dies[i]?) ∧ (∀ c ∈ s1.contexts, c.quiesced = false) ∧
        (∀ i < d.phys.length, pass.getD i false = false → d'.phys[i]? = some .retired) ∧
        (∀ i < d.phys.length, ∀ k, pass.getD i false = true → d.phys[i]? = some (.logical k) →
          d'.phys[i]? = some (.logical k)) ∧
        (∀ k < 40, .logical k ∉ d'.phys → .spare ∉ d'.phys) ∧
        (∀ c, c < s.cores.length → c / 40 = n → ((coreOf s1 c).active = true ↔ .logical (c % 40) ∈ d'.phys)) ∧
        ∀ c, c / 40 ≠ n → coreOf s1 c = coreOf s c)) ∧
  (∀ (s : State), quiesced s = true ↔
    (∀ g ∈ s.groups, ∀ c, ctxOf s g.ctx = some c → c.quiesced = true → g.place = .saved) ∧
    (∀ t ∈ s.teams, ∀ c, ctxOf s t.ctx = some c → c.quiesced = true → t.place = .saved)) ∧
  (∀ (phys : List CoreMark) (k i : Nat), .logical k ∉ phys → phys[i]? = some .spare → (∀ j < i, phys[j]? ≠ some .spare) →
    giveSpare phys k = phys.set i (.logical k)) ∧
  (∀ (s : State) (core : Nat) (c : Context), c ∈ s.contexts → (∀ x ∈ s.contexts, x ≠ c → c.num < x.num) →
    ∃ r, selfCheckLog s core = report s r ∧ r.ctx = c.num ∧ r.link = .log ∧ r.body.cause = Cause.compareMismatch.code ∧
      r.body.source = 4 ∧ r.body.aux0 = BitVec.ofNat 64 core ∧ r.body.aux1 = 0xFFFF_FFFF_FFFF_FFFF#64) ∧
  (∀ (s : State) (c : Nat) (e : Thermal), c < s.cores.length → (∀ f, e ≠ .recovered f) →
    ∃ t m, exec (.thermalEvent c e) s = .next t ∧ m < 2250 ∧ coreOf t c = { coreOf s c with mhz := m } ∧
      (∀ i, i ≠ c → coreOf t i = coreOf s i) ∧ t.irqs = s.irqs ++ [s.mgmtVec] ∧ t.thermal = s.thermal ++ [(c, e)] ∧
      { t with cores := s.cores, irqs := s.irqs, thermal := s.thermal, freeCtr := s.freeCtr } = s) ∧
  (∀ (s : State) (c f : Nat), c < s.cores.length → exec (.thermalEvent c (.recovered f)) s =
    .next (if 2250 ≤ f ∧ f ≤ 2600 ∧ f % 25 = 0 then setCore s c { coreOf s c with mhz := f } else s)) ∧
  (∀ (s : State), ((∃ t ∈ s.teams, t.place ≠ .saved) → exec .computeDiePowerOff s = .next s) ∧
    ((∀ t ∈ s.teams, t.place = .saved) → ∃ t, exec .computeDiePowerOff s = .next t ∧ t.powered = false ∧ t.contexts = [] ∧
      t.groups = [] ∧ (∀ c, (coreOf t c).active = false) ∧ ∀ d ∈ t.dies, d.booted = false)) ∧
  (∀ (s : State) (pa n : Nat), ∃ t bs, exec (.hostDieAccess (.read pa n)) s = .next t ∧
    t.hostReads = (pa, bs) :: s.hostReads ∧ { t with hostReads := s.hostReads, freeCtr := s.freeCtr } = s ∧ bs.length = n ∧
    ∀ i < n, s.badGranules.contains ((pa + i) / 32) = false → bs.getD i 0#8 = memRead s.mem (pa + i)) ∧
  (∀ (s : State) (pa : Nat) (bs : List Byte) (rel : Bool), MemOk s → bs ≠ [] → partlyBad s pa bs.length = none →
    ∃ t, exec (.hostDieAccess (.write pa bs rel)) s = .next t ∧
      (∀ i < bs.length, memRead t.mem (pa + i) = bs.getD i 0#8) ∧
      (∀ a, (a < pa ∨ pa + bs.length ≤ a) → memRead t.mem a = memRead s.mem a) ∧
      (∀ g ∈ t.badGranules, g * 32 < pa ∨ pa + bs.length < g * 32 + 32)) ∧
  (∀ (s : State) (pa g : Nat) (bs : List Byte), MemOk s → pa < 32 * g + 32 → 32 * g < pa + bs.length →
    let covered := pa ≤ 32 * g ∧ 32 * g + 32 ≤ pa + bs.length
    (s.badGranules.contains g = true → ¬ covered → hostGranule pa bs s g = eccLog s (32 * g)) ∧
    (s.badGranules.contains g = false ∨ covered → ∀ a, memRead (hostGranule pa bs s g).mem a =
      if a / 32 = g ∧ pa ≤ a ∧ a < pa + bs.length then bs.getD (a - pa) 0#8 else memRead s.mem a)) ∧
  (∀ (s : State) (core unit v src : Nat) (c : Capture), core < s.cores.length → (coreOf s core).captures[unit]? = some c →
    c.source = some src → v < 2 ^ 32 →
    let k := coreOf s core
    let w := if src = 3 then (k.pans.map fun p => (p.map fun x => x.recs.length).getD 0).sum
      else if src = 4 then (if k.boosts = [] then k.mhz else max k.mhz 2250) else v
    let first := ∀ n ∈ c.buckets, n = 0
    (coreOf (takeSample s core unit v) core).captures[unit]? = some
      { c with min := if first then w else min c.min w, max := if first then w else max c.max w,
               buckets := c.buckets.modify (if w = 0 then 0 else Nat.log2 w) fun n => min (n + 1) (2 ^ 32 - 1) }) ∧
  (∀ (s : State) (c k : Nat) (e : TlbEntry), (coreOf s c).tlb[k]? = some e →
    exec (.tlbLeaseExpiry c k) s = .next (if e.expiry ≤ s.clock.toNat
      then setCore s c { coreOf s c with tlb := (coreOf s c).tlb.eraseIdx k } else s))


/-- Each command of the management ring, when it is the next, has its effect and ends as done, or is rejected with no effect,
or busy; in each case STATUS is written, HEAD advances and the driver is signalled. A quiesce pre-empts what is resident on
the die, and ends with its self-check (00 R8; 01 R15, R32; 10 R198; 11 R218; 12 R220; 13 R238 to R240, R244, R247 to R249).
The sizes of a context image and of an attestation report, a released queue that is busy, where a group resumes, that a
termination drops the records that wait for room, what is resident on a die and the status of a quiesce of one that has not
booted are the model's choice (logs 12, 13, 23 to 25, 9, 47, 78). -/
def Obligations.Management : Prop :=
  ∀ (s : State), MemOk s →
    (∀ i, mgmtNext s = some i → s.mgmtBase.isSome = true ∧ ∃ base, s.mgmtBase = some base ∧
      i = mgmtInstr (physRead s (base + 64 + 64 * (s.mgmtHead % 256)) 64)) ∧
    (∀ x, mgmtNext s ≠ some (mgmtInstr x) → exec (mgmtInstr x) s = .next s) ∧
    (mgmtNext s = some .reservedManagementCommand → Commanded .reservedManagementCommand s s 1) ∧
    (∀ (num block : DWord), mgmtNext s = some (.createContext num block) →
      let x := physRead s block.toNat 256
      Does (.createContext num block) s
        (num.toNat < 65536 ∧ ctxOf s num.toNat = none ∧ block.toNat % 64 = 0 ∧ blockOk x = true)
        (createContext s num.toNat x) ∧
      ∃ c, (createContext s num.toNat x).contexts = s.contexts ++ [c] ∧ c.num = num.toNat ∧ c.ptroot = x % 2 ^ 64 ∧
        c.lease = (if x / 2 ^ 64 % 2 ^ 16 = 0 then 64 else x / 2 ^ 64 % 2 ^ 16) ∧ c.splitArea = 4096 * (x / 2 ^ 80 % 8) ∧
        c.fabric = x.testBit 83 ∧ c.highWater = x / 2 ^ 96 % 2 ^ 32 ∧ c.brineCap = x / 2 ^ 192 % 2 ^ 32 ∧ c.brine = [] ∧
        c.handler = BitVec.ofNat 64 (x / 2 ^ 256) ∧ c.fring = x / 2 ^ 320 % 2 ^ 64 ∧ c.fringK = x / 2 ^ 384 % 256 ∧
        c.poolK = x / 2 ^ 392 % 256 ∧ c.fvec = x / 2 ^ 400 % 2 ^ 16 ∧ c.pool = x / 2 ^ 448 % 2 ^ 64 ∧
        c.checkSz = x / 2 ^ 576 % 2 ^ 64 ∧ c.saveSz = x / 2 ^ 704 % 2 ^ 64 ∧ c.nextGrid = 1 ∧ c.terminating = false) ∧
    (∀ (num : DWord) (c : Context), mgmtNext s = some (.terminateContext num) → Holds s num c →
      ∃ s1, Commanded (.terminateContext num) s s1 0 ∧ s1 = settleAcks (dropContext (terminate s c) c.num) ∧
        (∀ g, g ∈ (terminate s c).groups ↔ g ∈ s.groups ∧ g.ctx ≠ c.num) ∧
        (∀ x, x ∈ (terminate s c).copies ↔ x ∈ s.copies ∧ x.ctx ≠ c.num) ∧ (terminate s c).mem = s.mem ∧
        (∀ r, r ∈ (terminate s c).undelivered ↔ r ∈ s.undelivered ∧ r.ctx ≠ c.num) ∧
        (∀ x, ctxOf (terminate s c) c.num = some x → x.terminating = true ∧ x.brine = []) ∧
        (∀ k ∈ (terminate s c).cores, ∀ p, some p ∈ k.pans → ∀ r ∈ p.recs, r.ctx ≠ c.num) ∧
        (∀ o ∈ (terminate s c).ops, o.ctx = c.num → ∀ e ∈ o.elems, e.isParked = false) ∧
        (∀ g ∈ (terminate s c).grids, g.ctx = c.num → g.phase = .active → g.faulted = true) ∧
        ∀ g ∈ s.groups, g.ctx ≠ c.num → g ∈ (terminate s c).groups) ∧
    (∀ (q base slots ctx age : DWord), mgmtNext s = some (.registerQueue q base slots ctx age) →
      ∀ k, (k = 0 ∨ (4 ≤ k ∧ k ≤ 16 ∧ slots.toNat = 2 ^ k)) → (k = 0 → ∀ j, 4 ≤ j → j ≤ 16 → slots.toNat ≠ 2 ^ j) →
      let s1 := registerQueue s q.toNat base.toNat k ctx.toNat age.toNat
      Does (.registerQueue q base slots ctx age) s
        ((∃ c, Holds s ctx c) ∧ k ≠ 0 ∧ q.toNat < 8192 ∧ queueOf s q.toNat = none ∧ base.toNat % 65536 = 0 ∧ age.toNat < 65536)
        s1 ∧
      ∃ x, s1.queues = s.queues ++ [x] ∧ x.num = q.toNat ∧ x.base = base.toNat ∧ x.k = k ∧ x.ctx = ctx.toNat ∧
        x.age = age.toNat ∧ x.tail = physRead s base.toNat 8 ∧ x.head = 0 ∧ x.taken = 0 ∧
        x.ack = BitVec.ofNat 64 (physRead s (base.toNat + 16) 8) ∧ (x.stopped = decide (2 ^ k < x.tail)) ∧
        s1.irqs = s.irqs ++ (if x.stopped then [s.mgmtVec] else []) ∧ physRead s1 (base.toNat + 8) 8 = 0 ∧
        physRead s1 (base.toNat + 24) 8 = physRead s (base.toNat + 16) 8 ∧
        ∀ a, (a < base.toNat + 8 ∨ base.toNat + 32 ≤ a ∨ (base.toNat + 16 ≤ a ∧ a < base.toNat + 24)) →
          memRead s1.mem a = memRead s.mem a) ∧
    (∀ (q : DWord), mgmtNext s = some (.releaseQueue q) →
      (queueOf s q.toNat = none → Commanded (.releaseQueue q) s s 1) ∧
      (∀ x, queueOf s q.toNat = some x → (∃ g ∈ s.grids, g.queue = x.num) → Commanded (.releaseQueue q) s s 2) ∧
      (∀ x, queueOf s q.toNat = some x → (∀ g ∈ s.grids, g.queue ≠ x.num) →
        Commanded (.releaseQueue q) s { s with queues := s.queues.filter (·.num != x.num) } 0)) ∧
    (∀ (die : DWord), mgmtNext s = some (.quiesceDie die) →
      ((∀ d, s.dies[die.toNat]? = some d → d.booted = false) → Commanded (.quiesceDie die) s s 1) ∧
      (∀ d, s.dies[die.toNat]? = some d → d.booted = true → ∃ t, exec (.quiesceDie die) s = .next t ∧
        t.dies = s.dies.set die.toNat { d with quiesce := some s.clock.toNat } ∧ t.mgmtHead = s.mgmtHead ∧ t.mem = s.mem ∧
        (∀ c, (∃ tm ∈ s.teams, tm.ctx = c ∧ tm.core / 40 = die.toNat ∧ tm.place ≠ .saved) → (∃ x ∈ s.contexts, x.num = c) →
          ctxStopped t c = true ∧
          (∀ tm ∈ t.teams, ∀ gr ∈ s.grids, gr.ctx = c → tm.grid = gr.uid → tm.place ≠ .saved → tm.haltReq = true) ∧
          ∀ g ∈ t.groups, ∀ tm, teamOf s g.team = some tm → ∀ gr ∈ s.grids, gr.ctx = c → tm.grid = gr.uid →
            g.place ≠ .saved → g.haltReq = true))) ∧
    (∀ (r : DWord), (mgmtNext s = some (.faultRepaired r) → recAt s r = none → Commanded (.faultRepaired r) s s 1) ∧
      (mgmtNext s = some (.faultUnrepairable r) → recAt s r = none → Commanded (.faultUnrepairable r) s s 1) ∧
      ∀ x, recAt s r = some x →
        (∀ cid, x.link = .copy cid →
          (mgmtNext s = some (.faultRepaired r) → Commanded (.faultRepaired r) s { s with copies := s.copies.map fun c =>
            if c.cid = cid then { c with stopped := false } else c } 0) ∧
          (mgmtNext s = some (.faultUnrepairable r) → Commanded (.faultUnrepairable r) s s 0)) ∧
        (∀ g, x.link = .group g → (mgmtNext s = some (.faultRepaired r) → Commanded (.faultRepaired r) s s 0) ∧
          (mgmtNext s = some (.faultUnrepairable r) → Commanded (.faultUnrepairable r) s s 0)) ∧
        (∀ gid die page, x.link = .sluice gid die page →
          (mgmtNext s = some (.faultRepaired r) →
            let s1 := wakeAll (replayParked s x.ctx gid page)
            (MemOk s1 → Commanded (.faultRepaired r) s s1 0) ∧
            ∀ o k e q c u pa s2, parkedAt s x.ctx gid page = [(q, o.id, k)] → opOf s o.id = some o → o.elems[k]? = some e →
              earlierParked s o e = false →
              ctxOf s o.ctx = some c → walkAccess s c e.va .rmw o.sup = (.ok pa, s2) → o.kind = .rmw u none →
              e.space = .global → badGranule? s2 pa e.size = none → MemOk s2 →
              Wrote s2 s1 pa e.size (rmwValue e.u e.op (physRead s2 pa e.size) e.data.toNat e.data2.toNat)) ∧
          (mgmtNext s = some (.faultUnrepairable r) → ∃ s1, Commanded (.faultUnrepairable r) s s1 0 ∧ s1.mem = s.mem ∧
            ∀ (o : Op) (e : Elem), opOf s o.id = some o → e ∈ o.elems → o.ctx = x.ctx → e.isParked = true → e.page = page →
              (o.gid = gid ∨ ∃ (o' : Op) (e' : Elem), opOf s o'.id = some o' ∧ e' ∈ o'.elems ∧ o'.ctx = x.ctx ∧ o'.gid = gid ∧
                e'.isParked = true ∧ e'.page = page ∧ e'.seq < e.seq ∧ parksBehind o o' = true) →
              ∀ g, gridOf s1 o.grid = some g → g.lost = true))) ∧
    (∀ (ctx list : DWord) (c : Context), mgmtNext s = some (.setBreakpoints ctx list) → Holds s ctx c →
      let l := (List.range 8).map fun k => BitVec.ofNat 64 (physRead s (list.toNat + 8 * k) 8)
      Does (.setBreakpoints ctx list) s (∀ a ∈ l, a = 0xFFFF_FFFF_FFFF_FFFF#64 ∨ a.toNat % 16 = 0) (setCtx s { c with bps := l })) ∧
    (∀ (ctx g buf : DWord) (c : Context), mgmtNext s = some (.contextRead ctx g buf) → Holds s ctx c →
      ((∀ x, groupOf s g.toNat = some x → x.ctx ≠ c.num) → Commanded (.contextRead ctx g buf) s s 1) ∧
      (∀ x, groupOf s g.toNat = some x → x.ctx = c.num → ∃ s1 n, Commanded (.contextRead ctx g buf) s s1 0 ∧
        n = groupArea x.vregs.length x.phys.length ∧
        (∀ a, (a < buf.toNat ∨ buf.toNat + n ≤ a) → memRead s1.mem a = memRead s.mem a) ∧
        { s1 with mem := s.mem, badGranules := s.badGranules, freeCtr := s.freeCtr } = s)) ∧
    (∀ (n list len limit : DWord), mgmtNext s = some (.reductionGroup n list len limit) →
      Does (.reductionGroup n list len limit) s
        (n.toNat < 65536 ∧ 2 ≤ len.toNat ∧ len.toNat ≤ 4096 ∧ limit.toNat ≤ 10000)
        { s with
          sredGroups := { num := n.toNat, devices := (List.range len.toNat).map fun k => physRead s (list.toNat + 2 * k) 2,
                          limit := if limit = 0#64 then 200 else limit.toNat, nextInst := 0 } ::
            s.sredGroups.filter (·.num != n.toNat)
          sredInsts := s.sredInsts.filter (·.group != n.toNat) }) ∧
    (∀ (core unit src : DWord), mgmtNext s = some (.captureSet core unit src) →
      Does (.captureSet core unit src) s (core.toNat < 160 ∧ unit.toNat < 4 ∧ src.toNat ≤ 5)
        (setCore s core.toNat { coreOf s core.toNat with
          captures := (coreOf s core.toNat).captures.set unit.toNat (Capture.cleared (some src.toNat)) })) ∧
    (∀ (core unit buf : DWord), mgmtNext s = some (.captureRead core unit buf) →
      (¬ (core.toNat < 160 ∧ unit.toNat < 4) → Commanded (.captureRead core unit buf) s s 1) ∧
      (core.toNat < 160 → ∀ u, (coreOf s core.toNat).captures[unit.toNat]? = some u → unit.toNat < 4 → u.buckets.length = 32 →
        ∃ s1, Commanded (.captureRead core unit buf) s s1 0 ∧ physRead s1 buf.toNat 4 = u.min % 2 ^ 32 ∧
          physRead s1 (buf.toNat + 4) 4 = u.max % 2 ^ 32 ∧
          (∀ k < 32, physRead s1 (buf.toNat + 8 + 4 * k) 4 = u.buckets.getD k 0 % 2 ^ 32) ∧
          ∀ a, (a < buf.toNat ∨ buf.toNat + 136 ≤ a) → memRead s1.mem a = memRead s.mem a)) ∧
    (∀ (w : DWord), mgmtNext s = some (.powerCap w) →
      Does (.powerCap w) s (1800 ≤ w.toNat ∧ w.toNat ≤ 3600) { s with powerCap := w.toNat }) ∧
    (∀ (nonce rep : DWord), mgmtNext s = some (.attest nonce rep) → ∃ s1 bs, Commanded (.attest nonce rep) s s1 0 ∧
      s1.mem = memWriteBytes s.mem rep.toNat bs ∧ (∀ i < 32, bs.getD i 0#8 = memRead s.mem (nonce.toNat + i)) ∧
      3405 ≤ bs.length ∧
      (∀ i d n, (s.dies.zipIdx.filter fun d => d.1.booted)[i]? = some (d, n) → ∀ j < 48,
        bs.getD (32 + 48 * i + j) 0#8 = Config.measurements s.boots n j) ∧ ∃ pre post, bs = pre ++ Config.coreMap (s.dies.flatMap fun d => d.phys.map (· == .retired))
        (s.cores.map fun k => !k.active) ++ post) ∧
    (∀ (ctx hw lease : DWord) (c : Context), mgmtNext s = some (.contextSettings ctx hw lease) → Holds s ctx c →
      Does (.contextSettings ctx hw lease) s (hw.toNat < 2 ^ 32 ∧ lease.toNat ≤ 1024)
        (setCtx s { c with
          highWater := if hw = 0#64 then c.highWater else hw.toNat
          lease := if lease = 0#64 then c.lease else lease.toNat
          leaseMax := if lease = 0#64 then c.leaseMax else max c.leaseMax lease.toNat })) ∧
    (∀ (r point : DWord), mgmtNext s = some (.resumeGroup r point) →
      ((∀ gid, (recAt s r).map DriverRec.link ≠ some (.group gid)) → Commanded (.resumeGroup r point) s s 1) ∧
      ∀ gid, (recAt s r).map DriverRec.link = some (.group gid) → ∀ g, groupOf s gid = some g →
        (haltsNow g r.toNat = false → Commanded (.resumeGroup r point) s s 1) ∧
        ∀ d, haltsNow g r.toNat = true → g.driver = some d → twinOf s g = none →
          (2 < point.toNat → Commanded (.resumeGroup r point) s s 1) ∧
          (point.toNat = 1 → d.kind ≠ .escape → Commanded (.resumeGroup r point) s s 1) ∧
          (point.toNat = 2 → d.kind ≠ .noHandler → Commanded (.resumeGroup r point) s s 1) ∧
          (∀ p, splitOf g d.sid = some p →
            (point.toNat = 1 → d.kind = .escape → Commanded (.resumeGroup r point) s
              (setGroup s { setSplit g { p with pc := p.pc + 16#64 } with driver := none, resume := .due }) 0) ∧
            (point.toNat = 2 → d.kind = .noHandler → Commanded (.resumeGroup r point) s
              (setGroup s { setSplit g { p with pc := d.body.pc + 16#64, swpidx := 0 } with driver := none, resume := .due }) 0) ∧
            (point.toNat = 0 → d.kind = .breakpoint false → Commanded (.resumeGroup r point) s
              (setGroup s { setSplit g { p with bpSkip := true } with driver := none, resume := .due }) 0)) ∧
          (point.toNat = 0 → (d.kind = .breakpoint true ∨ d.kind = .noHandler ∨ d.kind = .driver) → d.body.inhandler = false →
            Commanded (.resumeGroup r point) s (setGroup s { g with driver := none, resume := .due }) 0) ∧
          (∀ sh p, point.toNat = 0 → (d.kind = .escape ∨ d.kind = .inHandler) →
            d.body.inhandler = true → g.shadow = some sh → splitOf g sh.sid = some p →
            ∃ g' p', Commanded (.resumeGroup r point) s (setGroup s g') 0 ∧ g'.driver = none ∧ g'.resume = .due ∧
              g'.shadow = none ∧ g'.status = sh.status ∧ g'.sregs = g.sregs.take 56 ++ sh.s56 ∧ splitOf g' sh.sid = some p' ∧
              p'.pc = g.trappc ∧ p'.em = sh.em &&& p.members ∧ p'.fmt = sh.fmt)) ∧
    (∀ (ctx list count : DWord) (c : Context), mgmtNext s = some (.poolAdd ctx list count) → Holds s ctx c →
      let n := physRead s c.pool 8
      let fs := (List.range count.toNat).map fun k => physRead s (list.toNat + 8 * k) 8
      ((2 ^ c.poolK < n + count.toNat ∨ ∃ f ∈ fs, f % 65536 ≠ 0 ∨ 2 ^ 52 ≤ f) → Commanded (.poolAdd ctx list count) s s 1) ∧
      (n + count.toNat ≤ 2 ^ c.poolK → c.poolK ≤ 20 → (∀ f ∈ fs, f % 65536 = 0 ∧ f < 2 ^ 52) →
        ∃ s1, Commanded (.poolAdd ctx list count) s s1 0 ∧ physRead s1 c.pool 8 = n + count.toNat ∧
          (∀ k < count.toNat, physRead s1 (c.pool + 64 + 8 * (n + k)) 8 = fs.getD k 0) ∧
          ∀ a, (a < c.pool ∨ c.pool + 8 ≤ a) → (a < c.pool + 64 + 8 * n ∨ c.pool + 64 + 8 * (n + count.toNat) ≤ a) →
            memRead s1.mem a = memRead s.mem a)) ∧
    (∀ (n : DWord) (i : Instr), (∀ c, ¬ Holds s n c) → mgmtNext s = some i →
      ((∃ a b, i = .contextSettings n a b) ∨ i = .terminateContext n ∨ (∃ a, i = .setBreakpoints n a) ∨
        (∃ a b, i = .contextRead n a b) ∨ ∃ a b, i = .poolAdd n a b) → Commanded i s s 1)


/-! ## Encodings, steps and invariants -/

/-- Decode and encode agree: every well-formed instruction, with every operand its encoding admits, is read back from its word,
and a word that decodes is the word of a well-formed instruction (05 R97; 14 R251 to R264). -/
def Obligations.DecodeAndEncodeAgree : Prop :=
  (∀ i : Instr, WellFormed i → decode (encode i) = .ok i) ∧
  (∀ (w : IWord) (i : Instr), decode w = .ok i → WellFormed i ∧ encode i = w)

/-- Words that the manual writes out decode to the instructions it writes beside them, and its examples of reserved encodings
to none (14 R262, R265; 20 R287; 21 R316 to R345; 22 R346, R352). -/
def Obligations.WordsDecode : Prop :=
  let g (n : Bool) (b : BitVec 5) : Hdr := { bareHdr 0#3 with guard := .vector n b 9#8 }
  let c (h : Hdr) (x t : BitVec 32) : CFmt := { h, d := .v 0, a := .v 0, b := .v 0, xoff := x, toff := t }
  decode (wordOf 0x091D_0080#32 0x00C0_2C0A#32 0x0840_0C00#32 0#32) =
    .ok (.fadd .f32 { bareR (g true 3#5) (.v 10) (.v 11) (.v 12) with ma := 3#4, ta := true, mod := 4#7 }) ∧
  decode (wordOf 0x0901_02C1#32 0#32 0x80#32 0x20#32) = .ok (.braD (c (g false 0#5) 0x80#32 0x20#32)) ∧
  decode (wordOf 0x0911_02C2#32 0#32 2#32 0x5F#32) = .ok (.brk (c (g false 2#5) 2#32 0x5F#32)) ∧
  decode (wordOf 0x0901_02C5#32 0#32 0#32 0#32) = .ok (.exit (c (g false 0#5) 0#32 0#32)) ∧
  decode (wordOf 0x0000_009C#32 0x0020_0404#32 3#32 0#32) =
    .ok (.fma .f32 { bareR (bareHdr 0#3) (.v 4) (.v 1) (.v 2) with c := .v 3 }) ∧
  decode (wordOf 0x0000_0281#32 0x1500_1150#32 0#32 0#32) = .ok (.jdec
    { h := bareHdr 0#3, d := .zero, a := .v 4, b := .zero, c := .v 0, ma := 0#4, space := 0#4, mc := 0#4, ta := false,
      tc := false, mod := 0#7, disp := 0#32 }) ∧
  decode (wordOf 0x0000_0301#32 0#32 0#32 0#32) = .ok (.dflush
    { h := bareHdr 0#3, d := .v 0, a := .v 0, b := .v 0, c := .v 0, mod := 0#7, kimm := 0#32 }) ∧
  (∀ i, decode 0#128 ≠ .ok i) ∧ (∀ w : IWord, w.extractLsb' 0 10 = 0x3FF#10 → ∀ i, decode w ≠ .ok i)

/-- A step that names a split which may issue fetches the 16 bytes at its PC, after what precedes a fetch (its round, its
entry in the hardware table, merges, a breakpoint inside a chain), and runs the decoded instruction; a word that is no
instruction is a reserved encoding, and a fetch that brings none is a trap, as a PC that is no multiple of 16 is (log 58); a
split that may not issue does not, and the one of an older stamp goes first, among those of the quarter, or of the group for
the second of a pair (03 R56, R64, R71, R72; 09 R191; 10 R203; 11 R218; 12 R229, R232; 14 R251, R262). Which splits have
their operands ready, and so are eligible, is timing, and free (log 3). -/
def Obligations.StepRunsTheDecodedInstruction : Prop :=
  ∀ (s : State) (gid sid : Nat) (src : FetchFrom) (rule : IssueRule) (rest : List Turn),
    s.turns = .issue gid sid src rule :: rest →
    let s0 := { s with turns := rest }
    (∀ g p, groupOf s0 gid = some g → splitOf g sid = some p → issuable s0 g p rule = false → step s = .next s0) ∧
    (∀ g p g1 p1 c r s2, groupOf s0 gid = some g → splitOf g sid = some p → issuable s0 g p rule = true →
      let s1 := beforeFetch s0 gid sid
      groupOf s1 gid = some g1 → splitOf g1 sid = some p1 → ctxOf s1 g1.ctx = some c →
      fetchAt s1 g1.core g1.quarter c p1.pc src p1.refetch g1.inHandler = (r, s2) →
      (∀ w, r = .word w →
        let s3 := updSplit s2 gid sid fun p => { p with refetch := false }
        (∀ i, decode w = .ok i → WellFormed i ∧
          ∃ t, exec i { s3 with cur := some (gid, sid) } = .next t ∧ step s = .next { t with cur := none }) ∧
        (∀ x, decode w = .error x → ∃ t, exec (.reservedEncoding w) { s3 with cur := some (gid, sid) } = .next t ∧
          step s = .next { t with cur := none })) ∧
      ((∀ w, r ≠ .word w) → step s = .next (fetchTrap s2 gid sid r)) ∧
      (p1.pc.toNat % 16 ≠ 0 → bufInstr s1 g1.core g1.quarter c.num p1.pc.toNat = none →
        step s = .next (takeTrap s1 gid sid { cause := .misaligned, mask := p1.members, aux0 := p1.pc }))) ∧
    (∀ (s1 s2 : State) (core quarter : Nat) (c : Context) (pc : DWord) (sup : Bool) (pa : Nat), pc.toNat % 16 = 0 →
      inFabric c pc = false → translate s1 core c pc .fetch sup = (.ok pa, s2) → badGranule? s2 pa 16 = none →
      tornUnit s2 core pa = false →
      ∃ s3, fetchAt s1 core quarter c pc .memory true sup = (.word (BitVec.ofNat 128 (coreValue s2 core pa 16)), s3) ∧
        { s3 with cores := s2.cores } = s2) ∧
    (∀ g p unready, groupOf s0 gid = some g → splitOf g sid = some p → issuable s0 g p (.second unready) = true →
      g.repro = false → p.chainLen = 0 →
      (∃ q, (g.splits.filter fun y => y.stamp == s0.clock.toNat) = [q] ∧ q.chainLen = 0 ∧ p.stamp ≠ s0.clock.toNat) ∧
      ∀ q ∈ g.splits, mayIssue s0 g q = true → (g.gid, q.sid) ∉ unready → q.sid ≠ p.sid →
        p.stamp < q.stamp ∨ (p.stamp = q.stamp ∧ (p.members.lowest).getD 64 ≤ (q.members.lowest).getD 64)) ∧
    (∀ g p unready, groupOf s0 gid = some g → splitOf g sid = some p → issuable s0 g p (.first unready) = true →
      g.repro = false → p.chainLen = 0 → ∀ x ∈ s0.groups, ∀ q ∈ x.splits, x.core = g.core → x.quarter = g.quarter → x.repro = false → mayIssue s0 x q = true →
        yieldHolds s0 q = false → (x.gid, q.sid) ∉ unready → (x.gid ≠ g.gid ∨ q.sid ≠ p.sid) →
        p.stamp < q.stamp ∨ (p.stamp = q.stamp ∧ (g.gindex < x.gindex ∨ (g.gindex = x.gindex ∧
          (p.members.lowest).getD 64 ≤ (q.members.lowest).getD 64))))

/-- What reset leaves, of what the manual says: CLOCK at 0, no work of any kind, the first team is offered first to core 0, the
first round starts at queue 0; and the invariants hold (00 R1, R5; 01 R26; 05 R105; 12 R225). That the latch rings read zero is
the model's choice (log 10). -/
def Obligations.AfterReset : Prop :=
  (coreOrder State.reset).head? = some 0 ∧ (∀ q, roundPlace State.reset q = q) ∧ State.reset.contexts = [] ∧
  State.reset.queues = [] ∧ State.reset.grids = [] ∧ State.reset.teams = [] ∧ State.reset.groups = [] ∧
  State.reset.ops = [] ∧ State.reset.copies = [] ∧ State.reset.clock = 0#64 ∧ State.reset.cores.length = 160 ∧
  State.reset.dies.length = 4 ∧ (∀ r ∈ State.reset.rings, ∀ l ∈ r, l.val = LaneVec.zero) ∧
  MemsOk State.reset ∧ IdsOk State.reset

/-- Every step keeps the canonical form of every memory. The form is the model's own. -/
def Obligations.StepsKeepMemories : Prop :=
  ∀ (s t : State), MemsOk s → step s = .next t → MemsOk t

/-- Every step keeps the model's numbers distinct: each names one group, split or region, and is below the next one. The
numbers are the model's own (log 4). -/
def Obligations.StepsKeepIdentities : Prop :=
  ∀ (s t : State), IdsOk s → step s = .next t → IdsOk t
end

