-- ==== Sys2Proof/Laws/Issue.lean ====
section
/-!
SUPPORT. Lemmas about finding and replacing groups and splits, and about the issue of one instruction: `runInstr` of an
instruction that reaches its own effect, and what `retire` leaves.
-/
namespace Sys2Proof.Machine

/-! ## Finding in lists -/

theorem find_map_key {α : Type} (key : α → Nat) (l : List α) (x y : α) (n : Nat) (hy : key y = n)
    (h : l.find? (fun a => key a == n) = some x) :
    (l.map fun a => if key a = n then y else a).find? (fun a => key a == n) = some y := by
  induction l with
  | nil => simp at h
  | cons a t ih =>
    rw [List.map_cons, List.find?_cons]
    by_cases ha : key a = n
    · simp [ha, hy]
    · rw [List.find?_cons] at h
      simp only [ha, if_false, beq_eq_false_iff_ne.mpr ha] at h ⊢
      exact ih h

theorem find_map_other {α : Type} (key : α → Nat) (l : List α) (y : α) (n m : Nat) (hy : key y = n) (hne : m ≠ n) :
    (l.map fun a => if key a = n then y else a).find? (fun a => key a == m) = l.find? (fun a => key a == m) := by
  induction l with
  | nil => rfl
  | cons a t ih =>
    rw [List.map_cons, List.find?_cons, List.find?_cons, ih]
    by_cases ha : key a = n
    · have h1 : (key y == m) = false := beq_eq_false_iff_ne.mpr fun h => hne (h.symm.trans hy)
      have h2 : (key a == m) = false := beq_eq_false_iff_ne.mpr fun h => hne (h.symm.trans ha)
      simp only [ha, if_true, h1]
      rw [ha] at h2
      simp only [h2]
    · simp only [ha, if_false]

/-! ## Groups and splits -/

theorem groupOf_gid {s : State} {n : Nat} {g : Group} (h : groupOf s n = some g) : g.gid = n := by
  simpa using List.find?_some h

theorem splitOf_sid {g : Group} {n : Nat} {p : Split} (h : splitOf g n = some p) : p.sid = n := by
  simpa using List.find?_some h

theorem groupOf_setGroup {s : State} {n : Nat} {g x : Group} (h : groupOf s n = some x) (hg : g.gid = n) :
    groupOf (setGroup s g) n = some g := by
  subst hg
  exact find_map_key Group.gid s.groups x g g.gid rfl h

theorem groupOf_setGroup_other {s : State} {g : Group} {m : Nat} (h : m ≠ g.gid) :
    groupOf (setGroup s g) m = groupOf s m :=
  find_map_other Group.gid s.groups g g.gid m rfl h

theorem splitOf_setSplit {g : Group} {n : Nat} {p x : Split} (h : splitOf g n = some x) (hp : p.sid = n) :
    splitOf (setSplit g p) n = some p := by
  subst hp
  exact find_map_key Split.sid g.splits x p p.sid rfl h

theorem splitOf_setSplit_other {g : Group} {p : Split} {m : Nat} (h : m ≠ p.sid) :
    splitOf (setSplit g p) m = splitOf g m :=
  find_map_other Split.sid g.splits p p.sid m rfl h

theorem updGroup_eq {s : State} {n : Nat} {g : Group} (h : groupOf s n = some g) (f : Group → Group) :
    updGroup s n f = setGroup s (f g) := by
  simp [updGroup, h]

theorem updSplit_eq {s : State} {n m : Nat} {g : Group} {p : Split} (h : groupOf s n = some g)
    (hp : splitOf g m = some p) (f : Split → Split) :
    updSplit s n m f = setGroup s (setSplit g (f p)) := by
  simp [updSplit, updGroup, h, hp]

theorem setGroup_setGroup (s : State) (a b : Group) (h : a.gid = b.gid) :
    setGroup (setGroup s a) b = setGroup s b := by
  simp only [setGroup, List.map_map]
  congr 1
  apply List.map_congr_left
  intro x _
  by_cases hx : x.gid = b.gid <;> simp [h, hx]

theorem setGroup_self {s : State} {g : Group} (h : ∀ x ∈ s.groups, x.gid = g.gid → x = g) : setGroup s g = s := by
  have : s.groups.map (fun x => if x.gid = g.gid then g else x) = s.groups := by
    conv_rhs => rw [← List.map_id s.groups]
    apply List.map_congr_left
    intro x hx
    by_cases hg : x.gid = g.gid
    · simp [h x hx hg]
    · simp [hg]
  simp [setGroup, this]

@[simp] theorem setSplit_gid (g : Group) (p : Split) : (setSplit g p).gid = g.gid := rfl

/-! ## The issuing split -/

theorem issuer_state {s : State} {i : Instr} {u : Iss} (h : issuer s i = some u) :
    u.s = s ∧ u.i = i ∧ s.cur = some (u.g.gid, u.p.sid) ∧ groupOf s u.g.gid = some u.g ∧
    splitOf u.g u.p.sid = some u.p ∧ ctxOf s u.g.ctx = some u.ctx := by
  unfold issuer at h
  split at h
  · cases h
  · rename_i gid sid hc
    split at h
    · cases h
    · rename_i g hg
      split at h
      · rename_i p c hp hx
        cases h
        have h1 := groupOf_gid hg
        have h2 := splitOf_sid hp
        subst h1; subst h2
        exact ⟨rfl, rfl, hc, hg, hp, hx⟩
      · cases h

theorem runInstr_next {i : Instr} {body : Iss → Eff} {s : State} {u : Iss} (h : issuer s i = some u)
    (hc : clear u = true) : runInstr i body s = .next (commit u (body u)) := by
  simp only [clear, Bool.and_eq_true, Option.isNone_iff_eq_none, Bool.not_eq_eq_eq_not, Bool.not_true] at hc
  have he : earlyTrap u = none := by cases hx : isExit u.i <;> simp [earlyTrap, hx, hc.1.1.1.1, hc.1.1.2]
  simp [runInstr, h, he, hc.1.1.1.2, hc.1.1.2, hc.1.2, hc.2]

/-! ## What `retire` leaves -/

theorem retiredSplit_sid (u : Iss) (next : Bool) (p : Split) : (retiredSplit u next p).sid = p.sid := rfl

theorem retiredGroup_gid (u : Iss) (g : Group) : (retiredGroup u g).gid = g.gid := rfl

theorem splitOf_bpDue (g : Group) (b : Option BpDue) (n : Nat) : splitOf { g with bpDue := b } n = splitOf g n := rfl

/-- What the end of a hold chain leaves of a group in which its split stands at `p`: all as it is, but a halt that falls
due. -/
theorem chainBp_eq {u : Iss} {g : Group} {p : Split} (hp : splitOf g u.p.sid = some p) :
    chainBp u g = { g with bpDue := breakOwed u g.bpDue p.pc } := by
  have hne : g.splits.isEmpty = false := by
    cases hs : g.splits with
    | nil => simp [splitOf, hs] at hp
    | cons _ _ => rfl
  unfold chainBp breakOwed
  cases u.p.bpMatch with
  | none => rfl
  | some a => cases instrHold u.i <;> simp [hne, hp]

/-- The state that `retire` leaves, in one replacement. -/
theorem retire_eq {s : State} {u : Iss} {next : Bool} {g : Group} {p : Split} (hg : groupOf s u.g.gid = some g)
    (hp : splitOf g u.p.sid = some p) :
    retire s u next = setGroup s
      { setSplit (retiredGroup u g) (retiredSplit u next p) with
        bpDue := breakOwed u g.bpDue (retiredSplit u next p).pc } := by
  have h1 : groupOf (setGroup s (retiredGroup u g)) u.g.gid = some (retiredGroup u g) :=
    groupOf_setGroup hg ((retiredGroup_gid u g).trans (groupOf_gid hg))
  have hq : splitOf (setSplit (retiredGroup u g) (retiredSplit u next p)) u.p.sid = some (retiredSplit u next p) :=
    splitOf_setSplit (g := retiredGroup u g) hp ((retiredSplit_sid u next p).trans (splitOf_sid hp))
  have h2 := groupOf_setGroup (g := setSplit (retiredGroup u g) (retiredSplit u next p)) h1
    ((retiredGroup_gid u g).trans (groupOf_gid hg))
  rw [retire, updGroup_eq hg, updSplit_eq (p := p) h1 hp, updGroup_eq h2, chainBp_eq hq]
  rw [setGroup_setGroup, setGroup_setGroup] <;> rfl

/-- An instruction whose effect changes no more than its group's registers, STATUS and SRCTR, and the ring of its quarter. -/
theorem retire_stepped' {s : State} {u : Iss} {s' : State} {g1 : Group} (hs : u.s = s)
    (hpr : splitOf u.g u.p.sid = some u.p) (hi : isIret u.i = false)
    (hg : groupOf s' u.g.gid = some g1) (hsp : g1.splits = u.g.splits)
    (hl : g1.lclk = u.g.lclk)
    (hothers : ∀ n, n ≠ u.g.gid → groupOf s' n = groupOf s n)
    (hm : { s' with groups := s.groups, rings := s.rings } = s)
    (hr : ∀ c q, 4 * c + q ≠ 4 * u.g.core + u.g.quarter → ringOf s' c q = ringOf s c q)
    (ho : { g1 with vregs := u.g.vregs, oregs := u.g.oregs, sregs := u.g.sregs, status := u.g.status,
                    srctr := u.g.srctr } = u.g) :
    ∃ g' p', Stepped u (retire s' u true) g' p' ∧ Advanced u p' (u.p.pc + 16#64) ∧
      g'.vregs = g1.vregs ∧ g'.oregs = g1.oregs ∧ g'.sregs = g1.sregs ∧ g'.status = g1.status ∧ g'.srctr = g1.srctr ∧
      (∀ c q, ringOf (retire s' u true) c q = ringOf s' c q) := by
  have hp1 : splitOf g1 u.p.sid = some u.p := by simpa [splitOf, hsp] using hpr
  have hgid1 := groupOf_gid hg
  have hsid := splitOf_sid hpr
  have hmem : s'.mem = s.mem := by rw [← hm]
  rw [retire_eq hg hp1]
  refine ⟨_, retiredSplit u true u.p, ⟨groupOf_setGroup hg hgid1, ?_, ?_, ?_, ?_, ?_, ?_, ?_, ?_, ?_⟩, ?_, rfl, rfl, rfl, rfl,
    rfl, fun _ _ => rfl⟩
  · rw [splitOf_bpDue]
    exact splitOf_setSplit (g := retiredGroup u g1) hp1 (by rw [retiredSplit_sid, hsid])
  · intro n hn
    rw [groupOf_setGroup_other (by show n ≠ g1.gid; rw [hgid1]; exact hn), hothers n hn, hs]
  · intro n hn
    rw [splitOf_bpDue, splitOf_setSplit_other (by rw [retiredSplit_sid, hsid]; exact hn)]
    simp [splitOf, retiredGroup, hsp]
  · rw [hs]; exact hm
  · intro a; rw [hs]; exact congrArg (memRead · a) hmem
  · intro c q hcq; rw [hs]; exact hr c q hcq
  · conv_rhs => rw [← ho]
    simp only [setSplit, retiredGroup]
    congr 1
    all_goals rw [← ho]
  · simp [setSplit, retiredGroup, hl]
  · rw [show u.g.bpDue = g1.bpDue from (congrArg Group.bpDue ho).symm]
  · by_cases hh : instrHold u.i = true <;> constructor <;> simp [hh, hi, retiredSplit]

theorem retire_stepped {s : State} {i : Instr} {u : Iss} {s' : State} {g1 : Group} (h : issuer s i = some u)
    (hi : isIret i = false)
    (hg : groupOf s' u.g.gid = some g1) (hsp : g1.splits = u.g.splits)
    (hl : g1.lclk = u.g.lclk)
    (hothers : ∀ n, n ≠ u.g.gid → groupOf s' n = groupOf s n)
    (hm : { s' with groups := s.groups, rings := s.rings } = s)
    (hr : ∀ c q, 4 * c + q ≠ 4 * u.g.core + u.g.quarter → ringOf s' c q = ringOf s c q)
    (ho : { g1 with vregs := u.g.vregs, oregs := u.g.oregs, sregs := u.g.sregs, status := u.g.status,
                    srctr := u.g.srctr } = u.g) :
    ∃ g' p', Stepped u (retire s' u true) g' p' ∧ Advanced u p' (u.p.pc + 16#64) ∧
      g'.vregs = g1.vregs ∧ g'.oregs = g1.oregs ∧ g'.sregs = g1.sregs ∧ g'.status = g1.status ∧ g'.srctr = g1.srctr ∧
      (∀ c q, ringOf (retire s' u true) c q = ringOf s' c q) := by
  obtain ⟨hs, hui, -, -, hpr, -⟩ := issuer_state h
  exact retire_stepped' hs hpr (by rw [hui]; exact hi) hg hsp hl hothers hm hr ho

end Sys2Proof.Machine
end

