-- ==== Sys2Proof/Laws/Lanes.lean ====
section
/-!
SUPPORT. What `finishLanes` leaves, the end of every instruction that computes one value per lane: `LaneEffect`, and from
it what `runLanes`, `runSet` and `runCross` leave.
-/
namespace Sys2Proof.Machine

theorem find_keyed {β : Type} (ls : List Nat) (f : Nat → β) (l : Nat) :
    (ls.map fun k => (k, f k)).find? (fun r => r.1 == l) = if ls.contains l then some (l, f l) else none := by
  induction ls with
  | nil => rfl
  | cons a t ih =>
    rw [List.map_cons, List.find?_cons, ih]
    by_cases h : a = l
    · simp [h]
    · have h' : ¬ l = a := fun e => h e.symm
      rw [show (a == l) = false from beq_eq_false_iff_ne.mpr h]
      simp [h']

/-! ## Registers -/

theorem opPlus_ne {g : Group} {d : Opnd} (hd : dstOk g true d = true) (hz : d ≠ .zero) : opPlus d 1 ≠ d := by
  cases d <;> simp_all [opPlus, dstOk]
  · rename_i n
    split <;> simp [Fin.ext_iff]
  · rename_i n
    split <;> simp [Fin.ext_iff]

theorem regWord_writeReg (g : Group) (d o : Opnd) (m : Lanes) (new : Nat → Word) (l : Nat) (hl : l < 64)
    (hs : isScalar d = false) :
    regWord (writeReg g d m new) o l =
      if o = d ∧ regHeld g d = true then (if m.has l then new l else regWord g d l) else regWord g o l := by
  cases d <;> cases o <;> simp_all [writeReg, regWord, regHeld, isScalar]
  · rename_i n k
    by_cases hk : k = n
    · subst hk
      by_cases hh : k.val < g.vregs.length
      · simp [hh, mergeLanes, LaneVec.get_ofFn _ l hl]
      · simp [hh]
    · have : ¬ n.val = k.val := fun e => hk (Fin.ext e.symm)
      simp [hk, this]
  · rename_i n k
    by_cases hk : k = n
    · subst hk
      by_cases hh : k.val < g.oregs.length
      · simp [hh, mergeLanes, LaneVec.get_ofFn _ l hl]
      · simp [hh]
    · have : ¬ n.val = k.val := fun e => hk (Fin.ext e.symm)
      simp [hk, this]

theorem regWord_writeReg_other (g : Group) (d o : Opnd) (m : Lanes) (new : Nat → Word) (l : Nat) (ho : o ≠ d) :
    regWord (writeReg g d m new) o l = regWord g o l := by
  cases d <;> cases o <;> simp_all [writeReg, regWord]
  all_goals
    rename_i n k
    have : ¬ n.val = k.val := fun e => ho (Fin.ext e.symm)
    simp [this]

theorem regHeld_writeReg (g : Group) (d o : Opnd) (m : Lanes) (new : Nat → Word) :
    regHeld (writeReg g d m new) o = regHeld g o := by
  cases d <;> cases o <;> first | rfl | simp [writeReg, regHeld]

theorem regWord_writeScalar (g : Group) (d o : Opnd) (v : Word) (l : Nat) :
    regWord (writeScalar g d v) o l = if o = d ∧ isScalar d = true ∧ regHeld g d = true then v else regWord g o l := by
  cases d <;> cases o <;> simp_all [writeScalar, regWord, regHeld, isScalar]
  rename_i n k
  by_cases hk : k = n
  · subst hk
    by_cases hh : k.val < g.sregs.length <;> simp [hh]
  · have : ¬ n.val = k.val := fun e => hk (Fin.ext e.symm)
    simp [hk, this]

theorem regHeld_writeScalar (g : Group) (d o : Opnd) (v : Word) :
    regHeld (writeScalar g d v) o = regHeld g o := by
  cases d <;> cases o <;> first | rfl | simp [writeScalar, regHeld]

/-- What `writeReg` and `writeScalar` leave alone. -/
theorem writeReg_only (g : Group) (d : Opnd) (m : Lanes) (new : Nat → Word) (a b : List LaneVec) (c : List Word) :
    { writeReg g d m new with vregs := a, oregs := b, sregs := c } = { g with vregs := a, oregs := b, sregs := c } := by
  cases d <;> rfl

theorem writeScalar_only (g : Group) (d : Opnd) (v : Word) (a b : List LaneVec) (c : List Word) :
    { writeScalar g d v with vregs := a, oregs := b, sregs := c } = { g with vregs := a, oregs := b, sregs := c } := by
  cases d <;> rfl

/-- The group whose registers `writeVector` writes. -/
def writePair (g : Group) (d : Opnd) (wide : Bool) (m : Lanes) (new : Nat → Nat) : Group :=
  if wide then writeReg (writeReg g d m fun l => BitVec.ofNat 32 (new l)) (opPlus d 1) m fun l => BitVec.ofNat 32 (new l / 2 ^ 32)
  else writeReg g d m fun l => BitVec.ofNat 32 (new l)

/-- A vector result, pair and all. -/
theorem written_vector (g : Group) (d : Opnd) (wide : Bool) (m : Lanes) (ls : List Nat) (val : Nat → Nat)
    (hs : isScalar d = false) (hd : dstOk g wide d = true) (hm : ∀ l, m.has l = ls.contains l) :
    Written g (writePair g d wide m val) d wide ls val := by
  let g1 := writeReg g d m fun l => BitVec.ofNat 32 (val l)
  show Written g (if wide then writeReg g1 (opPlus d 1) m fun l => BitVec.ofNat 32 (val l / 2 ^ 32) else g1) d wide ls val
  have hs' : isScalar (opPlus d 1) = false := by
    cases d with
    | v n => by_cases h : n.val + 1 < 256 <;> simp [opPlus, h, isScalar]
    | s n => simp [isScalar] at hs
    | _ => rfl
  have hne : wide = true → d ≠ .zero → opPlus d 1 ≠ d := fun hw hz => opPlus_ne (hw ▸ hd) hz
  have hzero : ∀ g, regHeld g Opnd.zero = false := fun _ => rfl
  refine ⟨?_, ?_, ?_, ?_⟩
  · intro hh l hl
    have hz : d ≠ .zero := fun e => by subst e; simp [regHeld] at hh
    cases wide with
    | false => simp [g1, regWord_writeReg _ _ _ _ _ _ hl hs, hh, hs, hm]
    | true =>
      rw [if_pos rfl, regWord_writeReg_other _ _ _ _ _ _ (hne rfl hz).symm]
      simp [g1, regWord_writeReg _ _ _ _ _ _ hl hs, hh, hs, hm]
  · intro hw hh l hl
    subst hw
    have hz : d ≠ .zero := fun e => by subst e; simp [regHeld, opPlus] at hh
    rw [if_pos rfl, regWord_writeReg _ _ _ _ _ _ hl hs', regHeld_writeReg, regWord_writeReg_other _ _ _ _ _ _ (hne rfl hz)]
    simp [hh, hs, hm]
  · intro o ho hw l
    cases wide with
    | false => simp [g1, regWord_writeReg_other _ _ _ _ _ _ ho]
    | true => rw [if_pos rfl, regWord_writeReg_other _ _ _ _ _ _ (hw rfl), regWord_writeReg_other _ _ _ _ _ _ ho]
  · intro o
    cases wide <;> simp [g1, regHeld_writeReg]

theorem written_scalar (g : Group) (d : Opnd) (wide : Bool) (ls : List Nat) (val : Nat → Nat) (hl : ls ≠ [])
    (hs : isScalar d = true) (hd : dstOk g wide d = true) :
    Written g (writeScalarNat g wide d (val (ls.headD 0))) d wide ls val := by
  have hz : d ≠ .zero := fun e => by subst e; simp [isScalar] at hs
  have hne : wide = true → opPlus d 1 ≠ d := fun hw => opPlus_ne (hw ▸ hd) hz
  have hs' : ∀ g, regHeld g (opPlus d 1) = true → isScalar (opPlus d 1) = true := by
    intro g hh
    cases d with
    | s n => by_cases h : n.val + 1 < 64 <;> simp_all [opPlus, isScalar, regHeld]
    | _ => simp [isScalar] at hs
  refine ⟨?_, ?_, ?_, ?_⟩
  · intro hh l _
    cases wide with
    | false => simp [writeScalarNat, regWord_writeScalar, hs, hh, hl]
    | true => simp [writeScalarNat, regWord_writeScalar, hs, hh, hl, (hne rfl).symm]
  · intro hw hh l _
    subst hw
    simp [writeScalarNat, regWord_writeScalar, hs, hh, hl, hs' g hh, regHeld_writeScalar]
  · intro o ho hw l
    cases wide with
    | false => simp [writeScalarNat, regWord_writeScalar, ho]
    | true => simp [writeScalarNat, regWord_writeScalar, ho, hw rfl]
  · intro o
    cases wide <;> simp [writeScalarNat, regHeld_writeScalar]

/-! ## Rings -/

theorem ringOf_setRing (s : State) (c q : Nat) (r : List Latch) (h : 4 * c + q < s.rings.length) :
    ringOf (setRing s c q r) c q = r := by
  simp [ringOf, setRing, h]

theorem ringOf_setRing_other (s : State) (c q c' q' : Nat) (r : List Latch) (h : 4 * c' + q' ≠ 4 * c + q) :
    ringOf (setRing s c q r) c' q' = ringOf s c' q' := by
  simp [ringOf, setRing, List.getD_eq_getElem?_getD, List.getElem?_set_ne h.symm]

theorem writePair_only (g : Group) (d : Opnd) (wide : Bool) (m : Lanes) (new : Nat → Nat) (a b : List LaneVec)
    (c : List Word) :
    { writePair g d wide m new with vregs := a, oregs := b, sregs := c } = { g with vregs := a, oregs := b, sregs := c } := by
  unfold writePair
  split
  · rw [writeReg_only, writeReg_only]
  · rw [writeReg_only]

theorem writePair_own (g : Group) (d : Opnd) (wide : Bool) (m : Lanes) (new : Nat → Nat) :
    (writePair g d wide m new).core = g.core ∧ (writePair g d wide m new).quarter = g.quarter ∧
    (writePair g d wide m new).gid = g.gid := by
  have h := writePair_only g d wide m new [] [] []
  have h1 := congrArg Group.core h
  have h2 := congrArg Group.quarter h
  have h3 := congrArg Group.gid h
  exact ⟨h1, h2, h3⟩

theorem writeVector_eq (s : State) (g : Group) (p : Split) (d : Opnd) (wbs wide ring : Bool) (m : Lanes)
    (new : Nat → Nat) :
    writeVector s g p d wbs wide ring m new =
      (let g2 := writePair g d wide m new
       let lo := regValue g2 d m fun l => BitVec.ofNat 32 (new l)
       let hi := regValue g2 (opPlus d 1) m fun l => BitVec.ofNat 32 (new l / 2 ^ 32)
       if !ring || (d == .zero && !wbs) then setGroup s g2
       else if wide then pushRing (pushRing (setGroup s g2) g2 p lo) g2 p hi else pushRing (setGroup s g2) g2 p lo) := by
  simp only [writeVector, writePair]

theorem writeVector_groups (s : State) (g : Group) (p : Split) (d : Opnd) (wbs wide ring : Bool) (m : Lanes)
    (new : Nat → Nat) :
    { writeVector s g p d wbs wide ring m new with rings := s.rings } = setGroup s (writePair g d wide m new) := by
  rw [writeVector_eq]
  simp only
  split
  · rfl
  · split <;> rfl

theorem pushRing_ring (s : State) (g : Group) (p : Split) (v : LaneVec) (h : 4 * g.core + g.quarter < s.rings.length) :
    ringOf (pushRing s g p v) g.core g.quarter =
      { val := v, tag := some { gid := g.gid, sid := p.sid, epoch := p.epoch } } ::
        (ringOf s g.core g.quarter).take 3 := by
  rw [pushRing, ringOf_setRing _ _ _ _ h]

theorem writeVector_ring (s : State) (g : Group) (p : Split) (d : Opnd) (wbs wide ring : Bool) (m : Lanes)
    (new : Nat → Nat) (h : 4 * g.core + g.quarter < s.rings.length) :
    let g2 := writePair g d wide m new
    let mk := fun v : LaneVec => ({ val := v, tag := some { gid := g.gid, sid := p.sid, epoch := p.epoch } } : Latch)
    ringOf (writeVector s g p d wbs wide ring m new) g.core g.quarter =
      if !ring || (d == .zero && !wbs) then ringOf s g.core g.quarter
      else ((if wide then [mk (regValue g2 (opPlus d 1) m fun l => BitVec.ofNat 32 (new l / 2 ^ 32))] else []) ++
        [mk (regValue g2 d m fun l => BitVec.ofNat 32 (new l))] ++ ringOf s g.core g.quarter).take 4 := by
  intro g2 mk
  obtain ⟨hc, hq, hi'⟩ := writePair_own g d wide m new
  have e1 : ∀ v, ringOf (pushRing (setGroup s g2) g2 p v) g.core g.quarter = mk v :: (ringOf s g.core g.quarter).take 3 := by
    intro v
    have := pushRing_ring (setGroup s g2) g2 p v (by rw [hc, hq]; exact h)
    rw [hc, hq, hi'] at this
    exact this
  rw [writeVector_eq]
  simp only
  by_cases hx : (!ring || (d == .zero && !wbs)) = true
  · rw [if_pos hx, if_pos hx]; rfl
  · rw [if_neg hx, if_neg hx]
    cases hwide : wide with
    | false => subst hwide; simpa using e1 _
    | true =>
      subst hwide
      rw [if_pos rfl, if_pos rfl]
      have hlen : ∀ v, 4 * g2.core + g2.quarter < (pushRing (setGroup s g2) g2 p v).rings.length := by
        intro v; rw [hc, hq]; simpa [pushRing, setRing, setGroup] using h
      have := pushRing_ring _ g2 p (regValue g2 (opPlus d 1) m fun l => BitVec.ofNat 32 (new l / 2 ^ 32))
        (hlen (regValue g2 d m fun l => BitVec.ofNat 32 (new l)))
      rw [hc, hq, hi', e1] at this
      rw [this]
      simp [mk, List.take_take]

theorem writeVector_rings (s : State) (g : Group) (p : Split) (d : Opnd) (wbs wide ring : Bool) (m : Lanes)
    (new : Nat → Nat) (c q : Nat) (h : 4 * c + q ≠ 4 * g.core + g.quarter) :
    ringOf (writeVector s g p d wbs wide ring m new) c q = ringOf s c q := by
  rw [writeVector_eq]
  obtain ⟨hc, hq, -⟩ := writePair_own g d wide m new
  have e : ∀ s' v, ringOf (pushRing s' (writePair g d wide m new) p v) c q = ringOf s' c q := by
    intro s' v
    rw [pushRing, ringOf_setRing_other _ _ _ _ _ _ (by rw [hc, hq]; exact h)]
  split
  · rfl
  · split
    · rw [e, e]; rfl
    · rw [e]; rfl

theorem ofFn_get_ofFn (f : Nat → Word) : LaneVec.ofFn (LaneVec.get (LaneVec.ofFn f)) = LaneVec.ofFn f := by
  simp only [LaneVec.ofFn]
  apply List.map_congr_left
  intro l hl
  exact LaneVec.get_ofFn f l (List.mem_range.mp hl)

theorem zero_eq_ofFn : LaneVec.zero = LaneVec.ofFn (LaneVec.get LaneVec.zero) := by decide

theorem set_getD_zero (r : List LaneVec) (n : Nat) (v : LaneVec) :
    (r.set n v).getD n LaneVec.zero = if n < r.length then v else LaneVec.zero := by
  by_cases h : n < r.length <;> simp [h]

theorem mergeLanes_whole (m : Lanes) (old : LaneVec) (new : Nat → Word) :
    LaneVec.ofFn (LaneVec.get (mergeLanes m old new)) = mergeLanes m old new := ofFn_get_ofFn _

/-- What enters the ring is the whole register as written, or for `_` the results and zero. -/
theorem regValue_written (g g' : Group) (d : Opnd) (m : Lanes) (new : Nat → Word) (ls : List Nat) (val : Nat → Nat)
    (hm : ∀ l, m.has l = ls.contains l) (hn : new = fun l => BitVec.ofNat 32 (val l))
    (hd : isScalar d = false) (hk : dstOk g false d = true ∨ dstOk g true d = true)
    (hv : ∀ n, d = .v n → g'.vregs.getD n.val LaneVec.zero = (writeReg g d m new).vregs.getD n.val LaneVec.zero)
    (ho : ∀ n, d = .o n → g'.oregs.getD n.val LaneVec.zero = (writeReg g d m new).oregs.getD n.val LaneVec.zero) :
    regValue g' d m new = wholeResult g' d ls val := by
  subst hn
  cases d with
  | v n =>
    simp only [regValue, wholeResult, regWord, reduceCtorEq, if_false, hv n rfl, writeReg, set_getD_zero]
    split
    · exact (mergeLanes_whole _ _ _).symm
    · exact zero_eq_ofFn
  | o n =>
    simp only [regValue, wholeResult, regWord, reduceCtorEq, if_false, ho n rfl, writeReg, set_getD_zero]
    split
    · exact (mergeLanes_whole _ _ _).symm
    · exact zero_eq_ofFn
  | zero => simp [regValue, wholeResult, mergeLanes, hm]
  | s n => simp [isScalar] at hd
  | _ => simp [dstOk] at hk

/-- The low register of a pair keeps its value when the high one is written. -/
theorem writePair_low (g : Group) (d : Opnd) (wide : Bool) (m : Lanes) (new : Nat → Nat) (hd : dstOk g wide d = true) :
    (∀ n, d = .v n → (writePair g d wide m new).vregs.getD n.val LaneVec.zero =
      (writeReg g d m fun l => BitVec.ofNat 32 (new l)).vregs.getD n.val LaneVec.zero) ∧
    (∀ n, d = .o n → (writePair g d wide m new).oregs.getD n.val LaneVec.zero =
      (writeReg g d m fun l => BitVec.ofNat 32 (new l)).oregs.getD n.val LaneVec.zero) := by
  cases wide with
  | false => exact ⟨fun _ _ => rfl, fun _ _ => rfl⟩
  | true =>
    refine ⟨?_, ?_⟩
    · intro n hn
      subst hn
      have : n.val + 1 < 256 := by
        simp [dstOk, vecPairOk] at hd; omega
      simp [writePair, opPlus, this, writeReg]
    · intro n hn; subst hn; simp [dstOk] at hd

/-! ## The end of an instruction -/

theorem flagsOf_bit (rs : List (Nat × Lane)) (k : Nat) :
    (flagsOf rs).getLsbD k = rs.any fun r => r.2.flags.getLsbD k := by
  have : ∀ f : Flags, (rs.foldl (fun f r => f ||| r.2.flags) f).getLsbD k =
      (f.getLsbD k || rs.any fun r => r.2.flags.getLsbD k) := by
    induction rs with
    | nil => simp
    | cons a t ih => intro f; simp [ih, Bool.or_assoc]
  rw [flagsOf, this]
  simp [fNone]

theorem putCtrs_get (g : Group) (ls : List Nat) (lane : Nat → Lane) (l : Nat) (hl : l < 64) :
    (putCtrs g (ls.map fun k => (k, lane k))).srctr.get l = if ls.contains l then (lane l).ctr else g.srctr.get l := by
  rw [putCtrs]
  simp only
  rw [LaneVec.get_ofFn _ _ hl, find_keyed]
  by_cases hc : ls.contains l = true <;> simp only [hc, if_true, if_false, Bool.false_eq_true]

theorem written_congr {g g' : Group} {d : Opnd} {wide : Bool} {ls : List Nat} {a b : Nat → Nat}
    (h : ∀ l ∈ ls, a l = b l) (hw : Written g g' d wide ls a) : Written g g' d wide ls b := by
  have hd : ls ≠ [] → a (ls.headD 0) = b (ls.headD 0) := by
    intro hn
    cases ls with
    | nil => exact absurd rfl hn
    | cons x t => exact h x (by simp)
  refine ⟨?_, ?_, hw.kept, hw.held⟩
  · intro hh l hl
    rw [hw.low hh l hl]
    by_cases hs : isScalar d = true
    · by_cases hn : ls = [] <;> simp [hs, hn] at *
      rw [hd]
    · by_cases hc : l ∈ ls
      · simp [hs, hc, h l hc]
      · simp [hs, hc]
  · intro hwd hh l hl
    rw [hw.high hwd hh l hl]
    by_cases hs : isScalar d = true
    · by_cases hn : ls = [] <;> simp [hs, hn] at *
      rw [hd]
    · by_cases hc : l ∈ ls
      · simp [hs, hc, h l hc]
      · simp [hs, hc]

theorem wholeResult_congr {g' : Group} {d : Opnd} {ls : List Nat} {a b : Nat → Nat} (h : ∀ l ∈ ls, a l = b l) :
    wholeResult g' d ls a = wholeResult g' d ls b := by
  simp only [wholeResult]
  apply congrArg
  funext l
  by_cases hc : l ∈ ls
  · simp [hc, h l hc]
  · simp [hc]

theorem dst_shape {g : Group} {d : Opnd} {wide : Bool} (h : dstOk g wide d = true) (hs : isScalar d = false) :
    (∃ n, d = .v n) ∨ (∃ n, d = .o n) ∨ d = .zero := by
  cases d <;> simp_all [dstOk, isScalar]

/-- A group in place of `u.g` that differs in registers, STATUS and SRCTR, through `retire`, with the ring. -/
theorem finish_effect {s : State} {u : Iss} (hs : u.s = s) (hpr : splitOf u.g u.p.sid = some u.p)
    (hi : isIret u.i = false)
    {s' : State} {g2 : Group} {d : Opnd} {wide enters acts : Bool} {os : List Opnd} {ls : List Nat} {val : Nat → Nat}
    {lane : Nat → Lane}
    (hg : groupOf s' u.g.gid = some g2) (hothers : ∀ n, n ≠ u.g.gid → groupOf s' n = groupOf s n)
    (hm : { s' with groups := s.groups, rings := s.rings } = s)
    (hr : ∀ c q, 4 * c + q ≠ 4 * u.g.core + u.g.quarter → ringOf s' c q = ringOf s c q)
    (ho : { g2 with vregs := u.g.vregs, oregs := u.g.oregs, sregs := u.g.sregs, status := u.g.status,
                    srctr := u.g.srctr } = u.g)
    (hst : ∀ k < 6, g2.status.getLsbD k =
      (u.g.status.getLsbD k || ls.any (fun l => (lane l).flags.getLsbD k) ||
        (acts && latchLost u os && fLatchLost.getLsbD k)))
    (hct : ∀ l < 64, g2.srctr.get l = if ls.contains l then (lane l).ctr else u.g.srctr.get l)
    (hw : Written u.g g2 d wide ls val)
    (hring : 4 * u.g.core + u.g.quarter < s.rings.length → ringOf s' u.g.core u.g.quarter =
        if acts = true ∧ enters = true then
          ((if wide then [enteredLatch u (wholeResult g2 (opPlus d 1) ls fun l => val l / 2 ^ 32)] else []) ++
            [enteredLatch u (wholeResult g2 d ls val)] ++ ringOf s u.g.core u.g.quarter).take 4
        else ringOf s u.g.core u.g.quarter) :
    LaneEffect u d wide enters acts os ls val lane (retire s' u true) := by
  have hsp : g2.splits = u.g.splits := by rw [← ho]
  have hl : g2.lclk = u.g.lclk := by rw [← ho]
  obtain ⟨g', p', hst', hadv, ev, eo, es, est, ect, er⟩ := retire_stepped' hs hpr hi hg hsp hl hothers hm hr ho
  have ew : ∀ o l, regWord g' o l = regWord g2 o l := by intro o l; cases o <;> simp [regWord, ev, eo, es]
  have eh : ∀ o, regHeld g' o = regHeld g2 o := by intro o; cases o <;> simp [regHeld, ev, eo, es]
  have ewr : ∀ o ls v, wholeResult g' o ls v = wholeResult g2 o ls v := by intro o ls v; simp [wholeResult, ew]
  refine ⟨g', p', hst', hadv, ?_, ?_, ?_, ?_⟩
  · refine ⟨?_, ?_, ?_, ?_⟩
    · intro hh l hl; rw [ew]; exact hw.low hh l hl
    · intro hwd hh l hl; rw [ew]; exact hw.high hwd hh l hl
    · intro o a b l; rw [ew]; exact hw.kept o a b l
    · intro o; rw [eh]; exact hw.held o
  · intro k hk
    rw [est, hst k hk]
  · intro l hl
    rw [ect]; exact hct l hl
  · intro hlen
    rw [er, hs, hring (by rw [← hs]; exact hlen)]
    simp only [ewr]

/-- Flags and counters as `finishLanes` leaves them. -/
theorem raise_status (g : Group) (ls : List Nat) (lane : Nat → Lane) (lost : Bool) (k : Nat) :
    (raiseFlags (putCtrs g (ls.map fun k => (k, lane k)))
      (flagsOf (ls.map fun k => (k, lane k)) ||| if lost then fLatchLost else fNone)).status.getLsbD k =
    (g.status.getLsbD k || ls.any (fun l => (lane l).flags.getLsbD k) || (lost && fLatchLost.getLsbD k)) := by
  simp only [raiseFlags, putCtrs, BitVec.getLsbD_or, flagsOf_bit, List.any_map]
  rw [Bool.or_assoc]
  congr 1
  congr 1
  cases lost <;> simp [fNone]

theorem nil_effect' {s : State} {u : Iss} (hs : u.s = s) (hg : groupOf s u.g.gid = some u.g)
    (hpr : splitOf u.g u.p.sid = some u.p) (hi : isIret u.i = false) (d : Opnd)
    (wide enters : Bool) (os : List Opnd) (val : Nat → Nat) (lane : Nat → Lane) :
    LaneEffect u d wide enters false os [] val lane (retire u.s u true) := by
  rw [hs]
  obtain ⟨g', p', hst', hadv, ev, eo, es, est, ect, er⟩ :=
    retire_stepped' hs hpr hi hg rfl rfl (fun _ _ => rfl) rfl (fun _ _ _ => rfl) rfl
  have ew : ∀ o l, regWord g' o l = regWord u.g o l := by intro o l; cases o <;> simp [regWord, ev, eo, es]
  have eh : ∀ o, regHeld g' o = regHeld u.g o := by intro o; cases o <;> simp [regHeld, ev, eo, es]
  refine ⟨g', p', hst', hadv, ⟨?_, ?_, fun o _ _ l => ew o l, eh⟩, ?_, ?_, ?_⟩
  · intro _ l _; simp [ew]
  · intro _ _ l _; simp [ew]
  · intro k _; simp [est]
  · intro l _; simp [ect]
  · intro _; simp [er, hs]

theorem nil_effect {s : State} {i : Instr} {u : Iss} (h : issuer s i = some u) (hi : isIret i = false) (d : Opnd)
    (wide enters : Bool) (os : List Opnd) (val : Nat → Nat) (lane : Nat → Lane) :
    LaneEffect u d wide enters false os [] val lane (retire u.s u true) := by
  obtain ⟨hs, hui, -, hg, hpr, -⟩ := issuer_state h
  subst hui
  exact nil_effect' hs hg hpr hi d wide enters os val lane

/-- What `finishLanes` leaves for the lanes `ls`, no NaN trapping. -/
theorem finishLanes_effect' {s : State} {u : Iss} (hs : u.s = s) {x : Group} (hg : groupOf s u.g.gid = some x)
    (hpr : splitOf u.g u.p.sid = some u.p) (hi : isIret u.i = false)
    (hd : Hdr) (d : Opnd) (wide : Bool) (os : List Opnd) (smask : Option Lanes) (act : Lanes) (ls : List Nat)
    (val : Nat → Nat) (lane : Nat → Lane) (hls : isScalar d = true → ls ≠ [])
    (hnan : nanTrap u (ls.map fun l => (l, lane l)) smask = none)
    (hact : isScalar d = false → ∀ l, act.has l = ls.contains l) (hdst : dstOk u.g wide d = true) :
    LaneEffect u d wide (entersRing u.i && toRing hd d) true os ls val lane
      (commit u (finishLanes u hd d wide os smask act (ls.map fun l => (l, val l, lane l)))) := by
  have htr : (ls.map fun l => (l, val l, lane l)).map (fun r => (r.1, r.2.2)) = ls.map fun l => (l, lane l) := by simp
  unfold finishLanes
  simp only [htr, hnan]
  generalize hg1 : raiseFlags (putCtrs u.g (ls.map fun k => (k, lane k)))
      (flagsOf (ls.map fun k => (k, lane k)) ||| if latchLost u os then fLatchLost else fNone) = g1
  have g1id : g1.gid = u.g.gid := by rw [← hg1]; rfl
  have g1core : g1.core = u.g.core := by rw [← hg1]; rfl
  have g1q : g1.quarter = u.g.quarter := by rw [← hg1]; rfl
  have g1v : g1.vregs = u.g.vregs := by rw [← hg1]; rfl
  have hst1 : ∀ k < 6, g1.status.getLsbD k =
      (u.g.status.getLsbD k || ls.any (fun l => (lane l).flags.getLsbD k) ||
        (true && latchLost u os && fLatchLost.getLsbD k)) := by
    intro k _; rw [← hg1, Bool.true_and]; exact raise_status u.g ls lane (latchLost u os) k
  have hct1 : ∀ l < 64, g1.srctr.get l = if ls.contains l then (lane l).ctr else u.g.srctr.get l := by
    intro l hl; rw [← hg1]; exact putCtrs_get u.g ls lane l hl
  have hrw : ∀ {g2 : Group}, Written g1 g2 d wide ls val → Written u.g g2 d wide ls val := by
    intro g2 hw
    have ug : ∀ o l, regWord g1 o l = regWord u.g o l := by
      intro o l; rw [← hg1]; cases o <;> simp [regWord, raiseFlags, putCtrs]
    have uh : ∀ o, regHeld g1 o = regHeld u.g o := by intro o; rw [← hg1]; cases o <;> simp [regHeld, raiseFlags, putCtrs]
    refine ⟨?_, ?_, ?_, ?_⟩
    · intro hh l hl; rw [← ug]; exact hw.low (by rw [uh]; exact hh) l hl
    · intro hwd hh l hl; rw [← ug]; exact hw.high hwd (by rw [uh]; exact hh) l hl
    · intro o a b l; rw [← ug]; exact hw.kept o a b l
    · intro o; rw [← uh]; exact hw.held o
  have hown1 : ∀ {g2 : Group}, { g2 with vregs := g1.vregs, oregs := g1.oregs, sregs := g1.sregs } = g1 →
      { g2 with vregs := u.g.vregs, oregs := u.g.oregs, sregs := u.g.sregs, status := u.g.status, srctr := u.g.srctr } =
        u.g ∧ g2.status = g1.status ∧ g2.srctr = g1.srctr := by
    intro g2 h2
    have a1 := congrArg (fun x : Group => { x with
      vregs := u.g.vregs, oregs := u.g.oregs, sregs := u.g.sregs, status := u.g.status, srctr := u.g.srctr }) h2
    have a2 := congrArg Group.status h2
    have a3 := congrArg Group.srctr h2
    refine ⟨?_, a2, a3⟩
    simp only at a1
    rw [a1, ← hg1]
    rfl
  have hdst1 : dstOk g1 wide d = true := by
    have : ∀ o, dstOk g1 wide o = dstOk u.g wide o := by
      intro o; cases o <;> simp [dstOk, vecPairOk, vecOk, g1v]
    rw [this]; exact hdst
  by_cases hsc : isScalar d = true
  · simp only [hsc, if_true, commit]
    have hhead : ((ls.map fun l => (l, val l, lane l)).head?.map (·.2.1)).getD 0 = val (ls.headD 0) := by
      cases ls with
      | nil => exact absurd rfl (hls hsc)
      | cons a t => rfl
    rw [hhead]
    have hown : { writeScalarNat g1 wide d (val (ls.headD 0)) with vregs := g1.vregs, oregs := g1.oregs, sregs := g1.sregs } =
        g1 := by
      simp only [writeScalarNat]
      split
      · rw [writeScalar_only, writeScalar_only]
      · rw [writeScalar_only]
    have hgid2 : (writeScalarNat g1 wide d (val (ls.headD 0))).gid = u.g.gid := by
      have := congrArg Group.gid hown
      exact this.trans g1id
    obtain ⟨ho2, hs2, hc2⟩ := hown1 hown
    refine finish_effect hs hpr hi (g2 := writeScalarNat g1 wide d (val (ls.headD 0))) ?_ ?_ ?_ ?_ ho2
      (by rw [hs2]; exact hst1) (by rw [hc2]; exact hct1) (hrw (written_scalar g1 d wide ls val (hls hsc) hsc hdst1)) ?_
    · rw [hs]; exact groupOf_setGroup hg hgid2
    · intro n hn; rw [hs]; exact groupOf_setGroup_other (by rw [hgid2]; exact hn)
    · rw [hs]; rfl
    · intro c q _; rw [hs]; rfl
    · intro _; simp [toRing, hsc, hs, ringOf, setGroup]
  · have hsc' : isScalar d = false := by simpa using hsc
    simp only [hsc', Bool.false_eq_true, if_false, commit]
    generalize hvals : (fun l => (((ls.map fun l => (l, val l, lane l)).find? (·.1 == l)).map (·.2.1)).getD 0) = vals
    have hveq : ∀ l ∈ ls, vals l = val l := by
      intro l hl
      rw [← hvals]
      simp only [find_keyed ls (fun l => (val l, lane l)) l]
      simp [hl]
    have hm := hact hsc'
    let g2 := writePair g1 d wide act vals
    have hwv : Written g1 g2 d wide ls vals := written_vector g1 d wide act ls vals hsc' hdst1 hm
    have hgrp := writeVector_groups u.s g1 u.p d hd.wbs wide (entersRing u.i) act vals
    have hrng := writeVector_ring u.s g1 u.p d hd.wbs wide (entersRing u.i) act vals
    have hoth := writeVector_rings u.s g1 u.p d hd.wbs wide (entersRing u.i) act vals
    simp only at hgrp hrng hoth
    have hown : { g2 with vregs := g1.vregs, oregs := g1.oregs, sregs := g1.sregs } = g1 := writePair_only g1 d wide act vals _ _ _
    have hgid2 : g2.gid = u.g.gid := by
      have := congrArg Group.gid hown
      exact this.trans g1id
    have hgroups : (writeVector u.s g1 u.p d hd.wbs wide (entersRing u.i) act vals).groups = (setGroup s g2).groups := by
      have := congrArg State.groups hgrp
      rw [hs] at this ⊢
      exact this
    obtain ⟨ho2, hs2, hc2⟩ := hown1 hown
    refine finish_effect hs hpr hi (g2 := g2) ?_ ?_ ?_ ?_ ho2
      (by rw [hs2]; exact hst1) (by rw [hc2]; exact hct1) (hrw (written_congr hveq hwv)) ?_
    · simp only [groupOf, hgroups]; exact groupOf_setGroup hg hgid2
    · intro n hn
      simp only [groupOf, hgroups]
      exact groupOf_setGroup_other (by rw [hgid2]; exact hn)
    · have := congrArg (fun x : State => { x with groups := s.groups, rings := s.rings }) hgrp
      rw [hs] at this ⊢
      exact this
    · intro c q hcq
      rw [hoth c q (by rw [g1core, g1q]; exact hcq), hs]
    · intro hlen
      rw [← g1core, ← g1q] at hlen ⊢
      rw [hrng (by rw [hs]; exact hlen), hs, g1id, g1core, g1q]
      have hk : dstOk g1 false d = true ∨ dstOk g1 true d = true := by
        cases wide
        · exact .inl hdst1
        · exact .inr hdst1
      have hlow : regValue g2 d act (fun l => BitVec.ofNat 32 (vals l)) = wholeResult g2 d ls val := by
        rw [← wholeResult_congr hveq]
        exact regValue_written g1 g2 d act _ ls vals hm rfl hsc' hk (fun n hn => (writePair_low g1 d wide act vals hdst1).1 n hn)
          (fun n hn => (writePair_low g1 d wide act vals hdst1).2 n hn)
      have hhigh : wide = true → regValue g2 (opPlus d 1) act (fun l => BitVec.ofNat 32 (vals l / 2 ^ 32)) =
          wholeResult g2 (opPlus d 1) ls fun l => val l / 2 ^ 32 := by
        intro hw
        subst hw
        rw [← wholeResult_congr (a := fun l => vals l / 2 ^ 32) (fun l hl => by rw [hveq l hl])]
        rcases dst_shape hdst1 hsc' with ⟨n, rfl⟩ | ⟨n, rfl⟩ | rfl
        · have hn : n.val % 2 = 0 ∧ n.val + 1 < g1.vregs.length := by simpa [dstOk, vecPairOk] using hdst1
          have h256 : n.val + 1 < 256 := by omega
          have hop : opPlus (.v n) 1 = .v ⟨n.val + 1, h256⟩ := by simp [opPlus, h256]
          rw [hop]
          refine regValue_written (writeReg g1 (.v n) act fun l => BitVec.ofNat 32 (vals l)) g2 _ act _ ls _ hm rfl rfl
            (.inl ?_) ?_ ?_
          · simpa [dstOk, vecOk, writeReg] using hn.2
          · intro k hk; simp [g2, writePair, hop]
          · intro k hk; simp at hk
        · simp [dstOk] at hdst1
        · exact regValue_written g1 g2 .zero act _ ls _ hm rfl rfl (.inl rfl) (fun _ hk => by simp at hk)
            (fun _ hk => by simp at hk)
      have hen : (!entersRing u.i || (d == .zero && !hd.wbs)) = !(entersRing u.i && toRing hd d) := by
        simp [toRing, hsc', Bool.not_and]
      rw [hlow, hen]
      by_cases hx : (entersRing u.i && toRing hd d) = true
      · simp only [hx, Bool.not_true, Bool.false_eq_true, if_false, if_true, and_self]
        cases hw : wide with
        | false => rfl
        | true =>
          rw [if_pos rfl, if_pos rfl]
          have := hhigh hw
          subst hw
          rw [this]
          rfl
      · have hx' : (entersRing u.i && toRing hd d) = false := by simpa using hx
        simp only [hx', Bool.not_false, if_true, Bool.false_eq_true, if_false, and_false]

theorem finishLanes_effect {s : State} {i : Instr} {u : Iss} (h : issuer s i = some u) (hi : isIret i = false)
    (hd : Hdr) (d : Opnd) (wide : Bool) (os : List Opnd) (smask : Option Lanes) (act : Lanes) (ls : List Nat)
    (val : Nat → Nat) (lane : Nat → Lane) (hls : isScalar d = true → ls ≠ [])
    (hnan : nanTrap u (ls.map fun l => (l, lane l)) smask = none)
    (hact : isScalar d = false → ∀ l, act.has l = ls.contains l) (hdst : dstOk u.g wide d = true) :
    LaneEffect u d wide (entersRing i && toRing hd d) true os ls val lane
      (commit u (finishLanes u hd d wide os smask act (ls.map fun l => (l, val l, lane l)))) := by
  obtain ⟨hs, hui, -, hg, hpr, -⟩ := issuer_state h
  subst hui
  exact finishLanes_effect' hs hg hpr hi hd d wide os smask act ls val lane hls hnan hact hdst

/-! ## The common courses -/

theorem has_toList (m : Lanes) (l : Nat) : m.has l = m.toList.contains l := by
  by_cases h : l < 64
  · by_cases hb : m.has l = true <;> simp [Lanes.toList, laneCount, h, hb]
  · have : m.has l = false := BitVec.getLsbD_of_ge _ _ (by omega)
    simp [Lanes.toList, laneCount, h, this]

theorem toList_nil (m : Lanes) : m.toList = [] ↔ m = 0#64 := by
  constructor
  · intro h
    apply BitVec.eq_of_getLsbD_eq
    intro i hi
    have := has_toList m i
    rw [h] at this
    simpa [Lanes.has] using this
  · intro h; subst h; decide

theorem nanTrap_none (u : Iss) (ls : List Nat) (lane : Nat → Lane) (smask : Option Lanes)
    (h : noNanTrap u ls lane = true) : nanTrap u (ls.map fun l => (l, lane l)) smask = none := by
  unfold nanTrap
  simp only [noNanTrap, Bool.or_eq_true, Bool.not_eq_eq_eq_not, Bool.not_true] at h
  rw [if_pos]
  rcases h with h | h
  · simp [h]
  · simp only [Bool.or_eq_true, List.isEmpty_iff, List.filter_eq_nil_iff]
    left
    intro r hr
    obtain ⟨l, hl, rfl⟩ := List.mem_map.mp hr
    have := List.all_eq_true.mp h l hl
    simpa using this

theorem runSet_effect {s : State} {i : Instr} {u : Iss} (h : issuer s i = some u) (hi : isIret i = false)
    (hd : Hdr) (d : Opnd) (wide : Bool) (xs : List Src) (imm : Word) (legal : Bool) (smask : Lanes)
    (f : REnv → List RSrc → List Nat → List LaneOut) (val : Nat → Nat) (lane : Nat → Lane)
    (hl : legal = true) (hk : lanesLegal u hd d wide xs = true) (hm : mapTrap u xs = none)
    (hf : f (rEnv hd u.p.fmt u.g.srseed) (xs.map (resolveSrc u imm)) (resultLanes u hd d) =
      (resultLanes u hd d).map fun l => (l, val l, lane l))
    (hn : noNanTrap u (resultLanes u hd d) lane = true) :
    LaneEffect u d wide (entersRing i && toRing hd d) (lanesAct d (resultLanes u hd d)) (xs.map Src.o)
      (resultLanes u hd d) val lane (commit u (runSet u hd d wide xs imm legal smask f)) := by
  unfold runSet
  simp only [hl, hk, hm, Bool.and_true, Bool.not_true, Bool.false_eq_true, if_false]
  have hdst : dstOk u.g wide d = true := by
    simp only [lanesLegal, Bool.and_eq_true] at hk; exact hk.1.1
  by_cases hs : isScalar d = true
  · by_cases hg : scalarGuard u.g hd.guard = true
    · have hres : resultLanes u hd d = [(u.p.members.lowest).getD 0] := by simp [resultLanes, hs, hg]
      rw [hres] at hf hn ⊢
      simp only [hs, hg, Bool.not_true, Bool.and_false, Bool.false_eq_true, if_false, if_true, hf]
      have : lanesAct d [(u.p.members.lowest).getD 0] = true := by simp [lanesAct]
      rw [this]
      exact finishLanes_effect h hi hd d wide _ _ _ _ val lane (fun _ => by simp) (nanTrap_none u _ lane _ hn)
        (fun e => by simp [hs] at e) hdst
    · have hres : resultLanes u hd d = [] := by simp [resultLanes, hs, hg]
      rw [hres]
      have : lanesAct d [] = false := by simp [lanesAct, hs]
      rw [this, if_pos (by simp [hs, hg])]
      exact nil_effect h hi d wide _ _ val lane
  · have hs' : isScalar d = false := by simpa using hs
    have hres : resultLanes u hd d = (active u).toList := by simp [resultLanes, hs']
    rw [hres] at hf hn ⊢
    have : lanesAct d (active u).toList = true := by simp [lanesAct, hs']
    rw [this]
    simp only [hs', Bool.false_and, Bool.false_eq_true, if_false, hf]
    exact finishLanes_effect h hi hd d wide _ _ _ _ val lane (fun e => absurd e hs) (nanTrap_none u _ lane _ hn)
      (fun _ l => has_toList _ l) hdst

theorem runLanes_effect {s : State} {i : Instr} {u : Iss} (h : issuer s i = some u) (hi : isIret i = false)
    (hd : Hdr) (d : Opnd) (wide : Bool) (xs : List Src) (imm : Word) (legal : Bool)
    (f : REnv → List RSrc → Nat → Lane → Nat × Lane)
    (hl : legal = true) (hk : lanesLegal u hd d wide xs = true) (hm : mapTrap u xs = none)
    (hn : noNanTrap u (resultLanes u hd d) (fun l => (f (rEnv hd u.p.fmt u.g.srseed) (xs.map (resolveSrc u imm)) l
      (Lane.start (u.g.srctr.get l))).2) = true) :
    LaneEffect u d wide (entersRing i && toRing hd d) (lanesAct d (resultLanes u hd d)) (xs.map Src.o)
      (resultLanes u hd d)
      (fun l => (f (rEnv hd u.p.fmt u.g.srseed) (xs.map (resolveSrc u imm)) l (Lane.start (u.g.srctr.get l))).1)
      (fun l => (f (rEnv hd u.p.fmt u.g.srseed) (xs.map (resolveSrc u imm)) l (Lane.start (u.g.srctr.get l))).2)
      (commit u (runLanes u hd d wide xs imm legal f)) :=
  runSet_effect h hi hd d wide xs imm legal u.p.members _ _ _ hl hk hm (by simp) hn

/-- What `runCross` leaves; a scalar destination asks for an active lane, which LRED and VOTE see to (22 R359, 23 R382). -/
theorem runCross_effect' {s : State} {u : Iss} (hs : u.s = s) {x : Group} (hg : groupOf s u.g.gid = some x)
    (hpr : splitOf u.g u.p.sid = some u.p) (hi : isIret u.i = false)
    (hd : Hdr) (d : Opnd) (wide : Bool) (xs : List Src) (imm : Word) (legal : Bool)
    (f : REnv → List RSrc → List Nat → List LaneOut) (val : Nat → Nat) (lane : Nat → Lane)
    (hl : legal = true) (hk : (dstOk u.g wide d && xs.all (srcLegal u.g false)) = true) (hm : mapTrap u xs = none)
    (hnil : isScalar d = true → (active u).toList ≠ [])
    (hf : f (rEnv hd u.p.fmt u.g.srseed) (xs.map (resolveSrc u imm)) (active u).toList =
      (active u).toList.map fun l => (l, val l, lane l))
    (hn : noNanTrap u (active u).toList lane = true) :
    LaneEffect u d wide (entersRing u.i && toRing hd d) true (xs.map Src.o) (active u).toList val lane
      (commit u (runCross u hd d wide xs imm legal f)) := by
  unfold runCross
  have hk' : (legal && dstOk u.g wide d && xs.all (srcLegal u.g false)) = true := by
    rw [hl, Bool.true_and]; exact hk
  simp only [hk', hm, Bool.not_true, Bool.false_eq_true, if_false]
  have hdst : dstOk u.g wide d = true := by simp only [Bool.and_eq_true] at hk; exact hk.1
  rw [hf]
  exact finishLanes_effect' hs hg hpr hi hd d wide _ _ _ _ val lane hnil (nanTrap_none u _ lane _ hn)
    (fun _ l => has_toList _ l) hdst

theorem runCross_effect {s : State} {i : Instr} {u : Iss} (h : issuer s i = some u) (hi : isIret i = false)
    (hd : Hdr) (d : Opnd) (wide : Bool) (xs : List Src) (imm : Word) (legal : Bool)
    (f : REnv → List RSrc → List Nat → List LaneOut) (val : Nat → Nat) (lane : Nat → Lane)
    (hl : legal = true) (hk : (dstOk u.g wide d && xs.all (srcLegal u.g false)) = true) (hm : mapTrap u xs = none)
    (hnil : isScalar d = true → (active u).toList ≠ [])
    (hf : f (rEnv hd u.p.fmt u.g.srseed) (xs.map (resolveSrc u imm)) (active u).toList =
      (active u).toList.map fun l => (l, val l, lane l))
    (hn : noNanTrap u (active u).toList lane = true) :
    LaneEffect u d wide (entersRing i && toRing hd d) true (xs.map Src.o) (active u).toList val lane
      (commit u (runCross u hd d wide xs imm legal f)) := by
  obtain ⟨hs, hui, -, hg, hpr, -⟩ := issuer_state h
  subst hui
  exact runCross_effect' hs hg hpr hi hd d wide xs imm legal f val lane hl hk hm hnil hf hn

/-- An instruction that does nothing with no active lane, and else runs as `runCross` (22 R359, 23 R380, R382). -/
theorem unlessEmpty_effect {s : State} {i : Instr} {u : Iss} (h : issuer s i = some u) (hi : isIret i = false) (d : Opnd)
    (wide enters : Bool) (os : List Opnd) (val : Nat → Nat) (lane : Nat → Lane) (e : Eff)
    (he : (active u).toList ≠ [] → LaneEffect u d wide enters true os (active u).toList val lane (commit u e)) :
    LaneEffect u d wide enters ((active u).toList != []) os (active u).toList val lane (commit u (unlessEmpty u e)) := by
  unfold unlessEmpty
  by_cases hn : active u = 0#64
  · have : (active u).toList = [] := (toList_nil _).mpr hn
    rw [this, if_pos (by simp [hn])]
    exact nil_effect h hi d wide enters os val lane
  · have : (active u).toList ≠ [] := fun e => hn ((toList_nil _).mp e)
    rw [if_neg (by simpa using hn), show ((active u).toList != []) = true by simpa using this]
    exact he this

/-- A list of outcomes whose keys are distinct lanes, as a function of the lane. -/
theorem outcomes_fn (out : List LaneOut) (hn : (out.map Prod.fst).Nodup) :
    out = (out.map Prod.fst).map fun l =>
      (l, ((out.find? (·.1 == l)).map (·.2.1)).getD 0, ((out.find? (·.1 == l)).map (·.2.2)).getD (Lane.start 0#32)) := by
  induction out with
  | nil => rfl
  | cons a t ih =>
    rw [List.map_cons, List.nodup_cons] at hn
    rw [List.map_cons, List.map_cons]
    congr 1
    · simp
    · conv_lhs => rw [ih hn.2]
      apply List.map_congr_left
      intro l hl
      have : ¬ a.1 = l := fun e => hn.1 (e ▸ hl)
      simp [beq_eq_false_iff_ne.mpr this]

theorem toList_nodup (m : Lanes) : m.toList.Nodup := List.nodup_range.filter _

theorem ofPred_has (p : Nat → Bool) (l : Nat) : (Lanes.ofPred p).has l = (decide (l < 64) && p l) := by
  have gen : ∀ n ≤ 64, ∀ m : Lanes,
      ((List.range n).foldl (fun m l => if p l then m ||| (1#64 <<< l) else m) m).getLsbD l =
        (m.getLsbD l || (decide (l < n) && p l)) := by
    intro n
    induction n with
    | zero => simp
    | succ n ih =>
      intro hn m
      rw [List.range_succ, List.foldl_append]
      simp only [List.foldl_cons, List.foldl_nil]
      have h1 : ∀ x : Lanes, (x ||| 1#64 <<< n).getLsbD l = (x.getLsbD l || decide (l = n)) := by
        intro x
        rw [BitVec.getLsbD_or, BitVec.getLsbD_shiftLeft]
        congr 1
        by_cases hl : l = n
        · subst hl; simp; omega
        · by_cases hl2 : l < n
          · simp [hl, hl2]
          · have : l - n ≠ 0 := by omega
            simp [hl, hl2, this]
      by_cases hp : p n = true
      · rw [if_pos hp, h1, ih (by omega)]
        by_cases hl : l = n
        · subst hl; simp [hp]
        · have : (l < n + 1) = (l < n) := by apply propext; omega
          simp [hl, this]
      · rw [if_neg hp, ih (by omega)]
        by_cases hl : l = n
        · subst hl; simp [hp]
        · have : (l < n + 1) = (l < n) := by apply propext; omega
          simp [this]
  have := gen 64 (le_refl _) 0#64
  simpa [Lanes.ofPred, Lanes.has, laneCount] using this

/-- The NaN trap of `runLanes`. -/
theorem runLanes_nan {s : State} {i : Instr} {u : Iss} (h : issuer s i = some u)
    (hd : Hdr) (d : Opnd) (wide : Bool) (xs : List Src) (imm : Word)
    (f : REnv → List RSrc → Nat → Lane → Nat × Lane) (lane : Nat → Lane)
    (hk : lanesLegal u hd d wide xs = true) (hm : mapTrap u xs = none)
    (hf : ∀ l, (f (rEnv hd u.p.fmt u.g.srseed) (xs.map (resolveSrc u imm)) l (Lane.start (u.g.srctr.get l))).2 = lane l)
    (hn : noNanTrap u (resultLanes u hd d) lane = false) :
    ∃ r : TrapReq, r.cause = .nanProduced ∧ r.aux0 = 0#64 ∧ r.aux1 = 0#64 ∧
      (∀ l < 64, r.mask.has l = if isScalar d then u.p.members.has l else
        (resultLanes u hd d).contains l && (lane l).produced) ∧
      commit u (runLanes u hd d wide xs imm true f) = takeTrap s u.g.gid u.p.sid r := by
  obtain ⟨hs, -⟩ := issuer_state h
  simp only [noNanTrap, Bool.or_eq_false_iff, Bool.not_eq_eq_eq_not, Bool.not_false, List.all_eq_false] at hn
  obtain ⟨hfmt, l0, hl0, hp0⟩ := hn
  have hnil : resultLanes u hd d ≠ [] := fun e => by rw [e] at hl0; simp at hl0
  have hlanes : (if isScalar d = true then [(u.p.members.lowest).getD 0] else (active u).toList) = resultLanes u hd d := by
    simp only [resultLanes] at hnil ⊢
    by_cases hsc : isScalar d = true
    · by_cases hg : scalarGuard u.g hd.guard = true <;> simp_all
    · simp [hsc]
  have hsg : (isScalar d && !scalarGuard u.g hd.guard) = false := by
    by_cases hsc : isScalar d = true
    · by_cases hg : scalarGuard u.g hd.guard = true
      · simp [hg]
      · exact absurd (by simp [resultLanes, hsc, hg]) hnil
    · simp [hsc]
  unfold runLanes runSet
  simp only [hk, hm, hsg, Bool.and_true, Bool.not_true, Bool.false_eq_true, if_false]
  rw [hlanes]
  unfold finishLanes nanTrap
  simp only [List.map_map, Function.comp_def, hf]
  have hbad : ((resultLanes u hd d).map fun l => (l, lane l)).filter (fun r => r.2.produced) ≠ [] := by
    intro e
    have := List.filter_eq_nil_iff.mp e (l0, lane l0) (List.mem_map.mpr ⟨l0, hl0, rfl⟩)
    simp at this
    simp [this] at hp0
  have hbad' : (((resultLanes u hd d).map fun l => (l, lane l)).filter (fun r => r.2.produced)).isEmpty = false := by
    simpa using hbad
  simp only [hbad', hfmt, Bool.not_true, Bool.or_false, Bool.false_eq_true, if_false, commit, hs]
  refine ⟨_, ?_, ?_, ?_, ?_, rfl⟩
  · simp [TrapReq.by]
  · simp [TrapReq.by]
  · simp [TrapReq.by]
  · intro l hl
    by_cases hsc : isScalar d = true
    · simp [TrapReq.by, hsc]
    · simp only [TrapReq.by, hsc, Bool.false_eq_true, if_false, Option.getD_none, ofPred_has, hl, decide_true, Bool.true_and]
      rw [Bool.eq_iff_iff]
      simp only [List.any_filter, List.any_map, List.any_eq_true, Function.comp_apply, Bool.and_eq_true, beq_iff_eq,
        List.contains_eq_mem, decide_eq_true_eq]
      constructor
      · rintro ⟨x, hx, hp, rfl⟩; exact ⟨hx, hp⟩
      · rintro ⟨hx, hp⟩; exact ⟨l, hx, hp, rfl⟩

/-! ## Results written without rounding (MOVSR, FLTRD) -/

theorem idle_status (u : Iss) (ls : List Nat) (k : Nat) :
    u.g.status.getLsbD k =
      (u.g.status.getLsbD k || ls.any (fun l => (idle u l).flags.getLsbD k) ||
        (true && latchLost u [] && fLatchLost.getLsbD k)) := by
  have : ls.any (fun l => (idle u l).flags.getLsbD k) = false := by
    rw [List.any_eq_false]; intro l _; simp [idle, Lane.start, fNone]
  simp [this, latchLost]

theorem scalarWrite_effect {s : State} {i : Instr} {u : Iss} (h : issuer s i = some u) (hi : isIret i = false) (d : Opnd)
    (wide : Bool) (ls : List Nat) (val : Nat → Nat) (hls : ls ≠ []) (hd : dstOk u.g wide d = true) (hs : isScalar d = true) :
    LaneEffect u d wide false true [] ls val (idle u)
      (retire (setGroup u.s (writeScalarNat u.g wide d (val (ls.headD 0)))) u true) := by
  obtain ⟨hs0, hui, -, hg, hpr, -⟩ := issuer_state h
  have hown : { writeScalarNat u.g wide d (val (ls.headD 0)) with vregs := u.g.vregs, oregs := u.g.oregs, sregs := u.g.sregs } =
      u.g := by
    simp only [writeScalarNat]
    split
    · rw [writeScalar_only, writeScalar_only]
    · rw [writeScalar_only]
  have a1 := congrArg (fun x : Group => { x with status := u.g.status, srctr := u.g.srctr }) hown
  have a2 := congrArg Group.status hown
  have a3 := congrArg Group.srctr hown
  have a4 := congrArg Group.gid hown
  simp only at a1 a2 a3 a4
  refine finish_effect hs0 hpr (by rw [hui]; exact hi) (g2 := writeScalarNat u.g wide d (val (ls.headD 0))) ?_ ?_ ?_ ?_ a1
    ?_ ?_ (written_scalar u.g d wide ls val hls hs hd) ?_
  · rw [hs0]; exact groupOf_setGroup hg a4
  · intro n hn; rw [hs0]; exact groupOf_setGroup_other (by rw [a4]; exact hn)
  · rw [hs0]; rfl
  · intro c q _; rw [hs0]; rfl
  · intro k _; rw [a2]; exact idle_status u ls k
  · intro l _; rw [a3]; simp [idle, Lane.start]
  · intro _; rw [hs0]; simp [ringOf, setGroup]

theorem vectorWrite_effect {s : State} {i : Instr} {u : Iss} (h : issuer s i = some u) (hi : isIret i = false) (d : Opnd)
    (wide wbs : Bool) (val : Nat → Nat) (hd : dstOk u.g wide d = true) (hs : isScalar d = false) :
    LaneEffect u d wide false true [] (active u).toList val (idle u)
      (retire (writeVector u.s u.g u.p d wbs wide false (active u) val) u true) := by
  obtain ⟨hs0, hui, -, hg, hpr, -⟩ := issuer_state h
  have hwv : writeVector u.s u.g u.p d wbs wide false (active u) val = setGroup u.s (writePair u.g d wide (active u) val) := by
    rw [writeVector_eq]; simp
  have hown := writePair_only u.g d wide (active u) val u.g.vregs u.g.oregs u.g.sregs
  have a1 := congrArg (fun x : Group => { x with status := u.g.status, srctr := u.g.srctr }) hown
  have a2 := congrArg Group.status hown
  have a3 := congrArg Group.srctr hown
  have a4 := congrArg Group.gid hown
  have a5 := congrArg Group.splits hown
  have a6 := congrArg Group.lclk hown
  simp only at a1 a2 a3 a4 a5 a6
  have hwr := written_vector u.g d wide (active u) (active u).toList val hs hd (has_toList _)
  have hg2 : groupOf (setGroup s (writePair u.g d wide (active u) val)) u.g.gid = some (writePair u.g d wide (active u) val) :=
    groupOf_setGroup hg a4
  rw [hwv]
  refine finish_effect hs0 hpr (by rw [hui]; exact hi) (g2 := writePair u.g d wide (active u) val) ?_ ?_ ?_ ?_ a1 ?_ ?_ hwr ?_
  · rw [hs0]; exact hg2
  · intro n hn; rw [hs0]; exact groupOf_setGroup_other (by rw [a4]; exact hn)
  · rw [hs0]; rfl
  · intro c q _; rw [hs0]; rfl
  · intro k _; rw [a2]; exact idle_status u _ k
  · intro l _; rw [a3]; simp [idle, Lane.start]
  · intro _; rw [hs0]; simp [ringOf, setGroup]

end Sys2Proof.Machine
end

