-- ==== Sys2Proof/Laws/Control.lean ====
section
/-!
SUPPORT. Lemmas about the control class: a split that only moves, traps of an instruction, and what reshaping the splits and
regions of a group leaves.
-/
namespace Sys2Proof.Machine

theorem jump_gen {s s0 : State} {u : Iss} {i : Instr} {g0 : Group} (h : issuer s i = some u) (hi : isIret i = false) (pc : DWord)
    (hg0 : groupOf s0 u.g.gid = some g0) (hsp : g0.splits = u.g.splits)
    (hothers : ∀ n, n ≠ u.g.gid → groupOf s0 n = groupOf u.s n) (hm : { s0 with groups := u.s.groups } = u.s)
    (ho : { g0 with vregs := u.g.vregs, oregs := u.g.oregs, sregs := u.g.sregs, status := u.g.status,
                    srctr := u.g.srctr } = u.g) :
    ∃ g' p', Stepped u (commit u (jumpTo u s0 pc)) g' p' ∧ Advanced u p' pc ∧ g'.vregs = g0.vregs ∧ g'.oregs = g0.oregs ∧
      g'.sregs = g0.sregs ∧ g'.status = g0.status ∧ g'.srctr = g0.srctr ∧ (commit u (jumpTo u s0 pc)).rings = u.s.rings := by
  obtain ⟨hs, hui, -, hg, hp, -⟩ := issuer_state h
  have hgid := groupOf_gid hg0
  have hp0 : splitOf g0 u.p.sid = some u.p := by simpa [splitOf, hsp] using hp
  have hrings : s0.rings = u.s.rings := by rw [← hm]
  have hmem : s0.mem = u.s.mem := by rw [← hm]
  simp only [commit, jumpTo]
  rw [updSplit_eq hg0 hp0]
  have hg1 : groupOf (setGroup s0 (setSplit g0 { u.p with pc })) u.g.gid = some (setSplit g0 { u.p with pc }) :=
    groupOf_setGroup hg0 hgid
  have hp1 : splitOf (setSplit g0 { u.p with pc }) u.p.sid = some { u.p with pc } := splitOf_setSplit hp0 rfl
  rw [retire_eq hg1 hp1]; rw [setGroup_setGroup s0 _ _ (by rfl)]
  refine ⟨_, retiredSplit u false { u.p with pc }, ⟨groupOf_setGroup hg0 hgid, ?_, ?_, ?_, ?_, ?_, ?_, ?_, ?_, ?_⟩, ?_, rfl, rfl, rfl, rfl, rfl, hrings⟩
  · exact splitOf_setSplit (g := retiredGroup u (setSplit g0 { u.p with pc })) hp1 rfl
  · intro n hn; exact (groupOf_setGroup_other (by show n ≠ g0.gid; rw [hgid]; exact hn)).trans (hothers n hn)
  · intro n hn
    rw [splitOf_bpDue, splitOf_setSplit_other (by exact hn)]
    show splitOf (setSplit g0 { u.p with pc }) n = _
    rw [splitOf_setSplit_other (by exact hn)]
    simp [splitOf, hsp]
  · rw [← hrings]; exact hm
  · intro a; exact congrArg (memRead · a) hmem
  · intro c q _; simp [ringOf, setGroup, hrings]
  · conv_rhs => rw [← ho]
    simp only [setSplit, retiredGroup]
    congr 1
    all_goals rw [← ho]
  · have := congrArg Group.lclk ho; simp only at this
    simp [setSplit, retiredGroup, this]
  · rw [show u.g.bpDue = g0.bpDue from (congrArg Group.bpDue ho).symm]; rfl
  · rw [← hui] at hi
    by_cases hh : instrHold u.i = true <;> constructor <;> simp [hh, hi, retiredSplit]

theorem goes_jump {s : State} {u : Iss} {i : Instr} (h : issuer s i = some u) (hi : isIret i = false) (pc : DWord) :
    Goes u pc (commit u (jumpTo u u.s pc)) := by
  obtain ⟨hs, -, -, hg, -, -⟩ := issuer_state h
  exact jump_gen h hi pc (by rw [hs]; exact hg) rfl (fun _ _ => rfl) rfl rfl

theorem goes_done {s : State} {u : Iss} {i : Instr} (h : issuer s i = some u) (hi : isIret i = false) :
    Goes u (u.p.pc + 16#64) (commit u (.done u.s)) := by
  obtain ⟨hs, hui, -, hg, hp, -⟩ := issuer_state h
  rw [← hs] at hg
  simp only [commit]
  rw [retire_eq hg hp]
  refine ⟨_, retiredSplit u true u.p, ⟨groupOf_setGroup hg rfl, ?_, ?_, ?_, rfl, fun _ => rfl, fun _ _ _ => rfl, rfl, rfl, rfl⟩, ?_, rfl, rfl, rfl, rfl, rfl, rfl⟩
  · exact splitOf_setSplit (g := retiredGroup u u.g) hp rfl
  · intro n hn; exact groupOf_setGroup_other hn
  · intro n hn
    exact splitOf_setSplit_other (g := retiredGroup u u.g) hn
  · rw [← hui] at hi
    by_cases hh : instrHold u.i = true <;> constructor <;> simp [hh, hi, retiredSplit]

theorem trapped_all (u : Iss) (c : Cause) (a b : Nat) :
    Trapped u c u.p.members (BitVec.ofNat 64 a) (BitVec.ofNat 64 b) (commit u (trapAll u c a b)) :=
  ⟨_, rfl, rfl, rfl, rfl, rfl⟩

theorem trapped_illegal (u : Iss) (c : Cause) : Rejected u c (commit u (illegal u c)) := ⟨_, rfl, rfl, rfl, rfl, rfl⟩

theorem goes_branch {s : State} {u : Iss} {i : Instr} (h : issuer s i = some u) (hi : isIret i = false) {b : Bool}
    (hb : branches u = some b) (pc : DWord) :
    Goes u (if b then pc else u.p.pc + 16#64) (commit u (branchIf u (jumpTo u u.s pc))) := by
  cases b with
  | true => simpa [branchIf, hb] using goes_jump h hi pc
  | false => simpa [branchIf, hb] using goes_done h hi

theorem goes_aligned {s : State} {u : Iss} {i : Instr} (h : issuer s i = some u) (hi : isIret i = false) {b : Bool}
    (hb : branches u = some b) (pc : DWord) (ha : bits pc 0 4 = 0) :
    Goes u (if b then pc else u.p.pc + 16#64) (commit u (branchIf u (jumpAligned u u.s pc))) := by
  have : jumpAligned u u.s pc = jumpTo u u.s pc := by simp [jumpAligned, ha]
  rw [this]; exact goes_branch h hi hb pc

/-! ## Reshaping a group -/

@[simp] theorem bare_makeResident (g : Group) (k : Nat) :
    (makeResident g k).splits.map bareSplit = g.splits.map bareSplit := by
  simp only [makeResident, List.map_map]
  apply List.map_congr_left
  intro p _
  simp only [Function.comp_apply]
  split_ifs <;> rfl

@[simp] theorem makeResident_regions (g : Group) (k : Nat) : (makeResident g k).regions = g.regions := rfl

@[simp] theorem bare_addSplit (g : Group) (p : Split) :
    (addSplit g p).splits.map bareSplit = (g.splits ++ [p]).map bareSplit := bare_makeResident _ _

@[simp] theorem addSplit_regions (g : Group) (p : Split) : (addSplit g p).regions = g.regions := rfl

@[simp] theorem bare_addRegion (g : Group) (r : Region) :
    (addRegion g r).regions.map bareRegion = (g.regions ++ [r]).map bareRegion := by
  simp only [addRegion, List.map_append, List.map_map]
  congr 1
  apply List.map_congr_left
  intro x _
  simp only [Function.comp_apply]
  split_ifs <;> rfl

@[simp] theorem addRegion_splits (g : Group) (r : Region) : (addRegion g r).splits = g.splits := rfl

theorem Reshaped.refl (gid : Nat) (s : State) : Reshaped gid s s :=
  ⟨rfl, fun _ _ => rfl, fun g h => ⟨g, h, rfl⟩⟩

theorem Reshaped.trans {gid : Nat} {a b c : State} (h : Reshaped gid a b) (k : Reshaped gid b c) : Reshaped gid a c := by
  refine ⟨?_, fun n hn => (k.groups n hn).trans (h.groups n hn), fun g hg => ?_⟩
  · conv_rhs => rw [← h.machine]
    rw [← k.machine]
  · obtain ⟨g1, h1, e1⟩ := h.own g hg
    obtain ⟨g2, h2, e2⟩ := k.own g1 h1
    refine ⟨g2, h2, ?_⟩
    rw [← e1]
    conv_rhs => rw [← e2]

/-- One replacement of the group, with fresh identities used. -/
theorem reshaped_setGroup {gid : Nat} {s : State} {g g' : Group} (k : Nat) (h : groupOf s gid = some g)
    (e : { g' with splits := g.splits, regions := g.regions } = g) :
    Reshaped gid s { setGroup s g' with nextId := k } := by
  have hid : g'.gid = gid := by
    have := congrArg Group.gid e; simp only at this; rw [this]; exact groupOf_gid h
  refine ⟨rfl, fun n hn => ?_, fun x hx => ⟨g', ?_, ?_⟩⟩
  · exact groupOf_setGroup_other (s := s) (by rw [hid]; exact hn)
  · exact groupOf_setGroup (s := s) h hid
  · rw [hx] at h; cases h; exact e

theorem renew_eq (s : State) (as : List Nat) (p : Split) :
    renew s as p = ({ p with agent := s.nextId, before := lineage { s with nextId := s.nextId + 1 } as },
      { s with nextId := s.nextId + 1 }) := rfl

theorem own_addSplit (g : Group) (p : Split) (a : List Split) (b : List Region) :
    { addSplit g p with splits := a, regions := b } = { g with splits := a, regions := b } := rfl

theorem own_addRegion (g : Group) (r : Region) (a : List Split) (b : List Region) :
    { addRegion g r with splits := a, regions := b } = { g with splits := a, regions := b } := rfl

theorem own_setSplit (g : Group) (p : Split) (a : List Split) (b : List Region) :
    { setSplit g p with splits := a, regions := b } = { g with splits := a, regions := b } := rfl

theorem own_setRegion (g : Group) (r : Region) (a : List Split) (b : List Region) :
    { setRegion g r with splits := a, regions := b } = { g with splits := a, regions := b } := rfl

/-- One replacement of the group of `s`, with identities up to `k` used. -/
def remade (s : State) (g : Group) (k : Nat) : State := { setGroup s g with nextId := k }

theorem setGroup_remade (s : State) (g : Group) (k : Nat) : setGroup { s with nextId := k } g = remade s g k := rfl

theorem remade_reshaped {gid : Nat} {s : State} {g g' : Group} (k : Nat) (h : groupOf s gid = some g)
    (e : { g' with splits := g.splits, regions := g.regions } = g) : Reshaped gid s (remade s g' k) :=
  reshaped_setGroup k h e

theorem remade_shape {gid : Nat} {s : State} {g g' : Group} (k : Nat) (h : groupOf s gid = some g) (e : g'.gid = gid)
    {ps : List Split} {rs : List Region} (hp : g'.splits.map bareSplit = ps.map bareSplit)
    (hr : g'.regions.map bareRegion = rs.map bareRegion) : Shape gid (remade s g' k) ps rs :=
  ⟨g', groupOf_setGroup (s := s) h e, hp, hr⟩

theorem bare_setSplit (g : Group) (p q : Split) (hs : p.sid = q.sid) (h : bareSplit p = bareSplit q) :
    (setSplit g p).splits.map bareSplit = (putSplit g q).map bareSplit := by
  simp only [setSplit, putSplit, List.map_map]
  apply List.map_congr_left
  intro x _
  simp only [Function.comp_apply, hs]
  split_ifs
  · exact h
  · rfl

theorem divide_eq {u : Iss} (taken : Lanes) (tgt join : DWord) (ht : tablesHold u.ctx u.g 1 1 = true) :
    ∃ (p t : Split) (r : Region),
      divide u taken tgt join =
        .jump (remade u.s (addSplit (addRegion (setSplit u.g p) r) t) (u.s.nextId + 1 + 1 + 1 + 1)) ∧
      p.sid = u.p.sid ∧
      bareSplit p = bareSplit { u.p with members := u.p.members &&& ~~~taken, em := u.p.em &&& ~~~taken,
                                         pc := u.p.pc + 16#64, region := some u.s.nextId,
                                         stamp := u.s.clock.toNat } ∧
      bareSplit t = bareSplit { Split.born u.p with sid := u.s.nextId + 1, members := taken, em := taken, pc := tgt,
                                                    region := some u.s.nextId, stamp := u.s.clock.toNat } ∧
      bareRegion r = bareRegion
        { rid := u.s.nextId, joinPC := join, expected := u.p.members, arrived := 0#64, savedEM := u.p.em, savedFMT := u.p.fmt,
          parent := u.p.region, depth := (chainOf u.g u.p).length + 1, seq := u.s.nextId, resident := true, agents := [] } := by
  simp only [divide, ht, Bool.not_true, Bool.false_eq_true, if_false, fresh, renew_eq, setGroup_remade]
  exact ⟨_, _, _, rfl, rfl, rfl, rfl, rfl⟩

theorem regionOf_in {g : Group} {n : Nat} {r : Region} (h : regionOf g n = some r) : r.rid = n ∧ r ∈ g.regions :=
  ⟨by simpa using List.find?_some h, List.mem_of_find?_eq_some h⟩

theorem unexpect_bare (rs : List Region) (x : Lanes) (as : List Nat) : ∀ g : Group,
    (g.regions.map Region.rid).Nodup →
    (unexpect g rs x as).regions.map bareRegion = (expectLess g rs x).map bareRegion ∧
    { unexpect g rs x as with regions := g.regions } = g := by
  induction rs with
  | nil => intro g h; refine ⟨?_, rfl⟩; simp [unexpect, expectLess]
  | cons r t ih =>
    intro g h
    cases hr : regionOf g r.rid with
    | none =>
      have e : unexpect g (r :: t) x as = unexpect g t x as := by simp only [unexpect, List.foldl_cons, hr]
      rw [e]
      obtain ⟨i1, i2⟩ := ih g h
      refine ⟨i1.trans ?_, i2⟩
      simp only [expectLess, List.any_cons]
      congr 1
      apply List.map_congr_left
      intro y hy
      have : (r.rid == y.rid) = false := by
        rw [regionOf, List.find?_eq_none] at hr
        have := hr y hy
        exact beq_eq_false_iff_ne.mpr fun e => this (by simp [e])
      simp only [this, Bool.false_or]
    | some r0 =>
      obtain ⟨h0, hm0⟩ := regionOf_in hr
      have e : unexpect g (r :: t) x as =
          unexpect (setRegion g { r0 with expected := r0.expected &&& ~~~x, agents := r0.agents ++ as }) t x as := by
        simp only [unexpect, List.foldl_cons, hr]
      have huniq : ∀ y ∈ g.regions, y.rid = r0.rid → y = r0 := fun y hy hyr =>
        List.inj_on_of_nodup_map h hy hm0 hyr
      have hn : ((setRegion g { r0 with expected := r0.expected &&& ~~~x, agents := r0.agents ++ as }).regions.map Region.rid).Nodup := by
        have : (setRegion g { r0 with expected := r0.expected &&& ~~~x, agents := r0.agents ++ as }).regions.map Region.rid = g.regions.map Region.rid := by
          simp only [setRegion, List.map_map]
          apply List.map_congr_left
          intro y _
          simp only [Function.comp_apply]
          split_ifs with hy
          · exact hy.symm
          · rfl
        rw [this]; exact h
      rw [e]
      obtain ⟨i1, i2⟩ := ih _ hn
      refine ⟨i1.trans ?_, ?_⟩
      · simp only [expectLess, setRegion, List.map_map, List.any_cons]
        apply List.map_congr_left
        intro y hy
        simp only [Function.comp_apply]
        by_cases hyr : y.rid = r0.rid
        · have := huniq y hy hyr
          subst this
          simp only [if_true, h0, beq_self_eq_true, Bool.true_or]
          split_ifs
          · simp [bareRegion, BitVec.and_assoc]
          · rfl
        · have : (r.rid == y.rid) = false := beq_eq_false_iff_ne.mpr fun e => hyr (by rw [h0, e])
          simp only [hyr, if_false, this, Bool.false_or]
      · have := congrArg (fun z : Group => { z with regions := g.regions }) i2
        exact this

end Sys2Proof.Machine
end

