-- ==== Sys2Proof/Laws/Memory.lean ====
section
/-!
SUPPORT. Memory: a read after a write, every operation on memory keeps the canonical form, and equal memories in that form
read the same.
-/
namespace Sys2Proof.Machine

@[simp] theorem memRead_nil (a : Nat) : memRead [] a = memDefault := rfl

theorem memRead_below {lo a : Nat} {m : List Host.Cell} (h : memWfFrom lo m = true) (ha : a < lo) :
    memRead m a = memDefault := by
  induction m generalizing lo with
  | nil => rfl
  | cons c t ih =>
    obtain ⟨x, b⟩ := c
    simp only [memWfFrom, Bool.and_eq_true, decide_eq_true_eq] at h
    have hx : ¬ x = a := by omega
    simp only [memRead, hx, if_false]
    exact ih h.2 (by omega)

theorem memRead_memWrite (m : List Host.Cell) (lo a x : Nat) (b : Byte) (h : memWfFrom lo m = true) :
    memRead (memWrite m a b) x = if x = a then b else memRead m x := by
  induction m generalizing lo with
  | nil =>
    by_cases hb : b = memDefault <;> by_cases hx : x = a
    · simp [memWrite, hb]
    · simp [memWrite, hb]
    · subst hx; simp [memWrite, hb, memRead]
    · have : ¬ a = x := fun e => hx e.symm
      simp [memWrite, hb, memRead, hx, this]
  | cons c t ih =>
    obtain ⟨y, d⟩ := c
    simp only [memWfFrom, Bool.and_eq_true, decide_eq_true_eq] at h
    obtain ⟨⟨hy, hd⟩, ht⟩ := h
    unfold memWrite
    by_cases h1 : a < y
    · have hlow : memRead ((y, d) :: t) a = memDefault :=
        memRead_below (lo := y) (by simp [memWfFrom, hd, ht]) h1
      rw [if_pos h1]
      by_cases hb : b = memDefault
      · rw [if_pos hb]
        by_cases hx : x = a
        · subst hx; rw [if_pos rfl, hlow, hb]
        · rw [if_neg hx]
      · rw [if_neg hb]
        by_cases hx : x = a
        · subst hx; simp [memRead]
        · have : ¬ a = x := fun e => hx e.symm
          simp [memRead, hx, this]
    · rw [if_neg h1]
      by_cases h2 : a = y
      · subst h2
        rw [if_pos rfl]
        by_cases hb : b = memDefault
        · rw [if_pos hb]
          by_cases hx : x = a
          · subst hx; rw [if_pos rfl, memRead_below ht (by omega), hb]
          · have : ¬ a = x := fun e => hx e.symm
            simp [memRead, hx, this]
        · rw [if_neg hb]
          by_cases hx : x = a
          · subst hx; simp [memRead]
          · have : ¬ a = x := fun e => hx e.symm
            simp [memRead, hx, this]
      · rw [if_neg h2]
        by_cases hx : y = x
        · subst hx
          have : ¬ y = a := fun e => h2 e.symm
          simp [memRead, this]
        · simp only [memRead, hx, if_false]
          exact ih (y + 1) ht

theorem memWf_le {lo hi : Nat} {m : List Host.Cell} (h : lo ≤ hi) (hm : memWfFrom hi m = true) :
    memWfFrom lo m = true := by
  cases m with
  | nil => rfl
  | cons c t =>
    obtain ⟨y, d⟩ := c
    simp only [memWfFrom, Bool.and_eq_true, decide_eq_true_eq] at hm ⊢
    exact ⟨⟨by omega, hm.1.2⟩, hm.2⟩

theorem memWrite_wf (m : List Host.Cell) (lo a : Nat) (b : Byte) (h : memWfFrom lo m = true) (ha : lo ≤ a) :
    memWfFrom lo (memWrite m a b) = true := by
  induction m generalizing lo with
  | nil => by_cases hb : b = memDefault <;> simp [memWrite, hb, memWfFrom, ha]
  | cons c t ih =>
    obtain ⟨y, d⟩ := c
    have h0 := h
    simp only [memWfFrom, Bool.and_eq_true, decide_eq_true_eq] at h
    obtain ⟨⟨hy, hd⟩, ht⟩ := h
    unfold memWrite
    by_cases h1 : a < y
    · rw [if_pos h1]
      by_cases hb : b = memDefault
      · rw [if_pos hb]; exact h0
      · rw [if_neg hb]
        have : a + 1 ≤ y := h1
        simp [memWfFrom, ha, hb, this, hd, ht]
    · rw [if_neg h1]
      by_cases h2 : a = y
      · subst h2
        rw [if_pos rfl]
        by_cases hb : b = memDefault
        · rw [if_pos hb]
          exact memWf_le (by omega) ht
        · rw [if_neg hb]; simp [memWfFrom, hb, ht, hy]
      · rw [if_neg h2]
        simp only [memWfFrom, Bool.and_eq_true, decide_eq_true_eq]
        exact ⟨⟨hy, hd⟩, ih (y + 1) ht (by omega)⟩

theorem memWf_write {m : List Host.Cell} (a : Nat) (b : Byte) (h : memWf m = true) : memWf (memWrite m a b) = true :=
  memWrite_wf m 0 a b h (Nat.zero_le a)

theorem memWf_writeBytes {m : List Host.Cell} (bs : List Byte) (a : Nat) (h : memWf m = true) :
    memWf (memWriteBytes m a bs) = true := by
  induction bs generalizing m a with
  | nil => exact h
  | cons b t ih => exact ih (a + 1) (memWf_write a b h)

theorem memWf_writeN {m : List Host.Cell} (n a v : Nat) (h : memWf m = true) : memWf (memWriteN m a n v) = true := by
  induction n generalizing m a v with
  | zero => exact h
  | succ n ih => exact ih (a + 1) (v / 256) (memWf_write a _ h)

theorem memWfFrom_filter {m : List Host.Cell} (p : Host.Cell → Bool) (lo : Nat) (h : memWfFrom lo m = true) :
    memWfFrom lo (m.filter p) = true := by
  induction m generalizing lo with
  | nil => rfl
  | cons c t ih =>
    obtain ⟨y, d⟩ := c
    simp only [memWfFrom, Bool.and_eq_true, decide_eq_true_eq] at h
    rw [List.filter_cons]
    split
    · simp only [memWfFrom, Bool.and_eq_true, decide_eq_true_eq]
      exact ⟨h.1, ih _ h.2⟩
    · exact memWf_le (by omega) (ih _ h.2)

theorem memWf_clear {m : List Host.Cell} (a n : Nat) (h : memWf m = true) : memWf (memClear m a n) = true :=
  memWfFrom_filter _ 0 h

/-- A byte of a run just written. -/
theorem memRead_writeBytes {m : List Host.Cell} (bs : List Byte) (a x : Nat) (h : memWf m = true) :
    memRead (memWriteBytes m a bs) x = if a ≤ x ∧ x < a + bs.length then bs.getD (x - a) memDefault else memRead m x := by
  induction bs generalizing m a with
  | nil =>
    have : ¬ (a ≤ x ∧ x < a + ([] : List Byte).length) := by simp only [List.length_nil]; omega
    simp only [memWriteBytes, this, if_false]
  | cons b t ih =>
    rw [memWriteBytes, ih (a + 1) (memWf_write a b h), memRead_memWrite m 0 a x b h]
    by_cases hx : x = a
    · subst hx
      have h1 : ¬ (x + 1 ≤ x ∧ x < x + 1 + t.length) := by omega
      have h2 : x ≤ x ∧ x < x + (b :: t).length := by simp
      rw [if_neg h1, if_pos rfl, if_pos h2, Nat.sub_self]
      rfl
    · by_cases h1 : a + 1 ≤ x ∧ x < a + 1 + t.length
      · have h2 : a ≤ x ∧ x < a + (b :: t).length := by simp only [List.length_cons]; omega
        rw [if_pos h1, if_pos h2]
        have : x - a = x - (a + 1) + 1 := by omega
        rw [this, List.getD_cons_succ]
      · have h2 : ¬ (a ≤ x ∧ x < a + (b :: t).length) := by simp only [List.length_cons]; omega
        rw [if_neg h1, if_neg h2, if_neg hx]

theorem memRead_clear {m : List Host.Cell} (a n x : Nat) (lo : Nat) (h : memWfFrom lo m = true) :
    memRead (memClear m a n) x = if a ≤ x ∧ x < a + n then memDefault else memRead m x := by
  induction m generalizing lo with
  | nil => simp [memClear]
  | cons c t ih =>
    obtain ⟨y, d⟩ := c
    simp only [memWfFrom, Bool.and_eq_true, decide_eq_true_eq] at h
    have ht := ih (y + 1) h.2
    unfold memClear at ht ⊢
    rw [List.filter_cons]
    by_cases hy : a ≤ y ∧ y < a + n
    · simp only [hy, decide_true, Bool.and_self, Bool.not_true, Bool.false_eq_true, if_false, ht]
      by_cases hx : a ≤ x ∧ x < a + n
      · simp [hx]
      · have : ¬ y = x := fun e => hx (e ▸ hy)
        simp only [hx, if_false, memRead, this]
    · have hy' : (!(decide (a ≤ y) && decide (y < a + n))) = true := by
        rw [Bool.not_eq_true', Bool.and_eq_false_iff]; simp only [decide_eq_false_iff_not]; omega
      simp only [hy', if_true, memRead, ht]
      by_cases hx : y = x
      · subst hx; simp [hy]
      · simp [hx]

/-! ## Writes of the whole machine -/

theorem memOk_physWriteBytes {s : State} (a : Nat) (bs : List Byte) (h : MemOk s) : MemOk (physWriteBytes s a bs) :=
  memWf_writeBytes bs a h

theorem memRead_physWriteBytes {s : State} (a : Nat) (bs : List Byte) (x : Nat) (h : MemOk s) :
    memRead (physWriteBytes s a bs).mem x =
      if a ≤ x ∧ x < a + bs.length then bs.getD (x - a) memDefault else memRead s.mem x :=
  memRead_writeBytes bs a x h

theorem memOk_physWrite {s : State} (a n v : Nat) (h : MemOk s) : MemOk (physWrite s a n v) :=
  memOk_physWriteBytes a _ h

theorem natToBytes_length (n v : Nat) : (natToBytes n v).length = n := by
  induction n generalizing v with
  | zero => rfl
  | succ n ih => simp [natToBytes, ih]

theorem memRead_physWrite {s : State} (a n v x : Nat) (h : MemOk s) :
    memRead (physWrite s a n v).mem x =
      if a ≤ x ∧ x < a + n then (natToBytes n v).getD (x - a) memDefault else memRead s.mem x := by
  have := memRead_writeBytes (natToBytes n v) a x h
  rw [natToBytes_length] at this
  exact this

theorem natToBytes_bytes (n v k : Nat) (hk : k < n) : (natToBytes n v).getD k memDefault = BitVec.ofNat 8 (v / 256 ^ k) := by
  induction n generalizing v k with
  | zero => omega
  | succ n ih =>
    cases k with
    | zero => simp [natToBytes]
    | succ k =>
      rw [natToBytes, List.getD_cons_succ, ih _ _ (by omega), Nat.div_div_eq_div_mul, Nat.pow_succ']

theorem memReadN_bytes (m : List Host.Cell) (k a v : Nat)
    (h : ∀ j < k, memRead m (a + j) = BitVec.ofNat 8 (v / 256 ^ j)) : memReadN m a k = v % 256 ^ k := by
  induction k generalizing a v with
  | zero => simp [memReadN, Nat.mod_one]
  | succ k ih =>
    have h0 := h 0 (by omega)
    rw [memReadN, ih (a + 1) (v / 256) fun j hj => ?_]
    · simp only [Nat.add_zero, Nat.pow_zero, Nat.div_one] at h0
      rw [h0, BitVec.toNat_ofNat, Nat.pow_succ' (m := 256), show (2 : Nat) ^ 8 = 256 from rfl, Nat.mod_mul]
    · rw [Nat.div_div_eq_div_mul, ← Nat.pow_succ', ← h (j + 1) (by omega), Nat.add_right_comm, Nat.add_assoc]

/-- A value read back where it was written. -/
theorem physRead_physWrite {s : State} (a n v : Nat) (h : MemOk s) : physRead (physWrite s a n v) a n = v % 256 ^ n := by
  refine memReadN_bytes _ n a v fun j hj => ?_
  rw [memRead_physWrite a n v _ h, if_pos (by omega), Nat.add_sub_cancel_left, natToBytes_bytes n v j hj]

end Sys2Proof.Machine
end

