-- ==== Sys2Proof/Laws/Access.lean ====
section
/-!
SUPPORT. Lemmas about accesses: what walks and lookups leave, and what putting an access in flight leaves.
-/
namespace Sys2Proof.Machine

theorem Walked.refl (s : State) : Walked s s := ⟨rfl, rfl, fun h => ⟨h, rfl, rfl, rfl⟩⟩

theorem Walked.trans {a b c : State} (h : Walked a b) (k : Walked b c) : Walked a c := by
  refine ⟨?_, k.2.1.trans h.2.1, fun e => ?_⟩
  · conv_rhs => rw [← h.1]
    rw [← k.1]
  · obtain ⟨e1, e2, e3, e4⟩ := h.2.2 e
    obtain ⟨f1, f2, f3, f4⟩ := k.2.2 e1
    exact ⟨f1, f2.trans e2, f3.trans e3, f4.trans e4⟩

theorem walked_setCore (s : State) (c : Nat) (k : Core) : Walked s (setCore s c k) :=
  ⟨rfl, List.length_set, fun h => ⟨h, rfl, rfl, rfl⟩⟩

theorem walked_physWrite (s : State) (a n v : Nat) : Walked s (physWrite s a n v) :=
  ⟨rfl, rfl, fun h => ⟨by simp [physWrite, physWriteBytes, h], rfl, rfl, rfl⟩⟩

theorem physWriteBytes_is (s : State) (a : Nat) (bs : List Byte) :
    ∃ m b, physWriteBytes s a bs = { s with mem := m, badGranules := b } := ⟨_, _, rfl⟩

/-- A log-only record is written or counted as dropped; neither touches anything but memory, the context and the driver's
messages. -/
theorem report_log {s : State} {r : DriverRec} (h : r.link = .log) :
    ∃ m b cs rs is, report s r = { s with mem := m, badGranules := b, contexts := cs, records := rs, irqs := is } := by
  unfold report
  cases ctxOf s r.ctx with
  | none => exact ⟨_, _, _, _, _, rfl⟩
  | some c =>
    simp only [h]
    split
    · simp only [writeRec, h, physWrite]
      obtain ⟨m, b, e⟩ := physWriteBytes_is s (nextRecAddr c) r.body.bytes
      rw [e]
      obtain ⟨m', b', e'⟩ := physWriteBytes_is { s with mem := m, badGranules := b } c.fring (natToBytes 8 (c.tail + 1))
      rw [e']
      exact ⟨_, _, _, _, _, rfl⟩
    · simp only [physWrite]
      obtain ⟨m, b, e⟩ := physWriteBytes_is s (c.fring + 16) (natToBytes 8 (c.drop + 1))
      rw [e]
      exact ⟨_, _, _, _, _, rfl⟩

theorem walked_orEntry (s : State) (ctx pa : Nat) (e : DWord) (n : Nat) : Walked s (orEntry s ctx pa e n) := by
  unfold orEntry
  split
  · exact .refl _
  · split
    · rename_i b hb
      obtain ⟨m, b', cs, rs, is, h⟩ := report_log (s := s)
        (r := { ctx, link := .log, body := blankRec s 0 .memoryUncorrectable 4 0#64 (BitVec.ofNat 64 b) }) rfl
      rw [h]
      refine ⟨rfl, rfl, fun e => ?_⟩
      have : (granulesOf pa 8).find? (fun _ => false) = none := List.find?_eq_none.mpr (by simp)
      simp [badGranule?, e, this] at hb
    · exact walked_physWrite _ _ _ _

theorem walked_walkAccess (s : State) (c : Context) (va : DWord) (a : Access) (sup : Bool) :
    Walked s (walkAccess s c va a sup).2 := by
  unfold walkAccess
  split
  · exact .refl _
  · split
    · exact .refl _
    · exact .refl _
    · dsimp only
      split <;> exact walked_orEntry _ _ _ _ _

theorem walked_translate (s : State) (c : Nat) (ctx : Context) (va : DWord) (a : Access) (sup : Bool) :
    Walked s (translate s c ctx va a sup).2 := by
  have hw := walked_walkAccess s ctx va a sup
  have refill : ∀ t : Except PageFault Nat × State, t =
      (match walkAccess s ctx va a sup with
       | (.error f, s) => (.error f, setCore s c (tlbDropData (coreOf s c) s.clock.toNat ctx.num va.toNat))
       | (.ok pa, s') =>
         match walk s' ctx.ptroot va.toNat with
         | .leaf l _ e =>
           (.ok pa, setCore s' c { coreOf s' c with
             tlb := { fetch := a == .fetch, ctx := ctx.num,
                      page := if l == 2 then va.toNat / 2 ^ 29 * 2 ^ 29 else va.toNat / 2 ^ 16 * 2 ^ 16,
                      large := l == 2, frame := pteFrame e, r := pteR e, w := pteW e, x := pteX e, s := pteS e, d := pteD e,
                      expiry := s'.clock.toNat + ctx.lease * Config.clkPerUs } ::
               (coreOf s' c).tlb.filter fun u => !(u.fetch == (a == .fetch) && u.ctx == ctx.num &&
                 u.page == (if l == 2 then va.toNat / 2 ^ 29 * 2 ^ 29 else va.toNat / 2 ^ 16 * 2 ^ 16) &&
                 u.large == (l == 2)) })
         | _ => (.ok pa, s')) → Walked s t.2 := by
    intro t ht
    subst ht
    cases hwa : walkAccess s ctx va a sup with
    | mk r s' =>
      rw [hwa] at hw
      cases r with
      | error f => exact hw.trans (walked_setCore _ _ _)
      | ok pa =>
        dsimp only
        split
        · exact hw.trans (walked_setCore _ _ _)
        · exact hw
  unfold translate
  dsimp only
  split
  · exact .refl _
  · split
    · split
      · exact walked_setCore _ _ _
      · split
        · exact refill _ rfl
        · exact .refl _
    · exact refill _ rfl

/-- One lane of a translation: its page's earlier lookup, or one lookup. -/
def translateStep (u : Iss) (a : Access) (va : Nat → DWord)
    (acc : State × List (Nat × Nat) × List (Nat × PageFault) × List PageLook) (l : Nat) :
    State × List (Nat × Nat) × List (Nat × PageFault) × List PageLook :=
  let page := (va l).toNat / 0x1_0000
  let (r, s', looks) : Except PageFault Nat × State × List PageLook :=
    match acc.2.2.2.find? (·.1 == page) with
    | some x => (byLook x.2 (va l), acc.1, acc.2.2.2)
    | none =>
      match translate acc.1 u.g.core u.ctx (va l) a u.g.inHandler with
      | (.ok pa, s') => (.ok pa, s', (page, .ok (pa - (va l).toNat % 0x1_0000)) :: acc.2.2.2)
      | (.error e, s') => (.error e, s', (page, .error e) :: acc.2.2.2)
  match r with
  | .ok pa => (s', acc.2.1 ++ [(l, pa)], acc.2.2.1, looks)
  | .error e => (s', acc.2.1, acc.2.2.1 ++ [(l, e)], looks)

theorem translateLanes_steps (s : State) (u : Iss) (a : Access) (ls : List Nat) (va : Nat → DWord) :
    translateLanes s u a ls va =
      (let r := ls.foldl (translateStep u a va) (s, [], [], [])
       (r.1, r.2.1, r.2.2.1)) := rfl

theorem walked_step (u : Iss) (a : Access) (va : Nat → DWord)
    (acc : State × List (Nat × Nat) × List (Nat × PageFault) × List PageLook) (l : Nat) :
    Walked acc.1 (translateStep u a va acc l).1 := by
  have hw := walked_translate acc.1 u.g.core u.ctx (va l) a u.g.inHandler
  unfold translateStep
  dsimp only
  cases List.find? (fun x => x.1 == (va l).toNat / 0x1_0000) acc.2.2.2 with
  | some x =>
    dsimp only
    cases byLook x.2 (va l) <;> exact .refl _
  | none =>
    cases htr : translate acc.1 u.g.core u.ctx (va l) a u.g.inHandler with
    | mk r s' =>
      rw [htr] at hw
      cases r <;> exact hw

/-- A lane is translated, or its fault is listed. -/
theorem step_lane (u : Iss) (a : Access) (va : Nat → DWord)
    (acc : State × List (Nat × Nat) × List (Nat × PageFault) × List PageLook) (l : Nat) :
    ((translateStep u a va acc l).2.2.1 = acc.2.2.1 ∧ ∃ pa, (translateStep u a va acc l).2.1 = acc.2.1 ++ [(l, pa)]) ∨
    ∃ e, (translateStep u a va acc l).2.2.1 = acc.2.2.1 ++ [(l, e)] := by
  unfold translateStep
  dsimp only
  cases List.find? (fun x => x.1 == (va l).toNat / 0x1_0000) acc.2.2.2 with
  | some x =>
    dsimp only
    cases byLook x.2 (va l) with
    | error e => exact .inr ⟨e, rfl⟩
    | ok pa => exact .inl ⟨rfl, pa, rfl⟩
  | none =>
    cases htr : translate acc.1 u.g.core u.ctx (va l) a u.g.inHandler with
    | mk r s' =>
      cases r with
      | error e => exact .inr ⟨e, rfl⟩
      | ok pa => exact .inl ⟨rfl, pa, rfl⟩

theorem walked_translateLanes (u : Iss) (a : Access) (ls : List Nat) (va : Nat → DWord) (s : State) :
    Walked s (translateLanes s u a ls va).1 := by
  rw [translateLanes_steps]
  have gen : ∀ (ls : List Nat) (acc : State × List (Nat × Nat) × List (Nat × PageFault) × List PageLook),
      Walked acc.1 (ls.foldl (translateStep u a va) acc).1 := by
    intro ls
    induction ls with
    | nil => intro acc; exact .refl _
    | cons l t ih => intro acc; exact (walked_step u a va acc l).trans (ih _)
  exact gen ls (s, [], [], [])

/-- The lanes of a translation that met no fault. -/
theorem translateLanes_lanes (u : Iss) (a : Access) (ls : List Nat) (va : Nat → DWord) (s : State)
    (h : (translateLanes s u a ls va).2.2 = []) : (translateLanes s u a ls va).2.1.map Prod.fst = ls := by
  rw [translateLanes_steps] at *
  have gen : ∀ (ls : List Nat) (acc : State × List (Nat × Nat) × List (Nat × PageFault) × List PageLook),
      (ls.foldl (translateStep u a va) acc).2.2.1 = [] →
      acc.2.2.1 = [] ∧ (ls.foldl (translateStep u a va) acc).2.1.map Prod.fst = acc.2.1.map Prod.fst ++ ls := by
    intro ls
    induction ls with
    | nil => intro acc h; exact ⟨h, by simp⟩
    | cons l t ih =>
      intro acc h
      obtain ⟨h1, h2⟩ := ih _ h
      rcases step_lane u a va acc l with ⟨e1, pa, e2⟩ | ⟨e, e1⟩
      · refine ⟨e1 ▸ h1, ?_⟩
        rw [List.foldl_cons, h2, e2]; simp
      · rw [e1] at h1; simp at h1
  have := (gen ls (s, [], [], []) h).2
  rw [List.map_nil, List.nil_append] at this
  exact this

theorem walked_groupOf {s t : State} (h : Walked s t) (n : Nat) : groupOf t n = groupOf s n := by
  have := congrArg State.groups h.1
  simp only at this
  simp [groupOf, this]

theorem launched_addOp {s1 : State} {u : Iss} (hg : groupOf u.s u.g.gid = some u.g) (hw : Walked u.s s1) (kind : OpKind)
    (acq rel : Bool) (sc : Scope) (cls : Option EngClass) (es : List Elem) :
    Launched u s1 (addOp u s1 kind acq rel sc cls es) cls (mkOp u s1 kind acq rel sc es).1 := by
  have hops : s1.ops = u.s.ops := by
    have := congrArg State.ops hw.1; simpa using this
  have hgr := walked_groupOf hw u.g.gid
  rw [hg] at hgr
  cases cls with
  | none =>
    refine ⟨hw, ?_, ⟨rfl, rfl, rfl, rfl, rfl, rfl, rfl, rfl, rfl⟩, ?_, fun n _ => ?_, rfl⟩
    · show s1.ops ++ _ = _; rw [hops]; rfl
    · show groupOf s1 u.g.gid = _
      rw [hgr]; simp
    · exact walked_groupOf hw n
  | some c =>
    obtain ⟨s2, hs2⟩ : ∃ s2 : State, s2 = { s1 with ops := s1.ops ++ [(mkOp u s1 kind acq rel sc es).1], nextId := s1.nextId + 1 } :=
      ⟨_, rfl⟩
    have hg2 : groupOf s2 u.g.gid = some u.g := by rw [hs2]; exact hgr
    have e : addOp u s1 kind acq rel sc (some c) es = setGroup s2 (engAdd u.g c (mkOp u s1 kind acq rel sc es).1.id) := by
      rw [← updGroup_eq hg2 (engAdd · c (mkOp u s1 kind acq rel sc es).1.id), hs2]; rfl
    rw [e]
    refine ⟨hw, ?_, ⟨rfl, rfl, rfl, rfl, rfl, rfl, rfl, rfl, rfl⟩, groupOf_setGroup hg2 rfl, fun n hn => ?_, ?_⟩
    · rw [hs2]; show s1.ops ++ _ = _; rw [hops]
    · rw [groupOf_setGroup_other (by exact hn), hs2]; exact walked_groupOf hw n
    · rw [hs2]; rfl

theorem walked_accessLanes {u : Iss} {sp : Space} {a : Access} {ls : List Nat} {ea : Nat → DWord} {al n : Nat} {s1 : State}
    {ps : List (Nat × DWord × Option Nat)} (h : accessLanes u sp a ls ea al n = .ok (s1, ps)) :
    Walked u.s s1 ∧ ps.map (fun p => (p.1, p.2.1)) = ls.map (fun l => (l, accessVA u sp (ea l))) ∧
      addrTrap u sp ls ea al n = none ∧ (sp = .scratch → s1 = u.s) := by
  unfold accessLanes at h
  split at h
  · cases h
  · rename_i ht
    have gen : ∀ va : Nat → DWord, (∀ l, va l = accessVA u sp (ea l)) →
        (match translateLanes u.s u a ls va with
         | (s, pas, fs) => if fs.isEmpty then Except.ok (s, pas.map fun x => (x.1, va x.1, some x.2)) else Except.error (pageTrap s fs)) =
          (Except.ok (s1, ps) : Except Eff (State × List (Nat × DWord × Option Nat))) →
        Walked u.s s1 ∧ ps.map (fun p => (p.1, p.2.1)) = ls.map (fun l => (l, accessVA u sp (ea l))) := by
      intro va hva h
      have hw := walked_translateLanes u a ls va u.s
      have hl := translateLanes_lanes u a ls va u.s
      cases htr : translateLanes u.s u a ls va with
      | mk s' r =>
        obtain ⟨pas, fs⟩ := r
        rw [htr] at h hw hl
        simp only at h hw hl
        split at h
        · rename_i he
          simp only [Except.ok.injEq, Prod.mk.injEq] at h
          obtain ⟨rfl, rfl⟩ := h
          refine ⟨hw, ?_⟩
          have := hl (by simpa using he)
          rw [List.map_map, ← this, List.map_map]
          apply List.map_congr_left
          intro x _
          simp [hva]
        · cases h
    cases sp with
    | scratch =>
      simp only [Except.ok.injEq, Prod.mk.injEq] at h
      obtain ⟨rfl, rfl⟩ := h
      refine ⟨.refl _, ?_, ht, fun _ => rfl⟩
      rw [List.map_map]; rfl
    | global => exact ⟨(gen _ (fun _ => rfl) h).1, (gen _ (fun _ => rfl) h).2, ht, fun e => by cases e⟩
    | priv => exact ⟨(gen _ (fun _ => rfl) h).1, (gen _ (fun _ => rfl) h).2, ht, fun e => by cases e⟩

end Sys2Proof.Machine
end

