-- ==== Sys2Proof/Laws/State.lean ====
section
/-!
SUPPORT. What each update of the state leaves as it was, one lemma per field: the setters of Machine/Ops.lean, of a core, and of memory.
-/
namespace Sys2Proof.Machine

/-! `setGroup` -/

@[simp] theorem setGroup_clock (s : State) (g : Group) : (setGroup s g).clock = s.clock := rfl
@[simp] theorem setGroup_mem (s : State) (g : Group) : (setGroup s g).mem = s.mem := rfl
@[simp] theorem setGroup_badGranules (s : State) (g : Group) : (setGroup s g).badGranules = s.badGranules := rfl
@[simp] theorem setGroup_remote (s : State) (g : Group) : (setGroup s g).remote = s.remote := rfl
@[simp] theorem setGroup_dies (s : State) (g : Group) : (setGroup s g).dies = s.dies := rfl
@[simp] theorem setGroup_cores (s : State) (g : Group) : (setGroup s g).cores = s.cores := rfl
@[simp] theorem setGroup_rings (s : State) (g : Group) : (setGroup s g).rings = s.rings := rfl
@[simp] theorem setGroup_contexts (s : State) (g : Group) : (setGroup s g).contexts = s.contexts := rfl
@[simp] theorem setGroup_queues (s : State) (g : Group) : (setGroup s g).queues = s.queues := rfl
@[simp] theorem setGroup_grids (s : State) (g : Group) : (setGroup s g).grids = s.grids := rfl
@[simp] theorem setGroup_teams (s : State) (g : Group) : (setGroup s g).teams = s.teams := rfl
@[simp] theorem setGroup_handles (s : State) (g : Group) : (setGroup s g).handles = s.handles := rfl
@[simp] theorem setGroup_ops (s : State) (g : Group) : (setGroup s g).ops = s.ops := rfl
@[simp] theorem setGroup_fences (s : State) (g : Group) : (setGroup s g).fences = s.fences := rfl
@[simp] theorem setGroup_copies (s : State) (g : Group) : (setGroup s g).copies = s.copies := rfl
@[simp] theorem setGroup_blocks (s : State) (g : Group) : (setGroup s g).blocks = s.blocks := rfl
@[simp] theorem setGroup_joinZeros (s : State) (g : Group) : (setGroup s g).joinZeros = s.joinZeros := rfl
@[simp] theorem setGroup_deferredRecs (s : State) (g : Group) : (setGroup s g).deferredRecs = s.deferredRecs := rfl
@[simp] theorem setGroup_checks (s : State) (g : Group) : (setGroup s g).checks = s.checks := rfl
@[simp] theorem setGroup_records (s : State) (g : Group) : (setGroup s g).records = s.records := rfl
@[simp] theorem setGroup_undelivered (s : State) (g : Group) : (setGroup s g).undelivered = s.undelivered := rfl
@[simp] theorem setGroup_sredGroups (s : State) (g : Group) : (setGroup s g).sredGroups = s.sredGroups := rfl
@[simp] theorem setGroup_sredInsts (s : State) (g : Group) : (setGroup s g).sredInsts = s.sredInsts := rfl
@[simp] theorem setGroup_mgmtBase (s : State) (g : Group) : (setGroup s g).mgmtBase = s.mgmtBase := rfl
@[simp] theorem setGroup_mgmtHead (s : State) (g : Group) : (setGroup s g).mgmtHead = s.mgmtHead := rfl
@[simp] theorem setGroup_mgmtVec (s : State) (g : Group) : (setGroup s g).mgmtVec = s.mgmtVec := rfl
@[simp] theorem setGroup_irqs (s : State) (g : Group) : (setGroup s g).irqs = s.irqs := rfl
@[simp] theorem setGroup_thermal (s : State) (g : Group) : (setGroup s g).thermal = s.thermal := rfl
@[simp] theorem setGroup_powerCap (s : State) (g : Group) : (setGroup s g).powerCap = s.powerCap := rfl
@[simp] theorem setGroup_powered (s : State) (g : Group) : (setGroup s g).powered = s.powered := rfl
@[simp] theorem setGroup_lastCore (s : State) (g : Group) : (setGroup s g).lastCore = s.lastCore := rfl
@[simp] theorem setGroup_lastQueue (s : State) (g : Group) : (setGroup s g).lastQueue = s.lastQueue := rfl
@[simp] theorem setGroup_hostReads (s : State) (g : Group) : (setGroup s g).hostReads = s.hostReads := rfl
@[simp] theorem setGroup_remoteReads (s : State) (g : Group) : (setGroup s g).remoteReads = s.remoteReads := rfl
@[simp] theorem setGroup_turns (s : State) (g : Group) : (setGroup s g).turns = s.turns := rfl
@[simp] theorem setGroup_freeCtr (s : State) (g : Group) : (setGroup s g).freeCtr = s.freeCtr := rfl
@[simp] theorem setGroup_nextId (s : State) (g : Group) : (setGroup s g).nextId = s.nextId := rfl
@[simp] theorem setGroup_boots (s : State) (g : Group) : (setGroup s g).boots = s.boots := rfl
@[simp] theorem setGroup_cur (s : State) (g : Group) : (setGroup s g).cur = s.cur := rfl
@[simp] theorem teamOf_setGroup (s : State) (g : Group) (i : Nat) : teamOf (setGroup s g) i = teamOf s i := rfl
@[simp] theorem gridOf_setGroup (s : State) (g : Group) (i : Nat) : gridOf (setGroup s g) i = gridOf s i := rfl
@[simp] theorem queueOf_setGroup (s : State) (g : Group) (i : Nat) : queueOf (setGroup s g) i = queueOf s i := rfl
@[simp] theorem ctxOf_setGroup (s : State) (g : Group) (i : Nat) : ctxOf (setGroup s g) i = ctxOf s i := rfl
@[simp] theorem copyOf_setGroup (s : State) (g : Group) (i : Nat) : copyOf (setGroup s g) i = copyOf s i := rfl
@[simp] theorem opOf_setGroup (s : State) (g : Group) (i : Nat) : opOf (setGroup s g) i = opOf s i := rfl
@[simp] theorem handleOf_setGroup (s : State) (g : Group) (i : Nat) : handleOf (setGroup s g) i = handleOf s i := rfl
@[simp] theorem coreOf_setGroup (s : State) (g : Group) (i : Nat) : coreOf (setGroup s g) i = coreOf s i := rfl

/-! `setTeam` -/

@[simp] theorem setTeam_clock (s : State) (t : Team) : (setTeam s t).clock = s.clock := rfl
@[simp] theorem setTeam_mem (s : State) (t : Team) : (setTeam s t).mem = s.mem := rfl
@[simp] theorem setTeam_badGranules (s : State) (t : Team) : (setTeam s t).badGranules = s.badGranules := rfl
@[simp] theorem setTeam_remote (s : State) (t : Team) : (setTeam s t).remote = s.remote := rfl
@[simp] theorem setTeam_dies (s : State) (t : Team) : (setTeam s t).dies = s.dies := rfl
@[simp] theorem setTeam_cores (s : State) (t : Team) : (setTeam s t).cores = s.cores := rfl
@[simp] theorem setTeam_rings (s : State) (t : Team) : (setTeam s t).rings = s.rings := rfl
@[simp] theorem setTeam_contexts (s : State) (t : Team) : (setTeam s t).contexts = s.contexts := rfl
@[simp] theorem setTeam_queues (s : State) (t : Team) : (setTeam s t).queues = s.queues := rfl
@[simp] theorem setTeam_grids (s : State) (t : Team) : (setTeam s t).grids = s.grids := rfl
@[simp] theorem setTeam_groups (s : State) (t : Team) : (setTeam s t).groups = s.groups := rfl
@[simp] theorem setTeam_handles (s : State) (t : Team) : (setTeam s t).handles = s.handles := rfl
@[simp] theorem setTeam_ops (s : State) (t : Team) : (setTeam s t).ops = s.ops := rfl
@[simp] theorem setTeam_fences (s : State) (t : Team) : (setTeam s t).fences = s.fences := rfl
@[simp] theorem setTeam_copies (s : State) (t : Team) : (setTeam s t).copies = s.copies := rfl
@[simp] theorem setTeam_blocks (s : State) (t : Team) : (setTeam s t).blocks = s.blocks := rfl
@[simp] theorem setTeam_joinZeros (s : State) (t : Team) : (setTeam s t).joinZeros = s.joinZeros := rfl
@[simp] theorem setTeam_deferredRecs (s : State) (t : Team) : (setTeam s t).deferredRecs = s.deferredRecs := rfl
@[simp] theorem setTeam_checks (s : State) (t : Team) : (setTeam s t).checks = s.checks := rfl
@[simp] theorem setTeam_records (s : State) (t : Team) : (setTeam s t).records = s.records := rfl
@[simp] theorem setTeam_undelivered (s : State) (t : Team) : (setTeam s t).undelivered = s.undelivered := rfl
@[simp] theorem setTeam_sredGroups (s : State) (t : Team) : (setTeam s t).sredGroups = s.sredGroups := rfl
@[simp] theorem setTeam_sredInsts (s : State) (t : Team) : (setTeam s t).sredInsts = s.sredInsts := rfl
@[simp] theorem setTeam_mgmtBase (s : State) (t : Team) : (setTeam s t).mgmtBase = s.mgmtBase := rfl
@[simp] theorem setTeam_mgmtHead (s : State) (t : Team) : (setTeam s t).mgmtHead = s.mgmtHead := rfl
@[simp] theorem setTeam_mgmtVec (s : State) (t : Team) : (setTeam s t).mgmtVec = s.mgmtVec := rfl
@[simp] theorem setTeam_irqs (s : State) (t : Team) : (setTeam s t).irqs = s.irqs := rfl
@[simp] theorem setTeam_thermal (s : State) (t : Team) : (setTeam s t).thermal = s.thermal := rfl
@[simp] theorem setTeam_powerCap (s : State) (t : Team) : (setTeam s t).powerCap = s.powerCap := rfl
@[simp] theorem setTeam_powered (s : State) (t : Team) : (setTeam s t).powered = s.powered := rfl
@[simp] theorem setTeam_lastCore (s : State) (t : Team) : (setTeam s t).lastCore = s.lastCore := rfl
@[simp] theorem setTeam_lastQueue (s : State) (t : Team) : (setTeam s t).lastQueue = s.lastQueue := rfl
@[simp] theorem setTeam_hostReads (s : State) (t : Team) : (setTeam s t).hostReads = s.hostReads := rfl
@[simp] theorem setTeam_remoteReads (s : State) (t : Team) : (setTeam s t).remoteReads = s.remoteReads := rfl
@[simp] theorem setTeam_turns (s : State) (t : Team) : (setTeam s t).turns = s.turns := rfl
@[simp] theorem setTeam_freeCtr (s : State) (t : Team) : (setTeam s t).freeCtr = s.freeCtr := rfl
@[simp] theorem setTeam_nextId (s : State) (t : Team) : (setTeam s t).nextId = s.nextId := rfl
@[simp] theorem setTeam_boots (s : State) (t : Team) : (setTeam s t).boots = s.boots := rfl
@[simp] theorem setTeam_cur (s : State) (t : Team) : (setTeam s t).cur = s.cur := rfl
@[simp] theorem groupOf_setTeam (s : State) (t : Team) (i : Nat) : groupOf (setTeam s t) i = groupOf s i := rfl
@[simp] theorem gridOf_setTeam (s : State) (t : Team) (i : Nat) : gridOf (setTeam s t) i = gridOf s i := rfl
@[simp] theorem queueOf_setTeam (s : State) (t : Team) (i : Nat) : queueOf (setTeam s t) i = queueOf s i := rfl
@[simp] theorem ctxOf_setTeam (s : State) (t : Team) (i : Nat) : ctxOf (setTeam s t) i = ctxOf s i := rfl
@[simp] theorem copyOf_setTeam (s : State) (t : Team) (i : Nat) : copyOf (setTeam s t) i = copyOf s i := rfl
@[simp] theorem opOf_setTeam (s : State) (t : Team) (i : Nat) : opOf (setTeam s t) i = opOf s i := rfl
@[simp] theorem handleOf_setTeam (s : State) (t : Team) (i : Nat) : handleOf (setTeam s t) i = handleOf s i := rfl
@[simp] theorem coreOf_setTeam (s : State) (t : Team) (i : Nat) : coreOf (setTeam s t) i = coreOf s i := rfl

/-! `setGrid` -/

@[simp] theorem setGrid_clock (s : State) (g : Grid) : (setGrid s g).clock = s.clock := rfl
@[simp] theorem setGrid_mem (s : State) (g : Grid) : (setGrid s g).mem = s.mem := rfl
@[simp] theorem setGrid_badGranules (s : State) (g : Grid) : (setGrid s g).badGranules = s.badGranules := rfl
@[simp] theorem setGrid_remote (s : State) (g : Grid) : (setGrid s g).remote = s.remote := rfl
@[simp] theorem setGrid_dies (s : State) (g : Grid) : (setGrid s g).dies = s.dies := rfl
@[simp] theorem setGrid_cores (s : State) (g : Grid) : (setGrid s g).cores = s.cores := rfl
@[simp] theorem setGrid_rings (s : State) (g : Grid) : (setGrid s g).rings = s.rings := rfl
@[simp] theorem setGrid_contexts (s : State) (g : Grid) : (setGrid s g).contexts = s.contexts := rfl
@[simp] theorem setGrid_queues (s : State) (g : Grid) : (setGrid s g).queues = s.queues := rfl
@[simp] theorem setGrid_teams (s : State) (g : Grid) : (setGrid s g).teams = s.teams := rfl
@[simp] theorem setGrid_groups (s : State) (g : Grid) : (setGrid s g).groups = s.groups := rfl
@[simp] theorem setGrid_handles (s : State) (g : Grid) : (setGrid s g).handles = s.handles := rfl
@[simp] theorem setGrid_ops (s : State) (g : Grid) : (setGrid s g).ops = s.ops := rfl
@[simp] theorem setGrid_fences (s : State) (g : Grid) : (setGrid s g).fences = s.fences := rfl
@[simp] theorem setGrid_copies (s : State) (g : Grid) : (setGrid s g).copies = s.copies := rfl
@[simp] theorem setGrid_blocks (s : State) (g : Grid) : (setGrid s g).blocks = s.blocks := rfl
@[simp] theorem setGrid_joinZeros (s : State) (g : Grid) : (setGrid s g).joinZeros = s.joinZeros := rfl
@[simp] theorem setGrid_deferredRecs (s : State) (g : Grid) : (setGrid s g).deferredRecs = s.deferredRecs := rfl
@[simp] theorem setGrid_checks (s : State) (g : Grid) : (setGrid s g).checks = s.checks := rfl
@[simp] theorem setGrid_records (s : State) (g : Grid) : (setGrid s g).records = s.records := rfl
@[simp] theorem setGrid_undelivered (s : State) (g : Grid) : (setGrid s g).undelivered = s.undelivered := rfl
@[simp] theorem setGrid_sredGroups (s : State) (g : Grid) : (setGrid s g).sredGroups = s.sredGroups := rfl
@[simp] theorem setGrid_sredInsts (s : State) (g : Grid) : (setGrid s g).sredInsts = s.sredInsts := rfl
@[simp] theorem setGrid_mgmtBase (s : State) (g : Grid) : (setGrid s g).mgmtBase = s.mgmtBase := rfl
@[simp] theorem setGrid_mgmtHead (s : State) (g : Grid) : (setGrid s g).mgmtHead = s.mgmtHead := rfl
@[simp] theorem setGrid_mgmtVec (s : State) (g : Grid) : (setGrid s g).mgmtVec = s.mgmtVec := rfl
@[simp] theorem setGrid_irqs (s : State) (g : Grid) : (setGrid s g).irqs = s.irqs := rfl
@[simp] theorem setGrid_thermal (s : State) (g : Grid) : (setGrid s g).thermal = s.thermal := rfl
@[simp] theorem setGrid_powerCap (s : State) (g : Grid) : (setGrid s g).powerCap = s.powerCap := rfl
@[simp] theorem setGrid_powered (s : State) (g : Grid) : (setGrid s g).powered = s.powered := rfl
@[simp] theorem setGrid_lastCore (s : State) (g : Grid) : (setGrid s g).lastCore = s.lastCore := rfl
@[simp] theorem setGrid_lastQueue (s : State) (g : Grid) : (setGrid s g).lastQueue = s.lastQueue := rfl
@[simp] theorem setGrid_hostReads (s : State) (g : Grid) : (setGrid s g).hostReads = s.hostReads := rfl
@[simp] theorem setGrid_remoteReads (s : State) (g : Grid) : (setGrid s g).remoteReads = s.remoteReads := rfl
@[simp] theorem setGrid_turns (s : State) (g : Grid) : (setGrid s g).turns = s.turns := rfl
@[simp] theorem setGrid_freeCtr (s : State) (g : Grid) : (setGrid s g).freeCtr = s.freeCtr := rfl
@[simp] theorem setGrid_nextId (s : State) (g : Grid) : (setGrid s g).nextId = s.nextId := rfl
@[simp] theorem setGrid_boots (s : State) (g : Grid) : (setGrid s g).boots = s.boots := rfl
@[simp] theorem setGrid_cur (s : State) (g : Grid) : (setGrid s g).cur = s.cur := rfl
@[simp] theorem groupOf_setGrid (s : State) (g : Grid) (i : Nat) : groupOf (setGrid s g) i = groupOf s i := rfl
@[simp] theorem teamOf_setGrid (s : State) (g : Grid) (i : Nat) : teamOf (setGrid s g) i = teamOf s i := rfl
@[simp] theorem queueOf_setGrid (s : State) (g : Grid) (i : Nat) : queueOf (setGrid s g) i = queueOf s i := rfl
@[simp] theorem ctxOf_setGrid (s : State) (g : Grid) (i : Nat) : ctxOf (setGrid s g) i = ctxOf s i := rfl
@[simp] theorem copyOf_setGrid (s : State) (g : Grid) (i : Nat) : copyOf (setGrid s g) i = copyOf s i := rfl
@[simp] theorem opOf_setGrid (s : State) (g : Grid) (i : Nat) : opOf (setGrid s g) i = opOf s i := rfl
@[simp] theorem handleOf_setGrid (s : State) (g : Grid) (i : Nat) : handleOf (setGrid s g) i = handleOf s i := rfl
@[simp] theorem coreOf_setGrid (s : State) (g : Grid) (i : Nat) : coreOf (setGrid s g) i = coreOf s i := rfl

/-! `setQueue` -/

@[simp] theorem setQueue_clock (s : State) (q : Queue) : (setQueue s q).clock = s.clock := rfl
@[simp] theorem setQueue_mem (s : State) (q : Queue) : (setQueue s q).mem = s.mem := rfl
@[simp] theorem setQueue_badGranules (s : State) (q : Queue) : (setQueue s q).badGranules = s.badGranules := rfl
@[simp] theorem setQueue_remote (s : State) (q : Queue) : (setQueue s q).remote = s.remote := rfl
@[simp] theorem setQueue_dies (s : State) (q : Queue) : (setQueue s q).dies = s.dies := rfl
@[simp] theorem setQueue_cores (s : State) (q : Queue) : (setQueue s q).cores = s.cores := rfl
@[simp] theorem setQueue_rings (s : State) (q : Queue) : (setQueue s q).rings = s.rings := rfl
@[simp] theorem setQueue_contexts (s : State) (q : Queue) : (setQueue s q).contexts = s.contexts := rfl
@[simp] theorem setQueue_grids (s : State) (q : Queue) : (setQueue s q).grids = s.grids := rfl
@[simp] theorem setQueue_teams (s : State) (q : Queue) : (setQueue s q).teams = s.teams := rfl
@[simp] theorem setQueue_groups (s : State) (q : Queue) : (setQueue s q).groups = s.groups := rfl
@[simp] theorem setQueue_handles (s : State) (q : Queue) : (setQueue s q).handles = s.handles := rfl
@[simp] theorem setQueue_ops (s : State) (q : Queue) : (setQueue s q).ops = s.ops := rfl
@[simp] theorem setQueue_fences (s : State) (q : Queue) : (setQueue s q).fences = s.fences := rfl
@[simp] theorem setQueue_copies (s : State) (q : Queue) : (setQueue s q).copies = s.copies := rfl
@[simp] theorem setQueue_blocks (s : State) (q : Queue) : (setQueue s q).blocks = s.blocks := rfl
@[simp] theorem setQueue_joinZeros (s : State) (q : Queue) : (setQueue s q).joinZeros = s.joinZeros := rfl
@[simp] theorem setQueue_deferredRecs (s : State) (q : Queue) : (setQueue s q).deferredRecs = s.deferredRecs := rfl
@[simp] theorem setQueue_checks (s : State) (q : Queue) : (setQueue s q).checks = s.checks := rfl
@[simp] theorem setQueue_records (s : State) (q : Queue) : (setQueue s q).records = s.records := rfl
@[simp] theorem setQueue_undelivered (s : State) (q : Queue) : (setQueue s q).undelivered = s.undelivered := rfl
@[simp] theorem setQueue_sredGroups (s : State) (q : Queue) : (setQueue s q).sredGroups = s.sredGroups := rfl
@[simp] theorem setQueue_sredInsts (s : State) (q : Queue) : (setQueue s q).sredInsts = s.sredInsts := rfl
@[simp] theorem setQueue_mgmtBase (s : State) (q : Queue) : (setQueue s q).mgmtBase = s.mgmtBase := rfl
@[simp] theorem setQueue_mgmtHead (s : State) (q : Queue) : (setQueue s q).mgmtHead = s.mgmtHead := rfl
@[simp] theorem setQueue_mgmtVec (s : State) (q : Queue) : (setQueue s q).mgmtVec = s.mgmtVec := rfl
@[simp] theorem setQueue_irqs (s : State) (q : Queue) : (setQueue s q).irqs = s.irqs := rfl
@[simp] theorem setQueue_thermal (s : State) (q : Queue) : (setQueue s q).thermal = s.thermal := rfl
@[simp] theorem setQueue_powerCap (s : State) (q : Queue) : (setQueue s q).powerCap = s.powerCap := rfl
@[simp] theorem setQueue_powered (s : State) (q : Queue) : (setQueue s q).powered = s.powered := rfl
@[simp] theorem setQueue_lastCore (s : State) (q : Queue) : (setQueue s q).lastCore = s.lastCore := rfl
@[simp] theorem setQueue_lastQueue (s : State) (q : Queue) : (setQueue s q).lastQueue = s.lastQueue := rfl
@[simp] theorem setQueue_hostReads (s : State) (q : Queue) : (setQueue s q).hostReads = s.hostReads := rfl
@[simp] theorem setQueue_remoteReads (s : State) (q : Queue) : (setQueue s q).remoteReads = s.remoteReads := rfl
@[simp] theorem setQueue_turns (s : State) (q : Queue) : (setQueue s q).turns = s.turns := rfl
@[simp] theorem setQueue_freeCtr (s : State) (q : Queue) : (setQueue s q).freeCtr = s.freeCtr := rfl
@[simp] theorem setQueue_nextId (s : State) (q : Queue) : (setQueue s q).nextId = s.nextId := rfl
@[simp] theorem setQueue_boots (s : State) (q : Queue) : (setQueue s q).boots = s.boots := rfl
@[simp] theorem setQueue_cur (s : State) (q : Queue) : (setQueue s q).cur = s.cur := rfl
@[simp] theorem groupOf_setQueue (s : State) (q : Queue) (i : Nat) : groupOf (setQueue s q) i = groupOf s i := rfl
@[simp] theorem teamOf_setQueue (s : State) (q : Queue) (i : Nat) : teamOf (setQueue s q) i = teamOf s i := rfl
@[simp] theorem gridOf_setQueue (s : State) (q : Queue) (i : Nat) : gridOf (setQueue s q) i = gridOf s i := rfl
@[simp] theorem ctxOf_setQueue (s : State) (q : Queue) (i : Nat) : ctxOf (setQueue s q) i = ctxOf s i := rfl
@[simp] theorem copyOf_setQueue (s : State) (q : Queue) (i : Nat) : copyOf (setQueue s q) i = copyOf s i := rfl
@[simp] theorem opOf_setQueue (s : State) (q : Queue) (i : Nat) : opOf (setQueue s q) i = opOf s i := rfl
@[simp] theorem handleOf_setQueue (s : State) (q : Queue) (i : Nat) : handleOf (setQueue s q) i = handleOf s i := rfl
@[simp] theorem coreOf_setQueue (s : State) (q : Queue) (i : Nat) : coreOf (setQueue s q) i = coreOf s i := rfl

/-! `setCtx` -/

@[simp] theorem setCtx_clock (s : State) (c : Context) : (setCtx s c).clock = s.clock := rfl
@[simp] theorem setCtx_mem (s : State) (c : Context) : (setCtx s c).mem = s.mem := rfl
@[simp] theorem setCtx_badGranules (s : State) (c : Context) : (setCtx s c).badGranules = s.badGranules := rfl
@[simp] theorem setCtx_remote (s : State) (c : Context) : (setCtx s c).remote = s.remote := rfl
@[simp] theorem setCtx_dies (s : State) (c : Context) : (setCtx s c).dies = s.dies := rfl
@[simp] theorem setCtx_cores (s : State) (c : Context) : (setCtx s c).cores = s.cores := rfl
@[simp] theorem setCtx_rings (s : State) (c : Context) : (setCtx s c).rings = s.rings := rfl
@[simp] theorem setCtx_queues (s : State) (c : Context) : (setCtx s c).queues = s.queues := rfl
@[simp] theorem setCtx_grids (s : State) (c : Context) : (setCtx s c).grids = s.grids := rfl
@[simp] theorem setCtx_teams (s : State) (c : Context) : (setCtx s c).teams = s.teams := rfl
@[simp] theorem setCtx_groups (s : State) (c : Context) : (setCtx s c).groups = s.groups := rfl
@[simp] theorem setCtx_handles (s : State) (c : Context) : (setCtx s c).handles = s.handles := rfl
@[simp] theorem setCtx_ops (s : State) (c : Context) : (setCtx s c).ops = s.ops := rfl
@[simp] theorem setCtx_fences (s : State) (c : Context) : (setCtx s c).fences = s.fences := rfl
@[simp] theorem setCtx_copies (s : State) (c : Context) : (setCtx s c).copies = s.copies := rfl
@[simp] theorem setCtx_blocks (s : State) (c : Context) : (setCtx s c).blocks = s.blocks := rfl
@[simp] theorem setCtx_joinZeros (s : State) (c : Context) : (setCtx s c).joinZeros = s.joinZeros := rfl
@[simp] theorem setCtx_deferredRecs (s : State) (c : Context) : (setCtx s c).deferredRecs = s.deferredRecs := rfl
@[simp] theorem setCtx_checks (s : State) (c : Context) : (setCtx s c).checks = s.checks := rfl
@[simp] theorem setCtx_records (s : State) (c : Context) : (setCtx s c).records = s.records := rfl
@[simp] theorem setCtx_undelivered (s : State) (c : Context) : (setCtx s c).undelivered = s.undelivered := rfl
@[simp] theorem setCtx_sredGroups (s : State) (c : Context) : (setCtx s c).sredGroups = s.sredGroups := rfl
@[simp] theorem setCtx_sredInsts (s : State) (c : Context) : (setCtx s c).sredInsts = s.sredInsts := rfl
@[simp] theorem setCtx_mgmtBase (s : State) (c : Context) : (setCtx s c).mgmtBase = s.mgmtBase := rfl
@[simp] theorem setCtx_mgmtHead (s : State) (c : Context) : (setCtx s c).mgmtHead = s.mgmtHead := rfl
@[simp] theorem setCtx_mgmtVec (s : State) (c : Context) : (setCtx s c).mgmtVec = s.mgmtVec := rfl
@[simp] theorem setCtx_irqs (s : State) (c : Context) : (setCtx s c).irqs = s.irqs := rfl
@[simp] theorem setCtx_thermal (s : State) (c : Context) : (setCtx s c).thermal = s.thermal := rfl
@[simp] theorem setCtx_powerCap (s : State) (c : Context) : (setCtx s c).powerCap = s.powerCap := rfl
@[simp] theorem setCtx_powered (s : State) (c : Context) : (setCtx s c).powered = s.powered := rfl
@[simp] theorem setCtx_lastCore (s : State) (c : Context) : (setCtx s c).lastCore = s.lastCore := rfl
@[simp] theorem setCtx_lastQueue (s : State) (c : Context) : (setCtx s c).lastQueue = s.lastQueue := rfl
@[simp] theorem setCtx_hostReads (s : State) (c : Context) : (setCtx s c).hostReads = s.hostReads := rfl
@[simp] theorem setCtx_remoteReads (s : State) (c : Context) : (setCtx s c).remoteReads = s.remoteReads := rfl
@[simp] theorem setCtx_turns (s : State) (c : Context) : (setCtx s c).turns = s.turns := rfl
@[simp] theorem setCtx_freeCtr (s : State) (c : Context) : (setCtx s c).freeCtr = s.freeCtr := rfl
@[simp] theorem setCtx_nextId (s : State) (c : Context) : (setCtx s c).nextId = s.nextId := rfl
@[simp] theorem setCtx_boots (s : State) (c : Context) : (setCtx s c).boots = s.boots := rfl
@[simp] theorem setCtx_cur (s : State) (c : Context) : (setCtx s c).cur = s.cur := rfl
@[simp] theorem groupOf_setCtx (s : State) (c : Context) (i : Nat) : groupOf (setCtx s c) i = groupOf s i := rfl
@[simp] theorem teamOf_setCtx (s : State) (c : Context) (i : Nat) : teamOf (setCtx s c) i = teamOf s i := rfl
@[simp] theorem gridOf_setCtx (s : State) (c : Context) (i : Nat) : gridOf (setCtx s c) i = gridOf s i := rfl
@[simp] theorem queueOf_setCtx (s : State) (c : Context) (i : Nat) : queueOf (setCtx s c) i = queueOf s i := rfl
@[simp] theorem copyOf_setCtx (s : State) (c : Context) (i : Nat) : copyOf (setCtx s c) i = copyOf s i := rfl
@[simp] theorem opOf_setCtx (s : State) (c : Context) (i : Nat) : opOf (setCtx s c) i = opOf s i := rfl
@[simp] theorem handleOf_setCtx (s : State) (c : Context) (i : Nat) : handleOf (setCtx s c) i = handleOf s i := rfl
@[simp] theorem coreOf_setCtx (s : State) (c : Context) (i : Nat) : coreOf (setCtx s c) i = coreOf s i := rfl

/-! `setCopy` -/

@[simp] theorem setCopy_clock (s : State) (c : Copy) : (setCopy s c).clock = s.clock := rfl
@[simp] theorem setCopy_mem (s : State) (c : Copy) : (setCopy s c).mem = s.mem := rfl
@[simp] theorem setCopy_badGranules (s : State) (c : Copy) : (setCopy s c).badGranules = s.badGranules := rfl
@[simp] theorem setCopy_remote (s : State) (c : Copy) : (setCopy s c).remote = s.remote := rfl
@[simp] theorem setCopy_dies (s : State) (c : Copy) : (setCopy s c).dies = s.dies := rfl
@[simp] theorem setCopy_cores (s : State) (c : Copy) : (setCopy s c).cores = s.cores := rfl
@[simp] theorem setCopy_rings (s : State) (c : Copy) : (setCopy s c).rings = s.rings := rfl
@[simp] theorem setCopy_contexts (s : State) (c : Copy) : (setCopy s c).contexts = s.contexts := rfl
@[simp] theorem setCopy_queues (s : State) (c : Copy) : (setCopy s c).queues = s.queues := rfl
@[simp] theorem setCopy_grids (s : State) (c : Copy) : (setCopy s c).grids = s.grids := rfl
@[simp] theorem setCopy_teams (s : State) (c : Copy) : (setCopy s c).teams = s.teams := rfl
@[simp] theorem setCopy_groups (s : State) (c : Copy) : (setCopy s c).groups = s.groups := rfl
@[simp] theorem setCopy_handles (s : State) (c : Copy) : (setCopy s c).handles = s.handles := rfl
@[simp] theorem setCopy_ops (s : State) (c : Copy) : (setCopy s c).ops = s.ops := rfl
@[simp] theorem setCopy_fences (s : State) (c : Copy) : (setCopy s c).fences = s.fences := rfl
@[simp] theorem setCopy_blocks (s : State) (c : Copy) : (setCopy s c).blocks = s.blocks := rfl
@[simp] theorem setCopy_joinZeros (s : State) (c : Copy) : (setCopy s c).joinZeros = s.joinZeros := rfl
@[simp] theorem setCopy_deferredRecs (s : State) (c : Copy) : (setCopy s c).deferredRecs = s.deferredRecs := rfl
@[simp] theorem setCopy_checks (s : State) (c : Copy) : (setCopy s c).checks = s.checks := rfl
@[simp] theorem setCopy_records (s : State) (c : Copy) : (setCopy s c).records = s.records := rfl
@[simp] theorem setCopy_undelivered (s : State) (c : Copy) : (setCopy s c).undelivered = s.undelivered := rfl
@[simp] theorem setCopy_sredGroups (s : State) (c : Copy) : (setCopy s c).sredGroups = s.sredGroups := rfl
@[simp] theorem setCopy_sredInsts (s : State) (c : Copy) : (setCopy s c).sredInsts = s.sredInsts := rfl
@[simp] theorem setCopy_mgmtBase (s : State) (c : Copy) : (setCopy s c).mgmtBase = s.mgmtBase := rfl
@[simp] theorem setCopy_mgmtHead (s : State) (c : Copy) : (setCopy s c).mgmtHead = s.mgmtHead := rfl
@[simp] theorem setCopy_mgmtVec (s : State) (c : Copy) : (setCopy s c).mgmtVec = s.mgmtVec := rfl
@[simp] theorem setCopy_irqs (s : State) (c : Copy) : (setCopy s c).irqs = s.irqs := rfl
@[simp] theorem setCopy_thermal (s : State) (c : Copy) : (setCopy s c).thermal = s.thermal := rfl
@[simp] theorem setCopy_powerCap (s : State) (c : Copy) : (setCopy s c).powerCap = s.powerCap := rfl
@[simp] theorem setCopy_powered (s : State) (c : Copy) : (setCopy s c).powered = s.powered := rfl
@[simp] theorem setCopy_lastCore (s : State) (c : Copy) : (setCopy s c).lastCore = s.lastCore := rfl
@[simp] theorem setCopy_lastQueue (s : State) (c : Copy) : (setCopy s c).lastQueue = s.lastQueue := rfl
@[simp] theorem setCopy_hostReads (s : State) (c : Copy) : (setCopy s c).hostReads = s.hostReads := rfl
@[simp] theorem setCopy_remoteReads (s : State) (c : Copy) : (setCopy s c).remoteReads = s.remoteReads := rfl
@[simp] theorem setCopy_turns (s : State) (c : Copy) : (setCopy s c).turns = s.turns := rfl
@[simp] theorem setCopy_freeCtr (s : State) (c : Copy) : (setCopy s c).freeCtr = s.freeCtr := rfl
@[simp] theorem setCopy_nextId (s : State) (c : Copy) : (setCopy s c).nextId = s.nextId := rfl
@[simp] theorem setCopy_boots (s : State) (c : Copy) : (setCopy s c).boots = s.boots := rfl
@[simp] theorem setCopy_cur (s : State) (c : Copy) : (setCopy s c).cur = s.cur := rfl
@[simp] theorem groupOf_setCopy (s : State) (c : Copy) (i : Nat) : groupOf (setCopy s c) i = groupOf s i := rfl
@[simp] theorem teamOf_setCopy (s : State) (c : Copy) (i : Nat) : teamOf (setCopy s c) i = teamOf s i := rfl
@[simp] theorem gridOf_setCopy (s : State) (c : Copy) (i : Nat) : gridOf (setCopy s c) i = gridOf s i := rfl
@[simp] theorem queueOf_setCopy (s : State) (c : Copy) (i : Nat) : queueOf (setCopy s c) i = queueOf s i := rfl
@[simp] theorem ctxOf_setCopy (s : State) (c : Copy) (i : Nat) : ctxOf (setCopy s c) i = ctxOf s i := rfl
@[simp] theorem opOf_setCopy (s : State) (c : Copy) (i : Nat) : opOf (setCopy s c) i = opOf s i := rfl
@[simp] theorem handleOf_setCopy (s : State) (c : Copy) (i : Nat) : handleOf (setCopy s c) i = handleOf s i := rfl
@[simp] theorem coreOf_setCopy (s : State) (c : Copy) (i : Nat) : coreOf (setCopy s c) i = coreOf s i := rfl

/-! `setOp` -/

@[simp] theorem setOp_clock (s : State) (o : Op) : (setOp s o).clock = s.clock := rfl
@[simp] theorem setOp_mem (s : State) (o : Op) : (setOp s o).mem = s.mem := rfl
@[simp] theorem setOp_badGranules (s : State) (o : Op) : (setOp s o).badGranules = s.badGranules := rfl
@[simp] theorem setOp_remote (s : State) (o : Op) : (setOp s o).remote = s.remote := rfl
@[simp] theorem setOp_dies (s : State) (o : Op) : (setOp s o).dies = s.dies := rfl
@[simp] theorem setOp_cores (s : State) (o : Op) : (setOp s o).cores = s.cores := rfl
@[simp] theorem setOp_rings (s : State) (o : Op) : (setOp s o).rings = s.rings := rfl
@[simp] theorem setOp_contexts (s : State) (o : Op) : (setOp s o).contexts = s.contexts := rfl
@[simp] theorem setOp_queues (s : State) (o : Op) : (setOp s o).queues = s.queues := rfl
@[simp] theorem setOp_grids (s : State) (o : Op) : (setOp s o).grids = s.grids := rfl
@[simp] theorem setOp_teams (s : State) (o : Op) : (setOp s o).teams = s.teams := rfl
@[simp] theorem setOp_groups (s : State) (o : Op) : (setOp s o).groups = s.groups := rfl
@[simp] theorem setOp_handles (s : State) (o : Op) : (setOp s o).handles = s.handles := rfl
@[simp] theorem setOp_fences (s : State) (o : Op) : (setOp s o).fences = s.fences := rfl
@[simp] theorem setOp_copies (s : State) (o : Op) : (setOp s o).copies = s.copies := rfl
@[simp] theorem setOp_blocks (s : State) (o : Op) : (setOp s o).blocks = s.blocks := rfl
@[simp] theorem setOp_joinZeros (s : State) (o : Op) : (setOp s o).joinZeros = s.joinZeros := rfl
@[simp] theorem setOp_deferredRecs (s : State) (o : Op) : (setOp s o).deferredRecs = s.deferredRecs := rfl
@[simp] theorem setOp_checks (s : State) (o : Op) : (setOp s o).checks = s.checks := rfl
@[simp] theorem setOp_records (s : State) (o : Op) : (setOp s o).records = s.records := rfl
@[simp] theorem setOp_undelivered (s : State) (o : Op) : (setOp s o).undelivered = s.undelivered := rfl
@[simp] theorem setOp_sredGroups (s : State) (o : Op) : (setOp s o).sredGroups = s.sredGroups := rfl
@[simp] theorem setOp_sredInsts (s : State) (o : Op) : (setOp s o).sredInsts = s.sredInsts := rfl
@[simp] theorem setOp_mgmtBase (s : State) (o : Op) : (setOp s o).mgmtBase = s.mgmtBase := rfl
@[simp] theorem setOp_mgmtHead (s : State) (o : Op) : (setOp s o).mgmtHead = s.mgmtHead := rfl
@[simp] theorem setOp_mgmtVec (s : State) (o : Op) : (setOp s o).mgmtVec = s.mgmtVec := rfl
@[simp] theorem setOp_irqs (s : State) (o : Op) : (setOp s o).irqs = s.irqs := rfl
@[simp] theorem setOp_thermal (s : State) (o : Op) : (setOp s o).thermal = s.thermal := rfl
@[simp] theorem setOp_powerCap (s : State) (o : Op) : (setOp s o).powerCap = s.powerCap := rfl
@[simp] theorem setOp_powered (s : State) (o : Op) : (setOp s o).powered = s.powered := rfl
@[simp] theorem setOp_lastCore (s : State) (o : Op) : (setOp s o).lastCore = s.lastCore := rfl
@[simp] theorem setOp_lastQueue (s : State) (o : Op) : (setOp s o).lastQueue = s.lastQueue := rfl
@[simp] theorem setOp_hostReads (s : State) (o : Op) : (setOp s o).hostReads = s.hostReads := rfl
@[simp] theorem setOp_remoteReads (s : State) (o : Op) : (setOp s o).remoteReads = s.remoteReads := rfl
@[simp] theorem setOp_turns (s : State) (o : Op) : (setOp s o).turns = s.turns := rfl
@[simp] theorem setOp_freeCtr (s : State) (o : Op) : (setOp s o).freeCtr = s.freeCtr := rfl
@[simp] theorem setOp_nextId (s : State) (o : Op) : (setOp s o).nextId = s.nextId := rfl
@[simp] theorem setOp_boots (s : State) (o : Op) : (setOp s o).boots = s.boots := rfl
@[simp] theorem setOp_cur (s : State) (o : Op) : (setOp s o).cur = s.cur := rfl
@[simp] theorem groupOf_setOp (s : State) (o : Op) (i : Nat) : groupOf (setOp s o) i = groupOf s i := rfl
@[simp] theorem teamOf_setOp (s : State) (o : Op) (i : Nat) : teamOf (setOp s o) i = teamOf s i := rfl
@[simp] theorem gridOf_setOp (s : State) (o : Op) (i : Nat) : gridOf (setOp s o) i = gridOf s i := rfl
@[simp] theorem queueOf_setOp (s : State) (o : Op) (i : Nat) : queueOf (setOp s o) i = queueOf s i := rfl
@[simp] theorem ctxOf_setOp (s : State) (o : Op) (i : Nat) : ctxOf (setOp s o) i = ctxOf s i := rfl
@[simp] theorem copyOf_setOp (s : State) (o : Op) (i : Nat) : copyOf (setOp s o) i = copyOf s i := rfl
@[simp] theorem handleOf_setOp (s : State) (o : Op) (i : Nat) : handleOf (setOp s o) i = handleOf s i := rfl
@[simp] theorem coreOf_setOp (s : State) (o : Op) (i : Nat) : coreOf (setOp s o) i = coreOf s i := rfl

/-! `setCore` -/

@[simp] theorem setCore_clock (s : State) (c : Nat) (k : Core) : (setCore s c k).clock = s.clock := rfl
@[simp] theorem setCore_mem (s : State) (c : Nat) (k : Core) : (setCore s c k).mem = s.mem := rfl
@[simp] theorem setCore_badGranules (s : State) (c : Nat) (k : Core) : (setCore s c k).badGranules = s.badGranules := rfl
@[simp] theorem setCore_remote (s : State) (c : Nat) (k : Core) : (setCore s c k).remote = s.remote := rfl
@[simp] theorem setCore_dies (s : State) (c : Nat) (k : Core) : (setCore s c k).dies = s.dies := rfl
@[simp] theorem setCore_rings (s : State) (c : Nat) (k : Core) : (setCore s c k).rings = s.rings := rfl
@[simp] theorem setCore_contexts (s : State) (c : Nat) (k : Core) : (setCore s c k).contexts = s.contexts := rfl
@[simp] theorem setCore_queues (s : State) (c : Nat) (k : Core) : (setCore s c k).queues = s.queues := rfl
@[simp] theorem setCore_grids (s : State) (c : Nat) (k : Core) : (setCore s c k).grids = s.grids := rfl
@[simp] theorem setCore_teams (s : State) (c : Nat) (k : Core) : (setCore s c k).teams = s.teams := rfl
@[simp] theorem setCore_groups (s : State) (c : Nat) (k : Core) : (setCore s c k).groups = s.groups := rfl
@[simp] theorem setCore_handles (s : State) (c : Nat) (k : Core) : (setCore s c k).handles = s.handles := rfl
@[simp] theorem setCore_ops (s : State) (c : Nat) (k : Core) : (setCore s c k).ops = s.ops := rfl
@[simp] theorem setCore_fences (s : State) (c : Nat) (k : Core) : (setCore s c k).fences = s.fences := rfl
@[simp] theorem setCore_copies (s : State) (c : Nat) (k : Core) : (setCore s c k).copies = s.copies := rfl
@[simp] theorem setCore_blocks (s : State) (c : Nat) (k : Core) : (setCore s c k).blocks = s.blocks := rfl
@[simp] theorem setCore_joinZeros (s : State) (c : Nat) (k : Core) : (setCore s c k).joinZeros = s.joinZeros := rfl
@[simp] theorem setCore_deferredRecs (s : State) (c : Nat) (k : Core) : (setCore s c k).deferredRecs = s.deferredRecs := rfl
@[simp] theorem setCore_checks (s : State) (c : Nat) (k : Core) : (setCore s c k).checks = s.checks := rfl
@[simp] theorem setCore_records (s : State) (c : Nat) (k : Core) : (setCore s c k).records = s.records := rfl
@[simp] theorem setCore_undelivered (s : State) (c : Nat) (k : Core) : (setCore s c k).undelivered = s.undelivered := rfl
@[simp] theorem setCore_sredGroups (s : State) (c : Nat) (k : Core) : (setCore s c k).sredGroups = s.sredGroups := rfl
@[simp] theorem setCore_sredInsts (s : State) (c : Nat) (k : Core) : (setCore s c k).sredInsts = s.sredInsts := rfl
@[simp] theorem setCore_mgmtBase (s : State) (c : Nat) (k : Core) : (setCore s c k).mgmtBase = s.mgmtBase := rfl
@[simp] theorem setCore_mgmtHead (s : State) (c : Nat) (k : Core) : (setCore s c k).mgmtHead = s.mgmtHead := rfl
@[simp] theorem setCore_mgmtVec (s : State) (c : Nat) (k : Core) : (setCore s c k).mgmtVec = s.mgmtVec := rfl
@[simp] theorem setCore_irqs (s : State) (c : Nat) (k : Core) : (setCore s c k).irqs = s.irqs := rfl
@[simp] theorem setCore_thermal (s : State) (c : Nat) (k : Core) : (setCore s c k).thermal = s.thermal := rfl
@[simp] theorem setCore_powerCap (s : State) (c : Nat) (k : Core) : (setCore s c k).powerCap = s.powerCap := rfl
@[simp] theorem setCore_powered (s : State) (c : Nat) (k : Core) : (setCore s c k).powered = s.powered := rfl
@[simp] theorem setCore_lastCore (s : State) (c : Nat) (k : Core) : (setCore s c k).lastCore = s.lastCore := rfl
@[simp] theorem setCore_lastQueue (s : State) (c : Nat) (k : Core) : (setCore s c k).lastQueue = s.lastQueue := rfl
@[simp] theorem setCore_hostReads (s : State) (c : Nat) (k : Core) : (setCore s c k).hostReads = s.hostReads := rfl
@[simp] theorem setCore_remoteReads (s : State) (c : Nat) (k : Core) : (setCore s c k).remoteReads = s.remoteReads := rfl
@[simp] theorem setCore_turns (s : State) (c : Nat) (k : Core) : (setCore s c k).turns = s.turns := rfl
@[simp] theorem setCore_freeCtr (s : State) (c : Nat) (k : Core) : (setCore s c k).freeCtr = s.freeCtr := rfl
@[simp] theorem setCore_nextId (s : State) (c : Nat) (k : Core) : (setCore s c k).nextId = s.nextId := rfl
@[simp] theorem setCore_boots (s : State) (c : Nat) (k : Core) : (setCore s c k).boots = s.boots := rfl
@[simp] theorem setCore_cur (s : State) (c : Nat) (k : Core) : (setCore s c k).cur = s.cur := rfl
@[simp] theorem groupOf_setCore (s : State) (c : Nat) (k : Core) (i : Nat) : groupOf (setCore s c k) i = groupOf s i := rfl
@[simp] theorem teamOf_setCore (s : State) (c : Nat) (k : Core) (i : Nat) : teamOf (setCore s c k) i = teamOf s i := rfl
@[simp] theorem gridOf_setCore (s : State) (c : Nat) (k : Core) (i : Nat) : gridOf (setCore s c k) i = gridOf s i := rfl
@[simp] theorem queueOf_setCore (s : State) (c : Nat) (k : Core) (i : Nat) : queueOf (setCore s c k) i = queueOf s i := rfl
@[simp] theorem ctxOf_setCore (s : State) (c : Nat) (k : Core) (i : Nat) : ctxOf (setCore s c k) i = ctxOf s i := rfl
@[simp] theorem copyOf_setCore (s : State) (c : Nat) (k : Core) (i : Nat) : copyOf (setCore s c k) i = copyOf s i := rfl
@[simp] theorem opOf_setCore (s : State) (c : Nat) (k : Core) (i : Nat) : opOf (setCore s c k) i = opOf s i := rfl
@[simp] theorem handleOf_setCore (s : State) (c : Nat) (k : Core) (i : Nat) : handleOf (setCore s c k) i = handleOf s i := rfl

/-! `physWriteBytes` -/

@[simp] theorem physWriteBytes_clock (s : State) (pa : Nat) (bs : List Byte) : (physWriteBytes s pa bs).clock = s.clock := rfl
@[simp] theorem physWriteBytes_remote (s : State) (pa : Nat) (bs : List Byte) : (physWriteBytes s pa bs).remote = s.remote := rfl
@[simp] theorem physWriteBytes_dies (s : State) (pa : Nat) (bs : List Byte) : (physWriteBytes s pa bs).dies = s.dies := rfl
@[simp] theorem physWriteBytes_cores (s : State) (pa : Nat) (bs : List Byte) : (physWriteBytes s pa bs).cores = s.cores := rfl
@[simp] theorem physWriteBytes_rings (s : State) (pa : Nat) (bs : List Byte) : (physWriteBytes s pa bs).rings = s.rings := rfl
@[simp] theorem physWriteBytes_contexts (s : State) (pa : Nat) (bs : List Byte) : (physWriteBytes s pa bs).contexts = s.contexts := rfl
@[simp] theorem physWriteBytes_queues (s : State) (pa : Nat) (bs : List Byte) : (physWriteBytes s pa bs).queues = s.queues := rfl
@[simp] theorem physWriteBytes_grids (s : State) (pa : Nat) (bs : List Byte) : (physWriteBytes s pa bs).grids = s.grids := rfl
@[simp] theorem physWriteBytes_teams (s : State) (pa : Nat) (bs : List Byte) : (physWriteBytes s pa bs).teams = s.teams := rfl
@[simp] theorem physWriteBytes_groups (s : State) (pa : Nat) (bs : List Byte) : (physWriteBytes s pa bs).groups = s.groups := rfl
@[simp] theorem physWriteBytes_handles (s : State) (pa : Nat) (bs : List Byte) : (physWriteBytes s pa bs).handles = s.handles := rfl
@[simp] theorem physWriteBytes_ops (s : State) (pa : Nat) (bs : List Byte) : (physWriteBytes s pa bs).ops = s.ops := rfl
@[simp] theorem physWriteBytes_fences (s : State) (pa : Nat) (bs : List Byte) : (physWriteBytes s pa bs).fences = s.fences := rfl
@[simp] theorem physWriteBytes_copies (s : State) (pa : Nat) (bs : List Byte) : (physWriteBytes s pa bs).copies = s.copies := rfl
@[simp] theorem physWriteBytes_blocks (s : State) (pa : Nat) (bs : List Byte) : (physWriteBytes s pa bs).blocks = s.blocks := rfl
@[simp] theorem physWriteBytes_joinZeros (s : State) (pa : Nat) (bs : List Byte) : (physWriteBytes s pa bs).joinZeros = s.joinZeros := rfl
@[simp] theorem physWriteBytes_deferredRecs (s : State) (pa : Nat) (bs : List Byte) : (physWriteBytes s pa bs).deferredRecs = s.deferredRecs := rfl
@[simp] theorem physWriteBytes_checks (s : State) (pa : Nat) (bs : List Byte) : (physWriteBytes s pa bs).checks = s.checks := rfl
@[simp] theorem physWriteBytes_records (s : State) (pa : Nat) (bs : List Byte) : (physWriteBytes s pa bs).records = s.records := rfl
@[simp] theorem physWriteBytes_undelivered (s : State) (pa : Nat) (bs : List Byte) : (physWriteBytes s pa bs).undelivered = s.undelivered := rfl
@[simp] theorem physWriteBytes_sredGroups (s : State) (pa : Nat) (bs : List Byte) : (physWriteBytes s pa bs).sredGroups = s.sredGroups := rfl
@[simp] theorem physWriteBytes_sredInsts (s : State) (pa : Nat) (bs : List Byte) : (physWriteBytes s pa bs).sredInsts = s.sredInsts := rfl
@[simp] theorem physWriteBytes_mgmtBase (s : State) (pa : Nat) (bs : List Byte) : (physWriteBytes s pa bs).mgmtBase = s.mgmtBase := rfl
@[simp] theorem physWriteBytes_mgmtHead (s : State) (pa : Nat) (bs : List Byte) : (physWriteBytes s pa bs).mgmtHead = s.mgmtHead := rfl
@[simp] theorem physWriteBytes_mgmtVec (s : State) (pa : Nat) (bs : List Byte) : (physWriteBytes s pa bs).mgmtVec = s.mgmtVec := rfl
@[simp] theorem physWriteBytes_irqs (s : State) (pa : Nat) (bs : List Byte) : (physWriteBytes s pa bs).irqs = s.irqs := rfl
@[simp] theorem physWriteBytes_thermal (s : State) (pa : Nat) (bs : List Byte) : (physWriteBytes s pa bs).thermal = s.thermal := rfl
@[simp] theorem physWriteBytes_powerCap (s : State) (pa : Nat) (bs : List Byte) : (physWriteBytes s pa bs).powerCap = s.powerCap := rfl
@[simp] theorem physWriteBytes_powered (s : State) (pa : Nat) (bs : List Byte) : (physWriteBytes s pa bs).powered = s.powered := rfl
@[simp] theorem physWriteBytes_lastCore (s : State) (pa : Nat) (bs : List Byte) : (physWriteBytes s pa bs).lastCore = s.lastCore := rfl
@[simp] theorem physWriteBytes_lastQueue (s : State) (pa : Nat) (bs : List Byte) : (physWriteBytes s pa bs).lastQueue = s.lastQueue := rfl
@[simp] theorem physWriteBytes_hostReads (s : State) (pa : Nat) (bs : List Byte) : (physWriteBytes s pa bs).hostReads = s.hostReads := rfl
@[simp] theorem physWriteBytes_remoteReads (s : State) (pa : Nat) (bs : List Byte) : (physWriteBytes s pa bs).remoteReads = s.remoteReads := rfl
@[simp] theorem physWriteBytes_turns (s : State) (pa : Nat) (bs : List Byte) : (physWriteBytes s pa bs).turns = s.turns := rfl
@[simp] theorem physWriteBytes_freeCtr (s : State) (pa : Nat) (bs : List Byte) : (physWriteBytes s pa bs).freeCtr = s.freeCtr := rfl
@[simp] theorem physWriteBytes_nextId (s : State) (pa : Nat) (bs : List Byte) : (physWriteBytes s pa bs).nextId = s.nextId := rfl
@[simp] theorem physWriteBytes_boots (s : State) (pa : Nat) (bs : List Byte) : (physWriteBytes s pa bs).boots = s.boots := rfl
@[simp] theorem physWriteBytes_cur (s : State) (pa : Nat) (bs : List Byte) : (physWriteBytes s pa bs).cur = s.cur := rfl
@[simp] theorem groupOf_physWriteBytes (s : State) (pa : Nat) (bs : List Byte) (i : Nat) : groupOf (physWriteBytes s pa bs) i = groupOf s i := rfl
@[simp] theorem teamOf_physWriteBytes (s : State) (pa : Nat) (bs : List Byte) (i : Nat) : teamOf (physWriteBytes s pa bs) i = teamOf s i := rfl
@[simp] theorem gridOf_physWriteBytes (s : State) (pa : Nat) (bs : List Byte) (i : Nat) : gridOf (physWriteBytes s pa bs) i = gridOf s i := rfl
@[simp] theorem queueOf_physWriteBytes (s : State) (pa : Nat) (bs : List Byte) (i : Nat) : queueOf (physWriteBytes s pa bs) i = queueOf s i := rfl
@[simp] theorem ctxOf_physWriteBytes (s : State) (pa : Nat) (bs : List Byte) (i : Nat) : ctxOf (physWriteBytes s pa bs) i = ctxOf s i := rfl
@[simp] theorem copyOf_physWriteBytes (s : State) (pa : Nat) (bs : List Byte) (i : Nat) : copyOf (physWriteBytes s pa bs) i = copyOf s i := rfl
@[simp] theorem opOf_physWriteBytes (s : State) (pa : Nat) (bs : List Byte) (i : Nat) : opOf (physWriteBytes s pa bs) i = opOf s i := rfl
@[simp] theorem handleOf_physWriteBytes (s : State) (pa : Nat) (bs : List Byte) (i : Nat) : handleOf (physWriteBytes s pa bs) i = handleOf s i := rfl
@[simp] theorem coreOf_physWriteBytes (s : State) (pa : Nat) (bs : List Byte) (i : Nat) : coreOf (physWriteBytes s pa bs) i = coreOf s i := rfl

/-! `physWrite` -/

@[simp] theorem physWrite_clock (s : State) (pa n v : Nat) : (physWrite s pa n v).clock = s.clock := rfl
@[simp] theorem physWrite_remote (s : State) (pa n v : Nat) : (physWrite s pa n v).remote = s.remote := rfl
@[simp] theorem physWrite_dies (s : State) (pa n v : Nat) : (physWrite s pa n v).dies = s.dies := rfl
@[simp] theorem physWrite_cores (s : State) (pa n v : Nat) : (physWrite s pa n v).cores = s.cores := rfl
@[simp] theorem physWrite_rings (s : State) (pa n v : Nat) : (physWrite s pa n v).rings = s.rings := rfl
@[simp] theorem physWrite_contexts (s : State) (pa n v : Nat) : (physWrite s pa n v).contexts = s.contexts := rfl
@[simp] theorem physWrite_queues (s : State) (pa n v : Nat) : (physWrite s pa n v).queues = s.queues := rfl
@[simp] theorem physWrite_grids (s : State) (pa n v : Nat) : (physWrite s pa n v).grids = s.grids := rfl
@[simp] theorem physWrite_teams (s : State) (pa n v : Nat) : (physWrite s pa n v).teams = s.teams := rfl
@[simp] theorem physWrite_groups (s : State) (pa n v : Nat) : (physWrite s pa n v).groups = s.groups := rfl
@[simp] theorem physWrite_handles (s : State) (pa n v : Nat) : (physWrite s pa n v).handles = s.handles := rfl
@[simp] theorem physWrite_ops (s : State) (pa n v : Nat) : (physWrite s pa n v).ops = s.ops := rfl
@[simp] theorem physWrite_fences (s : State) (pa n v : Nat) : (physWrite s pa n v).fences = s.fences := rfl
@[simp] theorem physWrite_copies (s : State) (pa n v : Nat) : (physWrite s pa n v).copies = s.copies := rfl
@[simp] theorem physWrite_blocks (s : State) (pa n v : Nat) : (physWrite s pa n v).blocks = s.blocks := rfl
@[simp] theorem physWrite_joinZeros (s : State) (pa n v : Nat) : (physWrite s pa n v).joinZeros = s.joinZeros := rfl
@[simp] theorem physWrite_deferredRecs (s : State) (pa n v : Nat) : (physWrite s pa n v).deferredRecs = s.deferredRecs := rfl
@[simp] theorem physWrite_checks (s : State) (pa n v : Nat) : (physWrite s pa n v).checks = s.checks := rfl
@[simp] theorem physWrite_records (s : State) (pa n v : Nat) : (physWrite s pa n v).records = s.records := rfl
@[simp] theorem physWrite_undelivered (s : State) (pa n v : Nat) : (physWrite s pa n v).undelivered = s.undelivered := rfl
@[simp] theorem physWrite_sredGroups (s : State) (pa n v : Nat) : (physWrite s pa n v).sredGroups = s.sredGroups := rfl
@[simp] theorem physWrite_sredInsts (s : State) (pa n v : Nat) : (physWrite s pa n v).sredInsts = s.sredInsts := rfl
@[simp] theorem physWrite_mgmtBase (s : State) (pa n v : Nat) : (physWrite s pa n v).mgmtBase = s.mgmtBase := rfl
@[simp] theorem physWrite_mgmtHead (s : State) (pa n v : Nat) : (physWrite s pa n v).mgmtHead = s.mgmtHead := rfl
@[simp] theorem physWrite_mgmtVec (s : State) (pa n v : Nat) : (physWrite s pa n v).mgmtVec = s.mgmtVec := rfl
@[simp] theorem physWrite_irqs (s : State) (pa n v : Nat) : (physWrite s pa n v).irqs = s.irqs := rfl
@[simp] theorem physWrite_thermal (s : State) (pa n v : Nat) : (physWrite s pa n v).thermal = s.thermal := rfl
@[simp] theorem physWrite_powerCap (s : State) (pa n v : Nat) : (physWrite s pa n v).powerCap = s.powerCap := rfl
@[simp] theorem physWrite_powered (s : State) (pa n v : Nat) : (physWrite s pa n v).powered = s.powered := rfl
@[simp] theorem physWrite_lastCore (s : State) (pa n v : Nat) : (physWrite s pa n v).lastCore = s.lastCore := rfl
@[simp] theorem physWrite_lastQueue (s : State) (pa n v : Nat) : (physWrite s pa n v).lastQueue = s.lastQueue := rfl
@[simp] theorem physWrite_hostReads (s : State) (pa n v : Nat) : (physWrite s pa n v).hostReads = s.hostReads := rfl
@[simp] theorem physWrite_remoteReads (s : State) (pa n v : Nat) : (physWrite s pa n v).remoteReads = s.remoteReads := rfl
@[simp] theorem physWrite_turns (s : State) (pa n v : Nat) : (physWrite s pa n v).turns = s.turns := rfl
@[simp] theorem physWrite_freeCtr (s : State) (pa n v : Nat) : (physWrite s pa n v).freeCtr = s.freeCtr := rfl
@[simp] theorem physWrite_nextId (s : State) (pa n v : Nat) : (physWrite s pa n v).nextId = s.nextId := rfl
@[simp] theorem physWrite_boots (s : State) (pa n v : Nat) : (physWrite s pa n v).boots = s.boots := rfl
@[simp] theorem physWrite_cur (s : State) (pa n v : Nat) : (physWrite s pa n v).cur = s.cur := rfl
@[simp] theorem groupOf_physWrite (s : State) (pa n v : Nat) (i : Nat) : groupOf (physWrite s pa n v) i = groupOf s i := rfl
@[simp] theorem teamOf_physWrite (s : State) (pa n v : Nat) (i : Nat) : teamOf (physWrite s pa n v) i = teamOf s i := rfl
@[simp] theorem gridOf_physWrite (s : State) (pa n v : Nat) (i : Nat) : gridOf (physWrite s pa n v) i = gridOf s i := rfl
@[simp] theorem queueOf_physWrite (s : State) (pa n v : Nat) (i : Nat) : queueOf (physWrite s pa n v) i = queueOf s i := rfl
@[simp] theorem ctxOf_physWrite (s : State) (pa n v : Nat) (i : Nat) : ctxOf (physWrite s pa n v) i = ctxOf s i := rfl
@[simp] theorem copyOf_physWrite (s : State) (pa n v : Nat) (i : Nat) : copyOf (physWrite s pa n v) i = copyOf s i := rfl
@[simp] theorem opOf_physWrite (s : State) (pa n v : Nat) (i : Nat) : opOf (physWrite s pa n v) i = opOf s i := rfl
@[simp] theorem handleOf_physWrite (s : State) (pa n v : Nat) (i : Nat) : handleOf (physWrite s pa n v) i = handleOf s i := rfl
@[simp] theorem coreOf_physWrite (s : State) (pa n v : Nat) (i : Nat) : coreOf (physWrite s pa n v) i = coreOf s i := rfl

/-! `updGroup` -/

@[simp] theorem updGroup_clock (s : State) (i : Nat) (f : Group → Group) : (updGroup s i f).clock = s.clock := by
  unfold updGroup; split <;> rfl
@[simp] theorem updGroup_mem (s : State) (i : Nat) (f : Group → Group) : (updGroup s i f).mem = s.mem := by
  unfold updGroup; split <;> rfl
@[simp] theorem updGroup_badGranules (s : State) (i : Nat) (f : Group → Group) : (updGroup s i f).badGranules = s.badGranules := by
  unfold updGroup; split <;> rfl
@[simp] theorem updGroup_remote (s : State) (i : Nat) (f : Group → Group) : (updGroup s i f).remote = s.remote := by
  unfold updGroup; split <;> rfl
@[simp] theorem updGroup_dies (s : State) (i : Nat) (f : Group → Group) : (updGroup s i f).dies = s.dies := by
  unfold updGroup; split <;> rfl
@[simp] theorem updGroup_cores (s : State) (i : Nat) (f : Group → Group) : (updGroup s i f).cores = s.cores := by
  unfold updGroup; split <;> rfl
@[simp] theorem updGroup_rings (s : State) (i : Nat) (f : Group → Group) : (updGroup s i f).rings = s.rings := by
  unfold updGroup; split <;> rfl
@[simp] theorem updGroup_contexts (s : State) (i : Nat) (f : Group → Group) : (updGroup s i f).contexts = s.contexts := by
  unfold updGroup; split <;> rfl
@[simp] theorem updGroup_queues (s : State) (i : Nat) (f : Group → Group) : (updGroup s i f).queues = s.queues := by
  unfold updGroup; split <;> rfl
@[simp] theorem updGroup_grids (s : State) (i : Nat) (f : Group → Group) : (updGroup s i f).grids = s.grids := by
  unfold updGroup; split <;> rfl
@[simp] theorem updGroup_teams (s : State) (i : Nat) (f : Group → Group) : (updGroup s i f).teams = s.teams := by
  unfold updGroup; split <;> rfl
@[simp] theorem updGroup_handles (s : State) (i : Nat) (f : Group → Group) : (updGroup s i f).handles = s.handles := by
  unfold updGroup; split <;> rfl
@[simp] theorem updGroup_ops (s : State) (i : Nat) (f : Group → Group) : (updGroup s i f).ops = s.ops := by
  unfold updGroup; split <;> rfl
@[simp] theorem updGroup_fences (s : State) (i : Nat) (f : Group → Group) : (updGroup s i f).fences = s.fences := by
  unfold updGroup; split <;> rfl
@[simp] theorem updGroup_copies (s : State) (i : Nat) (f : Group → Group) : (updGroup s i f).copies = s.copies := by
  unfold updGroup; split <;> rfl
@[simp] theorem updGroup_blocks (s : State) (i : Nat) (f : Group → Group) : (updGroup s i f).blocks = s.blocks := by
  unfold updGroup; split <;> rfl
@[simp] theorem updGroup_joinZeros (s : State) (i : Nat) (f : Group → Group) : (updGroup s i f).joinZeros = s.joinZeros := by
  unfold updGroup; split <;> rfl
@[simp] theorem updGroup_deferredRecs (s : State) (i : Nat) (f : Group → Group) : (updGroup s i f).deferredRecs = s.deferredRecs := by
  unfold updGroup; split <;> rfl
@[simp] theorem updGroup_checks (s : State) (i : Nat) (f : Group → Group) : (updGroup s i f).checks = s.checks := by
  unfold updGroup; split <;> rfl
@[simp] theorem updGroup_records (s : State) (i : Nat) (f : Group → Group) : (updGroup s i f).records = s.records := by
  unfold updGroup; split <;> rfl
@[simp] theorem updGroup_undelivered (s : State) (i : Nat) (f : Group → Group) : (updGroup s i f).undelivered = s.undelivered := by
  unfold updGroup; split <;> rfl
@[simp] theorem updGroup_sredGroups (s : State) (i : Nat) (f : Group → Group) : (updGroup s i f).sredGroups = s.sredGroups := by
  unfold updGroup; split <;> rfl
@[simp] theorem updGroup_sredInsts (s : State) (i : Nat) (f : Group → Group) : (updGroup s i f).sredInsts = s.sredInsts := by
  unfold updGroup; split <;> rfl
@[simp] theorem updGroup_mgmtBase (s : State) (i : Nat) (f : Group → Group) : (updGroup s i f).mgmtBase = s.mgmtBase := by
  unfold updGroup; split <;> rfl
@[simp] theorem updGroup_mgmtHead (s : State) (i : Nat) (f : Group → Group) : (updGroup s i f).mgmtHead = s.mgmtHead := by
  unfold updGroup; split <;> rfl
@[simp] theorem updGroup_mgmtVec (s : State) (i : Nat) (f : Group → Group) : (updGroup s i f).mgmtVec = s.mgmtVec := by
  unfold updGroup; split <;> rfl
@[simp] theorem updGroup_irqs (s : State) (i : Nat) (f : Group → Group) : (updGroup s i f).irqs = s.irqs := by
  unfold updGroup; split <;> rfl
@[simp] theorem updGroup_thermal (s : State) (i : Nat) (f : Group → Group) : (updGroup s i f).thermal = s.thermal := by
  unfold updGroup; split <;> rfl
@[simp] theorem updGroup_powerCap (s : State) (i : Nat) (f : Group → Group) : (updGroup s i f).powerCap = s.powerCap := by
  unfold updGroup; split <;> rfl
@[simp] theorem updGroup_powered (s : State) (i : Nat) (f : Group → Group) : (updGroup s i f).powered = s.powered := by
  unfold updGroup; split <;> rfl
@[simp] theorem updGroup_lastCore (s : State) (i : Nat) (f : Group → Group) : (updGroup s i f).lastCore = s.lastCore := by
  unfold updGroup; split <;> rfl
@[simp] theorem updGroup_lastQueue (s : State) (i : Nat) (f : Group → Group) : (updGroup s i f).lastQueue = s.lastQueue := by
  unfold updGroup; split <;> rfl
@[simp] theorem updGroup_hostReads (s : State) (i : Nat) (f : Group → Group) : (updGroup s i f).hostReads = s.hostReads := by
  unfold updGroup; split <;> rfl
@[simp] theorem updGroup_remoteReads (s : State) (i : Nat) (f : Group → Group) : (updGroup s i f).remoteReads = s.remoteReads := by
  unfold updGroup; split <;> rfl
@[simp] theorem updGroup_turns (s : State) (i : Nat) (f : Group → Group) : (updGroup s i f).turns = s.turns := by
  unfold updGroup; split <;> rfl
@[simp] theorem updGroup_freeCtr (s : State) (i : Nat) (f : Group → Group) : (updGroup s i f).freeCtr = s.freeCtr := by
  unfold updGroup; split <;> rfl
@[simp] theorem updGroup_nextId (s : State) (i : Nat) (f : Group → Group) : (updGroup s i f).nextId = s.nextId := by
  unfold updGroup; split <;> rfl
@[simp] theorem updGroup_boots (s : State) (i : Nat) (f : Group → Group) : (updGroup s i f).boots = s.boots := by
  unfold updGroup; split <;> rfl
@[simp] theorem updGroup_cur (s : State) (i : Nat) (f : Group → Group) : (updGroup s i f).cur = s.cur := by
  unfold updGroup; split <;> rfl

/-! `updTeam` -/

@[simp] theorem updTeam_clock (s : State) (i : Nat) (f : Team → Team) : (updTeam s i f).clock = s.clock := by
  unfold updTeam; split <;> rfl
@[simp] theorem updTeam_mem (s : State) (i : Nat) (f : Team → Team) : (updTeam s i f).mem = s.mem := by
  unfold updTeam; split <;> rfl
@[simp] theorem updTeam_badGranules (s : State) (i : Nat) (f : Team → Team) : (updTeam s i f).badGranules = s.badGranules := by
  unfold updTeam; split <;> rfl
@[simp] theorem updTeam_remote (s : State) (i : Nat) (f : Team → Team) : (updTeam s i f).remote = s.remote := by
  unfold updTeam; split <;> rfl
@[simp] theorem updTeam_dies (s : State) (i : Nat) (f : Team → Team) : (updTeam s i f).dies = s.dies := by
  unfold updTeam; split <;> rfl
@[simp] theorem updTeam_cores (s : State) (i : Nat) (f : Team → Team) : (updTeam s i f).cores = s.cores := by
  unfold updTeam; split <;> rfl
@[simp] theorem updTeam_rings (s : State) (i : Nat) (f : Team → Team) : (updTeam s i f).rings = s.rings := by
  unfold updTeam; split <;> rfl
@[simp] theorem updTeam_contexts (s : State) (i : Nat) (f : Team → Team) : (updTeam s i f).contexts = s.contexts := by
  unfold updTeam; split <;> rfl
@[simp] theorem updTeam_queues (s : State) (i : Nat) (f : Team → Team) : (updTeam s i f).queues = s.queues := by
  unfold updTeam; split <;> rfl
@[simp] theorem updTeam_grids (s : State) (i : Nat) (f : Team → Team) : (updTeam s i f).grids = s.grids := by
  unfold updTeam; split <;> rfl
@[simp] theorem updTeam_groups (s : State) (i : Nat) (f : Team → Team) : (updTeam s i f).groups = s.groups := by
  unfold updTeam; split <;> rfl
@[simp] theorem updTeam_handles (s : State) (i : Nat) (f : Team → Team) : (updTeam s i f).handles = s.handles := by
  unfold updTeam; split <;> rfl
@[simp] theorem updTeam_ops (s : State) (i : Nat) (f : Team → Team) : (updTeam s i f).ops = s.ops := by
  unfold updTeam; split <;> rfl
@[simp] theorem updTeam_fences (s : State) (i : Nat) (f : Team → Team) : (updTeam s i f).fences = s.fences := by
  unfold updTeam; split <;> rfl
@[simp] theorem updTeam_copies (s : State) (i : Nat) (f : Team → Team) : (updTeam s i f).copies = s.copies := by
  unfold updTeam; split <;> rfl
@[simp] theorem updTeam_blocks (s : State) (i : Nat) (f : Team → Team) : (updTeam s i f).blocks = s.blocks := by
  unfold updTeam; split <;> rfl
@[simp] theorem updTeam_joinZeros (s : State) (i : Nat) (f : Team → Team) : (updTeam s i f).joinZeros = s.joinZeros := by
  unfold updTeam; split <;> rfl
@[simp] theorem updTeam_deferredRecs (s : State) (i : Nat) (f : Team → Team) : (updTeam s i f).deferredRecs = s.deferredRecs := by
  unfold updTeam; split <;> rfl
@[simp] theorem updTeam_checks (s : State) (i : Nat) (f : Team → Team) : (updTeam s i f).checks = s.checks := by
  unfold updTeam; split <;> rfl
@[simp] theorem updTeam_records (s : State) (i : Nat) (f : Team → Team) : (updTeam s i f).records = s.records := by
  unfold updTeam; split <;> rfl
@[simp] theorem updTeam_undelivered (s : State) (i : Nat) (f : Team → Team) : (updTeam s i f).undelivered = s.undelivered := by
  unfold updTeam; split <;> rfl
@[simp] theorem updTeam_sredGroups (s : State) (i : Nat) (f : Team → Team) : (updTeam s i f).sredGroups = s.sredGroups := by
  unfold updTeam; split <;> rfl
@[simp] theorem updTeam_sredInsts (s : State) (i : Nat) (f : Team → Team) : (updTeam s i f).sredInsts = s.sredInsts := by
  unfold updTeam; split <;> rfl
@[simp] theorem updTeam_mgmtBase (s : State) (i : Nat) (f : Team → Team) : (updTeam s i f).mgmtBase = s.mgmtBase := by
  unfold updTeam; split <;> rfl
@[simp] theorem updTeam_mgmtHead (s : State) (i : Nat) (f : Team → Team) : (updTeam s i f).mgmtHead = s.mgmtHead := by
  unfold updTeam; split <;> rfl
@[simp] theorem updTeam_mgmtVec (s : State) (i : Nat) (f : Team → Team) : (updTeam s i f).mgmtVec = s.mgmtVec := by
  unfold updTeam; split <;> rfl
@[simp] theorem updTeam_irqs (s : State) (i : Nat) (f : Team → Team) : (updTeam s i f).irqs = s.irqs := by
  unfold updTeam; split <;> rfl
@[simp] theorem updTeam_thermal (s : State) (i : Nat) (f : Team → Team) : (updTeam s i f).thermal = s.thermal := by
  unfold updTeam; split <;> rfl
@[simp] theorem updTeam_powerCap (s : State) (i : Nat) (f : Team → Team) : (updTeam s i f).powerCap = s.powerCap := by
  unfold updTeam; split <;> rfl
@[simp] theorem updTeam_powered (s : State) (i : Nat) (f : Team → Team) : (updTeam s i f).powered = s.powered := by
  unfold updTeam; split <;> rfl
@[simp] theorem updTeam_lastCore (s : State) (i : Nat) (f : Team → Team) : (updTeam s i f).lastCore = s.lastCore := by
  unfold updTeam; split <;> rfl
@[simp] theorem updTeam_lastQueue (s : State) (i : Nat) (f : Team → Team) : (updTeam s i f).lastQueue = s.lastQueue := by
  unfold updTeam; split <;> rfl
@[simp] theorem updTeam_hostReads (s : State) (i : Nat) (f : Team → Team) : (updTeam s i f).hostReads = s.hostReads := by
  unfold updTeam; split <;> rfl
@[simp] theorem updTeam_remoteReads (s : State) (i : Nat) (f : Team → Team) : (updTeam s i f).remoteReads = s.remoteReads := by
  unfold updTeam; split <;> rfl
@[simp] theorem updTeam_turns (s : State) (i : Nat) (f : Team → Team) : (updTeam s i f).turns = s.turns := by
  unfold updTeam; split <;> rfl
@[simp] theorem updTeam_freeCtr (s : State) (i : Nat) (f : Team → Team) : (updTeam s i f).freeCtr = s.freeCtr := by
  unfold updTeam; split <;> rfl
@[simp] theorem updTeam_nextId (s : State) (i : Nat) (f : Team → Team) : (updTeam s i f).nextId = s.nextId := by
  unfold updTeam; split <;> rfl
@[simp] theorem updTeam_boots (s : State) (i : Nat) (f : Team → Team) : (updTeam s i f).boots = s.boots := by
  unfold updTeam; split <;> rfl
@[simp] theorem updTeam_cur (s : State) (i : Nat) (f : Team → Team) : (updTeam s i f).cur = s.cur := by
  unfold updTeam; split <;> rfl

/-! `updGrid` -/

@[simp] theorem updGrid_clock (s : State) (i : Nat) (f : Grid → Grid) : (updGrid s i f).clock = s.clock := by
  unfold updGrid; split <;> rfl
@[simp] theorem updGrid_mem (s : State) (i : Nat) (f : Grid → Grid) : (updGrid s i f).mem = s.mem := by
  unfold updGrid; split <;> rfl
@[simp] theorem updGrid_badGranules (s : State) (i : Nat) (f : Grid → Grid) : (updGrid s i f).badGranules = s.badGranules := by
  unfold updGrid; split <;> rfl
@[simp] theorem updGrid_remote (s : State) (i : Nat) (f : Grid → Grid) : (updGrid s i f).remote = s.remote := by
  unfold updGrid; split <;> rfl
@[simp] theorem updGrid_dies (s : State) (i : Nat) (f : Grid → Grid) : (updGrid s i f).dies = s.dies := by
  unfold updGrid; split <;> rfl
@[simp] theorem updGrid_cores (s : State) (i : Nat) (f : Grid → Grid) : (updGrid s i f).cores = s.cores := by
  unfold updGrid; split <;> rfl
@[simp] theorem updGrid_rings (s : State) (i : Nat) (f : Grid → Grid) : (updGrid s i f).rings = s.rings := by
  unfold updGrid; split <;> rfl
@[simp] theorem updGrid_contexts (s : State) (i : Nat) (f : Grid → Grid) : (updGrid s i f).contexts = s.contexts := by
  unfold updGrid; split <;> rfl
@[simp] theorem updGrid_queues (s : State) (i : Nat) (f : Grid → Grid) : (updGrid s i f).queues = s.queues := by
  unfold updGrid; split <;> rfl
@[simp] theorem updGrid_teams (s : State) (i : Nat) (f : Grid → Grid) : (updGrid s i f).teams = s.teams := by
  unfold updGrid; split <;> rfl
@[simp] theorem updGrid_groups (s : State) (i : Nat) (f : Grid → Grid) : (updGrid s i f).groups = s.groups := by
  unfold updGrid; split <;> rfl
@[simp] theorem updGrid_handles (s : State) (i : Nat) (f : Grid → Grid) : (updGrid s i f).handles = s.handles := by
  unfold updGrid; split <;> rfl
@[simp] theorem updGrid_ops (s : State) (i : Nat) (f : Grid → Grid) : (updGrid s i f).ops = s.ops := by
  unfold updGrid; split <;> rfl
@[simp] theorem updGrid_fences (s : State) (i : Nat) (f : Grid → Grid) : (updGrid s i f).fences = s.fences := by
  unfold updGrid; split <;> rfl
@[simp] theorem updGrid_copies (s : State) (i : Nat) (f : Grid → Grid) : (updGrid s i f).copies = s.copies := by
  unfold updGrid; split <;> rfl
@[simp] theorem updGrid_blocks (s : State) (i : Nat) (f : Grid → Grid) : (updGrid s i f).blocks = s.blocks := by
  unfold updGrid; split <;> rfl
@[simp] theorem updGrid_joinZeros (s : State) (i : Nat) (f : Grid → Grid) : (updGrid s i f).joinZeros = s.joinZeros := by
  unfold updGrid; split <;> rfl
@[simp] theorem updGrid_deferredRecs (s : State) (i : Nat) (f : Grid → Grid) : (updGrid s i f).deferredRecs = s.deferredRecs := by
  unfold updGrid; split <;> rfl
@[simp] theorem updGrid_checks (s : State) (i : Nat) (f : Grid → Grid) : (updGrid s i f).checks = s.checks := by
  unfold updGrid; split <;> rfl
@[simp] theorem updGrid_records (s : State) (i : Nat) (f : Grid → Grid) : (updGrid s i f).records = s.records := by
  unfold updGrid; split <;> rfl
@[simp] theorem updGrid_undelivered (s : State) (i : Nat) (f : Grid → Grid) : (updGrid s i f).undelivered = s.undelivered := by
  unfold updGrid; split <;> rfl
@[simp] theorem updGrid_sredGroups (s : State) (i : Nat) (f : Grid → Grid) : (updGrid s i f).sredGroups = s.sredGroups := by
  unfold updGrid; split <;> rfl
@[simp] theorem updGrid_sredInsts (s : State) (i : Nat) (f : Grid → Grid) : (updGrid s i f).sredInsts = s.sredInsts := by
  unfold updGrid; split <;> rfl
@[simp] theorem updGrid_mgmtBase (s : State) (i : Nat) (f : Grid → Grid) : (updGrid s i f).mgmtBase = s.mgmtBase := by
  unfold updGrid; split <;> rfl
@[simp] theorem updGrid_mgmtHead (s : State) (i : Nat) (f : Grid → Grid) : (updGrid s i f).mgmtHead = s.mgmtHead := by
  unfold updGrid; split <;> rfl
@[simp] theorem updGrid_mgmtVec (s : State) (i : Nat) (f : Grid → Grid) : (updGrid s i f).mgmtVec = s.mgmtVec := by
  unfold updGrid; split <;> rfl
@[simp] theorem updGrid_irqs (s : State) (i : Nat) (f : Grid → Grid) : (updGrid s i f).irqs = s.irqs := by
  unfold updGrid; split <;> rfl
@[simp] theorem updGrid_thermal (s : State) (i : Nat) (f : Grid → Grid) : (updGrid s i f).thermal = s.thermal := by
  unfold updGrid; split <;> rfl
@[simp] theorem updGrid_powerCap (s : State) (i : Nat) (f : Grid → Grid) : (updGrid s i f).powerCap = s.powerCap := by
  unfold updGrid; split <;> rfl
@[simp] theorem updGrid_powered (s : State) (i : Nat) (f : Grid → Grid) : (updGrid s i f).powered = s.powered := by
  unfold updGrid; split <;> rfl
@[simp] theorem updGrid_lastCore (s : State) (i : Nat) (f : Grid → Grid) : (updGrid s i f).lastCore = s.lastCore := by
  unfold updGrid; split <;> rfl
@[simp] theorem updGrid_lastQueue (s : State) (i : Nat) (f : Grid → Grid) : (updGrid s i f).lastQueue = s.lastQueue := by
  unfold updGrid; split <;> rfl
@[simp] theorem updGrid_hostReads (s : State) (i : Nat) (f : Grid → Grid) : (updGrid s i f).hostReads = s.hostReads := by
  unfold updGrid; split <;> rfl
@[simp] theorem updGrid_remoteReads (s : State) (i : Nat) (f : Grid → Grid) : (updGrid s i f).remoteReads = s.remoteReads := by
  unfold updGrid; split <;> rfl
@[simp] theorem updGrid_turns (s : State) (i : Nat) (f : Grid → Grid) : (updGrid s i f).turns = s.turns := by
  unfold updGrid; split <;> rfl
@[simp] theorem updGrid_freeCtr (s : State) (i : Nat) (f : Grid → Grid) : (updGrid s i f).freeCtr = s.freeCtr := by
  unfold updGrid; split <;> rfl
@[simp] theorem updGrid_nextId (s : State) (i : Nat) (f : Grid → Grid) : (updGrid s i f).nextId = s.nextId := by
  unfold updGrid; split <;> rfl
@[simp] theorem updGrid_boots (s : State) (i : Nat) (f : Grid → Grid) : (updGrid s i f).boots = s.boots := by
  unfold updGrid; split <;> rfl
@[simp] theorem updGrid_cur (s : State) (i : Nat) (f : Grid → Grid) : (updGrid s i f).cur = s.cur := by
  unfold updGrid; split <;> rfl

/-! `setSplit` -/

@[simp] theorem setSplit_team (g : Group) (p : Split) : (setSplit g p).team = g.team := rfl
@[simp] theorem setSplit_grid (g : Group) (p : Split) : (setSplit g p).grid = g.grid := rfl
@[simp] theorem setSplit_ctx (g : Group) (p : Split) : (setSplit g p).ctx = g.ctx := rfl
@[simp] theorem setSplit_core (g : Group) (p : Split) : (setSplit g p).core = g.core := rfl
@[simp] theorem setSplit_quarter (g : Group) (p : Split) : (setSplit g p).quarter = g.quarter := rfl
@[simp] theorem setSplit_grpid (g : Group) (p : Split) : (setSplit g p).grpid = g.grpid := rfl
@[simp] theorem setSplit_teamid (g : Group) (p : Split) : (setSplit g p).teamid = g.teamid := rfl
@[simp] theorem setSplit_gridid (g : Group) (p : Split) : (setSplit g p).gridid = g.gridid := rfl
@[simp] theorem setSplit_priv (g : Group) (p : Split) : (setSplit g p).priv = g.priv := rfl
@[simp] theorem setSplit_nteam (g : Group) (p : Split) : (setSplit g p).nteam = g.nteam := rfl
@[simp] theorem setSplit_ngrp (g : Group) (p : Split) : (setSplit g p).ngrp = g.ngrp := rfl
@[simp] theorem setSplit_role (g : Group) (p : Split) : (setSplit g p).role = g.role := rfl
@[simp] theorem setSplit_gindex (g : Group) (p : Split) : (setSplit g p).gindex = g.gindex := rfl
@[simp] theorem setSplit_narrow (g : Group) (p : Split) : (setSplit g p).narrow = g.narrow := rfl
@[simp] theorem setSplit_repro (g : Group) (p : Split) : (setSplit g p).repro = g.repro := rfl
@[simp] theorem setSplit_checked (g : Group) (p : Split) : (setSplit g p).checked = g.checked := rfl
@[simp] theorem setSplit_vregs (g : Group) (p : Split) : (setSplit g p).vregs = g.vregs := rfl
@[simp] theorem setSplit_oregs (g : Group) (p : Split) : (setSplit g p).oregs = g.oregs := rfl
@[simp] theorem setSplit_sregs (g : Group) (p : Split) : (setSplit g p).sregs = g.sregs := rfl
@[simp] theorem setSplit_status (g : Group) (p : Split) : (setSplit g p).status = g.status := rfl
@[simp] theorem setSplit_srseed (g : Group) (p : Split) : (setSplit g p).srseed = g.srseed := rfl
@[simp] theorem setSplit_srctr (g : Group) (p : Split) : (setSplit g p).srctr = g.srctr := rfl
@[simp] theorem setSplit_lclk (g : Group) (p : Split) : (setSplit g p).lclk = g.lclk := rfl
@[simp] theorem setSplit_lbase (g : Group) (p : Split) : (setSplit g p).lbase = g.lbase := rfl
@[simp] theorem setSplit_parts (g : Group) (p : Split) : (setSplit g p).parts = g.parts := rfl
@[simp] theorem setSplit_trapcause (g : Group) (p : Split) : (setSplit g p).trapcause = g.trapcause := rfl
@[simp] theorem setSplit_trappc (g : Group) (p : Split) : (setSplit g p).trappc = g.trappc := rfl
@[simp] theorem setSplit_trapmask (g : Group) (p : Split) : (setSplit g p).trapmask = g.trapmask := rfl
@[simp] theorem setSplit_shadow (g : Group) (p : Split) : (setSplit g p).shadow = g.shadow := rfl
@[simp] theorem setSplit_faults (g : Group) (p : Split) : (setSplit g p).faults = g.faults := rfl
@[simp] theorem setSplit_regions (g : Group) (p : Split) : (setSplit g p).regions = g.regions := rfl
@[simp] theorem setSplit_slots (g : Group) (p : Split) : (setSplit g p).slots = g.slots := rfl
@[simp] theorem setSplit_phys (g : Group) (p : Split) : (setSplit g p).phys = g.phys := rfl
@[simp] theorem setSplit_eng (g : Group) (p : Split) : (setSplit g p).eng = g.eng := rfl
@[simp] theorem setSplit_badLoads (g : Group) (p : Split) : (setSplit g p).badLoads = g.badLoads := rfl
@[simp] theorem setSplit_place (g : Group) (p : Split) : (setSplit g p).place = g.place := rfl
@[simp] theorem setSplit_haltReq (g : Group) (p : Split) : (setSplit g p).haltReq = g.haltReq := rfl
@[simp] theorem setSplit_bpDue (g : Group) (p : Split) : (setSplit g p).bpDue = g.bpDue := rfl
@[simp] theorem setSplit_driver (g : Group) (p : Split) : (setSplit g p).driver = g.driver := rfl
@[simp] theorem setSplit_savedRing (g : Group) (p : Split) : (setSplit g p).savedRing = g.savedRing := rfl
@[simp] theorem setSplit_round (g : Group) (p : Split) : (setSplit g p).round = g.round := rfl
@[simp] theorem setSplit_mapresWait (g : Group) (p : Split) : (setSplit g p).mapresWait = g.mapresWait := rfl
@[simp] theorem setSplit_resume (g : Group) (p : Split) : (setSplit g p).resume = g.resume := rfl

/-! `setRegion` -/

@[simp] theorem setRegion_gid (g : Group) (r : Region) : (setRegion g r).gid = g.gid := rfl
@[simp] theorem setRegion_team (g : Group) (r : Region) : (setRegion g r).team = g.team := rfl
@[simp] theorem setRegion_grid (g : Group) (r : Region) : (setRegion g r).grid = g.grid := rfl
@[simp] theorem setRegion_ctx (g : Group) (r : Region) : (setRegion g r).ctx = g.ctx := rfl
@[simp] theorem setRegion_core (g : Group) (r : Region) : (setRegion g r).core = g.core := rfl
@[simp] theorem setRegion_quarter (g : Group) (r : Region) : (setRegion g r).quarter = g.quarter := rfl
@[simp] theorem setRegion_grpid (g : Group) (r : Region) : (setRegion g r).grpid = g.grpid := rfl
@[simp] theorem setRegion_teamid (g : Group) (r : Region) : (setRegion g r).teamid = g.teamid := rfl
@[simp] theorem setRegion_gridid (g : Group) (r : Region) : (setRegion g r).gridid = g.gridid := rfl
@[simp] theorem setRegion_priv (g : Group) (r : Region) : (setRegion g r).priv = g.priv := rfl
@[simp] theorem setRegion_nteam (g : Group) (r : Region) : (setRegion g r).nteam = g.nteam := rfl
@[simp] theorem setRegion_ngrp (g : Group) (r : Region) : (setRegion g r).ngrp = g.ngrp := rfl
@[simp] theorem setRegion_role (g : Group) (r : Region) : (setRegion g r).role = g.role := rfl
@[simp] theorem setRegion_gindex (g : Group) (r : Region) : (setRegion g r).gindex = g.gindex := rfl
@[simp] theorem setRegion_narrow (g : Group) (r : Region) : (setRegion g r).narrow = g.narrow := rfl
@[simp] theorem setRegion_repro (g : Group) (r : Region) : (setRegion g r).repro = g.repro := rfl
@[simp] theorem setRegion_checked (g : Group) (r : Region) : (setRegion g r).checked = g.checked := rfl
@[simp] theorem setRegion_vregs (g : Group) (r : Region) : (setRegion g r).vregs = g.vregs := rfl
@[simp] theorem setRegion_oregs (g : Group) (r : Region) : (setRegion g r).oregs = g.oregs := rfl
@[simp] theorem setRegion_sregs (g : Group) (r : Region) : (setRegion g r).sregs = g.sregs := rfl
@[simp] theorem setRegion_status (g : Group) (r : Region) : (setRegion g r).status = g.status := rfl
@[simp] theorem setRegion_srseed (g : Group) (r : Region) : (setRegion g r).srseed = g.srseed := rfl
@[simp] theorem setRegion_srctr (g : Group) (r : Region) : (setRegion g r).srctr = g.srctr := rfl
@[simp] theorem setRegion_lclk (g : Group) (r : Region) : (setRegion g r).lclk = g.lclk := rfl
@[simp] theorem setRegion_lbase (g : Group) (r : Region) : (setRegion g r).lbase = g.lbase := rfl
@[simp] theorem setRegion_parts (g : Group) (r : Region) : (setRegion g r).parts = g.parts := rfl
@[simp] theorem setRegion_trapcause (g : Group) (r : Region) : (setRegion g r).trapcause = g.trapcause := rfl
@[simp] theorem setRegion_trappc (g : Group) (r : Region) : (setRegion g r).trappc = g.trappc := rfl
@[simp] theorem setRegion_trapmask (g : Group) (r : Region) : (setRegion g r).trapmask = g.trapmask := rfl
@[simp] theorem setRegion_shadow (g : Group) (r : Region) : (setRegion g r).shadow = g.shadow := rfl
@[simp] theorem setRegion_faults (g : Group) (r : Region) : (setRegion g r).faults = g.faults := rfl
@[simp] theorem setRegion_splits (g : Group) (r : Region) : (setRegion g r).splits = g.splits := rfl
@[simp] theorem setRegion_slots (g : Group) (r : Region) : (setRegion g r).slots = g.slots := rfl
@[simp] theorem setRegion_phys (g : Group) (r : Region) : (setRegion g r).phys = g.phys := rfl
@[simp] theorem setRegion_eng (g : Group) (r : Region) : (setRegion g r).eng = g.eng := rfl
@[simp] theorem setRegion_badLoads (g : Group) (r : Region) : (setRegion g r).badLoads = g.badLoads := rfl
@[simp] theorem setRegion_place (g : Group) (r : Region) : (setRegion g r).place = g.place := rfl
@[simp] theorem setRegion_haltReq (g : Group) (r : Region) : (setRegion g r).haltReq = g.haltReq := rfl
@[simp] theorem setRegion_bpDue (g : Group) (r : Region) : (setRegion g r).bpDue = g.bpDue := rfl
@[simp] theorem setRegion_driver (g : Group) (r : Region) : (setRegion g r).driver = g.driver := rfl
@[simp] theorem setRegion_savedRing (g : Group) (r : Region) : (setRegion g r).savedRing = g.savedRing := rfl
@[simp] theorem setRegion_round (g : Group) (r : Region) : (setRegion g r).round = g.round := rfl
@[simp] theorem setRegion_mapresWait (g : Group) (r : Region) : (setRegion g r).mapresWait = g.mapresWait := rfl
@[simp] theorem setRegion_resume (g : Group) (r : Region) : (setRegion g r).resume = g.resume := rfl

end Sys2Proof.Machine
end

