-- ==== Sys2Proof/Laws/Traps.lean ====
section
/-!
SUPPORT. Lemmas about traps: the fields of a record's first word, and what halting a group for the driver leaves.
-/
namespace Sys2Proof.Machine

theorem stopSweep_facts (p : Split) (r : TrapReq) : (p.stopSweep r).sid = p.sid ∧ (p.stopSweep r).pc = p.pc ∧ (p.stopSweep r).em = p.em ∧
    (p.stopSweep r).fmt = p.fmt ∧ (p.stopSweep r).members = p.members ∧ (p.stopSweep r).chainLen = p.chainLen ∧
    (p.stopSweep r).swpidx = r.sweep.getD p.swpidx := by
  unfold Split.stopSweep; split <;> simp_all

theorem word0_fields (r : TrapRec) (hs : r.source = 0) (hh : r.inhandler = false) (hc : r.cause < 256) :
    ∀ w : BitVec 32, w = BitVec.ofNat 32 r.word0 →
    bits w 0 8 = r.cause ∧ bits w 8 4 = 0 ∧ bits w 12 4 = r.slot % 16 ∧ bits w 16 12 = r.swpidx % 4096 ∧
    w.getLsbD 28 = r.insweep ∧ w.getLsbD 29 = r.inchain ∧ bits w 30 2 = 0 := by
  have h1 : bitOf r.insweep < 2 := by cases r.insweep <;> decide
  have h2 : bitOf r.inchain < 2 := by cases r.inchain <;> decide
  have e1 : (bitOf r.insweep = 1) = (r.insweep = true) := by cases r.insweep <;> simp [bitOf]
  have e2 : (bitOf r.inchain = 1) = (r.inchain = true) := by cases r.inchain <;> simp [bitOf]
  have hb : ∀ i, (BitVec.ofNat 32 r.word0).getLsbD i = decide (i < 32 ∧ r.word0 / 2 ^ i % 2 = 1) := by
    intro i
    simp only [BitVec.getLsbD_ofNat, Nat.testBit_eq_decide_div_mod_eq, Bool.decide_and]
  have hbits : ∀ i n, i + n ≤ 32 → bits (BitVec.ofNat 32 r.word0) i n = r.word0 / 2 ^ i % 2 ^ n := by
    intro i n hin
    simp only [bits, BitVec.extractLsb'_toNat, BitVec.toNat_ofNat, Nat.shiftRight_eq_div_pow]
    have : 2 ^ 32 = 2 ^ i * (2 ^ (32 - i)) := by rw [← Nat.pow_add]; congr 1; omega
    rw [this, Nat.mod_mul_right_div_self, Nat.mod_mod_of_dvd]
    exact Nat.pow_dvd_pow 2 (by omega)
  have hw : r.word0 = r.cause + 4096 * (r.slot % 16) + 65536 * (r.swpidx % 4096) + 268435456 * bitOf r.insweep + 536870912 * bitOf r.inchain := by
    simp only [TrapRec.word0, hs, hh, bitOf, Bool.false_eq_true, if_false]
    omega
  intro w hwe
  subst hwe
  generalize bitOf r.insweep = a at *
  generalize bitOf r.inchain = b at *
  generalize r.word0 = x at *
  refine ⟨?_, ?_, ?_, ?_, ?_, ?_, ?_⟩
  · rw [hbits 0 8 (by omega)]; omega
  · rw [hbits 8 4 (by omega)]; omega
  · rw [hbits 12 4 (by omega)]; omega
  · rw [hbits 16 12 (by omega)]; omega
  · rw [hb 28]
    have : x / 2 ^ 28 % 2 = a := by omega
    rw [this]; simp only [e1]; simp
  · rw [hb 29]
    have : x / 2 ^ 29 % 2 = b := by omega
    rw [this]; simp only [e2]; simp
  · rw [hbits 30 2 (by omega)]; omega

theorem recBytes_length (r : TrapRec) : r.bytes.length = 64 := by simp [TrapRec.bytes, natToBytes_length]

theorem physWrite_fields (s : State) (a n v : Nat) : (physWrite s a n v).groups = s.groups ∧ (physWrite s a n v).rings = s.rings ∧
    (physWrite s a n v).contexts = s.contexts ∧ (physWrite s a n v).irqs = s.irqs ∧ (physWrite s a n v).undelivered = s.undelivered :=
  ⟨rfl, rfl, rfl, rfl, rfl⟩

theorem physWriteBytes_fields (s : State) (a : Nat) (b : List Byte) : (physWriteBytes s a b).groups = s.groups ∧ (physWriteBytes s a b).rings = s.rings ∧
    (physWriteBytes s a b).contexts = s.contexts ∧ (physWriteBytes s a b).irqs = s.irqs ∧ (physWriteBytes s a b).undelivered = s.undelivered :=
  ⟨rfl, rfl, rfl, rfl, rfl⟩

theorem ctxOf_num {s : State} {n : Nat} {c : Context} (h : ctxOf s n = some c) : c.num = n := by
  simpa using List.find?_some h

theorem halt_with {s : State} {g x : Group} {sid : Nat} {c : Context} {kind : HaltKind} {r : TrapRec} (hm : MemOk s)
    (hx : groupOf s g.gid = some x) (hc : ctxOf s g.ctx = some c) (hk : comparedCopy s g = false) :
    ∃ h sr, groupOf (haltForDriver s g sid kind r) g.gid = some { g with driver := some h, splits := g.splits.map Split.holdSweep, savedRing := sr } ∧
      h.kind = kind ∧ h.body = r ∧ h.sid = sid ∧ (haltForDriver s g sid kind r).rings = s.rings ∧
      Delivered s (haltForDriver s g sid kind r) c g.gid r h.addr := by
  have hcn := ctxOf_num hc
  obtain ⟨sr, hsr⟩ : ∃ sr, sr = if kind = .breakpoint true then g.savedRing else chainRing s g := ⟨_, rfl⟩
  obtain ⟨g1, hge⟩ : ∃ g1 : Group, g1 =
    { g with driver := some { kind, body := r, sid, addr := none }, splits := g.splits.map Split.holdSweep, savedRing := sr } := ⟨_, rfl⟩
  obtain ⟨s1, hse⟩ : ∃ s1, s1 = setGroup s g1 := ⟨_, rfl⟩
  have hgg : g1.gid = g.gid := by rw [hge]
  have hm' : MemOk s1 := by rw [hse]; exact hm
  have hg1 : groupOf s1 g.gid = some g1 := by rw [hse]; exact groupOf_setGroup hx hgg
  have hc1 : ctxOf s1 g.ctx = some c := by rw [hse]; exact hc
  have e0 : haltForDriver s g sid kind r = report s1 { ctx := g.ctx, body := r, link := .group g.gid } := by
    unfold haltForDriver; rw [hse, hge, hsr]
    exact if_neg (by rw [show comparedCopy (setGroup s _) g = comparedCopy s g from rfl, hk]; exact Bool.false_ne_true)
  by_cases hroom : (ringHasRoom s c && !(s.undelivered.any fun x => x.ctx == c.num)) = true
  · have hroom1 : (ringHasRoom s1 c && !(s1.undelivered.any fun x => x.ctx == g.ctx)) = true := by rw [← hcn, hse]; exact hroom
    have e1 : haltForDriver s g sid kind r = writeRec s1 c { ctx := g.ctx, body := r, link := .group g.gid } := by
      rw [e0]; simp only [report, hc1]; rw [if_pos hroom1]
    have hm1 : MemOk (physWriteBytes s1 (nextRecAddr c) r.bytes) := memOk_physWriteBytes _ _ hm'
    obtain ⟨s2, hs2⟩ : ∃ s2, s2 = physWrite (physWriteBytes s1 (nextRecAddr c) r.bytes) c.fring 8 (c.tail + 1) := ⟨_, rfl⟩
    have q1 : s2.groups = s1.groups := by rw [hs2, (physWrite_fields _ _ _ _).1, (physWriteBytes_fields _ _ _).1]
    have q2 : s2.rings = s1.rings := by rw [hs2, (physWrite_fields _ _ _ _).2.1, (physWriteBytes_fields _ _ _).2.1]
    have q3 : s2.contexts = s1.contexts := by rw [hs2, (physWrite_fields _ _ _ _).2.2.1, (physWriteBytes_fields _ _ _).2.2.1]
    have q4 : s2.irqs = s1.irqs := by rw [hs2, (physWrite_fields _ _ _ _).2.2.2.1, (physWriteBytes_fields _ _ _).2.2.2.1]
    have q5 : s2.undelivered = s1.undelivered := by rw [hs2, (physWrite_fields _ _ _ _).2.2.2.2, (physWriteBytes_fields _ _ _).2.2.2.2]
    obtain ⟨s3, hs3⟩ : ∃ s3 : State, s3 = { setCtx s2 { c with tail := c.tail + 1 } with records := (nextRecAddr c, { ctx := g.ctx, body := r, link := .group g.gid }) :: (setCtx s2 { c with tail := c.tail + 1 }).records.filter fun x => x.1 ≠ nextRecAddr c } := ⟨_, rfl⟩
    have e1 : haltForDriver s g sid kind r = signal (updGroup s3 g.gid fun g => { g with driver := g.driver.map fun d => { d with addr := some (nextRecAddr c) } }) c.fvec := by
      rw [e1, hs3, hs2]; rfl
    have hg3 : groupOf s3 g.gid = some g1 := by
      rw [hs3]; show List.find? _ s2.groups = _; rw [q1]; exact hg1
    rw [updGroup_eq hg3] at e1
    rw [e1]
    refine ⟨{ kind, body := r, sid, addr := some (nextRecAddr c) }, sr, ?_, rfl, rfl, rfl, ?_, ?_⟩
    · show groupOf (setGroup s3 _) _ = _
      rw [groupOf_setGroup (s := s3) hg3 (by exact hgg), hge]; rfl
    · show s3.rings = _; rw [hs3]; show s2.rings = _; rw [q2, hse]; rfl
    unfold Delivered
    rw [if_pos hroom]
    have hfar : c.fring + 8 ≤ nextRecAddr c := by simp only [nextRecAddr]; omega
    have hread : ∀ y, memRead s2.mem y = if c.fring ≤ y ∧ y < c.fring + 8 then (natToBytes 8 (c.tail + 1)).getD (y - c.fring) memDefault
        else if nextRecAddr c ≤ y ∧ y < nextRecAddr c + 64 then r.bytes.getD (y - nextRecAddr c) memDefault else memRead s.mem y := by
      intro y
      have hmm : s1.mem = s.mem := by rw [hse]; rfl
      rw [hs2, memRead_physWrite _ _ _ _ hm1, memRead_physWriteBytes _ _ _ hm', recBytes_length, hmm]
    have hmem : (signal (setGroup s3 { g1 with driver := g1.driver.map fun d => { d with addr := some (nextRecAddr c) } }) c.fvec).mem = s2.mem := by
      show s3.mem = _; rw [hs3]; rfl
    refine ⟨rfl, ?_, ?_, ?_, ?_, ?_, ?_⟩
    · intro k hk
      rw [hmem]
      refine (hread _).trans ?_
      rw [if_neg (by omega), if_pos (by omega), Nat.add_sub_cancel_left]; rfl
    · have := physRead_physWrite (s := physWriteBytes s1 (nextRecAddr c) r.bytes) c.fring 8 (c.tail + 1) hm1
      rw [← hs2] at this
      simp only [physRead, hmem] at this ⊢
      rw [this]
      have : (256 : Nat) ^ 8 = 2 ^ 64 := by norm_num
      rw [this]
    · show s3.irqs ++ _ = _; rw [hs3]; show s2.irqs ++ _ = _; rw [q4, hse]; rfl
    · intro y h1 h2
      rw [hmem]
      refine (hread y).trans ?_
      rw [if_neg (by omega), if_neg (by omega)]
    · refine ⟨{ c with tail := c.tail + 1 }, ?_, rfl⟩
      have hc' : List.find? (fun x : Context => x.num == c.num) s2.contexts = some c := by rw [q3, hcn, hse]; exact hc
      show List.find? _ s3.contexts = _
      rw [hs3]
      exact find_map_key Context.num s2.contexts c { c with tail := c.tail + 1 } c.num rfl hc'
    · show s3.undelivered = _; rw [hs3]; show s2.undelivered = _; rw [q5, hse]; rfl
  · have hroom1 : ¬ (ringHasRoom s1 c && !(s1.undelivered.any fun x => x.ctx == g.ctx)) = true := by rw [← hcn, hse]; exact hroom
    have e1 : haltForDriver s g sid kind r = { s1 with undelivered := s1.undelivered ++ [{ ctx := g.ctx, body := r, link := .group g.gid }] } := by
      rw [e0]; simp only [report, hc1]; rw [if_neg hroom1]
    rw [e1]
    refine ⟨{ kind, body := r, sid, addr := none }, sr, hge ▸ hg1, rfl, rfl, rfl, by rw [hse]; rfl, ?_⟩
    unfold Delivered
    rw [if_neg hroom]
    exact ⟨rfl, by rw [hse]; rfl, by rw [hse]; rfl, by rw [hcn, hse]; rfl⟩

end Sys2Proof.Machine
end

