-- ==== Sys2Proof/Laws/Home.lean ====
section
/-!
SUPPORT. What the shared operations of a home and of the walks do, each said once: a read-modify-write, the settling of an
operation, the step of a request at its home, the release of a record, a future's word, a walk that ends in a leaf, a lane of
PGMAP, and a record written to a fault ring.
-/
namespace Sys2Proof.Machine

/-! ## Operations in flight -/

/-- An operation found by a number has it. -/
theorem opOf_id {s : State} {n : Nat} {o : Op} (h : opOf s n = some o) : o.id = n := by
  simpa using List.find?_some h

/-- An operation that replaces another of its number is found in its place. -/
theorem opOf_setOp {s : State} {n : Nat} {o x : Op} (h : opOf s n = some x) (ho : o.id = n) :
    opOf (setOp s o) n = some o := by
  subst ho
  exact find_map_key Op.id s.ops x o o.id rfl h

/-- An operation with an element replaced is found in its place. -/
theorem opOf_setElem {s : State} {n k : Nat} {o x : Op} {e : Elem} (h : opOf s n = some x) (ho : o.id = n) :
    opOf (setElem s o k e) n = some { o with elems := o.elems.set k e } := opOf_setOp h ho

/-- What settling does: nothing, a count off, or the removal of an operation wholly performed. -/
theorem settleOp_cases (s : State) (id : Nat) : settleOp s id = s ∨ ∃ o, opOf s id = some o ∧ ∃ s1, (s1 = s ∨ s1 = countOff s o) ∧
    (settleOp s id = s1 ∨ (settleOp s id = removeOp s1 id ∧ o.performed = true ∧ (match o.kind with
    | .rmw _ (some _) | .futReg .. | .futRes | .load .. | .ldl .. | .bind _ | .pref _ => False
    | _ => True))) := by
  unfold settleOp
  cases ho : opOf s id with
  | none => exact .inl rfl
  | some o =>
    right
    refine ⟨o, rfl, ?_⟩
    simp only
    cases hk : o.kind with
    | rmw u d =>
      cases d with
      | some d => exact ⟨s, .inl rfl, .inl rfl⟩
      | none =>
        simp only
        by_cases hp : o.performed = true
        · simp only [if_pos hp]
          refine ⟨_, ?_, .inr ⟨rfl, hp, trivial⟩⟩
          split
          · exact .inr rfl
          · exact .inl rfl
        · simp only [if_neg hp]
          refine ⟨_, ?_, .inl rfl⟩
          split
          · exact .inr rfl
          · exact .inl rfl
    | futReg a b => exact ⟨s, .inl rfl, .inl rfl⟩
    | futRes => exact ⟨s, .inl rfl, .inl rfl⟩
    | load a b => exact ⟨s, .inl rfl, .inl rfl⟩
    | ldl a b c d e f g => exact ⟨s, .inl rfl, .inl rfl⟩
    | bind a => exact ⟨s, .inl rfl, .inl rfl⟩
    | pref a => exact ⟨s, .inl rfl, .inl rfl⟩
    | store => refine ⟨s, .inl rfl, ?_⟩; simp only; split; exact .inr ⟨rfl, ‹_›, trivial⟩; exact .inl rfl
    | dec => refine ⟨s, .inl rfl, ?_⟩; simp only; split; exact .inr ⟨rfl, ‹_›, trivial⟩; exact .inl rfl
    | fold => refine ⟨s, .inl rfl, ?_⟩; simp only; split; exact .inr ⟨rfl, ‹_›, trivial⟩; exact .inl rfl
    | copyF a => refine ⟨s, .inl rfl, ?_⟩; simp only; split; exact .inr ⟨rfl, ‹_›, trivial⟩; exact .inl rfl
    | gate a => refine ⟨s, .inl rfl, ?_⟩; simp only; split; exact .inr ⟨rfl, ‹_›, trivial⟩; exact .inl rfl
    | doneInc => refine ⟨s, .inl rfl, ?_⟩; simp only; split; exact .inr ⟨rfl, ‹_›, trivial⟩; exact .inl rfl

/-- An update of a group changes only groups. -/
theorem updGroup_rest (s : State) (n : Nat) (f : Group → Group) : { updGroup s n f with groups := s.groups } = s := by
  unfold updGroup; split <;> rfl

/-- Counting off changes only groups. -/
theorem countOff_rest (s : State) (o : Op) : { countOff s o with groups := s.groups } = s := updGroup_rest _ _ _

/-- Settling an operation changes only its group, the operations in flight and the fences. -/
theorem settleOp_rest (s : State) (id : Nat) :
    { settleOp s id with groups := s.groups, ops := s.ops, fences := s.fences } = s := by
  rcases settleOp_cases s id with h | ⟨o, ho, s1, h1, h2⟩
  · rw [h]
  · have e1 : { s1 with groups := s.groups } = s := by
      rcases h1 with rfl | rfl
      · rfl
      · exact countOff_rest s o
    rcases h2 with h2 | ⟨h2, _⟩
    · rw [h2]
      conv_rhs => rw [← e1]
      have := congrArg State.ops e1
      have h3 := congrArg State.fences e1
      simp only at this h3
      rw [← this, ← h3]
    · rw [h2]
      conv_rhs => rw [← e1]
      have := congrArg State.ops e1
      have h3 := congrArg State.fences e1
      simp only at this h3
      rw [← this, ← h3]
      rfl

/-- Settling an operation changes no memory. -/
theorem settleOp_mem (s : State) (id : Nat) : (settleOp s id).mem = s.mem := by
  have := congrArg State.mem (settleOp_rest s id); exact this

/-- An ATOM's, future's or load's operation stays until its reply is taken. -/
theorem settleOp_keeps {s : State} {id : Nat} {o : Op} (h : opOf s id = some o)
    (hk : (∃ u d, o.kind = .rmw u (some d)) ∨ (∃ a b, o.kind = .futReg a b) ∨ o.kind = .futRes) : settleOp s id = s := by
  unfold settleOp
  rw [h]
  rcases hk with ⟨u, d, e⟩ | ⟨a, b, e⟩ | e <;> simp only [e]

/-- An update of a L1 changes only cores. -/
theorem l1Update_rest (s : State) (c pa : Nat) (bs : List Byte) : { l1Update s c pa bs with cores := s.cores } = s := by
  unfold l1Update; simp only; split <;> rfl

theorem l1Update_mem (s : State) (c pa : Nat) (bs : List Byte) : (l1Update s c pa bs).mem = s.mem := by
  have := congrArg State.mem (l1Update_rest s c pa bs); exact this

theorem l1Update_len (s : State) (c pa : Nat) (bs : List Byte) : (l1Update s c pa bs).cores.length = s.cores.length := by
  unfold l1Update; simp only; split
  · rfl
  · simp [setCore]

/-- An update of a L1 changes no pan. -/
theorem l1Update_pans (s : State) (c pa : Nat) (bs : List Byte) (k : Nat) : (coreOf (l1Update s c pa bs) k).pans = (coreOf s k).pans := by
  unfold l1Update; simp only; split
  · rfl
  · unfold coreOf setCore
    simp only [List.getD_eq_getElem?_getD, List.getElem?_set]
    by_cases h : c = k
    · subst h
      by_cases h2 : c < s.cores.length
      · simp [h2]
      · simp [h2]
    · simp [h]

/-- A refresh of a L1 changes only cores, and no pan. -/
theorem l1Refresh_rest (s : State) (c pa : Nat) : { l1Refresh s c pa with cores := s.cores } = s := by
  unfold l1Refresh; simp only; split <;> rfl

theorem l1Refresh_len (s : State) (c pa : Nat) : (l1Refresh s c pa).cores.length = s.cores.length := by
  unfold l1Refresh; simp only; split
  · rfl
  · simp [setCore]

theorem l1Refresh_pans (s : State) (c pa : Nat) (k : Nat) : (coreOf (l1Refresh s c pa) k).pans = (coreOf s k).pans := by
  unfold l1Refresh; simp only; split
  · rfl
  · unfold coreOf setCore
    simp only [List.getD_eq_getElem?_getD, List.getElem?_set]
    by_cases h : c = k
    · subst h
      by_cases h2 : c < s.cores.length
      · simp [h2]
      · simp [h2]
    · simp [h]

/-- What a write leaves in memory. -/
theorem wrote_physWrite {s : State} (pa n v : Nat) (h : MemOk s) : Wrote s (physWrite s pa n v) pa n v :=
  ⟨physRead_physWrite pa n v h, fun x hx => by rw [memRead_physWrite _ _ _ _ h, if_neg (by omega)]⟩

theorem Wrote.mono {s t t' : State} {pa n v : Nat} (h : Wrote s t pa n v) (e : t'.mem = t.mem) : Wrote s t' pa n v := by
  unfold Wrote physRead at *; rw [e]; exact h

theorem Wrote.from {s s' t : State} {pa n v : Nat} (h : Wrote s t pa n v) (e : s'.mem = s.mem) : Wrote s' t pa n v := by
  unfold Wrote at *; rw [e]; exact h

/-- One read-modify-write in memory. -/
theorem rmwElem_spec {s : State} {o : Op} {k pa : Nat} {e : Elem} (hm : MemOk s) (hs : e.space ≠ .scratch)
    (hb : badGranule? s pa e.size = none) :
    ∃ s2, rmwElem s o k e pa = (setElem s2 o k { e with st := .done, res := BitVec.ofNat 64 (physRead s pa e.size) }, []) ∧
      Wrote s s2 pa e.size (rmwValue e.u e.op (physRead s pa e.size) e.data.toNat e.data2.toNat) ∧
      s2.ops = s.ops ∧ s2.cores.length = s.cores.length ∧ s2.deferredRecs = s.deferredRecs ∧ s2.contexts = s.contexts ∧
      (∀ c, (coreOf s2 c).pans = (coreOf s c).pans) ∧ s2.grids = s.grids ∧ s2.queues = s.queues ∧
      (∀ q n, badGranule? s q n = none → badGranule? s2 q n = none) := by
  classical
  have key : ∀ (v : Nat) (dec : Option Nat), let s2 := noteZero (l1Update (physWrite s pa e.size v) o.core pa (natToBytes e.size v)) pa e.size dec
      Wrote s s2 pa e.size v ∧
      s2.ops = s.ops ∧ s2.cores.length = s.cores.length ∧ s2.deferredRecs = s.deferredRecs ∧ s2.contexts = s.contexts ∧
      (∀ c, (coreOf s2 c).pans = (coreOf s c).pans) ∧ s2.grids = s.grids ∧ s2.queues = s.queues ∧
      (∀ q n, badGranule? s q n = none → badGranule? s2 q n = none) := by
    intro v dec
    obtain ⟨x, hx⟩ : ∃ x, x = physWrite s pa e.size v := ⟨_, rfl⟩
    obtain ⟨y, hy⟩ : ∃ y, y = l1Update x o.core pa (natToBytes e.size v) := ⟨_, rfl⟩
    have hr := l1Update_rest x o.core pa (natToBytes e.size v)
    rw [← hy] at hr
    have hr2 : { x with mem := s.mem, badGranules := s.badGranules } = s := by rw [hx]; rfl
    have f1 := congrArg State.ops hr
    have f2 := congrArg State.deferredRecs hr
    have f3 := congrArg State.contexts hr
    have f4 := congrArg State.grids hr
    have f5 := congrArg State.queues hr
    have f6 := congrArg State.badGranules hr
    have g1 := congrArg State.ops hr2
    have g2 := congrArg State.deferredRecs hr2
    have g3 := congrArg State.contexts hr2
    have g4 := congrArg State.grids hr2
    have g5 := congrArg State.queues hr2
    have g6 := congrArg State.cores hr2
    simp only at f1 f2 f3 f4 f5 f6 g1 g2 g3 g4 g5 g6
    rw [← hx, ← hy]
    refine ⟨?_, f1.trans g1, ?_, f2.trans g2, f3.trans g3, ?_, f4.trans g4, f5.trans g5, ?_⟩
    · refine Wrote.mono (hx ▸ wrote_physWrite pa e.size v hm) ?_
      show y.mem = _; rw [hy, l1Update_mem]
    · show y.cores.length = _; rw [hy, l1Update_len, g6]
    · intro c
      show (coreOf y c).pans = _
      rw [hy, l1Update_pans]
      unfold coreOf; rw [g6]
    · intro q n hq
      have hsub : ∀ g ∈ y.badGranules, g ∈ s.badGranules := by
        intro g hg
        rw [f6, hx] at hg
        exact (List.mem_filter.mp hg).1
      have : badGranule? (noteZero y pa e.size dec) q n = ((granulesOf q n).find? (y.badGranules.contains ·)).map (· * 32) := rfl
      rw [this]
      unfold badGranule? at hq
      rw [Option.map_eq_none_iff, List.find?_eq_none] at hq ⊢
      intro z hz hc
      apply hq z hz
      simp only [List.contains_iff_mem] at hc ⊢
      exact hsub _ hc
  have key2 : ∀ (v : Nat) (dec : Option Nat) (b : Prop) [Decidable b],
      let s1 := noteZero (l1Update (physWrite s pa e.size v) o.core pa (natToBytes e.size v)) pa e.size dec
      let s2 := if b then l1Refresh s1 o.core pa else s1
      Wrote s s2 pa e.size v ∧
      s2.ops = s.ops ∧ s2.cores.length = s.cores.length ∧ s2.deferredRecs = s.deferredRecs ∧ s2.contexts = s.contexts ∧
      (∀ c, (coreOf s2 c).pans = (coreOf s c).pans) ∧ s2.grids = s.grids ∧ s2.queues = s.queues ∧
      (∀ q n, badGranule? s q n = none → badGranule? s2 q n = none) := by
    intro v dec b _
    obtain ⟨k1, k2, k3, k4, k5, k6, k7, k8, k9⟩ := key v dec
    by_cases hb : b
    · simp only [if_pos hb]
      generalize noteZero (l1Update (physWrite s pa e.size v) o.core pa (natToBytes e.size v)) pa e.size dec = s1 at *
      have hr := l1Refresh_rest s1 o.core pa
      have f0 := congrArg State.mem hr
      have f1 := congrArg State.ops hr
      have f2 := congrArg State.deferredRecs hr
      have f3 := congrArg State.contexts hr
      have f4 := congrArg State.grids hr
      have f5 := congrArg State.queues hr
      have f6 := congrArg State.badGranules hr
      simp only at f0 f1 f2 f3 f4 f5 f6
      refine ⟨k1.mono f0, f1.trans k2, (l1Refresh_len _ _ _).trans k3, f2.trans k4, f3.trans k5,
        fun c => (l1Refresh_pans _ _ _ c).trans (k6 c), f4.trans k7, f5.trans k8, fun q n h => ?_⟩
      have := k9 q n h
      unfold badGranule? at this ⊢
      rw [f6]; exact this
    · simp only [if_neg hb]
      exact ⟨k1, k2, k3, k4, k5, k6, k7, k8, k9⟩
  have both : ∀ sp : Space, sp ≠ .scratch → e.space = sp → ∃ s2,
      rmwElem s o k e pa = (setElem s2 o k { e with st := .done, res := BitVec.ofNat 64 (physRead s pa e.size) }, []) ∧
      Wrote s s2 pa e.size (rmwValue e.u e.op (physRead s pa e.size) e.data.toNat e.data2.toNat) ∧
      s2.ops = s.ops ∧ s2.cores.length = s.cores.length ∧ s2.deferredRecs = s.deferredRecs ∧ s2.contexts = s.contexts ∧
      (∀ c, (coreOf s2 c).pans = (coreOf s c).pans) ∧ s2.grids = s.grids ∧ s2.queues = s.queues ∧
      (∀ q n, badGranule? s q n = none → badGranule? s2 q n = none) := by
    intro sp hne hsp
    unfold rmwElem
    cases sp with
    | scratch => exact absurd rfl hne
    | _ =>
      simp only [hsp, hb]
      cases hk : o.kind with
      | rmw u d =>
        cases d with
        | none => exact ⟨_, rfl, key _ _⟩
        | some d => exact ⟨_, rfl, key2 _ _ True⟩
      | _ => exact ⟨_, rfl, key _ _⟩
  exact both _ hs rfl

/-- Nothing is harvested in a grid that is not reproducible. -/
theorem settleKeys_plain {g : Nat} {s : State} (h : gridRepro s g = false) (ks : List (Nat × Nat)) :
    settleKeys g (s, ks) = s := by
  simp [settleKeys, harvestKeys, h]

/-- Without phase completions nothing is harvested: at most waiters whose harvest is over go on. -/
theorem settleKeys_nil (g : Nat) (s : State) :
    settleKeys g (s, []) = if gridRepro s g then wakeHarvested s g else s := by
  simp [settleKeys, harvestKeys]

theorem setElem_mem (s : State) (o : Op) (k : Nat) (e : Elem) : (setElem s o k e).mem = s.mem := rfl

/-- Where lanes need not take consecutive places, an element is performed alone. -/
theorem performTogether_single {s : State} {o : Op} {k pa : Nat} {e : Elem} (ho : opOf s o.id = some o)
    (he : o.elems[k]? = some e) (hc : o.consecutive = false) : performTogether s o k e pa = performHome s o k e pa := by
  unfold performTogether withElem
  simp [hc, ho, he]

theorem walked_opOf {s t : State} (h : Walked s t) (n : Nat) : opOf t n = opOf s n := by
  have := congrArg State.ops h.1
  simp only at this
  simp [opOf, this]

/-- A late translation only walks. -/
theorem translateLate_walked {s s1 : State} {o : Op} {c : Context} {e : Elem} {pa : Nat} (h : translateLate s o c e = (.ok pa, s1)) :
    Walked s s1 := by
  have h1 := walked_translate s o.core c e.va .rmw o.sup
  have h2 := walked_walkAccess s c e.va .rmw o.sup
  unfold translateLate at h
  split at h <;> first
    | (rw [h] at h1; exact h1)
    | (rw [h] at h2; exact h2)

/-- What reaching the place of a request leaves: walks. -/
theorem reaches_walked {s s1 : State} {o : Op} {e : Elem} {pa : Nat} (h : Reaches s o e pa s1) : Walked s s1 := by
  unfold Reaches at h
  split at h
  · obtain ⟨_, c, _, h⟩ := h; exact translateLate_walked h
  · rw [h.2]; exact .refl _

/-- A request next to be performed acts at its place, with the lanes that take consecutive places with it. -/
theorem homeStep_reach {s s1 : State} {op k pa : Nat} {o : Op} {e : Elem} (ho : opOf s op = some o) (hn : elemNext s o k e = true)
    (hst : o.streamed s e = false) (hr : Reaches s o e pa s1) :
    homeStep s op k = ((settleOp (performTogether s1 o k e pa).1 op), (performTogether s1 o k e pa).2) := by
  have hw := reaches_walked hr
  have hid := opOf_id ho
  simp only [elemNext, Bool.and_eq_true, beq_iff_eq, bne_iff_ne, ne_eq, Bool.not_eq_true'] at hn
  obtain ⟨⟨⟨⟨h1, h2⟩, h3⟩, h4⟩, h5⟩ := hn
  unfold homeStep
  simp only [ho, h1]
  have h5' : (List.take k o.elems).any (fun x => x.st == ElemState.pending) = false := h5
  have h3' : (e.space == .scratch) = false := by simpa using h3
  simp only [h2, h4, h5', hst, bne_self_eq_false, Bool.not_true, Bool.or_self, Bool.false_eq_true, if_false, h3', Bool.or_false]
  unfold Reaches at hr
  by_cases hl : o.lateTranslated = true
  · rw [if_pos hl] at hr
    obtain ⟨hb, c, hc, ht⟩ := hr
    have hcons : o.consecutive = false := by
      unfold Op.lateTranslated at hl
      unfold Op.consecutive
      cases hk : o.kind with
      | rmw a b => cases b <;> simp_all
      | _ => simp_all
    have ho1 : opOf s1 o.id = some o := by rw [walked_opOf hw, hid]; exact ho
    simp only [hl, Bool.not_true, Bool.false_eq_true, if_false, hb, hc, ht]
    rw [performTogether_single ho1 h1 hcons]
  · rw [if_neg hl] at hr
    obtain ⟨rfl, rfl⟩ := hr
    simp [hl]

theorem acquireOp_mem (s : State) (o : Op) : (acquireOp s o).mem = s.mem ∧ (acquireOp s o).ops = s.ops := by
  unfold acquireOp; split <;> exact ⟨rfl, rfl⟩

/-- The parts of being the element that is next. -/
theorem elemNext_parts {s : State} {o : Op} {k : Nat} {e : Elem} (hn : elemNext s o k e = true) :
    o.elems[k]? = some e ∧ e.space ≠ .scratch := by
  simp only [elemNext, Bool.and_eq_true, beq_iff_eq, bne_iff_ne, ne_eq, Bool.not_eq_true'] at hn
  exact ⟨hn.1.1.1.1, hn.1.1.2⟩

/-! ## Walks -/

/-- The entry of a leaf is what stands at its address. -/
theorem walkFrom_leaf {s : State} {va : Nat} (ls : List Nat) (node l pa : Nat) (e : DWord)
    (h : walkFrom s va ls node = .leaf l pa e) : e = pteAt s pa := by
  induction ls generalizing node with
  | nil => cases h
  | cons a t ih =>
    simp only [walkFrom] at h
    split at h
    · cases h
    · split at h
      · cases h
      · split at h
        · injection h with h1 h2 h3; subst h2; exact h3.symm
        · exact ih _ h

theorem physWrite_rest (s : State) (a n v : Nat) :
    { physWrite s a n v with mem := s.mem, badGranules := s.badGranules } = s := rfl

/-- A bit added where it is clear is a bit set. -/
theorem add_bit (e : BitVec 64) (i : Nat) (hi : i < 64) :
    e + (if e.getLsbD i then 0#64 else BitVec.ofNat 64 (2 ^ i)) = e ||| BitVec.ofNat 64 (2 ^ i) := by
  have hb : ∀ k, (BitVec.ofNat 64 (2 ^ i)).getLsbD k = decide (k = i ∧ k < 64) := by
    intro k
    rw [BitVec.getLsbD_ofNat, Nat.testBit_two_pow]
    by_cases hk : k = i
    · subst hk; simp [hi]
    · simp [hk, Ne.symm hk]
  by_cases h : e.getLsbD i = true
  · rw [if_pos h, BitVec.add_zero]
    apply BitVec.eq_of_getLsbD_eq
    intro k hk
    rw [BitVec.getLsbD_or, hb]
    by_cases hki : k = i
    · subst hki; rw [h]; rfl
    · simp [hki]
  · rw [if_neg h]
    apply BitVec.add_eq_or_of_and_eq_zero
    apply BitVec.eq_of_getLsbD_eq
    intro k hk
    rw [BitVec.getLsbD_and, hb]
    by_cases hki : k = i
    · subst hki; simp [h]
    · simp [hki]

/-- A and D set in an entry by addition, bit by bit. -/
theorem set_bits (e : BitVec 64) (a w : Bool) (k : Nat) (hk : k < 64) (ha : a = e.getLsbD 7) :
    (BitVec.ofNat 64 ((e.toNat + ((if a then 0 else 0x80) + (if w && !e.getLsbD 8 then 0x100 else 0))) % 256 ^ 8)).getLsbD k =
      (e.getLsbD k || k == 7 || (k == 8 && w)) := by
  subst ha
  have h : BitVec.ofNat 64 ((e.toNat + ((if e.getLsbD 7 then 0 else 0x80) + (if w && !e.getLsbD 8 then 0x100 else 0))) % 256 ^ 8) =
      (e ||| 0x80#64 ||| (if w then 0x100#64 else 0#64)) := by
    have : BitVec.ofNat 64 ((e.toNat + ((if e.getLsbD 7 then 0 else 0x80) + (if w && !e.getLsbD 8 then 0x100 else 0))) % 256 ^ 8) =
      e + ((if e.getLsbD 7 then 0#64 else 0x80#64) + (if w && !e.getLsbD 8 then 0x100#64 else 0#64)) := by
      apply BitVec.eq_of_toNat_eq
      cases e.getLsbD 7 <;> cases e.getLsbD 8 <;> cases w <;> simp <;> omega
    rw [this, ← BitVec.add_assoc, BitVec.or_assoc]
    have b7 : e + (if e.getLsbD 7 then 0#64 else 0x80#64) = e ||| 0x80#64 := add_bit e 7 (by norm_num)
    have b8 : (e ||| 0x80#64) + (if e.getLsbD 8 then 0#64 else 0x100#64) = (e ||| 0x80#64) ||| 0x100#64 := by
      have := add_bit (e ||| 0x80#64) 8 (by norm_num)
      rwa [show (e ||| 0x80#64).getLsbD 8 = e.getLsbD 8 by simp] at this
    rw [b7]
    cases w with
    | false => simp
    | true =>
      simp only [Bool.true_and, if_true]
      rw [← BitVec.or_assoc, ← b8]
      cases e.getLsbD 8 <;> rfl
  rw [h]
  simp only [BitVec.getLsbD_or]
  have h7 : (0x80#64).getLsbD k = (k == 7) := by
    have : ∀ k < 64, (0x80#64).getLsbD k = (k == 7) := by decide
    exact this k hk
  have h8 : (0x100#64).getLsbD k = (k == 8) := by
    have : ∀ k < 64, (0x100#64).getLsbD k = (k == 8) := by decide
    exact this k hk
  cases w <;> simp [h7, h8]

/-- The bits that a walk sets in the entry of a leaf of a good granule. -/
theorem orEntry_spec {s : State} (ctx : Nat) {pa : Nat} {e : DWord} (a w : Bool) (he : e = pteAt s pa) (ha : a = pteA e)
    (hb : badGranule? s pa 8 = none) (hm : MemOk s) :
    let t := orEntry s ctx pa e ((if a then 0 else 0x80) + (if w && !pteD e then 0x100 else 0))
    (∀ k < 64, (pteAt t pa).getLsbD k = (e.getLsbD k || k == 7 || (k == 8 && w))) ∧
    (∀ x, (x < pa ∨ pa + 8 ≤ x) → memRead t.mem x = memRead s.mem x) ∧
    { t with mem := s.mem, badGranules := s.badGranules } = s ∧ MemOk t := by
  subst ha
  intro t
  by_cases hs : (if pteA e then 0 else 0x80) + (if w && !pteD e then 0x100 else 0) = 0
  · have ht : t = s := by simp only [t, orEntry]; rw [if_pos hs]
    rw [ht]
    refine ⟨fun k hk => ?_, fun _ _ => rfl, rfl, hm⟩
    rw [← he]
    have hA : pteA e = true := by
      cases hh : pteA e
      · simp [hh] at hs
      · rfl
    have hD : w = true → pteD e = true := by intro hw; cases hh : pteD e <;> simp_all
    have hA : e.getLsbD 7 = true := hA
    have hD : w = true → e.getLsbD 8 = true := hD
    by_cases k7 : k = 7
    · subst k7; rw [hA]; rfl
    · by_cases k8 : k = 8
      · subst k8
        cases hw : w
        · cases BitVec.getLsbD e 8 <;> rfl
        · rw [hD hw]; rfl
      · have e7 : (k == 7) = false := beq_eq_false_iff_ne.mpr k7
        have e8 : (k == 8) = false := beq_eq_false_iff_ne.mpr k8
        rw [e7, e8]; cases BitVec.getLsbD e k <;> rfl
  · have ht : t = physWrite s pa 8 (e.toNat + ((if pteA e then 0 else 0x80) + (if w && !pteD e then 0x100 else 0))) := by
      simp only [t, orEntry]; rw [if_neg hs, hb]
    rw [ht]
    refine ⟨fun k hk => ?_, fun x hx => ?_, physWrite_rest _ _ _ _, memOk_physWrite _ _ _ hm⟩
    · unfold pteAt
      rw [physRead_physWrite _ _ _ hm]
      exact set_bits e (pteA e) w k hk rfl
    · rw [memRead_physWrite _ _ _ _ hm, if_neg (by omega)]

/-- A walk to a leaf (10 R192 to R195): its address, or the reason it denies the access; A set, and D for a write allowed. -/
theorem walkAccess_leaf {s : State} {c : Context} {va : DWord} {a : Access} {sup : Bool} {l pa : Nat} {e : DWord}
    (h0 : bits va 57 7 = 0) (h : walk s c.ptroot va.toNat = .leaf l pa e) (hb : badGranule? s pa 8 = none) (hm : MemOk s) :
    (∀ r, denied? a sup (pteR e) (pteW e) (pteX e) (pteS e) = some r →
      (walkAccess s c va a sup).1 = .error { va, access := a, reason := r, large := l == 2 }) ∧
    (denied? a sup (pteR e) (pteW e) (pteX e) (pteS e) = none → (walkAccess s c va a sup).1 =
      .ok (if l = 2 then pteFrame e + va.toNat % 2 ^ 29 else pteFrame e + va.toNat % 2 ^ 16)) ∧
    let t := (walkAccess s c va a sup).2
    let allowed := (denied? a sup (pteR e) (pteW e) (pteX e) (pteS e)).isNone
    (∀ k < 64, (pteAt t pa).getLsbD k = (e.getLsbD k || k == 7 || (k == 8 && (a.writes && allowed)))) ∧
    (∀ x, (x < pa ∨ pa + 8 ≤ x) → memRead t.mem x = memRead s.mem x) ∧
    { t with mem := s.mem, badGranules := s.badGranules } = s := by
  have he : e = pteAt s pa := walkFrom_leaf _ _ _ _ _ h
  unfold walkAccess
  simp only [h0, ne_eq, not_true, if_false, h]
  cases hd : denied? a sup (pteR e) (pteW e) (pteX e) (pteS e) with
  | some r =>
    have := orEntry_spec c.num (pteA e) false he rfl hb hm
    simp only [Bool.false_and, Bool.false_eq_true, if_false, Nat.add_zero, Bool.and_false] at this
    refine ⟨fun r' h' => (by cases h'; rfl), fun h' => (by cases h'), ?_⟩
    simp only [Option.isNone_some, Bool.and_false]
    exact ⟨this.1, this.2.1, this.2.2.1⟩
  | none =>
    have := orEntry_spec c.num (pteA e) a.writes he rfl hb hm
    refine ⟨fun r' h' => (by cases h'), fun _ => rfl, ?_⟩
    simp only [Option.isNone_none, Bool.and_true]
    exact ⟨this.1, this.2.1, this.2.2.1⟩

theorem setCore_rest (s : State) (c : Nat) (k : Core) : { setCore s c k with cores := s.cores } = s := rfl

/-- A core that has been replaced. -/
theorem coreOf_setCore (s : State) (c : Nat) (k : Core) (h : c < s.cores.length) : coreOf (setCore s c k) c = k := by
  simp [coreOf, setCore, List.getD, h]

/-! ## Records and futures -/

theorem badOf_ops {s t : State} (h : t.badGranules = s.badGranules) (a n : Nat) : badGranule? t a n = badGranule? s a n := by
  unfold badGranule?; rw [h]

/-- Filing changes only cores and contexts. -/
theorem fileRec_keeps {s t : State} {c : Nat} {r : ThreadRec} (h : fileRec s c r = some t) :
    { t with cores := s.cores, contexts := s.contexts } = s := by
  unfold fileRec at h
  split at h
  · cases h
    rename_i t h
    unfold fileInRake at h
    simp only [Option.map_eq_some_iff] at h
    obtain ⟨i, _, rfl⟩ := h
    rfl
  · simp only [Option.bind_eq_some_iff] at h
    obtain ⟨c, _, h⟩ := h
    split at h
    · cases h; rfl
    · cases h

/-- Filing or deferring changes only cores, contexts and the deferred records. -/
theorem fileOrDefer_keeps (s : State) (c fut : Nat) (r : ThreadRec) :
    { fileOrDefer s c fut r with cores := s.cores, contexts := s.contexts, deferredRecs := s.deferredRecs } = s := by
  unfold fileOrDefer
  split
  · rfl
  · split
    · rename_i t h
      have : { t with cores := s.cores, contexts := s.contexts } = s := by
        split at h
        · cases h
        · exact fileRec_keeps h
      conv_rhs => rw [← this]
      have h2 := congrArg State.deferredRecs this
      simp only at h2
      rw [← h2]
    · rfl

theorem updGrid_rest (s : State) (n : Nat) (f : Grid → Grid) : { updGrid s n f with grids := s.grids } = s := by
  unfold updGrid; split <;> rfl

/-- A grid that has been updated. -/
theorem gridOf_updGrid {s : State} {n : Nat} {g : Grid} (h : gridOf s n = some g) (f : Grid → Grid) (hf : (f g).uid = g.uid) :
    gridOf (updGrid s n f) n = some (f g) := by
  have hu : g.uid = n := by simpa using List.find?_some h
  unfold updGrid; rw [h]
  simp only
  have := find_map_key Grid.uid s.grids g (f g) n (by rw [hf, hu]) h
  show List.find? _ (s.grids.map fun x => if x.uid = (f g).uid then f g else x) = _
  rw [hf, hu]; exact this

/-- An operation stays found when another joins. -/
theorem opOf_append {s : State} {n : Nat} {o x : Op} (h : opOf s n = some o) : opOf { s with ops := s.ops ++ [x] } n = some o := by
  unfold opOf at *
  simp only
  rw [List.find?_append, h]; rfl

/-- The release of a record does what 04 R95 says. -/
theorem releaseRec_spec (s : State) (o : Op) (fut : Nat) (counted : Bool) (r : ThreadRec) :
    Released s o fut counted r (releaseRec s o fut counted r) := by
  unfold Released releaseRec
  by_cases hl : gridLive s r.grid = true
  · rw [if_pos hl]
    refine ⟨_, rfl, ?_⟩
    simp only [hl, Bool.not_true, Bool.false_eq_true, if_false]
    by_cases hg : r.gated = true
    · rw [if_pos hg]
      simp only [hg, if_true]
      exact ⟨_, _, rfl, rfl, rfl, rfl, rfl, rfl, rfl, rfl, rfl, rfl⟩
    · rw [if_neg hg]
      simp [hg]
  · rw [if_neg hl]
    simp [hl]

/-- The release of a record leaves memory, blocks and the operations in flight. -/
theorem releaseRec_keeps (s : State) (o : Op) (fut : Nat) (counted : Bool) (r : ThreadRec) :
    (releaseRec s o fut counted r).mem = s.mem ∧ (releaseRec s o fut counted r).blocks = s.blocks ∧
    ∀ n x, opOf s n = some x → opOf (releaseRec s o fut counted r) n = some x := by
  have hc : ∀ b : Bool, let s1 := if b then updGrid s r.grid (fun g => { g with orphans := g.orphans - 1 }) else s
      { s1 with grids := s.grids } = s := by
    intro b; cases b
    · rfl
    · exact updGrid_rest _ _ _
  unfold releaseRec
  by_cases hl : gridLive s r.grid = true
  · simp only [hl, Bool.not_true, Bool.false_eq_true, if_false]
    have h := hc counted
    simp only at h
    generalize (if counted = true then updGrid s r.grid (fun g => { g with orphans := g.orphans - 1 }) else s) = s1 at h
    have e1 := congrArg State.mem h
    have e2 := congrArg State.blocks h
    have e3 := congrArg State.ops h
    simp only at e1 e2 e3
    by_cases hg : r.gated = true
    · simp only [hg, if_true]
      refine ⟨e1, e2, fun n x hx => ?_⟩
      exact opOf_append (s := { s1 with nextId := s1.nextId + 1 }) (by unfold opOf; simp only; rw [e3]; exact hx)
    · simp only [hg, if_false, Bool.false_eq_true]
      have k := fileOrDefer_keeps s1 o.core fut { r with lt := o.lt }
      have k1 := congrArg State.mem k
      have k2 := congrArg State.blocks k
      have k3 := congrArg State.ops k
      simp only at k1 k2 k3
      simp only [hg] at k1 k2 k3
      refine ⟨k1.trans e1, k2.trans e2, fun n x hx => ?_⟩
      unfold opOf
      rw [k3, e3]; exact hx
  · simp [hl]

/-- Records released one after another. -/
theorem releaseAll_spec (o : Op) (fut : Nat) (rs : List ThreadRec) (s : State) :
    ReleasedAll o fut s rs (rs.foldl (fun s r => releaseRec s o fut true r) s) := by
  induction rs generalizing s with
  | nil => exact .nil s
  | cons r rs ih => exact .cons _ _ _ _ _ (releaseRec_spec _ _ _ _ _) (ih _)

/-- Records released leave memory and the operations in flight. -/
theorem releaseAll_keeps (o : Op) (fut : Nat) (rs : List ThreadRec) (s : State) :
    (rs.foldl (fun s r => releaseRec s o fut true r) s).mem = s.mem ∧
    ∀ n x, opOf s n = some x → opOf (rs.foldl (fun s r => releaseRec s o fut true r) s) n = some x := by
  induction rs generalizing s with
  | nil => exact ⟨rfl, fun _ _ h => h⟩
  | cons r rs ih =>
    have h := ih (releaseRec s o fut true r)
    have k := releaseRec_keeps s o fut true r
    exact ⟨h.1.trans k.1, fun n x hx => h.2 n x (k.2.2 n x hx)⟩

/-- The write of a future's word. -/
theorem futWrite_spec {s : State} (core pa v : Nat) (hm : MemOk s) :
    let x := l1Update (physWrite s pa 8 v) core pa (natToBytes 8 v)
    Wrote s x pa 8 v ∧ x.cores.length = s.cores.length ∧ { x with mem := s.mem, badGranules := s.badGranules, cores := s.cores } = s := by
  intro x
  have h := l1Update_rest (physWrite s pa 8 v) core pa (natToBytes 8 v)
  refine ⟨Wrote.mono (wrote_physWrite pa 8 v hm) (l1Update_mem _ _ _ _), l1Update_len _ _ _ _, ?_⟩
  have : { x with mem := s.mem, badGranules := s.badGranules, cores := s.cores } =
    { { x with cores := (physWrite s pa 8 v).cores } with mem := s.mem, badGranules := s.badGranules } := rfl
  rw [this, h]; rfl

/-- A future's word from its fields. -/
theorem futWord_eq (h c st : Nat) (hc : c < 2 ^ 14) : futWord h c st = h * 2 ^ 16 + c * 4 + st := by
  unfold futWord; rw [Nat.mod_eq_of_lt hc]

/-- The element that is next exists. -/
theorem elemNext_lt {s : State} {k : Nat} {o : Op} {e : Elem} (h : elemNext s o k e = true) : k < o.elems.length := by
  have := (elemNext_parts h).1
  rcases Nat.lt_or_ge k o.elems.length with h | h
  · exact h
  · rw [List.getElem?_eq_none h] at this; cases this

/-- A block that holds records is found as it was put. -/
theorem blockOf_setBlock_cons (s : State) (b : Block) (h : b.recs ≠ []) : blockOf (setBlock s b) b.addr = b := by
  unfold blockOf setBlock
  cases hb : b.recs with
  | nil => exact absurd hb h
  | cons a t => simp

/-- A block without records is gone. -/
theorem blockOf_setBlock_nil (s : State) (b : Block) (h : b.recs = []) : (blockOf (setBlock s b) b.addr).recs = [] := by
  unfold blockOf setBlock
  simp only [h, List.isEmpty_nil, if_true]
  have : (List.filter (fun x => x.addr != b.addr) s.blocks).find? (fun x => x.addr == b.addr) = none := by
    rw [List.find?_eq_none]
    intro x hx
    have := (List.mem_filter.mp hx).2
    simpa using this
  rw [this]; rfl

/-- The code that a FRES receives for a word: resolved now, resolved before, or reserved. -/
def futRes3 (w : Nat) : Nat :=
  match futState w with
  | 2 => 1
  | 3 => 2
  | _ => 0


/-- The home's step of a FRES or of a COPY.F: it resolves a pending word, else only replies. -/
theorem performHome_future {s : State} {o : Op} {e : Elem} {pa : Nat} (k : Nat) (hk : o.kind = .futRes ∨ ∃ cid, o.kind = .copyF cid)
    (hb : badGranule? s pa 8 = none) (w : Nat) (hw : physRead s pa 8 = w) (p : State × List (Nat × Nat)) (hpd : p = performHome s o k e pa) :
    ∃ e' : Elem, e'.st = .done ∧
      (o.kind = .futRes → e' = { e with st := .done, res := BitVec.ofNat 64 (futRes3 w), data2 := BitVec.ofNat 64 w }) ∧
      (w % 4 < 2 → p = (resolveFuture (setElem s o k e') o pa, [])) ∧
      (o.kind = .futRes → 2 ≤ w % 4 → p = (setElem s o k e', [])) ∧ p.2 = [] := by
  have hf4 : futState w < 4 := Nat.mod_lt _ (by norm_num)
  rcases hk with hk | ⟨cid, hk⟩
  · have hp : p = (if futRes3 w = 0 then
        resolveFuture (setElem s o k { e with st := .done, res := BitVec.ofNat 64 (futRes3 w), data2 := BitVec.ofNat 64 w }) o pa
        else setElem s o k { e with st := .done, res := BitVec.ofNat 64 (futRes3 w), data2 := BitVec.ofNat 64 w }, []) := by
      rw [hpd]
      unfold performHome; simp only [hk, hb, hw]; rfl
    refine ⟨_, rfl, fun _ => rfl, ?_, ?_, by rw [hp]⟩
    · intro hlt
      have : futRes3 w = 0 := by
        have : futState w < 2 := hlt
        unfold futRes3
        split <;> omega
      rw [hp, if_pos this]
    · intro _ hge
      have : ¬ futRes3 w = 0 := by
        have h2 : 2 ≤ w % 4 := hge
        have h4 : w % 4 < 4 := hf4
        unfold futRes3 futState
        rcases (by omega : w % 4 = 2 ∨ w % 4 = 3) with h | h <;> rw [h] <;> decide
      rw [hp, if_neg this]
  · have hp : p = (if futState w < 2 then resolveFuture (setElem s o k { e with st := .done }) o pa
        else report (setElem s o k { e with st := .done }) (copyFRecord (setElem s o k { e with st := .done }) o e w), []) := by
      rw [hpd]
      unfold performHome; simp only [hk, hb, hw]
    refine ⟨{ e with st := .done }, rfl, ?_, ?_, ?_, by rw [hp]⟩
    · intro h; rw [hk] at h; cases h
    · intro hlt
      have : futState w < 2 := hlt
      rw [hp, if_pos this]
    · intro h; rw [hk] at h; cases h

/-! ## PGMAP and fault records -/

/-- A walk that ends at a leaf sets its A bit, and nothing else. -/
theorem orEntry_seen (s : State) (c : Context) (pa : Nat) (e : DWord) :
    LeafSeen s c pa e (orEntry s c.num pa e (if pteA e then 0 else 0x80)) := by
  unfold LeafSeen orEntry
  by_cases ha : pteA e = true
  · simp [ha]
  · rw [if_neg ha, if_neg ha]
    cases badGranule? s pa 8 <;> rfl

/-- A lane of PGMAP does what 10 R201 says. -/
theorem pgmapLane_spec (s : State) (c : Context) (va : DWord) (rw : Bool) :
    Mapped s c va rw (pgmapLane s c va rw).1 (pgmapLane s c va rw).2 := by
  unfold Mapped pgmapLane
  by_cases h0 : bits va 57 7 ≠ 0 ∨ inFabric c va = true
  · rw [if_pos h0, if_pos h0]; exact ⟨rfl, rfl⟩
  · rw [if_neg h0, if_neg h0]
    cases hw : walk s c.ptroot va.toNat with
    | leaf l pa e => exact ⟨rfl, orEntry_seen s c pa e⟩
    | malformed l pa => exact ⟨rfl, rfl⟩
    | invalid l pa =>
      simp only
      by_cases hl : l < 3
      · rw [if_pos hl, if_pos hl]; exact ⟨rfl, rfl⟩
      · rw [if_neg hl, if_neg hl]
        unfold poolTake
        obtain ⟨n, hn⟩ : ∃ n, n = physRead s c.pool 8 := ⟨_, rfl⟩
        simp only [← hn]
        by_cases h2 : n = 0
        · rw [if_pos h2, if_pos h2]; exact ⟨rfl, rfl⟩
        · rw [if_neg h2, if_neg h2]
          simp only [poolReturn, swapFailed, pteAt, poolEntry]
          generalize physZero (physWrite s c.pool 8 (n - 1)) _ _ = s1
          cases badGranule? s1 pa 8 <;> exact ⟨rfl, rfl⟩

/-- The lanes of a PGMAP one after another. -/
theorem pgmapLanes_spec (u : Iss) (f : MFmt) (ls : List Nat) :
    MappedAll u.ctx (effAddr u f) (f.mod.getLsbD 0) u.s ls (pgmapLanes u f ls).2 (pgmapLanes u f ls).1 := by
  have gen : ∀ (ls : List Nat) (acc : State × List (Nat × Nat)), ∃ rs,
      (ls.foldl (fun acc l =>
        let r := pgmapLane acc.1 u.ctx (effAddr u f l) (f.mod.getLsbD 0)
        (r.2, acc.2 ++ [(l, r.1)])) acc).2 = acc.2 ++ rs ∧
      MappedAll u.ctx (effAddr u f) (f.mod.getLsbD 0) acc.1 ls rs (ls.foldl (fun acc l =>
        let r := pgmapLane acc.1 u.ctx (effAddr u f l) (f.mod.getLsbD 0)
        (r.2, acc.2 ++ [(l, r.1)])) acc).1 := by
    intro ls
    induction ls with
    | nil => intro acc; exact ⟨[], by simp, .nil _⟩
    | cons l t ih =>
      intro acc
      rw [List.foldl_cons]
      obtain ⟨rs, h1, h2⟩ := ih ((pgmapLane acc.1 u.ctx (effAddr u f l) (f.mod.getLsbD 0)).2, acc.2 ++ [(l, (pgmapLane acc.1 u.ctx (effAddr u f l) (f.mod.getLsbD 0)).1)])
      refine ⟨(l, (pgmapLane acc.1 u.ctx (effAddr u f l) (f.mod.getLsbD 0)).1) :: rs, ?_, ?_⟩
      · rw [h1]; simp
      · exact .cons _ _ _ _ _ _ _ (pgmapLane_spec _ _ _ _) h2
  obtain ⟨rs, h1, h2⟩ := gen ls (u.s, [])
  rw [List.nil_append] at h1
  unfold pgmapLanes
  rw [h1]; exact h2

/-- What writing a record leaves. -/
theorem writeRec_spec {s : State} (c : Context) (r : DriverRec) (hm : MemOk s) :
    (∀ y, memRead (writeRec s c r).mem y = if c.fring ≤ y ∧ y < c.fring + 8 then (natToBytes 8 (c.tail + 1)).getD (y - c.fring) memDefault
        else if nextRecAddr c ≤ y ∧ y < nextRecAddr c + 64 then r.body.bytes.getD (y - nextRecAddr c) memDefault else memRead s.mem y) ∧
    physRead (writeRec s c r) c.fring 8 = (c.tail + 1) % 2 ^ 64 ∧ MemOk (writeRec s c r) ∧
    (writeRec s c r).irqs = s.irqs ++ [c.fvec] ∧ (writeRec s c r).undelivered = s.undelivered := by
  have hm1 : MemOk (physWriteBytes s (nextRecAddr c) r.body.bytes) := memOk_physWriteBytes _ _ hm
  obtain ⟨s2, hs2⟩ : ∃ s2, s2 = physWrite (physWriteBytes s (nextRecAddr c) r.body.bytes) c.fring 8 (c.tail + 1) := ⟨_, rfl⟩
  have hm2 : MemOk s2 := by rw [hs2]; exact memOk_physWrite _ _ _ hm1
  obtain ⟨s3, hs3⟩ : ∃ s3 : State, s3 = { setCtx s2 { c with tail := c.tail + 1 } with records := (nextRecAddr c, r) :: (setCtx s2 { c with tail := c.tail + 1 }).records.filter fun x => x.1 ≠ nextRecAddr c } := ⟨_, rfl⟩
  have q4 : s2.irqs = s.irqs := by rw [hs2, (physWrite_fields _ _ _ _).2.2.2.1, (physWriteBytes_fields _ _ _).2.2.2.1]
  have q5 : s2.undelivered = s.undelivered := by rw [hs2, (physWrite_fields _ _ _ _).2.2.2.2, (physWriteBytes_fields _ _ _).2.2.2.2]
  have e3 : s3.mem = s2.mem ∧ s3.irqs = s2.irqs ∧ s3.undelivered = s2.undelivered := by rw [hs3]; exact ⟨rfl, rfl, rfl⟩
  have e : ∃ s4, writeRec s c r = signal s4 c.fvec ∧ s4.mem = s3.mem ∧ s4.irqs = s3.irqs ∧ s4.undelivered = s3.undelivered := by
    cases hl : r.link with
    | group gid =>
      refine ⟨updGroup s3 gid fun g => { g with driver := g.driver.map fun d => { d with addr := some (nextRecAddr c) } }, ?_, ?_, ?_, ?_⟩
      · unfold writeRec; simp only [hl]; rw [hs3, hs2]
      · exact updGroup_mem _ _ _
      · have := congrArg State.irqs (updGroup_rest s3 gid fun g => { g with driver := g.driver.map fun d => { d with addr := some (nextRecAddr c) } }); exact this
      · have := congrArg State.undelivered (updGroup_rest s3 gid fun g => { g with driver := g.driver.map fun d => { d with addr := some (nextRecAddr c) } }); exact this
    | sluice a b d => exact ⟨s3, by unfold writeRec; simp only [hl]; rw [hs3, hs2], rfl, rfl, rfl⟩
    | copy a => exact ⟨s3, by unfold writeRec; simp only [hl]; rw [hs3, hs2], rfl, rfl, rfl⟩
    | log => exact ⟨s3, by unfold writeRec; simp only [hl]; rw [hs3, hs2], rfl, rfl, rfl⟩
  obtain ⟨s4, h4, m4, i4, u4⟩ := e
  have hmem : (writeRec s c r).mem = s2.mem := by rw [h4]; show s4.mem = _; rw [m4, e3.1]
  refine ⟨?_, ?_, ?_, ?_, ?_⟩
  · intro y
    rw [hmem, hs2, memRead_physWrite _ _ _ _ hm1, memRead_physWriteBytes _ _ _ hm, recBytes_length]
  · have := physRead_physWrite (s := physWriteBytes s (nextRecAddr c) r.body.bytes) c.fring 8 (c.tail + 1) hm1
    rw [← hs2] at this
    simp only [physRead, hmem] at this ⊢
    rw [this]
    have : (256 : Nat) ^ 8 = 2 ^ 64 := by norm_num
    rw [this]
  · unfold MemOk; rw [hmem]; exact hm2
  · rw [h4]; show s4.irqs ++ _ = _; rw [i4, e3.2.1, q4]
  · rw [h4]; show s4.undelivered = _; rw [u4, e3.2.2, q5]


end Sys2Proof.Machine
end

