-- ==== Sys2Proof/Laws/Integer.lean ====
section
/-!
SUPPORT. What the integer functions give: the last step of 22 R347, fields, shifts, and that an integer source's code fits
its type and makes no NaN.
-/
namespace Sys2Proof.Machine

theorem width_cases (t : IntTy) : t.width = 32 ∨ t.width = 64 := by cases t <;> simp [IntTy.width]

theorem intCvt_width (t : IntTy) : (intCvt t).width = t.width := by cases t <;> rfl

theorem wrapInt_lt (w : Nat) (i : Int) : wrapInt w i < 2 ^ w := by
  unfold wrapInt
  have h0 : (0 : Int) < (2 ^ w : Nat) := by positivity
  have := Int.emod_lt_of_pos i h0
  have := Int.emod_nonneg i (ne_of_gt h0)
  omega

theorem wrapInt_cast (w : Nat) (i : Int) : (wrapInt w i : Int) = i % 2 ^ w := by
  unfold wrapInt
  rw [Int.toNat_of_nonneg (Int.emod_nonneg _ (by positivity))]
  norm_num

theorem intVal_wrap (t : IntTy) (v : Int) (h1 : (intRange t.signed t.width).1 ≤ v)
    (h2 : v ≤ (intRange t.signed t.width).2) : intVal t (wrapInt t.width v) = v := by
  have hc := wrapInt_cast t.width v
  cases t <;>
    simp only [IntTy.width, IntTy.signed, intRange, intVal, Bool.true_and, Bool.false_and, Bool.false_eq_true, if_true,
      if_false] at * <;>
    norm_num at * <;> omega

theorem finishes (t : IntTy) (sat : Bool) (v : Int) : Finishes t sat v (intFinish t sat v) := by
  unfold Finishes intFinish
  cases sat
  · simp only [Bool.false_eq_true, if_false, wrapInt_cast]
    exact Int.emod_emod_of_dvd _ (dvd_refl _)
  · simp only [if_true]
    rw [intVal_wrap]
    · cases t <;> simp [clampInt, intRange, IntTy.signed, IntTy.width, min_comm]
    · simp [clampInt]
    · cases t <;> simp [clampInt, intRange, IntTy.signed, IntTy.width]

theorem intVal_inj_max (t : IntTy) (a b : Nat) :
    intVal t (if intVal t a < intVal t b then b else a) = max (intVal t a) (intVal t b) := by
  split <;> omega

theorem intVal_inj_min (t : IntTy) (a b : Nat) :
    intVal t (if intVal t b < intVal t a then b else a) = min (intVal t a) (intVal t b) := by
  split <;> omega

/-! ## Sources of an integer type -/

theorem applySign_lt (t : CvtTy) (neg abs : Bool) (x : Nat) (hf : cvtFmt t = none) (hx : x < 2 ^ t.width) :
    applySign t neg abs x < 2 ^ t.width := by
  unfold applySign
  simp only [hf]
  have hp : 0 < 2 ^ t.width := by positivity
  cases neg <;> cases abs <;> simp only [Bool.false_and, Bool.true_and, Bool.false_eq_true, if_false, if_true]
  · exact hx
  · split
    · exact Nat.mod_lt _ hp
    · exact hx
  · exact Nat.mod_lt _ hp
  · exact Nat.mod_lt _ hp

theorem fetchElem_int (E : REnv) (js : List MapLane) (ord : Nat) (x : RSrc) (l p : Nat) (L : Lane) (hf : cvtFmt x.src.t = none)
    (hw : 32 ≤ x.src.t.width) :
    (fetchElem E js ord x l p L).1 < 2 ^ x.src.t.width ∧ (fetchElem E js ord x l p L).2.produced = L.produced ∧
    (fetchElem E js ord x l p L).2.flags = L.flags := by
  have hp : 0 < 2 ^ x.src.t.width := by positivity
  unfold fetchElem
  cases hv : x.view with
  | none =>
    simp only
    exact ⟨applySign_lt _ _ _ _ hf (Nat.mod_lt _ hp), by simp, by simp⟩
  | some v =>
    simp only [hf, Option.isSome_none, Bool.false_eq_true, if_false, roundLane, fNone, Bool.or_false, BitVec.or_zero]
    refine ⟨applySign_lt _ _ _ _ hf ?_, ?_, ?_⟩
    · refine lt_of_lt_of_le (b := 2 ^ 32) ?_ (Nat.pow_le_pow_right (by norm_num) hw)
      exact wrapInt_lt 32 _
    · cases hL : L.produced <;> simp
    · cases hL : L.produced <;> simp

theorem intCvt_int (t : IntTy) : cvtFmt (intCvt t) = none ∧ 32 ≤ (intCvt t).width := by cases t <;> decide

/-- A source that is an integer of 32 or 64 bits. -/
def intSrc (x : Src) : Prop := cvtFmt x.t = none ∧ 32 ≤ x.t.width

theorem fetchSrc_int (E : REnv) (js : List MapLane) (ord : Nat) (u : Iss) (imm : Word) (x : Src) (l : Nat) (L : Lane)
    (hx : intSrc x) :
    (fetchElem E js ord (resolveSrc u imm x) l 0 L).1 < 2 ^ x.t.width ∧
    (fetchElem E js ord (resolveSrc u imm x) l 0 L).2.produced = L.produced ∧
    (fetchElem E js ord (resolveSrc u imm x) l 0 L).2.flags = L.flags :=
  fetchElem_int E js ord (resolveSrc u imm x) l 0 L hx.1 hx.2

theorem sourceCodes_one (u : Iss) (h : Hdr) (imm : Word) (x : Src) (l : Nat) :
    sourceCodes u h imm [x] l =
      (let a := fetchElem (intEnv (rEnv h u.p.fmt u.g.srseed)) (mapLanes u) 0 (resolveSrc u imm x) l 0 (Lane.start (u.g.srctr.get l))
       ([a.1], a.2)) := rfl

theorem sourceCodes_two (u : Iss) (h : Hdr) (imm : Word) (x y : Src) (l : Nat) :
    sourceCodes u h imm [x, y] l =
      (let E := intEnv (rEnv h u.p.fmt u.g.srseed)
       let a := fetchElem E (mapLanes u) 0 (resolveSrc u imm x) l 0 (Lane.start (u.g.srctr.get l))
       let b := fetchElem E (mapLanes u) 1 (resolveSrc u imm y) l 0 a.2
       ([a.1, b.1], b.2)) := rfl

theorem sourceCodes_three (u : Iss) (h : Hdr) (imm : Word) (x y z : Src) (l : Nat) :
    sourceCodes u h imm [x, y, z] l =
      (let E := intEnv (rEnv h u.p.fmt u.g.srseed)
       let a := fetchElem E (mapLanes u) 0 (resolveSrc u imm x) l 0 (Lane.start (u.g.srctr.get l))
       let b := fetchElem E (mapLanes u) 1 (resolveSrc u imm y) l 0 a.2
       let c := fetchElem E (mapLanes u) 2 (resolveSrc u imm z) l 0 b.2
       ([a.1, b.1, c.1], c.2)) := rfl

/-- Integer sources raise no NaN and no flag, and each code fits its type. -/
theorem sourceCodes_int (u : Iss) (h : Hdr) (imm : Word) (xs : List Src) (l : Nat) (hx : ∀ x ∈ xs, intSrc x) :
    (sourceCodes u h imm xs l).2.produced = false ∧ (sourceCodes u h imm xs l).2.flags = fNone := by
  unfold sourceCodes
  have : ∀ (ys : List (Src × Nat)) (acc : List Nat × Lane), (∀ y ∈ ys, intSrc y.1) →
      acc.2.produced = false → acc.2.flags = fNone →
      (ys.foldl (fun acc x =>
        let r := fetchElem (intEnv (rEnv h u.p.fmt u.g.srseed)) (mapLanes u) x.2 (resolveSrc u imm x.1) l 0 acc.2
        (acc.1 ++ [r.1], r.2)) acc).2.produced = false ∧
      (ys.foldl (fun acc x =>
        let r := fetchElem (intEnv (rEnv h u.p.fmt u.g.srseed)) (mapLanes u) x.2 (resolveSrc u imm x.1) l 0 acc.2
        (acc.1 ++ [r.1], r.2)) acc).2.flags = fNone := by
    intro ys
    induction ys with
    | nil => intro acc _ h1 h2; exact ⟨h1, h2⟩
    | cons y t ih =>
      intro acc hy h1 h2
      have hf := fetchSrc_int (intEnv (rEnv h u.p.fmt u.g.srseed)) (mapLanes u) y.2 u imm y.1 l acc.2 (hy y (by simp))
      exact ih _ (fun z hz => hy z (by simp [hz])) (by simpa [h1] using hf.2.1) (by simpa [h2] using hf.2.2)
  apply this
  · intro y hy
    have := (List.mem_zipIdx hy).2.2
    exact hx y.1 (this ▸ List.getElem_mem _)
  · rfl
  · rfl

theorem noNan_int (u : Iss) (h : Hdr) (imm : Word) (xs : List Src) (ls : List Nat) (hx : ∀ x ∈ xs, intSrc x) :
    noNanTrap u ls (fun l => (sourceCodes u h imm xs l).2) = true := by
  simp only [noNanTrap, Bool.or_eq_true, List.all_eq_true]
  right
  intro l _
  simp [(sourceCodes_int u h imm xs l hx).1]

/-- An instruction through `runLanes` computes what its lane function makes of the codes. -/
theorem computes_of {s : State} {i : Instr} {u : Iss} (h : issuer s i = some u) (hi : isIret i = false)
    (hr : entersRing i = true) (hd : Hdr) (d : Opnd) (wide : Bool) (xs : List Src) (imm : Word)
    (f : REnv → List RSrc → Nat → Lane → Nat × Lane) (Gives : Nat → Nat → Prop)
    (ho : operandsOk u hd d wide xs = true) (hx : ∀ x ∈ xs, intSrc x)
    (hf2 : ∀ l, (f (rEnv hd u.p.fmt u.g.srseed) (xs.map (resolveSrc u imm)) l (Lane.start (u.g.srctr.get l))).2 =
      (sourceCodes u hd imm xs l).2)
    (hf1 : ∀ l, Gives l (f (rEnv hd u.p.fmt u.g.srseed) (xs.map (resolveSrc u imm)) l (Lane.start (u.g.srctr.get l))).1) :
    Computes u hd d wide xs imm Gives (commit u (runLanes u hd d wide xs imm true f)) := by
  simp only [operandsOk, Bool.and_eq_true, Option.isNone_iff_eq_none] at ho
  have hn : noNanTrap u (resultLanes u hd d) (fun l => (f (rEnv hd u.p.fmt u.g.srseed) (xs.map (resolveSrc u imm)) l
      (Lane.start (u.g.srctr.get l))).2) = true := by
    simp only [hf2]; exact noNan_int u hd imm xs _ hx
  have := runLanes_effect h hi hd d wide xs imm true f rfl ho.1 ho.2 hn
  simp only [hf2, hr, Bool.true_and] at this
  exact ⟨_, fun l _ => hf1 l, this⟩

theorem codeOf_one (u : Iss) (h : Hdr) (imm : Word) (x : Src) (l : Nat) :
    codeOf u h imm [x] 0 l =
      (fetchElem (intEnv (rEnv h u.p.fmt u.g.srseed)) (mapLanes u) 0 (resolveSrc u imm x) l 0 (Lane.start (u.g.srctr.get l))).1 := rfl

/-- What the three shapes of the integer class compute. -/
theorem int1_computes {s : State} {i : Instr} {u : Iss} (h : issuer s i = some u) (hi : isIret i = false)
    (hr : entersRing i = true) (f : RFmt) (t : IntTy) (wide : Bool) (op : Nat → Nat) (Gives : Nat → Nat → Prop)
    (ho : operandsOk u f.h f.d wide [srcA f (intCvt t) 1] = true)
    (hg : ∀ l, Gives l (op (codeOf u f.h f.imm [srcA f (intCvt t) 1] 0 l))) :
    Computes u f.h f.d wide [srcA f (intCvt t) 1] f.imm Gives (commit u (int1 u f t wide op)) := by
  unfold int1
  refine computes_of h hi hr f.h f.d wide _ f.imm _ Gives ho ?_ ?_ ?_
  · intro x hx
    rw [List.mem_singleton] at hx
    subst hx; exact intCvt_int t
  · intro l; rw [sourceCodes_one]; rfl
  · intro l; exact hg l

theorem int2_computes {s : State} {i : Instr} {u : Iss} (h : issuer s i = some u) (hi : isIret i = false)
    (hr : entersRing i = true) (f : RFmt) (t : IntTy) (wide : Bool) (b : Src) (op : REnv → Nat → Nat → Nat)
    (Gives : Nat → Nat → Prop) (hb : intSrc b)
    (ho : operandsOk u f.h f.d wide [srcA f (intCvt t) 1, b] = true)
    (hg : ∀ l, Gives l (op (intEnv (rEnv f.h u.p.fmt u.g.srseed)) (codeOf u f.h f.imm [srcA f (intCvt t) 1, b] 0 l)
      (codeOf u f.h f.imm [srcA f (intCvt t) 1, b] 1 l))) :
    Computes u f.h f.d wide [srcA f (intCvt t) 1, b] f.imm Gives (commit u (int2 u f t wide b op)) := by
  unfold int2
  refine computes_of h hi hr f.h f.d wide _ f.imm _ Gives ho ?_ ?_ ?_
  · intro x hx
    rw [List.mem_cons, List.mem_singleton] at hx
    rcases hx with rfl | rfl
    · exact intCvt_int t
    · exact hb
  · intro l; rw [sourceCodes_two]; rfl
  · intro l; exact hg l

theorem int3_computes {s : State} {i : Instr} {u : Iss} (h : issuer s i = some u) (hi : isIret i = false)
    (hr : entersRing i = true) (f : RFmt) (t : IntTy) (wide : Bool) (b c : Src) (op : REnv → Nat → Nat → Nat → Nat)
    (Gives : Nat → Nat → Prop) (hb : intSrc b) (hc : intSrc c)
    (ho : operandsOk u f.h f.d wide [srcA f (intCvt t) 1, b, c] = true)
    (hg : ∀ l, Gives l (op (intEnv (rEnv f.h u.p.fmt u.g.srseed)) (codeOf u f.h f.imm [srcA f (intCvt t) 1, b, c] 0 l)
      (codeOf u f.h f.imm [srcA f (intCvt t) 1, b, c] 1 l) (codeOf u f.h f.imm [srcA f (intCvt t) 1, b, c] 2 l))) :
    Computes u f.h f.d wide [srcA f (intCvt t) 1, b, c] f.imm Gives (commit u (int3 u f t wide b c op)) := by
  unfold int3
  refine computes_of h hi hr f.h f.d wide _ f.imm _ Gives ho ?_ ?_ ?_
  · intro x hx
    rw [List.mem_cons, List.mem_cons, List.mem_singleton] at hx
    rcases hx with rfl | rfl | rfl
    · exact intCvt_int t
    · exact hb
    · exact hc
  · intro l; rw [sourceCodes_three]; rfl
  · intro l; exact hg l

/-! ## Bits of results -/

theorem codeOf_lt (u : Iss) (h : Hdr) (imm : Word) (xs : List Src) (k l : Nat) (hx : ∀ x ∈ xs, intSrc x) (y : Src)
    (hy : xs[k]? = some y) : codeOf u h imm xs k l < 2 ^ y.t.width := by
  have gen : ∀ (ys : List (Src × Nat)) (acc : List Nat × Lane), (∀ y ∈ ys, intSrc y.1) → ∀ j (z : Src × Nat),
      ys[j]? = some z →
      (ys.foldl (fun acc x =>
        let r := fetchElem (intEnv (rEnv h u.p.fmt u.g.srseed)) (mapLanes u) x.2 (resolveSrc u imm x.1) l 0 acc.2
        (acc.1 ++ [r.1], r.2)) acc).1.getD (acc.1.length + j) 0 < 2 ^ z.1.t.width ∧
      ∀ i < acc.1.length, (ys.foldl (fun acc x =>
        let r := fetchElem (intEnv (rEnv h u.p.fmt u.g.srseed)) (mapLanes u) x.2 (resolveSrc u imm x.1) l 0 acc.2
        (acc.1 ++ [r.1], r.2)) acc).1.getD i 0 = acc.1.getD i 0 := by
    intro ys
    induction ys with
    | nil => intro acc _ j z hz; simp at hz
    | cons y t ih =>
      intro acc hy' j z hz
      have hf := fetchSrc_int (intEnv (rEnv h u.p.fmt u.g.srseed)) (mapLanes u) y.2 u imm y.1 l acc.2 (hy' y (by simp))
      rw [List.foldl_cons]
      set v := fetchElem (intEnv (rEnv h u.p.fmt u.g.srseed)) (mapLanes u) y.2 (resolveSrc u imm y.1) l 0 acc.2
      have step := ih (acc.1 ++ [v.1], v.2) (fun z hz => hy' z (by simp [hz]))
      have keep : ∀ i < acc.1.length + 1, (t.foldl (fun acc x =>
          let r := fetchElem (intEnv (rEnv h u.p.fmt u.g.srseed)) (mapLanes u) x.2 (resolveSrc u imm x.1) l 0 acc.2
          (acc.1 ++ [r.1], r.2)) (acc.1 ++ [v.1], v.2)).1.getD i 0 = (acc.1 ++ [v.1]).getD i 0 := by
        cases t with
        | nil => intro i _; rfl
        | cons a t' => intro i hi; exact (step 0 a rfl).2 i (by simpa using hi)
      refine ⟨?_, ?_⟩
      · cases j with
        | zero =>
          simp at hz; subst hz
          have := keep acc.1.length (by omega)
          simp only [Nat.add_zero] at this ⊢
          rw [this]
          simpa using hf.1
        | succ j =>
          have := (step j z (by simpa using hz)).1
          simpa [Nat.add_assoc, Nat.add_comm 1 j] using this
      · intro i hi
        rw [keep i (by omega)]
        simp [List.getElem?_append_left hi]
  have := (gen xs.zipIdx ([], Lane.start (u.g.srctr.get l)) (fun z hz => by
      have := (List.mem_zipIdx hz).2.2
      exact hx z.1 (this ▸ List.getElem_mem _)) k (y, k) (by simp [hy])).1
  simpa [codeOf, sourceCodes] using this

theorem testBit_not (w b k : Nat) (hb : b < 2 ^ w) (hk : k < w) : (2 ^ w - 1 - b).testBit k = !b.testBit k := by
  rw [show 2 ^ w - 1 - b = 2 ^ w - (b + 1) by omega, Nat.testBit_two_pow_sub_succ hb]
  simp [hk]

theorem brev_bit (w a k : Nat) (hk : k < w) : (brevOp w a).testBit k = a.testBit (w - 1 - k) := by
  have gen : ∀ n r, ((List.range n).foldl (fun r k => 2 * r + (if a.testBit k then 1 else 0)) r) / 2 ^ n = r ∧
      ∀ k < n, ((List.range n).foldl (fun r k => 2 * r + (if a.testBit k then 1 else 0)) r).testBit k =
        a.testBit (n - 1 - k) := by
    intro n
    induction n with
    | zero => intro r; simp
    | succ n ih =>
      intro r
      rw [List.range_succ, List.foldl_append]
      simp only [List.foldl_cons, List.foldl_nil]
      obtain ⟨h1, h2⟩ := ih r
      set x := (List.range n).foldl (fun r k => 2 * r + (if a.testBit k then 1 else 0)) r
      refine ⟨?_, ?_⟩
      · rw [pow_succ', ← Nat.div_div_eq_div_mul]
        have : (2 * x + if a.testBit n then 1 else 0) / 2 = x := by split <;> omega
        rw [this, h1]
      · intro k hk
        cases k with
        | zero =>
          simp only [Nat.testBit_zero]
          cases hb : a.testBit n <;> simp [hb]
        | succ k =>
          rw [Nat.testBit_succ]
          have : (2 * x + if a.testBit n then 1 else 0) / 2 = x := by split <;> omega
          rw [this, h2 k (by omega)]
          congr 1
          omega
  exact (gen w 0).2 k hk

theorem brev_lt (w a : Nat) : brevOp w a < 2 ^ w := by
  have gen : ∀ n r, (List.range n).foldl (fun r k => 2 * r + (if a.testBit k then 1 else 0)) r < (r + 1) * 2 ^ n := by
    intro n
    induction n with
    | zero => intro r; simp
    | succ n ih =>
      intro r
      rw [List.range_succ, List.foldl_append]
      simp only [List.foldl_cons, List.foldl_nil]
      have := ih r
      rw [pow_succ, ← mul_assoc]
      split <;> omega
  have := gen w 0
  unfold brevOp
  omega

theorem shl_bit (w a n k : Nat) (hk : k < w) : (shlOp w a n).testBit k = (decide (n ≤ k) && a.testBit (k - n)) := by
  unfold shlOp
  split
  · have : ¬ n ≤ k := by omega
    simp [this]
  · rw [Nat.testBit_mod_two_pow, Nat.testBit_mul_two_pow]
    simp [hk]

theorem shr_bit (w a n k : Nat) (ha : a < 2 ^ w) : (shrOp w a n).testBit k = (decide (k + n < w) && a.testBit (k + n)) := by
  have hbig : ∀ j, w ≤ j → a.testBit j = false := fun j hj =>
    Nat.testBit_lt_two_pow (lt_of_lt_of_le ha (Nat.pow_le_pow_right (by norm_num) hj))
  unfold shrOp
  split
  · have : ¬ k + n < w := by omega
    simp [this]
  · rw [Nat.testBit_div_two_pow]
    by_cases h : k + n < w
    · simp [h]
    · simp [h, hbig _ (Nat.le_of_not_lt h)]

theorem sar_bit (t : IntTy) (a n k : Nat) (ht : t.signed = true) (ha : a < 2 ^ t.width) (hk : k < t.width) :
    (sarOp t a n).testBit k = a.testBit (min (k + min n (t.width - 1)) (t.width - 1)) := by
  have hw : 0 < t.width := by cases t <;> decide
  let x : BitVec t.width := BitVec.ofNat t.width a
  have hx : x.toNat = a := by simp [x, Nat.mod_eq_of_lt ha]
  have hi : x.toInt = intVal t a := by
    have h2 : 2 ^ t.width = 2 * 2 ^ (t.width - 1) := by
      rw [← pow_succ']; congr 1; omega
    rw [BitVec.toInt_eq_toNat_cond, hx]
    unfold intVal
    simp only [ht, Bool.true_and]
    by_cases h : 2 * a < 2 ^ t.width
    · have : ¬ 2 ^ (t.width - 1) ≤ a := by omega
      simp [h, this]
    · have : 2 ^ (t.width - 1) ≤ a := by omega
      simp [h, this]
  have : sarOp t a n = (x.sshiftRight (min n (t.width - 1))).toNat := by
    unfold sarOp
    have hc := wrapInt_cast t.width (intVal t a / (2 ^ min n (t.width - 1) : Nat))
    have : ((x.sshiftRight (min n (t.width - 1))).toNat : Int) = intVal t a / (2 ^ min n (t.width - 1) : Nat) % 2 ^ t.width := by
      rw [← hi, ← Int.shiftRight_eq_div_pow]
      simp only [BitVec.sshiftRight, BitVec.toNat_ofInt]
      rw [Int.toNat_of_nonneg (Int.emod_nonneg _ (by positivity))]
      norm_num
    omega
  rw [this, BitVec.testBit_toNat, BitVec.getLsbD_sshiftRight]
  have e : ∀ j, x.getLsbD j = a.testBit j := by intro j; rw [← BitVec.testBit_toNat, hx]
  have hm : x.msb = a.testBit (t.width - 1) := by rw [BitVec.msb_eq_getLsbD_last, e]
  have h1 : ¬ t.width ≤ k := by omega
  simp only [h1, decide_false, Bool.not_false, Bool.true_and, hm, e]
  by_cases h : min n (t.width - 1) + k < t.width
  · rw [if_pos h]; congr 1; omega
  · rw [if_neg h]; congr 1; omega

theorem bfi_bit (w a b c k : Nat) :
    (bfiOp w a b c).testBit k =
      if fieldPos w c ≤ k ∧ k < fieldPos w c + fieldLen w c then a.testBit (k - fieldPos w c) else b.testBit k := by
  unfold bfiOp fieldCtl
  show (b % 2 ^ fieldPos w c + b / 2 ^ (fieldPos w c + fieldLen w c) * 2 ^ (fieldPos w c + fieldLen w c) +
    a % 2 ^ fieldLen w c * 2 ^ fieldPos w c).testBit k = _
  generalize fieldPos w c = p
  generalize fieldLen w c = n
  have e : b % 2 ^ p + b / 2 ^ (p + n) * 2 ^ (p + n) + a % 2 ^ n * 2 ^ p =
      2 ^ p * (2 ^ n * (b / 2 ^ (p + n)) + a % 2 ^ n) + b % 2 ^ p := by
    rw [pow_add]; ring
  rw [e, Nat.testBit_two_pow_mul_add _ (Nat.mod_lt _ (by positivity)),
    Nat.testBit_two_pow_mul_add _ (Nat.mod_lt _ (by positivity)), Nat.testBit_mod_two_pow, Nat.testBit_mod_two_pow,
    Nat.testBit_div_two_pow]
  by_cases h1 : k < p
  · have : ¬ p ≤ k := by omega
    simp [h1, this]
  · have h1' : p ≤ k := by omega
    by_cases h2 : k - p < n
    · have : k < p + n := by omega
      simp [h1, h2, h1', this]
    · have : ¬ k < p + n := by omega
      simp only [h1, h2, h1', this, if_false, and_false]
      congr 1; omega

theorem bfe_bit (t : IntTy) (a c k : Nat) (hk : k < t.width) :
    (bfeOp t a c).testBit k =
      if k < fieldLen t.width c then a.testBit (fieldPos t.width c + k)
      else t.signed && decide (0 < fieldLen t.width c) && a.testBit (fieldPos t.width c + fieldLen t.width c - 1) := by
  have hlen : fieldLen t.width c ≤ t.width := by unfold fieldLen; omega
  have hu : bfeOp t a c = (let f := a / 2 ^ fieldPos t.width c % 2 ^ fieldLen t.width c
      if t.signed && decide (0 < fieldLen t.width c) && f.testBit (fieldLen t.width c - 1) then
        f + 2 ^ t.width - 2 ^ fieldLen t.width c else f) := rfl
  rw [hu]
  generalize fieldPos t.width c = p
  generalize hn : fieldLen t.width c = n at *
  generalize t.width = w at *
  simp only
  have hf : a / 2 ^ p % 2 ^ n < 2 ^ n := Nat.mod_lt _ (by positivity)
  have hb : ∀ j, (a / 2 ^ p % 2 ^ n).testBit j = (decide (j < n) && a.testBit (p + j)) := by
    intro j; rw [Nat.testBit_mod_two_pow, Nat.testBit_div_two_pow, Nat.add_comm]
  by_cases hc : (t.signed && decide (0 < n) && (a / 2 ^ p % 2 ^ n).testBit (n - 1)) = true
  · rw [if_pos hc]
    have e : a / 2 ^ p % 2 ^ n + 2 ^ w - 2 ^ n = 2 ^ n * (2 ^ (w - n) - 1) + a / 2 ^ p % 2 ^ n := by
      have : 2 ^ w = 2 ^ n * 2 ^ (w - n) := by rw [← pow_add]; congr 1; omega
      have h1 : 1 ≤ 2 ^ (w - n) := Nat.one_le_two_pow
      rw [this, Nat.mul_sub, Nat.mul_one]
      have : 2 ^ n ≤ 2 ^ n * 2 ^ (w - n) := Nat.le_mul_of_pos_right _ (by positivity)
      omega
    rw [e, Nat.testBit_two_pow_mul_add _ hf]
    simp only [Bool.and_eq_true, decide_eq_true_eq, hb] at hc
    obtain ⟨⟨h1, h2⟩, h3, h4⟩ := hc
    by_cases h : k < n
    · simp [h, hb]
    · have e2 : p + (n - 1) = p + n - 1 := by omega
      have h5 : k - n < w - n := by omega
      simp only [h, if_false, Nat.testBit_two_pow_sub_one, h5, decide_true, h1, h2, Bool.true_and, ← e2, h4]
  · rw [if_neg hc, hb]
    by_cases h : k < n
    · simp [h]
    · simp only [h, decide_false, Bool.false_and, if_false]
      simp only [hb, Bool.not_eq_true] at hc
      by_cases h0 : 0 < n
      · have e2 : p + (n - 1) = p + n - 1 := by omega
        have h6 : n - 1 < n := by omega
        simp only [h6, decide_true, Bool.true_and, e2] at hc
        exact hc.symm
      · simp [h0]

theorem clz_spec (w a : Nat) (ha : a < 2 ^ w) :
    clzOp w a ≤ w ∧ (∀ k < clzOp w a, a.testBit (w - 1 - k) = false) ∧
    (clzOp w a < w → a.testBit (w - 1 - clzOp w a) = true) := by
  unfold clzOp bitLen
  by_cases h0 : a = 0
  · simp [h0]
  · rw [if_neg h0]
    have h1 : Nat.log2 a < w := (Nat.log2_lt h0).mpr ha
    refine ⟨by omega, ?_, ?_⟩
    · intro k hk
      apply Nat.testBit_lt_two_pow
      exact lt_of_lt_of_le (Nat.lt_log2_self (n := a)) (Nat.pow_le_pow_right (by norm_num) (by omega))
    · intro _
      have : w - 1 - (w - (Nat.log2 a + 1)) = Nat.log2 a := by omega
      rw [this]
      exact Nat.testBit_log2 h0

theorem shf_bit (right : Bool) (w a b c k : Nat) (ha : a < 2 ^ w) (hk : k < w) :
    (shfOp right w a b c).testBit k =
      (let n := min c w
       let j := if right then k + n else k + w - n
       if j < w then a.testBit j else decide (j < 2 * w) && b.testBit (j - w)) := by
  have hx : ∀ j, (a + b * 2 ^ w).testBit j = if j < w then a.testBit j else b.testBit (j - w) := by
    intro j
    rw [show a + b * 2 ^ w = 2 ^ w * b + a by ring, Nat.testBit_two_pow_mul_add _ ha]
  unfold shfOp
  simp only
  generalize hn : min c w = n
  have hnw : n ≤ w := by omega
  cases right
  · simp only [Bool.false_eq_true, if_false]
    rw [Nat.testBit_mod_two_pow, Nat.testBit_div_two_pow, Nat.testBit_mul_two_pow, hx]
    have h1 : n ≤ k + w := by omega
    have h2 : k + w - n < 2 * w := by omega
    simp [hk, h1, h2]
  · simp only [if_true]
    rw [Nat.testBit_mod_two_pow, Nat.testBit_div_two_pow, hx]
    have h2 : k + n < 2 * w := by omega
    simp [hk, h2]

theorem lea_spec (t : IntTy) (a b c : Nat) :
    ((leaOp t a b c : Nat) : Int) % 2 ^ t.width =
      (a + (if t = .s64 then intVal .s32 b else (b : Int)) * 2 ^ (if t.width = 64 then c % 64 else c % 32)) %
        2 ^ t.width := by
  have hb : intVal .s32 b = (if decide (2 ^ 31 ≤ b) then (b : Int) - 2 ^ 32 else (b : Int) : Int) := rfl
  unfold leaOp
  simp only [wrapInt_cast, Int.emod_emod_of_dvd _ (dvd_refl _)]
  cases t <;> simp [IntTy.width, hb]

theorem icmp_spec (cc : Nat) (a b : Int) : icmpOp cc a b = true ↔ icmpHolds cc a b := by
  unfold icmpOp icmpHolds
  split <;> simp

theorem pack4_gen (B : Nat → Nat) (c : Nat) : (List.range 4).foldl (fun r k => r + B k * c ^ k) 0 =
      c * (c * (c * B 3 + B 2) + B 1) + B 0 := by
  simp only [List.range_succ, List.range_zero, List.foldl_append, List.foldl_cons, List.foldl_nil, List.nil_append]
  ring

theorem pack4_sum (B : Nat → Nat) : (List.range 4).foldl (fun r k => r + B k * 2 ^ (8 * k)) 0 =
      2 ^ 8 * (2 ^ 8 * (2 ^ 8 * B 3 + B 2) + B 1) + B 0 := by
  rw [← pack4_gen]
  simp only [pow_mul]

theorem pack4_bit (B : Nat → Nat) (h : ∀ k, B k < 2 ^ 8) (k j : Nat) (hk : k < 4) (hj : j < 8) :
    ((List.range 4).foldl (fun r k => r + B k * 2 ^ (8 * k)) 0).testBit (8 * k + j) = (B k).testBit j := by
  rw [pack4_sum, Nat.testBit_two_pow_mul_add _ (h 0), Nat.testBit_two_pow_mul_add _ (h 1),
    Nat.testBit_two_pow_mul_add _ (h 2)]
  rcases (by omega : k = 0 ∨ k = 1 ∨ k = 2 ∨ k = 3) with rfl | rfl | rfl | rfl
  · simp [hj]
  · rw [if_neg (by omega), if_pos (by omega), show 8 * 1 + j - 8 = j by omega]
  · rw [if_neg (by omega), if_neg (by omega), if_pos (by omega), show 8 * 2 + j - 8 - 8 = j by omega]
  · rw [if_neg (by omega), if_neg (by omega), if_neg (by omega), show 8 * 3 + j - 8 - 8 - 8 = j by omega]
theorem pool_bit (a b k j : Nat) (hj : j < 8) :
    ((if k < 4 then a / 2 ^ (8 * k) else b / 2 ^ (8 * (k - 4))) % 256).testBit j = poolBit a b k j := by
  have : ∀ x : Nat, (x % 256).testBit j = x.testBit j := by
    intro x
    have := Nat.testBit_mod_two_pow x 8 j
    simpa [hj] using this
  rw [this]
  unfold poolBit
  split <;> simp [Nat.testBit_div_two_pow, Nat.add_comm]

/-- A selector's byte before its bits are reversed. -/
theorem fill_bit (x n i : Nat) (hx : x < 256) (p : Nat → Bool) (hp : ∀ i < 8, x.testBit i = p i) (hi : i < 8) :
    (match n with
      | 0 => x
      | 1 => 0
      | 2 => if x.testBit 7 then 255 else 0
      | _ => 255 : Nat).testBit i = (match n with
      | 0 => p i
      | 1 => false
      | 2 => p 7
      | _ => true) ∧
    (match n with
      | 0 => x
      | 1 => 0
      | 2 => if x.testBit 7 then 255 else 0
      | _ => 255 : Nat) < 256 := by
  have h255 : (255 : Nat).testBit i = true := by
    have := Nat.testBit_two_pow_sub_one 8 i
    simpa [hi] using this
  split
  · exact ⟨hp i hi, hx⟩
  · exact ⟨by simp, by norm_num⟩
  · rw [← hp 7 (by norm_num)]
    cases h : x.testBit 7
    · exact ⟨by simp, by simp⟩
    · exact ⟨by simp [h255], by simp⟩
  · exact ⟨h255, by norm_num⟩

theorem prmt_byte_bit (a b sel j : Nat) (hj : j < 8) :
    (prmtByte (fun k => (if k < 4 then a / 2 ^ (8 * k) else b / 2 ^ (8 * (k - 4))) % 256) sel).testBit j =
      prmtBit a b sel j ∧
    prmtByte (fun k => (if k < 4 then a / 2 ^ (8 * k) else b / 2 ^ (8 * (k - 4))) % 256) sel < 2 ^ 8 := by
  have key : ∀ x : Nat, x < 256 → (∀ i < 8, x.testBit i = poolBit a b (sel % 8) i) →
      (let f := match sel / 8 % 4 with
        | 0 => x
        | 1 => 0
        | 2 => if x.testBit 7 then 255 else 0
        | _ => 255
       if sel.testBit 5 then brevOp 8 f else f).testBit j = prmtBit a b sel j ∧
      (let f := match sel / 8 % 4 with
        | 0 => x
        | 1 => 0
        | 2 => if x.testBit 7 then 255 else 0
        | _ => 255
       if sel.testBit 5 then brevOp 8 f else f) < 2 ^ 8 := by
    intro x hx hp
    have hb := fun i hi => fill_bit x (sel / 8 % 4) i hx (poolBit a b (sel % 8)) hp hi
    simp only
    by_cases hr : sel.testBit 5 = true
    · simp only [hr, if_true]
      exact ⟨(brev_bit 8 _ j hj).trans ((hb (8 - 1 - j) (by omega)).1.trans (by simp only [prmtBit, hr, if_true, if_false, Bool.false_eq_true] <;> split <;> simp_all)), brev_lt 8 _⟩
    · simp only [hr, Bool.false_eq_true, if_false]
      exact ⟨(hb j hj).1.trans (by simp only [prmtBit, hr, if_true, if_false, Bool.false_eq_true] <;> split <;> simp_all), (hb 0 (by norm_num)).2⟩
  exact key _ (Nat.mod_lt _ (by norm_num)) fun i hi => pool_bit a b (sel % 8) i hi

theorem prmt_bit (a b c k j : Nat) (hk : k < 4) (hj : j < 8) :
    (prmtOp a b c).testBit (8 * k + j) = prmtBit a b (c / 2 ^ (8 * k) % 256) j := by
  rw [← (prmt_byte_bit a b (c / 2 ^ (8 * k) % 256) j hj).1]
  exact pack4_bit (fun k => prmtByte (fun k => (if k < 4 then a / 2 ^ (8 * k) else b / 2 ^ (8 * (k - 4))) % 256)
    (c / 2 ^ (8 * k) % 256)) (fun k => (prmt_byte_bit a b _ 0 (by norm_num)).2) k j hk hj

end Sys2Proof.Machine
end

