-- ==== Sys2Proof/Laws/PerInstr.lean ====
section
/-!
SUPPORT. For each constructor of `Instr`: the opcode and body that encode it are read back as it (14 R252, R262 to R264).
-/
namespace Sys2Proof.Laws.Encoding
open Sys2Proof

/-- The opcode of a well-formed instruction fits its field and has the format of the body, and opcode and body give the
instruction back. -/
def Statement (i : Instr) : Prop :=
  WellFormed i → ∀ c b, i.parts = some (c, b) →
    c < 1024 ∧ Format.ofOpcode c = some b.format ∧ Instr.ofParts c b = some i

theorem and (t : IntTy) (f : RFmt) : Statement (.and t f) := by
  intro _ c b h; cases t <;> cases h <;> exact ⟨by decide, rfl, rfl⟩

theorem andn (t : IntTy) (f : RFmt) : Statement (.andn t f) := by
  intro _ c b h; cases t <;> cases h <;> exact ⟨by decide, rfl, rfl⟩

theorem bfe (t : IntTy) (f : RFmt) : Statement (.bfe t f) := by
  intro _ c b h; cases t <;> cases h <;> exact ⟨by decide, rfl, rfl⟩

theorem bfi (t : IntTy) (f : RFmt) : Statement (.bfi t f) := by
  intro _ c b h; cases t <;> cases h <;> exact ⟨by decide, rfl, rfl⟩

theorem brev (t : IntTy) (f : RFmt) : Statement (.brev t f) := by
  intro _ c b h; cases t <;> cases h <;> exact ⟨by decide, rfl, rfl⟩

theorem clz (t : IntTy) (f : RFmt) : Statement (.clz t f) := by
  intro _ c b h; cases t <;> cases h <;> exact ⟨by decide, rfl, rfl⟩

theorem iabs (t : IntTy) (f : RFmt) : Statement (.iabs t f) := by
  intro _ c b h; cases t <;> cases h <;> exact ⟨by decide, rfl, rfl⟩

theorem iadd (t : IntTy) (f : RFmt) : Statement (.iadd t f) := by
  intro _ c b h; cases t <;> cases h <;> exact ⟨by decide, rfl, rfl⟩

theorem iaddImm64 (signed : Bool) (f : IFmt) : Statement (.iaddImm64 signed f) := by
  intro _ c b h; cases signed <;> cases h <;> exact ⟨by decide, rfl, rfl⟩

theorem icmp (t : IntTy) (f : RFmt) : Statement (.icmp t f) := by
  intro _ c b h; cases t <;> cases h <;> exact ⟨by decide, rfl, rfl⟩

theorem imad (t : IntTy) (f : RFmt) : Statement (.imad t f) := by
  intro _ c b h; cases t <;> cases h <;> exact ⟨by decide, rfl, rfl⟩

theorem imax (t : IntTy) (f : RFmt) : Statement (.imax t f) := by
  intro _ c b h; cases t <;> cases h <;> exact ⟨by decide, rfl, rfl⟩

theorem imin (t : IntTy) (f : RFmt) : Statement (.imin t f) := by
  intro _ c b h; cases t <;> cases h <;> exact ⟨by decide, rfl, rfl⟩

theorem imul (t : IntTy) (f : RFmt) : Statement (.imul t f) := by
  intro _ c b h; cases t <;> cases h <;> exact ⟨by decide, rfl, rfl⟩

theorem imulh (t : IntTy) (f : RFmt) : Statement (.imulh t f) := by
  intro _ c b h; cases t <;> cases h <;> exact ⟨by decide, rfl, rfl⟩

theorem isub (t : IntTy) (f : RFmt) : Statement (.isub t f) := by
  intro _ c b h; cases t <;> cases h <;> exact ⟨by decide, rfl, rfl⟩

theorem lea (t : IntTy) (f : RFmt) : Statement (.lea t f) := by
  intro _ c b h; cases t <;> cases h <;> exact ⟨by decide, rfl, rfl⟩

theorem or (t : IntTy) (f : RFmt) : Statement (.or t f) := by
  intro _ c b h; cases t <;> cases h <;> exact ⟨by decide, rfl, rfl⟩

theorem popc (t : IntTy) (f : RFmt) : Statement (.popc t f) := by
  intro _ c b h; cases t <;> cases h <;> exact ⟨by decide, rfl, rfl⟩

theorem prmt (t : IntTy) (f : RFmt) : Statement (.prmt t f) := by
  intro _ c b h; cases t <;> cases h <;> exact ⟨by decide, rfl, rfl⟩

theorem sar (t : IntTy) (f : RFmt) : Statement (.sar t f) := by
  intro _ c b h; cases t <;> cases h <;> exact ⟨by decide, rfl, rfl⟩

theorem sel (t : IntTy) (f : RFmt) : Statement (.sel t f) := by
  intro _ c b h; cases t <;> cases h <;> exact ⟨by decide, rfl, rfl⟩

theorem shf (t : IntTy) (f : RFmt) : Statement (.shf t f) := by
  intro _ c b h; cases t <;> cases h <;> exact ⟨by decide, rfl, rfl⟩

theorem shl (t : IntTy) (f : RFmt) : Statement (.shl t f) := by
  intro _ c b h; cases t <;> cases h <;> exact ⟨by decide, rfl, rfl⟩

theorem shr (t : IntTy) (f : RFmt) : Statement (.shr t f) := by
  intro _ c b h; cases t <;> cases h <;> exact ⟨by decide, rfl, rfl⟩

theorem xor (t : IntTy) (f : RFmt) : Statement (.xor t f) := by
  intro _ c b h; cases t <;> cases h <;> exact ⟨by decide, rfl, rfl⟩

theorem fadd (t : FloTy) (f : RFmt) : Statement (.fadd t f) := by
  intro _ c b h; cases t <;> cases h <;> exact ⟨by decide, rfl, rfl⟩

theorem fclass (t : FloTy) (f : RFmt) : Statement (.fclass t f) := by
  intro _ c b h; cases t <;> cases h <;> exact ⟨by decide, rfl, rfl⟩

theorem fcmp (t : FloTy) (f : RFmt) : Statement (.fcmp t f) := by
  intro _ c b h; cases t <;> cases h <;> exact ⟨by decide, rfl, rfl⟩

theorem fcospi (t : FloTy) (f : RFmt) : Statement (.fcospi t f) := by
  intro _ c b h; cases t <;> cases h <;> exact ⟨by decide, rfl, rfl⟩

theorem fexp2 (t : FloTy) (f : RFmt) : Statement (.fexp2 t f) := by
  intro _ c b h; cases t <;> cases h <;> exact ⟨by decide, rfl, rfl⟩

theorem fgetexp (t : FloTy) (f : RFmt) : Statement (.fgetexp t f) := by
  intro _ c b h; cases t <;> cases h <;> exact ⟨by decide, rfl, rfl⟩

theorem flog2 (t : FloTy) (f : RFmt) : Statement (.flog2 t f) := by
  intro _ c b h; cases t <;> cases h <;> exact ⟨by decide, rfl, rfl⟩

theorem fma (t : FloTy) (f : RFmt) : Statement (.fma t f) := by
  intro _ c b h; cases t <;> cases h <;> exact ⟨by decide, rfl, rfl⟩

theorem fmax (t : FloTy) (f : RFmt) : Statement (.fmax t f) := by
  intro _ c b h; cases t <;> cases h <;> exact ⟨by decide, rfl, rfl⟩

theorem fmin (t : FloTy) (f : RFmt) : Statement (.fmin t f) := by
  intro _ c b h; cases t <;> cases h <;> exact ⟨by decide, rfl, rfl⟩

theorem fmul (t : FloTy) (f : RFmt) : Statement (.fmul t f) := by
  intro _ c b h; cases t <;> cases h <;> exact ⟨by decide, rfl, rfl⟩

theorem frcp (t : FloTy) (f : RFmt) : Statement (.frcp t f) := by
  intro _ c b h; cases t <;> cases h <;> exact ⟨by decide, rfl, rfl⟩

theorem frnd (t : FloTy) (f : RFmt) : Statement (.frnd t f) := by
  intro _ c b h; cases t <;> cases h <;> exact ⟨by decide, rfl, rfl⟩

theorem frsq (t : FloTy) (f : RFmt) : Statement (.frsq t f) := by
  intro _ c b h; cases t <;> cases h <;> exact ⟨by decide, rfl, rfl⟩

theorem fscale (t : FloTy) (f : RFmt) : Statement (.fscale t f) := by
  intro _ c b h; cases t <;> cases h <;> exact ⟨by decide, rfl, rfl⟩

theorem fsinpi (t : FloTy) (f : RFmt) : Statement (.fsinpi t f) := by
  intro _ c b h; cases t <;> cases h <;> exact ⟨by decide, rfl, rfl⟩

theorem fsqrt (t : FloTy) (f : RFmt) : Statement (.fsqrt t f) := by
  intro _ c b h; cases t <;> cases h <;> exact ⟨by decide, rfl, rfl⟩

theorem faddSweep (t : FloTy) (f : SFmt) : Statement (.faddSweep t f) := by
  intro _ c b h; cases t <;> cases h <;> exact ⟨by decide, rfl, rfl⟩

theorem fmaSweep (t : FloTy) (f : SFmt) : Statement (.fmaSweep t f) := by
  intro _ c b h; cases t <;> cases h <;> exact ⟨by decide, rfl, rfl⟩

theorem fmulSweep (t : FloTy) (f : SFmt) : Statement (.fmulSweep t f) := by
  intro _ c b h; cases t <;> cases h <;> exact ⟨by decide, rfl, rfl⟩

theorem cvt (k : CvtTy) (f : RFmt) : Statement (.cvt k f) := by
  intro _ c b h; cases k <;> cases h <;> exact ⟨by decide, rfl, rfl⟩

theorem cvtSweep (k : CvtTy) (f : SFmt) : Statement (.cvtSweep k f) := by
  intro _ c b h; cases k <;> cases h <;> exact ⟨by decide, rfl, rfl⟩

theorem famax (t : FloTy) (f : RFmt) : Statement (.famax t f) := by
  intro _ c b h; cases t <;> cases h <;> exact ⟨by decide, rfl, rfl⟩

theorem fquant (t : FloTy) (f : RFmt) : Statement (.fquant t f) := by
  intro _ c b h; cases t <;> cases h <;> exact ⟨by decide, rfl, rfl⟩

theorem fquantSweep (t : FloTy) (f : SFmt) : Statement (.fquantSweep t f) := by
  intro _ c b h; cases t <;> cases h <;> exact ⟨by decide, rfl, rfl⟩

theorem census (e : CenTy) (f : RFmt) : Statement (.census e f) := by
  intro _ c b h; cases e <;> cases h <;> exact ⟨by decide, rfl, rfl⟩

theorem rng (f : RFmt) : Statement (.rng f) := by
  intro _ c b h; cases h; exact ⟨by decide, rfl, rfl⟩

theorem mapres (f : RFmt) : Statement (.mapres f) := by
  intro _ c b h; cases h; exact ⟨by decide, rfl, rfl⟩

theorem mapbind (f : MFmt) : Statement (.mapbind f) := by
  intro _ c b h; cases h; exact ⟨by decide, rfl, rfl⟩

theorem mapwr (f : RFmt) : Statement (.mapwr f) := by
  intro _ c b h; cases h; exact ⟨by decide, rfl, rfl⟩

theorem maprd (f : RFmt) : Statement (.maprd f) := by
  intro _ c b h; cases h; exact ⟨by decide, rfl, rfl⟩

theorem maprel (f : RFmt) : Statement (.maprel f) := by
  intro _ c b h; cases h; exact ⟨by decide, rfl, rfl⟩

theorem ldl (f : MFmt) : Statement (.ldl f) := by
  intro _ c b h; cases h; exact ⟨by decide, rfl, rfl⟩

theorem ldlSweep (f : SFmt) : Statement (.ldlSweep f) := by
  intro _ c b h; cases h; exact ⟨by decide, rfl, rfl⟩

theorem macc (m : MaccTy) (f : RFmt) : Statement (.macc m f) := by
  intro _ c b h; cases m <;> cases h <;> exact ⟨by decide, rfl, rfl⟩

theorem maccSweep (m : MaccTy) (f : SFmt) : Statement (.maccSweep m f) := by
  intro _ c b h; cases m <;> cases h <;> exact ⟨by decide, rfl, rfl⟩

theorem sweepIteration (g sp : Nat) : Statement (.sweepIteration g sp) := by
  intro _ c b h; cases h

theorem lred (u : EltTy) (f : RFmt) : Statement (.lred u f) := by
  intro _ c b h; cases u <;> cases h <;> exact ⟨by decide, rfl, rfl⟩

theorem lscan (u : EltTy) (f : RFmt) : Statement (.lscan u f) := by
  intro _ c b h; cases u <;> cases h <;> exact ⟨by decide, rfl, rfl⟩

theorem matchLanes (u : EltTy) (f : RFmt) : Statement (.matchLanes u f) := by
  intro _ c b h; cases u <;> cases h <;> exact ⟨by decide, rfl, rfl⟩

theorem part (u : EltTy) (f : RFmt) : Statement (.part u f) := by
  intro _ c b h; cases u <;> cases h <;> exact ⟨by decide, rfl, rfl⟩

theorem shfl (u : EltTy) (f : RFmt) : Statement (.shfl u f) := by
  intro _ c b h; cases u <;> cases h <;> exact ⟨by decide, rfl, rfl⟩

theorem vote (u : EltTy) (f : RFmt) : Statement (.vote u f) := by
  intro _ c b h; cases u <;> cases h <;> exact ⟨by decide, rfl, rfl⟩

theorem ld (w : Width) (f : MFmt) : Statement (.ld w f) := by
  intro _ c b h; cases w <;> cases h <;> exact ⟨by decide, rfl, rfl⟩

theorem lds (w : Width) (f : MFmt) : Statement (.lds w f) := by
  intro _ c b h; cases w <;> cases h <;> exact ⟨by decide, rfl, rfl⟩

theorem st (w : Width) (f : MFmt) : Statement (.st w f) := by
  intro _ c b h; cases w <;> cases h <;> exact ⟨by decide, rfl, rfl⟩

theorem sts (w : Width) (f : MFmt) : Statement (.sts w f) := by
  intro _ c b h; cases w <;> cases h <;> exact ⟨by decide, rfl, rfl⟩

theorem atom (u : EltTy) (f : MFmt) : Statement (.atom u f) := by
  intro _ c b h; cases u <;> cases h <;> exact ⟨by decide, rfl, rfl⟩

theorem red (u : EltTy) (f : MFmt) : Statement (.red u f) := by
  intro _ c b h; cases u <;> cases h <;> exact ⟨by decide, rfl, rfl⟩

theorem pref (f : MFmt) : Statement (.pref f) := by
  intro _ c b h; cases h; exact ⟨by decide, rfl, rfl⟩

theorem cctl (f : MFmt) : Statement (.cctl f) := by
  intro _ c b h; cases h; exact ⟨by decide, rfl, rfl⟩

theorem fence (f : KFmt) : Statement (.fence f) := by
  intro _ c b h; cases h; exact ⟨by decide, rfl, rfl⟩

theorem copy (f : RFmt) : Statement (.copy f) := by
  intro _ c b h; cases h; exact ⟨by decide, rfl, rfl⟩

theorem binit (f : RFmt) : Statement (.binit f) := by
  intro _ c b h; cases h; exact ⟨by decide, rfl, rfl⟩

theorem barr (f : RFmt) : Statement (.barr f) := by
  intro _ c b h; cases h; exact ⟨by decide, rfl, rfl⟩

theorem bexp (f : RFmt) : Statement (.bexp f) := by
  intro _ c b h; cases h; exact ⟨by decide, rfl, rfl⟩

theorem btest (f : RFmt) : Statement (.btest f) := by
  intro _ c b h; cases h; exact ⟨by decide, rfl, rfl⟩

theorem bwait (f : RFmt) : Statement (.bwait f) := by
  intro _ c b h; cases h; exact ⟨by decide, rfl, rfl⟩

theorem waitc (f : RFmt) : Statement (.waitc f) := by
  intro _ c b h; cases h; exact ⟨by decide, rfl, rfl⟩

theorem spawn (f : RFmt) : Statement (.spawn f) := by
  intro _ c b h; cases h; exact ⟨by decide, rfl, rfl⟩

theorem jdec (f : MFmt) : Statement (.jdec f) := by
  intro _ c b h; cases h; exact ⟨by decide, rfl, rfl⟩

theorem jwait (f : MFmt) : Statement (.jwait f) := by
  intro _ c b h; cases h; exact ⟨by decide, rfl, rfl⟩

theorem freg (f : RFmt) : Statement (.freg f) := by
  intro _ c b h; cases h; exact ⟨by decide, rfl, rfl⟩

theorem fres (f : MFmt) : Statement (.fres f) := by
  intro _ c b h; cases h; exact ⟨by decide, rfl, rfl⟩

theorem bra (f : CFmt) : Statement (.bra f) := by
  intro _ c b h; cases h; exact ⟨by decide, rfl, rfl⟩

theorem braD (f : CFmt) : Statement (.braD f) := by
  intro _ c b h; cases h; exact ⟨by decide, rfl, rfl⟩

theorem brk (f : CFmt) : Statement (.brk f) := by
  intro _ c b h; cases h; exact ⟨by decide, rfl, rfl⟩

theorem brx (f : CFmt) : Statement (.brx f) := by
  intro _ c b h; cases h; exact ⟨by decide, rfl, rfl⟩

theorem call (f : CFmt) : Statement (.call f) := by
  intro _ c b h; cases h; exact ⟨by decide, rfl, rfl⟩

theorem ret (f : CFmt) : Statement (.ret f) := by
  intro _ c b h; cases h; exact ⟨by decide, rfl, rfl⟩

theorem exit (f : CFmt) : Statement (.exit f) := by
  intro _ c b h; cases h; exact ⟨by decide, rfl, rfl⟩

theorem exitJ (f : MFmt) : Statement (.exitJ f) := by
  intro _ c b h; cases h; exact ⟨by decide, rfl, rfl⟩

theorem gsync (f : CFmt) : Statement (.gsync f) := by
  intro _ c b h; cases h; exact ⟨by decide, rfl, rfl⟩

theorem join (f : CFmt) : Statement (.join f) := by
  intro _ c b h; cases h; exact ⟨by decide, rfl, rfl⟩

theorem nop (f : CFmt) : Statement (.nop f) := by
  intro _ c b h; cases h; exact ⟨by decide, rfl, rfl⟩

theorem yield (f : CFmt) : Statement (.yield f) := by
  intro _ c b h; cases h; exact ⟨by decide, rfl, rfl⟩

theorem bkpt (f : KFmt) : Statement (.bkpt f) := by
  intro _ c b h; cases h; exact ⟨by decide, rfl, rfl⟩

theorem dflush (f : KFmt) : Statement (.dflush f) := by
  intro _ c b h; cases h; exact ⟨by decide, rfl, rfl⟩

theorem fltrd (f : KFmt) : Statement (.fltrd f) := by
  intro _ c b h; cases h; exact ⟨by decide, rfl, rfl⟩

theorem fmtset (f : KFmt) : Statement (.fmtset f) := by
  intro _ c b h; cases h; exact ⟨by decide, rfl, rfl⟩

theorem iret (f : KFmt) : Statement (.iret f) := by
  intro _ c b h; cases h; exact ⟨by decide, rfl, rfl⟩

theorem movB32 (f : RFmt) : Statement (.movB32 f) := by
  intro _ c b h; cases h; exact ⟨by decide, rfl, rfl⟩

theorem movB64 (f : RFmt) : Statement (.movB64 f) := by
  intro _ c b h; cases h; exact ⟨by decide, rfl, rfl⟩

theorem movB64Imm64 (f : IFmt) : Statement (.movB64Imm64 f) := by
  intro _ c b h; cases h; exact ⟨by decide, rfl, rfl⟩

theorem movsr (f : KFmt) : Statement (.movsr f) := by
  intro _ c b h; cases h; exact ⟨by decide, rfl, rfl⟩

theorem setsr (f : KFmt) : Statement (.setsr f) := by
  intro _ c b h; cases h; exact ⟨by decide, rfl, rfl⟩

theorem pgmap (f : MFmt) : Statement (.pgmap f) := by
  intro _ c b h; cases h; exact ⟨by decide, rfl, rfl⟩

theorem trap (f : KFmt) : Statement (.trap f) := by
  intro hw c b h
  cases h
  have hm : f.mod = 0#7 := by
    have := hw.2.1
    simp only [Instr.checks, List.all_append, Bool.and_eq_true] at this
    have h0 : f.mod &&& 127#7 = 0#7 := by simpa [Chk.mod, ck] using this.1.1.1.2
    exact (BitVec.and_allOnes (x := f.mod)).symm.trans h0
  exact ⟨by decide, rfl, by simp [Instr.ofParts, Instr.ofK, hm]⟩

theorem trapEsc (f : KFmt) : Statement (.trapEsc f) := by
  intro hw c b h
  cases h
  have hm : f.mod = 1#7 := by
    have := hw.2.1
    simp only [Instr.checks, List.all_append, Bool.and_eq_true] at this
    simpa [ck] using And.left (by simpa [ck] using this.2)
  exact ⟨by decide, rfl, by simp [Instr.ofParts, Instr.ofK, hm]⟩

theorem faultRecordDeferredDelivery (g : Nat) : Statement (.faultRecordDeferredDelivery g) := by
  intro _ c b h; cases h

theorem hwBreakpoint (g sp : Nat) : Statement (.hwBreakpoint g sp) := by
  intro _ c b h; cases h

theorem loadReturn (op : Nat) (lanes fromL1 : Lanes) : Statement (.loadReturn op lanes fromL1) := by
  intro _ c b h; cases h

theorem ldlReturn (op : Nat) : Statement (.ldlReturn op) := by
  intro _ c b h; cases h

theorem atomReturn (op : Nat) : Statement (.atomReturn op) := by
  intro _ c b h; cases h

theorem storePerform (op : Nat) (lanes : Lanes) : Statement (.storePerform op lanes) := by
  intro _ c b h; cases h

theorem atomicAtHome (op k : Nat) : Statement (.atomicAtHome op k) := by
  intro _ c b h; cases h

theorem joinCounterDecrement (op k : Nat) : Statement (.joinCounterDecrement op k) := by
  intro _ c b h; cases h

theorem jwaitWake (g sp : Nat) : Statement (.jwaitWake g sp) := by
  intro _ c b h; cases h

theorem censusFold (op k : Nat) : Statement (.censusFold op k) := by
  intro _ c b h; cases h

theorem futureRegistration (op k : Nat) : Statement (.futureRegistration op k) := by
  intro _ c b h; cases h

theorem futureResolution (op : Nat) : Statement (.futureResolution op) := by
  intro _ c b h; cases h

theorem gateDecrement (op : Nat) : Statement (.gateDecrement op) := by
  intro _ c b h; cases h

theorem sluiceDeferredPark (op k : Nat) : Statement (.sluiceDeferredPark op k) := by
  intro _ c b h; cases h

theorem mapBindComplete (op : Nat) : Statement (.mapBindComplete op) := by
  intro _ c b h; cases h

theorem panTimerExpiry (core pan : Nat) : Statement (.panTimerExpiry core pan) := by
  intro _ c b h; cases h

theorem panLaunch (core pan : Nat) : Statement (.panLaunch core pan) := by
  intro _ c b h; cases h

theorem brineIntake (core ctx : Nat) : Statement (.brineIntake core ctx) := by
  intro _ c b h; cases h

theorem deferredRecordFile (k : Nat) : Statement (.deferredRecordFile k) := by
  intro _ c b h; cases h

theorem groupRestore (g : Nat) : Statement (.groupRestore g) := by
  intro _ c b h; cases h

theorem groupRetire (g : Nat) : Statement (.groupRetire g) := by
  intro _ c b h; cases h

theorem teamRetire (t : Nat) : Statement (.teamRetire t) := by
  intro _ c b h; cases h

theorem gridCompletion (gr : Nat) : Statement (.gridCompletion gr) := by
  intro _ c b h; cases h

theorem launchPacketTake (q : Nat) : Statement (.launchPacketTake q) := by
  intro _ c b h; cases h

theorem queueTailUpdate (q : Nat) : Statement (.queueTailUpdate q) := by
  intro _ c b h; cases h

theorem teamDispatch : Statement (.teamDispatch) := by
  intro _ c b h; cases h

theorem concurrentPlacement (gr : Nat) : Statement (.concurrentPlacement gr) := by
  intro _ c b h; cases h

theorem reproWavePlacement (gr : Nat) : Statement (.reproWavePlacement gr) := by
  intro _ c b h; cases h

theorem queueAgeing (q : Nat) : Statement (.queueAgeing q) := by
  intro _ c b h; cases h

theorem preemptQueue (q : Nat) : Statement (.preemptQueue q) := by
  intro _ c b h; cases h

theorem resumeQueue (q : Nat) : Statement (.resumeQueue q) := by
  intro _ c b h; cases h

theorem preemptContext (q : Nat) : Statement (.preemptContext q) := by
  intro _ c b h; cases h

theorem resumeContext (q : Nat) : Statement (.resumeContext q) := by
  intro _ c b h; cases h

theorem splitHalt (g sp : Nat) : Statement (.splitHalt g sp) := by
  intro _ c b h; cases h

theorem contextSave (g : Nat) : Statement (.contextSave g) := by
  intro _ c b h; cases h

theorem groupResume (g : Nat) : Statement (.groupResume g) := by
  intro _ c b h; cases h

theorem reproSyncProceed (g sp : Nat) : Statement (.reproSyncProceed g sp) := by
  intro _ c b h; cases h

theorem mapresDeferredGrant (g sp : Nat) : Statement (.mapresDeferredGrant g sp) := by
  intro _ c b h; cases h

theorem copyChunk (c : Nat) (m : ChunkMove) : Statement (.copyChunk c m) := by
  intro _ c b h; cases h

theorem copyCompletion (c : Nat) : Statement (.copyCompletion c) := by
  intro _ c b h; cases h

theorem c3CompletionRecord (c : Nat) : Statement (.c3CompletionRecord c) := by
  intro _ c b h; cases h

theorem remoteCopyWrite (w : RemoteWrite) : Statement (.remoteCopyWrite w) := by
  intro _ c b h; cases h

theorem sredInstanceReduce (grp inst : Nat) (agree : Bool) (others : List (Nat × List Byte)) :
    Statement (.sredInstanceReduce grp inst agree others) := by
  intro _ c b h; cases h

theorem sredTimeoutAbort (grp : Nat) (e : SredEvent) : Statement (.sredTimeoutAbort grp e) := by
  intro _ c b h; cases h

theorem linkLoss (copies : List Nat) : Statement (.linkLoss copies) := by
  intro _ c b h; cases h

theorem checkCompare (t : Nat) : Statement (.checkCompare t) := by
  intro _ c b h; cases h

theorem tlbLeaseExpiry (core k : Nat) : Statement (.tlbLeaseExpiry core k) := by
  intro _ c b h; cases h

theorem reset (b : BootReport) : Statement (.reset b) := by
  intro _ c b h; cases h

theorem selfCheckDone (die : Nat) (pass : List Bool) : Statement (.selfCheckDone die pass) := by
  intro _ c b h; cases h

theorem thermalEvent (core : Nat) (e : Thermal) : Statement (.thermalEvent core e) := by
  intro _ c b h; cases h

theorem createContext (num block : DWord) : Statement (.createContext num block) := by
  intro _ c b h; cases h

theorem terminateContext (num : DWord) : Statement (.terminateContext num) := by
  intro _ c b h; cases h

theorem registerQueue (q base slots ctx age : DWord) : Statement (.registerQueue q base slots ctx age) := by
  intro _ c b h; cases h

theorem releaseQueue (q : DWord) : Statement (.releaseQueue q) := by
  intro _ c b h; cases h

theorem quiesceDie (die : DWord) : Statement (.quiesceDie die) := by
  intro _ c b h; cases h

theorem faultRepaired (rec : DWord) : Statement (.faultRepaired rec) := by
  intro _ c b h; cases h

theorem setBreakpoints (ctx list : DWord) : Statement (.setBreakpoints ctx list) := by
  intro _ c b h; cases h

theorem contextRead (ctx g buf : DWord) : Statement (.contextRead ctx g buf) := by
  intro _ c b h; cases h

theorem reductionGroup (n list len limit : DWord) : Statement (.reductionGroup n list len limit) := by
  intro _ c b h; cases h

theorem captureSet (core unit src : DWord) : Statement (.captureSet core unit src) := by
  intro _ c b h; cases h

theorem captureRead (core unit buf : DWord) : Statement (.captureRead core unit buf) := by
  intro _ c b h; cases h

theorem powerCap (watts : DWord) : Statement (.powerCap watts) := by
  intro _ c b h; cases h

theorem attest (nonce report : DWord) : Statement (.attest nonce report) := by
  intro _ c b h; cases h

theorem faultUnrepairable (rec : DWord) : Statement (.faultUnrepairable rec) := by
  intro _ c b h; cases h

theorem contextSettings (ctx highwater lease : DWord) : Statement (.contextSettings ctx highwater lease) := by
  intro _ c b h; cases h

theorem resumeGroup (rec point : DWord) : Statement (.resumeGroup rec point) := by
  intro _ c b h; cases h

theorem poolAdd (ctx list count : DWord) : Statement (.poolAdd ctx list count) := by
  intro _ c b h; cases h

theorem reservedEncoding (w : IWord) : Statement (.reservedEncoding w) := by
  intro _ c b h; cases h

theorem instructionFetchFault (g sp : Nat) : Statement (.instructionFetchFault g sp) := by
  intro _ c b h; cases h

theorem reservedQueueCommand (q : Nat) : Statement (.reservedQueueCommand q) := by
  intro _ c b h; cases h

theorem reservedManagementCommand : Statement (.reservedManagementCommand) := by
  intro _ c b h; cases h

theorem debuggerHalt (g : Nat) : Statement (.debuggerHalt g) := by
  intro _ c b h; cases h

theorem computeDiePowerOff : Statement (.computeDiePowerOff) := by
  intro _ c b h; cases h

theorem hostDieAccess (a : HostAccess) : Statement (.hostDieAccess a) := by
  intro _ c b h; cases h

end Sys2Proof.Laws.Encoding
end

