-- ==== Sys2Proof/Tests/Slice0.lean ====
section
/-!
SUPPORT. Tests: words written out from the encodings of spec/, ill-formed terms that WellFormed refuses, worked cases, and for
every statement with hypotheses a state that meets them (`wit_<statement>`, by clause).
-/
set_option Elab.async false

namespace Sys2Proof.Tests
open Sys2Proof Sys2Proof.Machine

/-! ## States -/

/-- One split of 64 lanes at PC 0x2000_1000 on core 0, quarter 0, with four quarters' rings; group 3, split 4 issues. -/
def p0 : State :=
  { State.reset.withFetchWord 128 0 with
    turns := [], cur := some (3, 4), cores := [{ Core.idle with active := true }, Core.idle],
    rings := List.replicate 4 emptyRing }

def g0 : Group := Probe.group 1
def f0 : Split := firstSplit 4 5 (Lanes.all false) Probe.codeVA false 0

/-- The state with its group or its split changed. -/
def withG (f : Group → Group) : State := { p0 with groups := [f g0] }
def withF (f : Split → Split) : State := withG fun g => { g with splits := [f f0] }
def withC (f : Context → Context) : State := { p0 with contexts := [f Probe.context] }

/-- Lane `l` of `v1` holds `l`. -/
def ramp : LaneVec := LaneVec.ofFn (BitVec.ofNat 32)
def rampG (g : Group) : Group := { g with vregs := g.vregs.set 1 ramp }

/-- An instruction meets a condition when it issues in a state. -/
def meets (i : Instr) (s : State) (c : Iss → Bool) : Bool := (issuer s i).any c

def h0 : Hdr := bareHdr 6#3
/-- v3 ← v1, v2. -/
def r0 : RFmt := bareR h0 (.v 3) (.v 1) (.v 2)
def m0 : MFmt :=
  { h := bareHdr 0#3, d := .v 3, a := .v 4, b := .zero, c := .v 0, ma := 0#4, space := 0#4, mc := 0#4, ta := false,
    tc := false, mod := 0#7, disp := 0#32 }
def c0 : CFmt := { h := bareHdr 0#3, d := .v 0, a := .v 0, b := .v 0, xoff := 0#32, toff := 0#32 }
def k0 : KFmt := { h := bareHdr 0#3, d := .v 0, a := .v 0, b := .v 0, c := .v 0, mod := 0#7, kimm := 0#32 }
def i0 : IFmt := { h := bareHdr 6#3, d := .v 4, a := .v 6, b := .v 0, imm64 := 5#64 }

/-- A shadow of split 4. -/
def sh0 : Shadow :=
  { sid := 4, em := 0xFF#64, fmt := 0x40#9, swpidx := 0, status := 0#6, s56 := List.replicate 8 0#32, ring := emptyRing,
    pc := 0x2000_1000#64, chainLen := 0, chainPC := 0#64, bpMatch := none, aux0 := 0#64, aux1 := 0#64 }
def handlerG (g : Group) : Group := { g with shadow := some sh0, trappc := 0x2000_1000#64 }

/-- The decidable part of `IdsOk`. -/
def idsOk (s : State) : Bool :=
  decide ((s.groups.map Group.gid).Nodup) && s.groups.all (fun g => decide (g.gid < s.nextId)) &&
  s.groups.all (fun g => decide ((g.splits.map Split.sid).Nodup) && g.splits.all fun p => decide (p.sid < s.nextId)) &&
  s.groups.all (fun g => decide ((g.regions.map Region.rid).Nodup) && g.regions.all fun r => decide (r.rid < s.nextId))

theorem idsOk_iff (s : State) : idsOk s = true ↔ IdsOk s := by
  simp only [idsOk, Bool.and_eq_true, List.all_eq_true, decide_eq_true_eq]
  exact ⟨fun ⟨⟨⟨a, b⟩, c⟩, d⟩ => ⟨a, b, c, d⟩, fun h => ⟨⟨⟨h.groups, h.fresh⟩, h.splits⟩, h.regions⟩⟩

def vg (bit : BitVec 5) (r : BitVec 8) : Hdr := { bareHdr 0#3 with guard := .vector false bit r }
/-- A region whose join address is the PC of `f0`, expecting its lanes. -/
def reg0 : Region :=
  { rid := 2, joinPC := Probe.codeVA, expected := Lanes.all false, arrived := 0#64, savedEM := 0xFF#64, savedFMT := 0x40#9,
    parent := none, depth := 0, seq := 2, resident := true, agents := [] }
def inRegionG (g : Group) : Group := { g with splits := [{ f0 with region := some 2 }], regions := [reg0] }

/-- v4d holds 0x2000_8000 + 8 l in lane `l`, which is physical 0x8000 + 8 l; s4d holds 0x2000_8000; two lanes are active. -/
def addrG (g : Group) : Group :=
  { g with
    vregs := g.vregs.set 4 (LaneVec.ofFn fun l => BitVec.ofNat 32 (0x2000_8000 + 8 * l))
    sregs := g.sregs.set 4 0x2000_8000#32
    splits := [{ f0 with em := 3#64 }] }
def adS : State := withG addrG
/-- v4 holds offset 8 l of the team's scratchpad. -/
def spadG (g : Group) : Group :=
  { g with vregs := g.vregs.set 4 (LaneVec.ofFn fun l => BitVec.ofNat 32 (8 * l)), splits := [{ f0 with em := 3#64 }] }
/-- No lane's guard is true: v2 holds zero. -/
def off : Hdr := vg 0 2
/-- The state after an instruction. -/
def after (i : Instr) (s : State) : State := match exec i s with
  | .next t => t
  | _ => s

/-- Slot m1 is BOUND to physical slot 0, a BF16 matrix of zeros. -/
def slotG (g : Group) : Group :=
  { g with phys := [PhysSlot.new 0], slots := g.slots.set 0 (bindSlot { m0 with mod := 0#7 } 0 .bound 0#64) }

def s0 : SFmt :=
  { h := h0, d := .s 8, a := .s 9, b := .s 10, stepB := 0#10, ma := 0#4, mb := 0#4, ta := false, tb := false, mod := 0#7,
    count := 2#12, stepA := 0#10, stepD := 0#10 }

/-- Iteration `n` of sweep `i` is due in a state. -/
def due (i : Instr) (n : Nat) (s : State) (c : Iss → Bool) : Bool :=
  (groupOf s 3).any fun g => (splitOf g 4).any fun p => (ctxOf s g.ctx).any fun ctx =>
    p.sweep == some (i, n) && decide (n < sweepCount i) && g.running && !g.haltReq && !p.halted && !shadowBlocks g 4 &&
      !waitsForLoad { s, i, g, p, ctx } && c { s, i, g, p, ctx }

def spadsOk (s : State) : Bool := (s.teams.all fun t => memWf t.spad) && s.handles.all fun h => memWf h.bytes
theorem spadsOk_iff (s : State) : spadsOk s = true ↔ SpadsOk s := by
  simp [spadsOk, SpadsOk, List.all_eq_true]


/-- Bytes that no handle and no object of their team covers. -/
theorem plain_of {s : State} {tid off n : Nat} {t : Team} (h : s.handles = []) (ht : teamOf s tid = some t)
    (a : (t.objs.all fun o => decide (o.off + 16 ≤ off ∨ off + n ≤ o.off)) = true) : plainSpad s tid off n := by
  refine ⟨by simp [handedAway, h], fun x hx => ?_⟩
  simp only [named, spadPlace, h, spadOwner, List.find?_nil, objsAt, ht, Option.map_some, Option.getD_some,
    isNamed, List.any_eq_true, Bool.and_eq_true, beq_iff_eq] at hx
  obtain ⟨o, ho, rfl, -⟩ := hx
  simpa using List.all_eq_true.1 a o ho

/-- The first active group's team is a checked copy whose streams are empty, in a context whose check area holds two items. -/
def copyS (s : State) : State :=
  { s with
    groups := s.groups.map fun g => { g with checked := true }
    teams := s.teams.map fun t => { t with copyNo := 1 }
    contexts := s.contexts.map fun c => { c with checkSz := 2 * Config.streamItemBytes } }

theorem roomFor {s : State} (h : ((s.teams.filter fun t => t.ctx == 0 && t.copyNo != 0).map fun t => t.stream.length).sum = 0)
    {n : Nat} (hn : n ≤ 2) : checkInUse s 0 + n * Config.streamItemBytes ≤ 2 * Config.streamItemBytes := by
  simpa [checkInUse, h] using Nat.mul_le_mul_right _ hn

/-- The path of core 0 is held: every element of its accesses waits for the Sluice. -/
def heldS (s : State) : State :=
  { s with ops := s.ops.map fun o => { o with elems := o.elems.map fun e => { e with st := .held 0 } } }

/-! ## The integer class -/

theorem wit_IntegerTwoSources :
    meets (IntBin.instr .iadd .s32 r0) p0 (fun u => clear u &&
      operandsOk u r0.h r0.d false [srcA r0 (intCvt .s32) 1, srcB r0 (intCvt .s32) 1]) = true := by decide +kernel

theorem wit_IntegerFieldsAndShifts :
    meets (IntShift.instr .sar .s64 { r0 with d := .v 4, a := .v 6 }) p0 (fun u => clear u && IntShift.accepts .sar .s64 &&
      operandsOk u h0 (.v 4) true [srcA { r0 with a := .v 6 } (intCvt .s64) 1, IntShift.second .sar r0]) = true := by
  decide +kernel

theorem wit_IntegerThreeSources :
    meets (IntTri.instr .imad .s32 { r0 with c := .v 4 }) p0 (fun u => clear u && IntTri.accepts .imad .s32 &&
      operandsOk u h0 (.v 3) false (IntTri.sources .imad .s32 { r0 with c := .v 4 })) = true := by decide +kernel

theorem wit_IntegerOneSource :
    meets (IntOne.instr .clz .b64 { r0 with a := .v 6 }) p0 (fun u => clear u &&
      operandsOk u h0 (.v 3) (IntOne.wide .clz .b64) [srcA { r0 with a := .v 6 } (intCvt .b64) 1]) = true := by
  decide +kernel

theorem wit_IntegerCompareAndImmediate_1 :
    meets (.icmp .s32 r0) p0 (fun u => clear u &&
      operandsOk u h0 (.v 3) false [srcA r0 (intCvt .s32) 1, srcB r0 (intCvt .s32) 1]) = true := by decide +kernel

/-- With the immediate, and with another source B. -/
theorem wit_IntegerCompareAndImmediate_2 :
    ∀ b ∈ [Opnd.imm, .v 0], meets (.iaddImm64 false { i0 with b }) p0 (fun u => clear u &&
      operandsOk u h0 (.v 4) true [{ o := .v 6, t := intCvt .b64 }]) = true := by decide +kernel

/-! ## The float class, conversions, lane class and moves -/

/-- v1 holds 0x7F80_0000, plus infinity, in every lane, and v2 minus infinity; their sum is a produced NaN. -/
def infG (g : Group) : Group :=
  { g with vregs := (g.vregs.set 1 (LaneVec.ofFn fun _ => 0x7F80_0000#32)).set 2 (LaneVec.ofFn fun _ => 0xFF80_0000#32) }

theorem wit_FloatClass_1 :
    meets (FloatOp.instr .fma .f32 { r0 with c := .v 4 }) p0 (fun u => clear u &&
      operandsOk u h0 (.v 3) false (FloatOp.sources .fma .f32 { r0 with c := .v 4 }) &&
      noNanTrap u (resultLanes u h0 (.v 3)) (fun l => (FloatOp.lane .fma u .f32 { r0 with c := .v 4 } l).2)) = true := by
  decide +kernel

/-- FMT.NANTRAP is set, and only lane 0 is active. -/
theorem wit_FloatClass_2 :
    meets (FloatOp.instr .fadd .f32 r0) (withG fun g => { infG g with splits := [{ f0 with fmt := 0x50#9, em := 1#64 }] })
      (fun u => clear u && operandsOk u h0 (.v 3) false (FloatOp.sources .fadd .f32 r0) &&
        !noNanTrap u (resultLanes u h0 (.v 3)) (fun l => (FloatOp.lane .fadd u .f32 r0 l).2)) = true := by decide +kernel

theorem wit_Conversions_1 :
    meets (.cvt .f32 r0) p0 (fun u => clear u &&
      operandsOk u h0 (.v 3) ((cvtDest r0.mod).width == 64) [{ o := .v 1, sel := 0, tb := false, t := .f32 }] &&
      noNanTrap u (resultLanes u h0 (.v 3)) (fun l => (cvtCode u .f32 r0 l).2)) = true := by decide +kernel

theorem wit_Conversions_2 :
    meets (.fquant .f32 { r0 with mod := 0#7 }) p0 (fun u => clear u && quantScaleOk r0 &&
      operandsOk u h0 (.v 3) false
        [{ o := .v 1, sel := 0, tb := false, t := floCvt .f32, n := FloTy.positions .f32 }, { o := .v 2, t := .b32 }] &&
      noNanTrap u (resultLanes u h0 (.v 3)) (fun l => (quantOut u .f32 r0 l).2)) = true := by decide +kernel

theorem wit_Conversions_3 :
    meets (.famax .f32 r0) p0 (fun u => clear u &&
      operandsOk u h0 (.v 3) false [{ o := .v 1, sel := 0, tb := false, t := floCvt .f32, n := FloTy.positions .f32 }] &&
      noNanTrap u (resultLanes u h0 (.v 3)) (fun l => (famaxOut u .f32 r0 l).2)) = true := by decide +kernel

theorem wit_Conversions_4 :
    meets (.rng { r0 with c := .v 4 }) p0 (fun u => clear u &&
      operandsOk u h0 (.v 3) false [{ o := .v 1, t := .b32 }, { o := .v 2, t := .b32 }, { o := .v 4, t := .b32 }]) =
      true := by decide +kernel

theorem wit_LaneReductions_1 :
    meets (.lred .s32 r0) p0 (fun u => clear u && dstOk u.g false (.v 3) && srcLegal u.g false (laneSrc .s32 r0) &&
      (mapTrap u [laneSrc .s32 r0]).isNone &&
      noNanTrap u (active u).toList
        (outLane (lredOut .s32 (laneOp r0.mod) (rEnv h0 u.p.fmt u.g.srseed) (laneSources u .s32 r0)))) = true := by
  decide +kernel

/-- An exclusive scan: MOD 95 is 1. -/
theorem wit_LaneReductions_2 :
    meets (.lscan .s32 { r0 with mod := 0x40#7 }) (withF fun p => { p with em := 7#64 }) (fun u => clear u &&
      dstOk u.g false (.v 3) && srcLegal u.g false (laneSrc .s32 r0) && (mapTrap u [laneSrc .s32 r0]).isNone &&
      noNanTrap u (active u).toList (outLane (lscanOut .s32 (laneOp 0x40#7) true (rEnv h0 u.p.fmt u.g.srseed) []
        (laneSources u .s32 { r0 with mod := 0x40#7 })))) = true := by decide +kernel

theorem wit_LaneCrossings_1 :
    meets (.matchLanes .b32 { r0 with d := .v 4 }) p0 (fun u => clear u && !isScalar (.v 4) && isRegister r0.a &&
      dstOk u.g true (.v 4) && srcLegal u.g false (bitSrc .b32 r0.a)) = true := by decide +kernel

theorem wit_LaneCrossings_2 :
    meets (.shfl .b32 r0) p0 (fun u => clear u && !isScalar r0.d && r0.b != .zero && dstOk u.g false r0.d &&
      srcLegal u.g false { o := r0.a, t := eltCvt .b32 } && srcLegal u.g false { o := r0.b, t := .b32 }) = true := by
  decide +kernel

theorem wit_LaneCrossings_3 :
    meets (.vote .b32 { r0 with b := .s 9 }) p0 (fun u => clear u && voteBitOk (.s 9) && dstOk u.g false r0.d &&
      srcLegal u.g false { o := r0.a, t := .b32 } && srcLegal u.g false { o := .s 9, t := .b32 }) = true := by
  decide +kernel

theorem wit_LaneCrossings_4 :
    meets (.part .b32 r0) p0 (fun u => clear u && !isScalar r0.d && isRegister r0.a && dstOk u.g false r0.d &&
      srcLegal u.g false (bitSrc .b32 r0.a)) = true := by decide +kernel

theorem wit_Moves_1 :
    meets (.movB32 r0) p0 (fun u => clear u && operandsOk u h0 (.v 3) false [{ o := .v 1, sel := 0, tb := false, t := .b32 }]) =
      true := by decide +kernel

theorem wit_Moves_2 :
    meets (.movB64 { r0 with d := .v 4, a := .v 6 }) p0 (fun u => clear u &&
      operandsOk u h0 (.v 4) true [{ o := .v 6, sel := 0, tb := false, t := .b64 }]) = true := by decide +kernel

theorem wit_Moves_3 :
    meets (.movB64Imm64 { i0 with b := .imm }) p0 (fun u => clear u && operandsOk u h0 (.v 4) true []) = true := by
  decide +kernel

/-- TID of a group that is not reproducible. -/
theorem wit_Moves_4 :
    meets (.movsr { k0 with d := .v 3, a := .imm, kimm := 1#32 }) p0 (fun u => clear u && movsrDst u.g (srKind 1) (.v 3) &&
      !u.g.repro) = true := by decide +kernel

theorem wit_Moves_5 :
    meets (.fltrd { k0 with d := .v 4 }) (withG fun g => { g with shadow := some sh0 })
      (fun u => clear u && dstOk u.g true (.v 4)) = true := by
  decide +kernel

/-! ## The control class -/

theorem wit_Branches_1 :
    meets (.bra { c0 with toff := 4#32 }) p0 (fun u => clear u && branches u == some true) = true := by decide +kernel

/-- Bit 0 of v1 differs among the active lanes. -/
theorem wit_Branches_2 :
    meets (.bra { c0 with h := vg 0 1 }) (withG rampG) (fun u => clear u && branches u == none) = true := by decide +kernel

theorem wit_Branches_3 :
    meets (.brx { c0 with a := .s 4 }) p0 (fun u => clear u && branches u == some true && vsOk u.g true (.s 4) &&
      decide (bits (target (readPair u (.s 4) 0) 0#32) 0 4 = 0)) = true := by decide +kernel

theorem wit_Branches_4 :
    meets (.call { c0 with d := .s 62, a := .zero }) p0 (fun u => clear u && branches u == some true && sOk true (.s 62) &&
      decide (bits (target u.p.pc 0#32) 0 4 = 0)) = true := by decide +kernel

theorem wit_Branches_5 :
    meets (.ret { c0 with a := .s 62 }) p0 (fun u => clear u && branches u == some true && sOk true (.s 62) &&
      decide (bits (target (readPair u (.s 62) 0) 0#32) 0 4 = 0)) = true := by decide +kernel

theorem wit_Branches_6 :
    meets (.ret { c0 with a := .s 62 }) (withG fun g => { g with sregs := g.sregs.set 62 8#32 })
      (fun u => clear u && branches u == some true && sOk true (.s 62) &&
        decide (bits (target (readPair u (.s 62) 0) 0#32) 0 4 ≠ 0)) = true := by decide +kernel

/-- Lanes that name different targets, and a misaligned one. -/
theorem wit_Branches_7 :
    (∀ i ∈ [0, 1], meets (.brx { c0 with a := .v 4 }) (withG addrG) (fun u => clear u && branches u == some true &&
      vsOk u.g true (.v 4) && (active u).toList == [0, 1] &&
      (target (readPair u (.v 4) i) 0#32 != target (readPair u (.v 4) 0) 0#32) == (i == 1)) = true) ∧
    meets (.brx { c0 with a := .s 4 }) (withG fun g => { g with sregs := g.sregs.set 4 8#32 }) (fun u => clear u &&
      branches u == some true && vsOk u.g true (.s 4) && decide (bits (target (readPair u (.s 4) 0) 0#32) 0 4 ≠ 0)) = true ∧
    meets (.call { c0 with d := .s 62, a := .s 4 }) (withG fun g => { g with sregs := g.sregs.set 4 8#32 }) (fun u => clear u &&
      branches u == some true && sOk true (.s 62) && sOk true (.s 4) &&
      decide (bits (target (readPair u (.s 4) 0) 0#32) 0 4 ≠ 0)) = true := by decide +kernel

theorem wit_DivergingBranch_1 :
    meets (.braD { c0 with h := vg 0 1 }) p0 (fun u => clear u && active u == 0#64) = true ∧
    meets (.braD c0) p0 (fun u => clear u && active u != 0#64 && active u == u.p.em) = true := by decide +kernel

theorem wit_DivergingBranch_2 :
    meets (.braD { c0 with h := vg 0 1 }) (withG rampG) (fun u => idsOk u.s && clear u && active u != 0#64 &&
      active u != u.p.em && tablesHold u.ctx u.g 1 1) = true := by decide +kernel

/-- Eight splits fill the hardware table, and the split area has no room. -/
theorem wit_DivergingBranch_3 :
    meets (.braD { c0 with h := vg 0 1 })
      { withG (fun g => { rampG g with splits := (List.range 8).map fun k => { f0 with sid := 4 + k } }) with
        contexts := [{ Probe.context with splitArea := 0 }] }
      (fun u => clear u && active u != 0#64 && active u != u.p.em && !tablesHold u.ctx u.g 1 1) = true := by decide +kernel

/-- Every lane leaves, no lane does, and some do. -/
theorem wit_RegionsLeftAndJoined_1 :
    meets (.brk { c0 with xoff := 1#32 }) (withG inRegionG) (fun u => idsOk u.s && clear u &&
      decide (1 ≤ (chainOf u.g u.p).length) && guardedMembers u == u.p.members && guardedMembers u != 0#64) = true ∧
    meets (.brk { c0 with xoff := 1#32, h := vg 0 1 }) (withG inRegionG) (fun u => idsOk u.s && clear u &&
      decide (1 ≤ (chainOf u.g u.p).length) && tablesHold u.ctx u.g 1 0 && guardedMembers u == 0#64) = true ∧
    meets (.brk { c0 with xoff := 1#32, h := vg 0 1 }) (withG fun g => rampG (inRegionG g)) (fun u => idsOk u.s && clear u &&
      tablesHold u.ctx u.g 1 0 && guardedMembers u != 0#64 && guardedMembers u != u.p.members) = true := by decide +kernel

/-- No region, a region joined elsewhere, and one joined here. -/
theorem wit_RegionsLeftAndJoined_2 :
    meets (.join c0) p0 (fun u => idsOk u.s && clear u && (u.p.region.bind (regionOf u.g)).isNone) = true ∧
    meets (.join c0) (withG fun g => { inRegionG g with regions := [{ reg0 with joinPC := 0#64 }] })
      (fun u => idsOk u.s && clear u && (u.p.region.bind (regionOf u.g)).any fun r => r.joinPC != u.p.pc) = true ∧
    meets (.join c0) (withG inRegionG)
      (fun u => idsOk u.s && clear u && (u.p.region.bind (regionOf u.g)).any fun r => r.joinPC == u.p.pc) = true := by
  decide +kernel

theorem wit_RegionsLeftAndJoined_3 : meets (.gsync c0) p0 (fun u => idsOk u.s && clear u) = true := by decide +kernel

theorem wit_Exits :
    meets (.exit { c0 with h := vg 0 1 }) p0 (fun u => idsOk u.s && clear u && !u.g.inHandler && guardedMembers u == 0#64) =
      true ∧
    meets (.exit c0) p0 (fun u => idsOk u.s && clear u && !u.g.inHandler && guardedMembers u != 0#64) = true := by
  decide +kernel

/-- Nothing expected, not all arrived, and all arrived with a joined split. -/
theorem wit_RegionClose :
    (let g := { inRegionG g0 with regions := [{ reg0 with expected := 0#64 }] }
     groupOf (withG fun _ => g) 3 = some g ∧ (regionOf g 2).any (·.expected == 0#64) = true) ∧
    (let g := inRegionG g0
     groupOf (withG fun _ => g) 3 = some g ∧ (regionOf g 2).any (fun r => r.expected != 0#64 && r.arrived != r.expected) = true) ∧
    (let g := { inRegionG g0 with regions := [{ reg0 with arrived := Lanes.all false }],
                                  splits := [{ f0 with state := .joined, region := some 2 }] }
     groupOf (withG fun _ => g) 3 = some g ∧ (regionOf g 2).any (fun r => r.expected != 0#64 && r.arrived == r.expected) = true ∧
     (g.splits.filter fun p => p.state == .joined && p.region == some 2) ≠ []) := by decide +kernel

theorem wit_GroupSyncRelease :
    (let s := withF fun p => p
     IdsOk s ∧ ∃ g, groupOf s 3 = some g ∧ ∃ p ∈ g.splits, p.state ≠ .joined ∧ p.state ≠ .synced) ∧
    (let s := withF fun p => { p with state := .synced }
     IdsOk s ∧ ∃ g, groupOf s 3 = some g ∧ ∀ p ∈ g.splits, p.state = .joined ∨ p.state = .synced) := by
  refine ⟨⟨(idsOk_iff _).1 (by decide +kernel), _, rfl, ?_⟩, ⟨(idsOk_iff _).1 (by decide +kernel), _, rfl, ?_⟩⟩ <;>
    decide +kernel

/-! ## Traps and the system class -/

/-- A context with a handler. -/
def handled : State := withC fun c => { c with handler := 0x2000_0000#64 }

theorem wit_TrapEntry :
    ∃ g p c, groupOf handled 3 = some g ∧ splitOf g 4 = some p ∧ ctxOf handled g.ctx = some c ∧
      (Cause.misaligned).toDriver = false ∧ g.inHandler = false ∧ c.handler ≠ 0#64 ∧ comparedCopy handled g = false := by
  refine ⟨_, _, _, rfl, rfl, rfl, ?_⟩; decide +kernel

/-- A driver's cause, a trap in a handler, and a context with no handler. -/
theorem wit_TrapToDriver :
    (memWf handled.mem = true ∧ ∃ g p c, groupOf handled 3 = some g ∧ splitOf g 4 = some p ∧ ctxOf handled g.ctx = some c ∧
      comparedCopy handled g = false ∧ (Cause.fetchFault).toDriver = true) ∧
    (∃ g p, groupOf (withG handlerG) 3 = some g ∧ splitOf g 4 = some p ∧ comparedCopy (withG handlerG) g = false ∧
      g.inHandler = true) ∧
    (∃ g p c, groupOf p0 3 = some g ∧ splitOf g 4 = some p ∧ ctxOf p0 g.ctx = some c ∧ comparedCopy p0 g = false ∧
      c.handler = 0#64) := by
  refine ⟨⟨by decide +kernel, _, _, _, rfl, rfl, rfl, ?_⟩, ⟨_, _, rfl, rfl, ?_⟩, ⟨_, _, _, rfl, rfl, rfl, ?_⟩⟩ <;>
    decide +kernel

/-- An exit of a group with the error of a load. -/
theorem wit_FirstChecks_exit :
    meets (.exit c0) (withG fun g => { g with badLoads := [{ pc := 0#64, pa := 0x8000, dst := [] }] })
      (fun u => isExit u.i && !u.g.badLoads.isEmpty && !u.i.isEvent) = true := by decide +kernel

/-- PRIVILEGED outside the handler and in it, CHAIN_LENGTH, a guard that does not exist, and EM = 0 before any other check: the
guard of the last two does not exist either. -/
theorem wit_FirstChecks :
    meets (.trapEsc k0) p0 (fun u => !u.g.inHandler && instrPrivileged u.i) = true ∧
    meets (.exit c0) (withG handlerG) (fun u => u.g.inHandler && isExit u.i && u.g.badLoads.isEmpty) = true ∧
    meets (.iadd .s32 { r0 with h := { h0 with hold := true } }) (withF fun p => { p with chainLen := 7 })
      (fun u => !(instrPrivileged u.i) && decide (7 ≤ u.p.chainLen) && instrHold u.i) = true ∧
    meets (.iadd .s32 { r0 with h := vg 0 200 }) p0
      (fun u => !instrPrivileged u.i && !(decide (7 ≤ u.p.chainLen) && instrHold u.i) && !u.idle &&
        !guardLegal u.g (instrGuard u.i)) = true ∧
    (∀ i ∈ [Instr.iadd .s32 { r0 with h := vg 0 200 }, SweepOp.instr (.fma .f32) { s0 with h := vg 0 200 }],
      meets i (withF fun p => { p with em := 0#64 }) (fun u => !instrPrivileged u.i && perLane i && u.p.em == 0#64 &&
        !guardLegal u.g (instrGuard u.i)) = true) := by decide +kernel

theorem wit_TrapInstructions_1 :
    meets (.trap { k0 with a := .imm, kimm := 7#32 }) p0 (fun u => clear u && active u != 0#64) = true ∧
    meets (.trap { k0 with a := .imm, h := vg 0 1 }) p0 (fun u => clear u && active u == 0#64) = true := by decide +kernel

theorem wit_TrapInstructions_2 : (issuer p0 (.reservedEncoding 0#128)).isSome = true := by decide +kernel

theorem wit_TrapInstructions_3 :
    memWf p0.mem = true ∧ meets (.bkpt k0) p0 (fun u => clear u && scalarGuard u.g k0.h.guard && !regWritesPending p0 u.g.gid &&
      !comparedCopy p0 u.g) = true := by decide +kernel

theorem wit_TrapInstructions_4 :
    memWf (withG handlerG).mem = true ∧ meets (.trapEsc k0) (withG handlerG) (fun u => clear u && scalarGuard u.g k0.h.guard &&
      u.g.shadow == some sh0 && !comparedCopy u.s u.g) = true := by decide +kernel

theorem wit_HandlerReturn :
    meets (.iret { k0 with h := { h0 with guard := .scalar false 0 4 } }) (withG handlerG) (fun u => clear u &&
      u.g.shadow == some sh0 && sh0.sid == u.p.sid && bits u.g.trappc 0 4 == 0 &&
      decide (4 * u.g.core + u.g.quarter < u.s.rings.length) && !scalarGuard u.g (.scalar false 0 4)) = true ∧
    meets (.iret k0) (withG handlerG) (fun u => clear u && u.g.shadow == some sh0 && sh0.sid == u.p.sid &&
      bits u.g.trappc 0 4 == 0 && decide (4 * u.g.core + u.g.quarter < u.s.rings.length) && scalarGuard u.g .always) =
      true := by decide +kernel

/-- SRCTR, a vector register, and FMT. -/
theorem wit_SpecialRegisterWrites_1 :
    meets (.setsr { k0 with a := .imm, b := .v 1, kimm := 0x12#32 }) p0 (fun u => clear u && srWritable 0x12 &&
      setsrSrc u.g (srKind 0x12) (.v 1)) = true ∧
    meets (.setsr { k0 with a := .imm, b := .s 5, kimm := 0x0C#32 }) p0 (fun u => clear u && srWritable 0x0C &&
      setsrSrc u.g (srKind 0x0C) (.s 5) &&
      fmtValid (fmtWrite u.p.fmt (BitVec.ofNat 32 (readNat u 0#64 (srKind 0x0C == .u64) (.s 5) 0)))) = true := by
  decide +kernel

/-- RM 1, and RM 7, which is reserved. -/
theorem wit_SpecialRegisterWrites_2 :
    let new := fun (u : Iss) (n : DWord) =>
      (u.p.fmt &&& ~~~fmtMask 1#7) ||| (BitVec.ofNat 9 (readNat u n false .imm 0) &&& fmtMask 1#7)
    meets (.fmtset { k0 with a := .imm, mod := 1#7, kimm := 1#32 }) p0 (fun u => clear u && siOk .imm &&
      decide (bits (new u 1#64) 0 3 < 6 ∧ bits (new u 1#64) 5 2 < 3)) = true ∧
    meets (.fmtset { k0 with a := .imm, mod := 1#7, kimm := 7#32 }) p0 (fun u => clear u && siOk .imm &&
      scalarGuard u.g k0.h.guard && decide (¬ (bits (new u 7#64) 0 3 < 6 ∧ bits (new u 7#64) 5 2 < 3))) = true := by
  decide +kernel

theorem wit_Retirement_1 :
    meets (.nop c0) p0 (fun u => (groupOf u.s u.g.gid).isSome && (splitOf u.g u.p.sid).isSome && !isIret u.i) = true := by
  decide +kernel

theorem wit_Retirement_2 : meets (.nop c0) p0 clear = true ∧ meets (.yield c0) p0 clear = true := by decide +kernel

/-! ## Accesses -/

theorem wit_LoadIssue_1 :
    meets (.ld .b32 { m0 with h := off }) adS (fun u => clear u && loadOk u .b32 { m0 with h := off } 0 [0#4, 2#4] &&
      (resultLanes u off (.v 3)).isEmpty) = true ∧
    meets (.ld .b32 m0) adS (fun u => clear u && loadOk u .b32 m0 0 [0#4, 2#4] &&
      (placesOf u m0 .load 0 4 false (resultLanes u m0.h m0.d)).isOk && !(resultLanes u m0.h m0.d).isEmpty &&
      !engFull u .c0) = true := by decide +kernel

/-- LDS by lanes, and a .ROW at s4 + 256 of a team whose scratchpad has 4 KiB. -/
theorem wit_LoadIssue_2 :
    meets (.lds .b32 { m0 with space := 1#4 }) (withG spadG) (fun u => clear u &&
      loadOk u .b32 { m0 with space := 1#4 } 0 [1#4] &&
      (placesOf u { m0 with space := 1#4 } .load 0 4 false (resultLanes u m0.h m0.d)).isOk &&
      !(resultLanes u m0.h m0.d).isEmpty && !engFull u .c0) = true ∧
    meets (.lds .b32 { m0 with space := 1#4, mod := 1#7, a := .s 9, disp := 256#32 }) (withG spadG) (fun u => clear u &&
      loadOk u .b32 { m0 with space := 1#4, mod := 1#7, a := .s 9, disp := 256#32 } 1 [1#4] &&
      (placesOf u { m0 with space := 1#4, mod := 1#7, a := .s 9, disp := 256#32 } .load 1 4 false
        (resultLanes u m0.h m0.d)).isOk && !engFull u .c0) = true := by decide +kernel

/-- A run beyond the scratchpad, and lanes whose guards are false at a run within it. -/
theorem wit_LoadIssue_4 :
    let f := { m0 with space := 1#4, mod := 1#7, a := .s 9, disp := 3840#32 }
    meets (.lds .b32 f) (withG fun g => { spadG g with splits := [f0] }) (fun u => clear u && loadOk u .b32 f 1 [1#4] &&
      (placesOf u { f with disp := 4096#32 } .load 1 4 false (resultLanes u f.h f.d)).isOk == false) = true ∧
    meets (.lds .b32 { f with h := off }) (withG spadG) (fun u => clear u && loadOk u .b32 { f with h := off } 1 [1#4] &&
      (resultLanes u off f.d).isEmpty && (placesOf u { f with h := off } .load 1 4 false []).isOk) = true := by
  decide +kernel

/-- A prefetch of a page that is mapped, and of one that is not. -/
theorem wit_LoadIssue_3 :
    meets (.pref { m0 with d := .zero }) adS (fun u => clear u && addrOk u.g true m0 && !(active u).toList.isEmpty &&
      !engFull u .c0 && !(prefLines u { m0 with d := .zero } (active u).toList).2.isEmpty) = true ∧
    meets (.pref { m0 with d := .zero, a := .v 6 }) adS (fun u => clear u && addrOk u.g true { m0 with a := .v 6 } &&
      !(active u).toList.isEmpty && !engFull u .c0 &&
      (prefLines u { m0 with d := .zero, a := .v 6 } (active u).toList).2.isEmpty) = true := by decide +kernel

def st0 : MFmt := { m0 with d := .zero, c := .v 1 }

/-- A store in flight, and one of a checked copy. -/
theorem wit_StoreIssue_1 :
    ∀ c ∈ [true, false], meets (.st .b32 st0) (withG fun g => { addrG g with checked := c }) (fun u => clear u &&
      storeOk u .b32 st0 0 [0#4, 2#4] && !(active u).toList.isEmpty &&
      (placesOf u st0 .store 0 4 false (active u).toList).isOk && !engFull u .c0 && !pathHeld u.s u.g.core) = true := by
  decide +kernel

/-- A store whose core's path is held, one with no lane, and one that is misaligned. -/
theorem wit_StoreIssue_3 :
    meets (.st .b32 st0) (heldS (after (.st .b32 st0) adS)) (fun u => clear u && storeOk u .b32 st0 0 [0#4, 2#4] &&
      !(active u).toList.isEmpty && (placesOf u st0 .store 0 4 false (active u).toList).isOk && !engFull u .c0 &&
      pathHeld u.s u.g.core) = true ∧
    meets (.st .b32 { st0 with h := off }) adS (fun u => clear u && storeOk u .b32 { st0 with h := off } 0 [0#4, 2#4] &&
      (active u).toList.isEmpty) = true ∧
    meets (.st .b32 { st0 with disp := 1#32 }) adS (fun u => clear u && storeOk u .b32 { st0 with disp := 1#32 } 0 [0#4, 2#4] &&
      !(placesOf u { st0 with disp := 1#32 } .store 0 4 false (active u).toList).isOk) = true := by decide +kernel

/-- STS: a run with no lane, and one that is misaligned. -/
theorem wit_StoreIssue_4 :
    let f := { st0 with space := 1#4, mod := 1#7, a := .s 9 }
    meets (.sts .b32 { f with h := off }) (withG spadG) (fun u => clear u && storeOk u .b32 { f with h := off } 1 [1#4] &&
      (active u).toList.isEmpty && (placesOf u { f with h := off } .store 1 4 false []).isOk) = true ∧
    meets (.sts .b32 { f with disp := 1#32 }) (withG spadG) (fun u => clear u && storeOk u .b32 { f with disp := 1#32 } 1 [1#4] &&
      !(placesOf u { f with disp := 1#32 } .store 1 4 false (active u).toList).isOk) = true := by decide +kernel

theorem wit_StoreIssue_2 :
    meets (.sts .b32 { st0 with space := 1#4 }) (withG spadG) (fun u => clear u &&
      storeOk u .b32 { st0 with space := 1#4 } 0 [1#4] && !(active u).toList.isEmpty &&
      (placesOf u { st0 with space := 1#4 } .store 0 4 false (active u).toList).isOk && !engFull u .c0) = true := by
  decide +kernel

/-- By lanes in global and scratchpad space, and in a .COL. -/
theorem wit_AccessPlaces :
    meets (.ld .b32 m0) adS (fun u => (placesOf u m0 .load 0 4 false [0, 1]).isOk) = true ∧
    meets (.lds .b32 { m0 with space := 1#4 }) (withG spadG)
      (fun u => (placesOf u { m0 with space := 1#4 } .load 0 4 false [0, 1]).isOk) = true ∧
    meets (.lds .b32 { m0 with space := 1#4, a := .s 9 }) (withG fun g => spadG g) (fun u =>
      (placesOf { u with g := { u.g with narrow := true }, s := { u.s with teams := u.s.teams.map fun t =>
        { t with spadSize := 16384 } } } { m0 with space := 1#4, a := .s 9 } .load 2 4 false [0, 1]).isOk) = true := by
  decide +kernel

theorem wit_AtomicIssue_1 :
    meets (.atom .b32 { m0 with c := .v 1 }) adS (fun u => clear u && dstOk u.g false (.v 3) &&
      atomicLegal u .b32 { m0 with c := .v 1 } && !fabricIllegal u m0 (active u).toList && !streams u.g (spaceOf 0#4) &&
      !(active u).toList.isEmpty && !engFull u .c0 &&
      (accessLanes u (spaceOf 0#4) .rmw (active u).toList (effAddr u m0) 4 4).isOk) = true := by decide +kernel

/-- Performed on its way, and buffered for harvest. -/
theorem wit_AtomicIssue_2 :
    ∀ repro ∈ [false, true], meets (.red .b32 st0) (withG fun g => { addrG g with repro }) (fun u => clear u && st0.d == .zero &&
      atomicLegal u .b32 st0 && !fabricIllegal u st0 (active u).toList && !(active u).toList.isEmpty &&
      (addrTrap u (spaceOf 0#4) (active u).toList (effAddr u st0) 4 4).isNone && !streams u.g (spaceOf 0#4) &&
      u.g.repro == repro && spaceOf st0.space != .scratch && (gridOf u.s u.g.grid).isSome && !engFull u .c0 &&
      !pathHeld u.s u.g.core) = true := by decide +kernel

def cen0 : RFmt := { r0 with d := .zero, a := .s 4, b := .v 1, c := .imm }

/-- RED and CENSUS of a checked copy. -/
theorem wit_AtomicIssue_6 :
    meets (.red .b32 st0) (withG fun g => { addrG g with checked := true }) (fun u => clear u && st0.d == .zero &&
      atomicLegal u .b32 st0 && !fabricIllegal u st0 (active u).toList && !(active u).toList.isEmpty &&
      (addrTrap u (spaceOf 0#4) (active u).toList (effAddr u st0) 4 4).isNone && streams u.g (spaceOf 0#4) &&
      !engFull u .c0) = true ∧
    meets (.census .f32 cen0) (withG fun g => { addrG g with checked := true }) (fun u => clear u && sOk true (.s 4) &&
      siOk .imm && vecOk u.g 1 && !fabricRun u.ctx (readPair u (.s 4) 0) 0x108 && active u != 0#64 &&
      decide ((readPair u (.s 4) 0).toNat % 8 = 0) &&
      !(foldElems .global (readPair u (.s 4) 0) ((active u).toList.headD 0) (cenCvt .f32)
        (BitVec.ofNat 32 (readNat u 0#64 false .imm 0)).toInt (cenCodes u .f32 (.v 1) (active u).toList)).isEmpty &&
      streams u.g .global) = true := by decide +kernel

theorem wit_AtomicIssue_3 :
    meets (.census .f32 cen0) adS (fun u => clear u && sOk true (.s 4) && siOk .imm && vecOk u.g 1 &&
      !fabricRun u.ctx (readPair u (.s 4) 0) 0x108 && active u != 0#64 && decide ((readPair u (.s 4) 0).toNat % 8 = 0) &&
      !(foldElems .global (readPair u (.s 4) 0) ((active u).toList.headD 0) (cenCvt .f32)
        (BitVec.ofNat 32 (readNat u 0#64 false .imm 0)).toInt (cenCodes u .f32 (.v 1) (active u).toList)).isEmpty &&
      !streams u.g .global && !u.g.repro && !pathHeld u.s u.g.core) = true := by decide +kernel

theorem wit_AtomicIssue_4 :
    meets (.jdec st0) adS (fun u => clear u && st0.d == .zero && st0.space == 0#4 && addrOk u.g true st0 &&
      !u.g.checked && !fabricIllegal u st0 (active u).toList && !(active u).toList.isEmpty &&
      (active u).toList.all (fun l => decide ((effAddr u st0 l).toNat % 4 = 0)) && !groupParked u.s u.g.gid &&
      !pathHeld u.s u.g.core) = true := by decide +kernel

/-- Two lanes with addresses, and lanes whose addresses are all zero. -/
theorem wit_AtomicIssue_5 :
    meets (.exitJ { st0 with h := vg 3 4 }) (withG fun g => { addrG g with vregs := (addrG g).vregs.set 4 <|
        (LaneVec.ofFn fun l => if l < 2 then BitVec.ofNat 32 (0x2000_8008 + 16 * l) else 0#32) })
      (fun u => clear u && !u.g.inHandler && addrOk u.g true st0 &&
      !fabricIllegal u st0 (guardedMembers u).toList && !u.g.checked && guardedMembers u == 3#64 &&
      (addrTrap u .global [0, 1] (effAddr u st0) 4 4).isNone && (translateLanes u.s u .rmw [0, 1] (effAddr u st0)).2.2 == [] &&
      [0, 1].all (fun l => effAddr u st0 l != 0#64) && !groupParked u.s u.g.gid && !pathHeld u.s u.g.core) = true ∧
    meets (.exitJ { st0 with a := .v 6 }) p0 (fun u => clear u && !u.g.inHandler && addrOk u.g true { st0 with a := .v 6 } &&
      !fabricIllegal u { st0 with a := .v 6 } (guardedMembers u).toList && guardedMembers u != 0#64 &&
      (guardedMembers u).toList.all fun l => effAddr u { st0 with a := .v 6 } l == 0#64) = true := by decide +kernel

def cc0 : MFmt := { m0 with d := .zero, a := .s 4, c := .imm, disp := 0#32 }

/-- 128 bytes of the instruction cache, and of the L1: C is s5, which holds 128 here, and the address s4d. -/
theorem wit_CachesAndFences_1 :
    let s := withG fun g => { addrG g with sregs := (addrG g).sregs.set 9 128#32 }
    ∀ m ∈ [0#7, 1#7],
      meets (.cctl { cc0 with c := .s 9, mod := m }) s (fun u => clear u && addrOk u.g false { cc0 with c := .s 9 } && siOk (.s 9) &&
        scalarGuard u.g cc0.h.guard && decide (u.g.core < u.s.cores.length) &&
        decide (0 < cctlLen u { cc0 with c := .s 9 }) && decide (cctlLen u { cc0 with c := .s 9 } ≤ 0x10_0000) &&
        decide ((effAddr u cc0 0).toNat + cctlLen u { cc0 with c := .s 9 } ≤ 2 ^ 57) && !inFabric u.ctx (effAddr u cc0 0) &&
        !inFabric u.ctx (effAddr u cc0 0 + 127#64) && !writesUnseen u && !guardIsVector cc0.h.guard && cc0.d == .zero &&
        cc0.space == 0#4) = true := by decide +kernel

/-- A release and an acquire at DEV scope, both, and a release at GRP scope of a store that is in flight. -/
theorem wit_CachesAndFences_2 :
    meets (.fence { k0 with mod := 2#7, h := bareHdr 3#3 }) p0 (fun u => clear u && scalarGuard u.g k0.h.guard &&
      bits 2#7 0 2 == 2 && !groupParked u.s u.g.gid && !gatesOut u.s u.g.gid && scopeWide (scopeOf 3#3) &&
      !coreSeen u.s u.g.core u.s.nextId) = true ∧
    meets (.fence { k0 with mod := 2#7 }) (after (.st .b32 st0) adS) (fun u => clear u && scalarGuard u.g k0.h.guard &&
      bits 2#7 0 2 == 2 && !groupParked u.s u.g.gid && !gatesOut u.s u.g.gid && !scopeWide (scopeOf 0#3) &&
      u.s.ops.any fun o => decide (o.id < u.s.nextId) && o.agent == u.p.agent) = true ∧
    (∀ m ∈ [1#7, 3#7], meets (.fence { k0 with mod := m, h := bareHdr 3#3 }) p0 (fun u => clear u &&
      scalarGuard u.g k0.h.guard && !splitOutstanding u.s u.p true && released u true && scopeWide (scopeOf 3#3) &&
      decide (u.g.core < u.s.cores.length)) = true) := by decide +kernel

/-- Its guard is false, and its group has a reduction that is not performed. -/
theorem wit_CachesAndFences_4 :
    meets (.dflush { k0 with h := { h0 with guard := .scalar false 0 4 } }) p0 (fun u => clear u &&
      !scalarGuard u.g (.scalar false 0 4)) = true ∧
    meets (.dflush k0) (after (.red .b32 st0) adS) (fun u => clear u && scalarGuard u.g k0.h.guard && !u.g.repro &&
      flushPending u.s u.g) = true := by decide +kernel

/-- In a reproducible grid a harvest comes first. -/
theorem wit_CachesAndFences_3 :
    meets (.dflush k0) p0 (fun u => clear u && scalarGuard u.g k0.h.guard && !u.g.repro && !flushPending u.s u.g) = true ∧
    meets (.dflush k0) (withG fun g => { g with repro := true }) (fun u => clear u && scalarGuard u.g k0.h.guard && u.g.repro &&
      !flushPending (harvestGrid u.s u.g.grid (some (u.g.lt, u.g.gindex))) u.g) = true := by decide +kernel

/-- A load of two lanes in flight; it is operation 6. -/
def loading : State := after (.ld .b32 m0) adS

def ldsing : State := after (.lds .b32 { m0 with space := 1#4 }) (withG spadG)

/-- The element of lane 0, from memory, and one of a scratchpad load. -/
theorem wit_LoadElement :
    (opOf loading 6).any (fun o => (o.elems[0]?).any fun e => e.st == .pending && elemReady loading o e && e.space == .global &&
        forwarded loading o e == none && streamOf loading o.team == [] && seenWrites loading o.core == []) = true ∧
    (opOf ldsing 6).any (fun o => (o.elems[0]?).any fun e => e.st == .pending && elemReady ldsing o e && e.space == .scratch) =
      true := by decide +kernel

/-- All elements of the load, and one of two; the same with an uncorrectable granule. -/
theorem wit_AccessReplies_1 :
    ((opOf loading 6).map Op.kind) = some (.load .b32 (.v 3)) ∧
    (let s1 := loadElems loading 6 allLanes 0#64
     ((opOf s1 6).map fun o => (o.kind, o.performed, (o.elems.findSome? Elem.bad).isNone, o.elems.map Elem.lane)) =
        some (.load .b32 (.v 3), true, true, [0, 1]) ∧
     (groupOf s1 3).any (fun g => dstOk g false (.v 3)) = true) ∧
    (let s1 := loadElems loading 6 1#64 0#64
     ((opOf s1 6).map fun o => (o.kind, o.performed)) = some (.load .b32 (.v 3), false)) ∧
    (let s1 := loadElems { loading with badGranules := [0x400] } 6 allLanes 0#64
     ((opOf s1 6).map fun o => (o.performed, (o.elems.findSome? Elem.bad).isSome)) = some (true, true)) := by decide +kernel

theorem wit_AccessReplies_2 :
    (let s := after (.pref { m0 with d := .zero }) adS
     (opOf s 6).map (fun o => (o.kind, o.gid)) = some (.pref true, 3) ∧ (groupOf s 3).isSome = true) := by decide +kernel

/-- An atomic with no element performed, and one whose elements have all returned. -/
def atoming : State := after (.atom .b32 { m0 with c := .v 1, mod := 0#7 }) adS
theorem wit_AccessReplies_3 :
    ((opOf atoming 6).map fun o => (o.kind, o.performed)) = some (.rmw .b32 (some (.v 3)), false) ∧
    (let s := after (.atomicAtHome 6 1) (after (.atomicAtHome 6 0) atoming)
     ((opOf s 6).map fun o => (o.kind, o.performed, o.elems.map Elem.lane)) = some (.rmw .b32 (some (.v 3)), true, [0, 1]) ∧
     (groupOf s 3).any (fun g => dstOk g false (.v 3)) = true) := by decide +kernel

def storing : State := after (.st .b32 st0) adS
theorem wit_StorePerformed :
    memWf storing.mem = true ∧ storing.badGranules = [] ∧ (opOf storing 6).any (fun o => !copyTeam storing o.team) = true ∧
    (opOf storing 6).any (fun o => o.kind == .store && (storeReady storing o allLanes).length == 2 &&
      (storeReady storing o allLanes).all fun e => e.space != .scratch) = true ∧
    ∀ o, opOf storing 6 = some o → (storeReady storing o allLanes).Pairwise apart := by
  refine ⟨by decide +kernel, by decide +kernel, by decide +kernel, by decide +kernel, fun o h => ?_⟩
  obtain rfl := Option.some.inj h
  unfold apart
  decide +kernel

/-- A store of a checked copy, whose two items its check area holds. -/
theorem wit_StorePerformed_2 :
    let s := copyS storing
    (opOf s 6).any (fun o => o.kind == .store && copyTeam s o.team && (teamOf s o.team).isSome && o.ctx == 0 &&
      (storeReady s o allLanes).length == 2 && (storeReady s o allLanes).all fun e => e.space == .global) = true ∧
    (ctxOf s 0).map Context.checkSz = some (2 * Config.streamItemBytes) ∧
    checkInUse s 0 + 2 * Config.streamItemBytes ≤ 2 * Config.streamItemBytes :=
  ⟨by decide +kernel, rfl, roomFor (by decide +kernel) (Nat.le_refl 2)⟩

/-- A store of two lanes to scratchpad. -/
def stsing : State := after (.sts .b32 { st0 with space := 1#4 }) (withG spadG)
theorem wit_StorePerformed_3 :
    SpadsOk stsing ∧ ∃ o tm, opOf stsing 6 = some o ∧ o.kind = .store ∧ teamOf stsing o.team = some tm ∧
      (storeReady stsing o allLanes).length = 2 ∧
      (∀ e ∈ storeReady stsing o allLanes, e.space = .scratch ∧ plainSpad stsing o.team e.va.toNat e.size) ∧
      (storeReady stsing o allLanes).Pairwise spadApart := by
  refine ⟨(spadsOk_iff _).1 (by decide +kernel), _, _, rfl, rfl, rfl, by decide +kernel, fun e he => ⟨?_, ?_⟩, ?_⟩
  · revert e; decide +kernel
  · exact plain_of (t := (teamOf stsing 2).getD (Probe.team 1)) (by decide +kernel) (by decide +kernel)
      (by revert e; decide +kernel)
  · unfold spadApart; decide +kernel

/-- One lane stores into the object at offset 0, which is named. -/
def objStoring : State :=
  after (.sts .b32 { st0 with space := 1#4 }) { after (.binit { r0 with d := .v 0, a := .s 9, b := .imm, c := .s 8, imm := 2#32 }) p0 with
    groups := [{ spadG g0 with splits := [{ f0 with em := 1#64 }] }] }
theorem wit_StorePerformed_4 :
    idsOk objStoring = true ∧ spadsOk objStoring = true ∧ ((gridOf objStoring 1).map fun g => g.desc.repro) = some false ∧
    (objStoring.ops[0]?).any (fun o => o.kind == .store && opOf objStoring o.id == some o && (teamOf objStoring o.team).isSome &&
      o.grid == 1 && (storeReady objStoring o allLanes).length == 1 && (storeReady objStoring o allLanes).all (fun e =>
        e.space == .scratch && decide (0 < e.size) && decide (e.va.toNat + e.size ≤ 16)) && named objStoring o.team 0 &&
      !handedAway objStoring o.team 0 16) = true := by decide +kernel

/-- An ATOM, translated at issue, alone on its element and with another lane on it; a RED, a decrement and a fold, translated
on their way. -/
theorem wit_AtomicAtHome_1 :
    (∀ s ∈ [atoming, after (.atom .b32 { m0 with c := .v 1 }) (withG fun g =>
        let g := addrG g; { g with vregs := g.vregs.set 4 (LaneVec.ofFn fun _ => 0x2000_8000#32) })],
      ((opOf s 6).bind fun o => (o.elems[0]?).map fun e => (o.lateTranslated, elemNext s o 0 e, o.streamed s e,
        badGranule? s (e.pa.getD 0) e.size)) = some (false, true, false, none) ∧ memWf s.mem = true) ∧
    ((opOf atoming 6).bind fun o => (o.elems[0]?).map (withElem o 0)) = some [0] := by decide +kernel

theorem wit_AtomicAtHome_2 :
    ∀ s ∈ [after (.red .b32 st0) adS, after (.jdec st0) adS, after (.census .f32 cen0) adS],
      ((opOf s 6).bind fun o => (o.elems[0]?).bind fun e => (ctxOf s o.ctx).map fun c =>
        (o.lateTranslated, elemNext s o 0 e, o.streamed s e, behindParked s o e, (translateLate s o c e).1.isOk,
          memWf (translateLate s o c e).2.mem)) = some (true, true, false, false, true, true) := by decide +kernel

/-- A RED and a fold of a checked copy. -/
theorem wit_AtomicAtHome_3 :
    ∀ s ∈ [copyS (after (.red .b32 st0) adS), copyS (after (.census .f32 cen0) adS)],
      ((opOf s 6).bind fun o => (o.elems[0]?).map fun e => (elemNext s o 0 e, o.streamed s e, (teamOf s o.team).isSome, o.ctx)) =
        some (true, true, true, 0) ∧
      checkInUse s 0 + 1 * Config.streamItemBytes ≤ 2 * Config.streamItemBytes := by
  intro s h
  simp only [List.mem_cons, List.not_mem_nil, or_false] at h
  rcases h with rfl | rfl <;> exact ⟨by decide +kernel, roomFor (by decide +kernel) (by decide)⟩

/-- An ATOM and a RED in scratchpad, and a RED on the object at offset 0, which is named. -/
theorem wit_AtomicAtHome_4 :
    ∀ i ∈ [Instr.atom .b32 { m0 with c := .v 1, space := 1#4 }, .red .b32 { st0 with space := 1#4 }],
      SpadsOk (after i (withG spadG)) ∧ ∃ o e, opOf (after i (withG spadG)) 6 = some o ∧ o.elems[0]? = some e ∧
        spadNext (after i (withG spadG)) o 0 e = true ∧ 0 < e.size ∧ (teamOf (after i (withG spadG)) o.team).isSome = true ∧
        plainSpad (after i (withG spadG)) o.team e.va.toNat e.size := by
  intro i h
  simp only [List.mem_cons, List.not_mem_nil, or_false] at h
  rcases h with rfl | rfl <;>
    exact ⟨(spadsOk_iff _).1 (by decide +kernel), _, _, rfl, rfl, by decide +kernel, by decide +kernel, by decide +kernel,
      plain_of (t := (teamOf (withG spadG) 2).getD (Probe.team 1)) (by decide +kernel) (by decide +kernel) (by decide +kernel)⟩

def objReducing : State :=
  after (.red .b32 { st0 with space := 1#4 }) { after (.binit { r0 with d := .v 0, a := .s 9, b := .imm, c := .s 8, imm := 2#32 }) p0 with
    groups := [{ spadG g0 with splits := [{ f0 with em := 1#64 }] }] }
theorem wit_AtomicAtHome_5 :
    idsOk objReducing = true ∧ spadsOk objReducing = true ∧ ((gridOf objReducing 1).map fun g => g.desc.repro) = some false ∧
    (objReducing.ops[0]?).any (fun o => o.grid == 1 && opOf objReducing o.id == some o && (teamOf objReducing o.team).isSome &&
      (match o.kind with | .rmw _ none => true | _ => false) && (o.elems[0]?).any fun e => spadNext objReducing o 0 e &&
      withElem o 0 e == [0] && decide (0 < e.size) && decide (e.va.toNat + e.size ≤ 16) && named objReducing o.team 0 &&
      !handedAway objReducing o.team 0 16) = true := by decide +kernel

/-! ## Sweeps and maps -/

/-- Legal, not legal (a map on B of an FQUANT), and with EM = 0. -/
theorem wit_Sweeps_1 :
    meets (SweepOp.instr (.fma .f32) s0) p0 (fun u => clear u && SweepOp.legal (.fma .f32) s0) = true ∧
    meets (SweepOp.instr (.fquant .f32) { s0 with mb := 1#4 }) p0 (fun u => clear u &&
      !SweepOp.legal (.fquant .f32) { s0 with mb := 1#4 }) = true ∧
    meets (SweepOp.instr (.fma .f32) s0) (withF fun p => { p with em := 0#64 }) (fun u => isSweep u.i && (firstTrap u).isNone &&
      u.p.em == 0#64) = true := by decide +kernel

def ldlS : SFmt := { s0 with a := .s 4, b := .v 0, mod := 0#7 }

theorem wit_Sweeps_2 :
    meets (.ldlSweep ldlS) adS (fun u => clear u && sOk false ldlS.d && sOk true ldlS.a &&
      !(u.g.narrow && ldlRank ldlS.mod == 64)) = true := by decide +kernel

/-- The first and the last iteration of an FMA sweep; the segments lie at offset 0. -/
theorem wit_Sweeps_3 :
    let i := SweepOp.instr (.fma .f32) s0
    ∀ n ∈ [0, 1], due i n (withF fun p => { p with em := 3#64, sweep := some (i, n) }) (fun u =>
      u.s.teams.all (fun t => t.objs.isEmpty) && (phasesDue u.s u.g.grid).isEmpty && (segTrap u (SweepOp.segs (.fma .f32) u s0 n)).isNone && segsReady u (SweepOp.segs (.fma .f32) u s0 n) &&
      (mapTrap u (SweepOp.sources (.fma .f32) s0)).isNone &&
      noNanTrap u (active u).toList (fun l => (SweepOp.lane (.fma .f32) u s0 n l).2) &&
      (u.s.teams.all fun t => memWf t.spad) && u.s.handles.all fun h => memWf h.bytes) = true := by decide +kernel

/-- An LDL sweep of two segments of packed bytes; its rows come from memory or from the L1. -/
theorem wit_Sweeps_4 :
    let s := after (.ldlSweep ldlS) adS
    due (.ldlSweep ldlS) 0 s (fun u =>
      let va := readPair u (.s 4) 0
      u.s.teams.all (fun t => t.objs.isEmpty) && (phasesDue u.s u.g.grid).isEmpty && spadsOk u.s && (segTrap u [(segOff u ldlS.d ldlS.stepD 0, 2)]).isNone &&
      !fabricRun u.ctx va (ldlBytes ldlS.mod) &&
      segsReady u [(segOff u ldlS.d ldlS.stepD 0, 2)] && !engFull u .c0 && (ldlSlotTrap u (ldlX ldlS.mod) ldlS.ma).isNone &&
      (match translateRun u .ldl va (ldlBytes ldlS.mod) with
        | .ok (s1, pages) =>
          let o := (mkOp u s1 (.load .b64 .zero) false false .grp
            (pieceElems .global va.toNat (ldlBytes ldlS.mod) pages)).1
          [true, false].all fun b => (readNow (choose s1 2).2 o b).any fun r => r.2.1.isNone &&
            noNanTrap u (active u).toList fun l => Lane.start (u.g.srctr.get l)
        | .error _ => false)) = true := by decide +kernel

def mapres0 : RFmt := { r0 with d := .s 8, a := .imm, imm := 2#32 }

/-- Lower, higher, too high, and too high in a reproducible group. -/
theorem wit_MapSlots_1 :
    meets (.mapres { mapres0 with imm := 1#32 }) (withG fun g => { slotG g with phys := [PhysSlot.new 0, PhysSlot.new 1] })
      (fun u => clear u && sOk false (.s 8) && siOk .imm && decide ((heldSlots u.g).length ≤ 1) &&
        decide (1 ≤ u.g.phys.length)) = true ∧
    meets (.mapres mapres0) p0 (fun u => clear u && decide (u.g.phys.length < 2) && !u.g.repro &&
      decide (2 - u.g.phys.length ≤ (freeSlots u.s u.g.core u.g.quarter).length)) = true := by decide +kernel

def fullS (repro : Bool) : State :=
  { p0 with groups := [{ g0 with repro }, { g0 with gid := 9, phys := (List.range Config.mapSlotsPerQuarter).map fun n => { num := n, elems := [], scales := [] } }] }

theorem wit_MapSlots_2 :
    meets (.mapres mapres0) (fullS false) (fun u => clear u && decide (u.g.phys.length < 2) && !u.g.repro &&
      decide ((freeSlots u.s u.g.core u.g.quarter).length < 2)) = true ∧
    meets (.mapres mapres0) (fullS true) (fun u => clear u && decide (u.g.phys.length = 0) && u.g.repro &&
      decide ((freeSlots u.s u.g.core u.g.quarter).length < 2)) = true ∧
    (let s := after (.mapres mapres0) (fullS true)
     (groupOf { s with groups := s.groups.take 1 } 3).any fun x => x.mapresWait == some (4, .mapres mapres0, 2) && x.running && !x.haltReq &&
        decide (2 ≤ (freeSlots { s with groups := s.groups.take 1 } x.core x.quarter).length) && (splitOf x 4).isSome &&
        (ctxOf s x.ctx).isSome) = true := by decide +kernel

def bind0 : MFmt := { m0 with d := .v 0, a := .zero, ma := 1#4 }
def bindM : MFmt := { bind0 with a := .s 4 }

def boundG (g : Group) : Group := { addrG g with phys := [PhysSlot.new 0] }

theorem wit_MapSlots_3 :
    (∀ f ∈ [bind0, bindM], meets (.mapbind f) (withG boundG) (fun u => clear u && bindLegal u.g f && scalarGuard u.g f.h.guard &&
      !engFull u .c2 && (u.g.slots[0]?).any fun x => x.bad == none && bindPhys u.g x == some 0 && x.st != .binding) = true) ∧
    meets (.mapbind bindM) (withG boundG) (fun u =>
      !fabricRun u.ctx (effAddr u bindM 0) (sfmtImage (modSfmt bindM.mod)) && (bindElems u bindM).isOk) = true := by
  decide +kernel

/-- A bind whose last two pieces are to be read, and one with an uncorrectable granule among them. -/
def binding : State :=
  let s := after (.mapbind bindM) (withG boundG)
  { s with ops := s.ops.map fun o => { o with elems := o.elems.take 2 } }
theorem wit_MapSlots_4 :
    ∀ s ∈ [binding, { binding with badGranules := [0x400] }],
      (opOf s 6).any (fun o => o.kind == .bind 1) = true ∧
      (opOf (loadElems s 6 allLanes 0#64) 6).any (fun o1 => o1.performed && o1.kind == .bind 1 &&
        (groupOf (loadElems s 6 allLanes 0#64) o1.gid).any fun g => (slotOf g 1).isSome) = true := by decide +kernel

def mapwr0 : RFmt := { r0 with d := .zero, a := .v 1, b := .zero, c := .imm, ma := 1#4, imm := 3#32 }

theorem wit_MapRows_1 :
    meets (.mapwr mapwr0) (withG fun g => slotG (addrG g)) (fun u => clear u && vecOrFile u.g mapwr0.a && siOk mapwr0.c &&
      (sfmtTrap u 1 0 false).isNone && (slotOf u.g 1).isSome && active u != 0#64 &&
      noNanTrap u (active u).toList fun l => (mapwrLane (rEnv h0 u.p.fmt u.g.srseed) 0 false (readNat u 0#64 false mapwr0.a l)
        (Lane.start (u.g.srctr.get l))).2) = true := by decide +kernel

theorem wit_MapRows_2 :
    meets (.maprd { mapwr0 with d := .v 3, a := .zero }) (withG fun g => slotG (addrG g)) (fun u => clear u && vecOrFile u.g (.v 3) &&
      siOk mapwr0.c && (sfmtTrap u 1 0 false).isNone && ((slotOf u.g 1).bind (physOf u.g)).any fun p =>
      noNanTrap u (active u).toList fun l => (maprdLane (rEnv h0 u.p.fmt u.g.srseed) p 0 0 false 3 l
        (Lane.start (u.g.srctr.get l))).2) = true := by decide +kernel

/-- An UNBOUND slot and a BOUND one. -/
theorem wit_MapRows_3 :
    ∀ s ∈ [p0, withG slotG], meets (.maprel { r0 with ma := 1#4 }) s (fun u => clear u && scalarGuard u.g h0.guard &&
      (slotOf u.g 1).any fun x => x.bad == none && (x.st == .unbound || x.st == .bound)) = true := by decide +kernel

def macc0 : RFmt := { r0 with d := .v 4, a := .v 1, b := .zero, c := .zero, ma := 1#4 }

/-- Quiet, with NANTRAP clear and no lane active, and one lane that produces a NaN under NANTRAP: infinity times zero. -/
theorem wit_MaccSums :
    meets (.macc .bf16x2 { macc0 with h := off }) (withG fun g => slotG { g with splits := [{ f0 with em := 1#64 }] }) (fun u =>
      clear u && maccLegal u.g .bf16x2 macc0 && (mapTrap u [maccSrc .bf16x2 macc0.a macc0.ma macc0.ta]).isNone &&
      !fmtNANTRAP u.p.fmt) = true ∧
    meets (.macc .bf16x2 macc0) (withG fun g => slotG { g with splits := [{ f0 with em := 1#64 }] }) (fun u => clear u &&
      maccLegal u.g .bf16x2 macc0 && (mapTrap u [maccSrc .bf16x2 macc0.a macc0.ma macc0.ta]).isNone &&
      !(active u).toList.isEmpty && match mapView u.g u.p.fmt 1 with
        | some view => noNanTrap u (active u).toList fun l => (maccOut u .bf16x2 macc0 view l).2
        | none => false) = true ∧
    meets (.macc .bf16x2 macc0) (withG fun g => slotG { infG g with splits := [{ f0 with em := 1#64, fmt := 0x50#9 }] })
      (fun u => clear u && maccLegal u.g .bf16x2 macc0 && (mapTrap u [maccSrc .bf16x2 macc0.a macc0.ma macc0.ta]).isNone &&
      match mapView u.g u.p.fmt 1 with
        | some view => !noNanTrap u (active u).toList fun l => (maccOut u .bf16x2 macc0 view l).2
        | none => false) = true := by decide +kernel

def ldl0 : MFmt := { m0 with d := .v 8, a := .s 4 }

/-- A packed form, and an .X form of `mh` under NANTRAP. -/
theorem wit_LatentLoads_1 :
    meets (.ldl ldl0) adS (fun u => clear u && ldlLegal u ldl0 &&
      !fabricRun u.ctx (effAddr u ldl0 0) (ldlBytes ldl0.mod) && (ldlSlotTrap u (ldlX ldl0.mod) ldl0.ma).isNone && active u != 0#64 &&
      (translateRun u .ldl (effAddr u ldl0 0) (ldlBytes ldl0.mod)).isOk && !engFull u .c0 &&
      !(ldlX ldl0.mod && fmtNANTRAP u.p.fmt)) = true ∧
    (let f := { ldl0 with mod := 0x10#7, ma := 13#4 }
     meets (.ldl f) (withG fun g => { addrG g with splits := [{ f0 with em := 1#64, fmt := 0x50#9 }] }) (fun u =>
      clear u && ldlLegal u f && (ldlSlotTrap u (ldlX f.mod) f.ma).isNone && ldlX f.mod && fmtNANTRAP u.p.fmt &&
      match translateRun u .ldl (effAddr u f 0) (ldlBytes f.mod) with
        | .error _ => false
        | .ok (s1, pages) =>
          let c := mkOp u s1 (.load .b64 f.d) false false .grp (pieceElems .global (effAddr u f 0).toNat (ldlBytes f.mod) pages)
          [true, false].all fun b => match readNow (choose c.2 2).2 c.1 b with
            | some (bs, none, _) => noNanTrap u (active u).toList fun l =>
                (ldlOut (rEnv f.h u.p.fmt u.g.srseed) (mapLanes u) f
                  (ldlView u.p.fmt f.ma.toNat (keepView (mapView u.g u.p.fmt f.ma.toNat))) bs u.g.srctr l).2
            | _ => false) = true) := by decide +kernel

/-- The rows all read, and an uncorrectable granule among them. -/
def lding : State := after (.ldl ldl0) adS
theorem wit_LatentLoads_2 :
    (opOf lding 6).any (fun o => match o.kind with
      | .ldl f .. => f.d == .v 8
      | _ => false) = true ∧
    ∀ s ∈ [lding, { lding with badGranules := [0x400] }],
      (opOf (loadElems s 6 allLanes 0#64) 6).any (fun o1 => o1.performed &&
        (groupOf (loadElems s 6 allLanes 0#64) o1.gid).isSome) = true := by decide +kernel

/-! ## Barriers and copies -/

/-- The object at offset 0 (s9), expecting two arrivals and, with BINIT's second value, s8 = 0 bytes. -/
def bar0 : RFmt := { r0 with d := .v 0, a := .s 9, b := .imm, c := .s 8, imm := 2#32 }
def barS : State := after (.binit bar0) p0
def barOvr : State := after (.binit { bar0 with mod := 1#7 }) p0
/-- One arrival, of a count in IMM. -/
def barr (n : Word) : RFmt := { bar0 with c := .v 0, imm := n }

theorem wit_BarrierInstructions_1 :
    meets (.binit bar0) p0 (fun u => clear u && idsOk u.s && spadsOk u.s && siOk bar0.b && siOk bar0.c &&
      decide (barVal u bar0 bar0.b ≤ 8191) && decide (barVal u bar0 bar0.b ≠ 0) && barrierOk u bar0) = true := by decide +kernel

/-- The object at offset 0 once it has been named, as `u` meets it. -/
def objMet (u : Iss) : Bar := barAt (meetObj u.s u.g.team 0) u.g.team 0

/-- An arrival for a phase that is 5 ahead, one arrival too many, and one that counts. -/
theorem wit_BarrierInstructions_2 :
    meets (.barr { barr 1 with c := .s 10, mod := 2#7 }) { barS with groups := barS.groups.map fun g =>
        { g with sregs := g.sregs.set 10 5#32 } } (fun u =>
      let f := { barr 1 with c := .s 10, mod := 2#7 }
      clear u && idsOk u.s && spadsOk u.s && siOk f.b && siOk f.c && barrierOk u f && !(objMet u).uninit &&
      released u false && barVal u f f.c == 5 && (objMet u).phase == 0) = true ∧
    meets (.barr (barr 3)) barOvr (fun u => clear u && idsOk u.s && spadsOk u.s && barrierOk u (barr 3) && siOk (barr 3).b &&
      !(objMet u).uninit && released u false && (objMet u).trapovr && decide ((objMet u).exp < (objMet u).arr + 3)) = true ∧
    meets (.barr (barr 1)) barS (fun u => clear u && barrierOk u (barr 1) && !(objMet u).uninit && released u false &&
      decide ((objMet u).arr + 1 ≤ (objMet u).exp)) = true ∧
    ((gridOf barS 1).map fun g => g.desc.repro) = some false := by decide +kernel

/-- Named before, and not. -/
theorem wit_BarrierInstructions_3 :
    ∀ s ∈ [barS, { barS with teams := barS.teams.map fun t => { t with objs := [] } }],
      meets (.bexp (barr 16)) s (fun u => clear u && siOk (barr 16).b && barrierOk u (barr 16) && idsOk u.s && spadsOk u.s &&
        !(objMet u).uninit && (objMet u).exp != 0) = true := by decide +kernel

theorem wit_BarrierInstructions_4 :
    meets (.btest { barr 0 with d := .s 4 }) barS (fun u => clear u && siOk (barr 0).b && sOk false (.s 4) &&
      barrierOk u (barr 0) && !u.g.repro && !phaseBad (objMet u) 0) = true := by decide +kernel

/-- A phase that is not completed, and one that is. -/
theorem wit_BarrierInstructions_5 :
    meets (.bwait (barr 0)) barS (fun u => clear u && siOk (barr 0).b && barrierOk u (barr 0) &&
      !(objMet u).uninit && !phaseBad (objMet u) 0 && !(objMet u).completed 0) = true ∧
    meets (.bwait (barr 0)) (after (.barr (barr 2)) barS) (fun u => clear u && barrierOk u (barr 0) &&
      !phaseBad (objMet u) 0 && (objMet u).completed 0) = true := by decide +kernel

/-- A complete .DEV phase in a reproducible grid, one of whose harvested reductions is not performed. -/
theorem wit_BarrierInstructions_6 :
    let s := after (.barr (barr 2)) barS
    let red := after (.red .b32 st0) adS
    let i : PhaseInfo := { phase := 0, dev := true, lt := none, key := some (1, 0) }
    meets (.bwait (barr 0)) { s with
        groups := s.groups.map fun g => { g with repro := true }
        teams := s.teams.map fun t => { t with objs := t.objs.map fun o => { o with phases := [i] } }
        ops := red.ops.map fun o => { o with harvest := some 0 } } (fun u =>
      clear u && siOk (barr 0).b && barrierOk u (barr 0) && spadsOk u.s && !(objMet u).uninit && !phaseBad (objMet u) 0 &&
        (objMet u).completed 0 && u.g.repro && (objOf (meetObj u.s u.g.team 0) u.g.team 0).info 0 == i &&
        harvestOut (meetObj u.s u.g.team 0) u.g.grid (1, 0)) = true := by decide +kernel

/-- s8 to s15 hold the block of a copy of `n` bytes from 0x2000_8000 to `d`. -/
def copyG (d n : Word) (g : Group) : Group :=
  { g with sregs := (((g.sregs.set 8 0x2000_8000#32).set 10 d).set 12 n).set 13 1#32 }
def cpy0 : RFmt := { r0 with d := .zero, a := .s 8, b := .zero, c := .zero }
/-- Scratchpad to scratchpad, with the object at s5 = 0. -/
def cpyB : RFmt := { cpy0 with b := .s 4, mod := 0x38#7 }

theorem wit_CopyCommands_1 :
    meets (.copy cpy0) (withG (copyG 0x2000_9000#32 64#32)) (fun u => clear u && !guardIsVector h0.guard && copyOperands cpy0 &&
      scalarGuard u.g h0.guard && copyLimits u cpy0 && copyKindCode cpy0 == 0 && (copyTrap u cpy0 (copyBlk u cpy0.a) none 0#64).isNone &&
      !engFull u (copyClass u cpy0)) = true ∧
    meets (.copy cpyB) { p0 with groups := p0.groups.map fun g =>
        { g with sregs := ((((g.sregs.set 8 512#32).set 10 1024#32).set 12 64#32).set 13 1#32) } } (fun u => clear u &&
      copyOperands cpyB && scalarGuard u.g h0.guard && copyLimits u cpyB && copyBar cpyB && spadsOk u.s &&
      (copyTrap u cpyB (copyBlk u cpyB.a) (some (readNat u 0#64 false cpyB.b 0)) 0#64).isNone &&
      !engFull u (copyClass u cpyB)) = true := by decide +kernel

def copying : State := after (.copy cpy0) (withG (copyG 0x2000_9000#32 64#32))
theorem wit_CopyCommands_2 :
    memWf copying.mem = true ∧ (teamOf copying 2).map Team.copyNo = some 0 ∧
    (copyOf copying 6).any (fun c => (c.chunks[0]?).any fun x => c.cls == .c1 && !c.stopped && !c.suspended &&
      !c.done.contains 0 && copyMayRun copying c && !chunkHeld c c.chunks 0 x &&
      !copyStops copying c 0 && c.parts.isEmpty && unitMates c c.chunks 0 == [0] && x.len == 64 && c.bar.isNone && !c.dsp && !c.ssp && c.team == 2 &&
      match copyPages copying c .load x.src x.len with
      | (.ok ps, s1) => ps == [(x.src, 0x8000, 64)] && (badGranule? s1 0x8000 64).isNone &&
        (match copyPages s1 c .store x.dst x.len with
         | (.ok pd, s2) => pd == [(x.dst, 0x9000, 64)] && (partlyBad s2 0x9000 64).isNone
         | (.error _, _) => false)
      | (.error _, _) => false) = true := by decide +kernel

def copyingB : State :=
  after (.copy cpyB) { barS with groups := barS.groups.map fun g =>
    { g with sregs := ((((g.sregs.set 8 512#32).set 10 1024#32).set 12 64#32).set 13 1#32) } }
theorem wit_CopyCommands_3 :
    plainSpad copyingB 2 1024 64 ∧ named copyingB 2 0 = true ∧
    idsOk copyingB = true ∧ spadsOk copyingB = true ∧ ((gridOf copyingB 1).map fun g => g.desc.repro) = some false ∧
    (copyingB.copies[0]?).any (fun c => copyOf copyingB c.cid == some c && (c.chunks[0]?).any fun x => c.cls == .c1 && !c.stopped &&
      !c.suspended && !c.done.contains 0 && copyMayRun copyingB c && !chunkHeld c c.chunks 0 x && !copyStops copyingB c 0 &&
      c.parts.isEmpty && unitMates c c.chunks 0 == [0] && x.len == 64 && c.bar == some 0 && c.dsp && c.ssp &&
      copyingB.handles.isEmpty && c.team == 2 && c.grid == 1 && x.dst.toNat == 1024 && (teamOf copyingB 2).isSome) = true :=
  ⟨plain_of (t := (teamOf copyingB 2).getD (Probe.team 1)) (by decide +kernel) (by decide +kernel) (by decide +kernel),
    by decide +kernel⟩

/-- A plain command all of whose chunks are done, one that resolves a future, one that folds, and one whose action is
accepted. -/
def copied (f : Copy → Copy) : State := { copying with copies := copying.copies.map fun c => f { c with done := [0] } }
theorem wit_CopyCommands_4 :
    (∀ s ∈ [copied id, copied fun c => { c with kind := .future, caddr := some 0x2000_8000#64 },
        copied fun c => { c with kind := .census .f32 0, caddr := some 0x2000_A000#64, data := [(0, [])] }],
      (copyOf s 6).any (fun c => c.cls == .c1 && !c.suspended && !c.acting && c.done.length == c.chunks.length &&
        !copyTeam s c.team && ((gridOf s c.grid).map fun g => g.desc.repro) == some false) = true) ∧
    (copyOf (copied fun c => { c with acting := true }) 6).any (fun c => c.cls == .c1 && !c.suspended && c.acting &&
      actionAccepted (copied fun c => { c with acting := true }) c) = true := by decide +kernel

theorem wit_CopyCommands_5 :
    meets (.waitc { r0 with a := .imm, mod := 1#7 }) p0 (fun u => clear u && siOk .imm && scalarGuard u.g h0.guard &&
      decide (counter u.g (waitcClass { r0 with mod := 1#7 }) ≤ 0)) = true ∧
    meets (.waitc { r0 with a := .imm, mod := 1#7 }) copying (fun u => clear u &&
      decide (0 < counter u.g (waitcClass { r0 with mod := 1#7 }))) = true := by decide +kernel

/-! ## Fabric -/

def fabC : Context := { Probe.context with fabric := true }
/-- A command that writes another device. -/
def fabricing : State :=
  { copying with
    contexts := [fabC], copies := copying.copies.map fun c => { c with cls := .c3, dst := 0x0100_0000_0000_0000#64 } }
theorem wit_FabricCommands_1 :
    memWf fabricing.remote = true ∧ (copyOf fabricing 6).any (fun c => c3MayAct fabricing c && !isSred c && c.bar.isNone &&
      c.parts.isEmpty &&
      c.rows == 1 && remoteRow fabricing c c.dsp c.dst && !remoteRow fabricing c c.ssp c.src &&
      (copyRead fabricing c c.src c.rowBytes).1.isOk) = true := by decide +kernel

/-- The first unit of the command's row, which this device holds. -/
theorem wit_FabricCommands_9 :
    (copyOf fabricing 6).any (fun c => c3MayAct fabricing c && decide (0 < c.rows) && (partOf c 0).read.isEmpty &&
      !remoteRow fabricing c c.ssp (rowAddr c.src c.sstride 0) &&
      min c.rowBytes (8 * (((rowAddr c.src c.sstride 0).toNat + 0 + 8 + 7) / 8) - (rowAddr c.src c.sstride 0).toNat) == 8 &&
      (copyRead fabricing c (rowAddr c.src c.sstride 0 + BitVec.ofNat 64 0) (8 - 0)).1.isOk) = true := by decide +kernel

/-- An offset that the export table does not map: its entry reads zero. -/
theorem wit_FabricCommands_2 (off : Nat) (w : Bool) : exportPages { p0 with mem := [] } w off 1 = none := by
  have h : (off + 1 - 1) / 65536 + 1 - off / 65536 = 1 := by omega
  have e : ∀ a, pteAt { p0 with mem := [] } a = 0#64 := fun a => by simp [pteAt, physRead, memReadN, memRead, memDefault]
  unfold exportPages
  rw [h]
  simp [List.range_succ, exportAddr, e, pteV]

theorem exported {s : State} (w : Bool) (e : pteAt s Config.exportRoot = 0x0F#64) : exportPages s w 0 1 = some [(0, 0, 1)] := by
  have a : exportAddr s w 0 = some 0 := by
    unfold exportAddr
    rw [show Config.exportRoot + 8 * (0 / 2 ^ 29 % 4096) = Config.exportRoot from rfl, e]
    cases w <;> rfl
  have r : List.range ((0 + 1 - 1) / 0x1_0000 + 1 - 0 / 0x1_0000) = [0] := rfl
  unfold exportPages
  rw [r]
  exact congrArg (fun x => x.map fun pa => [] ++ [(pa, 0, 1)]) a

theorem exportEntry {s : State} (h : MemOk s) : pteAt (physWrite s Config.exportRoot 8 0x0F) Config.exportRoot = 0x0F#64 := by
  unfold pteAt
  rw [physRead_physWrite _ _ _ h]
  rfl

/-- An offset that it maps: a large page for reads and writes at physical 0. -/
theorem wit_FabricCommands_3 (w : Bool) :
    let s := physWrite p0 Config.exportRoot 8 0x0F
    MemOk s ∧ exportPages s w 0 1 = some [(0, 0, 1)] ∧ partlyBad s 0 1 = none :=
  have h : MemOk p0 := by show memWf p0.mem = true; decide +kernel
  ⟨memOk_physWrite _ _ _ h, exported w (exportEntry h), rfl⟩

/-- A contribution to instance 0 of group 7, whose one member is this device. -/
def sredG : SredGroup := { num := 7, devices := [Config.deviceNumber], limit := 200, nextInst := 1 }
def sreding : State :=
  { copying with
    copies := copying.copies.map fun c => { c with cls := .c3, kind := .sred 7 0 2, inst := some 0 }, sredGroups := [sredG] }
theorem wit_FabricCommands_4 :
    (sredCopy sreding 7 0).any (fun c => c.kind == .sred 7 0 2 && !sredLate sreding sredG 0 && match c3ReadAll sreding c with
      | (.ok rows, s1) => (rows.flatMap Prod.snd).length == 64 &&
        (c3WriteAll s1 c (rowsOf c (sredReduce 0 2 [rows.flatMap Prod.snd]))).1.isNone
      | (.error _, _) => false) = true ∧
    sredAborted sreding 7 0 = false ∧
    sredAborted { sreding with sredInsts := [{ group := 7, inst := 0, first := 0, aborted := true }] } 7 0 = true := by
  decide +kernel

theorem wit_FabricCommands_5 (b : List Byte) :
    sreding.sredGroups.find? (·.num == 7) = some sredG ∧ sredG.devices.contains Config.deviceNumber = true ∧
    contributions sredG b [] = some [b] := by
  refine ⟨by simp [sreding, sredG], by simp [sredG], by simp [contributions, sredG, List.range_succ]⟩

theorem wit_FabricCommands_6 : (∀ b ∈ [[0#8]], b.length = [0#8].length) ∧ 0 < [0#8, 0#8, 0#8, 0#8].length / sredBytes 2 := by
  decide +kernel

/-- With no record, and with one at 0x2000_8000. -/
def ended : State :=
  { copying with copies := copying.copies.map fun c => { c with cls := .c3, status := some 0, caddr := some 0x2000_8000#64 } }
def fabricEnded : State :=
  { fabricing with copies := fabricing.copies.map fun c => { c with status := some 0, caddr := some 0x0100_0000_0000_0000#64 } }
/-- An instance of which a contribution came at clk 0, within its limit and after it, and one of which none came. -/
theorem wit_FabricCommands_8 :
    let s : Nat → State := fun n =>
      { sreding with sredInsts := [{ group := 7, inst := 0, first := 0, aborted := false }], clock := BitVec.ofNat 64 n }
    sredLate (s 0) sredG 0 = false ∧ sredAborted (s 0) 7 0 = false ∧ 0 + sredG.limit * 2250 < (s 1000000).clock.toNat ∧
    (sreding.sredInsts.any fun x => x.group == 7 && x.inst == 0) = false ∧ 2 ^ 28 < sredG.devices.length * 0x2000_0000 + 0 := by
  decide +kernel

theorem wit_FabricCommands_7 :
    (copyOf fabricing 6).any (fun c => c.caddr.isNone && !c.stopped) = true ∧ memWf ended.mem = true ∧
    (copyOf ended 6).any (fun c => c.status == some 0 && c.cls == .c3 && !c.stopped && !copyTeam ended c.team && c.parts.isEmpty &&
      c.caddr == some 0x2000_8000#64 && !remoteRow ended c false 0x2000_8000 &&
      match copyPages ended c .store 0x2000_8000 8 with
      | (.ok ps, s1) => ps == [(0x2000_8000#64, 0x8000, 8)] && (partlyBad s1 0x8000 8).isNone
      | (.error _, _) => false) = true ∧
    (copyOf fabricEnded 6).any (fun c => c.status == some 0 && c.cls == .c3 && !c.stopped && c.parts.isEmpty &&
      c.caddr == some 0x0100_0000_0000_0000#64 && remoteRow fabricEnded c false 0x0100_0000_0000_0000) = true ∧
    memWf fabricEnded.remote = true := by decide +kernel

/-! ## Tasks and futures -/

/-- 64 bytes at 0x2000_A000 are a descriptor of one group, code 0x2000_1000, COAL 4, that may be spawned; v4d of lane 0, the
only active lane, names it, and v6d the future at 0x2000_8000. -/
def descN : Nat := 0x2000_1000 + 2 ^ 64 + 2 ^ 80 + 4 * 2 ^ 128 + 2 ^ 157
def taskG (g : Group) : Group :=
  { g with
    vregs := (g.vregs.set 4 (LaneVec.ofFn fun _ => 0x2000_A000#32)).set 6 (LaneVec.ofFn fun _ => 0x2000_8000#32)
    sregs := g.sregs.set 4 0x2000_8000#32
    splits := [{ f0 with em := 1#64 }] }
def taskS : State := { withG taskG with mem := memWriteN p0.mem 0xA000 64 descN }
def spawn0 : RFmt := { r0 with a := .v 4, b := .zero, c := .zero, mod := 0#7 }
/-- SPAWN.H of the handle in s5, one granule. -/
def spawnH : RFmt := { spawn0 with mod := 0x10#7, imm := 0x105#32 }
def freg0 : RFmt := { r0 with a := .v 6, b := .v 4, c := .zero, mod := 0#7, imm := 0x150#32 }

/-- The descriptor that a lane reads, from the L1 or not. -/
def entryRead (u : Iss) (e : Opnd) (l pa : Nat) (b : Bool) : Nat × Option Nat × State :=
  let s := (translateLanes u.s u .load [l] (readPair u e)).1
  readElem (choose s 2).2 (mkOp u s (.load .b64 .zero) false false .grp []).1
    (mkElem l .global (readPair u e l) (some pa) 64) b

/-- One lane's descriptor. -/
theorem readEntries_one {u : Iss} {e : Opnd} {l pa x : Nat} (h1 : (readPair u e l).toNat % 64 = 0)
    (h2 : (translateLanes u.s u .load [l] (readPair u e)).2.1 = [(l, pa)])
    (h3 : (translateLanes u.s u .load [l] (readPair u e)).2.2 = [])
    (h4 : ∀ b, (entryRead u e l pa b).1 = x ∧ (entryRead u e l pa b).2.1 = none)
    (h5 : descSpawnable u.g x = true) :
    ∃ b, readEntries u e [l] = .ok ((entryRead u e l pa b).2.2, [(l, x)]) := by
  dsimp only [entryRead] at h4 ⊢
  obtain ⟨⟨s, ps, fs⟩, ht⟩ : ∃ t, t = translateLanes u.s u .load [l] (readPair u e) := ⟨_, rfl⟩
  rw [← ht] at h2 h3 h4 ⊢
  subst h2 h3
  unfold readEntries
  have h1' : [l].filter (fun l => decide ((readPair u e l).toNat % 64 ≠ 0)) = [] := by simp [h1]
  dsimp only
  rw [h1', ← ht]
  obtain ⟨a, b⟩ := h4 ((choose s 2).1 == 1)
  dsimp only at a b
  dsimp only [List.foldl]
  refine ⟨(choose s 2).1 == 1, ?_⟩
  simp [List.isEmpty, a, b, h5, List.filter]

def taskU (i : Instr) (s : State) : Iss :=
  { s, i, g := taskG g0, p := { f0 with em := 1#64 }, ctx := Probe.context }

theorem taskIssues (i : Instr) : issuer taskS i = some (taskU i taskS) := rfl

theorem taskRead {i : Instr} (h : i ∈ [.spawn spawn0, .spawn spawnH, .freg freg0]) :
    ∃ b, readEntries (taskU i taskS) (.v 4) [0] = .ok ((entryRead (taskU i taskS) (.v 4) 0 0xA000 b).2.2, [(0, descN)]) := by
  simp only [List.mem_cons, List.not_mem_nil, or_false] at h
  rcases h with rfl | rfl | rfl <;>
    refine readEntries_one (pa := 0xA000) (x := descN) ?_ ?_ ?_ (fun b => ?_) ?_ <;> (try cases b) <;> decide +kernel

/-- Without a handle, and with the handle of granule 0 in s5. -/
theorem wit_SpawnRecords :
    (let u := taskU (.spawn spawn0) taskS
     clear u && spawnOk u spawn0 && (active u).toList == [0] && released u true && (deferredAhead u).isNone) = true ∧
    (let u := taskU (.spawn spawnH) taskS
     clear u && spawnOk u spawnH && (active u).toList == [0] && released u true && (deferredAhead u).isNone &&
       handleValid u 0x100#32) = true ∧
    ∀ i ∈ [Instr.spawn spawn0, .spawn spawnH], ∃ s, readEntries (taskU i taskS) (.v 4) [0] = .ok (s, [(0, descN)]) := by
  refine ⟨by decide +kernel, by decide +kernel, fun i h => ?_⟩
  obtain ⟨b, hb⟩ := taskRead (i := i) (by simp at h ⊢; rcases h with rfl | rfl <;> simp)
  exact ⟨_, hb⟩

theorem wit_FuturesAndJoins_1 :
    (let u := taskU (.freg freg0) taskS
     clear u && u.p.awaiting == none && fregOk u freg0 && (active u).toList == [0] && released u true &&
       alignedTo u freg0.a 8 [0]) = true ∧
    ∃ s, readEntries (taskU (.freg freg0) taskS) (.v 4) [0] = .ok (s, [(0, descN)]) ∧
      (translateLanes s (taskU (.freg freg0) taskS) .rmw [0] (readPair (taskU (.freg freg0) taskS) freg0.a)).2.2 = [] := by
  refine ⟨by decide +kernel, ?_⟩
  obtain ⟨b, hb⟩ := taskRead (i := .freg freg0) (by simp)
  exact ⟨_, hb, by cases b <;> decide +kernel⟩

/-- The split waits for operation 5, whose one element is done. -/
def asked (kind : OpKind) (res : DWord) : State :=
  let u := taskU (.nop c0) taskS
  { taskS with
    groups := [setSplit u.g { u.p with awaiting := some 5 }]
    ops := [{ (mkOp u taskS kind false true .dev [{ mkElem 0 .global 0x2000_8000#64 (some 0x8000) 8 with st := .done, res }]).1 with
              id := 5 }] }

def awaits (u : Iss) : Bool :=
  u.p.awaiting == some 5 && (opOf u.s 5).any fun o => o.performed && (o.elems.findSome? Elem.bad).isNone && o.elems.length == 1

theorem wit_FuturesAndJoins_2 :
    meets (.freg freg0) (asked (.futReg [] (.v 3)) 0#64) (fun u => clear u && awaits u && taskDst u.g freg0.d) = true := by
  decide +kernel

def fres0 : MFmt := { m0 with d := .zero, a := .s 4 }

theorem wit_FuturesAndJoins_3 :
    meets (.fres fres0) taskS (fun u => clear u && u.p.awaiting == none && scalarAddrLegal u fres0 &&
      !inFabric u.ctx (effAddr u fres0 0) && !u.g.checked && scalarGuard u.g fres0.h.guard &&
      (scalarPlace u fres0 .rmw 8).isOk && released u true) = true := by decide +kernel

theorem wit_FuturesAndJoins_4 :
    meets (.fres fres0) (asked .futRes 0#64) (fun u => clear u && awaits u) = true ∧
  meets (.fres fres0) (asked .futRes 1#64) (fun u => clear u && awaits u) = true ∧
  meets (.fres fres0) (asked .futRes 2#64) (fun u => clear u && awaits u) = true := by decide +kernel

/-- A counter of zero, and one of 2. -/
theorem wit_FuturesAndJoins_5 :
    ∀ n ∈ [0, 2], meets (.jwait fres0) { taskS with mem := memWriteN taskS.mem 0x8000 4 n } (fun u => clear u &&
      scalarAddrLegal u fres0 && !inFabric u.ctx (effAddr u fres0 0) && scalarGuard u.g fres0.h.guard &&
      match scalarPlace u fres0 .load 4 with
      | .ok (s1, pa) => (badGranule? s1 pa 4).isNone && physRead s1 pa 4 == n &&
        elemReady s1 (mkOp u s1 (.load .b32 .zero) true false .dev [mkElem 0 .global (effAddr u fres0 0) (some pa) 4]).1
          (mkElem 0 .global (effAddr u fres0 0) (some pa) 4)
      | .error _ => false) = true := by decide +kernel

/-- A split that waits, its counter not zero, and one that the home has seen at zero. -/
theorem wit_FuturesAndJoins_6 :
    ∀ seen ∈ [true, false],
      (groupOf { withF fun p => { p with state := .waitJoin 0x2000_8000#64 0x8000 seen none } with
          mem := memWriteN p0.mem 0x8000 4 2 } 3).any (fun x => x.place == .resident &&
        (splitOf x 4).any fun p => p.state == .waitJoin 0x2000_8000#64 0x8000 seen none) = true := by decide +kernel

/-! ## Futures at their home, and pans -/

def rec0 : ThreadRec :=
  { ctx := 0, grid := 1, entry := 0x2000_A000#64, desc := Desc.ofNat descN, n := 2, payload := [7#32, 8#32], join := 0#64,
    gated := false, handle := none, lt := 0 }
/-- A request of one element of `n` bytes at 0x2000_8000, and the word there. -/
def homing (kind : OpKind) (n w : Nat) : State :=
  let u := taskU (.nop c0) taskS
  { taskS with
    mem := memWriteN p0.mem 0x8000 8 w
    ops := [{ (mkOp u taskS kind false (n == 8) .dev [{ mkElem 0 .global 0x2000_8000#64 (some 0x8000) n with
                data := 0xFFFF_FFFF#64, op := 11 }]).1 with id := 5 }] }

theorem wit_FutureHomes_1 :
    let s := homing (.gate { rec0 with gated := true } 0x8000) 4 1
    ((opOf s 5).bind fun o => (o.elems[0]?).bind fun e => (ctxOf s o.ctx).map fun c =>
        (o.lateTranslated, elemNext s o 0 e, behindParked s o e, (translateLate s o c e).1.isOk,
          memWf (translateLate s o c e).2.mem)) = some (true, true, false, true, true) := by decide +kernel

/-- Reserved, resolved, full, and with room. -/
theorem wit_FutureHomes_2 :
    ∀ w ∈ [3, 2, 4 * 1024 + 1, 0], let s := homing (.futReg [rec0] (.v 3)) 8 w
      memWf s.mem = true ∧ (opOf s 5).any (fun o => (o.elems[0]?).any fun e => elemNext s o 0 e &&
        (badGranule? s (e.pa.getD 0) 8).isNone && physRead s (e.pa.getD 0) 8 == w) = true := by decide +kernel

theorem wit_FutureHomes_3 :
    ∀ w ∈ [0, 2, 3], ∀ s ∈ [homing .futRes 8 w, homing (.copyF 9) 8 w],
      (opOf s 5).any (fun o => (o.elems[0]?).any fun e => elemNext s o 0 e &&
        (if o.lateTranslated then !behindParked s o e && (ctxOf s o.ctx).any fun c => (translateLate s o c e).1.isOk
         else true) && (badGranule? s (e.pa.getD 0) 8).isNone) = true := by decide +kernel

/-- A record that waits for room, one at the head of its context's brine queue, and a pan of two records. -/
def rakeS : State :=
  { taskS with
    deferredRecs := [(0, 0x8000, rec0)], contexts := [{ Probe.context with brine := [rec0] }],
    dies := [{ Die.dark with booted := true }],
    cores := [{ Core.idle with
      active := true,
      pans := some { grid := 1, entry := 0x2000_A000#64, recs := [rec0, rec0], timerStart := 0, expired := false } ::
        List.replicate 31 none }, Core.idle] }

theorem wit_RakeAndPans_1 :
    (ctxEnding rakeS 0 = false) ∧ (fileRec rakeS 0 rec0).isSome = true ∧
    ((ctxOf rakeS 0).any fun c => c.brine == [rec0]) = true ∧
    (gridOf rakeS 1).any (fun g => !gridStopped rakeS g && !gridAway rakeS g) = true ∧
    coreOpen rakeS 0 = true ∧ recFits rakeS 0 rec0 = true ∧ ctxResident rakeS 0 0 = true ∧ (fileInRake rakeS 0 rec0).isSome = true := by
  decide +kernel

/-- A record behind one of another future; a Rake whose pans hold records of another entry; a context none of whose groups is
resident. -/
theorem wit_RakeAndPans_3 :
    (let s := { rakeS with deferredRecs := [(0, 0x9000, rec0), (0, 0x8000, rec0)] }
     gridRepro s 1 = false ∧ (fileRec s 0 rec0).isSome = true) ∧
    (let other : Pan := { grid := 1, entry := 0x2000_B000#64, recs := [rec0], timerStart := 0, expired := false }
     let s := { rakeS with cores := [{ Core.idle with active := true, pans := List.replicate 32 (some other) }, Core.idle] }
     ctxEnding s 0 = false ∧ coreOpen s 0 = true ∧ recFits s 0 rec0 = true ∧ ctxResident s 0 0 = true ∧
     (fileInRake s 0 rec0).isNone = true) ∧
    (let s := { rakeS with groups := [] }
     ctxStopped s 0 = false ∧ coreOpen s 0 = true ∧ recFits s 0 rec0 = true ∧ (fileInRake s 0 rec0).isSome = true) := by
  decide +kernel

theorem wit_RakeAndPans_2 :
    ((coreOf rakeS 0).pans[0]?).join.any (fun p => p.desc?.any fun d => !d.repro && !p.expired &&
      decide (p.timerStart + 64 * d.timer ≤ rakeS.clock.toNat) && panReady rakeS p &&
      (gridOf rakeS p.grid).any fun gr => coreOpen rakeS 0 && !gridStopped rakeS gr && !gridAway rakeS gr && decide (0 < rakeS.cores.length) &&
        idsOk rakeS && (let s' := makeRoom rakeS 0 (8 * d.vregs0) (roundGranule d.spad)
          (admits (roomOf s' 0) [(8 * d.vregs0, 0)] (roundGranule d.spad) true).isSome && evictionsAllowed rakeS s' &&
          saveHolds s' gr.ctx (groupArea (8 * d.vregs0) 0 + roundGranule d.spad) && gr.desc.narrow == d.narrow)) = true := by
  decide +kernel

/-! ## Translation, pages and halts -/

/-- The leaf of 0x2000_0000 holds `e`. -/
def walkS (e : Nat) : State := { p0 with mem := memWriteN p0.mem 0x1_0008 8 e }
/-- Core 0 holds a TLB entry of the page 0x2000_0000, with W, D and S as given. -/
def tlbS (w d s : Bool) : State :=
  { p0 with cores := [{ Core.idle with
      active := true
      tlb := [{ fetch := false, ctx := 0, page := 0x2000_0000, large := true, frame := 0, r := true, w, x := true, s, d, expiry := 9 }] }] }

/-- An address out of range. -/
theorem wit_Translation_1 : bits (0x0200_0000_0000_0000#64) 57 7 ≠ 0 := by decide
/-- An empty entry, one with a reserved bit, one without W, and one without A and D, below the last bit of VA that is used. -/
theorem wit_Translation_2 :
    bits 0x2000_8000#64 57 7 = 0 ∧ bits 0x01FF_FFFF_FFFF_FFFF#64 57 7 = 0 ∧
    (match walk (walkS 0) 0x1_0000 0x2000_8000 with | .invalid _ _ => true | _ => false) = true ∧
    (match walk (walkS 0x39F) 0x1_0000 0x2000_8000 with | .malformed _ _ => true | _ => false) = true ∧
    (match walk (walkS 0x17) 0x1_0000 0x2000_8000 with
      | .leaf _ _ e => denied? .store false (pteR e) (pteW e) (pteX e) (pteS e) == some .permission | _ => false) = true ∧
    (match walk (walkS 0x1F) 0x1_0000 0x2000_8000 with
      | .leaf _ pa e => denied? .store false (pteR e) (pteW e) (pteX e) (pteS e) == none && memWf (walkS 0x1F).mem &&
        (badGranule? (walkS 0x1F) pa 8).isNone && !pteA e &&
        (badGranule? { walkS 0x1F with badGranules := [0x800] } pa 8).isSome
      | _ => false) = true := by decide +kernel
/-- An entry in force that serves a store, and one that denies it. -/
theorem wit_Translation_3 :
    (tlbLookup (coreOf (tlbS true true false) 0) 0 (Access.store == .fetch) 0 0x2000_8000).any (fun t =>
      denied? .store false t.r t.w t.x t.s == none && t.d) = true ∧
    (tlbLookup (coreOf (tlbS false true false) 0) 0 (Access.store == .fetch) 0 0x2000_8000).any (fun t =>
      denied? .store false t.r t.w t.x t.s == some .permission) = true := by decide +kernel
/-- A miss whose walk faults, and one that fills. -/
theorem wit_Translation_4 :
    tlbLookup (coreOf p0 0) 0 (Access.store == .fetch) 0 0x2000_8000 = none ∧
    (walkAccess (walkS 0) Probe.context 0x2000_8000#64 .store false).1.isOk = false ∧ 0 < p0.cores.length ∧
    (match walkAccess p0 Probe.context 0x2000_8000#64 .store false with
      | (.ok _, s1) => (match walk s1 0x1_0000 0x2000_8000 with | .leaf _ _ _ => true | _ => false)
      | (.error _, _) => false) = true := by decide +kernel

theorem wit_PagesAndParking_1 :
    meets (.pgmap { m0 with a := .v 4 }) (withG fun g => handlerG (addrG g)) (fun u => clear u && taskDst u.g (.v 3) && addrOk u.g true { m0 with a := .v 4 } &&
      decide ((active u).toList ≠ []) && released u true) = true := by decide +kernel

/-- A RED of two lanes at 0x2000_8000, its leaf as given: lane 0's element is done or parked, lane 1's pending or held. -/
def redOf (page : Nat) (x y : ElemState) : State :=
  let u : Iss := { s := p0, i := .nop c0, g := addrG g0, p := { f0 with em := 3#64 }, ctx := Probe.context }
  let e (l : Nat) (st : ElemState) : Elem :=
    { mkElem l .global (0x2000_8000#64 + BitVec.ofNat 64 (8 * l)) none 4 with u := .s32, data := 5#64, st }
  { adS with
    mem := memWriteN p0.mem 0x1_0008 8 page
    ops := [{ (mkOp u p0 (.rmw .s32 none) false true .dev [e 0 x, e 1 y]).1 with id := 5 }] }
def redS (page : Nat) (parked : Bool) : State := redOf page (if parked then .parked 0 else .done) .pending
def redHeld (page : Nat) (parked : Bool) : State := redOf page (if parked then .parked 0 else .done) (.held 1)

/-- The state and what it holds of element `k` of operation 5. -/
def elemIs (s : State) (k : Nat) (c : Op → Elem → Context → Bool) : Bool :=
  (opOf s 5).any fun o => (o.elems[k]?).any fun e => (ctxOf s o.ctx).any (c o e)

/-- Not held; held behind a parked one; held with a fault of its own; held with its page mapped now. -/
theorem wit_PagesAndParking_2 :
    elemIs (redS 0x19F false) 1 (fun o e _ => !mayPark (redS 0x19F false) o e) = true ∧
    (let s := redHeld 0x19F true; elemIs s 1 fun o e _ => mayPark s o e && earlierParked s o e) = true ∧
    (let s := redHeld 0 false; elemIs s 1 fun o e c => mayPark s o e && !earlierParked s o e &&
      !(walkAccess s c e.va .rmw o.sup).1.isOk) = true ∧
    (let s := redHeld 0x19F false; elemIs s 1 fun o e c => mayPark s o e && !earlierParked s o e && memWf s.mem &&
      e.space != .scratch && match walkAccess s c e.va .rmw o.sup with
        | (.ok pa, s1) => (badGranule? s1 pa e.size).isNone
        | (.error _, _) => false) = true := by decide +kernel

def drec (ctx : Nat) : DriverRec := { ctx, body := blankRec p0 1 .pageNotPresent 2 0#64 0#64, link := .log }

theorem wit_PagesAndParking_3 :
    let s := { p0 with undelivered := [drec 1, drec 0, drec 0] }
    (memWf s.mem && (ctxOf s 0).any (ringHasRoom s ·) && (s.undelivered.take 1).all fun x => x.ctx != 0) = true ∧
    s.undelivered[1]? = some (drec 0) := by decide +kernel

/-- The context with a breakpoint at the PC. -/
def bpS : State := withC fun c => { c with bps := c.bps.set 2 0x2000_1000#64 }
/-- Group 3, its split 4 and their context. -/
def placed (s : State) (c : Group → Split → Context → Bool) : Bool :=
  (groupOf s 3).any fun g => (splitOf g 4).any fun p => (ctxOf s g.ctx).any (c g p)

theorem wit_Halts_1 :
    placed bpS (fun g p c => g.bpDue.isNone && bpHit c p == some 2 && mayIssue bpS g p && !regWritesPending bpS 3 &&
      !comparedCopy bpS g && memWf bpS.mem) = true ∧ bpHit Probe.context { f0 with chainLen := 3 } = none := by
  decide +kernel
/-- The group whose chain has ended at a halt that is due, its breakpoint set and not. -/
theorem wit_Halts_7 :
    let d : BpDue := { sid := 4, addr := 0x2000_1000#64, pc := 0x2000_1010#64, mask := 1#64 }
    ∀ bps ∈ [Probe.context.bps.set 2 0x2000_1000#64, Probe.context.bps],
      let s := { withG (fun g => { g with bpDue := some d }) with contexts := [{ Probe.context with bps }] }
      placed s (fun g p _ => g.bpDue == some d && g.running && resumed g && !regWritesPending s 3 && !comparedCopy s g &&
        dueSplit g d == some p && memWf s.mem && (bps[2]? == some d.addr) == (bps != Probe.context.bps) &&
        (bps == Probe.context.bps || (bps.take 2).all (· != d.addr)) &&
        (bps != Probe.context.bps || bps.all (· != d.addr))) = true := by decide +kernel
/-- A split that waits at the last instruction of a chain, to which it still belongs. -/
theorem wit_Halts_8 :
    let s := withG fun g => { g with haltReq := true, splits := [{ f0 with sweep := some (.nop c0, 1), chainLen := 2 }] }
    placed s (fun g p _ => g.haltReq && g.place == .resident && !p.halted && atHaltPoint g p && idsOk s) = true := by
  decide +kernel
/-- What the fetch of split 4 brings from memory. -/
def fetched (s : State) (c : Fetched → Bool) : Bool := placed s fun g p ctx =>
  mayIssue s g p && (bpHit ctx p).isNone && c (fetchAt s g.core g.quarter ctx p.pc .memory p.refetch g.inHandler).1 &&
    groupOf (fetchAt s g.core g.quarter ctx p.pc .memory p.refetch g.inHandler).2 3 == some g
def fabS : State := { withF (fun p => { p with pc := 0x0100_0000_0000_0000#64 }) with contexts := [{ Probe.context with fabric := true }] }
/-- A word of a store's two halves, one performed. -/
def tornS : State :=
  let u := taskU (.nop c0) p0
  let e (st : ElemState) : Elem := { mkElem 0 .global 0x2000_1000#64 (some 0x1000) 8 with st }
  { p0 with ops := [{ (mkOp u p0 .store false false .grp [e .done, { e .pending with va := 0x2000_1008#64, pa := some 0x1008 }]).1 with
      id := 5 }] }
/-- A fetch that faults, one that meets an uncorrectable granule, one in a fabric window, one that brings a word, one of a PC
that no instruction has, and one whose bytes are being written. -/
theorem wit_Halts_2 :
    fetched (walkS 0) (fun | .fault _ => true | _ => false) = true ∧
    fetched { p0 with badGranules := [0x80] } (fun | .ecc _ => true | _ => false) = true ∧
    fetched fabS (· == .fabric) = true ∧
    fetched p0 (fun | .word _ => true | _ => false) = true ∧
    fetched (withF fun p => { p with pc := 0x2000_1008#64 }) (· == .misaligned) = true ∧
    fetched tornS (· == .busy) = true := by decide +kernel
/-- Translations that fault and that do not, of a PC that no buffer holds, with a good granule and a bad one. -/
theorem wit_Halts_6 :
    Probe.codeVA.toNat % 16 = 0 ∧ inFabric Probe.context Probe.codeVA = false ∧
    bufInstr p0 0 0 0 Probe.codeVA.toNat = none ∧
    (translate (walkS 0) 0 Probe.context Probe.codeVA .fetch false).1.isOk = false ∧
    (∀ bad ∈ [[], [0x80]], (match translate { p0 with badGranules := bad } 0 Probe.context Probe.codeVA .fetch false with
      | (.ok pa, s1) => (badGranule? s1 pa 16).isSome == (bad != []) && !tornUnit s1 0 pa &&
        (lineInstr s1 0 0 Probe.codeVA.toNat).isNone
      | _ => false) = true) := by decide +kernel
theorem wit_Halts_3 :
    placed p0 (fun g _ _ => g.splits.length == 1 && g.place == .resident && g.driver.isNone && atRest g &&
      !regWritesPending p0 3) = true := by decide +kernel
/-- Between two iterations of a sweep. -/
theorem wit_Halts_4 :
    let s := withG fun g => { g with haltReq := true, splits := [{ f0 with sweep := some (.nop c0, 1) }] }
    placed s (fun g p _ => g.haltReq && g.place == .resident && !p.halted && atHaltPoint g p && idsOk s) = true := by
  decide +kernel
/-- Alone; and behind a group of a lesser key. -/
theorem wit_Halts_5 :
    (let s := withF fun p => { p with syncWait := some .sys }
     placed s fun g p _ => p.syncWait == some .sys && syncReady s g .sys) = true ∧
    (let s := { p0 with groups := [{ g0 with repro := true, lclk := 5#64, splits := [{ f0 with syncWait := some .sys }] },
        { g0 with gid := 9, repro := true }] }
     placed s fun g p _ => p.syncWait == some .sys && !syncReady s g .sys) = true := by decide +kernel

/-! ## Launches and the end of work -/

/-- Group 3 with no split left, alone, beside a resident group of its team, and beside a saved one. -/
def emptyS (mates : List Group) : State := { withG fun g => { g with splits := [] } with groups := { g0 with splits := [] } :: mates }
theorem wit_Lifecycle_1 :
    (∀ s ∈ [emptyS [], emptyS [{ g0 with gid := 1, splits := [] }],
        emptyS [{ g0 with gid := 1, splits := [], place := .saved }]],
      (groupOf s 3).any (fun x => idsOk s && s.queues.isEmpty && x.slots.all (fun sl => sl.bad.isNone) && x.splits.isEmpty &&
        counter x .c0 == 0 && counter x .c2 == 0 && (teamOf s x.team).isSome) = true) ∧
    (groupOf p0 3).any (fun x => !x.splits.isEmpty) = true ∧
    ((slotG g0).slots.set 1 { (slotG g0).slots.headD (bindSlot m0 0 .bound 0#64) with bad := some (0x2000_8000#64, 5) })[1]?.any
      (fun sl => sl.bad.isSome) = true := by decide +kernel

/-- Beside an evicted group, which leaves its team evicted whole; and with none beside it, a copy in flight and a halt asked of
its team, which is saved. -/
theorem wit_Lifecycle_5 :
    (let s := emptyS [{ g0 with gid := 1, splits := [], place := .evicted }]
     (groupOf s 3).any fun x => idsOk s && s.queues.isEmpty && x.slots.all (fun sl => sl.bad.isNone) && x.splits.isEmpty &&
       counter x .c0 == 0 && counter x .c2 == 0 && (teamOf s x.team).any fun tm => tm.place == .resident && !copyHolds s tm.tid) = true ∧
    (let s := { emptyS [] with teams := [{ Probe.team 1 with haltReq := true }], copies := copying.copies }
     (groupOf s 3).any fun x => idsOk s && x.splits.isEmpty && counter x .c0 == 0 && counter x .c2 == 0 &&
       (teamOf s x.team).any fun tm => tm.place != .saved && tm.haltReq && !s.copies.isEmpty && s.copies.all fun c =>
         c.team == tm.tid && c.cls == .c1 && !c.acting && c.parts.isEmpty) = true := by decide +kernel

/-- The team once its group has retired, received or not, and as a copy; team 7 lent it the granules of handle 1. -/
def teamS (f : Team → Team) : State :=
  { p0 with
    groups := [], teams := [f (Probe.team 1), { Probe.team 1 with tid := 7 }]
    handles := [{ hid := 1, core := 0, parent := 7, first := 0, count := 1, bytes := [], child := some 2,
                   objs := [] }] }
theorem wit_Lifecycle_2 :
    (teamOf p0 2).any (fun _ => p0.groups.any fun g => g.team == 2) = true ∧
    (let s := teamS id; (teamOf s 2).any fun x => s.groups.isEmpty && s.copies.isEmpty && x.overflow.isNone && x.copyNo == 0 &&
      (x.recv.bind (handleOf s)).isNone) = true ∧
    (let s := teamS fun t => { t with recv := some 1 }
     (teamOf s 2).any fun x => x.copyNo == 0 && (x.recv.bind (handleOf s)).any fun h => h.parent == 7 &&
      (teamOf s 7).any fun p => memWf p.spad) = true ∧
    (∀ n ∈ [1, 2, 3], let s := teamS fun t => { t with copyNo := n }
      (teamOf s 2).any (fun x => x.overflow.isNone && x.copyNo == n) = true) := by decide +kernel

def item (d : DWord) : StreamItem := { batch := 0, grpid := 0, lane := 0, va := 0x2000_8000#64, pa := some 0x8000, size := 4, rmw := none, data := d }

/-- The team of a run after a mismatch, which performs its stream as it ends. -/
theorem wit_Lifecycle_6 :
    let s := { teamS (fun t => { t with copyNo := 4, stream := [item 5#64] }) with
      checks := [{ grid := 1, teamid := 0, runs := [], third := false, accepted := none, item := none }] }
    (teamOf s 2).any (fun x => s.groups.isEmpty && s.copies.isEmpty && x.overflow.isNone && s.ops.isEmpty && x.copyNo == 4 &&
      (x.stream.all fun i => i.rmw.isNone) && s.badGranules.isEmpty && memWf s.mem && (teamOf s 0).isNone &&
      (gridOf s x.grid).isSome && s.checks.any fun k => k.grid == x.grid && k.teamid == x.teamid) = true := by decide +kernel

def queue0 : Queue :=
  { num := 0, base := 0x4_0000, k := 2, ctx := 0, age := 1, tail := 1, head := 0, taken := 0, ack := 0#64, stopped := false,
    preempted := false, cmd := none }
/-- The grid alone, with its queue. -/
def gridS (f : Grid → Grid) : State := { p0 with groups := [], teams := [], grids := [f (Probe.grid 1)], queues := [queue0] }
def gridAt (s : State) (c : Grid → Queue → Bool) : Bool := (gridOf s 1).any fun x => (queueOf s x.queue).any fun q =>
  decide (q.head < 2 ^ 64) && memWf s.mem && s.contexts.all (fun c => !c.terminating) && c x q

/-- Not done; done, without and with a DONE word; waiting for its increment, and after it. -/
theorem wit_Lifecycle_3 :
    (let s := { gridS id with groups := [g0] }; gridAt s fun x _ => x.phase == .active && !gridDone s x) = true ∧
    (let s := gridS id; gridAt s fun x _ => x.phase == .active && gridDone s x && x.buffered == [] && x.done == 0#64) = true ∧
    (let s := gridS fun g => { g with done := 0x2000_8000#64 }
     gridAt s fun x _ => x.phase == .active && gridDone s x && x.buffered == []) = true ∧
    (let s := gridS fun g => { g with phase := .counting 5 }; gridAt s fun x _ => x.phase == .counting 5 &&
      (opOf s 5).isNone) = true ∧
    (let s := { redS 0x19F false with grids := [{ Probe.grid 1 with phase := .counting 5 }], queues := [queue0] }
     gridAt s fun x _ => x.phase == .counting 5 && (opOf s 5).isSome) = true := by decide +kernel

/-- The increment of the DONE word at its home, its page mapped or not. -/
theorem wit_Lifecycle_4 :
    ∀ page ∈ [0x19F, 0], let s := { gridS fun g => { g with done := 0x2000_8000#64 } with
      mem := memWriteN p0.mem 0x1_0008 8 page }
    gridAt s (fun x _ =>
      let o := doneOp s x s.nextId
      let s2 := { setGrid s { x with phase := .counting s.nextId } with ops := s.ops ++ [o], nextId := s.nextId + 1 }
      (opOf s s.nextId).isNone && o.elems.length == 1 && (o.elems[0]?).any fun e => elemNext s2 o 0 e && !behindParked s2 o e &&
        (ctxOf s x.ctx).any fun c => (translateLate s2 o c e).1.isOk == (page != 0)) = true := by decide +kernel

/-! ## Queues -/

/-- A queue with the packet `x`, its descriptor readable. -/
def packetS (x : Nat) (f : Queue → Queue) : State :=
  { gridS id with
    grids := [], queues := [f queue0]
    mem := memWriteN (memWriteN p0.mem 0xA000 64 descN) 0x4_0040 64 x }
/-- Its descriptor at 0x2000_A000; with a wait for the word at an address to reach `v`. -/
def pkt0 : Nat := 0x2000_A000
def waitPkt (addr v : Nat) : Nat := pkt0 + 2 ^ 163 + addr * 2 ^ 256 + v * 2 ^ 448
def waitOf (x : Nat) : Nat :=
  match (waitWords (packetS x id) Probe.context x).1 with
  | .ok true => 0
  | .ok false => 1
  | .error _ => 2
def mayTakeIn (s : State) : Bool := (queueOf s 0).any fun q => (ctxOf s q.ctx).isSome && mayTakePacket s q

theorem wit_QueueUnit_1 : (queueOf (packetS pkt0 id) 0).isSome = true := by decide
/-- No packet; a reserved bit; waits that are met, not met and not readable; a descriptor that cannot be read and one that can. -/
theorem wit_QueueUnit_2 :
    mayTakeIn (packetS pkt0 fun q => { q with taken := 1 }) = false ∧
    mayTakeIn (packetS (pkt0 + 1) id) = true ∧ packetOk (pkt0 + 1) = false ∧
    (∀ x ∈ [waitPkt 0x2000_8000 0, waitPkt 0x2000_8000 1, waitPkt 0x4000_0000 0, pkt0, 0x4000_0000],
      mayTakeIn (packetS x id) = true ∧ packetOk x = true) ∧
    waitOf (waitPkt 0x2000_8000 0) = 0 ∧ waitOf (waitPkt 0x2000_8000 1) = 1 ∧ waitOf (waitPkt 0x4000_0000 0) = 2 ∧
    waitOf pkt0 = 0 ∧ waitOf 0x4000_0000 = 0 ∧ (readDesc (packetS pkt0 id) Probe.context pkt0).1.isOk = true ∧
    (readDesc (packetS 0x4000_0000 id) Probe.context 0x4000_0000).1.isOk = false := by decide +kernel
/-- The same for one word: off, at an address that breaks R222, not readable, and read at both ends of the window that R22
gives. -/
theorem wit_QueueUnit_3 :
    pkt0.testBit 163 = false ∧ waitOk (waitPkt 0x2000_8001 0) 163 256 = false ∧
    (waitPkt 0x4000_0000 0).testBit 163 = true ∧ waitOk (waitPkt 0x4000_0000 0) 163 256 = true ∧
    (queueRead p0 Probe.context 0x4000_0000#64 4).1.isOk = false ∧
    waitOk (waitPkt 0x2000_8000 0) 163 256 = true ∧ (waitPkt 0x2000_8000 0).testBit 163 = true ∧
    ∀ v ∈ [0, 0x7FFF_FFFF, 0x8000_0000, 0xFFFF_FFFF],
      (queueRead { p0 with mem := memWriteN p0.mem 0x8000 4 v } Probe.context 0x2000_8000#64 4).1.toOption = some v := by
  decide +kernel
/-- A walk that faults, and one that does not, to a good granule and to a bad one. -/
theorem wit_QueueUnit_5 :
    (walkAccess p0 Probe.context 0x4000_0000#64 .load false).1.isOk = false ∧
    ∀ bad ∈ [[], [0x400]], (match walkAccess { p0 with badGranules := bad } Probe.context 0x2000_8000#64 .load false with
      | (.ok pa, s1) => (badGranule? s1 pa 4).isSome == (bad != [])
      | (.error _, _) => false) = true := by decide +kernel
/-- A head grid that has waited 1 us, one that has not, and one of the highest priority. -/
theorem wit_QueueUnit_4 :
    ∀ x ∈ [(2250, 0), (2249, 0), (2250, 7)],
      let s := gridS fun g => { g with nextTeam := 0, waited := x.1, prio := x.2 }
      (queueOf s 0).isSome = true ∧ (headGrid s 0).isSome = true ∧ (s.grids[0]?).isSome = true := by decide +kernel

/-! ## Placement -/

def placeS (f : Grid → Grid) : State := gridS fun g => f { g with nextTeam := 0, capacity := 1 }
/-- The grid that waits in `placeS`. -/
def waits (s : State) (c : Grid → Bool) : Bool :=
  (turnOrder s).any fun g => (savedTeams s g).isEmpty && g.rerun.isEmpty && !g.desc.checked && !g.invalid && !g.admission && c g

theorem wit_Dispatch_1 :
    (∀ x ∈ (placeS id).grids, x.queue < 8192) ∧ (turnOrder (placeS id)).length = 1 ∧
    ∀ x ∈ (placeS id).grids, gridWaits (placeS id) x = true := by decide +kernel
/-- The team of a normal, of a concurrent and of a reproducible grid, which core 0 takes. -/
theorem wit_Dispatch_2 :
    ∀ pr ∈ [(2, false), (0, false), (2, true)],
      let s := placeS fun g => { g with desc := { g.desc with prog := pr.1, repro := pr.2 } }
      waits s (fun g => !g.refused && !launchedLeaving s g && decide (g.nextTeam < g.teams) && g.retired == g.nextTeam && decide (0 < g.capacity) &&
        saveHolds s g.ctx (descArea g.desc) && coreOpen s 0 && decide ((s.lastCore + 1) % 160 = 0) &&
        (admits (roomOf s 0) (descNeeds g.desc) (roundGranule g.desc.spad) false).isSome) = true := by decide +kernel
theorem wit_Dispatch_3 : [0].length = Probe.desc.groups0 + Probe.desc.groups1 := by decide
/-- Core 0 is full; its team has PRIO 0, and a team of PRIO 1 asks for its place. -/
def crowdedS : State :=
  { gridS (fun g => { g with uid := 9, nextTeam := 0, prio := 1, desc := { g.desc with spad := 0x4_0000 } }) with
    teams := [{ Probe.team 1 with spadSize := 0x8_0000 }], groups := [{ g0 with grid := 1 }] }

theorem wit_Dispatch_5 :
    waits crowdedS (fun g => !g.refused && !launchedLeaving crowdedS g && decide (g.nextTeam < g.teams) && !g.desc.repro && g.desc.prog == 2 &&
      saveHolds crowdedS g.ctx (descArea g.desc) &&
      ((List.range 160).all fun c => !coreOpen crowdedS c ||
        (admits (roomOf crowdedS c) (descNeeds g.desc) (roundGranule g.desc.spad) false).isNone) &&
      preemptCore crowdedS g.prio
        { groups := descNeeds g.desc, spad := roundGranule g.desc.spad, pan := false, skip := [] } == some 0 &&
      !(lowerTeams crowdedS 0 g.prio).isEmpty && (crowdedS.teams.all fun t => !t.haltReq) &&
      crowdedS.groups.all fun x => !x.haltReq) = true := by decide +kernel

/-- The same grid with the PRIO of that team, which asks no team to leave. -/
def refusedS : State := { crowdedS with grids := crowdedS.grids.map fun g => { g with prio := 0 } }
theorem wit_Dispatch_4 :
    (turnOrder refusedS).length = 1 ∧
    waits refusedS (fun g => !launchedLeaving refusedS g && decide (g.nextTeam < g.teams) && !g.desc.repro && g.desc.prog == 2 &&
      saveHolds refusedS g.ctx (descArea g.desc) &&
      ((List.range 160).all fun c => !coreOpen refusedS c ||
        (admits (roomOf refusedS c) (descNeeds g.desc) (roundGranule g.desc.spad) false).isNone) &&
      (preemptCore refusedS g.prio
        { groups := descNeeds g.desc, spad := roundGranule g.desc.spad, pan := false, skip := [] }).isNone) = true := by decide +kernel
/-- A grid that no core takes, until a team retires; and one whose launched team is leaving. -/
theorem wit_Dispatch_8 :
    (let s := { refusedS with grids := refusedS.grids.map fun g => { g with refused := true } }
     waits s (fun g => g.refused && turnOrder s == [g]) = true) ∧
    (let s := { gridS (fun g => { g with nextTeam := 1, teams := 2 }) with
        groups := [{ g0 with haltReq := true }], teams := [Probe.team 1] }
     waits s (fun g => launchedLeaving s g && turnOrder s == [g]) = true) := by decide +kernel

/-- An evicted group whose split is ready; and a saved team of the grid in its turn. -/
def leftS (p : Place) : State :=
  { p0 with groups := [{ g0 with place := p }], teams := [{ Probe.team 1 with place := if p = .saved then .saved else .resident }] }
theorem wit_Dispatch_6 :
    let s := leftS .evicted
    (placed s fun x _ _ => x.place == .evicted && !x.haltReq && awake s x && idsOk s && (gridOf s x.grid).any (fun g =>
      !gridStopped s g) && (teamOf s x.team).any fun t => t.place == .resident &&
        (quarterFor s { x with core := t.core } t.spawned).isSome) = true := by decide +kernel
theorem wit_Dispatch_7 :
    let s := leftS .saved
    (idsOk s && placed s fun x _ _ => x.place == .saved && (gridOf s x.grid).any fun g => (turnOrder s).head? == some g &&
      (teamOf s x.team).any fun t => savedTeams s g == [t] && !gridHalting s g.uid && (restoreTeam s t).isSome) = true := by
  decide +kernel

/-- A saved team that has no group; and the copies of one checked team, one of which stands on core 0 and has run on core 1. -/
theorem wit_Dispatch_9 :
    (let s := { leftS .saved with groups := [] }
     (groupOf s 2).isNone && (teamOf s 2).any fun t => t.place == .saved && (gridOf s t.grid).any fun g =>
       (turnOrder s).head? == some g && savedTeams s g == [t] && !gridHalting s g.uid && (restoreTeam s t).isSome) = true ∧
    (let a := { Probe.team 1 with copyNo := 1, ranOn := [1] }
     let b := { Probe.team 1 with tid := 7, copyNo := 2, core := 9 }
     ∀ core ∈ [0, 1], a ∈ { p0 with teams := [a, b] }.teams ∧ a.tid ≠ b.tid ∧ a.copyNo ≠ 0 ∧ b.copyNo ≠ 0 ∧ a.grid = b.grid ∧
       a.teamid = b.teamid ∧ (core = a.core ∨ core ∈ a.ranOn)) := by decide +kernel

/-- One team, on core 0. -/
theorem placedOne {s : State} {gr : Grid} {i base : Nat} {qs : List Nat} (h : s.lastCore = 159) (ho : coreOpen s 0 = true)
    (ha : admits (roomOf s 0) (descNeeds gr.desc) (roundGranule gr.desc.spad) false = some qs) :
    PlacedAll gr base s [i] (createTeam s gr i 0 0 qs base) :=
  .cons s _ i 0 [] qs ⟨0, by omega, by omega, ⟨ho, ha⟩, fun j hj => by omega⟩ (.nil _)

/-! ## Pre-emption -/

/-- A command word in the header of the queue, over 160 cores. -/
def cmdS (w : Nat) : State :=
  { gridS id with
    groups := [g0], teams := [Probe.team 1], cores := List.replicate 160 Core.idle
    mem := memWriteN p0.mem 0x4_0010 8 w }

theorem wit_Preemption_1 : (queueOf (cmdS 0) 0).any (fun q => newCmd (cmdS 0) q == none) = true := by decide +kernel
/-- Words of SEQ 1: pre-empt and resume, a queue and a context; and reserved ones. -/
theorem wit_Preemption_2 :
    ∀ k ∈ [0, 1, 2, 3, 4, 5, 255], let s := cmdS (256 + k)
      ((queueOf s 0).any fun q => (newCmd s q).any (fun w => cmdOp w == k) && (ctxOf s q.ctx).isSome &&
        s.cores.length == 160 && memWf s.mem && decide ((s.queues.map Queue.num).Nodup)) = true := by decide +kernel
/-- A command in progress: its group is saved, or not. -/
theorem wit_Preemption_3 :
    ∀ h ∈ [false, true],
      let s := { cmdS 257 with queues := [{ queue0 with cmd := some 257#64 }], groups := [{ g0 with haltReq := h }] }
      (queueOf s 0).any (fun q => q.cmd == some 257#64 && cmdDone s q 257#64 == !h) = true := by decide +kernel
theorem wit_Preemption_4 :
    (let s := withG fun g => { g with haltReq := true, splits := [{ f0 with halted := true }] }
     placed s fun x _ _ => idsOk s && s.queues.isEmpty && mayWrite s x && s.copies.isEmpty &&
       (teamOf s x.team).any fun t => t.place != .saved) = true ∧
    (let s := { p0 with groups := [{ g0 with haltReq := true, splits := [{ f0 with halted := true }] }, { g0 with gid := 1, splits := [] }] }
     placed s fun x _ _ => idsOk s && s.queues.isEmpty && mayWrite s x && (teamOf s x.team).isSome) = true ∧
    (placed p0 fun x _ _ => idsOk p0 && !mayWrite p0 x) = true := by decide +kernel
theorem wit_Preemption_5 :
    (placed p0 fun x _ _ => idsOk p0 && x.resume == .done) = true ∧
    (let s := withG fun g => { g with resume := .due, savedRing := some emptyRing }
     placed s fun x _ _ => idsOk s && s.queues.isEmpty && x.place == .resident && x.resume == .due && x.driver.isNone &&
       ((gridOf s x.grid).all fun g => !gridAway s g) &&
      !ringBusy s x && (x.slots.all fun sl => !sl.rebind) && decide (4 * x.core + x.quarter < s.rings.length)) = true := by
  decide +kernel

/-- A team with no group left, its halt asked for, with a copy in flight, and with none. -/
theorem wit_Preemption_6 :
    ∀ cs ∈ [copying.copies, []],
      let s := { p0 with groups := [], teams := [{ Probe.team 1 with haltReq := true }], copies := cs }
      (teamOf s 2).any (fun tm => (groupOf s 2).isNone && s.queues.isEmpty && tm.place != .saved && tm.haltReq &&
        s.copies.any (fun c => c.team == 2) == !cs.isEmpty && s.copies.all fun c => c.cls == .c1 && !c.acting && c.parts.isEmpty) =
        true := by decide +kernel
/-- A resident group whose grid has a team that is still saved. -/
theorem wit_Preemption_7 :
    let s := { p0 with grids := [{ Probe.grid 1 with desc := { Probe.desc with prog := 0 } }], teams := [Probe.team 1, { Probe.team 1 with tid := 7, place := .saved }] }
    (placed s fun x _ _ => idsOk s && s.queues.isEmpty && (gridOf s x.grid).any (gridAway s)) = true := by decide +kernel

/-! ## Checked teams -/

def run0 (no core : Nat) (d : DWord) : CopyRun := { no, core, ranOn := [], stream := [item d], traps := [] }
/-- A team under comparison, its copies over 160 cores. -/
def checkS (runs : List CopyRun) (third : Bool) (ts : List Team) : State :=
  { p0 with
    groups := [], teams := ts, cores := List.replicate 160 Core.idle
    checks := [{ grid := 1, teamid := 0, runs, third, accepted := none, item := none }] }
/-- The check, and the runs of its copies. -/
def checks (s : State) (c : CheckRun → Bool) : Bool :=
  (s.checks[0]?).any fun k => (gridOf s k.grid).isSome && memWf s.mem && k.accepted.isNone && s.badGranules.isEmpty &&
    s.ops.all (fun o => decide (o.id < s.nextId)) && (teamOf s 0).isNone && c k

theorem wit_CheckedTeams_1 :
    let s := checkS [] false [{ Probe.team 1 with copyNo := 1, overflow := some 512 }, { Probe.team 1 with tid := 7, copyNo := 2 }]
    checks s (fun k => (checkTeams s k).findSome? Team.overflow == some 512) = true := by decide +kernel
/-- Two copies that agree, and two that do not. -/
theorem wit_CheckedTeams_2 :
    ∀ d ∈ [5, 6], let s := checkS [run0 1 0 5#64, run0 2 40 (BitVec.ofNat 64 d)] false []
      checks s (fun k => (checkTeams s k).findSome? Team.overflow == none && !k.third && (endedRun s k 1).any fun a =>
        a.traps.isEmpty && (a.stream.all fun x => x.rmw.isNone) && (endedRun s k 2).any fun b => runsMatch a b == (d == 5)) = true := by
  decide +kernel
/-- A third copy that agrees with neither, with the first, and with the second. -/
theorem wit_CheckedTeams_3 :
    ∀ d ∈ [7, 5, 6], let s := checkS [run0 1 0 5#64, run0 2 40 6#64, run0 3 80 (BitVec.ofNat 64 d)] true []
      checks s (fun k => (checkTeams s k).findSome? Team.overflow == none && k.third && (endedRun s k 1).any fun a =>
        (endedRun s k 2).any fun b => (endedRun s k 3).any fun c => runsMatch c a == (d == 5) && runsMatch c b == (d == 6) &&
          c.traps.isEmpty && (c.stream.all fun x => x.rmw.isNone) && decide (b.core < s.cores.length)) = true := by
  decide +kernel

/-- A stream under way, whose item is not performed, and is. -/
theorem wit_CheckedTeams_4 :
    (let s := { redS 0x19F false with
        groups := [], checks := [{ grid := 1, teamid := 0, runs := [], third := false, accepted := some (run0 1 0 5#64), item := some 5 }] }
     (s.checks[0]?).any (fun k => k.accepted.isSome && k.item == some 5 && (opOf s 5).isSome) = true) ∧
    (let s := { p0 with
        groups := [], checks := [{ grid := 1, teamid := 0, runs := [], third := false, accepted := some (run0 1 0 5#64), item := some 5 }] }
     (s.checks[0]?).any (fun k => k.accepted == some (run0 1 0 5#64) && (opOf s 5).isNone && (gridOf s k.grid).isSome && memWf s.mem &&
       s.badGranules.isEmpty && s.ops.isEmpty && (teamOf s 0).isNone) = true) := by decide +kernel
theorem wit_CheckedTeams_5 :
    let s := checkS [run0 1 0 5#64, run0 2 40 6#64] true []
    ((s.checks.find? fun k => k.grid == (Probe.grid 1).uid && k.teamid == 0 && k.third).isSome) = true := by decide +kernel

/-! ## The package -/

def boot0 : BootReport :=
  { dies := List.replicate 4 { ed25519 := true, mlDsa65 := true, versionOk := true, pass := List.replicate 44 true },
    mgmtBase := 0x8_0000, mgmtVec := 3 }
theorem wit_Package_1 : memWf p0.mem = true ∧ (boot0.dies[3]?).isSome = true := by decide +kernel
/-- A die in quiesce whose context has been saved, one that still waits, and one with no quiesce. -/
def dieS (q : Option Nat) (p : Place) : State :=
  { p0 with
    groups := [{ g0 with place := p }], teams := [{ Probe.team 1 with place := p }]
    contexts := [{ Probe.context with quiesced := true }], mgmtBase := some 0x8_0000
    dies := [{ booted := true, rejected := false, phys := [.logical 0, .spare, .retired, .logical 1], quiesce := q }] }
theorem wit_Package_2 :
    (memWf (dieS (some 0) .saved).mem && quiesced (dieS (some 0) .saved) && !quiesced (dieS (some 0) .resident)) = true ∧
    ((dieS (some 0) .saved).dies[0]?).any (fun d => d.quiesce.isSome) = true ∧
    ((dieS none .saved).dies[0]?).any (fun d => d.quiesce.isNone) = true := by decide +kernel
theorem wit_Package_12 :
    let phys : List CoreMark := [.retired, .spare, .logical 0]
    CoreMark.logical 3 ∉ phys ∧ phys[1]? = some .spare ∧ ∀ j < 1, phys[j]? ≠ some .spare := by decide
theorem wit_Package_3 : Probe.context ∈ p0.contexts ∧ ∀ x ∈ p0.contexts, x ≠ Probe.context → Probe.context.num < x.num := by
  decide +kernel
theorem wit_Package_4 : 1 < p0.cores.length ∧ ∀ f, Thermal.coolantHot ≠ .recovered f := ⟨by decide, fun _ h => by cases h⟩
theorem wit_Package_6 :
    (∃ t ∈ p0.teams, t.place ≠ .saved) ∧ ∀ t ∈ (leftS .saved).teams, t.place = .saved := by decide +kernel
theorem wit_Package_8 : memWf p0.mem = true ∧ [5#8, 6#8] ≠ [] ∧ partlyBad p0 0x8000 2 = none := by decide +kernel
/-- A granule that a write of the host die covers, one that it covers in part, and one that is good. -/
theorem wit_Package_10 :
    let s := { p0 with badGranules := [0x400, 0x401] }
    memWf s.mem = true ∧ s.badGranules.contains 0x400 = true ∧ s.badGranules.contains 0x401 = true ∧
    s.badGranules.contains 0x402 = false ∧ 0x8000 ≤ 32 * 0x400 ∧ 32 * 0x400 + 32 ≤ 0x8000 + (List.replicate 36 5#8).length ∧
    32 * 0x401 < 0x8000 + (List.replicate 36 5#8).length ∧ ¬ 32 * 0x401 + 32 ≤ 0x8000 + (List.replicate 36 5#8).length ∧
    32 * 0x402 < 0x8000 + (List.replicate 66 5#8).length := by decide +kernel
/-- A capture unit of each kind of source. -/
theorem wit_Package_11 :
    ∀ src ∈ [1, 3, 4],
      let s := { p0 with cores := [{ Core.idle with captures := [Capture.cleared (some src)] }] }
      0 < s.cores.length ∧ ((coreOf s 0).captures[0]?).any (fun c => c.source == some src) = true := by decide +kernel
theorem wit_Package_9 : ((coreOf (tlbS true true false) 0).tlb[0]?).isSome = true := by decide +kernel

/-! ## Management commands -/

/-- A command with its operands in the management ring at 0x8_0000. -/
def cmdWordOf (op : Nat) (as : List Nat) : Nat := op + (as.zipIdx.map fun x => x.1 * 2 ^ (64 * x.2 + 64)).sum
def mgmtS (op : Nat) (as : List Nat) : State :=
  { p0 with
    mgmtBase := some 0x8_0000, mgmtVec := 3, queues := [{ queue0 with num := 7 }]
    dies := [{ booted := true, rejected := false, phys := [.logical 0], quiesce := none }]
    mem := memWriteN (memWriteN p0.mem 0x8_0000 8 1) 0x8_0040 64 (cmdWordOf op as) }
/-- The command is the next. -/
def nextIs (s : State) (i : Instr) : Bool := mgmtNext s == some i && memWf s.mem

theorem wit_Management_1 : nextIs (mgmtS 0x7F []) .reservedManagementCommand = true := by decide +kernel
theorem wit_Management_2 : mgmtNext p0 ≠ some (mgmtInstr (cmdWordOf 2 [0])) := by decide +kernel
/-- Context 5 from a block at 0x2_0000 that is legal (a ring of 16, a pool of 16) or zero, and context 0, which exists. -/
def blockS (num x : Nat) : State := let s := mgmtS 1 [num, 0x9_0000]; { s with mem := memWriteN s.mem 0x9_0000 256 x }
theorem wit_Management_3 :
    (∀ n ∈ [5, 0], ∀ x ∈ [4 * 2 ^ 384 + 4 * 2 ^ 392, 0], nextIs (blockS n x) (.createContext (BitVec.ofNat 64 n) 0x9_0000#64) = true) ∧
    ctxOf (blockS 5 0) 5 = none ∧ blockOk (4 * 2 ^ 384 + 4 * 2 ^ 392) = true ∧ blockOk 0 = false := by decide +kernel
/-- Context 0 is held, and 9 is not. -/
theorem wit_Management_4 :
    nextIs (mgmtS 2 [0]) (.terminateContext 0#64) = true ∧ ctxOf (mgmtS 2 [0]) 0 = some Probe.context ∧
    nextIs (mgmtS 2 [9]) (.terminateContext 9#64) = true ∧ ctxOf (mgmtS 2 [9]) 9 = none := by decide +kernel
theorem wit_Management_5 :
    ∀ k ∈ [4, 16, 17], nextIs (mgmtS 3 [8191, 0x5_0000, 2 ^ k, 0, 10])
      (.registerQueue 8191#64 0x5_0000#64 (BitVec.ofNat 64 (2 ^ k)) 0#64 10#64) = true := by decide +kernel
/-- Queue 9 does not exist; 7 has no grid; with one it is busy. -/
theorem wit_Management_6 :
    nextIs (mgmtS 4 [9]) (.releaseQueue 9#64) = true ∧ queueOf (mgmtS 4 [9]) 9 = none ∧
    nextIs (mgmtS 4 [7]) (.releaseQueue 7#64) = true ∧ (∀ g ∈ (mgmtS 4 [7]).grids, g.queue ≠ 7) ∧
    nextIs { mgmtS 4 [7] with grids := [{ Probe.grid 1 with queue := 7 }] } (.releaseQueue 7#64) = true := by decide +kernel
theorem wit_Management_7 :
    nextIs (mgmtS 5 [0]) (.quiesceDie 0#64) = true ∧ nextIs (mgmtS 5 [1]) (.quiesceDie 1#64) = true ∧
    (mgmtS 5 [1]).dies[1]? = none ∧ ((mgmtS 5 [0]).dies[0]?).any Die.booted = true ∧
    nextIs { mgmtS 5 [0] with dies := [Die.dark] } (.quiesceDie 0#64) = true ∧ Die.dark.booted = false := by decide +kernel
/-- The record at 0x2_0040, of a copy, of a group and of parked requests, and none at 0; FAULT_REPAIRED and UNREPAIRABLE. -/
def recS (s : State) (l : RecLink) : State := { s with records := [(0x2_0040, { drec 0 with link := l })] }
theorem wit_Management_8 :
    ∀ a ∈ [0, 0x2_0040], ∀ l ∈ [RecLink.copy 1, .group 3, .sluice 3 0 0x2000],
      nextIs (recS (mgmtS 6 [a]) l) (.faultRepaired (BitVec.ofNat 64 a)) = true ∧
      nextIs (recS (mgmtS 0xE [a]) l) (.faultUnrepairable (BitVec.ofNat 64 a)) = true ∧
      (recAt (recS (mgmtS 6 [a]) l) (BitVec.ofNat 64 a)).isSome = (a != 0) := by decide +kernel
/-- One RED of the page is parked, its page now mapped. -/
theorem wit_Management_9 :
    let s := { recS (mgmtS 6 [0x2_0040]) (.sluice 3 0 0x2000) with ops := (redS 0x19F true).ops }
    parkedAt s 0 3 0x2000 = [(0, 5, 0)] ∧ elemIs s 0 (fun o e c => o.kind == .rmw .s32 none && e.space == .global &&
      !earlierParked s o e &&
      match walkAccess s c e.va .rmw o.sup with
      | (.ok pa, s2) => (badGranule? s2 pa e.size).isNone && memWf s2.mem | (.error _, _) => false) = true := by decide +kernel
theorem wit_Management_10 :
    nextIs (mgmtS 7 [0, 0x9_0000]) (.setBreakpoints 0#64 0x9_0000#64) = true ∧
    (∀ g ∈ [3, 9], nextIs (mgmtS 8 [0, g, 0x9_0000]) (.contextRead 0#64 (BitVec.ofNat 64 g) 0x9_0000#64) = true) ∧
    (groupOf (mgmtS 8 [0, 3, 0x9_0000]) 3).any (fun g => g.ctx == 0) = true ∧ groupOf (mgmtS 8 [0, 9, 0x9_0000]) 9 = none ∧
    (∀ n ∈ [1, 2, 4096, 4097], nextIs (mgmtS 9 [65535, 0x9_0000, n, 10000])
      (.reductionGroup 65535#64 0x9_0000#64 (BitVec.ofNat 64 n) 10000#64) = true) := by decide +kernel
theorem wit_Management_11 :
    (∀ c ∈ [0, 159, 160], nextIs (mgmtS 0xA [c, 3, 5]) (.captureSet (BitVec.ofNat 64 c) 3#64 5#64) = true ∧
      nextIs (mgmtS 0xB [c, 3, 0x9_0000]) (.captureRead (BitVec.ofNat 64 c) 3#64 0x9_0000#64) = true) ∧
    ((coreOf (mgmtS 0xB [0, 3, 0x9_0000]) 0).captures[3]?).any (fun u => u.buckets.length == 32) = true ∧
    (∀ w ∈ [1799, 1800, 3600, 3601], nextIs (mgmtS 0xC [w]) (.powerCap (BitVec.ofNat 64 w)) = true) ∧
    nextIs (mgmtS 0xD [0x9_0000, 0xA_0000]) (.attest 0x9_0000#64 0xA_0000#64) = true ∧
    (∀ l ∈ [0, 1024, 1025], nextIs (mgmtS 0xF [0, 8, l]) (.contextSettings 0#64 8#64 (BitVec.ofNat 64 l)) = true) := by
  decide +kernel

/-- Group 3 halts for the driver, its record at 0x2_0040. -/
def haltS (k : HaltKind) (inH : Bool) (rec pt : Nat) : State :=
  let b := { (drec 0).body with inhandler := inH }
  let s := recS (mgmtS 0x10 [rec, pt]) (.group 3)
  { s with groups := [{ (if inH then handlerG g0 else g0) with driver := some { kind := k, body := b, sid := 4, addr := some 0x2_0040 } }] }
def resumes (k : HaltKind) (inH : Bool) (pt : Nat) : Bool :=
  let s := haltS k inH 0x2_0040 pt
  nextIs s (.resumeGroup 0x2_0040#64 (BitVec.ofNat 64 pt)) && (recAt s 0x2_0040#64).map DriverRec.link == some (.group 3) &&
    placed s fun g _ _ => haltsNow g 0x2_0040 && twinOf s g == none && g.driver.any fun d => (splitOf g d.sid).isSome &&
      d.body.inhandler == inH && (!inH || g.shadow.any fun sh => (splitOf g sh.sid).isSome)

theorem wit_Management_12 :
    nextIs (haltS .escape true 0 1) (.resumeGroup 0#64 1#64) = true ∧ recAt (haltS .escape true 0 1) 0#64 = none ∧
    (let s := { haltS .escape true 0x2_0040 1 with groups := [g0] }
     nextIs s (.resumeGroup 0x2_0040#64 1#64) && placed s fun g _ _ => !haltsNow g 0x2_0040) = true ∧
    (∀ k ∈ [HaltKind.escape, .noHandler, .breakpoint true, .breakpoint false, .driver], ∀ pt ∈ [0, 1, 2, 3],
      resumes k false pt = true) ∧
    (∀ k ∈ [HaltKind.escape, .inHandler], resumes k true 0 = true) := by decide +kernel

/-- A pool of 16 entries takes 16, not 17, and no misaligned frame; context 9 is not held. -/
def poolS (n f : Nat) : State :=
  let s := mgmtS 0x11 [0, 0x9_0000, n]
  { s with mem := (List.range 17).foldl (fun m k => memWriteN m (0x9_0000 + 8 * k) 8 (f + 0x1_0000 * k)) s.mem }
theorem wit_Management_13 :
    (∀ n ∈ [16, 17], ∀ f ∈ [0x20_0000, 0x20_0020], nextIs (poolS n f) (.poolAdd 0#64 0x9_0000#64 (BitVec.ofNat 64 n)) = true) ∧
    physRead (poolS 16 0x20_0000) 0x3_0000 8 = 0 ∧ Probe.context.poolK ≤ 20 ∧
    ((List.range 16).map fun k => physRead (poolS 16 0x20_0000) (0x9_0000 + 8 * k) 8).all (fun f => f % 65536 == 0 && decide (f < 2 ^ 52)) = true ∧
    physRead (poolS 16 0x20_0020) 0x9_0000 8 % 65536 ≠ 0 := by decide +kernel
/-- Each command that names a context, with one that is not held. -/
theorem wit_Management_14 :
    ctxOf (mgmtS 2 [9]) 9 = none ∧ nextIs (mgmtS 0xF [9, 0, 0]) (.contextSettings 9#64 0#64 0#64) = true ∧
    nextIs (mgmtS 2 [9]) (.terminateContext 9#64) = true ∧ nextIs (mgmtS 7 [9, 0]) (.setBreakpoints 9#64 0#64) = true ∧
    nextIs (mgmtS 8 [9, 0, 0]) (.contextRead 9#64 0#64 0#64) = true ∧
    nextIs (mgmtS 0x11 [9, 0, 0]) (.poolAdd 9#64 0#64 0#64) = true := by decide +kernel

/-! ## Words (14 R251 to R265, and the encodings of 15, 19 to 23) -/

/-- A word written as its four 32-bit words decodes to an instruction, and is its encoding. -/
def codes (w0 w1 w2 w3 : BitVec 32) (i : Instr) : Bool :=
  (match decode (wordOf w0 w1 w2 w3) with
   | .ok j => j == i
   | .error _ => false) && encode i == wordOf w0 w1 w2 w3
def opR (o d a b : Opnd) (rm : BitVec 3) : RFmt := { bareR (bareHdr rm) d a b with c := o }
def opM (d a b c : Opnd) : MFmt := { m0 with d, a, b, c }

/-- 20 R291, 22 R346, 23 R376. -/
theorem test_words_integer :
    codes 0x1805 0x1510_0802 0 0xFFFF_FFE0 (.and .b32 { bareR h0 (.v 2) (.v 2) .imm with imm := 0xFFFF_FFE0#32 }) = true ∧
    codes 0x180C 0x1510_0403 0 0x604 (.bfe .s32 { bareR h0 (.v 3) (.v 1) .imm with imm := 0x604#32 }) = true ∧
    codes 0x3820 0x0020_0403 0 0 (.iadd .s32 { r0 with h := { h0 with sat := true } }) = true ∧
    codes 0x1824 0x0040_2009 0x4000_0000 0 (.icmp .s32 { bareR h0 (.v 9) (.v 8) (.v 4) with mod := 0x20#7 }) = true ∧
    codes 0x1842 0x0080_1804 0x151 2 (.lea .s64 { bareR h0 (.v 4) (.v 6) (.v 8) with c := .imm, imm := 2#32 }) = true ∧
    codes 0x1845 0x0010_0802 0 0 (.or .b32 (bareR h0 (.v 2) (.v 2) (.v 1))) = true ∧
    codes 0x1865 0x1510_2C0B 0 1 (.xor .b32 { bareR h0 (.v 11) (.v 11) .imm with imm := 1#32 }) = true ∧
    codes 0x185D 0x1510_0401 0 1 (.shl .b32 { bareR h0 (.v 1) (.v 1) .imm with imm := 1#32 }) = true ∧
    codes 0x1820 0x10B0_0C08 0 0 (.iadd .s32 (bareR h0 (.v 8) (.v 3) (.s 11))) = true := by decide +kernel

/-- 21 R320, R323, R324; 20 R311; 19: an FMUL with a map. -/
theorem test_words_float :
    codes 0x9C 0x0020_0404 3 0 (.fma .f32 (opR (.v 3) (.v 4) (.v 1) (.v 2) 0)) = true ∧
    codes 0xC8 0x1044_0D02 0 0x1004_0004 (.fmaSweep .f32
      { s0 with h := bareHdr 0, d := .s 2, a := .s 3, b := .s 4, count := 4#12, stepA := 64#10, stepD := 64#10 }) = true ∧
    codes 0xC89 0x1510_0404 0x8000_0400 0x3F32_3F32 (.fcmp .f16x2 { bareR (bareHdr 3) (.v 4) (.v 1) .imm with
      ma := 1#4, mod := 0x40#7, imm := 0x3F32_3F32#32 }) = true ∧
    codes 0x100 0x0805 0x4600_0000 0 (.cvt .f32 { bareR (bareHdr 0) (.v 5) (.v 2) (.v 0) with mod := 0x23#7 }) = true ∧
    codes 0xA9 0x1510_0405 0x400 0x4500_4500 (.fmul .f16x2 { bareR (bareHdr 0) (.v 5) (.v 1) .imm with
      ma := 1#4, imm := 0x4500_4500#32 }) = true := by decide +kernel

/-- 22 R357, R362, R364 to R369; 19. -/
theorem test_words_maps :
    codes 0x140 0x0005_450A 0 2 (.mapres { bareR (bareHdr 0) (.s 10) .imm (.v 0) with imm := 2#32 }) = true ∧
    codes 0x141 0x1505_4000 0x0400_0400 0 (.mapbind { opM (.v 0) .zero .zero (.v 0) with ma := 1#4, mod := 2#7 }) = true ∧
    codes 0x141 0x1504_1000 0x3200_0800 0 (.mapbind { opM (.v 0) (.s 4) .zero (.v 0) with ma := 2#4, mod := 0x19#7 }) = true ∧
    codes 0x142 0x12A0_7800 0x0400_0528 0 (.mapwr { bareR (bareHdr 0) (.v 0) (.v 30) (.s 42) with
      c := .s 40, ma := 1#4, mod := 2#7 }) = true ∧
    codes 0x1943 0xC 0x0200_0551 0 (.maprd { bareR h0 (.v 12) (.v 0) (.v 0) with c := .imm, ma := 1#4, mod := 1#7 }) = true ∧
    codes 0x144 0x1505_4150 0x550 0 (.maprel { bareR (bareHdr 0) .zero .zero .zero with c := .zero, ma := 1#4 }) = true ∧
    codes 0x14C 0x1504_B028 0x3800_0800 0 (.ldl { opM (.v 40) (.s 44) .zero (.v 0) with ma := 2#4, mod := 0x1C#7 }) = true ∧
    codes 0x152 0x1500_0406 0x550 0 (.macc .f16x2 { bareR (bareHdr 0) (.v 6) (.v 1) .zero with c := .zero, ma := 1#4 }) = true ∧
    codes 0x195C 0x1500_0408 0x3950 0 (.macc .s8x4 { bareR h0 (.v 8) (.v 1) .zero with c := .zero, ma := 14#4 }) = true := by
  decide +kernel

/-- 20 R304; 22 R358; 23 R379, R383. -/
theorem test_words_lanes :
    codes 0x192E 0x0074_1150 0x151 0xFFFF_FFEC (.census .bf16x2 { bareR h0 .zero (.s 4) (.v 7) with
      c := .imm, imm := 0xFFFF_FFEC#32 }) = true ∧
    codes 0x1980 0x403 0x1000_0000 0 (.lred .s32 { bareR h0 (.v 3) (.v 1) (.v 0) with mod := 8#7 }) = true ∧
    codes 0x1988 0x403 0x8000_0000 0 (.lscan .s32 { bareR h0 (.v 3) (.v 1) (.v 0) with mod := 0x40#7 }) = true ∧
    codes 0x1991 0x404 0 0 (.matchLanes .b32 (bareR h0 (.v 4) (.v 1) (.v 0))) = true ∧
    codes 0x1999 0x403 0 0 (.part .b32 (bareR h0 (.v 3) (.v 1) (.v 0))) = true ∧
    codes 0x19A1 0x1510_0402 0x2000_0000 1 (.shfl .b32 { bareR h0 (.v 2) (.v 1) .imm with mod := 0x10#7, imm := 1#32 }) = true ∧
    codes 0x19A9 0x1500_2504 0x1800_0000 0 (.vote .b32 { bareR h0 (.s 4) (.v 9) .zero with mod := 0xC#7 }) = true ∧
    codes 0x1932 0x0014_5002 0x115 0 (.rng (opR (.s 21) (.v 2) (.s 20) (.v 1) 6)) = true := by decide +kernel

/-- 20 R293, R301; 21 R334; 22 R353, R355; 23 R384 to R388. -/
theorem test_words_memory :
    codes 0x1C4 0x00F4_3803 0 0 (.ld .b32 (opM (.v 3) (.s 14) (.v 15) (.v 0))) = true ∧
    codes 0xDC4 0x1204_3118 0x4000_0000 8 (.ld .b32 { opM (.s 24) (.s 12) (.s 32) (.v 0) with
      h := bareHdr 3, mod := 0x20#7, disp := 8#32 }) = true ∧
    codes 0x1D4 0x1504_A41E 0x0200_4000 0 (.lds .b32 { opM (.v 30) (.s 41) .zero (.v 0) with space := 1#4, mod := 1#7 }) = true ∧
    codes 0xDCC 0x1204_3150 0x4000_0117 8 (.st .b32 { opM .zero (.s 12) (.s 32) (.s 23) with
      h := bareHdr 3, mod := 0x20#7, disp := 8#32 }) = true ∧
    codes 0x1DC 0x1504_A550 0x0200_4150 0 (.sts .b32 { opM .zero (.s 41) .zero .zero with space := 1#4, mod := 1#7 }) = true ∧
    codes 0x0201_0DE0 0x1504_0814 0x151 1 (.atom .s32 { opM (.v 20) (.s 2) .zero .imm with
      h := { bareHdr 3 with guard := .vector false 0#5 2#8 }, disp := 1#32 }) = true ∧
    codes 0xDE9 0x1504_1150 0x0400_0006 0 (.red .b32 { opM .zero (.s 4) .zero (.v 6) with h := bareHdr 3, mod := 2#7 }) = true ∧
    codes 0x1F0 0x1500_1150 0x0200_0000 0 (.pref { opM .zero (.v 4) .zero (.v 0) with mod := 1#7 }) = true ∧
    codes 0x1F1 0x1504_1150 0x151 0x100 (.cctl { opM .zero (.s 4) .zero .imm with disp := 0x100#32 }) = true ∧
    codes 0xDF2 0 0x0400_0000 0 (.fence { k0 with h := bareHdr 3, mod := 2#7 }) = true := by decide +kernel

/-- 20 R296, R308; 23 R393; 15: a BARR. -/
theorem test_words_engines :
    codes 0x1D02_0240 0x1234_4150 0x6000_0150 0 (.copy { bareR { bareHdr 0 with guard := .scalar false 0#5 29#8 }
      .zero (.s 16) (.s 35) with c := .zero, mod := 0x30#7 }) = true ∧
    codes 0x248 0x1514_7C00 0x121 0 (.binit (opR (.s 33) (.v 0) (.s 31) .imm 0)) = true ∧
    codes 0x249 0x1514_1800 0x150 1 (.barr { bareR (bareHdr 0) (.v 0) (.s 6) .imm with c := .zero, imm := 1#32 }) = true ∧
    codes 0x24D 0x1505_4550 0x0200_0150 0 (.waitc { bareR (bareHdr 0) .zero .imm .zero with c := .zero, mod := 1#7 }) = true := by
  decide +kernel

/-- 21 R318, R343; 22 R351, R352; 23 R389. -/
theorem test_words_tasks :
    codes 0x280 0x00A4_2014 0x1200_0004 0 (.spawn { bareR (bareHdr 0) (.v 20) (.s 8) (.v 10) with c := .v 4, mod := 9#7 }) = true ∧
    codes 0x281 0x1500_1150 0 0 (.jdec (opM .zero (.v 4) .zero (.v 0))) = true ∧
    codes 0x282 0x1504_3150 0 0 (.jwait (opM .zero (.s 12) .zero (.v 0))) = true ∧
    codes 0x284 0x1504_0950 0 0 (.fres (opM .zero (.s 2) .zero (.v 0))) = true ∧
    codes 0x2C6 0x1500_1150 0 0 (.exitJ (opM .zero (.v 4) .zero (.v 0))) = true := by decide +kernel

/-- 20 R301; 21 R317; 22 R345; 23 R374, R382; 15: a BRA.D. -/
theorem test_words_control :
    codes 0x0705_02C1 0 4 4 (.braD { c0 with h := { bareHdr 0 with guard := .vector true 0#5 7#8 }, xoff := 4#32, toff := 4#32 }) = true ∧
    codes 0x2C3 0x0004_1000 0 0 (.brx { c0 with a := .s 4 }) = true ∧
    codes 0x2C4 0x0005_413E 0 0x30 (.call { c0 with d := .s 62, a := .zero, toff := 0x30#32 }) = true ∧
    codes 0x2CA 0x0004_F800 0 0 (.ret { c0 with a := .s 62 }) = true ∧
    codes 0x0901_02C5 0 0 0 (.exit { c0 with h := { bareHdr 0 with guard := .vector false 0#5 9#8 } }) = true ∧
    codes 0x2C7 0 0 0 (.gsync c0) = true ∧ codes 0x2C8 0 0 0 (.join c0) = true ∧ codes 0x2C9 0 0 0 (.nop c0) = true ∧
    codes 0x2CB 0 0 0 (.yield c0) = true := by decide +kernel

/-- 20 R300; 21 R316, R337, R338; 22 R350, R371; 23 R387, R391, R392. -/
theorem test_words_system :
    codes 0x300 0 0 0 (.bkpt k0) = true ∧ codes 0x301 0 0 0 (.dflush k0) = true ∧ codes 0x304 0 0 0 (.iret k0) = true ∧
    codes 0x302 0x14 0 0 (.fltrd { k0 with d := .v 20 }) = true ∧
    codes 0x303 0x0005_4400 0x0200_0000 1 (.fmtset { k0 with a := .imm, mod := 1#7, kimm := 1#32 }) = true ∧
    codes 0x307 0x0005_4401 0 0 (.movsr { k0 with d := .v 1, a := .imm }) = true ∧
    codes 0x307 0x0005_453A 0 0x22 (.movsr { k0 with d := .s 58, a := .imm, kimm := 0x22#32 }) = true ∧
    codes 0x309 0x13A5_4400 0 0x22 (.setsr { k0 with a := .imm, b := .s 58, kimm := 0x22#32 }) = true ∧
    codes 0x308 0x1500_5003 0x0200_0000 0 (.pgmap { opM (.v 3) (.v 20) .zero (.v 0) with mod := 1#7 }) = true ∧
    codes 0x30A 0x0005_4400 0 7 (.trap { k0 with a := .imm, kimm := 7#32 }) = true ∧
    codes 0x30A 0 0x0200_0000 0 (.trapEsc { k0 with mod := 1#7 }) = true := by decide +kernel

/-! ## Ill-formed terms, one for each check -/

/-- Terms whose encoding a check refuses, with its name. -/
theorem test_refused :
    (Instr.fadd .f32 { r0 with h := bareHdr 7 }).reject? = some .roundingCode ∧
    (Instr.fence { k0 with h := bareHdr 5, mod := 1#7 }).reject? = some .scopeCode ∧
    (Instr.and .s32 r0).reject? = some .typeCode ∧
    (Instr.and .b32 { r0 with c := .v 1 }).reject? = some .fieldNotZero ∧
    (Instr.imax .s32 { r0 with h := { h0 with sat := true } }).reject? = some .satNotAllowed ∧
    (Instr.iadd .s32 { r0 with h := { h0 with wbs := true } }).reject? = some .wbsNotAllowed ∧
    (Instr.mapres { bareR { bareHdr 0 with hold := true } (.s 10) .imm (.v 0) with imm := 2#32 }).reject? = some .holdNotAllowed ∧
    (Instr.iadd .s32 { r0 with ma := 15#4 }).reject? = some .mapSelector ∧
    (Instr.iadd .s32 { r0 with ta := true }).reject? = some .transposeNoSelector ∧
    (Instr.and .b32 { r0 with mod := 1#7 }).reject? = some .signBitOnBType ∧
    (Instr.faddSweep .f32 { s0 with count := 0#12 }).reject? = some .countZero ∧
    (Instr.icmp .s32 { r0 with mod := 0x60#7 }).reject? = some .reservedValue ∧
    (Instr.nop { c0 with h := vg 0 2 }).reject? = some .guardField ∧
    ¬ WellFormed (.iadd .s32 { r0 with a := .bad 5#10 }) ∧ WellFormed (.iadd .s32 r0) ∧
    ¬ WellFormed (.reservedEncoding 0#128) := by
  unfold WellFormed; decide +kernel

def refuses (w0 w1 w2 w3 : BitVec 32) (r : Reject) : Bool :=
  match decode (wordOf w0 w1 w2 w3) with
  | .ok _ => false
  | .error x => x == r
/-- The words that the parse itself refuses (14 R252, R259, R262, R264): opcode 0, set dash bits, and a guard of GK 11. -/
theorem test_refused_words :
    refuses 0 0 0 0 .reservedOpcode = true ∧ refuses 0x3FF 0 0 0 .reservedOpcode = true ∧
    refuses 0x1820 0x8020_0403 0 0 .dashBits = true ∧ refuses 0x0903_1820 0x0020_0403 0 0 .guardField = true := by
  decide +kernel

/-! ## Decoding, steps and invariants -/

theorem wit_DecodeAndEncodeAgree :
    WellFormed (.ldl { opM (.v 40) (.s 44) .zero (.v 0) with ma := 2#4, mod := 0x1C#7 }) ∧
    ∃ i, decode (wordOf 0x14C 0x1504_B028 0x3800_0800 0) = .ok i :=
  ⟨by unfold WellFormed; decide +kernel, .ldl { opM (.v 40) (.s 44) .zero (.v 0) with ma := 2#4, mod := 0x1C#7 }, by rfl⟩

/-- A NOP and a reserved encoding at the PC, their step due; and a split that has halted. -/
def fetchS (w : Nat) : State := { State.reset.withFetchWord 128 w with cores := p0.cores }
/-- A split that may issue, and one that may not; a word that decodes, and one that does not. -/
theorem wit_StepRunsTheDecodedInstruction_1 :
    (fetchS 0x2C9).turns = .issue 3 4 .memory (.first []) :: [] ∧
    (placed { fetchS 0x2C9 with turns := [] } fun g p _ => issuable { fetchS 0x2C9 with turns := [] } g p (.first [])) = true ∧
    (let s := withF fun p => { p with halted := true }; placed s fun g p _ => !issuable s g p (.first [])) = true ∧
    (∀ w ∈ [0x2C9, 0], let s := beforeFetch { fetchS w with turns := [] } 3 4
      placed s (fun g p c => match fetchAt s g.core g.quarter c p.pc .memory p.refetch g.inHandler with
        | (.word x, _) => (match decode x with | .ok _ => w != 0 | .error _ => w == 0)
        | _ => false) = true) := by decide +kernel
/-- A fetch that brings no word, and a PC that no instruction has. -/
theorem wit_StepRunsTheDecodedInstruction_3 :
    fetched { p0 with badGranules := [0x80] } (fun | .word _ => false | _ => true) = true ∧
    (let s := beforeFetch (withF fun p => { p with pc := 0x2000_1008#64 }) 3 4
     placed s fun g p c => decide (p.pc.toNat % 16 ≠ 0) && (bufInstr s g.core g.quarter c.num p.pc.toNat).isNone) = true := by
  decide +kernel
/-- The oldest split, beside one that issued later. -/
theorem wit_StepRunsTheDecodedInstruction_4 :
    let s := withG fun g => { g with splits := [{ f0 with members := 1#64 }, { f0 with sid := 5, members := 2#64, stamp := 9 }] }
    placed s (fun g p _ => issuable s g p (.first []) && !g.repro && p.chainLen == 0 && g.splits.any fun q =>
      q.sid != p.sid && mayIssue s g q && !yieldHolds s q && decide (p.stamp < q.stamp)) = true := by decide +kernel
/-- The second of a pair in a clk, beside the split that has issued and one of a later stamp. -/
theorem wit_StepRunsTheDecodedInstruction_5 :
    let s := { withG (fun g => { g with splits := [{ f0 with members := 1#64 }, { f0 with sid := 5, members := 2#64, stamp := 9 },
        { f0 with sid := 6, members := 4#64, stamp := 5 }] }) with clock := 9#64 }
    placed s (fun g p _ => issuable s g p (.second []) && !g.repro && p.chainLen == 0 && g.splits.any fun q =>
      q.sid != p.sid && mayIssue s g q && decide (p.stamp < q.stamp)) = true := by decide +kernel
theorem wit_StepRunsTheDecodedInstruction_2 :
    (0x2000_1000#64).toNat % 16 = 0 ∧ inFabric Probe.context 0x2000_1000#64 = false ∧
    (match translate p0 0 Probe.context 0x2000_1000#64 .fetch false with
      | (.ok pa, s2) => (badGranule? s2 pa 16).isNone && !tornUnit s2 0 pa
      | _ => false) = true := by decide +kernel

/-- The invariants hold where a step answers next. -/
theorem wit_StepsKeep :
    memWf (fetchS 0x2C9).mem = true ∧ memWf (fetchS 0x2C9).remote = true ∧ spadsOk (fetchS 0x2C9) = true ∧
    idsOk (fetchS 0x2C9) = true ∧ (match step (fetchS 0x2C9) with | .next _ => true | _ => false) = true := by decide +kernel

/-! ## Worked cases of the manual -/

/-- Words of v1 and v2 in every lane. -/
def twoS (a b : Word) : State :=
  withG fun g => { g with vregs := (g.vregs.set 1 (LaneVec.ofFn fun _ => a)).set 2 (LaneVec.ofFn fun _ => b) }
/-- Lane `l` of vector register `d` after an instruction. -/
def laneOf (i : Instr) (s : State) (d l : Nat) : Word :=
  match exec i s with
  | .next t => ((groupOf t 3).map fun g => (g.vregs.getD d LaneVec.zero).get l).getD 0xDEAD#32
  | _ => 0xDEAD#32
def r1 : RFmt := { r0 with b := .v 0 }
def rImm (n : Word) : RFmt := { r0 with b := .imm, imm := n }

/-- 22, the table of R346; lane 63. -/
theorem test_integer_add_mul :
    laneOf (.iadd .s32 r0) (twoS 0x7FFF_FFF0 0x20) 3 63 = 0x8000_0010#32 ∧
    laneOf (.iadd .s32 { r0 with h := { h0 with sat := true } }) (twoS 0x7FFF_FFF0 0x20) 3 63 = 0x7FFF_FFFF#32 ∧
    laneOf (.isub .b32 { r0 with h := { h0 with sat := true } }) (twoS 0x10 0x20) 3 63 = 0#32 ∧
    laneOf (.imul .s32 r0) (twoS 0x1_0000 0x1_0000) 3 63 = 0#32 ∧ laneOf (.imulh .s32 r0) (twoS 0x1_0000 0x1_0000) 3 63 = 1#32 ∧
    laneOf (.imulh .b32 r0) (twoS 0xFFFF_FFFF 0xFFFF_FFFF) 3 63 = 0xFFFF_FFFE#32 ∧
    laneOf (.imulh .s32 r0) (twoS 0xFFFF_FFFF 0xFFFF_FFFF) 3 63 = 0#32 := by decide +kernel
theorem test_integer_compare :
    laneOf (.icmp .s32 { r0 with mod := 0x20#7 }) (twoS 0xFFFF_FFFF 1) 3 0 = 1#32 ∧
    laneOf (.icmp .b32 { r0 with mod := 0x20#7 }) (twoS 0xFFFF_FFFF 1) 3 0 = 0#32 := by decide +kernel
/-- 22, R347: LEA of v6d and v8. -/
theorem test_lea :
    let s := withG fun g => { g with vregs := ((g.vregs.set 6 (LaneVec.ofFn fun _ => 0xF000#32)).set 7
      (LaneVec.ofFn fun _ => 0x40#32)).set 8 (LaneVec.ofFn fun _ => 0xFFFF_FFFF#32) }
    let f : RFmt := { bareR h0 (.v 4) (.v 6) (.v 8) with c := .imm, imm := 2#32 }
    laneOf (.lea .s64 f) s 4 5 = 0xEFFC#32 ∧ laneOf (.lea .s64 f) s 5 5 = 0x40#32 ∧
    laneOf (.lea .b64 f) s 4 5 = 0xEFFC#32 ∧ laneOf (.lea .b64 f) s 5 5 = 0x44#32 := by decide +kernel
/-- 20, the table of R292. -/
theorem test_integer_bits :
    let s := twoS 0xF50 0
    laneOf (.bfe .s32 (rImm 0x604)) s 3 0 = 0xFFFF_FFF5#32 ∧ laneOf (.bfe .b32 (rImm 0x604)) s 3 0 = 0x35#32 ∧
    laneOf (.bfe .b32 (rImm 0x3020)) s 3 0 = 0#32 ∧ laneOf (.andn .b32 (rImm 0xFF)) s 3 0 = 0xF00#32 ∧
    laneOf (.brev .b32 r1) s 3 0 = 0x0AF0_0000#32 ∧ laneOf (.clz .b32 r1) s 3 0 = 20#32 ∧
    laneOf (.popc .b32 r1) s 3 0 = 6#32 ∧
    laneOf (.bfi .b32 { r0 with c := .imm, imm := 0x408#32 }) (twoS 0x2A 0xFFFF_FFFF) 3 0 = 0xFFFF_FAFF#32 := by decide +kernel
/-- 23, the table of R378. -/
theorem test_integer_shifts :
    let p (n : Word) : RFmt := { r0 with c := .imm, imm := n }
    let s := twoS 0x4433_2211 0x8877_6655
    let t := twoS 0x8000_0001 0xF0
    let u := twoS 0xFFFF_FF80 0
    laneOf (.prmt .b32 (p 0x0001_0203)) s 3 0 = 0x1122_3344#32 ∧ laneOf (.prmt .b32 (p 0x1717_1707)) s 3 0 = 0xFFFF_FF88#32 ∧
    laneOf (.prmt .b32 (p 0x0808_0820)) s 3 0 = 0x88#32 ∧ laneOf (.shf .b32 (p 4)) t 3 0 = 0xF08#32 ∧
    laneOf (.shf .b32 { p 4 with mod := 0x40#7 }) t 3 0 = 0x0800_0000#32 ∧
    laneOf (.shf .b32 { p 1 with b := .v 1 }) t 3 0 = 3#32 ∧ laneOf (.sar .s32 (rImm 4)) u 3 0 = 0xFFFF_FFF8#32 ∧
    laneOf (.sar .s32 (rImm 40)) u 3 0 = 0xFFFF_FFFF#32 ∧ laneOf (.shr .b32 (rImm 4)) u 3 0 = 0x0FFF_FFF8#32 ∧
    laneOf (.shl .b32 (rImm 32)) u 3 0 = 0#32 := by decide +kernel

/-- The split and the values of R361's worked case. -/
def lanesS (em : DWord) (f : Nat → Nat) (b : Nat → Nat) : State :=
  withG fun g => { g with
    vregs := (g.vregs.set 1 (LaneVec.ofFn fun l => BitVec.ofNat 32 (f l))).set 9 (LaneVec.ofFn fun l => BitVec.ofNat 32 (b l))
    splits := [{ f0 with em }] }
def laneList (i : Instr) (s : State) (d n : Nat) : List Nat := (List.range n).map fun l => (laneOf i s d l).toNat

theorem test_reductions :
    let s := lanesS 0xFF (fun l => [3, 1, 4, 1, 5, 9, 2, 6].getD l 7) (fun _ => 0)
    laneList (.lred .s32 r1) s 3 9 = [31, 31, 31, 31, 31, 31, 31, 31, 0] ∧
    laneList (.lscan .s32 r1) s 3 9 = [3, 4, 8, 9, 14, 23, 25, 31, 0] ∧
    laneList (.lscan .s32 { r1 with mod := 0x40#7 }) s 3 8 = [0, 3, 4, 8, 9, 14, 23, 25] ∧
    laneList (.matchLanes .b32 { r1 with d := .v 4 }) s 4 8 = [0x01, 0x0A, 0x04, 0x0A, 0x10, 0x20, 0x40, 0x80] ∧
    laneList (.iadd .s32 { r1 with b := .zero, ma := 14#4 }) s 3 1 = [423] := by decide +kernel
/-- R382's. -/
theorem test_votes :
    let s := lanesS 0x3F (fun l => [7, 3, 7, 9, 3, 7].getD l (10 * l)) (fun l => [0, 1, 0, 1, 1].getD l 0)
    let v (op d : Nat) : Word :=
      ((groupOf (after (.vote .b32 { bareR h0 (.s 6) (.v 9) .zero with mod := BitVec.ofNat 7 (4 * op) }) s) 3).map fun g =>
        g.sregs.getD d 0#32).getD 0#32
    let sh (mod : BitVec 7) (n : Word) := laneList (.shfl .b32 { rImm n with d := .v 2, mod }) s 2 6
    laneList (.part .b32 r1) s 3 6 = [0x3_0000, 0x3_0001, 0x3_0100, 0x3_0002, 0x3_0101, 0x3_0200] ∧
    v 1 6 = 1#32 ∧ v 2 6 = 0#32 ∧ v 3 6 = 0x1A#32 ∧ v 3 7 = 0#32 ∧ v 4 6 = 3#32 ∧ v 5 6 = 1#32 ∧
    sh 0x10 1 = [3, 7, 9, 3, 7, 60] ∧ sh 0x20 0x27F = [150, 7, 3, 7, 9, 3] ∧ sh 0 0x305 = [7, 7, 7, 7, 7, 7] := by decide +kernel
/-- 23, R383. -/
theorem test_rng :
    let s := withG fun g => { g with
      vregs := g.vregs.set 1 (LaneVec.ofFn fun _ => 9#32), sregs := g.sregs.set 21 1#32 }
    laneOf (.rng { bareR h0 (.v 2) (.s 20) (.v 1) with c := .s 21 }) s 2 0 = 0x345C_4ACF#32 := by decide +kernel
/-- 20, the table of R314, with v5 = 0x1122_3344. -/
theorem test_conversions :
    let c (t : CvtTy) (m : BitVec 7) (a : Word) :=
      let s := twoS a 0; laneOf (.cvt t { bareR (bareHdr 0) (.v 2) (.v 1) (.v 0) with mod := m })
        (withG fun g => { g with vregs := ((groupOf s 3).map Group.vregs).getD [] |>.set 2 (LaneVec.ofFn fun _ => 0x1122_3344#32) }) 2 0
    c .f32 7 0xC020_0000 = 0x1122_33FE#32 ∧ c .f32 7 0x4396_0000 = 0x1122_337F#32 ∧ c .s32 7 0x181 = 0x1122_3381#32 ∧
    c .s8 9 0x81 = 0xFFFF_FF81#32 ∧ c .f32 6 0x447A_0000 = 0x1122_3388#32 ∧ c .f16 0 1 = 0x3380_0000#32 := by decide +kernel
/-- 21, after R327: both positions of 0xFC00_0001. -/
theorem test_fclass : laneOf (.fclass .f16x2 { r1 with h := bareHdr 0 }) (twoS 0xFC00_0001 0) 3 0 = 0x0001_0020#32 := by decide +kernel

end Sys2Proof.Tests
end

section
/-!
SUPPORT. Writes of special registers: what retiring an instruction makes of them, what SETSR and FMTSET leave in the register
they write (23 R392, R393; 21 R338, R339), and the obligation about both.
-/
namespace Sys2Proof.Machine

/-! ## Retiring behind a write of special registers -/

/-- The group that retiring leaves of `g`, in which the issuing split stands at `p` (`retire_eq`). -/
def groupRetired (u : Iss) (g : Group) (p : Split) : Group :=
  { setSplit (retiredGroup u g) (retiredSplit u true p) with
    bpDue := breakOwed u g.bpDue (retiredSplit u true p).pc }

@[simp] theorem groupRetired_status (u : Iss) (g : Group) (p : Split) : (groupRetired u g p).status = g.status := rfl
@[simp] theorem groupRetired_srctr (u : Iss) (g : Group) (p : Split) : (groupRetired u g p).srctr = g.srctr := rfl
@[simp] theorem groupRetired_srseed (u : Iss) (g : Group) (p : Split) : (groupRetired u g p).srseed = g.srseed := rfl

/-- The effect of an instruction, before it retires, has touched only its group and split, now `g` and `p`, and of them no
general register, no other split, and neither the PC nor the members: what `OnlyState` says, at the PC of the instruction. -/
structure StateWrite (u : Iss) (s' : State) (g : Group) (p : Split) : Prop where
  group : groupOf s' u.g.gid = some g
  split : splitOf g u.p.sid = some p
  machine : { s' with groups := u.s.groups } = u.s
  groups : ∀ n, n ≠ u.g.gid → groupOf s' n = groupOf u.s n
  splits : ∀ n, n ≠ u.p.sid → splitOf g n = splitOf u.g n
  vregs : g.vregs = u.g.vregs
  oregs : g.oregs = u.g.oregs
  sregs : g.sregs = u.g.sregs
  pc : p.pc = u.p.pc
  members : p.members = u.p.members

theorem onlyState_retire {u : Iss} {s' : State} {g : Group} {p : Split} (w : StateWrite u s' g p) :
    OnlyState u (retire s' u true) (groupRetired u g p) (retiredSplit u true p) := by
  have hgid : g.gid = u.g.gid := groupOf_gid w.group
  have hsid : p.sid = u.p.sid := splitOf_sid w.split
  rw [retire_eq w.group w.split]
  refine ⟨groupOf_setGroup w.group hgid, ?split, w.machine, ?groups, ?splits, w.vregs, w.oregs, w.sregs, ?pc, w.members⟩
  case split => exact splitOf_setSplit (g := retiredGroup u g) w.split hsid
  case groups =>
    intro n hn
    exact (groupOf_setGroup_other (g := groupRetired u g p) (fun h => hn (h.trans hgid))).trans (w.groups n hn)
  case splits =>
    intro n hn
    exact (splitOf_setSplit_other (g := retiredGroup u g) (p := retiredSplit u true p)
      (fun h => hn (h.trans hsid))).trans (w.splits n hn)
  case pc => exact congrArg (· + 16#64) w.pc

/-- Retiring changes no special register but LCLK. -/
theorem srValue_retired (u : Iss) (g : Group) (p : Split) (m l : Nat) (hm : m ≠ 0x16) :
    srValue { u with g := groupRetired u g p, p := retiredSplit u true p } m l = srValue { u with g, p } m l := by
  unfold srValue
  split
  case h_16 => exact absurd rfl hm
  all_goals rfl

section
variable {s : State} {i : Instr} {u : Iss} (h : issuer s i = some u)
include h

theorem stateWrite_none : StateWrite u u.s u.g u.p := by
  obtain ⟨rfl, -, -, hg, hp, -⟩ := issuer_state h
  exact ⟨hg, hp, rfl, fun _ _ => rfl, fun _ _ => rfl, rfl, rfl, rfl, rfl, rfl⟩

theorem stateWrite_group {g : Group} (hgid : g.gid = u.g.gid) (hsplits : g.splits = u.g.splits)
    (hv : g.vregs = u.g.vregs) (ho : g.oregs = u.g.oregs) (hs : g.sregs = u.g.sregs) :
    StateWrite u (setGroup u.s g) g u.p := by
  obtain ⟨rfl, -, -, hg, hp, -⟩ := issuer_state h
  have hsame : ∀ n, splitOf g n = splitOf u.g n := fun n => by rw [splitOf, hsplits, splitOf]
  exact ⟨groupOf_setGroup hg hgid, (hsame _).trans hp, rfl,
    fun n hn => groupOf_setGroup_other (fun e => hn (e.trans hgid)), fun n _ => hsame n, hv, ho, hs, rfl, rfl⟩

theorem stateWrite_split {p : Split} (hsid : p.sid = u.p.sid) (hpc : p.pc = u.p.pc) (hm : p.members = u.p.members) :
    StateWrite u (setGroup u.s (setSplit u.g p)) (setSplit u.g p) p := by
  obtain ⟨rfl, -, -, hg, hp, -⟩ := issuer_state h
  exact ⟨groupOf_setGroup hg rfl, splitOf_setSplit hp hsid, rfl, fun n hn => groupOf_setGroup_other hn,
    fun n hn => splitOf_setSplit_other (fun e => hn (e.trans hsid)), rfl, rfl, rfl, hpc, hm⟩

theorem updGroup_issuer (f : Group → Group) : updGroup u.s u.g.gid f = setGroup u.s (f u.g) := by
  obtain ⟨rfl, -, -, hg, -, -⟩ := issuer_state h
  exact updGroup_eq hg f

theorem updSplit_issuer (f : Split → Split) : updSplit u.s u.g.gid u.p.sid f = setGroup u.s (setSplit u.g (f u.p)) := by
  obtain ⟨rfl, -, -, hg, hp, -⟩ := issuer_state h
  exact updSplit_eq hg hp f

end

/-! ## The value each register takes -/

/-- FMT as SETSR writes it: W32 above the eight bits of the source. -/
theorem fmtWrite_eq_append (old : BitVec 9) (a : Word) :
    fmtWrite old a = old.extractLsb' 8 1 ++ a.extractLsb' 0 8 := by
  apply BitVec.eq_of_getLsbD_eq
  intro k hk
  simp only [fmtWrite, BitVec.getLsbD_or, BitVec.getLsbD_and, BitVec.getLsbD_append, BitVec.getLsbD_extractLsb',
    BitVec.getLsbD_setWidth]
  interval_cases k <;> simp

theorem fmtWrite_toNat (old : BitVec 9) (v : Nat) :
    (fmtWrite old (BitVec.ofNat 32 v)).toNat = old.toNat / 256 * 256 + v % 256 := by
  have hlow : v % 2 ^ 32 % 2 ^ 8 = v % 256 := Nat.mod_mod_of_dvd v (by norm_num)
  have hhigh : old.toNat / 2 ^ 8 % 2 ^ 1 = old.toNat / 256 := by have := old.isLt; omega
  rw [fmtWrite_eq_append, BitVec.toNat_append, BitVec.extractLsb'_toNat, BitVec.extractLsb'_toNat, BitVec.toNat_ofNat,
    Nat.shiftRight_zero, Nat.shiftRight_eq_div_pow, hlow, hhigh,
    ← Nat.shiftLeft_add_eq_or_of_lt (Nat.mod_lt v (by norm_num)), Nat.shiftLeft_eq]

/-- A write to clear takes the low six bits of its source. -/
theorem clearFlags_status (g : Group) (v : Nat) :
    (clearFlags g (BitVec.ofNat 32 v)).status = g.status &&& ~~~BitVec.ofNat 6 v := by
  have : (BitVec.ofNat 32 v).extractLsb' 0 6 = BitVec.ofNat 6 v := by
    rw [← BitVec.setWidth_eq_extractLsb' (by norm_num), BitVec.setWidth_ofNat_of_le (by norm_num)]
  rw [clearFlags, this]

/-- TRAPCAUSE takes all bits but bit 31, which is reserved. -/
theorem trapcause_toNat (v : Nat) : (BitVec.ofNat 32 v &&& 0x7FFF_FFFF#32).toNat = v % 2 ^ 31 := by
  rw [BitVec.toNat_and, BitVec.toNat_ofNat, show (0x7FFF_FFFF#32).toNat = 2 ^ 31 - 1 from rfl,
    Nat.and_two_pow_sub_one_eq_mod]
  exact Nat.mod_mod_of_dvd v (by norm_num)

theorem mergeLanes_get (m : Lanes) (old : LaneVec) (new : Nat → Word) (l : Nat) (hl : l < 64) :
    (mergeLanes m old new).get l = if m.has l then new l else old.get l :=
  LaneVec.get_ofFn _ l hl

/-! ## SETSR -/

/-- In `s'`, before the instruction retires, special register `n` holds `val l` in lane `l`, and no other has changed. -/
def SetsSr (u : Iss) (n : Nat) (val : Nat → Nat) (s' : State) : Prop :=
  ∃ g p, StateWrite u s' g p ∧ (∀ l < 64, srValue { u with g, p } n l = val l) ∧
    ∀ m, m ≠ n → ∀ l, srValue { u with g, p } m l = srValue u m l

theorem SetsSr.retire {u : Iss} {n : Nat} {val : Nat → Nat} {s' : State} (hn : n ≠ 0x16) (w : SetsSr u n val s') :
    ∃ g' p', OnlyState u (retire s' u true) g' p' ∧ (∀ l < 64, srValue { u with g := g', p := p' } n l = val l) ∧
      ∀ m, m ≠ n → m ≠ 0x16 → ∀ l, srValue { u with g := g', p := p' } m l = srValue u m l := by
  obtain ⟨g, p, hw, hval, hframe⟩ := w
  exact ⟨_, _, onlyState_retire hw, fun l hl => (srValue_retired u g p n l hn).trans (hval l hl),
    fun m hm hlclk l => (srValue_retired u g p m l hlclk).trans (hframe m hm l)⟩

/-- The registers SETSR may write: all but SRCTR hold one value for the split. -/
theorem srWritable_cases {n : Nat} (h : srWritable n = true) :
    n = 0x12 ∨ srKind n ≠ .v32 ∧
      (n = 0x0A ∨ n = 0x0C ∨ n = 0x0D ∨ n = 0x10 ∨ n = 0x20 ∨ n = 0x22 ∨ n = 0x24) := by
  have hmem : n ∈ [0x0A, 0x0C, 0x0D, 0x10, 0x12, 0x20, 0x22, 0x24] := by simpa [srWritable] using h
  clear h
  revert n
  decide

/-- SETSR of a register that holds one value for the split (23 R393). -/
theorem setsrUniform_setsSr {s : State} {i : Instr} {u : Iss} (h : issuer s i = some u) {n : Nat} (v : Nat)
    (hn : n = 0x0A ∨ n = 0x0C ∨ n = 0x0D ∨ n = 0x10 ∨ n = 0x20 ∨ n = 0x22 ∨ n = 0x24)
    (hfmt : n = 0x0C → fmtValid (fmtWrite u.p.fmt (BitVec.ofNat 32 v)) = true) :
    ∃ s', setsrUniform u n v = .done s' ∧ SetsSr u n (setsrLeaves u n v) s' := by
  have h32 : (BitVec.ofNat 64 v).setWidth 32 = BitVec.ofNat 32 v := BitVec.setWidth_ofNat_of_le (by norm_num) v
  simp only [setsrUniform, h32, updGroup_issuer h, updSplit_issuer h]
  rcases hn with rfl | rfl | rfl | rfl | rfl | rfl | rfl
  case' inl => -- EM
    refine ⟨_, rfl, _, _, stateWrite_split h rfl rfl rfl, fun _ _ => rfl, ?frame⟩
  case' inr.inl => -- FMT
    refine ⟨_, if_pos (hfmt rfl), _, _, stateWrite_split h rfl rfl rfl, fun _ _ => fmtWrite_toNat u.p.fmt v, ?frame⟩
  case' inr.inr.inl => -- STATUS
    refine ⟨_, rfl, _, _, stateWrite_group h rfl rfl rfl rfl rfl,
      fun _ _ => congrArg BitVec.toNat (clearFlags_status u.g v), ?frame⟩
  case' inr.inr.inr.inl => -- SRSEED
    refine ⟨_, rfl, _, _, stateWrite_group h rfl rfl rfl rfl rfl, fun _ _ => BitVec.toNat_ofNat v 64, ?frame⟩
  case' inr.inr.inr.inr.inl => -- TRAPCAUSE
    refine ⟨_, rfl, _, _, stateWrite_group h rfl rfl rfl rfl rfl, fun _ _ => trapcause_toNat v, ?frame⟩
  case' inr.inr.inr.inr.inr.inl => -- TRAPPC
    refine ⟨_, rfl, _, _, stateWrite_group h rfl rfl rfl rfl rfl, fun _ _ => BitVec.toNat_ofNat v 64, ?frame⟩
  case' inr.inr.inr.inr.inr.inr => -- TRAPMASK
    refine ⟨_, rfl, _, _, stateWrite_group h rfl rfl rfl rfl rfl, fun _ _ => BitVec.toNat_ofNat v 64, ?frame⟩
  -- The field written is read by no other register.
  all_goals
    intro m hm l
    unfold srValue
    split <;> simp_all [clearFlags]

theorem readNat_lane (u : Iss) (b : Opnd) (l : Nat) :
    readNat u 0#64 false b l = (readWord u 0#32 b l).toNat := by
  cases b <;> rfl

/-- SETSR of SRCTR, which each lane has of its own (23 R393). -/
theorem setsrCtr_setsSr {s : State} {i : Instr} {u : Iss} (h : issuer s i = some u) (b : Opnd) :
    SetsSr u 0x12 (fun l => setsrLeaves u 0x12 (readNat u 0#64 false b l) l)
      (setGroup u.s { u.g with srctr := mergeLanes (active u) u.g.srctr (readWord u 0#32 b) }) := by
  refine ⟨_, _, stateWrite_group h rfl rfl rfl rfl rfl, fun l hl => ?value, fun m hm l => ?frame⟩
  case value =>
    have hlt := (readWord u 0#32 b l).isLt
    simp only [srValue, setsrLeaves, readNat_lane, mergeLanes_get _ _ _ l hl, Nat.mod_eq_of_lt hlt,
      apply_ite BitVec.toNat]
  case frame =>
    unfold srValue
    split <;> simp_all

theorem setsSr_none {s : State} {i : Instr} {u : Iss} (h : issuer s i = some u) (n : Nat) :
    SetsSr u n (srValue u n) u.s :=
  ⟨_, _, stateWrite_none h, fun _ _ => rfl, fun _ _ _ => rfl⟩

/-- The value of SETSR's source in lane `l`. -/
def setsrSource (u : Iss) (f : KFmt) (l : Nat) : Nat :=
  readNat u 0#64 (srKind (bits f.kimm 0 8) == .u64) f.b l

/-- What SETSR makes of its register in lane `l`: a register of the split takes one value, unless its guard is false. -/
def setsrResult (u : Iss) (f : KFmt) (l : Nat) : Nat :=
  let n := bits f.kimm 0 8
  if srKind n = .v32 ∨ scalarGuard u.g f.h.guard = true then
    setsrLeaves u n (setsrSource u f (if srKind n = .v32 then l else 0)) l
  else srValue u n l

section
variable {f : KFmt} {s : State} {u : Iss} (h : issuer s (.setsr f) = some u) (hc : clear u = true)
  (hok : (f.a == .imm && srWritable (bits f.kimm 0 8) && setsrSrc u.g (srKind (bits f.kimm 0 8)) f.b) = true)
  (hguard : srKind (bits f.kimm 0 8) ≠ .v32 → guardIsVector f.h.guard = false)
include h hc hok hguard

/-- SETSR's effect, its operands and its guard allowed. -/
theorem exec_setsr : exec (.setsr f) s = .next (commit u
    (if srKind (bits f.kimm 0 8) = .v32 then
      .done (setGroup u.s { u.g with srctr := mergeLanes (active u) u.g.srctr (readWord u 0#32 f.b) })
     else if (!scalarGuard u.g f.h.guard) = true then .done u.s
     else setsrUniform u (bits f.kimm 0 8) (setsrSource u f 0))) := by
  have hexec : exec (.setsr f) s = execSetsr f s := rfl
  have hlegal : (f.a != .imm || !(srWritable (bits f.kimm 0 8) && setsrSrc u.g (srKind (bits f.kimm 0 8)) f.b) ||
      (srKind (bits f.kimm 0 8) != .v32 && guardIsVector f.h.guard)) = false := by
    by_cases hk : srKind (bits f.kimm 0 8) = .v32 <;> simp_all [bne]
  rw [hexec, execSetsr, runInstr_next h hc]
  simp only [hlegal, Bool.false_eq_true, if_false]
  rfl

/-- SETSR leaves `setsrResult` in its register and every other special register as it was. -/
theorem exec_setsr_setsSr
    (hfmt : bits f.kimm 0 8 = 0x0C → fmtValid (fmtWrite u.p.fmt (BitVec.ofNat 32 (setsrSource u f 0))) = true) :
    ∃ s', exec (.setsr f) s = .next (retire s' u true) ∧ SetsSr u (bits f.kimm 0 8) (setsrResult u f) s' := by
  have hw : srWritable (bits f.kimm 0 8) = true :=
    (Bool.and_eq_true_iff.mp (Bool.and_eq_true_iff.mp hok).1).2
  rw [exec_setsr h hc hok hguard]
  rcases srWritable_cases hw with hn | ⟨hk, hn⟩
  case inl =>
    have hk : srKind (bits f.kimm 0 8) = .v32 := by rw [hn]; rfl
    have hres : setsrResult u f = fun l => setsrLeaves u 0x12 (readNat u 0#64 false f.b l) l := by
      funext l
      simp only [setsrResult, setsrSource, hn]
      rfl
    rw [if_pos hk, hn, hres]
    exact ⟨_, rfl, setsrCtr_setsSr h f.b⟩
  case inr =>
    rw [if_neg hk]
    cases hsg : scalarGuard u.g f.h.guard with
    | false =>
      have hres : setsrResult u f = srValue u (bits f.kimm 0 8) := by
        funext l
        simp [setsrResult, hk, hsg]
      rw [hres]
      exact ⟨u.s, rfl, setsSr_none h _⟩
    | true =>
      have hres : setsrResult u f = setsrLeaves u (bits f.kimm 0 8) (setsrSource u f 0) := by
        funext l
        simp [setsrResult, hk, hsg]
      obtain ⟨s', heff, hset⟩ := setsrUniform_setsSr h (setsrSource u f 0) hn hfmt
      rw [hres, heff]
      exact ⟨s', rfl, hset⟩

end

/-! ## FMTSET -/

/-- The bit of MOD that selects bit `i` of FMT (21 R338). -/
def fmtField (i : Nat) : Nat := if i < 3 then 0 else if i = 3 then 1 else if i = 4 then 2 else if i < 7 then 3 else 4

theorem fmtMask_getLsbD (m : BitVec 7) (i : Nat) (hi : i < 9) :
    (fmtMask m).getLsbD i = (decide (i < 8) && m.getLsbD (fmtField i)) := by
  simp only [fmtMask, BitVec.getLsbD_or, apply_ite (BitVec.getLsbD · i)]
  interval_cases i <;> simp [fmtField]

/-- The value FMTSET gives FMT from the number `a` of its source. -/
def fmtsetValue (old : BitVec 9) (m : BitVec 7) (a : Nat) : BitVec 9 :=
  (old &&& ~~~fmtMask m) ||| (BitVec.ofNat 9 a &&& fmtMask m)

theorem fmtsetValue_getLsbD (old : BitVec 9) (m : BitVec 7) (a i : Nat) (hi : i < 9) :
    (fmtsetValue old m a).getLsbD i =
      if i < 8 ∧ m.getLsbD (fmtField i) = true then a.testBit i else old.getLsbD i := by
  have hsel := fmtMask_getLsbD m i hi
  simp only [fmtsetValue, BitVec.getLsbD_or, BitVec.getLsbD_and, BitVec.getLsbD_not, BitVec.getLsbD_ofNat, hsel, hi,
    decide_true, Bool.true_and]
  by_cases h : i < 8 ∧ m.getLsbD (fmtField i) = true
  · simp [h]
  · have hoff : (decide (i < 8) && m.getLsbD (fmtField i)) = false := by
      rw [Bool.eq_false_iff]; simpa using h
    simp [h, hoff]

theorem fmtValid_iff (f : BitVec 9) : fmtValid f = true ↔ bits f 0 3 < 6 ∧ bits f 5 2 < 3 := by
  rw [fmtValid, Bool.and_eq_true, decide_eq_true_eq, decide_eq_true_eq]
  rfl

/-- The new FMT of an FMTSET. -/
def fmtsetNew (u : Iss) (f : KFmt) : BitVec 9 :=
  fmtsetValue u.p.fmt f.mod (readNat u (f.kimm.zeroExtend 64) false f.a 0)

section
variable {f : KFmt} {s : State} {u : Iss} (h : issuer s (.fmtset f) = some u) (hc : clear u = true)
  (ha : siOk f.a = true) (hg : guardIsVector f.h.guard = false)
include h hc ha hg

/-- FMTSET's effect, its operands allowed: nothing where its guard is false, else it writes FMT or traps. -/
theorem exec_fmtset : exec (.fmtset f) s = .next (commit u
    (if (!scalarGuard u.g f.h.guard) = true then .done u.s
     else if fmtValid (fmtsetNew u f) = true then
      .done (updSplit u.s u.g.gid u.p.sid fun p => { p with fmt := fmtsetNew u f })
     else operandIllegal u)) := by
  have hexec : exec (.fmtset f) s = execFmtset f s := rfl
  have hlegal : (!siOk f.a || guardIsVector f.h.guard) = false := by simp [ha, hg]
  rw [hexec, execFmtset, runInstr_next h hc]
  simp only [hlegal, Bool.false_eq_true, if_false]
  rfl

/-- FMTSET leaves FMT as it selects, or as it was where its guard is false, and no other register changed. -/
theorem exec_fmtset_next (hw : scalarGuard u.g f.h.guard = false ∨ fmtValid (fmtsetNew u f) = true) :
    ∃ t g' p', exec (.fmtset f) s = .next t ∧ OnlyState u t g' p' ∧
      p'.fmt = (if scalarGuard u.g f.h.guard then fmtsetNew u f else u.p.fmt) ∧ p'.em = u.p.em ∧
      g'.status = u.g.status ∧ g'.srctr = u.g.srctr ∧ g'.srseed = u.g.srseed := by
  rw [exec_fmtset h hc ha hg]
  cases hsg : scalarGuard u.g f.h.guard with
  | false =>
    exact ⟨_, _, _, rfl, onlyState_retire (stateWrite_none h), (if_neg Bool.false_ne_true).symm, rfl, rfl, rfl, rfl⟩
  | true =>
    have hvalid : fmtValid (fmtsetNew u f) = true := hw.resolve_left (by simp [hsg])
    rw [updSplit_issuer h, if_neg (by decide), if_pos hvalid]
    have w := stateWrite_split h (p := { u.p with fmt := fmtsetNew u f }) rfl rfl rfl
    exact ⟨_, _, _, rfl, onlyState_retire w, (if_pos rfl).symm, rfl, by simp, by simp, by simp⟩

theorem exec_fmtset_rejected (hsg : scalarGuard u.g f.h.guard = true) (hbad : ¬ fmtValid (fmtsetNew u f) = true) :
    ∃ t, exec (.fmtset f) s = .next t ∧ Rejected u .operandIllegal t := by
  rw [exec_fmtset h hc ha hg, if_neg (by simp [hsg]), if_neg hbad]
  exact ⟨_, rfl, trapped_illegal u .operandIllegal⟩

end

/-- Settles O22: what either instruction writes is one replacement of its group in the state (`StateWrite`), behind which
retiring changes of the special registers LCLK alone (`srValue_retired`). -/
theorem specialRegisterWrites : Obligations.SpecialRegisterWrites := by
  unfold Obligations.SpecialRegisterWrites
  constructor
  · intro f s u h hc n k v hok hguard hfmt
    have hn : bits f.kimm 0 8 ≠ 0x16 := by
      intro e
      rw [show n = 0x16 from e] at hok
      simp [srWritable] at hok
    obtain ⟨s', hexec, hset⟩ := exec_setsr_setsSr h hc hok hguard hfmt
    obtain ⟨g', p', honly, hval, hframe⟩ := hset.retire hn
    exact ⟨_, g', p', hexec, honly, hval, hframe⟩
  · intro f s u h hc ha hg a new
    have hvalid : fmtValid (fmtsetNew u f) = true ↔ bits new 0 3 < 6 ∧ bits new 5 2 < 3 := fmtValid_iff new
    exact ⟨fun i hi => fmtsetValue_getLsbD u.p.fmt f.mod a i hi,
      fun hw => exec_fmtset_next h hc ha hg (hw.imp_right hvalid.mpr),
      fun hsg hbad => exec_fmtset_rejected h hc ha hg hsg (mt hvalid.mp hbad)⟩

end Sys2Proof.Machine
end

section
/-!
SUPPORT. ICMP and the format-I IADD (14 R254, 22 R347, R348): what the decoder's checks keep out, an unmapped source's code
whatever the rounding, and the obligation about both instructions.
-/
namespace Sys2Proof.Machine

/-! ## ICMP -/

/-- A decoded instruction passes every one of its encoding checks (14 R262). -/
theorem checks_of_decode {w : IWord} {i : Instr} (h : decode w = .ok i) : ∀ c ∈ i.checks, c.1 = true := by
  have hnone : i.reject? = none := by
    unfold decode at h
    cases hp : parse w with
    | error r => simp [hp] at h
    | ok j =>
      cases hr : j.reject? with
      | some r => simp [hp, hr] at h
      | none =>
        obtain rfl : j = i := by simpa [hp, hr] using h
        exact hr
  simpa [Instr.reject?, List.find?_eq_none] using hnone

/-- Condition codes 6 and 7 are reserved (22 R348). -/
theorem decode_icmp_condition {w : IWord} {t : IntTy} {f : RFmt} (h : decode w = .ok (.icmp t f)) :
    bits f.mod 4 3 < 6 := by
  have hmem : ck (bits f.mod 4 3 ≤ 5) .reservedValue ∈ (Instr.icmp t f).checks :=
    List.mem_append_right _ (List.mem_singleton.mpr rfl)
  have hle : bits f.mod 4 3 ≤ 5 := of_decide_eq_true (checks_of_decode h _ hmem)
  omega

/-- ICMP's result is 1 where its condition holds, and 0 where it does not. -/
theorem bitOf_icmpOp (cc : Nat) (a b : Int) :
    (icmpHolds cc a b → bitOf (icmpOp cc a b) = 1) ∧ (¬ icmpHolds cc a b → bitOf (icmpOp cc a b) = 0) := by
  rw [← icmp_spec]
  exact ⟨fun h => if_pos h, fun h => if_neg h⟩

/-- ICMP is the two-source shape of the integer class, with a 32-bit destination whatever the type. -/
theorem exec_icmp_computes {t : IntTy} {f : RFmt} {s : State} {u : Iss} (h : issuer s (.icmp t f) = some u)
    (hc : clear u = true) :
    let xs := [srcA f (intCvt t) 1, srcB f (intCvt t) 1]
    operandsOk u f.h f.d false xs = true →
    ∃ s', exec (.icmp t f) s = .next s' ∧
      Computes u f.h f.d false xs f.imm
        (fun l r =>
          let holds := icmpHolds (bits f.mod 4 3) (intVal t (codeOf u f.h f.imm xs 0 l)) (intVal t (codeOf u f.h f.imm xs 1 l))
          (holds → r = 1) ∧ (¬ holds → r = 0)) s' := by
  intro xs ho
  have hexec : exec (.icmp t f) s = execIcmp t f s := rfl
  rw [hexec, execIcmp, runInstr_next h hc]
  exact ⟨_, rfl, int2_computes h rfl rfl f t false _ _ _ (intCvt_int t) ho fun l => bitOf_icmpOp _ _ _⟩

/-! ## IADD with a 64-bit immediate -/

/-- Rounding, saturation and flushing have no part in reading a source that no map stands behind. -/
theorem fetchElem_unmapped (E E' : REnv) (js : List MapLane) (ord : Nat) (u : Iss) (imm : Word) (x : Src) (l p : Nat)
    (L : Lane) (hx : x.sel = 0) :
    fetchElem E js ord (resolveSrc u imm x) l p L = fetchElem E' js ord (resolveSrc u imm x) l p L := by
  have hview : (resolveSrc u imm x).view = none := if_pos hx
  simp only [fetchElem, hview]

theorem runLanes_unlawful (u : Iss) (h : Hdr) (d : Opnd) (wide : Bool) (xs : List Src) (imm : Word)
    (f : REnv → List RSrc → Nat → Lane → Nat × Lane) :
    runLanes u h d wide xs imm false f = operandIllegal u := rfl

section
variable {signed : Bool} {f : IFmt} {s : State} {u : Iss} (h : issuer s (.iaddImm64 signed f) = some u)
  (hc : clear u = true)
include h hc

theorem exec_iaddImm64_rejected (hb : f.b ≠ .imm) :
    ∃ s', exec (.iaddImm64 signed f) s = .next s' ∧ Rejected u .operandIllegal s' := by
  have hexec : exec (.iaddImm64 signed f) s = execIaddImm64 signed f s := rfl
  have hlegal : (f.b == Opnd.imm) = false := beq_eq_false_iff_ne.mpr hb
  rw [hexec, execIaddImm64, runInstr_next h hc]
  simp only [hlegal, runLanes_unlawful]
  exact ⟨_, rfl, trapped_illegal u .operandIllegal⟩

theorem exec_iaddImm64_computes (hb : f.b = .imm) :
    let t : IntTy := if signed then .s64 else .b64
    let xs : List Src := [{ o := f.a, t := intCvt t }]
    operandsOk u f.h f.d true xs = true →
    ∃ s', exec (.iaddImm64 signed f) s = .next s' ∧
      Computes u f.h f.d true xs 0#32
        (fun l r => Finishes t (satEff f.h u.p.fmt)
          (intVal t (if f.a = .imm then f.imm64.toNat else codeOf u f.h 0#32 xs 0 l) + intVal t f.imm64.toNat) r) s' := by
  intro t xs ho
  have hexec : exec (.iaddImm64 signed f) s = execIaddImm64 signed f s := rfl
  have hlegal : (f.b == Opnd.imm) = true := beq_iff_eq.mpr hb
  have hread := fun l => fetchElem_unmapped (rEnv f.h u.p.fmt u.g.srseed) (intEnv (rEnv f.h u.p.fmt u.g.srseed))
    (mapLanes u) 0 u 0#32 { o := f.a, t := intCvt t } l 0 (Lane.start (u.g.srctr.get l)) rfl
  rw [hexec, execIaddImm64, runInstr_next h hc]
  simp only [hlegal]
  refine ⟨_, rfl, computes_of h rfl rfl f.h f.d true xs 0#32 _ _ ho ?integer ?lane ?value⟩
  case integer =>
    intro x hx
    rw [List.mem_singleton] at hx
    subst hx
    exact intCvt_int t
  case lane =>
    intro l
    rw [sourceCodes_one, ← hread l]
    rfl
  case value =>
    intro l
    rw [codeOf_one, ← hread l]
    exact finishes t (satEff f.h u.p.fmt) _

end

/-- Settles O5: ICMP is the two-source shape of the integer class at `bitOf_icmpOp`; the format-I IADD is the shared course of
lanes over its one source, which no map and so no rounding touches (`fetchElem_unmapped`). -/
theorem integerCompareAndImmediate : Obligations.IntegerCompareAndImmediate := by
  unfold Obligations.IntegerCompareAndImmediate
  refine ⟨?compare, ?conditions, ?immediate⟩
  case compare =>
    intro t f s u xs h hc ho
    exact exec_icmp_computes h hc ho
  case conditions =>
    intro w t f h
    exact decode_icmp_condition h
  case immediate =>
    intro signed f s u t xs h hc ho
    by_cases hb : f.b = .imm
    · obtain ⟨s', hexec, hsum⟩ := exec_iaddImm64_computes h hc hb ho
      exact ⟨s', hexec, by rwa [if_neg (not_not_intro hb)]⟩
    · obtain ⟨s', hexec, htrap⟩ := exec_iaddImm64_rejected h hc hb
      exact ⟨s', hexec, by rwa [if_pos hb]⟩

end Sys2Proof.Machine
end

section
/-!
SUPPORT. The encoding (05 R97; 14 R251 to R264): operand codes, guards and headers, the six formats and the opcode map are each
read back from what they are written as, and written back as what they are read from; and the obligations about words.
-/
namespace Sys2Proof

/-! ## Operands, guards and headers -/

theorem Opnd.ofCode_code {o : Opnd} (h : o.wf = true) : Opnd.ofCode o.code = o := by
  cases o with
  | v n => have := n.isLt; simp [Opnd.code, Opnd.ofCode, Nat.mod_eq_of_lt (show n.val < 1024 by omega)]
  | s n =>
    have hn := n.isLt
    have hc : (Opnd.s n).code.toNat = 256 + n.val := by simp [Opnd.code]; omega
    simp [Opnd.ofCode, hc, show 256 + n.val < 320 by omega]
  | o n =>
    have hn := n.isLt
    have hc : (Opnd.o n).code.toNat = 320 + n.val := by simp [Opnd.code]; omega
    simp [Opnd.ofCode, hc, show ¬ 320 + n.val < 256 by omega, show 320 + n.val < 328 by omega]
  | l n =>
    have hn := n.isLt
    have hc : (Opnd.l n).code.toNat = 328 + n.val := by simp [Opnd.code]; omega
    simp [Opnd.ofCode, hc, show ¬ 328 + n.val < 256 by omega, show ¬ 328 + n.val < 320 by omega,
      show 328 + n.val < 332 by omega]
  | zero => rfl
  | imm => rfl
  | bad c =>
    have hw : (0x14C ≤ c.toNat ∧ c.toNat ≤ 0x14F) ∨ 0x152 ≤ c.toNat := by simpa [Opnd.wf] using h
    have hz : c ≠ 0x150#10 := by rintro rfl; simp at hw
    have hi : c ≠ 0x151#10 := by rintro rfl; simp at hw
    simp only [Opnd.code, Opnd.ofCode, hz, hi, if_false]
    rw [dif_neg (by omega), dif_neg (by omega), dif_neg (by omega), dif_neg (by omega)]

/-- The operand of a code is well formed, and has that code. -/
theorem Opnd.ofCode_spec (c : BitVec 10) : (Opnd.ofCode c).wf = true ∧ (Opnd.ofCode c).code = c := by
  unfold Opnd.ofCode
  split
  case isTrue h => exact ⟨rfl, by simp [Opnd.code]⟩
  split
  case isTrue h1 h => exact ⟨rfl, by apply BitVec.eq_of_toNat_eq; simp [Opnd.code]; omega⟩
  split
  case isTrue h1 h2 h => exact ⟨rfl, by apply BitVec.eq_of_toNat_eq; simp [Opnd.code]; omega⟩
  split
  case isTrue h1 h2 h3 h => exact ⟨rfl, by apply BitVec.eq_of_toNat_eq; simp [Opnd.code]; omega⟩
  split
  case isTrue h => exact ⟨rfl, h.symm⟩
  split
  case isTrue h => exact ⟨rfl, h.symm⟩
  case isFalse h1 h2 h3 h4 hz hi =>
    refine ⟨?_, rfl⟩
    have h5 : c.toNat ≠ 0x150 := fun e => hz (BitVec.eq_of_toNat_eq e)
    have h6 : c.toNat ≠ 0x151 := fun e => hi (BitVec.eq_of_toNat_eq e)
    simp only [Opnd.wf, Bool.or_eq_true, Bool.and_eq_true, decide_eq_true_eq]
    omega

@[simp] theorem Opnd.wf_ofCode (c : BitVec 10) : (Opnd.ofCode c).wf = true := (Opnd.ofCode_spec c).1
@[simp] theorem Opnd.code_ofCode (c : BitVec 10) : (Opnd.ofCode c).code = c := (Opnd.ofCode_spec c).2

/-- One bit of a word, as the field of width one that holds it. -/
theorem bit1_getLsbD {n : Nat} (w : BitVec n) (k : Nat) : bit1 (w.getLsbD k) = w.extractLsb' k 1 := by
  apply BitVec.eq_of_getLsbD_eq
  intro i hi
  obtain rfl : i = 0 := by omega
  simp [bit1]

/-! The fields of a word laid side by side. The library's lemmas speak of the sum of the widths, which a word's type does not
show; these find a concatenation of any type. -/

theorem extract_above {v w lo len : Nat} (x : BitVec v) (y : BitVec w) (h : w ≤ lo) :
    BitVec.extractLsb' lo len (no_index (x ++ y)) = x.extractLsb' (lo - w) len := BitVec.extractLsb'_append_eq_of_le h

theorem extract_below {v w lo len : Nat} (x : BitVec v) (y : BitVec w) (h : lo + len ≤ w) :
    BitVec.extractLsb' lo len (no_index (x ++ y)) = y.extractLsb' lo len := BitVec.extractLsb'_append_eq_of_add_le h

theorem getLsbD_concat {v w i : Nat} (x : BitVec v) (y : BitVec w) :
    BitVec.getLsbD (no_index (x ++ y)) i = if i < w then y.getLsbD i else x.getLsbD (i - w) := BitVec.getLsbD_append

/-- Fields that lie side by side in a word are one field of it. -/
theorem glue {n a la b lb : Nat} (x : BitVec n) (h : b = a + la) :
    (no_index (x.extractLsb' b lb ++ x.extractLsb' a la)) = x.extractLsb' a (lb + la) :=
  BitVec.extractLsb'_append_extractLsb'_eq_extractLsb' h

theorem extract_eq_of_bits {n w lo : Nat} {x : BitVec n} {k : BitVec w} (h : bits x lo w = k.toNat) :
    x.extractLsb' lo w = k := BitVec.eq_of_toNat_eq h

theorem bits_eq_of_extract {n w lo : Nat} {x : BitVec n} {k : BitVec w} (h : x.extractLsb' lo w = k) :
    bits x lo w = k.toNat := congrArg BitVec.toNat h

theorem Guard.ofWord_word (g : Guard) : Guard.ofWord g.word = some g := by
  cases g with
  | always => rfl
  | vector n b r =>
    have hk : bits (Guard.vector n b r).word 0 2 = 1 :=
      bits_eq_of_extract (k := 1#2) (by simp only [Guard.word, extract_below, BitVec.extractLsb'_eq_self, Nat.le_refl])
    simp only [Guard.ofWord, hk]
    simp only [Guard.word, getLsbD_concat]
    simp [bit1, extract_above, extract_below, BitVec.extractLsb'_eq_self]
  | scalar n b r =>
    have hk : bits (Guard.scalar n b r).word 0 2 = 2 :=
      bits_eq_of_extract (k := 2#2) (by simp only [Guard.word, extract_below, BitVec.extractLsb'_eq_self, Nat.le_refl])
    simp only [Guard.ofWord, hk]
    simp only [Guard.word, getLsbD_concat]
    simp [bit1, extract_above, extract_below, BitVec.extractLsb'_eq_self]

theorem Guard.word_ofWord {w : BitVec 16} {g : Guard} (h : Guard.ofWord w = some g) : g.word = w := by
  unfold Guard.ofWord at h
  split at h
  · split at h
    · cases h; simp_all [Guard.word]
    · cases h
  · rename_i hk
    cases h
    have hk' : w.extractLsb' 0 2 = 0b01#2 := extract_eq_of_bits hk
    simp only [Guard.word, bit1_getLsbD, ← hk']
    simp [glue, BitVec.extractLsb'_eq_self]
  · rename_i hk
    cases h
    have hk' : w.extractLsb' 0 2 = 0b10#2 := extract_eq_of_bits hk
    simp only [Guard.word, bit1_getLsbD, ← hk']
    simp [glue, BitVec.extractLsb'_eq_self]
  · cases h

theorem Hdr.ofWord_word (h : Hdr) : Hdr.ofWord h.word = some h := by
  have hg : h.word.extractLsb' 6 16 = h.guard.word := by
    simp [Hdr.word, extract_above, BitVec.extractLsb'_eq_self]
  rw [Hdr.ofWord, hg, Guard.ofWord_word]
  simp only [Hdr.word, getLsbD_concat]
  simp [bit1, extract_below, BitVec.extractLsb'_eq_self]

theorem Hdr.word_ofWord {w : BitVec 22} {h : Hdr} (e : Hdr.ofWord w = some h) : h.word = w := by
  obtain ⟨g, hg, rfl⟩ := Option.map_eq_some_iff.mp e
  simp only [Hdr.word, Guard.word_ofWord hg, bit1_getLsbD]
  simp [glue, BitVec.extractLsb'_eq_self]

/-! ## The six formats -/

/-- The operands that a body holds. -/
def Body.opnds : Body → List Opnd
  | .r f => [f.d, f.a, f.b, f.c]
  | .i f => [f.d, f.a, f.b]
  | .m f => [f.d, f.a, f.b, f.c]
  | .s f => [f.d, f.a, f.b]
  | .c f => [f.d, f.a, f.b]
  | .k f => [f.d, f.a, f.b, f.c]

def Body.hdr : Body → Hdr
  | .r f => f.h | .i f => f.h | .m f => f.h | .s f => f.h | .c f => f.h | .k f => f.h

theorem Body.word_hdr (b : Body) : b.word.extractLsb' 0 22 = b.hdr.word := by
  cases b <;>
    simp [Body.word, Body.hdr, RFmt.word, IFmt.word, MFmt.word, SFmt.word, CFmt.word, KFmt.word,
      extract_below, BitVec.extractLsb'_eq_self]

theorem Body.word_dashes (b : Body) : b.format.dashesZero b.word = true := by
  have h52 : bits b.word 52 2 = 0 := bits_eq_of_extract (k := 0#2) (by
    cases b <;>
      simp [Body.word, RFmt.word, IFmt.word, MFmt.word, SFmt.word, CFmt.word, KFmt.word, extract_above, extract_below,
        BitVec.extractLsb'_eq_self])
  unfold Format.dashesZero
  rw [h52]
  cases b with
  | r | i | c => rfl
  | m f =>
    have h : bits f.word 77 1 = 0 := bits_eq_of_extract (k := 0#1) (by
      simp [MFmt.word, extract_above, extract_below, BitVec.extractLsb'_eq_self])
    simp [Body.format, Body.word, h]
  | s f =>
    have h : bits f.word 72 4 = 0 := bits_eq_of_extract (k := 0#4) (by
      simp [SFmt.word, extract_above, extract_below, BitVec.extractLsb'_eq_self])
    have h' : bits f.word 78 1 = 0 := bits_eq_of_extract (k := 0#1) (by
      simp [SFmt.word, extract_above, extract_below, BitVec.extractLsb'_eq_self])
    simp [Body.format, Body.word, h, h']
  | k f =>
    have h : bits f.word 64 15 = 0 := bits_eq_of_extract (k := 0#15) (by
      simp [KFmt.word, extract_above, extract_below, BitVec.extractLsb'_eq_self])
    simp [Body.format, Body.word, h]

/-- A body is read back from its word. -/
theorem Format.body_word (b : Body) (h : b.opnds.all Opnd.wf = true) : b.format.body b.hdr b.word = b := by
  cases b
  all_goals
    simp only [Body.opnds, List.all_cons, List.all_nil, Bool.and_true, Bool.and_eq_true] at h
    simp only [Body.word, Body.hdr, Body.format, Format.body, opndAt, RFmt.word, IFmt.word, MFmt.word, SFmt.word, CFmt.word,
      KFmt.word, getLsbD_concat]
    simp [bit1, h, Opnd.ofCode_code, extract_above, extract_below, glue, BitVec.extractLsb'_eq_self]

theorem Format.body_opnds (F : Format) (h : Hdr) (w : BitVec 118) : (F.body h w).opnds.all Opnd.wf = true := by
  cases F <;> simp [Format.body, Body.opnds, opndAt]

theorem Format.body_format (F : Format) (h : Hdr) (w : BitVec 118) : (F.body h w).format = F := by
  cases F <;> rfl

theorem extract_zero {n w lo : Nat} {x : BitVec n} (h : bits x lo w = 0) : 0#w = x.extractLsb' lo w :=
  (extract_eq_of_bits (h.trans (BitVec.toNat_zero).symm)).symm

/-- A word whose dashes are zero is the word of the body read from it. -/
theorem Format.word_body {F : Format} {h : Hdr} {w : BitVec 118} (hd : F.dashesZero w = true)
    (hh : Hdr.ofWord (w.extractLsb' 0 22) = some h) : (F.body h w).word = w := by
  have hw := Hdr.word_ofWord hh
  unfold Format.dashesZero at hd
  rw [Bool.and_eq_true, beq_iff_eq] at hd
  obtain ⟨h52, hF⟩ := hd
  cases F <;> simp only [Bool.and_eq_true, beq_iff_eq] at hF
  case r =>
    simp only [Format.body, Body.word, RFmt.word, opndAt, Opnd.code_ofCode, hw, bit1_getLsbD, extract_zero h52]
    simp [glue, BitVec.extractLsb'_eq_self]
  case i =>
    simp only [Format.body, Body.word, IFmt.word, opndAt, Opnd.code_ofCode, hw, extract_zero h52]
    simp [glue, BitVec.extractLsb'_eq_self, extract_above, extract_below]
  case m =>
    simp only [Format.body, Body.word, MFmt.word, opndAt, Opnd.code_ofCode, hw, bit1_getLsbD, extract_zero h52,
      extract_zero hF]
    simp [glue, BitVec.extractLsb'_eq_self]
  case s =>
    obtain ⟨h72, h78⟩ := hF
    simp only [Format.body, Body.word, SFmt.word, opndAt, Opnd.code_ofCode, hw, bit1_getLsbD, extract_zero h52,
      extract_zero h72, extract_zero h78]
    simp [glue, BitVec.extractLsb'_eq_self]
  case c =>
    simp only [Format.body, Body.word, CFmt.word, opndAt, Opnd.code_ofCode, hw, extract_zero h52]
    simp [glue, BitVec.extractLsb'_eq_self]
  case k =>
    simp only [Format.body, Body.word, KFmt.word, opndAt, Opnd.code_ofCode, hw, extract_zero h52, extract_zero hF]
    simp [glue, BitVec.extractLsb'_eq_self]

/-! ## The opcode map -/

theorem IntTy.code_of_ofCode {n : Nat} {t : IntTy} (h : IntTy.ofCode n = some t) : t.code = n := by
  unfold IntTy.ofCode at h; split at h <;> cases h <;> rfl

theorem FloTy.code_of_ofCode {n : Nat} {t : FloTy} (h : FloTy.ofCode n = some t) : t.code = n := by
  unfold FloTy.ofCode at h; split at h <;> cases h <;> rfl

theorem EltTy.code_of_ofCode {n : Nat} {t : EltTy} (h : EltTy.ofCode n = some t) : t.code = n := by
  unfold EltTy.ofCode at h; split at h <;> cases h <;> rfl

theorem Width.code_of_ofCode {n : Nat} {t : Width} (h : Width.ofCode n = some t) : t.code = n := by
  unfold Width.ofCode at h; split at h <;> cases h <;> rfl

theorem CvtTy.code_of_ofCode {n : Nat} {t : CvtTy} (h : CvtTy.ofCode n = some t) : t.code = n := by
  unfold CvtTy.ofCode at h; split at h <;> cases h <;> rfl

theorem CenTy.code_of_ofCode {n : Nat} {t : CenTy} (h : CenTy.ofCode n = some t) : t.code = n := by
  unfold CenTy.ofCode at h; split at h <;> cases h <;> rfl

theorem MaccTy.code_of_ofCode {n : Nat} {t : MaccTy} (h : MaccTy.ofCode n = some t) : t.code = n := by
  unfold MaccTy.ofCode at h; split at h <;> cases h <;> rfl

theorem parts_intOf {f : Nat} {t : IntTy} {x : RFmt} {i : Instr} (h : intOf f t x = some i) :
    i.parts = some (0x004 + 4 * f + t.code, .r x) := by
  unfold intOf at h; split at h <;> cases h <;> rfl

theorem parts_floOf {f : Nat} {t : FloTy} {x : RFmt} {i : Instr} (h : floOf f t x = some i) :
    i.parts = some (0x080 + 4 * f + t.code, .r x) := by
  unfold floOf at h; split at h <;> cases h <;> rfl

theorem parts_laneOf {f : Nat} {u : EltTy} {x : RFmt} {i : Instr} (h : laneOf f u x = some i) :
    i.parts = some (0x180 + 8 * f + u.code, .r x) := by
  unfold laneOf at h; split at h <;> cases h <;> rfl

theorem parts_memOf {f : Nat} {w : Width} {x : MFmt} {i : Instr} (h : memOf f w x = some i) :
    i.parts = some (0x1C0 + 8 * f + w.code, .m x) := by
  unfold memOf at h; split at h <;> cases h <;> rfl

theorem parts_plainR {c : Nat} {x : RFmt} {i : Instr} (h : plainR c x = some i) : i.parts = some (c, .r x) := by
  unfold plainR at h; split at h <;> cases h <;> rfl

theorem parts_at {i : Instr} {n c : Nat} {b : Body} (h : i.parts = some (n, b)) (e : n = c) : i.parts = some (c, b) :=
  e ▸ h

theorem parts_ofR {c : Nat} {x : RFmt} {i : Instr} (hF : Format.ofOpcode c = some .r) (h : Instr.ofR c x = some i) :
    i.parts = some (c, .r x) := by
  unfold Instr.ofR at h
  split at h
  case isTrue hc =>
    obtain ⟨t, ht, hi⟩ := Option.bind_eq_some_iff.mp h
    exact parts_at (parts_intOf hi) (by rw [IntTy.code_of_ofCode ht]; omega)
  split at h
  case isTrue hc =>
    obtain ⟨t, ht, hi⟩ := Option.bind_eq_some_iff.mp h
    exact parts_at (parts_floOf hi) (by rw [FloTy.code_of_ofCode ht]; omega)
  split at h
  case isTrue hc =>
    obtain ⟨t, ht, rfl⟩ := Option.map_eq_some_iff.mp h
    exact parts_at rfl (by rw [CvtTy.code_of_ofCode ht]; omega)
  split at h
  case isTrue hc =>
    obtain ⟨t, ht, rfl⟩ := Option.map_eq_some_iff.mp h
    exact parts_at rfl (by rw [FloTy.code_of_ofCode ht]; omega)
  split at h
  case isTrue hc =>
    obtain ⟨t, ht, rfl⟩ := Option.map_eq_some_iff.mp h
    exact parts_at rfl (by rw [FloTy.code_of_ofCode ht]; omega)
  split at h
  case isTrue hc =>
    obtain ⟨t, ht, rfl⟩ := Option.map_eq_some_iff.mp h
    exact parts_at rfl (by rw [CenTy.code_of_ofCode ht]; omega)
  split at h
  case isTrue hc =>
    obtain ⟨t, ht, rfl⟩ := Option.map_eq_some_iff.mp h
    have heven : c % 2 = 0 := by
      by_contra hodd
      obtain ⟨h1, h2⟩ := hc
      interval_cases c <;> simp_all [Format.ofOpcode]
    exact parts_at rfl (by rw [MaccTy.code_of_ofCode ht]; omega)
  split at h
  case isTrue hc =>
    obtain ⟨t, ht, hi⟩ := Option.bind_eq_some_iff.mp h
    exact parts_at (parts_laneOf hi) (by rw [EltTy.code_of_ofCode ht]; omega)
  exact parts_plainR h

theorem parts_ofI {c : Nat} {x : IFmt} {i : Instr} (h : Instr.ofI c x = some i) : i.parts = some (c, .i x) := by
  unfold Instr.ofI at h; split at h <;> cases h <;> rfl

theorem parts_ofM {c : Nat} {x : MFmt} {i : Instr} (h : Instr.ofM c x = some i) : i.parts = some (c, .m x) := by
  unfold Instr.ofM at h
  split at h
  case isTrue hc =>
    obtain ⟨t, ht, hi⟩ := Option.bind_eq_some_iff.mp h
    exact parts_at (parts_memOf hi) (by rw [Width.code_of_ofCode ht]; omega)
  split at h
  case isTrue hc =>
    obtain ⟨t, ht, rfl⟩ := Option.map_eq_some_iff.mp h
    exact parts_at rfl (by rw [EltTy.code_of_ofCode ht]; omega)
  split at h
  case isTrue hc =>
    obtain ⟨t, ht, rfl⟩ := Option.map_eq_some_iff.mp h
    exact parts_at rfl (by rw [EltTy.code_of_ofCode ht]; omega)
  split at h <;> cases h <;> rfl

theorem parts_ofS {c : Nat} {x : SFmt} {i : Instr} (hF : Format.ofOpcode c = some .s) (h : Instr.ofS c x = some i) :
    i.parts = some (c, .s x) := by
  unfold Instr.ofS at h
  split at h
  case isTrue hc =>
    obtain ⟨t, ht, rfl⟩ := Option.map_eq_some_iff.mp h
    exact parts_at rfl (by rw [FloTy.code_of_ofCode ht]; omega)
  split at h
  case isTrue hc =>
    obtain ⟨t, ht, rfl⟩ := Option.map_eq_some_iff.mp h
    exact parts_at rfl (by rw [FloTy.code_of_ofCode ht]; omega)
  split at h
  case isTrue hc =>
    obtain ⟨t, ht, rfl⟩ := Option.map_eq_some_iff.mp h
    exact parts_at rfl (by rw [FloTy.code_of_ofCode ht]; omega)
  split at h
  case isTrue hc =>
    obtain ⟨t, ht, rfl⟩ := Option.map_eq_some_iff.mp h
    exact parts_at rfl (by rw [CvtTy.code_of_ofCode ht]; omega)
  split at h
  case isTrue hc =>
    obtain ⟨t, ht, rfl⟩ := Option.map_eq_some_iff.mp h
    exact parts_at rfl (by rw [FloTy.code_of_ofCode ht]; omega)
  split at h
  case isTrue hc =>
    obtain ⟨t, ht, rfl⟩ := Option.map_eq_some_iff.mp h
    have hodd : c % 2 = 1 := by
      by_contra heven
      obtain ⟨h1, h2⟩ := hc
      interval_cases c <;> simp_all [Format.ofOpcode]
    exact parts_at rfl (by rw [MaccTy.code_of_ofCode ht]; omega)
  split at h
  case isTrue hc => cases h; rw [hc]; rfl
  cases h

theorem parts_ofC {c : Nat} {x : CFmt} {i : Instr} (h : Instr.ofC c x = some i) : i.parts = some (c, .c x) := by
  unfold Instr.ofC at h; split at h <;> cases h <;> rfl

theorem parts_ofK {c : Nat} {x : KFmt} {i : Instr} (h : Instr.ofK c x = some i) : i.parts = some (c, .k x) := by
  unfold Instr.ofK at h
  split at h
  case h_9 => cases h; split <;> rfl
  all_goals cases h <;> rfl

/-- The instruction of an opcode and a body of its format has that opcode and that body. -/
theorem parts_ofParts {c : Nat} {b : Body} {i : Instr} (hF : Format.ofOpcode c = some b.format)
    (h : Instr.ofParts c b = some i) : i.parts = some (c, b) := by
  cases b with
  | r x => exact parts_ofR hF h
  | i x => exact parts_ofI h
  | m x => exact parts_ofM h
  | s x => exact parts_ofS hF h
  | c x => exact parts_ofC h
  | k x => exact parts_ofK h

theorem parts_opnds {i : Instr} {c : Nat} {b : Body} (h : i.parts = some (c, b)) : i.opnds = b.opnds := by
  cases i <;> cases h <;> rfl

/-- A word encodes exactly the instructions that are no steps of the device. -/
theorem parts_isSome (i : Instr) : i.parts.isSome = !i.isEvent := by
  cases i <;> rfl

/-- Every constructor's opcode and body give it back. -/
theorem Laws.Encoding.all : ∀ i : Instr, Laws.Encoding.Statement i
  | .and t f => and t f | .andn t f => andn t f | .bfe t f => bfe t f | .bfi t f => bfi t f | .brev t f => brev t f
  | .clz t f => clz t f | .iabs t f => iabs t f | .iadd t f => iadd t f | .iaddImm64 signed f => iaddImm64 signed f
  | .icmp t f => icmp t f | .imad t f => imad t f | .imax t f => imax t f | .imin t f => imin t f | .imul t f => imul t f
  | .imulh t f => imulh t f | .isub t f => isub t f | .lea t f => lea t f | .or t f => or t f | .popc t f => popc t f
  | .prmt t f => prmt t f | .sar t f => sar t f | .sel t f => sel t f | .shf t f => shf t f | .shl t f => shl t f
  | .shr t f => shr t f | .xor t f => xor t f | .fadd t f => fadd t f | .fclass t f => fclass t f | .fcmp t f => fcmp t f
  | .fcospi t f => fcospi t f | .fexp2 t f => fexp2 t f | .fgetexp t f => fgetexp t f | .flog2 t f => flog2 t f
  | .fma t f => fma t f | .fmax t f => fmax t f | .fmin t f => fmin t f | .fmul t f => fmul t f | .frcp t f => frcp t f
  | .frnd t f => frnd t f | .frsq t f => frsq t f | .fscale t f => fscale t f | .fsinpi t f => fsinpi t f
  | .fsqrt t f => fsqrt t f | .faddSweep t f => faddSweep t f | .fmaSweep t f => fmaSweep t f
  | .fmulSweep t f => fmulSweep t f | .cvt c f => cvt c f | .cvtSweep c f => cvtSweep c f | .famax t f => famax t f
  | .fquant t f => fquant t f | .fquantSweep t f => fquantSweep t f | .census e f => census e f | .rng f => rng f
  | .mapres f => mapres f | .mapbind f => mapbind f | .mapwr f => mapwr f | .maprd f => maprd f | .maprel f => maprel f
  | .ldl f => ldl f | .ldlSweep f => ldlSweep f | .macc m f => macc m f | .maccSweep m f => maccSweep m f
  | .sweepIteration g sp => sweepIteration g sp | .lred u f => lred u f | .lscan u f => lscan u f
  | .matchLanes u f => matchLanes u f | .part u f => part u f | .shfl u f => shfl u f | .vote u f => vote u f
  | .ld w f => ld w f | .lds w f => lds w f | .st w f => st w f | .sts w f => sts w f | .atom u f => atom u f
  | .red u f => red u f | .pref f => pref f | .cctl f => cctl f | .fence f => fence f | .copy f => copy f
  | .binit f => binit f | .barr f => barr f | .bexp f => bexp f | .btest f => btest f | .bwait f => bwait f
  | .waitc f => waitc f | .spawn f => spawn f | .jdec f => jdec f | .jwait f => jwait f | .freg f => freg f
  | .fres f => fres f | .bra f => bra f | .braD f => braD f | .brk f => brk f | .brx f => brx f | .call f => call f
  | .ret f => ret f | .exit f => exit f | .exitJ f => exitJ f | .gsync f => gsync f | .join f => join f | .nop f => nop f
  | .yield f => yield f | .bkpt f => bkpt f | .dflush f => dflush f | .fltrd f => fltrd f | .fmtset f => fmtset f
  | .iret f => iret f | .movB32 f => movB32 f | .movB64 f => movB64 f | .movB64Imm64 f => movB64Imm64 f
  | .movsr f => movsr f | .setsr f => setsr f | .pgmap f => pgmap f | .trap f => trap f | .trapEsc f => trapEsc f
  | .faultRecordDeferredDelivery g => faultRecordDeferredDelivery g | .hwBreakpoint g sp => hwBreakpoint g sp
  | .loadReturn op lanes fromL1 => loadReturn op lanes fromL1 | .ldlReturn op => ldlReturn op
  | .atomReturn op => atomReturn op | .storePerform op lanes => storePerform op lanes
  | .atomicAtHome op k => atomicAtHome op k | .joinCounterDecrement op k => joinCounterDecrement op k
  | .jwaitWake g sp => jwaitWake g sp | .censusFold op k => censusFold op k
  | .futureRegistration op k => futureRegistration op k | .futureResolution op => futureResolution op
  | .gateDecrement op => gateDecrement op | .sluiceDeferredPark op k => sluiceDeferredPark op k
  | .mapBindComplete op => mapBindComplete op | .panTimerExpiry core pan => panTimerExpiry core pan
  | .panLaunch core pan => panLaunch core pan | .brineIntake core ctx => brineIntake core ctx
  | .deferredRecordFile k => deferredRecordFile k | .groupRestore g => groupRestore g | .groupRetire g => groupRetire g
  | .teamRetire t => teamRetire t | .gridCompletion gr => gridCompletion gr | .launchPacketTake q => launchPacketTake q
  | .queueTailUpdate q => queueTailUpdate q | .teamDispatch => teamDispatch
  | .concurrentPlacement gr => concurrentPlacement gr | .reproWavePlacement gr => reproWavePlacement gr
  | .queueAgeing q => queueAgeing q | .preemptQueue q => preemptQueue q | .resumeQueue q => resumeQueue q
  | .preemptContext q => preemptContext q | .resumeContext q => resumeContext q | .splitHalt g sp => splitHalt g sp
  | .contextSave g => contextSave g | .groupResume g => groupResume g | .reproSyncProceed g sp => reproSyncProceed g sp
  | .mapresDeferredGrant g sp => mapresDeferredGrant g sp | .copyChunk c m => copyChunk c m
  | .copyCompletion c => copyCompletion c | .c3CompletionRecord c => c3CompletionRecord c
  | .remoteCopyWrite w => remoteCopyWrite w
  | .sredInstanceReduce grp inst agree others => sredInstanceReduce grp inst agree others
  | .sredTimeoutAbort grp e => sredTimeoutAbort grp e | .linkLoss copies => linkLoss copies
  | .checkCompare t => checkCompare t | .tlbLeaseExpiry core k => tlbLeaseExpiry core k | .reset b => reset b
  | .selfCheckDone die pass => selfCheckDone die pass | .thermalEvent core e => thermalEvent core e
  | .createContext num block => createContext num block | .terminateContext num => terminateContext num
  | .registerQueue q base slots ctx age => registerQueue q base slots ctx age | .releaseQueue q => releaseQueue q
  | .quiesceDie die => quiesceDie die | .faultRepaired rec => faultRepaired rec
  | .setBreakpoints ctx list => setBreakpoints ctx list | .contextRead ctx g buf => contextRead ctx g buf
  | .reductionGroup n list len limit => reductionGroup n list len limit
  | .captureSet core unit src => captureSet core unit src | .captureRead core unit buf => captureRead core unit buf
  | .powerCap watts => powerCap watts | .attest nonce report => attest nonce report
  | .faultUnrepairable rec => faultUnrepairable rec
  | .contextSettings ctx highwater lease => contextSettings ctx highwater lease
  | .resumeGroup rec point => resumeGroup rec point | .poolAdd ctx list count => poolAdd ctx list count
  | .reservedEncoding w => reservedEncoding w | .instructionFetchFault g sp => instructionFetchFault g sp
  | .reservedQueueCommand q => reservedQueueCommand q | .reservedManagementCommand => reservedManagementCommand
  | .debuggerHalt g => debuggerHalt g | .computeDiePowerOff => computeDiePowerOff | .hostDieAccess a => hostDieAccess a

/-! ## Words -/

/-- The 118 bits above the opcode, and the opcode below them. -/
theorem word_split (w : IWord) : w.extractLsb' 10 118 ++ BitVec.ofNat 10 (bits w 0 10) = w := by
  have hc : BitVec.ofNat 10 (bits w 0 10) = w.extractLsb' 0 10 :=
    (BitVec.ofNat_toNat _ _).trans (BitVec.setWidth_eq _)
  rw [hc]
  simp [glue, BitVec.extractLsb'_eq_self]

theorem opcode_word (x : BitVec 118) {c : Nat} (hc : c < 1024) : bits (x ++ BitVec.ofNat 10 c : IWord) 0 10 = c := by
  have h : (x ++ BitVec.ofNat 10 c : IWord).extractLsb' 0 10 = BitVec.ofNat 10 c := by
    simp [extract_below, BitVec.extractLsb'_eq_self]
  exact (bits_eq_of_extract h).trans (BitVec.toNat_ofNat c 10 ▸ Nat.mod_eq_of_lt hc)

theorem body_word (x : BitVec 118) (c : BitVec 10) : (x ++ c : IWord).extractLsb' 10 118 = x := by
  simp [extract_above, BitVec.extractLsb'_eq_self]

theorem encode_eq {i : Instr} {c : Nat} {b : Body} (h : i.parts = some (c, b)) :
    encode i = b.word ++ BitVec.ofNat 10 c := by
  unfold encode
  rw [h]

/-- The parts of a well-formed instruction are read from its word. -/
theorem parse_encode {i : Instr} (h : WellFormed i) : parse (encode i) = .ok i := by
  obtain ⟨hevent, hchecks, hopnds⟩ := h
  have hsome : i.parts.isSome = true := by rw [parts_isSome, hevent]; rfl
  obtain ⟨⟨c, b⟩, hp⟩ := Option.isSome_iff_exists.mp hsome
  obtain ⟨hc, hF, hback⟩ := Laws.Encoding.all i ⟨hevent, hchecks, hopnds⟩ c b hp
  have hwf : b.opnds.all Opnd.wf = true := parts_opnds hp ▸ hopnds
  rw [encode_eq hp, parse]
  simp only [opcode_word _ hc, body_word, hF, Body.word_dashes, if_true, Body.word_hdr, Hdr.ofWord_word,
    Format.body_word b hwf, hback]

/-- What a word is read as: the parts of its instruction, laid out, are the word. -/
theorem parse_spec {w : IWord} {i : Instr} (h : parse w = .ok i) :
    encode i = w ∧ i.isEvent = false ∧ i.opnds.all Opnd.wf = true := by
  unfold parse at h
  simp only at h
  split at h
  · cases h
  rename_i F hF
  split at h
  case isFalse => cases h
  rename_i hd
  split at h
  · cases h
  rename_i hdr hh
  split at h
  · cases h
  rename_i j hj
  cases h
  have hp := parts_ofParts (by rw [Format.body_format]; exact hF) hj
  refine ⟨?_, ?_, ?_⟩
  · rw [encode_eq hp, Format.word_body hd hh, word_split]
  · simpa [hp] using parts_isSome i
  · rw [parts_opnds hp]; exact Format.body_opnds F hdr _

theorem reject_none_iff (i : Instr) : i.reject? = none ↔ i.checks.all Prod.fst = true := by
  simp [Instr.reject?, List.find?_eq_none]

theorem decode_ok_iff {w : IWord} {i : Instr} : decode w = .ok i ↔ parse w = .ok i ∧ i.reject? = none := by
  unfold decode
  cases hp : parse w with
  | error r => simp
  | ok j =>
    cases hr : j.reject? with
    | none =>
      simp only [hr, Except.ok.injEq]
      exact ⟨fun e => e ▸ ⟨rfl, hr⟩, fun e => e.1⟩
    | some r =>
      simp only [hr, reduceCtorEq, Except.ok.injEq, false_iff, not_and]
      rintro rfl
      simp [hr]

theorem decode_encode {i : Instr} (h : WellFormed i) : decode (encode i) = .ok i :=
  decode_ok_iff.mpr ⟨parse_encode h, (reject_none_iff i).mpr h.2.1⟩

theorem wellFormed_of_decode {w : IWord} {i : Instr} (h : decode w = .ok i) : WellFormed i ∧ encode i = w := by
  obtain ⟨hp, hr⟩ := decode_ok_iff.mp h
  obtain ⟨hw, he, ho⟩ := parse_spec hp
  exact ⟨⟨he, (reject_none_iff i).mp hr, ho⟩, hw⟩

/-- Settles O55: each layer of the encoding (operand codes, header, body, opcode map) is read back and written back. -/
theorem decodeAndEncodeAgree : Obligations.DecodeAndEncodeAgree :=
  ⟨fun _ => decode_encode, fun _ _ => wellFormed_of_decode⟩

/-- Settles O56: each written-out word is decoded by evaluation; no opcode with all ten bits set, nor 0, is in the map. -/
theorem wordsDecode : Obligations.WordsDecode := by
  unfold Obligations.WordsDecode
  refine ⟨rfl, rfl, rfl, rfl, rfl, rfl, rfl, ?zero, ?ones⟩
  case zero =>
    intro i h
    cases h
  case ones =>
    intro w hw i h
    have hc : bits w 0 10 = 0x3FF := bits_eq_of_extract hw
    have hF : Format.ofOpcode 0x3FF = none := rfl
    have hp : parse w = .error .reservedOpcode := by rw [parse, hc]; simp only [hF]
    have hok := (decode_ok_iff.mp h).1
    rw [hp] at hok
    cases hok

end Sys2Proof
end

section
/-!
SUPPORT. The integer class (20 R291, R292; 22 R346 to R349; 23 R376 to R378): each instruction is a shape of one, two or three
sources at one operation on codes, which gives the result of the table; and the obligations about them.
-/
namespace Sys2Proof.Machine

/-! ## Two sources -/

/-- The operation of a two-source instruction on codes. -/
def IntBin.op (o : IntBin) (t : IntTy) (E : REnv) (a b : Nat) : Nat :=
  match o with
  | .and => a &&& b
  | .andn => a &&& (2 ^ t.width - 1 - b)
  | .or => a ||| b
  | .xor => a ^^^ b
  | .iadd => intFinish t E.sat (intVal t a + intVal t b)
  | .isub => intFinish t E.sat (intVal t a - intVal t b)
  | .imul => intFinish t E.sat (intVal t a * intVal t b)
  | .imulh => wrapInt t.width (intVal t a * intVal t b / (2 ^ t.width : Nat))
  | .imax => if intVal t a < intVal t b then b else a
  | .imin => if intVal t b < intVal t a then b else a

theorem exec_intBin (o : IntBin) (t : IntTy) (f : RFmt) (s : State) :
    exec (o.instr t f) s = runInstr (o.instr t f) (fun u => intBin u f t (o.op t)) s := by
  cases o <;> rfl

theorem IntBin.ring (o : IntBin) (t : IntTy) (f : RFmt) : isIret (o.instr t f) = false ∧ entersRing (o.instr t f) = true := by
  cases o <;> exact ⟨rfl, rfl⟩

/-- The operation gives the result of the table. -/
theorem IntBin.gives (o : IntBin) (t : IntTy) (E : REnv) (a b : Nat) (hb : b < 2 ^ t.width) :
    o.Gives t E.sat a b (o.op t E a b) := by
  cases o with
  | and => intro k _; exact Nat.testBit_and a b k
  | andn => intro k hk; exact (Nat.testBit_and ..).trans (by rw [testBit_not _ _ _ hb hk])
  | or => intro k _; exact Nat.testBit_or a b k
  | xor => intro k _; exact Nat.testBit_xor a b k
  | iadd => exact finishes t E.sat _
  | isub => exact finishes t E.sat _
  | imul => exact finishes t E.sat _
  | imulh => exact finishes t false _
  | imax => exact intVal_inj_max t a b
  | imin => exact intVal_inj_min t a b

theorem intSrc_srcA (f : RFmt) (t : IntTy) : intSrc (srcA f (intCvt t) 1) := intCvt_int t
theorem intSrc_srcB (f : RFmt) (t : IntTy) : intSrc (srcB f (intCvt t) 1) := intCvt_int t
theorem intSrc_srcC (f : RFmt) (t : IntTy) : intSrc (srcC f (intCvt t) 1) := intCvt_int t
theorem intSrc_b32 {x : Src} (h : x.t = .b32) : intSrc x := by rw [intSrc, h]; exact ⟨rfl, Nat.le_refl 32⟩

/-- The codes of two integer sources fit their types. -/
theorem codeOf_lt_two (u : Iss) (h : Hdr) (imm : Word) {x y : Src} (hx : intSrc x) (hy : intSrc y) (l : Nat) :
    codeOf u h imm [x, y] 0 l < 2 ^ x.t.width ∧ codeOf u h imm [x, y] 1 l < 2 ^ y.t.width := by
  have hall : ∀ z ∈ [x, y], intSrc z := by simp [hx, hy]
  exact ⟨codeOf_lt u h imm _ 0 l hall x rfl, codeOf_lt u h imm _ 1 l hall y rfl⟩

/-- Settles O1: every one of them is the two-source shape at an operation that gives the result of the table. -/
theorem integerTwoSources : Obligations.IntegerTwoSources := by
  unfold Obligations.IntegerTwoSources
  intro o t f s u xs h hc ho
  obtain ⟨hi, hr⟩ := o.ring t f
  rw [exec_intBin, runInstr_next h hc]
  refine ⟨_, rfl, int2_computes h hi hr f t _ _ _ _ (intSrc_srcB f t) ho fun l => ?_⟩
  obtain ⟨-, hb⟩ := codeOf_lt_two u f.h f.imm (intSrc_srcA f t) (intSrc_srcB f t) l
  exact o.gives t (intEnv (rEnv f.h u.p.fmt u.g.srseed)) _ _ (intCvt_width t ▸ hb)

/-! ## A value and a count or control word -/

/-- The operation of BFE or a shift on a code and its count or control word. -/
def IntShift.op (o : IntShift) (t : IntTy) (a n : Nat) : Nat :=
  match o with
  | .bfe => bfeOp t a n
  | .sar => sarOp t a n
  | .shl => shlOp t.width a n
  | .shr => shrOp t.width a n

theorem exec_intShift (o : IntShift) (t : IntTy) (f : RFmt) (s : State) :
    exec (o.instr t f) s =
      runInstr (o.instr t f) (fun u => int2 u f t (t.width == 64) (o.second f) fun _ => o.op t) s := by
  cases o <;> rfl

theorem IntShift.ring (o : IntShift) (t : IntTy) (f : RFmt) :
    isIret (o.instr t f) = false ∧ entersRing (o.instr t f) = true := by
  cases o <;> exact ⟨rfl, rfl⟩

theorem IntShift.gives (o : IntShift) (t : IntTy) (a n : Nat) (ht : o.accepts t = true) (ha : a < 2 ^ t.width) :
    o.Gives t a n (o.op t a n) := by
  cases o with
  | bfe => exact fun k hk => bfe_bit t a n k hk
  | sar => exact fun k hk => sar_bit t a n k ht ha hk
  | shl => exact fun k hk => shl_bit t.width a n k hk
  | shr => exact fun k _ => shr_bit t.width a n k ha

theorem IntShift.second_b32 (o : IntShift) (f : RFmt) : (o.second f).t = .b32 := by
  cases o <;> rfl

/-- Settles O2: the two-source shape at the operations on bits. -/
theorem integerFieldsAndShifts : Obligations.IntegerFieldsAndShifts := by
  unfold Obligations.IntegerFieldsAndShifts
  intro o t f s u xs ht h hc ho
  obtain ⟨hi, hr⟩ := o.ring t f
  have hb : intSrc (o.second f) := intSrc_b32 (o.second_b32 f)
  rw [exec_intShift, runInstr_next h hc]
  refine ⟨_, rfl, int2_computes h hi hr f t _ _ _ _ hb ho fun l => ?_⟩
  obtain ⟨ha, -⟩ := codeOf_lt_two u f.h f.imm (intSrc_srcA f t) hb l
  exact o.gives t _ _ ht (intCvt_width t ▸ ha)

/-! ## Three sources -/

/-- The second and the third source. -/
def IntTri.second (o : IntTri) (t : IntTy) (f : RFmt) : Src :=
  match o with
  | .lea | .prmt => countB f
  | .bfi | .imad | .sel | .shf => srcB f (intCvt t) 1

def IntTri.third (o : IntTri) (t : IntTy) (f : RFmt) : Src :=
  match o with
  | .imad => srcC f (intCvt t) 1
  | _ => countC f

theorem IntTri.sources_eq (o : IntTri) (t : IntTy) (f : RFmt) :
    o.sources t f = [srcA f (intCvt t) 1, o.second t f, o.third t f] := by
  cases o <;> rfl

/-- The operation of a three-source instruction on codes; `right` is bit 6 of MOD. -/
def IntTri.op (o : IntTri) (t : IntTy) (right : Bool) (E : REnv) (a b c : Nat) : Nat :=
  match o with
  | .bfi => bfiOp t.width a b c
  | .imad => intFinish t E.sat (intVal t a * intVal t b + intVal t c)
  | .lea => leaOp t a b c
  | .prmt => prmtOp a b c
  | .sel => if c % 2 = 1 then a else b
  | .shf => shfOp right t.width a b c

theorem exec_intTri (o : IntTri) (t : IntTy) (f : RFmt) (s : State) (ht : o.accepts t = true) :
    exec (o.instr t f) s = runInstr (o.instr t f)
      (fun u => int3 u f t (t.width == 64) (o.second t f) (o.third t f) (o.op t (f.mod.getLsbD 6))) s := by
  cases o with
  | prmt =>
    obtain rfl : t = .b32 := eq_of_beq ht
    rfl
  | bfi | imad | lea | sel | shf => rfl

theorem IntTri.ring (o : IntTri) (t : IntTy) (f : RFmt) : isIret (o.instr t f) = false ∧ entersRing (o.instr t f) = true := by
  cases o <;> exact ⟨rfl, rfl⟩

theorem IntTri.intSrc (o : IntTri) (t : IntTy) (f : RFmt) : intSrc (o.second t f) ∧ intSrc (o.third t f) := by
  cases o with
  | bfi | sel | shf => exact ⟨intSrc_srcB f t, intSrc_b32 rfl⟩
  | imad => exact ⟨intSrc_srcB f t, intSrc_srcC f t⟩
  | lea | prmt => exact ⟨intSrc_b32 rfl, intSrc_b32 rfl⟩

theorem IntTri.gives (o : IntTri) (t : IntTy) (right : Bool) (E : REnv) (a b c : Nat) (ha : a < 2 ^ t.width) :
    o.Gives t E.sat right a b c (o.op t right E a b c) := by
  cases o with
  | bfi => exact fun k _ => bfi_bit t.width a b c k
  | imad => exact finishes t E.sat _
  | lea => exact lea_spec t a b c
  | prmt => exact fun k hk j hj => prmt_bit a b c k j hk hj
  | sel =>
    show (if c % 2 = 1 then a else b) = if c.testBit 0 then a else b
    simp [Nat.testBit_zero]
  | shf => exact fun k hk => shf_bit right t.width a b c k ha hk

/-- Settles O3: the three-source shape. -/
theorem integerThreeSources : Obligations.IntegerThreeSources := by
  unfold Obligations.IntegerThreeSources
  intro o t f s u xs ht h hc ho
  obtain ⟨hi, hr⟩ := o.ring t f
  obtain ⟨hb, hcs⟩ := o.intSrc t f
  have hxs : xs = [srcA f (intCvt t) 1, o.second t f, o.third t f] := o.sources_eq t f
  rw [hxs] at ho ⊢
  rw [exec_intTri o t f s ht, runInstr_next h hc]
  refine ⟨_, rfl, int3_computes h hi hr f t _ _ _ _ _ hb hcs ho fun l => ?_⟩
  have hall : ∀ z ∈ [srcA f (intCvt t) 1, o.second t f, o.third t f], Machine.intSrc z := by
    simp [hb, hcs, intSrc_srcA]
  have ha := codeOf_lt u f.h f.imm _ 0 l hall _ rfl
  exact o.gives t _ (intEnv (rEnv f.h u.p.fmt u.g.srseed)) _ _ _ (intCvt_width t ▸ ha)

/-! ## One source -/

/-- The operation of a one-source instruction on a code. -/
def IntOne.op (o : IntOne) (t : IntTy) (sat : Bool) (a : Nat) : Nat :=
  match o with
  | .brev => brevOp t.width a
  | .clz => clzOp t.width a
  | .iabs => intFinish t sat ((intVal t a).natAbs : Int)
  | .popc => popcOp t.width a

theorem exec_intOne (o : IntOne) (t : IntTy) (f : RFmt) (s : State) :
    exec (o.instr t f) s =
      runInstr (o.instr t f) (fun u => int1 u f t (o.wide t) (o.op t (satEff f.h u.p.fmt))) s := by
  cases o <;> rfl

theorem IntOne.ring (o : IntOne) (t : IntTy) (f : RFmt) : isIret (o.instr t f) = false ∧ entersRing (o.instr t f) = true := by
  cases o <;> exact ⟨rfl, rfl⟩

theorem IntOne.gives (o : IntOne) (t : IntTy) (sat : Bool) (a : Nat) (ha : a < 2 ^ t.width) :
    o.Gives t sat a (o.op t sat a) := by
  cases o with
  | brev => exact fun k hk => brev_bit t.width a k hk
  | clz => exact clz_spec t.width a ha
  | iabs => exact finishes t sat _
  | popc => rfl

/-- Settles O4: the one-source shape. -/
theorem integerOneSource : Obligations.IntegerOneSource := by
  unfold Obligations.IntegerOneSource
  intro o t f s u xs h hc ho
  obtain ⟨hi, hr⟩ := o.ring t f
  rw [exec_intOne, runInstr_next h hc]
  refine ⟨_, rfl, int1_computes h hi hr f t _ _ _ ho fun l => ?_⟩
  have hall : ∀ z ∈ [srcA f (intCvt t) 1], intSrc z := by simp [intSrc_srcA]
  have ha := codeOf_lt u f.h f.imm _ 0 l hall _ rfl
  exact o.gives t _ _ (intCvt_width t ▸ ha)

end Sys2Proof.Machine
end

section
/-!
SUPPORT. The float class, conversions and moves (20 R311, R312; 21 R320 to R332; 22 R370 to R373; 23 R383): what each gives a
lane, as the shared course of lanes leaves it; and the obligations about them.
-/
namespace Sys2Proof.Machine

/-! ## The float class -/

/-- A float instruction is the float shape at its operation on positions. -/
theorem exec_floatOp (o : FloatOp) (t : FloTy) (f : RFmt) (s : State) :
    exec (o.instr t f) s =
      runInstr (o.instr t f) (fun u => runFloat u t f o.arity (o.position t (bits f.mod 4 3))) s := by
  cases o <;> rfl

theorem FloatOp.ring (o : FloatOp) (t : FloTy) (f : RFmt) : isIret (o.instr t f) = false ∧ entersRing (o.instr t f) = true := by
  cases o <;> exact ⟨rfl, rfl⟩

/-- What the float shape computes in a lane. -/
theorem floLane_eq (o : FloatOp) (u : Iss) (t : FloTy) (f : RFmt) (l : Nat) :
    floLane t (o.position t (bits f.mod 4 3)) (rEnv f.h u.p.fmt u.g.srseed) (mapLanes u)
      ((o.sources t f).map (resolveSrc u f.imm)) l (Lane.start (u.g.srctr.get l)) = o.lane u t f l := rfl

theorem operandsOk_parts {u : Iss} {h : Hdr} {d : Opnd} {wide : Bool} {xs : List Src} (ho : operandsOk u h d wide xs = true) :
    lanesLegal u h d wide xs = true ∧ mapTrap u xs = none := by
  simpa [operandsOk] using ho

/-- Settles O6: the float shape is the shared course of lanes at `FloatOp.lane`, or its NaN trap. -/
theorem floatClass : Obligations.FloatClass := by
  unfold Obligations.FloatClass
  constructor
  · intro o t f s u xs ls h hc ho hn
    obtain ⟨hi, hr⟩ := o.ring t f
    obtain ⟨hk, hm⟩ := operandsOk_parts ho
    have he := runLanes_effect h hi f.h f.d false xs f.imm true
      (fun E rs l L => floLane t (o.position t (bits f.mod 4 3)) E (mapLanes u) rs l L) rfl hk hm hn
    rw [exec_floatOp, runInstr_next h hc]
    rw [hr, Bool.true_and] at he
    exact ⟨_, rfl, he⟩
  · intro o t f s u xs ls h hc ho hn
    obtain ⟨hk, hm⟩ := operandsOk_parts ho
    obtain ⟨r, hcause, h0, h1, hmask, hexec⟩ := runLanes_nan h f.h f.d false xs f.imm
      (fun E rs l L => floLane t (o.position t (bits f.mod 4 3)) E (mapLanes u) rs l L) (fun l => (o.lane u t f l).2) hk hm
      (fun l => congrArg Prod.snd (floLane_eq o u t f l)) hn
    rw [exec_floatOp, runInstr_next h hc]
    exact ⟨r, hcause, h0, h1, hmask, congrArg Host.Outcome.next hexec⟩

/-! ## Conversions -/

/-- A field replaced, bit by bit. -/
theorem insertField_bit (old lo n v k : Nat) :
    (insertField old lo n v).testBit k = if lo ≤ k ∧ k < lo + n then v.testBit (k - lo) else old.testBit k := by
  have e : insertField old lo n v = 2 ^ lo * (2 ^ n * (old / 2 ^ (lo + n)) + v % 2 ^ n) + old % 2 ^ lo := by
    rw [insertField, pow_add]; ring
  rw [e, Nat.testBit_two_pow_mul_add _ (Nat.mod_lt _ (by positivity)),
    Nat.testBit_two_pow_mul_add _ (Nat.mod_lt _ (by positivity)), Nat.testBit_mod_two_pow, Nat.testBit_mod_two_pow,
    Nat.testBit_div_two_pow]
  by_cases h1 : k < lo
  · simp [h1, show ¬ lo ≤ k by omega]
  · by_cases h2 : k - lo < n
    · simp [h1, h2, show lo ≤ k by omega, show k < lo + n by omega]
    · simp [h1, h2, show ¬ k < lo + n by omega, show k - lo - n + (lo + n) = k by omega]

/-- What CVT leaves in a lane: the code in its field of the destination as it was. -/
def cvtValue (u : Iss) (c : CvtTy) (f : RFmt) (l : Nat) : Nat :=
  insertField (if f.h.wbs then 0 else readNat u 0#64 ((cvtDest f.mod).width == 64) f.d l)
    ((cvtDest f.mod).width * cvtPos f.mod) (cvtDest f.mod).width (cvtCode u c f l).1

theorem exec_cvt_next {c : CvtTy} {f : RFmt} {s : State} {u : Iss} (h : issuer s (.cvt c f) = some u) (hc : clear u = true) :
    let xs : List Src := [{ o := f.a, sel := f.ma.toNat, tb := f.ta, t := c }]
    let w := (cvtDest f.mod).width
    let ls := resultLanes u f.h f.d
    operandsOk u f.h f.d (w == 64) xs = true → noNanTrap u ls (fun l => (cvtCode u c f l).2) = true →
    ∃ s', exec (.cvt c f) s = .next s' ∧
      LaneEffect u f.d (w == 64) (toRing f.h f.d) (lanesAct f.d ls) [f.a] ls (cvtValue u c f) (fun l => (cvtCode u c f l).2) s' := by
  intro xs w ls ho hn
  obtain ⟨hk, hm⟩ := operandsOk_parts ho
  have hexec : exec (.cvt c f) s = execCvt c f s := rfl
  rw [hexec, execCvt, runInstr_next h hc]
  exact ⟨_, rfl, runLanes_effect h rfl f.h f.d (w == 64) xs f.imm true _ rfl hk hm hn⟩

theorem exec_fquant_next {t : FloTy} {f : RFmt} {s : State} {u : Iss} (h : issuer s (.fquant t f) = some u)
    (hc : clear u = true) (hq : quantScaleOk f = true) :
    let xs : List Src := [{ o := f.a, sel := f.ma.toNat, tb := f.ta, t := floCvt t, n := t.positions }, { o := f.b, t := .b32 }]
    let ls := resultLanes u f.h f.d
    operandsOk u f.h f.d false xs = true → noNanTrap u ls (fun l => (quantOut u t f l).2) = true →
    ∃ s', exec (.fquant t f) s = .next s' ∧
      LaneEffect u f.d false (toRing f.h f.d) (lanesAct f.d ls) [f.a, f.b] ls (fun l => (quantOut u t f l).1)
        (fun l => (quantOut u t f l).2) s' := by
  intro xs ls ho hn
  obtain ⟨hk, hm⟩ := operandsOk_parts ho
  have hexec : exec (.fquant t f) s = execFquant t f s := rfl
  rw [hexec, execFquant, runInstr_next h hc]
  exact ⟨_, rfl, runLanes_effect h rfl f.h f.d false xs f.imm (quantScaleOk f) _ hq hk hm hn⟩

/-! ## FAMAX: blocks of 32 lanes -/

/-- A rising list cut at a value. -/
theorem filter_lt_append_filter_le {ls : List Nat} (h : ls.Pairwise (· < ·)) (n : Nat) :
    ls.filter (fun l => decide (l < n)) ++ ls.filter (fun l => decide (n ≤ l)) = ls := by
  induction ls with
  | nil => rfl
  | cons a t ih =>
    obtain ⟨ha, ht⟩ := List.pairwise_cons.mp h
    by_cases hlt : a < n
    · simp [hlt, show ¬ n ≤ a by omega, ih ht]
    · have h1 : ∀ x ∈ t, n ≤ x := fun x hx => by have := ha x hx; omega
      have h2 : t.filter (fun l => decide (l < n)) = [] :=
        List.filter_eq_nil_iff.mpr fun x hx => by have := h1 x hx; simp; omega
      have h3 : t.filter (fun l => decide (n ≤ l)) = t := List.filter_eq_self.mpr fun x hx => by simp [h1 x hx]
      simp [hlt, h2, h3, show n ≤ a by omega]

theorem toList_rising (m : Lanes) : m.toList.Pairwise (· < ·) := List.pairwise_lt_range.filter _

theorem toList_lt {m : Lanes} {l : Nat} (h : l ∈ m.toList) : l < 64 :=
  List.mem_range.mp (List.mem_filter.mp h).1

theorem lowest_lt (m : Lanes) : (m.lowest).getD 0 < 64 := by
  unfold Lanes.lowest
  cases hl : m.toList with
  | nil => decide
  | cons a t => exact toList_lt (m := m) (l := a) (by rw [hl]; exact List.mem_cons_self)

/-- The lanes an instruction computes rise, below 64. -/
theorem resultLanes_rising (u : Iss) (h : Hdr) (d : Opnd) :
    (resultLanes u h d).Pairwise (· < ·) ∧ ∀ l ∈ resultLanes u h d, l < 64 := by
  unfold resultLanes
  split
  · split
    · exact ⟨List.pairwise_singleton _ _, fun l hl => List.mem_singleton.mp hl ▸ lowest_lt _⟩
    · exact ⟨List.Pairwise.nil, fun l hl => absurd hl List.not_mem_nil⟩
  · exact ⟨toList_rising _, fun l hl => toList_lt hl⟩

/-- FAMAX's outcome in lane `l` of a block. -/
def famaxIn (u : Iss) (t : FloTy) (f : RFmt) (block : List Nat) (l : Nat) : Nat × Lane :=
  let ss := (List.range t.positions).map fun p =>
    blockScale (quantFmt f.mod) (amaxOf (fmtOf t) (block.map fun k => (famaxCodes u t f k).1.getD p 0))
  let L := (famaxCodes u t f l).2
  (ss.zipIdx.foldl (fun w r => w + r.1.val * 256 ^ r.2) 0,
   { L with flags := L.flags ||| ss.foldl (fun x r => x ||| r.flags) fNone, produced := L.produced || ss.any fun r => r.produced })

theorem famaxOut_eq (u : Iss) (t : FloTy) (f : RFmt) (l : Nat) :
    famaxOut u t f l = famaxIn u t f ((resultLanes u f.h f.d).filter fun k => k / 32 == l / 32) l := rfl

theorem famaxBlock_eq (u : Iss) (t : FloTy) (f : RFmt) (block : List Nat) :
    famaxBlock t (quantFmt f.mod) (block.map fun l => (l, famaxCodes u t f l)) =
      block.map fun l => (l, famaxIn u t f block l) := by
  simp only [famaxBlock, List.map_map]
  rfl

/-- The two blocks together give every lane its outcome. -/
theorem famaxBlocks_eq (u : Iss) (t : FloTy) (f : RFmt) :
    let fetched := (resultLanes u f.h f.d).map fun l => (l, famaxCodes u t f l)
    famaxBlock t (quantFmt f.mod) (fetched.filter fun x => x.1 < 32) ++
        famaxBlock t (quantFmt f.mod) (fetched.filter fun x => 32 ≤ x.1) =
      (resultLanes u f.h f.d).map fun l => (l, (famaxOut u t f l).1, (famaxOut u t f l).2) := by
  obtain ⟨hup, hlt⟩ := resultLanes_rising u f.h f.d
  intro fetched
  generalize hls : resultLanes u f.h f.d = ls at *
  have hlow : ∀ l ∈ ls.filter (fun l => decide (l < 32)), (l, famaxIn u t f (ls.filter fun l => decide (l < 32)) l) =
      (l, (famaxOut u t f l).1, (famaxOut u t f l).2) := by
    intro l hl
    have hl32 : l < 32 := by simpa using (List.mem_filter.mp hl).2
    have hsame : ls.filter (fun k => decide (k < 32)) = ls.filter (fun k => k / 32 == l / 32) :=
      List.filter_congr fun k hk => by
        have := hlt k hk
        rw [beq_eq_decide, decide_eq_decide]
        omega
    rw [famaxOut_eq, hls, hsame]
  have hhigh : ∀ l ∈ ls.filter (fun l => decide (32 ≤ l)), (l, famaxIn u t f (ls.filter fun l => decide (32 ≤ l)) l) =
      (l, (famaxOut u t f l).1, (famaxOut u t f l).2) := by
    intro l hl
    have hl32 : 32 ≤ l := by simpa using (List.mem_filter.mp hl).2
    have hl64 := hlt l (List.mem_filter.mp hl).1
    have hsame : ls.filter (fun k => decide (32 ≤ k)) = ls.filter (fun k => k / 32 == l / 32) :=
      List.filter_congr fun k hk => by
        have := hlt k hk
        rw [beq_eq_decide, decide_eq_decide]
        omega
    rw [famaxOut_eq, hls, hsame]
  have hf : ∀ p : Nat → Bool, fetched.filter (fun x => p x.1) = (ls.filter p).map fun l => (l, famaxCodes u t f l) :=
    fun p => by rw [← hls]; exact List.filter_map
  rw [hf fun l => decide (l < 32), hf fun l => decide (32 ≤ l), famaxBlock_eq, famaxBlock_eq, List.map_congr_left hlow,
    List.map_congr_left hhigh, ← List.map_append, filter_lt_append_filter_le hup]

theorem exec_famax_next {t : FloTy} {f : RFmt} {s : State} {u : Iss} (h : issuer s (.famax t f) = some u)
    (hc : clear u = true) :
    let xs : List Src := [{ o := f.a, sel := f.ma.toNat, tb := f.ta, t := floCvt t, n := t.positions }]
    let ls := resultLanes u f.h f.d
    operandsOk u f.h f.d false xs = true → noNanTrap u ls (fun l => (famaxOut u t f l).2) = true →
    ∃ s', exec (.famax t f) s = .next s' ∧
      LaneEffect u f.d false (toRing f.h f.d) (lanesAct f.d ls) [f.a] ls (fun l => (famaxOut u t f l).1)
        (fun l => (famaxOut u t f l).2) s' := by
  intro xs ls ho hn
  obtain ⟨hk, hm⟩ := operandsOk_parts ho
  have hexec : exec (.famax t f) s = execFamax t f s := rfl
  rw [hexec, execFamax, runInstr_next h hc]
  exact ⟨_, rfl, runSet_effect h rfl f.h f.d false xs f.imm true _ _ _ _ rfl hk hm (famaxBlocks_eq u t f) hn⟩

/-! ## Sources read as bits -/

/-- IMM32 as a 32-bit source reads it. -/
theorem readNat_word (u : Iss) (imm : Word) (o : Opnd) (l : Nat) :
    readNat u (imm.zeroExtend 64) false o l = (readWord u imm o l).toNat := by
  cases o
  case imm =>
    have := imm.isLt
    simp only [readNat, readWord, Bool.false_eq_true, if_false, BitVec.truncate_eq_setWidth, BitVec.toNat_setWidth]
    omega
  all_goals rfl

theorem readNat_pair (u : Iss) (imm : DWord) (o : Opnd) (l : Nat) :
    readNat u imm true o l = if o = .imm then imm.toNat else (readPair u o l).toNat := by
  have hlt : ∀ x y : Word, x.toNat + 2 ^ 32 * y.toNat < 2 ^ 64 := fun x y => by have := x.isLt; have := y.isLt; omega
  cases o
  case imm => rfl
  all_goals
    simp only [reduceCtorEq, if_false, readPair, readNat, if_true, BitVec.toNat_ofNat]
    exact (Nat.mod_eq_of_lt (hlt _ _)).symm

theorem idle_noNan (u : Iss) (ls : List Nat) : noNanTrap u ls (idle u) = true := by
  simp [noNanTrap, idle, Lane.start]

/-- Settles O7: each is the shared course of lanes; FAMAX's two blocks of lanes make one list (`famaxBlocks_eq`). -/
theorem conversions : Obligations.Conversions := by
  unfold Obligations.Conversions
  refine ⟨?cvt, ?fquant, ?famax, ?rng⟩
  case cvt =>
    intro c f s u xs w ls h hc ho hn
    obtain ⟨s', hexec, heff⟩ := exec_cvt_next h hc ho hn
    exact ⟨s', cvtValue u c f, hexec, fun l _ k _ => insertField_bit _ _ _ _ k, heff⟩
  case fquant =>
    intro t f s u xs ls h hc hq ho hn
    exact exec_fquant_next h hc hq ho hn
  case famax =>
    intro t f s u xs ls h hc ho hn
    exact exec_famax_next h hc ho hn
  case rng =>
    intro f s u xs h hc ho
    obtain ⟨hk, hm⟩ := operandsOk_parts ho
    have hexec : exec (.rng f) s = execRng f s := rfl
    have hraw : ∀ o l, BitVec.ofNat 32 (readNat u (f.imm.zeroExtend 64) false o l) = readWord u f.imm o l := fun o l => by
      rw [readNat_word, BitVec.ofNat_toNat, BitVec.setWidth_eq]
    rw [hexec, execRng, runInstr_next h hc]
    simp only [← hraw]
    exact ⟨_, rfl, runLanes_effect h rfl f.h f.d false xs f.imm true _ rfl hk hm (idle_noNan u _)⟩

/-! ## Moves and special registers -/

/-- An instruction that names no source and does not enter the ring: that it acts on no lane leaves nothing more. -/
theorem LaneEffect.acts {u : Iss} {d : Opnd} {wide a : Bool} {ls : List Nat} {val : Nat → Nat} {lane : Nat → Lane} {t : State}
    (h : LaneEffect u d wide false a [] ls val lane t) (b : Bool) : LaneEffect u d wide false b [] ls val lane t := by
  simpa [LaneEffect, latchLost] using h

theorem movsrDst_ok {g : Group} {k : SrKind} {d : Opnd} (h : movsrDst g k d = true) : dstOk g (k == .u64) d = true := by
  cases d <;> cases k <;> simp_all [movsrDst, dstOk]

theorem exec_movsr_next {f : KFmt} {s : State} {u : Iss} (h : issuer s (.movsr f) = some u) (hc : clear u = true) :
    let n := bits f.kimm 0 8
    let k := srKind n
    (f.a == .imm && movsrDst u.g k f.d) = true → (isScalar f.d && guardIsVector f.h.guard) = false →
    (n = 0x14 → u.g.repro = false) →
    ∃ s', exec (.movsr f) s = .next s' ∧
      LaneEffect u f.d (k == .u64) false true [] (resultLanes u f.h f.d)
        (fun l => srValue u n (if isScalar f.d then 0 else l)) (idle u) s' := by
  intro n k ho hg hrepro
  obtain ⟨ha, hd⟩ := Bool.and_eq_true_iff.mp ho
  have hexec : exec (.movsr f) s = execMovsr f s := rfl
  have hlegal : (f.a != .imm || !movsrDst u.g k f.d || (isScalar f.d && guardIsVector f.h.guard)) = false := by
    rw [hd, hg, show (f.a != .imm) = false by simpa [bne] using ha]; rfl
  have hclock : ¬ (n = 0x14 ∧ u.g.repro = true) := fun e => by simp [hrepro e.1] at e
  rw [hexec, execMovsr, runInstr_next h hc]
  simp only [show bits f.kimm 0 8 = n from rfl, show srKind n = k from rfl, hlegal, hclock, Bool.false_eq_true, if_false]
  have hdst := movsrDst_ok hd
  unfold resultLanes
  cases hs : isScalar f.d with
  | false =>
    simp only [Bool.false_and, Bool.false_eq_true, if_false]
    exact ⟨_, rfl, vectorWrite_effect h rfl f.d _ false _ hdst hs⟩
  | true =>
    cases hsg : scalarGuard u.g f.h.guard with
    | false => exact ⟨_, rfl, (nil_effect h rfl f.d _ false [] _ (idle u)).acts true⟩
    | true =>
      exact ⟨_, rfl, scalarWrite_effect h rfl f.d _ [(u.p.members.lowest).getD 0] (fun _ => srValue u n 0)
        (List.cons_ne_nil _ _) hdst hs⟩

theorem exec_fltrd_next {f : KFmt} {s : State} {u : Iss} (h : issuer s (.fltrd f) = some u) (hc : clear u = true)
    (hd : dstOk u.g (!f.mod.getLsbD 0) f.d = true) (hv : ∃ n, f.d = .v n) :
    ∃ s', exec (.fltrd f) s = .next s' ∧
      LaneEffect u f.d (!f.mod.getLsbD 0) false true [] (active u).toList
        (fun l => if f.mod.getLsbD 0 then (fltOf u.g l).2 else (fltOf u.g l).1.toNat) (idle u) s' := by
  obtain ⟨n, hn⟩ := hv
  have hs : isScalar f.d = false := by rw [hn]; rfl
  have hexec : exec (.fltrd f) s = execFltrd f s := rfl
  have hlegal : (if f.mod.getLsbD 0 then vecOk u.g n.val else vecPairOk u.g n.val) = true := by
    rw [hn] at hd
    cases hm : f.mod.getLsbD 0 <;> rw [hm] at hd <;> exact hd
  have heff := vectorWrite_effect h rfl f.d (!f.mod.getLsbD 0) false
    (fun l => if f.mod.getLsbD 0 then (fltOf u.g l).2 else (fltOf u.g l).1.toNat) hd hs
  rw [hexec, execFltrd, runInstr_next h hc]
  rw [hn] at heff ⊢
  simp only [hlegal]
  exact ⟨_, rfl, heff⟩

end Sys2Proof.Machine

namespace Sys2Proof
open Machine

/-- Settles O10: the three MOVs are the shared course of lanes at the source's bits; MOVSR and FLTRD write their value. -/
theorem moves : Obligations.Moves := by
  unfold Obligations.Moves
  refine ⟨?b32, ?b64, ?imm64, ?movsr, ?fltrd⟩
  case b32 =>
    intro f s u xs h hc ho
    obtain ⟨hk, hm⟩ := operandsOk_parts ho
    have hexec : exec (.movB32 f) s = execMovB32 f s := rfl
    rw [hexec, execMovB32, runInstr_next h hc]
    simp only [← readNat_word]
    exact ⟨_, rfl, runLanes_effect h rfl f.h f.d false xs f.imm true _ rfl hk hm (idle_noNan u _)⟩
  case b64 =>
    intro f s u xs h hc ho
    obtain ⟨hk, hm⟩ := operandsOk_parts ho
    have hexec : exec (.movB64 f) s = execMovB64 f s := rfl
    have himm : f.imm.toNat = (f.imm.zeroExtend 64).toNat := by
      have := f.imm.isLt
      simp only [BitVec.truncate_eq_setWidth, BitVec.toNat_setWidth]
      omega
    rw [hexec, execMovB64, runInstr_next h hc]
    simp only [himm, ← readNat_pair]
    exact ⟨_, rfl, runLanes_effect h rfl f.h f.d true xs f.imm true _ rfl hk hm (idle_noNan u _)⟩
  case imm64 =>
    intro f s u h hc ho
    obtain ⟨hb, ho⟩ := Bool.and_eq_true_iff.mp ho
    obtain ⟨hk, hm⟩ := operandsOk_parts ho
    have hexec : exec (.movB64Imm64 f) s = execMovB64Imm64 f s := rfl
    rw [hexec, execMovB64Imm64, runInstr_next h hc]
    exact ⟨_, rfl, runLanes_effect h rfl f.h f.d true [] 0#32 (f.b == .imm) _ hb hk hm (idle_noNan u _)⟩
  case movsr =>
    intro f s u n k h hc ho hg hrepro
    exact exec_movsr_next h hc ho hg hrepro
  case fltrd =>
    intro f s u fw h hc hd hv
    exact exec_fltrd_next h hc hd hv

end Sys2Proof
end

section
/-!
SUPPORT. The lane class (22 R358 to R361; 23 R379 to R382): reductions and scans of integer codes, the lanes of equal value,
shuffles, votes and partitions; and the obligations about them.
-/
namespace Sys2Proof.Machine

/-! ## Reductions of integer codes -/

theorem foldl_and_testBit (xs : List Nat) (k : Nat) : ∀ x, (xs.foldl (fun a b => a &&& b) x).testBit k =
    (x.testBit k && xs.all (·.testBit k)) := by
  induction xs with
  | nil => simp
  | cons a t ih => intro x; simp [ih, Bool.and_assoc]

theorem foldl_or_testBit (xs : List Nat) (k : Nat) : ∀ x, (xs.foldl (fun a b => a ||| b) x).testBit k =
    (x.testBit k || xs.any (·.testBit k)) := by
  induction xs with
  | nil => simp
  | cons a t ih => intro x; simp [ih, Bool.or_assoc]

theorem foldl_xor_testBit (xs : List Nat) (k : Nat) : ∀ x, (xs.foldl (fun a b => a ^^^ b) x).testBit k =
    decide (((x :: xs).filter (·.testBit k)).length % 2 = 1) := by
  induction xs with
  | nil => intro x; cases hx : x.testBit k <;> simp [hx]
  | cons a t ih =>
    intro x
    rw [List.foldl_cons, ih (x ^^^ a)]
    cases hx : x.testBit k <;> cases ha : a.testBit k <;> simp [hx, ha]
    omega

/-- A choice between two, made along a list in favour of the better of them by `le`, is in the list and the best in it. -/
theorem foldl_choose {α : Type} (v : α → Int) (le : Int → Int → Prop) (hrefl : ∀ a, le a a)
    (htrans : ∀ a b c, le a b → le b c → le a c) (choose : α → α → α)
    (hc : ∀ a b, (choose a b = a ∨ choose a b = b) ∧ le (v (choose a b)) (v a) ∧ le (v (choose a b)) (v b)) (xs : List α) :
    ∀ x, (xs.foldl choose x ∈ x :: xs) ∧ ∀ y ∈ x :: xs, le (v (xs.foldl choose x)) (v y) := by
  induction xs with
  | nil => intro x; simp [hrefl]
  | cons a t ih =>
    intro x
    obtain ⟨hin, hbest⟩ := ih (choose x a)
    obtain ⟨hone, hx, ha⟩ := hc x a
    rw [List.foldl_cons]
    have hhead := hbest (choose x a) List.mem_cons_self
    refine ⟨?_, ?_⟩
    · rcases List.mem_cons.mp hin with e | e
      · rw [e]
        rcases hone with h1 | h1 <;> simp [h1]
      · exact List.mem_cons_of_mem _ (List.mem_cons_of_mem _ e)
    · intro y hy
      rcases List.mem_cons.mp hy with rfl | hy
      · exact htrans _ _ _ hhead hx
      rcases List.mem_cons.mp hy with rfl | hy
      · exact htrans _ _ _ hhead ha
      · exact hbest y (List.mem_cons_of_mem _ hy)

/-- The model's reduction is the table's (22 R359). -/
theorem reducesInt (t : IntTy) (op : Nat) (sat : Bool) {xs : List Nat} (h : xs ≠ []) :
    ReducesInt t op sat xs (reduceInt t op sat xs) := by
  obtain ⟨x, rest, rfl⟩ := List.exists_cons_of_ne_nil h
  unfold ReducesInt reduceInt
  match op with
  | 0 => exact finishes t sat _
  | 1 =>
    obtain ⟨hin, hbest⟩ := foldl_choose (intVal t) (· ≤ ·) le_refl (fun _ _ _ => le_trans)
      (fun a b => if intVal t b < intVal t a then b else a)
      (fun a b => by by_cases hlt : intVal t b < intVal t a <;> simp [hlt] <;> omega) rest x
    exact ⟨⟨_, hin, rfl⟩, hbest⟩
  | 2 =>
    obtain ⟨hin, hbest⟩ := foldl_choose (intVal t) (· ≥ ·) le_refl (fun _ _ _ h1 h2 => le_trans h2 h1)
      (fun a b => if intVal t a < intVal t b then b else a)
      (fun a b => by by_cases hlt : intVal t a < intVal t b <;> simp [hlt] <;> omega) rest x
    exact ⟨⟨_, hin, rfl⟩, hbest⟩
  | 3 => intro k _; simpa using foldl_and_testBit rest k x
  | 4 => intro k _; simpa using foldl_or_testBit rest k x
  | n + 5 => intro k _; exact foldl_xor_testBit rest k x

theorem packLanes_one (w : Nat) (f : Nat → Lane → Nat × Lane) (L : Lane) :
    (packLanes w 1 f L).1 = (f 0 L).1 := by
  simp [packLanes, List.range_succ]

/-- Of an integer type a reduction is that of the codes. -/
theorem reduceAll_int {e : EltTy} {t : IntTy} (ht : eltInt e = some t) (op : Nat) (E : REnv) (cols : List (List Nat)) (L : Lane) :
    (reduceAll e op E cols L).1 = reduceInt t op E.sat (cols.map fun c => c.getD 0 0) := by
  have hn : eltPositions e = 1 := by simp [eltPositions, ht]
  rw [reduceAll, hn, packLanes_one, reducePos, ht]

theorem lredOut_lanes (e : EltTy) (op : Nat) (E : REnv) (fs : List LaneSource) :
    (lredOut e op E fs).map Prod.fst = fs.map Prod.fst := by
  cases fs with
  | nil => rfl
  | cons f rest => simp [lredOut]

/-- Every lane of LRED holds the one result. -/
theorem lredOut_values {e : EltTy} {op : Nat} {E : REnv} {fs : List LaneSource} {x : LaneOut} (hx : x ∈ lredOut e op E fs) :
    ∃ L, x.2.1 = (reduceAll e op E (fs.map fun f => f.2.1) L).1 := by
  cases fs with
  | nil => cases hx
  | cons f rest =>
    refine ⟨{ f.2.2 with produced := false }, ?_⟩
    rcases List.mem_cons.mp hx with rfl | hx
    · rfl
    · obtain ⟨y, -, rfl⟩ := List.mem_map.mp hx
      rfl

theorem lscanOut_lanes (e : EltTy) (op : Nat) (excl : Bool) (E : REnv) (fs : List LaneSource) :
    ∀ before, (lscanOut e op excl E before fs).map Prod.fst = fs.map Prod.fst := by
  induction fs with
  | nil => intro _; rfl
  | cons f rest ih => intro before; simp [lscanOut, ih]

/-- The lanes that a scan reduces for lane `l`: those up to it, or below it with .EXCL. -/
def scanned (excl : Bool) (l k : Nat) : Bool := if excl then decide (k < l) else decide (k ≤ l)

/-- Lane by lane, a scan reduces what it met before and the lanes of its list up to the lane. -/
theorem lscanOut_values {e : EltTy} {op : Nat} {excl : Bool} {E : REnv} {fs : List LaneSource} :
    ∀ {before : List (List Nat)}, (fs.map Prod.fst).Pairwise (· < ·) → ∀ x ∈ lscanOut e op excl E before fs,
      let cols := before ++ (fs.filter fun f => scanned excl x.1 f.1).map fun f => f.2.1
      ∃ L, x.2.1 = if cols.isEmpty then
        (packLanes (eltCvt e).width (eltPositions e) (fun _ L => (scanIdentity e op, L)) L).1 else (reduceAll e op E cols L).1 := by
  induction fs with
  | nil => intro before _ x hx; cases hx
  | cons f rest ih =>
    intro before hup x hx
    obtain ⟨hf, hrest⟩ := List.pairwise_cons.mp hup
    rcases List.mem_cons.mp hx with rfl | hx
    · have hnone : rest.filter (fun g => scanned excl f.1 g.1) = [] := by
        refine List.filter_eq_nil_iff.mpr fun g hg => ?_
        have hlt := hf g.1 (List.mem_map_of_mem hg)
        cases excl <;> simp [scanned] <;> omega
      have hown : (f :: rest).filter (fun g => scanned excl f.1 g.1) = if excl then [] else [f] := by
        rw [List.filter_cons, hnone]
        cases excl <;> simp [scanned]
      refine ⟨f.2.2, ?_⟩
      simp only [hown]
      cases excl
      · simp
      · simp only [if_true, List.map_nil, List.append_nil]
        split <;> rfl
    · obtain ⟨L, hL⟩ := ih hrest x hx
      have hin : x.1 ∈ rest.map Prod.fst := by
        rw [← lscanOut_lanes e op excl E rest (before ++ [f.2.1])]
        exact List.mem_map_of_mem hx
      have hlt := hf x.1 hin
      have hscan : scanned excl x.1 f.1 = true := by cases excl <;> simp [scanned] <;> omega
      refine ⟨L, ?_⟩
      simp only [List.filter_cons, hscan, if_true, List.map_cons]
      simpa [List.append_assoc] using hL

/-! ## Outcomes by lane -/

/-- A list of outcomes with distinct lanes is `outVal` and `outLane` over its lanes. -/
theorem outcomes_eq {out : List LaneOut} {ls : List Nat} (hl : out.map Prod.fst = ls) (hn : ls.Nodup) :
    out = ls.map fun l => (l, outVal out l, outLane out l) := by
  subst hl
  exact outcomes_fn out hn

theorem outVal_mem {out : List LaneOut} {ls : List Nat} (hl : out.map Prod.fst = ls) (hn : ls.Nodup) {l : Nat} (h : l ∈ ls) :
    ∃ x ∈ out, x.1 = l ∧ x.2.1 = outVal out l := by
  have he := outcomes_eq hl hn
  have hin : (l, outVal out l, outLane out l) ∈ ls.map fun l => (l, outVal out l, outLane out l) := List.mem_map_of_mem h
  exact ⟨_, Eq.subst (motive := fun o => (l, outVal out l, outLane out l) ∈ o) he.symm hin, rfl, rfl⟩

theorem laneSources_lanes (u : Iss) (e : EltTy) (f : RFmt) : (laneSources u e f).map Prod.fst = (active u).toList := by
  rw [laneSources, fetchLanes, List.map_map]
  exact List.map_id _

theorem laneSources_codes (u : Iss) (e : EltTy) (f : RFmt) (p : Nat → Bool) :
    (((laneSources u e f).filter fun x => p x.1).map fun x => x.2.1).map (fun c => c.getD 0 0) =
      ((active u).toList.filter p).map (laneCode u e f) := by
  rw [laneSources, fetchLanes, List.filter_map, List.map_map, List.map_map]
  rfl

theorem laneOk_parts {u : Iss} {e : EltTy} {f : RFmt} {wide : Bool}
    (ho : (dstOk u.g wide f.d && srcLegal u.g false (laneSrc e f) && (mapTrap u [laneSrc e f]).isNone) = true) :
    (dstOk u.g wide f.d && [laneSrc e f].all (srcLegal u.g false)) = true ∧ mapTrap u [laneSrc e f] = none := by
  simpa using ho

/-! ## LRED and LSCAN -/

theorem exec_lred_next {e : EltTy} {f : RFmt} {s : State} {u : Iss} (h : issuer s (.lred e f) = some u) (hc : clear u = true) :
    let ls := (active u).toList
    let out := lredOut e (laneOp f.mod) (rEnv f.h u.p.fmt u.g.srseed) (laneSources u e f)
    (dstOk u.g (e.width == 64) f.d && srcLegal u.g false (laneSrc e f) && (mapTrap u [laneSrc e f]).isNone) = true →
    noNanTrap u ls (outLane out) = true →
    ∃ s', exec (.lred e f) s = .next s' ∧
      LaneEffect u f.d (e.width == 64) (toRing f.h f.d) (ls != []) [f.a] ls (outVal out) (outLane out) s' := by
  intro ls out ho hn
  obtain ⟨hk, hm⟩ := laneOk_parts ho
  have hexec : exec (.lred e f) s = execLred e f s := rfl
  have hlanes : out.map Prod.fst = ls := (lredOut_lanes ..).trans (laneSources_lanes u e f)
  rw [hexec, execLred, runInstr_next h hc]
  refine ⟨_, rfl, unlessEmpty_effect h rfl f.d _ _ _ _ _ _ fun hne => ?_⟩
  exact runCross_effect h rfl f.h f.d _ [laneSrc e f] f.imm true _ _ _ rfl hk hm (fun _ => hne)
    (outcomes_eq hlanes (toList_nodup _)) hn

theorem exec_lscan_next {e : EltTy} {f : RFmt} {s : State} {u : Iss} (h : issuer s (.lscan e f) = some u) (hc : clear u = true)
    (hs : isScalar f.d = false) :
    let ls := (active u).toList
    let out := lscanOut e (laneOp f.mod) (f.mod.getLsbD 6) (rEnv f.h u.p.fmt u.g.srseed) [] (laneSources u e f)
    (dstOk u.g (e.width == 64) f.d && srcLegal u.g false (laneSrc e f) && (mapTrap u [laneSrc e f]).isNone) = true →
    noNanTrap u ls (outLane out) = true →
    ∃ s', exec (.lscan e f) s = .next s' ∧
      LaneEffect u f.d (e.width == 64) (toRing f.h f.d) true [f.a] ls (outVal out) (outLane out) s' := by
  intro ls out ho hn
  obtain ⟨hk, hm⟩ := laneOk_parts ho
  have hexec : exec (.lscan e f) s = execLscan e f s := rfl
  have hlanes : out.map Prod.fst = ls := (lscanOut_lanes ..).trans (laneSources_lanes u e f)
  rw [hexec, execLscan, runInstr_next h hc]
  exact ⟨_, rfl, runCross_effect h rfl f.h f.d _ [laneSrc e f] f.imm (!isScalar f.d) _ _ _ (by rw [hs]; rfl) hk hm
    (fun e => by rw [hs] at e; cases e) (outcomes_eq hlanes (toList_nodup _)) hn⟩

/-- LRED of an integer type. -/
theorem lred_reduces (u : Iss) (e : EltTy) (f : RFmt) {t : IntTy} (ht : eltInt e = some t) {l : Nat}
    (hl : l ∈ (active u).toList) :
    ReducesInt t (laneOp f.mod) (satEff f.h u.p.fmt) ((active u).toList.map (laneCode u e f))
      (outVal (lredOut e (laneOp f.mod) (rEnv f.h u.p.fmt u.g.srseed) (laneSources u e f)) l) := by
  obtain ⟨x, hx, -, hval⟩ := outVal_mem ((lredOut_lanes e (laneOp f.mod) (rEnv f.h u.p.fmt u.g.srseed) _).trans
    (laneSources_lanes u e f)) (toList_nodup _) hl
  obtain ⟨L, hr⟩ := lredOut_values hx
  have hcodes := laneSources_codes u e f fun _ => true
  simp only [List.filter_true] at hcodes
  rw [← hval, hr, reduceAll_int ht, hcodes]
  exact reducesInt t _ _ (List.ne_nil_of_mem (List.mem_map_of_mem hl))

/-- LSCAN of an integer type. -/
theorem lscan_reduces (u : Iss) (e : EltTy) (f : RFmt) {t : IntTy} (ht : eltInt e = some t) {l : Nat}
    (hl : l ∈ (active u).toList) :
    let out := lscanOut e (laneOp f.mod) (f.mod.getLsbD 6) (rEnv f.h u.p.fmt u.g.srseed) [] (laneSources u e f)
    let below := (active u).toList.filter (scanned (f.mod.getLsbD 6) l)
    if below = [] then outVal out l = scanIdentity e (laneOp f.mod)
    else ReducesInt t (laneOp f.mod) (satEff f.h u.p.fmt) (below.map (laneCode u e f)) (outVal out l) := by
  intro out below
  obtain ⟨x, hx, hxl, hval⟩ := outVal_mem ((lscanOut_lanes e (laneOp f.mod) (f.mod.getLsbD 6)
    (rEnv f.h u.p.fmt u.g.srseed) _ []).trans
    (laneSources_lanes u e f)) (toList_nodup _) hl
  obtain ⟨L, hr⟩ := lscanOut_values (laneSources_lanes u e f ▸ toList_rising _) x hx
  have hcodes := laneSources_codes u e f (scanned (f.mod.getLsbD 6) l)
  have hempty : ((laneSources u e f).filter fun y => scanned (f.mod.getLsbD 6) l y.1).isEmpty = true ↔ below = [] := by
    rw [laneSources, fetchLanes, List.filter_map, List.isEmpty_iff, List.map_eq_nil_iff]
    rfl
  have hn : eltPositions e = 1 := by simp [eltPositions, ht]
  simp only [List.nil_append, hxl, List.isEmpty_map, hval] at hr
  split
  case isTrue hb =>
    rw [if_pos (hempty.mpr hb), hn, packLanes_one] at hr
    exact hr
  case isFalse hb =>
    rw [if_neg (mt hempty.mp hb), reduceAll_int ht, hcodes] at hr
    rw [show outVal out l = _ from hr]
    exact reducesInt t _ _ fun e => hb (List.map_eq_nil_iff.mp e)

/-! ## Sources of a lane instruction read as bits -/

theorem readNat_register {o : Opnd} (h : isRegister o = true) (u : Iss) (i j : DWord) (wide : Bool) (l : Nat) :
    readNat u i wide o l = readNat u j wide o l := by
  cases o <;> first | rfl | cases h

theorem bitSrc_raw {o : Opnd} (h : isRegister o = true) (u : Iss) (e : EltTy) (imm : Word) :
    (resolveSrc u imm (bitSrc e o)).raw = rawBits u e imm o := by
  funext l
  have hw : (bitSrc e o).wide = (e.width == 64) := by cases e <;> rfl
  show readNat u _ (bitSrc e o).wide o l = readNat u _ (e.width == 64) o l
  rw [hw]
  exact readNat_register h u _ _ _ l

theorem b32_raw (u : Iss) (imm : Word) (o : Opnd) (l : Nat) :
    (resolveSrc u imm { o, t := .b32 }).raw l = (readWord u imm o l).toNat := readNat_word u imm o l

theorem mapTrap_unmapped (u : Iss) {xs : List Src} (h : ∀ x ∈ xs, x.sel = 0) : mapTrap u xs = none := by
  have hslots : (xs.findSome? fun x => slotTrap u x.sel) = none :=
    List.findSome?_eq_none_iff.mpr fun x hx => by simp [slotTrap, h x hx]
  rw [mapTrap, hslots]
  exact List.findSome?_eq_none_iff.mpr fun x hx => by simp [h x hx]

theorem ofPred_testBit (p : Nat → Bool) {k : Nat} (hk : k < 64) : (Lanes.ofPred p).toNat.testBit k = p k := by
  have h := ofPred_has p k
  rw [Lanes.has] at h
  show (Lanes.ofPred p).getLsbD k = p k
  rw [h]
  simp [hk]

/-! ## MATCH -/

/-- The lanes of `ls` whose key is that of lane `l`. -/
def matchMask (key : Nat → Nat) (ls : List Nat) (l : Nat) : Nat :=
  (Lanes.ofPred fun k => ls.contains k && key k == key l).toNat

theorem exec_match_next {e : EltTy} {f : RFmt} {s : State} {u : Iss} (h : issuer s (.matchLanes e f) = some u)
    (hc : clear u = true) (hs : isScalar f.d = false) (ha : isRegister f.a = true)
    (ho : (dstOk u.g true f.d && srcLegal u.g false (bitSrc e f.a)) = true) :
    ∃ s', exec (.matchLanes e f) s = .next s' ∧
      LaneEffect u f.d true (toRing f.h f.d) true [f.a] (active u).toList
        (matchMask (rawBits u e f.imm f.a) (active u).toList) (idle u) s' := by
  have hexec : exec (.matchLanes e f) s = execMatchLanes e f s := rfl
  rw [hexec, execMatchLanes, runInstr_next h hc]
  refine ⟨_, rfl, runCross_effect h rfl f.h f.d true [bitSrc e f.a] f.imm (!isScalar f.d && isRegister f.a) _ _ _
    (by rw [hs, ha]; rfl) (by simpa using ho) (mapTrap_unmapped u (by simp [bitSrc]))
    (fun e => by rw [hs] at e; cases e) ?_ (idle_noNan u _)⟩
  simp only [List.map_cons, List.map_nil, bitSrc_raw ha]
  rfl

/-! ## SHFL -/

/-- Digits of width `w` laid side by side: each is read back. -/
theorem digits_elem (w : Nat) (B : Nat → Nat) (hB : ∀ k, B k < 2 ^ w) (n : Nat) :
    (List.range n).foldl (fun r k => r + B k * 2 ^ (w * k)) 0 < 2 ^ (w * n) ∧
    ∀ p < n, (List.range n).foldl (fun r k => r + B k * 2 ^ (w * k)) 0 / 2 ^ (w * p) % 2 ^ w = B p := by
  induction n with
  | zero => simp
  | succ n ih =>
    obtain ⟨hlt, hdig⟩ := ih
    rw [List.range_succ, List.foldl_append, List.foldl_cons, List.foldl_nil]
    generalize (List.range n).foldl (fun r k => r + B k * 2 ^ (w * k)) 0 = S at *
    have hpos : 0 < 2 ^ (w * n) := Nat.two_pow_pos _
    refine ⟨?_, fun p hp => ?_⟩
    · calc S + B n * 2 ^ (w * n) < 2 ^ (w * n) + B n * 2 ^ (w * n) := by omega
        _ = (B n + 1) * 2 ^ (w * n) := by ring
        _ ≤ 2 ^ w * 2 ^ (w * n) := Nat.mul_le_mul_right _ (hB n)
        _ = 2 ^ (w * (n + 1)) := by rw [← pow_add]; congr 1; ring
    · by_cases hpn : p = n
      · subst hpn
        rw [Nat.add_mul_div_right _ _ hpos, Nat.div_eq_of_lt hlt, Nat.zero_add, Nat.mod_eq_of_lt (hB p)]
      · have hexp : w * n = w * p + (w + w * (n - p - 1)) := by
          obtain ⟨d, rfl⟩ := Nat.exists_eq_add_of_lt (show p < n by omega)
          rw [show p + d + 1 - p - 1 = d by omega]; ring
        have hsplit : B n * 2 ^ (w * n) = 2 ^ (w * p) * (2 ^ w * (B n * 2 ^ (w * (n - p - 1)))) := by
          rw [hexp, pow_add, pow_add]; ring
        rw [hsplit, Nat.add_mul_div_left _ _ (Nat.two_pow_pos _), Nat.add_mul_mod_self_left, hdig p (by omega)]

theorem applySign_bound (t : CvtTy) (neg abs : Bool) (x : Nat) (hx : x < 2 ^ t.width) : applySign t neg abs x < 2 ^ t.width := by
  cases hf : cvtFmt t with
  | none => exact applySign_lt t neg abs x hf hx
  | some F =>
    have hhalf : 2 ^ t.width = 2 ^ (t.width - 1) + 2 ^ (t.width - 1) := by
      have hw : t.width = t.width - 1 + 1 := by cases t <;> rfl
      conv_lhs => rw [hw, pow_succ]
      ring
    have hmod : x % 2 ^ (t.width - 1) < 2 ^ (t.width - 1) := Nat.mod_lt _ (Nat.two_pow_pos _)
    simp only [applySign, hf]
    split <;> split <;> try split
    all_goals omega

/-- What SHFL leaves in lane `l`. -/
def shflValue (u : Iss) (e : EltTy) (f : RFmt) (l : Nat) : Nat :=
  let t := eltCvt e
  (List.range (eltPositions e)).foldl (fun r p =>
    r + applySign t (f.mod.getLsbD 0) (f.mod.getLsbD 1)
      (elemAt t (readNat u (immFor t f.imm) (t.width == 64) f.a (shflFrom u f l)) p) * 2 ^ (t.width * p)) 0

theorem shflValue_elem (u : Iss) (e : EltTy) (f : RFmt) (l : Nat) {p : Nat} (hp : p < eltPositions e) :
    elemAt (eltCvt e) (shflValue u e f l) p =
      applySign (eltCvt e) (f.mod.getLsbD 0) (f.mod.getLsbD 1)
        (elemAt (eltCvt e) (readNat u (immFor (eltCvt e) f.imm) ((eltCvt e).width == 64) f.a (shflFrom u f l)) p) :=
  (digits_elem (eltCvt e).width _ (fun k => applySign_bound _ _ _ _ (Nat.mod_lt _ (Nat.two_pow_pos _))) (eltPositions e)).2 p hp

theorem exec_shfl_next {e : EltTy} {f : RFmt} {s : State} {u : Iss} (h : issuer s (.shfl e f) = some u) (hc : clear u = true)
    (hs : isScalar f.d = false) (hb : f.b ≠ .zero)
    (ho : (dstOk u.g (e.width == 64) f.d && srcLegal u.g false { o := f.a, t := eltCvt e } &&
      srcLegal u.g false { o := f.b, t := .b32 }) = true) :
    ∃ s', exec (.shfl e f) s = .next s' ∧
      LaneEffect u f.d (e.width == 64) (toRing f.h f.d) true [f.a, f.b] (active u).toList (shflValue u e f) (idle u) s' := by
  have hexec : exec (.shfl e f) s = execShfl e f s := rfl
  have hlegal : (!isScalar f.d && f.b != .zero) = true := by rw [hs]; simpa [bne] using hb
  have hsrc : (dstOk u.g (e.width == 64) f.d &&
      [({ o := f.a, t := eltCvt e, n := eltPositions e } : Src), { o := f.b, t := .b32 }].all (srcLegal u.g false)) = true := by
    have hn : srcLegal u.g false { o := f.a, t := eltCvt e, n := eltPositions e } = srcLegal u.g false { o := f.a, t := eltCvt e } := rfl
    rw [List.all_cons, hn]
    simpa [Bool.and_assoc] using ho
  rw [hexec, execShfl, runInstr_next h hc]
  exact ⟨_, rfl, runCross_effect h rfl f.h f.d _ [{ o := f.a, t := eltCvt e, n := eltPositions e }, { o := f.b, t := .b32 }] f.imm
    _ _ _ _ hlegal hsrc (mapTrap_unmapped u (by simp)) (fun e => by rw [hs] at e; cases e) rfl (idle_noNan u _)⟩

/-! ## VOTE -/

theorem votes_voteResult (mode : Nat) (ls : List Nat) (pred : Nat → Bool) : Votes mode ls pred (voteResult mode ls pred) := by
  have hall : ((ls.filter pred).length == ls.length) = ls.all pred := by
    rw [Bool.eq_iff_iff, beq_iff_eq, List.length_filter_eq_length_iff, List.all_eq_true]
  have hany : (ls.filter pred).isEmpty = !ls.any pred := by
    rw [Bool.eq_iff_iff, List.isEmpty_iff, List.filter_eq_nil_iff]; simp
  unfold Votes voteResult
  match mode with
  | 0 => simp only [hall, bitOf]
  | 1 => simp only [hany, Bool.not_not, bitOf]
  | 2 => simp only [hall, hany, bitOf, Bool.or_comm]
  | 3 =>
    intro k hk
    show (Lanes.ofPred (ls.filter pred).contains).toNat.testBit k = _
    rw [ofPred_testBit _ hk, Bool.eq_iff_iff]
    simp
  | 4 => exact (List.countP_eq_length_filter ..).symm
  | n + 5 => simp [List.head?_filter]

theorem exec_vote_next {e : EltTy} {f : RFmt} {s : State} {u : Iss} (h : issuer s (.vote e f) = some u) (hc : clear u = true)
    (hb : voteBitOk f.b = true)
    (ho : (dstOk u.g (bits f.mod 2 3 == 3) f.d && srcLegal u.g false { o := f.a, t := .b32 } &&
      srcLegal u.g false { o := f.b, t := .b32 }) = true) :
    ∃ s', exec (.vote e f) s = .next s' ∧
      LaneEffect u f.d (bits f.mod 2 3 == 3) (toRing f.h f.d) ((active u).toList != []) [f.a, f.b] (active u).toList
        (fun _ => voteResult (bits f.mod 2 3) (active u).toList fun k =>
          (readWord u f.imm f.a k).getLsbD ((readWord u f.imm f.b k).toNat % 32)) (idle u) s' := by
  have hexec : exec (.vote e f) s = execVote e f s := rfl
  have hsrc : (dstOk u.g (bits f.mod 2 3 == 3) f.d &&
      [({ o := f.a, t := .b32 } : Src), { o := f.b, t := .b32 }].all (srcLegal u.g false)) = true := by
    simpa [Bool.and_assoc] using ho
  rw [hexec, execVote, runInstr_next h hc]
  refine ⟨_, rfl, unlessEmpty_effect h rfl f.d _ _ _ _ _ _ fun hne => ?_⟩
  refine runCross_effect h rfl f.h f.d _ [{ o := f.a, t := .b32 }, { o := f.b, t := .b32 }] f.imm _ _ _ _ hb hsrc
    (mapTrap_unmapped u (by simp)) (fun _ => hne) ?_ (idle_noNan u _)
  simp only [List.map_cons, List.map_nil, b32_raw]
  rfl

/-! ## PART -/

/-- The issue with PART's registers written. -/
def parted (u : Iss) (ms : List DWord) : Iss := { u with g := { u.g with parts := ms } }

theorem exec_part_next {e : EltTy} {f : RFmt} {s : State} {u : Iss} (h : issuer s (.part e f) = some u) (hc : clear u = true)
    (hs : isScalar f.d = false) (ha : isRegister f.a = true)
    (ho : (dstOk u.g false f.d && srcLegal u.g false (bitSrc e f.a)) = true) :
    let ls := (active u).toList
    let key := rawBits u e f.imm f.a
    ∃ s', exec (.part e f) s = .next s' ∧
      LaneEffect (parted u (if ls = [] then u.g.parts else partMasks u e f)) f.d false (toRing f.h f.d) (ls != []) [f.a] ls
        (partWord key ls (partClasses key ls)) (idle u) s' := by
  intro ls key
  have hexec : exec (.part e f) s = execPart e f s := rfl
  rw [hexec, execPart, runInstr_next h hc]
  refine ⟨_, rfl, ?_⟩
  by_cases hne : ls = []
  · have hz : (active u == 0#64) = true := beq_iff_eq.mpr ((toList_nil _).mp hne)
    rw [if_pos hne, hne, unlessEmpty, if_pos hz]
    exact nil_effect h rfl f.d _ _ _ _ (idle u)
  · have hz : (active u == 0#64) = false := beq_eq_false_iff_ne.mpr fun e => hne ((toList_nil _).mpr e)
    have hops : (dstOk u.g false f.d && [bitSrc e f.a].all (srcLegal u.g false)) = true := by simpa using ho
    have hacts : (ls != []) = true := by simpa [bne] using hne
    obtain ⟨hst, hi, -, hg, hp, -⟩ := issuer_state h
    have heff := runCross_effect' (u := parted u (partMasks u e f)) hst hg hp (by show isIret u.i = false; rw [hi]; rfl) f.h f.d false
      [bitSrc e f.a] f.imm (!isScalar f.d && isRegister f.a)
      (fun _ _ lanes => lanes.map fun l => (l, partWord key ls (partClasses key ls) l, Lane.start (u.g.srctr.get l)))
      (partWord key ls (partClasses key ls)) (idle u)
      (by rw [hs, ha]; rfl) hops (mapTrap_unmapped _ (by simp [bitSrc])) (fun e => by rw [hs] at e; cases e) rfl
      (idle_noNan u _)
    rw [show entersRing (parted u (partMasks u e f)).i = true by show entersRing u.i = true; rw [hi]; rfl, Bool.true_and] at heff
    rw [if_neg hne, hacts, unlessEmpty, hz]
    simp only [bitSrc_raw ha]
    exact heff

end Sys2Proof.Machine

namespace Sys2Proof
open Machine

/-- Settles O8: LRED's and LSCAN's outcomes are one for each active lane, and of an integer type reductions of the codes. -/
theorem laneReductions : Obligations.LaneReductions := by
  unfold Obligations.LaneReductions
  constructor
  · intro e f s u ls out h hc ho hn
    obtain ⟨s', hexec, heff⟩ := exec_lred_next h hc ho hn
    exact ⟨s', hexec, heff, fun t ht l hl => lred_reduces u e f ht hl⟩
  · intro e f s u ls excl out h hc hs ho hn
    obtain ⟨s', hexec, heff⟩ := exec_lscan_next h hc hs ho hn
    exact ⟨s', hexec, heff, fun t ht l hl => lscan_reduces u e f ht hl⟩

/-- Settles O9: each crosses the active lanes once, and its value in a lane is read bit by bit or position by position. -/
theorem laneCrossings : Obligations.LaneCrossings := by
  unfold Obligations.LaneCrossings
  refine ⟨?same, ?shfl, ?vote, ?part⟩
  case same =>
    intro e f s u ls h hc hs ha ho
    obtain ⟨s', hexec, heff⟩ := exec_match_next h hc hs ha ho
    exact ⟨s', _, hexec, fun l _ k hk => ofPred_testBit _ hk, heff⟩
  case shfl =>
    intro e f s u ls t h hc hs hb ho
    obtain ⟨s', hexec, heff⟩ := exec_shfl_next h hc hs hb ho
    exact ⟨s', _, hexec, fun l _ p hp => shflValue_elem u e f l hp, heff⟩
  case vote =>
    intro e f s u ls mode h hc hb ho
    obtain ⟨s', hexec, heff⟩ := exec_vote_next h hc hb ho
    exact ⟨s', _, hexec, fun l _ => votes_voteResult _ _ _, heff⟩
  case part =>
    intro e f s u ls key h hc hs ha ho
    exact exec_part_next h hc hs ha ho

end Sys2Proof
end

section
/-!
SUPPORT. The control class (03 R53 to R66): where a branch goes, what a division, a BRK, a JOIN, a GSYNC and an EXIT leave of
the splits and regions of their group, and what a retirement leaves.
-/
namespace Sys2Proof.Machine

/-! ## Splits that move -/

/-- The end of an instruction that has changed no more than where its split goes on, and its yield. -/
theorem retire_moved {s0 : State} {u : Iss} {g0 : Group} {p0 : Split} (hi : isIret u.i = false) (next : Bool)
    (hg0 : groupOf s0 u.g.gid = some g0) (hp0 : splitOf g0 u.p.sid = some p0)
    (hothers : ∀ n, n ≠ u.g.gid → groupOf s0 n = groupOf u.s n) (hm : { s0 with groups := u.s.groups } = u.s)
    (hsplits : ∀ n, n ≠ u.p.sid → splitOf g0 n = splitOf u.g n) (ho : { g0 with splits := u.g.splits } = u.g)
    (hp : { p0 with pc := u.p.pc, yield := u.p.yield } = u.p) :
    Goes u (if next then p0.pc + 16#64 else p0.pc) (retire s0 u next) := by
  have hgid := groupOf_gid hg0
  have hsid := splitOf_sid hp0
  have hrings : s0.rings = u.s.rings := by rw [← hm]
  have hmem : s0.mem = u.s.mem := by rw [← hm]
  rw [retire_eq hg0 hp0]
  refine ⟨_, retiredSplit u next p0, ⟨groupOf_setGroup hg0 hgid, ?_, ?_, ?_, ?_, ?_, ?_, ?_, ?_, ?_⟩, ?_, ?_, ?_, ?_, ?_, ?_, hrings⟩
  · exact splitOf_setSplit (g := retiredGroup u g0) hp0 (by rw [retiredSplit_sid, hsid])
  · intro n hn; exact (groupOf_setGroup_other (by show n ≠ g0.gid; rw [hgid]; exact hn)).trans (hothers n hn)
  · intro n hn
    rw [splitOf_bpDue, splitOf_setSplit_other (by rw [retiredSplit_sid, hsid]; exact hn)]
    exact hsplits n hn
  · rw [← hrings]; exact hm
  · intro a; exact congrArg (memRead · a) hmem
  · intro c q _; simp [ringOf, setGroup, hrings]
  · conv_rhs => rw [← ho]
    simp only [setSplit, retiredGroup]
    congr 1
    all_goals rw [← ho]
  · rw [← ho]; rfl
  · rw [show u.g.bpDue = g0.bpDue from (congrArg Group.bpDue ho).symm]
  · have hlen : p0.chainLen = u.p.chainLen := by rw [← hp]
    have hpc : p0.chainPC = u.p.chainPC := by rw [← hp]
    have hbp : p0.bpMatch = u.p.bpMatch := by rw [← hp]
    have hrest : { p0 with
        pc := u.p.pc, chainLen := u.p.chainLen, chainPC := u.p.chainPC, stamp := u.p.stamp, syncOk := u.p.syncOk,
        syncWait := u.p.syncWait, bpSkip := u.p.bpSkip, bpMatch := u.p.bpMatch, issues := u.p.issues,
        yield := u.p.yield } = u.p := by
      conv_rhs => rw [← hp]
      congr 1 <;> rw [← hp]
    refine ⟨rfl, ?_, ?_, ?_, hrest⟩
    · simp [retiredSplit, hi, hlen]
    · by_cases hh : instrHold u.i = true <;> simp [retiredSplit, hi, hh, hlen, hpc]
    · simp [retiredSplit, hi, hbp]
  all_goals rw [← ho]; rfl

/-! ## Branches -/

theorem jumpAligned_off {u : Iss} (s : State) {t : DWord} (h : bits t 0 4 ≠ 0) :
    Trapped u .misaligned u.p.members t 0#64 (commit u (jumpAligned u s t)) := by
  have ht := trapped_all u .misaligned t.toNat 0
  rw [jumpAligned, if_pos h]
  rwa [BitVec.ofNat_toNat, BitVec.setWidth_eq] at ht

theorem branchIf_true {u : Iss} (h : branches u = some true) (go : Eff) : branchIf u go = go := by simp [branchIf, h]

theorem branchIf_false {u : Iss} (h : branches u = some false) (go : Eff) : branchIf u go = .done u.s := by simp [branchIf, h]

/-- The target that BRX reads in lane `l`. -/
def brxTarget (u : Iss) (f : CFmt) (l : Nat) : DWord := target (readPair u f.a l) f.toff

theorem commonTarget_agree {u : Iss} {f : CFmt} (hne : (active u).toList ≠ [])
    (h : ∀ l ∈ (active u).toList, brxTarget u f l = brxTarget u f ((active u).toList.headD 0)) :
    commonTarget u f = some (brxTarget u f ((active u).toList.headD 0)) := by
  unfold commonTarget
  cases hl : (active u).toList with
  | nil => exact absurd hl hne
  | cons a t =>
    rw [hl] at h
    have hall : ((t.map (brxTarget u f)).all (· == brxTarget u f a)) = true := by
      rw [List.all_eq_true]
      intro x hx
      obtain ⟨l, hmem, rfl⟩ := List.mem_map.mp hx
      exact beq_iff_eq.mpr (h l (List.mem_cons_of_mem _ hmem))
    exact if_pos hall

theorem commonTarget_differ {u : Iss} {f : CFmt} {l : Nat} (hl : l ∈ (active u).toList)
    (h : brxTarget u f l ≠ brxTarget u f ((active u).toList.headD 0)) : commonTarget u f = none := by
  unfold commonTarget
  cases hls : (active u).toList with
  | nil => rw [hls] at hl; cases hl
  | cons a t =>
    rw [hls] at hl h
    have hall : ¬ ((t.map (brxTarget u f)).all (· == brxTarget u f a)) = true := by
      rw [List.all_eq_true]
      intro hx
      rcases List.mem_cons.mp hl with rfl | hmem
      · exact h rfl
      · exact h (beq_iff_eq.mp (hx _ (List.mem_map.mpr ⟨l, hmem, rfl⟩)))
    exact if_neg hall

/-- What BRX does once its guard says branch. -/
def brxGo (u : Iss) (f : CFmt) : Eff :=
  if isScalar f.a then jumpAligned u u.s (brxTarget u f 0)
  else if active u == 0#64 then .done u.s
  else (commonTarget u f).elim (operandIllegal u) (jumpAligned u u.s)

/-- The lanes whose targets BRX reads. -/
def brxLanes (u : Iss) (f : CFmt) : List Nat := if isScalar f.a then [0] else (active u).toList

theorem exec_brx {f : CFmt} {s : State} {u : Iss} (h : issuer s (.brx f) = some u) (hc : clear u = true)
    (hv : vsOk u.g true f.a = true) : exec (.brx f) s = .next (commit u (branchIf u (brxGo u f))) := by
  have hexec : exec (.brx f) s = execBrx f s := rfl
  rw [hexec, execBrx, runInstr_next h hc]
  simp only [hv, Bool.not_true, Bool.false_eq_true, if_false, brxGo]
  cases commonTarget u f <;> rfl

theorem brxGo_agree {u : Iss} {f : CFmt} (hne : brxLanes u f ≠ [])
    (h : ∀ l ∈ brxLanes u f, brxTarget u f l = brxTarget u f ((brxLanes u f).headD 0)) :
    brxGo u f = jumpAligned u u.s (brxTarget u f ((brxLanes u f).headD 0)) := by
  unfold brxGo
  unfold brxLanes at hne h ⊢
  by_cases hs : isScalar f.a = true
  · simp [hs]
  · simp only [hs, Bool.false_eq_true, if_false] at hne h ⊢
    have hz : (active u == 0#64) = false := beq_eq_false_iff_ne.mpr fun e => hne ((toList_nil _).mpr e)
    simp [hz, commonTarget_agree hne h]

theorem brxGo_differ {u : Iss} {f : CFmt} {l : Nat} (hl : l ∈ brxLanes u f)
    (h : brxTarget u f l ≠ brxTarget u f ((brxLanes u f).headD 0)) : brxGo u f = operandIllegal u := by
  unfold brxGo
  unfold brxLanes at hl h
  by_cases hs : isScalar f.a = true
  · simp only [hs, if_true] at hl h
    rw [List.mem_singleton.mp hl] at h
    exact absurd rfl h
  · simp only [hs, Bool.false_eq_true, if_false] at hl h ⊢
    have hz : (active u == 0#64) = false :=
      beq_eq_false_iff_ne.mpr fun e => by rw [(toList_nil _).mpr e] at hl; cases hl
    simp [hz, commonTarget_differ hl h]

theorem brxGo_nobody {u : Iss} {f : CFmt} (h : brxLanes u f = []) : brxGo u f = .done u.s := by
  unfold brxGo
  unfold brxLanes at h
  by_cases hs : isScalar f.a = true
  · simp [hs] at h
  · simp only [hs, Bool.false_eq_true, if_false] at h ⊢
    simp [(toList_nil _).mp h]

theorem exec_brx_goes {f : CFmt} {s : State} {u : Iss} {b : Bool} (h : issuer s (.brx f) = some u) (hc : clear u = true)
    (hb : branches u = some b) (hv : vsOk u.g true f.a = true)
    (hall : ∀ l ∈ brxLanes u f, brxTarget u f l = brxTarget u f ((brxLanes u f).headD 0) ∧ bits (brxTarget u f l) 0 4 = 0) :
    ∃ t, exec (.brx f) s = .next t ∧
      Goes u (if b = true ∧ brxLanes u f ≠ [] then brxTarget u f ((brxLanes u f).headD 0) else u.p.pc + 16#64) t := by
  refine ⟨_, exec_brx h hc hv, ?_⟩
  cases b with
  | false => simpa [branchIf_false hb] using goes_done h rfl
  | true =>
    rw [branchIf_true hb]
    by_cases hne : brxLanes u f = []
    · simpa [brxGo_nobody hne, hne] using goes_done h rfl
    · have hhead : (brxLanes u f).headD 0 ∈ brxLanes u f := by
        cases hl : brxLanes u f with
        | nil => exact absurd hl hne
        | cons a t => exact List.mem_cons_self
      rw [brxGo_agree hne fun l hl => (hall l hl).1, if_pos ⟨rfl, hne⟩]
      have := goes_aligned h rfl hb (brxTarget u f ((brxLanes u f).headD 0)) (hall _ hhead).2
      rwa [branchIf_true hb, if_pos rfl] at this

/-- CALL with its link written: the state it jumps from. -/
theorem exec_call {f : CFmt} {s : State} {u : Iss} (h : issuer s (.call f) = some u) (hc : clear u = true)
    (ho : (sOk true f.d && (f.a == .zero || sOk true f.a)) = true) :
    exec (.call f) s = .next (commit u (branchIf u
      (jumpAligned u (setGroup u.s (writeScalarNat u.g true f.d (u.p.pc + 16#64).toNat))
        (target (if f.a = .zero then u.p.pc else readPair u f.a 0) f.toff)))) := by
  have hexec : exec (.call f) s = execCall f s := rfl
  rw [hexec, execCall, runInstr_next h hc]
  simp only [ho, Bool.not_true, Bool.false_eq_true, if_false]

theorem writeScalarNat_only (g : Group) (wide : Bool) (d : Opnd) (v : Nat) :
    { writeScalarNat g wide d v with vregs := g.vregs, oregs := g.oregs, sregs := g.sregs } = g := by
  simp only [writeScalarNat]
  split
  · rw [writeScalar_only, writeScalar_only]
  · rw [writeScalar_only]

theorem isScalar_of_sOk {wide : Bool} {d : Opnd} (h : sOk wide d = true) : isScalar d = true := by
  cases d <;> simp_all [sOk, isScalar]

theorem dstOk_of_sOk {g : Group} {wide : Bool} {d : Opnd} (h : sOk wide d = true) : dstOk g wide d = true := by
  cases d <;> simp_all [sOk, dstOk]

/-- What is written, seen in a group with the same registers. -/
theorem written_of_regs {g g1 g' : Group} {d : Opnd} {wide : Bool} {ls : List Nat} {val : Nat → Nat}
    (h : Written g g1 d wide ls val) (hv : g'.vregs = g1.vregs) (ho : g'.oregs = g1.oregs) (hs : g'.sregs = g1.sregs) :
    Written g g' d wide ls val := by
  have hword : ∀ o l, regWord g' o l = regWord g1 o l := fun o l => by cases o <;> simp [regWord, hv, ho, hs]
  have hheld : ∀ o, regHeld g' o = regHeld g1 o := fun o => by cases o <;> simp [regHeld, hv, ho, hs]
  exact ⟨fun a l hl => (hword d l).trans (h.low a l hl), fun a b l hl => (hword _ l).trans (h.high a b l hl),
    fun o a b l => (hword o l).trans (h.kept o a b l), fun o => (hheld o).trans (h.held o)⟩

theorem call_links {f : CFmt} {s : State} {u : Iss} (h : issuer s (.call f) = some u) (hd : sOk true f.d = true) (tgt : DWord) :
    ∃ g' p', Stepped u (commit u (jumpTo u (setGroup u.s (writeScalarNat u.g true f.d (u.p.pc + 16#64).toNat)) tgt)) g' p' ∧
      Advanced u p' tgt ∧ Written u.g g' f.d true [0] (fun _ => (u.p.pc + 16#64).toNat) ∧ g'.status = u.g.status ∧
      g'.srctr = u.g.srctr ∧
      (commit u (jumpTo u (setGroup u.s (writeScalarNat u.g true f.d (u.p.pc + 16#64).toNat)) tgt)).rings = s.rings := by
  obtain ⟨hs, -, -, hg, -, -⟩ := issuer_state h
  have hown := writeScalarNat_only u.g true f.d (u.p.pc + 16#64).toNat
  have hgid : (writeScalarNat u.g true f.d (u.p.pc + 16#64).toNat).gid = u.g.gid := by
    have e := congrArg Group.gid hown
    exact e
  have hsplits : (writeScalarNat u.g true f.d (u.p.pc + 16#64).toNat).splits = u.g.splits := by
    have e := congrArg Group.splits hown
    exact e
  have hstatus : (writeScalarNat u.g true f.d (u.p.pc + 16#64).toNat).status = u.g.status := by
    have e := congrArg Group.status hown
    exact e
  have hsrctr : (writeScalarNat u.g true f.d (u.p.pc + 16#64).toNat).srctr = u.g.srctr := by
    have e := congrArg Group.srctr hown
    exact e
  have hwr := written_scalar u.g f.d true [0] (fun _ => (u.p.pc + 16#64).toNat) (by simp) (isScalar_of_sOk hd) (dstOk_of_sOk hd)
  obtain ⟨g', p', hst, hadv, hv, ho, hsr, hst', hct, hr⟩ := jump_gen h rfl tgt
    (s0 := setGroup u.s (writeScalarNat u.g true f.d (u.p.pc + 16#64).toNat))
    (groupOf_setGroup (by rw [hs]; exact hg) hgid) hsplits (fun n hn => groupOf_setGroup_other (by rw [hgid]; exact hn)) rfl
    (congrArg (fun x : Group => { x with status := u.g.status, srctr := u.g.srctr }) hown)
  exact ⟨g', p', hst, hadv, written_of_regs hwr hv ho hsr, hst'.trans hstatus, hct.trans hsrctr, by rw [hr, hs]⟩

/-! ## One replacement of a group -/

theorem remade_nextId (s : State) (g : Group) : setGroup s g = remade s g s.nextId := rfl

theorem groupOf_remade {s : State} {n : Nat} {g x : Group} (k : Nat) (h : groupOf s n = some x) (hg : g.gid = n) :
    groupOf (remade s g k) n = some g := groupOf_setGroup (s := s) h hg

theorem setGroup_over_remade (s : State) (g g' : Group) (k : Nat) (h : g.gid = g'.gid) :
    setGroup (remade s g k) g' = remade s g' k :=
  congrArg (fun t : State => { t with nextId := k }) (setGroup_setGroup s g g' h)

theorem commit_done (u : Iss) (t : State) : commit u (.done t) = retire t u true := rfl

theorem commit_jump (u : Iss) (t : State) : commit u (.jump t) = retire t u false := rfl

/-- What `unexpect` leaves: its regions as `expectLess` says, and the rest of the group. -/
theorem unexpect_facts {g : Group} (rs : List Region) (x : Lanes) (as : List Nat) (hn : (g.regions.map Region.rid).Nodup) :
    (unexpect g rs x as).regions.map bareRegion = (expectLess g rs x).map bareRegion ∧
    (unexpect g rs x as).splits = g.splits ∧ (unexpect g rs x as).gid = g.gid ∧
    ∀ a b, { unexpect g rs x as with splits := a, regions := b } = { g with splits := a, regions := b } := by
  obtain ⟨hr, ho⟩ := unexpect_bare rs x as g hn
  refine ⟨hr, ?_, ?_, fun a b => ?_⟩
  · have e := congrArg Group.splits ho; exact e
  · have e := congrArg Group.gid ho; exact e
  · have e := congrArg (fun z : Group => { z with splits := a, regions := b }) ho; exact e

/-! ## BRA.D -/

theorem exec_braD {f : CFmt} {s : State} {u : Iss} (h : issuer s (.braD f) = some u) (hc : clear u = true) :
    exec (.braD f) s = .next (commit u
      (if active u = 0#64 then .done u.s
       else if active u = u.p.em then jumpTo u u.s (target u.p.pc f.toff)
       else divide u (active u) (target u.p.pc f.toff) (target u.p.pc f.xoff))) := by
  have hexec : exec (.braD f) s = execBraD f s := rfl
  rw [hexec, execBraD, runInstr_next h hc]

theorem braD_divides {f : CFmt} {s : State} {u : Iss} (hids : IdsOk s) (h : issuer s (.braD f) = some u) (hc : clear u = true)
    (hz : active u ≠ 0#64) (hem : active u ≠ u.p.em) (ht : tablesHold u.ctx u.g 1 1 = true) :
    ∃ s1 rid sid, exec (.braD f) s = .next (retire s1 u false) ∧ Reshaped u.g.gid s s1 ∧
      (∀ r ∈ u.g.regions, r.rid ≠ rid) ∧ (∀ p ∈ u.g.splits, p.sid ≠ sid) ∧
      Shape u.g.gid s1
        (putSplit u.g { u.p with members := u.p.members &&& ~~~active u, em := u.p.em &&& ~~~active u,
                                 pc := u.p.pc + 16#64, region := some rid, stamp := s.clock.toNat } ++
          [{ Split.born u.p with sid, members := active u, em := active u, pc := target u.p.pc f.toff, region := some rid,
                                 stamp := s.clock.toNat }])
        (u.g.regions ++
          [{ rid, joinPC := target u.p.pc f.xoff, expected := u.p.members, arrived := 0#64, savedEM := u.p.em,
             savedFMT := u.p.fmt, parent := u.p.region, depth := (chainOf u.g u.p).length + 1, seq := rid,
             resident := true, agents := [] }]) := by
  obtain ⟨hs, -, -, hg, hp, -⟩ := issuer_state h
  obtain ⟨p, t, r, hdiv, hsid, hbp, hbt, hbr⟩ := divide_eq (active u) (target u.p.pc f.toff) (target u.p.pc f.xoff) ht
  have hmem : u.g ∈ s.groups := List.mem_of_find?_eq_some hg
  rw [exec_braD h hc, if_neg hz, if_neg hem, hdiv, hs, commit_jump]
  rw [hs] at hbp hbt hbr
  refine ⟨_, s.nextId, s.nextId + 1, rfl, ?_, fun r hr => ?_, fun q hq => ?_, ?_⟩
  · refine remade_reshaped _ hg ?_
    rw [own_addSplit, own_addRegion, own_setSplit]
  · exact ((hids.regions _ hmem).2 r hr).ne
  · exact (Nat.lt_succ_of_lt ((hids.splits _ hmem).2 q hq)).ne
  · refine remade_shape _ hg ?_ ?_ ?_
    · rfl
    · rw [bare_addSplit, addRegion_splits, List.map_append, List.map_append, List.map_singleton, List.map_singleton, hbt,
        bare_setSplit u.g p _ (by exact hsid) hbp]
    · rw [addSplit_regions, bare_addRegion, List.map_append, List.map_append, List.map_singleton, List.map_singleton, hbr]
      rfl

/-! ## BRK -/

theorem exec_brk {f : CFmt} {s : State} {u : Iss} (h : issuer s (.brk f) = some u) (hc : clear u = true)
    (hn : bits f.xoff 0 8 ≤ (chainOf u.g u.p).length) :
    exec (.brk f) s = .next (commit u
      (if guardedMembers u = 0#64 then .done u.s
       else breakOut u (guardedMembers u) ((chainOf u.g u.p).take (bits f.xoff 0 8)) (target u.p.pc f.toff))) := by
  have hexec : exec (.brk f) s = execBrk f s := rfl
  rw [hexec, execBrk, runInstr_next h hc]
  simp only [if_neg (Nat.not_lt.mpr hn)]

/-- Every member leaves the regions: the split itself goes to the target. -/
theorem breakOut_whole {s : State} {u : Iss} {i : Instr} (hids : IdsOk s) (h : issuer s i = some u) (rs : List Region) (tgt : DWord) :
    ∃ s1, breakOut u u.p.members rs tgt = .jump (syncRelease (closeChecks s1 u.g.gid rs) u.g.gid) ∧ Reshaped u.g.gid s s1 ∧
      Shape u.g.gid s1 (putSplit u.g { u.p with pc := tgt, region := (rs.getLast?).bind Region.parent })
        (expectLess u.g rs u.p.members) := by
  obtain ⟨hs, -, -, hg, -, -⟩ := issuer_state h
  have hnodup := (hids.regions _ (List.mem_of_find?_eq_some hg)).1
  simp only [breakOut, if_true, renew_eq, setGroup_remade]
  rw [hs]
  set p := { u.p with pc := tgt, region := (rs.getLast?).bind Region.parent, agent := s.nextId,
                      before := lineage { s with nextId := s.nextId + 1 } u.p.agents } with hp
  obtain ⟨hr, hsp, hgid, hown⟩ := unexpect_facts (g := setSplit u.g p) rs u.p.members [] hnodup
  refine ⟨_, rfl, remade_reshaped _ hg ?_, remade_shape _ hg hgid ?_ hr⟩
  · exact hown u.g.splits u.g.regions
  · rw [hsp]
    exact bare_setSplit u.g p _ rfl rfl

/-- Some members leave the regions, as a new split at the target. -/
theorem breakOut_part {s : State} {u : Iss} {i : Instr} (hids : IdsOk s) (h : issuer s i = some u) (x : Lanes) (rs : List Region)
    (tgt : DWord) (hx : x ≠ u.p.members) (ht : tablesHold u.ctx u.g 1 0 = true) :
    ∃ s1, breakOut u x rs tgt = .jump (syncRelease (closeChecks s1 u.g.gid rs) u.g.gid) ∧ Reshaped u.g.gid s s1 ∧
      ∃ sid, (∀ p ∈ u.g.splits, p.sid ≠ sid) ∧ Shape u.g.gid s1
        (putSplit u.g { u.p with members := u.p.members &&& ~~~x, em := u.p.em &&& ~~~x, pc := u.p.pc + 16#64,
                                 stamp := s.clock.toNat } ++
          [{ Split.born u.p with sid, members := x, em := u.p.em &&& x, pc := tgt, region := (rs.getLast?).bind Region.parent,
                                 stamp := s.clock.toNat }])
        (expectLess u.g rs x) := by
  obtain ⟨hs, -, -, hg, -, -⟩ := issuer_state h
  have hmem := List.mem_of_find?_eq_some hg
  have hnodup := (hids.regions _ hmem).1
  simp only [breakOut, if_neg hx, ht, Bool.not_true, Bool.false_eq_true, if_false, fresh, renew_eq, setGroup_remade]
  rw [hs]
  set p := { u.issued.leave x with
    pc := u.p.pc + 16#64, agent := s.nextId + 1 + 1,
    before := lineage { s with nextId := s.nextId + 1 + 1 + 1 } u.p.agents } with hp
  obtain ⟨hr, hsp, hgid, hown⟩ := unexpect_facts (g := setSplit u.g p) rs x [] hnodup
  refine ⟨_, rfl, remade_reshaped _ hg ?_, s.nextId, fun q hq => ((hids.splits _ hmem).2 q hq).ne,
    remade_shape _ hg ?_ ?_ ?_⟩
  · rw [own_addSplit]; exact hown u.g.splits u.g.regions
  · exact hgid
  · have hput := bare_setSplit u.g p
      { u.p with members := u.p.members &&& ~~~x, em := u.p.em &&& ~~~x, pc := u.p.pc + 16#64, stamp := s.clock.toNat } rfl
      (by rw [hp, ← hs]; rfl)
    rw [bare_addSplit, hsp, List.map_append, List.map_append, hput]
    rfl
  · rw [addSplit_regions]; exact hr

/-! ## JOIN and GSYNC -/

/-- A split that parks, in one replacement of its group. -/
theorem parkAs_eq {s : State} {u : Iss} {i : Instr} (h : issuer s i = some u) (st : SplitState) :
    parkAs u st = remade s (setSplit u.g { u.p with state := st, parkSeq := s.nextId, stamp := s.clock.toNat }) (s.nextId + 1) := by
  obtain ⟨hs, -, -, hg, hp, -⟩ := issuer_state h
  simp only [parkAs, fresh, hs]
  exact updSplit_eq (s := { s with nextId := s.nextId + 1 }) hg hp _

theorem exec_join_on {f : CFmt} {s : State} {u : Iss} (h : issuer s (.join f) = some u) (hc : clear u = true)
    (hr : ∀ r, u.p.region.bind (regionOf u.g) = some r → r.joinPC ≠ u.p.pc) : exec (.join f) s = .next (commit u (.done u.s)) := by
  have hexec : exec (.join f) s = execJoin f s := rfl
  rw [hexec, execJoin, runInstr_next h hc]
  cases hb : u.p.region.bind (regionOf u.g) with
  | none => rfl
  | some r => simp [hr r hb]

theorem exec_join_park {f : CFmt} {s : State} {u : Iss} (h : issuer s (.join f) = some u) (hc : clear u = true) {r : Region}
    (hb : u.p.region.bind (regionOf u.g) = some r) (hr : r.joinPC = u.p.pc) :
    ∃ s1 k, exec (.join f) s = .next (retire (syncRelease (closeCheck s1 u.g.gid r.rid) u.g.gid) u true) ∧
      Reshaped u.g.gid s s1 ∧
      Shape u.g.gid s1 (putSplit u.g { u.p with state := .joined, parkSeq := k, stamp := s.clock.toNat })
        (u.g.regions.map fun x => if x.rid = r.rid then { r with arrived := r.arrived ||| u.p.members } else x) := by
  obtain ⟨-, -, -, hg, -, -⟩ := issuer_state h
  have hexec : exec (.join f) s = execJoin f s := rfl
  rw [hexec, execJoin, runInstr_next h hc]
  simp only [hb, hr, ne_eq, not_true_eq_false, if_false]
  have hpark : groupOf (parkAs u .joined) u.g.gid =
      some (setSplit u.g { u.p with state := .joined, parkSeq := s.nextId, stamp := s.clock.toNat }) := by
    rw [parkAs_eq h]
    exact groupOf_remade _ hg rfl
  rw [updGroup_eq hpark, parkAs_eq h, setGroup_over_remade _ _ _ _ (by rfl), commit_done]
  refine ⟨_, s.nextId, rfl, remade_reshaped _ hg rfl, remade_shape _ hg ?_ ?_ ?_⟩ <;> rfl

theorem exec_gsync {f : CFmt} {s : State} {u : Iss} (h : issuer s (.gsync f) = some u) (hc : clear u = true) :
    ∃ s1 k, exec (.gsync f) s = .next (retire (syncRelease s1 u.g.gid) u true) ∧ Reshaped u.g.gid s s1 ∧
      Shape u.g.gid s1 (putSplit u.g { u.p with state := .synced, parkSeq := k, stamp := s.clock.toNat }) u.g.regions := by
  obtain ⟨-, -, -, hg, -, -⟩ := issuer_state h
  have hexec : exec (.gsync f) s = execGsync f s := rfl
  rw [hexec, execGsync, runInstr_next h hc, parkAs_eq h, commit_done]
  refine ⟨_, s.nextId, rfl, remade_reshaped _ hg rfl, remade_shape _ hg ?_ ?_ ?_⟩ <;> rfl

/-! ## EXIT -/

/-- The group once the lanes `x` of the issuing split have left. -/
def exitGroup (u : Iss) (x : Lanes) : Group :=
  let g := unexpect u.g (chainOf u.g u.p) x u.p.agents
  if u.p.members &&& ~~~x = 0#64 then { g with splits := g.splits.filter (·.sid != u.p.sid) }
  else setSplit g (u.issued.leave x)

/-- The lanes `x` of the issuing split exit: what stands before the close checks. -/
theorem exitLanes_eq {s : State} {u : Iss} {i : Instr} (hids : IdsOk s) (h : issuer s i = some u) (x : Lanes) :
    ∃ s1, exitLanes u s x = syncRelease (closeChecks s1 u.g.gid (chainOf u.g u.p)) u.g.gid ∧ Reshaped u.g.gid s s1 ∧
      Shape u.g.gid s1
        (if u.p.members &&& ~~~x = 0#64 then u.g.splits.filter fun p => p.sid != u.p.sid
         else putSplit u.g { u.p with members := u.p.members &&& ~~~x, em := u.p.em &&& ~~~x, stamp := s.clock.toNat })
        (expectLess u.g (chainOf u.g u.p) x) := by
  obtain ⟨hs, -, -, hg, -, -⟩ := issuer_state h
  have hnodup := (hids.regions _ (List.mem_of_find?_eq_some hg)).1
  obtain ⟨hr, hsp, hgid, hown⟩ := unexpect_facts (g := u.g) (chainOf u.g u.p) x u.p.agents hnodup
  have hexit : exitLanes u s x =
      syncRelease (closeChecks (setGroup s (exitGroup u x)) (exitGroup u x).gid (chainOf u.g u.p)) (exitGroup u x).gid := by
    rw [exitLanes, hg]; rfl
  have hxgid : (exitGroup u x).gid = u.g.gid := by
    unfold exitGroup; split
    · exact hgid
    · exact hgid
  have hxown : { exitGroup u x with splits := u.g.splits, regions := u.g.regions } = u.g := by
    unfold exitGroup; split
    · exact hown u.g.splits u.g.regions
    · exact hown u.g.splits u.g.regions
  have hxreg : (exitGroup u x).regions = (unexpect u.g (chainOf u.g u.p) x u.p.agents).regions := by
    unfold exitGroup; split <;> rfl
  rw [hexit, hxgid]
  refine ⟨_, rfl, ?_, ?_⟩ <;> rw [remade_nextId]
  · exact remade_reshaped _ hg hxown
  · refine remade_shape _ hg hxgid ?_ (by rw [hxreg]; exact hr)
    unfold exitGroup
    split
    · show ((unexpect u.g (chainOf u.g u.p) x u.p.agents).splits.filter _).map bareSplit = _
      rw [hsp]
    · have hput : putSplit (unexpect u.g (chainOf u.g u.p) x u.p.agents) (u.issued.leave x) = putSplit u.g (u.issued.leave x) := by
        rw [putSplit, hsp]; rfl
      refine (congrArg (List.map bareSplit) hput).trans ?_
      exact bare_setSplit u.g _ _ rfl (by rw [← hs]; rfl)

/-! ## The close check and GSYNC's release -/

/-- The split that a close makes of the JOINED ones, with the identities that it takes. -/
def closedSplit (s : State) (r : Region) (joined : List Split) (p : Split) : Split :=
  { mergedSplit r joined p with
    sid := s.nextId, agent := s.nextId + 1,
    before := lineage { s with nextId := s.nextId + 1 + 1 } (r.agents ++ joined.flatMap Split.agents) }

theorem closeCheck_region {s : State} {gid rid : Nat} {g : Group} {r : Region} (hg : groupOf s gid = some g)
    (hr : regionOf g rid = some r) :
    closeCheck s gid rid =
      if r.expected = 0#64 then setGroup s { g with regions := g.regions.filter (·.rid != rid) }
      else if r.arrived ≠ r.expected then s
      else ((g.splits.filter fun p => p.state == .joined && p.region == some rid).head?).elim s fun p =>
        let joined := g.splits.filter fun p => p.state == .joined && p.region == some rid
        remade s (addSplit
          { g with regions := g.regions.filter (·.rid != rid),
                   splits := g.splits.filter fun q => !(q.state == .joined && q.region == some rid) }
          (closedSplit s r joined p)) (s.nextId + 1 + 1) := by
  simp only [closeCheck, hg, hr]
  cases g.splits.filter fun p => p.state == .joined && p.region == some rid <;> rfl

theorem min_stamp {ps : List Split} (h : ps ≠ []) :
    (∀ p ∈ ps, ((ps.map Split.stamp).min?).getD 0 ≤ p.stamp) ∧ ∃ p ∈ ps, ((ps.map Split.stamp).min?).getD 0 = p.stamp := by
  obtain ⟨k, hk⟩ : ∃ k, (ps.map Split.stamp).min? = some k :=
    Option.isSome_iff_exists.mp (List.isSome_min?_of_ne_nil (by simpa using h))
  obtain ⟨hmem, hle⟩ := List.min?_eq_some_iff.mp hk
  obtain ⟨p, hp, hpk⟩ := List.mem_map.mp hmem
  rw [hk]
  exact ⟨fun q hq => hle _ (List.mem_map.mpr ⟨q, hq, rfl⟩), p, hp, hpk.symm⟩

/-- Splits renewed as READY, one after another. -/
theorem renewAll_eq (as : List Nat) (ps acc : List Split) (s : State) :
    ∃ k qs, ps.foldl (fun acc p =>
        let r := renew acc.1 as { p with state := .ready }
        (r.2, acc.2 ++ [r.1])) (s, acc) = ({ s with nextId := k }, acc ++ qs) ∧
      List.Forall₂ (fun p q => q.sid = p.sid ∧ bareSplit q = bareSplit { p with state := .ready }) ps qs := by
  induction ps generalizing s acc with
  | nil => exact ⟨s.nextId, [], by simp, .nil⟩
  | cons p t ih =>
    obtain ⟨k, qs, hf, hall⟩ := ih (acc ++ [(renew s as { p with state := .ready }).1]) { s with nextId := s.nextId + 1 }
    exact ⟨k, (renew s as { p with state := .ready }).1 :: qs, by simpa [renew_eq] using hf, .cons ⟨rfl, rfl⟩ hall⟩

/-- A split put back READY, as the manual names it. -/
def readied (p : Split) : Split := bareSplit { p with state := .ready }

theorem readied_of_bare {p q : Split} (h : bareSplit q = readied p) : readied q = readied p := by
  have e := congrArg (fun x : Split => { x with state := SplitState.ready }) h
  exact e

/-- Splits put in place of their namesakes, each READY: those named are READY, the others as they were. -/
theorem putAll_bare (ps qs : List Split) (hall : List.Forall₂ (fun p q => q.sid = p.sid ∧ bareSplit q = readied p) ps qs)
    (g : Group) (huniq : ∀ p ∈ ps, ∀ x ∈ g.splits, x.sid = p.sid → readied x = readied p) :
    (qs.foldl setSplit g).splits.map bareSplit =
      g.splits.map (fun x => if x.sid ∈ ps.map Split.sid then readied x else bareSplit x) ∧
    { qs.foldl setSplit g with splits := g.splits } = g := by
  induction hall generalizing g with
  | nil => exact ⟨by simp, rfl⟩
  | @cons p q ps qs hpq _ ih =>
    obtain ⟨hsid, hbare⟩ := hpq
    have hstep : ∀ p' ∈ ps, ∀ x ∈ (setSplit g q).splits, x.sid = p'.sid → readied x = readied p' := by
      intro p' hp' x hx hxs
      obtain ⟨y, hy, rfl⟩ := List.mem_map.mp hx
      by_cases hyq : y.sid = q.sid
      · simp only [hyq, if_true] at hxs ⊢
        rw [readied_of_bare hbare, ← huniq p List.mem_cons_self y hy (hyq.trans hsid)]
        exact huniq p' (List.mem_cons_of_mem _ hp') y hy (hyq.trans hxs)
      · simp only [hyq, if_false] at hxs ⊢
        exact huniq p' (List.mem_cons_of_mem _ hp') y hy hxs
    obtain ⟨ihs, iho⟩ := ih (setSplit g q) hstep
    refine ⟨?_, ?_⟩
    · rw [List.foldl_cons, ihs]
      simp only [setSplit, List.map_map]
      apply List.map_congr_left
      intro x hx
      simp only [Function.comp_apply, List.map_cons, List.mem_cons]
      by_cases hxq : x.sid = q.sid
      · have hxp : x.sid = p.sid := hxq.trans hsid
        simp only [hxq, if_true, hsid, true_or]
        rw [hbare, readied_of_bare hbare, ite_self, huniq p List.mem_cons_self x hx hxp]
      · have hxp : x.sid ≠ p.sid := fun e => hxq (e.trans hsid.symm)
        simp [hxq, hxp]
    · have e := congrArg (fun z : Group => { z with splits := g.splits }) iho
      exact e

/-- The splits that GSYNC's release concerns. -/
def syncedOf (g : Group) : List Split := (g.splits.filter fun p => p.state != .joined).filter fun p => p.state == .synced

theorem syncRelease_eq {s : State} {gid : Nat} {g : Group} (hg : groupOf s gid = some g) :
    (((syncedOf g).isEmpty || (syncedOf g).length != (g.splits.filter fun p => p.state != .joined).length) = true →
      syncRelease s gid = s) ∧
    (((syncedOf g).isEmpty || (syncedOf g).length != (g.splits.filter fun p => p.state != .joined).length) = false →
      ∃ k qs, syncRelease s gid = remade s (qs.foldl setSplit g) k ∧
        List.Forall₂ (fun p q => q.sid = p.sid ∧ bareSplit q = readied p) (syncedOf g) qs) := by
  have hdef : syncRelease s gid =
      if (syncedOf g).isEmpty || (syncedOf g).length != (g.splits.filter fun p => p.state != .joined).length then s
      else
        let r := (syncedOf g).foldl (fun acc p =>
          let r := renew acc.1 ((syncedOf g).flatMap Split.agents) { p with state := .ready }
          (r.2, acc.2 ++ [r.1])) (s, [])
        setGroup r.1 (r.2.foldl setSplit g) := by
    simp only [syncRelease, hg]; rfl
  refine ⟨fun h => by rw [hdef, if_pos h], fun h => ?_⟩
  obtain ⟨k, qs, hf, hall⟩ := renewAll_eq ((syncedOf g).flatMap Split.agents) (syncedOf g) [] s
  refine ⟨k, qs, ?_, hall⟩
  rw [hdef, h]
  simp only [Bool.false_eq_true, if_false, hf, List.nil_append]
  rfl

theorem mem_syncedOf {g : Group} {p : Split} : p ∈ syncedOf g ↔ p ∈ g.splits ∧ p.state = .synced := by
  simp only [syncedOf, List.mem_filter, bne_iff_ne, ne_eq, beq_iff_eq]
  constructor
  · rintro ⟨⟨h, -⟩, e⟩; exact ⟨h, e⟩
  · rintro ⟨h, e⟩; exact ⟨⟨h, by rw [e]; exact fun h => nomatch h⟩, e⟩

/-- A live split that is not SYNCED keeps the group waiting. -/
theorem syncRelease_waits {s : State} {gid : Nat} {g : Group} (hg : groupOf s gid = some g)
    (h : ∃ p ∈ g.splits, p.state ≠ .joined ∧ p.state ≠ .synced) : syncRelease s gid = s := by
  obtain ⟨p, hp, hj, hsy⟩ := h
  refine (syncRelease_eq hg).1 (Bool.or_eq_true_iff.mpr (Or.inr ?_))
  have hlt := List.length_filter_lt_length_iff_exists (l := g.splits.filter fun p => p.state != .joined)
    (p := fun p => p.state == .synced) |>.mpr ⟨p, List.mem_filter.mpr ⟨hp, by simpa using hj⟩, by simpa using hsy⟩
  exact bne_iff_ne.mpr hlt.ne

theorem syncRelease_readies {s : State} {gid : Nat} {g : Group} (hids : IdsOk s) (hg : groupOf s gid = some g)
    (h : ∀ p ∈ g.splits, p.state = .joined ∨ p.state = .synced) :
    Shape gid (syncRelease s gid) (g.splits.map fun p => if p.state = .synced then { p with state := .ready } else p) g.regions := by
  have hnodup := (hids.splits _ (List.mem_of_find?_eq_some hg)).1
  have hinj : ∀ x ∈ g.splits, ∀ y ∈ g.splits, x.sid = y.sid → x = y := fun x hx y hy e =>
    List.inj_on_of_nodup_map hnodup hx hy e
  cases hw : ((syncedOf g).isEmpty || (syncedOf g).length != (g.splits.filter fun p => p.state != .joined).length) with
  | true =>
    have hnone : ∀ p ∈ g.splits, p.state ≠ .synced := by
      intro p hp hsy
      have hlen : (syncedOf g).length = (g.splits.filter fun p => p.state != .joined).length := by
        rw [syncedOf, List.length_filter_eq_length_iff]
        intro q hq
        obtain ⟨hq, hj⟩ := List.mem_filter.mp hq
        rcases h q hq with e | e
        · simp [e] at hj
        · simp [e]
      rcases Bool.or_eq_true_iff.mp hw with he | he
      · rw [List.isEmpty_iff] at he
        have : p ∈ syncedOf g := mem_syncedOf.mpr ⟨hp, hsy⟩
        rw [he] at this; cases this
      · exact bne_iff_ne.mp he hlen
    rw [(syncRelease_eq hg).1 hw]
    refine ⟨g, hg, ?_, rfl⟩
    rw [List.map_map]
    exact List.map_congr_left fun p hp => by simp [hnone p hp]
  | false =>
    obtain ⟨k, qs, he, hall⟩ := (syncRelease_eq hg).2 hw
    obtain ⟨hsp, hown⟩ := putAll_bare _ _ hall g fun p hp x hx e => by
      rw [hinj x hx p (mem_syncedOf.mp hp).1 e]
    have hgid : (qs.foldl setSplit g).gid = gid := by
      have e := congrArg Group.gid hown
      exact e.trans (groupOf_gid hg)
    have hreg : (qs.foldl setSplit g).regions = g.regions := by have e := congrArg Group.regions hown; exact e
    rw [he]
    refine remade_shape _ hg hgid ?_ (by rw [hreg])
    rw [hsp, List.map_map]
    apply List.map_congr_left
    intro x hx
    have hiff : x.sid ∈ (syncedOf g).map Split.sid ↔ x.state = .synced := by
      rw [List.mem_map]
      constructor
      · rintro ⟨y, hy, e⟩
        obtain ⟨hy, hsy⟩ := mem_syncedOf.mp hy
        rw [← hinj y hy x hx e, hsy]
      · intro e; exact ⟨x, mem_syncedOf.mpr ⟨hx, e⟩, rfl⟩
    simp only [hiff, Function.comp_apply]
    split_ifs <;> rfl

theorem syncRelease_reshaped {s : State} {gid : Nat} {g : Group} (hids : IdsOk s) (hg : groupOf s gid = some g) :
    Reshaped gid s (syncRelease s gid) := by
  have hnodup := (hids.splits _ (List.mem_of_find?_eq_some hg)).1
  cases hw : ((syncedOf g).isEmpty || (syncedOf g).length != (g.splits.filter fun p => p.state != .joined).length) with
  | true => rw [(syncRelease_eq hg).1 hw]; exact .refl _ _
  | false =>
    obtain ⟨k, qs, he, hall⟩ := (syncRelease_eq hg).2 hw
    obtain ⟨-, hown⟩ := putAll_bare _ _ hall g fun p hp x hx e => by
      rw [List.inj_on_of_nodup_map hnodup hx (mem_syncedOf.mp hp).1 e]
    rw [he]
    refine remade_reshaped _ hg ?_
    have e := congrArg (fun z : Group => { z with regions := g.regions }) hown
    exact e

/-! ## YIELD -/

theorem exec_yield_repro {f : CFmt} {s : State} {u : Iss} (h : issuer s (.yield f) = some u) (hc : clear u = true)
    (hr : u.g.repro = true) : exec (.yield f) s = .next (retire u.s u true) := by
  have hexec : exec (.yield f) s = execYield f s := rfl
  rw [hexec, execYield, runInstr_next h hc]
  simp only [hr, if_true, commit_done]

/-- The marks of a YIELD are of its rivals, and finding them uses free choices alone. -/
theorem yieldMarks_facts (s : State) (g : Group) (p : Split) :
    ∃ k, (yieldMarks s g p).2 = { s with freeCtr := k } ∧
      ∀ m ∈ (yieldMarks s g p).1, ∃ x ∈ rivals (setGroup s (setSplit g { p with chainLen := 0 })) g p,
        m = (x.1.gid, x.2.sid, x.2.issues) := by
  unfold yieldMarks
  generalize rivals (setGroup s (setSplit g { p with chainLen := 0 })) g p = xs
  suffices hgen : ∀ (ys : List (Group × Split)) (acc : List (Nat × Nat × Nat)) (c : Nat), (∀ y ∈ ys, y ∈ xs) →
      (∀ m ∈ acc, ∃ x ∈ xs, m = (x.1.gid, x.2.sid, x.2.issues)) →
      ∃ k, (ys.foldl (fun acc x =>
          let r := choose acc.2 2
          (if r.1 = 1 then acc.1 ++ [(x.1.gid, x.2.sid, x.2.issues)] else acc.1, r.2)) (acc, { s with freeCtr := c })).2 =
            { s with freeCtr := k } ∧
        ∀ m ∈ (ys.foldl (fun acc x =>
          let r := choose acc.2 2
          (if r.1 = 1 then acc.1 ++ [(x.1.gid, x.2.sid, x.2.issues)] else acc.1, r.2)) (acc, { s with freeCtr := c })).1,
          ∃ x ∈ xs, m = (x.1.gid, x.2.sid, x.2.issues) from
    hgen xs [] s.freeCtr (fun _ h => h) (fun m h => nomatch h)
  intro ys
  induction ys with
  | nil => intro acc c _ hacc; exact ⟨c, rfl, hacc⟩
  | cons y t ih =>
    intro acc c hys hacc
    refine ih _ (c + 1) (fun z hz => hys z (List.mem_cons_of_mem _ hz)) fun m hm => ?_
    split at hm
    · rcases List.mem_append.mp hm with hm | hm
      · exact hacc m hm
      · exact ⟨y, hys y List.mem_cons_self, List.mem_singleton.mp hm⟩
    · exact hacc m hm

/-- The group of a split that yields. -/
def yielded (u : Iss) (ms : List (Nat × Nat × Nat)) : Group := setSplit u.g { u.p with yield := some (u.s.clock.toNat, ms) }

theorem exec_yield_free {f : CFmt} {s : State} {u : Iss} (h : issuer s (.yield f) = some u) (hc : clear u = true)
    (hr : u.g.repro = false) :
    ∃ k ms, exec (.yield f) s = .next (retire (setGroup { u.s with freeCtr := k } (yielded u ms)) u true) ∧
      ∀ m ∈ ms, ∃ x ∈ rivals (setGroup u.s (setSplit u.g { u.p with chainLen := 0 })) u.g u.p, m = (x.1.gid, x.2.sid, x.2.issues) := by
  obtain ⟨hs, -, -, hg, hp, -⟩ := issuer_state h
  obtain ⟨k, hst, hmarks⟩ := yieldMarks_facts u.s u.g u.p
  have hexec : exec (.yield f) s = execYield f s := rfl
  refine ⟨k, _, ?_, hmarks⟩
  rw [hexec, execYield, runInstr_next h hc]
  simp only [hr, Bool.false_eq_true, if_false, hst, commit_done]
  rw [← hs] at hg
  rw [updSplit_eq (s := { u.s with freeCtr := k }) hg hp]
  rfl

end Sys2Proof.Machine

namespace Sys2Proof.Machine

/-- Settles O12: the three courses of BRA.D, by the lanes that take it and the room for a split and a region. -/
theorem divergingBranch : Obligations.DivergingBranch := by
  unfold Obligations.DivergingBranch
  refine ⟨fun f s u h hc => ⟨fun hz => ⟨_, exec_braD h hc, ?_⟩, fun hz hem => ⟨_, exec_braD h hc, ?_⟩⟩,
    fun f s u hids h hc hz hem ht => braD_divides hids h hc hz hem ht, fun f s u h hc hz hem ht => ⟨_, exec_braD h hc, ?_⟩⟩
  · rw [if_pos hz]; exact goes_done h rfl
  · rw [if_neg hz, if_pos hem]; exact goes_jump h rfl _
  · rw [if_neg hz, if_neg hem, divide, ht]
    exact trapped_all u _ _ _

/-- Settles O13: BRK, JOIN and GSYNC up to their close checks and the group's release. -/
theorem regionsLeftAndJoined : Obligations.RegionsLeftAndJoined := by
  unfold Obligations.RegionsLeftAndJoined
  refine ⟨?brk, ?join, ?gsync⟩
  case brk =>
    intro f s u hids h hc n chain x region hn ht
    refine ⟨fun hz => ⟨_, exec_brk h hc hn, by rw [if_pos hz]; exact goes_done h rfl⟩, fun hz => ?_⟩
    rw [exec_brk h hc hn, if_neg hz]
    by_cases hx : guardedMembers u = u.p.members
    · obtain ⟨s1, he, hre, hsh⟩ := breakOut_whole hids h chain (target u.p.pc f.toff)
      rw [hx, he]
      exact ⟨s1, rfl, hre, fun _ => by rw [show x = u.p.members from hx]; exact hsh, fun hne => absurd hx hne⟩
    · obtain ⟨s1, he, hre, hsh⟩ := breakOut_part hids h x chain (target u.p.pc f.toff) hx (ht.resolve_left hx)
      rw [he]
      exact ⟨s1, rfl, hre, fun e => absurd e hx, fun _ => hsh⟩
  case join =>
    intro f s u hids h hc
    cases hb : u.p.region.bind (regionOf u.g) with
    | none => exact ⟨_, exec_join_on h hc (by rw [hb]; exact fun r e => nomatch e), goes_done h rfl⟩
    | some r =>
      refine ⟨fun hne => ⟨_, exec_join_on h hc ?_, goes_done h rfl⟩, fun he => exec_join_park h hc hb he⟩
      rw [hb]
      intro r' e
      cases e
      exact hne
  case gsync =>
    intro f s u _ h hc
    exact exec_gsync h hc

/-- Settles O14: EXIT's guarded members leave the split and the regions of its chain, and the close checks follow. -/
theorem exits : Obligations.Exits := by
  unfold Obligations.Exits
  intro f s u hids h hc _ x chain
  have hexec : exec (.exit f) s = .next (commit u (if x = 0#64 then .done u.s else .done (exitLanes u u.s x))) := by
    have hdef : exec (.exit f) s = execExit f s := rfl
    rw [hdef, execExit, runInstr_next h hc]
  refine ⟨fun hz => ⟨_, hexec, by rw [if_pos hz]; exact goes_done h rfl⟩, fun hz => ?_⟩
  obtain ⟨s1, he, hre, hsh⟩ := exitLanes_eq hids h x
  rw [hexec, if_neg hz, (issuer_state h).1, he]
  exact ⟨s1, rfl, hre, hsh⟩

/-- Settles O15: the close check's three courses; the merged split's stamp is the least of the JOINED ones. -/
theorem regionClose : Obligations.RegionClose := by
  unfold Obligations.RegionClose
  intro s gid rid g r hg hr joined
  rw [closeCheck_region hg hr]
  by_cases he : r.expected = 0#64
  · rw [if_pos he, remade_nextId]
    refine ⟨remade_reshaped _ hg rfl, fun _ => remade_shape _ hg ?_ rfl rfl, fun h => absurd he h, fun h => absurd he h⟩
    have hgid := groupOf_gid hg
    exact hgid
  · rw [if_neg he]
    by_cases ha : r.arrived = r.expected
    · rw [if_neg (not_not.mpr ha)]
      cases hj : joined with
      | nil =>
        rw [show (g.splits.filter fun p => p.state == .joined && p.region == some rid) = [] from hj]
        exact ⟨.refl _ _, fun h => absurd h he, fun _ h => absurd ha h, fun _ _ h => absurd rfl h⟩
      | cons p t =>
        have hmin := min_stamp (ps := p :: t) (by simp)
        rw [show (g.splits.filter fun p => p.state == .joined && p.region == some rid) = p :: t from hj]
        refine ⟨remade_reshaped _ hg rfl, fun h => absurd h he, fun _ h => absurd ha h, fun _ _ _ => ⟨closedSplit s r (p :: t) p, ?_, ?_⟩⟩
        · refine remade_shape _ hg ?_ (bare_addSplit _ _) ?_
          · have hgid := groupOf_gid hg
            exact hgid
          · rfl
        · exact ⟨rfl, rfl, rfl, rfl, rfl, rfl, hmin⟩
    · rw [if_pos ha]
      exact ⟨.refl _ _, fun h => absurd h he, fun _ _ => rfl, fun _ h => absurd h ha⟩

/-- Settles O16: with every live split SYNCED or JOINED the SYNCED ones are put back READY, each by its own number. -/
theorem groupSyncRelease : Obligations.GroupSyncRelease := by
  unfold Obligations.GroupSyncRelease
  intro s gid g hids hg
  exact ⟨syncRelease_reshaped hids hg, syncRelease_waits hg, syncRelease_readies hids hg⟩

/-- Settles O23: `retire` is one replacement of the group, and a YIELD's marks use free choices alone. -/
theorem retirement : Obligations.Retirement := by
  unfold Obligations.Retirement
  refine ⟨?retires, ?nop, ?yield⟩
  case retires =>
    intro s u g p hg hp hi
    have hsid := splitOf_sid hp
    have hgid := groupOf_gid hg
    rw [retire_eq hg hp]
    refine ⟨_, retiredSplit u true p, groupOf_setGroup hg (by exact hgid),
      splitOf_setSplit (g := retiredGroup u g) hp hsid, rfl, rfl, ?_, rfl, rfl, rfl, rfl, rfl, rfl, rfl, rfl, rfl, fun n hn => ?_, fun n hn => ?_⟩
    · simp [retiredSplit, hi]
    · exact groupOf_setGroup_other (by show n ≠ g.gid; rw [groupOf_gid hg]; exact hn)
    · exact splitOf_setSplit_other (g := retiredGroup u g) (by rw [retiredSplit_sid, hsid]; exact hn)
  case nop =>
    intro f s u h hc
    have hexec : exec (.nop f) s = execNop f s := rfl
    rw [hexec, execNop, runInstr_next h hc]
    exact ⟨_, rfl, goes_done h rfl⟩
  case yield =>
    intro f s u h hc
    obtain ⟨hs, hui, -, hg, hp, -⟩ := issuer_state h
    cases hrep : u.g.repro with
    | true =>
      rw [exec_yield_repro h hc hrep, hs, retire_eq hg hp]
      refine ⟨_, rfl, ?_, _, retiredSplit u true u.p, groupOf_setGroup hg (by rfl),
        splitOf_setSplit (g := retiredGroup u u.g) hp rfl, rfl⟩
      have hgo := goes_done h rfl
      rw [hs, commit_done, retire_eq hg hp] at hgo
      exact hgo
    | false =>
      obtain ⟨k, ms, hexec, hmarks⟩ := exec_yield_free h hc hrep
      rw [hs] at hexec hmarks
      have hg1 : groupOf (setGroup { s with freeCtr := k } (yielded u ms)) u.g.gid = some (yielded u ms) := groupOf_setGroup hg rfl
      have hp1 : splitOf (yielded u ms) u.p.sid = some { u.p with yield := some (u.s.clock.toNat, ms) } := splitOf_setSplit hp rfl
      rw [hexec]
      refine ⟨_, rfl, ?_, ?_⟩
      · have hgo := retire_moved (s0 := setGroup s (yielded u ms)) (by rw [hui]; rfl) true (groupOf_setGroup hg rfl) hp1
          (fun n hn => by rw [hs]; exact groupOf_setGroup_other hn) (by rw [hs]; rfl) (fun n hn => splitOf_setSplit_other hn) rfl rfl
        have hg2 : groupOf (setGroup s (yielded u ms)) u.g.gid = some (yielded u ms) := groupOf_setGroup hg rfl
        rw [retire_eq hg2 hp1] at hgo
        rw [retire_eq hg1 hp1]
        exact hgo
      · rw [retire_eq hg1 hp1]
        exact ⟨_, _, groupOf_setGroup hg1 (by rfl), splitOf_setSplit (g := retiredGroup u (yielded u ms)) hp1 rfl,
          ms, by rw [← hs]; rfl, hmarks⟩

end Sys2Proof.Machine

namespace Sys2Proof
open Machine

/-- Settles O11: a branch either moves its split alone, by its guard and target, or takes its trap. -/
theorem branches : Obligations.Branches := by
  unfold Obligations.Branches
  have hbra : ∀ (f : CFmt) {s : State} {u : Iss}, issuer s (.bra f) = some u → clear u = true →
      exec (.bra f) s = .next (commit u (branchIf u (jumpTo u u.s (target u.p.pc f.toff)))) := fun f s u h hc => by
    have hexec : exec (.bra f) s = execBra f s := rfl
    rw [hexec, execBra, runInstr_next h hc]
  have hret : ∀ (f : CFmt) {s : State} {u : Iss}, issuer s (.ret f) = some u → clear u = true → sOk true f.a = true →
      exec (.ret f) s = .next (commit u (branchIf u (jumpAligned u u.s (target (readPair u f.a 0) f.toff)))) :=
    fun f s u h hc ho => by
      have hexec : exec (.ret f) s = execRet f s := rfl
      rw [hexec, execRet, runInstr_next h hc]
      simp only [ho, Bool.not_true, Bool.false_eq_true, if_false]
  refine ⟨?bra, ?disagree, ?brx, ?brxTraps, ?call, ?callTraps, ?ret, ?retTraps⟩
  case bra =>
    intro f s u b h hc hb
    exact ⟨_, hbra f h hc, goes_branch h rfl hb _⟩
  case disagree =>
    intro f s u h hc hb
    refine ⟨_, hbra f h hc, ?_⟩
    simp only [branchIf, hb]
    exact trapped_illegal u _
  case brx =>
    intro f s u b h hc hb hv lanes tgt hall
    exact exec_brx_goes h hc hb hv hall
  case brxTraps =>
    intro f s u h hc hb hv lanes tgt
    refine ⟨fun ⟨l, hl, hne⟩ => ⟨_, exec_brx h hc hv, ?_⟩, fun hne hall hoff => ⟨_, exec_brx h hc hv, ?_⟩⟩
    · rw [branchIf_true hb, brxGo_differ (f := f) hl hne]
      exact trapped_illegal u _
    · rw [branchIf_true hb, brxGo_agree (f := f) hne hall]
      exact jumpAligned_off _ hoff
  case call =>
    intro f s u b h hc hb ho tgt ha
    refine ⟨_, exec_call h hc ho, fun e => ?_, fun e => ?_⟩
    · subst e
      rw [branchIf_false hb]
      exact goes_done h rfl
    · subst e
      rw [branchIf_true hb, jumpAligned, if_neg (not_not.mpr ha)]
      exact call_links h (Bool.and_eq_true_iff.mp ho).1 _
  case callTraps =>
    intro f s u h hc hb ho tgt ha
    refine ⟨_, exec_call h hc ho, ?_⟩
    rw [branchIf_true hb]
    exact jumpAligned_off _ ha
  case ret =>
    intro f s u b h hc hb ho ha
    exact ⟨_, hret f h hc ho, goes_aligned h rfl hb _ ha⟩
  case retTraps =>
    intro f s u h hc hb ho ha
    refine ⟨_, hret f h hc ho, ?_⟩
    rw [branchIf_true hb]
    exact jumpAligned_off _ ha

end Sys2Proof
end

section
/-!
SUPPORT. Traps (11 R206 to R213): the checks before an instruction, the entry to the handler and the return from it, and what
halts a group for the driver.
-/
namespace Sys2Proof.Machine

/-! ## The checks before an instruction -/

/-- Every instruction of a split takes the common course. -/
theorem exec_runInstr {i : Instr} (s : State) (h : i.isEvent = false) : ∃ body, exec i s = runInstr i body s := by
  cases i with
  | _ => first | exact ⟨_, rfl⟩ | exact Bool.noConfusion h

/-- An instruction that an early trap stops. -/
theorem exec_early {i : Instr} {s : State} {u : Iss} {e : Eff} (hi : i.isEvent = false) (h : issuer s i = some u)
    (he : earlyTrap u = some e) : exec i s = .next (commit u e) := by
  obtain ⟨body, hb⟩ := exec_runInstr s hi
  rw [hb]
  simp [runInstr, h, he]

/-- An idle instruction that no early trap stops. -/
theorem exec_idle {i : Instr} {s : State} {u : Iss} (hi : i.isEvent = false) (h : issuer s i = some u) (he : earlyTrap u = none)
    (hid : u.idle = true) : exec i s = .next (commit u (idleEff u)) := by
  obtain ⟨body, hb⟩ := exec_runInstr s hi
  rw [hb]
  simp [runInstr, h, he, hid]

/-- With no deferred error of a load at an exit, the early trap is the first one. -/
theorem earlyTrap_first {u : Iss} (h : isExit u.i = true → u.g.badLoads = []) : earlyTrap u = firstTrap u := by
  unfold earlyTrap
  by_cases hx : isExit u.i = true
  · have hb : badLoadTrap u = none := by simp [badLoadTrap, h hx]
    simp [hx, hb]
  · simp [hx]

theorem meetsErrors_of_isExit {i : Instr} (h : isExit i = true) : meetsErrors i = true := by
  cases i with
  | exit f => rfl
  | exitJ f => rfl
  | _ => exact Bool.noConfusion h

/-- The deferred error that an exit meets: the oldest of its group. -/
theorem earlyTrap_badLoad {u : Iss} {b : BadLoad} {t : List BadLoad} (hx : isExit u.i = true) (hb : u.g.badLoads = b :: t) :
    earlyTrap u = some (.trap (setGroup u.s { u.g with badLoads := u.g.badLoads.filter (· != b) })
      { cause := .memoryUncorrectable, mask := u.p.members, aux0 := b.pc, aux1 := BitVec.ofNat 64 b.pa }) := by
  have hbad : badLoadTrap u = some (.trap (setGroup u.s { u.g with badLoads := u.g.badLoads.filter (· != b) })
      { cause := .memoryUncorrectable, mask := u.p.members, aux0 := b.pc, aux1 := BitVec.ofNat 64 b.pa }) := by
    simp [badLoadTrap, hb, meetsErrors_of_isExit hx]
  simp [earlyTrap, hx, hbad]

theorem perLane_not_exit {i : Instr} (h : perLane i = true) : isExit i = false ∧ isIret i = false := by
  cases i with
  | _ => first | exact ⟨rfl, rfl⟩ | exact Bool.noConfusion h

/-- The issue of an instruction whose sweep index is back at zero. -/
def sweptIss (u : Iss) : Iss := { u with p := { u.p with swpidx := if isSweep u.i then 0 else u.p.swpidx } }

/-- A vector instruction of a split with EM = 0 only moves its split, and leaves SWPIDX zero when it is a sweep. -/
theorem goes_idle {s : State} {u : Iss} {i : Instr} (h : issuer s i = some u) (hi : isIret i = false) :
    Goes (sweptIss u) (u.p.pc + 16#64) (commit u (idleEff u)) := by
  obtain ⟨rfl, hui, -, hg, hp, -⟩ := issuer_state h
  unfold idleEff sweptIss
  by_cases hsw : isSweep u.i = true
  · rw [if_pos hsw, if_pos hsw, commit_done, updSplit_eq hg hp]
    have hmoved := retire_moved (u := { u with p := { u.p with swpidx := 0 } }) (by rw [← hui] at hi; exact hi) true
      (s0 := setGroup u.s (setSplit u.g { u.p with swpidx := 0 })) (groupOf_setGroup hg rfl)
      (splitOf_setSplit (p := { u.p with swpidx := 0 }) hp rfl) (fun n hn => groupOf_setGroup_other hn)
      rfl (fun n hn => splitOf_setSplit_other hn) rfl rfl
    exact hmoved
  · rw [if_neg hsw, if_neg hsw]
    exact goes_done h hi

/-! ## The entry to the handler -/

theorem stopSweep_chain (p : Split) (r : TrapReq) : (p.stopSweep r).chainPC = p.chainPC ∧ (p.stopSweep r).bpMatch = p.bpMatch := by
  unfold Split.stopSweep; split <;> exact ⟨rfl, rfl⟩

theorem Cause.code_lt (c : Cause) : c.code < 256 := by cases c <;> decide

/-- The group and the split of a trap, as its record and the handler find them. -/
def trapGroup (g : Group) (p : Split) (r : TrapReq) : Group :=
  setSplit g { p.stopSweep r with awaiting := none, syncWait := none, syncOk := false }

theorem takeTrap_handler {s : State} {gid sid : Nat} {r : TrapReq} {g : Group} {p : Split} {c : Context}
    (hg : groupOf s gid = some g) (hp : splitOf g sid = some p) (hc : ctxOf s g.ctx = some c) (hd : r.cause.toDriver = false)
    (hh : g.inHandler = false) (hz : c.handler ≠ 0#64) (hk : comparedCopy s g = false) :
    takeTrap s gid sid r = enterHandler s (trapGroup g p r) (p.stopSweep r)
      (trapRecord s (trapGroup g p r) (p.stopSweep r) r 0) (fltrdFaults r) c.handler := by
  have hctx : ctxOf s (trapGroup g p r).ctx = some c := hc
  have hin : (trapGroup g p r).inHandler = false := hh
  have hcopy : comparedCopy s (trapGroup g p r) = false := hk
  unfold trapGroup at hctx hin hcopy
  simp only [takeTrap, hg, hp, hd, hctx, hin, hcopy, Option.elim_some, hz, Bool.false_eq_true, if_false]
  rfl

/-- A trap for the driver halts the group with its record. -/
theorem takeTrap_driver {s : State} {gid sid : Nat} {r : TrapReq} {g : Group} {p : Split} {c : Context}
    (hg : groupOf s gid = some g) (hp : splitOf g sid = some p) (hc : ctxOf s g.ctx = some c)
    (h : r.cause.toDriver = true ∨ g.inHandler = true ∨ c.handler = 0#64) :
    ∃ kind, takeTrap s gid sid r = haltForDriver s (trapGroup g p r) sid kind (trapRecord s g (p.stopSweep r) r 1) := by
  have hctx : ctxOf s (trapGroup g p r).ctx = some c := hc
  have hin : (trapGroup g p r).inHandler = g.inHandler := rfl
  unfold trapGroup at hctx hin
  simp only [takeTrap, hg, hp, hctx, hin, Option.elim_some]
  by_cases hd : r.cause.toDriver = true
  · rw [if_pos hd]; exact ⟨_, rfl⟩
  rw [if_neg hd]
  by_cases hh : g.inHandler = true
  · rw [if_pos hh]; exact ⟨_, rfl⟩
  rw [if_neg hh]
  have hz : c.handler = 0#64 := (h.resolve_left hd).resolve_left hh
  rw [if_pos hz]
  exact ⟨_, rfl⟩

theorem handler_fmt (n p : BitVec 9) : ∀ k < 9, ((n &&& 0x19F#9) ||| (p &&& 0x060#9)).getLsbD k =
    if k = 5 ∨ k = 6 then p.getLsbD k else n.getLsbD k := by
  intro k hk
  interval_cases k <;> simp

/-! ## Halts for the driver -/

theorem Delivered.of_same {s t t' : State} {c : Context} {gid : Nat} {r : TrapRec} {a : Option Nat} (h : Delivered s t c gid r a)
    (hm : t'.mem = t.mem) (hi : t'.irqs = t.irqs) (hc : t'.contexts = t.contexts) (hu : t'.undelivered = t.undelivered) :
    Delivered s t' c gid r a := by
  unfold Delivered physRead ctxOf at h ⊢
  rw [hm, hi, hc, hu]
  exact h

/-- The halt of a group for the driver, retired or not. -/
theorem haltedWith_intro {s t : State} {g g' : Group} {sid : Nat} {c : Context} {kind : HaltKind} {r : TrapRec} {h : DriverHalt}
    (hg : groupOf t g.gid = some g') (hd : g'.driver = some h) (hk : h.kind = kind) (hb : h.body = r) (hs : h.sid = sid)
    (hregs : g'.vregs = g.vregs ∧ g'.oregs = g.oregs ∧ g'.sregs = g.sregs ∧ g'.status = g.status ∧ g'.srctr = g.srctr)
    (hr : t.rings = s.rings) (hdel : Delivered s t c g.gid r h.addr) : HaltedWith s t g sid c kind r := by
  obtain ⟨hv, ho, hsr, hst, hct⟩ := hregs
  exact ⟨g', h, hg, hd, hk, hb, hs, hv, ho, hsr, hst, hct, hr, hdel⟩

theorem holdSweep_sid (p : Split) : p.holdSweep.sid = p.sid := by unfold Split.holdSweep; split <;> rfl

theorem holdSweep_pc (p : Split) : p.holdSweep.pc = p.pc := by unfold Split.holdSweep; split <;> rfl

theorem splitOf_holdSweep {g : Group} {n : Nat} {p : Split} (h : splitOf g n = some p) :
    (g.splits.map Split.holdSweep).find? (·.sid == n) = some p.holdSweep := by
  rw [List.find?_map]
  have hfun : ((fun x : Split => x.sid == n) ∘ Split.holdSweep) = fun x => x.sid == n := funext fun x => by simp [holdSweep_sid]
  have hp : g.splits.find? (fun x => x.sid == n) = some p := h
  rw [hfun, hp]
  rfl

theorem exec_bkpt_halts {f : KFmt} {s : State} {u : Iss} (h : issuer s (.bkpt f) = some u) (hc : clear u = true)
    (hv : guardIsVector f.h.guard = false) (hg : scalarGuard u.g f.h.guard = true) (hp : regWritesPending s u.g.gid = false) :
    exec (.bkpt f) s = .next (retire (haltForDriver s u.g u.p.sid (.breakpoint true) (bkptRecord u 0xFF)) u true) := by
  have hexec : exec (.bkpt f) s = execBkpt f s := rfl
  rw [hexec, execBkpt, runInstr_next h hc]
  simp only [hv, hg, (issuer_state h).1, hp, Bool.not_true, Bool.false_eq_true, if_false, commit_done]

theorem exec_trapEsc_halts {f : KFmt} {s : State} {u : Iss} {sh : Shadow} (h : issuer s (.trapEsc f) = some u)
    (hc : clear u = true) (hv : guardIsVector f.h.guard = false) (hg : scalarGuard u.g f.h.guard = true)
    (hsh : u.g.shadow = some sh) :
    exec (.trapEsc f) s = .next
      (haltForDriver s (setSplit u.g { u.p with chainLen := 0, chainPC := 0#64 }) u.p.sid .escape (escRecord u sh)) := by
  have hexec : exec (.trapEsc f) s = execTrapEsc f s := rfl
  rw [hexec, execTrapEsc, runInstr_next h hc]
  simp only [hv, hg, (issuer_state h).1, hsh, Bool.not_true, Bool.false_eq_true, if_false]
  rfl

/-! ## IRET -/

theorem exec_iret_skips {f : KFmt} {s : State} {u : Iss} (h : issuer s (.iret f) = some u) (hc : clear u = true)
    (hv : guardIsVector f.h.guard = false) (hg : scalarGuard u.g f.h.guard = false) :
    exec (.iret f) s = .next (retire s u true) := by
  have hexec : exec (.iret f) s = execIret f s := rfl
  rw [hexec, execIret, runInstr_next h hc]
  simp only [hv, hg, (issuer_state h).1, Bool.not_false, Bool.false_eq_true, if_false, if_true, commit_done]

/-- What IRET makes of its group and its split. -/
def returnedSplit (g : Group) (p : Split) (sh : Shadow) : Split :=
  { p with
    em := sh.em &&& p.members, fmt := sh.fmt, swpidx := if g.trappc = sh.pc then sh.swpidx else 0, pc := g.trappc,
    chainLen := sh.chainLen, chainPC := sh.chainPC, bpMatch := sh.bpMatch, sweep := none }

def returnedGroup (g : Group) (sh : Shadow) : Group :=
  { g with shadow := none, faults := [], status := sh.status, sregs := g.sregs.take 56 ++ sh.s56 }

theorem exec_iret_returns {f : KFmt} {s : State} {u : Iss} {sh : Shadow} (h : issuer s (.iret f) = some u) (hc : clear u = true)
    (hv : guardIsVector f.h.guard = false) (hg : scalarGuard u.g f.h.guard = true) (hsh : u.g.shadow = some sh)
    (hsid : sh.sid = u.p.sid) (ha : bits u.g.trappc 0 4 = 0) :
    exec (.iret f) s = .next (retire (setGroup (setRing s u.g.core u.g.quarter sh.ring)
      (setSplit (returnedGroup u.g sh) (returnedSplit u.g u.p sh))) u false) := by
  obtain ⟨hs, -, -, -, hp, -⟩ := issuer_state h
  have hp' : splitOf u.g sh.sid = some u.p := by rw [hsid]; exact hp
  have hexec : exec (.iret f) s = execIret f s := rfl
  rw [hexec, execIret, runInstr_next h hc]
  simp only [hv, hg, hs, ha, hsh, returnFromHandler, hp', ne_eq, not_true_eq_false, Bool.not_true, Bool.false_eq_true, if_false,
    commit_jump]
  rfl

/-- What the end of an instruction leaves, behind a state whose group is `g` and whose split is `p`. -/
structure RetiredTo (s0 t : State) (u : Iss) (g g' : Group) (p p' : Split) : Prop where
  group : groupOf t u.g.gid = some g'
  split : splitOf g' u.p.sid = some p'
  groups : ∀ n, n ≠ u.g.gid → groupOf t n = groupOf s0 n
  splits : ∀ n, n ≠ u.p.sid → splitOf g' n = splitOf g n
  machine : { t with groups := s0.groups } = s0
  own : { g' with lclk := g.lclk, splits := g.splits, round := g.round, bpDue := g.bpDue } = g
  due : g'.bpDue = breakOwed u g.bpDue p'.pc

theorem retire_retiredTo {s0 : State} {u : Iss} {next : Bool} {g : Group} {p : Split} (hg : groupOf s0 u.g.gid = some g)
    (hp : splitOf g u.p.sid = some p) : ∃ g', RetiredTo s0 (retire s0 u next) u g g' p (retiredSplit u next p) := by
  have hgid := groupOf_gid hg
  have hsid := splitOf_sid hp
  rw [retire_eq hg hp]
  refine ⟨_, groupOf_setGroup hg (by exact hgid), splitOf_setSplit (g := retiredGroup u g) hp (by exact hsid), fun n hn => ?_,
    fun n hn => ?_, rfl, rfl, rfl⟩
  · exact groupOf_setGroup_other (by show n ≠ g.gid; rw [hgid]; exact hn)
  · exact splitOf_setSplit_other (g := retiredGroup u g) (by rw [retiredSplit_sid, hsid]; exact hn)

theorem RetiredTo.regs {s0 t : State} {u : Iss} {g g' : Group} {p p' : Split} (h : RetiredTo s0 t u g g' p p') :
    g'.shadow = g.shadow ∧ g'.status = g.status ∧ g'.sregs = g.sregs ∧ g'.vregs = g.vregs ∧ g'.oregs = g.oregs ∧
      g'.srctr = g.srctr := by
  rw [← h.own]
  exact ⟨rfl, rfl, rfl, rfl, rfl, rfl⟩

theorem returned_retired {u : Iss} {next : Bool} (sh : Shadow) (h : isIret u.i = true) :
    (retiredSplit u next (returnedSplit u.g u.p sh)).chainLen = sh.chainLen ∧
    (retiredSplit u next (returnedSplit u.g u.p sh)).chainPC = sh.chainPC ∧
    (retiredSplit u next (returnedSplit u.g u.p sh)).bpMatch = sh.bpMatch := by
  simp [retiredSplit, h, returnedSplit]

/-- Settles O17: the entry is `enterHandler` on the split whose sweep has stopped; the fields of TRAPCAUSE are those of its record. -/
theorem trapEntry : Obligations.TrapEntry := by
  unfold Obligations.TrapEntry
  intro s gid sid r g p c hg hp hc hd hh hz hk t
  obtain ⟨hsid, hpc, hem, hfmt, hmem, hlen, hswp⟩ := stopSweep_facts p r
  obtain ⟨hcpc, hbp⟩ := stopSweep_chain p r
  have hgid := groupOf_gid hg
  have hps := splitOf_sid hp
  have hp1 : splitOf (trapGroup g p r) sid = some { p.stopSweep r with awaiting := none, syncWait := none, syncOk := false } :=
    splitOf_setSplit hp (by rw [← hps]; exact hsid)
  have hword := word0_fields (trapRecord s (trapGroup g p r) (p.stopSweep r) r 0) rfl hh (Cause.code_lt _) _ rfl
  have ht : t = enterHandler s (trapGroup g p r) (p.stopSweep r)
      (trapRecord s (trapGroup g p r) (p.stopSweep r) r 0) (fltrdFaults r) c.handler := takeTrap_handler hg hp hc hd hh hz hk
  rw [ht]
  refine ⟨_, _, _, groupOf_setGroup hg (by exact hgid), splitOf_setSplit (g := { trapGroup g p r with shadow := _ }) hp1 ?_, rfl,
    hem, hfmt, hswp, rfl, rfl, rfl, hpc, hlen, hcpc, hbp, rfl, rfl, hpc, rfl, ?_⟩
  · exact hsid.trans hps
  obtain ⟨h0, h8, h12, h16, h28, h29, h30⟩ := hword
  refine ⟨h0, h8, h12, h16, h28, ?_, h30, ?_, hmem, rfl, ?_, rfl, rfl, rfl, rfl, rfl, rfl, rfl, ?_, ?_⟩
  · exact h29.trans (by rw [trapRecord, hlen])
  · exact congrArg (r.mask &&& ·) hmem
  · intro k hk
    rw [← hfmt]
    exact handler_fmt _ _ k hk
  · intro n hn
    exact groupOf_setGroup_other (by show n ≠ g.gid; rw [hgid]; exact hn)
  · intro n hn
    have hne : n ≠ (p.stopSweep r).sid := by rw [hsid, hps]; exact hn
    refine Eq.trans (splitOf_setSplit_other hne) ?_
    exact splitOf_setSplit_other hne

/-- Settles O18: `halt_with` for the group of the trap. -/
theorem trapToDriver : Obligations.TrapToDriver := by
  unfold Obligations.TrapToDriver
  intro s gid sid r g p c hm hg hp hc hk hcase tr
  obtain ⟨hsid, hpc, -, -, -, hlen, -⟩ := stopSweep_facts p r
  have hgid := groupOf_gid hg
  obtain ⟨kind, ht⟩ := takeTrap_driver hg hp hc hcase
  refine ⟨rfl, rfl, rfl, ?_, hpc, rfl, rfl, rfl, rfl, rfl, rfl, rfl, kind, ?_⟩
  · show (decide (0 < (p.stopSweep r).chainLen) || r.hold) = _
    rw [hlen]
  · have hx : groupOf s (trapGroup g p r).gid = some g := by rw [← hgid] at hg; exact hg
    obtain ⟨h, sr, hg', hkind, hbody, hhsid, hrings, hdel⟩ := halt_with (g := trapGroup g p r) (sid := sid) (kind := kind)
      (r := tr) hm hx hc hk
    rw [ht]
    exact haltedWith_intro hg' rfl hkind hbody hhsid ⟨rfl, rfl, rfl, rfl, rfl⟩ hrings hdel

/-- Settles O19: the early traps in their order, and the idle course. -/
theorem firstChecks : Obligations.FirstChecks := by
  unfold Obligations.FirstChecks
  intro i s u hev h privileged tooLong first
  obtain ⟨hs, hui, -, -, -, -⟩ := issuer_state h
  have hforbids : modeForbids u = privileged := by rw [modeForbids, hui]
  have hlong : (decide (7 ≤ u.p.chainLen) && instrHold u.i) = tooLong := by rw [hui]
  have hfirst : first → earlyTrap u = firstTrap u := fun hf => earlyTrap_first (by rw [hui]; exact hf)
  refine ⟨fun hx hne => ?_, fun hf hp => ?_, fun hf hp hl => ?_, fun hf hp hl hid hgd => ?_, fun hp hl hpl hem => ?_⟩
  · obtain ⟨b, t, hb⟩ := List.exists_cons_of_ne_nil hne
    refine ⟨b, by rw [hb]; exact List.mem_cons_self,
      TrapReq.by { cause := .memoryUncorrectable, mask := u.p.members, aux0 := b.pc, aux1 := BitVec.ofNat 64 b.pa } u,
      rfl, rfl, rfl, rfl, ?_⟩
    rw [exec_early hev h (earlyTrap_badLoad (by rw [hui]; exact hx) hb), hs]
    rfl
  · have he : earlyTrap u = some (trapAll u .privileged 0 0) := by
      rw [hfirst hf, firstTrap, hforbids, hp]; rfl
    exact ⟨_, exec_early hev h he, trapped_all u _ _ _⟩
  · have he : earlyTrap u = some (trapAll u .chainLength u.p.chainPC.toNat 0) := by
      rw [hfirst hf, firstTrap, hforbids, hp, hlong, hl]; rfl
    have ht := trapped_all u .chainLength u.p.chainPC.toNat 0
    rw [BitVec.ofNat_toNat, BitVec.setWidth_eq] at ht
    exact ⟨_, exec_early hev h he, ht⟩
  · have he : earlyTrap u = some (operandIllegal u) := by
      rw [hfirst hf, firstTrap, hforbids, hp, hlong, hl, hid, hui, hgd]; rfl
    exact ⟨_, exec_early hev h he, trapped_illegal u _⟩
  · obtain ⟨hnx, hni⟩ := perLane_not_exit hpl
    have hid : u.idle = true := by rw [Iss.idle, hui, hpl, hem]; rfl
    have he : earlyTrap u = none := by
      rw [hfirst (fun hx => by rw [hnx] at hx; cases hx), firstTrap, hforbids, hp, hlong, hl, hid]; rfl
    have hgo := goes_idle h hni
    have hsw : isSweep u.i = isSweep i := by rw [hui]
    rw [sweptIss, hsw] at hgo
    exact ⟨_, exec_idle hev h he hid, hgo⟩

/-- Settles O20: TRAP and a reserved word take their trap, BKPT and TRAP.ESC halt their group with their record. -/
theorem trapInstructions : Obligations.TrapInstructions := by
  unfold Obligations.TrapInstructions
  refine ⟨?trap, ?reserved, ?bkpt, ?esc⟩
  case trap =>
    intro f s u h hc ha
    have hexec : exec (.trap f) s = .next (commit u (if active u = 0#64 then .done u.s
        else .trap u.s { cause := .trapInstruction, mask := active u, aux0 := f.kimm.zeroExtend 64 })) := by
      have hdef : exec (.trap f) s = execTrap f s := rfl
      rw [hdef, execTrap, runInstr_next h hc]
      simp only [ha, ne_eq, not_true_eq_false, if_false]
    refine ⟨fun hz => ⟨_, hexec, ?_⟩, fun hz => ⟨_, hexec, ?_⟩⟩
    · rw [if_neg hz]; exact ⟨_, rfl, rfl, rfl, rfl, rfl⟩
    · rw [if_pos hz]; exact goes_done h rfl
  case reserved =>
    intro w s u h
    have hexec : exec (.reservedEncoding w) s = execReservedEncoding w s := rfl
    rw [hexec, execReservedEncoding]
    simp only [h]
    exact ⟨_, rfl, _, rfl, rfl, rfl, rfl, rfl⟩
  case bkpt =>
    intro f s u hm h hc hv hg hp hk
    obtain ⟨hs, -, -, hgr, hsp, hcx⟩ := issuer_state h
    obtain ⟨hh, sr, hg', hkind, hbody, hhsid, hrings, hdel⟩ := halt_with (g := u.g) (sid := u.p.sid) (kind := .breakpoint true)
      (r := bkptRecord u 0xFF) hm hgr hcx hk
    have hp' : splitOf { u.g with driver := some hh, splits := u.g.splits.map Split.holdSweep, savedRing := sr } u.p.sid =
        some u.p.holdSweep := splitOf_holdSweep hsp
    refine ⟨_, bkptRecord u 0xFF, exec_bkpt_halts h hc hv hg hp, ?_, rfl, rfl, rfl, rfl, rfl, rfl, ?_⟩ <;> rw [retire_eq hg' hp']
    · exact haltedWith_intro (groupOf_setGroup hg' (by rfl)) rfl hkind hbody hhsid ⟨rfl, rfl, rfl, rfl, rfl⟩ hrings
        (hdel.of_same rfl rfl rfl rfl)
    · exact ⟨_, _, groupOf_setGroup hg' (by rfl), splitOf_setSplit (g := retiredGroup u _) hp' (by exact holdSweep_sid _),
        congrArg (· + 16#64) (holdSweep_pc u.p)⟩
  case esc =>
    intro f s u sh hm h hc hv hg hsh hk
    obtain ⟨hs, -, -, hgr, hsp, hcx⟩ := issuer_state h
    obtain ⟨hh, sr, hg', hkind, hbody, hhsid, hrings, hdel⟩ := halt_with
      (g := setSplit u.g { u.p with chainLen := 0, chainPC := 0#64 }) (sid := u.p.sid) (kind := .escape)
      (r := escRecord u sh) hm hgr hcx hk
    refine ⟨_, escRecord u sh, exec_trapEsc_halts h hc hv hg hsh, ?_, rfl, rfl, rfl, rfl, rfl, rfl, rfl, rfl, rfl, _, hg', hsh⟩
    exact haltedWith_intro hg' rfl hkind hbody hhsid ⟨rfl, rfl, rfl, rfl, rfl⟩ hrings hdel

/-- Settles O21: `returnFromHandler`, and the retirement of an IRET, which keeps the chain that it has restored. -/
theorem handlerReturn : Obligations.HandlerReturn := by
  unfold Obligations.HandlerReturn
  intro f s u sh h hc hv hsh hsid ha hring
  obtain ⟨hs, hui, -, hg, hp, -⟩ := issuer_state h
  have hir : isIret u.i = true := by rw [hui]; rfl
  refine ⟨fun hsg => ⟨_, exec_iret_skips h hc hv hsg, ?_⟩, fun hsg => ?_⟩
  · rw [retire_eq hg hp]
    exact ⟨_, _, groupOf_setGroup hg (by rfl), splitOf_setSplit (g := retiredGroup u u.g) hp rfl, rfl, hsh⟩
  · have hgr : groupOf (setGroup (setRing s u.g.core u.g.quarter sh.ring)
        (setSplit (returnedGroup u.g sh) (returnedSplit u.g u.p sh))) u.g.gid =
          some (setSplit (returnedGroup u.g sh) (returnedSplit u.g u.p sh)) :=
      groupOf_setGroup (s := setRing s u.g.core u.g.quarter sh.ring) hg rfl
    have hpr : splitOf (setSplit (returnedGroup u.g sh) (returnedSplit u.g u.p sh)) u.p.sid = some (returnedSplit u.g u.p sh) :=
      splitOf_setSplit (g := returnedGroup u.g sh) hp rfl
    obtain ⟨g', ret⟩ := retire_retiredTo (next := false) hgr hpr
    obtain ⟨hshadow, hstatus, hsregs, hvregs, horegs, hsrctr⟩ := ret.regs
    have hsplit := returned_retired (next := false) sh hir
    have hothers : ∀ n, n ≠ u.g.gid → groupOf (setGroup (setRing s u.g.core u.g.quarter sh.ring)
        (setSplit (returnedGroup u.g sh) (returnedSplit u.g u.p sh))) n = groupOf s n := fun n hn => groupOf_setGroup_other hn
    have hrest : ∀ n, n ≠ u.p.sid → splitOf (setSplit (returnedGroup u.g sh) (returnedSplit u.g u.p sh)) n = splitOf u.g n :=
      fun n hn => splitOf_setSplit_other hn
    refine ⟨_, g', retiredSplit u false (returnedSplit u.g u.p sh), exec_iret_returns h hc hv hsg hsh hsid ha, ret.group,
      ret.split, ?shadow, ?status, ?sregs, ?ring, rfl, rfl, rfl, rfl, rfl, hsplit.1, hsplit.2.1, hsplit.2.2, ret.due, ?vregs,
      ?oregs, ?srctr, ?machine, fun n hn => (ret.groups n hn).trans (hothers n hn), fun n hn => (ret.splits n hn).trans (hrest n hn)⟩
    case ring =>
      have e := congrArg (fun t : State => ringOf t u.g.core u.g.quarter) ret.machine
      exact e.trans (ringOf_setRing s u.g.core u.g.quarter sh.ring hring)
    case machine =>
      have e := congrArg (fun t : State => { t with groups := s.groups, rings := s.rings }) ret.machine
      exact e
    case shadow => exact hshadow
    case status => exact hstatus
    case sregs => exact hsregs
    case vregs => exact hvregs
    case oregs => exact horegs
    case srctr => exact hsrctr

end Sys2Proof.Machine
end

section
/-!
SUPPORT. Accesses at issue (08 R159, 09 R174): what the places of an access are, and what loads, stores, prefetches, atomics,
CENSUS, JDEC and EXIT.J put in flight; CCTL, the fences and DFLUSH.
-/
namespace Sys2Proof.Machine

/-! ## Places -/

theorem addrTrap_clear {u : Iss} {sp : Space} {ls : List Nat} {ea : Nat → DWord} {align span : Nat}
    (h : addrTrap u sp ls ea align span = none) :
    (∀ l ∈ ls, (ea l).toNat % align = 0) ∧
    (sp = .scratch → ∀ l ∈ ls, (ea l).toNat + span ≤ spadLimit (teamOfIss u)) ∧
    (sp = .priv → ∀ l ∈ ls, (ea l).toNat < u.ctx.highWater * 0x1_0000) := by
  unfold addrTrap at h
  simp only at h
  split at h
  · cases h
  rename_i hmis
  have hal : ∀ l ∈ ls, (ea l).toNat % align = 0 := by
    intro l hl
    have he := List.filter_eq_nil_iff.mp (not_not.mp hmis) l hl
    simpa using he
  refine ⟨hal, fun hsp l hl => ?_, fun hsp l hl => ?_⟩ <;> subst hsp <;> simp only at h
  · split at h
    · cases h
    rename_i hout
    have he := List.filter_eq_nil_iff.mp (not_not.mp hout) l hl
    simpa using he
  · split at h
    · cases h
    rename_i hout
    have he := List.filter_eq_nil_iff.mp (not_not.mp hout) l hl
    simpa using he

theorem addrTrap_global {u : Iss} {ls : List Nat} {ea : Nat → DWord} {align span : Nat}
    (h : ∀ l ∈ ls, (ea l).toNat % align = 0) : addrTrap u .global ls ea align span = none := by
  simpa [addrTrap] using h

theorem addrTrap_nil (u : Iss) (sp : Space) (ea : Nat → DWord) (align span : Nat) : addrTrap u sp [] ea align span = none := by
  cases sp <;> rfl

theorem accessLanes_nil (u : Iss) (sp : Space) (a : Access) (ea : Nat → DWord) (align span : Nat) :
    accessLanes u sp a [] ea align span = .ok (u.s, []) := by
  cases sp <;> rfl

/-- The places of an access per lane. -/
theorem placesOf_lanes {u : Iss} {f : MFmt} {a : Access} {size : Nat} {once : Bool} {ls : List Nat} {r : State × List LanePlace} :
    placesOf u f a 0 size once ls = .ok r ↔ accessLanes u (spaceOf f.space) a ls (effAddr u f) size size = .ok r := by
  unfold placesOf
  rw [if_pos rfl]
  cases accessLanes u (spaceOf f.space) a ls (effAddr u f) size size with
  | error e => exact ⟨nofun, nofun⟩
  | ok r' => exact Iff.rfl

/-- The places of an access in a run. -/
theorem placesOf_run {u : Iss} {f : MFmt} {a : Access} {shape size : Nat} {once : Bool} {ls : List Nat}
    {r : State × List LanePlace} (hs : shape ≠ 0) (h : placesOf u f a shape size once ls = .ok r) :
    r = (u.s, runPlaces (shapeRun u f (shape == 2)) ls) := by
  unfold placesOf at h
  rw [if_neg hs] at h
  cases hr : runTrap u (shapeRun u f (shape == 2)) (if shape = 1 then 256 else 4) with
  | some e => simp only [hr] at h; cases h
  | none => simp only [hr] at h; cases h; rfl

theorem placesOf_walked {u : Iss} {f : MFmt} {a : Access} {shape size : Nat} {once : Bool} {ls : List Nat} {s1 : State}
    {ps : List LanePlace} (h : placesOf u f a shape size once ls = .ok (s1, ps)) : Walked u.s s1 := by
  by_cases hs : shape = 0
  · subst hs
    exact (walked_accessLanes (placesOf_lanes.mp h)).1
  · cases placesOf_run hs h
    exact .refl _

/-- An access in scratchpad leaves the state as it was. -/
theorem placesOf_scratch {u : Iss} {f : MFmt} {a : Access} {shape size : Nat} {once : Bool} {ls : List Nat} {s1 : State}
    {ps : List LanePlace} (hsp : spaceOf f.space = .scratch) (h : placesOf u f a shape size once ls = .ok (s1, ps)) : s1 = u.s := by
  by_cases hs : shape = 0
  · subst hs
    exact (walked_accessLanes (placesOf_lanes.mp h)).2.2.2 hsp
  · cases placesOf_run hs h
    rfl

/-- Settles O26: `addrTrap` found nothing, or the run's checks did. -/
theorem accessPlaces : Obligations.AccessPlaces := by
  unfold Obligations.AccessPlaces
  intro u f a shape size once ls s1 ps h
  refine ⟨placesOf_walked h, fun hs => ?_, fun hs => ?_⟩
  · subst hs
    obtain ⟨-, hps, htrap, hsame⟩ := walked_accessLanes (placesOf_lanes.mp h)
    obtain ⟨hal, hlim, hhw⟩ := addrTrap_clear htrap
    exact ⟨hps, hal, fun hsp => ⟨hsame hsp, hlim hsp⟩, hhw⟩
  · cases placesOf_run hs h
    refine ⟨rfl, fun p hp => ?_⟩
    obtain ⟨l, -, rfl⟩ := List.mem_map.mp hp
    have hlt : ((effAddr u f 0).toNat + (if shape = 2 then 256 else 4) * l) % 2 ^ 32 < 2 ^ 64 :=
      (Nat.mod_lt _ (by decide)).trans (by decide)
    simp only [shapeRun, beq_iff_eq, BitVec.toNat_ofNat]
    exact Nat.mod_eq_of_lt hlt

/-! ## Loads -/

/-- A check `a && !b` that holds is no refusal `!a || b`. -/
theorem not_refused : ∀ {a b : Bool}, (a && !b) = true → ¬ (!a || b) = true := by decide

theorem loadBody_error {u : Iss} {w : Width} {f : MFmt} {shape : Nat} {spaces : List (BitVec 4)} {e : Eff}
    (h : loadOk u w f shape spaces = true)
    (hp : placesOf u f .load shape (widthBytes w) (isScalar f.d) (resultLanes u f.h f.d) = .error e) :
    loadBody u w f shape spaces = e := by
  unfold resultLanes at hp
  unfold loadBody
  simp only [hp]
  exact if_neg (not_refused h)

theorem loadBody_ok {u : Iss} {w : Width} {f : MFmt} {shape : Nat} {spaces : List (BitVec 4)} {s1 : State} {ps : List LanePlace}
    (h : loadOk u w f shape spaces = true)
    (hp : placesOf u f .load shape (widthBytes w) (isScalar f.d) (resultLanes u f.h f.d) = .ok (s1, ps)) :
    loadBody u w f shape spaces =
      if (resultLanes u f.h f.d).isEmpty then .done s1
      else if engFull u .c0 then .wait u.s
      else .done (addOp u s1 (.load w f.d) (bits f.mod 4 2 == 2 && shape == 0 && f.space != 1#4) false (semScopeOf f) (some .c0)
        (ps.map fun p => mkElem p.1 (spaceOf f.space) p.2.1 p.2.2 (widthBytes w))) := by
  unfold resultLanes at hp ⊢
  unfold loadBody
  simp only [hp]
  exact if_neg (not_refused h)

/-- The address space that the operands of a load allow. -/
theorem loadOk_space {u : Iss} {w : Width} {f : MFmt} {shape : Nat} {spaces : List (BitVec 4)} (h : loadOk u w f shape spaces = true) :
    f.space ∈ spaces := by
  unfold loadOk at h
  simp only [Bool.and_eq_true] at h
  exact List.contains_iff_mem.mp h.1.1.1.1.1.1

theorem exec_ld {w : Width} {f : MFmt} {s : State} {u : Iss} (h : issuer s (.ld w f) = some u) (hc : clear u = true) :
    exec (.ld w f) s = .next (commit u (loadBody u w f 0 [0#4, 2#4])) := by
  have hexec : exec (.ld w f) s = execLd w f s := rfl
  rw [hexec, execLd, runInstr_next h hc]

theorem exec_lds {w : Width} {f : MFmt} {s : State} {u : Iss} (h : issuer s (.lds w f) = some u) (hc : clear u = true) :
    exec (.lds w f) s = .next (commit u (loadBody u w f (shapeOf f.mod) [1#4])) := by
  have hexec : exec (.lds w f) s = execLds w f s := rfl
  rw [hexec, execLds, runInstr_next h hc]

/-- An access put in flight behind the walks of its instruction. -/
theorem launched {s : State} {i : Instr} {u : Iss} (h : issuer s i = some u) {s1 : State} (hw : Walked u.s s1) (kind : OpKind)
    (acq rel : Bool) (sc : Scope) (cls : Option EngClass) (es : List Elem) :
    Launched u s1 (addOp u s1 kind acq rel sc cls es) cls (mkOp u s1 kind acq rel sc es).1 := by
  obtain ⟨hs, -, -, hg, -, -⟩ := issuer_state h
  exact launched_addOp (by rw [hs]; exact hg) hw kind acq rel sc cls es

theorem nonempty_false {α : Type} {l : List α} (h : l ≠ []) : l.isEmpty = false := by simpa using h

/-! ## Prefetches -/

/-- One lane of PREF. -/
theorem prefLines_walked (u : Iss) (f : MFmt) (ls : List Nat) : Walked u.s (prefLines u f ls).1 := by
  unfold prefLines
  suffices hgen : ∀ acc : State × List LanePlace, Walked u.s acc.1 → Walked u.s (ls.foldl _ acc).1 from hgen (u.s, []) (.refl _)
  induction ls with
  | nil => intro acc h; exact h
  | cons l t ih =>
    intro acc h
    refine ih _ ?_
    simp only
    split
    · exact h
    split
    · exact h
    have hw := walked_translate acc.1 u.g.core u.ctx
      (BitVec.ofNat 64 ((accessVA u (spaceOf f.space) (effAddr u f l)).toNat / 128 * 128)) .load u.g.inHandler
    split
    · rename_i htr
      rw [htr] at hw
      exact h.trans hw
    · exact h

theorem exec_pref {f : MFmt} {s : State} {u : Iss} (h : issuer s (.pref f) = some u) (hc : clear u = true)
    (ho : (f.d == .zero && f.space != 1#4 && addrOk u.g true f) = true) (hne : (active u).toList ≠ [])
    (hfull : engFull u .c0 = false) :
    exec (.pref f) s = .next (commit u
      (if (prefLines u f (active u).toList).2.isEmpty then .done (prefLines u f (active u).toList).1
       else .done (addOp u (prefLines u f (active u).toList).1 (.pref (!f.mod.getLsbD 0)) false false .grp (some .c0)
        ((prefLines u f (active u).toList).2.map fun p => mkElem p.1 (spaceOf f.space) p.2.1 p.2.2 128)))) := by
  have hexec : exec (.pref f) s = execPref f s := rfl
  have hbad : ¬ (f.d != .zero || f.space == 1#4 || !addrOk u.g true f) = true := by
    revert ho
    cases addrOk u.g true f <;> simp [bne]
  rw [hexec, execPref, runInstr_next h hc]
  simp only [hbad, nonempty_false hne, hfull, Bool.false_eq_true, if_false]

/-- Settles O24: the checks passed, the places found, and the access is one more operation in flight. -/
theorem loadIssue : Obligations.LoadIssue := by
  unfold Obligations.LoadIssue
  refine ⟨?ld, ?lds, ?pref⟩
  case ld =>
    intro w f s u h hc ho ls
    have hspace : (f.space != 1#4) = true := by
      have hm := loadOk_space ho
      simp only [List.mem_cons, List.not_mem_nil, or_false] at hm
      rcases hm with e | e <;> rw [e] <;> rfl
    refine ⟨fun hnil => ⟨_, exec_ld h hc, ?_⟩, fun s1 ps hne hp hfull => ?_⟩
    · have hp : placesOf u f .load 0 (widthBytes w) (isScalar f.d) ls = .ok (u.s, []) := by
        rw [placesOf_lanes, hnil]; exact accessLanes_nil ..
      rw [loadBody_ok ho hp, if_pos (by rw [show resultLanes u f.h f.d = [] from hnil]; rfl)]
      exact goes_done h rfl
    · refine ⟨_, _, ?_, launched h (placesOf_walked hp) (.load w f.d) (bits f.mod 4 2 == 2) false (semScopeOf f) (some .c0)
        (ps.map fun p => mkElem p.1 (spaceOf f.space) p.2.1 p.2.2 (widthBytes w)), rfl, rfl, rfl, rfl, rfl⟩
      rw [exec_ld h hc, loadBody_ok ho hp, nonempty_false hne, hfull, hspace]
      simp only [Bool.false_eq_true, if_false, beq_self_eq_true, Bool.and_true, commit_done]
  case lds =>
    intro w f s u h hc ho ls
    have hspace : f.space = 1#4 := List.mem_singleton.mp (loadOk_space ho)
    have hsp : spaceOf f.space = .scratch := by rw [hspace]; rfl
    refine ⟨fun e he => ?_, fun s1 ps hp => ⟨fun hnil => ⟨_, exec_lds h hc, ?_⟩, fun hne hfull => ?_⟩⟩
    · rw [exec_lds h hc, loadBody_error ho he]
    · rw [loadBody_ok ho hp, if_pos (by rw [show resultLanes u f.h f.d = [] from hnil]; rfl), placesOf_scratch hsp hp]
      exact goes_done h rfl
    · refine ⟨_, _, ?_, launched h (placesOf_walked hp) (.load w f.d) false false (semScopeOf f) (some .c0)
        (ps.map fun p => mkElem p.1 .scratch p.2.1 p.2.2 (widthBytes w)), rfl, rfl, rfl, rfl⟩
      rw [exec_lds h hc, loadBody_ok ho hp, nonempty_false hne, hfull, hsp, hspace]
      simp only [Bool.false_eq_true, if_false, bne_self_eq_false, Bool.and_false, commit_done]
  case pref =>
    intro f s u h hc ho hne hfull ps s1
    rw [exec_pref h hc ho hne hfull]
    refine ⟨fun hnil => ⟨?_, ?_⟩, fun hsome => ?_⟩
    · rw [if_pos (by rw [show (prefLines u f (active u).toList).2 = [] from hnil]; rfl), commit_done]
    · rw [← (issuer_state h).1]; exact prefLines_walked u f _
    · rw [if_neg (by rw [nonempty_false hsome]; exact Bool.false_ne_true)]
      exact ⟨_, _, rfl, launched h (prefLines_walked u f _) _ _ _ _ _ _, rfl, rfl⟩

/-! ## Stores -/

theorem storeBody_error {u : Iss} {w : Width} {f : MFmt} {shape : Nat} {spaces : List (BitVec 4)} {e : Eff}
    (h : storeOk u w f shape spaces = true)
    (hp : placesOf u f .store shape (widthBytes w) false (active u).toList = .error e) :
    storeBody u w f shape spaces = e := by
  unfold storeBody
  simp only [hp]
  exact if_neg (not_refused h)

theorem storeBody_ok {u : Iss} {w : Width} {f : MFmt} {shape : Nat} {spaces : List (BitVec 4)} {s1 : State} {ps : List LanePlace}
    (h : storeOk u w f shape spaces = true)
    (hp : placesOf u f .store shape (widthBytes w) false (active u).toList = .ok (s1, ps)) :
    storeBody u w f shape spaces =
      if (active u).toList.isEmpty then .done s1
      else if engFull u .c0 || (f.space != 1#4 && pathHeld u.s u.g.core) then .wait u.s
      else .done (addOp u s1 .store false (bits f.mod 4 2 == 2 && f.space != 1#4) (semScopeOf f) (some .c0) (storeElems u w f ps)) := by
  unfold storeBody
  simp only [hp]
  exact if_neg (not_refused h)

theorem storeOk_space {u : Iss} {w : Width} {f : MFmt} {shape : Nat} {spaces : List (BitVec 4)} (h : storeOk u w f shape spaces = true) :
    f.space ∈ spaces := by
  unfold storeOk at h
  simp only [Bool.and_eq_true] at h
  exact List.contains_iff_mem.mp h.1.1.1.1.1

theorem exec_st {w : Width} {f : MFmt} {s : State} {u : Iss} (h : issuer s (.st w f) = some u) (hc : clear u = true) :
    exec (.st w f) s = .next (commit u (storeBody u w f 0 [0#4, 2#4])) := by
  have hexec : exec (.st w f) s = execSt w f s := rfl
  rw [hexec, execSt, runInstr_next h hc]

theorem exec_sts {w : Width} {f : MFmt} {s : State} {u : Iss} (h : issuer s (.sts w f) = some u) (hc : clear u = true) :
    exec (.sts w f) s = .next (commit u (storeBody u w f (shapeOf f.mod) [1#4])) := by
  have hexec : exec (.sts w f) s = execSts w f s := rfl
  rw [hexec, execSts, runInstr_next h hc]

/-- Settles O25: as for loads, with the lanes' values, and the wait while the core's path is held. -/
theorem storeIssue : Obligations.StoreIssue := by
  unfold Obligations.StoreIssue
  refine ⟨?st, ?sts⟩
  case st =>
    intro w f s u h hc ho ls
    have hs := (issuer_state h).1
    have hspace : (f.space != 1#4) = true := by
      have hm := storeOk_space ho
      simp only [List.mem_cons, List.not_mem_nil, or_false] at hm
      rcases hm with e | e <;> rw [e] <;> rfl
    refine ⟨fun hnil => ⟨_, exec_st h hc, ?_⟩, fun e he => ?_, fun s1 ps hne hp hfull => ⟨fun hheld => ?_, fun hheld => ?_⟩⟩
    · have hp : placesOf u f .store 0 (widthBytes w) false (active u).toList = .ok (u.s, []) := by
        rw [placesOf_lanes, show (active u).toList = [] from hnil]; exact accessLanes_nil ..
      rw [storeBody_ok ho hp, if_pos (by rw [show (active u).toList = [] from hnil]; rfl)]
      exact goes_done h rfl
    · rw [exec_st h hc, storeBody_error ho he]
    · rw [exec_st h hc, storeBody_ok ho hp, nonempty_false hne, hfull, hspace, hs, hheld]
      rfl
    · refine ⟨_, _, ?_, launched h (placesOf_walked hp) .store false (bits f.mod 4 2 == 2) (semScopeOf f) (some .c0)
        (storeElems u w f ps), rfl, rfl, rfl, rfl, rfl⟩
      rw [exec_st h hc, storeBody_ok ho hp, nonempty_false hne, hfull, hspace, hs, hheld]
      simp only [Bool.false_eq_true, if_false, Bool.false_or, Bool.and_false, Bool.and_true, commit_done]
  case sts =>
    intro w f s u h hc ho ls
    have hspace : f.space = 1#4 := List.mem_singleton.mp (storeOk_space ho)
    have hsp : spaceOf f.space = .scratch := by rw [hspace]; rfl
    refine ⟨fun e he => ?_, fun s1 ps hp => ⟨fun hnil => ⟨_, exec_sts h hc, ?_⟩, fun hne hfull => ?_⟩⟩
    · rw [exec_sts h hc, storeBody_error ho he]
    · rw [storeBody_ok ho hp, if_pos (by rw [show (active u).toList = [] from hnil]; rfl), placesOf_scratch hsp hp]
      exact goes_done h rfl
    · refine ⟨_, _, ?_, launched h (placesOf_walked hp) .store false false (semScopeOf f) (some .c0) (storeElems u w f ps),
        rfl, rfl, rfl, rfl⟩
      rw [exec_sts h hc, storeBody_ok ho hp, nonempty_false hne, hfull, hspace]
      simp only [Bool.false_eq_true, if_false, bne_self_eq_false, Bool.and_false, Bool.false_and, Bool.or_false, commit_done]

end Sys2Proof.Machine
end

section
/-!
SUPPORT. Read-modify-writes at issue (08 R171 to R173), and what CCTL, the fences and DFLUSH do to the caches (20 R304, R305;
21 R316, R334, R335).
-/
namespace Sys2Proof.Machine

/-- An access put in flight where the instruction issues. -/
theorem launched_here {s : State} {i : Instr} {u : Iss} (h : issuer s i = some u) (kind : OpKind) (acq rel : Bool) (sc : Scope)
    (cls : Option EngClass) (es : List Elem) :
    Launched u s (addOp u s kind acq rel sc cls es) cls (mkOp u s kind acq rel sc es).1 := by
  have hs := (issuer_state h).1
  exact launched h (by rw [hs]; exact .refl s) kind acq rel sc cls es

/-! ## ATOM and RED -/

theorem exec_atom {e : EltTy} {f : MFmt} {s : State} {u : Iss} (h : issuer s (.atom e f) = some u) (hc : clear u = true)
    (hd : f.d = .zero ∨ ∃ n, f.d = .v n) (hdst : dstOk u.g (e.width == 64) f.d = true) (hl : atomicLegal u e f = true)
    (hf : fabricIllegal u f (active u).toList = false) (hst : streams u.g (spaceOf f.space) = false)
    (hne : (active u).toList ≠ []) (hfull : engFull u .c0 = false) {s1 : State} {ps : List LanePlace}
    (hp : accessLanes u (spaceOf f.space) .rmw (active u).toList (effAddr u f) (atomBytes e) (atomBytes e) = .ok (s1, ps)) :
    exec (.atom e f) s = .next (retire (addOp u s1 (.rmw e (some f.d)) (bits f.mod 4 2 == 1 || bits f.mod 4 2 == 3)
      (decide (2 ≤ bits f.mod 4 2)) (spaceScope f.space f.h.rm) (some .c0) (ps.map (atomElem u e f))) u true) := by
  have hexec : exec (.atom e f) s = execAtom e f s := rfl
  rw [hexec, execAtom, runInstr_next h hc]
  rcases hd with hz | ⟨n, hv⟩
  · simp [hz, hl, hf, hst, hp, hfull, hne, commit_done]
  · have hreg : (if e.width = 64 then vecPairOk u.g n.val else vecOk u.g n.val) = true := by
      rw [hv] at hdst
      simpa [dstOk] using hdst
    simp [hv, hreg, hl, hf, hst, hp, hfull, hne, commit_done]

/-- RED up to the way its requests go: into the team's stream or straight home, or held for harvest. -/
theorem exec_red {e : EltTy} {f : MFmt} {s : State} {u : Iss} (h : issuer s (.red e f) = some u) (hc : clear u = true)
    (hl : (f.d == .zero && atomicLegal u e f) = true) (hf : fabricIllegal u f (active u).toList = false)
    (hne : (active u).toList ≠ [])
    (ht : addrTrap u (spaceOf f.space) (active u).toList (effAddr u f) (atomBytes e) (atomBytes e) = none)
    (hfull : engFull u .c0 = false) :
    let es := (active u).toList.map fun l => atomElem u e f (l, accessVA u (spaceOf f.space) (effAddr u f l), none)
    exec (.red e f) s = .next (commit u
      (if u.g.repro && spaceOf f.space != .scratch && !streams u.g (spaceOf f.space) then
        .done (bufferOp u (.rmw e none) (bits f.mod 4 2 == 2) (spaceScope f.space f.h.rm) es)
       else if pathHeld s u.g.core && !streams u.g (spaceOf f.space) then .wait s
       else .done (addOp u s (.rmw e none) false (bits f.mod 4 2 == 2) (spaceScope f.space f.h.rm) (some .c0) es))) := by
  have hexec : exec (.red e f) s = execRed e f s := rfl
  rw [hexec, execRed, runInstr_next h hc]
  simp only [(issuer_state h).1, hl, hf, ht, hfull, nonempty_false hne, Bool.not_true, Bool.or_false, Bool.false_eq_true, if_false]

/-- A request that a reproducible grid buffers: its group counts it off, and its grid holds it. -/
theorem bufferOp_rmw {u : Iss} {x : Grid} (e : EltTy) (rel : Bool) (sc : Scope) (es : List Elem)
    (hg : groupOf u.s u.g.gid = some u.g) (hx : gridOf u.s u.g.grid = some x) :
    bufferOp u (.rmw e none) rel sc es =
      setGrid (setGroup { u.s with nextId := u.s.nextId + 1 } (engTick u.g .c0 u.s.nextId))
        { x with buffered := x.buffered ++
          [{ lt := u.g.lt, gindex := u.g.gindex, order := u.s.nextId, op := (mkOp u u.s (.rmw e none) false rel sc es).1 }] } := by
  have h1 : updGroup { u.s with nextId := u.s.nextId + 1 } u.g.gid (fun g => engTick g .c0 u.s.nextId) =
      setGroup { u.s with nextId := u.s.nextId + 1 } (engTick u.g .c0 u.s.nextId) :=
    updGroup_eq (s := { u.s with nextId := u.s.nextId + 1 }) hg _
  show updGrid (updGroup { u.s with nextId := u.s.nextId + 1 } u.g.gid fun g => engTick g .c0 u.s.nextId) u.g.grid _ = _
  rw [h1, updGrid, gridOf_setGroup, show gridOf { u.s with nextId := u.s.nextId + 1 } u.g.grid = some x from hx]
  rfl

theorem gridOf_uid {s : State} {n : Nat} {g : Grid} (h : gridOf s n = some g) : g.uid = n := by
  simpa using List.find?_some h

theorem gridOf_setGrid {s : State} {n : Nat} {g x : Grid} (h : gridOf s n = some x) (hg : g.uid = n) :
    gridOf (setGrid s g) n = some g := by
  subst hg
  exact find_map_key Grid.uid s.grids x g g.uid rfl h

theorem red_buffers {e : EltTy} {f : MFmt} {s : State} {u : Iss} {x : Grid} (h : issuer s (.red e f) = some u)
    (hx : gridOf s u.g.grid = some x) (rel : Bool) (sc : Scope) (es : List Elem) :
    let s2 := bufferOp u (.rmw e none) rel sc es
    let o := (mkOp u s (.rmw e none) false rel sc es).1
    gridOf s2 u.g.grid = some { x with buffered := x.buffered ++
      [{ lt := u.g.lt, gindex := u.g.gindex, order := s.nextId, op := o }] } ∧
    groupOf s2 u.g.gid = some (engTick u.g .c0 s.nextId) ∧ (∀ k, k ≠ u.g.gid → groupOf s2 k = groupOf s k) ∧
    { s2 with groups := s.groups, grids := s.grids, nextId := s.nextId } = s := by
  obtain ⟨rfl, -, -, hg, -, -⟩ := issuer_state h
  intro s2 o
  have hs2 : s2 = _ := bufferOp_rmw e rel sc es hg hx
  rw [hs2]
  refine ⟨?_, ?_, fun k hk => ?_, rfl⟩
  · have hx' : gridOf (setGroup { u.s with nextId := u.s.nextId + 1 } (engTick u.g .c0 u.s.nextId)) u.g.grid = some x := hx
    have huid := gridOf_uid hx
    exact gridOf_setGrid hx' huid
  · exact groupOf_setGroup (s := { u.s with nextId := u.s.nextId + 1 }) hg rfl
  · exact groupOf_setGroup_other (s := { u.s with nextId := u.s.nextId + 1 }) hk

/-! ## CENSUS, JDEC and EXIT.J -/

theorem exec_census {e : CenTy} {f : RFmt} {s : State} {u : Iss} (h : issuer s (.census e f) = some u) (hc : clear u = true)
    (ho : (f.d == .zero && sOk true f.a && siOk f.c &&
      decide (-160 ≤ (BitVec.ofNat 32 (readNat u (f.imm.zeroExtend 64) false f.c 0)).toInt) &&
      decide ((BitVec.ofNat 32 (readNat u (f.imm.zeroExtend 64) false f.c 0)).toInt ≤ 127)) = true)
    (hb : (∃ n, f.b = .v n ∧ vecOk u.g n.val = true) ∨ ∃ n, f.b = .o n) (hfab : fabricRun u.ctx (readPair u f.a 0) 0x108 = false)
    (hact : active u ≠ 0#64) (hal : (readPair u f.a 0).toNat % 8 = 0) {es : List Elem}
    (hes : es = foldElems .global (readPair u f.a 0) ((active u).toList.headD 0) (cenCvt e)
      (BitVec.ofNat 32 (readNat u (f.imm.zeroExtend 64) false f.c 0)).toInt (cenCodes u e f.b (active u).toList)) (hne : es ≠ [])
    (hgo : streams u.g .global = true ∨ u.g.repro = false ∧ pathHeld s u.g.core = false) :
    exec (.census e f) s = .next (retire (addOp u s .fold false false .dev none es) u true) := by
  have hexec : exec (.census e f) s = execCensus e f s := rfl
  simp only [Bool.and_eq_true] at ho
  obtain ⟨⟨⟨⟨hd, ha⟩, hcc⟩, hlo⟩, hhi⟩ := ho
  have hbuf : (u.g.repro && !streams u.g .global) = false := by
    rcases hgo with e | ⟨e, -⟩ <;> simp [e]
  have hs := (issuer_state h).1
  have hwait : (pathHeld s u.g.core && !streams u.g .global) = false := by
    rcases hgo with e | ⟨-, e⟩ <;> simp [e]
  have hact' : (active u == 0#64) = false := beq_eq_false_iff_ne.mpr hact
  have hes' : es.isEmpty = false := nonempty_false hne
  rw [hes] at hes'
  rw [hexec, execCensus, runInstr_next h hc]
  rcases hb with ⟨n, hv, hok⟩ | ⟨n, hv⟩
  · rw [hv] at hes' hes
    simp only [hs, hd, ha, hcc, hlo, hhi, hv, hok, hfab, hact', hal, hes', hbuf, hwait, Bool.and_self, Bool.not_true, Bool.or_self,
      Bool.false_eq_true, if_false, ne_eq, not_true_eq_false, commit_done, hes]
  · rw [hv] at hes' hes
    simp only [hs, hd, ha, hcc, hlo, hhi, hv, hfab, hact', hal, hes', hbuf, hwait, Bool.and_self, Bool.not_true, Bool.or_self,
      Bool.false_eq_true, if_false, ne_eq, not_true_eq_false, commit_done, hes]

/-- The operand checks of JDEC and EXIT.J, as a refusal. -/
theorem addr_not_refused {f : MFmt} {ok : Bool} (h : (f.d == .zero && f.space == 0#4 && ok) = true) :
    (f.d != .zero || f.space != 0#4 || !ok) = false := by
  revert h
  cases ok <;> simp [bne]

theorem exec_jdec {f : MFmt} {s : State} {u : Iss} (h : issuer s (.jdec f) = some u) (hc : clear u = true)
    (ho : (f.d == .zero && f.space == 0#4 && addrOk u.g true f) = true) (hk : u.g.checked = false)
    (hf : fabricIllegal u f (active u).toList = false) (hne : (active u).toList ≠ [])
    (hal : ∀ l ∈ (active u).toList, (effAddr u f l).toNat % 4 = 0) (hp : groupParked s u.g.gid = false)
    (hheld : pathHeld s u.g.core = false) :
    exec (.jdec f) s = .next (retire (addOp u s (.dec false) false true .dev none
      ((active u).toList.map fun l => decElem l (effAddr u f l))) u true) := by
  have hexec : exec (.jdec f) s = execJdec f s := rfl
  have hs := (issuer_state h).1
  rw [hexec, execJdec, runInstr_next h hc]
  simp only [addr_not_refused ho, hk, hf, nonempty_false hne, addrTrap_global (span := 4) hal, hs, hp, hheld, Bool.or_self,
    Bool.false_eq_true, if_false, commit_done]

theorem exec_exitJ {f : MFmt} {s : State} {u : Iss} (h : issuer s (.exitJ f) = some u) (hc : clear u = true)
    (ho : (f.d == .zero && f.space == 0#4 && addrOk u.g true f) = true)
    (hf : fabricIllegal u f (guardedMembers u).toList = false)
    (hk : u.g.checked = true → ((guardedMembers u).toList.filter fun l => effAddr u f l != 0#64) = [])
    (hx : guardedMembers u ≠ 0#64) : exec (.exitJ f) s = .next (commit u (exitJBody u f (guardedMembers u))) := by
  have hexec : exec (.exitJ f) s = execExitJ f s := rfl
  have hchk : (u.g.checked && (guardedMembers u).toList.any fun l => effAddr u f l != 0#64) = false := by
    cases hck : u.g.checked with
    | false => rfl
    | true =>
      have hnil := hk hck
      rw [List.filter_eq_nil_iff] at hnil
      rw [Bool.true_and, List.any_eq_false]
      exact hnil
  rw [hexec, execExitJ, runInstr_next h hc]
  simp only [addr_not_refused ho, hf, hchk, hx, Bool.or_self, Bool.false_eq_true, if_false]

/-- The lanes of an EXIT.J that name a counter. -/
def counterLanes (u : Iss) (f : MFmt) (x : Lanes) : List Nat := x.toList.filter fun l => effAddr u f l != 0#64

theorem exitJBody_found {u : Iss} {f : MFmt} {x : Lanes}
    (ht : addrTrap u .global (counterLanes u f x) (effAddr u f) 4 4 = none)
    (hfs : (translateLanes u.s u .rmw (counterLanes u f x) (effAddr u f)).2.2 = []) :
    exitJBody u f x =
      if !(counterLanes u f x).isEmpty && (groupParked u.s u.g.gid || pathHeld u.s u.g.core) then .wait u.s
      else .done (exitLanes u
        (if (counterLanes u f x).isEmpty then (translateLanes u.s u .rmw (counterLanes u f x) (effAddr u f)).1
         else addOp u (translateLanes u.s u .rmw (counterLanes u f x) (effAddr u f)).1 (.dec true) false true .dev none
          ((counterLanes u f x).map fun l => decElem l (effAddr u f l))) x) := by
  unfold counterLanes at *
  unfold exitJBody
  simp only [ht, hfs]
  rfl

/-- Settles O27: each is put in flight as its entry says, past the checks that the hypotheses exclude. -/
theorem atomicIssue : Obligations.AtomicIssue := by
  unfold Obligations.AtomicIssue
  refine ⟨?atom, ?red, ?census, ?jdec, ?exitJ⟩
  case atom =>
    intro e f s u h hc hd hdst hl hf hst hne hfull s1 ps hp
    exact ⟨_, _, exec_atom h hc hd hdst hl hf hst hne hfull hp, launched h (walked_accessLanes hp).1 _ _ _ _ _ _, rfl, rfl, rfl, rfl⟩
  case red =>
    intro e f s u h hc hl hf hne ht hfull own es
    have hs := (issuer_state h).1
    have hexec := exec_red h hc hl hf hne ht hfull
    refine ⟨fun hway => ?_, fun how hrep hsp x hx => ?_⟩
    · have hbuf : (u.g.repro && spaceOf f.space != .scratch && !streams u.g (spaceOf f.space)) = false := by
        rcases hway with hown | ⟨hrep | hsp, -⟩
        · simp [show streams u.g (spaceOf f.space) = true from hown]
        · simp [hrep]
        · simp [hsp]
      have hwait : (pathHeld s u.g.core && !streams u.g (spaceOf f.space)) = false := by
        rcases hway with hown | ⟨-, hheld⟩
        · simp [show streams u.g (spaceOf f.space) = true from hown]
        · simp [hheld]
      rw [hbuf, hwait] at hexec
      exact ⟨_, _, hexec, launched_here h _ _ _ _ _ _, rfl, rfl, rfl⟩
    · have hbuf : (u.g.repro && spaceOf f.space != .scratch && !streams u.g (spaceOf f.space)) = true := by
        rw [hrep, show streams u.g (spaceOf f.space) = false from how]
        simpa [bne] using hsp
      rw [hbuf] at hexec
      exact ⟨_, _, hexec, rfl, rfl, rfl, rfl, rfl, red_buffers h hx (bits f.mod 4 2 == 2) (spaceScope f.space f.h.rm) es⟩
  case census =>
    intro e f s u h hc b0 block ls es ho hb hfab hact hal hne hgo
    exact ⟨_, _, exec_census h hc ho hb hfab hact hal rfl hne hgo, launched_here h _ _ _ _ _ _, rfl, rfl⟩
  case jdec =>
    intro f s u h hc ho hk hf hne hal hp hheld
    exact ⟨_, _, exec_jdec h hc ho hk hf hne hal hp hheld, launched_here h _ _ _ _ _ _, rfl, rfl, rfl, rfl⟩
  case exitJ =>
    intro f s u h hc _ x ls ho hf hk hx ht hfs s1
    have hs := (issuer_state h).1
    have hfs' : (translateLanes u.s u .rmw (counterLanes u f x) (effAddr u f)).2.2 = [] := by rw [hs]; exact hfs
    rw [exec_exitJ h hc ho hf hk hx, exitJBody_found ht hfs']
    refine ⟨fun hnil => ?_, fun hne hp hheld => ?_⟩
    · rw [show (counterLanes u f x).isEmpty = true from List.isEmpty_iff.mpr hnil, hs]
      rfl
    · rw [show (counterLanes u f x).isEmpty = false from nonempty_false hne, hs, hp, hheld]
      have hw : Walked u.s s1 := by rw [hs]; exact walked_translateLanes u .rmw ls (effAddr u f) s
      exact ⟨_, _, rfl, launched h hw (.dec true) false true .dev none (ls.map fun l => decElem l (effAddr u f l)), rfl, rfl, rfl, rfl⟩

/-! ## CCTL, the fences and DFLUSH -/

theorem coreOf_setCore_other (s : State) {c n : Nat} (k : Core) (h : n ≠ c) : coreOf (setCore s c k) n = coreOf s n := by
  simp [coreOf, setCore, List.getD_eq_getElem?_getD, List.getElem?_set_ne h.symm]

/-- Whether CCTL's range of `n` bytes at `a` names a line of a context. -/
def cctlHits (u : Iss) (a n ctx line : Nat) : Bool :=
  ctx == u.g.ctx && (decide (a / 128 ≤ line) && decide (line ≤ (a + n - 1) / 128))

/-- The core that CCTL leaves. -/
def cctlCore (u : Iss) (op a n : Nat) : Core :=
  let c := coreOf u.s u.g.core
  if op = 0 then { c with icache := c.icache.filter fun x => !cctlHits u a n x.ctx x.vline,
                          fbuf := c.fbuf.filter fun x => !cctlHits u a n x.ctx (x.va / 128) }
  else { c with l1 := c.l1.filter fun x => !cctlHits u a n x.ctx x.vline }

theorem cctlApply_eq {s : State} {u : Iss} {i : Instr} (h : issuer s i = some u) (op a n : Nat) :
    cctlApply u op a n = setGroup (setCore s u.g.core (cctlCore u op a n)) (setSplit u.g { u.p with refetch := true }) := by
  obtain ⟨rfl, -, -, hg, hp, -⟩ := issuer_state h
  exact updSplit_eq (s := setCore u.s u.g.core (cctlCore u op a n)) hg hp _

theorem mem_filter_unhit {α : Type} {l : List α} {x : α} {p : α → Bool} : x ∈ l.filter (fun y => !p y) ↔ x ∈ l ∧ ¬ p x = true := by
  simp [List.mem_filter]

theorem cctlHits_iff {u : Iss} {a n ctx line : Nat} :
    cctlHits u a n ctx line = true ↔
      ctx = u.g.ctx ∧ (decide (a / 128 ≤ line) && decide (line ≤ (a + n - 1) / 128)) = true := by
  unfold cctlHits
  rw [Bool.and_eq_true, beq_iff_eq]

theorem exec_cctl {f : MFmt} {s : State} {u : Iss} (h : issuer s (.cctl f) = some u) (hc : clear u = true)
    (ho : (f.d == .zero && f.space == 0#4 && addrOk u.g false f && siOk f.c && !guardIsVector f.h.guard) = true)
    (hg : scalarGuard u.g f.h.guard = true) (hpos : 0 < cctlLen u f) (hmax : cctlLen u f ≤ 0x10_0000)
    (htop : (effAddr u f 0).toNat + cctlLen u f ≤ 2 ^ 57) (hlo : inFabric u.ctx (effAddr u f 0) = false)
    (hhi : inFabric u.ctx (effAddr u f 0 + BitVec.ofNat 64 (cctlLen u f - 1)) = false)
    (hseen : bits f.mod 0 2 = 0 → writesUnseen u = false) :
    exec (.cctl f) s = .next (retire (cctlApply u (bits f.mod 0 2) (effAddr u f 0).toNat (cctlLen u f)) u true) := by
  have hexec : exec (.cctl f) s = execCctl f s := rfl
  have hbad : (f.d != .zero || f.space != 0#4 || !addrOk u.g false f || !siOk f.c || guardIsVector f.h.guard) = false := by
    revert ho
    cases addrOk u.g false f <;> cases siOk f.c <;> cases guardIsVector f.h.guard <;> simp [bne]
  have hout : ¬ (2 ^ 57 < (effAddr u f 0).toNat + cctlLen u f ∨ inFabric u.ctx (effAddr u f 0) = true ∨
      inFabric u.ctx (effAddr u f 0 + BitVec.ofNat 64 (cctlLen u f - 1)) = true) := by
    rw [hlo, hhi]; simp only [Bool.false_eq_true, or_false]; omega
  have hwait : ¬ ((decide (bits f.mod 0 2 = 0) && writesUnseen u) = true) := by
    simp only [Bool.and_eq_true, decide_eq_true_eq, not_and, Bool.not_eq_true]
    exact hseen
  rw [hexec, execCctl, runInstr_next h hc]
  simp only [hbad, hg, Bool.not_true, Bool.false_eq_true, if_false, if_neg (Nat.not_lt.mpr hmax), if_neg hpos.ne', if_neg hout,
    if_neg hwait, commit_done]

theorem exec_fence {f : KFmt} {s : State} {u : Iss} (h : issuer s (.fence f) = some u) (hc : clear u = true)
    (hv : guardIsVector f.h.guard = false) (hg : scalarGuard u.g f.h.guard = true) :
    exec (.fence f) s = .next (commit u (fenceBody u (bits f.mod 0 2) (scopeOf f.h.rm))) := by
  have hexec : exec (.fence f) s = execFence f s := rfl
  rw [hexec, execFence, runInstr_next h hc]
  simp only [hv, hg, Bool.not_true, Bool.false_eq_true, if_false]

/-- The mark that FENCE.REL leaves. -/
def relMark (u : Iss) (wide : Bool) : FenceMark :=
  { id := u.s.nextId, gid := u.g.gid, agent := u.p.agent, before := u.p.before, wide }

theorem fenceBody_rel {u : Iss} {sc : Scope} (hp : groupParked u.s u.g.gid = false) (hgt : gatesOut u.s u.g.gid = false)
    (hseen : scopeWide sc = true → coreSeen u.s u.g.core u.s.nextId = false) :
    fenceBody u 2 sc =
      .done (dropFences { u.s with fences := u.s.fences ++ [relMark u (scopeWide sc)], nextId := u.s.nextId + 1 }) := by
  have hs : (scopeWide sc && coreSeen u.s u.g.core u.s.nextId) = false := by
    cases hw : scopeWide sc with
    | false => rfl
    | true => exact hseen hw
  simp only [fenceBody, hp, hgt, hs, Bool.or_self, Bool.false_and, Bool.false_eq_true, if_false, if_true, OfNat.ofNat_ne_one]
  rfl

theorem fenceBody_acq {u : Iss} {kind : Nat} {sc : Scope} (hk : kind ≠ 2) (h1 : kind = 1 → splitOutstanding u.s u.p true = false)
    (h2 : kind ≠ 1 → released u (scopeWide sc) = true) :
    fenceBody u kind sc = .done (if scopeWide sc then acquireDev u.s u.g.core else u.s) := by
  unfold fenceBody
  by_cases h : kind = 1
  · simp only [if_pos h, h1 h, Bool.false_eq_true, if_false]
  · have hrel := h2 h
    have hparts := hrel
    simp only [released, Bool.and_eq_true, Bool.not_eq_true'] at hparts
    obtain ⟨⟨⟨-, hp⟩, hgt⟩, -⟩ := hparts
    simp [h, hk, hp, hgt, hrel]

theorem acquireDev_rest (s : State) (core : Nat) : { acquireDev s core with cores := s.cores } = s := rfl

theorem acquireDev_l1 {s : State} {core : Nat} (h : core < s.cores.length) : (coreOf (acquireDev s core) core).l1 = [] := by
  rw [acquireDev, coreOf_setCore _ _ _ h]

theorem exec_dflush {f : KFmt} {s : State} {u : Iss} (h : issuer s (.dflush f) = some u) (hc : clear u = true)
    (hv : guardIsVector f.h.guard = false) :
    exec (.dflush f) s = .next (commit u
      (if scalarGuard u.g f.h.guard then flushed u (if u.g.repro then harvestGrid s u.g.grid (some (u.g.lt, u.g.gindex)) else s)
       else .done u.s)) := by
  have hexec : exec (.dflush f) s = execDflush f s := rfl
  rw [hexec, execDflush, runInstr_next h hc]
  cases hg : scalarGuard u.g f.h.guard <;>
    simp only [hv, dflushHarvest, (issuer_state h).1, Bool.not_true, Bool.not_false, Bool.false_eq_true, if_false, if_true]

/-- Settles O28: CCTL's two filters of its core, the fence's mark or the L1 discarded, and DFLUSH behind its harvest. -/
theorem cachesAndFences : Obligations.CachesAndFences := by
  unfold Obligations.CachesAndFences
  refine ⟨?cctl, ?fence, ?dflush⟩
  case cctl =>
    intro f s u h hc ho hg hcore n a hit hpos hmax htop hlo hhi hseen c
    obtain ⟨hs, -, -, hgr, -, -⟩ := issuer_state h
    rw [exec_cctl h hc ho hg hpos hmax htop hlo hhi hseen, cctlApply_eq h]
    refine ⟨_, cctlCore u (bits f.mod 0 2) a n, rfl, rfl, groupOf_setGroup (s := setCore s u.g.core _) hgr rfl,
      fun k hk => groupOf_setGroup_other (s := setCore s u.g.core _) hk, coreOf_setCore _ _ _ hcore,
      fun k hk => coreOf_setCore_other s _ hk, ?_, fun hz => ?_, fun hz => ?_⟩
    · unfold cctlCore; rw [hs]; split <;> rfl
    · have hcc : cctlCore u (bits f.mod 0 2) a n = { c with
          icache := c.icache.filter fun x => !cctlHits u a n x.ctx x.vline,
          fbuf := c.fbuf.filter fun x => !cctlHits u a n x.ctx (x.va / 128) } := by
        unfold cctlCore; rw [hs]; exact if_pos hz
      rw [hcc]
      exact ⟨rfl, fun x => by rw [mem_filter_unhit, cctlHits_iff], fun x => by rw [mem_filter_unhit, cctlHits_iff]⟩
    · have hcc : cctlCore u (bits f.mod 0 2) a n = { c with l1 := c.l1.filter fun x => !cctlHits u a n x.ctx x.vline } := by
        unfold cctlCore; rw [hs]; exact if_neg hz
      rw [hcc]
      exact ⟨rfl, rfl, fun x => by rw [mem_filter_unhit, cctlHits_iff]⟩
  case fence =>
    intro f s u h hc hv hg kind wide
    have hs := (issuer_state h).1
    have hexec := exec_fence h hc hv hg
    refine ⟨fun hk hp hgt hseen => ?_, fun hk h1 h2 => ?_⟩
    · rw [show bits f.mod 0 2 = 2 from hk, fenceBody_rel (by rw [hs]; exact hp) (by rw [hs]; exact hgt) (by rw [hs]; exact hseen), hs,
        commit_done] at hexec
      refine ⟨_, hexec, rfl, fun o ho hid hag => ⟨relMark u wide, ?_, by rw [relMark, hs], rfl, rfl, rfl, rfl⟩⟩
      refine List.mem_filter.mpr ⟨List.mem_append_right _ (List.mem_singleton.mpr rfl), List.any_eq_true.mpr ⟨o, ho, ?_⟩⟩
      rw [Bool.and_eq_true, decide_eq_true_eq, relMark, hs]
      refine ⟨hid, ?_⟩
      rcases hag with e | e
      · simp [e]
      · simp [e]
    · rw [fenceBody_acq hk (by rw [hs]; exact h1) h2, hs, commit_done] at hexec
      refine ⟨_, hexec, ?_, fun hw => ?_, fun hw hcore => ?_⟩
      · split <;> rfl
      · exact if_neg (by rw [show scopeWide (scopeOf f.h.rm) = false from hw]; exact Bool.false_ne_true)
      · rw [if_pos (show scopeWide (scopeOf f.h.rm) = true from hw), acquireDev_l1 hcore]
  case dflush =>
    intro f s u h hc hv
    have hexec := exec_dflush h hc hv
    refine ⟨fun hg => ?_, fun hg => ?_⟩
    · rw [hg] at hexec
      exact ⟨_, hexec, goes_done h rfl⟩
    · rw [hg, if_pos rfl] at hexec
      intro hh
      refine ⟨fun hp => ?_, fun hp => ?_⟩
      · rw [flushed, hp] at hexec
        exact ⟨_, hexec, rfl, fun hcore => acquireDev_l1 hcore, fun k hk => coreOf_setCore_other hh _ hk⟩
      · rw [flushed, hp] at hexec
        exact hexec

end Sys2Proof.Machine
end

section
/-!
SUPPORT. One step of the machine: the issue of a split (03 R56, R71; 12 R229), its fetch (10 R203) and what it runs; and the
state that reset leaves.
-/
namespace Sys2Proof.Machine

/-! ## What walks and lookups keep -/

section
variable {P : State → Prop}

/-- What an access walk keeps, when the update of an entry does. -/
theorem walkAccess_keeps (hentry : ∀ s ctx pa e n, P s → P (orEntry s ctx pa e n)) {s : State} (hs : P s) (c : Context)
    (va : DWord) (a : Access) (sup : Bool) : P (walkAccess s c va a sup).2 := by
  unfold walkAccess
  split
  · exact hs
  split
  · exact hs
  · exact hs
  · dsimp only
    split <;> exact hentry _ _ _ _ _ hs

/-- What a lookup keeps, when the update of an entry and of a core do. -/
theorem translate_keeps (hentry : ∀ s ctx pa e n, P s → P (orEntry s ctx pa e n)) (hcore : ∀ s c k, P s → P (setCore s c k))
    {s : State} (hs : P s) (c : Nat) (ctx : Context) (va : DWord) (a : Access) (sup : Bool) :
    P (translate s c ctx va a sup).2 := by
  have hw := walkAccess_keeps hentry hs ctx va a sup
  have hrefill : ∀ t : Except PageFault Nat × State, t =
      (match walkAccess s ctx va a sup with
       | (.error f, s) => (.error f, setCore s c (tlbDropData (coreOf s c) s.clock.toNat ctx.num va.toNat))
       | (.ok pa, s') =>
         match walk s' ctx.ptroot va.toNat with
         | .leaf l _ e =>
           (.ok pa, setCore s' c { coreOf s' c with
             tlb := { fetch := a == .fetch, ctx := ctx.num,
                      page := if l == 2 then va.toNat / 2 ^ 29 * 2 ^ 29 else va.toNat / 2 ^ 16 * 2 ^ 16,
                      large := l == 2, frame := pteFrame e, r := pteR e, w := pteW e, x := pteX e, s := pteS e, d := pteD e,
                      expiry := s'.clock.toNat + ctx.lease * Config.clkPerUs } ::
               (coreOf s' c).tlb.filter fun u => !(u.fetch == (a == .fetch) && u.ctx == ctx.num &&
                 u.page == (if l == 2 then va.toNat / 2 ^ 29 * 2 ^ 29 else va.toNat / 2 ^ 16 * 2 ^ 16) &&
                 u.large == (l == 2)) })
         | _ => (.ok pa, s')) → P t.2 := by
    intro t ht
    subst ht
    cases hwa : walkAccess s ctx va a sup with
    | mk r s' =>
      rw [hwa] at hw
      cases r with
      | error f => exact hcore _ _ _ hw
      | ok pa =>
        dsimp only
        split
        · exact hcore _ _ _ hw
        · exact hw
  unfold translate
  dsimp only
  split
  · exact hs
  split
  · split
    · exact hcore _ _ _ hs
    split
    · exact hrefill _ rfl
    · exact hs
  · exact hrefill _ rfl

end

/-- The numbers of the contexts. -/
def ctxNums (s : State) : List Nat := s.contexts.map Context.num

theorem ctxNums_setCtx (s : State) (c : Context) : ctxNums (setCtx s c) = ctxNums s := by
  simp only [ctxNums, setCtx, List.map_map]
  apply List.map_congr_left
  intro x _
  simp only [Function.comp_apply]
  split_ifs with h
  · exact h.symm
  · rfl

theorem writeRec_contexts (s : State) (c : Context) (r : DriverRec) :
    (writeRec s c r).contexts = (setCtx s { c with tail := c.tail + 1 }).contexts := by
  have ht : (physWrite (physWriteBytes s (nextRecAddr c) r.body.bytes) c.fring 8 (c.tail + 1)).contexts = s.contexts := by
    rw [(physWrite_fields _ _ _ _).2.2.1, (physWriteBytes_fields _ _ _).2.2.1]
  unfold writeRec
  simp only
  generalize physWrite (physWriteBytes s (nextRecAddr c) r.body.bytes) c.fring 8 (c.tail + 1) = t at ht ⊢
  cases r.link with
  | group gid =>
    simp only [signal, updGroup]
    split <;> simp only [setGroup, setCtx, ht]
  | _ => simp only [signal, setCtx, ht]

theorem ctxNums_writeRec (s : State) (c : Context) (r : DriverRec) : ctxNums (writeRec s c r) = ctxNums s := by
  rw [ctxNums, writeRec_contexts]
  exact ctxNums_setCtx s _

theorem ctxNums_report (s : State) (r : DriverRec) : ctxNums (report s r) = ctxNums s := by
  unfold report
  split
  · rfl
  split
  · split
    · exact ctxNums_writeRec _ _ _
    · exact ctxNums_setCtx _ _
  · split
    · exact ctxNums_writeRec _ _ _
    · rfl

theorem ctxNums_orEntry (s : State) (ctx pa : Nat) (e : DWord) (n : Nat) : ctxNums (orEntry s ctx pa e n) = ctxNums s := by
  unfold orEntry
  split
  · rfl
  split
  · exact ctxNums_report _ _
  · rfl

theorem ctxNums_translate (s : State) (c : Nat) (ctx : Context) (va : DWord) (a : Access) (sup : Bool) :
    ctxNums (translate s c ctx va a sup).2 = ctxNums s :=
  translate_keeps (P := fun t => ctxNums t = ctxNums s) (fun t _ _ _ _ h => (ctxNums_orEntry t _ _ _ _).trans h)
    (fun _ _ _ h => h) rfl c ctx va a sup

theorem ctxOf_isSome (s : State) (n : Nat) : (ctxOf s n).isSome = (ctxNums s).contains n := by
  rw [ctxOf, ctxNums]
  induction s.contexts with
  | nil => rfl
  | cons c t ih =>
    rw [List.find?_cons, List.map_cons, List.contains_cons, ← ih]
    by_cases h : c.num = n
    · simp [h]
    · have h1 : (c.num == n) = false := beq_eq_false_iff_ne.mpr h
      have h2 : (n == c.num) = false := beq_eq_false_iff_ne.mpr fun e => h e.symm
      simp [h1, h2]

/-! ## The fetch -/

theorem bufferInstr_rest (s : State) (core quarter ctx va : Nat) (w : IWord) :
    { bufferInstr s core quarter ctx va w with cores := s.cores } = s := rfl

theorem fillLine_rest (s : State) (core ctx va pa : Nat) : { fillLine s core ctx va pa with cores := s.cores } = s := rfl

/-- What a fetch keeps. -/
theorem fetchAt_keeps {P : State → Prop} (hentry : ∀ s ctx pa e n, P s → P (orEntry s ctx pa e n))
    (hcore : ∀ s c k, P s → P (setCore s c k)) {s : State} (hs : P s) (core quarter : Nat) (c : Context) (pc : DWord)
    (src : FetchFrom) (afresh sup : Bool) : P (fetchAt s core quarter c pc src afresh sup).2 := by
  have ht := translate_keeps hentry hcore hs core c pc .fetch sup
  unfold fetchAt
  dsimp only
  split
  · exact hs
  split
  · exact hs
  split
  · exact hs
  cases htr : translate s core c pc .fetch sup with
  | mk r s1 =>
    rw [htr] at ht
    cases r with
    | error f => exact ht
    | ok pa =>
      dsimp only
      split
      · exact hcore _ _ _ ht
      split
      · exact ht
      split
      · exact ht
      · exact hcore _ _ _ (hcore _ _ _ ht)

theorem groups_orEntry (s : State) (ctx pa : Nat) (e : DWord) (n : Nat) : (orEntry s ctx pa e n).groups = s.groups := by
  have h := (walked_orEntry s ctx pa e n).1
  have hg := congrArg State.groups h
  exact hg

theorem fetchAt_groups (s : State) (core quarter : Nat) (c : Context) (pc : DWord) (src : FetchFrom) (afresh sup : Bool) :
    (fetchAt s core quarter c pc src afresh sup).2.groups = s.groups :=
  fetchAt_keeps (P := fun t => t.groups = s.groups) (fun t _ _ _ _ h => (groups_orEntry t _ _ _ _).trans h) (fun _ _ _ h => h)
    rfl core quarter c pc src afresh sup

theorem fetchAt_ctxNums (s : State) (core quarter : Nat) (c : Context) (pc : DWord) (src : FetchFrom) (afresh sup : Bool) :
    ctxNums (fetchAt s core quarter c pc src afresh sup).2 = ctxNums s :=
  fetchAt_keeps (P := fun t => ctxNums t = ctxNums s) (fun t _ _ _ _ h => (ctxNums_orEntry t _ _ _ _).trans h)
    (fun _ _ _ h => h) rfl core quarter c pc src afresh sup

theorem fetchAt_misaligned {s : State} {core quarter : Nat} {c : Context} {pc : DWord} {src : FetchFrom} {afresh sup : Bool}
    (ha : pc.toNat % 16 ≠ 0) (hb : bufInstr s core quarter c.num pc.toNat = none) :
    fetchAt s core quarter c pc src afresh sup = (.misaligned, s) := by
  simp [fetchAt, hb, ha]

theorem fetchAt_memory {s1 s2 : State} {core quarter : Nat} {c : Context} {pc : DWord} {sup : Bool} {pa : Nat}
    (ha : pc.toNat % 16 = 0) (hf : inFabric c pc = false) (ht : translate s1 core c pc .fetch sup = (.ok pa, s2))
    (hb : badGranule? s2 pa 16 = none) (hu : tornUnit s2 core pa = false) :
    ∃ s3, fetchAt s1 core quarter c pc .memory true sup = (.word (BitVec.ofNat 128 (coreValue s2 core pa 16)), s3) ∧
      { s3 with cores := s2.cores } = s2 := by
  refine ⟨bufferInstr (fillLine s2 core c.num pc.toNat pa) core quarter c.num pc.toNat (BitVec.ofNat 128 (coreValue s2 core pa 16)), ?_, rfl⟩
  simp [fetchAt, ha, hf, ht, hb, hu]

/-! ## What a split that issues runs -/

/-- The split that is about to run, in a state in which it stands. -/
theorem issuer_of {s : State} {gid sid : Nat} {g : Group} {p : Split} (hg : groupOf s gid = some g) (hp : splitOf g sid = some p)
    (hc : (ctxOf s g.ctx).isSome = true) (i : Instr) : ∃ u, issuer { s with cur := some (gid, sid) } i = some u := by
  obtain ⟨c, hc'⟩ := Option.isSome_iff_exists.mp hc
  have h1 : groupOf { s with cur := some (gid, sid) } gid = some g := hg
  have h2 : ctxOf { s with cur := some (gid, sid) } g.ctx = some c := hc'
  exact ⟨_, by simp only [issuer, h1, hp, h2]; rfl⟩

theorem exec_total {i : Instr} {s : State} {u : Iss} (hi : i.isEvent = false) (h : issuer s i = some u) :
    ∃ t, exec i s = .next t := by
  obtain ⟨body, hb⟩ := exec_runInstr s hi
  rw [hb, runInstr]
  simp only [h]
  exact ⟨_, rfl⟩

theorem exec_reserved_total {w : IWord} {s : State} {u : Iss} (h : issuer s (.reservedEncoding w) = some u) :
    ∃ t, exec (.reservedEncoding w) s = .next t := by
  have hexec : exec (.reservedEncoding w) s = execReservedEncoding w s := rfl
  rw [hexec, execReservedEncoding]
  simp only [h]
  exact ⟨_, rfl⟩

theorem isEvent_of_decode {w : IWord} {i : Instr} (h : decode w = .ok i) : i.isEvent = false := by
  obtain ⟨hparse, -⟩ := decode_ok_iff.mp h
  exact (parse_spec hparse).2.1

theorem execFor_next {i : Instr} {s t : State} {gid sid : Nat} (h : exec i { s with cur := some (gid, sid) } = .next t) :
    execFor i gid sid s = .next { t with cur := none } := by
  simp [execFor, h]

theorem execWord_ok {w : IWord} {i : Instr} (h : decode w = .ok i) (gid sid : Nat) (s : State) :
    execWord w gid sid s = execFor i gid sid s := by
  simp [execWord, h]

theorem execWord_error {w : IWord} {x : Reject} (h : decode w = .error x) (gid sid : Nat) (s : State) :
    execWord w gid sid s = execFor (.reservedEncoding w) gid sid s := by
  simp [execWord, h]

/-! ## The issue -/

theorem step_issue {s : State} {gid sid : Nat} {src : FetchFrom} {rule : IssueRule} {rest : List Turn}
    (h : s.turns = .issue gid sid src rule :: rest) : step s = issueTurn { s with turns := rest } gid sid src rule := by
  simp [step, h, runTurn]

theorem issueTurn_eq {s : State} {gid sid : Nat} {g : Group} {p : Split} (hg : groupOf s gid = some g)
    (hp : splitOf g sid = some p) (src : FetchFrom) (rule : IssueRule) :
    issueTurn s gid sid src rule = if issuable s g p rule then fetchAndRun (beforeFetch s gid sid) gid sid src else .next s := by
  simp [issueTurn, hg, hp]

theorem fetchAndRun_word {s s2 : State} {gid sid : Nat} {src : FetchFrom} {g : Group} {p : Split} {c : Context} {w : IWord}
    (hg : groupOf s gid = some g) (hp : splitOf g sid = some p) (hc : ctxOf s g.ctx = some c)
    (hf : fetchAt s g.core g.quarter c p.pc src p.refetch g.inHandler = (.word w, s2)) :
    fetchAndRun s gid sid src = execWord w gid sid (updSplit s2 gid sid fun p => { p with refetch := false }) := by
  simp [fetchAndRun, hg, hp, hc, hf]

theorem fetchAndRun_trap {s s2 : State} {gid sid : Nat} {src : FetchFrom} {g : Group} {p : Split} {c : Context} {r : Fetched}
    (hg : groupOf s gid = some g) (hp : splitOf g sid = some p) (hc : ctxOf s g.ctx = some c)
    (hf : fetchAt s g.core g.quarter c p.pc src p.refetch g.inHandler = (r, s2)) (hr : ∀ w, r ≠ .word w) :
    fetchAndRun s gid sid src = .next (fetchTrap s2 gid sid r) := by
  cases r with
  | word w => exact absurd rfl (hr w)
  | _ => simp only [fetchAndRun, hg, hp, hc, hf]

/-- The split of the fetch stands in the state in which its instruction runs. -/
theorem issuer_fetched {s s2 : State} {gid sid : Nat} {src : FetchFrom} {g : Group} {p : Split} {c : Context} {r : Fetched}
    (hg : groupOf s gid = some g) (hp : splitOf g sid = some p) (hc : ctxOf s g.ctx = some c)
    (hf : fetchAt s g.core g.quarter c p.pc src p.refetch g.inHandler = (r, s2)) (i : Instr) :
    ∃ u, issuer { updSplit s2 gid sid (fun p => { p with refetch := false }) with cur := some (gid, sid) } i = some u := by
  have hgroups : s2.groups = s.groups := by
    have h := fetchAt_groups s g.core g.quarter c p.pc src p.refetch g.inHandler
    rwa [hf] at h
  have hnums : ctxNums s2 = ctxNums s := by
    have h := fetchAt_ctxNums s g.core g.quarter c p.pc src p.refetch g.inHandler
    rwa [hf] at h
  have hg2 : groupOf s2 gid = some g := by rw [groupOf, hgroups]; exact hg
  have hc2 : (ctxOf s2 g.ctx).isSome = true := by rw [ctxOf_isSome, hnums, ← ctxOf_isSome, hc]; rfl
  rw [updSplit_eq hg2 hp]
  have hgid : (setSplit g { p with refetch := false }).gid = gid := by
    have e := groupOf_gid hg
    exact e
  have hsid : ({ p with refetch := false } : Split).sid = sid := by
    have e := splitOf_sid hp
    exact e
  exact issuer_of (groupOf_setGroup hg2 hgid) (splitOf_setSplit hp hsid) hc2 i

/-! ## The choice among a quarter's splits -/

theorem not_keyBefore {a b : Nat × Nat × Nat} (h : keyBefore a b = false) :
    b.1 < a.1 ∨ (b.1 = a.1 ∧ (b.2.1 < a.2.1 ∨ (b.2.1 = a.2.1 ∧ b.2.2 ≤ a.2.2))) := by
  simp only [keyBefore, Bool.or_eq_false_iff, Bool.and_eq_false_iff, decide_eq_false_iff_not, beq_eq_false_iff_ne] at h
  omega

theorem mem_rivals {s : State} {g x : Group} {p q : Split} (hx : x ∈ s.groups) (hq : q ∈ x.splits) (hcore : x.core = g.core)
    (hquarter : x.quarter = g.quarter) (hother : x.gid ≠ g.gid ∨ q.sid ≠ p.sid) (hm : mayIssue s x q = true) :
    (x, q) ∈ rivals s g p := by
  refine List.mem_flatMap.mpr ⟨x, List.mem_filter.mpr ⟨hx, by simp [hcore, hquarter]⟩, List.mem_map.mpr ⟨q, ?_, rfl⟩⟩
  refine List.mem_filter.mpr ⟨hq, ?_⟩
  rw [hm, Bool.and_true, Bool.not_eq_true', Bool.and_eq_false_iff, beq_eq_false_iff_ne, beq_eq_false_iff_ne]
  exact hother

/-- A split that issues by a rule is the one that the rule chooses. -/
theorem chosen_of_issuable {s : State} {g : Group} {p : Split} {rule : IssueRule} (h : issuable s g p rule = true) :
    chosen s g p rule = true := by
  simp only [issuable, Bool.and_eq_true] at h
  exact h.1.2

theorem unreadyIn_iff {l : List (Nat × Nat)} {x : Group × Split} : unreadyIn l x = true ↔ (x.1.gid, x.2.sid) ∈ l := by
  simp [unreadyIn]

theorem chosen_first {s : State} {g : Group} {p : Split} {unready : List (Nat × Nat)} (h : chosen s g p (.first unready) = true)
    (hrep : g.repro = false) (hlen : p.chainLen = 0) {x : Group × Split} (hx : x ∈ rivals s g p) (hxr : x.1.repro = false)
    (hy : yieldHolds s x.2 = false) (hu : (x.1.gid, x.2.sid) ∉ unready) : keyBefore (choiceKey x) (choiceKey (g, p)) = false := by
  simp only [chosen, hrep, hlen, lt_irrefl, decide_false, Bool.or_self, Bool.false_or, Bool.and_eq_true, List.all_eq_true] at h
  have hall := h.2 x hx
  have hun : unreadyIn unready x = false := Bool.eq_false_iff.mpr fun e => hu (unreadyIn_iff.mp e)
  simpa [hxr, hun, hy] using hall

theorem chosen_second {s : State} {g : Group} {p : Split} {unready : List (Nat × Nat)} (h : chosen s g p (.second unready) = true)
    (hrep : g.repro = false) (hlen : p.chainLen = 0) :
    coIssues s g p = true ∧ ∀ x ∈ rivals s g p, x.1.gid = g.gid → (x.1.gid, x.2.sid) ∉ unready →
      keyBefore (choiceKey x) (choiceKey (g, p)) = false := by
  simp only [chosen, hrep, hlen, lt_irrefl, decide_false, Bool.or_self, Bool.false_or, Bool.and_eq_true, List.all_eq_true] at h
  refine ⟨h.1, fun x hx hxg hu => ?_⟩
  have hall := h.2 x hx
  have hun : unreadyIn unready x = false := Bool.eq_false_iff.mpr fun e => hu (unreadyIn_iff.mp e)
  simpa [hxg, hun] using hall

theorem coIssues_facts {s : State} {g : Group} {p : Split} (h : coIssues s g p = true) :
    ∃ q, (g.splits.filter fun y => y.stamp == s.clock.toNat) = [q] ∧ q.chainLen = 0 ∧ p.stamp ≠ s.clock.toNat := by
  unfold coIssues at h
  simp only [Bool.and_eq_true, bne_iff_ne] at h
  obtain ⟨⟨-, hst⟩, hm⟩ := h
  split at hm
  · rename_i q hq
    exact ⟨q, hq, beq_iff_eq.mp hm, hst⟩
  · cases hm

/-- Settles O57: the turn named first is the issue, and each later part follows the functions it runs through. -/
theorem stepRunsTheDecodedInstruction : Obligations.StepRunsTheDecodedInstruction := by
  unfold Obligations.StepRunsTheDecodedInstruction
  intro s gid sid src rule rest hturns s0
  rw [step_issue hturns]
  refine ⟨?passed, ?runs, ?memory, ?second, ?first⟩
  case passed =>
    intro g p hg hp hi
    rw [issueTurn_eq hg hp, hi]
    rfl
  case runs =>
    intro g p g1 p1 c r s2 hg hp hi s1 hg1 hp1 hc hf
    rw [issueTurn_eq hg hp, if_pos hi]
    refine ⟨fun w hw => ⟨fun i hd => ⟨(wellFormed_of_decode hd).1, ?_⟩, fun x hd => ?_⟩, fun hr => ?_, fun hal hbuf => ?_⟩
    · subst hw
      obtain ⟨u, hu⟩ := issuer_fetched hg1 hp1 hc hf i
      obtain ⟨t, ht⟩ := exec_total (isEvent_of_decode hd) hu
      exact ⟨t, ht, by rw [fetchAndRun_word hg1 hp1 hc hf, execWord_ok hd, execFor_next ht]⟩
    · subst hw
      obtain ⟨u, hu⟩ := issuer_fetched hg1 hp1 hc hf (.reservedEncoding w)
      obtain ⟨t, ht⟩ := exec_reserved_total hu
      exact ⟨t, ht, by rw [fetchAndRun_word hg1 hp1 hc hf, execWord_error hd, execFor_next ht]⟩
    · exact fetchAndRun_trap hg1 hp1 hc hf hr
    · rw [fetchAndRun_trap hg1 hp1 hc (fetchAt_misaligned hal (by rw [ctxOf_num hc] at *; exact hbuf)) nofun]
      simp only [fetchTrap, hg1, Option.bind_some, hp1, Option.map_some, Option.getD_some]
  case memory =>
    intro s1 s2 core quarter c pc sup pa ha hf ht hb hu
    exact fetchAt_memory ha hf ht hb hu
  case second =>
    intro g p unready hg hp hi hrep hlen
    obtain ⟨hco, hall⟩ := chosen_second (chosen_of_issuable hi) hrep hlen
    refine ⟨coIssues_facts hco, fun q hq hm hu hne => ?_⟩
    have hkey := not_keyBefore (hall (g, q) (mem_rivals (List.mem_of_find?_eq_some hg) hq rfl rfl (Or.inr hne) hm) rfl hu)
    simp only [choiceKey] at hkey
    omega
  case first =>
    intro g p unready hg hp hi hrep hlen x hx q hq hcore hquarter hxr hm hy hu hne
    have hkey := not_keyBefore (chosen_first (chosen_of_issuable hi) hrep hlen (mem_rivals hx hq hcore hquarter hne hm) hxr hy hu)
    simp only [choiceKey] at hkey
    exact hkey

/-- Settles O58: the fields of `State.reset`, which holds no work. -/
theorem afterReset : Obligations.AfterReset := by
  unfold Obligations.AfterReset
  refine ⟨rfl, fun _ => rfl, rfl, rfl, rfl, rfl, rfl, rfl, rfl, rfl, List.length_replicate, List.length_replicate, ?_, ?_, ?_⟩
  · intro r hr l hl
    rw [List.eq_of_mem_replicate hr] at hl
    rw [List.eq_of_mem_replicate hl]
    rfl
  · exact ⟨rfl, rfl, fun t h => absurd h List.not_mem_nil, fun t h => absurd h List.not_mem_nil⟩
  · exact ⟨List.nodup_nil, fun g h => absurd h List.not_mem_nil, fun g h => absurd h List.not_mem_nil,
      fun g h => absurd h List.not_mem_nil⟩

end Sys2Proof.Machine
end

section
/-!
SUPPORT. Loads in flight: what an element of a load reads (O29), and the replies of loads, prefetches and atomics (O30).
-/
namespace Sys2Proof.Machine

/-! ## What an element reads -/

theorem setCore_lens (s : State) (c : Nat) (k : Core) : { setCore s c k with cores := s.cores } = s := rfl

/-- A line brought to the L1 changes the core alone. -/
theorem l1Fill_rest (s : State) (core ctx va pa : Nat) : { l1Fill s core ctx va pa with cores := s.cores } = s := by
  unfold l1Fill
  dsimp only
  split <;> exact setCore_lens ..

/-- A read changes at most its core. -/
theorem readElem_rest (s : State) (o : Op) (e : Elem) (l1 : Bool) : { (readElem s o e l1).2.2 with cores := s.cores } = s := by
  unfold readElem
  split
  · rfl
  · dsimp only
    split
    · rfl
    · split
      · rfl
      · split
        · rfl
        · exact l1Fill_rest ..

theorem readElem_keeps (s : State) (o : Op) (e : Elem) (l1 : Bool) :
    (readElem s o e l1).2.2.ops = s.ops ∧ (readElem s o e l1).2.2.mem = s.mem ∧ (readElem s o e l1).2.2.groups = s.groups := by
  have h := readElem_rest s o e l1
  have ho := congrArg State.ops h
  have hm := congrArg State.mem h
  have hg := congrArg State.groups h
  exact ⟨ho, hm, hg⟩

theorem opOf_of_ops {s t : State} (h : t.ops = s.ops) (n : Nat) : opOf t n = opOf s n := by
  unfold opOf
  rw [h]

/-- Element `f` of a load once `e` of it has read `v`, or met a bad granule (09 R176). -/
def gains (e : Elem) (v : Nat) (bad : Option Nat) (f : Elem) : Elem :=
  if f.st = .pending ∧ sameElem e f = true then { f with st := .done, bad := bad, res := BitVec.ofNat 64 v } else f

/-- A ready element of a load is performed: it and its like take what is read. -/
theorem loadElem_ready {s : State} {id k : Nat} {l1 : Lanes} {o : Op} {e : Elem} (ho : opOf s id = some o)
    (he : o.elems[k]? = some e) (hp : e.st = .pending) (hr : elemReady s o e = true) :
    let r := readElem s o e (l1.has e.lane)
    loadElem s id l1 k = setOp r.2.2 { o with elems := o.elems.map (gains e r.1 r.2.1) } := by
  simp [loadElem, ho, he, hp, hr]
  rfl

/-- The elements of a load after a ready one is performed. -/
theorem elemAt_loadElem {s : State} {id k j : Nat} {l1 : Lanes} {o : Op} {e x : Elem} (ho : opOf s id = some o)
    (he : o.elems[k]? = some e) (hp : e.st = .pending) (hr : elemReady s o e = true) (hx : o.elems[j]? = some x) :
    let r := readElem s o e (l1.has e.lane)
    elemAt? (loadElem s id l1 k) id j = some (gains e r.1 r.2.1 x) := by
  have ho2 : opOf (readElem s o e (l1.has e.lane)).2.2 id = some o := (opOf_of_ops (readElem_keeps ..).1 id).trans ho
  have hid := opOf_id ho
  rw [loadElem_ready ho he hp hr, elemAt?, opOf_setOp ho2 (by exact hid)]
  simp [hx]

/-- What an element reads in memory at home, with no stream of a checked copy before it. -/
theorem readElem_home {s : State} {o : Op} {e : Elem} (hs : e.space ≠ .scratch) (hf : forwarded s o e = none)
    (hst : streamOf s o.team = []) :
    (readElem s o e false).2.1 = badGranule? s (e.pa.getD 0) e.size ∧
    (readElem s o e false).1 = if (badGranule? s (e.pa.getD 0) e.size).isSome then 0
      else coreValue s o.core (e.pa.getD 0) e.size := by
  cases hb : badGranule? s (e.pa.getD 0) e.size with
  | none => cases hsp : e.space <;> simp_all [readElem]
  | some b => cases hsp : e.space <;> simp_all [readElem]

theorem readElem_scratch {s : State} {o : Op} {e : Elem} (hs : e.space = .scratch) (l1 : Bool) :
    readElem s o e l1 = (spadRead s o.team e.va.toNat e.size, none, s) := by
  simp [readElem, hs]

/-- Settles O29: an element that is ready takes what `readElem` finds, and so does each pending element of its place. -/
theorem loadElement : Obligations.LoadElement := by
  unfold Obligations.LoadElement
  intro s id l1 k o e ho he hp hr
  obtain ⟨-, hmem, hgroups⟩ := readElem_keeps s o e (l1.has e.lane)
  refine ⟨?_, ?_, ?_, ?_, ?_⟩
  · rw [loadElem_ready ho he hp hr, setOp_mem]
    exact hmem
  · rw [loadElem_ready ho he hp hr, setOp_groups]
    exact hgroups
  · intro hs hf hl hst j x hx
    obtain ⟨hbad, hval⟩ := readElem_home hs hf hst
    rw [elemAt_loadElem ho he hp hr hx, hl, hbad, hval, gains, apply_ite (BitVec.ofNat 64)]
  · intro hn
    simp [coreValue, hn]
  · intro hs j x hx
    rw [elemAt_loadElem ho he hp hr hx, readElem_scratch hs, gains]

end Sys2Proof.Machine
end

section
/-!
SUPPORT. The replies of loads, prefetches and atomics (O30).
-/
namespace Sys2Proof.Machine

/-! ## What a completed access writes -/

theorem opPlus_scalar (d : Opnd) : isScalar d = false → isScalar (opPlus d 1) = false := by
  cases d with
  | v n =>
    intro _
    simp only [opPlus]
    split <;> rfl
  | s n => exact nofun
  | o n => exact fun _ => rfl
  | l n => exact fun _ => rfl
  | imm => exact fun _ => rfl
  | zero => exact fun _ => rfl
  | bad n => exact fun _ => rfl

/-- The lanes of an access's elements. -/
def lanesIn (es : List (Nat × Nat)) : Lanes := Lanes.ofPred fun l => es.any (·.1 == l)

/-- The value an access brings to a lane. -/
def broughtTo (es : List (Nat × Nat)) (l : Nat) : Nat := ((es.find? (·.1 == l)).map Prod.snd).getD 0

theorem writeLoaded_vector {d : Opnd} (hs : isScalar d = false) (g : Group) (wide : Bool) (es : List (Nat × Nat)) :
    writeLoaded g d wide es = writePair g d wide (lanesIn es) (broughtTo es) := by
  simp only [writeLoaded, hs, Bool.false_eq_true, if_false]
  rfl

theorem writeLoaded_scalar {d : Opnd} (hs : isScalar d = true) (g : Group) (wide : Bool) (es : List (Nat × Nat)) :
    writeLoaded g d wide es = writeScalarNat g wide d ((es.head?.map Prod.snd).getD 0) := by
  simp only [writeLoaded, hs, if_true]

theorem writeLoaded_only (g : Group) (d : Opnd) (wide : Bool) (es : List (Nat × Nat)) :
    { writeLoaded g d wide es with vregs := g.vregs, oregs := g.oregs, sregs := g.sregs } = g := by
  cases hs : isScalar d with
  | true => rw [writeLoaded_scalar hs]; exact writeScalarNat_only ..
  | false => rw [writeLoaded_vector hs]; exact writePair_only ..

theorem writeLoaded_keeps (g : Group) (d : Opnd) (wide : Bool) (es : List (Nat × Nat)) :
    (writeLoaded g d wide es).gid = g.gid ∧ (writeLoaded g d wide es).status = g.status ∧
    (writeLoaded g d wide es).srctr = g.srctr ∧ (writeLoaded g d wide es).splits = g.splits := by
  have h := writeLoaded_only g d wide es
  have h1 := congrArg Group.gid h
  have h2 := congrArg Group.status h
  have h3 := congrArg Group.srctr h
  have h4 := congrArg Group.splits h
  exact ⟨h1, h2, h3, h4⟩

theorem broughtTo_mem {es : List (Nat × Nat)} (hn : (es.map Prod.fst).Nodup) {e : Nat × Nat} (he : e ∈ es) :
    broughtTo es e.1 = e.2 := by
  induction es with
  | nil => simp at he
  | cons a t ih =>
    obtain ⟨ha, ht⟩ := List.nodup_cons.mp (List.map_cons ▸ hn)
    rcases List.mem_cons.mp he with rfl | hm
    · simp [broughtTo]
    · have hne : a.1 ≠ e.1 := fun x => ha (x ▸ List.mem_map_of_mem hm)
      have := ih ht hm
      simpa [broughtTo, List.find?_cons, hne] using this

/-- A vector register keeps the lanes that no element names. -/
theorem regWord_writeReg_idle (g : Group) (d o : Opnd) (m : Lanes) (new : Nat → Word) {l : Nat} (hl : l < 64)
    (hs : isScalar d = false) (hm : m.has l = false) : regWord (writeReg g d m new) o l = regWord g o l := by
  rw [regWord_writeReg g d o m new l hl hs]
  split
  next h => rw [h.1]; simp [hm]
  next => rfl

theorem regWord_writePair_idle (g : Group) (d o : Opnd) (wide : Bool) (m : Lanes) (new : Nat → Nat) {l : Nat} (hl : l < 64)
    (hs : isScalar d = false) (hm : m.has l = false) : regWord (writePair g d wide m new) o l = regWord g o l := by
  unfold writePair
  split
  · rw [regWord_writeReg_idle _ _ _ _ _ hl (opPlus_scalar d hs) hm, regWord_writeReg_idle _ _ _ _ _ hl hs hm]
  · rw [regWord_writeReg_idle _ _ _ _ _ hl hs hm]

/-- Registers other than the destination's stand. -/
theorem regWord_writeLoaded_other (g : Group) {d o : Opnd} {wide : Bool} (es : List (Nat × Nat)) (ho : o ≠ d)
    (hw : wide = true → o ≠ opPlus d 1) (l : Nat) : regWord (writeLoaded g d wide es) o l = regWord g o l := by
  cases hs : isScalar d with
  | true =>
    rw [writeLoaded_scalar hs, writeScalarNat]
    cases wide with
    | true => simp [regWord_writeScalar, ho, hw rfl]
    | false => simp [regWord_writeScalar, ho]
  | false =>
    rw [writeLoaded_vector hs, writePair]
    cases wide with
    | true => rw [if_pos rfl, regWord_writeReg_other _ _ _ _ _ _ (hw rfl), regWord_writeReg_other _ _ _ _ _ _ ho]
    | false => rw [if_neg (by simp), regWord_writeReg_other _ _ _ _ _ _ ho]

theorem lanesIn_has (es : List (Nat × Nat)) (l : Nat) : (lanesIn es).has l = ((es.map Prod.fst).filter (· < 64)).contains l := by
  rw [lanesIn, ofPred_has, Bool.eq_iff_iff]
  simp only [Bool.and_eq_true, decide_eq_true_eq, List.any_eq_true, beq_iff_eq, List.contains_iff_mem, List.mem_filter,
    List.mem_map]
  exact ⟨fun ⟨h, x, hx, e⟩ => ⟨⟨x, hx, e⟩, h⟩, fun ⟨⟨x, hx, e⟩, h⟩ => ⟨h, x, hx, e⟩⟩

/-- A completed access leaves its values in its destination. -/
theorem returned_writeLoaded (g : Group) {d : Opnd} {wide : Bool} {es : List (Nat × Nat)} (hn : (es.map Prod.fst).Nodup)
    (hd : dstOk g wide d = true) : Returned g (writeLoaded g d wide es) d wide es := by
  obtain ⟨-, hst, hct, hsp⟩ := writeLoaded_keeps g d wide es
  refine ⟨fun hs e he => ?_, fun hs e he hl hh => ?_, fun hs l hl hno o => ?_, fun o ho hw l => regWord_writeLoaded_other g es ho hw l,
    hst, hct, hsp⟩
  · rw [writeLoaded_scalar hs, he]
    rfl
  · have w := written_vector g d wide (lanesIn es) _ (broughtTo es) hs hd (lanesIn_has es)
    have hin : ((es.map Prod.fst).filter (· < 64)).contains e.1 = true := by
      simp only [List.contains_iff_mem, List.mem_filter, List.mem_map, decide_eq_true_eq]
      exact ⟨⟨e, he, rfl⟩, hl⟩
    rw [writeLoaded_vector hs]
    refine ⟨?_, fun hw hh1 => ?_⟩
    · rw [w.low hh e.1 hl, hs, if_neg (by simp), hin, if_pos rfl, broughtTo_mem hn he]
    · rw [w.high hw hh1 e.1 hl, hs, if_neg (by simp), hin, if_pos rfl, broughtTo_mem hn he]
  · have hm : (lanesIn es).has l = false := by
      rw [lanesIn, ofPred_has]
      simpa using fun _ a b hab e => hno (a, b) hab e
    rw [writeLoaded_vector hs]
    exact regWord_writePair_idle g d o wide _ _ hl hs hm

theorem Returned.of_same {g g1 g' : Group} {d : Opnd} {wide : Bool} {es : List (Nat × Nat)} (h : Returned g g1 d wide es)
    (hv : g'.vregs = g1.vregs) (ho : g'.oregs = g1.oregs) (hs : g'.sregs = g1.sregs) (hst : g'.status = g1.status)
    (hc : g'.srctr = g1.srctr) (hp : g'.splits = g1.splits) : Returned g g' d wide es := by
  have hword : ∀ o l, regWord g' o l = regWord g1 o l := fun o l => by cases o <;> simp [regWord, hv, ho, hs]
  obtain ⟨a, b, c, e, f1, f2, f3⟩ := h
  refine ⟨fun h1 x hx => hs.trans (a h1 x hx), fun h1 x hx hl hh => ?_, fun h1 l hl hno o => (hword o l).trans (c h1 l hl hno o),
    fun o h1 h2 l => (hword o l).trans (e o h1 h2 l), hst.trans f1, hc.trans f2, hp.trans f3⟩
  obtain ⟨b1, b2⟩ := b h1 x hx hl hh
  exact ⟨(hword _ _).trans b1, fun h3 h4 => (hword _ _).trans (b2 h3 h4)⟩

/-! ## The shadow of a trap handler -/

theorem writeScalar_shadow (g : Group) (x : Option Shadow) (d : Opnd) (v : Word) :
    writeScalar { g with shadow := x } d v = { writeScalar g d v with shadow := x } := by
  cases d <;> rfl

theorem writeReg_shadow (g : Group) (x : Option Shadow) (d : Opnd) (m : Lanes) (new : Nat → Word) :
    writeReg { g with shadow := x } d m new = { writeReg g d m new with shadow := x } := by
  cases d <;> rfl

/-- What is written does not depend on the shadow. -/
theorem writeLoaded_shadow (g : Group) (x : Option Shadow) (d : Opnd) (wide : Bool) (es : List (Nat × Nat)) :
    writeLoaded { g with shadow := x } d wide es = { writeLoaded g d wide es with shadow := x } := by
  cases hs : isScalar d with
  | true =>
    rw [writeLoaded_scalar hs, writeLoaded_scalar hs]
    cases wide <;> simp [writeScalarNat, writeScalar_shadow]
  | false =>
    rw [writeLoaded_vector hs, writeLoaded_vector hs]
    cases wide <;> simp [writePair, writeReg_shadow]

theorem shadowLoaded_only (g : Group) (o : Op) (d : Opnd) (wide : Bool) (es : List (Nat × Nat)) :
    ∃ x, shadowLoaded g o d wide es = { g with shadow := x } := by
  unfold shadowLoaded
  split
  · split
    · exact ⟨g.shadow, rfl⟩
    · exact ⟨_, rfl⟩
  · exact ⟨g.shadow, rfl⟩

/-! ## The end of an access -/

theorem removeOp_gone (s : State) (id : Nat) : ∀ x ∈ (removeOp s id).ops, x.id ≠ id := by
  intro x hx
  simpa using (List.mem_filter.mp hx).2

theorem removeOp_rest (s : State) (id : Nat) : { removeOp s id with ops := s.ops, fences := s.fences } = s := rfl

theorem acquireOp_rest (s : State) (o : Op) : { acquireOp s o with cores := s.cores } = s := by
  unfold acquireOp
  split
  · exact setCore_lens ..
  · rfl

theorem groupOf_countOff {s : State} {o : Op} {g : Group} (h : groupOf s o.gid = some g) :
    groupOf (countOff s o) o.gid = some (engDone g o.id) := by
  have hgid := groupOf_gid h
  rw [countOff, updGroup_eq h]
  exact groupOf_setGroup h hgid

theorem acquireOp_groups (s : State) (o : Op) : (acquireOp s o).groups = s.groups := by
  have h := congrArg State.groups (acquireOp_rest s o)
  exact h

/-- An access whose values are in `g` ends: counted off, and in flight no longer. -/
theorem ended_access {s : State} {o : Op} {g : Group} (h : groupOf s o.gid = some g) :
    let t := removeOp (countOff (acquireOp s o) o) o.id
    t.mem = s.mem ∧ (∀ x ∈ t.ops, x.id ≠ o.id) ∧ groupOf t o.gid = some (engDone g o.id) := by
  refine ⟨?_, removeOp_gone _ _, ?_⟩
  · show (countOff (acquireOp s o) o).mem = s.mem
    rw [countOff, updGroup_mem, (acquireOp_mem s o).1]
  · have h' : groupOf (acquireOp s o) o.gid = some g := by
      rw [← h, groupOf, groupOf, acquireOp_groups]
    exact groupOf_countOff h'

/-- The values that a load returns. -/
def loadValues (o : Op) (w : Width) : List (Nat × Nat) := o.elems.map fun e => (e.lane, loadValue w e.res.toNat)

/-- A group with what a load returns in its destination, and in the shadow of its handler. -/
def loadedGroup (g : Group) (o : Op) (w : Width) (d : Opnd) : Group :=
  writeLoaded (shadowLoaded g o d (w == .b64) (loadValues o w)) d (w == .b64) (loadValues o w)

theorem loadedGroup_eq (g : Group) (o : Op) (w : Width) (d : Opnd) :
    ∃ x, loadedGroup g o w d = { writeLoaded g d (w == .b64) (loadValues o w) with shadow := x } := by
  obtain ⟨x, hx⟩ := shadowLoaded_only g o d (w == .b64) (loadValues o w)
  exact ⟨x, by rw [loadedGroup, hx, writeLoaded_shadow]⟩

theorem loadedGroup_gid (g : Group) (o : Op) (w : Width) (d : Opnd) : (loadedGroup g o w d).gid = g.gid := by
  obtain ⟨x, hx⟩ := loadedGroup_eq g o w d
  rw [hx]
  exact (writeLoaded_keeps ..).1

theorem returned_loadedGroup (g : Group) {o : Op} {w : Width} {d : Opnd} (hn : (o.elems.map Elem.lane).Nodup)
    (hd : dstOk g (w == .b64) d = true) : Returned g (loadedGroup g o w d) d (w == .b64) (loadValues o w) := by
  obtain ⟨x, hx⟩ := loadedGroup_eq g o w d
  have hn' : ((loadValues o w).map Prod.fst).Nodup := by
    rw [loadValues, List.map_map]
    exact hn
  rw [hx]
  exact (returned_writeLoaded g hn' hd).of_same rfl rfl rfl rfl rfl rfl

/-- A load that met no uncorrectable granule ends with its values written. -/
theorem finishLoad_good {s : State} {o : Op} {w : Width} {d : Opnd} {g : Group} (hg : groupOf s o.gid = some g)
    (hb : o.elems.findSome? Elem.bad = none) :
    let t := finishLoad s o w d
    t.mem = s.mem ∧ (∀ x ∈ t.ops, x.id ≠ o.id) ∧ groupOf t o.gid = some (engDone (loadedGroup g o w d) o.id) := by
  have hgid := (loadedGroup_gid g o w d).trans (groupOf_gid hg)
  have hfin : finishLoad s o w d = removeOp (countOff (acquireOp (setGroup s (loadedGroup g o w d)) o) o) o.id := by
    rw [finishLoad, hb]
    dsimp only
    rw [updGroup_eq hg]
    rfl
  rw [hfin]
  exact ended_access (groupOf_setGroup hg hgid)

/-- The group of a load that met an uncorrectable granule. -/
def failedLoad (g : Group) (o : Op) (pa : Nat) : Group :=
  { g with badLoads := g.badLoads ++ [{ pc := o.tmpl.pc, pa, dst := opDsts o }] }

theorem failLoad_eq {s : State} {o : Op} {g : Group} (hg : groupOf s o.gid = some g) (pa : Nat) :
    failLoad s o pa = setGroup s (failedLoad g o pa) := updGroup_eq hg _

theorem groupOf_failLoad {s : State} {o : Op} {g : Group} (hg : groupOf s o.gid = some g) (pa : Nat) :
    groupOf (failLoad s o pa) o.gid = some (failedLoad g o pa) := by
  have hgid := groupOf_gid hg
  rw [failLoad_eq hg]
  exact groupOf_setGroup hg hgid

/-- A load that met one ends with its error noted. -/
theorem finishLoad_bad {s : State} {o : Op} {w : Width} {d : Opnd} {g : Group} {pa : Nat} (hg : groupOf s o.gid = some g)
    (hb : o.elems.findSome? Elem.bad = some pa) :
    let t := finishLoad s o w d
    t.mem = s.mem ∧ (∀ x ∈ t.ops, x.id ≠ o.id) ∧ groupOf t o.gid = some (engDone (failedLoad g o pa) o.id) := by
  have hfin : finishLoad s o w d = removeOp (countOff (acquireOp (failLoad s o pa) o) o) o.id := by
    rw [finishLoad, hb]
  obtain ⟨hm, hops, hgr⟩ := ended_access (groupOf_failLoad hg pa)
  rw [hfin]
  refine ⟨hm.trans ?_, hops, hgr⟩
  rw [failLoad_eq hg, setGroup_mem]

/-! ## Prefetches -/

/-- Between two states of a prefetch: memory and groups stand, and it is in flight as it was, or further. -/
structure PrefStep (id : Nat) (b : Bool) (gid : Nat) (s t : State) : Prop where
  mem : t.mem = s.mem
  groups : t.groups = s.groups
  op : ∃ o, opOf t id = some o ∧ o.kind = .pref b ∧ o.gid = gid

theorem prefElem_step {s : State} {id : Nat} {b : Bool} {o : Op} (ho : opOf s id = some o) (hk : o.kind = .pref b)
    (l1 : Bool) (k : Nat) : PrefStep id b o.gid s (prefElem s id l1 k) := by
  have hid := opOf_id ho
  rw [prefElem, ho]
  dsimp only
  split
  · exact ⟨rfl, rfl, o, ho, hk, rfl⟩
  · split
    · next e _ _ =>
      have hrest : { (if l1 = true then l1Fill s o.core o.ctx e.va.toNat (e.pa.getD 0) else s) with cores := s.cores } = s := by
        split
        · exact l1Fill_rest ..
        · rfl
      have hmem := congrArg State.mem hrest
      have hgroups := congrArg State.groups hrest
      have hops := congrArg State.ops hrest
      have ho2 := (opOf_of_ops hops id).trans ho
      exact ⟨hmem, hgroups, _, opOf_setElem ho2 hid, hk, rfl⟩
    · exact ⟨rfl, rfl, o, ho, hk, rfl⟩

theorem prefElems_step {id : Nat} {b : Bool} {gid : Nat} (l1 : Bool) (ks : List Nat) : ∀ s, PrefStep id b gid s s →
    PrefStep id b gid s (ks.foldl (fun s k => prefElem s id l1 k) s) := by
  induction ks with
  | nil => exact fun s h => h
  | cons k ks ih =>
    intro s h
    obtain ⟨-, -, o, ho, hk, rfl⟩ := h
    have h1 := prefElem_step ho hk l1 k
    have h2 := ih _ ⟨rfl, rfl, h1.op⟩
    exact ⟨h2.mem.trans h1.mem, h2.groups.trans h1.groups, h2.op⟩

/-- Counting off changes the engine counters alone. -/
theorem engDone_only (g : Group) (n : Nat) : { engDone g n with eng := g.eng } = g := rfl

/-- A prefetch ends or goes on: no register of its group changes. -/
theorem endReads_pref {s : State} {id : Nat} {o : Op} {b : Bool} {g : Group} (ho : opOf s id = some o) (hk : o.kind = .pref b)
    (hg : groupOf s o.gid = some g) :
    ∃ g', (endReads s id).mem = s.mem ∧ groupOf (endReads s id) o.gid = some g' ∧ { g' with eng := g.eng } = g := by
  rw [endReads, ho]
  dsimp only
  split
  · exact ⟨g, rfl, hg, rfl⟩
  · rw [hk]
    exact ⟨engDone g o.id, updGroup_mem .., groupOf_countOff hg, engDone_only ..⟩

/-! ## Atomics -/

/-- What an ATOM notes of an uncorrectable granule. -/
def atomBad (o : Op) (d : Opnd) : List BadLoad :=
  match o.elems.findSome? Elem.bad with
  | some pa => if d = .zero then [] else [{ pc := o.tmpl.pc, pa, dst := opDsts o }]
  | none => []

/-- The values that an ATOM returns. -/
def atomValues (o : Op) : List (Nat × Nat) := (o.elems.filter fun x => x.bad.isNone).map fun x => (x.lane, x.res.toNat)

theorem writeReg_badLoads (g : Group) (x : List BadLoad) (d : Opnd) (m : Lanes) (new : Nat → Word) :
    writeReg { g with badLoads := x } d m new = { writeReg g d m new with badLoads := x } := by
  cases d <;> rfl

theorem writeScalar_badLoads (g : Group) (x : List BadLoad) (d : Opnd) (v : Word) :
    writeScalar { g with badLoads := x } d v = { writeScalar g d v with badLoads := x } := by
  cases d <;> rfl

theorem writeLoaded_badLoads (g : Group) (x : List BadLoad) (d : Opnd) (wide : Bool) (es : List (Nat × Nat)) :
    writeLoaded { g with badLoads := x } d wide es = { writeLoaded g d wide es with badLoads := x } := by
  cases hs : isScalar d with
  | true =>
    rw [writeLoaded_scalar hs, writeLoaded_scalar hs]
    cases wide <;> simp [writeScalarNat, writeScalar_badLoads]
  | false =>
    rw [writeLoaded_vector hs, writeLoaded_vector hs]
    cases wide <;> simp [writePair, writeReg_badLoads]

/-- The state in which an ATOM has noted its error. -/
def atomNoted (s : State) (o : Op) (d : Opnd) : State :=
  match o.elems.findSome? Elem.bad with
  | some pa => if d = .zero then s else failLoad s o pa
  | none => s

theorem atomNoted_spec {s : State} {o : Op} {d : Opnd} {g : Group} (hg : groupOf s o.gid = some g) :
    (atomNoted s o d).mem = s.mem ∧
    groupOf (atomNoted s o d) o.gid = some { g with badLoads := g.badLoads ++ atomBad o d } := by
  unfold atomBad atomNoted
  split
  · split
    · exact ⟨rfl, by simpa using hg⟩
    · refine ⟨?_, groupOf_failLoad hg _⟩
      rw [failLoad_eq hg, setGroup_mem]
  · exact ⟨rfl, by simpa using hg⟩

theorem finishAtom_spec {s : State} {o : Op} {u : EltTy} {d : Opnd} {g : Group} (hg : groupOf s o.gid = some g) :
    let t := finishAtom s o u d
    t.mem = s.mem ∧ (∀ x ∈ t.ops, x.id ≠ o.id) ∧ groupOf t o.gid = some (engDone { writeLoaded g d (u.width == 64) (atomValues o) with
      badLoads := g.badLoads ++ atomBad o d } o.id) := by
  obtain ⟨hm, h1⟩ := atomNoted_spec (d := d) hg
  have hgid := (writeLoaded_keeps g d (u.width == 64) (atomValues o)).1.trans (groupOf_gid hg)
  have hfin : finishAtom s o u d = removeOp (countOff (setGroup (atomNoted s o d)
      { writeLoaded g d (u.width == 64) (atomValues o) with badLoads := g.badLoads ++ atomBad o d }) o) o.id := by
    rw [← writeLoaded_badLoads, ← updGroup_eq h1 fun g => writeLoaded g d (u.width == 64) (atomValues o)]
    rfl
  rw [hfin]
  refine ⟨(updGroup_mem ..).trans hm, removeOp_gone _ _, groupOf_countOff ?_⟩
  exact groupOf_setGroup h1 (by exact hgid)

/-! ## O30 -/

theorem performed_or (o : Op) : o.performed = true ∨ o.performed = false := by cases o.performed <;> simp

/-- Settles O30: a completed load, prefetch or atomic ends through `finishLoad`, `countOff` or `finishAtom`. -/
theorem accessReplies : Obligations.AccessReplies := by
  unfold Obligations.AccessReplies
  refine ⟨?_, ?_, ?_⟩
  · intro s op lanes fromL1 o o1 w d g ho hk s1 ho1 hk1 hg
    have hid := opOf_id ho1
    have hexec : exec (.loadReturn op lanes fromL1) s = .next (endReads s1 op) := by
      show execLoadReturn op lanes fromL1 s = _
      simp only [execLoadReturn, ho, Option.map_some, hk]
      rfl
    have hend : endReads s1 op = if o1.performed then finishLoad s1 o1 w d else s1 := by
      rw [endReads, ho1]
      cases hp : o1.performed with
      | false => simp only [hp, Bool.not_false, Bool.false_eq_true, if_false, if_true]
      | true => simp only [hk1, hp, Bool.not_true, Bool.false_eq_true, if_false, if_true]
    refine ⟨_, hexec, ?_⟩
    cases hp : o1.performed with
    | false =>
      rw [hend, hp]
      exact ⟨rfl, fun _ => rfl, nofun⟩
    | true =>
      rw [hend, hp, if_pos rfl]
      cases hb : o1.elems.findSome? Elem.bad with
      | none =>
        obtain ⟨hm, hops, hgr⟩ := finishLoad_good (w := w) (d := d) hg hb
        refine ⟨hm, nofun, fun _ => ⟨fun y hy => hid ▸ hops y hy, _, hgr, fun _ hn hd => ?_, nofun⟩⟩
        exact (returned_loadedGroup g hn hd).of_same rfl rfl rfl rfl rfl rfl
      | some pa =>
        obtain ⟨hm, hops, hgr⟩ := finishLoad_bad (w := w) (d := d) hg hb
        refine ⟨hm, nofun, fun _ => ⟨fun y hy => hid ▸ hops y hy, _, hgr, nofun, fun pa' e => ?_⟩⟩
        cases e
        exact ⟨rfl, rfl, rfl, rfl⟩
  · intro s op lanes fromL1 o b g ho hk hg
    have hexec : exec (.loadReturn op lanes fromL1) s =
        .next (endReads ((elemsIn o lanes).foldl (fun s k => prefElem s op b k) s) op) := by
      show execLoadReturn op lanes fromL1 s = _
      simp only [execLoadReturn, ho, Option.map_some, hk]
    obtain ⟨hm, hgs, o2, ho2, hk2, hgid⟩ := prefElems_step b (elemsIn o lanes) s ⟨rfl, rfl, o, ho, hk, rfl⟩
    have hg2 : groupOf ((elemsIn o lanes).foldl (fun s k => prefElem s op b k) s) o2.gid = some g := by
      rw [hgid, groupOf, hgs]
      exact hg
    obtain ⟨g', hm', hg', hsame⟩ := endReads_pref ho2 hk2 hg2
    exact ⟨_, g', hexec, hm'.trans hm, hgid ▸ hg', hsame⟩
  · intro s op o e d g ho hk hg
    have hid := opOf_id ho
    have hexec : exec (.atomReturn op) s = .next (if o.performed then finishAtom s o e d else s) := by
      show execAtomReturn op s = _
      simp only [execAtomReturn, ho, hk]
    refine ⟨_, hexec, ?_⟩
    cases hp : o.performed with
    | false => exact ⟨rfl, fun _ => rfl, nofun⟩
    | true =>
      obtain ⟨hm, hops, hgr⟩ := finishAtom_spec (u := e) (d := d) hg
      rw [if_pos rfl]
      refine ⟨hm, nofun, fun _ => ⟨fun y hy => hid ▸ hops y hy, _, hgr, fun hs hn hd => ?_, rfl⟩⟩
      have hn' : ((atomValues o).map Prod.fst).Nodup := by
        rw [atomValues, List.map_map]
        exact hn.sublist (List.filter_sublist.map _)
      exact (returned_writeLoaded g hn' hd).of_same rfl rfl rfl rfl rfl rfl

end Sys2Proof.Machine
end

section
/-!
SUPPORT. Stores performed (O31): a store of no bytes at a barrier object.
-/
namespace Sys2Proof.Machine

/-! ## A store of no bytes

A team whose barrier object at offset 0 is named and complete (EXP = ARR = 1, with no check made yet), and a store to
scratchpad with one element of no bytes at offset 0. The element covers no byte, so that `plainSpad` holds of it; its
cell is the object's, and the completion check that follows the access advances the phase. -/

/-- The object at offset 0, which is named. -/
def ripeObject : BarObj := { off := 0, phases := [], lots := [], latent := none }

def ripeTeam : Team := { Probe.team 1 with objs := [ripeObject], spad := memWriteN [] 0 16 (2 ^ 16 + 2 ^ 32) }

/-- A store with one element of no bytes at offset 0. -/
def hollowStore : Op :=
  { id := 5, gid := 3, sid := 4, agent := 1, before := [], ctx := 0, grid := 1, team := ripeTeam.tid, core := 0, die := 0,
    tmpl := blankRec State.reset 0 .memoryUncorrectable 0 0#64 0#64, sup := false, kind := .store, acq := false, rel := false,
    scope := .grp, lt := 0, gindex := 0, harvest := none, elems := [mkElem 0 .scratch 0#64 none 0] }

def hollowState : State := { State.reset with teams := [ripeTeam], ops := [hollowStore] }

/-- The byte at offset 0 once the store is performed. -/
def hollowByte : Nat :=
  match exec (.storePerform 5 1#64) hollowState with
  | .next t => spadRead t ripeTeam.tid 0 1
  | _ => 0

theorem hollow_plain : plainSpad hollowState ripeTeam.tid 0 0 :=
  ⟨by decide +kernel, fun _ _ => .inr (Nat.zero_le _)⟩

/-- Refutes O31: an element of no bytes at a named object that is complete covers no byte, and the check that follows it
changes the object's bytes. -/
theorem not_storePerformed : ¬ Obligations.StorePerformed := by
  unfold Obligations.StorePerformed
  intro h
  obtain ⟨-, -, hscratch, -⟩ := h hollowState 5 1#64 hollowStore rfl rfl
  have hes : storeReady hollowState hollowStore 1#64 = [mkElem 0 .scratch 0#64 none 0] := by decide +kernel
  rw [hes] at hscratch
  have hspads : SpadsOk hollowState :=
    ⟨fun t ht => by
      obtain rfl := List.mem_singleton.mp ht
      decide +kernel, fun x hx => absurd hx List.not_mem_nil⟩
  obtain ⟨t, ht, -, -, hkept⟩ := hscratch ripeTeam hspads rfl
    (fun e he => by
      obtain rfl := List.mem_singleton.mp he
      exact ⟨rfl, hollow_plain⟩)
    (List.pairwise_singleton ..)
  have hzero := hkept 0 (by decide +kernel) fun e he => by
    obtain rfl := List.mem_singleton.mp he
    exact .inr (Nat.zero_le _)
  have hbyte : hollowByte = 1 := by decide +kernel
  rw [hollowByte, ht] at hbyte
  have hold : spadRead hollowState ripeTeam.tid 0 1 = 0 := by decide +kernel
  exact absurd (hbyte.symm.trans (hzero.trans hold)) (by decide)

end Sys2Proof.Machine
end

section
/-!
SUPPORT. Scratchpad storage: the bytes of a team that no granule handed away covers, and what an access to them leaves
(05 R110, 08 R165).
-/
namespace Sys2Proof.Machine

/-! ## Runs of bytes -/

theorem memWriteN_bytes (n : Nat) : ∀ (m : List Host.Cell) (a v : Nat), memWriteN m a n v = memWriteBytes m a (natToBytes n v) := by
  induction n with
  | zero => exact fun _ _ _ => rfl
  | succ n ih => exact fun m a v => ih _ _ _

theorem memRead_writeN {m : List Host.Cell} (h : memWf m = true) (a n v x : Nat) :
    memRead (memWriteN m a n v) x = if a ≤ x ∧ x < a + n then BitVec.ofNat 8 (v / 256 ^ (x - a)) else memRead m x := by
  rw [memWriteN_bytes, memRead_writeBytes _ _ _ h, natToBytes_length]
  split
  next hx => exact natToBytes_bytes n v (x - a) (by omega)
  next => rfl

theorem memReadN_congr {m m' : List Host.Cell} (n : Nat) : ∀ {a : Nat}, (∀ x, a ≤ x → x < a + n → memRead m x = memRead m' x) →
    memReadN m a n = memReadN m' a n := by
  induction n with
  | zero => exact fun _ => rfl
  | succ n ih =>
    intro a h
    rw [memReadN, memReadN, h a (Nat.le_refl _) (by omega), ih fun x h1 h2 => h x (by omega) (by omega)]

theorem memReadBytes_add (m : List Host.Cell) (j : Nat) : ∀ a k, memReadBytes m a (j + k) = memReadBytes m a j ++ memReadBytes m (a + j) k := by
  induction j with
  | zero => intro a k; simp [memReadBytes]
  | succ j ih =>
    intro a k
    rw [Nat.succ_add, memReadBytes, memReadBytes, ih, List.cons_append]
    congr 3
    omega

theorem bytesToNat_readBytes (m : List Host.Cell) (n : Nat) : ∀ a, bytesToNat (memReadBytes m a n) = memReadN m a n := by
  induction n with
  | zero => exact fun _ => rfl
  | succ n ih =>
    intro a
    have := ih (a + 1)
    simp only [bytesToNat] at this
    simp only [memReadBytes, bytesToNat, List.foldr_cons, memReadN, this]

theorem natToBytes_readN (m : List Host.Cell) (n : Nat) : ∀ a, natToBytes n (memReadN m a n) = memReadBytes m a n := by
  induction n with
  | zero => exact fun _ => rfl
  | succ n ih =>
    intro a
    have hb := (memRead m a).isLt
    have h1 : BitVec.ofNat 8 ((memRead m a).toNat + 256 * memReadN m (a + 1) n) = memRead m a := by
      apply BitVec.eq_of_toNat_eq
      simp only [BitVec.toNat_ofNat]
      omega
    have h2 : ((memRead m a).toNat + 256 * memReadN m (a + 1) n) / 256 = memReadN m (a + 1) n := by omega
    rw [memReadN, natToBytes, h1, h2, ih, memReadBytes]

/-- A byte of a piece of a value is a byte of the value. -/
theorem byte_of_piece (v lo off len x : Nat) (h1 : off ≤ lo) (h2 : lo ≤ x) (h3 : x < lo + len) :
    BitVec.ofNat 8 (v / 2 ^ (8 * (lo - off)) % 2 ^ (8 * len) / 256 ^ (x - lo)) = BitVec.ofNat 8 (v / 256 ^ (x - off)) := by
  apply BitVec.eq_of_toNat_eq
  have e256 : ∀ k : Nat, 256 ^ k = 2 ^ (8 * k) := fun k => by rw [Nat.pow_mul]
  have hsum : 8 * (lo - off) + 8 * (x - lo) = 8 * (x - off) := by omega
  have hlen : 8 * len = 8 * (x - lo) + 8 * (len - (x - lo)) := by omega
  have h8 : 8 * (len - (x - lo)) = 8 + 8 * (len - (x - lo) - 1) := by omega
  simp only [BitVec.toNat_ofNat, e256]
  rw [hlen, Nat.pow_add 2 (8 * (x - lo)), Nat.mod_mul_right_div_self, Nat.div_div_eq_div_mul, ← Nat.pow_add, hsum, h8, Nat.pow_add,
    Nat.mod_mul_right_mod]

/-! ## Where the bytes are -/

/-- Bytes that are not handed away are the team's own. -/
theorem spadPlace_here {s : State} {tid off n x : Nat} (h : handedAway s tid off n = false) (h1 : off ≤ x) (h2 : x < off + n) :
    spadPlace s tid x = (.inl tid, x) := by
  have hnone : s.handles.find? (fun h => h.parent == tid && decide (h.first * Config.granule ≤ x) &&
      decide (x < (h.first + h.count) * Config.granule)) = none := by
    rw [List.find?_eq_none]
    intro y hy
    have := List.any_eq_false.mp h y hy
    simp only [Bool.and_eq_true, beq_iff_eq, decide_eq_true_eq, not_and] at this ⊢
    intro h3
    have := this ⟨h3.1, by omega⟩
    omega
  rw [spadPlace, spadOwner, hnone]

/-- Part of a range that is not handed away is not. -/
theorem handedAway_sub {s : State} {tid off n a k : Nat} (h : handedAway s tid off n = false) (h1 : off ≤ a) (h2 : a + k ≤ off + n) :
    handedAway s tid a k = false := by
  rw [handedAway, List.any_eq_false] at h ⊢
  intro y hy
  have := h y hy
  simp only [Bool.and_eq_true, beq_iff_eq, decide_eq_true_eq, not_and] at this ⊢
  intro h3
  have := this ⟨h3.1, by omega⟩
  omega

theorem handedAway_handles {s t : State} (h : t.handles = s.handles) (tid off n : Nat) :
    handedAway t tid off n = handedAway s tid off n := by
  rw [handedAway, handedAway, h]

theorem teamOf_tid {s : State} {n : Nat} {t : Team} (h : teamOf s n = some t) : t.tid = n := by
  simpa using List.find?_some h

theorem teamOf_setTeam {s : State} {n : Nat} {t x : Team} (h : teamOf s n = some x) (ht : t.tid = n) :
    teamOf (setTeam s t) n = some t := by
  subst ht
  exact find_map_key Team.tid s.teams x t t.tid rfl h

theorem teamOf_setTeam_other {s : State} {t : Team} {m : Nat} (h : m ≠ t.tid) : teamOf (setTeam s t) m = teamOf s m :=
  find_map_other Team.tid s.teams t t.tid m rfl h

theorem updTeam_eq {s : State} {n : Nat} {t : Team} (h : teamOf s n = some t) (f : Team → Team) :
    updTeam s n f = setTeam s (f t) := by
  simp [updTeam, h]

theorem setTeam_setTeam (s : State) {a b : Team} (h : b.tid = a.tid) : setTeam (setTeam s a) b = setTeam s b := by
  simp only [setTeam, List.map_map]
  congr 1
  apply List.map_congr_left
  intro x _
  simp only [Function.comp]
  by_cases hx : x.tid = a.tid <;> simp [hx, h]

/-! ## Reading and writing them -/

theorem spadReadIn_here {s : State} {tid off n : Nat} {tm : Team} (h : handedAway s tid off n = false) (hn : 0 < n)
    (ht : teamOf s tid = some tm) : spadReadIn s tid off n = memReadN tm.spad off n := by
  rw [spadReadIn, spadPlace_here h (Nat.le_refl _) (by omega)]
  simp [ht]

theorem spadPutIn_here {s : State} {tid off n v : Nat} {tm : Team} (h : handedAway s tid off n = false) (hn : 0 < n)
    (ht : teamOf s tid = some tm) : spadPutIn s tid off n v = setTeam s { tm with spad := memWriteN tm.spad off n v } := by
  rw [spadPutIn, spadPlace_here h (Nat.le_refl _) (by omega)]
  exact updTeam_eq ht _

/-- Where run `j` of a range begins, and how long it is. -/
def runLo (off j : Nat) : Nat := max off (Config.granule * (off / Config.granule + j))
def runLen (off n j : Nat) : Nat :=
  min (off + n) (Config.granule * (off / Config.granule + j) + Config.granule) - runLo off j
def runCount (off n : Nat) : Nat := (off + n - 1) / Config.granule + 1 - off / Config.granule

theorem spadRuns_eq (off n : Nat) : spadRuns off n = (List.range (runCount off n)).map fun j => (runLo off j, runLen off n j) := rfl

/-- Every run lies in the range, and is not empty. -/
theorem run_in {off n j : Nat} (hn : 0 < n) (h : j < runCount off n) :
    off ≤ runLo off j ∧ runLo off j + runLen off n j ≤ off + n ∧ 0 < runLen off n j := by
  simp only [runCount, runLen, runLo, Config.granule] at *
  omega

theorem runs_read (m : List Host.Cell) (off n : Nat) (k : Nat) :
    ((List.range k).flatMap fun j => memReadBytes m (runLo off j) (runLen off n j)) =
      memReadBytes m off (min (off + n) (Config.granule * (off / Config.granule + k)) - off) := by
  induction k with
  | zero =>
    have : min (off + n) (Config.granule * (off / Config.granule + 0)) - off = 0 := by
      simp only [Config.granule]
      omega
    rw [this]
    rfl
  | succ k ih =>
    have e : min (off + n) (Config.granule * (off / Config.granule + (k + 1))) - off =
        (min (off + n) (Config.granule * (off / Config.granule + k)) - off) + runLen off n k := by
      simp only [runLen, runLo, Config.granule]
      omega
    rw [List.range_succ, List.flatMap_append, ih, e, memReadBytes_add, List.flatMap_cons, List.flatMap_nil, List.append_nil]
    by_cases hl : runLen off n k = 0
    · simp [hl, memReadBytes]
    · congr 2
      simp only [runLen, runLo, Config.granule] at *
      omega

/-- A range that is not handed away reads as the team's bytes. -/
theorem spadRead_here {s : State} {tid off n : Nat} {tm : Team} (h : handedAway s tid off n = false) (hn : 0 < n)
    (ht : teamOf s tid = some tm) : spadRead s tid off n = memReadN tm.spad off n := by
  rw [spadRead]
  split
  · exact spadReadIn_here h hn ht
  · have hruns : ((spadRuns off n).flatMap fun r => natToBytes r.2 (spadReadIn s tid r.1 r.2)) =
        (List.range (runCount off n)).flatMap fun j => memReadBytes tm.spad (runLo off j) (runLen off n j) := by
      rw [spadRuns_eq, List.flatMap_map]
      apply List.flatMap_congr
      intro j hj
      obtain ⟨h1, h2, h3⟩ := run_in hn (List.mem_range.mp hj)
      dsimp only
      rw [spadReadIn_here (handedAway_sub h h1 h2) h3 ht, natToBytes_readN]
    have hend : min (off + n) (Config.granule * (off / Config.granule + runCount off n)) - off = n := by
      simp only [runCount, Config.granule]
      omega
    rw [hruns, runs_read, hend, bytesToNat_readBytes]

/-- The bytes of `m` are those of `old`, but for the `n` bytes of `v` at `off`. -/
def Patched (m old : List Host.Cell) (off n v : Nat) : Prop :=
  memWf m = true ∧ ∀ x, memRead m x = if off ≤ x ∧ x < off + n then BitVec.ofNat 8 (v / 256 ^ (x - off)) else memRead old x

theorem Patched.read {m old : List Host.Cell} {off n v : Nat} (h : Patched m old off n v) : memReadN m off n = v % 256 ^ n :=
  memReadN_bytes m n off v fun j hj => by rw [h.2, if_pos (by omega), Nat.add_sub_cancel_left]

theorem Patched.other {m old : List Host.Cell} {off n v x : Nat} (h : Patched m old off n v) (hx : x < off ∨ off + n ≤ x) :
    memRead m x = memRead old x := by
  rw [h.2, if_neg (by omega)]

/-- How many bytes the first `k` runs cover. -/
def runsUpTo (off n k : Nat) : Nat := min (off + n) (Config.granule * (off / Config.granule + k)) - off

/-- One more run written. -/
theorem patched_run {old m : List Host.Cell} {off n k v : Nat} (h : Patched m old off (runsUpTo off n k) v) :
    Patched (memWriteN m (runLo off k) (runLen off n k) (v / 2 ^ (8 * (runLo off k - off)) % 2 ^ (8 * runLen off n k))) old off
      (runsUpTo off n (k + 1)) v := by
  refine ⟨memWf_writeN _ _ _ h.1, fun x => ?_⟩
  have hlo : off ≤ runLo off k := Nat.le_max_left _ _
  rw [memRead_writeN h.1, h.2]
  by_cases hx : runLo off k ≤ x ∧ x < runLo off k + runLen off n k
  · have hin : off ≤ x ∧ x < off + runsUpTo off n (k + 1) := by
      simp only [runsUpTo, runLen, runLo, Config.granule] at *
      omega
    rw [if_pos hx, if_pos hin, byte_of_piece v _ off _ x hlo hx.1 hx.2]
  · rw [if_neg hx]
    have hiff : (off ≤ x ∧ x < off + runsUpTo off n k) ↔ (off ≤ x ∧ x < off + runsUpTo off n (k + 1)) := by
      simp only [runsUpTo, runLen, runLo, Config.granule] at *
      omega
    simp only [hiff]

/-- The state once the first `k` runs are written. -/
def putRuns (s : State) (tid off n v k : Nat) : State :=
  (List.range k).foldl (fun s j => spadPutIn s tid (runLo off j) (runLen off n j)
    (v / 2 ^ (8 * (runLo off j - off)) % 2 ^ (8 * runLen off n j))) s

theorem putRuns_succ (s : State) (tid off n v k : Nat) : putRuns s tid off n v (k + 1) =
    spadPutIn (putRuns s tid off n v k) tid (runLo off k) (runLen off n k)
      (v / 2 ^ (8 * (runLo off k - off)) % 2 ^ (8 * runLen off n k)) := by
  rw [putRuns, List.range_succ, List.foldl_append]
  rfl

theorem runsUpTo_zero (off n : Nat) : runsUpTo off n 0 = 0 := by
  simp only [runsUpTo, Config.granule]
  omega

theorem runsUpTo_all {off n : Nat} (hn : 0 < n) : runsUpTo off n (runCount off n) = n := by
  simp only [runsUpTo, runCount, Config.granule]
  omega

theorem patched_none {m : List Host.Cell} (h : memWf m = true) (off v : Nat) : Patched m m off 0 v :=
  ⟨h, fun x => by rw [if_neg (by omega)]⟩

theorem putRuns_here {s : State} {tid off n v : Nat} {tm : Team} (h : handedAway s tid off n = false) (hn : 0 < n)
    (ht : teamOf s tid = some tm) (hw : memWf tm.spad = true) (k : Nat) (hk : k + 1 ≤ runCount off n) :
    ∃ m, putRuns s tid off n v (k + 1) = setTeam s { tm with spad := m } ∧ Patched m tm.spad off (runsUpTo off n (k + 1)) v := by
  have htid := teamOf_tid ht
  obtain ⟨h1, h2, h3⟩ := run_in hn (show k < runCount off n from hk)
  induction k with
  | zero =>
    have hp := patched_none hw off v
    rw [← runsUpTo_zero off n] at hp
    exact ⟨_, (putRuns_succ ..).trans (spadPutIn_here (handedAway_sub h h1 h2) h3 ht), patched_run hp⟩
  | succ k ih =>
    obtain ⟨h1', h2', h3'⟩ := run_in hn (show k < runCount off n by omega)
    obtain ⟨m, he, hp⟩ := ih (by omega) h1' h2' h3'
    have ht' : teamOf (setTeam s { tm with spad := m }) tid = some { tm with spad := m } := teamOf_setTeam ht htid
    have hh : handedAway (setTeam s { tm with spad := m }) tid (runLo off (k + 1)) (runLen off n (k + 1)) = false :=
      handedAway_sub h h1 h2
    refine ⟨_, ?_, patched_run hp⟩
    rw [putRuns_succ, he, spadPutIn_here hh h3 ht', setTeam_setTeam]
    rfl

/-- A range that is not handed away is written in the team's bytes. -/
theorem spadPut_here {s : State} {tid off n : Nat} {tm : Team} (h : handedAway s tid off n = false) (hn : 0 < n)
    (ht : teamOf s tid = some tm) (hw : memWf tm.spad = true) (v : Nat) :
    ∃ m, spadPut s tid off n v = setTeam s { tm with spad := m } ∧ Patched m tm.spad off n v := by
  rw [spadPut]
  split
  · exact ⟨_, spadPutIn_here h hn ht, memWf_writeN _ _ _ hw, memRead_writeN hw off n v⟩
  · have hcount : runCount off n - 1 + 1 = runCount off n := by
      simp only [runCount, Config.granule]
      omega
    obtain ⟨m, he, hp⟩ := putRuns_here (v := v) h hn ht hw (runCount off n - 1) (by omega)
    rw [hcount] at he hp
    rw [runsUpTo_all hn] at hp
    refine ⟨m, ?_, hp⟩
    rw [← he, spadRuns_eq, List.foldl_map]
    rfl

end Sys2Proof.Machine
end

section
/-!
SUPPORT. An access to scratchpad that touches no named barrier object: bytes written, and nothing named (08 R165, log 53).
-/
namespace Sys2Proof.Machine

/-! ## The objects of a place -/

/-- A cell of an access lies in granules that are not handed away. -/
theorem cell_here {s : State} {tid off n c : Nat} (h : handedAway s tid off n = false) (hn : 0 < n) (hc : c ∈ cellsOf off n) :
    handedAway s tid c 16 = false ∧ c < off + n ∧ off < c + 16 ∧ c % 16 = 0 := by
  simp only [cellsOf, List.mem_map, List.mem_range] at hc
  obtain ⟨k, hk, rfl⟩ := hc
  have h1 : 16 * (off / 16 + k) < off + n := by omega
  have h2 : off < 16 * (off / 16 + k) + 16 := by omega
  refine ⟨?_, h1, h2, Nat.mul_mod_right ..⟩
  rw [handedAway, List.any_eq_false] at h ⊢
  intro y hy
  have := h y hy
  simp only [Bool.and_eq_true, beq_iff_eq, decide_eq_true_eq, not_and] at this ⊢
  simp only [Config.granule] at this ⊢
  generalize off / 16 + k = q at *
  intro h3
  have h4 : y.first * 256 ≤ q := by omega
  have h5 := this ⟨h3.1, by omega⟩
  generalize y.first + y.count = w at *
  clear this h3
  omega

theorem spadPlace_cell {s : State} {tid c : Nat} (h : handedAway s tid c 16 = false) : spadPlace s tid c = (.inl tid, c) :=
  spadPlace_here h (Nat.le_refl _) (by omega)

theorem objsAt_team {s : State} {tid : Nat} {tm : Team} (h : teamOf s tid = some tm) : objsAt s (.inl tid) = tm.objs := by
  simp [objsAt, h]

theorem named_here {s : State} {tid c : Nat} {tm : Team} (h : handedAway s tid c 16 = false) (ht : teamOf s tid = some tm) :
    named s tid c = isNamed tm.objs c := by
  rw [named, spadPlace_cell h, objsAt_team ht]

/-- Two lists of objects name the same offsets. -/
def SameNames (a b : List BarObj) : Prop := ∀ x, isNamed a x = isNamed b x

/-- Objects at an offset where none is named may go. -/
theorem sameNames_drop {l : List BarObj} {c : Nat} (h : isNamed l c = false) : SameNames (l.filter (·.off != c)) l := by
  intro x
  rw [Bool.eq_iff_iff]
  simp only [isNamed, List.any_eq_true, List.mem_filter, Bool.and_eq_true, bne_iff_ne, beq_iff_eq]
  refine ⟨fun ⟨o, ⟨ho, _⟩, e⟩ => ⟨o, ho, e⟩, fun ⟨o, ho, e⟩ => ⟨o, ⟨ho, fun hc => ?_⟩, e⟩⟩
  rw [isNamed, List.any_eq_false] at h
  exact h o ho (by simp [hc, e.2])

/-- An object that is latent names nothing. -/
theorem sameNames_latent {l l' : List BarObj} (h : SameNames l' l) (c v : Nat) :
    SameNames ({ off := c, phases := [], lots := [], latent := some v } :: l') l := by
  intro x
  rw [← h x]
  simp [isNamed]

/-- After an access, a cell where no object is named holds at most a latent one. -/
theorem afterAccess_latent {s : State} {tid c : Nat} {tm : Team} (h : handedAway s tid c 16 = false) (ht : teamOf s tid = some tm)
    (hno : isNamed tm.objs c = false) (raw : Nat) (g : Nat → Nat) :
    afterAccess s tid c raw g = (s, []) ∨
    ∃ O, SameNames O tm.objs ∧ afterAccess s tid c raw g = (setTeam s { tm with objs := O }, []) := by
  have hname : named s tid c = false := (named_here h ht).trans hno
  have hset : ∀ l, setObjs s (.inl tid) l = setTeam s { tm with objs := l } := fun l => updTeam_eq ht _
  rw [afterAccess, if_neg (by simp [hname]), spadPlace_cell h]
  dsimp only
  rw [objsAt_team ht]
  split
  · split
    · exact .inl rfl
    · exact .inr ⟨_, sameNames_drop hno, by rw [hset]⟩
  · exact .inr ⟨_, sameNames_latent (sameNames_drop hno) c _, by rw [hset]⟩

/-! ## The access -/

/-- One step of the checks after an access. -/
def cellStep (s : State) (tid off n : Nat) (f : Nat → Nat) (r : State × List (Nat × Nat)) (c : Nat) : State × List (Nat × Nat) :=
  let q := afterAccess r.1 tid c (spadRead s tid c 16) (cellAfter c off n f)
  (q.1, r.2 ++ q.2)

theorem spadUpdate_eq (s : State) (tid off n : Nat) (f : Nat → Nat) : spadUpdate s tid off n f =
    (cellsOf off n).foldl (cellStep s tid off n f) (spadPut s tid off n (f (spadRead s tid off n)), []) := rfl

/-- The team's bytes are written, and its objects name what they named. -/
def Stored (s : State) (tm : Team) (m : List Host.Cell) (t : State) : Prop :=
  ∃ O, SameNames O tm.objs ∧ t = setTeam s { tm with spad := m, objs := O }

theorem cellStep_stored {s s0 : State} {tid off n c : Nat} {f : Nat → Nat} {tm : Team} {m : List Host.Cell} {t : State}
    (ht : teamOf s tid = some tm) (h : handedAway s tid c 16 = false) (hno : isNamed tm.objs c = false) (hs : Stored s tm m t) :
    ∃ t', cellStep s0 tid off n f (t, []) c = (t', []) ∧ Stored s tm m t' := by
  obtain ⟨O, hO, rfl⟩ := hs
  have htid := teamOf_tid ht
  have ht' : teamOf (setTeam s { tm with spad := m, objs := O }) tid = some { tm with spad := m, objs := O } :=
    teamOf_setTeam ht htid
  rcases afterAccess_latent (s := setTeam s { tm with spad := m, objs := O }) h ht' ((hO c).trans hno)
    (spadRead s0 tid c 16) (cellAfter c off n f) with he | ⟨O', hO', he⟩
  · exact ⟨_, by rw [cellStep, he]; rfl, O, hO, rfl⟩
  · refine ⟨_, by rw [cellStep, he]; rfl, O', fun x => (hO' x).trans (hO x), ?_⟩
    exact setTeam_setTeam s rfl

theorem cells_stored {s s0 : State} {tid off n : Nat} {f : Nat → Nat} {tm : Team} {m : List Host.Cell} (ht : teamOf s tid = some tm)
    (cs : List Nat) (hc : ∀ c ∈ cs, handedAway s tid c 16 = false ∧ isNamed tm.objs c = false) :
    ∀ t, Stored s tm m t → ∃ t', cs.foldl (cellStep s0 tid off n f) (t, []) = (t', []) ∧ Stored s tm m t' := by
  induction cs with
  | nil => exact fun t h => ⟨t, rfl, h⟩
  | cons c cs ih =>
    intro t h
    obtain ⟨t1, e1, h1⟩ := cellStep_stored (s0 := s0) (off := off) (n := n) (f := f) ht (hc c (by simp)).1 (hc c (by simp)).2 h
    obtain ⟨t2, e2, h2⟩ := ih (fun x hx => hc x (by simp [hx])) t1 h1
    exact ⟨t2, by rw [List.foldl_cons, e1, e2], h2⟩

/-- An access to plain bytes writes them, and makes no check. -/
theorem spadUpdate_plain {s : State} {tid off n : Nat} {tm : Team} (hp : plainSpad s tid off n) (hn : 0 < n)
    (ht : teamOf s tid = some tm) (hw : memWf tm.spad = true) (f : Nat → Nat) :
    ∃ m t, spadUpdate s tid off n f = (t, []) ∧ Patched m tm.spad off n (f (spadRead s tid off n)) ∧ Stored s tm m t := by
  obtain ⟨hh, hnamed⟩ := hp
  obtain ⟨m, he, hm⟩ := spadPut_here hh hn ht hw (f (spadRead s tid off n))
  have hcells : ∀ c ∈ cellsOf off n, handedAway s tid c 16 = false ∧ isNamed tm.objs c = false := by
    intro c hc
    obtain ⟨h1, h2, h3, -⟩ := cell_here hh hn hc
    refine ⟨h1, ?_⟩
    rw [← named_here h1 ht]
    by_contra hne
    have := hnamed c (by simpa using hne)
    omega
  obtain ⟨t, e, hs⟩ := cells_stored (s0 := s) (f := f) ht (cellsOf off n) hcells _ ⟨tm.objs, fun _ => rfl, he⟩
  exact ⟨m, t, by rw [spadUpdate_eq, e], hm, hs⟩

theorem stored_teamOf {s t : State} {tid : Nat} {tm : Team} {m : List Host.Cell} (ht : teamOf s tid = some tm) (h : Stored s tm m t) :
    ∃ O, SameNames O tm.objs ∧ teamOf t tid = some { tm with spad := m, objs := O } := by
  obtain ⟨O, hO, rfl⟩ := h
  have htid := teamOf_tid ht
  exact ⟨O, hO, teamOf_setTeam ht htid⟩

theorem stored_rest {s t : State} {tm : Team} {m : List Host.Cell} (h : Stored s tm m t) : { t with teams := s.teams } = s := by
  obtain ⟨O, -, rfl⟩ := h
  rfl

/-- What reads plain bytes and names after such an access. -/
theorem stored_handles {s t : State} {tm : Team} {m : List Host.Cell} (h : Stored s tm m t) : t.handles = s.handles := by
  obtain ⟨O, -, rfl⟩ := h
  rfl

/-- Places depend on the handles, and on the size of each team's own region. -/
theorem spadOwner_congr {s t : State} (h : t.handles = s.handles)
    (ht : ∀ c, (teamOf t c).map Team.spadSize = (teamOf s c).map Team.spadSize) (n : Nat) :
    ∀ tid off, spadOwner t n tid off = spadOwner s n tid off := by
  induction n with
  | zero => exact fun _ _ => rfl
  | succ n ih =>
    intro tid off
    rw [spadOwner, spadOwner, h]
    split
    · rfl
    · dsimp only
      split
      · rfl
      · rw [ht, ih]

theorem spadPlace_congr {s t : State} (h : t.handles = s.handles)
    (ht : ∀ c, (teamOf t c).map Team.spadSize = (teamOf s c).map Team.spadSize) (tid off : Nat) :
    spadPlace t tid off = spadPlace s tid off := by
  rw [spadPlace, spadPlace, h]
  exact spadOwner_congr h ht _ _ _

/-- What is named stands where the objects of the one team that changed name the same. -/
theorem named_stored {s t : State} {tid : Nat} {tm : Team} {m : List Host.Cell} (ht : teamOf s tid = some tm)
    (h : Stored s tm m t) (k x : Nat) : named t k x = named s k x := by
  obtain ⟨O, hO, rfl⟩ := h
  have htid := teamOf_tid ht
  have hteam : teamOf (setTeam s { tm with spad := m, objs := O }) tid = some { tm with spad := m, objs := O } :=
    teamOf_setTeam ht htid
  have hother : ∀ c, c ≠ tid → teamOf (setTeam s { tm with spad := m, objs := O }) c = teamOf s c :=
    fun c hc => teamOf_setTeam_other (by rw [← htid] at hc; exact hc)
  have hplace : spadPlace (setTeam s { tm with spad := m, objs := O }) k x = spadPlace s k x := by
    refine spadPlace_congr (s := s) (setTeam_handles ..) (fun c => ?_) k x
    by_cases hc : c = tid
    · rw [hc, hteam, ht]
      rfl
    · rw [hother c hc]
  rw [named, named, hplace]
  obtain ⟨p, y⟩ := spadPlace s k x
  cases p with
  | inr hid => rfl
  | inl c =>
    by_cases hc : c = tid
    · rw [hc, objsAt_team hteam, objsAt_team ht]
      exact hO y
    · simp only [objsAt, hother c hc]

theorem stored_plain {s t : State} {tid off n : Nat} {tm : Team} {m : List Host.Cell} (ht : teamOf s tid = some tm)
    (h : Stored s tm m t) (hp : plainSpad s tid off n) : plainSpad t tid off n := by
  obtain ⟨hh, hnamed⟩ := hp
  exact ⟨(handedAway_handles (stored_handles h) ..).trans hh, fun x hx => hnamed x (named_stored ht h tid x ▸ hx)⟩

end Sys2Proof.Machine
end

section
/-!
SUPPORT. The completion check of a barrier object (08 R166): the loop ends, what it leaves, and whom it wakes.
-/
namespace Sys2Proof.Machine

/-! ## The object's fields -/

/-- Every field lies within its width (08 R165). -/
structure Bar.Fits (b : Bar) : Prop where
  phase : b.phase < 2 ^ 16
  exp : b.exp < 2 ^ 16
  arr : b.arr < 2 ^ 16
  ahead : b.ahead < 2 ^ 13
  expbytes : b.expbytes < 2 ^ 32
  landed : b.landed < 2 ^ 32

theorem Bar.ofNat_fits (x : Nat) : (Bar.ofNat x).Fits := by
  constructor <;> simp only [Bar.ofNat] <;> exact Nat.mod_lt _ (by decide)

theorem Bar.toNat_lt (b : Bar) : b.toNat < 2 ^ 128 := by
  have h : ∀ c : Bool, bitOf c ≤ 1 := by decide
  have h1 := h b.ovr
  have h2 := h b.trapovr
  have h3 := h b.carry
  simp only [Bar.toNat]
  omega

theorem testBit_digit (n k lo hi : Nat) (c : Bool) (h : n = lo + 2 ^ k * (bitOf c + 2 * hi)) (hlo : lo < 2 ^ k) :
    n.testBit k = c := by
  rw [Nat.testBit_eq_decide_div_mod_eq, h, Nat.add_mul_div_left _ _ (Nat.two_pow_pos k), Nat.div_eq_of_lt hlo]
  cases c <;> simp [bitOf] <;> omega

/-- An object whose fields fit is read back from its bytes. -/
theorem Bar.ofNat_toNat {b : Bar} (h : b.Fits) : Bar.ofNat b.toNat = b := by
  obtain ⟨h1, h2, h3, h4, h5, h6⟩ := h
  have hb : ∀ c : Bool, bitOf c ≤ 1 := by decide
  have b1 := hb b.ovr
  have b2 := hb b.trapovr
  have b3 := hb b.carry
  have t1 : b.toNat.testBit 61 = b.ovr := by
    refine testBit_digit _ 61 (b.phase + 2 ^ 16 * b.exp + 2 ^ 32 * b.arr + 2 ^ 48 * b.ahead)
      (bitOf b.trapovr + 2 * bitOf b.carry + 4 * b.expbytes + 2 ^ 34 * b.landed) _ ?_ (by omega)
    simp only [Bar.toNat]
    omega
  have t2 : b.toNat.testBit 62 = b.trapovr := by
    refine testBit_digit _ 62 (b.phase + 2 ^ 16 * b.exp + 2 ^ 32 * b.arr + 2 ^ 48 * b.ahead + 2 ^ 61 * bitOf b.ovr)
      (bitOf b.carry + 2 * b.expbytes + 2 ^ 33 * b.landed) _ ?_ (by omega)
    simp only [Bar.toNat]
    omega
  have t3 : b.toNat.testBit 63 = b.carry := by
    refine testBit_digit _ 63 (b.phase + 2 ^ 16 * b.exp + 2 ^ 32 * b.arr + 2 ^ 48 * b.ahead + 2 ^ 61 * bitOf b.ovr +
      2 ^ 62 * bitOf b.trapovr) (b.expbytes + 2 ^ 32 * b.landed) _ ?_ (by omega)
    simp only [Bar.toNat]
    omega
  rw [Bar.ofNat, t1, t2, t3]
  cases b
  simp only [Bar.toNat, Bar.mk.injEq, true_and, and_true] at *
  omega

theorem Bar.Fits.advance {b : Bar} (h : b.Fits) : b.advance.Fits := by
  obtain ⟨h1, h2, h3, h4, h5, h6⟩ := h
  constructor <;> simp only [Bar.advance]
  · exact Nat.mod_lt _ (by decide)
  · exact h2
  · omega
  · decide
  · exact h5
  · split <;> omega

/-! ## The loop -/

theorem Bar.ripe_iff (b : Bar) : b.ripe = true ↔ ¬ (b.exp = 0 ∧ b.expbytes = 0) ∧ b.exp ≤ b.arr ∧ b.expbytes ≤ b.landed := by
  simp [Bar.ripe, Bar.uninit, and_assoc]
  omega

/-- What the loop leaves, once it has ended. -/
theorem loop_settles (n : Nat) : ∀ x : Checked, (x.loop n).bar.ripe = false →
    ∃ ps, (x.loop n).passed = x.passed ++ ps ∧ Settles x.bar (x.loop n).bar ps := by
  induction n with
  | zero =>
    intro x h
    refine ⟨[], by simp [Checked.loop], .stop _ ?_⟩
    have := mt (Bar.ripe_iff x.bar).mpr (by simpa [Checked.loop] using h)
    omega
  | succ n ih =>
    intro x h
    rw [Checked.loop] at h ⊢
    by_cases hr : x.bar.ripe = true
    · rw [if_pos hr] at h ⊢
      obtain ⟨ps, hps, hs⟩ := ih _ h
      obtain ⟨h1, h2, h3⟩ := (Bar.ripe_iff x.bar).mp hr
      refine ⟨x.bar.phase :: ps, ?_, .turn _ _ _ h1 h2 h3 hs⟩
      rw [hps]
      simp [Checked.turn]
    · rw [if_neg hr]
      have := mt (Bar.ripe_iff x.bar).mpr hr
      exact ⟨[], by simp, .stop _ (by omega)⟩

/-- With no arrivals expected each turn uses up landed bytes. -/
theorem loop_ends_bytes (n : Nat) : ∀ x : Checked, x.bar.exp = 0 → x.bar.landed < n → (x.loop n).bar.ripe = false := by
  induction n with
  | zero => exact fun x _ h => absurd h (Nat.not_lt_zero _)
  | succ n ih =>
    intro x he hl
    rw [Checked.loop]
    by_cases hr : x.bar.ripe = true
    · rw [if_pos hr]
      obtain ⟨h1, h2, h3⟩ := (Bar.ripe_iff x.bar).mp hr
      refine ih _ he ?_
      simp only [Checked.turn, Bar.advance]
      split <;> omega
    · rw [if_neg hr]
      simpa using hr

/-- With arrivals expected two turns use up ARR and AHEAD. -/
theorem loop_ends_arrivals (n : Nat) (x : Checked) (he : x.bar.exp ≠ 0) : (x.loop (n + 3)).bar.ripe = false := by
  have hstop : ∀ (m : Nat) (y : Checked), y.bar.ripe = false → y.loop m = y := by
    intro m y hy
    cases m <;> simp [Checked.loop, hy]
  by_cases h1 : x.bar.ripe = true
  · by_cases h2 : x.turn.bar.ripe = true
    · have h3 : x.turn.turn.bar.ripe = false := by
        have hexp : x.turn.turn.bar.exp = x.bar.exp := rfl
        have harr : x.turn.turn.bar.arr = 0 := rfl
        rw [← Bool.not_eq_true, Bar.ripe_iff, hexp, harr]
        omega
      simp only [Checked.loop, h1, h2, if_true]
      simp [h3]
    · rw [Bool.not_eq_true] at h2
      rw [Checked.loop, if_pos h1, hstop _ _ h2, h2]
  · rw [Bool.not_eq_true] at h1
    rw [hstop _ _ h1, h1]

/-- The check settles its object. -/
theorem settle_settles (b : Bar) (o : BarObj) : Settles b (settle b o).bar (settle b o).passed := by
  have hend : (settle b o).bar.ripe = false := by
    rw [settle]
    by_cases he : b.exp = 0
    · exact loop_ends_bytes _ _ he (Nat.lt_add_of_pos_right (by decide))
    · exact loop_ends_arrivals (b.landed + 1) _ he
  obtain ⟨ps, hps, hs⟩ := loop_settles _ _ hend
  rw [settle, hps, List.nil_append]
  exact hs

theorem Settles.fits {b c : Bar} {ps : List Nat} (h : Settles b c ps) (hb : b.Fits) : c.Fits := by
  induction h with
  | stop => exact hb
  | turn b c ps _ _ _ _ ih => exact ih hb.advance

theorem Settles.nil {b c : Bar} (h : Settles b c []) : c = b := by
  cases h
  rfl

end Sys2Proof.Machine
end

section
/-!
SUPPORT. The splits that a completion check wakes, and the rest of the machine, which stands (08 R170).
-/
namespace Sys2Proof.Machine

/-! ## Waking changes no register -/

/-- A group whose splits' states may have changed, and its LBASE. -/
structure SameRegs (g g' : Group) : Prop where
  gid : g'.gid = g.gid
  team : g'.team = g.team
  grid : g'.grid = g.grid
  core : g'.core = g.core
  place : g'.place = g.place
  repro : g'.repro = g.repro
  vregs : g'.vregs = g.vregs
  oregs : g'.oregs = g.oregs
  sregs : g'.sregs = g.sregs
  status : g'.status = g.status
  srctr : g'.srctr = g.srctr
  sids : g'.splits.map Split.sid = g.splits.map Split.sid
  pcs : g'.splits.map Split.pc = g.splits.map Split.pc

theorem SameRegs.refl (g : Group) : SameRegs g g := ⟨rfl, rfl, rfl, rfl, rfl, rfl, rfl, rfl, rfl, rfl, rfl, rfl, rfl⟩

theorem SameRegs.trans {a b c : Group} (h : SameRegs a b) (k : SameRegs b c) : SameRegs a c :=
  ⟨k.gid.trans h.gid, k.team.trans h.team, k.grid.trans h.grid, k.core.trans h.core, k.place.trans h.place, k.repro.trans h.repro,
   k.vregs.trans h.vregs, k.oregs.trans h.oregs, k.sregs.trans h.sregs, k.status.trans h.status, k.srctr.trans h.srctr,
   k.sids.trans h.sids, k.pcs.trans h.pcs⟩

/-- From `s` to `t` only splits of groups have been woken, LBASEs raised and L1s discarded. -/
structure Woke (s t : State) : Prop where
  rest : { t with groups := s.groups, cores := s.cores } = s
  gids : t.groups.map Group.gid = s.groups.map Group.gid
  regs : ∀ n, (groupOf s n = none ∧ groupOf t n = none) ∨
    ∃ g g', groupOf s n = some g ∧ groupOf t n = some g' ∧ SameRegs g g'

theorem Woke.refl (s : State) : Woke s s := by
  refine ⟨rfl, rfl, fun n => ?_⟩
  cases h : groupOf s n with
  | none => exact .inl ⟨rfl, rfl⟩
  | some g => exact .inr ⟨g, g, rfl, rfl, .refl g⟩

theorem Woke.trans {a b c : State} (h : Woke a b) (k : Woke b c) : Woke a c := by
  refine ⟨?_, k.gids.trans h.gids, fun n => ?_⟩
  · have h1 := h.rest
    have h2 := k.rest
    rw [← h1]
    exact congrArg (fun x : State => { x with groups := a.groups, cores := a.cores }) h2
  · rcases h.regs n with ⟨h1, h2⟩ | ⟨g, g1, h1, h2, h3⟩
    · rcases k.regs n with ⟨_, k2⟩ | ⟨x, _, k1, _⟩
      · exact .inl ⟨h1, k2⟩
      · rw [h2] at k1
        cases k1
    · rcases k.regs n with ⟨k1, _⟩ | ⟨x, g2, k1, k2, k3⟩
      · rw [h2] at k1
        cases k1
      · rw [h2] at k1
        cases k1
        exact .inr ⟨g, g2, h1, k2, h3.trans k3⟩

theorem Woke.group {s t : State} (h : Woke s t) {n : Nat} {g : Group} (hg : groupOf s n = some g) :
    ∃ g', groupOf t n = some g' ∧ SameRegs g g' := by
  rcases h.regs n with ⟨h1, -⟩ | ⟨x, g', h1, h2, h3⟩
  · rw [hg] at h1
    cases h1
  · rw [hg] at h1
    cases h1
    exact ⟨g', h2, h3⟩

/-- No two splits of a group have one number. -/
def SidsOk (s : State) : Prop := ∀ n g, groupOf s n = some g → (g.splits.map Split.sid).Nodup

theorem SidsOk.of_ids {s : State} (h : IdsOk s) : SidsOk s :=
  fun _ g hg => (h.splits g (List.mem_of_find?_eq_some hg)).1

theorem Woke.sidsOk {s t : State} (h : Woke s t) (hs : SidsOk s) : SidsOk t := by
  intro n g hg
  rcases h.regs n with ⟨-, h2⟩ | ⟨x, g', h1, h2, h3⟩
  · rw [hg] at h2
    cases h2
  · rw [hg] at h2
    cases h2
    rw [h3.sids]
    exact hs n x h1

theorem map_gid_setGroup (s : State) (g : Group) : (setGroup s g).groups.map Group.gid = s.groups.map Group.gid := by
  simp only [setGroup, List.map_map]
  apply List.map_congr_left
  intro x _
  simp only [Function.comp]
  split
  next h => exact h.symm
  next => rfl

theorem woke_setGroup {s : State} {n : Nat} {g g' : Group} (hg : groupOf s n = some g) (h : SameRegs g g') : Woke s (setGroup s g') := by
  have hgid := groupOf_gid hg
  refine ⟨rfl, map_gid_setGroup s g', fun m => ?_⟩
  by_cases hm : m = n
  · rw [hm]
    exact .inr ⟨g, g', hg, groupOf_setGroup hg (h.gid.trans hgid), h⟩
  · have hne : m ≠ g'.gid := fun e => hm (e.trans (h.gid.trans hgid))
    rw [groupOf_setGroup_other hne]
    exact (Woke.refl s).regs m

theorem woke_acquireDev (s : State) (c : Nat) : Woke s (acquireDev s c) := ⟨rfl, rfl, (Woke.refl s).regs⟩

/-- In a list where no two splits have one number, replacing one by its like keeps what `f` reads of them. -/
theorem map_setSplit {β : Type} (f : Split → β) {g : Group} {p q : Split} (hn : (g.splits.map Split.sid).Nodup)
    (hp : p ∈ g.splits) (hs : q.sid = p.sid) (hf : f q = f p) : (setSplit g q).splits.map f = g.splits.map f := by
  simp only [setSplit, List.map_map]
  apply List.map_congr_left
  intro x hx
  simp only [Function.comp]
  split
  next h =>
    have : x = p := List.inj_on_of_nodup_map hn hx hp (h.trans hs)
    rw [this, hf]
  next => rfl

theorem sameRegs_setSplit {g : Group} {p q : Split} (hn : (g.splits.map Split.sid).Nodup) (hp : p ∈ g.splits) (hs : q.sid = p.sid)
    (hpc : q.pc = p.pc) : SameRegs g (setSplit g q) :=
  ⟨rfl, rfl, rfl, rfl, rfl, rfl, rfl, rfl, rfl, rfl, rfl, map_setSplit Split.sid hn hp hs hs, map_setSplit Split.pc hn hp hs hpc⟩

/-- A split's state replaced. -/
theorem woke_updSplit {s : State} (hs : SidsOk s) (gid sid : Nat) (f : Split → Split) (h1 : ∀ q, (f q).sid = q.sid)
    (h2 : ∀ q, (f q).pc = q.pc) : Woke s (updSplit s gid sid f) := by
  cases hg : groupOf s gid with
  | none =>
    have e : updSplit s gid sid f = s := by simp [updSplit, updGroup, hg]
    rw [e]
    exact .refl s
  | some g =>
    cases hp : splitOf g sid with
    | none =>
      have e : updSplit s gid sid f = setGroup s g := by simp [updSplit, updGroup, hg, hp]
      rw [e]
      exact woke_setGroup hg (.refl g)
    | some p =>
      rw [updSplit_eq hg hp]
      exact woke_setGroup hg (sameRegs_setSplit (hs _ _ hg) (List.mem_of_find?_eq_some hp) (h1 p) (h2 p))

theorem sameRegs_raiseLbase (g : Group) (w : Option Nat) : SameRegs g (raiseLbase g w) := by
  unfold raiseLbase
  split
  · split
    · exact ⟨rfl, rfl, rfl, rfl, rfl, rfl, rfl, rfl, rfl, rfl, rfl, rfl, rfl⟩
    · exact .refl g
  · exact .refl g

theorem woke_goOnPhase {s : State} (hs : SidsOk s) (gid sid : Nat) (lt : Option Nat) (dev : Bool) :
    Woke s (goOnPhase s gid sid lt dev) := by
  unfold goOnPhase
  split
  · exact .refl s
  next g hg =>
    have h1 := woke_setGroup hg (sameRegs_raiseLbase g lt)
    have h2 := h1.trans (woke_updSplit (h1.sidsOk hs) gid sid (fun q => { q with state := .ready }) (fun _ => rfl) fun _ => rfl)
    dsimp only
    split
    · exact h2.trans (woke_acquireDev ..)
    · exact h2

/-- What a split that waits on a phase waits for, once the phase's harvest is to come between. -/
def awaitHarvest (key : Nat × Nat) (lt : Option Nat) (q : Split) : Split :=
  match q.state with
  | .waitPhase off ph _ => { q with state := .waitPhase off ph (some { key, lt }) }
  | _ => q

theorem awaitHarvest_keeps (key : Nat × Nat) (lt : Option Nat) (q : Split) :
    (awaitHarvest key lt q).sid = q.sid ∧ (awaitHarvest key lt q).pc = q.pc := by
  unfold awaitHarvest
  split <;> exact ⟨rfl, rfl⟩

theorem wakeSplit_cases (s : State) (gid sid : Nat) (o : BarObj) (p : Nat) :
    wakeSplit s gid sid o p = s ∨ wakeSplit s gid sid o p = goOnPhase s gid sid (o.info p).lt (o.info p).dev ∨
    ∃ g key, groupOf s gid = some g ∧ g.repro = true ∧
      wakeSplit s gid sid o p = updSplit s gid sid (awaitHarvest key (o.info p).lt) := by
  unfold wakeSplit
  cases hg : groupOf s gid with
  | none => exact .inl rfl
  | some g =>
    right
    dsimp only
    split
    · exact .inl rfl
    next key hkey =>
      right
      refine ⟨g, key, rfl, ?_, rfl⟩
      cases hr : g.repro with
      | true => rfl
      | false => simp [hr] at hkey

theorem woke_wakeSplit {s : State} (hs : SidsOk s) (gid sid : Nat) (o : BarObj) (p : Nat) : Woke s (wakeSplit s gid sid o p) := by
  rcases wakeSplit_cases s gid sid o p with h | h | ⟨g, key, -, -, h⟩
  · rw [h]
    exact .refl s
  · rw [h]
    exact woke_goOnPhase hs ..
  · rw [h]
    exact woke_updSplit hs _ _ _ (fun q => (awaitHarvest_keeps ..).1) fun q => (awaitHarvest_keeps ..).2

/-! ## One waiting split -/

/-- Split `sid` of group `gid`, which is of no reproducible grid, is in state `st`. -/
def SplitAt (s : State) (gid sid : Nat) (st : SplitState) : Prop :=
  ∃ g p, groupOf s gid = some g ∧ g.repro = false ∧ splitOf g sid = some p ∧ p.state = st

theorem splitAt_setGroup {s : State} {gid sid : Nat} {st : SplitState} {n : Nat} {x g' : Group} (h : SplitAt s gid sid st)
    (hx : groupOf s n = some x) (hn : g'.gid = n) (hr : g'.repro = x.repro)
    (hk : n = gid → ∀ p, splitOf x sid = some p → ∃ p', splitOf g' sid = some p' ∧ p'.state = p.state) :
    SplitAt (setGroup s g') gid sid st := by
  obtain ⟨g, p, hg, hrep, hp, hst⟩ := h
  by_cases hm : gid = n
  · subst hm
    rw [hg] at hx
    cases hx
    obtain ⟨p', hp', hst'⟩ := hk rfl p hp
    exact ⟨g', p', groupOf_setGroup hg hn, hr.trans hrep, hp', hst'.trans hst⟩
  · exact ⟨g, p, (groupOf_setGroup_other (by rw [hn]; exact hm)).trans hg, hrep, hp, hst⟩

theorem splitAt_updSplit {s : State} {gid sid : Nat} {st : SplitState} (h : SplitAt s gid sid st) (n m : Nat) (f : Split → Split)
    (hf : ∀ q, (f q).sid = q.sid) :
    SplitAt (updSplit s n m f) gid sid st ∨ ((n, m) = (gid, sid) ∧ ∃ g p, groupOf s gid = some g ∧ g.repro = false ∧
      splitOf g sid = some p ∧ p.state = st ∧ SplitAt (updSplit s n m f) gid sid (f p).state) := by
  have h0 := h
  obtain ⟨g, p, hg, hrep, hp, hst⟩ := h
  cases hx : groupOf s n with
  | none =>
    left
    simpa [updSplit, updGroup, hx] using h0
  | some x =>
    have hxid := groupOf_gid hx
    cases hq : splitOf x m with
    | none =>
      left
      have e : updSplit s n m f = setGroup s x := by simp [updSplit, updGroup, hx, hq]
      rw [e]
      exact splitAt_setGroup h0 hx hxid rfl fun _ p hp => ⟨p, hp, rfl⟩
    | some q =>
      have hqid := splitOf_sid hq
      rw [updSplit_eq hx hq]
      by_cases hnm : n = gid ∧ m = sid
      · obtain ⟨rfl, rfl⟩ := hnm
        rw [hg] at hx
        cases hx
        rw [hp] at hq
        cases hq
        right
        refine ⟨rfl, g, p, hg, hrep, hp, hst, setSplit g (f p), f p, ?_, hrep, splitOf_setSplit hp ((hf p).trans hqid), rfl⟩
        exact groupOf_setGroup hg hxid
      · left
        refine splitAt_setGroup h0 hx hxid rfl fun hn p' hp' => ⟨p', ?_, rfl⟩
        rw [splitOf_setSplit_other]
        · exact hp'
        · intro e
          exact hnm ⟨hn, (e.trans ((hf q).trans hqid)).symm⟩

theorem splitAt_goOnPhase {s : State} {gid sid : Nat} {st : SplitState} (h : SplitAt s gid sid st) (n m : Nat) (lt : Option Nat)
    (dev : Bool) : SplitAt (goOnPhase s n m lt dev) gid sid (if (n, m) = (gid, sid) then .ready else st) := by
  have hdev : ∀ (x : State) (c : Nat) (st : SplitState), SplitAt x gid sid st → SplitAt (if dev then acquireDev x c else x) gid sid st := by
    intro x c st hx
    split
    · exact hx
    · exact hx
  unfold goOnPhase
  cases hx : groupOf s n with
  | none =>
    have hne : (n, m) ≠ (gid, sid) := by
      rintro e
      cases e
      obtain ⟨g, p, hg, -⟩ := h
      rw [hg] at hx
      cases hx
    rw [if_neg hne]
    exact h
  | some x =>
    refine hdev _ _ _ ?_
    have hxid := groupOf_gid hx
    have hsame := sameRegs_raiseLbase x lt
    have hsplits : (raiseLbase x lt).splits = x.splits := by
      unfold raiseLbase
      split
      · split <;> rfl
      · rfl
    have h1 : SplitAt (setGroup s (raiseLbase x lt)) gid sid st := by
      refine splitAt_setGroup h hx (hsame.gid.trans hxid) hsame.repro fun _ p hp => ⟨p, ?_, rfl⟩
      rw [splitOf, hsplits]
      exact hp
    rcases splitAt_updSplit h1 n m (fun q => { q with state := .ready }) (fun _ => rfl) with h2 | ⟨e, g, p, -, -, -, -, h2⟩
    · by_cases e : (n, m) = (gid, sid)
      · cases e
        rw [if_pos rfl]
        obtain ⟨g, p, hg, hr, hp, -⟩ := h1
        have hgid := groupOf_gid hg
        have hpid := splitOf_sid hp
        rw [updSplit_eq hg hp]
        exact ⟨_, _, groupOf_setGroup hg hgid, hr, splitOf_setSplit hp hpid, rfl⟩
      · rw [if_neg e]
        exact h2
    · rw [if_pos e]
      exact h2

theorem splitAt_wakeSplit {s : State} {gid sid : Nat} {st : SplitState} (h : SplitAt s gid sid st) (n m : Nat) (o : BarObj) (p : Nat) :
    SplitAt (wakeSplit s n m o p) gid sid (if (n, m) = (gid, sid) then .ready else st) := by
  have h0 := h
  obtain ⟨g, q, hg, hr, hq, hst⟩ := h
  rcases wakeSplit_cases s n m o p with e | e | ⟨x, key, hx, hxr, e⟩
  · by_cases hnm : (n, m) = (gid, sid)
    · cases hnm
      have : wakeSplit s gid sid o p = goOnPhase s gid sid (o.info p).lt (o.info p).dev := by
        simp [wakeSplit, hg, hr]
      rw [this]
      have := splitAt_goOnPhase h0 gid sid (o.info p).lt (o.info p).dev
      exact this
    · rw [e, if_neg hnm]
      exact h0
  · rw [e]
    exact splitAt_goOnPhase h0 ..
  · rw [e]
    have hne : n ≠ gid := by
      rintro rfl
      rw [hg] at hx
      cases hx
      rw [hr] at hxr
      cases hxr
    rw [if_neg (by simp [hne])]
    rcases splitAt_updSplit h0 n m (awaitHarvest key (o.info p).lt) (fun q => (awaitHarvest_keeps ..).1) with h2 | ⟨e', -⟩
    · exact h2
    · cases e'
      exact absurd rfl hne

/-! ## The fold over the waiting splits -/

/-- The waiting splits of a list that may go on are woken. -/
def wakeList (o : BarObj) (done : Nat → Bool) (ws : List (Nat × Nat × Nat)) (s : State) : State :=
  ws.foldl (fun s w => if done w.2.2 then wakeSplit s w.1 w.2.1 o w.2.2 else s) s

theorem woke_wakeList (o : BarObj) (done : Nat → Bool) (ws : List (Nat × Nat × Nat)) : ∀ s, SidsOk s → Woke s (wakeList o done ws s) := by
  induction ws with
  | nil => exact fun s _ => .refl s
  | cons w ws ih =>
    intro s hs
    have h1 : Woke s (if done w.2.2 then wakeSplit s w.1 w.2.1 o w.2.2 else s) := by
      split
      · exact woke_wakeSplit hs ..
      · exact .refl s
    exact h1.trans (ih _ (h1.sidsOk hs))

theorem splitAt_wakeList (o : BarObj) (done : Nat → Bool) (gid sid : Nat) (ws : List (Nat × Nat × Nat)) : ∀ s st, SplitAt s gid sid st →
    SplitAt (wakeList o done ws s) gid sid
      (if (ws.any fun w => w.1 == gid && w.2.1 == sid && done w.2.2) then .ready else st) := by
  induction ws with
  | nil => exact fun s st h => h
  | cons w ws ih =>
    intro s st h
    obtain ⟨n, m, ph⟩ := w
    by_cases hd : done ph = true
    · have h1 := splitAt_wakeSplit h n m o ph
      have h2 := ih _ _ h1
      have e : wakeList o done ((n, m, ph) :: ws) s = wakeList o done ws (wakeSplit s n m o ph) := by
        simp [wakeList, hd]
      rw [e, List.any_cons]
      by_cases hnm : n = gid ∧ m = sid
      · obtain ⟨rfl, rfl⟩ := hnm
        simpa [hd] using h2
      · have hne : ¬ (n, m) = (gid, sid) := by simpa using hnm
        have hf : (n == gid && m == sid && done ph) = false := by
          simp [hd]
          simpa using hnm
        rw [if_neg hne] at h2
        rw [hf, Bool.false_or]
        exact h2
    · rw [Bool.not_eq_true] at hd
      have e : wakeList o done ((n, m, ph) :: ws) s = wakeList o done ws s := by
        simp [wakeList, hd]
      rw [e, List.any_cons, hd, Bool.and_false, Bool.false_or]
      exact ih s st h

end Sys2Proof.Machine
end

section
/-!
SUPPORT. The completion check as a whole: the object it leaves and the splits it wakes (08 R165 to R170).
-/
namespace Sys2Proof.Machine

/-! ## The object in its team's scratchpad -/

theorem barAt_here {s : State} {tid off : Nat} {tm : Team} (h : handedAway s tid off 16 = false) (ht : teamOf s tid = some tm) :
    barAt s tid off = Bar.ofNat (memReadN tm.spad off 16) := by
  rw [barAt, spadRead_here h (by omega) ht]

theorem putBar_here {s : State} {tid off : Nat} {tm : Team} (h : handedAway s tid off 16 = false) (ht : teamOf s tid = some tm)
    (hw : memWf tm.spad = true) (b : Bar) :
    ∃ m, putBar s tid off b = setTeam s { tm with spad := m } ∧ Patched m tm.spad off 16 b.toNat :=
  spadPut_here h (by omega) ht hw b.toNat

/-- The objects of a list with that of an offset changed, and named. -/
def namedIn (l : List BarObj) (off : Nat) (f : BarObj → BarObj) : List BarObj :=
  { f (findObj l off) with latent := none } :: l.filter (·.off != off)

theorem nameObj_here {s : State} {tid off : Nat} {tm : Team} (h : handedAway s tid off 16 = false) (ht : teamOf s tid = some tm)
    (f : BarObj → BarObj) : nameObj s tid off f = setTeam s { tm with objs := namedIn tm.objs off f } := by
  rw [nameObj, putObj, spadPlace_cell h]
  dsimp only
  rw [objsAt_team ht]
  exact updTeam_eq ht _

theorem objOf_here {s : State} {tid off : Nat} {tm : Team} (h : handedAway s tid off 16 = false) (ht : teamOf s tid = some tm) :
    objOf s tid off = findObj tm.objs off := by
  rw [objOf, spadPlace_cell h]
  dsimp only
  rw [objsAt_team ht]

/-- The object with its new contents, and named. -/
theorem putBar_nameObj {s : State} {tid off : Nat} {tm : Team} (h : handedAway s tid off 16 = false) (ht : teamOf s tid = some tm)
    (hw : memWf tm.spad = true) (b : Bar) (f : BarObj → BarObj) :
    ∃ m, nameObj (putBar s tid off b) tid off f = setTeam s { tm with spad := m, objs := namedIn tm.objs off f } ∧
      Patched m tm.spad off 16 b.toNat := by
  have htid := teamOf_tid ht
  obtain ⟨m, he, hm⟩ := putBar_here h ht hw b
  refine ⟨m, ?_, hm⟩
  have ht' : teamOf (setTeam s { tm with spad := m }) tid = some { tm with spad := m } := teamOf_setTeam ht htid
  rw [he, nameObj_here (by exact h) ht', setTeam_setTeam]
  rfl

/-! ## Only the object has changed -/

/-- From `s` to `t` only the object at `off` of team `tid`, and what is known of objects, has changed. -/
structure OnlyObject (s t : State) (tid off : Nat) : Prop where
  rest : { t with teams := s.teams } = s
  bytes : ∀ x, handedAway s tid x 1 = false → (x < off ∨ off + 16 ≤ x) → spadRead t tid x 1 = spadRead s tid x 1
  teams : ∀ k, k ≠ tid → teamOf t k = teamOf s k
  place : ∀ k x, spadPlace t k x = spadPlace s k x

theorem OnlyObject.refl (s : State) (tid off : Nat) : OnlyObject s s tid off := ⟨rfl, fun _ _ _ => rfl, fun _ _ => rfl, fun _ _ => rfl⟩

theorem OnlyObject.handles {s t : State} {tid off : Nat} (h : OnlyObject s t tid off) : t.handles = s.handles := by
  have e := congrArg State.handles h.rest
  exact e

theorem OnlyObject.groups {s t : State} {tid off : Nat} (h : OnlyObject s t tid off) : t.groups = s.groups := by
  have e := congrArg State.groups h.rest
  exact e

theorem OnlyObject.trans {a b c : State} {tid off : Nat} (h : OnlyObject a b tid off) (k : OnlyObject b c tid off) :
    OnlyObject a c tid off := by
  refine ⟨?_, fun x hx ho => ?_, fun n hn => (k.teams n hn).trans (h.teams n hn), fun n x => (k.place n x).trans (h.place n x)⟩
  · have h1 := h.rest
    have h2 := k.rest
    rw [← h1]
    exact congrArg (fun x : State => { x with teams := a.teams }) h2
  · exact (k.bytes x ((handedAway_handles h.handles ..).trans hx) ho).trans (h.bytes x hx ho)

theorem onlyObject_setTeam {s : State} {tid off v : Nat} {tm : Team} {m : List Host.Cell} {O : List BarObj} (ht : teamOf s tid = some tm)
    (hm : Patched m tm.spad off 16 v) : OnlyObject s (setTeam s { tm with spad := m, objs := O }) tid off := by
  have htid := teamOf_tid ht
  have hteam : teamOf (setTeam s { tm with spad := m, objs := O }) tid = some { tm with spad := m, objs := O } :=
    teamOf_setTeam ht htid
  have hother : ∀ c, c ≠ tid → teamOf (setTeam s { tm with spad := m, objs := O }) c = teamOf s c :=
    fun c hc => teamOf_setTeam_other (by rw [← htid] at hc; exact hc)
  refine ⟨rfl, fun x hx ho => ?_, hother, fun k x => ?_⟩
  · rw [spadRead_here (by exact hx) (by omega) hteam, spadRead_here hx (by omega) ht]
    exact memReadN_congr 1 fun y h1 h2 => hm.other (by omega)
  · refine spadPlace_congr (s := s) (setTeam_handles ..) (fun c => ?_) k x
    by_cases hc : c = tid
    · rw [hc, hteam, ht]
      rfl
    · rw [hother c hc]

/-! ## What depends on teams and handles alone -/

theorem spadPlace_same {s t : State} (ht : t.teams = s.teams) (hh : t.handles = s.handles) (k x : Nat) :
    spadPlace t k x = spadPlace s k x :=
  spadPlace_congr hh (fun c => by rw [teamOf, teamOf, ht]) k x

theorem spadRead_same {s t : State} (ht : t.teams = s.teams) (hh : t.handles = s.handles) (k x n : Nat) :
    spadRead t k x n = spadRead s k x n := by
  have hin : ∀ y j, spadReadIn t k y j = spadReadIn s k y j := by
    intro y j
    rw [spadReadIn, spadReadIn, spadPlace_same ht hh]
    simp only [teamOf, handleOf, ht, hh]
  rw [spadRead, spadRead]
  simp only [hin]

theorem Woke.keeps {s t : State} (h : Woke s t) : t.teams = s.teams ∧ t.handles = s.handles ∧ t.mem = s.mem ∧ t.rings = s.rings ∧
    t.ops = s.ops ∧ t.grids = s.grids := by
  have h1 := congrArg State.teams h.rest
  have h2 := congrArg State.handles h.rest
  have h3 := congrArg State.mem h.rest
  have h4 := congrArg State.rings h.rest
  have h5 := congrArg State.ops h.rest
  have h6 := congrArg State.grids h.rest
  exact ⟨h1, h2, h3, h4, h5, h6⟩

/-! ## The waiting splits -/

theorem waiters_mem {s : State} {tid off : Nat} {w : Nat × Nat × Nat} : w ∈ waiters s tid off ↔
    ∃ g ∈ s.groups, g.place = .resident ∧ ∃ p ∈ g.splits, ∃ o, p.state = .waitPhase o w.2.2 none ∧
      spadPlace s g.team o = spadPlace s tid off ∧ w.1 = g.gid ∧ w.2.1 = p.sid := by
  obtain ⟨n, m, ph⟩ := w
  simp only [waiters, List.mem_flatMap, List.mem_filter, List.mem_filterMap, beq_iff_eq]
  constructor
  · rintro ⟨g, ⟨hg, hpl⟩, p, hp, he⟩
    refine ⟨g, hg, hpl, p, hp, ?_⟩
    split at he
    next o ph' hst =>
      split at he
      next hplace =>
        cases he
        exact ⟨o, hst, hplace, rfl, rfl⟩
      next => cases he
    next => cases he
  · rintro ⟨g, hg, hpl, p, hp, o, hst, hplace, rfl, rfl⟩
    refine ⟨g, ⟨hg, hpl⟩, p, hp, ?_⟩
    rw [hst]
    simp [hplace]

theorem groupOf_of_mem {s : State} (hn : (s.groups.map Group.gid).Nodup) {g : Group} (hg : g ∈ s.groups) :
    groupOf s g.gid = some g := by
  rw [groupOf]
  cases hf : s.groups.find? (·.gid == g.gid) with
  | none =>
    have := List.find?_eq_none.mp hf g hg
    simp at this
  | some x =>
    have hx := List.mem_of_find?_eq_some hf
    have he : x.gid = g.gid := by simpa using List.find?_some hf
    rw [List.inj_on_of_nodup_map hn hx hg he]

theorem splitOf_of_mem {g : Group} (hn : (g.splits.map Split.sid).Nodup) {p : Split} (hp : p ∈ g.splits) : splitOf g p.sid = some p := by
  rw [splitOf]
  cases hf : g.splits.find? (·.sid == p.sid) with
  | none =>
    have := List.find?_eq_none.mp hf p hp
    simp at this
  | some x =>
    have hx := List.mem_of_find?_eq_some hf
    have he : x.sid = p.sid := by simpa using List.find?_some hf
    rw [List.inj_on_of_nodup_map hn hx hp he]

/-- Of the waiting splits, those of one number that may go on. -/
theorem waiters_any {s : State} {tid off : Nat} (hids : IdsOk s) {g : Group} {p : Split} {ph : Nat} (hg : g ∈ s.groups)
    (ht : g.team = tid) (hpl : g.place = .resident) (hp : p ∈ g.splits) (hst : p.state = .waitPhase off ph none) (done : Nat → Bool) :
    ((waiters s tid off).any fun w => w.1 == g.gid && w.2.1 == p.sid && done w.2.2) = done ph := by
  rw [Bool.eq_iff_iff, List.any_eq_true]
  constructor
  · rintro ⟨w, hw, he⟩
    simp only [Bool.and_eq_true, beq_iff_eq] at he
    obtain ⟨⟨h1, h2⟩, h3⟩ := he
    obtain ⟨g', hg', -, p', hp', o, hst', -, e1, e2⟩ := waiters_mem.mp hw
    have eg : g' = g := List.inj_on_of_nodup_map hids.groups hg' hg (e1.symm.trans h1)
    subst eg
    have ep : p' = p := List.inj_on_of_nodup_map (hids.splits g' hg').1 hp' hp (e2.symm.trans h2)
    subst ep
    rw [hst] at hst'
    cases hst'
    exact h3
  · intro hd
    refine ⟨(g.gid, p.sid, ph), waiters_mem.mpr ⟨g, hg, hpl, p, hp, off, hst, by rw [ht], rfl, rfl⟩, by simp [hd]⟩

/-! ## The check -/

/-- The object put, and the splits that wait on it woken. -/
theorem barPut_wake {s s1 : State} {tid off : Nat} {b c : Bar} {ps : List Nat} {o : BarObj} {done : Nat → Bool} (hids : IdsOk s)
    (h : OnlyObject s s1 tid off) (hset : Settles b c ps) (hbar : barAt s1 tid off = c)
    (hdone : ∀ ph, done ph = true ↔ (c.completed ph = true ∨ ph ∈ ps)) :
    BarPut s (wakeList o done (waiters s1 tid off) s1) tid off b ∧ Woke s1 (wakeList o done (waiters s1 tid off) s1) := by
  have hgroups := h.groups
  have hids1 : IdsOk s1 := by
    have hn := congrArg State.nextId h.rest
    exact ⟨by rw [hgroups]; exact hids.groups, fun g hg => by rw [hgroups] at hg; exact hn ▸ hids.fresh g hg,
      fun g hg => by rw [hgroups] at hg; exact hn ▸ hids.splits g hg, fun g hg => by rw [hgroups] at hg; exact hn ▸ hids.regions g hg⟩
  have hwoke := woke_wakeList o done (waiters s1 tid off) s1 (.of_ids hids1)
  obtain ⟨hteams, hhandles, hmem, hrings, hops, -⟩ := hwoke.keeps
  have m1 := congrArg State.mem h.rest
  have m2 := congrArg State.rings h.rest
  have m3 := congrArg State.ops h.rest
  refine ⟨⟨⟨c, ps, hset, ?_, ?_⟩, ?_, ⟨hmem.trans m1, hrings.trans m2, hops.trans m3⟩, ?_, ?_⟩, hwoke⟩
  · rw [← hbar, barAt, barAt, spadRead_same hteams hhandles]
  · intro g p ph hg hteam hpl hrep hp hst
    have hgs : groupOf s1 g.gid = some g := by rw [groupOf, hgroups]; exact hg
    have hmemg : g ∈ s1.groups := List.mem_of_find?_eq_some hgs
    have hat : SplitAt s1 g.gid p.sid (.waitPhase off ph none) :=
      ⟨g, p, hgs, hrep, splitOf_of_mem (hids1.splits g hmemg).1 hp, hst⟩
    obtain ⟨g', p', hg', -, hp', hst'⟩ := splitAt_wakeList o done g.gid p.sid (waiters s1 tid off) s1 _ hat
    refine ⟨g', p', hg', hp', hst'.trans ?_⟩
    rw [waiters_any hids1 hmemg hteam hpl hp hst, hst]
    exact if_congr (hdone ph) rfl rfl
  · intro n g hg
    have hgs : groupOf s1 n = some g := by rw [groupOf, hgroups]; exact hg
    obtain ⟨g', hg', hr⟩ := hwoke.group hgs
    exact ⟨g', hg', hr.vregs, hr.oregs, hr.sregs, hr.status, hr.srctr, hr.pcs⟩
  · intro x hx ho
    rw [spadRead_same hteams hhandles]
    exact h.bytes x hx ho
  · intro k hk
    rw [teamOf, hteams]
    exact h.teams k hk

/-- What a check has completed. -/
def checkedOf (s : State) (tid off : Nat) : Checked := settle (barAt s tid off) (objOf s tid off)

/-- The completion check leaves its object, and wakes those that wait on it. -/
theorem barCheck_put {s : State} {tid off : Nat} {tm : Team} (hids : IdsOk s) (h : handedAway s tid off 16 = false)
    (ht : teamOf s tid = some tm) (hw : memWf tm.spad = true) :
    BarPut s (barCheck s tid off).1 tid off (barAt s tid off) ∧
    ∃ s1, OnlyObject s s1 tid off ∧ Woke s1 (barCheck s tid off).1 := by
  have hset := settle_settles (barAt s tid off) (objOf s tid off)
  by_cases hp : (settle (barAt s tid off) (objOf s tid off)).passed = []
  · have he : (barCheck s tid off).1 = wakeList (settle (barAt s tid off) (objOf s tid off)).obj
        (settle (barAt s tid off) (objOf s tid off)).bar.completed (waiters s tid off) s := by
      simp only [barCheck, hp, List.isEmpty_nil, if_true]
      rfl
    rw [he]
    have hc : barAt s tid off = (settle (barAt s tid off) (objOf s tid off)).bar := by
      rw [hp] at hset
      exact hset.nil.symm
    obtain ⟨h1, h2⟩ := barPut_wake (o := (settle (barAt s tid off) (objOf s tid off)).obj) hids (.refl s tid off) hset hc
      (done := (settle (barAt s tid off) (objOf s tid off)).bar.completed) (by simp [hp])
    exact ⟨h1, s, .refl .., h2⟩
  · obtain ⟨m, hs1, hm⟩ := putBar_nameObj h ht hw (settle (barAt s tid off) (objOf s tid off)).bar
      (fun _ => (settle (barAt s tid off) (objOf s tid off)).obj)
    have hemp : (settle (barAt s tid off) (objOf s tid off)).passed.isEmpty = false := by
      simpa using hp
    have he : (barCheck s tid off).1 = wakeList (settle (barAt s tid off) (objOf s tid off)).obj
        (fun p => (settle (barAt s tid off) (objOf s tid off)).bar.completed p ||
          (settle (barAt s tid off) (objOf s tid off)).passed.contains p)
        (waiters (nameObj (putBar s tid off (settle (barAt s tid off) (objOf s tid off)).bar) tid off fun _ =>
          (settle (barAt s tid off) (objOf s tid off)).obj) tid off)
        (nameObj (putBar s tid off (settle (barAt s tid off) (objOf s tid off)).bar) tid off fun _ =>
          (settle (barAt s tid off) (objOf s tid off)).obj) := by
      simp only [barCheck, hemp, Bool.false_eq_true, if_false]
      rfl
    rw [he, hs1]
    have htid := teamOf_tid ht
    have hteam : ∀ O, teamOf (setTeam s { tm with spad := m, objs := O }) tid = some { tm with spad := m, objs := O } :=
      fun O => teamOf_setTeam ht htid
    have hfits : (settle (barAt s tid off) (objOf s tid off)).bar.Fits := hset.fits (Bar.ofNat_fits _)
    have hbar : ∀ O, barAt (setTeam s { tm with spad := m, objs := O }) tid off = (settle (barAt s tid off) (objOf s tid off)).bar := by
      intro O
      have hread : memReadN m off 16 = (settle (barAt s tid off) (objOf s tid off)).bar.toNat := by
        rw [hm.read]
        exact Nat.mod_eq_of_lt (Bar.toNat_lt _)
      rw [barAt_here (by exact h) (hteam O)]
      exact (congrArg Bar.ofNat hread).trans (Bar.ofNat_toNat hfits)
    obtain ⟨h1, h2⟩ := barPut_wake (o := (settle (barAt s tid off) (objOf s tid off)).obj) hids (onlyObject_setTeam ht hm) hset (hbar _)
      (done := fun p => (settle (barAt s tid off) (objOf s tid off)).bar.completed p ||
          (settle (barAt s tid off) (objOf s tid off)).passed.contains p) (by simp)
    exact ⟨h1, _, onlyObject_setTeam ht hm, h2⟩

end Sys2Proof.Machine
end

section
/-!
SUPPORT. Read-modify-writes at their home and in scratchpad, alone or those of several lanes on one element (O32).
-/
namespace Sys2Proof.Machine

/-! ## What follows a step at home -/

theorem updSplit_rest (s : State) (n m : Nat) (f : Split → Split) : { updSplit s n m f with groups := s.groups } = s :=
  updGroup_rest _ _ _

theorem goOnPhase_rest (s : State) (n m : Nat) (lt : Option Nat) (dev : Bool) :
    { goOnPhase s n m lt dev with groups := s.groups, cores := s.cores } = s := by
  unfold goOnPhase
  split
  · rfl
  next g _ =>
    have h := updSplit_rest (setGroup s (raiseLbase g lt)) n m fun q => { q with state := .ready }
    dsimp only
    split
    · exact congrArg (fun x : State => { x with groups := s.groups, cores := s.cores }) h
    · exact congrArg (fun x : State => { x with groups := s.groups, cores := s.cores }) h

/-- Two states that differ in groups and L1s alone. -/
def SameBut (s t : State) : Prop := { t with groups := s.groups, cores := s.cores } = s

theorem SameBut.refl (s : State) : SameBut s s := rfl

theorem SameBut.trans {a b c : State} (h : SameBut a b) (k : SameBut b c) : SameBut a c := by
  unfold SameBut at *
  rw [← h]
  exact congrArg (fun x : State => { x with groups := a.groups, cores := a.cores }) k

theorem SameBut.keeps {s t : State} (h : SameBut s t) : t.mem = s.mem ∧ t.ops = s.ops ∧ t.teams = s.teams ∧ t.handles = s.handles ∧
    t.grids = s.grids ∧ t.rings = s.rings := by
  have h1 := congrArg State.mem h
  have h2 := congrArg State.ops h
  have h3 := congrArg State.teams h
  have h4 := congrArg State.handles h
  have h5 := congrArg State.grids h
  have h6 := congrArg State.rings h
  exact ⟨h1, h2, h3, h4, h5, h6⟩

theorem wakeHarvested_same (s : State) (grid : Nat) : SameBut s (wakeHarvested s grid) := by
  have key : ∀ (xs : List (Nat × Nat × PhaseDue)) (t : State),
      SameBut t (xs.foldl (fun s x => if harvestOut s grid x.2.2.key then s else goOnPhase s x.1 x.2.1 x.2.2.lt true) t) := by
    intro xs
    induction xs with
    | nil => exact fun t => .refl t
    | cons x xs ih =>
      intro t
      refine SameBut.trans ?_ (ih _)
      dsimp only
      split
      · exact .refl t
      · exact goOnPhase_rest ..
  exact key _ s

theorem settleKeys_same (g : Nat) (s : State) : SameBut s (settleKeys g (s, [])) := by
  rw [settleKeys_nil]
  split
  · exact wakeHarvested_same s g
  · exact .refl s

theorem atomAcquire_same (s : State) (id : Nat) : SameBut s (atomAcquire s id) := by
  unfold atomAcquire
  split
  · exact .refl s
  · split
    · exact congrArg (fun x : State => { x with groups := s.groups }) (acquireOp_rest s _)
    · exact .refl s

/-! ## One place, several lanes -/

/-- Element `x` acts where `e` does. -/
def SamePlace (e x : Elem) : Prop := x.space = e.space ∧ x.size = e.size ∧ (e.space = .scratch → x.va = e.va)

/-- An operation with the elements of a list. -/
def Op.withElems (o : Op) (es : List Elem) : Op := { o with elems := es }

/-- How one lane's read-modify-write acts on a place: `P` is kept, `val` reads the place. -/
def ActsOn (o : Op) (e : Elem) (pa : Nat) (P : State → Prop) (val : State → Nat) : Prop :=
  (∀ s t, t.mem = s.mem → t.teams = s.teams → t.handles = s.handles → t.badGranules = s.badGranules →
    (P s → P t) ∧ val t = val s) ∧
  ∀ (s : State) (es : List Elem) (j : Nat) (x : Elem), P s → SamePlace e x →
    ∃ s2, performHome s (o.withElems es) j x pa =
        (setElem s2 (o.withElems es) j { x with st := .done, res := BitVec.ofNat 64 (val s) }, []) ∧
      s2.ops = s.ops ∧ P s2 ∧ val s2 = rmwValue x.u x.op (val s) x.data.toNat x.data2.toNat % 256 ^ e.size

/-- Some lanes' read-modify-writes performed one after another. -/
def performList (id pa : Nat) (js : List Nat) (r : State × List (Nat × Nat)) : State × List (Nat × Nat) :=
  js.foldl (fun r j =>
    match opOf r.1 id with
    | none => r
    | some o =>
      match o.elems[j]? with
      | none => r
      | some x => let q := performHome r.1 o j x pa; (q.1, r.2 ++ q.2)) r

theorem performTogether_eq (s : State) (o : Op) (k : Nat) (e : Elem) (pa : Nat) :
    performTogether s o k e pa = performList o.id pa (withElem o k e) (s, []) := rfl

/-- The lanes of a place take consecutive places. -/
theorem performList_acts {o : Op} {e : Elem} {pa : Nat} {P : State → Prop} {val : State → Nat} (hact : ActsOn o e pa P val)
    (v : Nat) (js : List Nat) : ∀ (pre : List Nat) (s : State) (es : List Elem),
    opOf s o.id = some (o.withElems es) → P s → val s = placeValue o e v pre → (pre ++ js).Nodup →
    (∀ j ∈ js, es[j]? = o.elems[j]? ∧ ∃ x, o.elems[j]? = some x ∧ SamePlace e x) →
    ∃ t es', performList o.id pa js (s, []) = (t, []) ∧ opOf t o.id = some (o.withElems es') ∧ P t ∧
      val t = placeValue o e v (pre ++ js) ∧
      (∀ j, j ∉ js → es'[j]? = es[j]?) ∧
      ∀ done j rest x, js = done ++ j :: rest → o.elems[j]? = some x →
        es'[j]? = some { x with st := .done, res := BitVec.ofNat 64 (placeValue o e v (pre ++ done)) } := by
  induction js with
  | nil =>
    intro pre s es ho hP hv hn hj
    refine ⟨s, es, rfl, ho, hP, by simpa using hv, fun _ _ => rfl, fun done j rest x he => ?_⟩
    simp at he
  | cons j js ih =>
    intro pre s es ho hP hv hn hj
    obtain ⟨hes, x, hx, hpl⟩ := hj j (by simp)
    obtain ⟨s2, hperf, hops, hP2, hv2⟩ := hact.2 s es j x hP hpl
    have hid : (o.withElems es).id = o.id := rfl
    have hlen : j < es.length := (List.getElem?_eq_some_iff.mp (hes.trans hx)).1
    have hset : setElem s2 (o.withElems es) j { x with st := .done, res := BitVec.ofNat 64 (val s) } =
        setOp s2 (o.withElems (es.set j { x with st := .done, res := BitVec.ofNat 64 (val s) })) := rfl
    have ho2 : opOf s2 o.id = some (o.withElems es) := (opOf_of_ops hops _).trans ho
    have hkeep := hact.1 s2 (setOp s2 (o.withElems (es.set j { x with st := .done, res := BitVec.ofNat 64 (val s) }))) rfl rfl rfl rfl
    have ho3 : opOf (setOp s2 (o.withElems (es.set j { x with st := .done, res := BitVec.ofNat 64 (val s) }))) o.id =
        some (o.withElems (es.set j { x with st := .done, res := BitVec.ofNat 64 (val s) })) := opOf_setOp ho2 rfl
    have hvpre : placeValue o e v (pre ++ [j]) = rmwValue x.u x.op (val s) x.data.toNat x.data2.toNat % 256 ^ e.size := by
      rw [hv, placeValue, List.foldl_append, List.foldl_cons, List.foldl_nil, hx]
      rfl
    have hnd : j ∉ js := by
      have := (List.nodup_append.mp hn).2.1
      exact (List.nodup_cons.mp this).1
    obtain ⟨t, es', ht, hot, hPt, hvt, hother, hdone⟩ := ih (pre ++ [j])
      (setOp s2 (o.withElems (es.set j { x with st := .done, res := BitVec.ofNat 64 (val s) })))
      (es.set j { x with st := .done, res := BitVec.ofNat 64 (val s) }) ho3 (hkeep.1 hP2) (by rw [hkeep.2, hv2, hvpre])
      (by simpa using hn) (fun i hi => by
        have hne : j ≠ i := fun e => hnd (e ▸ hi)
        obtain ⟨h1, h2⟩ := hj i (by simp [hi])
        exact ⟨by rw [List.getElem?_set_ne hne]; exact h1, h2⟩)
    have hstep : performList o.id pa (j :: js) (s, []) = performList o.id pa js
        (setOp s2 (o.withElems (es.set j { x with st := .done, res := BitVec.ofNat 64 (val s) })), []) := by
      rw [performList, List.foldl_cons]
      simp only [ho]
      have hex : (o.withElems es).elems[j]? = some x := hes.trans hx
      simp only [hex, hperf, hset]
      rfl
    refine ⟨t, es', hstep.trans ht, hot, hPt, by rw [hvt]; simp, fun i hi => ?_, fun done i rest y he hy => ?_⟩
    · have hi' : i ∉ js := fun h => hi (by simp [h])
      have hne : j ≠ i := fun e => hi (by simp [e])
      rw [hother i hi', List.getElem?_set_ne hne]
    · cases done with
      | nil =>
        obtain ⟨rfl, rfl⟩ := List.cons.inj he
        rw [hx] at hy
        cases hy
        rw [hother j hnd, List.getElem?_set_self hlen, List.append_nil, ← hv]
      | cons d done =>
        obtain ⟨rfl, he'⟩ := List.cons.inj he
        have := hdone done i rest y he' hy
        simpa using this

end Sys2Proof.Machine
end

section
/-!
SUPPORT. Read-modify-writes in memory, in scratchpad and into a checked copy's stream (O32).
-/
namespace Sys2Proof.Machine

/-- The kinds that act by one read-modify-write an element. -/
def Op.modifies (o : Op) : Prop := (∃ u d, o.kind = .rmw u d) ∨ (∃ x, o.kind = .dec x) ∨ o.kind = .fold

theorem performHome_modifies {s : State} {o : Op} (h : o.modifies) (k : Nat) (e : Elem) (pa : Nat) :
    performHome s o k e pa = rmwElem s o k e pa := by
  rcases h with ⟨u, d, h⟩ | ⟨x, h⟩ | h <;> simp [performHome, h]

/-! ## In memory -/

/-- Memory is well-formed, the place is good, and memory elsewhere is that of `s1`. -/
def InMemory (s1 : State) (pa n : Nat) (s : State) : Prop :=
  MemOk s ∧ badGranule? s pa n = none ∧ ∀ x, (x < pa ∨ pa + n ≤ x) → memRead s.mem x = memRead s1.mem x

theorem l1Refresh_mem (s : State) (c pa : Nat) : (l1Refresh s c pa).mem = s.mem := by
  have h := congrArg State.mem (l1Refresh_rest s c pa)
  exact h

/-- Memory after one read-modify-write in it. -/
theorem rmwElem_mem {s : State} {o : Op} {k pa : Nat} {e : Elem} (hs : e.space ≠ .scratch) (hb : badGranule? s pa e.size = none) :
    (rmwElem s o k e pa).1.mem =
      (physWrite s pa e.size (rmwValue e.u e.op (physRead s pa e.size) e.data.toNat e.data2.toNat)).mem := by
  unfold rmwElem
  generalize hv : rmwValue e.u e.op (physRead s pa e.size) e.data.toNat e.data2.toNat = v
  have h1 := l1Update_mem (physWrite s pa e.size v) o.core pa (natToBytes e.size v)
  cases hsp : e.space with
  | scratch => exact absurd hsp hs
  | _ =>
    simp only [hb, hv]
    split
    · exact (l1Refresh_mem ..).trans h1
    · exact h1

theorem rmwElem_memOk {s : State} {o : Op} {k pa : Nat} {e : Elem} (hm : MemOk s) (hs : e.space ≠ .scratch)
    (hb : badGranule? s pa e.size = none) : MemOk (rmwElem s o k e pa).1 := by
  rw [MemOk, rmwElem_mem hs hb]
  exact memOk_physWrite _ _ _ hm

theorem actsOn_memory (s1 : State) {o : Op} {e : Elem} {pa : Nat} (hk : o.modifies) (he : e.space ≠ .scratch) :
    ActsOn o e pa (InMemory s1 pa e.size) fun s => physRead s pa e.size := by
  refine ⟨fun s t hm _ _ hb => ⟨fun ⟨h1, h2, h3⟩ => ⟨?_, ?_, ?_⟩, by simp only [physRead, hm]⟩, ?_⟩
  · rw [MemOk, hm]
    exact h1
  · rw [badOf_ops hb]
    exact h2
  · rw [hm]
    exact h3
  · rintro s es j x ⟨h1, h2, h3⟩ ⟨hsp, hsz, -⟩
    have hs : x.space ≠ .scratch := hsp ▸ he
    have hb : badGranule? s pa x.size = none := hsz ▸ h2
    obtain ⟨s2, hr, hw, hops, -, -, -, -, -, -, hbad⟩ := rmwElem_spec (o := o.withElems es) (k := j) h1 hs hb
    have hok := rmwElem_memOk (o := o.withElems es) (k := j) h1 hs hb
    rw [hr] at hok
    rw [hsz] at hw
    refine ⟨s2, ?_, hops, ⟨hok, hbad _ _ h2, fun y hy => (hw.2 y hy).trans (h3 y hy)⟩, hw.1⟩
    rw [performHome_modifies (by exact hk), hr, hsz]

/-! ## In scratchpad -/

/-- The place is plain, and the team's other bytes and the rest are those of `s1`. -/
def InScratch (s1 : State) (tid off n : Nat) (s : State) : Prop :=
  plainSpad s tid off n ∧ s.handles = s1.handles ∧ s.mem = s1.mem ∧ ∃ tm tm1, teamOf s tid = some tm ∧ teamOf s1 tid = some tm1 ∧
    memWf tm.spad = true ∧ ∀ x, (x < off ∨ off + n ≤ x) → memRead tm.spad x = memRead tm1.spad x

theorem plainSpad_same {s t : State} (ht : t.teams = s.teams) (hh : t.handles = s.handles) {tid off n : Nat}
    (h : plainSpad s tid off n) : plainSpad t tid off n := by
  refine ⟨(handedAway_handles hh ..).trans h.1, fun x hx => h.2 x ?_⟩
  rw [← hx, named, named, spadPlace_same ht hh]
  simp only [objsAt, teamOf, handleOf, ht, hh]

theorem actsOn_scratch (s1 : State) {o : Op} {e : Elem} (pa : Nat) (hk : o.modifies) (he : e.space = .scratch) (hn : 0 < e.size) :
    ActsOn o e pa (InScratch s1 o.team e.va.toNat e.size) fun s => spadRead s o.team e.va.toNat e.size := by
  refine ⟨fun s t hm ht hh _ => ⟨fun ⟨h1, h2, h3, tm, tm1, h4, h5⟩ => ⟨plainSpad_same ht hh h1, hh.trans h2, hm.trans h3, tm, tm1, ?_, h5⟩,
    spadRead_same ht hh ..⟩, ?_⟩
  · rw [teamOf, ht]
    exact h4
  · rintro s es j x ⟨h1, h2, h3, tm, tm1, h4, h5, h6, h7⟩ ⟨hsp, hsz, hva⟩
    have hva := hva he
    obtain ⟨m, t, hu, hpatch, hst⟩ := spadUpdate_plain h1 hn h4 h6
      fun old => rmwValue x.u x.op old x.data.toNat x.data2.toNat
    obtain ⟨O, hO, ht⟩ := stored_teamOf h4 hst
    have hrest := stored_rest hst
    have hops := congrArg State.ops hrest
    have hmem := congrArg State.mem hrest
    have hplain := stored_plain h4 hst h1
    refine ⟨t, ?_, hops, ⟨hplain, (stored_handles hst).trans h2, hmem.trans h3, _, tm1, ht, h5, hpatch.1,
      fun y hy => (hpatch.other hy).trans (h7 y hy)⟩, ?_⟩
    · rw [performHome_modifies (by exact hk)]
      simp only [rmwElem, hsp, he, hsz, hva, Op.withElems, hu]
    · dsimp only
      rw [spadRead_here hplain.1 hn ht]
      exact hpatch.read

/-! ## The lanes that go together -/

theorem withElem_mem {o : Op} {k : Nat} {e : Elem} (he : o.elems[k]? = some e) :
    k ∈ withElem o k e ∧ (withElem o k e).Nodup ∧ ∀ j ∈ withElem o k e, ∃ x, o.elems[j]? = some x ∧ SamePlace e x := by
  have hk : k < o.elems.length := (List.getElem?_eq_some_iff.mp he).1
  have hself : SamePlace e e := ⟨rfl, rfl, fun _ => rfl⟩
  unfold withElem
  split
  · refine ⟨?_, List.nodup_range.filter _, fun j hj => ?_⟩
    · simp [hk]
    · simp only [List.mem_filter, List.mem_range, Bool.or_eq_true, beq_iff_eq, Option.any_eq_true, Bool.and_eq_true] at hj
      rcases hj.2 with rfl | ⟨x, hx, -, hs⟩
      · exact ⟨e, he, hself⟩
      · refine ⟨x, hx, ?_⟩
        simp only [sameElem, Bool.and_eq_true, beq_iff_eq] at hs
        refine ⟨hs.1.1.symm, hs.1.2.symm, fun hsc => ?_⟩
        have := hs.2
        simp only [hsc, if_true, beq_iff_eq] at this
        exact this.symm
  · refine ⟨by simp, by simp, fun j hj => ?_⟩
    rw [List.mem_singleton.mp hj]
    exact ⟨e, he, hself⟩

theorem withElem_alone {o : Op} (h : o.consecutive = false) (k : Nat) (e : Elem) : withElem o k e = [k] := by
  simp [withElem, h]

theorem placeValue_lt (o : Op) (e : Elem) (v : Nat) {js : List Nat} (h : js ≠ []) : placeValue o e v js < 256 ^ e.size := by
  obtain ⟨pre, j, rfl⟩ := List.eq_nil_or_concat js |>.resolve_left h
  rw [placeValue, List.concat_eq_append, List.foldl_append, List.foldl_cons, List.foldl_nil]
  exact Nat.mod_lt _ (Nat.pow_pos (by decide))

/-- The lanes of a place performed together: `val` is the value that they leave, and each has the value before it. -/
theorem performTogether_acts {o : Op} {k pa : Nat} {e : Elem} {P : State → Prop} {val : State → Nat} (hact : ActsOn o e pa P val)
    {s : State} (ho : opOf s o.id = some o) (he : o.elems[k]? = some e) (hP : P s) :
    ∃ t es', performTogether s o k e pa = (t, []) ∧ opOf t o.id = some (o.withElems es') ∧ P t ∧
      val t = placeValue o e (val s) (withElem o k e) ∧
      ∀ done j rest x, withElem o k e = done ++ j :: rest → o.elems[j]? = some x →
        es'[j]? = some { x with st := .done, res := BitVec.ofNat 64 (placeValue o e (val s) done) } := by
  obtain ⟨-, hnd, hall⟩ := withElem_mem he
  obtain ⟨t, es', h1, h2, h3, h4, -, h5⟩ := performList_acts hact (val s) (withElem o k e) [] s o.elems ho hP rfl (by simpa using hnd)
    fun j hj => ⟨rfl, hall j hj⟩
  exact ⟨t, es', h1, h2, h3, h4, h5⟩

/-! ## The steps -/

theorem exec_atomicAtHome {s : State} {op : Nat} {o : Op} {u : EltTy} {d : Option Opnd} (ho : opOf s op = some o)
    (hk : o.kind = .rmw u d) (k : Nat) :
    exec (.atomicAtHome op k) s = .next (atomAcquire (settleKeys o.grid (homeStep s op k)) op) := by
  show execAtomicAtHome op k s = _
  simp only [execAtomicAtHome, ho, Option.map_some, hk, homeRequest]

theorem exec_joinDecrement {s : State} {op : Nat} {o : Op} {x : Bool} (ho : opOf s op = some o) (hk : o.kind = .dec x) (k : Nat) :
    exec (.joinCounterDecrement op k) s = .next (settleKeys o.grid (homeStep s op k)) := by
  show execJoinCounterDecrement op k s = _
  simp only [execJoinCounterDecrement, ho, Option.map_some, hk, homeRequest]

theorem exec_censusFold {s : State} {op : Nat} {o : Op} (ho : opOf s op = some o) (hk : o.kind = .fold) (k : Nat) :
    exec (.censusFold op k) s = .next (settleKeys o.grid (homeStep s op k)) := by
  show execCensusFold op k s = _
  simp only [execCensusFold, ho, Option.map_some, hk, homeRequest]

/-- A step of an element at its home: what `homeStep` leaves, but for woken groups and discarded L1s. -/
theorem exec_home {i : Nat → Nat → Instr} {s : State} {op k : Nat} {o : Op} (ho : opOf s op = some o)
    (hi : (i = .atomicAtHome ∧ ∃ u d, o.kind = .rmw u d) ∨ (i = .joinCounterDecrement ∧ ∃ x, o.kind = .dec x) ∨
      (i = .censusFold ∧ o.kind = .fold)) {t : State} (hs : homeStep s op k = (t, [])) :
    ∃ t', exec (i op k) s = .next t' ∧ SameBut t t' := by
  have h1 := settleKeys_same o.grid t
  rcases hi with ⟨rfl, u, d, hk⟩ | ⟨rfl, x, hk⟩ | ⟨rfl, hk⟩
  · exact ⟨_, (exec_atomicAtHome ho hk k).trans (by rw [hs]), h1.trans (atomAcquire_same _ op)⟩
  · exact ⟨_, (exec_joinDecrement ho hk k).trans (by rw [hs]), h1⟩
  · exact ⟨_, (exec_censusFold ho hk k).trans (by rw [hs]), h1⟩

theorem elemAt_same {s t : State} (h : SameBut s t) (op j : Nat) : elemAt? t op j = elemAt? s op j := by
  obtain ⟨-, hops, -⟩ := h.keeps
  rw [elemAt?, elemAt?, opOf_of_ops hops]

end Sys2Proof.Machine
end

section
/-!
SUPPORT. Read-modify-writes at their home, as O32 states them.
-/
namespace Sys2Proof.Machine

/-! ## The course of a step -/

theorem spadNext_parts {s : State} {o : Op} {k : Nat} {e : Elem} (hn : spadNext s o k e = true) :
    o.elems[k]? = some e ∧ e.space = .scratch := by
  simp only [spadNext, Bool.and_eq_true, beq_iff_eq] at hn
  exact ⟨hn.1.1.1.1, hn.1.1.2⟩

/-- An element in scratchpad next to be performed acts there, with the lanes that go with it. -/
theorem homeStep_scratch {s : State} {op k : Nat} {o : Op} {e : Elem} (ho : opOf s op = some o) (hn : spadNext s o k e = true) :
    homeStep s op k = (settleOp (performTogether s o k e (e.pa.getD 0)).1 op, (performTogether s o k e (e.pa.getD 0)).2) := by
  obtain ⟨h1, h3⟩ := spadNext_parts hn
  simp only [spadNext, Bool.and_eq_true, beq_iff_eq, Bool.not_eq_true'] at hn
  obtain ⟨⟨⟨⟨-, h2⟩, -⟩, h4⟩, h5⟩ := hn
  have h5' : (List.take k o.elems).any (fun x => x.st == ElemState.pending) = false := h5
  have hst : o.streamed s e = false := by simp [Op.streamed, h3]
  unfold homeStep
  simp only [ho, h1, h2, h4, h5', hst, h3, bne_self_eq_false, Bool.not_true, Bool.or_self, Bool.false_eq_true, if_false, beq_self_eq_true,
    Bool.or_true, if_true]

/-- An element of a checked copy enters its team's stream. -/
theorem homeStep_streamed {s : State} {op k : Nat} {o : Op} {e : Elem} (ho : opOf s op = some o) (hn : elemNext s o k e = true)
    (hst : o.streamed s e = true) :
    homeStep s op k = (settleOp (setElem (streamElem s o e) o k { e with st := .done }) op, []) := by
  simp only [elemNext, Bool.and_eq_true, beq_iff_eq, Bool.not_eq_true'] at hn
  obtain ⟨⟨⟨⟨h1, h2⟩, -⟩, h4⟩, h5⟩ := hn
  have h5' : (List.take k o.elems).any (fun x => x.st == ElemState.pending) = false := h5
  unfold homeStep
  simp only [ho, h1, h2, h4, h5', hst, bne_self_eq_false, Bool.not_true, Bool.or_self, Bool.false_eq_true, if_false, if_true]

/-- An item that the check area has room for enters the stream. -/
theorem streamElem_room {s : State} {o : Op} {e : Elem} {tm : Team} {c : Context} (ht : teamOf s o.team = some tm)
    (hc : ctxOf s o.ctx = some c) (hroom : checkInUse s o.ctx + Config.streamItemBytes ≤ c.checkSz) :
    streamElem s o e = setTeam s { tm with stream := tm.stream ++ [streamItem s o e] } := by
  have hlt : ¬ c.checkSz < checkInUse s o.ctx + Config.streamItemBytes := by omega
  simp only [streamElem, streamPut, hc, Option.map_some, Option.getD_some, List.length_cons, List.length_nil, Nat.zero_add, Nat.one_mul,
    if_neg hlt]
  exact updTeam_eq ht _

theorem settleOp_keepsRest (s : State) (id : Nat) : (settleOp s id).mem = s.mem ∧ (settleOp s id).teams = s.teams ∧
    (settleOp s id).handles = s.handles ∧ (settleOp s id).grids = s.grids ∧ (settleOp s id).rings = s.rings := by
  have h := settleOp_rest s id
  have h1 := congrArg State.mem h
  have h2 := congrArg State.teams h
  have h3 := congrArg State.handles h
  have h4 := congrArg State.grids h
  have h5 := congrArg State.rings h
  exact ⟨h1, h2, h3, h4, h5⟩

/-! ## What a step at home leaves, for O32 -/

/-- In memory: the place holds the new value, and each lane of an ATOM the value before it. -/
theorem atHome_memory {i : Nat → Nat → Instr} {s : State} {op k : Nat} {o : Op} {e : Elem} {pa : Nat} {s1 : State}
    (ho : opOf s op = some o)
    (hi : (i = .atomicAtHome ∧ ∃ u d, o.kind = .rmw u d) ∨ (i = .joinCounterDecrement ∧ ∃ x, o.kind = .dec x) ∨
      (i = .censusFold ∧ o.kind = .fold)) (hn : elemNext s o k e = true) (hst : o.streamed s e = false)
    (hr : Reaches s o e pa s1) (hm : MemOk s1) (hb : badGranule? s1 pa e.size = none) :
    ∃ t, exec (i op k) s = .next t ∧ Wrote s1 t pa e.size (placeValue o e (physRead s1 pa e.size) (withElem o k e)) ∧
      (∀ u d, o.kind = .rmw u (some d) → ∀ done j rest x, withElem o k e = done ++ j :: rest → o.elems[j]? = some x →
        elemAt? t op j = some { x with st := .done, res := BitVec.ofNat 64 (placeValue o e (physRead s1 pa e.size) done) }) := by
  have hid := opOf_id ho
  obtain ⟨he, hsp⟩ := elemNext_parts hn
  have hmod : o.modifies := by
    rcases hi with ⟨-, h⟩ | ⟨-, h⟩ | ⟨-, h⟩
    · exact .inl h
    · exact .inr (.inl h)
    · exact .inr (.inr h)
  have ho1 : opOf s1 o.id = some o := by rw [walked_opOf (reaches_walked hr), hid]; exact ho
  obtain ⟨t, es', hp, hot, ⟨-, -, hout⟩, hval, hdone⟩ := performTogether_acts (actsOn_memory s1 (pa := pa) hmod hsp) ho1 he
    ⟨hm, hb, fun _ _ => rfl⟩
  have hstep := homeStep_reach ho hn hst hr
  rw [hp] at hstep
  obtain ⟨t', hexec, hsame⟩ := exec_home ho hi hstep
  obtain ⟨hmem, -⟩ := hsame.keeps
  have hmem' : t'.mem = t.mem := hmem.trans (settleOp_mem t op)
  refine ⟨t', hexec, ⟨?_, fun x hx => by rw [hmem']; exact hout x hx⟩, fun u d hk done j rest x hjs hx => ?_⟩
  · have hlt := placeValue_lt o e (physRead s1 pa e.size) (List.ne_nil_of_mem (withElem_mem he).1)
    rw [Nat.mod_eq_of_lt hlt]
    simp only [physRead, hmem']
    exact hval
  · rw [hid] at hot
    rw [elemAt_same hsame, settleOp_keeps hot (.inl ⟨u, d, hk⟩), elemAt?, hot]
    exact hdone done j rest x hjs hx

/-- In scratchpad, where no named object lies. -/
theorem atHome_plain {s : State} {op k : Nat} {o : Op} {e : Elem} {u : EltTy} {d : Option Opnd} {tm : Team} (ho : opOf s op = some o)
    (hk : o.kind = .rmw u d) (hn : spadNext s o k e = true) (hs : SpadsOk s) (ht : teamOf s o.team = some tm) (hpos : 0 < e.size)
    (hp : plainSpad s o.team e.va.toNat e.size) :
    ∃ t, exec (.atomicAtHome op k) s = .next t ∧ t.mem = s.mem ∧
      spadRead t o.team e.va.toNat e.size = placeValue o e (spadRead s o.team e.va.toNat e.size) (withElem o k e) ∧
      (∀ x, handedAway s o.team x 1 = false → (x < e.va.toNat ∨ e.va.toNat + e.size ≤ x) →
        spadRead t o.team x 1 = spadRead s o.team x 1) ∧
      (d.isSome = true → ∀ done j rest x, withElem o k e = done ++ j :: rest → o.elems[j]? = some x →
        elemAt? t op j = some { x with
          st := .done
          res := BitVec.ofNat 64 (placeValue o e (spadRead s o.team e.va.toNat e.size) done) }) := by
  have hid := opOf_id ho
  obtain ⟨he, hsp⟩ := spadNext_parts hn
  have hw : memWf tm.spad = true := hs.1 tm (List.mem_of_find?_eq_some ht)
  have hstart : InScratch s o.team e.va.toNat e.size s := ⟨hp, rfl, rfl, tm, tm, ht, ht, hw, fun _ _ => rfl⟩
  obtain ⟨t, es', hpt, hot, ⟨-, hhand, hmem, tm', tm1, ht', ht1, -, hout⟩, hval, hdone⟩ :=
    performTogether_acts (actsOn_scratch s (e.pa.getD 0) (.inl ⟨u, d, hk⟩) hsp hpos) (by rw [hid]; exact ho) he hstart
  have hstep := homeStep_scratch ho hn
  rw [hpt] at hstep
  obtain ⟨t', hexec, hsame⟩ := exec_home ho (.inl ⟨rfl, u, d, hk⟩) hstep
  obtain ⟨m1, -, m3, m4, -⟩ := hsame.keeps
  obtain ⟨k1, k3, k4, -⟩ := settleOp_keepsRest t op
  have hread : ∀ x n, spadRead t' o.team x n = spadRead t o.team x n := fun x n => spadRead_same (m3.trans k3) (m4.trans k4) _ _ _
  refine ⟨t', hexec, m1.trans (k1.trans hmem), (hread ..).trans hval, fun x hx hox => ?_, fun hd done j rest x hjs hx => ?_⟩
  · rw [hread, spadRead_here ((handedAway_handles hhand ..).trans hx) (by omega) ht', spadRead_here hx (by omega) ht1]
    exact memReadN_congr 1 fun y h1 h2 => hout y (by omega)
  · obtain ⟨d', rfl⟩ := Option.isSome_iff_exists.mp hd
    rw [hid] at hot
    rw [elemAt_same hsame, settleOp_keeps hot (.inl ⟨u, d', hk⟩), elemAt?, hot]
    exact hdone done j rest x hjs hx

/-! ## On a named barrier object -/

theorem cellsOf_one {off va n : Nat} (h1 : off % 16 = 0) (h2 : off ≤ va) (h3 : va + n ≤ off + 16) (h4 : 0 < n) : cellsOf va n = [off] := by
  have hc : (va + n - 1) / 16 + 1 - va / 16 = 1 := by omega
  have hq : 16 * (va / 16 + 0) = off := by omega
  simp only [cellsOf, hc, List.range_one, List.map_cons, List.map_nil, hq]

theorem idsOk_of {s t : State} (h : IdsOk s) (hg : t.groups = s.groups) (hn : t.nextId = s.nextId) : IdsOk t :=
  ⟨by rw [hg]; exact h.groups, fun g hm => by rw [hn]; rw [hg] at hm; exact h.fresh g hm,
    fun g hm => by rw [hn]; rw [hg] at hm; exact h.splits g hm, fun g hm => by rw [hn]; rw [hg] at hm; exact h.regions g hm⟩

/-- An access that lies in a named object is followed by its check. -/
theorem spadUpdate_named {s : State} {tid off va n : Nat} {tm : Team} (hids : IdsOk s) (ht : teamOf s tid = some tm)
    (hw : memWf tm.spad = true) (h1 : off % 16 = 0) (h2 : off ≤ va) (h3 : va + n ≤ off + 16) (h4 : 0 < n)
    (hnm : named s tid off = true) (hh : handedAway s tid off 16 = false) (f : Nat → Nat) :
    let s1 := spadPut s tid va n (f (spadRead s tid va n))
    ∃ t ks, spadUpdate s tid va n f = (t, ks) ∧ BarPut s1 t tid off (barAt s1 tid off) ∧
      ∃ s2, OnlyObject s1 s2 tid off ∧ Woke s2 t := by
  have hha : handedAway s tid va n = false := handedAway_sub hh h2 h3
  obtain ⟨m, he, hm⟩ := spadPut_here hha h4 ht hw (f (spadRead s tid va n))
  have htid := teamOf_tid ht
  have hst : Stored s tm m (spadPut s tid va n (f (spadRead s tid va n))) := ⟨tm.objs, fun _ => rfl, he⟩
  obtain ⟨O, -, ht1⟩ := stored_teamOf ht hst
  have hrest := stored_rest hst
  have hn1 : named (spadPut s tid va n (f (spadRead s tid va n))) tid off = true := (named_stored ht hst tid off).trans hnm
  have hg := congrArg State.groups hrest
  have hnid := congrArg State.nextId hrest
  have hids1 : IdsOk (spadPut s tid va n (f (spadRead s tid va n))) := idsOk_of hids hg hnid
  have hup : spadUpdate s tid va n f = ((barCheck (spadPut s tid va n (f (spadRead s tid va n))) tid off).1,
      [] ++ (barCheck (spadPut s tid va n (f (spadRead s tid va n))) tid off).2) := by
    rw [spadUpdate_eq, cellsOf_one h1 h2 h3 h4, List.foldl_cons, List.foldl_nil, cellStep]
    dsimp only
    rw [afterAccess, if_pos hn1]
  obtain ⟨hbar, hwoke⟩ := barCheck_put hids1 ((handedAway_handles (stored_handles hst) ..).trans hh) ht1 hm.1
  exact ⟨_, _, hup, hbar, hwoke⟩

/-- What only counts operations off keeps the state of a check. -/
theorem BarPut.counted {s t t' : State} {tid off : Nat} {b : Bar} (h : BarPut s t tid off b) (hm : t'.mem = t.mem)
    (hr : t'.rings = t.rings) (ho : t'.ops = s.ops) (hte : t'.teams = t.teams) (hha : t'.handles = t.handles)
    (hg : ∀ n g, groupOf t n = some g → ∃ g', groupOf t' n = some g' ∧ { g' with eng := g.eng } = g) : BarPut s t' tid off b := by
  obtain ⟨⟨c, ps, hset, hbar, hwake⟩, hregs, ⟨m1, m2, -⟩, hbytes, hteams⟩ := h
  refine ⟨⟨c, ps, hset, ?_, ?_⟩, ?_, ⟨hm.trans m1, hr.trans m2, ho⟩, ?_, ?_⟩
  · rw [← hbar, barAt, barAt, spadRead_same hte hha]
  · intro g p ph a1 a2 a3 a4 a5 a6
    obtain ⟨g', p', b1, b2, b3⟩ := hwake g p ph a1 a2 a3 a4 a5 a6
    obtain ⟨g2, c1, c2⟩ := hg _ _ b1
    have hsp := congrArg Group.splits c2
    refine ⟨g2, p', c1, ?_, b3⟩
    rw [← b2, splitOf, splitOf]
    exact congrArg _ hsp
  · intro n g a
    obtain ⟨g', b1, b2, b3, b4, b5, b6, b7⟩ := hregs n g a
    obtain ⟨g2, c1, c2⟩ := hg _ _ b1
    have d1 := congrArg Group.vregs c2
    have d2 := congrArg Group.oregs c2
    have d3 := congrArg Group.sregs c2
    have d4 := congrArg Group.status c2
    have d5 := congrArg Group.srctr c2
    have d6 := congrArg Group.splits c2
    exact ⟨g2, c1, Eq.trans d1 b2, Eq.trans d2 b3, Eq.trans d3 b4, Eq.trans d4 b5, Eq.trans d5 b6,
      (congrArg (List.map Split.pc) d6).trans b7⟩
  · intro x a1 a2
    rw [spadRead_same hte hha]
    exact hbytes x a1 a2
  · intro k hk
    rw [teamOf, hte]
    exact hteams k hk

/-- Settling an operation changes a group's engine counters at most. -/
theorem settleOp_group (s : State) (id : Nat) {n : Nat} {g : Group} (hg : groupOf s n = some g) :
    ∃ g', groupOf (settleOp s id) n = some g' ∧ { g' with eng := g.eng } = g := by
  have hcount : ∀ o : Op, ∃ g', groupOf (countOff s o) n = some g' ∧ { g' with eng := g.eng } = g := by
    intro o
    by_cases hn : n = o.gid
    · rw [hn] at hg ⊢
      exact ⟨_, groupOf_countOff hg, engDone_only ..⟩
    · refine ⟨g, ?_, rfl⟩
      cases hx : groupOf s o.gid with
      | none =>
        have e : countOff s o = s := by simp [countOff, updGroup, hx]
        rw [e]
        exact hg
      | some x =>
        have hxid := groupOf_gid hx
        have hne : n ≠ (engDone x o.id).gid := fun e => hn (e.trans hxid)
        rw [countOff, updGroup_eq hx, groupOf_setGroup_other hne]
        exact hg
  rcases settleOp_cases s id with h | ⟨o, -, s1, h1, h2⟩
  · rw [h]
    exact ⟨g, hg, rfl⟩
  · have h3 : ∃ g', groupOf s1 n = some g' ∧ { g' with eng := g.eng } = g := by
      rcases h1 with rfl | rfl
      · exact ⟨g, hg, rfl⟩
      · exact hcount o
    rcases h2 with h2 | ⟨h2, -⟩
    · rw [h2]
      exact h3
    · rw [h2]
      exact h3

theorem memWriteN_mod (n : Nat) : ∀ (m : List Host.Cell) (a v : Nat), memWriteN m a n (v % 256 ^ n) = memWriteN m a n v := by
  induction n with
  | zero => exact fun _ _ _ => rfl
  | succ n ih =>
    intro m a v
    have hb : BitVec.ofNat 8 (v % 256 ^ (n + 1)) = BitVec.ofNat 8 v := by
      apply BitVec.eq_of_toNat_eq
      simp only [BitVec.toNat_ofNat]
      exact Nat.mod_mod_of_dvd v ⟨256 ^ n, by rw [Nat.pow_succ']⟩
    have hd : v % 256 ^ (n + 1) / 256 = v / 256 % 256 ^ n := by
      rw [Nat.pow_succ', Nat.mod_mul_right_div_self]
    rw [memWriteN, memWriteN, hb, hd, ih]

/-- In one granule only the low bytes of a value are written. -/
theorem spadPut_mod {off va n : Nat} (h1 : off % 16 = 0) (h2 : off ≤ va) (h3 : va + n ≤ off + 16) (h4 : 0 < n) (s : State) (tid v : Nat) :
    spadPut s tid va n (v % 256 ^ n) = spadPut s tid va n v := by
  have hone : oneGranule va n = true := by
    simp only [oneGranule, Config.granule, beq_iff_eq]
    omega
  have hin : spadPutIn s tid va n (v % 256 ^ n) = spadPutIn s tid va n v := by
    unfold spadPutIn
    simp only [memWriteN_mod]
  rw [spadPut, spadPut, hone, if_pos rfl, if_pos rfl, hin]

theorem atomAcquire_groups (s : State) (id : Nat) : (atomAcquire s id).groups = s.groups := by
  unfold atomAcquire
  split
  · rfl
  · split
    · exact acquireOp_groups ..
    · rfl

theorem gridRepro_plain {s t : State} {grid : Nat} (h : plainGrid s grid) (hg : t.grids = s.grids) : gridRepro t grid = false := by
  have e : gridOf t grid = gridOf s grid := by rw [gridOf, gridOf, hg]
  unfold plainGrid at h
  rw [gridRepro, e]
  cases hx : gridOf s grid with
  | none => rfl
  | some x =>
    rw [hx] at h
    simpa using h

/-- A read-modify-write on a named object is followed by the object's check. -/
theorem atHome_object {s : State} {op k off : Nat} {o : Op} {e : Elem} {u : EltTy} {d : Option Opnd} {tm : Team}
    (ho : opOf s op = some o) (hk : o.kind = .rmw u d) (hn : spadNext s o k e = true) (hs : SpadsOk s)
    (ht : teamOf s o.team = some tm) (hpos : 0 < e.size) (hids : IdsOk s) (hgrid : plainGrid s o.grid)
    (hjs : withElem o k e = [k]) (h1 : off % 16 = 0) (h2 : off ≤ e.va.toNat) (h3 : e.va.toNat + e.size ≤ off + 16)
    (hnm : named s o.team off = true) (hh : handedAway s o.team off 16 = false) :
    let s1 := spadPut s o.team e.va.toNat e.size (placeValue o e (spadRead s o.team e.va.toNat e.size) [k])
    ∃ t, exec (.atomicAtHome op k) s = .next t ∧ BarPut s1 { t with ops := s1.ops } o.team off (barAt s1 o.team off) := by
  have hid := opOf_id ho
  obtain ⟨he, hsp⟩ := spadNext_parts hn
  have hw : memWf tm.spad = true := hs.1 tm (List.mem_of_find?_eq_some ht)
  have hval : placeValue o e (spadRead s o.team e.va.toNat e.size) [k] =
      rmwValue e.u e.op (spadRead s o.team e.va.toNat e.size) e.data.toNat e.data2.toNat % 256 ^ e.size := by
    simp [placeValue, he]
  obtain ⟨t2, ks, hup, hbar, s2, honly, hwoke⟩ := spadUpdate_named hids ht hw h1 h2 h3 hpos hnm hh
    fun old => rmwValue e.u e.op old e.data.toNat e.data2.toNat
  rw [hval, spadPut_mod h1 h2 h3 hpos]
  obtain ⟨m, he1, -⟩ := spadPut_here (handedAway_sub hh h2 h3) hpos ht hw
    (rmwValue e.u e.op (spadRead s o.team e.va.toNat e.size) e.data.toNat e.data2.toNat)
  generalize hs1 : spadPut s o.team e.va.toNat e.size
    (rmwValue e.u e.op (spadRead s o.team e.va.toNat e.size) e.data.toNat e.data2.toNat) = s1 at *
  have hgrids : t2.grids = s.grids := by
    obtain ⟨-, -, -, -, -, h6⟩ := hwoke.keeps
    have h7 := congrArg State.grids honly.rest
    have h8 := congrArg State.grids he1
    exact h6.trans (Eq.trans h7 h8)
  have hperf : performTogether s o k e (e.pa.getD 0) = (setElem t2 o k { e with
      st := .done
      res := BitVec.ofNat 64 (spadRead s o.team e.va.toNat e.size) }, [] ++ ks) := by
    rw [performTogether_eq, hjs, performList, List.foldl_cons, List.foldl_nil, hid]
    simp only [ho, he, performHome_modifies (.inl ⟨u, d, hk⟩), rmwElem, hsp, hup]
  have hstep := homeStep_scratch ho hn
  rw [hperf] at hstep
  obtain ⟨k1, k3, k4, k5, k6⟩ := settleOp_keepsRest (setElem t2 o k { e with
      st := .done
      res := BitVec.ofNat 64 (spadRead s o.team e.va.toNat e.size) }) op
  have hexec := exec_atomicAtHome ho hk k
  rw [hstep, settleKeys_plain (gridRepro_plain hgrid (k5.trans hgrids))] at hexec
  refine ⟨_, hexec, ?_⟩
  obtain ⟨a1, -, a3, a4, -, a6⟩ := (atomAcquire_same (settleOp (setElem t2 o k { e with
      st := .done
      res := BitVec.ofNat 64 (spadRead s o.team e.va.toNat e.size) }) op) op).keeps
  refine hbar.counted (a1.trans k1) (a6.trans k6) rfl (a3.trans k3) (a4.trans k4) fun n g hg => ?_
  obtain ⟨g', hg', hsame⟩ := settleOp_group (setElem t2 o k { e with
      st := .done
      res := BitVec.ofNat 64 (spadRead s o.team e.va.toNat e.size) }) op hg
  refine ⟨g', ?_, hsame⟩
  rw [← hg', groupOf, groupOf]
  exact congrArg _ (atomAcquire_groups ..)

/-! ## O32 -/

/-- Settles O32: the lanes of a place act one after another (`performTogether_acts`), each on what the one before has left. -/
theorem atomicAtHome : Obligations.AtomicAtHome := by
  unfold Obligations.AtomicAtHome
  refine ⟨?_, ?_, ?_⟩
  · intro i s op k o e pa s1 ho hi hn hst hr hm hb js
    obtain ⟨t, hexec, hw, hdone⟩ := atHome_memory ho hi hn hst hr hm hb
    refine ⟨t, hexec, hw, (withElem_mem (elemNext_parts hn).1).1, hdone, fun hno => withElem_alone ?_ k e⟩
    rcases hi with ⟨-, u, d, hk⟩ | ⟨-, x, hk⟩ | ⟨-, hk⟩
    · cases d with
      | none => simp [Op.consecutive, hk]
      | some d => exact absurd hk (hno u d)
    · simp [Op.consecutive, hk]
    · simp [Op.consecutive, hk]
  · intro i s op k o e tm c ho hi hn hst ht hc hroom
    have htid := teamOf_tid ht
    have hi' : (i = .atomicAtHome ∧ ∃ u d, o.kind = .rmw u d) ∨ (i = .joinCounterDecrement ∧ ∃ x, o.kind = .dec x) ∨
        (i = .censusFold ∧ o.kind = .fold) := by
      rcases hi with ⟨h1, u, hk⟩ | h
      · exact .inl ⟨h1, u, none, hk⟩
      · exact .inr (.inr h)
    have hstep := homeStep_streamed ho hn hst
    rw [streamElem_room ht hc hroom] at hstep
    obtain ⟨t, hexec, hsame⟩ := exec_home ho hi' hstep
    obtain ⟨m1, -, m3, -⟩ := hsame.keeps
    obtain ⟨k1, k3, -⟩ := settleOp_keepsRest (setElem (setTeam s { tm with stream := tm.stream ++ [streamItem s o e] }) o k
      { e with st := .done }) op
    refine ⟨t, hexec, m1.trans k1, ?_⟩
    rw [teamOf, m3, k3]
    exact teamOf_setTeam ht htid
  · intro s op k o e u d tm ho hk hn hs ht hpos js old
    refine ⟨fun hp => ?_, fun off hids hgrid hjs h1 h2 h3 hnm hh => ?_⟩
    · obtain ⟨t, hexec, hmem, hval, hbytes, hdone⟩ := atHome_plain ho hk hn hs ht hpos hp
      refine ⟨t, hexec, hmem, (withElem_mem (spadNext_parts hn).1).1, fun hd => withElem_alone ?_ k e, hval, hbytes, hdone⟩
      simp [Op.consecutive, hk, hd]
    · have hjs' : js = [k] := hjs
      rw [hjs']
      exact atHome_object ho hk hn hs ht hpos hids hgrid hjs h1 h2 h3 hnm hh

end Sys2Proof.Machine
end

section
/-!
SUPPORT. An object that an instruction names (log 53), and the object put under it with its check (08 R165 to R168).
-/
namespace Sys2Proof.Machine

/-! ## Naming an object -/

theorem findObj_off (l : List BarObj) (off : Nat) : (findObj l off).off = off := by
  unfold findObj
  cases h : l.find? (·.off == off) with
  | none => rfl
  | some o => simpa using List.find?_some h

theorem isNamed_namedIn (l : List BarObj) (off : Nat) {f : BarObj → BarObj} (hf : ∀ o, (f o).off = o.off) :
    isNamed (namedIn l off f) off = true := by
  simp [isNamed, namedIn, hf, findObj_off]

/-- A value's bytes put where they stand. -/
theorem patched_self {m : List Host.Cell} (h : memWf m = true) (off n : Nat) : Patched m m off n (memReadN m off n) := by
  refine ⟨h, fun x => ?_⟩
  split
  next hx =>
    have hlen : ∀ (k a : Nat), (memReadBytes m a k).length = k := by
      intro k
      induction k with
      | zero => exact fun _ => rfl
      | succ k ih => exact fun a => by simp [memReadBytes, ih]
    have hget : ∀ (k a j : Nat), j < k → (memReadBytes m a k).getD j memDefault = memRead m (a + j) := by
      intro k
      induction k with
      | zero => exact fun _ _ h => absurd h (Nat.not_lt_zero _)
      | succ k ih =>
        intro a j hj
        cases j with
        | zero => rfl
        | succ j =>
          rw [memReadBytes, List.getD_cons_succ, ih (a + 1) j (by omega)]
          congr 1
          omega
    rw [← natToBytes_bytes n _ _ (by omega), natToBytes_readN, hget n off (x - off) (by omega)]
    congr 1
    omega
  next => rfl

/-- What an unnamed object holds once it is met. -/
def metValue (s : State) (tid off : Nat) : Nat :=
  (objOf s tid off).latent.getD
    (settle (Bar.ofNat (spadRead s tid off 16)) { off := 0, phases := [], lots := [], latent := none }).bar.toNat

theorem Bar.toNat_mod {b : Bar} : b.toNat % 256 ^ 16 = b.toNat := Nat.mod_eq_of_lt (Bar.toNat_lt b)

theorem meetObj_unnamed {s : State} {tid off : Nat} (h : named s tid off = false) : meetObj s tid off =
    nameObj (if metValue s tid off = spadRead s tid off 16 then s else putBar s tid off (Bar.ofNat (metValue s tid off))) tid off
      fun o => { o with phases := [], lots := [] } := by
  rw [meetObj, if_neg (by simp [h])]
  rfl

/-- Meeting an object: its bytes, and that it is named. -/
theorem meetObj_spec {s : State} {tid off : Nat} {tm : Team} (hh : handedAway s tid off 16 = false) (ht : teamOf s tid = some tm)
    (hw : memWf tm.spad = true) (hn : named s tid off = false) :
    ∃ m O, meetObj s tid off = setTeam s { tm with spad := m, objs := O } ∧ isNamed O off = true ∧ memWf m = true ∧
      (∃ v, Patched m tm.spad off 16 v) ∧ Bar.ofNat (memReadN m off 16) = Bar.ofNat (metValue s tid off) := by
  have hread := spadRead_here hh (by omega) ht
  rw [meetObj_unnamed hn]
  by_cases hv : metValue s tid off = spadRead s tid off 16
  · rw [if_pos hv, nameObj_here hh ht]
    refine ⟨tm.spad, _, rfl, isNamed_namedIn _ _ fun _ => rfl, hw, ⟨_, patched_self hw off 16⟩, ?_⟩
    rw [hv, hread]
  · rw [if_neg hv]
    obtain ⟨m, he, hm⟩ := putBar_nameObj hh ht hw (Bar.ofNat (metValue s tid off)) fun o => { o with phases := [], lots := [] }
    refine ⟨m, _, he, isNamed_namedIn _ _ fun _ => rfl, hm.1, ⟨_, hm⟩, ?_⟩
    rw [hm.read, Bar.toNat_mod, Bar.ofNat_toNat (Bar.ofNat_fits _)]

/-- The state in which an instruction has met its object. -/
structure MetIn (s t : State) (tid off : Nat) : Prop where
  met : Met s t tid off
  only : OnlyObject s t tid off
  team : ∃ tm, teamOf t tid = some tm ∧ memWf tm.spad = true

theorem meetObj_met {s : State} {tid off : Nat} {tm : Team} (hh : handedAway s tid off 16 = false) (ht : teamOf s tid = some tm)
    (hw : memWf tm.spad = true) : MetIn s (meetObj s tid off) tid off := by
  cases hn : named s tid off with
  | true =>
    have e : meetObj s tid off = s := by rw [meetObj, if_pos hn]
    rw [e]
    exact ⟨⟨fun _ => rfl, by simp [hn], by simp [hn], fun _ _ => hn, fun _ _ _ => rfl, fun _ _ _ => rfl, rfl⟩, .refl .., tm, ht, hw⟩
  | false =>
    obtain ⟨m, O, he, hO, hwf, ⟨v, hpatch⟩, hval⟩ := meetObj_spec hh ht hw hn
    have htid := teamOf_tid ht
    have ht' : teamOf (setTeam s { tm with spad := m, objs := O }) tid = some { tm with spad := m, objs := O } :=
      teamOf_setTeam ht htid
    have hbar : barAt (setTeam s { tm with spad := m, objs := O }) tid off = Bar.ofNat (metValue s tid off) := by
      rw [barAt_here (by exact hh) ht']
      exact hval
    have honly := onlyObject_setTeam (O := O) ht hpatch
    rw [he]
    refine ⟨⟨by simp [hn], fun _ _ hl => ?_, fun _ _ w hl _ => ?_, fun _ _ => ?_, honly.bytes, fun k hk _ => honly.teams k hk, rfl⟩,
      honly, _, ht', hwf⟩
    · have hset := settle_settles (barAt s tid off) { off := 0, phases := [], lots := [], latent := none }
      refine ⟨(settle (barAt s tid off) { off := 0, phases := [], lots := [], latent := none }).passed, ?_⟩
      rw [hbar, metValue, hl, Option.getD_none, show Bar.ofNat (spadRead s tid off 16) = barAt s tid off from rfl,
        Bar.ofNat_toNat (hset.fits (Bar.ofNat_fits _))]
      exact hset
    · rw [hbar, metValue, hl, Option.getD_some]
    · rw [named_here (by exact hh) ht']
      exact hO

/-! ## An object put under a name, with its check -/

theorem BarPut.from {s s1 t : State} {tid off : Nat} {b : Bar} (h : OnlyObject s s1 tid off) (k : BarPut s1 t tid off b) :
    BarPut s t tid off b := by
  obtain ⟨⟨c, ps, hset, hbar, hwake⟩, hregs, ⟨m1, m2, m3⟩, hbytes, hteams⟩ := k
  have hg : ∀ n, groupOf s1 n = groupOf s n := fun n => by rw [groupOf, groupOf, h.groups]
  have e1 := congrArg State.mem h.rest
  have e2 := congrArg State.rings h.rest
  have e3 := congrArg State.ops h.rest
  refine ⟨⟨c, ps, hset, hbar, fun g p ph a => hwake g p ph ((hg _).trans a)⟩, fun n g a => hregs n g ((hg n).trans a),
    ⟨m1.trans e1, m2.trans e2, m3.trans e3⟩, fun x hx ho => ?_, fun k hk => (hteams k hk).trans (h.teams k hk)⟩
  exact (hbytes x ((handedAway_handles h.handles ..).trans hx) ho).trans (h.bytes x hx ho)

theorem OnlyObject.ids {s t : State} {tid off : Nat} (h : OnlyObject s t tid off) (hi : IdsOk s) : IdsOk t := by
  have e := congrArg State.nextId h.rest
  exact idsOk_of hi h.groups e

/-- An object put and named, and its check. -/
theorem put_check {s : State} {tid off : Nat} {tm : Team} (hids : IdsOk s) (hh : handedAway s tid off 16 = false)
    (ht : teamOf s tid = some tm) (hw : memWf tm.spad = true) (b : Bar) (f : BarObj → BarObj) :
    let s1 := nameObj (putBar s tid off b) tid off f
    OnlyObject s s1 tid off ∧ barAt s1 tid off = Bar.ofNat b.toNat ∧
      BarPut s (barCheck s1 tid off).1 tid off (Bar.ofNat b.toNat) ∧
      ∃ s2, OnlyObject s s2 tid off ∧ Woke s2 (barCheck s1 tid off).1 := by
  obtain ⟨m, he, hm⟩ := putBar_nameObj hh ht hw b f
  have htid := teamOf_tid ht
  have ht' : teamOf (setTeam s { tm with spad := m, objs := namedIn tm.objs off f }) tid =
      some { tm with spad := m, objs := namedIn tm.objs off f } := teamOf_setTeam ht htid
  have honly := onlyObject_setTeam (O := namedIn tm.objs off f) ht hm
  have hbar : barAt (setTeam s { tm with spad := m, objs := namedIn tm.objs off f }) tid off = Bar.ofNat b.toNat := by
    have hread : memReadN m off 16 = b.toNat := by
      rw [hm.read]
      exact Nat.mod_eq_of_lt (Bar.toNat_lt _)
    rw [barAt_here (by exact hh) ht']
    exact congrArg Bar.ofNat hread
  obtain ⟨h1, s2, h2, h3⟩ := barCheck_put (honly.ids hids) (by exact hh) ht' hm.1
  dsimp only
  rw [he]
  rw [hbar] at h1
  exact ⟨honly, hbar, h1.from honly, s2, honly.trans h2, h3⟩

/-! ## Waiters of a harvest that go on -/

theorem phasesDue_mem {s : State} {grid : Nat} {x : Nat × Nat × PhaseDue} (h : x ∈ phasesDue s grid) :
    ∃ g ∈ s.groups, ∃ p ∈ g.splits, x.1 = g.gid ∧ x.2.1 = p.sid ∧ ∃ o ph d, p.state = .waitPhase o ph (some d) := by
  simp only [phasesDue, List.mem_flatMap, List.mem_filter, List.mem_filterMap] at h
  obtain ⟨g, ⟨hg, -⟩, p, hp, he⟩ := h
  split at he
  next o ph d hst =>
    cases he
    exact ⟨g, hg, p, hp, rfl, rfl, o, ph, d, hst⟩
  next => cases he

/-- A split that waits for no harvest is not woken by one. -/
theorem splitAt_wakeHarvested {s : State} {gid sid : Nat} {st : SplitState} (h : SplitAt s gid sid st)
    (hn : (s.groups.map Group.gid).Nodup) (hsids : SidsOk s) (hst : ∀ o ph d, st ≠ .waitPhase o ph (some d)) (grid : Nat) :
    SplitAt (wakeHarvested s grid) gid sid st := by
  have hne : ∀ x ∈ phasesDue s grid, (x.1, x.2.1) ≠ (gid, sid) := by
    intro x hx e
    obtain ⟨g, hg, p, hp, e1, e2, o, ph, d, hs⟩ := phasesDue_mem hx
    obtain ⟨g', p', hg', -, hp', hst'⟩ := h
    have hgid : g.gid = gid := e1.symm.trans (congrArg Prod.fst e)
    have hgg := groupOf_of_mem hn hg
    rw [hgid, hg'] at hgg
    cases hgg
    have hpid : p.sid = sid := e2.symm.trans (congrArg Prod.snd e)
    have hpp := splitOf_of_mem (hsids _ _ hg') hp
    rw [hpid, hp'] at hpp
    cases hpp
    exact hst o ph d (hst'.symm.trans hs)
  have key : ∀ (xs : List (Nat × Nat × PhaseDue)), (∀ x ∈ xs, (x.1, x.2.1) ≠ (gid, sid)) → ∀ t, SplitAt t gid sid st →
      SplitAt (xs.foldl (fun s x => if harvestOut s grid x.2.2.key then s else goOnPhase s x.1 x.2.1 x.2.2.lt true) t) gid sid st := by
    intro xs
    induction xs with
    | nil => exact fun _ t h => h
    | cons x xs ih =>
      intro hx t ht
      refine ih (fun y hy => hx y (by simp [hy])) _ ?_
      dsimp only
      split
      · exact ht
      · have := splitAt_goOnPhase ht x.1 x.2.1 x.2.2.lt true
        rw [if_neg (hx x (by simp))] at this
        exact this
  exact key _ hne s h

theorem woke_wakeHarvested {s : State} (hs : SidsOk s) (grid : Nat) : Woke s (wakeHarvested s grid) := by
  have key : ∀ (xs : List (Nat × Nat × PhaseDue)) (t : State), SidsOk t →
      Woke t (xs.foldl (fun s x => if harvestOut s grid x.2.2.key then s else goOnPhase s x.1 x.2.1 x.2.2.lt true) t) := by
    intro xs
    induction xs with
    | nil => exact fun t _ => .refl t
    | cons x xs ih =>
      intro t ht
      have h1 : Woke t (if harvestOut t grid x.2.2.key then t else goOnPhase t x.1 x.2.1 x.2.2.lt true) := by
        split
        · exact .refl t
        · exact woke_goOnPhase ht ..
      exact h1.trans (ih _ (h1.sidsOk ht))
  exact key _ s hs

/-- A check that completes no phase, and the harvested waiters that go on after it. -/
theorem BarPut.harvested {s s2 t : State} {tid off : Nat} {b : Bar} (hids : IdsOk s) (honly : OnlyObject s s2 tid off) (hw : Woke s2 t)
    (h : BarPut s t tid off b) (grid : Nat) : BarPut s (wakeHarvested t grid) tid off b := by
  have hsids : SidsOk t := hw.sidsOk (.of_ids (honly.ids hids))
  have hn : (t.groups.map Group.gid).Nodup := by
    rw [hw.gids, honly.groups]
    exact hids.groups
  have hwoke := woke_wakeHarvested hsids grid
  obtain ⟨k1, k2, k3, k4, k5, -⟩ := hwoke.keeps
  obtain ⟨⟨c, ps, hset, hbar, hwake⟩, hregs, ⟨m1, m2, m3⟩, hbytes, hteams⟩ := h
  refine ⟨⟨c, ps, hset, ?_, ?_⟩, ?_, ⟨k3.trans m1, k4.trans m2, k5.trans m3⟩, ?_, ?_⟩
  · rw [← hbar, barAt, barAt, spadRead_same k1 k2]
  · intro g p ph a1 a2 a3 a4 a5 a6
    obtain ⟨g', p', b1, b2, b3⟩ := hwake g p ph a1 a2 a3 a4 a5 a6
    have hg2 : groupOf s2 g.gid = some g := by rw [groupOf, honly.groups]; exact a1
    obtain ⟨x, hx, hreg⟩ := hw.group hg2
    rw [b1] at hx
    cases hx
    have hat : SplitAt t g.gid p.sid p'.state := ⟨g', p', b1, hreg.repro.trans a4, b2, rfl⟩
    have hst : ∀ o ph d, p'.state ≠ .waitPhase o ph (some d) := by
      intro o ph' d e
      rw [b3] at e
      split at e
      · cases e
      · rw [a6] at e
        cases e
    obtain ⟨g2, p2, c1, -, c2, c3⟩ := splitAt_wakeHarvested hat hn hsids hst grid
    exact ⟨g2, p2, c1, c2, c3.trans b3⟩
  · intro n g a
    obtain ⟨g', b1, b2, b3, b4, b5, b6, b7⟩ := hregs n g a
    obtain ⟨g2, c1, c2⟩ := hwoke.group b1
    exact ⟨g2, c1, c2.vregs.trans b2, c2.oregs.trans b3, c2.sregs.trans b4, c2.status.trans b5, c2.srctr.trans b6, c2.pcs.trans b7⟩
  · intro x a1 a2
    rw [spadRead_same k1 k2]
    exact hbytes x a1 a2
  · intro k hk
    rw [teamOf, k1]
    exact hteams k hk

/-- A check that completes no phase brings no harvest. -/
theorem barCheck_nothing {s : State} {tid off : Nat} (h : (barAt s tid off).ripe = false) : (barCheck s tid off).2 = [] := by
  have hp : (settle (barAt s tid off) (objOf s tid off)).passed = [] := by
    rw [settle, Checked.loop, if_neg (by simp [h])]
  simp [barCheck, hp]

end Sys2Proof.Machine
end

section
/-!
SUPPORT. The barrier instructions, as O38 states them (08 R167 to R170, 20 R296 to R299).
-/
namespace Sys2Proof.Machine

/-! ## The common course -/

theorem objTrap_here {u : Iss} {off : Nat} (h : (objTrap u off).isNone = true) :
    handedAway u.s u.g.team off 16 = false ∧ ∃ tm, teamOf u.s u.g.team = some tm := by
  cases ht : teamOf u.s u.g.team with
  | none =>
    simp only [objTrap, teamOfIss, ht, Option.getD_none, spadLimit] at h
    split at h
    · cases h
    · simp at h
  | some tm =>
    have htid := teamOf_tid ht
    refine ⟨?_, tm, rfl⟩
    simp only [objTrap, teamOfIss, ht, Option.getD_some, htid] at h
    split at h
    · cases h
    · split at h
      · cases h
      · split at h
        · cases h
        next hh => simpa using hh

/-- A barrier instruction that reaches its object acts on the object as it is met. -/
theorem runBarrier_reaches {u : Iss} {f : RFmt} {kinds values nondet : Bool} {body : Iss → Nat → Bar → Eff} (hk : kinds = true)
    (hv : values = true) (hn : nondet = false) (h : barrierOk u f = true) :
    runBarrier u f kinds values nondet body =
      body (met u (barOff u f)) (barOff u f) (barAt (meetObj u.s u.g.team (barOff u f)) u.g.team (barOff u f)) := by
  simp only [barrierOk, Bool.and_eq_true, Bool.not_eq_true', Option.isNone_iff_eq_none] at h
  obtain ⟨⟨⟨⟨h1, h2⟩, h3⟩, h4⟩, h5⟩ := h
  simp [runBarrier, hk, hv, hn, h1, h2, h3, h4, h5, met]

theorem barrierOk_here {u : Iss} {f : RFmt} (h : barrierOk u f = true) :
    handedAway u.s u.g.team (barOff u f) 16 = false ∧ ∃ tm, teamOf u.s u.g.team = some tm := by
  simp only [barrierOk, Bool.and_eq_true] at h
  exact objTrap_here h.1.2

/-- What a barrier instruction has met. -/
theorem barrier_met {u : Iss} {f : RFmt} (h : barrierOk u f = true) (hs : SpadsOk u.s) :
    MetIn u.s (meetObj u.s u.g.team (barOff u f)) u.g.team (barOff u f) := by
  obtain ⟨hh, tm, ht⟩ := barrierOk_here h
  exact meetObj_met hh ht (hs.1 tm (List.mem_of_find?_eq_some ht))

/-- The object put by a barrier instruction, and its check. -/
theorem barrier_put {u : Iss} {f : RFmt} (h : barrierOk u f = true) (hs : SpadsOk u.s) (hids : IdsOk u.s) {b : Bar} (hb : b.Fits)
    (g : BarObj → BarObj) :
    let s0 := meetObj u.s u.g.team (barOff u f)
    let s1 := nameObj (putBar s0 u.g.team (barOff u f) b) u.g.team (barOff u f) g
    OnlyObject s0 s1 u.g.team (barOff u f) ∧ barAt s1 u.g.team (barOff u f) = b ∧
      BarPut s0 (barCheck s1 u.g.team (barOff u f)).1 u.g.team (barOff u f) b ∧ IdsOk s0 ∧
      ∃ s2, OnlyObject s0 s2 u.g.team (barOff u f) ∧ Woke s2 (barCheck s1 u.g.team (barOff u f)).1 := by
  obtain ⟨hh, -⟩ := barrierOk_here h
  obtain ⟨-, honly, tm, ht, hw⟩ := barrier_met h hs
  have hids0 := honly.ids hids
  obtain ⟨h1, h2, h3, h4⟩ := put_check hids0 ((handedAway_handles honly.handles ..).trans hh) ht hw b g
  rw [Bar.ofNat_toNat hb] at h2 h3
  exact ⟨h1, h2, h3, hids0, h4⟩

/-! ## What an instruction reads stands while its object is met -/

theorem readNat_met {u : Iss} {t : State} (h : t.rings = u.s.rings) (imm : DWord) (wide : Bool) (o : Opnd) (l : Nat) :
    readNat { u with s := t } imm wide o l = readNat u imm wide o l := by
  have hw : ∀ o, readWord { u with s := t } 0#32 o l = readWord u 0#32 o l := by
    intro o
    cases o <;> simp [readWord, latchRead, ringOf, h]
  cases o <;> simp [readNat, hw]

theorem released_met {u : Iss} {t : State} (ho : t.ops = u.s.ops) (hn : t.nextId = u.s.nextId) (wide : Bool) :
    released { u with s := t } wide = released u wide := by
  simp only [released, groupParked, gatesOut, coreSeen, ho, hn]

theorem onlyObject_keeps {s t : State} {tid off : Nat} (h : OnlyObject s t tid off) : t.rings = s.rings ∧ t.ops = s.ops ∧
    t.nextId = s.nextId ∧ t.grids = s.grids := by
  have h1 := congrArg State.rings h.rest
  have h2 := congrArg State.ops h.rest
  have h3 := congrArg State.nextId h.rest
  have h4 := congrArg State.grids h.rest
  exact ⟨h1, h2, h3, h4⟩

theorem barVal_met {u : Iss} {off : Nat} (h : OnlyObject u.s (meetObj u.s u.g.team off) u.g.team off) (f : RFmt) (o : Opnd) :
    barVal (met u off) f o = barVal u f o := readNat_met (onlyObject_keeps h).1 ..

theorem barVal_lt (u : Iss) (f : RFmt) {o : Opnd} (h : siOk o = true) : barVal u f o < 2 ^ 32 := by
  unfold barVal readNat
  split
  · exact Nat.mod_lt _ (by decide)
  · exact BitVec.isLt _

/-! ## BINIT -/

/-- The object that BINIT leaves. -/
def initBar (u : Iss) (f : RFmt) : Bar :=
  { phase := 0, exp := barVal u f f.b, arr := 0, ahead := 0, ovr := false, trapovr := f.mod.getLsbD 0, carry := f.mod.getLsbD 1,
    expbytes := barVal u f f.c, landed := 0 }

theorem initBar_fits {u : Iss} {f : RFmt} (hc : siOk f.c = true) (hn : barVal u f f.b ≤ 8191) : (initBar u f).Fits :=
  ⟨Nat.two_pow_pos 16, Nat.lt_of_le_of_lt hn (by decide), Nat.two_pow_pos 16, Nat.two_pow_pos 13, barVal_lt u f hc, Nat.two_pow_pos 32⟩

theorem initBar_unripe {u : Iss} {f : RFmt} (h : barVal u f f.b ≠ 0 ∨ barVal u f f.c ≠ 0) : (initBar u f).ripe = false := by
  rw [← Bool.not_eq_true, Bar.ripe_iff]
  simp only [initBar]
  omega

theorem exec_binit {f : RFmt} {s : State} {u : Iss} (h : issuer s (.binit f) = some u) (hc : clear u = true) (hids : IdsOk s)
    (hs : SpadsOk s) (hk : (siOk f.b && siOk f.c) = true) (hn : barVal u f f.b ≤ 8191)
    (hnz : barVal u f f.b ≠ 0 ∨ barVal u f f.c ≠ 0) (hok : barrierOk u f = true) :
    ∃ s2, exec (.binit f) s = .next (retire s2 u true) ∧
      BarPut (meetObj s u.g.team (barOff u f)) s2 u.g.team (barOff u f) (initBar u f) := by
  obtain ⟨rfl, -⟩ := issuer_state h
  have hc' : siOk f.c = true := by simp_all
  have hvals : (decide (barVal u f f.b ≤ 8191) && (barVal u f f.b != 0 || barVal u f f.c != 0)) = true := by
    simpa [hn] using hnz
  obtain ⟨-, hbar, hput, hids0, s2, honly, hwoke⟩ := barrier_put hok hs hids (initBar_fits hc' hn)
    fun x => { x with phases := [], lots := [] }
  have hks := barCheck_nothing (tid := u.g.team) (off := barOff u f) (hbar ▸ initBar_unripe hnz)
  have hexec : exec (.binit f) u.s = execBinit f u.s := rfl
  rw [hexec, execBinit, runInstr_next h hc, runBarrier_reaches hk hvals rfl hok]
  refine ⟨_, rfl, ?_⟩
  have hsplit : barCheck (nameObj (putBar (meetObj u.s u.g.team (barOff u f)) u.g.team (barOff u f) (initBar u f)) u.g.team
      (barOff u f) fun x => { x with phases := [], lots := [] }) u.g.team (barOff u f) =
      ((barCheck (nameObj (putBar (meetObj u.s u.g.team (barOff u f)) u.g.team (barOff u f) (initBar u f)) u.g.team
        (barOff u f) fun x => { x with phases := [], lots := [] }) u.g.team (barOff u f)).1, []) := Prod.ext rfl hks
  show BarPut _ (settleKeys u.g.grid (barCheck (nameObj (putBar (meetObj u.s u.g.team (barOff u f)) u.g.team (barOff u f) (initBar u f))
    u.g.team (barOff u f) fun x => { x with phases := [], lots := [] }) u.g.team (barOff u f))) _ _ _
  rw [hsplit, settleKeys_nil]
  split
  · exact hput.harvested hids0 honly hwoke _
  · exact hput

/-! ## BARR and BEXP -/

/-- A check in a grid that harvests nothing. -/
theorem settleKeys_barCheck {s s0 s1 s2 : State} {tid off grid : Nat} (hp : plainGrid s grid) (h0 : OnlyObject s s0 tid off)
    (h1 : OnlyObject s0 s2 tid off) (h2 : Woke s2 (barCheck s1 tid off).1) :
    settleKeys grid (barCheck s1 tid off) = (barCheck s1 tid off).1 := by
  obtain ⟨-, -, -, -, -, k⟩ := h2.keeps
  obtain ⟨-, -, -, e0⟩ := onlyObject_keeps h0
  obtain ⟨-, -, -, e1⟩ := onlyObject_keeps h1
  exact settleKeys_plain (gridRepro_plain hp (k.trans (e1.trans e0))) _

/-- The object that an arrival of count `n` for phase `p` leaves. -/
def arrived (b : Bar) (n p : Nat) : Bar :=
  let k := (p + 2 ^ 16 - b.phase) % 2 ^ 16
  let cur := if k = 0 then b.arr else b.ahead
  let new := min (cur + n) b.exp
  { b with ovr := b.ovr || decide (b.exp < cur + n), arr := if k = 0 then new else b.arr,
           ahead := if k = 0 then b.ahead else new % 2 ^ 13 }

theorem arrived_fits {b : Bar} (h : b.Fits) (n p : Nat) : (arrived b n p).Fits := by
  obtain ⟨h1, h2, h3, h4, h5, h6⟩ := h
  constructor <;> simp only [arrived]
  · exact h1
  · exact h2
  · split <;> omega
  · split <;> omega
  · exact h5
  · exact h6

/-- The object as `arrive` writes it, AHEAD not yet cut to its width. -/
def arrivedRaw (b : Bar) (n p : Nat) : Bar :=
  let k := (p + 2 ^ 16 - b.phase) % 2 ^ 16
  let cur := if k = 0 then b.arr else b.ahead
  let excess := decide (b.exp < cur + n)
  let v := if excess then b.exp else cur + n
  let b := { b with ovr := b.ovr || excess }
  if k = 0 then { b with arr := v } else { b with ahead := v }

theorem arrivedRaw_toNat (b : Bar) (n p : Nat) : (arrivedRaw b n p).toNat = (arrived b n p).toNat := by
  simp only [arrivedRaw, arrived]
  by_cases hk : (p + 2 ^ 16 - b.phase) % 2 ^ 16 = 0
  · simp only [hk, if_true]
    by_cases he : b.exp < b.arr + n
    · simp [he, Nat.min_eq_right (Nat.le_of_lt he)]
    · simp [he, Nat.min_eq_left (Nat.le_of_not_lt he)]
  · simp only [hk, if_false]
    by_cases he : b.exp < b.ahead + n
    · simp [he, Nat.min_eq_right (Nat.le_of_lt he), Bar.toNat]
    · simp [he, Nat.min_eq_left (Nat.le_of_not_lt he), Bar.toNat]

theorem putBar_congr {a b : Bar} (h : a.toNat = b.toNat) (s : State) (tid off : Nat) : putBar s tid off a = putBar s tid off b := by
  rw [putBar, putBar, h]

/-- An arrival that its object allows. -/
theorem arrive_done {u : Iss} {off n p : Nat} {b : Bar} {dev : Bool} (hk : (p + 2 ^ 16 - b.phase) % 2 ^ 16 < 2)
    (ho : b.exp < (if (p + 2 ^ 16 - b.phase) % 2 ^ 16 = 0 then b.arr else b.ahead) + n → b.trapovr = false) :
    arrive u off b n p dev = .done (settleKeys u.g.grid (barCheck (nameObj (putBar u.s u.g.team off (arrived b n p)) u.g.team off
      fun o => o.arrival p dev u.g.lt u.g.gindex) u.g.team off)) := by
  have hex : (decide (b.exp < (if (p + 2 ^ 16 - b.phase) % 2 ^ 16 = 0 then b.arr else b.ahead) + n) && b.trapovr) = false := by
    by_cases h : b.exp < (if (p + 2 ^ 16 - b.phase) % 2 ^ 16 = 0 then b.arr else b.ahead) + n
    · rw [ho h, Bool.and_false]
    · rw [decide_eq_false h, Bool.false_and]
  rw [← putBar_congr (arrivedRaw_toNat b n p)]
  unfold arrive
  simp only [if_neg (Nat.not_le_of_lt hk), hex, Bool.false_eq_true, if_false]
  rfl

theorem arrive_phase {u : Iss} {off n p : Nat} {b : Bar} {dev : Bool} (hk : 2 ≤ (p + 2 ^ 16 - b.phase) % 2 ^ 16) :
    arrive u off b n p dev = phaseTrap u off p := by
  unfold arrive
  rw [if_pos hk]

theorem arrive_overrun {u : Iss} {off n p : Nat} {b : Bar} {dev : Bool} (hk : (p + 2 ^ 16 - b.phase) % 2 ^ 16 < 2)
    (ho : b.exp < (if (p + 2 ^ 16 - b.phase) % 2 ^ 16 = 0 then b.arr else b.ahead) + n) (ht : b.trapovr = true) :
    arrive u off b n p dev = trapAll u .barrierOverrun off (b.toNat % 2 ^ 64) := by
  unfold arrive
  simp only [if_neg (Nat.not_le_of_lt hk), ho, ht, decide_true, Bool.and_self, if_true]

/-- BARR as it acts on the object it has met. -/
theorem exec_barr {f : RFmt} {s : State} {u : Iss} (h : issuer s (.barr f) = some u) (hc : clear u = true) (hs : SpadsOk s)
    (hk : ((f.mod.getLsbD 0 || siOk f.b) && (!f.mod.getLsbD 1 || siOk f.c)) = true)
    (h1 : 1 ≤ (if f.mod.getLsbD 0 then max 1 (active u).count else barVal u f f.b))
    (h2 : (if f.mod.getLsbD 0 then max 1 (active u).count else barVal u f f.b) ≤ 8191) (hok : barrierOk u f = true)
    (hb : (barAt (meetObj s u.g.team (barOff u f)) u.g.team (barOff u f)).uninit = false) (hr : released u (f.mod.getLsbD 2) = true) :
    exec (.barr f) s = .next (commit u (arrive (met u (barOff u f)) (barOff u f)
      (barAt (meetObj s u.g.team (barOff u f)) u.g.team (barOff u f))
      (if f.mod.getLsbD 0 then max 1 (active u).count else barVal u f f.b)
      (if f.mod.getLsbD 1 then barVal u f f.c % 2 ^ 16 else (barAt (meetObj s u.g.team (barOff u f)) u.g.team (barOff u f)).phase)
      (f.mod.getLsbD 2))) := by
  obtain ⟨rfl, -⟩ := issuer_state h
  have honly := (barrier_met hok hs).only
  obtain ⟨-, e2, e3, -⟩ := onlyObject_keeps honly
  have hvals : (decide (1 ≤ (if f.mod.getLsbD 0 then max 1 (active u).count else barVal u f f.b)) &&
      decide ((if f.mod.getLsbD 0 then max 1 (active u).count else barVal u f f.b) ≤ 8191)) = true := by
    simp only [h1, h2, decide_true, Bool.and_self]
  have hrel : released (met u (barOff u f)) (f.mod.getLsbD 2) = true := (released_met e2 e3 _).trans hr
  have hexec : exec (.barr f) u.s = execBarr f u.s := rfl
  rw [hexec, execBarr, runInstr_next h hc, runBarrier_reaches hk hvals rfl hok]
  simp only [hb, hrel, barVal_met honly, Bool.not_true, Bool.false_eq_true, if_false]

theorem exec_bexp {f : RFmt} {s : State} {u : Iss} (h : issuer s (.bexp f) = some u) (hc : clear u = true) (hids : IdsOk s)
    (hs : SpadsOk s) (hk : siOk f.b = true) (hok : barrierOk u f = true) {b : Bar} {x : Nat}
    (hb : b = barAt (meetObj s u.g.team (barOff u f)) u.g.team (barOff u f))
    (hx : x = if f.mod.getLsbD 0 then barVal u f f.b else (b.expbytes + barVal u f f.b) % 2 ^ 32) (hun : b.uninit = false)
    (hnz : b.exp ≠ 0 ∨ x ≠ 0) (hp : plainGrid s u.g.grid) :
    ∃ s2, exec (.bexp f) s = .next (retire s2 u true) ∧
      BarPut (meetObj s u.g.team (barOff u f)) s2 u.g.team (barOff u f) { b with expbytes := x } := by
  obtain ⟨rfl, -⟩ := issuer_state h
  have honly := (barrier_met hok hs).only
  have hfits : b.Fits := hb ▸ Bar.ofNat_fits _
  have hxlt : x < 2 ^ 32 := by
    rw [hx]
    split
    · exact barVal_lt u f hk
    · exact Nat.mod_lt _ (by decide)
  have hfits' : ({ b with expbytes := x } : Bar).Fits := ⟨hfits.phase, hfits.exp, hfits.arr, hfits.ahead, hxlt, hfits.landed⟩
  obtain ⟨-, hbar, hput, hids0, s2, honly2, hwoke⟩ := barrier_put hok hs hids hfits' fun o => o.event b.phase u.g.lt
  have hcond : (b.uninit || (b.exp == 0 && x == 0)) = false := by
    simp only [hun, Bool.false_or, Bool.and_eq_false_iff, beq_eq_false_iff_ne]
    exact hnz
  have hexec : exec (.bexp f) u.s = execBexp f u.s := rfl
  rw [hexec, execBexp, runInstr_next h hc, runBarrier_reaches hk rfl rfl hok]
  simp only [barVal_met honly, ← hb, ← hx, hcond, Bool.false_eq_true, if_false]
  exact ⟨_, congrArg _ (congrArg (fun s => retire s u true) (settleKeys_barCheck hp honly honly2 hwoke)), hput⟩

/-! ## BTEST and BWAIT -/

theorem phaseAcquire_acquired (u : Iss) (s : State) (off p : Nat) :
    Acquired s (phaseAcquire u s off p) u.g.core ((objOf u.s u.g.team off).info p).dev := by
  unfold phaseAcquire Acquired
  split <;> rfl

theorem exec_btest {f : RFmt} {s : State} {u : Iss} (h : issuer s (.btest f) = some u) (hc : clear u = true) (hs : SpadsOk s)
    (hk : (siOk f.b && sOk false f.d) = true) (hok : barrierOk u f = true) (hrep : u.g.repro = false) {b : Bar} {p : Nat}
    (hb : b = barAt (meetObj s u.g.team (barOff u f)) u.g.team (barOff u f)) (hp : p = barVal u f f.b % 2 ^ 16)
    (hbad : phaseBad b p = false) :
    ∃ s2, exec (.btest f) s = .next (retire s2 u true) ∧
      Acquired (setGroup (meetObj s u.g.team (barOff u f)) (writeScalarNat u.g false f.d (if b.completed p then 1 else 0))) s2 u.g.core
        (b.completed p && ((objOf (meetObj s u.g.team (barOff u f)) u.g.team (barOff u f)).info p).dev) := by
  obtain ⟨rfl, -⟩ := issuer_state h
  have honly := (barrier_met hok hs).only
  have hexec : exec (.btest f) u.s = execBtest f u.s := rfl
  rw [hexec, execBtest, runInstr_next h hc, runBarrier_reaches hk rfl hrep hok]
  simp only [barVal_met honly, ← hb, ← hp, hbad, Bool.false_eq_true, if_false]
  refine ⟨_, rfl, ?_⟩
  cases hd : b.completed p with
  | true => exact phaseAcquire_acquired (met u (barOff u f)) _ _ _
  | false => rfl

/-- BWAIT as it acts on the object it has met. -/
theorem exec_bwait {f : RFmt} {s : State} {u : Iss} (h : issuer s (.bwait f) = some u) (hc : clear u = true) (hs : SpadsOk s)
    (hk : siOk f.b = true) (hok : barrierOk u f = true) {b : Bar} {p : Nat} {i : PhaseInfo}
    (hb : b = barAt (meetObj s u.g.team (barOff u f)) u.g.team (barOff u f)) (hp : p = barVal u f f.b % 2 ^ 16)
    (hi : i = (objOf (meetObj s u.g.team (barOff u f)) u.g.team (barOff u f)).info p)
    (hun : b.uninit = false) (hbad : phaseBad b p = false) :
    exec (.bwait f) s = .next (commit u (
      if b.completed p then
        if u.g.repro && i.dev && i.key.any (harvestOut (meetObj s u.g.team (barOff u f)) u.g.grid)
        then .wait (meetObj s u.g.team (barOff u f))
        else .done (phaseAcquire (met u (barOff u f))
          (setGroup (meetObj s u.g.team (barOff u f)) (raiseLbaseAtIssue u.g i.lt)) (barOff u f) p)
      else .done (updSplit (fresh (meetObj s u.g.team (barOff u f))).2 u.g.gid u.p.sid fun q =>
        { q with state := .waitPhase (barOff u f) p none, parkSeq := (meetObj s u.g.team (barOff u f)).nextId }))) := by
  obtain ⟨rfl, -⟩ := issuer_state h
  have honly := (barrier_met hok hs).only
  have hexec : exec (.bwait f) u.s = execBwait f u.s := rfl
  rw [hexec, execBwait, runInstr_next h hc, runBarrier_reaches hk rfl rfl hok]
  simp only [barVal_met honly, ← hb, ← hp, hun, hbad, Bool.false_eq_true, if_false, hi]
  rfl

theorem ofNat_low (x : Nat) : BitVec.ofNat 64 (x % 2 ^ 64) = BitVec.ofNat 64 x :=
  BitVec.eq_of_toNat_eq (by rw [BitVec.toNat_ofNat, BitVec.toNat_ofNat, Nat.mod_mod])

theorem setGroup_fresh_rest (s : State) (g : Group) :
    { setGroup (fresh s).2 g with groups := s.groups, nextId := s.nextId } = s := rfl

/-- Settles O38: each barrier instruction meets its object, acts on it as it stands, and runs the check. -/
theorem barrierInstructions : Obligations.BarrierInstructions := by
  unfold Obligations.BarrierInstructions
  refine ⟨?_, ?_, ?_, ?_, ?_⟩
  · intro f s u h hc hids hs n b s0 hk hn hnz hok
    obtain ⟨s2, hexec, hput⟩ := exec_binit h hc hids hs hk hn hnz hok
    obtain ⟨rfl, -⟩ := issuer_state h
    exact ⟨s2, hexec, (barrier_met hok hs).met, hput⟩
  · intro f s u h hc hids hs l n s0 b p k cur hk h1 h2 hok hun hr hp
    have hexec := exec_barr h hc hs hk h1 h2 hok hun hr
    obtain ⟨rfl, -⟩ := issuer_state h
    have hmet := barrier_met hok hs
    refine ⟨hmet.met, fun hk2 => ⟨_, hexec, ?_⟩, fun hk2 ho ht => ⟨_, hexec, ?_⟩, fun hk2 ho => ?_⟩
    · rw [arrive_phase hk2]
      exact ⟨_, rfl, rfl, rfl, rfl, rfl⟩
    · rw [arrive_overrun hk2 ho ht]
      exact ⟨_, rfl, rfl, rfl, ofNat_low _, rfl⟩
    · obtain ⟨-, hbar, hput, hids0, s2, honly2, hwoke⟩ := barrier_put hok hs hids (arrived_fits (Bar.ofNat_fits _) n p)
        fun o => o.arrival p (f.mod.getLsbD 2) u.g.lt u.g.gindex
      rw [arrive_done hk2 ho] at hexec
      exact ⟨_, hexec.trans (congrArg _ (congrArg (fun s => retire s u true) (settleKeys_barCheck hp hmet.only honly2 hwoke))), hput⟩
  · intro f s u h hc hids hs s0 b v x hk hok hun hnz hp
    obtain ⟨s2, hexec, hput⟩ := exec_bexp h hc hids hs hk hok rfl rfl hun hnz hp
    obtain ⟨rfl, -⟩ := issuer_state h
    exact ⟨s2, hexec, (barrier_met hok hs).met, hput⟩
  · intro f s u h hc hs s0 b p hk hok hrep hbad
    obtain ⟨s2, hexec, hacq⟩ := exec_btest h hc hs hk hok hrep rfl rfl hbad
    obtain ⟨rfl, -⟩ := issuer_state h
    exact ⟨s2, hexec, (barrier_met hok hs).met, hacq⟩
  · intro f s u h hc hs s0 b p i out hk hok hun hbad
    have hexec := exec_bwait h hc hs hk hok rfl rfl rfl hun hbad
    obtain ⟨rfl, -, -, hg, hp, -⟩ := issuer_state h
    have hmet := barrier_met hok hs
    refine ⟨hmet.met, fun hd ho => ?_, fun hd ho => ?_, fun hd => ?_⟩
    · rw [hexec, if_pos hd, if_pos ho]
      rfl
    · have ho' : ¬ (u.g.repro && i.dev && i.key.any (harvestOut s0 u.g.grid)) = true := by
        rw [Bool.not_eq_true]
        exact ho
      rw [hexec, if_pos hd, if_neg ho']
      exact ⟨_, rfl, phaseAcquire_acquired (met u (barOff u f)) _ _ _⟩
    · have hgs : groupOf (fresh s0).2 u.g.gid = some u.g := by
        show groupOf s0 u.g.gid = some u.g
        rw [groupOf, hmet.only.groups]
        exact hg
      rw [hexec, if_neg (by rw [hd]; decide), updSplit_eq hgs hp]
      refine ⟨_, rfl, groupOf_setGroup hgs rfl, fun n hn => ?_, setGroup_fresh_rest _ _⟩
      rw [groupOf_setGroup_other (by exact hn)]
      show groupOf s0 n = groupOf u.s n
      rw [groupOf, groupOf, hmet.only.groups]

end Sys2Proof.Machine
end

section
/-!
SUPPORT. The descriptors that lanes name (04 R81), requests to a future's home and their replies, and the waits on a join
counter (O42).
-/
namespace Sys2Proof.Machine

/-! ## Walks and reads -/

theorem OnlyRead.of_walked {s t : State} (h : Walked s t) : OnlyRead s t := by
  refine ⟨?_, h.2.1, h.2.2⟩
  exact congrArg (fun x : State => { x with freeCtr := s.freeCtr }) h.1

theorem OnlyRead.refl (s : State) : OnlyRead s s := .of_walked (.refl s)

theorem OnlyRead.trans {a b c : State} (h : OnlyRead a b) (k : OnlyRead b c) : OnlyRead a c := by
  refine ⟨?_, k.2.1.trans h.2.1, fun e => ?_⟩
  · conv_rhs => rw [← h.1]
    rw [← k.1]
  · obtain ⟨e1, e2, e3, e4⟩ := h.2.2 e
    obtain ⟨f1, f2, f3, f4⟩ := k.2.2 e1
    exact ⟨f1, f2.trans e2, f3.trans e3, f4.trans e4⟩

theorem onlyRead_choose (s : State) (n : Nat) : OnlyRead s (choose s n).2 := ⟨rfl, rfl, fun h => ⟨h, rfl, rfl, rfl⟩⟩

theorem readElem_cores (s : State) (o : Op) (e : Elem) (l1 : Bool) : (readElem s o e l1).2.2.cores.length = s.cores.length := by
  have hfill : ∀ core ctx va pa, (l1Fill s core ctx va pa).cores.length = s.cores.length := by
    intro core ctx va pa
    unfold l1Fill
    dsimp only
    split <;> simp [setCore]
  unfold readElem
  split
  · rfl
  · dsimp only
    split
    · rfl
    · split
      · rfl
      · split
        · rfl
        · exact hfill ..

theorem onlyRead_readElem (s : State) (o : Op) (e : Elem) (l1 : Bool) : OnlyRead s (readElem s o e l1).2.2 := by
  have h := readElem_rest s o e l1
  have hb := congrArg State.badGranules h
  have hc := congrArg State.contexts h
  have hr := congrArg State.records h
  have hi := congrArg State.irqs h
  refine .of_walked ⟨?_, readElem_cores .., fun hn => ⟨hb.trans hn, hc, hr, hi⟩⟩
  exact congrArg (fun x : State => { x with
    mem := s.mem, badGranules := s.badGranules, contexts := s.contexts, records := s.records, irqs := s.irqs }) h

theorem onlyRead_groupOf {s t : State} (h : OnlyRead s t) (n : Nat) : groupOf t n = groupOf s n :=
  (walked_groupOf h n :)

theorem onlyRead_keeps {s t : State} (h : OnlyRead s t) : t.ops = s.ops ∧ t.groups = s.groups ∧ t.nextId = s.nextId := by
  have ho := congrArg State.ops h.1
  have hg := congrArg State.groups h.1
  have hn := congrArg State.nextId h.1
  exact ⟨ho, hg, hn⟩

/-! ## The descriptors that the lanes name -/

/-- One lane's descriptor read: the lane, its 64 bytes, and the address of a bad granule. -/
def readEntryStep (o : Op) (ent : Nat → DWord) (acc : State × List (Nat × Nat × Option Nat)) (x : Nat × Nat) :
    State × List (Nat × Nat × Option Nat) :=
  let r := readElem (choose acc.1 2).2 o (mkElem x.1 .global (ent x.1) (some x.2) 64) ((choose acc.1 2).1 == 1)
  (r.2.2, acc.2 ++ [(x.1, r.1, r.2.1)])

theorem readEntrySteps (o : Op) (ent : Nat → DWord) (pas : List (Nat × Nat)) (acc : State × List (Nat × Nat × Option Nat)) :
    OnlyRead acc.1 (pas.foldl (readEntryStep o ent) acc).1 ∧
    (pas.foldl (readEntryStep o ent) acc).2.map Prod.fst = acc.2.map Prod.fst ++ pas.map Prod.fst := by
  induction pas generalizing acc with
  | nil => exact ⟨.refl _, by simp⟩
  | cons x t ih =>
    obtain ⟨h1, h2⟩ := ih (readEntryStep o ent acc x)
    refine ⟨((onlyRead_choose acc.1 2).trans (onlyRead_readElem ..)).trans h1, ?_⟩
    rw [List.foldl_cons, h2]
    simp [readEntryStep]

/-- Descriptors that are read: nothing has changed but by walks and reads, one for each lane, each of which may be named. -/
theorem readEntries_ok {u : Iss} {e : Opnd} {ls : List Nat} {s1 : State} {ds : List (Nat × Nat)}
    (h : readEntries u e ls = .ok (s1, ds)) :
    OnlyRead u.s s1 ∧ ds.map Prod.fst = ls ∧ ∀ x ∈ ds, descSpawnable u.g x.2 = true := by
  unfold readEntries at h
  dsimp only at h
  split at h
  · cases h
  · have hw := walked_translateLanes u .load ls (readPair u e) u.s
    have hl := translateLanes_lanes u .load ls (readPair u e) u.s
    generalize translateLanes u.s u .load ls (readPair u e) = tr at h hw hl
    obtain ⟨s, pas, fs⟩ := tr
    dsimp only at h hw hl
    split at h
    · cases h
    next hfs =>
      obtain ⟨h1, h2⟩ := readEntrySteps (mkOp u s (.load .b64 .zero) false false .grp []).1 (readPair u e) pas (s, [])
      generalize hr : List.foldl _ (s, []) pas = r at h
      replace hr : pas.foldl (readEntryStep (mkOp u s (.load .b64 .zero) false false .grp []).1 (readPair u e)) (s, []) = r := hr
      rw [hr] at h1 h2
      obtain ⟨s', rs⟩ := r
      dsimp only at h h1 h2
      split at h
      · cases h
      · split at h
        next hok =>
          cases h
          replace h2 : rs.map Prod.fst = pas.map Prod.fst := h2
          rw [hl (by simpa using hfs)] at h2
          refine ⟨(OnlyRead.of_walked hw).trans h1, by rw [List.map_map]; exact h2, fun x hx => ?_⟩
          obtain ⟨y, hy, rfl⟩ := List.mem_map.mp hx
          have := List.filter_eq_nil_iff.mp (List.isEmpty_iff.mp hok) y hy
          simpa using this
        next => cases h

/-! ## Requests to a future's home -/

/-- A request sent behind reads and walks, for whose reply the split waits. -/
theorem asked {s : State} {i : Instr} {u : Iss} (h : issuer s i = some u) {s2 : State} (hr : OnlyRead u.s s2) (kind : OpKind)
    (es : List Elem) : Asked u (await (addOp u s2 kind false true .dev none es) u) (mkOp u s2 kind false true .dev es).1 := by
  obtain ⟨rfl, -, -, hg, hp, -⟩ := issuer_state h
  obtain ⟨ho, hgs, hn⟩ := onlyRead_keeps hr
  obtain ⟨o, hod⟩ : ∃ o, o = (mkOp u s2 kind false true .dev es).1 := ⟨_, rfl⟩
  obtain ⟨s3, hs3⟩ : ∃ s3 : State, s3 = { s2 with ops := s2.ops ++ [o], nextId := s2.nextId + 1 } := ⟨_, rfl⟩
  have hadd : addOp u s2 kind false true .dev none es = s3 := by rw [hs3, hod]; rfl
  have hg3 : groupOf s3 u.g.gid = some u.g := by rw [hs3]; exact (onlyRead_groupOf hr _).trans hg
  have hlast : (s3.ops.getLast?).map Op.id = some o.id := by simp [hs3]
  rw [hadd, ← hod, await, updSplit_eq hg3 hp, hlast]
  refine ⟨?_, by rw [hod]; rfl, by rw [hod]; rfl, by rw [hod]; rfl, by rw [hod]; rfl, by rw [hod]; rfl, groupOf_setGroup hg3 rfl,
    fun n hne => ?_, ?_, hr.2.1 ▸ (by rw [hs3]; rfl), fun e => ?_⟩
  · rw [← ho, hs3]
    rfl
  · rw [groupOf_setGroup_other (g := setSplit u.g { u.p with awaiting := some o.id }) hne, hs3]
    exact onlyRead_groupOf hr n
  · rw [hs3]
    exact congrArg (fun x : State => { x with ops := u.s.ops, groups := u.s.groups, nextId := u.s.nextId }) hr.1
  · rw [hs3]
    exact hr.2.2 e

theorem misaligned_none {u : Iss} {s : State} {c : Opnd} {n : Nat} {ls : List Nat} (h : alignedTo u c n ls = true) :
    misaligned u s c n ls = none := by
  have hnil : (ls.filter fun l => (readPair u c l).toNat % n ≠ 0) = [] := by
    simpa [alignedTo, List.filter_eq_nil_iff] using h
  simp only [misaligned]
  exact if_pos hnil

theorem fregOk_here {u : Iss} {f : RFmt} (h : fregOk u f = true) :
    (!(taskDst u.g f.d && vsOk u.g true f.a && vsOk u.g true f.b && joinOk u.g (f.mod.getLsbD 3) f.c &&
      payloadOk u.g (bits f.mod 0 3) (opndOfCode (bits f.imm 0 10)) && !u.g.checked) ||
      ((active u).toList.any fun l => inFabric u.ctx (readPair u f.a l) || inFabric u.ctx (readPair u f.b l) ||
        (f.mod.getLsbD 3 && inFabric u.ctx (readPair u f.c l)))) = false := by
  unfold fregOk at h
  rw [Bool.and_eq_true] at h
  rw [h.1, Bool.not_true, Bool.false_or]
  exact (Bool.not_eq_true' _).mp h.2

theorem exec_freg_asks {f : RFmt} {s s1 s2 : State} {u : Iss} {ds pas : List (Nat × Nat)} (h : issuer s (.freg f) = some u)
    (hc : clear u = true) (hw : u.p.awaiting = none) (hok : fregOk u f = true) (hne : (active u).toList ≠ [])
    (hr : released u true = true) (hds : readEntries u f.b (active u).toList = .ok (s1, ds))
    (hj : f.mod.getLsbD 3 = true → alignedTo u f.c 4 (active u).toList = true)
    (ha : alignedTo u f.a 8 (active u).toList = true)
    (ht : translateLanes s1 u .rmw (active u).toList (readPair u f.a) = (s2, pas, []))
    (hroom : u.g.repro = true → futuresHaveRoom s2 pas = true) :
    exec (.freg f) s = .next (await (addOp u s2 (.futReg (ds.map fun x => laneRecord u f.b (bits f.mod 0 3)
        (opndOfCode (bits f.imm 0 10)) (f.mod.getLsbD 3) f.c (f.mod.getLsbD 3) x.2 x.1) f.d) false true .dev none
      (pas.map fun x => mkElem x.1 .global (readPair u f.a x.1) (some x.2) 8)) u) := by
  have hexec : exec (.freg f) s = execFreg f s := rfl
  have hroom' : (u.g.repro && !futuresHaveRoom s2 pas) = false := by
    cases hx : u.g.repro with
    | false => rfl
    | true => rw [hroom hx]; rfl
  have hjoin : (if f.mod.getLsbD 3 = true then misaligned u s1 f.c 4 (active u).toList else none) = none := by
    split
    next hx => exact misaligned_none (hj hx)
    next => rfl
  rw [hexec, execFreg, runInstr_next h hc]
  simp only [hw, Option.bind_none, fregOk_here hok, nonempty_false hne, hr, fregStart, hds, hjoin, misaligned_none ha, ht,
    Bool.false_eq_true, if_false, Bool.not_true, List.isEmpty_nil, hroom']
  rfl

theorem isScalar_of_taskDst {g : Group} {d : Opnd} (h : taskDst g d = true) : isScalar d = false ∧ dstOk g false d = true := by
  cases d with
  | v r => exact ⟨rfl, h⟩
  | zero => exact ⟨rfl, rfl⟩
  | s n => cases h
  | o n => cases h
  | l n => cases h
  | imm => cases h
  | bad n => cases h

/-- What an FREG's replies leave in its group's registers. -/
def repliedGroup (g : Group) (o : Op) (d : Opnd) : Group :=
  writeReg g d (Lanes.ofPred fun l => o.elems.any (·.lane == l)) fun l =>
    ((o.elems.find? (·.lane == l)).map fun e => e.res.setWidth 32).getD 0#32

theorem repliedGroup_eq (g : Group) (o : Op) {d : Opnd} (hs : isScalar d = false) :
    repliedGroup g o d = writeLoaded g d false (o.elems.map fun e => (e.lane, e.res.toNat)) := by
  have hm : (Lanes.ofPred fun l => o.elems.any (·.lane == l)) = lanesIn (o.elems.map fun e => (e.lane, e.res.toNat)) := by
    simp only [lanesIn, List.any_map, Function.comp_def]
  have hv : (fun l => ((o.elems.find? (·.lane == l)).map fun e => e.res.setWidth 32).getD 0#32) =
      fun l => BitVec.ofNat 32 (broughtTo (o.elems.map fun e => (e.lane, e.res.toNat)) l) := by
    funext l
    simp only [broughtTo, List.find?_map, Function.comp_def, Option.map_map]
    cases o.elems.find? fun e => e.lane == l with
    | none => rfl
    | some e =>
      simp only [Option.map_some, Option.getD_some, Function.comp_def]
      exact BitVec.eq_of_toNat_eq (by simp)
  rw [writeLoaded_vector hs, writePair, if_neg (by simp), repliedGroup, hm, hv]

theorem removeOp_groups (s : State) (n id : Nat) : groupOf (removeOp s id) n = groupOf s n := rfl

/-- What an access returns is in registers, whatever the group's splits. -/
theorem Returned.with_splits {g g1 : Group} {d : Opnd} {wide : Bool} {es : List (Nat × Nat)} (h : Returned g g1 d wide es)
    (x : List Split) : Returned { g with splits := x } { g1 with splits := x } d wide es := by
  have hword : ∀ (y : Group) o l, regWord { y with splits := x } o l = regWord y o l := fun y o l => by cases o <;> rfl
  have hscalar : ∀ v, (writeScalarNat { g with splits := x } wide d v).sregs = (writeScalarNat g wide d v).sregs := fun v => by
    cases wide <;> cases d <;> simp [writeScalarNat, writeScalar, opPlus] <;> split <;> rfl
  have hheld : ∀ o, regHeld { g with splits := x } o = regHeld g o := fun o => by cases o <;> rfl
  obtain ⟨a, b, c, e, f1, f2, -⟩ := h
  refine ⟨fun h1 y hy => (a h1 y hy).trans (hscalar _).symm, fun h1 y hy hl hh => ?_, fun h1 l hl hno o => ?_, fun o h1 h2 l => ?_,
    f1, f2, rfl⟩
  · obtain ⟨b1, b2⟩ := b h1 y hy hl ((hheld d).symm.trans hh)
    exact ⟨(hword _ _ _).trans b1, fun h3 h4 => (hword _ _ _).trans (b2 h3 ((hheld _).symm.trans h4))⟩
  · rw [hword, hword]
    exact c h1 l hl hno o
  · rw [hword, hword]
    exact e o h1 h2 l

/-- FREG with its replies in: `d` written, the request gone, and the split waits no more. -/
theorem exec_freg_replied {f : RFmt} {s : State} {u : Iss} {id : Nat} {o : Op} (h : issuer s (.freg f) = some u)
    (hc : clear u = true) (hw : u.p.awaiting = some id) (ho : opOf s id = some o) (hp : o.performed = true)
    (hb : o.elems.findSome? Elem.bad = none) (hd : taskDst u.g f.d = true) :
    exec (.freg f) s = .next (retire (setGroup (removeOp (setGroup s (repliedGroup u.g o f.d)) id)
      (setSplit (repliedGroup u.g o f.d) { u.p with awaiting := none })) u true) := by
  obtain ⟨rfl, -, -, hg, hsp, -⟩ := issuer_state h
  have hexec : exec (.freg f) u.s = execFreg f u.s := rfl
  have hgood : (o.elems.filter fun e => e.bad.isNone) = o.elems := by
    rw [List.filter_eq_self]
    intro e he
    rw [List.findSome?_eq_none_iff.mp hb e he]
    rfl
  obtain ⟨hgid', -, -, hsplits⟩ := writeLoaded_keeps u.g f.d false (o.elems.map fun e : Elem => (e.lane, e.res.toNat))
  rw [← repliedGroup_eq u.g o (isScalar_of_taskDst hd).1] at hgid' hsplits
  have hg1 : groupOf (removeOp (setGroup u.s (repliedGroup u.g o f.d)) id) u.g.gid = some (repliedGroup u.g o f.d) :=
    (removeOp_groups ..).trans (groupOf_setGroup hg hgid')
  have hsp1 : splitOf (repliedGroup u.g o f.d) u.p.sid = some u.p := by
    rw [splitOf, show (repliedGroup u.g o f.d).splits = u.g.splits from hsplits]
    exact hsp
  rw [hexec, execFreg, runInstr_next h hc]
  simp only [hw, Option.bind_some, ho, hp, if_true, fregDone, hb, hgood, commit_done]
  rw [opOf_id ho, updGroup_eq hg]
  show Host.Outcome.next (retire (updSplit (removeOp (setGroup u.s (repliedGroup u.g o f.d)) id) _ _ _) u true) = _
  rw [updSplit_eq hg1 hsp1]

/-! ## FRES -/

theorem scalarPlace_walked {u : Iss} {f : MFmt} {a : Access} {n : Nat} {s1 : State} {pa : Nat}
    (h : scalarPlace u f a n = .ok (s1, pa)) : Walked u.s s1 := by
  unfold scalarPlace at h
  dsimp only at h
  split at h
  · cases h
  · have hw := walked_translateLanes u a [0] (fun _ => effAddr u f 0) u.s
    split at h
    next heq =>
      cases h
      rw [heq] at hw
      exact hw
    next => cases h

theorem exec_fres_asks {f : MFmt} {s s1 : State} {u : Iss} {pa : Nat} (h : issuer s (.fres f) = some u) (hc : clear u = true)
    (hw : u.p.awaiting = none) (hl : scalarAddrLegal u f = true) (hf : inFabric u.ctx (effAddr u f 0) = false)
    (hk : u.g.checked = false) (hgd : scalarGuard u.g f.h.guard = true) (hp : scalarPlace u f .rmw 8 = .ok (s1, pa))
    (hr : released u true = true) :
    exec (.fres f) s = .next (await (addOp u s1 .futRes false true .dev none
      [mkElem 0 .global (effAddr u f 0) (some pa) 8]) u) := by
  have hexec : exec (.fres f) s = execFres f s := rfl
  rw [hexec, execFres, runInstr_next h hc]
  simp only [hw, Option.bind_none, hl, hf, hk, hgd, hp, hr, Bool.not_true, Bool.false_eq_true, if_false, Bool.or_self]
  rfl

theorem exec_fres_replied {f : MFmt} {s : State} {u : Iss} {id : Nat} {o : Op} {e : Elem} (h : issuer s (.fres f) = some u)
    (hc : clear u = true) (hw : u.p.awaiting = some id) (ho : opOf s id = some o) (he : o.elems = [e]) (hd : e.st = .done)
    (hb : e.bad = none) :
    exec (.fres f) s = .next (commit u (
      let s1 := updSplit (removeOp s id) u.g.gid u.p.sid fun p => { p with awaiting := none }
      if e.res = 1#64 then
        .trap s1 { cause := .futureDoubleResolve, mask := u.p.members, aux0 := e.va, aux1 := e.data2 }
      else if e.res = 2#64 then operandIllegal { u with s := s1 }
      else .done s1)) := by
  obtain ⟨rfl, -⟩ := issuer_state h
  have hexec : exec (.fres f) u.s = execFres f u.s := rfl
  have hperf : o.performed = true := by simp [Op.performed, Elem.isDone, he, hd]
  have hnb : e.bad.isSome = false := by rw [hb]; rfl
  rw [hexec, execFres, runInstr_next h hc]
  simp only [hw, Option.bind_some, ho, hperf, if_true, fresDone, he, opOf_id ho, hnb, Bool.false_eq_true, if_false]

/-! ## JWAIT -/

/-- JWAIT with its counter's place found and its word good. -/
theorem exec_jwait {f : MFmt} {s s1 : State} {u : Iss} {pa : Nat} (h : issuer s (.jwait f) = some u) (hc : clear u = true)
    (hl : scalarAddrLegal u f = true) (hf : inFabric u.ctx (effAddr u f 0) = false) (hgd : scalarGuard u.g f.h.guard = true)
    (hp : scalarPlace u f .load 4 = .ok (s1, pa))
    (hr : elemReady s1 (mkOp u s1 (.load .b32 .zero) true false .dev [mkElem 0 .global (effAddr u f 0) (some pa) 4]).1
      (mkElem 0 .global (effAddr u f 0) (some pa) 4) = true) (hb : badGranule? s1 pa 4 = none) :
    exec (.jwait f) s = .next (commit u (if physRead s1 pa 4 = 0 then
      .done (acquireDev (setGroup s1 (raiseLbaseAtIssue u.g (zeroLt s1 pa))) u.g.core)
      else .done (setGroup { s1 with nextId := s1.nextId + 1 }
        (setSplit u.g { u.p with state := .waitJoin (effAddr u f 0) pa false none, parkSeq := s1.nextId })))) := by
  obtain ⟨rfl, -, -, hg, hsp, -⟩ := issuer_state h
  have hg1 : groupOf s1 u.g.gid = some u.g := (walked_groupOf (scalarPlace_walked hp) _).trans hg
  have hg2 : groupOf { s1 with nextId := s1.nextId + 1 } u.g.gid = some u.g := hg1
  have hexec : exec (.jwait f) u.s = execJwait f u.s := rfl
  rw [hexec, execJwait, runInstr_next h hc]
  simp only [hl, hf, hgd, hp, Bool.not_true, Bool.false_eq_true, if_false, jwaitBody, hr, hb, updGroup_eq hg1, fresh,
    updSplit_eq hg2 hsp]

/-- Settles O42: a request joins the operations in flight behind reads and walks alone; a reply is written as a completed access
is; a JWAIT reads its word once. -/
theorem futuresAndJoins : Obligations.FuturesAndJoins := by
  unfold Obligations.FuturesAndJoins
  refine ⟨?_, ?_, ?_, ?_, ?_, ?_⟩
  · intro f s s1 s2 u ds pas h hc hw hok hne hr hds j hj ha ht hroom
    have hread : OnlyRead u.s s2 := by
      have hw2 := walked_translateLanes u .rmw (active u).toList (readPair u f.a) s1
      rw [ht] at hw2
      exact (readEntries_ok hds).1.trans (.of_walked hw2)
    exact ⟨_, _, exec_freg_asks h hc hw hok hne hr hds hj ha ht hroom, asked h hread _ _, rfl, rfl⟩
  · intro f s u id o h hc hw ho hp hb hn hd
    obtain ⟨hs, -, -, hg, hsp, -⟩ := issuer_state h
    obtain ⟨hsc, hdst⟩ := isScalar_of_taskDst hd
    have hn' : ((o.elems.map fun e => (e.lane, e.res.toNat)).map Prod.fst).Nodup := by
      rw [List.map_map]
      exact hn
    have hret := returned_writeLoaded u.g hn' hdst
    rw [← repliedGroup_eq u.g o hsc] at hret
    obtain ⟨hgid, -, -, hsplits⟩ := writeLoaded_keeps u.g f.d false (o.elems.map fun e => (e.lane, e.res.toNat))
    rw [← repliedGroup_eq u.g o hsc] at hgid hsplits
    have hg1 : groupOf (removeOp (setGroup s (repliedGroup u.g o f.d)) id) u.g.gid = some (repliedGroup u.g o f.d) :=
      (removeOp_groups ..).trans (groupOf_setGroup hg hgid)
    have hsp1 : splitOf (repliedGroup u.g o f.d) u.p.sid = some u.p := by rw [splitOf, hsplits]; exact hsp
    refine ⟨_, _, exec_freg_replied h hc hw ho hp hb hd, removeOp_gone _ id, rfl, groupOf_setGroup hg1 hgid, ?_,
      splitOf_setSplit hsp1 rfl⟩
    exact hret.with_splits _
  · intro f s s1 u pa h hc hw hl hf hk hgd hp hr
    exact ⟨_, _, exec_fres_asks h hc hw hl hf hk hgd hp hr, asked h (.of_walked (scalarPlace_walked hp)) _ _, rfl, rfl⟩
  · intro f s u id o e h hc hw ho he hd hb s1
    have hx := exec_fres_replied h hc hw ho he hd hb
    refine ⟨fun h0 => ?_, fun h1 => ?_, fun h2 => ?_⟩
    · rw [hx, h0]
      rfl
    · refine ⟨_, hx, ?_⟩
      rw [if_pos h1]
      exact ⟨_, rfl, rfl, rfl, rfl, rfl⟩
    · refine ⟨_, hx, ?_⟩
      rw [h2]
      exact ⟨_, rfl, rfl, rfl, rfl, rfl⟩
  · intro f s s1 u pa h hc hl hf hgd hp hr hb
    have hx := exec_jwait h hc hl hf hgd hp hr hb
    refine ⟨?_, fun h0 => ?_, fun h0 => ?_⟩
    · rw [← (issuer_state h).1]
      exact scalarPlace_walked hp
    · rw [hx, if_pos h0]
      rfl
    · rw [hx, if_neg h0]
      rfl
  · intro s g sp pa va seen lt x p hg hp hr hst
    have hexec : exec (.jwaitWake g sp) s = execJwaitWake g sp s := rfl
    have hplace : (x.place == .resident) = true := by rw [hr]; rfl
    refine ⟨fun hz => ?_, fun hs hz => ?_⟩
    · have hcond : (seen || physRead s pa 4 == 0) = true := by simpa using hz
      simp [hexec, execJwaitWake, hg, hp, hplace, jwaitWake, hst, hcond]
    · simp [hexec, execJwaitWake, hg, hp, jwaitWake, hst, hs, hz]

end Sys2Proof.Machine
end

section
/-!
SUPPORT. Gates and futures at their home: decrement, registration and resolution (O43).
-/
namespace Sys2Proof.Machine

/-! ## Gates -/

/-- A gate's decrement at its home: the new value in memory, and the record filed when it is zero. -/
theorem gate_home {s s1 : State} {op fut pa : Nat} {o : Op} {r : ThreadRec} {e : Elem} (ho : opOf s op = some o)
    (hk : o.kind = .gate r fut) (hn : elemNext s o 0 e = true) (hb : e.bad = none) (h4 : e.size = 4) (hr : Reaches s o e pa s1)
    (hm : MemOk s1) (hbad : badGranule? s1 pa 4 = none) :
    let v := rmwValue e.u e.op (physRead s1 pa 4) e.data.toNat e.data2.toNat
    ∃ s2, homeStep s op 0 = (settleOp (if v % 2 ^ 32 = 0 then fileOrDefer s2 o.core fut r else s2) op, []) ∧
      Wrote s1 s2 pa 4 v ∧ s2.cores.length = s1.cores.length ∧ s2.deferredRecs = s1.deferredRecs ∧ s2.contexts = s1.contexts ∧
      ∀ c, (coreOf s2 c).pans = (coreOf s1 c).pans := by
  intro v
  obtain ⟨hk0, hsp⟩ := elemNext_parts hn
  have ho1 : opOf s1 o.id = some o := by rw [walked_opOf (reaches_walked hr), opOf_id ho]; exact ho
  have hst : o.streamed s e = false := by simp [Op.streamed, hk]
  obtain ⟨s2, hrmw, hw, -, hcores, hdef, hctx, hpans, -, -, hkeep⟩ := rmwElem_spec (o := o) (k := 0) hm hsp (by rw [h4]; exact hbad)
  rw [h4] at hw
  obtain ⟨s3, hs3⟩ : ∃ s3, s3 = setElem s2 o 0 { e with st := .done, res := BitVec.ofNat 64 (physRead s1 pa e.size) } := ⟨_, rfl⟩
  rw [← hs3] at hrmw
  have hw3 : Wrote s1 s3 pa 4 v := hw.mono (by rw [hs3]; rfl)
  have hb3 : badGranule? s3 pa 4 = none := by rw [hs3]; exact hkeep pa 4 hbad
  have hv : (physRead s3 pa 4 = 0) = (v % 2 ^ 32 = 0) := by rw [hw3.1]; rfl
  have hhome : performHome s1 o 0 e pa = (if v % 2 ^ 32 = 0 then fileOrDefer s3 o.core fut r else s3, []) := by
    unfold performHome
    simp only [hk, hrmw, hb, hb3, Option.isNone_none, Bool.true_and, Bool.and_true, beq_iff_eq, hv]
  refine ⟨s3, ?_, hw3, by rw [hs3]; exact hcores, by rw [hs3]; exact hdef, by rw [hs3]; exact hctx, by rw [hs3]; exact hpans⟩
  rw [homeStep_reach ho hn hst hr, performTogether_single ho1 hk0 (by simp [Op.consecutive, hk]), hhome]

/-! ## Registrations -/

/-- The release of a record leaves the uncorrectable granules. -/
theorem releaseRec_bad (s : State) (o : Op) (fut : Nat) (counted : Bool) (r : ThreadRec) :
    (releaseRec s o fut counted r).badGranules = s.badGranules := by
  have hc : (if counted then updGrid s r.grid (fun g => { g with orphans := g.orphans - 1 }) else s).badGranules = s.badGranules := by
    split
    · have e := congrArg State.badGranules (updGrid_rest s r.grid fun g => { g with orphans := g.orphans - 1 })
      exact e
    · rfl
  unfold releaseRec
  dsimp only
  split
  · rfl
  · split
    · exact hc
    · refine Eq.trans ?_ hc
      have e := fun x => congrArg State.badGranules (fileOrDefer_keeps x o.core fut { r with lt := o.lt })
      exact e _

/-- A write spoils no granule. -/
theorem badGranule_physWrite {s : State} {q n : Nat} (h : badGranule? s q n = none) (pa k v : Nat) :
    badGranule? (physWrite s pa k v) q n = none := by
  unfold badGranule? at h ⊢
  rw [Option.map_eq_none_iff, List.find?_eq_none] at h ⊢
  intro g hg hc
  refine h g hg ?_
  simp only [List.contains_iff_mem] at hc ⊢
  exact (List.mem_filter.mp hc).1

/-- The record that joins the block of the future at `pa`. -/
def joinedBlock (s : State) (o : Op) (pa : Nat) (r : ThreadRec) : Block :=
  { ctx := o.ctx, addr := pa, recs := (blockOf s pa).recs.take (futCount (physRead s pa 8)) ++ [r] }

/-- A registration at a pending future with room: its word written, the record in its block and counted as an orphan. -/
theorem register_pending {s : State} (o : Op) {pa : Nat} (r : ThreadRec) (hm : MemOk s) (hb : badGranule? s pa 8 = none)
    (h : physRead s pa 8 % 4 < 2) (hroom : ¬ 1024 ≤ physRead s pa 8 / 4 % 2 ^ 14) :
    ∃ t, registerFuture s o pa r = (0, t) ∧
      Wrote s t pa 8 (physRead s pa 8 / 2 ^ 16 * 2 ^ 16 + (physRead s pa 8 / 4 % 2 ^ 14 + 1) * 4 + 1) ∧ blockOf t pa = joinedBlock s o pa r ∧
      (∀ g, gridOf s r.grid = some g → gridOf t r.grid = some { g with orphans := g.orphans + 1 }) ∧
      { t with mem := s.mem, badGranules := s.badGranules, cores := s.cores, blocks := s.blocks, grids := s.grids } = s ∧
      MemOk t ∧ badGranule? t pa 8 = none := by
  obtain ⟨w, hw⟩ : ∃ w, w = physRead s pa 8 := ⟨_, rfl⟩
  rw [← hw] at h hroom ⊢
  obtain ⟨v, hv⟩ : ∃ v, v = futWord (w / 2 ^ 16) (futCount w + 1) 1 := ⟨_, rfl⟩
  obtain ⟨x, hx⟩ : ∃ x, x = l1Update (physWrite s pa 8 v) o.core pa (natToBytes 8 v) := ⟨_, rfl⟩
  obtain ⟨y, hy⟩ : ∃ y, y = updGrid (setBlock x (joinedBlock s o pa r)) r.grid (fun g => { g with orphans := g.orphans + 1 }) := ⟨_, rfl⟩
  have e : registerFuture s o pa r = (0, y) := by
    have h2 : ¬ w % 4 = 2 := by omega
    have h3 : ¬ w % 4 = 3 := by omega
    simp only [registerFuture, ← hw, futState]
    rw [hy, hx, hv, joinedBlock, ← hw]
    exact if_neg hroom
  have hval : v = w / 2 ^ 16 * 2 ^ 16 + (w / 4 % 2 ^ 14 + 1) * 4 + 1 := by
    rw [hv, futWord_eq _ _ _ (by unfold futCount; omega)]
    rfl
  obtain ⟨hwr, -, hrest⟩ := futWrite_spec (s := s) o.core pa v hm
  rw [← hx] at hwr hrest
  have hyx : { y with grids := x.grids, blocks := x.blocks } = x := by
    have h := updGrid_rest (setBlock x (joinedBlock s o pa r)) r.grid fun g => { g with orphans := g.orphans + 1 }
    rw [← hy] at h
    exact congrArg (fun z : State => { z with blocks := x.blocks }) h
  have hmem := congrArg State.mem hyx
  have hgran := congrArg State.badGranules hyx
  have hgran2 : x.badGranules = (physWrite s pa 8 v).badGranules := by
    have h := congrArg State.badGranules (l1Update_rest (physWrite s pa 8 v) o.core pa (natToBytes 8 v))
    rw [← hx] at h
    exact h
  have hblocks : y.blocks = (setBlock x (joinedBlock s o pa r)).blocks := by
    have h := congrArg State.blocks (updGrid_rest (setBlock x (joinedBlock s o pa r)) r.grid fun g => { g with orphans := g.orphans + 1 })
    rw [← hy] at h
    exact h
  have hgrids := congrArg State.grids hrest
  have hbl := congrArg State.blocks hrest
  refine ⟨y, e, hval ▸ hwr.mono hmem, ?_, fun g hg => ?_, ?_, ?_, ?_⟩
  · have h1 := blockOf_setBlock_cons x (joinedBlock s o pa r) (by simp [joinedBlock])
    rw [← h1]
    unfold blockOf
    rw [hblocks]
    rfl
  · rw [hy]
    refine gridOf_updGrid (s := setBlock x (joinedBlock s o pa r)) ?_ _ rfl
    rw [← hg]
    unfold gridOf
    rw [← show x.grids = s.grids from hgrids]
    rfl
  · have h1 := congrArg (fun z : State => { z with
      mem := s.mem, badGranules := s.badGranules, cores := s.cores, blocks := s.blocks, grids := s.grids }) hyx
    exact h1.trans (congrArg (fun z : State => { z with blocks := s.blocks, grids := s.grids }) hrest)
  · have hxm : x.mem = (physWrite s pa 8 v).mem := by rw [hx, l1Update_mem]
    have hym : y.mem = (physWrite s pa 8 v).mem := Eq.trans hmem hxm
    unfold MemOk
    rw [hym]
    exact memOk_physWrite _ _ _ hm
  · refine (badOf_ops (s := physWrite s pa 8 v) ?_ pa 8).trans (badGranule_physWrite hb pa 8 v)
    exact Eq.trans hgran hgran2

/-- One registration does what 04 R95 says, and leaves its request in flight, memory in form and the granules good. -/
theorem registerFuture_spec {s : State} (o : Op) {pa : Nat} (r : ThreadRec) (hm : MemOk s) (hb : badGranule? s pa 8 = none) :
    Registered s o pa r (registerFuture s o pa r).1 (registerFuture s o pa r).2 ∧ MemOk (registerFuture s o pa r).2 ∧
    badGranule? (registerFuture s o pa r).2 pa 8 = none ∧
    ∀ n x, opOf s n = some x → opOf (registerFuture s o pa r).2 n = some x := by
  obtain ⟨w, hw⟩ : ∃ w, w = physRead s pa 8 := ⟨_, rfl⟩
  unfold Registered
  dsimp only
  rw [← hw]
  by_cases h3 : w % 4 = 3
  · have e : registerFuture s o pa r = (3, s) := by simp only [registerFuture, ← hw, futState, h3]
    rw [if_pos h3, e]
    exact ⟨⟨rfl, rfl⟩, hm, hb, fun _ _ h => h⟩
  · rw [if_neg h3]
    by_cases h2 : w % 4 = 2
    · have e : registerFuture s o pa r = (1, releaseRec s o pa false r) := by simp only [registerFuture, ← hw, futState, h2]
      obtain ⟨k1, -, k3⟩ := releaseRec_keeps s o pa false r
      rw [if_pos h2, e]
      exact ⟨⟨rfl, releaseRec_spec ..⟩, by unfold MemOk; rw [k1]; exact hm, (badOf_ops (releaseRec_bad ..) pa 8).trans hb, k3⟩
    · rw [if_neg h2]
      by_cases hfull : 1024 ≤ w / 4 % 2 ^ 14
      · have e : registerFuture s o pa r = (2, s) := by
          simp only [registerFuture, ← hw, futState]
          exact if_pos hfull
        rw [if_pos hfull, e]
        exact ⟨⟨rfl, rfl⟩, hm, hb, fun _ _ h => h⟩
      · obtain ⟨t, e, hwr, hblk, hgr, hrest, hmem, hgood⟩ := register_pending o r hm hb (by omega) (by rw [← hw]; exact hfull)
        rw [if_neg hfull, e]
        refine ⟨⟨rfl, hw ▸ hwr, by rw [hblk, hw]; rfl, hgr, hrest⟩, hmem, hgood, fun n x hx => ?_⟩
        have hops := congrArg State.ops hrest
        exact (opOf_of_ops hops n).trans hx

/-! ## The lanes of an FREG that name one future -/

theorem releaseRec_elems (s : State) (o : Op) (es : List Elem) (pa : Nat) (counted : Bool) (r : ThreadRec) :
    releaseRec s (o.withElems es) pa counted r = releaseRec s o pa counted r := by
  simp only [releaseRec, Op.withElems]

theorem registerFuture_elems (s : State) (o : Op) (es : List Elem) (pa : Nat) (r : ThreadRec) :
    registerFuture s (o.withElems es) pa r = registerFuture s o pa r := by
  simp only [registerFuture, releaseRec_elems]
  simp only [Op.withElems]

/-- One lane of an FREG at its home. -/
theorem performHome_register {s : State} {o : Op} {rs : List ThreadRec} {d : Opnd} {pa j : Nat} {r : ThreadRec} (x : Elem)
    (hk : o.kind = .futReg rs d) (hr : rs[j]? = some r) (hb : badGranule? s pa 8 = none) :
    performHome s o j x pa = (setElem (registerFuture s o pa r).2 ((opOf (registerFuture s o pa r).2 o.id).getD o) j
      { x with st := .done, res := BitVec.ofNat 64 (registerFuture s o pa r).1 }, []) := by
  unfold performHome
  simp only [hk, hb, hr]

/-- The registrations of lanes `js`, one after another: elements of `es` that are not of `js` may have been changed already. -/
theorem registerLanes_spec {o : Op} {rs : List ThreadRec} {d : Opnd} {pa : Nat} (hk : o.kind = .futReg rs d)
    (hlen : rs.length = o.elems.length) (js : List Nat) : ∀ (s : State) (es : List Elem), js.Nodup →
    (∀ j ∈ js, j < o.elems.length ∧ es[j]? = o.elems[j]?) → opOf s o.id = some (o.withElems es) → MemOk s →
    badGranule? s pa 8 = none →
    ∃ t es', performList o.id pa js (s, []) = (t, []) ∧ RegisteredAll o rs pa s js t ∧ opOf t o.id = some (o.withElems es') := by
  induction js with
  | nil => exact fun s es _ _ ho _ _ => ⟨s, es, rfl, .nil s, ho⟩
  | cons j js ih =>
    intro s es hnd hall ho hm hb
    obtain ⟨hj, hjs⟩ := List.nodup_cons.mp hnd
    obtain ⟨hlt, hes⟩ := hall j (List.mem_cons_self ..)
    obtain ⟨x, hx⟩ : ∃ x, o.elems[j]? = some x := ⟨_, List.getElem?_eq_getElem hlt⟩
    obtain ⟨r, hr⟩ : ∃ r, rs[j]? = some r := ⟨_, List.getElem?_eq_getElem (by omega)⟩
    obtain ⟨hreg, hm1, hb1, hop⟩ := registerFuture_spec o r hm hb
    have hhome := performHome_register (o := o.withElems es) (j := j) x hk hr hb
    rw [registerFuture_elems] at hhome
    generalize (registerFuture s o pa r).1 = res at hreg hhome
    generalize (registerFuture s o pa r).2 = t at hreg hhome hm1 hb1 hop
    have ho1 : opOf t o.id = some (o.withElems es) := hop _ _ ho
    obtain ⟨y, hy⟩ : ∃ y, y = ({ x with st := .done, res := BitVec.ofNat 64 res } : Elem) := ⟨_, rfl⟩
    obtain ⟨v, hv⟩ : ∃ v, v = setElem t ((opOf t o.id).getD o) j y := ⟨_, rfl⟩
    have hhome' : performHome s (o.withElems es) j x pa = (v, []) := by
      rw [hhome, hv, hy, show (o.withElems es).id = o.id from rfl, ho1]
      rfl
    have hstep : performList o.id pa (j :: js) (s, []) = performList o.id pa js (v, []) := by
      have hex : (o.withElems es).elems[j]? = some x := hes.trans hx
      rw [performList, List.foldl_cons]
      simp only [ho, hex, hhome']
      rfl
    have hv1 : opOf v o.id = some (o.withElems (es.set j y)) := by
      rw [hv, ho1]
      exact opOf_setElem ho1 rfl
    have hrest : ∀ i ∈ js, i < o.elems.length ∧ (es.set j y)[i]? = o.elems[i]? := fun i hi => by
      have hne : j ≠ i := fun e => hj (by rw [e]; exact hi)
      obtain ⟨h1, h2⟩ := hall i (List.mem_cons_of_mem _ hi)
      exact ⟨h1, by rw [List.getElem?_set_ne hne]; exact h2⟩
    have hvm : MemOk v := by rw [hv]; exact hm1
    have hvb : badGranule? v pa 8 = none := by rw [hv]; exact hb1
    obtain ⟨t', es', h1, h2, h3⟩ := ih v _ hjs hrest hv1 hvm hvb
    refine ⟨t', es', hstep.trans h1, ?_, h3⟩
    rw [hv, hy] at h2
    apply RegisteredAll.cons s t t' j res js x r hx hr
    · generalize Registered s o pa r res t = P at hreg ⊢
      exact hreg
    · exact h2

theorem withElem_nodup (o : Op) (k : Nat) (e : Elem) : (withElem o k e).Nodup := by
  unfold withElem
  split
  · exact List.Nodup.filter _ List.nodup_range
  · exact List.nodup_singleton k

/-! ## Resolutions -/

/-- A resolution: the word resolved, its block empty, and the block's records released in index order. -/
theorem resolveFuture_spec {s : State} (o : Op) {pa w : Nat} (hm : MemOk s) (hw : physRead s pa 8 = w) :
    ∃ s2 s3, Wrote s s2 pa 8 (w / 2 ^ 16 * 2 ^ 16 + 2) ∧ s2.cores.length = s.cores.length ∧ s2.contexts = s.contexts ∧
      s2.grids = s.grids ∧ (blockOf s2 pa).recs = [] ∧
      ReleasedAll o pa s2 ((blockOf s pa).recs.take (w / 4 % 2 ^ 14)) s3 ∧ resolveFuture s o pa = s3 ∧
      ∀ n x, opOf s n = some x → opOf s3 n = some x := by
  obtain ⟨v, hv⟩ : ∃ v, v = futWord (w / 2 ^ 16) 0 2 := ⟨_, rfl⟩
  obtain ⟨x, hx⟩ : ∃ x, x = l1Update (physWrite s pa 8 v) o.core pa (natToBytes 8 v) := ⟨_, rfl⟩
  obtain ⟨hwr, hcores, hrest⟩ := futWrite_spec (s := s) o.core pa v hm
  rw [← hx] at hwr hcores hrest
  have hval : v = w / 2 ^ 16 * 2 ^ 16 + 2 := by rw [hv, futWord_eq _ _ _ (by omega)]
  obtain ⟨b, hb⟩ : ∃ b : Block, b = { blockOf s pa with recs := [] } := ⟨_, rfl⟩
  obtain ⟨y, hy⟩ : ∃ y, y = setBlock x b := ⟨_, rfl⟩
  have hyx : y.mem = x.mem ∧ y.cores = x.cores ∧ y.contexts = x.contexts ∧ y.grids = x.grids ∧ y.ops = x.ops := by
    rw [hy]; exact ⟨rfl, rfl, rfl, rfl, rfl⟩
  obtain ⟨h1, h2, h3, h4, h5⟩ := hyx
  have e3 := congrArg State.contexts hrest
  have e4 := congrArg State.grids hrest
  have e5 := congrArg State.ops hrest
  have haddr : b.addr = pa := by
    rw [hb]
    show (blockOf s pa).addr = pa
    unfold blockOf
    cases hf : s.blocks.find? (·.addr == pa) with
    | none => rfl
    | some z => simpa using List.find?_some hf
  refine ⟨y, _, hval ▸ hwr.mono h1, by rw [h2]; exact hcores, h3.trans e3, h4.trans e4, ?_, releaseAll_spec o pa _ y, ?_, ?_⟩
  · rw [hy, ← haddr]
    exact blockOf_setBlock_nil x b (by rw [hb])
  · unfold resolveFuture
    dsimp only
    rw [hw, ← hv, ← hx, ← hb, ← hy]
    rfl
  · intro n z hz
    refine (releaseAll_keeps o pa _ y).2 n z ?_
    rw [opOf_of_ops (h5.trans e5)]
    exact hz

theorem futRes3_code (w : Nat) : BitVec.ofNat 64 (futRes3 w) = if w % 4 = 2 then 1#64 else if w % 4 = 3 then 2#64 else 0#64 := by
  unfold futRes3 futState
  have h : w % 4 < 4 := Nat.mod_lt _ (by decide)
  generalize w % 4 = n at h
  interval_cases n <;> rfl

/-- Settles O43: a gate's decrement is one read-modify-write; the lanes of a registration act one after another; a resolution
releases the records of its block. -/
theorem futureHomes : Obligations.FutureHomes := by
  unfold Obligations.FutureHomes
  refine ⟨?_, ?_, ?_⟩
  · intro s op fut o r e pa s1 ho hk hn hb h4 hr hm hbad v
    obtain ⟨s2, hstep, hw, hcores, hdef, hctx, hpans⟩ := gate_home ho hk hn hb h4 hr hm hbad
    have hexec : exec (.gateDecrement op) s = execGateDecrement op s := rfl
    refine ⟨s2, _, ?_, hw, fun x => ?_, rfl, hcores, hdef, hctx, hpans⟩
    · rw [hexec, execGateDecrement, ho, Option.map_some, hk]
      dsimp only
      rw [homeRequest, ho]
      dsimp only
      rw [hstep]
    · rw [(settleKeys_same _ _).keeps.1, settleOp_mem]
      split
      · have e := congrArg State.mem (fileOrDefer_keeps s2 o.core fut r)
        exact congrArg (memRead · x) e
      · rfl
  · intro s op k o e rs d ho hk hlen hn hm hb
    have hid := opOf_id ho
    have hlt := elemNext_lt hn
    have hcons : o.consecutive = true := by simp [Op.consecutive, hk]
    have hreach : Reaches s o e (e.pa.getD 0) s := by
      unfold Reaches
      rw [if_neg (by simp [Op.lateTranslated, hk])]
      exact ⟨rfl, rfl⟩
    have hkin : k ∈ withElem o k e := by
      rw [withElem, if_pos hcons]
      simpa using hlt
    have hin : ∀ j ∈ withElem o k e, j < o.elems.length ∧ o.elems[j]? = o.elems[j]? := fun j hj => by
      rw [withElem, if_pos hcons] at hj
      exact ⟨List.mem_range.mp (List.mem_filter.mp hj).1, rfl⟩
    have ho' : opOf s o.id = some (o.withElems o.elems) := by rw [hid]; exact ho
    obtain ⟨t, es', hperf, hall, hop⟩ := registerLanes_spec hk hlen (withElem o k e) s o.elems (withElem_nodup ..) hin ho' hm hb
    have htog : performTogether s o k e (e.pa.getD 0) = performList o.id (e.pa.getD 0) (withElem o k e) (s, []) := rfl
    have hkeep : opOf t op = some (o.withElems es') := by rw [← hid]; exact hop
    refine ⟨t, ?_, hkin, hall⟩
    have hexec : exec (.futureRegistration op k) s = execFutureRegistration op k s := rfl
    rw [hexec, execFutureRegistration, ho, Option.map_some, hk]
    dsimp only
    rw [homeRequest, ho]
    dsimp only
    rw [homeStep_reach ho hn (by simp [Op.streamed, hk]) hreach, htog, hperf]
    rw [settleOp_keeps hkeep (.inr (.inl ⟨rs, d, hk⟩))]
  · intro s s1 op pa o e ho hk hn hr hm hb w
    have hid := opOf_id ho
    obtain ⟨hk0, -⟩ := elemNext_parts hn
    have ho1 : opOf s1 o.id = some o := by rw [walked_opOf (reaches_walked hr), hid]; exact ho
    have hst : o.streamed s e = false := by rcases hk with h | ⟨c, h⟩ <;> simp [Op.streamed, h]
    have hcons : o.consecutive = false := by rcases hk with h | ⟨c, h⟩ <;> simp [Op.consecutive, h]
    obtain ⟨p, hp⟩ : ∃ p, p = performHome s1 o 0 e pa := ⟨_, rfl⟩
    obtain ⟨e', hdone, hfut, hlt, hge, hkeys⟩ := performHome_future 0 hk hb w rfl p hp
    have hstep : homeStep s op 0 = (settleOp p.1 op, []) := by
      rw [homeStep_reach ho hn hst hr, performTogether_single ho1 hk0 hcons, ← hp, hkeys]
    have hexec : exec (.futureResolution op) s = .next (settleKeys o.grid (settleOp p.1 op, [])) := by
      have hx : exec (.futureResolution op) s = execFutureResolution op s := rfl
      rw [hx, execFutureResolution, ho, Option.map_some]
      rcases hk with h | ⟨c, h⟩ <;> rw [h] <;> dsimp only <;> rw [homeRequest, ho] <;> dsimp only <;> rw [hstep]
    have hset : opOf (setElem s1 o 0 e') op = some (o.withElems (o.elems.set 0 e')) := opOf_setElem (hid ▸ ho1) hid
    refine ⟨_, hexec, fun h2 => ?_, fun hf hes => ⟨fun h2 => ?_, ?_⟩⟩
    · obtain ⟨s2, s3, hw, hc, hx, hg, hb2, hall, he, -⟩ := resolveFuture_spec (s := setElem s1 o 0 e') o hm rfl
      refine ⟨s2, s3, hw, hc, hx, hg, hb2, hall, ?_⟩
      rw [hlt h2]
      dsimp only
      rw [he]
    · rw [(settleKeys_same _ _).keeps.1, settleOp_mem, hge hf h2]
      rfl
    · have hpop : opOf p.1 op = some (o.withElems (o.elems.set 0 e')) := by
        by_cases h2 : w % 4 < 2
        · obtain ⟨s2, s3, -, -, -, -, -, -, he, hop⟩ := resolveFuture_spec (s := setElem s1 o 0 e') o hm rfl
          rw [hlt h2]
          dsimp only
          rw [he]
          exact hop _ _ hset
        · rw [hge hf (by omega)]
          exact hset
      refine ⟨e', ?_, hdone, by rw [hfut hf], by rw [hfut hf]; exact futRes3_code w⟩
      rw [elemAt?, opOf_of_ops (settleKeys_same _ _).keeps.2.1, settleOp_keeps hpop (.inr (.inr hf)), hpop, hes]
      rfl

end Sys2Proof.Machine
end

section
/-!
SUPPORT. Pages mapped by PGMAP, requests that park or are performed, and records that wait for their ring (O46).
-/
namespace Sys2Proof.Machine

theorem exec_pgmap {f : MFmt} {s : State} {u : Iss} (h : issuer s (.pgmap f) = some u) (hc : clear u = true)
    (hok : (taskDst u.g f.d && f.space == 0#4 && addrOk u.g true f) = true) (hne : (active u).toList ≠ [])
    (hr : released u true = true) :
    exec (.pgmap f) s = .next (retire (updGroup (pgmapLanes u f (active u).toList).1 u.g.gid fun g =>
      writeReg g f.d (active u) fun l =>
        BitVec.ofNat 32 ((((pgmapLanes u f (active u).toList).2.find? (·.1 == l)).map Prod.snd).getD 0)) u true) := by
  have hexec : exec (.pgmap f) s = execPgmap f s := rfl
  have hlegal : (!taskDst u.g f.d || f.space != 0#4 || !addrOk u.g true f) = false := by
    simp only [Bool.and_eq_true, beq_iff_eq] at hok
    simp [hok.1.1, hok.1.2, hok.2]
  rw [hexec, execPgmap, runInstr_next h hc]
  simp only [hlegal, nonempty_false hne, hr, Bool.not_true, Bool.false_eq_true, if_false, commit_done]

/-- A read-modify-write that its own walk lets through. -/
theorem performHome_rmw {s : State} {o : Op} {k pa : Nat} {e : Elem} (hk : ∃ u d, o.kind = .rmw u d) :
    performHome s o k e pa = rmwElem s o k e pa := by
  obtain ⟨u, d, h⟩ := hk
  unfold performHome
  simp only [h]

/-- Where a request that may park finds its own translation. -/
theorem exec_park_walks {s s1 : State} {op k : Nat} {o : Op} {e : Elem} {c : Context} (ho : opOf s op = some o)
    (he : o.elems[k]? = some e) (hc : ctxOf s o.ctx = some c) (hm : mayPark s o e = true) (hp : earlierParked s o e = false)
    {r : Except PageFault Nat} (hw : walkAccess s c e.va .rmw o.sup = (r, s1)) :
    exec (.sluiceDeferredPark op k) s = .next (match r with
      | .error f => settleOp (report (setElem s1 o k { e with st := .parked e.seq }) (sluiceRecord s1 o e f)) op
      | .ok pa => settleKeys o.grid (settleOp (performHome s1 o k e pa).1 op, (performHome s1 o k e pa).2)) := by
  have hexec : exec (.sluiceDeferredPark op k) s = execSluiceDeferredPark op k s := rfl
  rw [hexec, execSluiceDeferredPark, ho]
  simp only [he, hc, hm, hp, hw, Bool.not_true, Bool.false_eq_true, if_false]
  cases r <;> rfl

/-- A waiting record written to a ring with room. -/
theorem exec_delivery {s : State} {k : Nat} {r : DriverRec} {c : Context} (hu : s.undelivered[k]? = some r)
    (hc : ctxOf s r.ctx = some c) (hr : ringHasRoom s c = true) (hfirst : ∀ x ∈ s.undelivered.take k, x.ctx ≠ r.ctx) :
    exec (.faultRecordDeferredDelivery k) s = .next (writeRec { s with undelivered := s.undelivered.eraseIdx k } c r) := by
  have hexec : exec (.faultRecordDeferredDelivery k) s = execFaultRecordDeferredDelivery k s := rfl
  have hany : ((s.undelivered.take k).any (·.ctx == r.ctx)) = false := by
    rw [List.any_eq_false]
    intro x hx
    simpa using hfirst x hx
  rw [hexec, execFaultRecordDeferredDelivery, hu]
  simp only [hc, hr, hany, Bool.not_false, Bool.and_self, if_true]

/-- Settles O46: PGMAP maps one lane after another; a request that may park does so, or is performed where its walk leads; a
waiting record is written as any other. -/
theorem pagesAndParking : Obligations.PagesAndParking := by
  unfold Obligations.PagesAndParking
  refine ⟨?_, ?_, ?_⟩
  · intro f s u h hc hok hne hr
    refine ⟨_, _, ?_, exec_pgmap h hc hok hne hr⟩
    rw [← (issuer_state h).1]
    exact pgmapLanes_spec u f _
  · intro s op k o e c ho he hc
    have hexec : exec (.sluiceDeferredPark op k) s = execSluiceDeferredPark op k s := rfl
    refine ⟨fun hm => ?_, fun hm => ⟨fun hp => ?_, fun hp f s1 hw => ?_, fun hp pa s1 hw hmem hk hsp hb => ?_⟩⟩
    · rw [hexec, execSluiceDeferredPark, ho]
      simp only [he, hc, hm, Bool.not_false, if_true]
    · rw [hexec, execSluiceDeferredPark, ho]
      simp only [he, hc, hm, hp, Bool.not_true, Bool.false_eq_true, if_false, if_true]
    · rw [exec_park_walks ho he hc hm hp hw]
      rfl
    · obtain ⟨s2, hrmw, hwr, -⟩ := rmwElem_spec (o := o) (k := k) hmem hsp hb
      refine ⟨_, exec_park_walks ho he hc hm hp hw, hwr.mono ?_⟩
      dsimp only
      rw [performHome_rmw hk, hrmw, (settleKeys_same _ _).keeps.1, settleOp_mem]
      rfl
  · intro s k r c hm hu hc hr hfirst
    obtain ⟨hread, htail, -, hirq, hund⟩ := writeRec_spec (s := { s with undelivered := s.undelivered.eraseIdx k }) c r hm
    have hlow : c.fring + 64 ≤ nextRecAddr c := by unfold nextRecAddr; omega
    refine ⟨_, exec_delivery hu hc hr hfirst, fun i hi => ?_, htail, hirq, hund, fun x h1 h2 => ?_⟩
    · rw [hread, if_neg (by omega), if_pos (by omega), Nat.add_sub_cancel_left]
      rfl
    · rw [hread, if_neg (by omega), if_neg (by omega)]

end Sys2Proof.Machine
end

section
/-!
SUPPORT. Breakpoints, fetch faults, halts, and the operations of reproducible groups that wait for their key (O47).
-/
namespace Sys2Proof.Machine

/-! ## Breakpoints -/

theorem bpNumber_some {c : Context} {a : DWord} {k : Nat} (h : bpNumber c a = some k) : c.bps[k]? = some a := by
  obtain ⟨hk, hp, -⟩ := List.findIdx?_eq_some_iff_getElem.mp h
  rw [List.getElem?_eq_getElem hk]
  simpa using hp

theorem bpNumber_first {c : Context} {a : DWord} {k : Nat} (h : c.bps[k]? = some a) (hf : ∀ i < k, c.bps[i]? ≠ some a) :
    bpNumber c a = some k := by
  obtain ⟨hk, he⟩ := List.getElem?_eq_some_iff.mp h
  refine List.findIdx?_eq_some_iff_getElem.mpr ⟨hk, by simpa using he, fun i hi hc => ?_⟩
  refine hf i hi ?_
  rw [List.getElem?_eq_getElem (by omega)]
  simpa using hc

theorem bpNumber_none {c : Context} {a : DWord} (h : ∀ k : Nat, c.bps[k]? ≠ some a) : bpNumber c a = none := by
  rw [bpNumber, List.findIdx?_eq_none_iff]
  intro x hx
  obtain ⟨k, hk⟩ := List.mem_iff_getElem?.mp hx
  have hne : x ≠ a := fun e => h k (by rw [hk, e])
  simpa using hne

/-- The halt at a breakpoint: the group stands as it was, with the record of the breakpoint. -/
theorem breakAt_halted {s : State} {x y : Group} {c : Context} {p : Split} {k : Nat} {a : DWord} {mask : Lanes} {chain : Bool}
    (hm : MemOk s) (hy : groupOf s y.gid = some x) (hc : ctxOf s y.ctx = some c) (hk : comparedCopy s y = false) :
    ∃ r g', HaltedWith s (breakAt s y c p k a mask chain) y p.sid c (.breakpoint false) r ∧ r.cause = Cause.breakpoint.code ∧
      r.source = 1 ∧ r.pc = p.pc ∧ r.mask = mask ∧ r.aux0 = a ∧ r.aux1 = BitVec.ofNat 64 k ∧
      r.inchain = (decide (0 < p.chainLen) || chain) ∧ groupOf (breakAt s y c p k a mask chain) y.gid = some g' ∧
      g'.bpDue = y.bpDue := by
  obtain ⟨h, sr, hg', hkind, hbody, hsid, hrings, hdel⟩ := halt_with (sid := p.sid) (kind := .breakpoint false)
    (r := trapRecord s y p
      { cause := .breakpoint, mask, aux0 := a, aux1 := BitVec.ofNat 64 k, sweep := sweepAt s y c p, hold := chain } 1) hm hy hc hk
  exact ⟨_, _, haltedWith_intro hg' rfl hkind hbody hsid ⟨rfl, rfl, rfl, rfl, rfl⟩ hrings hdel, rfl, rfl, rfl, rfl, rfl, rfl, rfl, hg', rfl⟩

theorem exec_hwBreakpoint {s : State} {g sp : Nat} {x : Group} {p : Split} {c : Context} (hg : groupOf s g = some x)
    (hp : splitOf x sp = some p) (hc : ctxOf s x.ctx = some c) (hr : regWritesPending s g = false) :
    exec (.hwBreakpoint g sp) s = (match x.bpDue with
      | some d => .next (if x.running && resumed x then breakDue s x c d else s)
      | none => match bpHit c p with
        | none => .next s
        | some k => .next (if mayIssue s x p then breakAt s x c p k p.pc p.members false else s)) := by
  have hexec : exec (.hwBreakpoint g sp) s = execHwBreakpoint g sp s := rfl
  rw [hexec, execHwBreakpoint, hg]
  simp only [hp, hc, hr, Bool.false_eq_true, if_false] <;> rfl

/-! ## Fetches -/

/-- What a fetch attempted for its faults leaves: nothing where it brings an instruction, else its trap. -/
def fetchOutcome (s s1 : State) (g sp : Nat) (r : Fetched) : State :=
  match r with
  | .word _ | .misaligned => s
  | r => fetchTrap s1 g sp r

theorem exec_fetchFault {s s1 : State} {g sp : Nat} {x : Group} {p : Split} {c : Context} {r : Fetched} (hg : groupOf s g = some x)
    (hp : splitOf x sp = some p) (hc : ctxOf s x.ctx = some c) (hi : mayIssue s x p = true) (hb : bpHit c p = none)
    (hf : fetchAt s x.core x.quarter c p.pc .memory p.refetch x.inHandler = (r, s1)) :
    exec (.instructionFetchFault g sp) s = .next (fetchOutcome s s1 g sp r) := by
  have hexec : exec (.instructionFetchFault g sp) s = execInstructionFetchFault g sp s := rfl
  rw [hexec, execInstructionFetchFault, hg]
  dsimp only
  rw [hp, hc]
  dsimp only
  rw [hi, hb, hf]
  cases r <;> rfl

/-- The trap of a fetch names the split that was to go on. -/
theorem fetchTrap_names {s1 : State} {g sp : Nat} {x : Group} {p : Split} (hg : groupOf s1 g = some x) (hp : splitOf x sp = some p) :
    (((groupOf s1 g).bind fun g => splitOf g sp).map Split.members).getD 0#64 = p.members ∧
    (((groupOf s1 g).bind fun g => splitOf g sp).map Split.pc).getD 0#64 = p.pc := by
  rw [hg, Option.bind_some, hp]
  exact ⟨rfl, rfl⟩

theorem fetched_rest (s : State) (core quarter ctx va pa : Nat) (w : IWord) :
    { bufferInstr (fillLine s core ctx va pa) core quarter ctx va w with cores := s.cores } = s := rfl

/-! ## Halts -/

/-- The split of a group that has come to its halt point. -/
def haltedSplit (p : Split) : Split := { p.holdSweep with halted := true, syncWait := none, syncOk := false }

theorem holdSweep_keeps (p : Split) : p.holdSweep.members = p.members ∧ p.holdSweep.em = p.em ∧ p.holdSweep.state = p.state ∧
    p.holdSweep.chainLen = p.chainLen ∧ ∀ i n, p.sweep = some (i, n) → p.holdSweep.swpidx = n ∧ p.holdSweep.sweep = none := by
  unfold Split.holdSweep
  split
  next hs => exact ⟨rfl, rfl, rfl, rfl, fun i n h => by rw [hs] at h; cases h; exact ⟨rfl, rfl⟩⟩
  next hs => exact ⟨rfl, rfl, rfl, rfl, fun i n h => by rw [hs] at h; cases h⟩

/-- Settles O47: a breakpoint halts by `halt_with`; a fetch fault traps where the fetch left the state; the other halts replace
their group. -/
theorem halts : Obligations.Halts := by
  unfold Obligations.Halts
  refine ⟨?_, ?_, ?_, ?_, ?_, ?_, ?_, ?_⟩
  · intro s g sp k x p c hm hg hp hc hdue hhit hmay hr hk
    have hgid := groupOf_gid hg
    have hx : groupOf s x.gid = some x := by rw [hgid]; exact hg
    obtain ⟨r, g', hh, h1, h2, h3, h4, h5, h6, -, -, -⟩ := breakAt_halted (p := p) (k := k) (a := p.pc) (mask := p.members)
      (chain := false) hm hx hc hk
    refine ⟨_, r, ?_, splitOf_sid hp ▸ hh, h1, h2, h3, h4, h5, h6⟩
    rw [exec_hwBreakpoint hg hp hc hr, hdue]
    simp only [hhit, hmay, if_true]
  · intro c p
    refine ⟨fun h => if_pos h, fun h => ?_, fun k h => ?_⟩
    · unfold bpHit
      split
      · rfl
      · exact bpNumber_none h
    · unfold bpHit at h
      split at h
      · cases h
      · exact bpNumber_some h
  · intro s g sp k x p q c d hm hg hp hc hdue hrun hres hr hk hq
    have hgid := groupOf_gid hg
    have hx : groupOf s ({ x with bpDue := none } : Group).gid = some x := by show groupOf s x.gid = _; rw [hgid]; exact hg
    have hgo : exec (.hwBreakpoint g sp) s = .next (breakDue s x c d) := by
      rw [exec_hwBreakpoint hg hp hc hr, hdue]
      simp only [hrun, hres, Bool.and_self, if_true]
    refine ⟨fun hb hfirst => ?_, fun hno => ?_⟩
    · obtain ⟨r, g', hh, h1, h2, h3, h4, h5, h6, h7, h8, h9⟩ := breakAt_halted (y := { x with bpDue := none })
        (p := { q with pc := d.pc }) (k := k) (a := d.addr) (mask := d.mask) (chain := true) hm hx hc hk
      have hbd : breakDue s x c d = breakAt s { x with bpDue := none } c { q with pc := d.pc } k d.addr d.mask true := by
        simp only [breakDue, hq, bpNumber_first hb hfirst]
      refine ⟨_, r, hgo, ?_, h1, h2, h3, h4, h5, h6, ?_, ?_⟩
      · rw [hbd]; exact hh
      · rw [h7, Bool.or_true]
      · rw [hbd, ← hgid]
        rw [show groupOf _ x.gid = some g' from h8]
        exact h9
    · rw [hgo]
      simp only [breakDue, hq, bpNumber_none hno]
  · intro s s1 g sp x p c r hg hp hc hi hb hf
    have hx := exec_fetchFault hg hp hc hi hb hf
    refine ⟨fun f e h1 => ?_, fun pa e h1 => ?_, fun e h1 => ?_, fun e => ?_, fun e => ?_⟩
    · rw [hx, e, ← (fetchTrap_names h1 hp).1]
      rfl
    · rw [hx, e, ← (fetchTrap_names h1 hp).1, ← (fetchTrap_names h1 hp).2]
      rfl
    · refine ⟨(Config.unfetched s1.freeCtr).extractLsb' 0 64, (Config.unfetched s1.freeCtr).extractLsb' 64 64, ?_⟩
      rw [hx, e, ← (fetchTrap_names h1 hp).1]
      rfl
    · rw [hx]
      rcases e with ⟨w, rfl⟩ | rfl <;> rfl
    · rw [hx, e]
      rfl
  · intro s core quarter c pc src sup ha hf hbuf
    refine ⟨fun f s1 ht => ?_, fun pa s1 ht hsrc => ?_⟩
    · simp [fetchAt, ha, hf, ht]
    · have hline : (if src == .memory then none else lineInstr s1 core c.num pc.toNat) = none := by
        rcases hsrc with rfl | h
        · rfl
        · rw [h, ite_self]
      refine ⟨fun b hb => ?_, fun hb hn => ⟨_, ?_, fetched_rest s1 core quarter c.num pc.toNat pa (BitVec.ofNat 128 (coreValue s1 core pa 16))⟩⟩
      · simp only [fetchAt, Bool.not_true, Bool.and_false, Bool.false_eq_true, if_false, ha, ne_eq, not_true_eq_false, hf, ht, hline, hb]
      · simp only [fetchAt, Bool.not_true, Bool.and_false, Bool.false_eq_true, if_false, ha, ne_eq, not_true_eq_false, hf, ht, hline, hb, hn]
  · intro s g x p ps hg hs hpl hd ha hr
    have hexec : exec (.debuggerHalt g) s = execDebuggerHalt g s := rfl
    refine ⟨{ kind := .debugger, body := trapRecord s x p { cause := .breakpoint, mask := p.members } 1, sid := p.sid, addr := none },
      rfl, rfl, ?_⟩
    rw [hexec, execDebuggerHalt, hg]
    simp only [hs, hpl, hd, ha, hr, bne_self_eq_false, Option.isSome_none, Bool.not_true, Bool.or_self, Bool.false_eq_true, if_false]
  · intro s g sp x p hg hp hcond hids
    have hgid := groupOf_gid hg
    have hsid := splitOf_sid hp
    obtain ⟨y, hy⟩ : ∃ y : Group, y = { x with mapresWait := x.mapresWait.filter fun w => w.1 != sp } := ⟨_, rfl⟩
    have hexec : exec (.splitHalt g sp) s = .next (endBoost (setGroup s (setSplit y (haltedSplit p)))) := by
      have hdef : exec (.splitHalt g sp) s = execSplitHalt g sp s := rfl
      rw [hdef, execSplitHalt, hg]
      simp only [hp]
      rw [if_pos hcond, hy]
      rfl
    obtain ⟨k1, k2, k3, k4, k5⟩ := holdSweep_keeps p
    have hpy : splitOf y sp = some p := by rw [hy]; exact hp
    refine ⟨_, setSplit y (haltedSplit p), haltedSplit p, hexec, ?_, splitOf_setSplit hpy (by exact (holdSweep_sid p).trans hsid), rfl,
      holdSweep_pc p, k1, k2, k3, k4, by rw [hy]; rfl, rfl, k5, by rw [hy]; rfl, by rw [hy]; rfl, by rw [hy]; rfl, by rw [hy]; rfl,
      by rw [hy]; rfl, fun n hn => ?_, rfl⟩
    · have h1 : groupOf (setGroup s (setSplit y (haltedSplit p))) g = some (setSplit y (haltedSplit p)) :=
        groupOf_setGroup hg (by rw [hy]; exact hgid)
      exact h1
    · rw [splitOf_setSplit_other (by show n ≠ p.holdSweep.sid; rw [holdSweep_sid, hsid]; exact hn), hy]
      rfl
  · intro s g sp x p sc hg hp hw
    have hexec : exec (.reproSyncProceed g sp) s = execReproSyncProceed g sp s := rfl
    refine ⟨fun hr => ?_, fun hr => ?_⟩
    · rw [hexec, execReproSyncProceed, hg]
      simp only [hp, Option.bind_some, hw, hr, if_true]
      rw [updSplit_eq hg hp]
    · rw [hexec, execReproSyncProceed, hg]
      simp only [hp, Option.bind_some, hw, hr, Bool.false_eq_true, if_false]

end Sys2Proof.Machine
end

section
/-!
SUPPORT. SPAWN: its descriptors read, its records filed, and the granules that go with a handle (O41).
-/
namespace Sys2Proof.Machine

/-- The records that a SPAWN's lanes file. -/
def spawnRecs (u : Iss) (f : RFmt) (ds : List (Nat × Nat)) : List (Nat × ThreadRec) :=
  ds.map fun x => (x.1, laneRecord u f.a (bits f.mod 0 3) f.b (f.mod.getLsbD 3) f.c false x.2 x.1)

/-- What a SPAWN leaves of its group: each lane's result in `d`. -/
def spawnResult (u : Iss) (f : RFmt) (s : State) (ls : List Nat) (oks : List (Nat × Bool)) : State :=
  updGroup s u.g.gid fun g => writeReg g f.d (Lanes.ofPred ls.contains)
    fun l => if oks.any (fun x => x.1 == l && x.2) then 1#32 else 0#32

theorem spawnResult_eq (u : Iss) (f : RFmt) (s : State) (ls : List Nat) (oks : List (Nat × Bool)) :
    (updGroup s u.g.gid fun g => writeReg g f.d (Lanes.ofPred ls.contains)
      fun l => BitVec.ofNat 32 (bitOf (oks.any fun x => x.1 == l && x.2))) = spawnResult u f s ls oks := by
  have h : (fun l => BitVec.ofNat 32 (bitOf (oks.any fun x => x.1 == l && x.2))) =
      fun l => if oks.any (fun x => x.1 == l && x.2) then 1#32 else 0#32 := by
    funext l
    cases oks.any fun x => x.1 == l && x.2 <;> rfl
  rw [spawnResult, h]

/-- SPAWN with its operands allowed and its descriptors read. -/
theorem exec_spawn_reads {f : RFmt} {s s1 : State} {u : Iss} {ds : List (Nat × Nat)} (h : issuer s (.spawn f) = some u)
    (hc : clear u = true) (hok : spawnOk u f = true) (hne : (active u).toList ≠ []) (hr : released u true = true)
    (hd : (deferredAhead u).any (fun r => (fileRec s u.g.core r).isSome) = false)
    (h1 : f.mod.getLsbD 4 = true → (active u).toList.length = 1)
    (hds : readEntries u f.a (active u).toList = .ok (s1, ds)) :
    exec (.spawn f) s = .next (commit u (spawnFile u f s1 ds)) := by
  obtain ⟨rfl, -⟩ := issuer_state h
  have hexec : exec (.spawn f) u.s = execSpawn f u.s := rfl
  have hone : (f.mod.getLsbD 4 && (active u).toList.length != 1) = false := by
    cases hx : f.mod.getLsbD 4 with
    | false => rfl
    | true => rw [h1 hx]; rfl
  unfold spawnOk at hok
  dsimp only at hok
  rw [Bool.and_eq_true] at hok
  obtain ⟨hlegal, hfab⟩ := hok
  rw [hexec, execSpawn, runInstr_next h hc]
  simp only [hlegal, (Bool.not_eq_true' _).mp hfab, nonempty_false hne, hone, hr, hd, hds, Bool.not_true, Bool.or_self,
    Bool.false_eq_true, if_false]

/-- What SPAWN does with its records once they are filed. -/
theorem spawnFile_eq {u : Iss} {f : RFmt} {s : State} {ds : List (Nat × Nat)}
    (hj : f.mod.getLsbD 3 = true → alignedTo u f.c 4 (ds.map Prod.fst) = true)
    (hh : f.mod.getLsbD 4 = true → handleValid u (readWord u 0#32 (opndOfCode (bits f.imm 0 10)) 0) = true)
    {hand : Nat × State} (hhand : handGranules u s (readWord u 0#32 (opndOfCode (bits f.imm 0 10)) 0) = hand)
    {s2 : State} {oks : List (Nat × Bool)}
    (hf : fileLanes u (if f.mod.getLsbD 4 then hand.2 else s) (if f.mod.getLsbD 4 then
      (spawnRecs u f ds).map fun x => (x.1, { x.2 with handle := some hand.1 }) else spawnRecs u f ds) = (s2, oks))
    (hrep : (oks.any (fun x => !x.2) && u.g.repro) = false) :
    spawnFile u f s ds = .done (spawnResult u f (if (oks.any (fun x => !x.2) && f.mod.getLsbD 4) = true then s else s2)
      (ds.map Prod.fst) oks) := by
  have hmis : (if f.mod.getLsbD 3 = true then misaligned u s f.c 4 (ds.map Prod.fst) else none) = none := by
    split
    next hx => exact misaligned_none (hj hx)
    next => rfl
  have hval : (f.mod.getLsbD 4 && !handleValid u (readWord u 0#32 (opndOfCode (bits f.imm 0 10)) 0)) = false := by
    cases hx : f.mod.getLsbD 4 with
    | false => rfl
    | true => rw [hh hx]; rfl
  unfold spawnRecs at hf
  unfold spawnFile
  dsimp only
  rw [hmis]
  dsimp only
  rw [hval, hhand, if_neg (by simp), hf]
  dsimp only
  rw [hrep, if_neg (by simp), spawnResult_eq]

/-- The granules of a handle go with it: the next identity, and one more handle. -/
theorem handGranules_adds (u : Iss) (s : State) (h : Word) : (handGranules u s h).1 = s.nextId ∧
    ∃ x, (handGranules u s h).2.handles = s.handles ++ [x] ∧ x.hid = s.nextId ∧ x.parent = u.g.team ∧ x.first = bits h 0 8 ∧
      x.count = bits h 8 8 ∧ x.child = none := by
  have hupd : ∀ (t : State) (n : Nat) (k : Team → Team), (updTeam t n k).handles = t.handles := fun t n k => by
    unfold updTeam
    split <;> rfl
  refine ⟨rfl, ?_⟩
  unfold handGranules
  dsimp only
  rw [hupd]
  exact ⟨_, rfl, rfl, rfl, rfl, rfl, rfl⟩

/-- Settles O41: SPAWN reads, files in ascending order and reports; a handle's granules leave first, and stay when a record
cannot be filed. -/
theorem spawnRecords : Obligations.SpawnRecords := by
  unfold Obligations.SpawnRecords
  intro f s s1 u ds h hc hok hne hr hd hds ls j hj
  obtain ⟨rfl, -⟩ := issuer_state h
  obtain ⟨hread, hfst, hsp⟩ := readEntries_ok hds
  have hnext := (onlyRead_keeps hread).2.2
  have hhandles := congrArg State.handles hread.1
  refine ⟨hread, hfst, hsp, fun hnh s2 oks hf hrep => ?_, fun hh h1 hv hid sh s2 oks hg hf => ?_⟩
  · have hrep' : (oks.any (fun x => !x.2) && u.g.repro) = false := by
      cases hx : u.g.repro with
      | false => rw [Bool.and_false]
      | true =>
        rw [Bool.and_true, List.any_eq_false]
        intro x hm
        simpa using hrep hx x hm
    have hfile := spawnFile_eq (u := u) (f := f) (s := s1) (ds := ds) (by rw [hfst]; exact hj) (by rw [hnh]; exact nofun) rfl
      (s2 := s2) (oks := oks) (by simp only [hnh, Bool.false_eq_true, if_false]; exact hf) hrep'
    rw [exec_spawn_reads h hc hok hne hr hd (by rw [hnh]; exact nofun) hds, hfile, commit_done]
    simp only [hnh, Bool.and_false, Bool.false_eq_true, if_false]
    rw [hfst]
    rfl
  · obtain ⟨h2, x, hx, hxid, hxp, hxf, hxc, hxn⟩ := handGranules_adds u s1 (readWord u 0#32 (opndOfCode (bits f.imm 0 10)) 0)
    rw [hg] at h2 hx
    have hid' : hid = u.s.nextId := Eq.trans h2 hnext
    have hgo : ∀ hrep' : (oks.any (fun x => !x.2) && u.g.repro) = false, exec (.spawn f) u.s = .next (retire
        (spawnResult u f (if (oks.any fun x => !x.2) = true then s1 else s2) (active u).toList oks) u true) := fun hrep' => by
      have hfile := spawnFile_eq (u := u) (f := f) (s := s1) (ds := ds) (by rw [hfst]; exact hj) (fun _ => hv) hg
        (s2 := s2) (oks := oks) (by simp only [hh, if_true]; exact hf) hrep'
      rw [exec_spawn_reads h hc hok hne hr hd (fun _ => h1) hds, hfile, commit_done, hh, Bool.and_true, hfst]
    refine ⟨hid', ⟨x, hx.trans (congrArg (· ++ [x]) hhandles), hxid.trans h2.symm, hxp, hxf, hxc, hxn⟩, fun hall => ?_, fun hsome hrep => ?_⟩
    · have hnone : (oks.any fun x => !x.2) = false := by
        rw [List.any_eq_false]
        intro y hm
        simpa using hall y hm
      rw [hgo (by rw [hnone]; rfl), hnone, if_neg (by simp)]
      rfl
    · have hany : (oks.any fun x => !x.2) = true := by
        obtain ⟨y, hm, hy⟩ := hsome
        exact List.any_eq_true.mpr ⟨y, hm, by rw [hy]; rfl⟩
      rw [hgo (by rw [hrep, Bool.and_false]), hany, if_pos rfl]
      rfl

end Sys2Proof.Machine
end

section
/-!
SUPPORT. The Rake: records filed, held back and launched, and the timers of pans (O44).
-/
namespace Sys2Proof.Machine

/-! ## Filing -/

theorem panFor_some {c : Core} {r : ThreadRec} {i : Nat} (h : panFor c r = some i) : ∃ p, c.pans[i]? = some (some p) := by
  obtain ⟨hi, hp, -⟩ := List.findIdx?_eq_some_iff_getElem.mp h
  rw [List.getElem?_eq_getElem hi]
  cases hx : c.pans[i] with
  | none => rw [hx] at hp; cases hp
  | some p => exact ⟨p, rfl⟩

/-- Where a record is filed when a pan takes it. -/
theorem fileRec_pan {s : State} {core i : Nat} {r : ThreadRec} (h : panChoice (coreOf s core) r = some i) :
    fileRec s core r = some (setCore s core { coreOf s core with
      pans := (coreOf s core).pans.set i (some (panAdd s.clock.toNat ((coreOf s core).pans.getD i none) r)) }) := by
  simp only [fileRec, fileInRake, h, Option.map_some]

/-- Where a record is filed when none does. -/
theorem fileRec_brine {s : State} {core : Nat} {r : ThreadRec} (h : panChoice (coreOf s core) r = none) :
    fileRec s core r = (ctxOf s r.ctx).bind fun c =>
      if c.brine.length < c.brineCap then some (setCtx s { c with brine := c.brine ++ [r] }) else none := by
  simp only [fileRec, fileInRake, h, Option.map_none]

/-- A record goes to its pan, to the first unbound one, or to the brine queue, as each has room. -/
theorem fileRec_filed (s : State) (core : Nat) (r : ThreadRec) : Filed s core r (fileRec s core r) := by
  unfold Filed
  dsimp only
  have hbrine : panChoice (coreOf s core) r = none → (match ctxOf s r.ctx with
      | none => fileRec s core r = none
      | some x => if x.brine.length < x.brineCap then fileRec s core r = some (setCtx s { x with brine := x.brine ++ [r] })
          else fileRec s core r = none) := by
    intro h
    rw [fileRec_brine h]
    cases ctxOf s r.ctx with
    | none => rfl
    | some x =>
      dsimp only [Option.bind_some]
      split <;> rfl
  split
  next hroom =>
    have hroom' : ¬ Config.rakeRoom ≤ rakeCount (coreOf s core) := by
      have : Config.rakeRoom = 4096 := rfl
      omega
    split
    next _ _ i hbound =>
      have hb : panFor (coreOf s core) r = some i := hbound
      obtain ⟨p, hp⟩ := panFor_some hb
      refine ⟨p, hp, ?_⟩
      rw [fileRec_pan (i := i) (by simp only [panChoice, hroom', if_false, hb]), List.getD_eq_getElem?_getD, hp]
      rfl
    next _ _ i hbound hfree =>
      have hb : panFor (coreOf s core) r = none := hbound
      obtain ⟨hi, hn, -⟩ := List.findIdx?_eq_some_iff_getElem.mp hfree
      rw [fileRec_pan (i := i) (by simp only [panChoice, hroom', if_false, hb]; exact hfree), List.getD_eq_getElem?_getD,
        List.getElem?_eq_getElem hi, Option.getD_some, Option.isNone_iff_eq_none.mp hn]
      rfl
    next _ _ hbound hfree =>
      have hb : panFor (coreOf s core) r = none := hbound
      exact hbrine (by simp only [panChoice, hroom', if_false, hb]; exact hfree)
  next hroom =>
    have hroom' : Config.rakeRoom ≤ rakeCount (coreOf s core) := by
      have : Config.rakeRoom = 4096 := rfl
      omega
    exact hbrine (by simp only [panChoice, hroom', if_true])

/-- A released record with room and none before it is filed. -/
theorem fileOrDefer_files {s t : State} {core fut : Nat} {r : ThreadRec} (he : ctxEnding s r.ctx = false)
    (hb : s.deferredRecs.any (filesBefore s core fut r) = false) (hf : fileRec s core r = some t) :
    fileOrDefer s core fut r = t := by
  simp only [fileOrDefer, he, hb, hf, Bool.false_eq_true, if_false]

/-- A released record with no room, or behind another, waits. -/
theorem fileOrDefer_waits {s : State} {core fut : Nat} {r : ThreadRec} (he : ctxEnding s r.ctx = false)
    (h : s.deferredRecs.any (filesBefore s core fut r) = true ∨ fileRec s core r = none) :
    fileOrDefer s core fut r = { s with deferredRecs := s.deferredRecs ++ [(core, fut, r)] } := by
  have hn : (if s.deferredRecs.any (filesBefore s core fut r) then none else fileRec s core r) = none := by
    rcases h with h | h
    · rw [h]; rfl
    · rw [h, ite_self]
  simp only [fileOrDefer, he, hn, Bool.false_eq_true, if_false]

/-! ## What evictions leave -/

theorem writeArea_cores (s : State) (ctx n : Nat) : (writeArea s ctx n).cores = s.cores := by
  unfold writeArea
  split
  · rfl
  · split <;> rfl

theorem teamFollows_cores (s : State) (tid : Nat) (p : Place) : (teamFollows s tid p).cores = s.cores := by
  unfold teamFollows teamAway
  split
  · split
    · rfl
    · exact writeArea_cores ..
  · rfl

theorem evict_cores (s : State) (gid : Nat) : (evict s gid).cores = s.cores := by
  unfold evict
  split
  · rfl
  · exact (teamFollows_cores ..).trans (writeArea_cores ..)

theorem evictAll_cores (gs : List Nat) (s : State) : (gs.foldl evict s).cores = s.cores := by
  induction gs generalizing s with
  | nil => rfl
  | cons g gs ih => exact (ih _).trans (evict_cores s g)

theorem evictTeams_cores (fuel : Nat) (s : State) (core spad : Nat) : (evictTeams fuel s core spad).cores = s.cores := by
  induction fuel generalizing s with
  | zero => rfl
  | succ n ih =>
    unfold evictTeams
    dsimp only
    split
    · rfl
    · split
      · rfl
      · exact (ih _).trans (evictAll_cores ..)

theorem makeRoom_cores (s : State) (core regs spad : Nat) : (makeRoom s core regs spad).cores = s.cores := by
  unfold makeRoom
  refine (evictTeams_cores ..).trans ?_
  split
  · rfl
  · split
    · exact evictAll_cores ..
    · rfl

/-! ## Launches -/

/-- The group that a pan's launch starts, in the state that made room for it. -/
def launchedGroup (s : State) (gr : Grid) (core q lbase : Nat) (d : Desc) (rs : List ThreadRec) : Group :=
  let t := startTeam gr s.nextId 0 core s.nextId 0 true d.spad
  let f := firstSplit (s.nextId + 2) (s.nextId + 3) (Lanes.ofPred fun l => decide (l < rs.length)) d.code d.narrow s.clock.toNat
  let v := (List.range 4).map (fun k => recLanes rs fun r => r.payload.getD k 0#32) ++
    [recLanes rs fun r => loWord (recJoin r), recLanes rs fun r => hiWord (recJoin r)]
  let hand := (rs.head?).bind ThreadRec.handle
  let size := ((hand.bind (handleOf s)).map fun h => h.count * Config.granule).getD 0
  let s2 : Word := if hand.isSome then BitVec.ofNat 32 t.spadSize else 0#32
  startGroup gr t (s.nextId + 1) q 0 0 (8 * d.vregs0) (2 ^ 63 + gr.spawnedGroups) 1 1 lbase (freePriv s gr.ctx) f
    [0#32, 0#32, s2, BitVec.ofNat 32 size] v

theorem receive_keeps (s : State) (tid hid : Nat) : (receive s tid hid).mem = s.mem ∧ (receive s tid hid).groups = s.groups ∧
    (receive s tid hid).cores = s.cores := by
  unfold receive
  split
  · exact ⟨rfl, rfl, rfl⟩
  · unfold updTeam
    split <;> exact ⟨rfl, rfl, rfl⟩

theorem acquireDev_pans (s : State) (core c : Nat) : (coreOf (acquireDev s core) c).pans = (coreOf s c).pans := by
  by_cases h : c = core
  · subst h
    by_cases hl : c < s.cores.length
    · rw [acquireDev, coreOf_setCore _ _ _ hl]
    · simp [coreOf, acquireDev, setCore, hl]
  · rw [acquireDev, coreOf_setCore_other _ _ h]

/-- A launch leaves one more group, and memory and the pans as they were. -/
theorem launch_leaves (s : State) (gr : Grid) (core q lbase : Nat) (d : Desc) (rs : List ThreadRec) :
    (launch s gr core q lbase d rs).mem = s.mem ∧
    (launch s gr core q lbase d rs).groups = s.groups ++ [launchedGroup s gr core q lbase d rs] ∧
    (launch s gr core q lbase d rs).cores.length = s.cores.length ∧
    (coreOf (launch s gr core q lbase d rs) core).pans = (coreOf s core).pans := by
  obtain ⟨x, hx⟩ : ∃ x, x = updGrid (acquireDev { s with
      nextId := s.nextId + 4
      teams := s.teams ++ [startTeam gr s.nextId 0 core s.nextId 0 true d.spad]
      groups := s.groups ++ [launchedGroup s gr core q lbase d rs] } core) gr.uid
    fun y => { y with spawnedGroups := y.spawnedGroups + 1 } := ⟨_, rfl⟩
  have hlaunch : launch s gr core q lbase d rs = (match (rs.head?).bind ThreadRec.handle with
      | some h => receive x s.nextId h
      | none => x) := by rw [hx]; rfl
  have hrest := updGrid_rest (acquireDev { s with
      nextId := s.nextId + 4
      teams := s.teams ++ [startTeam gr s.nextId 0 core s.nextId 0 true d.spad]
      groups := s.groups ++ [launchedGroup s gr core q lbase d rs] } core) gr.uid fun y => { y with spawnedGroups := y.spawnedGroups + 1 }
  rw [← hx] at hrest
  have hmem := congrArg State.mem hrest
  have hgroups := congrArg State.groups hrest
  have hcores := congrArg State.cores hrest
  obtain ⟨y, hy⟩ : ∃ y, y = launch s gr core q lbase d rs := ⟨_, rfl⟩
  have hkeeps : y.mem = x.mem ∧ y.groups = x.groups ∧ y.cores = x.cores := by
    rw [hy, hlaunch]
    split
    · exact receive_keeps ..
    · exact ⟨rfl, rfl, rfl⟩
  obtain ⟨h1, h2, h3⟩ := hkeeps
  have hyc : y.cores = (acquireDev s core).cores := h3.trans hcores
  rw [← hy]
  refine ⟨h1.trans hmem, h2.trans hgroups, ?_, ?_⟩
  · rw [hyc]
    simp [acquireDev, setCore]
  · rw [← acquireDev_pans s core core]
    unfold coreOf
    rw [hyc]

theorem exec_panLaunch {s : State} {core pan q : Nat} {p : Pan} {d : Desc} {gr : Grid}
    (hp : ((coreOf s core).pans[pan]?).join = some p) (hd : p.desc? = some d) (hg : gridOf s p.grid = some gr)
    (hr : panReady s p = true) (ho : coreOpen s core = true) (hs : gridStopped s gr = false) (ha : gridAway s gr = false)
    (hq : admits (roomOf (makeRoom s core (8 * d.vregs0) (roundGranule d.spad)) core) [(8 * d.vregs0, 0)] (roundGranule d.spad) true = some [q])
    (he : evictionsAllowed s (makeRoom s core (8 * d.vregs0) (roundGranule d.spad)) = true)
    (hv : saveHolds (makeRoom s core (8 * d.vregs0) (roundGranule d.spad)) gr.ctx (groupArea (8 * d.vregs0) 0 + roundGranule d.spad) = true) :
    exec (.panLaunch core pan) s = .next (
      let rs := launchRecs p (coalOf d)
      let s1 := launch (makeRoom s core (8 * d.vregs0) (roundGranule d.spad)) gr core q (spawnBase s p d) d rs
      setCore s1 core { coreOf s1 core with pans := (coreOf s1 core).pans.set pan (panAfter s.clock.toNat rs.length p) }) := by
  have hexec : exec (.panLaunch core pan) s = execPanLaunch core pan s := rfl
  rw [hexec, execPanLaunch, hp]
  simp only [hd, hg, hr, ho, hs, ha, Bool.not_false, Bool.and_self, if_true, launchPan, hq, he, hv, Option.getD_some]

/-- What a launched group holds. -/
theorem launchedGroup_regs (s : State) (gr : Grid) (core q lbase : Nat) (d : Desc) (rs : List ThreadRec) :
    let g := launchedGroup s gr core q lbase d rs
    g.vregs.length = 8 * d.vregs0 ∧
    (∀ k < 6, k < 8 * d.vregs0 → ∀ l < 64, (g.vregs.getD k LaneVec.zero).get l =
      match rs[l]? with
      | none => 0#32
      | some r => if k < 4 then r.payload.getD k 0#32 else (if r.gated then 0#64 else r.join).extractLsb' (32 * (k - 4)) 32) ∧
    (∀ k, 6 ≤ k → k < 8 * d.vregs0 → g.vregs.getD k LaneVec.zero = LaneVec.zero) ∧
    (rs.all (fun r => r.handle.isNone) = true → g.sregs = List.replicate 64 0#32) := by
  intro g
  have hlanes : ∀ (f : ThreadRec → Word) l, l < 64 → (recLanes rs f).get l = (rs[l]?.map f).getD 0#32 :=
    fun f l hl => LaneVec.get_ofFn _ l hl
  obtain ⟨v, hv⟩ : ∃ v, v = (List.range 4).map (fun k => recLanes rs fun r => r.payload.getD k 0#32) ++
    [recLanes rs fun r => loWord (recJoin r), recLanes rs fun r => hiWord (recJoin r)] := ⟨_, rfl⟩
  have hvlen : v.length = 6 := by rw [hv]; rfl
  have hregs : g.vregs = (v ++ List.replicate (8 * d.vregs0) LaneVec.zero).take (8 * d.vregs0) := by rw [hv]; rfl
  have hget : ∀ k, k < 8 * d.vregs0 → g.vregs.getD k LaneVec.zero =
      (v ++ List.replicate (8 * d.vregs0) LaneVec.zero).getD k LaneVec.zero := fun k hk => by
    rw [hregs, List.getD_eq_getElem?_getD, List.getElem?_take_of_lt hk, ← List.getD_eq_getElem?_getD]
  refine ⟨?_, fun k hk hkr l hl => ?_, fun k hk hkr => ?_, fun hall => ?_⟩
  · rw [hregs]
    simp
  · rw [hget k hkr, List.getD_append _ _ _ _ (by omega), hv]
    interval_cases k <;> refine (hlanes _ l hl).trans ?_ <;> cases rs[l]? <;> rfl
  · rw [hget k hkr, List.getD_append_right _ _ _ _ (by omega)]
    simp
  · have hhand : (rs.head?).bind ThreadRec.handle = none := by
      cases rs with
      | nil => rfl
      | cons r t =>
        have h := (List.all_eq_true.mp hall) r (List.mem_cons_self ..)
        exact Option.isNone_iff_eq_none.mp h
    show (launchedGroup s gr core q lbase d rs).sregs = _
    unfold launchedGroup
    dsimp only
    rw [hhand]
    rfl

/-- Settles O44: a record is filed by the pan it finds; a ready pan starts the group `launchedGroup`. -/
theorem rakeAndPans : Obligations.RakeAndPans := by
  unfold Obligations.RakeAndPans
  refine ⟨fileRec_filed, ?_, ?_, ?_, ?_, ?_⟩
  · intro s core fut r he behind
    exact ⟨fun t hb hf => fileOrDefer_files he hb hf, fun h => fileOrDefer_waits he h⟩
  · intro s t k core fut r hk hfirst hf
    have hexec : exec (.deferredRecordFile k) s = execDeferredRecordFile k s := rfl
    have hany : (s.deferredRecs.take k).any (filesBefore s core fut r) = false := by
      rw [List.any_eq_false]
      intro x hx hc
      simp only [filesBefore, Bool.and_eq_true, Bool.or_eq_true, beq_iff_eq] at hc
      obtain ⟨h1, h2⟩ := hc
      obtain ⟨h3, h4⟩ := hfirst x hx h1
      rcases h2 with h | ⟨h, h'⟩
      · exact h3 h
      · rw [h4 h] at h'
        cases h'
    rw [hexec, execDeferredRecordFile, hk]
    simp only [hany, hf, Bool.false_eq_true, if_false]
    have e := congrArg State.deferredRecs (fileRec_keeps hf)
    rw [show t.deferredRecs = s.deferredRecs from e]
  · intro s t core ctx c r rest hc hb ho hfit htake
    have hexec : exec (.brineIntake core ctx) s = execBrineIntake core ctx s := rfl
    have hcond : ((mayTake s core ctx || (r.handle.isSome && !ctxStopped s ctx)) && recFits s core r && coreOpen s core) = true := by
      have hm : (mayTake s core ctx || (r.handle.isSome && !ctxStopped s ctx)) = true := by
        rcases htake with h | ⟨h, h' | h'⟩
        · simp [mayTake, h]
        · simp [h, Option.isSome_iff_ne_none, h']
        · have : (s.groups.all fun g => g.ctx != ctx || g.place != .resident) = true := by
            rw [List.all_eq_true]
            intro g hg
            by_cases e : g.ctx = ctx
            · simpa [e] using h' g hg e
            · simp [e]
          simp [mayTake, h, this]
      rw [hm, hfit, ho]
      rfl
    refine ⟨fun hf => ?_, fun hf => ?_⟩
    · rw [hexec, execBrineIntake, hc]
      simp only [hb, hcond, hf, if_true]
    · rw [hexec, execBrineIntake, hc]
      simp only [hb, hcond, hf, if_true]
  · intro s core pan p d hp hd hr he ht
    have hexec : exec (.panTimerExpiry core pan) s = execPanTimerExpiry core pan s := rfl
    rw [hexec, execPanTimerExpiry]
    simp only [hp, hd, hr, he, ht, Bool.not_false, decide_true, Bool.and_self, if_true]
  · intro s core pan q p d gr hp hd hg hr ho hs ha hcore hids regs spad s' hq hev hsv hnar rs
    obtain ⟨h1, h2, h3, h4⟩ := launch_leaves s' gr core q (spawnBase s p d) d rs
    have hs' : s'.cores = s.cores := makeRoom_cores ..
    have hpan : pan < (coreOf s core).pans.length := by
      rcases Nat.lt_or_ge pan (coreOf s core).pans.length with h | h
      · exact h
      · rw [List.getElem?_eq_none h] at hp; cases hp
    have hpans : (coreOf (launch s' gr core q (spawnBase s p d) d rs) core).pans = (coreOf s core).pans := by
      rw [h4]; unfold coreOf; rw [hs']
    obtain ⟨r1, r2, r3, r4⟩ := launchedGroup_regs s' gr core q (spawnBase s p d) d rs
    refine ⟨_, launchedGroup s' gr core q (spawnBase s p d) d rs, _, exec_panLaunch hp hd hg hr ho hs ha hq hev hsv, h1, h2, ?_,
      rfl, rfl, rfl, rfl, rfl, rfl, rfl, rfl, ?_, rfl, r1, rfl, rfl, r2, r3, r4⟩
    · rw [coreOf_setCore _ _ _ (by rw [h3, hs']; exact hcore)]
      dsimp only
      rw [List.getElem?_set_self (by rw [hpans]; exact hpan)]
    · show gr.uid = p.grid
      exact gridOf_uid hg

end Sys2Proof.Machine
end

section
/-!
SUPPORT. Map slots: reservations, binds of zeros and of images, and the end of a bind (O34).
-/
namespace Sys2Proof.Machine

/-! ## Reservations -/

theorem exec_mapres {f : RFmt} {s : State} {u : Iss} (h : issuer s (.mapres f) = some u) (hc : clear u = true)
    (hv : guardIsVector f.h.guard = false) (hd : (f.d == .zero || sOk false f.d) = true) (ha : siOk f.a = true)
    (hg : scalarGuard u.g f.h.guard = true) :
    exec (.mapres f) s = .next (commit u (mapresBody u f.d (readNat u (f.imm.zeroExtend 64) false f.a 0))) := by
  have hexec : exec (.mapres f) s = execMapres f s := rfl
  rw [hexec, execMapres, runInstr_next h hc]
  simp only [hv, hd, ha, hg, Bool.not_true, Bool.or_self, Bool.false_eq_true, if_false]

/-- Among numbers of which none occurs twice, those that occur in a list are as many as the list has. -/
theorem length_filter_not_mem {l gone : List Nat} (hl : l.Nodup) (hg : gone.Nodup) (hs : gone ⊆ l) :
    (l.filter fun n => !gone.contains n).length = l.length - gone.length := by
  have hperm : (l.filter fun n => gone.contains n).Perm gone := by
    refine (List.perm_ext_iff_of_nodup (hl.filter _) hg).mpr fun n => ?_
    simp only [List.mem_filter, List.contains_iff_mem]
    exact ⟨fun h => h.2, fun h => ⟨hs h, h⟩⟩
  have hsum := List.length_eq_length_filter_add (l := l) fun n => gone.contains n
  have hlen := hperm.length_eq
  omega

/-- What a reservation keeps when it is lowered: only its own slots, all that logical slots hold, and as many as asked. -/
theorem reserveLess_spec (g : Group) {n : Nat} (hn : (heldSlots g).length ≤ n) (hle : n ≤ g.phys.length) :
    let ph := (reserveLess g (g.phys.length - n)).phys
    (∀ x ∈ ph, x ∈ g.phys) ∧ (∀ x ∈ g.phys, x.num ∈ heldSlots g → x ∈ ph) ∧
    ((g.phys.map PhysSlot.num).Nodup → (heldSlots g).Nodup → (∀ k ∈ heldSlots g, k ∈ g.phys.map PhysSlot.num) → ph.length = n) := by
  intro ph
  obtain ⟨idle, hidle⟩ : ∃ idle, idle = (g.phys.map PhysSlot.num).filter fun n => !(heldSlots g).contains n := ⟨_, rfl⟩
  obtain ⟨gone, hgone⟩ : ∃ gone, gone = idle.drop (idle.length - (g.phys.length - n)) := ⟨_, rfl⟩
  have hph : ph = g.phys.filter fun x => !gone.contains x.num := by rw [hgone, hidle]; rfl
  have hsub : ∀ k ∈ gone, k ∈ g.phys.map PhysSlot.num ∧ k ∉ heldSlots g := fun k hk => by
    rw [hgone] at hk
    have h1 := List.mem_of_mem_drop hk
    rw [hidle] at h1
    simpa using List.mem_filter.mp h1
  refine ⟨fun x hx => ?_, fun x hx hh => ?_, fun hnd hhd hsubs => ?_⟩
  · rw [hph] at hx
    exact (List.mem_filter.mp hx).1
  · rw [hph, List.mem_filter]
    refine ⟨hx, ?_⟩
    simpa using fun hm => (hsub _ hm).2 hh
  · have hidle_len : idle.length = g.phys.length - (heldSlots g).length := by
      rw [hidle, length_filter_not_mem hnd hhd hsubs, List.length_map]
    have hgone_len : gone.length = g.phys.length - n := by
      rw [hgone, List.length_drop]
      omega
    have hgone_nd : gone.Nodup := by
      rw [hgone, hidle]
      exact (List.Nodup.filter _ hnd).sublist (List.drop_sublist ..)
    have hlen : ph.length = ((g.phys.map PhysSlot.num).filter fun n => !gone.contains n).length := by
      rw [hph, List.filter_map, List.length_map]
      rfl
    rw [hlen, length_filter_not_mem hnd hgone_nd fun k hk => (hsub k hk).1, List.length_map]
    omega

/-! ## Images -/

theorem getD_take_drop {α : Type} (l : List α) (d : α) {a n k : Nat} (h : k < n) :
    ((l.drop a).take n).getD k d = l.getD (a + k) d := by
  rw [List.getD_eq_getElem?_getD, List.getElem?_take_of_lt h, List.getElem?_drop, List.getD_eq_getElem?_getD]

/-- An element of a row is the element of the image. -/
theorem rowElem_image (sf : Nat) (bs : List Byte) {i j : Nat} (hi : i < 64) (hj : j < 64) :
    rowElem sf (((List.range 64).map fun i => (bs.drop (i * sfmtRowBytes sf)).take (sfmtRowBytes sf)).getD i []) j =
      BitVec.ofNat 16 (imageElem sf bs i j) := by
  have hrow : ((List.range 64).map fun i => (bs.drop (i * sfmtRowBytes sf)).take (sfmtRowBytes sf)).getD i [] =
      (bs.drop (i * sfmtRowBytes sf)).take (sfmtRowBytes sf) := by
    rw [List.getD_eq_getElem?_getD, List.getElem?_map, List.getElem?_range hi]
    rfl
  rw [hrow]
  unfold rowElem imageElem
  dsimp only
  by_cases h1 : sf ≤ 1
  · have hrb : sfmtRowBytes sf = 128 := if_pos h1
    rw [if_pos h1, hrb, getD_take_drop _ _ (by omega), getD_take_drop _ _ (by omega), Nat.mul_comm i 128]
    rcases (by omega : sf = 0 ∨ sf = 1) with rfl | rfl <;> rfl
  · by_cases h4 : sf = 4
    · subst h4
      have hrb : sfmtRowBytes 4 = 32 := rfl
      rw [if_neg h1, if_pos rfl, hrb, getD_take_drop _ _ (by omega), Nat.mul_comm i 32]
      rfl
    · have hrb : sfmtRowBytes sf = 64 := by simp [sfmtRowBytes, h1, h4]
      rw [if_neg h1, if_neg h4, hrb, getD_take_drop _ _ (by omega), Nat.mul_comm i 64]
      split
      · omega
      · omega
      · omega
      · rfl

/-- A slot that has taken an image holds it. -/
theorem holdsImage_imageOf (p : PhysSlot) (sf : Nat) (tb : Bool) (bs : List Byte) :
    HoldsImage { p with elems := (imageOf sf tb bs).1, scales := (imageOf sf tb bs).2 } sf tb bs := by
  unfold HoldsImage imageOf gridOfElems
  dsimp only
  refine ⟨fun i hi j hj => ?_, fun k hk => ?_⟩
  · have hk : 64 * i + j < 4096 := by omega
    have hd : (64 * i + j) / 64 = i := by omega
    have hm : (64 * i + j) % 64 = j := by omega
    rw [List.getD_eq_getElem?_getD, List.getElem?_map, List.getElem?_range hk, Option.map_some, Option.getD_some, hd, hm]
    cases tb with
    | false => exact rowElem_image sf bs hi hj
    | true => exact rowElem_image sf bs hj hi
  · split
    · exact getD_take_drop _ _ hk
    · rw [List.getD_eq_getElem?_getD, List.getElem?_replicate_of_lt hk]
      rfl

/-- The slots of a group after one's contents are replaced. -/
theorem mem_setPhys {g : Group} {n : Nat} {c : List (BitVec 16) × List Byte} {p : PhysSlot} (h : p ∈ g.phys) :
    (p.num ≠ n → p ∈ (setPhys g n c).phys) ∧ (p.num = n → { p with elems := c.1, scales := c.2 } ∈ (setPhys g n c).phys) := by
  refine ⟨fun hn => List.mem_map.mpr ⟨p, h, if_neg hn⟩, fun hn => List.mem_map.mpr ⟨p, h, if_pos hn⟩⟩

/-! ## MAPBIND -/

/-- MAPBIND as far as the slot it takes. -/
theorem exec_mapbind {f : MFmt} {s : State} {u : Iss} {x : Slot} {n : Nat} (h : issuer s (.mapbind f) = some u) (hc : clear u = true)
    (hl : bindLegal u.g f = true) (hx : slotOf u.g f.ma.toNat = some x) (hg : scalarGuard u.g f.h.guard = true)
    (hf : f.a ≠ .zero → f.space = 0#4 → fabricRun u.ctx (effAddr u f 0) (sfmtImage (modSfmt f.mod)) = false) (hb : x.bad = none)
    (hn : bindPhys u.g x = some n) (hst : x.st ≠ .binding) :
    exec (.mapbind f) s = .next (commit u (if f.a = .zero then
        .done (setGroup u.s (setPhys (setSlot u.g f.ma.toNat (bindSlot f n .bound 0#64)) n
          (List.replicate 4096 0#16, List.replicate 128 0x7F#8)))
      else match bindElems u f with
        | .error e => e
        | .ok (s, es) =>
          if engFull u .c2 then .wait u.s
          else .done (addOp u (updGroup s u.g.gid fun g => setSlot g f.ma.toNat (bindSlot f n .binding (effAddr u f 0)))
            (.bind f.ma.toNat) false false .grp (some .c2) es))) := by
  have hexec : exec (.mapbind f) s = execMapbind f s := rfl
  have hfab : ¬ (f.a ≠ .zero ∧ f.space = 0#4 ∧ fabricRun u.ctx (effAddr u f 0) (sfmtImage (modSfmt f.mod)) = true) := by
    rintro ⟨h1, h2, h3⟩
    rw [hf h1 h2] at h3
    cases h3
  have hbad : slotBadTrap u f.ma.toNat x = none := by rw [slotBadTrap, hb]; rfl
  rw [hexec, execMapbind, runInstr_next h hc]
  simp only [hl, hx, hg, Bool.not_true, Bool.false_eq_true, if_false, hfab, hbad, hn, hst] <;> rfl

/-- The pages of a run that are translated: walks alone have happened. -/
theorem translateRun_walked {u : Iss} {acc : Access} {a : DWord} {n : Nat} {s1 : State} {pages : List (Nat × Nat)}
    (h : translateRun u acc a n = .ok (s1, pages)) : Walked u.s s1 := by
  unfold translateRun at h
  dsimp only at h
  split at h
  · cases h
    exact walked_translateLanes ..
  · cases h

/-- The reads of an image: its alignment, and a piece for every 8 bytes. -/
theorem bindElems_ok {u : Iss} {f : MFmt} {s1 : State} {es : List Elem} (h : bindElems u f = .ok (s1, es)) (hl : bindLegal u.g f = true)
    (hz : f.a ≠ .zero) : (effAddr u f 0).toNat % 256 = 0 ∧ Walked u.s s1 ∧
      ∃ pages, es = pieceElems (spaceOf f.space) (effAddr u f 0).toNat (sfmtImage (modSfmt f.mod)) pages := by
  unfold bindElems at h
  dsimp only at h
  split at h
  · cases h
  next ha =>
    refine ⟨by simpa using ha, ?_⟩
    split at h
    next hs =>
      cases ht : translateRun u .bind (effAddr u f 0) (sfmtImage (modSfmt f.mod)) with
      | error e => rw [ht] at h; cases h
      | ok r =>
        rw [ht] at h
        cases h
        exact ⟨translateRun_walked ht, r.2, by rw [hs]; rfl⟩
    next hs =>
      have h1 : f.space = 1#4 := by
        have hz' : (f.a == .zero) = false := by simpa using hz
        simp only [bindLegal, hz', Bool.false_eq_true, if_false, Bool.and_eq_true, decide_eq_true_eq] at hl
        have hle := hl.1.1.1
        have hne : f.space.toNat ≠ 0 := fun e => hs (BitVec.eq_of_toNat_eq (by rw [e]; rfl))
        exact BitVec.eq_of_toNat_eq (by show f.space.toNat = 1; omega)
      split at h
      · cases h
      · split at h
        · cases h
        · cases h
          exact ⟨.refl _, [], by rw [h1]; rfl⟩

/-- An image's bind at issue: the slot BINDING and its reads in flight, counted in C2. -/
theorem bind_launches {u : Iss} {s1 : State} (hg : groupOf u.s u.g.gid = some u.g) (hw : Walked u.s s1) (k : Nat) (x : Slot) (es : List Elem) :
    ∃ s2 o, addOp u (updGroup s1 u.g.gid fun g => setSlot g k x) (.bind k) false false .grp (some .c2) es = s2 ∧
      s2.ops = u.s.ops ++ [o] ∧ o.kind = .bind k ∧ o.elems = es ∧ o.gid = u.g.gid ∧ o.agent = u.p.agent ∧
      groupOf s2 u.g.gid = some { u.g with slots := u.g.slots.set (k - 1) x, eng := u.g.eng ++ [{ cls := .c2, op := o.id, done := false }] } ∧
      (∀ n, n ≠ u.g.gid → groupOf s2 n = groupOf u.s n) ∧
      { s2 with ops := s1.ops, groups := s1.groups, nextId := s1.nextId } = s1 := by
  have hg1 : groupOf s1 u.g.gid = some u.g := (walked_groupOf hw _).trans hg
  have hops := congrArg State.ops hw.1
  obtain ⟨o, ho⟩ : ∃ o, o = (mkOp u (setGroup s1 (setSlot u.g k x)) (.bind k) false false .grp es).1 := ⟨_, rfl⟩
  obtain ⟨s3, hs3⟩ : ∃ s3 : State, s3 =
    { setGroup s1 (setSlot u.g k x) with ops := s1.ops ++ [o], nextId := s1.nextId + 1 } := ⟨_, rfl⟩
  have hg3 : groupOf s3 u.g.gid = some (setSlot u.g k x) := by
    rw [hs3]
    exact (groupOf_setGroup (g := setSlot u.g k x) hg1 rfl :)
  have hadd : addOp u (updGroup s1 u.g.gid fun g => setSlot g k x) (.bind k) false false .grp (some .c2) es =
      setGroup s3 (engAdd (setSlot u.g k x) .c2 o.id) := by
    rw [updGroup_eq hg1, ← updGroup_eq hg3 fun g => engAdd g .c2 o.id, hs3, ho]
    rfl
  refine ⟨_, o, hadd, ?_, by rw [ho]; rfl, by rw [ho]; rfl, by rw [ho]; rfl, by rw [ho]; rfl, groupOf_setGroup hg3 rfl, fun n hn => ?_, ?_⟩
  · rw [hs3, ← show s1.ops = u.s.ops from hops]
    rfl
  · rw [groupOf_setGroup_other (by exact hn), hs3]
    exact (groupOf_setGroup_other (g := setSlot u.g k x) hn).trans (walked_groupOf hw n)
  · rw [hs3]
    rfl

/-! ## The end of a bind -/

/-- What the end of a bind makes of its group. -/
def boundGroup (g : Group) (k : Nat) (x : Slot) (o : Op) : Group :=
  match o.elems.findSome? Elem.bad with
  | some pa => setSlot g k { x with st := .unbound, bad := some (o.tmpl.pc, pa) }
  | none => setPhys (setSlot g k { x with st := .bound }) x.phys (imageOf x.sfmt x.tbind (pieceBytes o.elems))

theorem boundGroup_rest (g : Group) (k : Nat) (x : Slot) (o : Op) :
    { boundGroup g k x o with slots := g.slots, phys := g.phys } = g := by
  unfold boundGroup
  cases g
  split <;> rfl

/-- A bind that met no uncorrectable granule fills its physical slot. -/
theorem boundGroup_whole {g : Group} {k : Nat} {x : Slot} {o : Op} (hb : o.elems.findSome? Elem.bad = none) :
    (boundGroup g k x o).slots = g.slots.set (k - 1) { x with st := .bound } ∧ ∀ p ∈ g.phys, (p.num ≠ x.phys → p ∈ (boundGroup g k x o).phys) ∧
      (p.num = x.phys → ∃ q ∈ (boundGroup g k x o).phys, q.num = p.num ∧ HoldsImage q x.sfmt x.tbind (pieceBytes o.elems)) := by
  have hbg : boundGroup g k x o = setPhys (setSlot g k { x with st := .bound }) x.phys (imageOf x.sfmt x.tbind (pieceBytes o.elems)) := by
    rw [boundGroup, hb]
  rw [hbg]
  refine ⟨rfl, fun p hp => ?_⟩
  obtain ⟨h1, h2⟩ := mem_setPhys (g := setSlot g k { x with st := .bound }) (n := x.phys) (c := imageOf x.sfmt x.tbind (pieceBytes o.elems)) hp
  exact ⟨h1, fun hpn => ⟨_, h2 hpn, rfl, holdsImage_imageOf ..⟩⟩

/-- A bind that met an uncorrectable granule leaves its slot UNBOUND, with the granule's address. -/
theorem boundGroup_bad {g : Group} {k : Nat} {x : Slot} {o : Op} {pa : Nat} (hb : o.elems.findSome? Elem.bad = some pa) :
    (boundGroup g k x o).slots = g.slots.set (k - 1) { x with st := .unbound, bad := some (o.tmpl.pc, pa) } ∧
      (boundGroup g k x o).phys = g.phys := by
  have hbg : boundGroup g k x o = setSlot g k { x with st := .unbound, bad := some (o.tmpl.pc, pa) } := by rw [boundGroup, hb]
  rw [hbg]
  exact ⟨rfl, rfl⟩

theorem boundGroup_gid (g : Group) (k : Nat) (x : Slot) (o : Op) : (boundGroup g k x o).gid = g.gid := by
  unfold boundGroup
  split <;> rfl

/-- A tick of the engine counters stays within what a bind may change. -/
theorem engDone_rest {g b : Group} (h : { b with slots := g.slots, phys := g.phys } = g) (id : Nat) :
    { engDone b id with slots := g.slots, phys := g.phys, eng := g.eng } = g := by
  cases b
  cases g
  cases h
  rfl

theorem finishBind_eq {s : State} {o : Op} {k : Nat} {g : Group} {x : Slot} (hg : groupOf s o.gid = some g) (hx : slotOf g k = some x) :
    finishBind s o k = removeOp (countOff (setGroup s (boundGroup g k x o)) o) o.id := by
  unfold finishBind
  rw [updGroup_eq hg, hx]
  rfl

/-- Settles O34: reservations keep to the free slots; a bind of an image is one operation whose end fills the slot. -/
theorem mapSlots : Obligations.MapSlots := by
  unfold Obligations.MapSlots
  refine ⟨?_, ?_, ?_, ?_⟩
  · intro f s u h hc hv hd ha hg n had held free hn
    obtain ⟨rfl, hui, -⟩ := issuer_state h
    have hx := exec_mapres h hc hv hd ha hg
    have h12 : ¬ 12 < n := by omega
    refine ⟨fun hheld hle => ?_, fun hlt hrep hfree => ?_, fun hlt hrep hfree => ?_, fun hlt hrep h0 hfree => ?_⟩
    · obtain ⟨h1, h2, h3⟩ := reserveLess_spec u.g hheld hle
      refine ⟨_, ?_, h1, h2, h3⟩
      rw [hx, mapresBody]
      dsimp only
      rw [if_neg h12, if_pos hle, if_neg (Nat.not_lt.mpr hheld)]
      rfl
    · refine ⟨((freeSlots u.s u.g.core u.g.quarter).take (n - had)).map PhysSlot.new, ?_, ?_⟩
      · have hr : ¬ (u.g.repro && decide (0 < u.g.phys.length)) = true := by
          cases hx : u.g.repro with
          | false => simp
          | true =>
            have : u.g.phys.length = 0 := hrep hx
            simp [this]
        rw [hx, mapresBody]
        dsimp only
        rw [if_neg h12, if_neg (by omega), if_neg hr, if_pos hfree]
        rfl
      · rw [List.map_map]
        exact List.map_id _
    · rw [hx, mapresBody]
      dsimp only
      rw [if_neg h12, if_neg (by omega), if_neg (by simp [hrep]), if_neg (Nat.not_le.mpr hfree), if_neg (by simp [hrep])]
      rfl
    · have hl0 : u.g.phys.length = 0 := h0
      rw [hx, mapresBody]
      dsimp only
      rw [if_neg h12, if_neg (by omega), if_neg (by simp [hl0]), if_neg (Nat.not_le.mpr hfree), if_pos hrep, hui]
      rfl
  · intro s g sp n x f hg hw hrun hhalt hfree p c hp hc
    obtain ⟨u, hu⟩ := issuer_of hg hp (by rw [hc]; rfl) (.mapres f)
    have hexec : exec (.mapresDeferredGrant g sp) s = execMapresDeferredGrant g sp s := rfl
    obtain ⟨t, ht⟩ := exec_total (i := .mapres f) rfl hu
    refine ⟨t, ht, ?_⟩
    have ht' : execMapres f { s with cur := some (g, sp) } = .next t := ht
    rw [hexec, execMapresDeferredGrant, hg]
    simp only [hw, hrun, hhalt, hfree, beq_self_eq_true, Bool.not_false, decide_true, Bool.and_self, if_true, ht']
  · intro f s u x n h hc hl hx hg hf hb hn hst
    obtain ⟨rfl, -, -, hgr, -, -⟩ := issuer_state h
    have hex := exec_mapbind h hc hl hx hg hf hb hn hst
    refine ⟨fun hz => ?_, fun hz s1 es hes hfull => ?_⟩
    · rw [if_pos hz, commit_done] at hex
      refine ⟨_, hex, rfl, rfl, fun p hp => ⟨(mem_setPhys (g := setSlot u.g f.ma.toNat (bindSlot f n .bound 0#64)) hp).1, fun hpn =>
        ⟨_, (mem_setPhys (g := setSlot u.g f.ma.toNat (bindSlot f n .bound 0#64)) hp).2 hpn, hpn, fun k hk => ?_, fun k hk => ?_⟩⟩⟩
      · show (List.replicate 4096 0#16).getD k 1#16 = 0#16
        rw [List.getD_eq_getElem?_getD, List.getElem?_replicate_of_lt hk]
        rfl
      · show (List.replicate 128 0x7F#8).getD k 0#8 = 0x7F#8
        rw [List.getD_eq_getElem?_getD, List.getElem?_replicate_of_lt hk]
        rfl
    · obtain ⟨ha, hw, pages, hpages⟩ := bindElems_ok hes hl hz
      obtain ⟨s2, o, hadd, h1, h2, h3, h4, h5, h6, h7, h8⟩ := bind_launches hgr hw f.ma.toNat (bindSlot f n .binding (effAddr u f 0)) es
      rw [if_neg hz, hes] at hex
      dsimp only at hex
      rw [hfull, if_neg (by simp), hadd, commit_done] at hex
      exact ⟨ha, ⟨pages, hpages⟩, s2, o, hex, hw, h1, h2, h3, h4, h5, h6, h7, h8⟩
  · intro s op k o o1 g x ho hk s1 ho1 hperf hk1 hg hx
    have hid := opOf_id ho1
    have hexec : exec (.mapBindComplete op) s = .next (finishBind s1 o1 k) := by
      have hdef : exec (.mapBindComplete op) s = execMapBindComplete op s := rfl
      rw [hdef, execMapBindComplete, ho, Option.map_some, hk]
      dsimp only
      rw [show opOf (loadElems s op allLanes 0#64) op = some o1 from ho1]
      dsimp only
      rw [if_pos hperf]
    have hgid := groupOf_gid hg
    have hg2 : groupOf (setGroup s1 (boundGroup g k x o1)) o1.gid = some (boundGroup g k x o1) :=
      groupOf_setGroup hg ((boundGroup_gid g k x o1).trans hgid)
    have hfin := finishBind_eq hg hx
    have hcount : countOff (setGroup s1 (boundGroup g k x o1)) o1 =
        setGroup (setGroup s1 (boundGroup g k x o1)) (engDone (boundGroup g k x o1) o1.id) := updGroup_eq hg2 _
    refine ⟨_, engDone (boundGroup g k x o1) o1.id, hexec, ?_, ?_, ?_, ?_, fun hb => ?_, fun pa hb => ?_⟩
    · rw [hfin, hcount]
      rfl
    · rw [hfin, ← hid]
      exact removeOp_gone _ _
    · rw [hfin, hcount, removeOp_groups]
      exact groupOf_setGroup hg2 ((boundGroup_gid g k x o1).trans hgid)
    · exact engDone_rest (boundGroup_rest g k x o1) _
    · exact boundGroup_whole hb
    · exact boundGroup_bad hb

end Sys2Proof.Machine
end

section
/-!
SUPPORT. The rows and columns of a map slot: MAPWR, MAPRD and MAPREL (O35).
-/
namespace Sys2Proof.Machine

/-! ## Places written one after another -/

/-- The places `idx l` of a list written with `val l`, for the `l` of `ls` in turn. -/
def setPlaces {α : Type} (idx : Nat → Nat) (val : Nat → α) (ls : List Nat) (es : List α) : List α :=
  ls.foldl (fun es l => es.set (idx l) (val l)) es

theorem setPlaces_length {α : Type} (idx : Nat → Nat) (val : Nat → α) (ls : List Nat) (es : List α) :
    (setPlaces idx val ls es).length = es.length := by
  induction ls generalizing es with
  | nil => rfl
  | cons a t ih => exact (ih _).trans (List.length_set ..)

theorem setPlaces_other {α : Type} {idx : Nat → Nat} (val : Nat → α) {ls : List Nat} (es : List α) {k : Nat}
    (h : ∀ l ∈ ls, idx l ≠ k) (d : α) : (setPlaces idx val ls es).getD k d = es.getD k d := by
  induction ls generalizing es with
  | nil => rfl
  | cons a t ih =>
    refine (ih _ fun l hl => h l (List.mem_cons_of_mem _ hl)).trans ?_
    rw [List.getD_eq_getElem?_getD, List.getElem?_set_ne (h a (List.mem_cons_self ..)), List.getD_eq_getElem?_getD]

theorem setPlaces_written {α : Type} {idx : Nat → Nat} (hi : ∀ a b, idx a = idx b → a = b) (val : Nat → α) {ls : List Nat} (es : List α)
    {l : Nat} (hl : l ∈ ls) (hlt : idx l < es.length) (d : α) : (setPlaces idx val ls es).getD (idx l) d = val l := by
  induction ls generalizing es with
  | nil => cases hl
  | cons a t ih =>
    by_cases ht : l ∈ t
    · exact ih _ ht (by rw [List.length_set]; exact hlt)
    · have ha : l = a := (List.mem_cons.mp hl).resolve_right ht
      refine (setPlaces_other val _ (fun b hb e => ht (hi b l e ▸ hb)) d).trans ?_
      rw [← ha, List.getD_eq_getElem?_getD, List.getElem?_set_self hlt]
      rfl

/-! ## MAPWR -/

/-- The place of lane `l` in row `c`, or in column `c`. -/
def rowPlace (t : Bool) (c l : Nat) : Nat := if t then 64 * l + c else 64 * c + l

theorem writeRow_elems (p : PhysSlot) (t : Bool) (c : Nat) (ls : List Nat) (val : Nat → Nat) :
    (writeRow p t c (ls.map fun l => (l, val l))).elems = setPlaces (rowPlace t c) (fun l => BitVec.ofNat 16 (val l)) ls p.elems := by
  simp only [writeRow, setPlaces, List.foldl_map]
  rfl

/-- A row or a column written: its elements in the lanes that are active, and no others. -/
theorem writeRow_getD {p : PhysSlot} (hp : p.elems.length = 4096) (t : Bool) {c : Nat} (hc : c < 64) {ls : List Nat}
    (hls : ∀ l ∈ ls, l < 64) (val : Nat → Nat) {i j : Nat} (hi : i < 64) (hj : j < 64) :
    (writeRow p t c (ls.map fun l => (l, val l))).elems.getD (64 * i + j) 0#16 =
      if (if t then j else i) = c ∧ (if t then i else j) ∈ ls then BitVec.ofNat 16 (val (if t then i else j))
      else p.elems.getD (64 * i + j) 0#16 := by
  have hinj : ∀ a b, rowPlace t c a = rowPlace t c b → a = b := fun a b h => by
    unfold rowPlace at h
    split at h <;> omega
  rw [writeRow_elems]
  by_cases hin : (if t then j else i) = c ∧ (if t then i else j) ∈ ls
  · rw [if_pos hin]
    obtain ⟨h1, h2⟩ := hin
    have hplace : 64 * i + j = rowPlace t c (if t then i else j) := by
      cases t with
      | true => show 64 * i + j = 64 * i + c; rw [← show j = c from h1]
      | false => show 64 * i + j = 64 * c + j; rw [← show i = c from h1]
    rw [hplace]
    exact setPlaces_written hinj _ p.elems h2 (by rw [hp, ← hplace]; omega) _
  · rw [if_neg hin]
    refine setPlaces_other _ p.elems (fun l hl e => hin ?_) _
    have hl64 := hls l hl
    cases t with
    | true =>
      have e' : 64 * l + c = 64 * i + j := e
      have h1 : l = i := by omega
      have h2 : j = c := by omega
      exact ⟨h2, h1 ▸ hl⟩
    | false =>
      have e' : 64 * c + l = 64 * i + j := e
      have h1 : l = j := by omega
      have h2 : i = c := by omega
      exact ⟨h2, h1 ▸ hl⟩

theorem writeScales_getD {p : PhysSlot} (hp : p.scales.length = 128) {c : Nat} (hc : c < 64) (b : Word) {k : Nat} (hk : k < 128) :
    (writeScales p c b).scales.getD k 0#8 = if k / 2 = c then b.extractLsb' (8 * (k % 2)) 8 else p.scales.getD k 0#8 := by
  show ((p.scales.set (2 * c) (b.extractLsb' 0 8)).set (2 * c + 1) (b.extractLsb' 8 8)).getD k 0#8 = _
  rw [List.getD_eq_getElem?_getD]
  split
  next h =>
    rcases Nat.mod_two_eq_zero_or_one k with h0 | h1
    · have e : k = 2 * c := by omega
      rw [h0, e, List.getElem?_set_ne (by omega), List.getElem?_set_self (by omega)]
      rfl
    · have e : k = 2 * c + 1 := by omega
      rw [h1, e, List.getElem?_set_self (by rw [List.length_set]; omega)]
      rfl
  next h =>
    rw [List.getElem?_set_ne (by omega), List.getElem?_set_ne (by omega), List.getD_eq_getElem?_getD]

/-- What MAPWR makes of a physical slot's contents. -/
def rowPut (u : Iss) (f : RFmt) (c : Nat) (val : Nat → Nat) (p : PhysSlot) : PhysSlot :=
  let p := writeRow p (modT f.mod) c ((active u).toList.map fun l => (l, val l))
  if sfmtScaled (modSfmt f.mod) && !modT f.mod then writeScales p c (readWord u 0#32 f.b 0) else p

theorem rowPut_num (u : Iss) (f : RFmt) (c : Nat) (val : Nat → Nat) (p : PhysSlot) : (rowPut u f c val p).num = p.num := by
  unfold rowPut
  dsimp only
  split <;> rfl

theorem rowPut_elems (u : Iss) (f : RFmt) (c : Nat) (val : Nat → Nat) (p : PhysSlot) :
    (rowPut u f c val p).elems = (writeRow p (modT f.mod) c ((active u).toList.map fun l => (l, val l))).elems := by
  unfold rowPut
  dsimp only
  split <;> rfl

theorem rowPut_scales {u : Iss} {f : RFmt} {c : Nat} (val : Nat → Nat) {p : PhysSlot} (hp : p.scales.length = 128) (hc : c < 64)
    {k : Nat} (hk : k < 128) : (rowPut u f c val p).scales.getD k 0#8 =
      if sfmtScaled (modSfmt f.mod) = true ∧ modT f.mod = false ∧ k / 2 = c
      then (readWord u 0#32 f.b 0).extractLsb' (8 * (k % 2)) 8 else p.scales.getD k 0#8 := by
  have hws := writeScales_getD (p := writeRow p (modT f.mod) c ((active u).toList.map fun l => (l, val l))) hp hc
    (readWord u 0#32 f.b 0) hk
  unfold rowPut
  dsimp only
  cases h1 : sfmtScaled (modSfmt f.mod) <;> cases h2 : modT f.mod
  · rfl
  · rfl
  · simp only [h2, Bool.not_false, Bool.and_self, if_true, true_and] at hws ⊢
    exact hws
  · rfl

/-- Lane `l` of MAPWR. -/
def mapwrOut (u : Iss) (f : RFmt) (l : Nat) : Nat × Lane :=
  mapwrLane (rEnv f.h u.p.fmt u.g.srseed) (modSfmt f.mod) (modTop f.mod) (readNat u 0#64 false f.a l) (Lane.start (u.g.srctr.get l))

/-- What MAPWR makes of each physical slot of its group. -/
def mapwrPut (u : Iss) (f : RFmt) (x : Slot) (p : PhysSlot) : PhysSlot :=
  if p.num = x.phys then rowPut u f (readNat u (f.imm.zeroExtend 64) false f.c 0 % 64) (fun l => (mapwrOut u f l).1) p else p

/-- What MAPWR leaves of its group. -/
def mapwrGroup (u : Iss) (f : RFmt) (x : Slot) : Group :=
  let tr := (active u).toList.map fun l => (l, (mapwrOut u f l).2)
  let g := raiseFlags (putCtrs u.g tr) (flagsOf tr)
  setSlot { g with phys := g.phys.map (mapwrPut u f x) } f.ma.toNat { x with reload := false, rebind := false }

/-- What a slot instruction changes of its group: flags, counters, a logical slot and the physical ones. -/
theorem slotted_rest (g : Group) (rs : List (Nat × Lane)) (fl : Flags) (ph : List PhysSlot) (k : Nat) (x : Slot) :
    { setSlot { raiseFlags (putCtrs g rs) fl with phys := ph } k x with
      status := g.status, srctr := g.srctr, slots := g.slots, phys := g.phys } = g := by
  cases g
  rfl

theorem mapwrGroup_rest (u : Iss) (f : RFmt) (x : Slot) :
    { mapwrGroup u f x with status := u.g.status, srctr := u.g.srctr, slots := u.g.slots, phys := u.g.phys } = u.g := by
  unfold mapwrGroup
  exact slotted_rest ..

theorem mapwrGroup_status (u : Iss) (f : RFmt) (x : Slot) {k : Nat} : (mapwrGroup u f x).status.getLsbD k =
    (u.g.status.getLsbD k || (active u).toList.any fun l => (mapwrOut u f l).2.flags.getLsbD k) := by
  have hb := flagsOf_bit ((active u).toList.map fun l => (l, (mapwrOut u f l).2)) k
  rw [List.any_map] at hb
  rw [show (mapwrGroup u f x).status = u.g.status ||| flagsOf ((active u).toList.map fun l => (l, (mapwrOut u f l).2)) from rfl,
    BitVec.getLsbD_or, hb]
  rfl

theorem mapwrGroup_srctr (u : Iss) (f : RFmt) (x : Slot) {l : Nat} (hl : l < 64) : (mapwrGroup u f x).srctr.get l =
    if (active u).has l then (mapwrOut u f l).2.ctr else u.g.srctr.get l := by
  rw [has_toList]
  exact putCtrs_get u.g (active u).toList (fun l => (mapwrOut u f l).2) l hl

theorem mapwrGroup_phys (u : Iss) (f : RFmt) (x : Slot) : (mapwrGroup u f x).phys = u.g.phys.map (mapwrPut u f x) := rfl

theorem mapwrGroup_slots (u : Iss) (f : RFmt) (x : Slot) :
    (mapwrGroup u f x).slots = u.g.slots.set (f.ma.toNat - 1) { x with reload := false, rebind := false } := rfl

theorem exec_mapwr {f : RFmt} {s : State} {u : Iss} {x : Slot} (h : issuer s (.mapwr f) = some u) (hc : clear u = true)
    (hl : (vecOrFile u.g f.a && (f.b == .zero || sOk false f.b) && siOk f.c &&
      (f.b == .zero || (sfmtScaled (modSfmt f.mod) && !modT f.mod))) = true)
    (ht : sfmtTrap u f.ma.toNat (modSfmt f.mod) (modTop f.mod) = none) (hx : slotOf u.g f.ma.toNat = some x) (ha : active u ≠ 0#64)
    (hn : noNanTrap u (active u).toList (fun l => (mapwrOut u f l).2) = true) :
    exec (.mapwr f) s = .next (retire (setGroup s (mapwrGroup u f x)) u true) := by
  obtain ⟨rfl, -⟩ := issuer_state h
  have hexec : exec (.mapwr f) u.s = execMapwr f u.s := rfl
  have hne : (active u).toList.isEmpty = false := nonempty_false fun e => ha ((toList_nil _).mp e)
  have hnan := nanTrap_none u (active u).toList (fun l => (mapwrOut u f l).2) none hn
  have htr : ((active u).toList.map fun l => (l, mapwrOut u f l)).map (fun r => (r.1, r.2.2)) =
      (active u).toList.map fun l => (l, (mapwrOut u f l).2) := by simp
  have hval : ((active u).toList.map fun l => (l, mapwrOut u f l)).map (fun r => (r.1, r.2.1)) =
      (active u).toList.map fun l => (l, (mapwrOut u f l).1) := by simp
  have hout : mapwrDone u f f.ma.toNat x ((active u).toList.map fun l => (l, mapwrOut u f l)) =
      .done (setGroup u.s (mapwrGroup u f x)) := by
    unfold mapwrDone
    simp only [htr, hnan, hval]
    rfl
  rw [hexec, execMapwr, runInstr_next h hc]
  simp only [hl, ht, hx, hne, Bool.not_true, Bool.false_eq_true, if_false]
  show Host.Outcome.next (commit u (mapwrDone u f f.ma.toNat x ((active u).toList.map fun l => (l, mapwrOut u f l)))) = _
  rw [hout, commit_done]

/-- Settles O35: MAPWR writes its row place by place; MAPRD is a lane instruction; MAPREL replaces its slot. -/
theorem mapRows : Obligations.MapRows := by
  unfold Obligations.MapRows
  refine ⟨?_, ?_, ?_⟩
  · intro f s u x h hc sf raw hl ht hx ha out hn c
    have hlanes : ∀ l ∈ (active u).toList, l < 64 := fun l hl => by
      rw [Lanes.toList] at hl
      exact List.mem_range.mp (List.mem_filter.mp hl).1
    have hc64 : c < 64 := Nat.mod_lt _ (by decide)
    refine ⟨mapwrGroup u f x, exec_mapwr h hc hl ht hx ha hn, mapwrGroup_rest u f x, mapwrGroup_slots u f x, fun k hk => ?_, fun l hl => ?_, fun hr l => ?_, fun p hp => ⟨fun hne => ?_, fun he h1 h2 => ?_⟩⟩
    · exact mapwrGroup_status u f x
    · exact mapwrGroup_srctr u f x hl
    · show (mapwrLane _ sf raw _ _).1 = _
      unfold mapwrLane
      rw [if_pos hr]
    · rw [mapwrGroup_phys]
      exact List.mem_map.mpr ⟨p, hp, if_neg hne⟩
    · rw [mapwrGroup_phys]
      refine ⟨rowPut u f c (fun l => (mapwrOut u f l).1) p, List.mem_map.mpr ⟨p, hp, if_pos he⟩, rowPut_num .., fun i hi j hj => ?_,
        fun k hk => rowPut_scales _ h2 hc64 hk⟩
      rw [rowPut_elems, writeRow_getD h1 _ hc64 hlanes _ hi hj]
      simp only [has_toList, List.contains_iff_mem]
      rfl
  · intro f s u x p h hc sf kind hl ht hx hp c out hn
    have hexec : exec (.maprd f) s = execMaprd f s := rfl
    have hsc : isScalar f.d = false ∧ dstOk u.g false f.d = true := by
      simp only [Bool.and_eq_true, Bool.or_eq_true, beq_iff_eq] at hl
      rcases hl.1.1 with hv | hz
      · cases hd : f.d with
        | v n => rw [hd] at hv; exact ⟨rfl, hv⟩
        | o n => exact ⟨rfl, rfl⟩
        | _ => rw [hd] at hv; cases hv
      · rw [hz]
        exact ⟨rfl, rfl⟩
    have hpx : (slotOf u.g f.ma.toNat).bind (physOf u.g) = some p := by rw [hx]; exact hp
    refine ⟨_, ?_, finishLanes_effect (i := .maprd f) h rfl f.h f.d false [] none (active u) (active u).toList (fun l => (out l).1)
      (fun l => (out l).2) (fun e => by rw [hsc.1] at e; cases e) (nanTrap_none u _ _ none hn) (fun _ l => has_toList _ l) hsc.2⟩
    rw [hexec, execMaprd, runInstr_next h hc]
    dsimp only
    rw [hl, ht, hpx]
    rfl
  · intro f s u x h hc hv hg hx hb
    obtain ⟨rfl, -⟩ := issuer_state h
    have hexec : exec (.maprel f) u.s = execMaprel f u.s := rfl
    have hbad : slotBadTrap u f.ma.toNat x = none := by rw [slotBadTrap, hb]; rfl
    refine ⟨fun hst => ?_, fun hst => ?_⟩
    · rw [hexec, execMaprel, runInstr_next h hc]
      simp only [hv, hg, hx, hbad, hst, Bool.not_true, Bool.false_eq_true, if_false, commit_done]
    · rw [hexec, execMaprel, runInstr_next h hc]
      simp only [hv, hg, hx, hbad, hst, Bool.not_true, Bool.false_eq_true, if_false, commit_done]
      rfl

end Sys2Proof.Machine
end

section
/-!
SUPPORT. A run of registers written one after another, and what MACC leaves (O36).
-/
namespace Sys2Proof.Machine

/-! ## A run of registers -/

/-- The registers of a run written in turn, 32 bits of `v` each. -/
def runGroup (g : Group) (d : Opnd) (m : Lanes) (v : Nat → Nat) (n : Nat) : Group :=
  (List.range n).foldl (fun g p => writeReg g (opPlus d p) m fun l => BitVec.ofNat 32 (posWord (v l) p)) g

theorem runGroup_succ (g : Group) (d : Opnd) (m : Lanes) (v : Nat → Nat) (n : Nat) : runGroup g d m v (n + 1) =
    writeReg (runGroup g d m v n) (opPlus d n) m fun l => BitVec.ofNat 32 (posWord (v l) n) := by
  rw [runGroup, runGroup, List.range_succ, List.foldl_append]
  rfl

theorem posWord_ofNat (v p : Nat) : BitVec.ofNat 32 (posWord v p) = BitVec.ofNat 32 (v / 2 ^ (32 * p)) := by
  apply BitVec.eq_of_toNat_eq
  simp [posWord]

theorem runGroup_only (g : Group) (d : Opnd) (m : Lanes) (v : Nat → Nat) (n : Nat) (a b : List LaneVec) (c : List Word) :
    { runGroup g d m v n with vregs := a, oregs := b, sregs := c } = { g with vregs := a, oregs := b, sregs := c } := by
  induction n with
  | zero => rfl
  | succ n ih => rw [runGroup_succ, writeReg_only, ih]

theorem writeReg_sregs (g : Group) (d : Opnd) (m : Lanes) (new : Nat → Word) : (writeReg g d m new).sregs = g.sregs := by
  cases d <;> rfl

theorem runGroup_sregs (g : Group) (d : Opnd) (m : Lanes) (v : Nat → Nat) (n : Nat) : (runGroup g d m v n).sregs = g.sregs := by
  induction n with
  | zero => rfl
  | succ n ih => rw [runGroup_succ, writeReg_sregs, ih]

theorem runGroup_gid (g : Group) (d : Opnd) (m : Lanes) (v : Nat → Nat) (n : Nat) : (runGroup g d m v n).gid = g.gid := by
  have e := congrArg Group.gid (runGroup_only g d m v n [] [] [])
  exact e

theorem runGroup_place (g : Group) (d : Opnd) (m : Lanes) (v : Nat → Nat) (n : Nat) :
    (runGroup g d m v n).core = g.core ∧ (runGroup g d m v n).quarter = g.quarter := by
  have e1 := congrArg Group.core (runGroup_only g d m v n [] [] [])
  have e2 := congrArg Group.quarter (runGroup_only g d m v n [] [] [])
  exact ⟨e1, e2⟩

/-- The destination of a run: vector registers, or none. -/
def runDst : Opnd → Bool
  | .v _ | .zero => true
  | _ => false

theorem runDst_shape {d : Opnd} (h : runDst d = true) (p : Nat) : (∃ k, opPlus d p = .v k) ∨ opPlus d p = .zero := by
  cases d with
  | v n => by_cases hn : n.val + p < 256 <;> simp [opPlus, hn]
  | zero => exact .inr rfl
  | _ => cases h

theorem runDst_plus {d : Opnd} (h : runDst d = true) (p : Nat) : isScalar (opPlus d p) = false := by
  cases d with
  | v n => by_cases hn : n.val + p < 256 <;> simp [opPlus, hn, isScalar]
  | zero => rfl
  | _ => cases h

theorem runDst_apart {g : Group} {d : Opnd} (h : runDst d = true) {p q : Nat} (hp : regHeld g (opPlus d p) = true) (hpq : p ≠ q) :
    opPlus d p ≠ opPlus d q := by
  cases d with
  | v n =>
    by_cases hn : n.val + p < 256
    · by_cases hq : n.val + q < 256
      · simp [opPlus, hn, hq, hpq]
      · simp [opPlus, hn, hq]
    · simp [opPlus, hn, regHeld] at hp
  | zero => cases hp
  | _ => cases h

/-- A run of vector registers holds the words written, and no other register has changed. -/
theorem runGroup_written (g : Group) {d : Opnd} (hd : runDst d = true) (m : Lanes) (v : Nat → Nat) (n : Nat) :
    RunWritten g (runGroup g d m v n) d n m v := by
  induction n with
  | zero => exact ⟨fun p hp => absurd hp (by omega), fun _ _ _ => rfl, fun _ => rfl⟩
  | succ n ih =>
    rw [runGroup_succ]
    refine ⟨fun p hp hh l hl => ?_, fun o ho l => ?_, fun o => ?_⟩
    · by_cases hpn : p = n
      · subst hpn
        have hh' : regHeld (runGroup g d m v p) (opPlus d p) = true := (ih.held _).trans hh
        rw [regWord_writeReg _ _ _ _ _ _ hl (runDst_plus hd p), if_pos ⟨rfl, hh'⟩, posWord_ofNat,
          ih.kept _ fun q hq => runDst_apart hd hh (by omega)]
      · rw [regWord_writeReg_other _ _ _ _ _ _ (runDst_apart hd hh hpn)]
        exact ih.run p (by omega) hh l hl
    · rw [regWord_writeReg_other _ _ _ _ _ _ (ho n (by omega))]
      exact ih.kept o (fun p hp => ho p (by omega)) l
    · rw [regHeld_writeReg]
      exact ih.held o

theorem runWritten_of {g g1 g' g2 : Group} {d : Opnd} {n : Nat} {m : Lanes} {v w : Nat → Nat} (h : RunWritten g1 g2 d n m v)
    (hw : ∀ o l, regWord g1 o l = regWord g o l) (hh : ∀ o, regHeld g1 o = regHeld g o) (hw' : ∀ o l, regWord g' o l = regWord g2 o l)
    (hh' : ∀ o, regHeld g' o = regHeld g2 o) (hv : ∀ l, m.has l = true → v l = w l) : RunWritten g g' d n m w := by
  refine ⟨fun p hp hd l hl => ?_, fun o ho l => ?_, fun o => ?_⟩
  · rw [hw', h.run p hp ((hh _).trans hd) l hl, hw]
    by_cases hm : m.has l = true
    · rw [if_pos hm, if_pos hm, hv l hm]
    · rw [if_neg hm, if_neg hm]
  · rw [hw', h.kept o ho, hw]
  · rw [hh', h.held, hh]

/-! ## The writes of MACC -/

/-- The state and the group after the writes of positions below `n`. -/
def maccRun (s : State) (u : Iss) (g : Group) (d : Opnd) (wbs : Bool) (act : Lanes) (v : Nat → Nat) (n : Nat) : State × Group :=
  (List.range n).foldl (fun (acc : State × Group) p =>
    let s := writeVector acc.1 acc.2 u.p (opPlus d p) wbs false true act fun l => posWord (v l) p
    (s, (groupOf s g.gid).getD acc.2)) (s, g)

theorem maccWrite_run (s : State) (u : Iss) (g : Group) (d : Opnd) (wbs : Bool) (n : Nat) (act : Lanes) (v : Nat → Nat) :
    maccWrite s u g d wbs n act v = (maccRun s u g d wbs act v n).1 := rfl

theorem maccRun_succ (s : State) (u : Iss) (g : Group) (d : Opnd) (wbs : Bool) (act : Lanes) (v : Nat → Nat) (n : Nat) :
    maccRun s u g d wbs act v (n + 1) =
      (writeVector (maccRun s u g d wbs act v n).1 (maccRun s u g d wbs act v n).2 u.p (opPlus d n) wbs false true act
          fun l => posWord (v l) n,
        (groupOf (writeVector (maccRun s u g d wbs act v n).1 (maccRun s u g d wbs act v n).2 u.p (opPlus d n) wbs false true act
          fun l => posWord (v l) n) g.gid).getD (maccRun s u g d wbs act v n).2) := by
  rw [maccRun, List.range_succ, List.foldl_append]
  rfl

theorem setGroup_twice (s : State) {a b : Group} (h : b.gid = a.gid) : setGroup (setGroup s a) b = setGroup s b := by
  unfold setGroup
  simp only [List.map_map]
  congr 1
  refine List.map_congr_left fun x _ => ?_
  show (if (if x.gid = a.gid then a else x).gid = b.gid then b else if x.gid = a.gid then a else x) = _
  by_cases hx : x.gid = a.gid
  · rw [if_pos hx, if_pos h.symm, if_pos (hx.trans h.symm)]
  · rw [if_neg hx]

theorem writeVector_length (s : State) (g : Group) (p : Split) (d : Opnd) (wbs ring : Bool) (m : Lanes) (new : Nat → Nat) :
    (writeVector s g p d wbs false ring m new).rings.length = s.rings.length := by
  rw [writeVector_eq]
  dsimp only
  split
  · rfl
  · simp [pushRing, setRing, setGroup]

/-- The groups after the writes of MACC: the run written, and no other. -/
theorem maccRun_groups {s : State} {u : Iss} {g x : Group} (hx : groupOf s g.gid = some x) (d : Opnd) (wbs : Bool) (act : Lanes)
    (v : Nat → Nat) (n : Nat) :
    { (maccRun (setGroup s g) u g d wbs act v n).1 with rings := s.rings } = setGroup s (runGroup g d act v n) ∧
    (maccRun (setGroup s g) u g d wbs act v n).2 = runGroup g d act v n ∧
    (maccRun (setGroup s g) u g d wbs act v n).1.rings.length = s.rings.length := by
  induction n with
  | zero => exact ⟨rfl, rfl, rfl⟩
  | succ n ih =>
    obtain ⟨h1, h2, h3⟩ := ih
    rw [maccRun_succ]
    generalize maccRun (setGroup s g) u g d wbs act v n = a at h1 h2 h3
    obtain ⟨t, y⟩ := a
    dsimp only at h1 h2 h3 ⊢
    subst h2
    have hw := writeVector_groups t (runGroup g d act v n) u.p (opPlus d n) wbs false true act fun l => posWord (v l) n
    have hwp : writePair (runGroup g d act v n) (opPlus d n) false act (fun l => posWord (v l) n) = runGroup g d act v (n + 1) :=
      (runGroup_succ g d act v n).symm
    rw [hwp] at hw
    have hgid : ∀ k, (runGroup g d act v k).gid = g.gid := runGroup_gid g d act v
    have h4 : { writeVector t (runGroup g d act v n) u.p (opPlus d n) wbs false true act (fun l => posWord (v l) n) with
        rings := s.rings } = setGroup s (runGroup g d act v (n + 1)) := by
      have e1 := congrArg (fun x : State => { x with rings := s.rings }) hw
      have e2 : { setGroup t (runGroup g d act v (n + 1)) with rings := s.rings } =
          setGroup { t with rings := s.rings } (runGroup g d act v (n + 1)) := rfl
      refine Eq.trans e1 (e2.trans ?_)
      rw [h1, setGroup_twice _ ((hgid _).trans (hgid _).symm)]
    refine ⟨h4, ?_, (writeVector_length ..).trans h3⟩
    have h5 := congrArg State.groups h4
    have h6 : groupOf (writeVector t (runGroup g d act v n) u.p (opPlus d n) wbs false true act fun l => posWord (v l) n) g.gid =
        some (runGroup g d act v (n + 1)) := by
      have e3 : groupOf (setGroup s (runGroup g d act v (n + 1))) g.gid = some (runGroup g d act v (n + 1)) :=
        groupOf_setGroup hx (hgid _)
      rw [groupOf] at e3 ⊢
      rw [← h5] at e3
      exact e3
    rw [h6]
    rfl

/-- The writes of MACC reach no ring but that of their quarter. -/
theorem maccRun_others {s : State} {u : Iss} {g x : Group} (hx : groupOf s g.gid = some x) (d : Opnd) (wbs : Bool) (act : Lanes)
    (v : Nat → Nat) (n : Nat) {c q : Nat} (hcq : 4 * c + q ≠ 4 * g.core + g.quarter) :
    ringOf (maccRun (setGroup s g) u g d wbs act v n).1 c q = ringOf s c q := by
  induction n with
  | zero => rfl
  | succ n ih =>
    obtain ⟨-, h2, -⟩ := maccRun_groups (u := u) hx d wbs act v n
    obtain ⟨hc, hq⟩ := runGroup_place g d act v n
    rw [maccRun_succ]
    refine (writeVector_rings _ _ _ _ _ _ _ _ _ c q ?_).trans ih
    rw [h2, hc, hq]
    exact hcq

/-- The rings after the writes of MACC: the positions have entered their quarter's ring in order. -/
theorem maccRun_rings {s : State} {u : Iss} {g x : Group} (hx : groupOf s g.gid = some x) {d : Opnd} {wbs : Bool} (act : Lanes)
    (v : Nat → Nat) (hlen : 4 * g.core + g.quarter < s.rings.length) {n : Nat} (hz : ∀ p < n, (opPlus d p == .zero && !wbs) = false) :
    (ringOf (maccRun (setGroup s g) u g d wbs act v n).1 g.core g.quarter).take 4 =
      (((List.range n).reverse.map fun p => ({
        val := regValue (runGroup g d act v (p + 1)) (opPlus d p) act fun l => BitVec.ofNat 32 (posWord (v l) p),
        tag := some { gid := g.gid, sid := u.p.sid, epoch := u.p.epoch } } : Latch)) ++ ringOf s g.core g.quarter).take 4 ∧
    (0 < n → (ringOf (maccRun (setGroup s g) u g d wbs act v n).1 g.core g.quarter).length ≤ 4) := by
  induction n with
  | zero => exact ⟨rfl, fun h => absurd h (by omega)⟩
  | succ n ih =>
    obtain ⟨ih1, -⟩ := ih fun p hp => hz p (by omega)
    obtain ⟨-, h2, h3⟩ := maccRun_groups (u := u) hx d wbs act v n
    rw [maccRun_succ]
    generalize maccRun (setGroup s g) u g d wbs act v n = a at h2 h3 ih1
    obtain ⟨t, y⟩ := a
    dsimp only at h2 h3 ih1 ⊢
    subst h2
    obtain ⟨hc, hq⟩ := runGroup_place g d act v n
    have hring := writeVector_ring t (runGroup g d act v n) u.p (opPlus d n) wbs false true act (fun l => posWord (v l) n)
      (by rw [hc, hq, h3]; exact hlen)
    rw [hc, hq] at hring
    dsimp only at hring
    rw [hz n (by omega)] at hring
    simp only [Bool.not_true, Bool.or_self, Bool.false_eq_true, if_false, List.nil_append, runGroup_gid] at hring
    have hwp : writePair (runGroup g d act v n) (opPlus d n) false act (fun l => posWord (v l) n) = runGroup g d act v (n + 1) :=
      (runGroup_succ g d act v n).symm
    rw [hwp] at hring
    refine ⟨?_, fun _ => ?_⟩
    · have h43 := congrArg (List.take 3) ih1
      rw [List.take_take, List.take_take] at h43
      rw [hring, List.take_take, List.range_succ, List.reverse_append, List.map_append]
      simp only [List.reverse_singleton, List.map_cons, List.map_nil, List.cons_append, List.nil_append, List.take_succ_cons, Nat.min_self]
      exact congrArg _ h43
    · rw [hring]
      exact List.length_take_le ..

/-! ## The slot that a NaN names -/

/-- The lane has produced a NaN exactly if it names slot `k`. -/
def NamesSlot (k : Nat) (L : Lane) : Prop := L.slot = if L.produced then some (0, k) else none

theorem packLanes_keeps (P : Lane → Prop) {w n : Nat} {f : Nat → Lane → Nat × Lane} (hf : ∀ p L, P L → P (f p L).2) {L : Lane}
    (hL : P L) : P (packLanes w n f L).2 := by
  unfold packLanes
  induction n with
  | zero => exact hL
  | succ n ih =>
    rw [List.range_succ, List.foldl_append]
    exact hf _ _ ih

/-- The slot named by a lane in which a NaN has come about. -/
def nameSlot (k : Nat) (L L' : Lane) : Lane := if L'.produced && !L.produced then { L' with slot := some (0, k) } else L'

theorem nameSlot_names {k : Nat} {L L' : Lane} (hL : NamesSlot k L) (hs : L'.slot = L.slot) (hp : L.produced = true → L'.produced = true) :
    NamesSlot k (nameSlot k L L') := by
  unfold NamesSlot nameSlot at *
  cases h : L.produced
  · cases h' : L'.produced
    · simp [h', hs, hL, h]
    · simp [h']
  · simp [hp h, hs, hL, h]

theorem roundLane_keeps (E : REnv) (f : RCtx → Rounded) (L : Lane) :
    (roundLane E f L).2.slot = L.slot ∧ (L.produced = true → (roundLane E f L).2.produced = true) :=
  ⟨rfl, fun h => by simp [roundLane, h]⟩

theorem markInexact_keeps (b : Bool) (L : Lane) : (markInexact b L).slot = L.slot ∧ (markInexact b L).produced = L.produced := by
  cases b <;> exact ⟨rfl, rfl⟩

theorem maccLane_slot (E : REnv) (js : List MapLane) (ty : MaccTy) (m : BitVec 7) (x : MaccIn) (i : Nat) {L : Lane}
    (hL : NamesSlot x.sel L) : NamesSlot x.sel (maccLane E js ty m x i L).2 := by
  unfold maccLane
  refine packLanes_keeps (NamesSlot x.sel) (fun p L hL => ?_) hL
  dsimp only
  generalize hr : roundLane E _ L = r
  have hk : r.2.slot = L.slot ∧ (L.produced = true → r.2.produced = true) := hr ▸ roundLane_keeps E _ L
  refine nameSlot_names hL ?_ fun h => ?_
  · split
    · exact hk.1
    · exact (markInexact_keeps _ _).1.trans hk.1
  · split
    · exact hk.2 h
    · exact (markInexact_keeps _ _).2.trans (hk.2 h)

theorem min?_const {x : Nat} : ∀ {l : List Nat}, l ≠ [] → (∀ y ∈ l, y = x) → l.min? = some x := by
  intro l hn h
  rw [List.min?_eq_some_iff]
  · obtain ⟨y, t, rfl⟩ := List.exists_cons_of_ne_nil hn
    exact ⟨h y (List.mem_cons_self ..) ▸ List.mem_cons_self .., fun b hb => (h b hb).ge⟩

/-- The NaN trap of lanes that all name one slot: NAN_PRODUCED of those that produced one, with that slot. -/
theorem nanTrap_slot {u : Iss} {ls : List Nat} {lane : Nat → Lane} {k : Nat} (hk : ∀ l ∈ ls, NamesSlot k (lane l))
    (hn : noNanTrap u ls lane = false) : ∃ r : TrapReq, nanTrap u (ls.map fun l => (l, lane l)) none = some r ∧
      r.cause = .nanProduced ∧ r.slot = k ∧ ∀ l < 64, r.mask.has l = (ls.contains l && (lane l).produced) := by
  simp only [noNanTrap, Bool.or_eq_false_iff, Bool.not_eq_eq_eq_not, Bool.not_false, List.all_eq_false] at hn
  obtain ⟨hfmt, l0, hl0, hp0⟩ := hn
  have hp0' : (lane l0).produced = true := by simpa using hp0
  have hbad : (l0, lane l0) ∈ (ls.map fun l => (l, lane l)).filter fun r => r.2.produced :=
    List.mem_filter.mpr ⟨List.mem_map.mpr ⟨l0, hl0, rfl⟩, hp0'⟩
  have hslot : ∀ r ∈ (ls.map fun l => (l, lane l)).filter (fun r => r.2.produced), r.2.slot = some (0, k) := fun r hr => by
    obtain ⟨hr1, hr2⟩ := List.mem_filter.mp hr
    obtain ⟨l, hl, rfl⟩ := List.mem_map.mp hr1
    exact (hk l hl).trans (if_pos hr2)
  have hempty : ((ls.map fun l => (l, lane l)).filter fun r => r.2.produced).isEmpty = false := by
    rw [List.isEmpty_eq_false_iff]
    exact List.ne_nil_of_mem hbad
  have hall : ∀ y ∈ ((ls.map fun l => (l, lane l)).filter fun r => r.2.produced).filterMap (fun r => r.2.slot), y = (0, k) :=
    fun y hy => by
      obtain ⟨r, hr, he⟩ := List.mem_filterMap.mp hy
      exact Option.some.inj (he.symm.trans (hslot r hr))
  have hmem : (0, k) ∈ ((ls.map fun l => (l, lane l)).filter fun r => r.2.produced).filterMap (fun r => r.2.slot) :=
    List.mem_filterMap.mpr ⟨_, hbad, hslot _ hbad⟩
  unfold nanTrap
  dsimp only
  rw [hempty, hfmt]
  refine ⟨_, rfl, rfl, ?_, fun l hl => ?_⟩
  · dsimp only
    generalize ((ls.map fun l => (l, lane l)).filter fun r => r.2.produced).filterMap (fun r => r.2.slot) = ss at hall hmem
    rw [min?_const (x := 0) (List.ne_nil_of_mem (List.mem_map_of_mem (f := Prod.fst) hmem)) fun y hy => by
      obtain ⟨z, hz, rfl⟩ := List.mem_map.mp hy
      rw [hall z hz]]
    dsimp only
    obtain ⟨z, t, rfl⟩ := List.exists_cons_of_ne_nil (List.ne_nil_of_mem hmem)
    rw [hall z (List.mem_cons_self ..)]
    rfl
  · rw [Option.getD_none, ofPred_has]
    rw [Bool.eq_iff_iff]
    simp only [hl, decide_true, Bool.true_and, List.any_filter, List.any_map, List.any_eq_true, Function.comp_apply, Bool.and_eq_true,
      beq_iff_eq, List.contains_eq_mem, decide_eq_true_eq]
    constructor
    · rintro ⟨x, hx, hp, rfl⟩
      exact ⟨hx, hp⟩
    · rintro ⟨hx, hp⟩
      exact ⟨l, hx, hp, rfl⟩

/-! ## MACC -/

theorem mapTrap_view {u : Iss} {x : Src} (h : mapTrap u [x] = none) (hx : x.sel ≠ 0) : ∃ v, mapView u.g u.p.fmt x.sel = some v := by
  unfold mapTrap at h
  split at h
  · cases h
  · cases hv : mapView u.g u.p.fmt x.sel with
    | some v => exact ⟨v, rfl⟩
    | none =>
      rw [List.findSome?_singleton, if_neg hx, hv] at h
      cases h

/-- The destination of MACC: a run below the last register, or none, which then enters the ring. -/
theorem maccLegal_dst {g : Group} {ty : MaccTy} {f : RFmt} (h : maccLegal g ty f = true) :
    runDst f.d = true ∧ ∀ p < maccPos ty, (opPlus f.d p == .zero && !f.h.wbs) = false := by
  simp only [maccLegal, Bool.and_eq_true, Bool.or_eq_true, beq_iff_eq] at h
  rcases h.1.1.1 with hr | ⟨hz, hw⟩
  · cases hd : f.d with
    | v n =>
      rw [hd] at hr
      simp only [runOk, Bool.and_eq_true, beq_iff_eq, decide_eq_true_eq] at hr
      refine ⟨rfl, fun p hp => ?_⟩
      have hn : n.val + p < 256 := by
        have h256 := n.isLt
        cases ty <;> simp only [maccPos] at hp hr <;> omega
      simp [opPlus, hn]
    | _ => rw [hd] at hr; cases hr
  · rw [hz, hw]
    exact ⟨rfl, fun _ _ => by simp⟩

/-- The lanes of MACC, with their values and what they gathered. -/
def maccTr (u : Iss) (ty : MaccTy) (f : RFmt) (view : MapView) : List (Nat × Lane) :=
  (active u).toList.map fun l => (l, (maccOut u ty f view l).2)

/-- What MACC leaves of its group before the writes: flags and counters. -/
def maccGroup (u : Iss) (ty : MaccTy) (f : RFmt) (view : MapView) : Group :=
  raiseFlags (putCtrs u.g (maccTr u ty f view)) (flagsOf (maccTr u ty f view) ||| if latchLost u [f.a] then fLatchLost else fNone)

/-- The value of an active lane of MACC, and 0 of another. -/
def maccVal (u : Iss) (ty : MaccTy) (f : RFmt) (view : MapView) (l : Nat) : Nat :=
  ((((active u).toList.map fun l => (l, maccOut u ty f view l)).find? (·.1 == l)).map (·.2.1)).getD 0

theorem maccVal_active {u : Iss} {ty : MaccTy} {f : RFmt} {view : MapView} {l : Nat} (hl : l ∈ (active u).toList) :
    maccVal u ty f view l = (maccOut u ty f view l).1 := by
  rw [maccVal, find_keyed, if_pos (by simpa using hl)]
  rfl

theorem maccGroup_rest (u : Iss) (ty : MaccTy) (f : RFmt) (view : MapView) :
    { maccGroup u ty f view with status := u.g.status, srctr := u.g.srctr } = u.g := by
  unfold maccGroup
  generalize maccTr u ty f view = tr
  rfl

theorem maccGroup_regs (u : Iss) (ty : MaccTy) (f : RFmt) (view : MapView) : (maccGroup u ty f view).vregs = u.g.vregs ∧
    (maccGroup u ty f view).oregs = u.g.oregs ∧ (maccGroup u ty f view).sregs = u.g.sregs := by
  unfold maccGroup
  generalize maccTr u ty f view = tr
  exact ⟨rfl, rfl, rfl⟩

theorem regWord_of_regs {g g' : Group} (hv : g'.vregs = g.vregs) (ho : g'.oregs = g.oregs) (hs : g'.sregs = g.sregs) (o : Opnd) (l : Nat) :
    regWord g' o l = regWord g o l := by
  cases o <;> simp [regWord, hv, ho, hs]

theorem regHeld_of_regs {g g' : Group} (hv : g'.vregs = g.vregs) (ho : g'.oregs = g.oregs) (hs : g'.sregs = g.sregs) (o : Opnd) :
    regHeld g' o = regHeld g o := by
  cases o <;> simp [regHeld, hv, ho, hs]

/-- What MACC makes of its state before it retires. -/
def maccState (u : Iss) (ty : MaccTy) (f : RFmt) (view : MapView) : State :=
  maccWrite (setGroup u.s (maccGroup u ty f view)) u (maccGroup u ty f view) f.d f.h.wbs (maccPos ty) (active u) (maccVal u ty f view)

/-- The end of MACC: its trap, or its writes. -/
def maccEff (u : Iss) (ty : MaccTy) (f : RFmt) (view : MapView) : Option TrapReq → Eff
  | some t => .trap u.s t
  | none => .done (maccState u ty f view)

/-- The course of MACC once its operands and its map are found good. -/
theorem exec_macc {ty : MaccTy} {f : RFmt} {s : State} {u : Iss} {view : MapView} (h : issuer s (.macc ty f) = some u) (hc : clear u = true)
    (hl : maccLegal u.g ty f = true) (hm : mapTrap u [maccSrc ty f.a f.ma f.ta] = none)
    (hv : mapView u.g u.p.fmt f.ma.toNat = some view) : 
    exec (.macc ty f) s = .next (commit u (maccEff u ty f view (nanTrap u (maccTr u ty f view) none))) := by
  have hexec : exec (.macc ty f) s = execMacc ty f s := rfl
  rw [hexec, execMacc, runInstr_next h hc]
  dsimp only
  rw [hl, hm, hv]
  have htr : ((active u).toList.map fun l => (l, maccOut u ty f view l)).map (fun r => (r.1, r.2.2)) = maccTr u ty f view := by
    simp [maccTr]
  have hmacc : ((active u).toList.map fun l => (l, maccLane (rEnv f.h u.p.fmt u.g.srseed) (mapLanes u) ty f.mod
      { view, sel := f.ma.toNat, tb := f.ta, src := fun j => readNat u 0#64 false f.a j,
        scales := if MaccTy.isScaled ty then some (readNat u 0#64 false f.b) else none,
        add := fun p i => readNat u 0#64 false (opPlus f.c p) i } l (Lane.start (u.g.srctr.get l)))) =
      (active u).toList.map fun l => (l, maccOut u ty f view l) := rfl
  simp only [Bool.not_true, Bool.false_eq_true, if_false, hmacc, htr]
  cases hn : nanTrap u (maccTr u ty f view) none with
  | some t => rfl
  | none => rfl

theorem writeReg_vregs_other (g : Group) {d : Opnd} {k : Fin 256} (h : d ≠ .v k) (m : Lanes) (new : Nat → Word) :
    (writeReg g d m new).vregs.getD k.val LaneVec.zero = g.vregs.getD k.val LaneVec.zero := by
  cases d with
  | v n =>
    have hn : n.val ≠ k.val := fun e => h (congrArg Opnd.v (Fin.ext e))
    simp [writeReg, hn]
  | _ => rfl

/-- A register of a run keeps what its own write has left. -/
theorem runGroup_vregs (g : Group) {d : Opnd} (hd : runDst d = true) (m : Lanes) (v : Nat → Nat) {p n : Nat} (hp : p < n) {k : Fin 256}
    (hk : opPlus d p = .v k) :
    (runGroup g d m v n).vregs.getD k.val LaneVec.zero = (runGroup g d m v (p + 1)).vregs.getD k.val LaneVec.zero := by
  induction n with
  | zero => omega
  | succ n ih =>
    by_cases hpn : p = n
    · rw [hpn]
    · have hne : opPlus d n ≠ .v k := fun e => by
        cases d with
        | v j =>
          simp only [opPlus] at e hk
          split at e <;> split at hk
          · have e1 := congrArg Fin.val (Opnd.v.inj e)
            have e2 := congrArg Fin.val (Opnd.v.inj hk)
            have e1' : j.val + n = k.val := e1
            have e2' : j.val + p = k.val := e2
            omega
          all_goals cases hk
          all_goals cases e
        | zero => cases hk
        | _ => cases hd
      rw [runGroup_succ, writeReg_vregs_other _ hne, ih (by omega)]

/-- What position `p` of a run enters into the ring: the whole register, or for none the results. -/
theorem runGroup_value (g : Group) {d : Opnd} (hd : runDst d = true) {m : Lanes} {ls : List Nat} (hm : ∀ l, m.has l = ls.contains l)
    {v w : Nat → Nat} (hvw : ∀ l ∈ ls, v l = w l) {p n : Nat} (hp : p < n) {g' : Group}
    (hg : g'.vregs = (runGroup g d m v n).vregs) :
    regValue (runGroup g d m v (p + 1)) (opPlus d p) m (fun l => BitVec.ofNat 32 (posWord (v l) p)) =
      wholeResult g' (opPlus d p) ls fun l => w l / 2 ^ (32 * p) := by
  rw [← wholeResult_congr (a := fun l => v l / 2 ^ (32 * p)) fun l hl => by rw [hvw l hl]]
  have hnew : (fun l => BitVec.ofNat 32 (posWord (v l) p)) = fun l => BitVec.ofNat 32 (v l / 2 ^ (32 * p)) :=
    funext fun l => posWord_ofNat (v l) p
  have hlast : ∀ k, opPlus d p = .v k → g'.vregs.getD k.val LaneVec.zero = (runGroup g d m v (p + 1)).vregs.getD k.val LaneVec.zero :=
    fun k hk => by rw [hg, runGroup_vregs g hd m v hp hk]
  rcases runDst_shape hd p with ⟨k, hop⟩ | hop
  · have hwhole : regValue (runGroup g d m v (p + 1)) (opPlus d p) m (fun l => BitVec.ofNat 32 (posWord (v l) p)) =
        g'.vregs.getD k.val LaneVec.zero := by
      rw [hop]
      exact (hlast k hop).symm
    rw [hwhole, hop]
    show _ = LaneVec.ofFn fun l => if Opnd.v k = .zero then _ else (g'.vregs.getD k.val LaneVec.zero).get l
    simp only [reduceCtorEq, if_false, hlast k hop, runGroup_succ, hop, writeReg, set_getD_zero]
    split
    · exact (mergeLanes_whole _ _ _).symm
    · exact zero_eq_ofFn
  · rw [hop, hnew]
    simp [regValue, wholeResult, mergeLanes, hm]

theorem macc_leaves {ty : MaccTy} {f : RFmt} {s : State} {u : Iss} {view : MapView} (h : issuer s (.macc ty f) = some u)
    (hl : maccLegal u.g ty f = true) : MaccLeaves u ty f view (retire (maccState u ty f view) u true) := by
  obtain ⟨hs, hui, -, hg, hpr, -⟩ := issuer_state h
  subst hs
  obtain ⟨hd, hz⟩ := maccLegal_dst hl
  have hrest := maccGroup_rest u ty f view
  obtain ⟨rv, ro, rs⟩ := maccGroup_regs u ty f view
  have hst := fun k => raise_status u.g (active u).toList (fun l => (maccOut u ty f view l).2) (latchLost u [f.a]) k
  have hct := fun l hl => putCtrs_get u.g (active u).toList (fun l => (maccOut u ty f view l).2) l hl
  have hst' : ∀ k, (maccGroup u ty f view).status.getLsbD k = _ := hst
  have hct' : ∀ l, l < 64 → (maccGroup u ty f view).srctr.get l = _ := hct
  have hgid : (maccGroup u ty f view).gid = u.g.gid := by
    have e := congrArg Group.gid hrest
    exact e
  have hcore : (maccGroup u ty f view).core = u.g.core := by
    have e := congrArg Group.core hrest
    exact e
  have hquarter : (maccGroup u ty f view).quarter = u.g.quarter := by
    have e := congrArg Group.quarter hrest
    exact e
  have hx : groupOf u.s (maccGroup u ty f view).gid = some u.g := by rw [hgid]; exact hg
  obtain ⟨hgr, -, -⟩ := maccRun_groups (u := u) hx f.d f.h.wbs (active u) (maccVal u ty f view) (maccPos ty)
  have hrings := fun hlen => maccRun_rings (u := u) hx (active u) (maccVal u ty f view) hlen hz
  have hothers := fun c q => maccRun_others (u := u) hx f.d f.h.wbs (active u) (maccVal u ty f view) (maccPos ty) (c := c) (q := q)
  rw [← maccWrite_run] at hgr hrings hothers
  have hstate : maccState u ty f view = maccWrite (setGroup u.s (maccGroup u ty f view)) u (maccGroup u ty f view) f.d f.h.wbs
    (maccPos ty) (active u) (maccVal u ty f view) := rfl
  rw [← hstate] at hgr hrings hothers
  generalize maccGroup u ty f view = g1 at *
  generalize maccState u ty f view = t at *
  have honly := runGroup_only g1 f.d (active u) (maccVal u ty f view) (maccPos ty)
  have hgroups : t.groups = (setGroup u.s (runGroup g1 f.d (active u) (maccVal u ty f view) (maccPos ty))).groups := by
    have e := congrArg State.groups hgr
    exact e
  have hg2id := (runGroup_gid g1 f.d (active u) (maccVal u ty f view) (maccPos ty)).trans hgid
  have hof : ∀ k, groupOf t k = groupOf (setGroup u.s (runGroup g1 f.d (active u) (maccVal u ty f view) (maccPos ty))) k := fun k => by
    rw [groupOf, groupOf, hgroups]
  have hown : { runGroup g1 f.d (active u) (maccVal u ty f view) (maccPos ty) with
      vregs := u.g.vregs, oregs := u.g.oregs, sregs := u.g.sregs, status := u.g.status, srctr := u.g.srctr } = u.g := by
    have e1 := congrArg (fun x : Group => { x with status := u.g.status, srctr := u.g.srctr }) (honly u.g.vregs u.g.oregs u.g.sregs)
    have e2 := congrArg (fun x : Group => { x with vregs := u.g.vregs, oregs := u.g.oregs, sregs := u.g.sregs }) hrest
    exact Eq.trans e1 e2
  have hmach : { t with groups := u.s.groups, rings := u.s.rings } = u.s := by
    have e := congrArg (fun x : State => { x with groups := u.s.groups }) hgr
    exact e
  have hsplits := congrArg Group.splits hown
  have hlclk := congrArg Group.lclk hown
  obtain ⟨g', p', h1, h2, ev, eo, es, est, ect, er⟩ := retire_stepped' (s' := t)
    (g1 := runGroup g1 f.d (active u) (maccVal u ty f view) (maccPos ty)) rfl hpr (by rw [hui]; rfl)
    ((hof _).trans (groupOf_setGroup hg hg2id)) hsplits hlclk
    (fun k hk => (hof k).trans (groupOf_setGroup_other (by rw [hg2id]; exact hk))) hmach
    (fun c q hcq => hothers c q (by rw [hcore, hquarter]; exact hcq)) hown
  have hstatus := congrArg Group.status (honly [] [] [])
  have hsrctr := congrArg Group.srctr (honly [] [] [])
  refine ⟨g', p', h1, h2, ?_, ?_, fun k _ => ?_, fun l hl => ?_, fun hlen => ?_⟩
  · exact runWritten_of (runGroup_written g1 hd (active u) (maccVal u ty f view) (maccPos ty)) (regWord_of_regs rv ro rs)
      (regHeld_of_regs rv ro rs) (regWord_of_regs ev eo es) (regHeld_of_regs ev eo es)
      fun l hl => maccVal_active (by rw [has_toList] at hl; simpa using hl)
  · exact (es.trans (runGroup_sregs ..)).trans rs
  · exact (congrArg (BitVec.getLsbD · k) (est.trans hstatus)).trans (hst' k)
  · rw [has_toList]
    exact (congrArg (LaneVec.get · l) (ect.trans hsrctr)).trans (hct' l hl)
  · obtain ⟨h3, h4⟩ := hrings (by rw [hcore, hquarter]; exact hlen)
    rw [hcore, hquarter] at h3 h4
    have hpos : 0 < maccPos ty := by cases ty <;> decide
    rw [er, ← List.take_of_length_le (h4 hpos), h3]
    congr 2
    refine List.map_congr_left fun p hp => ?_
    have hp' : p < maccPos ty := by simpa using hp
    rw [runGroup_value g1 hd (fun l => has_toList (active u) l) (fun l hl => maccVal_active hl) hp' ev, hgid]
    rfl

/-- Settles O36: the course of MACC, its run written in turn, and the slot its trap names. -/
theorem maccSums : Obligations.MaccSums := by
  unfold Obligations.MaccSums
  intro ty f s u h hc hl hma hm
  obtain ⟨rfl, -⟩ := issuer_state h
  obtain ⟨view, hv⟩ := mapTrap_view hm fun e => hma (BitVec.eq_of_toNat_eq e)
  have hv' : mapView u.g u.p.fmt f.ma.toNat = some view := hv
  have hexec := exec_macc h hc hl hm hv'
  have hquiet : noNanTrap u (active u).toList (fun l => (maccOut u ty f view l).2) = true →
      ∃ t, exec (.macc ty f) u.s = .next t ∧ MaccLeaves u ty f view t := fun hq => by
    have hnan : nanTrap u (maccTr u ty f view) none = none := nanTrap_none u _ _ none hq
    rw [hnan] at hexec
    exact ⟨_, hexec, macc_leaves h hl⟩
  refine ⟨view, hv', fun hn => hquiet (by rw [noNanTrap, hn]; rfl), hquiet, fun hq => ?_⟩
  have hslots : ∀ l ∈ (active u).toList, NamesSlot f.ma.toNat (maccOut u ty f view l).2 := fun l _ =>
    maccLane_slot _ _ ty f.mod (maccIn u ty f view) l rfl
  obtain ⟨r, hr, h1, h2, h3⟩ := nanTrap_slot hslots hq
  have hr' : nanTrap u (maccTr u ty f view) none = some r := hr
  rw [hr'] at hexec
  refine ⟨r.by u, h1, h2, fun l hlt => ?_, hexec⟩
  rw [has_toList (active u)]
  exact h3 l hlt

end Sys2Proof.Machine
end

section
/-!
SUPPORT. LDL: its reads at issue, its end, and the flags it raises (O37).
-/
namespace Sys2Proof.Machine

theorem ldlLanes_eq (E : REnv) (js : List MapLane) (f : MFmt) (view : MapView) (bs : List Byte) (ctrs : LaneVec) (act : Lanes) :
    ldlLanes E js f.mod view f.ma.toNat f.ta bs ctrs act = act.toList.map fun l => (l, ldlOut E js f view bs ctrs l) := by
  unfold ldlLanes ldlOut
  refine List.map_congr_left fun l _ => ?_
  split <;> rfl

/-- The value of a lane of a list of outcomes that are those of the lanes of `act`. -/
def laneVal (act : Lanes) (out : Nat → Nat × Lane) (l : Nat) : Nat :=
  (((act.toList.map fun l => (l, out l)).find? (·.1 == l)).map (·.2.1)).getD 0

theorem laneVal_active {act : Lanes} (out : Nat → Nat × Lane) {l : Nat} (hl : act.has l = true) : laneVal act out l = (out l).1 := by
  rw [laneVal, find_keyed, if_pos (by rw [← has_toList]; exact hl)]
  rfl

theorem ldlWrite_run (g : Group) (d : Opnd) (n : Nat) (act : Lanes) (out : Nat → Nat × Lane) :
    ldlWrite g d n act (act.toList.map fun l => (l, out l)) = runGroup g d act (laneVal act out) n := rfl

theorem readNow_reads {s t : State} {o : Op} {l1 : Bool} {bs : List Byte} {bad : Option Nat} (h : readNow s o l1 = some (bs, bad, t)) :
    OnlyRead s t := by
  unfold readNow at h
  split at h
  · cases h
  · have e := congrArg (fun x => x.2.2) (Option.some.inj h)
    have ht : (o.elems.foldl (fun acc e =>
      let r := readElem acc.2.2 o e l1
      (acc.1 ++ natToBytes e.size r.1, acc.2.1.or r.2.1, r.2.2)) (([] : List Byte), (none : Option Nat), s)).2.2 = t := e
    rw [← ht]
    generalize o.elems = es
    suffices hgen : ∀ acc : List Byte × Option Nat × State, OnlyRead s acc.2.2 → OnlyRead s (es.foldl (fun acc e =>
        let r := readElem acc.2.2 o e l1
        (acc.1 ++ natToBytes e.size r.1, acc.2.1.or r.2.1, r.2.2)) acc).2.2 from hgen _ (.refl s)
    induction es with
    | nil => exact fun _ h => h
    | cons e es ih => exact fun acc h => ih _ (h.trans (onlyRead_readElem _ o e l1))

/-! ## LDL at issue -/

/-- The course of LDL once its address and its map are found good. -/
theorem exec_ldl {f : MFmt} {s s1 : State} {u : Iss} {pages : List (Nat × Nat)} (h : issuer s (.ldl f) = some u) (hc : clear u = true)
    (hl : ldlLegal u f = true) (hfab : fabricRun u.ctx (effAddr u f 0) (ldlBytes f.mod) = false)
    (hs : ldlSlotTrap u (ldlX f.mod) f.ma = none) (ha : active u ≠ 0#64)
    (ht : translateRun u .ldl (effAddr u f 0) (ldlBytes f.mod) = .ok (s1, pages)) (hf : engFull u .c0 = false) :
    let es := pieceElems .global (effAddr u f 0).toNat (ldlBytes f.mod) pages
    exec (.ldl f) s = .next (commit u (if ldlX f.mod && fmtNANTRAP u.p.fmt then ldlNow u s1 f (active u) es
      else .done (updGroup (addOp u s1 (.ldl f u.p.fmt u.p.members (active u)
        (if ldlX f.mod then keepView (mapView u.g u.p.fmt f.ma.toNat) else none) u.g.srseed u.g.srctr) false false .grp (some .c0) es)
        u.g.gid (ldlCtrs u f (active u))))) := by
  have hexec : exec (.ldl f) s = execLdl f s := rfl
  intro es
  rw [hexec, execLdl, runInstr_next h hc]
  have ha' : (active u == 0#64) = false := beq_false_of_ne ha
  simp only [hl, hfab, hs, ha', ht, hf, Bool.not_true, Bool.or_false, Bool.false_eq_true, if_false]
  rfl

/-- The group of an LDL that reads at issue, its registers written. -/
def ldlNowGroup (u : Iss) (f : MFmt) (out : Nat → Nat × Lane) (g : Group) : Group :=
  let tr := (active u).toList.map fun l => (l, (out l).2)
  runGroup (raiseFlags (putCtrs g tr) (flagsOf tr)) f.d (active u) (laneVal (active u) out) (ldlRun f.mod)

/-- LDL that reads at issue: it writes its registers at once. -/
theorem ldlNow_writes {u : Iss} {s1 s2 : State} {f : MFmt} {es : List Elem} {bs : List Byte}
    (hr : readNow (choose (mkOp u s1 (.load .b64 f.d) false false .grp es).2 2).2 (mkOp u s1 (.load .b64 f.d) false false .grp es).1
      ((choose (mkOp u s1 (.load .b64 f.d) false false .grp es).2 2).1 == 1) = some (bs, none, s2))
    (hn : noNanTrap u (active u).toList (fun l => (ldlOut (rEnv f.h u.p.fmt u.g.srseed) (mapLanes u) f
      (ldlView u.p.fmt f.ma.toNat (keepView (mapView u.g u.p.fmt f.ma.toNat))) bs u.g.srctr l).2) = true) :
    ldlNow u s1 f (active u) es = .done (updGroup (updGroup s2 u.g.gid fun g => engTick g .c0
      (mkOp u s1 (.load .b64 f.d) false false .grp es).1.id) u.g.gid (ldlNowGroup u f (ldlOut (rEnv f.h u.p.fmt u.g.srseed) (mapLanes u) f
        (ldlView u.p.fmt f.ma.toNat (keepView (mapView u.g u.p.fmt f.ma.toNat))) bs u.g.srctr))) := by
  have hr' : readNow (choose (mkOp u s1 .store false false .grp es).2 2).2
      { (mkOp u s1 .store false false .grp es).1 with kind := .load .b64 f.d }
      ((choose (mkOp u s1 .store false false .grp es).2 2).1 == 1) = some (bs, none, s2) := hr
  have hnan := nanTrap_none u _ _ none hn
  unfold ldlNow
  dsimp only
  rw [hr']
  dsimp only
  rw [ldlLanes_eq]
  generalize hout : ldlOut (rEnv f.h u.p.fmt u.g.srseed) (mapLanes u) f
    (ldlView u.p.fmt f.ma.toNat (keepView (mapView u.g u.p.fmt f.ma.toNat))) bs u.g.srctr = out at hnan ⊢
  have htr : ((active u).toList.map fun l => (l, out l)).map (fun r => (r.1, r.2.2)) = (active u).toList.map fun l => (l, (out l).2) := by
    simp
  rw [htr, hnan]
  rfl

theorem ldlLegal_dst {u : Iss} {f : MFmt} (h : ldlLegal u f = true) : runDst f.d = true := by
  simp only [ldlLegal, Bool.and_eq_true] at h
  cases hd : f.d with
  | v n => rfl
  | _ => rw [hd] at h; exact absurd h.1.1.1 (by simp)

theorem ldlNowGroup_written (u : Iss) {f : MFmt} (hd : runDst f.d = true) (out : Nat → Nat × Lane) (g : Group) :
    RunWritten g (ldlNowGroup u f out g) f.d (ldlRun f.mod) (active u) fun l => (out l).1 := by
  unfold ldlNowGroup
  generalize (active u).toList.map (fun l => (l, (out l).2)) = tr
  exact runWritten_of (runGroup_written (raiseFlags (putCtrs g tr) (flagsOf tr)) hd _ _ _) (regWord_of_regs rfl rfl rfl) (regHeld_of_regs rfl rfl rfl) (fun _ _ => rfl)
    (fun _ => rfl) fun l hl => laneVal_active out hl

theorem ldlNowGroup_gid (u : Iss) (f : MFmt) (out : Nat → Nat × Lane) (g : Group) : (ldlNowGroup u f out g).gid = g.gid := by
  unfold ldlNowGroup
  exact (runGroup_gid ..).trans rfl

/-! ## The end of an LDL -/

/-- What a good LDL leaves of its group when it ends. -/
def ldlGroup (o : Op) (f : MFmt) (act : Lanes) (out : Nat → Nat × Lane) (g : Group) : Group :=
  runGroup (flagsLater g o (flagsOf (act.toList.map fun l => (l, (out l).2)))) f.d act (laneVal act out) (ldlRun f.mod)

theorem flagsLater_rest (g : Group) (o : Op) (fl : Flags) :
    ∃ st sh, flagsLater g o fl = { g with status := st, shadow := sh } := by
  unfold flagsLater
  split
  · split
    · exact ⟨g.status, g.shadow, rfl⟩
    · exact ⟨_, _, rfl⟩
  · split
    · exact ⟨_, _, rfl⟩
    · exact ⟨_, _, rfl⟩

theorem flagsLater_status (g : Group) (o : Op) (fl : Flags) (k : Nat) : (flagsLater g o fl).status.getLsbD k =
    (g.status.getLsbD k || ((!o.tmpl.inhandler || g.shadow.isSome) && fl.getLsbD k)) := by
  unfold flagsLater
  cases hs : g.shadow with
  | none => cases hi : o.tmpl.inhandler <;> simp [raiseFlags]
  | some sh => cases hi : o.tmpl.inhandler <;> simp [raiseFlags]

theorem flagsLater_shadow (g : Group) (o : Op) (fl : Flags) {sh : Shadow} (hs : g.shadow = some sh) :
    ∃ sh', (flagsLater g o fl).shadow = some sh' ∧
      ∀ k, sh'.status.getLsbD k = (sh.status.getLsbD k || (!o.tmpl.inhandler && fl.getLsbD k)) := by
  unfold flagsLater
  rw [hs]
  cases hi : o.tmpl.inhandler with
  | true => exact ⟨sh, hs, fun k => by simp⟩
  | false => exact ⟨_, rfl, fun k => by simp [raiseFlags]⟩

theorem ldlGroup_keeps (o : Op) (f : MFmt) (act : Lanes) (out : Nat → Nat × Lane) (g : Group) :
    (ldlGroup o f act out g).gid = g.gid ∧ (ldlGroup o f act out g).splits = g.splits ∧ (ldlGroup o f act out g).srctr = g.srctr ∧
    (ldlGroup o f act out g).sregs = g.sregs := by
  unfold ldlGroup
  obtain ⟨st, sh, hl⟩ := flagsLater_rest g o (flagsOf (act.toList.map fun l => (l, (out l).2)))
  rw [hl]
  have honly := runGroup_only { g with status := st, shadow := sh } f.d act (laneVal act out) (ldlRun f.mod) [] [] []
  have e1 := congrArg Group.gid honly
  have e2 := congrArg Group.splits honly
  have e3 := congrArg Group.srctr honly
  exact ⟨e1, e2, e3, runGroup_sregs ..⟩

theorem ldlGroup_written (o : Op) {f : MFmt} (hd : runDst f.d = true) (act : Lanes) (out : Nat → Nat × Lane) (g : Group) :
    RunWritten g (ldlGroup o f act out g) f.d (ldlRun f.mod) act fun l => (out l).1 := by
  unfold ldlGroup
  obtain ⟨st, sh, hl⟩ := flagsLater_rest g o (flagsOf (act.toList.map fun l => (l, (out l).2)))
  rw [hl]
  exact runWritten_of (runGroup_written { g with status := st, shadow := sh } hd act (laneVal act out) (ldlRun f.mod))
    (regWord_of_regs rfl rfl rfl) (regHeld_of_regs rfl rfl rfl) (fun _ _ => rfl) (fun _ => rfl) fun l hl => laneVal_active out hl

theorem ldlGroup_status (o : Op) (f : MFmt) (act : Lanes) (out : Nat → Nat × Lane) (g : Group) (k : Nat) :
    (ldlGroup o f act out g).status.getLsbD k = (g.status.getLsbD k ||
      ((!o.tmpl.inhandler || g.shadow.isSome) && act.toList.any fun l => (out l).2.flags.getLsbD k)) := by
  have hb := flagsOf_bit (act.toList.map fun l => (l, (out l).2)) k
  rw [List.any_map] at hb
  have e := congrArg Group.status (runGroup_only (flagsLater g o (flagsOf (act.toList.map fun l => (l, (out l).2)))) f.d act
    (laneVal act out) (ldlRun f.mod) [] [] [])
  refine (congrArg (BitVec.getLsbD · k) e).trans ((flagsLater_status g o _ k).trans ?_)
  rw [hb]
  rfl

theorem ldlGroup_shadow (o : Op) (f : MFmt) (act : Lanes) (out : Nat → Nat × Lane) (g : Group) {sh : Shadow} (hs : g.shadow = some sh) :
    ∃ sh', (ldlGroup o f act out g).shadow = some sh' ∧ ∀ k, sh'.status.getLsbD k = (sh.status.getLsbD k ||
      (!o.tmpl.inhandler && act.toList.any fun l => (out l).2.flags.getLsbD k)) := by
  obtain ⟨sh', h1, h2⟩ := flagsLater_shadow g o (flagsOf (act.toList.map fun l => (l, (out l).2))) hs
  have e := congrArg Group.shadow (runGroup_only (flagsLater g o (flagsOf (act.toList.map fun l => (l, (out l).2)))) f.d act
    (laneVal act out) (ldlRun f.mod) [] [] [])
  refine ⟨sh', Eq.trans e h1, fun k => ?_⟩
  have hb := flagsOf_bit (act.toList.map fun l => (l, (out l).2)) k
  rw [List.any_map] at hb
  rw [h2, hb]
  rfl

theorem finishLdl_good {s : State} {o : Op} {g : Group} (hg : groupOf s o.gid = some g) (f : MFmt) (fmt : BitVec 9) (members act : Lanes)
    (view : Option (Nat × List (BitVec 16) × List Byte)) (seed : DWord) (ctrs : LaneVec) (hb : o.elems.findSome? Elem.bad = none) :
    finishLdl s o f fmt members act view seed ctrs = removeOp (countOff (setGroup s (ldlGroup o f act
      (ldlOut (rEnv f.h fmt seed) (mapLanesOf members (fmtW32 fmt)) f (ldlView fmt f.ma.toNat view) (pieceBytes o.elems) ctrs) g)) o) o.id := by
  unfold finishLdl
  rw [hb]
  dsimp only
  rw [updGroup_eq hg, ldlLanes_eq]
  generalize ldlOut (rEnv f.h fmt seed) (mapLanesOf members (fmtW32 fmt)) f (ldlView fmt f.ma.toNat view) (pieceBytes o.elems) ctrs = out
  have htr : (act.toList.map fun l => (l, out l)).map (fun r => (r.1, r.2.2)) = act.toList.map fun l => (l, (out l).2) := by simp
  rw [htr]
  rfl

theorem finishLdl_bad {s : State} {o : Op} {g : Group} {pa : Nat} (hg : groupOf s o.gid = some g) (f : MFmt) (fmt : BitVec 9)
    (members act : Lanes) (view : Option (Nat × List (BitVec 16) × List Byte)) (seed : DWord) (ctrs : LaneVec)
    (hb : o.elems.findSome? Elem.bad = some pa) :
    finishLdl s o f fmt members act view seed ctrs = removeOp (countOff (setGroup s
      { g with badLoads := g.badLoads ++ [{ pc := o.tmpl.pc, pa, dst := opDsts o }] }) o) o.id := by
  unfold finishLdl failLoad
  rw [hb]
  dsimp only
  rw [updGroup_eq hg]

/-- An operation that ends with its group as `g'`, counted off. -/
theorem ended {s : State} {o : Op} {g g' : Group} (hg : groupOf s o.gid = some g) (hid : g'.gid = g.gid) :
    (removeOp (countOff (setGroup s g') o) o.id).mem = s.mem ∧ (removeOp (countOff (setGroup s g') o) o.id).rings = s.rings ∧
    groupOf (removeOp (countOff (setGroup s g') o) o.id) o.gid = some (engDone g' o.id) := by
  have hgid := groupOf_gid hg
  have hg2 : groupOf (setGroup s g') o.gid = some g' := groupOf_setGroup hg (hid.trans hgid)
  have hcount : countOff (setGroup s g') o = setGroup (setGroup s g') (engDone g' o.id) := updGroup_eq hg2 _
  refine ⟨by rw [hcount]; rfl, by rw [hcount]; rfl, ?_⟩
  rw [hcount, removeOp_groups]
  exact groupOf_setGroup hg2 (hid.trans hgid)

/-- Settles O37: LDL puts its reads in flight, or reads at once under NANTRAP, and its end writes its run. -/
theorem latentLoads : Obligations.LatentLoads := by
  unfold Obligations.LatentLoads
  refine ⟨?_, ?_⟩
  · intro f s s1 u pages h hc a n hl hfab hslot ha ht hfull view
    obtain ⟨rfl, -, -, hgr, -, -⟩ := issuer_state h
    have hex := exec_ldl h hc hl hfab hslot ha ht hfull
    dsimp only at hex
    have hw := translateRun_walked ht
    refine ⟨?_, ?_⟩
    · intro hq
      rw [hq, if_neg (by simp), commit_done] at hex
      exact ⟨_, _, launched h hw _ _ _ _ _ _, rfl, rfl, rfl, rfl, hex⟩
    · intro hq bs s2 hr out hn
      have hnow := ldlNow_writes hr hn
      have hreads := readNow_reads hr
      rw [hq, if_pos rfl, hnow, commit_done] at hex
      have hg1 : groupOf s1 u.g.gid = some u.g := (walked_groupOf hw _).trans hgr
      have hg2 : groupOf s2 u.g.gid = some u.g := (onlyRead_groupOf hreads _).trans hg1
      obtain ⟨id, hid⟩ : ∃ id, id = (mkOp u s1 (.load .b64 f.d) false false .grp (pieceElems .global (effAddr u f 0).toNat (ldlBytes f.mod) pages)).1.id :=
        ⟨_, rfl⟩
      rw [← hid, updGroup_eq hg2] at hex
      have hg3 : groupOf (setGroup s2 (engTick u.g .c0 id)) u.g.gid = some (engTick u.g .c0 id) := groupOf_setGroup hg2 rfl
      rw [updGroup_eq hg3] at hex
      refine ⟨_, _, hex, rfl, groupOf_setGroup hg3 (ldlNowGroup_gid ..), ?_⟩
      exact runWritten_of (ldlNowGroup_written u (ldlLegal_dst hl) _ (engTick u.g .c0 id)) (regWord_of_regs rfl rfl rfl)
        (regHeld_of_regs rfl rfl rfl) (fun _ _ => rfl) (fun _ => rfl) fun _ _ => rfl
  · intro s op o o1 g f fmt members act view seed ctrs ho hk s1 ho1 hperf hg out
    have hid := opOf_id ho1
    have hexec : exec (.ldlReturn op) s = .next (finishLdl s1 o1 f fmt members act view seed ctrs) := by
      have hdef : exec (.ldlReturn op) s = execLdlReturn op s := rfl
      rw [hdef, execLdlReturn, ho, Option.map_some, hk]
      dsimp only
      rw [show opOf (loadElems s op allLanes 0#64) op = some o1 from ho1]
      dsimp only
      rw [if_pos hperf]
    have hgone : ∀ y ∈ (finishLdl s1 o1 f fmt members act view seed ctrs).ops, y.id ≠ op := by
      rw [← hid]
      exact removeOp_gone _ _
    cases hb : o1.elems.findSome? Elem.bad with
    | some pa =>
      obtain ⟨h1, h2, h3⟩ := ended (g' := { g with badLoads := g.badLoads ++ [{ pc := o1.tmpl.pc, pa, dst := opDsts o1 }] }) hg rfl
      have hfin := finishLdl_bad hg f fmt members act view seed ctrs hb
      rw [← hfin] at h1 h2 h3
      exact ⟨_, _, hexec, h1, h2, hgone, h3, rfl, rfl, rfl, (fun e => by cases e), fun _ e => by cases e; exact ⟨rfl, rfl, rfl⟩⟩
    | none =>
      obtain ⟨hgid', hspl, hsrctr, hsregs⟩ := ldlGroup_keeps o1 f act out g
      have hfin := finishLdl_good hg f fmt members act view seed ctrs hb
      obtain ⟨h1, h2, h3⟩ := ended (g' := ldlGroup o1 f act out g) hg hgid'
      rw [← hfin] at h1 h2 h3
      refine ⟨_, _, hexec, h1, h2, hgone, h3, hsregs, hspl, hsrctr, fun _ => ⟨fun n hn => ?_, fun k _ => ?_, fun sh hs => ?_⟩,
        fun _ e => by cases e⟩
      · exact runWritten_of (ldlGroup_written o1 (by rw [hn]; rfl) act out g) (fun _ _ => rfl) (fun _ => rfl)
          (regWord_of_regs rfl rfl rfl) (regHeld_of_regs rfl rfl rfl) fun _ _ => rfl
      · exact ldlGroup_status o1 f act out g k
      · obtain ⟨sh', e1, e2⟩ := ldlGroup_shadow o1 f act out g hs
        exact ⟨sh', e1, fun k _ => e2 k⟩

end Sys2Proof.Machine
end

section
/-!
SUPPORT. Sweeps (O33): an iteration of an LDL sweep takes a number that the statement's own read does not.
-/
namespace Sys2Proof.Machine

/-! ## An LDL sweep of one iteration

A group of one split, whose page table maps the page of its code; its LDL sweep reads one row of 16 bytes and a scale from
that page, the iteration's read being the next operation's number. The state that the statement names has read the same
row without taking that number. -/

def sweepFmt : SFmt :=
  { h := { hold := false, guard := .always, rm := 0#3, sat := false, wbs := false }, d := .s 2, a := .s 0, b := .zero, ma := 0#4, mb := 0#4,
    ta := false, tb := false, mod := 0#7, count := 1#12, stepD := 0#10, stepA := 0#10, stepB := 0#10 }

def sweepSplit : Split := { firstSplit 4 5 (Lanes.all false) Probe.codeVA false 0 with sweep := some (.ldlSweep sweepFmt, 0) }

def sweepGroup : Group := { Probe.group 1 with splits := [sweepSplit], sregs := (List.replicate 64 0#32).set 0 0x2000_1000#32 }

def sweepState : State := { State.reset.withFetchWord 128 0 with groups := [sweepGroup] }

def sweepIss : Iss := { s := sweepState, i := .ldlSweep sweepFmt, g := sweepGroup, p := sweepSplit, ctx := Probe.context }

/-- The address of its row. -/
def sweepVa : DWord := readPair sweepIss sweepFmt.a 0 + BitVec.ofNat 64 (0 * ldlBytes sweepFmt.mod)

def sweepSeg : Seg := (segOff sweepIss sweepFmt.d sweepFmt.stepD 0, ldlRun sweepFmt.mod)

theorem sweep_due : sweepDue sweepState 3 4 0 sweepIss :=
  ⟨rfl, rfl, rfl, rfl, rfl, by decide +kernel, by decide +kernel, by decide +kernel, by decide +kernel, by decide +kernel, by decide +kernel⟩

theorem sweep_checks : (segTrap sweepIss [sweepSeg]).isNone = true ∧ fabricRun sweepIss.ctx sweepVa (ldlBytes sweepFmt.mod) = false ∧
    segsReady sweepIss [sweepSeg] = true ∧ engFull sweepIss .c0 = false := by decide +kernel

/-- The outcome of the walk of its pages. -/
def sweepWalk : Except Eff (State × List (Nat × Nat)) := translateRun sweepIss .ldl sweepVa (ldlBytes sweepFmt.mod)

def walkedTo (r : Except Eff (State × List (Nat × Nat))) : State × List (Nat × Nat) :=
  match r with
  | .ok x => x
  | .error _ => (State.reset, [])

def walkOk (r : Except Eff (State × List (Nat × Nat))) : Bool :=
  match r with
  | .ok _ => true
  | .error _ => false

theorem sweepWalk_ok : sweepWalk = .ok (walkedTo sweepWalk) := by
  have h : walkOk sweepWalk = true := by decide +kernel
  cases hr : sweepWalk with
  | ok x => rfl
  | error e => rw [hr] at h; cases h

/-- The state after the walk, and the read that the iteration makes then. -/
def sweepWalked : State := (walkedTo sweepWalk).1

def sweepOp : Op :=
  (mkOp sweepIss sweepWalked (.load .b64 .zero) false false .grp (pieceElems .global sweepVa.toNat (ldlBytes sweepFmt.mod) (walkedTo sweepWalk).2)).1

def readOk (r : Option (List Byte × Option Nat × State)) : Bool :=
  match r with
  | some (_, none, _) => true
  | _ => false

theorem readOk_some {r : Option (List Byte × Option Nat × State)} (h : readOk r = true) : ∃ bs t, r = some (bs, none, t) := by
  rcases r with _ | ⟨bs, _ | pa, t⟩
  · cases h
  · exact ⟨bs, t, rfl⟩
  · cases h

theorem sweep_reads : ∀ l1, readOk (readNow (choose sweepWalked 2).2 sweepOp l1) = true := by decide +kernel

/-- The end of the iteration whose read is given. -/
def sweepEnd (r : Option (List Byte × Option Nat × State)) : Eff :=
  match r.map fun r => (r.1, r.2.1, updGroup r.2.2 sweepIss.g.gid fun g => engTick g .c0 sweepOp.id) with
  | none => .wait sweepIss.s
  | some (_, some pa, s) =>
    .trap s { cause := .memoryUncorrectable, mask := sweepIss.p.members, aux0 := sweepIss.p.pc, aux1 := BitVec.ofNat 64 pa }
  | some (bs, none, s) => segFinish sweepIss s sweepSeg (ldlLanes (rEnv sweepFmt.h sweepIss.p.fmt sweepIss.g.srseed) (mapLanes sweepIss)
      sweepFmt.mod (ldlView sweepIss.p.fmt sweepFmt.ma.toNat (keepView (mapView sweepIss.g sweepIss.p.fmt sweepFmt.ma.toNat)))
      sweepFmt.ma.toNat sweepFmt.ta bs sweepIss.g.srctr (active sweepIss))

/-- The state that reads the row, its number taken. -/
def sweepNumbered : State := { sweepWalked with nextId := sweepWalked.nextId + 1 }

theorem sweep_ends : ∀ l1, (sweepCommit sweepIss 0 (sweepEnd (readNow (choose sweepNumbered 2).2 sweepOp l1))).nextId = 7 := by
  decide +kernel

theorem exec_sweep : ∃ l1, exec (.sweepIteration 3 4) sweepState =
    .next (sweepCommit sweepIss 0 (sweepEnd (readNow (choose sweepNumbered 2).2 sweepOp l1))) := by
  refine ⟨(choose sweepNumbered 2).1 == 1, ?_⟩
  obtain ⟨h1, h2, h3, h4⟩ := sweep_checks
  have hseg : segTrap sweepIss [sweepSeg] = none := Option.isNone_iff_eq_none.mp h1
  have hwalk := sweepWalk_ok
  have hbody : ldlSweepBody sweepIss sweepFmt 0 = sweepEnd (readNow (choose sweepNumbered 2).2 sweepOp ((choose sweepNumbered 2).1 == 1)) := by
    have hslot : ldlSlotTrap sweepIss (ldlX sweepFmt.mod) sweepFmt.ma = none := rfl
    unfold ldlSweepBody
    dsimp only
    rw [show fabricRun sweepIss.ctx (readPair sweepIss sweepFmt.a 0 + BitVec.ofNat 64 (0 * ldlBytes sweepFmt.mod)) (ldlBytes sweepFmt.mod) = false from h2,
      hslot, show segTrap sweepIss [(segOff sweepIss sweepFmt.d sweepFmt.stepD 0, ldlRun sweepFmt.mod)] = none from hseg,
      show segsReady sweepIss [(segOff sweepIss sweepFmt.d sweepFmt.stepD 0, ldlRun sweepFmt.mod)] = true from h3, h4,
      show translateRun sweepIss .ldl (readPair sweepIss sweepFmt.a 0 + BitVec.ofNat 64 (0 * ldlBytes sweepFmt.mod)) (ldlBytes sweepFmt.mod) =
        .ok (walkedTo sweepWalk) from hwalk]
    rfl
  have hiter : exec (.sweepIteration 3 4) sweepState = .next (sweepIter sweepIss 0) := rfl
  have hwait : waitsForLoad sweepIss = false := by decide +kernel
  rw [hiter, sweepIter, if_neg (by decide +kernel), hwait, if_neg (by simp)]
  exact congrArg (fun e => Host.Outcome.next (sweepCommit sweepIss 0 e)) hbody

theorem sweep_spads : SpadsOk sweepState :=
  ⟨fun t ht => by
    obtain rfl := List.mem_singleton.mp ht
    decide +kernel, fun x hx => absurd hx List.not_mem_nil⟩

/-- Refutes O33: an iteration of an LDL sweep takes the next number for its read, which the state that the statement names has
not taken, so that the machine is not that state but for groups and scratchpads. -/
theorem not_sweeps : ¬ Obligations.Sweeps := by
  unfold Obligations.Sweeps
  intro h
  obtain ⟨-, -, -, -, hldl⟩ := h
  obtain ⟨h1, h2, h3, h4⟩ := sweep_checks
  obtain ⟨bs, s2, hread⟩ := readOk_some (sweep_reads ((choose sweepWalked 2).1 == 1))
  obtain ⟨t, ht, hswept⟩ := hldl sweepFmt sweepState sweepWalked s2 3 4 0 sweepIss (walkedTo sweepWalk).2 bs sweep_due rfl sweep_spads
    (fun x hx => absurd hx List.not_mem_nil) (fun x hx => by
      have hnone : phasesDue sweepState sweepIss.g.grid = [] := by decide +kernel
      rw [hnone] at hx
      exact absurd hx List.not_mem_nil)
    (Option.isNone_iff_eq_none.mp h1) h2 h3 h4 rfl sweepWalk_ok hread (by rw [noNanTrap, show fmtNANTRAP sweepIss.p.fmt = false from by decide +kernel]; rfl)
  obtain ⟨l1, hexec⟩ := exec_sweep
  have htaken : t.nextId = 7 := by
    rw [← Host.Outcome.next.inj (hexec.symm.trans ht)]
    exact sweep_ends l1
  have hs2 : s2.nextId = sweepWalked.nextId := (onlyRead_keeps (readNow_reads hread)).2.2
  have hfree : sweepWalked.nextId = 6 := by decide +kernel
  have hsame : t.nextId = s2.nextId := by
    have e := congrArg State.nextId hswept.machine
    exact e
  rw [htaken, hs2, hfree] at hsame
  exact absurd hsame (by decide)

end Sys2Proof.Machine
end

section
/-!
SUPPORT. What keeps device memory: a predicate of states that writes of bytes keep, and that no other part of a state but
memories bears on, is kept by records, by walks and by translations.
-/
namespace Sys2Proof.Machine

/-- A predicate about memories that writes to device memory keep. -/
structure MemClosed (P : State → Prop) : Prop where
  phys : ∀ s pa bs, P s → P (physWriteBytes s pa bs)
  rest : ∀ s t : State, t.mem = s.mem → t.remote = s.remote → t.teams = s.teams → t.handles = s.handles → P s → P t

theorem memClosed_memOk : MemClosed MemOk :=
  ⟨fun _ pa bs h => memOk_physWriteBytes pa bs h, fun s t hm _ _ _ h => by rw [MemOk, hm]; exact h⟩

theorem memClosed_memsOk : MemClosed MemsOk :=
  ⟨fun _ pa bs h => ⟨memOk_physWriteBytes pa bs h.1, h.2⟩, fun s t hm hr ht hh h => by
    obtain ⟨h1, h2, h3, h4⟩ := h
    exact ⟨by rw [MemOk, hm]; exact h1, by rw [hr]; exact h2, by rw [ht]; exact h3, by rw [hh]; exact h4⟩⟩

section
variable {P : State → Prop} (hP : MemClosed P)
include hP

theorem MemClosed.setGroup {s : State} (g : Group) (h : P s) : P (setGroup s g) := hP.rest s _ rfl rfl rfl rfl h

theorem MemClosed.updGroup {s : State} (n : Nat) (f : Group → Group) (h : P s) : P (updGroup s n f) := by
  unfold Sys2Proof.Machine.updGroup
  split
  · exact hP.setGroup _ h
  · exact h

theorem MemClosed.physWrite {s : State} (pa n v : Nat) (h : P s) : P (physWrite s pa n v) := hP.phys s pa _ h

theorem MemClosed.setCtx {s : State} (c : Context) (h : P s) : P (setCtx s c) := hP.rest s _ rfl rfl rfl rfl h

theorem MemClosed.signal {s : State} (n : Nat) (h : P s) : P (signal s n) := hP.rest s _ rfl rfl rfl rfl h

theorem MemClosed.writeRec {s : State} (c : Context) (r : DriverRec) (h : P s) : P (writeRec s c r) := by
  obtain ⟨s2, hs2⟩ : ∃ s2, s2 = Sys2Proof.Machine.physWrite (physWriteBytes s (nextRecAddr c) r.body.bytes) c.fring 8 (c.tail + 1) := ⟨_, rfl⟩
  obtain ⟨s3, hs3⟩ : ∃ s3 : State, s3 = { Sys2Proof.Machine.setCtx s2 { c with tail := c.tail + 1 } with
      records := (nextRecAddr c, r) :: (Sys2Proof.Machine.setCtx s2 { c with tail := c.tail + 1 }).records.filter fun x => x.1 ≠ nextRecAddr c } := ⟨_, rfl⟩
  have h2 : P s2 := hs2 ▸ hP.physWrite _ _ _ (hP.phys _ _ _ h)
  have h3 : P s3 := hP.rest s2 s3 (by rw [hs3]; rfl) (by rw [hs3]; rfl) (by rw [hs3]; rfl) (by rw [hs3]; rfl) h2
  have hgroup := hP.updGroup (s := s3)
  unfold Sys2Proof.Machine.writeRec
  cases r.link with
  | group gid =>
    simp only [← hs2, ← hs3]
    exact hP.signal _ (hgroup _ _ h3)
  | _ =>
    simp only [← hs2, ← hs3]
    exact hP.signal _ h3

theorem MemClosed.report {s : State} (r : DriverRec) (h : P s) : P (report s r) := by
  unfold Sys2Proof.Machine.report
  split
  · exact h
  split
  · split
    · exact hP.writeRec _ _ h
    · exact hP.setCtx _ (hP.physWrite _ _ _ h)
  · split
    · exact hP.writeRec _ _ h
    · exact hP.rest s _ rfl rfl rfl rfl h

theorem MemClosed.orEntry {s : State} (ctx pa : Nat) (e : DWord) (n : Nat) (h : P s) : P (orEntry s ctx pa e n) := by
  unfold Sys2Proof.Machine.orEntry
  split
  · exact h
  split
  · exact hP.report _ h
  · exact hP.phys s _ _ h

theorem MemClosed.walkAccess {s : State} (c : Context) (va : DWord) (a : Access) (sup : Bool) (h : P s) :
    P (walkAccess s c va a sup).2 :=
  walkAccess_keeps (fun _ _ _ _ _ h => hP.orEntry _ _ _ _ h) h c va a sup

theorem MemClosed.translate {s : State} (c : Nat) (ctx : Context) (va : DWord) (a : Access) (sup : Bool) (h : P s) :
    P (translate s c ctx va a sup).2 :=
  translate_keeps (fun _ _ _ _ _ h => hP.orEntry _ _ _ _ h) (fun s c k h => hP.rest s (setCore s c k) rfl rfl rfl rfl h) h c ctx va a sup

end

end Sys2Proof.Machine
end

section
/-!
SUPPORT. Copy commands (O39): COPY as it issues, a chunk performed in one step, completion, and WAITC.
-/
namespace Sys2Proof.Machine

/-! ## What acts on scratchpads alone -/

/-- It reads and changes teams and handles, and nothing else. -/
def SpadOnly (f : State → State) : Prop :=
  ∀ s t : State, t.teams = s.teams → t.handles = s.handles → f t = { t with teams := (f s).teams, handles := (f s).handles }

theorem teamOf_teams {s t : State} (h : t.teams = s.teams) (n : Nat) : teamOf t n = teamOf s n := by rw [teamOf, teamOf, h]

theorem SpadOnly.rest {f : State → State} (h : SpadOnly f) (s : State) : { f s with teams := s.teams, handles := s.handles } = s := by
  have e := congrArg (fun x : State => { x with teams := s.teams, handles := s.handles }) (h s s rfl rfl)
  exact e

theorem SpadOnly.comp {f g : State → State} (hf : SpadOnly f) (hg : SpadOnly g) : SpadOnly fun s => g (f s) := fun s t ht hh => by
  have e := hf s t ht hh
  have e1 := congrArg State.teams e
  have e2 := congrArg State.handles e
  have e3 := hg (f s) (f t) e1 e2
  refine e3.trans ?_
  rw [e]

theorem spadOnly_id : SpadOnly id := fun s t ht hh => by
  show t = { t with teams := s.teams, handles := s.handles }
  rw [← ht, ← hh]

theorem spadOnly_updTeam (n : Nat) (F : Team → Team) : SpadOnly fun s => updTeam s n F := fun s t ht hh => by
  dsimp only
  unfold updTeam
  rw [teamOf_teams ht]
  cases teamOf s n with
  | none => exact spadOnly_id s t ht hh
  | some x =>
    dsimp only
    unfold setTeam
    rw [ht, ← hh]

theorem spadOnly_handles (F : Handle → Handle) : SpadOnly fun s => { s with handles := s.handles.map F } := fun s t ht hh => by
  dsimp only
  rw [← ht, hh]

theorem spadOnly_putIn (tid off n v : Nat) : SpadOnly fun s => spadPutIn s tid off n v := fun s t ht hh => by
  dsimp only
  unfold spadPutIn
  rw [spadPlace_same ht hh]
  rcases spadPlace s tid off with ⟨k | k, o⟩
  · exact spadOnly_updTeam k _ s t ht hh
  · exact spadOnly_handles _ s t ht hh

theorem spadOnly_foldl {β : Type} {F : State → β → State} (h : ∀ b, SpadOnly fun s => F s b) (bs : List β) :
    SpadOnly fun s => bs.foldl F s := by
  induction bs with
  | nil => exact spadOnly_id
  | cons b bs ih => exact (h b).comp ih

theorem spadOnly_put (tid off n v : Nat) : SpadOnly fun s => spadPut s tid off n v := by
  unfold spadPut
  split
  · exact spadOnly_putIn tid off n v
  · exact spadOnly_foldl (F := fun (s : State) (r : Nat × Nat) => spadPutIn s tid r.1 r.2 (v / 2 ^ (8 * (r.1 - off)) % 2 ^ (8 * r.2)))
      (fun r => spadOnly_putIn tid r.1 r.2 _) _

theorem objsAt_same {s t : State} (ht : t.teams = s.teams) (hh : t.handles = s.handles) (pl : Nat ⊕ Nat) : objsAt t pl = objsAt s pl := by
  unfold objsAt handleOf
  simp only [teamOf_teams ht, hh]

theorem spadOnly_putObj (tid off : Nat) (F : BarObj → BarObj) : SpadOnly fun s => putObj s tid off F := fun s t ht hh => by
  dsimp only
  unfold putObj
  rw [spadPlace_same ht hh]
  dsimp only
  rw [objsAt_same ht hh]
  unfold setObjs
  rcases spadPlace s tid off with ⟨k | k, o⟩
  · exact spadOnly_updTeam k _ s t ht hh
  · exact spadOnly_handles _ s t ht hh

theorem named_same {s t : State} (ht : t.teams = s.teams) (hh : t.handles = s.handles) (tid off : Nat) : named t tid off = named s tid off := by
  rw [named, named, spadPlace_same ht hh, objsAt_same ht hh]

theorem metValue_same {s t : State} (ht : t.teams = s.teams) (hh : t.handles = s.handles) (tid off : Nat) :
    metValue t tid off = metValue s tid off := by
  rw [metValue, metValue, objOf, objOf, spadPlace_same ht hh, objsAt_same ht hh, spadRead_same ht hh]

theorem spadOnly_meet (tid off : Nat) : SpadOnly fun s => meetObj s tid off := fun s t ht hh => by
  dsimp only
  cases hn : named s tid off with
  | true =>
    have hn' : named t tid off = true := (named_same ht hh ..).trans hn
    rw [meetObj, if_pos hn', meetObj, if_pos hn]
    exact spadOnly_id s t ht hh
  | false =>
    have hn' : named t tid off = false := (named_same ht hh ..).trans hn
    rw [meetObj_unnamed hn, meetObj_unnamed hn', metValue_same ht hh, spadRead_same ht hh]
    split
    · exact spadOnly_putObj tid off _ s t ht hh
    · exact (spadOnly_put tid off 16 _).comp (spadOnly_putObj tid off _) s t ht hh

/-! ## COPY at issue -/

theorem sredTicket_eq (s : State) (c : Copy) : ∃ R I, sredTicket s c = ({ s with sredGroups := R }, { c with inst := I }) ∧
    ∀ n op ty, c.kind = .sred n op ty → ∀ x, s.sredGroups.find? (·.num == n) = some x → I = some x.nextInst := by
  unfold sredTicket
  split
  next n op ty hk =>
    split
    next g hf =>
      refine ⟨_, _, rfl, fun n' op' ty' e x hx => ?_⟩
      cases hk.symm.trans e
      rw [hf] at hx
      rw [Option.some.inj hx]
    next hf =>
      refine ⟨s.sredGroups, c.inst, rfl, fun n' op' ty' e x hx => ?_⟩
      cases hk.symm.trans e
      rw [hf] at hx
      cases hx
  next hk => exact ⟨s.sredGroups, c.inst, rfl, fun n op ty e => absurd e (hk n op ty)⟩

/-- The barrier object that COPY names lies in the team's own scratchpad. -/
theorem copyTrap_bar {u : Iss} {f : RFmt} {b : CopyBlk} {o : Nat} {a : DWord} (h : copyTrap u f b (some o) a = none) :
    handedAway u.s u.g.team o 16 = false ∧ ∃ tm, teamOf u.s u.g.team = some tm := by
  unfold copyTrap at h
  dsimp only at h
  split at h
  · cases h
  split at h
  · cases h
  split at h
  · cases h
  next hout =>
    have hout' := (Option.or_eq_none_iff.mp (Option.or_eq_none_iff.mp hout).2).2
    have hgone := (Option.or_eq_none_iff.mp (Option.or_eq_none_iff.mp (Option.map_eq_none_iff.mp h)).2).2
    simp only [Option.bind_some, ite_eq_right_iff, reduceCtorEq, imp_false, Nat.not_lt, Bool.not_eq_true] at hout' hgone
    cases ht : teamOf u.s u.g.team with
    | none =>
      simp only [teamOfIss, ht, Option.getD_none, spadLimit] at hout'
      omega
    | some tm =>
      simp only [teamOfIss, ht, Option.getD_some, teamOf_tid ht] at hgone
      exact ⟨hgone, tm, rfl⟩

/-- The state that COPY leaves before it retires, but for its object. -/
def copyStarted (u : Iss) (f : RFmt) : State × Copy :=
  sredTicket (updGroup { u.s with nextId := u.s.nextId + 1 } u.g.gid fun g => engAdd g (copyClass u f) u.s.nextId)
    (newCopy u f (copyBlk u f.a) (copyClass u f == .c3) u.s.nextId)

/-- The same with its object met. -/
def copyMet (u : Iss) (f : RFmt) : State :=
  if copyBar f then meetObj (copyStarted u f).1 u.g.team (readNat u 0#64 false f.b 0) else (copyStarted u f).1

theorem exec_copy {f : RFmt} {s : State} {u : Iss} (h : issuer s (.copy f) = some u) (hc : clear u = true)
    (hv : guardIsVector f.h.guard = false) (ho : copyOperands f = true) (hg : scalarGuard u.g f.h.guard = true) (hl : copyLimits u f = true)
    (hk : copyKindCode f = 1 → u.g.repro = false)
    (ht : copyTrap u f (copyBlk u f.a) (if copyBar f then some (readNat u 0#64 false f.b 0) else none)
      ((if f.c = .zero then none else some (readPair u f.c 0)).getD 0#64) = none) (he : engFull u (copyClass u f) = false) :
    exec (.copy f) s = .next (retire { copyMet u f with copies := (copyMet u f).copies ++ [(copyStarted u f).2] } u true) := by
  have hexec : exec (.copy f) s = execCopy f s := rfl
  have hca : (if f.c = .zero then none else some (readPair u f.c 0)).getD 0#64 = if f.c = .zero then 0#64 else readPair u f.c 0 := by
    split <;> rfl
  rw [hca] at ht
  have hbad := (Bool.not_eq_true' _).mp hl
  have hrep : ¬ (copyKindCode f = 1 ∧ u.g.repro = true) := fun ⟨h1, h2⟩ => by rw [hk h1] at h2; cases h2
  have hcls : (if copyIsC3 f (copyFabric u.ctx (copySsp f) (copyBlk u f.a).src (copyBlk u f.a).sstride (copyBlk u f.a) ||
      copyFabric u.ctx (copyDsp f) (copyBlk u f.a).dst (copyBlk u f.a).dstride (copyBlk u f.a)) = true then EngClass.c3 else EngClass.c1) =
      copyClass u f := rfl
  have hthree : copyIsC3 f (copyFabric u.ctx (copySsp f) (copyBlk u f.a).src (copyBlk u f.a).sstride (copyBlk u f.a) ||
      copyFabric u.ctx (copyDsp f) (copyBlk u f.a).dst (copyBlk u f.a).dstride (copyBlk u f.a)) = (copyClass u f == .c3) := by
    rw [← hcls]
    cases copyIsC3 f _ <;> rfl
  rw [hexec, execCopy, runInstr_next h hc]
  dsimp only at hbad ⊢
  rw [if_neg (Bool.eq_false_iff.mp hv), if_neg (by rw [hg]; exact Bool.false_ne_true), if_neg (by rw [ho]; exact Bool.false_ne_true), if_neg (Bool.eq_false_iff.mp hbad),
    if_neg hrep, ht, hcls, if_neg (Bool.eq_false_iff.mp he), hthree]
  have hfresh : fresh u.s = (u.s.nextId, { u.s with nextId := u.s.nextId + 1 }) := rfl
  rw [hfresh]
  dsimp only
  rw [commit_done]
  unfold copyMet copyStarted
  generalize sredTicket _ _ = r
  cases hb : copyBar f with
  | true => simp only [if_true]
  | false => simp only [Bool.false_eq_true, if_false]

/-- COPY starts its command: counted, its object met, and nothing else. -/
theorem copy_starts {f : RFmt} {u : Iss} (hg : groupOf u.s u.g.gid = some u.g) : ∃ R G I, copyStarted u f =
      ({ u.s with nextId := u.s.nextId + 1, groups := G, sredGroups := R },
        { newCopy u f (copyBlk u f.a) (copyClass u f == .c3) u.s.nextId with inst := I }) ∧
    (G = (setGroup u.s (engAdd u.g (copyClass u f) u.s.nextId)).groups) ∧
    ∀ n op ty, copyKind f = .sred n op ty → ∀ x, u.s.sredGroups.find? (·.num == n) = some x → I = some x.nextInst := by
  have hg' : groupOf { u.s with nextId := u.s.nextId + 1 } u.g.gid = some u.g := hg
  obtain ⟨R, I, h1, h2⟩ := sredTicket_eq (updGroup { u.s with nextId := u.s.nextId + 1 } u.g.gid fun g =>
    engAdd g (copyClass u f) u.s.nextId) (newCopy u f (copyBlk u f.a) (copyClass u f == .c3) u.s.nextId)
  rw [updGroup_eq hg'] at h1 h2
  refine ⟨R, (setGroup u.s (engAdd u.g (copyClass u f) u.s.nextId)).groups, I, ?_, rfl, h2⟩
  unfold copyStarted
  rw [updGroup_eq hg', h1]
  rfl

theorem copyClass_shape (u : Iss) (f : RFmt) : (if (copyClass u f == .c3) = true then EngClass.c3 else EngClass.c1) = copyClass u f := by
  unfold copyClass
  dsimp only
  split <;> rfl

/-! ## Completion -/

theorem copyOf_cid {s : State} {n : Nat} {c : Copy} (h : copyOf s n = some c) : c.cid = n := by
  simpa using List.find?_some h

theorem copyOf_setCopy {s : State} {n : Nat} {c x : Copy} (h : copyOf s n = some x) (hc : c.cid = n) : copyOf (setCopy s c) n = some c := by
  subst hc
  exact find_map_key Copy.cid s.copies x c c.cid rfl h

theorem copyOf_setCopy_other {s : State} {c : Copy} {m : Nat} (h : m ≠ c.cid) : copyOf (setCopy s c) m = copyOf s m :=
  find_map_other Copy.cid s.copies c c.cid m rfl h

theorem copyGone_done (s : State) (c : Copy) : CopyDone s (copyGone s c) c := by
  have hupd : ∃ G, updGroup s c.gid (fun g => engDone g c.cid) = { s with groups := G } := by
    unfold updGroup
    split
    · exact ⟨_, rfl⟩
    · exact ⟨s.groups, rfl⟩
  obtain ⟨G, hG⟩ := hupd
  have hof : ∀ n, groupOf (copyGone s c) n = groupOf (updGroup s c.gid fun g => engDone g c.cid) n := fun _ => rfl
  refine ⟨fun x => ?_, ?_, ?_, fun n hn => ?_, fun g hg => ?_, ?_⟩
  · unfold copyGone
    dsimp only
    rw [hG, List.mem_filter, bne_iff_ne]
  · unfold copyGone
    rw [hG]
  · unfold copyGone
    rw [hG]
  · rw [hof]
    cases hg : groupOf s c.gid with
    | none => rw [updGroup, hg]
    | some g =>
      rw [updGroup_eq hg]
      exact groupOf_setGroup_other (g := engDone g c.cid) (by
        have hid := groupOf_gid hg
        show n ≠ g.gid
        rw [hid]
        exact hn)
  · rw [hof, updGroup_eq hg]
    exact groupOf_setGroup hg (show g.gid = c.gid from groupOf_gid hg)
  · unfold copyGone
    rw [hG]

theorem copyAct_future {s : State} {c : Copy} (hk : c.kind = .future) : copyAct s c =
    setCopy { s with ops := s.ops ++ [actionOp c s.nextId (.copyF c.cid) [mkElem 0 .global (c.caddr.getD 0#64) none 8]], nextId := s.nextId + 1 }
      { c with acting := true, inst := some s.nextId } := by
  unfold copyAct
  split
  · rfl
  next h => rw [hk] at h; cases h
  next h _ => exact absurd hk h

theorem exec_copyCompletion {s : State} {cid : Nat} {c : Copy} (h : copyOf s cid = some c) (hc : c.cls = .c1) (hs : c.suspended = false) :
    exec (.copyCompletion cid) s = .next (if c.acting then (if actionAccepted s c then copyGone s c else s)
      else if c.done.length = c.chunks.length then copyAct s c else s) := by
  have hexec : exec (.copyCompletion cid) s = execCopyCompletion cid s := rfl
  rw [hexec, execCopyCompletion, h]
  dsimp only
  rw [hc, hs]
  cases ha : c.acting with
  | true => rfl
  | false =>
    show (if c.done.length = c.chunks.length then _ else _) = Host.Outcome.next (if c.done.length = c.chunks.length then _ else _)
    split
    · rfl
    · rfl

theorem gridRepro_of_plain {s : State} {grid : Nat} (h : plainGrid s grid) : gridRepro s grid = false := gridRepro_plain h rfl

/-! ## A chunk in one step -/

theorem MemClosed.copyPages {P : State → Prop} (hP : MemClosed P) {s : State} (c : Copy) (acc : Access) (va : DWord) (n : Nat) (h : P s) :
    P (copyPages s c acc va n).2 := by
  unfold Sys2Proof.Machine.copyPages
  split
  · exact h
  next ctx _ =>
    dsimp only
    generalize List.range _ = js
    suffices hgen : ∀ r : Except PageFault (List (DWord × Nat × Nat)) × State, P r.2 → P (js.foldl _ r).2 from hgen (.ok [], s) h
    induction js with
    | nil => exact fun r h => h
    | cons j js ih =>
      refine fun r hr => ih _ ?_
      simp only
      split
      · exact hr
      next l _ =>
        have hw := hP.walkAccess ctx (BitVec.ofNat 64 (max va.toNat (0x1_0000 * (va.toNat / 0x1_0000 + j)))) acc c.sup hr
        split
        next hwa => rw [hwa] at hw; exact hw
        next hwa => rw [hwa] at hw; exact hw

theorem copyPages_walked (s : State) (c : Copy) (acc : Access) (va : DWord) (n : Nat) : Walked s (copyPages s c acc va n).2 := by
  unfold copyPages
  split
  · exact .refl s
  next ctx _ =>
    dsimp only
    generalize List.range _ = js
    suffices hgen : ∀ r : Except PageFault (List (DWord × Nat × Nat)) × State, Walked s r.2 → Walked s (js.foldl _ r).2 from
      hgen (.ok [], s) (.refl s)
    induction js with
    | nil => exact fun r h => h
    | cons j js ih =>
      refine fun r hr => ih _ ?_
      simp only
      split
      · exact hr
      next l _ =>
        have hw := hr.trans (walked_walkAccess r.2 ctx (BitVec.ofNat 64 (max va.toNat (0x1_0000 * (va.toNat / 0x1_0000 + j)))) acc c.sup)
        split
        next hwa => rw [hwa] at hw; exact hw
        next hwa => rw [hwa] at hw; exact hw

theorem wholeUnits_all {a n m : Nat} (h : n ≤ m) : wholeUnits a n m = n := if_pos h

theorem fullUnits_all {a n m : Nat} (h : n ≤ m) : fullUnits a n m = n := if_pos h

/-- A chunk of a global source read whole. -/
theorem readPart_whole {s s1 : State} {c : Copy} {k rd ps : Nat} {x : Chunk} (hp : c.parts = []) (h0 : 0 < x.len) (hrd : x.len ≤ rd)
    (hs : c.ssp = false) (hpg : copyPages s c .load x.src x.len = (.ok [(x.src, ps, x.len)], s1)) (hb : badGranule? s1 ps x.len = none)
    (hno : streamOf s1 c.team = []) :
    readPart s c k x rd = (none, s1, { c with parts := [{ num := k, read := memReadBytes s1.mem ps x.len, written := 0 }] }) := by
  have hpart : partOf c k = { num := k, read := [], written := 0 } := by rw [partOf, hp]; rfl
  have hrd0 : rd ≠ 0 := by omega
  have hlen : wholeUnits x.src.toNat x.len (0 + rd) = x.len := wholeUnits_all (by omega)
  unfold readPart
  rw [hpart]
  dsimp only [List.length_nil]
  simp only [hrd0, if_false, hlen, Nat.not_le.mpr h0, Nat.sub_zero, show x.src + BitVec.ofNat 64 0 = x.src from BitVec.add_zero _]
  rw [copyRead, if_neg (by rw [hs]; exact Bool.false_ne_true), hpg]
  dsimp only [List.findSome?]
  rw [hb]
  dsimp only
  rw [hno]
  simp only [List.isEmpty_nil, if_true, List.flatMap_cons, List.flatMap_nil, List.append_nil, List.nil_append, setPart, hp, List.filter_nil]

/-- A chunk written whole to global memory. -/
theorem copyWrite_whole {s s2 : State} {c : Copy} {x : Chunk} {pd : Nat} {bs : List Byte} (hd : c.dsp = false) (hl : bs.length = x.len)
    (h0 : 0 < x.len) (hpg : copyPages s c .store x.dst x.len = (.ok [(x.dst, pd, x.len)], s2)) (hb : partlyBad s2 pd x.len = none)
    (hno : copyTeam s2 c.team = false) :
    copyWrite s c x.dst x.len 0 bs = (none, noteZero (physWriteBytes (clearBad s2 pd x.len) pd bs) pd bs.length none) := by
  unfold copyWrite
  rw [hd, if_neg (by simp), hpg]
  dsimp only [List.findSome?]
  rw [hb]
  dsimp only
  have hno' : copyTeam (clearBad s2 pd x.len) c.team = false := hno
  simp only [hno, Bool.false_eq_true, if_false, List.foldl_cons, List.foldl_nil, hno']
  have ha : max (x.dst.toNat + 0) x.dst.toNat = x.dst.toNat := by omega
  have hb' : min (x.dst.toNat + 0 + bs.length) (x.dst.toNat + x.len) = x.dst.toNat + x.len := by omega
  have hparts : ([(x.dst, pd, x.len)].filterMap fun p =>
      if max (x.dst.toNat + 0) p.1.toNat < min (x.dst.toNat + 0 + bs.length) (p.1.toNat + p.2.2) then
        some (BitVec.ofNat 64 (max (x.dst.toNat + 0) p.1.toNat), p.2.1 + (max (x.dst.toNat + 0) p.1.toNat - p.1.toNat),
          (bs.drop (max (x.dst.toNat + 0) p.1.toNat - (x.dst.toNat + 0))).take
            (min (x.dst.toNat + 0 + bs.length) (p.1.toNat + p.2.2) - max (x.dst.toNat + 0) p.1.toNat)) else none) =
      [(BitVec.ofNat 64 x.dst.toNat, pd, bs)] := by
    simp only [List.filterMap_cons, List.filterMap_nil, ha, hb']
    rw [if_pos (by omega)]
    simp [hl]
  rw [hparts]
  rfl

theorem writePart_whole {s s2 : State} {c : Copy} {k wr pd : Nat} {x : Chunk} {bs : List Byte}
    (hp : c.parts = [{ num := k, read := bs, written := 0 }]) (hl : bs.length = x.len) (h0 : 0 < x.len) (hwr : x.len ≤ wr)
    {t : State} (hw : copyWrite s c x.dst x.len 0 bs = (none, t)) :
    writePart s c k x wr = (none, t, { c with parts := [{ num := k, read := bs, written := x.len }] }) := by
  have hpart : partOf c k = { num := k, read := bs, written := 0 } := by
    rw [partOf, hp, List.find?_cons_of_pos (by simp)]
    rfl
  have hupto : min (wholeUnits x.dst.toNat x.len (0 + wr)) (fullUnits x.dst.toNat x.len bs.length) = x.len := by
    rw [wholeUnits_all (by omega), fullUnits_all (by omega), Nat.min_self]
  have hpos : ¬ (wr = 0 ∨ x.len ≤ 0) := by omega
  have htake : (bs.drop 0).take (x.len - 0) = bs := by
    rw [List.drop_zero, Nat.sub_zero, ← hl, List.take_length]
  unfold writePart
  rw [hpart]
  simp only [hupto, hpos, if_false, htake, hw]
  simp [setPart, hp]

theorem endChunk_plain {s : State} {c : Copy} {k : Nat} {x : Chunk} {bs : List Byte}
    (hp : c.parts = [{ num := k, read := bs, written := x.len }]) (hb : c.bar = none) :
    ∃ d, endChunk s c k x = setCopy s { c with done := c.done ++ [k], parts := [], data := d } := by
  have hpart : partOf c k = { num := k, read := bs, written := x.len } := by
    rw [partOf, hp, List.find?_cons_of_pos (by simp)]
    rfl
  unfold endChunk
  rw [hpart]
  dsimp only
  rw [if_neg (Nat.lt_irrefl _), hb, hp]
  simp only [List.filter_cons, bne_self_eq_false, Bool.false_eq_true, if_false, List.filter_nil]
  exact ⟨_, rfl⟩

theorem exec_copyChunk {s : State} {cid k rd wr : Nat} {c : Copy} {x : Chunk} (h : copyOf s cid = some c) (hx : c.chunks[k]? = some x)
    (hcls : c.cls = .c1) (hst : c.stopped = false) (hsus : c.suspended = false) (hd : c.done.contains k = false)
    (hrun : copyMayRun s c = true) (hheld : chunkHeld c c.chunks k x = false) (hstop : copyStops s c k = false)
    (hm : unitMates c c.chunks k = [k]) : exec (.copyChunk cid ⟨k, rd, wr⟩) s = .next (performPart s c k x rd wr) := by
  have hexec : exec (.copyChunk cid ⟨k, rd, wr⟩) s = execCopyChunk cid ⟨k, rd, wr⟩ s := rfl
  rw [hexec, execCopyChunk, h]
  dsimp only
  rw [hx]
  dsimp only
  rw [hcls, hst, hsus, hd, hrun, hheld, hstop, hm]
  rfl

/-- The bytes of a run of memory, as they are read. -/
theorem memReadBytes_getD (m : List Host.Cell) (n : Nat) : ∀ (a i : Nat), i < n → (memReadBytes m a n).getD i memDefault = memRead m (a + i) := by
  induction n with
  | zero => exact fun _ _ h => absurd h (by omega)
  | succ n ih =>
    intro a i h
    cases i with
    | zero => rfl
    | succ i =>
      refine (ih (a + 1) i (by omega)).trans ?_
      rw [show a + 1 + i = a + (i + 1) by omega]

theorem memReadBytes_length (m : List Host.Cell) (n : Nat) : ∀ a, (memReadBytes m a n).length = n := by
  induction n with
  | zero => exact fun _ => rfl
  | succ n ih => exact fun a => congrArg (· + 1) (ih (a + 1))

/-! ## A chunk within scratchpad -/

/-- What an object's put and check are measured against may differ where they do not look. -/
theorem BarPut.against {s s' t : State} {tid off : Nat} {b : Bar} (h : BarPut s t tid off b) (hh : s'.handles = s.handles)
    (hg : s'.groups = s.groups) (hm : s'.mem = s.mem) (hr : s'.rings = s.rings) (ho : s'.ops = s.ops)
    (hb : ∀ x, handedAway s tid x 1 = false → spadRead s tid x 1 = spadRead s' tid x 1) (ht : ∀ k, k ≠ tid → teamOf s k = teamOf s' k) :
    BarPut s' t tid off b := by
  obtain ⟨⟨c, ps, hset, hbar, hwake⟩, hregs, ⟨m1, m2, m3⟩, hbytes, hteams⟩ := h
  have hof : ∀ n, groupOf s' n = groupOf s n := fun n => by rw [groupOf, groupOf, hg]
  refine ⟨⟨c, ps, hset, hbar, fun g p ph a => hwake g p ph ((hof _).symm.trans a)⟩, fun n g a => hregs n g ((hof n).symm.trans a),
    ⟨m1.trans hm.symm, m2.trans hr.symm, m3.trans ho.symm⟩, fun x hx hout => ?_, fun k hk => (hteams k hk).trans (ht k hk)⟩
  have hx' : handedAway s tid x 1 = false := (handedAway_handles hh ..).symm.trans hx
  exact (hbytes x hx' hout).trans (hb x hx')

/-- Bytes that land at a named object. -/
theorem landBytes_named {s : State} {tid off n lt : Nat} {tm : Team} (hids : IdsOk s) (hh : handedAway s tid off 16 = false)
    (ht : teamOf s tid = some tm) (hw : memWf tm.spad = true) (hn : named s tid off = true) :
    BarPut s (landBytes s tid off n lt).1 tid off { barAt s tid off with landed := min ((barAt s tid off).landed + n) (2 ^ 32 - 1) } ∧
    (landBytes s tid off n lt).1.grids = s.grids := by
  have hmeet : meetObj s tid off = s := by rw [meetObj, if_pos hn]
  have hfits : Bar.Fits { barAt s tid off with landed := min ((barAt s tid off).landed + n) (2 ^ 32 - 1) } := by
    obtain ⟨h1, h2, h3, h4, h5, h6⟩ := Bar.ofNat_fits (spadRead s tid off 16)
    exact ⟨h1, h2, h3, h4, h5, by show min _ (2 ^ 32 - 1) < 2 ^ 32; omega⟩
  obtain ⟨h1, -, h3, s2, h4, h5⟩ := put_check hids hh ht hw { barAt s tid off with landed := min ((barAt s tid off).landed + n) (2 ^ 32 - 1) }
    fun x => { x.event (barAt s tid off).phase lt with lots := x.lots ++ [(n, lt)] }
  rw [Bar.ofNat_toNat hfits] at h3
  have hland : landBytes s tid off n lt = barCheck (nameObj (putBar s tid off
      { barAt s tid off with landed := min ((barAt s tid off).landed + n) (2 ^ 32 - 1) }) tid off
      fun x => { x.event (barAt s tid off).phase lt with lots := x.lots ++ [(n, lt)] }) tid off := by
    rw [landBytes, hmeet]
  rw [hland]
  refine ⟨h3, ?_⟩
  obtain ⟨-, -, -, -, -, h6⟩ := h5.keeps
  have h7 := congrArg State.grids h4.rest
  exact h6.trans h7

theorem readPart_scratch {s : State} {c : Copy} {k rd : Nat} {x : Chunk} (hp : c.parts = []) (h0 : 0 < x.len) (hrd : x.len ≤ rd)
    (hs : c.ssp = true) : readPart s c k x rd =
      (none, s, { c with parts := [{ num := k, read := spadBytesAt s c.team x.src.toNat x.len, written := 0 }] }) := by
  have hpart : partOf c k = { num := k, read := [], written := 0 } := by rw [partOf, hp]; rfl
  have hrd0 : rd ≠ 0 := by omega
  have hlen : wholeUnits x.src.toNat x.len (0 + rd) = x.len := wholeUnits_all (by omega)
  unfold readPart
  rw [hpart]
  dsimp only [List.length_nil]
  simp only [hrd0, if_false, hlen, Nat.not_le.mpr h0, Nat.sub_zero, show x.src + BitVec.ofNat 64 0 = x.src from BitVec.add_zero _]
  rw [copyRead, if_pos hs]
  simp only [List.nil_append, setPart, hp, List.filter_nil]

theorem endChunk_bar {s : State} {c : Copy} {k off : Nat} {x : Chunk} {bs : List Byte}
    (hp : c.parts = [{ num := k, read := bs, written := x.len }]) (hb : c.bar = some off) :
    ∃ c', c'.cid = c.cid ∧ endChunk s c k x = settleKeys c.grid (landBytes (setCopy s c') c.team off x.len c.lt) := by
  have hpart : partOf c k = { num := k, read := bs, written := x.len } := by
    rw [partOf, hp, List.find?_cons_of_pos (by simp)]
    rfl
  unfold endChunk
  rw [hpart]
  dsimp only
  rw [if_neg (Nat.lt_irrefl _), hb]
  refine ⟨_, ?_, rfl⟩
  rfl

/-- A chunk read from scratchpad and written there, and the bytes it lands. -/
theorem performPart_scratch {s t : State} {c : Copy} {k rd wr off : Nat} {x : Chunk} (hp : c.parts = []) (h0 : 0 < x.len)
    (hrd : x.len ≤ rd) (hwr : x.len ≤ wr) (hs : c.ssp = true) (hd : c.dsp = true) (hb : c.bar = some off)
    (hw : settleKeys c.grid (spadWrite s c.team x.dst.toNat x.len (bytesToNat (spadBytesAt s c.team x.src.toNat x.len))) = t) :
    ∃ c', c'.cid = c.cid ∧ performPart s c k x rd wr = settleKeys c.grid (landBytes (setCopy t c') c.team off x.len c.lt) := by
  have hlen : (spadBytesAt s c.team x.src.toNat x.len).length = x.len := natToBytes_length ..
  have hread := readPart_scratch (s := s) (k := k) hp h0 hrd hs
  have hwrite : copyWrite s { c with parts := [{ num := k, read := spadBytesAt s c.team x.src.toNat x.len, written := 0 }] } x.dst x.len 0
      (spadBytesAt s c.team x.src.toNat x.len) = (none, t) := by
    rw [copyWrite, if_pos hd, hlen, Nat.add_zero, hw]
  have hpart := writePart_whole (k := k) (wr := wr) (s2 := s) (pd := 0) rfl hlen h0 hwr hwrite
  obtain ⟨c', hc', hend⟩ := endChunk_bar (s := t) (k := k) (x := x)
    (c := { c with parts := [{ num := k, read := spadBytesAt s c.team x.src.toNat x.len, written := x.len }] }) rfl hb
  refine ⟨c', hc', ?_⟩
  unfold performPart
  rw [hread]
  dsimp only
  rw [hpart]
  exact hend

/-! ## O39 -/

/-- Settles O39: COPY and its object commute; a chunk in one step is one read and one write. -/
theorem copyCommands : Obligations.CopyCommands := by
  unfold Obligations.CopyCommands
  refine ⟨?_, ?_, ?_, ?_, ?_⟩
  · intro f s u h hc b bar caddr hv ho hg hl hk ht he
    have hexec := exec_copy h hc hv ho hg hl hk ht he
    obtain ⟨rfl, -, -, hgr, -, -⟩ := issuer_state h
    obtain ⟨R, G, I, hst, hG, hI⟩ := copy_starts (f := f) hgr
    have hmet : ∃ T H, copyMet u f = { u.s with nextId := u.s.nextId + 1, groups := G, sredGroups := R, teams := T, handles := H } ∧
        (match bar with
         | some o => meetObj u.s u.g.team o
         | none => u.s) = { u.s with teams := T, handles := H } := by
      unfold copyMet
      rw [hst]
      cases hb : copyBar f with
      | true =>
        have hbar : bar = some (readNat u 0#64 false f.b 0) := if_pos hb
        rw [hbar]
        have h1 := spadOnly_meet u.g.team (readNat u 0#64 false f.b 0) u.s { u.s with nextId := u.s.nextId + 1, groups := G, sredGroups := R } rfl rfl
        have h2 := spadOnly_meet u.g.team (readNat u 0#64 false f.b 0) u.s u.s rfl rfl
        exact ⟨_, _, h1, h2⟩
      | false =>
        have hbar : bar = none := if_neg (by simp [hb])
        rw [hbar]
        exact ⟨u.s.teams, u.s.handles, rfl, rfl⟩
    obtain ⟨T, H, hmet1, hmet2⟩ := hmet
    rw [hmet1, hst] at hexec
    have hgs : groupOf (setGroup u.s (engAdd u.g (copyClass u f) u.s.nextId)) u.g.gid = some (engAdd u.g (copyClass u f) u.s.nextId) :=
      groupOf_setGroup hgr rfl
    refine ⟨_, _, hexec, rfl, ?_, ?_, fun n hn => ?_, ⟨?_, fun o hbo hsp => ?_⟩, hI⟩
    · exact ⟨copyClass_shape u f, rfl, rfl, rfl, rfl, rfl, rfl, rfl, rfl, rfl, rfl, rfl, rfl, rfl, rfl, rfl, rfl, rfl, rfl, rfl, rfl, rfl, rfl, rfl, rfl⟩
    · exact (congrArg (List.find? fun x : Group => x.gid == u.g.gid) hG).trans hgs
    · exact (congrArg (List.find? fun x : Group => x.gid == n) hG).trans (groupOf_setGroup_other hn)
    · exact Eq.trans (show _ = { u.s with teams := T, handles := H } from rfl) hmet2.symm
    · rw [hbo]
      have ht' : copyTrap u f b (some o) (caddr.getD 0#64) = none := by rw [← hbo]; exact ht
      obtain ⟨hh, tm, htm⟩ := copyTrap_bar ht'
      exact (meetObj_met hh htm (hsp.1 tm (List.mem_of_find?_eq_some htm))).met
  · intro s s1 s2 cid k rd wr ps pd c x h hx hcls hst hsus hd hrun hheld hstop hp hm h0 hrd hwr hbar hdsp hssp hok hpr hbr hcopy hpw hbw
    have hexec := exec_copyChunk (rd := rd) (wr := wr) h hx hcls hst hsus hd hrun hheld hstop hm
    have hcid := copyOf_cid h
    have hw1 : Walked s s1 := by
      have e := copyPages_walked s c .load x.src x.len
      rw [hpr] at e
      exact e
    have hw2 : Walked s1 s2 := by
      have e := copyPages_walked s1 c .store x.dst x.len
      rw [hpw] at e
      exact e
    have hok2 : MemOk s2 := by
      have e1 := memClosed_memOk.copyPages c .load x.src x.len hok
      rw [hpr] at e1
      have e2 := memClosed_memOk.copyPages c .store x.dst x.len e1
      rw [hpw] at e2
      exact e2
    have hteams1 : s1.teams = s.teams := by
      have e := congrArg State.teams hw1.1
      exact e
    have hteams2 : s2.teams = s.teams := by
      have e := congrArg State.teams hw2.1
      exact Eq.trans e hteams1
    have hcopies2 : s2.copies = s.copies := by
      have e1 := congrArg State.copies hw1.1
      have e2 := congrArg State.copies hw2.1
      exact Eq.trans e2 e1
    obtain ⟨tm, htm, hno⟩ : ∃ tm, teamOf s c.team = some tm ∧ tm.copyNo = 0 := by
      cases ht : teamOf s c.team with
      | none => rw [ht] at hcopy; cases hcopy
      | some tm =>
        rw [ht] at hcopy
        exact ⟨tm, rfl, Option.some.inj hcopy⟩
    have hstream : streamOf s1 c.team = [] := by
      rw [streamOf, teamOf_teams hteams1, htm]
      exact if_pos hno
    have hcopy2 : copyTeam s2 c.team = false := by
      rw [copyTeam, teamOf_teams hteams2, htm]
      simp [hno]
    have hlen := memReadBytes_length s1.mem x.len ps
    have hread := readPart_whole (k := k) hp h0 hrd hssp hpr hbr hstream
    have hwrite := copyWrite_whole (c := { c with parts := [{ num := k, read := memReadBytes s1.mem ps x.len, written := 0 }] }) hdsp hlen h0 hpw
      hbw hcopy2
    have hpart := writePart_whole (s2 := s2) (pd := pd) (k := k) (wr := wr) rfl hlen h0 hwr hwrite
    obtain ⟨d, hend⟩ := endChunk_plain (s := noteZero (physWriteBytes (clearBad s2 pd x.len) pd (memReadBytes s1.mem ps x.len)) pd
      (memReadBytes s1.mem ps x.len).length none) (k := k) (x := x)
      (c := { c with parts := [{ num := k, read := memReadBytes s1.mem ps x.len, written := x.len }] }) rfl hbar
    have hperf : performPart s c k x rd wr = setCopy (noteZero (physWriteBytes (clearBad s2 pd x.len) pd (memReadBytes s1.mem ps x.len)) pd
        (memReadBytes s1.mem ps x.len).length none) { c with done := c.done ++ [k], parts := [], data := d } := by
      unfold performPart
      rw [hread]
      dsimp only
      rw [hpart]
      exact hend
    rw [hperf] at hexec
    have hmem : ∀ y, memRead (memWriteBytes s2.mem pd (memReadBytes s1.mem ps x.len)) y = _ := fun y => memRead_writeBytes _ pd y hok2
    refine ⟨_, { c with done := c.done ++ [k], parts := [], data := d }, hexec, fun i hi => ?_, fun a ha => ?_, ?_, rfl, fun n hn => ?_, hteams2⟩
    · refine (hmem (pd + i)).trans ?_
      rw [if_pos (by omega), Nat.add_sub_cancel_left]
      exact memReadBytes_getD _ _ _ _ hi
    · refine (hmem a).trans ?_
      rw [if_neg (by omega)]
    · refine copyOf_setCopy (x := c) ?_ (by exact hcid)
      exact (congrArg (List.find? fun y : Copy => y.cid == cid) hcopies2).trans h
    · refine (copyOf_setCopy_other ?_).trans (congrArg (List.find? fun y : Copy => y.cid == n) hcopies2)
      show n ≠ c.cid
      rw [hcid]
      exact hn
  · intro s cid k rd wr c x off tm h hx hcls hst hsus hd hrun hheld hstop hp hm h0 hrd hwr hbar hdsp hssp hids hspads hplain hoff htm hhand
      hnm hdst
    have hexec := exec_copyChunk (rd := rd) (wr := wr) h hx hcls hst hsus hd hrun hheld hstop hm
    have hw : memWf tm.spad = true := hspads.1 tm (List.mem_of_find?_eq_some htm)
    have hfree : handedAway s c.team off 16 = false := by rw [handedAway, hhand]; rfl
    obtain ⟨m, t1, hup, hpat, hstored⟩ := spadUpdate_plain hdst h0 htm hw
      fun _ => bytesToNat (spadBytesAt s c.team x.src.toNat x.len)
    obtain ⟨m1, hput, hpat1⟩ := spadPut_here hdst.1 h0 htm hw (bytesToNat (spadBytesAt s c.team x.src.toNat x.len))
    obtain ⟨O, hO, rfl⟩ := hstored
    have htid := teamOf_tid htm
    have hset : settleKeys c.grid (spadWrite s c.team x.dst.toNat x.len (bytesToNat (spadBytesAt s c.team x.src.toNat x.len))) =
        setTeam s { tm with spad := m, objs := O } := by
      rw [spadWrite, hup]
      exact settleKeys_plain (s := setTeam s { tm with spad := m, objs := O }) (gridRepro_plain hplain rfl) []
    obtain ⟨c', hc', hperf⟩ := performPart_scratch (k := k) hp h0 hrd hwr hssp hdsp hbar hset
    have hteam : teamOf (setCopy (setTeam s { tm with spad := m, objs := O }) c') c.team = some { tm with spad := m, objs := O } :=
      (teamOf_setTeam htm htid : teamOf (setTeam s { tm with spad := m, objs := O }) c.team = _)
    have hnamed : named (setCopy (setTeam s { tm with spad := m, objs := O }) c') c.team off = true := by
      refine (named_same (s := setTeam s { tm with spad := m, objs := O }) (t := setCopy (setTeam s { tm with spad := m, objs := O }) c') rfl rfl ..).trans ?_
      exact (named_stored (m := m) htm ⟨O, hO, rfl⟩ c.team off).trans hnm
    have hfree' : handedAway (setCopy (setTeam s { tm with spad := m, objs := O }) c') c.team off 16 = false := hfree
    obtain ⟨hbp, hgrids⟩ := landBytes_named (s := setCopy (setTeam s { tm with spad := m, objs := O }) c') (n := x.len) (lt := c.lt) (idsOk_of hids rfl rfl) hfree' hteam (by exact hpat.1) hnamed
    have hread : ∀ y, memRead m y = memRead m1 y := fun y => (hpat.2 y).trans (hpat1.2 y).symm
    have hteam1 : teamOf (setTeam s { tm with spad := m1 }) c.team = some { tm with spad := m1 } := teamOf_setTeam htm htid
    have hbar1 : barAt (setCopy (setTeam s { tm with spad := m, objs := O }) c') c.team off =
        barAt (setTeam s { tm with spad := m1 }) c.team off := by
      rw [barAt, barAt, spadRead_here hfree' (by omega) hteam, spadRead_here (by exact hfree) (by omega) hteam1]
      exact congrArg Bar.ofNat (memReadN_congr 16 fun y _ _ => hread y)
    have hkeys := settleKeys_plain (gridRepro_plain hplain hgrids)
      (landBytes (setCopy (setTeam s { tm with spad := m, objs := O }) c') c.team off x.len c.lt).2
    rw [hperf] at hexec
    have hexec' := hexec.trans (congrArg Host.Outcome.next hkeys)
    refine ⟨_, hexec', ?_⟩
    dsimp only
    rw [show bytesToNat (natToBytes x.len (spadRead s c.team x.src.toNat x.len)) = bytesToNat (spadBytesAt s c.team x.src.toNat x.len) from rfl,
      hput, ← hbar1]
    refine (hbp.against (s' := setTeam s { tm with spad := m1 }) rfl rfl rfl rfl rfl (fun y hy => ?_) fun n hn => ?_).counted rfl rfl ?_ rfl rfl
      fun n g hg => ⟨g, hg, rfl⟩
    · have hy' : handedAway s c.team y 1 = false := hy
      rw [spadRead_here hy (by omega) hteam, spadRead_here (by exact hy') (by omega) hteam1]
      exact memReadN_congr 1 fun z _ _ => hread z
    · have h1 : teamOf (setTeam s { tm with spad := m, objs := O }) n = teamOf s n := teamOf_setTeam_other (by rw [← htid] at hn; exact hn)
      have h2 : teamOf (setTeam s { tm with spad := m1 }) n = teamOf s n := teamOf_setTeam_other (by rw [← htid] at hn; exact hn)
      exact h1.trans h2.symm
    · exact hbp.mem.2.2
  · intro s cid c h hcls hsus
    have hx := exec_copyCompletion h hcls hsus
    have hcid := copyOf_cid h
    subst hcid
    refine ⟨fun ha hd hk => ?_, fun ha hd hk => ?_, fun ha hd ty b0 hk hg => ?_, fun ha hacc => ?_⟩
    · rw [ha, if_neg (by simp), if_pos hd, copyAct, hk] at hx
      exact ⟨_, hx, copyGone_done s c⟩
    · rw [ha, if_neg (by simp), if_pos hd, copyAct_future hk] at hx
      exact ⟨_, _, hx, rfl, rfl, rfl, rfl, rfl, rfl, by
        show copyOf (setCopy _ _) _ = _
        refine copyOf_setCopy (n := c.cid) (x := c) (c := { c with acting := true, inst := some s.nextId }) ?_ rfl
        exact h⟩
    · have hno : (gridRepro s c.grid && !copyTeam s c.team) = false := by
        rcases hg with ht | hp
        · rw [ht]; simp
        · rw [gridRepro_of_plain hp]; rfl
      rw [ha, if_neg (by simp), if_pos hd, copyAct, hk] at hx
      have hno' : (gridRepro { s with nextId := s.nextId + 1 } c.grid && !copyTeam { s with nextId := s.nextId + 1 } c.team) = false := hno
      dsimp only [fresh] at hx
      rw [hno', if_neg (by simp)] at hx
      exact ⟨_, _, hx, rfl, rfl, rfl, rfl⟩
    · rw [ha, if_pos rfl, if_pos hacc] at hx
      exact ⟨_, hx, copyGone_done s c⟩
  · intro f s u h hc t hsi hv h63 hg
    obtain ⟨rfl, -⟩ := issuer_state h
    have hexec : exec (.waitc f) u.s = execWaitc f u.s := rfl
    have hn63 : ¬ 63 < t := by omega
    refine ⟨fun hle => ?_, fun hlt => ?_⟩
    · rw [hexec, execWaitc, runInstr_next h hc]
      dsimp only
      rw [hsi, hv, hg]
      simp only [Bool.not_true, Bool.or_self, Bool.false_eq_true, if_false]
      rw [if_neg hn63, if_neg (Nat.not_lt.mpr hle)]
      cases hw : waitcClass f with
      | c0 => exact ⟨_, rfl, rfl⟩
      | c1 => exact ⟨_, rfl, rfl⟩
      | c2 => exact ⟨_, rfl, rfl⟩
      | c3 => exact ⟨_, rfl, rfl⟩
    · rw [hexec, execWaitc, runInstr_next h hc]
      dsimp only
      rw [hsi, hv, hg]
      simp only [Bool.not_true, Bool.or_self, Bool.false_eq_true, if_false]
      rw [if_neg hn63, if_pos hlt]
      rfl

end Sys2Proof.Machine
end

section
/-!
SUPPORT. Fabric commands: what their reads leave, the elements of a reduction, and the window for other devices (08 R163, R164; 13 R241 to
R245).
-/
namespace Sys2Proof.Machine

/-! ## What the walks of a command leave -/

/-- Whether a context has a fabric window. -/
def fabricOf (s : State) (n : Nat) : Option Bool := (ctxOf s n).map Context.fabric

theorem fabricOf_setCtx {s : State} {c : Context} (h : fabricOf s c.num = some c.fabric) (n : Nat) : fabricOf (setCtx s c) n = fabricOf s n := by
  obtain ⟨x, hx, hf⟩ := Option.map_eq_some_iff.mp h
  by_cases hn : n = c.num
  · subst hn
    rw [h]
    exact congrArg (Option.map Context.fabric) (find_map_key Context.num s.contexts x c c.num rfl hx)
  · exact congrArg (Option.map Context.fabric) (find_map_other Context.num s.contexts c c.num n rfl hn)

theorem fabricOf_report (s : State) (r : DriverRec) (n : Nat) : fabricOf (report s r) n = fabricOf s n := by
  have hrec : ∀ c, ctxOf s r.ctx = some c → fabricOf (writeRec s c r) n = fabricOf s n := fun c hc => by
    have hn : c.num = r.ctx := ctxOf_num hc
    have hset := fabricOf_setCtx (s := s) (c := { c with tail := c.tail + 1 }) (by rw [fabricOf]; simp only [hn, hc]; rfl) n
    rw [← hset, fabricOf, ctxOf, writeRec_contexts]
    rfl
  unfold report
  split
  · rfl
  next c hc =>
    have hn : c.num = r.ctx := ctxOf_num hc
    split
    · split
      · exact hrec c hc
      · exact fabricOf_setCtx (s := physWrite s (c.fring + 16) 8 (c.drop + 1)) (c := { c with drop := c.drop + 1 })
          (by show Option.map Context.fabric (ctxOf s c.num) = _; rw [hn, hc]; rfl) n
    · split
      · exact hrec c hc
      · rfl

theorem fabricOf_orEntry (s : State) (ctx pa : Nat) (e : DWord) (m n : Nat) : fabricOf (orEntry s ctx pa e m) n = fabricOf s n := by
  unfold orEntry
  split
  · rfl
  split
  · exact fabricOf_report _ _ _
  · rfl

theorem fabricOf_copyPages (s : State) (c : Copy) (acc : Access) (va : DWord) (m n : Nat) :
    fabricOf (copyPages s c acc va m).2 n = fabricOf s n := by
  unfold copyPages
  split
  · rfl
  next ctx _ =>
    dsimp only
    generalize List.range _ = js
    suffices hgen : ∀ r : Except PageFault (List (DWord × Nat × Nat)) × State, fabricOf r.2 n = fabricOf s n →
        fabricOf (js.foldl _ r).2 n = fabricOf s n from hgen (.ok [], s) rfl
    induction js with
    | nil => exact fun r h => h
    | cons j js ih =>
      refine fun r hr => ih _ ?_
      simp only
      split
      · exact hr
      next l _ =>
        have hw := walkAccess_keeps (P := fun t => fabricOf t n = fabricOf s n) (fun t _ _ _ _ h => (fabricOf_orEntry t _ _ _ _ n).trans h)
          hr ctx (BitVec.ofNat 64 (max va.toNat (0x1_0000 * (va.toNat / 0x1_0000 + j)))) acc c.sup
        split
        next hwa => rw [hwa] at hw; exact hw
        next hwa => rw [hwa] at hw; exact hw

theorem copyRead_fabric (s : State) (c : Copy) (va : DWord) (m n : Nat) : fabricOf (copyRead s c va m).2 n = fabricOf s n := by
  have h := fabricOf_copyPages s c .load va m n
  unfold copyRead
  split
  · rfl
  split
  next he => rw [he] at h; exact h
  next he => rw [he] at h; split <;> exact h

theorem copyRead_walked (s : State) (c : Copy) (va : DWord) (m : Nat) : Walked s (copyRead s c va m).2 := by
  have h := copyPages_walked s c .load va m
  unfold copyRead
  split
  · exact .refl s
  split
  next he => rw [he] at h; exact h
  next he => rw [he] at h; split <;> exact h

theorem remoteRow_congr {s t : State} {c : Copy} (h : fabricOf t c.ctx = fabricOf s c.ctx) (spad : Bool) (va : DWord) :
    remoteRow t c spad va = remoteRow s c spad va := by
  have hmap : ∀ x : State, (ctxOf x c.ctx).map (fun y => inFabric y va) =
      (fabricOf x c.ctx).map fun b => b && va.getLsbD 56 && bits va 57 7 == 0 := fun x => by
    rw [fabricOf, Option.map_map]
    rfl
  rw [remoteRow, remoteRow, hmap t, hmap s, h]

theorem walked_copies {s t : State} (h : Walked s t) : t.copies = s.copies := (congrArg State.copies h.1 :)

theorem walked_remote {s t : State} (h : Walked s t) : t.remote = s.remote := (congrArg State.remote h.1 :)

theorem walked_copyOf {s t : State} (h : Walked s t) (n : Nat) : copyOf t n = copyOf s n := by
  rw [copyOf, copyOf, walked_copies h]

theorem rowAddr_zero (a : DWord) (st : Int) : rowAddr a st 0 = a := by simp [rowAddr]

theorem getD_memDefault (bs : List Byte) (i : Nat) : bs.getD i 0#8 = bs.getD i memDefault := rfl

/-! ## Commands of one row -/

/-- A row of this device sent to another: its bytes stand there, and the command's status is OK. -/
theorem c3Perform_sent {s s1 : State} {cid : Nat} {c : Copy} {bs : List Byte} (h : copyOf s cid = some c) (hb : c.bar = none)
    (hp : c.parts = []) (hr : c.rows = 1) (hd : remoteRow s c c.dsp c.dst = true) (hs : remoteRow s c c.ssp c.src = false)
    (hread : copyRead s c c.src c.rowBytes = (.ok bs, s1)) :
    c3Perform s c = setCopy { s1 with remote := memWriteBytes s1.remote c.dst.toNat bs } { c with status := some 0 } := by
  have hfab := copyRead_fabric s c c.src c.rowBytes c.ctx
  rw [hread] at hfab
  have hd1 : remoteRow s1 c c.dsp c.dst = true := (remoteRow_congr hfab _ _).trans hd
  have hrow : c3ReadRow s c 0 = (.ok bs, s1) := by
    unfold c3ReadRow
    simp only [rowAddr_zero, hs, Bool.false_eq_true, if_false, hread]
  have hrows : c3Rows s c = (.ok [(0, bs)], s1) := by
    rw [c3Rows, hp, if_pos List.isEmpty_nil, c3ReadAll, hr]
    simp only [List.range_succ, List.range_zero, List.nil_append, List.foldl_cons, List.foldl_nil, hrow]
    rfl
  have hwrite : c3WriteAll s1 c [(0, bs)] = (none, { s1 with remote := memWriteBytes s1.remote c.dst.toNat bs }) := by
    rw [c3WriteAll]
    simp only [List.foldl_cons, List.foldl_nil, c3WriteRow, rowAddr_zero, hd1, if_true]
  have hcom : c3Commit s1 c [(0, bs)] = setCopy { s1 with remote := memWriteBytes s1.remote c.dst.toNat bs } { c with status := some 0 } := by
    rw [c3Commit, hwrite]
    dsimp only
    rw [if_pos (by rw [hp]; rfl), c3Land, hb, c3Status]
    congr 1
    rw [← hp]
  rw [c3Perform, if_neg (by rw [rowsRead, hp]; simp), hrows]
  exact hcom

/-- A row read a part further is that part longer; every other row is as it was. -/
theorem setPart_longer (c : Copy) (k : Nat) (bs : List Byte) :
    let c' := setPart c { partOf c k with read := (partOf c k).read ++ bs }
    (partOf c' k).read = (partOf c k).read ++ bs ∧ (partOf c' k).written = (partOf c k).written ∧ { c' with parts := c.parts } = c ∧
      ∀ j, j ≠ k → partOf c' j = partOf c j := by
  have hnum : (partOf c k).num = k := by
    rw [partOf]
    cases hf : c.parts.find? (·.num == k) with
    | none => rfl
    | some p => exact beq_iff_eq.mp (List.find?_some (p := fun p : ChunkPart => p.num == k) hf)
  have hk : partOf (setPart c { partOf c k with read := (partOf c k).read ++ bs }) k = { partOf c k with read := (partOf c k).read ++ bs } := by
    conv_lhs => rw [partOf, setPart]
    dsimp only
    rw [List.find?_cons_of_pos (by simp [hnum])]
    rfl
  refine ⟨by rw [hk], by rw [hk], rfl, fun j hj => ?_⟩
  conv_lhs => rw [partOf, setPart]
  dsimp only
  rw [List.find?_cons_of_neg (by simp [hnum]; exact fun e => hj e.symm), List.find?_filter, partOf]
  congr 2
  funext p
  rw [partOf] at hnum
  rw [hnum]
  by_cases hp : p.num = j
  · simp [hp, hj]
  · simp [hp]

theorem wholeUnits_eq (a n m : Nat) : wholeUnits a n m = min n (8 * ((a + m + 7) / 8) - a) := by
  unfold wholeUnits
  split <;> omega

theorem c3RowStep_reads {s s1 : State} {k rd wr : Nat} {c : Copy} {bs : List Byte} (hmay : c3MayAct s c = true) (hk : k < c.rows)
    (hrem : remoteRow s c c.ssp (rowAddr c.src c.sstride k) = false) (hrd : 0 < rd)
    (hlt : (partOf c k).read.length < wholeUnits (rowAddr c.src c.sstride k).toNat c.rowBytes ((partOf c k).read.length + rd))
    (hread : copyRead s c (rowAddr c.src c.sstride k + BitVec.ofNat 64 (partOf c k).read.length)
      (wholeUnits (rowAddr c.src c.sstride k).toNat c.rowBytes ((partOf c k).read.length + rd) - (partOf c k).read.length) = (.ok bs, s1)) :
    c3RowStep s c ⟨k, rd, wr⟩ = setCopy s1 (setPart c { partOf c k with read := (partOf c k).read ++ bs }) := by
  have hpart : readPart s c k (rowChunk c k) rd = (none, s1, setPart c { partOf c k with read := (partOf c k).read ++ bs }) := by
    unfold readPart
    simp only [rowChunk, Nat.pos_iff_ne_zero.mp hrd, if_false, Nat.not_le.mpr hlt, hread]
  simp only [c3MayAct, Bool.and_eq_true, beq_iff_eq, Bool.not_eq_true', Option.isNone_iff_eq_none] at hmay
  obtain ⟨⟨⟨⟨hcls, hst⟩, hsus⟩, hnone⟩, hrun⟩ := hmay
  unfold c3RowStep
  simp only [hcls, hst, hsus, hrun, hnone, Nat.not_le.mpr hk, bne_self_eq_false, Bool.not_true, Bool.or_self, decide_false,
    Bool.false_eq_true, if_false, c3ReadPart, hrem, Bool.not_false, if_true, hpart]

/-! ## The window for other devices (13 R242) -/

theorem hostWrite_whole {s : State} {pa : Nat} {bs : List Byte} (h : partlyBad s pa bs.length = none) (hne : bs ≠ []) :
    (hostWrite s pa bs).mem = memWriteBytes s.mem pa bs := by
  rw [hostWrite, if_neg (by simpa using hne), if_pos (by rw [h]; rfl)]
  rfl

theorem incomingWrite_refused {s : State} {rows : List (Nat × List Byte)} (h : ∃ r ∈ rows, r.2 ≠ [] ∧ exportPages s true r.1 r.2.length = none) :
    incomingWrite s rows = s := by
  obtain ⟨r, hr, hne, hno⟩ := h
  rw [incomingWrite, if_neg]
  rw [List.all_eq_true]
  intro hall
  have := hall r (List.mem_filter.mpr ⟨hr, by simpa using hne⟩)
  rw [hno] at this
  cases this

theorem incomingWrite_row {s : State} {off pa : Nat} {data : List Byte} (hne : data ≠ [])
    (h : exportPages s true off data.length = some [(pa, 0, data.length)]) : incomingWrite s [(off, data)] = hostWrite s pa data := by
  have hf : ([(off, data)].filter fun r => !r.2.isEmpty) = [(off, data)] := List.filter_cons_of_pos (by simpa using hne)
  rw [incomingWrite, hf]
  simp only [List.all_cons, List.all_nil, h, Option.isSome_some, Bool.and_self, if_true, List.foldl_cons, List.foldl_nil, incomingRow,
    List.drop_zero, List.take_length]

theorem foldl_bind_none {α β : Type} (f : α → β → Option α) (bs : List β) : bs.foldl (fun acc b => acc.bind fun x => f x b) none = none := by
  induction bs with
  | nil => rfl
  | cons b bs ih => exact ih

theorem incomingBytes_refused {s : State} {rows : List (Nat × Nat)} (h : ∃ r ∈ rows, exportPages s false r.1 r.2 = none) :
    incomingBytes s rows = none := by
  rw [incomingBytes]
  generalize some ([] : List Byte) = a
  induction rows generalizing a with
  | nil => simp at h
  | cons r rows ih =>
    rw [List.foldl_cons]
    obtain ⟨x, hx, hno⟩ := h
    rcases List.mem_cons.mp hx with rfl | hx
    · rw [hno, show (a.bind fun l => (none : Option (List (Nat × Nat × Nat))).map _) = none by cases a <;> rfl]
      exact foldl_bind_none _ rows
    · exact ih ⟨x, hx, hno⟩ _

theorem incomingBytes_row {s : State} {off n pa : Nat} (h : exportPages s false off n = some [(pa, 0, n)]) :
    incomingBytes s [(off, n)] = some (outsideBytes s 0 pa n) := by
  rw [incomingBytes, List.foldl_cons, List.foldl_nil, Option.bind_some, h]
  rfl

theorem outsideBytes_getD {s : State} {start pa n i : Nat} (hi : i < n) (hb : s.badGranules.contains ((pa + i) / 32) = false) :
    (outsideBytes s start pa n).getD i 0#8 = memRead s.mem (pa + i) := by
  rw [outsideBytes, List.getD_eq_getElem?_getD, List.getElem?_map, List.getElem?_range hi, Option.map_some, Option.getD_some, hb,
    if_neg Bool.false_ne_true]

/-! ## Reductions -/

theorem sredBytes_pos (ty : Nat) : 0 < sredBytes ty := by rw [sredBytes]; split <;> decide

theorem bytesToNat_natToBytes (n v : Nat) : bytesToNat (natToBytes n v) = v % 256 ^ n := by
  induction n generalizing v with
  | zero => simp [natToBytes, bytesToNat, Nat.mod_one]
  | succ n ih =>
    have := ih (v / 256)
    simp only [bytesToNat] at this
    rw [natToBytes, bytesToNat, List.foldr_cons, this, BitVec.toNat_ofNat, Nat.pow_succ' (m := 256), show (2 : Nat) ^ 8 = 256 from rfl,
      Nat.mod_mul]

theorem sredElems_length (ty : Nat) (bs : List Byte) : (sredElems ty bs).length = bs.length / sredBytes ty := by simp [sredElems]

theorem natToBytes_flatMap_length (n : Nat) (vs : List Nat) : (vs.flatMap (natToBytes n)).length = n * vs.length := by
  induction vs with
  | nil => rfl
  | cons v vs ih => rw [List.flatMap_cons, List.length_append, natToBytes_length, ih, List.length_cons, Nat.mul_succ, Nat.add_comm]

theorem natToBytes_flatMap_piece (n : Nat) (vs : List Nat) (k : Nat) (hk : k < vs.length) :
    ((vs.flatMap (natToBytes n)).drop (k * n)).take n = natToBytes n (vs.getD k 0) := by
  induction vs generalizing k with
  | nil => simp at hk
  | cons v vs ih =>
    rw [List.flatMap_cons]
    cases k with
    | zero =>
      rw [Nat.zero_mul, List.drop_zero]
      exact List.take_left' (natToBytes_length n v)
    | succ k =>
      rw [show (k + 1) * n = (natToBytes n v).length + k * n by rw [natToBytes_length, Nat.succ_mul, Nat.add_comm], List.drop_append]
      simp only [Nat.add_sub_cancel_left, List.getD_cons_succ]
      rw [List.drop_eq_nil_of_le (by omega), List.nil_append]
      exact ih k (by simpa using hk)

/-- The elements of the bytes of numbers are the numbers, as wide as an element. -/
theorem sredElems_bytes (ty : Nat) (vs : List Nat) (k : Nat) (hk : k < vs.length) :
    (sredElems ty (vs.flatMap (natToBytes (sredBytes ty)))).getD k 0 = vs.getD k 0 % 256 ^ sredBytes ty := by
  rw [sredElems, natToBytes_flatMap_length, Nat.mul_div_cancel_left _ (sredBytes_pos ty), List.getD_eq_getElem?_getD, List.getElem?_map,
    List.getElem?_range hk, Option.map_some, Option.getD_some, natToBytes_flatMap_piece _ _ _ hk, bytesToNat_natToBytes]

theorem foldl_zipWith {α : Type} (f : Nat → Nat → Nat) (F : α → List Nat) (rest : List α) (n k : Nat) (hk : k < n) :
    ∀ x : List Nat, x.length = n → (∀ b ∈ rest, (F b).length = n) →
    ((rest.map F).foldl (fun acc y => List.zipWith f acc y) x).length = n ∧
    ((rest.map F).foldl (fun acc y => List.zipWith f acc y) x).getD k 0 = rest.foldl (fun acc b => f acc ((F b).getD k 0)) (x.getD k 0) := by
  induction rest with
  | nil => exact fun x hx _ => ⟨hx, rfl⟩
  | cons b rest ih =>
    intro x hx hall
    have hb := hall b List.mem_cons_self
    have hstep : (List.zipWith f x (F b)).getD k 0 = f (x.getD k 0) ((F b).getD k 0) := by
      rw [List.getD_eq_getElem _ _ (by rw [List.length_zipWith]; omega), List.getElem_zipWith, List.getD_eq_getElem _ _ (by omega),
        List.getD_eq_getElem _ _ (by omega)]
    have := ih (List.zipWith f x (F b)) (by rw [List.length_zipWith]; omega) fun y hy => hall y (List.mem_cons_of_mem _ hy)
    rw [hstep] at this
    exact this

theorem sredReduce_elem (op ty : Nat) (x : List Byte) (rest : List (List Byte)) (k : Nat) (hlen : ∀ b ∈ rest, b.length = x.length)
    (hk : k < x.length / sredBytes ty) :
    (sredElems ty (sredReduce op ty (x :: rest))).getD k 0 =
      (rest.foldl (fun acc b => sredOp op ty acc ((sredElems ty b).getD k 0)) ((sredElems ty x).getD k 0)) % 256 ^ sredBytes ty := by
  obtain ⟨h1, h2⟩ := foldl_zipWith (sredOp op ty) (sredElems ty) rest _ k hk (sredElems ty x) (sredElems_length ty x) fun b hb => by
    rw [sredElems_length, hlen b hb]
  rw [← h2]
  exact sredElems_bytes ty _ k (by rw [h1]; exact hk)

theorem c3Commit_written {s t : State} {c : Copy} {rows : List (Nat × List Byte)} (hb : c.bar = none) (hp : c.parts = [])
    (h : c3WriteAll s c rows = (none, t)) : c3Commit s c rows = setCopy t { c with status := some 0 } := by
  rw [c3Commit, h]
  dsimp only
  rw [if_pos (by rw [hp]; rfl), c3Land, hb, c3Status]
  congr 1
  rw [← hp]

theorem abortInst_leaves (s : State) (grp inst : Nat) : sredAborted (abortInst s grp inst) grp inst = true ∧
    (abortInst s grp inst).mem = s.mem ∧ (abortInst s grp inst).copies.length = s.copies.length := by
  have hab : ∀ t : State, sredAborted (putInst t ⟨grp, inst,
      ((s.sredInsts.find? fun x => x.group == grp && x.inst == inst).map SredInst.first).getD s.clock.toNat, true⟩) grp inst = true := fun t => by
    rw [sredAborted, putInst]
    simp
  unfold abortInst
  dsimp only
  split
  · exact ⟨hab s, rfl, List.length_map _⟩
  · exact ⟨hab s, rfl, rfl⟩

/-! ## Completion -/

theorem copyGone_copies (s : State) (c : Copy) : ∀ x ∈ (copyGone s c).copies, x.cid ≠ c.cid := fun x hx =>
  ((copyGone_done s c).1 x).mp hx |>.2

theorem wrote_of_mem {s t t' : State} {pa n v : Nat} (h : Wrote s t pa n v) (hm : t'.mem = t.mem) : Wrote s t' pa n v := by
  refine ⟨?_, fun x hx => ?_⟩
  · rw [physRead, hm]; exact h.1
  · rw [hm]; exact h.2 x hx

theorem c3Finish_local {s s1 : State} {c : Copy} {a : DWord} {pd st : Nat} (ha : c.caddr = some a) (hrem : remoteRow s c false a = false)
    (hpg : copyPages s c .store a 8 = (.ok [(a, pd, 8)], s1)) (hb : partlyBad s1 pd 8 = none) (ht : copyTeam s c.team = false) (hok : MemOk s1) :
    Wrote s1 (c3Finish s c st) pd 8 st ∧ ∀ x ∈ (c3Finish s c st).copies, x.cid ≠ c.cid := by
  have hw := copyPages_walked s c .store a 8
  rw [hpg] at hw
  have hteams : s1.teams = s.teams := (congrArg State.teams hw.1 :)
  have hwrite := copyWrite_whole (s := s) (s2 := s1) (c := { c with dsp := false }) (x := { row := 0, src := 0#64, dst := a, len := 8 }) (pd := pd)
    (bs := natToBytes 8 st) rfl (natToBytes_length 8 st) (Nat.succ_pos 7) hpg hb
    (by rw [copyTeam, teamOf_teams hteams]; exact ht)
  have hfin : c3Finish s c st = copyGone (noteZero (physWriteBytes (clearBad s1 pd 8) pd (natToBytes 8 st)) pd (natToBytes 8 st).length none) c := by
    unfold c3Finish
    split
    next hn => rw [ha] at hn; cases hn
    next b hb =>
      obtain rfl : b = a := Option.some.inj (hb.symm.trans ha)
      rw [hrem, if_neg Bool.false_ne_true, show copyWrite s { c with dsp := false } b 8 0 (natToBytes 8 st) = _ from hwrite]
  rw [hfin]
  refine ⟨wrote_of_mem (wrote_physWrite (s := s1) (pa := pd) (n := 8) (v := st) hok) ?_, copyGone_copies _ c⟩
  exact (copyGone_done _ c).2.1

theorem c3Finish_remote {s : State} {c : Copy} {a : DWord} {st : Nat} (ha : c.caddr = some a) (hrem : remoteRow s c false a = true)
    (hok : memWf s.remote = true) (hst : st < 2 ^ 64) :
    (c3Finish s c st).mem = s.mem ∧ memReadN (c3Finish s c st).remote a.toNat 8 = st ∧ ∀ x ∈ (c3Finish s c st).copies, x.cid ≠ c.cid := by
  have hfin : c3Finish s c st = copyGone { s with remote := memWriteBytes s.remote a.toNat (natToBytes 8 st) } c := by
    rw [c3Finish, ha]
    dsimp only
    rw [hrem, if_pos rfl]
  obtain ⟨_, hmem, _, _, _, hrest⟩ := copyGone_done { s with remote := memWriteBytes s.remote a.toNat (natToBytes 8 st) } c
  have hrem' : (copyGone { s with remote := memWriteBytes s.remote a.toNat (natToBytes 8 st) } c).remote =
      memWriteBytes s.remote a.toNat (natToBytes 8 st) := (congrArg State.remote hrest :)
  rw [hfin]
  refine ⟨hmem, ?_, copyGone_copies _ c⟩
  rw [hrem', ← memWriteN_bytes, memReadN_bytes _ 8 a.toNat st fun j hj => ?_, show (256 : Nat) ^ 8 = 2 ^ 64 from rfl, Nat.mod_eq_of_lt hst]
  rw [memRead_writeN hok, if_pos (by omega), Nat.add_sub_cancel_left]

theorem exec_c3CompletionRecord {s : State} {cid st : Nat} {c : Copy} (h : copyOf s cid = some c) (hst : c.status = some st)
    (hcls : c.cls = .c3) (hstop : c.stopped = false) (hp : st = 0 → c.parts = []) :
    exec (.c3CompletionRecord cid) s = .next (c3Finish s c st) := by
  have hexec : exec (.c3CompletionRecord cid) s = execC3CompletionRecord cid s := rfl
  have hpar : (st != 0 || c.parts.isEmpty) = true := by
    by_cases h0 : st = 0
    · rw [hp h0]; simp
    · simp [h0]
  rw [hexec, execC3CompletionRecord, h]
  dsimp only
  rw [hst]
  dsimp only
  rw [hcls, hstop, hpar]
  rfl

/-- Settles O40: each kind of command and event by the rule of its step. -/
theorem fabricCommands : Obligations.FabricCommands := by
  unfold Obligations.FabricCommands
  refine ⟨?_, ?_, ?_, ?_, ?_, ?_, ?_, ?_⟩
  · intro s cid c h hmay hsred
    have hexec : ∀ bad, exec (.remoteCopyWrite (.outgoing cid bad)) s = .next (if bad then c3Status s c 2 else c3Perform s c) := fun bad => by
      have : exec (.remoteCopyWrite (.outgoing cid bad)) s = execRemoteCopyWrite (.outgoing cid bad) s := rfl
      rw [this, execRemoteCopyWrite]
      simp only [h, hmay, hsred, Bool.not_true, Bool.false_eq_true, if_false]
    refine ⟨hexec true, ?_⟩
    intro s1 bs hb hp hr hd hs hread hok
    have hw := copyRead_walked s c c.src c.rowBytes
    rw [hread] at hw
    have h1 : copyOf s1 cid = some c := (walked_copyOf hw cid).trans h
    have hmem : ∀ y, memRead (memWriteBytes s1.remote c.dst.toNat bs) y = _ := fun y => memRead_writeBytes bs c.dst.toNat y
      (by rw [walked_remote hw]; exact hok)
    refine ⟨_, (hexec false).trans (congrArg _ (c3Perform_sent (c := c) h hb hp hr hd hs hread)), rfl, fun i hi => ?_, fun a ha => ?_, ?_⟩
    · refine (hmem _).trans ?_
      rw [if_pos (by omega), Nat.add_sub_cancel_left]
      rfl
    · refine (hmem _).trans ?_
      rw [if_neg (by omega), walked_remote hw]
    · exact copyOf_setCopy (s := { s1 with remote := memWriteBytes s1.remote c.dst.toNat bs }) (c := { c with status := some 0 }) (x := c)
        h1 (show c.cid = cid from copyOf_cid h)
  · intro s s1 cid k rd wr c bs h hmay hk a have' upto hrem hrd hlt hread
    have hupto : upto = wholeUnits (rowAddr c.src c.sstride k).toNat c.rowBytes ((partOf c k).read.length + rd) := by
      rw [wholeUnits_eq]
      show min _ (8 * ((a.toNat + have' + rd + 7) / 8) - a.toNat) = _
      rw [Nat.add_assoc a.toNat have' rd]
    rw [hupto] at hlt hread
    have hexec : exec (.remoteCopyWrite (.row cid ⟨k, rd, wr⟩)) s = .next (c3RowStep s c ⟨k, rd, wr⟩) := by
      have : exec (.remoteCopyWrite (.row cid ⟨k, rd, wr⟩)) s = execRemoteCopyWrite (.row cid ⟨k, rd, wr⟩) s := rfl
      rw [this, execRemoteCopyWrite, h]
    exact ⟨_, hexec.trans (congrArg _ (c3RowStep_reads hmay hk hrem hrd hlt hread)), setPart_longer c k bs⟩
  · intro s rows asked
    have hwrite : exec (.remoteCopyWrite (.incoming rows)) s = .next (incomingWrite s rows) := rfl
    have hread : exec (.remoteCopyWrite (.incomingRead asked)) s = .next (match incomingBytes s (asked.filter fun r => r.2 != 0) with
      | some bs => { s with remoteReads := bs :: s.remoteReads, freeCtr := s.freeCtr + 1 }
      | none => s) := rfl
    refine ⟨fun hno => hwrite.trans (congrArg _ (incomingWrite_refused hno)), ?_, ?_, ?_⟩
    · intro off data pa hrows hne hpg hbad hok
      subst hrows
      have hmem := hostWrite_whole hbad hne
      refine ⟨_, hwrite.trans (congrArg _ (incomingWrite_row hne hpg)), fun i hi => ?_, fun a ha => ?_⟩
      · rw [hmem, memRead_writeBytes _ _ _ hok, if_pos (by omega), Nat.add_sub_cancel_left]
        rfl
      · rw [hmem, memRead_writeBytes _ _ _ hok, if_neg (by omega)]
    · rintro ⟨r, hr, hne, hno⟩
      rw [hread, incomingBytes_refused ⟨r, List.mem_filter.mpr ⟨hr, by simpa using hne⟩, hno⟩]
    · intro off n pa hasked hn hpg
      subst hasked
      have hf : ([(off, n)].filter fun r => r.2 != 0) = [(off, n)] := List.filter_cons_of_pos (by simpa using hn)
      rw [hf, incomingBytes_row hpg] at hread
      exact ⟨_, hread, by simp [outsideBytes], fun i hi hb => outsideBytes_getD hi hb⟩
  · intro s grp inst op ty agree others c g hc hk hb hp hg
    have hexec : exec (.sredInstanceReduce grp inst agree others) s =
        (if sredAborted s grp inst then .next (c3Status s c 1)
        else if sredLate s g inst then .next s else .next (sredComplete s g c op ty agree others)) := by
      have : exec (.sredInstanceReduce grp inst agree others) s = execSredInstanceReduce grp inst agree others s := rfl
      rw [this, execSredInstanceReduce, hc, hg]
      dsimp only
      rw [hk]
    refine ⟨fun hab => ?_, fun hab hlate s1 rows xs hread hxs => ?_⟩
    · rw [hexec, if_pos hab]
      rfl
    · rw [hab, hlate, if_neg Bool.false_ne_true, if_neg Bool.false_ne_true] at hexec
      have hcom : sredComplete s g c op ty agree others =
          (if !agree || !g.devices.contains Config.deviceNumber || xs.any (fun b => b.length != (rows.flatMap Prod.snd).length) then c3Status s1 c 2
          else c3Commit s1 c (rowsOf c (sredReduce op ty xs))) := by
        rw [sredComplete, if_neg (by rw [rowsRead, hp]; simp), c3Rows, if_pos (by rw [hp]; rfl), hread]
        dsimp only
        rw [hxs]
      refine ⟨fun hbad => ?_, fun ha hd hlen s2 hw => ?_⟩
      · rw [hexec, hcom, if_pos]
        · rfl
        · simp only [Bool.or_eq_true, Bool.not_eq_true', List.any_eq_true, bne_iff_ne, or_assoc]
          exact hbad
      · rw [hexec, hcom, if_neg, c3Commit_written hb hp hw]
        simp only [Bool.or_eq_true, Bool.not_eq_true', List.any_eq_true, bne_iff_ne, ha, hd, Bool.true_eq_false, false_or]
        rintro ⟨b, hbm, hne⟩
        exact hne (hlen b hbm)
  · exact sredReduce_elem
  · intro s grp inst g hg hab
    have hexec : ∀ e, exec (.sredTimeoutAbort grp ⟨inst, e⟩) s = match e with
        | .arrived => .next (if s.sredInsts.any fun x => x.group == grp && x.inst == inst then s
            else putInst s { group := grp, inst, first := s.clock.toNat, aborted := false })
        | .late => .next (if sredLate s g inst then abortInst s grp inst else s)
        | .full bytes others => .next (if sredOverflows g bytes others then abortInst s grp inst else s) := fun e => by
      have : exec (.sredTimeoutAbort grp ⟨inst, e⟩) s = execSredTimeoutAbort grp ⟨inst, e⟩ s := rfl
      rw [this, execSredTimeoutAbort]
      dsimp only
      rw [hg]
      dsimp only
      rw [hab, if_neg Bool.false_ne_true] <;> cases e <;> rfl
    refine ⟨fun e he => ⟨abortInst s grp inst, ?_, abortInst_leaves s grp inst⟩, fun hl => ?_, fun x hx hgn hin hlt => ?_, fun hno => ?_⟩
    · rw [hexec]
      rcases he with ⟨rfl, hl⟩ | ⟨n, m, rfl, hlt⟩
      · dsimp only
        rw [hl, if_pos rfl]
      · dsimp only
        rw [sredOverflows, if_pos (decide_eq_true hlt)]
    · rw [hexec]
      dsimp only
      rw [hl, if_neg Bool.false_ne_true]
    · rw [sredLate, List.any_eq_true]
      exact ⟨x, hx, by simp only [hgn, hin, beq_self_eq_true, Bool.true_and]; exact decide_eq_true hlt⟩
    · rw [hexec]
      dsimp only
      rw [hno, if_neg Bool.false_ne_true, putInst]
      have hall : (s.sredInsts.filter fun y => !(y.group == grp && y.inst == inst)) = s.sredInsts := by
        refine List.filter_eq_self.mpr fun y hy => ?_
        rw [List.any_eq_false] at hno
        have := hno y hy
        simpa only [Bool.not_eq_true'] using Bool.eq_false_iff.mpr this
      rw [hall]
  · intro s l
    have hexec : exec (.linkLoss l) s = execLinkLoss l s := rfl
    rw [hexec, execLinkLoss]
    congr 2
    refine List.map_congr_left fun c _ => ?_
    refine if_congr ?_ rfl rfl
    simp [and_assoc]
  · intro s cid st c h hst hcls hstop hp
    have hexec := exec_c3CompletionRecord h hst hcls hstop hp
    have hcid := copyOf_cid h
    refine ⟨fun hno => ⟨_, hexec, ?_⟩, fun s1 a pd ha hrem hpg hb ht hok hlt => ⟨_, hexec, ?_⟩, fun a ha hrem hok hlt => ⟨_, hexec, ?_⟩⟩
    · rw [c3Finish, hno]
      exact copyGone_done s c
    · rw [← hcid]
      have hok1 := memClosed_memOk.copyPages c .store a 8 hok
      rw [hpg] at hok1
      exact c3Finish_local ha hrem hpg hb ht hok1
    · rw [← hcid]
      exact c3Finish_remote ha hrem hok hlt

end Sys2Proof.Machine
end

section
/-!
SUPPORT. The queue unit: what its reads leave, what the taking of a packet leaves, and that the capacity of a grid does not hang
on the model's numbers (01 R15, R21, R24; 12 R220 to R226, R401).
-/
namespace Sys2Proof.Machine

/-! ## Capacity -/

/-- How teams and groups fill the cores, and where the next team is offered first. -/
structure SameFill (s t : State) : Prop where
  groups : s.groups.map (fun g => (g.core, g.quarter, g.place, g.vregs.length, g.phys.length)) =
    t.groups.map fun g => (g.core, g.quarter, g.place, g.vregs.length, g.phys.length)
  teams : s.teams.map (fun x => (x.core, x.place, x.spadSize)) = t.teams.map fun x => (x.core, x.place, x.spadSize)
  none : s.handles = [] ∧ t.handles = []
  last : s.lastCore = t.lastCore
  opened : ∀ c, coreOpen s c = coreOpen t c

theorem map_filter_congr {α β γ : Type} (f : α → β) (p : β → Bool) (h : β → γ) {l l' : List α} (e : l.map f = l'.map f) :
    (l.filter fun x => p (f x)).map (fun x => h (f x)) = (l'.filter fun x => p (f x)).map fun x => h (f x) := by
  have hl : ∀ m : List α, (m.filter fun x => p (f x)).map (fun x => h (f x)) = ((m.map f).filter p).map h := fun m => by
    rw [List.filter_map, List.map_map]
    rfl
  rw [hl, hl, e]

theorem SameFill.room {s t : State} (h : SameFill s t) (c : Nat) : roomOf s c = roomOf t c := by
  have hgs : ∀ (γ : Type) (q : Nat) (k : Nat × Nat × Place × Nat × Nat → γ),
      (((s.groups.filter fun g => g.core == c && g.place == .resident).filter (·.quarter == q)).map
        fun g => k (g.core, g.quarter, g.place, g.vregs.length, g.phys.length)) =
      ((t.groups.filter fun g => g.core == c && g.place == .resident).filter (·.quarter == q)).map
        fun g => k (g.core, g.quarter, g.place, g.vregs.length, g.phys.length) := fun γ q k => by
    rw [List.filter_filter, List.filter_filter]
    exact map_filter_congr (fun g : Group => (g.core, g.quarter, g.place, g.vregs.length, g.phys.length))
      (fun x => x.2.1 == q && (x.1 == c && x.2.2.1 == .resident)) k h.groups
  have hts : ∀ (γ : Type) (k : Nat × Place × Nat → γ),
      (s.teams.filter fun x => x.core == c && x.place == .resident).map (fun x => k (x.core, x.place, x.spadSize)) =
      (t.teams.filter fun x => x.core == c && x.place == .resident).map fun x => k (x.core, x.place, x.spadSize) := fun γ k =>
    map_filter_congr (fun x : Team => (x.core, x.place, x.spadSize)) (fun x => x.1 == c && x.2.1 == .resident) k h.teams
  have hlen : ∀ q, ((s.groups.filter fun g => g.core == c && g.place == .resident).filter (·.quarter == q)).length =
      ((t.groups.filter fun g => g.core == c && g.place == .resident).filter (·.quarter == q)).length := fun q => by
    have := congrArg List.length (hgs Unit q fun _ => ())
    rwa [List.length_map, List.length_map] at this
  have htl := congrArg List.length (hts Unit fun _ => ())
  rw [List.length_map, List.length_map] at htl
  unfold roomOf
  simp only [hlen, htl, hgs Nat _ fun x => x.2.2.2.1, hgs Nat _ fun x => x.2.2.2.2, hts Nat fun x => x.2.2, h.none.1, h.none.2,
    List.map_nil]

theorem SameFill.offer {s t : State} (h : SameFill s t) (needs : List (Nat × Nat)) (spad : Nat) (pan : Bool) (skip : List Nat) :
    Sys2Proof.Machine.offer s needs spad pan skip = Sys2Proof.Machine.offer t needs spad pan skip := by
  unfold Sys2Proof.Machine.offer coreOrder
  simp only [h.last, h.opened, h.room]

theorem coreOpen_acquireDev (s : State) (c k : Nat) : coreOpen (acquireDev s c) k = coreOpen s k := by
  have hact : (coreOf (acquireDev s c) k).active = (coreOf s k).active := by
    unfold acquireDev
    by_cases hk : k = c
    · subst hk
      by_cases hl : k < s.cores.length
      · rw [coreOf_setCore _ _ _ hl]
      · rw [setCore, List.set_eq_of_length_le (Nat.le_of_not_lt hl)]
    · rw [coreOf_setCore_other _ _ hk]
  rw [coreOpen, hact]
  rfl

/-- Of two states filled alike, a team placed on a core leaves two that are filled alike. -/
theorem SameFill.create {s t : State} (h : SameFill s t) (gr : Grid) (i no c : Nat) (qs : List Nat) (lbase : Nat) :
    SameFill (createTeam s gr i no c qs lbase) (createTeam t gr i no c qs lbase) := by
  have hstart : ∀ (x y : State) (tx ty : Team), tx.core = ty.core → tx.place = ty.place → tx.spadSize = ty.spadSize → SameFill x y →
      SameFill (acquireDev { x with teams := x.teams ++ [tx], lastCore := c } c) (acquireDev { y with teams := y.teams ++ [ty], lastCore := c } c) :=
    fun x y tx ty h1 h2 h3 hxy => ⟨hxy.groups, by
      show (x.teams ++ [tx]).map _ = (y.teams ++ [ty]).map _
      rw [List.map_append, List.map_append, hxy.teams]
      simp only [List.map_cons, List.map_nil, h1, h2, h3], hxy.none, rfl, fun k => by
      rw [coreOpen_acquireDev, coreOpen_acquireDev]
      exact hxy.opened k⟩
  have hadd : ∀ (ls : List (Nat × Nat × Nat)) (tx ty : Team), tx.core = ty.core → ∀ x y : State, SameFill x y →
      SameFill (ls.foldl (addLaunched gr tx lbase) x) (ls.foldl (addLaunched gr ty lbase) y) := by
    intro ls tx ty hc
    induction ls with
    | nil => exact fun x y h => h
    | cons l ls ih =>
      refine fun x y hxy => ih _ _ ⟨?_, hxy.teams, hxy.none, hxy.last, hxy.opened⟩
      show (x.groups ++ [_]).map _ = (y.groups ++ [_]).map _
      rw [List.map_append, List.map_append, hxy.groups]
      simp only [List.map_cons, List.map_nil, startGroup, hc]
  unfold createTeam
  apply hadd
  · rfl
  · exact hstart { s with nextId := s.nextId + 1 } { t with nextId := t.nextId + 1 } _ _ rfl rfl rfl
      ⟨h.groups, h.teams, h.none, h.last, h.opened⟩

/-- Two placings that place alike, or fail alike. -/
def BothPlace : Except State State → Except State State → Prop
  | .ok s, .ok t => SameFill s t
  | .error _, .error _ => True
  | _, _ => False

theorem SameFill.placeRun {s t : State} (h : SameFill s t) (gr : Grid) (i no : Nat) (skip : List Nat) (lbase : Nat) :
    BothPlace (Sys2Proof.Machine.placeRun s gr i no skip lbase) (Sys2Proof.Machine.placeRun t gr i no skip lbase) := by
  unfold Sys2Proof.Machine.placeRun
  rw [← h.offer]
  cases Sys2Proof.Machine.offer s (descNeeds gr.desc) (roundGranule gr.desc.spad) false skip with
  | none => trivial
  | some x => exact h.create gr i no x.1 x.2 lbase

theorem SameFill.placeTeam {s t : State} (h : SameFill s t) (gr : Grid) (lbase : Nat) (u : Nat × RunKind) :
    BothPlace (Sys2Proof.Machine.placeTeam s gr lbase u) (Sys2Proof.Machine.placeTeam t gr lbase u) := by
  unfold Sys2Proof.Machine.placeTeam
  split
  · exact h.placeRun gr u.1 0 [] lbase
  · exact h.placeRun gr u.1 3 _ lbase
  · have h1 := h.placeRun gr u.1 1 [] lbase
    generalize Sys2Proof.Machine.placeRun s gr u.1 1 [] lbase = a at h1 ⊢
    generalize Sys2Proof.Machine.placeRun t gr u.1 1 [] lbase = b at h1 ⊢
    cases a with
    | error _ =>
      cases b with
      | error _ => trivial
      | ok _ => exact h1.elim
    | ok s1 =>
      cases b with
      | error _ => exact h1.elim
      | ok t1 =>
        have h1 : SameFill s1 t1 := h1
        dsimp only
        rw [show [s1.lastCore] = [t1.lastCore] by rw [h1.last]]
        have hc : ∀ C D, SameFill { s1 with checks := C } { t1 with checks := D } := fun _ _ =>
          ⟨h1.groups, h1.teams, h1.none, h1.last, h1.opened⟩
        exact (hc _ _).placeRun gr u.1 2 _ lbase

theorem SameFill.count (gr : Grid) (fuel : Nat) : ∀ (i : Nat) {s t : State}, SameFill s t → countPlaced gr fuel i s = countPlaced gr fuel i t := by
  induction fuel with
  | zero => exact fun _ _ _ _ => rfl
  | succ n ih =>
    intro i s t h
    have h1 := h.placeTeam gr 0 (i, firstKind gr i)
    unfold countPlaced
    generalize Sys2Proof.Machine.placeTeam s gr 0 (i, firstKind gr i) = a at h1 ⊢
    generalize Sys2Proof.Machine.placeTeam t gr 0 (i, firstKind gr i) = b at h1 ⊢
    cases a with
    | error _ =>
      cases b with
      | error _ => rfl
      | ok _ => exact h1.elim
    | ok s1 =>
      cases b with
      | error _ => exact h1.elim
      | ok t1 =>
        dsimp only
        rw [ih (i + 1) h1]

/-- The capacity of a grid does not hang on the next free number. -/
theorem capacityOf_nextId (s : State) (n : Nat) (gr : Grid) : capacityOf { s with nextId := n } gr = capacityOf s gr := by
  unfold capacityOf
  split
  · exact SameFill.count gr _ 0 ⟨rfl, rfl, ⟨rfl, rfl⟩, rfl, fun _ => rfl⟩
  · rfl

theorem countPlaced_capacity (gr : Grid) (c : Nat) (a : Bool) (fuel : Nat) : ∀ (i : Nat) (s : State),
    countPlaced { gr with capacity := c, admission := a } fuel i s = countPlaced gr fuel i s := by
  induction fuel with
  | zero => exact fun _ _ => rfl
  | succ n ih =>
    intro i s
    rw [countPlaced, countPlaced, show Sys2Proof.Machine.placeTeam s { gr with capacity := c, admission := a } 0
      (i, firstKind { gr with capacity := c, admission := a } i) = Sys2Proof.Machine.placeTeam s gr 0 (i, firstKind gr i) from rfl]
    simp only [ih]

/-- Nor on the capacity that the grid is given. -/
theorem capacityOf_counted (s : State) (gr : Grid) (c : Nat) (a : Bool) :
    capacityOf s { gr with capacity := c, admission := a } = capacityOf s gr := by
  unfold capacityOf
  rw [countPlaced_capacity]

/-! ## Reads of the queue unit -/

theorem queueRead_walked (s : State) (c : Context) (va : DWord) (n : Nat) : Walked s (queueRead s c va n).2 := by
  have h := walked_walkAccess s c va .load false
  unfold queueRead
  split <;> next he => rw [he] at h; exact h

theorem waitWord_walked (s : State) (c : Context) (x en addr val : Nat) : Walked s (waitWord s c x en addr val).2 := by
  unfold waitWord
  split
  · exact .refl s
  · exact queueRead_walked _ _ _ _

theorem waitWords_walked (s : State) (c : Context) (x : Nat) : Walked s (waitWords s c x).2 :=
  (waitWord_walked s c x 163 256 448).trans (waitWord_walked _ c x 164 320 480)

theorem readDesc_walked (s : State) (c : Context) (x : Nat) : Walked s (readDesc s c x).2 := queueRead_walked _ _ _ _

theorem walked_queueOf {s t : State} (h : Walked s t) (n : Nat) : queueOf t n = queueOf s n := by
  have e : t.queues = s.queues := (congrArg State.queues h.1 :)
  rw [queueOf, queueOf, e]

theorem waitWords_of {s s1 s2 : State} {c : Context} {x : Nat} {a b : Except ReadFault Bool} (ha : waitWord s c x 163 256 448 = (a, s1))
    (hb : waitWord s1 c x 164 320 480 = (b, s2)) : waitWords s c x = (a.bind fun p => b.map fun q => p && q, s2) := by
  simp only [waitWords, ha, hb]

theorem queueRead_good {s s1 : State} {c : Context} {va : DWord} {n pa : Nat} (h : walkAccess s c va .load false = (.ok pa, s1)) :
    (badGranule? s1 pa n = none → queueRead s c va n = (.ok (physRead s1 pa n), s1)) ∧
    ∀ b, badGranule? s1 pa n = some b → queueRead s c va n = (.error (.memoryUncorrectable, va, 0), s1) := by
  unfold queueRead
  rw [h]
  dsimp only
  refine ⟨fun hn => ?_, fun b hb => ?_⟩
  · rw [hn]
    rfl
  · rw [hb]
    rfl

/-- A wait word that is read and compared (12 R222). -/
theorem waitWord_enabled {s s1 : State} {c : Context} {x en addr val : Nat} {r : Except ReadFault Nat} (hen : x.testBit en = true)
    (hok : waitOk x en addr = true) (h : queueRead s c (BitVec.ofNat 64 (x / 2 ^ addr % 2 ^ 64)) 4 = (r, s1)) :
    waitWord s c x en addr val = (r.map fun v => decide ((v + 2 ^ 32 - fld x val 32) % 2 ^ 32 < 2 ^ 31), s1) := by
  unfold waitWord
  rw [hen, hok, if_neg (by decide)]
  dsimp only
  rw [show fld x addr 64 = x / 2 ^ addr % 2 ^ 64 from rfl, h]

theorem waitWord_disabled {s : State} {c : Context} {x en addr val : Nat} (h : x.testBit en = false ∨ waitOk x en addr = false) :
    waitWord s c x en addr val = (.ok true, s) := by
  unfold waitWord
  rw [if_pos]
  rcases h with h | h <;> rw [h] <;> simp

/-- The satisfaction of a wait word, as a comparison modulo 2^32. -/
theorem waitWord_holds {v w : Nat} (hw : w < 2 ^ 32) :
    decide ((v + 2 ^ 32 - w) % 2 ^ 32 < 2 ^ 31) = decide (((v : Int) - (w : Nat)) % 2 ^ 32 < 2 ^ 31) := by
  have : ((v : Int) - (w : Nat)) % 2 ^ 32 = (((v + 2 ^ 32 - w) % 2 ^ 32 : Nat) : Int) := by
    omega
  rw [this]
  apply decide_eq_decide.mpr
  omega

/-! ## The taking of a packet -/

theorem fld_toNat (x lo : Nat) : (BitVec.ofNat 64 (fld x lo 64)).toNat = x / 2 ^ lo % 2 ^ 64 := by
  rw [BitVec.toNat_ofNat, fld, Nat.mod_mod]

/-- The grid that a packet starts. -/
def takenGrid (s : State) (q : Queue) (c : Context) (x : Nat) (d : Option Desc) : Grid :=
  let g := packetGrid q c s.nextId x d
  let cap := if inWaves g && d.isSome then capacityOf { s with nextId := s.nextId + 1 } g else 0
  { g with capacity := cap, admission := d.isSome && g.desc.prog == 0 && decide (cap < g.teams) }

theorem takePacket_eq (s : State) (q : Queue) (c : Context) (x : Nat) (d : Option Desc) : takePacket s q c x d =
    { setCtx (setQueue { s with nextId := s.nextId + 1 } { q with taken := q.taken + 1 })
        { (ctxOf s c.num).getD c with nextGrid := nextGridId c.nextGrid } with grids := s.grids ++ [takenGrid s q c x d] } := rfl

theorem packetGrid_done (q : Queue) (c : Context) (uid x : Nat) (d : Option Desc) : (packetGrid q c uid x d).done.toNat =
    if x / 2 ^ 384 % 4 = 0 ∧ x / 2 ^ 441 % 2 ^ 7 = 0 then x / 2 ^ 384 % 2 ^ 64 else 0 := by
  have hok : doneOk x = true ↔ x / 2 ^ 384 % 4 = 0 ∧ x / 2 ^ 441 % 2 ^ 7 = 0 := by
    rw [doneOk, Bool.and_eq_true, beq_iff_eq, beq_iff_eq]
    rfl
  show (if doneOk x = true then BitVec.ofNat 64 (fld x 384 64) else 0#64).toNat = _
  by_cases h : doneOk x = true
  · rw [if_pos h, if_pos (hok.mp h)]
    exact fld_toNat x 384
  · rw [if_neg h, if_neg fun e => h (hok.mpr e)]
    rfl

theorem takenGrid_admission (s : State) (q : Queue) (c : Context) (x : Nat) (e : Desc) :
    (takenGrid s q c x (some e)).admission = true ↔ e.prog = 0 ∧ capacityOf s (takenGrid s q c x (some e)) < (takenGrid s q c x (some e)).teams := by
  have hcap : capacityOf s (takenGrid s q c x (some e)) = capacityOf { s with nextId := s.nextId + 1 } (packetGrid q c s.nextId x (some e)) := 
    (capacityOf_counted s (packetGrid q c s.nextId x (some e)) (takenGrid s q c x (some e)).capacity
      (takenGrid s q c x (some e)).admission).trans (capacityOf_nextId s (s.nextId + 1) _).symm
  have hwave : e.prog = 0 → inWaves (packetGrid q c s.nextId x (some e)) = true := fun h => by
    show (e.repro || e.prog == 0) = true
    rw [h]
    simp
  rw [hcap]
  show (true && e.prog == 0 && decide ((if inWaves (packetGrid q c s.nextId x (some e)) && true then
    capacityOf { s with nextId := s.nextId + 1 } (packetGrid q c s.nextId x (some e)) else 0) < (packetGrid q c s.nextId x (some e)).teams)) = true ↔
    e.prog = 0 ∧ _ < (packetGrid q c s.nextId x (some e)).teams
  by_cases h : e.prog = 0
  · rw [hwave h, h]
    simp
  · simp [h]

theorem takePacket_taken {s : State} {q : Queue} {n : Nat} (h : queueOf s n = some q) (c : Context) (x : Nat) (d : Option Desc) :
    Taken s q c x d (takePacket s q c x d) := by
  rw [takePacket_eq]
  have hnum : q.num = n := beq_iff_eq.mp (List.find?_some (p := fun x : Queue => x.num == n) h)
  refine ⟨⟨takenGrid s q c x d, rfl, rfl, rfl, rfl, rfl, rfl, rfl, fun e he => ?_, fld_toNat x 64, rfl, rfl, rfl, fld_toNat x 192,
    packetGrid_done q c s.nextId x d, rfl, rfl, rfl, rfl, fun e he => ?_⟩, ?_, fun y hy => ?_, rfl⟩
  · rw [he]
    rfl
  · rw [he]
    exact takenGrid_admission s q c x e
  · subst hnum
    exact find_map_key Queue.num s.queues q { q with taken := q.taken + 1 } q.num rfl h
  · have hn := ctxOf_num hy
    rw [hy]
    show List.find? (fun a : Context => a.num == c.num)
      (s.contexts.map fun a => if a.num = y.num then { y with nextGrid := nextGridId c.nextGrid } else a) = _
    rw [← hn] at hy ⊢
    exact find_map_key Context.num s.contexts y { y with nextGrid := nextGridId c.nextGrid } y.num rfl hy

theorem takeUnreadable_spec {s : State} {q : Queue} {n : Nat} (h : queueOf s n = some q) (c : Context) (x : Nat) (f : ReadFault) :
    Unreadable s q c x f (takeUnreadable s q c x f) :=
  ⟨takePacket s q c x none, _, takePacket_taken h c x none, rfl, rfl, rfl, rfl, rfl, rfl, rfl, rfl⟩

theorem mayTakePacket_iff (s : State) (q : Queue) : mayTakePacket s q = true ↔ q.stopped = false ∧ q.preempted = false ∧
    ctxStopped s q.ctx = false ∧ (q.tail + 2 ^ 64 - q.head) % 2 ^ 64 ≤ 2 ^ q.k ∧ q.taken < q.tail ∧
    ∀ g ∈ s.grids, g.queue = q.num → g.phase = .active → g.teams ≤ g.nextTeam := by
  have hprev : previousPlaced s q = true ↔ ∀ g ∈ s.grids, g.queue = q.num → g.phase = .active → g.teams ≤ g.nextTeam := by
    rw [previousPlaced, List.all_eq_true]
    refine forall₂_congr fun g _ => ?_
    rw [Bool.or_eq_true, Bool.or_eq_true, bne_iff_ne, bne_iff_ne, decide_eq_true_iff]
    tauto
  have hfull : q.overfull = false ↔ (q.tail + 2 ^ 64 - q.head) % 2 ^ 64 ≤ 2 ^ q.k := by
    rw [Queue.overfull, decide_eq_false_iff_not, Nat.not_lt]
  simp only [mayTakePacket, Bool.and_eq_true, Bool.not_eq_true', decide_eq_true_iff, hprev, hfull]
  tauto

/-- Settles O49: TAIL, the packet with what its reads bring, the wait words, and ageing. -/
theorem queueUnit : Obligations.QueueUnit := by
  unfold Obligations.QueueUnit
  refine ⟨?_, ?_, fun s s1 s2 c x a b ha hb => (waitWords_of ha hb).trans ?_, ?_, ?_, mayTakePacket_iff, ?_, ?_⟩
  · intro s n q h tail full
    have hexec : exec (.queueTailUpdate n) s = execQueueTailUpdate n s := rfl
    rw [hexec, execQueueTailUpdate, h]
    show Host.Outcome.next (if full && !q.stopped then signal (setQueue s { q with tail, stopped := q.stopped || full })
      (setQueue s { q with tail, stopped := q.stopped || full }).mgmtVec else setQueue s { q with tail, stopped := q.stopped || full }) = _
    by_cases hf : full = true ∧ q.stopped = false
    · rw [if_pos hf, if_pos (by rw [hf.1, hf.2]; rfl)]
      rfl
    · rw [if_neg hf, if_neg (by simpa using hf), List.append_nil]
      rfl
  · intro s n q c h hc x
    have hexec : exec (.launchPacketTake n) s = (if !mayTakePacket s q then .next s
        else match waitWords s c x with
        | (.error f, s) => .next (takeUnreadable s q c x f)
        | (.ok false, s) => .next s
        | (.ok true, s) =>
          if !packetOk x then .next (takePacket s q c x none)
          else match readDesc s c x with
          | (.error f, s) => .next (takeUnreadable s q c x f)
          | (.ok d, s) => .next (takePacket s q c x d)) := by
      have : exec (.launchPacketTake n) s = execLaunchPacketTake n s := rfl
      rw [this, execLaunchPacketTake, h]
      dsimp only
      rw [hc] <;> rfl
    have hq : ∀ {r s1}, waitWords s c x = (r, s1) → queueOf s1 n = some q := fun {r s1} hw => by
      have := waitWords_walked s c x
      rw [hw] at this
      rw [walked_queueOf this, h]
    refine ⟨fun hno => ?_, fun hmay => ?_⟩
    · rw [hexec, hno]
      rfl
    rw [hmay, if_neg (by decide)] at hexec
    refine ⟨fun f s1 hw => ?_, fun s1 hw => ?_, fun s1 hw => ?_⟩ <;> rw [hw] at hexec
    · exact ⟨_, hexec, takeUnreadable_spec (hq hw) c x f⟩
    · exact hexec
    · have hq2 : ∀ {r s2}, readDesc s1 c x = (r, s2) → queueOf s2 n = some q := fun {r s2} hr => by
        have := readDesc_walked s1 c x
        rw [hr] at this
        rw [walked_queueOf this, hq hw]
      refine ⟨fun hno => ?_, fun f s2 hok hr => ?_, fun d s2 hok hr => ?_⟩
      · rw [hno] at hexec
        exact ⟨_, hexec, takePacket_taken (hq hw) c x none⟩
      · rw [hok] at hexec
        dsimp only at hexec
        rw [if_neg (by decide), hr] at hexec
        exact ⟨_, hexec, takeUnreadable_spec (hq2 hr) c x f⟩
      · rw [hok] at hexec
        dsimp only at hexec
        rw [if_neg (by decide), hr] at hexec
        exact ⟨_, hexec, takePacket_taken (hq2 hr) c x d⟩
  · cases a <;> cases b <;> rfl
  · intro c x en addr val s s1
    refine ⟨waitWord_disabled, fun hen hok => ⟨fun f hr => waitWord_enabled hen hok hr, fun v _ hr => ?_⟩⟩
    rw [waitWord_enabled hen hok hr]
    have hlt : fld x val 32 < 2 ^ 32 := Nat.mod_lt _ (by decide)
    rw [show Except.map (fun v => decide ((v + 2 ^ 32 - fld x val 32) % 2 ^ 32 < 2 ^ 31)) (Except.ok v : Except ReadFault Nat) =
      .ok (decide ((v + 2 ^ 32 - fld x val 32) % 2 ^ 32 < 2 ^ 31)) from rfl, waitWord_holds hlt]
    rfl
  · intro s s1 c va n
    refine ⟨fun f hw => ?_, fun pa hw => queueRead_good hw⟩
    rw [queueRead, hw]
  · intro s n q h hq hh
    have hexec : exec (.queueAgeing n) s = execQueueAgeing n s := rfl
    rw [hexec, execQueueAgeing, hq, hh]
    rfl
  · intro s n i g hi
    rw [waitOn, List.getElem?_map, hi]
    rfl

end Sys2Proof.Machine
end

section
/-!
SUPPORT. Predicates of states that the parts of a step keep. Such a predicate bears on memories, on the model's numbers of groups,
splits and regions, or on queues and the phases of grids, and on nothing else: it is then kept by every function that is made of
the changes listed here.
-/
namespace Sys2Proof.Machine

/-! ## The changes -/

/-- The model's numbers within a group: each names one split or region, and is below the next one. -/
structure NamesOk (n : Nat) (g : Group) : Prop where
  gid : g.gid < n
  splits : (g.splits.map Split.sid).Nodup ∧ ∀ p ∈ g.splits, p.sid < n
  regions : (g.regions.map Region.rid).Nodup ∧ ∀ r ∈ g.regions, r.rid < n

/-- A group with no number that another has not. -/
structure NamesOf (g g' : Group) : Prop where
  gid : g'.gid = g.gid
  splits : (g'.splits.map Split.sid).Sublist (g.splits.map Split.sid)
  regions : (g'.regions.map Region.rid).Sublist (g.regions.map Region.rid)

/-- The phase of the grid of a number. -/
def gridPhases (s : State) (uid : Nat) : Option GridPhase := (gridOf s uid).map Grid.phase

/-- A predicate kept by writes of memory, by changes of registers and scratchpads, and by what bears on no memory, number, queue,
phase or management ring. `C`: it says that the numbers are distinct. `n`: a number that every next free one reaches. -/
structure Closed (P : State → Prop) (C : Prop) (n : Nat) : Prop where
  low : ∀ s, P s → n ≤ s.nextId
  fine : ∀ s, C → P s → ∀ g ∈ s.groups, NamesOk s.nextId g
  phys : ∀ s pa bs, P s → P (physWriteBytes s pa bs)
  rest : ∀ s t : State, t.mem = s.mem → t.remote = s.remote → t.teams = s.teams → t.handles = s.handles → t.groups = s.groups →
    t.queues = s.queues → gridPhases t = gridPhases s → t.mgmtBase = s.mgmtBase → s.nextId ≤ t.nextId → P s → P t
  groups : ∀ (s : State) G, (G.map Group.gid).Sublist (s.groups.map Group.gid) → (C → ∀ g ∈ G, NamesOk s.nextId g) → P s →
    P { s with groups := G }
  spads : ∀ (s : State) T H, (SpadsOk s → SpadsOk { s with teams := T, handles := H }) → P s → P { s with teams := T, handles := H }

/-! ## Groups -/

theorem NamesOk.mono {n m : Nat} {g : Group} (h : NamesOk n g) (hn : n ≤ m) : NamesOk m g :=
  ⟨Nat.lt_of_lt_of_le h.gid hn, ⟨h.splits.1, fun p hp => Nat.lt_of_lt_of_le (h.splits.2 p hp) hn⟩,
    ⟨h.regions.1, fun r hr => Nat.lt_of_lt_of_le (h.regions.2 r hr) hn⟩⟩

theorem NamesOf.refl (g : Group) : NamesOf g g := ⟨rfl, .refl _, .refl _⟩

theorem NamesOf.trans {a b c : Group} (h : NamesOf a b) (k : NamesOf b c) : NamesOf a c :=
  ⟨k.gid.trans h.gid, k.splits.trans h.splits, k.regions.trans h.regions⟩

theorem NamesOk.of {n : Nat} {g g' : Group} (h : NamesOk n g) (hs : NamesOf g g') : NamesOk n g' := by
  refine ⟨hs.gid ▸ h.gid, ⟨h.splits.1.sublist hs.splits, fun p hp => ?_⟩, ⟨h.regions.1.sublist hs.regions, fun r hr => ?_⟩⟩
  · obtain ⟨q, hq, he⟩ := List.mem_map.mp (hs.splits.subset (List.mem_map_of_mem hp))
    exact he ▸ h.splits.2 q hq
  · obtain ⟨q, hq, he⟩ := List.mem_map.mp (hs.regions.subset (List.mem_map_of_mem hr))
    exact he ▸ h.regions.2 q hq

theorem namesOf_setSplit (g : Group) (p : Split) : NamesOf g (setSplit g p) := by
  refine ⟨rfl, ?_, .refl _⟩
  rw [setSplit, List.map_map]
  refine (List.map_congr_left fun x _ => ?_) ▸ List.Sublist.refl _
  rw [Function.comp_apply]
  split
  next h => exact h
  next => rfl

theorem namesOf_setRegion (g : Group) (r : Region) : NamesOf g (setRegion g r) := by
  refine ⟨rfl, .refl _, ?_⟩
  rw [setRegion, List.map_map]
  refine (List.map_congr_left fun x _ => ?_) ▸ List.Sublist.refl _
  rw [Function.comp_apply]
  split
  next h => exact h
  next => rfl

/-- Splits changed one by one keep their numbers. -/
theorem namesOf_mapSplits (g : Group) (f : Split → Split) (h : ∀ p, (f p).sid = p.sid) : NamesOf g { g with splits := g.splits.map f } := by
  refine ⟨rfl, ?_, .refl _⟩
  rw [List.map_map]
  exact (List.map_congr_left fun x _ => h x) ▸ List.Sublist.refl _

theorem namesOf_writeReg (g : Group) (d : Opnd) (m : Lanes) (new : Nat → Word) : NamesOf g (writeReg g d m new) := by
  unfold writeReg
  split <;> exact ⟨rfl, .refl _, .refl _⟩

theorem namesOf_writeScalar (g : Group) (d : Opnd) (v : Word) : NamesOf g (writeScalar g d v) := by
  unfold writeScalar
  split <;> exact ⟨rfl, .refl _, .refl _⟩

theorem namesOf_writeScalarNat (g : Group) (wide : Bool) (d : Opnd) (v : Nat) : NamesOf g (writeScalarNat g wide d v) := by
  unfold writeScalarNat
  dsimp only
  split
  · exact (namesOf_writeScalar _ _ _).trans (namesOf_writeScalar _ _ _)
  · exact namesOf_writeScalar _ _ _

theorem namesOf_writeLoaded (g : Group) (d : Opnd) (wide : Bool) (es : List (Nat × Nat)) : NamesOf g (writeLoaded g d wide es) := by
  unfold writeLoaded
  split
  · exact namesOf_writeScalarNat _ _ _ _
  · dsimp only
    split
    · exact (namesOf_writeReg _ _ _ _).trans (namesOf_writeReg _ _ _ _)
    · exact namesOf_writeReg _ _ _ _

theorem namesOf_shadowLoaded (g : Group) (o : Op) (d : Opnd) (wide : Bool) (es : List (Nat × Nat)) : NamesOf g (shadowLoaded g o d wide es) := by
  unfold shadowLoaded
  split
  · split
    · exact .refl g
    · exact ⟨rfl, .refl _, .refl _⟩
  · exact .refl g

theorem namesOf_raiseLbase (g : Group) (w : Option Nat) : NamesOf g (raiseLbase g w) := by
  unfold raiseLbase
  split
  · split
    · exact ⟨rfl, .refl _, .refl _⟩
    · exact .refl g
  · exact .refl g

theorem meetZero_sid (p : Split) (s : State) (pa n : Nat) (lt : Option Nat) : (p.meetZero s pa n lt).sid = p.sid := by
  unfold Split.meetZero
  split
  · split <;> rfl
  · rfl

theorem stopSweep_sid (p : Split) (t : TrapReq) : (p.stopSweep t).sid = p.sid := by
  unfold Split.stopSweep
  split <;> rfl

theorem kept_ite {P : State → Prop} {p : Prop} [Decidable p] {s t : State} (hs : P s) (ht : P t) : P (if p then s else t) := by
  split
  · exact hs
  · exact ht

section
variable {P : State → Prop} {C : Prop} {n : Nat} (hP : Closed P C n)
include hP

theorem kept_fine {s : State} {k : Nat} {g : Group} (h : P s) (hg : groupOf s k = some g) (hc : C) : NamesOk s.nextId g :=
  hP.fine s hc h g (List.mem_of_find?_eq_some hg)

theorem kept_setGroup {s : State} {g : Group} (hg : C → NamesOk s.nextId g) (h : P s) : P (setGroup s g) := by
  refine hP.groups s _ ?_ (fun hc x hx => ?_) h
  · rw [List.map_map]
    refine (List.map_congr_left fun x _ => ?_) ▸ List.Sublist.refl _
    rw [Function.comp_apply]
    split
    next h => exact h
    next => rfl
  · obtain ⟨y, hy, rfl⟩ := List.mem_map.mp hx
    split
    · exact hg hc
    · exact hP.fine s hc h y hy

/-- A group in place of one that a state holds, with no other numbers. -/
theorem kept_setGroup_of {s : State} {k : Nat} {g g' : Group} (hg : groupOf s k = some g) (hs : NamesOf g g') (h : P s) : P (setGroup s g') :=
  kept_setGroup hP (fun hc => (kept_fine hP h hg hc).of hs) h

theorem kept_updGroup {s : State} (k : Nat) {f : Group → Group} (hf : ∀ g, NamesOf g (f g)) (h : P s) : P (updGroup s k f) := by
  unfold updGroup
  split
  next g hg => exact kept_setGroup_of hP hg (hf g) h
  next => exact h

theorem kept_updSplit {s : State} (k sid : Nat) (f : Split → Split) (h : P s) : P (updSplit s k sid f) :=
  kept_updGroup hP k (fun g => by
    split
    · exact namesOf_setSplit _ _
    · exact .refl g) h

/-- Every group changed alike, with no other numbers. -/
theorem kept_mapGroups {s : State} (f : Group → Group) (hf : ∀ g, NamesOf g (f g)) (h : P s) : P { s with groups := s.groups.map f } := by
  refine hP.groups s _ ?_ (fun hc x hx => ?_) h
  · rw [List.map_map]
    exact (List.map_congr_left fun x _ => (hf x).gid) ▸ List.Sublist.refl _
  · obtain ⟨y, hy, rfl⟩ := List.mem_map.mp hx
    exact (hP.fine s hc h y hy).of (hf y)

theorem kept_filterGroups {s : State} (p : Group → Bool) (h : P s) : P { s with groups := s.groups.filter p } :=
  hP.groups s _ (List.filter_sublist.map _) (fun hc x hx => hP.fine s hc h x (List.mem_of_mem_filter hx)) h

/-! ## Other parts of the state -/

theorem kept_foldl {β : Type} {F : State → β → State} (hF : ∀ s b, P s → P (F s b)) (bs : List β) : ∀ {s : State}, P s → P (bs.foldl F s) := by
  induction bs with
  | nil => exact fun h => h
  | cons b bs ih => exact fun h => ih (hF _ b h)

/-- The same of a fold that also gathers keys. -/
theorem kept_foldl_keys {β γ : Type} {F : State × γ → β → State × γ} (hF : ∀ r b, P r.1 → P (F r b).1) (bs : List β) :
    ∀ {r : State × γ}, P r.1 → P (bs.foldl F r).1 := by
  induction bs with
  | nil => exact fun h => h
  | cons b bs ih => exact fun h => ih (hF _ b h)

theorem kept_physWrite {s : State} (pa k v : Nat) (h : P s) : P (physWrite s pa k v) := hP.phys s pa _ h

theorem kept_setCtx {s : State} (c : Context) (h : P s) : P (setCtx s c) := hP.rest s _ rfl rfl rfl rfl rfl rfl rfl rfl (Nat.le_refl _) h

theorem kept_setCore {s : State} (c : Nat) (k : Core) (h : P s) : P (setCore s c k) :=
  hP.rest s _ rfl rfl rfl rfl rfl rfl rfl rfl (Nat.le_refl _) h

theorem kept_setCopy {s : State} (c : Copy) (h : P s) : P (setCopy s c) := hP.rest s _ rfl rfl rfl rfl rfl rfl rfl rfl (Nat.le_refl _) h

theorem kept_setOp {s : State} (o : Op) (h : P s) : P (setOp s o) := hP.rest s _ rfl rfl rfl rfl rfl rfl rfl rfl (Nat.le_refl _) h

theorem kept_setElem {s : State} (o : Op) (k : Nat) (e : Elem) (h : P s) : P (setElem s o k e) := kept_setOp hP _ h

theorem kept_setRing {s : State} (c q : Nat) (r : List Latch) (h : P s) : P (setRing s c q r) :=
  hP.rest s _ rfl rfl rfl rfl rfl rfl rfl rfl (Nat.le_refl _) h

theorem kept_signal {s : State} (v : Nat) (h : P s) : P (signal s v) := hP.rest s _ rfl rfl rfl rfl rfl rfl rfl rfl (Nat.le_refl _) h

/-- A grid changed in neither number nor phase. -/
theorem kept_updGrid {s : State} (uid : Nat) {f : Grid → Grid} (hu : ∀ g, (f g).uid = g.uid) (hf : ∀ g, (f g).phase = g.phase)
    (h : P s) : P (updGrid s uid f) := by
  unfold updGrid
  split
  next g hg =>
    refine hP.rest s _ rfl rfl rfl rfl rfl rfl (funext fun u => ?_) rfl (Nat.le_refl _) h
    have hn : (f g).uid = uid := (hu g).trans (beq_iff_eq.mp (List.find?_some (p := fun x : Grid => x.uid == uid) hg))
    by_cases he : u = uid
    · subst he
      have h1 : gridOf (setGrid s (f g)) u = some (f g) := by
        rw [gridOf, setGrid, hn]
        exact find_map_key Grid.uid s.grids g (f g) u hn hg
      rw [gridPhases, gridPhases, h1, hg]
      exact congrArg some (hf g)
    · have h1 : gridOf (setGrid s (f g)) u = gridOf s u := by
        rw [gridOf, setGrid, hn]
        exact find_map_other Grid.uid s.grids (f g) uid u hn he
      rw [gridPhases, gridPhases, h1]
  next => exact h

theorem kept_writeRec {s : State} (c : Context) (r : DriverRec) (h : P s) : P (writeRec s c r) := by
  obtain ⟨s2, hs2⟩ : ∃ s2, s2 = physWrite (physWriteBytes s (nextRecAddr c) r.body.bytes) c.fring 8 (c.tail + 1) := ⟨_, rfl⟩
  obtain ⟨s3, hs3⟩ : ∃ s3 : State, s3 = { setCtx s2 { c with tail := c.tail + 1 } with
      records := (nextRecAddr c, r) :: (setCtx s2 { c with tail := c.tail + 1 }).records.filter fun x => x.1 ≠ nextRecAddr c } := ⟨_, rfl⟩
  have h2 : P s2 := hs2 ▸ kept_physWrite hP _ _ _ (hP.phys _ _ _ h)
  have h3 : P s3 := by
    rw [hs3]
    exact hP.rest s2 _ rfl rfl rfl rfl rfl rfl rfl rfl (Nat.le_refl _) h2
  unfold writeRec
  cases r.link with
  | group gid =>
    simp only [← hs2, ← hs3]
    exact kept_signal hP _ (kept_updGroup hP _ (fun _ => ⟨rfl, .refl _, .refl _⟩) h3)
  | _ =>
    simp only [← hs2, ← hs3]
    exact kept_signal hP _ h3

theorem kept_report {s : State} (r : DriverRec) (h : P s) : P (report s r) := by
  unfold report
  split
  · exact h
  split
  · split
    · exact kept_writeRec hP _ _ h
    · exact kept_setCtx hP _ (kept_physWrite hP _ _ _ h)
  · split
    · exact kept_writeRec hP _ _ h
    · exact hP.rest s _ rfl rfl rfl rfl rfl rfl rfl rfl (Nat.le_refl _) h

theorem kept_orEntry {s : State} (ctx pa : Nat) (e : DWord) (k : Nat) (h : P s) : P (orEntry s ctx pa e k) := by
  unfold orEntry
  split
  · exact h
  split
  · exact kept_report hP _ h
  · exact kept_physWrite hP _ _ _ h

theorem kept_walkAccess {s : State} (c : Context) (va : DWord) (a : Access) (sup : Bool) (h : P s) : P (walkAccess s c va a sup).2 :=
  walkAccess_keeps (fun _ _ _ _ _ h => kept_orEntry hP _ _ _ _ h) h c va a sup

theorem kept_translate {s : State} (c : Nat) (ctx : Context) (va : DWord) (a : Access) (sup : Bool) (h : P s) :
    P (translate s c ctx va a sup).2 :=
  translate_keeps (fun _ _ _ _ _ h => kept_orEntry hP _ _ _ _ h) (fun _ _ _ h => kept_setCore hP _ _ h) h c ctx va a sup

/-! ## Scratchpads -/

theorem kept_updTeam {s : State} (tid : Nat) {f : Team → Team} (hf : ∀ t, memWf t.spad = true → memWf (f t).spad = true) (h : P s) :
    P (updTeam s tid f) := by
  unfold updTeam
  split
  next t ht =>
    refine hP.spads s (s.teams.map fun x => if x.tid = (f t).tid then f t else x) s.handles (fun hok => ⟨fun x hx => ?_, hok.2⟩) h
    obtain ⟨y, hy, rfl⟩ := List.mem_map.mp hx
    split
    · exact hf t (hok.1 t (List.mem_of_find?_eq_some ht))
    · exact hok.1 y hy
  next => exact h

theorem kept_handles {s : State} {f : Handle → Handle} (hf : ∀ t, memWf t.bytes = true → memWf (f t).bytes = true) (h : P s) :
    P { s with handles := s.handles.map f } := by
  refine hP.spads s s.teams _ (fun hok => ⟨hok.1, fun x hx => ?_⟩) h
  obtain ⟨y, hy, rfl⟩ := List.mem_map.mp hx
  exact hf y (hok.2 y hy)

theorem kept_spadPutIn {s : State} (tid off k v : Nat) (h : P s) : P (spadPutIn s tid off k v) := by
  unfold spadPutIn
  split
  · refine kept_updTeam hP _ (fun t ht => ?_) h
    exact memWf_writeN _ _ _ ht
  · refine kept_handles hP (fun t ht => ?_) h
    split
    · exact memWf_writeN _ _ _ ht
    · exact ht

theorem kept_spadPut {s : State} (tid off k v : Nat) (h : P s) : P (spadPut s tid off k v) := by
  unfold spadPut
  split
  · exact kept_spadPutIn hP _ _ _ _ h
  · exact kept_foldl hP (fun _ _ h => kept_spadPutIn hP _ _ _ _ h) _ h

theorem kept_setObjs {s : State} (pl : Nat ⊕ Nat) (l : List BarObj) (h : P s) : P (setObjs s pl l) := by
  unfold setObjs
  split
  · exact kept_updTeam hP _ (fun _ ht => ht) h
  · refine kept_handles hP (fun t ht => ?_) h
    split <;> exact ht

theorem kept_putObj {s : State} (tid off : Nat) (f : BarObj → BarObj) (h : P s) : P (putObj s tid off f) := kept_setObjs hP _ _ h

theorem kept_nameObj {s : State} (tid off : Nat) (f : BarObj → BarObj) (h : P s) : P (nameObj s tid off f) := kept_putObj hP _ _ _ h

theorem kept_putBar {s : State} (tid off : Nat) (b : Bar) (h : P s) : P (putBar s tid off b) := kept_spadPut hP _ _ _ _ h

theorem kept_acquireDev {s : State} (core : Nat) (h : P s) : P (acquireDev s core) := kept_setCore hP _ _ h

theorem kept_goOnPhase {s : State} (gid sid : Nat) (lt : Option Nat) (dev : Bool) (h : P s) : P (goOnPhase s gid sid lt dev) := by
  unfold goOnPhase
  split
  · exact h
  next g hg =>
    have h1 := kept_updSplit hP gid sid (fun q => { q with state := .ready }) (kept_setGroup_of hP hg (namesOf_raiseLbase g lt) h)
    dsimp only
    split
    · exact kept_acquireDev hP _ h1
    · exact h1

theorem kept_wakeSplit {s : State} (gid sid : Nat) (o : BarObj) (p : Nat) (h : P s) : P (wakeSplit s gid sid o p) := by
  unfold wakeSplit
  split
  · exact h
  dsimp only
  split
  · exact kept_goOnPhase hP _ _ _ _ h
  · exact kept_updSplit hP _ _ _ h

theorem kept_barCheck {s : State} (tid off : Nat) (h : P s) : P (barCheck s tid off).1 := by
  have hwake : ∀ (q : Nat → Bool) (o : BarObj) (ws : List (Nat × Nat × Nat)) {t : State}, P t →
      P (ws.foldl (fun s w => if q w.2.2 then wakeSplit s w.1 w.2.1 o w.2.2 else s) t) := fun q o ws t ht => by
    refine kept_foldl hP (fun _ w h => ?_) ws ht
    split
    · exact kept_wakeSplit hP _ _ _ _ h
    · exact h
  unfold barCheck
  dsimp only
  split
  · exact hwake _ _ _ h
  · exact hwake (fun p => (settle (barAt s tid off) (objOf s tid off)).bar.completed p || (settle (barAt s tid off) (objOf s tid off)).passed.contains p)
      _ _ (kept_nameObj hP _ _ _ (kept_putBar hP _ _ _ h))

theorem kept_meetObj {s : State} (tid off : Nat) (h : P s) : P (meetObj s tid off) := by
  unfold meetObj
  split
  · exact h
  · dsimp only
    refine kept_nameObj hP _ _ _ ?_
    split
    · exact h
    · exact kept_putBar hP _ _ _ h

theorem kept_afterAccess {s : State} (tid cell raw : Nat) (g : Nat → Nat) (h : P s) : P (afterAccess s tid cell raw g).1 := by
  unfold afterAccess
  split
  · exact kept_barCheck hP _ _ h
  dsimp only
  split
  · dsimp only
    split
    · exact h
    · exact kept_setObjs hP _ _ h
  · exact kept_setObjs hP _ _ h

theorem kept_spadUpdate {s : State} (tid off k : Nat) (f : Nat → Nat) (h : P s) : P (spadUpdate s tid off k f).1 :=
  kept_foldl_keys hP (F := fun r c =>
    let q := afterAccess r.1 tid c (spadRead s tid c 16) (cellAfter c off k f)
    (q.1, r.2 ++ q.2)) (r := (spadPut s tid off k (f (spadRead s tid off k)), []))
    (fun _ _ h => kept_afterAccess hP _ _ _ _ h) _ (kept_spadPut hP _ _ _ _ h)

theorem kept_spadWrite {s : State} (tid off k v : Nat) (h : P s) : P (spadWrite s tid off k v).1 := kept_spadUpdate hP _ _ _ _ h

theorem kept_landBytes {s : State} (tid off k lt : Nat) (h : P s) : P (landBytes s tid off k lt).1 :=
  kept_barCheck hP _ _ (kept_nameObj hP _ _ _ (kept_putBar hP _ _ _ (kept_meetObj hP _ _ h)))

/-! ## Operations in flight -/

theorem kept_logEcc {s : State} (o : Op) (e : Elem) (pa : Nat) (h : P s) : P (logEcc s o e pa) := kept_report hP _ h

theorem kept_removeOp {s : State} (id : Nat) (h : P s) : P (removeOp s id) := hP.rest s _ rfl rfl rfl rfl rfl rfl rfl rfl (Nat.le_refl _) h

theorem kept_countOff {s : State} (o : Op) (h : P s) : P (countOff s o) := kept_updGroup hP _ (fun _ => ⟨rfl, .refl _, .refl _⟩) h

theorem kept_l1Update {s : State} (core pa : Nat) (bs : List Byte) (h : P s) : P (l1Update s core pa bs) := by
  unfold l1Update
  dsimp only
  split
  · exact h
  · exact kept_setCore hP _ _ h

theorem kept_l1Fill {s : State} (core ctx va pa : Nat) (h : P s) : P (l1Fill s core ctx va pa) := by
  unfold l1Fill
  dsimp only
  split <;> exact kept_setCore hP _ _ h

theorem kept_l1Refresh {s : State} (core pa : Nat) (h : P s) : P (l1Refresh s core pa) := by
  unfold l1Refresh
  dsimp only
  split
  · exact h
  · exact kept_setCore hP _ _ h

theorem kept_streamPut {s : State} (ctx team : Nat) (items : List StreamItem) (h : P s) : P (streamPut s ctx team items) := by
  unfold streamPut
  dsimp only
  split <;> exact kept_updTeam hP _ (fun _ ht => ht) h

theorem kept_streamElem {s : State} (o : Op) (e : Elem) (h : P s) : P (streamElem s o e) := kept_streamPut hP _ _ _ h

theorem kept_readElem {s : State} (o : Op) (e : Elem) (l1 : Bool) (h : P s) : P (readElem s o e l1).2.2 := by
  unfold readElem
  split
  · exact h
  dsimp only
  split
  · exact h
  split
  · exact h
  split
  · exact h
  · exact kept_l1Fill hP _ _ _ _ h

theorem kept_loadElem {s : State} (id : Nat) (l1 : Lanes) (k : Nat) (h : P s) : P (loadElem s id l1 k) := by
  unfold loadElem
  split
  · exact h
  split
  · exact h
  split
  · exact kept_setOp hP _ (kept_readElem hP _ _ _ h)
  · exact h

theorem kept_acquireOp {s : State} (o : Op) (h : P s) : P (acquireOp s o) := by
  unfold acquireOp
  split
  · exact kept_acquireDev hP _ h
  · exact h

theorem kept_failLoad {s : State} (o : Op) (pa : Nat) (h : P s) : P (failLoad s o pa) :=
  kept_updGroup hP _ (fun _ => ⟨rfl, .refl _, .refl _⟩) h

theorem kept_finishLoad {s : State} (o : Op) (w : Width) (d : Opnd) (h : P s) : P (finishLoad s o w d) := by
  unfold finishLoad
  refine kept_removeOp hP _ (kept_countOff hP _ (kept_acquireOp hP _ ?_))
  split
  · exact kept_failLoad hP _ _ h
  · exact kept_updGroup hP _ (fun g => (namesOf_shadowLoaded g _ _ _ _).trans (namesOf_writeLoaded _ _ _ _)) h

theorem kept_noteZero {s : State} (pa k : Nat) (lt : Option Nat) (h : P s) : P (noteZero s pa k lt) :=
  hP.rest { s with groups := s.groups.map fun g => { g with splits := g.splits.map fun p => p.meetZero s pa k lt } } _
    rfl rfl rfl rfl rfl rfl rfl rfl (Nat.le_refl _)
    (kept_mapGroups hP _ (fun g => namesOf_mapSplits g _ fun p => meetZero_sid p _ _ _ _) h)

theorem kept_storeElem {s : State} (o : Op) (e : Elem) (h : P s) : P (storeElem s o e).1 := by
  unfold storeElem
  split
  · exact kept_spadWrite hP _ _ _ _ h
  split
  · exact kept_streamElem hP _ _ h
  dsimp only
  split
  · exact kept_logEcc hP _ _ _ h
  · refine kept_noteZero hP _ _ _ ?_
    split
    · exact kept_physWrite hP _ _ _ h
    · exact kept_l1Update hP _ _ _ (kept_physWrite hP _ _ _ h)

theorem kept_clearBad {s : State} (p : Nat → Bool) (h : P s) : P { s with badGranules := s.badGranules.filter p } :=
  hP.rest s _ rfl rfl rfl rfl rfl rfl rfl rfl (Nat.le_refl _) h

theorem kept_performStore {s : State} (o : Op) (lanes : Lanes) (h : P s) : P (performStore s o lanes).1 := by
  have h1 := kept_foldl_keys hP (F := fun acc e => let r := storeElem acc.1 o e; (r.1, acc.2 ++ r.2))
    (fun r e h => kept_storeElem hP _ _ h) (storeReady s o lanes) (r := ({ s with badGranules := s.badGranules.filter fun g =>
      !(coveredGranules ((storeReady s o lanes).filter fun e => !o.streamed s e) s.badGranules).contains g }, ([] : List (Nat × Nat))))
    (kept_clearBad hP _ h)
  unfold performStore
  dsimp only
  split
  · exact kept_removeOp hP _ (kept_countOff hP _ h1)
  · exact kept_setOp hP _ h1

theorem kept_showElem {s : State} (id k : Nat) (h : P s) : P (showElem s id k) := by
  unfold showElem
  split
  · exact h
  split
  · exact h
  split
  · exact kept_l1Update hP _ _ _ (kept_setOp hP _ (hP.rest s _ rfl rfl rfl rfl rfl rfl rfl rfl (Nat.le_succ _) h))
  · exact h

theorem kept_showStore {s : State} (id : Nat) (lanes : Lanes) (h : P s) : P (showStore s id lanes) := by
  unfold showStore
  split
  · exact h
  split
  · exact kept_foldl hP (fun _ _ h => kept_ite (kept_showElem hP _ _ h) h) _ h
  · exact h

theorem kept_eccLog {s : State} (pa : Nat) (h : P s) : P (eccLog s pa) := by
  unfold eccLog
  split
  · exact h
  · exact kept_report hP _ h

theorem kept_hostWrite {s : State} (pa : Nat) (bs : List Byte) (h : P s) : P (hostWrite s pa bs) := by
  unfold hostWrite
  split
  · exact h
  split
  · exact kept_noteZero hP _ _ _ (hP.phys _ _ _ h)
  · refine kept_noteZero hP _ _ _ (kept_foldl hP (fun s g h => ?_) _ h)
    unfold hostGranule
    dsimp only
    split
    · exact kept_eccLog hP _ h
    · exact hP.phys _ _ _ h

theorem kept_loseReduction {s : State} (grid : Nat) (h : P s) : P (loseReduction s grid) :=
  kept_updGrid hP _ (fun _ => rfl) (fun _ => rfl) h

theorem kept_rmwElem {s : State} (o : Op) (k : Nat) (e : Elem) (pa : Nat) (h : P s) : P (rmwElem s o k e pa).1 := by
  unfold rmwElem
  dsimp only
  split
  · exact kept_setElem hP _ _ _ (kept_spadUpdate hP _ _ _ _ h)
  split
  · exact kept_setElem hP _ _ _ (kept_ite (kept_logEcc hP _ _ _ h) (kept_loseReduction hP _ (kept_logEcc hP _ _ _ h)))
  · refine kept_setElem hP _ _ _ ?_
    have h1 := fun lt => kept_noteZero hP pa e.size lt (kept_l1Update hP o.core pa (natToBytes e.size (rmwValue e.u e.op (physRead s pa e.size)
      e.data.toNat e.data2.toNat)) (kept_physWrite hP pa e.size (rmwValue e.u e.op (physRead s pa e.size) e.data.toNat e.data2.toNat) h))
    split
    · exact kept_l1Refresh hP _ _ (h1 _)
    · exact h1 _

theorem kept_finishAtom {s : State} (o : Op) (u : EltTy) (d : Opnd) (h : P s) : P (finishAtom s o u d) := by
  unfold finishAtom
  dsimp only
  refine kept_removeOp hP _ (kept_countOff hP _ (kept_updGroup hP _ (fun g => namesOf_writeLoaded g _ _ _) ?_))
  split
  · split
    · exact h
    · exact kept_failLoad hP _ _ h
  · exact h

/-! ## Homes -/

theorem kept_fileRec {s t : State} {core : Nat} {r : ThreadRec} (hf : fileRec s core r = some t) (h : P s) : P t := by
  unfold fileRec at hf
  split at hf
  next s1 h1 =>
    obtain rfl := Option.some.inj hf
    unfold fileInRake at h1
    obtain ⟨i, _, rfl⟩ := Option.map_eq_some_iff.mp h1
    exact kept_setCore hP _ _ h
  next =>
    obtain ⟨c, _, hc⟩ := Option.bind_eq_some_iff.mp hf
    split at hc
    · obtain rfl := Option.some.inj hc
      exact kept_setCtx hP _ h
    · cases hc

theorem kept_fileOrDefer {s : State} (core fut : Nat) (r : ThreadRec) (h : P s) : P (fileOrDefer s core fut r) := by
  unfold fileOrDefer
  split
  · exact h
  split
  next t ht =>
    split at ht
    · cases ht
    · exact kept_fileRec hP ht h
  next => exact hP.rest s _ rfl rfl rfl rfl rfl rfl rfl rfl (Nat.le_refl _) h

theorem kept_parkElem {s : State} (o : Op) (k : Nat) (e : Elem) (f : Option PageFault) (h : P s) : P (parkElem s o k e f) := by
  have h1 : ∀ e, P (setElem { s with nextId := s.nextId + 1 } o k e) := fun e =>
    kept_setElem hP _ _ _ (hP.rest s _ rfl rfl rfl rfl rfl rfl rfl rfl (Nat.le_succ _) h)
  unfold parkElem
  split
  · exact kept_setElem hP _ _ _ h
  dsimp only [fresh]
  split
  · split
    · exact kept_report hP _ (h1 _)
    · exact h1 _
  · exact h1 _

theorem kept_setBlock {s : State} (b : Block) (h : P s) : P (setBlock s b) := hP.rest s _ rfl rfl rfl rfl rfl rfl rfl rfl (Nat.le_refl _) h

theorem kept_releaseRec {s : State} (o : Op) (fut : Nat) (counted : Bool) (r : ThreadRec) (h : P s) : P (releaseRec s o fut counted r) := by
  unfold releaseRec
  split
  · exact h
  have h1 : P (if counted then updGrid s r.grid fun g => { g with orphans := g.orphans - 1 } else s) := by
    split
    · exact kept_updGrid hP _ (fun _ => rfl) (fun _ => rfl) h
    · exact h
  generalize (if counted then updGrid s r.grid fun g => { g with orphans := g.orphans - 1 } else s) = s1 at h1
  dsimp only
  split
  · exact hP.rest s1 _ rfl rfl rfl rfl rfl rfl rfl rfl (Nat.le_succ _) h1
  · exact kept_fileOrDefer hP _ _ _ h1

theorem kept_resolveFuture {s : State} (o : Op) (pa : Nat) (h : P s) : P (resolveFuture s o pa) :=
  kept_foldl hP (fun _ _ h => kept_releaseRec hP _ _ _ _ h) _ (kept_setBlock hP _ (kept_l1Update hP _ _ _ (kept_physWrite hP _ _ _ h)))

theorem kept_registerFuture {s : State} (o : Op) (pa : Nat) (r : ThreadRec) (h : P s) : P (registerFuture s o pa r).2 := by
  unfold registerFuture
  dsimp only
  split
  · exact h
  · exact kept_releaseRec hP _ _ _ _ h
  split
  · exact h
  · exact kept_updGrid hP _ (fun _ => rfl) (fun _ => rfl) (kept_setBlock hP _ (kept_l1Update hP _ _ _ (kept_physWrite hP _ _ _ h)))

theorem kept_futureEcc {s : State} (o : Op) (k : Nat) (e : Elem) (b : Nat) (h : P s) : P (futureEcc s o k e b) := by
  unfold futureEcc
  have h1 := kept_setElem hP o k { e with st := .done, bad := some b } (kept_logEcc hP o e b h)
  dsimp only
  split
  · exact kept_loseReduction hP _ h1
  · exact h1

theorem kept_performHome {s : State} (o : Op) (k : Nat) (e : Elem) (pa : Nat) (h : P s) : P (performHome s o k e pa).1 := by
  unfold performHome
  split
  · exact kept_futureEcc hP _ _ _ _ h
  · have h1 := fun e => kept_setElem hP o k e h
    dsimp only
    exact kept_ite (kept_resolveFuture hP _ _ (h1 _)) (h1 _)
  · split
    · exact h
    · exact kept_setElem hP _ _ _ (kept_registerFuture hP _ _ _ h)
  · have h1 := kept_setElem hP o k { e with st := .done } h
    dsimp only
    split
    · exact kept_resolveFuture hP _ _ h1
    · exact kept_report hP _ h1
  · have h1 := kept_rmwElem hP o k e pa h
    dsimp only
    split
    · exact kept_fileOrDefer hP _ _ _ h1
    · exact h1
  · exact kept_rmwElem hP _ _ _ _ h

theorem kept_settleOp {s : State} (id : Nat) (h : P s) : P (settleOp s id) := by
  unfold settleOp
  split
  · exact h
  next o _ =>
    dsimp only
    generalize (o.elems.all fun e => match e.st with
      | .pending | .held _ => false
      | _ => true) = b
    cases o.kind with
    | rmw u d =>
      cases d with
      | none =>
        have h1 : P (if b then countOff s o else s) := by
          split
          · exact kept_countOff hP _ h
          · exact h
        dsimp only
        split
        · exact kept_removeOp hP _ h1
        · exact h1
      | some d => exact h
    | futReg _ _ => exact h
    | futRes => exact h
    | load _ _ => exact h
    | ldl _ _ _ _ _ _ _ => exact h
    | bind _ => exact h
    | pref _ => exact h
    | _ =>
      dsimp only
      split
      · exact kept_removeOp hP _ h
      · exact h

theorem kept_translateLate {s : State} (o : Op) (c : Context) (e : Elem) (h : P s) : P (translateLate s o c e).2 := by
  unfold translateLate
  split
  · exact kept_translate hP _ _ _ _ _ h
  · exact kept_translate hP _ _ _ _ _ h
  · exact kept_translate hP _ _ _ _ _ h
  · exact kept_walkAccess hP _ _ _ _ h

theorem kept_performTogether {s : State} (o : Op) (k : Nat) (e : Elem) (pa : Nat) (h : P s) : P (performTogether s o k e pa).1 := by
  unfold performTogether
  refine kept_foldl_keys hP (fun r j h => ?_) _ h
  split
  · exact h
  split
  · exact h
  · exact kept_performHome hP _ _ _ _ h

theorem kept_homeStep {s : State} (id k : Nat) (h : P s) : P (homeStep s id k).1 := by
  unfold homeStep
  split
  · exact h
  next o _ =>
    split
    · exact h
    next e _ =>
      split
      · exact h
      split
      · exact kept_settleOp hP _ (kept_setElem hP _ _ _ (kept_streamElem hP _ _ h))
      split
      · exact kept_settleOp hP _ (kept_performTogether hP _ _ _ _ h)
      split
      · exact kept_settleOp hP _ (kept_parkElem hP _ _ _ _ h)
      split
      · exact h
      next c _ =>
        have h1 := kept_translateLate hP o c e h
        split
        next he => rw [he] at h1; exact kept_settleOp hP _ (kept_parkElem hP _ _ _ _ h1)
        next he => rw [he] at h1; exact kept_settleOp hP _ (kept_performHome hP _ _ _ _ h1)

/-! ## Harvests -/

theorem kept_applyBuffered {s : State} (b : Buffered) (h : P s) : P (applyBuffered s b) :=
  kept_foldl hP (fun _ _ h => kept_homeStep hP _ _ h) _ (hP.rest s _ rfl rfl rfl rfl rfl rfl rfl rfl (Nat.le_succ _) h)

theorem kept_harvestGrid {s : State} (grid : Nat) (key : Option (Nat × Nat)) (h : P s) : P (harvestGrid s grid key) := by
  unfold harvestGrid
  split
  · exact h
  next g hg =>
    refine kept_foldl hP (fun _ _ h => kept_applyBuffered hP _ h) _ ?_
    have := kept_updGrid hP grid (f := fun g => { g with buffered := g.buffered.filter fun b => !b.before key }) (fun _ => rfl) (fun _ => rfl) h
    rwa [updGrid, hg] at this

theorem kept_wakeHarvested {s : State} (grid : Nat) (h : P s) : P (wakeHarvested s grid) := by
  refine kept_foldl hP (fun _ _ h => ?_) _ h
  split
  · exact h
  · exact kept_goOnPhase hP _ _ _ _ h

theorem kept_harvestKeys {s : State} (grid : Nat) (ks : List (Nat × Nat)) (h : P s) : P (harvestKeys s grid ks) := by
  unfold harvestKeys
  split
  · exact kept_wakeHarvested hP _ (kept_foldl hP (fun _ _ h => kept_harvestGrid hP _ _ h) _ h)
  · exact h

theorem kept_wakeAll {s : State} (h : P s) : P (wakeAll s) := kept_foldl hP (fun _ _ h => kept_harvestKeys hP _ _ h) _ h

theorem kept_settleKeys (grid : Nat) {r : State × List (Nat × Nat)} (h : P r.1) : P (settleKeys grid r) := kept_harvestKeys hP _ _ h

theorem kept_homeRequest {s : State} (id k : Nat) (h : P s) : P (homeRequest s id k) := by
  unfold homeRequest
  split
  · exact h
  · exact kept_settleKeys hP _ (kept_homeStep hP _ _ h)

end

end Sys2Proof.Machine
end

section
/-!
SUPPORT. The end of work: groups, teams and grids retire or complete (01 R28 to R31; 12 R224, R228, R236, R401).
-/
namespace Sys2Proof.Machine

/-! ## Acknowledgements and save areas -/

/-- With no command in progress nothing is acknowledged. -/
theorem settleAcks_idle {s : State} (h : ∀ q ∈ s.queues, q.cmd = none) : settleAcks s = s := by
  rw [settleAcks]
  generalize s.queues = qs at h
  induction qs with
  | nil => rfl
  | cons q qs ih =>
    rw [List.foldl_cons, h q List.mem_cons_self]
    exact ih fun p hp => h p (List.mem_cons_of_mem _ hp)

theorem writeArea_rest (s : State) (ctx k : Nat) : { writeArea s ctx k with mem := s.mem, badGranules := s.badGranules, freeCtr := s.freeCtr } = s := by
  unfold writeArea
  split
  · rfl
  split <;> rfl

theorem writeArea_teams (s : State) (ctx k : Nat) : (writeArea s ctx k).teams = s.teams :=
  (congrArg State.teams (writeArea_rest s ctx k) :)

/-- A team away has its place, and nothing but its save area is written. -/
theorem teamAway_spec {s : State} {k : Nat} {t : Team} (h : teamOf s k = some t) (p : Place) :
    teamOf (teamAway s k p) k = some { t with place := p, haltReq := t.haltReq && p != .saved } ∧
    { teamAway s k p with mem := s.mem, badGranules := s.badGranules, freeCtr := s.freeCtr, teams := s.teams } = s := by
  have hrest := writeArea_rest s t.ctx (t.spadSize + t.recvSize)
  have hteams := writeArea_teams s t.ctx (t.spadSize + t.recvSize)
  unfold teamAway
  rw [h]
  dsimp only
  generalize writeArea s t.ctx (t.spadSize + t.recvSize) = s1 at hrest hteams
  refine ⟨?_, ?_⟩
  · have h1 : teamOf s1 k = some t := by rw [teamOf, hteams]; exact h
    exact teamOf_setTeam h1 (show t.tid = k from teamOf_tid h)
  · conv_rhs => rw [← hrest]
    rw [← hteams]
    rfl

/-! ## A group retires -/

/-- The image error of one slot, logged. -/
def logSlot (x : Group) (s : State) (y : Slot × Nat) : State :=
  match y.1.bad with
  | some b => report s (slotRecord s x (y.2 + 1) b)
  | none => s

theorem logSlots_eq (s : State) (x : Group) : logSlots s x = x.slots.zipIdx.foldl (logSlot x) s := rfl

theorem report_none_foldl (s : State) (x : Group) (l : List Slot) : ∀ i, (∀ sl ∈ l, sl.bad = none) →
    (l.zipIdx i).foldl (logSlot x) s = s := by
  induction l with
  | nil => exact fun _ _ => rfl
  | cons a l ih =>
    intro i h
    rw [List.zipIdx_cons, List.foldl_cons, logSlot, h a List.mem_cons_self]
    exact ih (i + 1) fun b hb => h b (List.mem_cons_of_mem _ hb)

theorem logSlots_none {s : State} {x : Group} (h : ∀ sl ∈ x.slots, sl.bad = none) : logSlots s x = s := report_none_foldl s x x.slots 0 h

/-- The image error of the one slot that has one is logged. -/
theorem logSlots_one {s : State} {x : Group} {k : Nat} {sl : Slot} {b : DWord × Nat} (hk : x.slots[k]? = some sl) (hb : sl.bad = some b)
    (hno : ∀ i y, i ≠ k → x.slots[i]? = some y → y.bad = none) : logSlots s x = report s (slotRecord s x (k + 1) b) := by
  obtain ⟨hlt, hget⟩ := List.getElem?_eq_some_iff.mp hk
  have hsplit : x.slots = x.slots.take k ++ sl :: x.slots.drop (k + 1) := by
    rw [← hget, List.getElem_cons_drop, List.take_append_drop]
  have hpre : ∀ y ∈ x.slots.take k, y.bad = none := fun y hy => by
    obtain ⟨i, hi, rfl⟩ := List.mem_iff_getElem.mp hy
    rw [List.length_take] at hi
    refine hno i _ (by omega) ?_
    rw [List.getElem_take, List.getElem?_eq_getElem]
  have hpost : ∀ y ∈ x.slots.drop (k + 1), y.bad = none := fun y hy => by
    obtain ⟨i, hi, rfl⟩ := List.mem_iff_getElem.mp hy
    rw [List.length_drop] at hi
    refine hno (k + 1 + i) _ (by omega) ?_
    rw [List.getElem_drop, List.getElem?_eq_getElem]
  have hlen : 0 + (x.slots.take k).length = k := by rw [List.length_take]; omega
  rw [logSlots_eq, hsplit, List.zipIdx_append, List.foldl_append, report_none_foldl s x _ 0 hpre, List.zipIdx_cons, List.foldl_cons, hlen,
    logSlot, hb]
  exact report_none_foldl _ x _ _ hpost

/-- LT noted of a group that retires. -/
theorem noteLT_spec (s : State) (x : Group) : { noteLT s x with grids := s.grids } = s ∧
    (∀ y, gridOf s x.grid = some y → gridOf (noteLT s x) x.grid = some { y with
      maxLT := (if (teamOf s x.team).map Team.spawned = some true then y.maxLT else max y.maxLT x.lt) }) := by
  have hsp : ((teamOf s x.team).map Team.spawned).getD false = true ↔ (teamOf s x.team).map Team.spawned = some true := by
    cases (teamOf s x.team).map Team.spawned with
    | none => simp
    | some b => simp
  unfold noteLT
  by_cases h : (teamOf s x.team).map Team.spawned = some true
  · rw [if_pos (hsp.mpr h)]
    exact ⟨rfl, fun y hy => by rw [if_pos h]; exact hy⟩
  · rw [if_neg fun e => h (hsp.mp e)]
    refine ⟨updGrid_rest _ _ _, fun y hy => ?_⟩
    rw [if_neg h]
    exact gridOf_updGrid hy _ rfl

theorem teamGoes_cases (s : State) (k : Nat) : teamGoes s k = s ∨ ∃ tm, teamOf s k = some tm ∧
    ((teamSaves s tm = true ∧ teamGoes s k = suspend (teamAway s k .saved) fun c => c.team == k) ∨
      (teamSaves s tm = false ∧ teamEvicts s tm = true ∧ teamGoes s k = teamAway s k .evicted)) := by
  unfold teamGoes
  split
  · exact .inl rfl
  next tm htm =>
    cases hs : teamSaves s tm with
    | true => exact .inr ⟨tm, htm, .inl ⟨hs, rfl⟩⟩
    | false =>
      cases he : teamEvicts s tm with
      | true => exact .inr ⟨tm, htm, .inr ⟨hs, he, rfl⟩⟩
      | false => exact .inl rfl

/-- Whether a team goes leaves all but its copies and itself. -/
theorem teamGoes_rest (s : State) (k : Nat) :
    { teamGoes s k with mem := s.mem, badGranules := s.badGranules, freeCtr := s.freeCtr, teams := s.teams, copies := s.copies } = s := by
  rcases teamGoes_cases s k with h | ⟨tm, htm, ⟨-, h⟩ | ⟨-, -, h⟩⟩
  · rw [h]
  · obtain ⟨-, hr⟩ := teamAway_spec htm .saved
    rw [h]
    conv_rhs => rw [← hr]
    have hc : s.copies = (teamAway s k .saved).copies := (congrArg State.copies hr :).symm
    rw [hc]
    rfl
  · obtain ⟨-, hr⟩ := teamAway_spec htm .evicted
    rw [h]
    conv_rhs => rw [← hr]
    have hc : s.copies = (teamAway s k .evicted).copies := (congrArg State.copies hr :).symm
    rw [hc]

/-- The state behind a group that has retired, before its team is looked at. -/
def groupGone (s : State) (x : Group) (g : Nat) : State := { noteLT s x with groups := s.groups.filter (·.gid != g) }

theorem groupGone_rest (s : State) (x : Group) (g : Nat) : { groupGone s x g with groups := s.groups, grids := s.grids } = s := by
  conv_rhs => rw [← (noteLT_spec s x).1]
  have h : s.groups = (noteLT s x).groups := (congrArg State.groups (noteLT_spec s x).1 :).symm
  rw [groupGone]
  rw [h]

theorem exec_groupRetire {s : State} {g : Nat} {x : Group} (h : groupOf s g = some x) (hbad : ∀ sl ∈ x.slots, sl.bad = none)
    (hcmd : ∀ q ∈ s.queues, q.cmd = none) (hs : x.splits = []) (h0 : counter x .c0 = 0) (h2 : counter x .c2 = 0) :
    exec (.groupRetire g) s = .next (endBoost (teamGoes (groupGone s x g) x.team)) := by
  have hexec : exec (.groupRetire g) s = execGroupRetire g s := rfl
  have hq : (endBoost (teamGoes (groupGone s x g) x.team)).queues = s.queues :=
    (congrArg State.queues (teamGoes_rest (groupGone s x g) x.team) :).trans (congrArg State.queues (groupGone_rest s x g) :)
  have hgone : ({ noteLT s x with groups := (noteLT s x).groups.filter (·.gid != g) } : State) = groupGone s x g := by
    have hgr : (noteLT s x).groups = s.groups := (congrArg State.groups (noteLT_spec s x).1 :)
    rw [groupGone, hgr]
  rw [hexec, execGroupRetire, h]
  dsimp only
  rw [if_pos (by simp [hs, h0, h2]), logSlots_none hbad, hgone, settleAcks_idle (by rw [hq]; exact hcmd)]

theorem teamSaves_iff {s : State} {x : Group} {g : Nat} {tm : Team} (htm : teamOf s x.team = some tm) :
    teamSaves (groupGone s x g) tm = true ↔ (tm.place ≠ .saved ∧ (∀ y ∈ s.groups.filter fun y => y.team == x.team && y.gid != g, y.place = .saved) ∧
      (∀ c ∈ s.copies, c.team = tm.tid → c.cls = .c1 ∧ c.acting = false ∧ (c.stopped = true ∨ c.parts = [])) ∧
      ((s.groups.filter fun y => y.team == x.team && y.gid != g) ≠ [] ∨ (tm.haltReq = true ∧ ∃ c ∈ s.copies, c.team = tm.tid))) := by
  have htid := teamOf_tid htm
  have hcop : (groupGone s x g).copies = s.copies := (congrArg State.copies (groupGone_rest s x g) :)
  have hgs : (groupGone s x g).groups.filter (·.team == tm.tid) = s.groups.filter fun y => y.team == x.team && y.gid != g := by
    rw [groupGone, List.filter_filter, htid]
  have hidle : copiesIdle (groupGone s x g) (·.team == tm.tid) = true ↔
      ∀ c ∈ s.copies, c.team = tm.tid → c.cls = .c1 ∧ c.acting = false ∧ (c.stopped = true ∨ c.parts = []) := by
    rw [copiesIdle, hcop, List.all_eq_true]
    refine forall₂_congr fun c _ => ?_
    simp only [Bool.or_eq_true, Bool.and_eq_true, Bool.not_eq_true', beq_iff_eq, beq_eq_false_iff_ne, List.isEmpty_iff, ne_eq]
    tauto
  unfold teamSaves
  dsimp only
  rw [hgs, hcop]
  simp only [Bool.and_eq_true, bne_iff_ne, ne_eq, hidle, List.all_eq_true, beq_iff_eq, Bool.or_eq_true, Bool.not_eq_true', List.isEmpty_eq_false_iff,
    List.any_eq_true, and_assoc]

theorem copyHolds_same {s t : State} (hc : t.copies = s.copies) (ht : t.teams = s.teams) (hh : t.handles = s.handles) (k : Nat) :
    copyHolds t k = copyHolds s k := by
  unfold copyHolds
  simp only [hc, hh, spadPlace_same ht hh]

theorem teamEvicts_iff {s : State} {x : Group} {g : Nat} {tm : Team} (htm : teamOf s x.team = some tm) :
    teamEvicts (groupGone s x g) tm = true ↔ (tm.place = .resident ∧
      (∀ y ∈ s.groups.filter fun y => y.team == x.team && y.gid != g, y.place ≠ .resident) ∧
      (∃ y ∈ s.groups.filter fun y => y.team == x.team && y.gid != g, y.place = .evicted) ∧ copyHolds s tm.tid = false) := by
  have htid := teamOf_tid htm
  have hr := groupGone_rest s x g
  have hholds : copyHolds (groupGone s x g) tm.tid = copyHolds s tm.tid := by
    exact copyHolds_same (s := s) (t := groupGone s x g) (congrArg State.copies hr :) (congrArg State.teams hr :) (congrArg State.handles hr :) _
  rw [teamEvicts, hholds, residentOf]
  simp only [Bool.and_eq_true, beq_iff_eq, List.isEmpty_iff, List.filter_eq_nil_iff, List.any_eq_true, Bool.not_eq_true', groupGone,
    List.mem_filter, bne_iff_ne, ne_eq, htid]
  constructor
  · rintro ⟨⟨⟨h1, h2⟩, y, ⟨hy, hyg⟩, hyt, hye⟩, h4⟩
    exact ⟨h1, fun z ⟨hz, hzt, hzg⟩ hzr => h2 z ⟨hz, hzg⟩ ⟨hzt, hzr⟩, ⟨y, ⟨hy, hyt, hyg⟩, hye⟩, h4⟩
  · rintro ⟨h1, h2, ⟨y, ⟨hy, hyt, hyg⟩, hye⟩, h4⟩
    exact ⟨⟨⟨h1, fun z ⟨hz, hzg⟩ ⟨hzt, hzr⟩ => h2 z ⟨hz, hzt, hzg⟩ hzr⟩, y, ⟨hy, hyg⟩, hyt, hye⟩, h4⟩

/-! ## A team retires -/

theorem teamOf_filter (s : State) (k : Nat) : teamOf { s with teams := s.teams.filter (·.tid != k) } k = none := by
  rw [teamOf, List.find?_eq_none]
  intro t ht
  have := (List.mem_filter.mp ht).2
  simpa using this

theorem teamOf_filter_other (s : State) {k m : Nat} (h : m ≠ k) : teamOf { s with teams := s.teams.filter (·.tid != k) } m = teamOf s m := by
  rw [teamOf, List.find?_filter, teamOf]
  congr 1
  funext t
  by_cases ht : t.tid = m
  · simp [ht, h]
  · simp [ht]

theorem gridOf_offerAgain (s : State) (u : Nat) : gridOf (offerAgain s) u = (gridOf s u).map fun y => { y with refused := false } := by
  rw [gridOf, offerAgain, gridOf, List.find?_map]
  rfl

theorem teamDone_iff (s : State) {n : Nat} {x : Team} (h : teamOf s n = some x) : (teamDone s x && x.overflow.isNone) = true ↔
    (∀ g ∈ s.groups, g.team ≠ n) ∧ (∀ c ∈ s.copies, c.team ≠ n) ∧ x.overflow = none ∧ (x.copyNo = 0 ∨ ∀ o ∈ s.ops, o.team ≠ n) := by
  have htid := teamOf_tid h
  simp only [teamDone, Bool.and_eq_true, List.all_eq_true, bne_iff_ne, ne_eq, Bool.or_eq_true, beq_iff_eq, Option.isNone_iff_eq_none, htid]
  tauto

/-- A launched team has retired, and refused grids are offered again. -/
theorem countRetired_grids (s : State) (x : Team) (k : Nat) : (∀ y ∈ (countRetired (removeTeam s k) x).grids, y.refused = false) ∧
    ∀ y, gridOf s x.grid = some y → gridOf (countRetired (removeTeam s k) x) x.grid =
      some { y with retired := if x.spawned then y.retired else y.retired + 1, refused := false } := by
  have hall : ∀ y ∈ (removeTeam s k).grids, y.refused = false := fun y hy => by
    obtain ⟨z, _, rfl⟩ := List.mem_map.mp hy
    rfl
  refine ⟨fun y hy => ?_, fun y hy => ?_⟩
  · unfold countRetired updGrid at hy
    split at hy
    next g hg =>
      obtain ⟨z, hz, rfl⟩ := List.mem_map.mp hy
      have hor : ∀ (p : Prop) [Decidable p] (g' : Grid), g'.refused = g.refused → (if p then g' else z).refused = false := fun p _ g' he => by
        split
        · exact he.trans (hall g (List.mem_of_find?_eq_some hg))
        · exact hall z hz
      exact hor _ _ rfl
    next => exact hall y hy
  · have h1 : gridOf (removeTeam s k) x.grid = some { y with refused := false } := by
      rw [removeTeam, gridOf_offerAgain, show gridOf { s with teams := s.teams.filter (·.tid != k) } x.grid = gridOf s x.grid from rfl, hy]
      rfl
    exact gridOf_updGrid h1 _ rfl

theorem countRetired_rest (s : State) (x : Team) (k : Nat) :
    { countRetired (removeTeam s k) x with teams := s.teams, grids := s.grids } = s ∧
      (countRetired (removeTeam s k) x).teams = s.teams.filter (·.tid != k) := by
  have h := updGrid_rest (removeTeam s k) x.grid fun g => { g with retired := if x.spawned then g.retired else g.retired + 1 }
  refine ⟨?_, (congrArg State.teams h :)⟩
  have h2 := congrArg (fun t : State => { t with teams := s.teams, grids := s.grids }) h
  exact h2

/-- The parent of a region that comes back, with the region's bytes and objects in place. -/
def regionBack (x : Team) (h : Handle) (p : Team) : Team :=
  { p with
    spad := memWriteBytes p.spad (h.first * 4096) (memReadBytes x.spad x.spadSize (h.count * 4096))
    objs := p.objs ++ (x.objs.filter fun o => decide (x.spadSize ≤ o.off)).map fun o => { o with off := h.first * 4096 + (o.off - x.spadSize) } }

theorem returnRegion_none {s : State} {x : Team} (h : x.recv.bind (handleOf s) = none) : returnRegion s x = s := by
  unfold returnRegion
  rw [h]

theorem returnRegion_some {s : State} {x : Team} {h : Handle} (hr : x.recv.bind (handleOf s) = some h) :
    returnRegion s x = { updTeam s h.parent (regionBack x h) with handles := (updTeam s h.parent (regionBack x h)).handles.filter (·.hid != h.hid) } := by
  unfold returnRegion
  rw [hr]
  rfl

theorem returnRegion_rest (s : State) (x : Team) : { returnRegion s x with teams := s.teams, handles := s.handles } = s := by
  cases hr : x.recv.bind (handleOf s) with
  | none => rw [returnRegion_none hr]
  | some h =>
    rw [returnRegion_some hr, updTeam]
    split <;> rfl

theorem regionBack_spec {x p : Team} (h : Handle) (hp : memWf p.spad = true) :
    { regionBack x h p with spad := p.spad, objs := p.objs } = p ∧
    (∀ b, b ∈ (regionBack x h p).objs ↔ b ∈ p.objs ∨
      ∃ b' ∈ x.objs, x.spadSize ≤ b'.off ∧ b = { b' with off := h.first * 4096 + (b'.off - x.spadSize) }) ∧
    (∀ i < h.count * 4096, memRead (regionBack x h p).spad (h.first * 4096 + i) = memRead x.spad (x.spadSize + i)) ∧
    ∀ a, (a < h.first * 4096 ∨ (h.first + h.count) * 4096 ≤ a) → memRead (regionBack x h p).spad a = memRead p.spad a := by
  have hread : ∀ a, memRead (regionBack x h p).spad a = _ := fun a => memRead_writeBytes _ (h.first * 4096) a hp
  simp only [memReadBytes_length] at hread
  refine ⟨rfl, fun b => ?_, fun i hi => ?_, fun a ha => ?_⟩
  · rw [regionBack]
    simp only [List.mem_append, List.mem_map, List.mem_filter, decide_eq_true_iff, and_assoc]
    exact or_congr Iff.rfl ⟨fun ⟨a, ha, hl, he⟩ => ⟨a, ha, hl, he.symm⟩, fun ⟨a, ha, hl, he⟩ => ⟨a, ha, hl, he.symm⟩⟩
  · rw [hread, if_pos (by omega), Nat.add_sub_cancel_left]
    exact memReadBytes_getD _ _ _ _ hi
  · rw [hread, if_neg (by omega)]

/-! ## A stream performed -/

/-- A store of a stream at its place. -/
theorem performItem_store {s : State} {t : Team} {x : StreamItem} (items : List StreamItem) (id : Nat) (hx : x.rmw = none) (ht : t.tid = 0)
    (h0 : teamOf s 0 = none) (hb : s.badGranules = []) :
    let r := performItem t items s id x
    r.mem = memWriteBytes s.mem (x.pa.getD 0) (natToBytes x.size x.data.toNat) ∧
      { r with mem := s.mem, groups := s.groups, cores := s.cores, joinZeros := s.joinZeros, badGranules := s.badGranules } = s ∧
      r.badGranules = [] := by
  obtain ⟨s0, hs0⟩ : ∃ s0 : State, s0 = { s with badGranules := s.badGranules.filter fun g => !((coveredGranules
      ((items.filter fun y => y.batch == x.batch && y.rmw.isNone).map fun y => { mkElem y.lane .global y.va y.pa y.size with data := y.data })
      s.badGranules).filter (touches { mkElem x.lane .global x.va x.pa x.size with data := x.data })).contains g } := ⟨_, rfl⟩
  have hs : s0 = s := by
    rw [hs0, hb]
    show { s with badGranules := [] } = s
    rw [← hb]
  obtain ⟨o, ho⟩ : ∃ o, o = ({ streamOp s t id .store [{ mkElem x.lane .global x.va x.pa x.size with data := x.data }] with
      tmpl := { (streamOp s t id .store [{ mkElem x.lane .global x.va x.pa x.size with data := x.data }]).tmpl with
        grpid := x.grpid, mask := laneBit x.lane } } : Op) := ⟨_, rfl⟩
  have hteam : o.team = 0 := by rw [ho]; rfl
  have hst : o.streamed s { mkElem x.lane .global x.va x.pa x.size with data := x.data } = false := by
    rw [Op.streamed, copyTeam, hteam, h0]
    simp
  have hgood : badGranule? s (x.pa.getD 0) x.size = none := by
    rw [badGranule?, hb]
    simp
  have hper : performItem t items s id x = noteZero (l1Update (physWrite s (x.pa.getD 0) x.size x.data.toNat) o.core (x.pa.getD 0)
      (natToBytes x.size x.data.toNat)) (x.pa.getD 0) x.size none := by
    have h1 : performItem t items s id x = (storeElem s0 o { mkElem x.lane .global x.va x.pa x.size with data := x.data }).1 := by
      unfold performItem
      rw [hx, hs0, ho]
    rw [h1, hs, storeElem]
    simp only [mkElem] at hst ⊢
    simp only [hst, Bool.false_eq_true, if_false, hgood]
    rfl
  intro r
  have hl := l1Update_rest (physWrite s (x.pa.getD 0) x.size x.data.toNat) o.core (x.pa.getD 0) (natToBytes x.size x.data.toNat)
  have hbad : (physWrite s (x.pa.getD 0) x.size x.data.toNat).badGranules = [] := by
    rw [physWrite, physWriteBytes, hb]
    rfl
  show (performItem t items s id x).mem = _ ∧ _
  refine ⟨?_, ?_, ?_⟩
  · rw [hper]
    exact (congrArg State.mem hl :)
  · show { performItem t items s id x with mem := s.mem, groups := s.groups, cores := s.cores, joinZeros := s.joinZeros, badGranules := s.badGranules } = s
    rw [hper]
    exact congrArg (fun z : State => { z with mem := s.mem, groups := s.groups, cores := s.cores, joinZeros := s.joinZeros,
                                              badGranules := s.badGranules }) hl
  · show (performItem t items s id x).badGranules = []
    rw [hper]
    exact (congrArg State.badGranules hl :).trans hbad

/-- A stream of stores performed in its order. -/
theorem performItems_stores {t : Team} (ht : t.tid = 0) (items : List StreamItem) : ∀ {s : State}, (∀ i ∈ items, i.rmw = none) → teamOf s 0 = none →
    s.badGranules = [] → (∀ o ∈ s.ops, o.id < s.nextId) → ∃ s', performItems t items s = ([], none, s') ∧ s'.mem = streamMem s.mem items ∧
      { s' with mem := s.mem, groups := s.groups, cores := s.cores, joinZeros := s.joinZeros, badGranules := s.badGranules, nextId := s.nextId } = s := by
  induction items with
  | nil => exact fun _ _ _ _ => ⟨_, rfl, rfl, rfl⟩
  | cons x items ih =>
    intro s hall h0 hb hops
    obtain ⟨hm, hrest, hbad⟩ := performItem_store (s := { s with nextId := s.nextId + 1 }) (t := t) (x :: items) s.nextId
      (hall x List.mem_cons_self) ht h0 hb
    obtain ⟨r, hr⟩ : ∃ r, r = performItem t (x :: items) { s with nextId := s.nextId + 1 } s.nextId x := ⟨_, rfl⟩
    rw [← hr] at hm hrest hbad
    have hrops : r.ops = s.ops := (congrArg State.ops hrest :)
    have hrid : r.nextId = s.nextId + 1 := (congrArg State.nextId hrest :)
    have hrteams : r.teams = s.teams := (congrArg State.teams hrest :)
    have hno : opOf r s.nextId = none := by
      rw [opOf, hrops, List.find?_eq_none]
      intro o ho
      have := hops o ho
      simp only [beq_iff_eq]
      omega
    obtain ⟨s', hs', hmem', hrest'⟩ := ih (s := r) (fun i hi => hall i (List.mem_cons_of_mem _ hi)) (by rw [teamOf, hrteams]; exact h0) hbad
      (fun o ho => by
        rw [hrops] at ho
        rw [hrid]
        exact Nat.lt_succ_of_lt (hops o ho))
    refine ⟨s', ?_, ?_, ?_⟩
    · rw [performItems]
      dsimp only [fresh]
      rw [← hr, hno]
      exact hs'
    · rw [hmem', hm]
      rfl
    · have h2 := hrest'
      have h3 := congrArg (fun z : State => ({ z with nextId := s.nextId } : State)) hrest
      have h4 := congrArg (fun z : State => ({ z with mem := s.mem, groups := s.groups, cores := s.cores, joinZeros := s.joinZeros,
                                                      badGranules := s.badGranules, nextId := s.nextId } : State)) h2
      exact h4.trans h3

/-! ## A grid completes -/

theorem packetDone_succ (s : State) (q : Queue) (i : Nat) :
    packetDone s { q with head := (q.head + 1) % 2 ^ 64 } i ↔ packetDone s q (i + 1) := by
  have : ((q.head + 1) % 2 ^ 64 + i) % 2 ^ 64 = (q.head + (i + 1)) % 2 ^ 64 := by omega
  unfold packetDone
  rw [this]

/-- HEAD passes the leading packets whose grids are complete, and no other. -/
theorem headPast_spec (s : State) (fuel : Nat) : ∀ q : Queue, q.head < 2 ^ 64 →
    (∀ i < headPast s q fuel, packetDone s q i) ∧ (headPast s q fuel < fuel → ¬ packetDone s q (headPast s q fuel)) := by
  induction fuel with
  | zero => exact fun q _ => ⟨fun i hi => absurd hi (Nat.not_lt_zero i), fun h => absurd h (Nat.lt_irrefl 0)⟩
  | succ n ih =>
    intro q hq
    have hfirst : (s.grids.any fun g => g.queue == q.num && g.slot == q.head && g.phase == .complete) = true ↔ packetDone s q 0 := by
      unfold packetDone
      rw [Nat.add_zero, Nat.mod_eq_of_lt hq]
      simp only [List.any_eq_true, Bool.and_eq_true, beq_iff_eq, and_assoc]
    rw [headPast]
    by_cases h : packetDone s q 0
    · rw [if_pos (hfirst.mpr h)]
      obtain ⟨h1, h2⟩ := ih { q with head := (q.head + 1) % 2 ^ 64 } (Nat.mod_lt _ (by decide))
      refine ⟨fun i hi => ?_, fun hlt hd => h2 (by omega) ?_⟩
      · cases i with
        | zero => exact h
        | succ i => exact (packetDone_succ s q i).mp (h1 i (by omega))
      · rw [packetDone_succ, Nat.add_comm]
        exact hd
    · rw [if_neg fun e => h (hfirst.mp e)]
      exact ⟨fun i hi => absurd hi (Nat.not_lt_zero i), fun _ => h⟩

theorem dropContext_staying {s : State} {n : Nat} (h : ∀ c, ctxOf s n = some c → c.terminating = false) : dropContext s n = s := by
  have : ((ctxOf s n).map Context.terminating).getD false = false := by
    cases hc : ctxOf s n with
    | none => rfl
    | some c => exact h c hc
  rw [dropContext, this, Bool.false_and, if_neg Bool.false_ne_true]

/-- A grid complete, with HEAD of its queue. -/
theorem finishGrid_completed {s : State} {x : Grid} {q : Queue} (hq : queueOf s x.queue = some q) (hh : q.head < 2 ^ 64) (hok : MemOk s)
    (hc : ∀ c, ctxOf s x.ctx = some c → c.terminating = false) : Completed s x q (finishGrid s x) := by
  have hnum : q.num = x.queue := beq_iff_eq.mp (List.find?_some (p := fun y : Queue => y.num == x.queue) hq)
  obtain ⟨s1, hs1⟩ : ∃ s1, s1 = setGrid s { x with phase := .complete } := ⟨_, rfl⟩
  have hlen : s1.grids.length = s.grids.length := by rw [hs1]; exact List.length_map _
  have hok1 : MemOk s1 := by rw [hs1]; exact hok
  have hq1 : queueOf s1 x.queue = some q := by rw [hs1]; exact hq
  have hqn : queueOf s1 q.num = some q := by rw [hnum]; exact hq1
  obtain ⟨h1, h2⟩ := headPast_spec s1 s1.grids.length q hh
  obtain ⟨n, hn⟩ : ∃ n, n = headPast s1 q s1.grids.length := ⟨_, rfl⟩
  rw [← hn] at h1 h2
  have hadv : advanceHead s1 x.queue = if n = 0 then s1 else setQueue { physWrite s1 (q.base + 8) 8 ((q.head + n) % 2 ^ 64) with
      grids := s1.grids.filter fun g => !(g.queue == x.queue && g.phase == .complete && decide ((g.slot + 2 ^ 64 - q.head) % 2 ^ 64 < n)) }
      { q with head := (q.head + n) % 2 ^ 64 } := by
    unfold advanceHead
    rw [hq1]
    dsimp only
    rw [← hn]
  have hfin : finishGrid s x = advanceHead s1 x.queue := by
    rw [finishGrid, ← hs1, dropContext_staying]
    have hctx : ctxOf (advanceHead s1 x.queue) x.ctx = ctxOf s x.ctx := by
      rw [hadv, hs1]
      split <;> rfl
    rw [hctx]
    exact hc
  refine ⟨n, ?_, ?_, ?_, fun hpos => ?_, fun a ha => ?_, fun g hg hph => ?_, ?_⟩
  · rw [← hs1]
    exact h1
  · rw [← hs1, ← hlen]
    exact h2
  · rw [hfin, hadv]
    split
    next h0 =>
      rw [h0, Nat.add_zero, Nat.mod_eq_of_lt hh]
      exact hqn
    next => exact find_map_key Queue.num s1.queues q { q with head := (q.head + n) % 2 ^ 64 } q.num rfl hqn
  · rw [hfin, hadv, if_neg (Nat.pos_iff_ne_zero.mp hpos)]
    exact (physRead_physWrite (s := s1) (q.base + 8) 8 _ hok1).trans (Nat.mod_eq_of_lt (Nat.mod_lt _ (by decide)))
  · rw [hfin, hadv]
    split
    next => rw [hs1]; rfl
    next h0 =>
      refine (memRead_physWrite (s := s1) (q.base + 8) 8 _ a hok1).trans ?_
      rw [if_neg (by omega), hs1]
      rfl
  · rw [← hs1] at hg
    rw [hfin, hadv]
    split
    · exact hg
    · refine List.mem_filter.mpr ⟨hg, ?_⟩
      rw [beq_eq_false_iff_ne.mpr hph]
      simp
  · rw [hfin, hadv, hs1]
    split <;> rfl

/-! ## DONE -/

/-- Walks leave whether a context is ending. -/
theorem ctxEnding_report (s : State) (r : DriverRec) (n : Nat) : ctxEnding (report s r) n = ctxEnding s n := by
  have hset : ∀ {t : State} {c c' : Context}, ctxOf t c.num = some c → c'.num = c.num → c'.terminating = c.terminating →
      ctxEnding (setCtx t c') n = ctxEnding t n := fun {t c c'} hc hn ht => by
    by_cases he : n = c.num
    · subst he
      have h1 : ctxOf (setCtx t c') c.num = some c' := by
        rw [ctxOf, setCtx, hn]
        exact find_map_key Context.num t.contexts c c' c.num hn hc
      rw [ctxEnding, ctxEnding, h1, hc]
      exact ht
    · have h1 : ctxOf (setCtx t c') n = ctxOf t n := by
        rw [ctxOf, setCtx, hn]
        exact find_map_other Context.num t.contexts c' c.num n hn he
      rw [ctxEnding, ctxEnding, h1]
  have hrec : ∀ c, ctxOf s c.num = some c → ctxEnding (writeRec s c r) n = ctxEnding s n := fun c hc => by
    rw [← hset (t := s) (c := c) (c' := { c with tail := c.tail + 1 }) hc rfl rfl, ctxEnding, ctxOf, writeRec_contexts]
    rfl
  unfold report
  split
  · rfl
  next c hc =>
    have hc' : ctxOf s c.num = some c := by rw [ctxOf_num hc]; exact hc
    split
    · split
      · exact hrec c hc'
      · exact hset (t := physWrite s (c.fring + 16) 8 (c.drop + 1)) (c := c) (c' := { c with drop := c.drop + 1 }) hc' rfl rfl
    · split
      · exact hrec c hc'
      · rfl

theorem ctxEnding_walkAccess (s : State) (c : Context) (va : DWord) (a : Access) (sup : Bool) (n : Nat) :
    ctxEnding (walkAccess s c va a sup).2 n = ctxEnding s n := by
  refine walkAccess_keeps (P := fun t => ctxEnding t n = ctxEnding s n) (fun t ctx pa e k h => ?_) rfl c va a sup
  rw [← h]
  unfold orEntry
  split
  · rfl
  split
  · exact ctxEnding_report _ _ _
  · rfl

theorem report_ops (s : State) (r : DriverRec) : (report s r).ops = s.ops := by
  have hrec : ∀ c, (writeRec s c r).ops = s.ops := fun c => by
    have ht : (physWrite (physWriteBytes s (nextRecAddr c) r.body.bytes) c.fring 8 (c.tail + 1)).ops = s.ops := by
      rw [physWrite_ops, physWriteBytes_ops]
    unfold writeRec
    simp only
    generalize physWrite (physWriteBytes s (nextRecAddr c) r.body.bytes) c.fring 8 (c.tail + 1) = t at ht ⊢
    cases r.link with
    | group gid =>
      simp only [signal, updGroup]
      split <;> simp only [setGroup, setCtx, ht]
    | _ => simp only [signal, setCtx, ht]
  unfold report
  split
  · rfl
  split
  · split
    · exact hrec _
    · rfl
  · split
    · exact hrec _
    · rfl

/-- The element of the increment of DONE. -/
theorem doneOp_elem (s : State) (x : Grid) (id : Nat) {e : Elem} (h : (doneOp s x id).elems = [e]) :
    e = { mkElem 64 .global x.done none 4 with u := .b32, op := 0, data := 1#64 } := (List.cons.inj h).1.symm

/-- The DONE word at its home: one more, and the operation is gone. -/
theorem done_home {s s3 : State} {x : Grid} {z : State} {id pa : Nat} {e : Elem} (ho : opOf s id = some (doneOp z x id))
    (he : (doneOp z x id).elems = [e]) (hn : elemNext s (doneOp z x id) 0 e = true) (hr : Reaches s (doneOp z x id) e pa s3)
    (hok : MemOk s3) (hb : badGranule? s3 pa 4 = none) :
    Wrote s3 (homeRequest s id 0) pa 4 (physRead s3 pa 4 + 1) ∧ opOf (homeRequest s id 0) id = none := by
  obtain ⟨hk0, hsp⟩ := elemNext_parts hn
  have hed := doneOp_elem z x id he
  have h4 : e.size = 4 := by rw [hed]; rfl
  have ho3 : opOf s3 id = some (doneOp z x id) := by rw [walked_opOf (reaches_walked hr)]; exact ho
  obtain ⟨s4, hrmw, hw, hops, -⟩ := rmwElem_spec (o := doneOp z x id) (k := 0) hok hsp (by rw [h4]; exact hb)
  have hval : rmwValue e.u e.op (physRead s3 pa e.size) e.data.toNat e.data2.toNat = (physRead s3 pa 4 + 1) % 2 ^ 32 := by
    rw [hed]
    rfl
  rw [hval, h4] at hw
  obtain ⟨e', he'⟩ : ∃ e' : Elem, e' = { e with st := .done, res := BitVec.ofNat 64 (physRead s3 pa e.size) } := ⟨_, rfl⟩
  rw [← he'] at hrmw
  have hstep : homeStep s id 0 = (settleOp (setElem s4 (doneOp z x id) 0 e') id, []) := by
    have hper : performHome s3 (doneOp z x id) 0 e pa = (setElem s4 (doneOp z x id) 0 e', []) := hrmw
    rw [homeStep_reach ho hn (by simp [Op.streamed, doneOp]) hr, performTogether_single (k := 0) (e := e) (by exact ho3) hk0 rfl, hper]
  have ho4 : opOf (setElem s4 (doneOp z x id) 0 e') id = some { doneOp z x id with elems := [e'] } := by
    have h1 : opOf s4 id = some (doneOp z x id) := by rw [opOf, hops]; exact ho3
    have : ({ doneOp z x id with elems := (doneOp z x id).elems.set 0 e' } : Op) = { doneOp z x id with elems := [e'] } := by
      rw [he]
      rfl
    rw [setElem, this]
    exact find_map_key Op.id s4.ops (doneOp z x id) _ id rfl h1
  have hset : settleOp (setElem s4 (doneOp z x id) 0 e') id = removeOp (setElem s4 (doneOp z x id) 0 e') id := by
    unfold settleOp
    rw [ho4]
    dsimp only [doneOp]
    rw [if_pos]
    rw [Op.performed, he']
    rfl
  have hreq : homeRequest s id 0 = settleKeys (doneOp z x id).grid (removeOp (setElem s4 (doneOp z x id) 0 e') id, []) := by
    unfold homeRequest
    rw [ho]
    dsimp only
    rw [hstep, hset]
  obtain ⟨hmem, hops', -⟩ := (settleKeys_same (doneOp z x id).grid (removeOp (setElem s4 (doneOp z x id) 0 e') id)).keeps
  rw [← hreq] at hmem hops'
  refine ⟨?_, ?_⟩
  · have hw' : Wrote s3 s4 pa 4 (physRead s3 pa 4 + 1) := ⟨by rw [hw.1]; omega, hw.2⟩
    exact hw'.mono hmem
  · rw [opOf, hops', List.find?_eq_none]
    intro o hom
    simpa using removeOp_gone _ id o hom

/-- The DONE word that faults parks. -/
theorem done_parks {s s3 : State} {x : Grid} {z : State} {id : Nat} {e : Elem} {c : Context} {f : PageFault}
    (ho : opOf s id = some (doneOp z x id)) (he : (doneOp z x id).elems = [e]) (hn : elemNext s (doneOp z x id) 0 e = true)
    (hb : behindParked s (doneOp z x id) e = false) (hc : ctxOf s x.ctx = some c) (hend : c.terminating = false)
    (ht : translateLate s (doneOp z x id) c e = (.error f, s3)) :
    ∃ e', elemAt? (homeRequest s id 0) id 0 = some e' ∧ e'.isParked = true ∧ e'.va = x.done := by
  have hed := doneOp_elem z x id he
  have hwalk : walkAccess s c e.va .rmw false = (.error f, s3) := ht
  have hending : ctxEnding s3 x.ctx = false := by
    have h1 := ctxEnding_walkAccess s c e.va .rmw false x.ctx
    rw [hwalk] at h1
    rw [h1, ctxEnding, hc]
    exact hend
  have hw3 : Walked s s3 := by
    have := walked_walkAccess s c e.va .rmw false
    rwa [hwalk] at this
  have ho3 : opOf s3 id = some (doneOp z x id) := by rw [walked_opOf hw3]; exact ho
  obtain ⟨room, hroom⟩ : ∃ b, b = decide (sluiceCount { s3 with nextId := s3.nextId + 1 } (doneOp z x id).die e.slice < Config.sluiceRoom) :=
    ⟨_, rfl⟩
  obtain ⟨e', he'⟩ : ∃ e' : Elem, e' = { e with st := if room then .parked s3.nextId else .held s3.nextId } := ⟨_, rfl⟩
  obtain ⟨s4, hs4⟩ : ∃ s4, s4 = parkElem s3 (doneOp z x id) 0 e (some f) := ⟨_, rfl⟩
  have hops : s4.ops = (setElem { s3 with nextId := s3.nextId + 1 } (doneOp z x id) 0 e').ops := by
    rw [hs4, parkElem, show ctxEnding s3 (doneOp z x id).ctx = false from hending, if_neg Bool.false_ne_true]
    dsimp only [fresh]
    rw [← hroom, ← he']
    split
    · exact report_ops _ _
    · rfl
  have ho4 : opOf s4 id = some { doneOp z x id with elems := [e'] } := by
    have : ({ doneOp z x id with elems := (doneOp z x id).elems.set 0 e' } : Op) = { doneOp z x id with elems := [e'] } := by
      rw [he]
      rfl
    rw [opOf, hops, setElem, this]
    exact find_map_key Op.id s3.ops (doneOp z x id) _ id rfl ho3
  have hset : settleOp s4 id = s4 := by
    unfold settleOp
    rw [ho4]
    dsimp only [doneOp]
    rw [if_neg]
    rw [Op.performed, he']
    cases room <;> exact Bool.false_ne_true
  simp only [elemNext, Bool.and_eq_true, beq_iff_eq, bne_iff_ne, ne_eq, Bool.not_eq_true'] at hn
  obtain ⟨⟨⟨⟨h1, h2⟩, h3⟩, h4⟩, h5⟩ := hn
  have hstep : homeStep s id 0 = (s4, []) := by
    unfold homeStep
    rw [ho]
    dsimp only
    rw [h1]
    dsimp only
    have hlate : (doneOp z x id).lateTranslated = true := rfl
    have hstr : (doneOp z x id).streamed s e = false := by simp [Op.streamed, doneOp]
    have hsp : (e.space == .scratch) = false := by rw [beq_eq_false_iff_ne]; exact h3
    rw [h2, h4, h5, hstr, hlate, hsp, hb, show ctxOf s (doneOp z x id).ctx = some c from hc]
    simp only [bne_self_eq_false, Bool.not_true, Bool.or_self, Bool.false_eq_true, if_false, ht, ← hs4, hset]
  have hreq : homeRequest s id 0 = settleKeys (doneOp z x id).grid (s4, []) := by
    unfold homeRequest
    rw [ho]
    dsimp only
    rw [hstep]
  refine ⟨e', ?_, ?_, ?_⟩
  · rw [hreq, elemAt_same (settleKeys_same _ s4), elemAt?, ho4]
    rfl
  · rw [he', Elem.isParked]
    cases room <;> rfl
  · rw [he', hed]
    rfl

/-- What a home's step leaves of queues and phases. -/
theorem homeRequest_queues (s : State) (id k : Nat) : (homeRequest s id k).queues = s.queues ∧ gridPhases (homeRequest s id k) = gridPhases s := by
  have hP : Closed (fun t => t.queues = s.queues ∧ gridPhases t = gridPhases s) False 0 :=
    ⟨fun _ _ => Nat.zero_le _, fun _ hc => hc.elim, fun _ _ _ h => h, fun a b _ _ _ _ _ hq hg _ _ h => ⟨hq.trans h.1, hg.trans h.2⟩,
      fun _ _ _ _ h => h, fun _ _ _ _ h => h⟩
  exact kept_homeRequest hP id k ⟨rfl, rfl⟩

/-! ## O48 -/

/-- What the team of a group that retires does. -/
theorem teamGoes_spec {s : State} {x : Group} {g : Nat} {tm : Team} (htm : teamOf s x.team = some tm) {A B : Prop}
    (hA : teamSaves (groupGone s x g) tm = true ↔ A) (hB : teamEvicts (groupGone s x g) tm = true ↔ B) :
    let t := endBoost (teamGoes (groupGone s x g) x.team)
    (A → teamOf t x.team = some { tm with place := .saved, haltReq := false } ∧ ∀ c ∈ t.copies, c.team = x.team → c.suspended = true) ∧
    (¬ A → t.copies = s.copies ∧ (B → teamOf t x.team = some { tm with place := .evicted }) ∧
      (¬ B → t.mem = s.mem ∧ ∀ k, teamOf t k = teamOf s k)) := by
  intro t
  have hr := groupGone_rest s x g
  have hteams : (groupGone s x g).teams = s.teams := (congrArg State.teams hr :)
  have hcop : (groupGone s x g).copies = s.copies := (congrArg State.copies hr :)
  have hmem : (groupGone s x g).mem = s.mem := (congrArg State.mem hr :)
  have htm' : teamOf (groupGone s x g) x.team = some tm := by rw [teamOf, hteams]; exact htm
  obtain ⟨r, hrdef⟩ : ∃ r, r = teamGoes (groupGone s x g) x.team := ⟨_, rfl⟩
  have hgo : r = if teamSaves (groupGone s x g) tm then suspend (teamAway (groupGone s x g) x.team .saved) fun c => c.team == x.team
      else if teamEvicts (groupGone s x g) tm then teamAway (groupGone s x g) x.team .evicted else groupGone s x g := by
    rw [hrdef, teamGoes, htm']
  have hteam : ∀ k, teamOf t k = teamOf r k := fun k => by rw [hrdef]; rfl
  have hcopies : t.copies = r.copies := by rw [hrdef]; rfl
  have htmem : t.mem = r.mem := by rw [hrdef]; rfl
  refine ⟨fun ha => ?_, fun hna => ?_⟩
  · rw [if_pos (hA.mpr ha)] at hgo
    obtain ⟨h1, -⟩ := teamAway_spec htm' .saved
    refine ⟨?_, fun c hc hct => ?_⟩
    · rw [hteam, hgo]
      refine h1.trans ?_
      rw [show (tm.haltReq && Place.saved != .saved) = false by simp]
    · rw [hcopies, hgo] at hc
      obtain ⟨y, _, rfl⟩ := List.mem_map.mp hc
      by_cases hy : (y.team == x.team) = true
      · rw [if_pos hy]
      · rw [if_neg hy] at hct
        exact absurd (beq_iff_eq.mpr hct) hy
  · rw [if_neg fun e => hna (hA.mp e)] at hgo
    refine ⟨?_, fun hb => ?_, fun hnb => ?_⟩
    · rw [hcopies, hgo]
      split
      · exact ((congrArg State.copies (teamAway_spec htm' .evicted).2 :)).trans hcop
      · exact hcop
    · rw [if_pos (hB.mpr hb)] at hgo
      rw [hteam, hgo]
      refine (teamAway_spec htm' .evicted).1.trans ?_
      rw [show (tm.haltReq && Place.evicted != .saved) = tm.haltReq by simp]
    · rw [if_neg fun e => hnb (hB.mp e)] at hgo
      refine ⟨by rw [htmem, hgo]; exact hmem, fun k => ?_⟩
      rw [hteam, hgo, teamOf, hteams]
      rfl

theorem exec_teamRetire {s : State} {n : Nat} {x : Team} (h : teamOf s n = some x) :
    exec (.teamRetire n) s = .next (if teamDone s x && x.overflow.isNone then retireTeam s x else s) := by
  have hexec : exec (.teamRetire n) s = execTeamRetire n s := rfl
  rw [hexec, execTeamRetire, h]

theorem retireTeam_unchecked {s : State} {x : Team} (h : x.copyNo = 0) : retireTeam s x = countRetired (removeTeam (returnRegion s x) x.tid) x := by
  unfold retireTeam
  rw [h]
  rfl

theorem retireTeam_copy {s : State} {x : Team} (h : x.copyNo = 1 ∨ x.copyNo = 2 ∨ x.copyNo = 3) : retireTeam s x =
    { removeTeam s x.tid with checks := s.checks.map fun k => if k.isOf x then { k with runs := k.runs ++ [copyRun x] } else k } := by
  unfold retireTeam
  rcases h with h | h | h <;> rw [h] <;> rfl

/-- An unchecked team that has ended: its number, its grid's count, and the region it received. -/
theorem retireTeam_spec {s : State} {n : Nat} {x : Team} (h : teamOf s n = some x) (h0 : x.copyNo = 0) :
    let t := retireTeam s x
    teamOf t n = none ∧ t.mem = s.mem ∧ t.groups = s.groups ∧ (∀ y ∈ t.grids, y.refused = false) ∧
      (∀ y, gridOf s x.grid = some y → gridOf t x.grid =
        some { y with retired := if x.spawned then y.retired else y.retired + 1, refused := false }) ∧
      (x.recv.bind (handleOf s) = none → ∀ k, k ≠ n → teamOf t k = teamOf s k) ∧
      (∀ r p, x.recv.bind (handleOf s) = some r → r.parent ≠ n → teamOf s r.parent = some p → teamOf t r.parent = some (regionBack x r p) ∧
        ∀ k ∈ t.handles, k.hid ≠ r.hid) := by
  intro t
  have htid := teamOf_tid h
  have ht : t = countRetired (removeTeam (returnRegion s x) n) x := by
    show retireTeam s x = _
    rw [retireTeam_unchecked h0, htid]
  obtain ⟨hgr, hcount⟩ := countRetired_grids (returnRegion s x) x n
  obtain ⟨hrest, hteams⟩ := countRetired_rest (returnRegion s x) x n
  have hreg := returnRegion_rest s x
  rw [← ht] at hgr hcount hrest hteams
  have hteam : ∀ k, k ≠ n → teamOf t k = teamOf (returnRegion s x) k := fun k hk => by
    rw [teamOf, hteams]
    exact teamOf_filter_other (returnRegion s x) hk
  refine ⟨?_, ?_, ?_, hgr, fun y hy => ?_, fun hno k hk => ?_, fun r p hr hpar hp => ⟨?_, fun k hk => ?_⟩⟩
  · rw [teamOf, hteams]
    exact teamOf_filter (returnRegion s x) n
  · exact (congrArg State.mem hrest :).trans (congrArg State.mem hreg :)
  · exact (congrArg State.groups hrest :).trans (congrArg State.groups hreg :)
  · refine hcount y ?_
    have hg : (returnRegion s x).grids = s.grids := (congrArg State.grids hreg :)
    rw [gridOf, hg]
    exact hy
  · rw [hteam k hk, returnRegion_none hno]
  · rw [hteam _ hpar, returnRegion_some hr, updTeam, hp]
    exact teamOf_setTeam hp (teamOf_tid hp : p.tid = r.parent)
  · have hh : t.handles = (returnRegion s x).handles := (congrArg State.handles hrest :)
    rw [hh, returnRegion_some hr] at hk
    simpa using (List.mem_filter.mp hk).2

/-- A copy that the comparator has accepted performs its stream, and the team is counted. -/
theorem retireTeam_accepted {s : State} {n : Nat} {x : Team} {y : Grid} {k : CheckRun} (h : teamOf s n = some x) (h4 : x.copyNo = 4)
    (hall : ∀ i ∈ x.stream, i.rmw = none) (hb : s.badGranules = []) (hops : ∀ o ∈ s.ops, o.id < s.nextId) (h0 : teamOf s 0 = none)
    (hy : gridOf s x.grid = some y) (hk : k ∈ s.checks) (hkg : k.grid = x.grid) (hkt : k.teamid = x.teamid) :
    let t := retireTeam s x
    teamOf t n = none ∧ t.mem = streamMem s.mem x.stream ∧
      gridOf t x.grid = some { y with retired := y.retired + 1, refused := false } ∧
      t.checks = s.checks.filter fun z => !(z.grid == x.grid && z.teamid == x.teamid) := by
  intro t
  have htid := teamOf_tid h
  obtain ⟨k', hk'⟩ : ∃ k', s.checks.find? (·.isOf x) = some k' := by
    cases hf : s.checks.find? (·.isOf x) with
    | some k' => exact ⟨k', rfl⟩
    | none =>
      rw [List.find?_eq_none] at hf
      exact absurd (by rw [CheckRun.isOf, hkg, hkt]; simp) (hf k hk)
  have hkis := List.find?_some hk'
  simp only [CheckRun.isOf, Bool.and_eq_true, beq_iff_eq] at hkis
  obtain ⟨hg', ht'⟩ := hkis
  obtain ⟨s1, hs1⟩ : ∃ s1, s1 = removeTeam s n := ⟨_, rfl⟩
  have hg1 : gridOf s1 x.grid = some { y with refused := false } := by
    rw [hs1, removeTeam, gridOf_offerAgain, show gridOf { s with teams := s.teams.filter (·.tid != n) } x.grid = gridOf s x.grid from rfl, hy]
    rfl
  obtain ⟨z, hz⟩ : ∃ z, z = startTeam { y with refused := false } 0 k'.teamid x.core 0 4 false 0 := ⟨_, rfl⟩
  have h01 : teamOf s1 0 = none := by
    rw [hs1]
    by_cases hn : n = 0
    · rw [hn]; exact teamOf_filter s 0
    · exact (teamOf_filter_other s fun e => hn e.symm).trans h0
  obtain ⟨s2, hper, hmem, hrest⟩ := performItems_stores (t := z) (by rw [hz]; rfl) x.stream (s := s1) hall h01 (by rw [hs1]; exact hb)
    (by rw [hs1]; exact hops)
  have hrun : t = countRetired (dropCheck s2 k') z := by
    show retireTeam s x = _
    unfold retireTeam
    rw [h4]
    dsimp only
    rw [hk', htid, ← hs1]
    dsimp only
    unfold performRun
    rw [hg', hg1]
    dsimp only
    rw [show (copyRun x).core = x.core from rfl, show (copyRun x).stream = x.stream from rfl, ← hz, hper]
    rfl
  have hcr := updGrid_rest (dropCheck s2 k') z.grid fun g => { g with retired := if z.spawned then g.retired else g.retired + 1 }
  have hzg : z.grid = x.grid := by
    rw [hz]
    exact beq_iff_eq.mp (List.find?_some (p := fun g : Grid => g.uid == x.grid) hy)
  have hzs : z.spawned = false := by rw [hz]; rfl
  have hteams : t.teams = s1.teams := by
    rw [hrun]
    exact (congrArg State.teams hcr :).trans (congrArg State.teams hrest :)
  refine ⟨?_, ?_, ?_, ?_⟩
  · rw [teamOf, hteams, hs1]
    exact teamOf_filter s n
  · rw [hrun]
    refine (congrArg State.mem hcr :).trans (hmem.trans ?_)
    rw [hs1]
    rfl
  · have hg2 : gridOf (dropCheck s2 k') z.grid = some { y with refused := false } := by
      rw [hzg, gridOf, show (dropCheck s2 k').grids = s1.grids from (congrArg State.grids hrest :)]
      exact hg1
    have := gridOf_updGrid hg2 (fun g => { g with retired := if z.spawned then g.retired else g.retired + 1 }) rfl
    rw [hzg, hzs] at this
    rw [hrun, countRetired, hzg, hzs]
    exact this
  · rw [hrun]
    refine (congrArg State.checks hcr :).trans ?_
    have hch : s2.checks = s.checks := by
      have hch : s2.checks = s1.checks := (congrArg State.checks hrest :)
      rw [hch, hs1]
      rfl
    rw [dropCheck, hch, hg', ht']

theorem exec_gridCompletion {s : State} {n : Nat} {x : Grid} (h : gridOf s n = some x) :
    (x.phase = .active → exec (.gridCompletion n) s = .next (if gridDone s x then completeGrid s x else s)) ∧
    ∀ op, x.phase = .counting op → exec (.gridCompletion n) s = .next (if (opOf s op).isNone then finishGrid s x else s) := by
  have hexec : exec (.gridCompletion n) s = execGridCompletion n s := rfl
  refine ⟨fun hp => ?_, fun op hp => ?_⟩ <;> rw [hexec, execGridCompletion, h] <;> dsimp only <;> rw [hp]

/-- The state in which DONE is counted. -/
def counting (s s1 : State) (x : Grid) : State :=
  { setGrid s1 { x with phase := .counting s.nextId } with ops := s.ops ++ [doneOp s x s.nextId], nextId := s.nextId + 1 }

theorem completeGrid_eq {s : State} {x : Grid} (h : x.buffered = [] ∨ x.faulted = true) :
    completeGrid s x = if x.done = 0#64 then finishGrid (physWrite s (x.pkt + 22) 1 (statusOf x)) x
      else homeRequest (counting s (physWrite s (x.pkt + 22) 1 (statusOf x)) x) s.nextId 0 := by
  unfold completeGrid
  rw [if_neg (by rcases h with h | h <;> simp [h])]
  rfl

/-- A grid whose DONE word is being counted. -/
theorem counting_spec {s : State} {n : Nat} {x : Grid} (h : gridOf s n = some x) (hend : ∀ c, ctxOf s x.ctx = some c → c.terminating = false)
    {s1 : State} (hs1 : { s1 with mem := s.mem, badGranules := s.badGranules } = s) :
    let t := homeRequest (counting s s1 x) s.nextId 0
    t.queues = s.queues ∧ (∃ y, gridOf t n = some y ∧ y.phase = .counting s.nextId) ∧
      ∀ e, (doneOp s x s.nextId).elems = [e] → opOf s s.nextId = none → elemNext (counting s s1 x) (doneOp s x s.nextId) 0 e = true →
        e.va = x.done ∧ e.size = 4 ∧
        (∀ pa s3, Reaches (counting s s1 x) (doneOp s x s.nextId) e pa s3 → MemOk s3 → badGranule? s3 pa 4 = none →
          Wrote s3 t pa 4 (physRead s3 pa 4 + 1) ∧ opOf t s.nextId = none) ∧
        (∀ c f s3, behindParked (counting s s1 x) (doneOp s x s.nextId) e = false → ctxOf s x.ctx = some c →
          translateLate (counting s s1 x) (doneOp s x s.nextId) c e = (.error f, s3) →
          ∃ e', elemAt? t s.nextId 0 = some e' ∧ e'.isParked = true ∧ e'.va = x.done) := by
  intro t
  have huid : x.uid = n := beq_iff_eq.mp (List.find?_some (p := fun g : Grid => g.uid == n) h)
  have hgr1 : s1.grids = s.grids := (congrArg State.grids hs1 :)
  have hq1 : s1.queues = s.queues := (congrArg State.queues hs1 :)
  have hc1 : s1.contexts = s.contexts := (congrArg State.contexts hs1 :)
  obtain ⟨hq, hph⟩ := homeRequest_queues (counting s s1 x) s.nextId 0
  refine ⟨hq.trans hq1, ?_, fun e he hno hn => ?_⟩
  · have hg2 : gridOf (counting s s1 x) n = some { x with phase := .counting s.nextId } := by
      have h1 : gridOf s1 n = some x := by rw [gridOf, hgr1]; exact h
      exact gridOf_setGrid h1 huid
    have h1 := congrFun hph n
    rw [gridPhases, gridPhases, hg2] at h1
    exact Option.map_eq_some_iff.mp h1
  · have ho : opOf (counting s s1 x) s.nextId = some (doneOp s x s.nextId) := by
      rw [opOf] at hno
      show List.find? _ (s.ops ++ [doneOp s x s.nextId]) = _
      rw [List.find?_append, hno, Option.none_or, List.find?_cons_of_pos (by simp [doneOp])]
    have hed := doneOp_elem s x s.nextId he
    refine ⟨by rw [hed]; rfl, by rw [hed]; rfl, fun pa s3 hr hok hb => done_home ho he hn hr hok hb, fun c f s3 hb hc ht => ?_⟩
    refine done_parks ho he hn hb ?_ (hend c hc) ht
    show List.find? _ s1.contexts = _
    rw [hc1]
    exact hc

/-- Settles O48: groups, teams and grids by the rules of their ends. -/
theorem lifecycle : Obligations.Lifecycle := by
  unfold Obligations.Lifecycle
  refine ⟨?_, ?_, ?_, ?_⟩
  · intro s g x h _ hcmd hbad mates saves leaves
    refine ⟨fun hs h0 h2 => ?_, fun hno => ?_⟩
    · obtain ⟨hnrest, hlt⟩ := noteLT_spec s x
      have hrest := teamGoes_rest (groupGone s x g) x.team
      have hgone := groupGone_rest s x g
      obtain ⟨r, hr⟩ : ∃ r, r = teamGoes (groupGone s x g) x.team := ⟨_, rfl⟩
      have hgroups : (endBoost (teamGoes (groupGone s x g) x.team)).groups = s.groups.filter (·.gid != g) := (congrArg State.groups hrest :)
      have hgrid : ∀ k, gridOf (endBoost (teamGoes (groupGone s x g) x.team)) k = gridOf (noteLT s x) k := fun k =>
        congrArg (List.find? fun y : Grid => y.uid == k) (congrArg State.grids hrest :)
      refine ⟨_, exec_groupRetire h hbad hcmd hs h0 h2, fun y => ?_, fun y hy => ?_, fun y z hy hz => ?_, fun tm htm => ?_, ?_, ?_⟩
      · rw [hgroups, List.mem_filter, bne_iff_ne]
      · exact ⟨_, (hgrid _).trans (hlt y hy), rfl⟩
      · rw [hgrid, hlt y hy] at hz
        rw [← Option.some.inj hz]
      · exact teamGoes_spec htm (teamSaves_iff htm) (teamEvicts_iff htm)
      · exact (congrArg State.ops hrest :).trans (congrArg State.ops hgone :)
      · exact (congrArg State.queues hrest :).trans (congrArg State.queues hgone :)
    · have hexec : exec (.groupRetire g) s = execGroupRetire g s := rfl
      rw [hexec, execGroupRetire, h]
      dsimp only
      rw [if_neg]
      simp only [Bool.and_eq_true, List.isEmpty_iff, beq_iff_eq]
      tauto
  · intro s x k sl b hk hb hno
    exact ⟨_, logSlots_one hk hb hno, rfl, rfl, rfl, rfl, rfl, rfl, rfl⟩
  · intro s n x h ended
    have hexec := exec_teamRetire h
    have hdone := teamDone_iff s h
    refine ⟨fun hno => ?_, fun hend h0 => ?_, fun hend hc => ?_, fun hend h4 hall hb hok hops h00 y k hy hk hkg hkt => ?_⟩
    · rw [hexec, if_neg fun e => hno (hdone.mp e)]
    · rw [if_pos (hdone.mpr hend)] at hexec
      obtain ⟨h1, h2, h3, h4, h5, h6, h7⟩ := retireTeam_spec h h0
      refine ⟨_, hexec, h1, h2, h3, h4, h5, h6, fun r p hr hpar hp hw => ?_⟩
      obtain ⟨hp', hh⟩ := h7 r p hr hpar hp
      obtain ⟨hrest, hobj, hin, hout⟩ := regionBack_spec (x := x) r hw
      exact ⟨_, hp', hrest, hobj, hin, hout, hh⟩
    · rw [if_pos (hdone.mpr hend), retireTeam_copy hc, teamOf_tid h] at hexec
      refine ⟨_, hexec, teamOf_filter s n, rfl, ?_⟩
      show (s.checks.map fun k => if k.isOf x then { k with runs := k.runs ++ [copyRun x] } else k) = _
      refine List.map_congr_left fun k _ => if_congr ?_ rfl rfl
      rw [CheckRun.isOf, Bool.and_eq_true, beq_iff_eq, beq_iff_eq]
    · rw [if_pos (hdone.mpr hend)] at hexec
      exact ⟨_, hexec, retireTeam_accepted h h4 hall hb hops h00 hy hk hkg hkt⟩
  · intro s n x q h hq hh hok hend
    obtain ⟨hact, hcnt⟩ := exec_gridCompletion h
    refine ⟨fun hp hd => ?_, fun hp hd hbuf => ?_, fun op hp hop => ?_, fun op hp hop => ?_⟩
    · rw [hact hp, hd, if_neg Bool.false_ne_true]
    · rw [hd, if_pos rfl, completeGrid_eq hbuf] at hact
      refine ⟨physWrite s (x.pkt + 22) 1 (statusOf x), _, wrote_physWrite (x.pkt + 22) 1 (statusOf x) hok, rfl, hact hp, fun h0 => ?_, fun h0 => ?_⟩
      · rw [if_pos h0]
        exact finishGrid_completed hq hh (memOk_physWrite _ _ _ hok) hend
      · rw [if_neg h0]
        obtain ⟨h1, h2, h3⟩ := counting_spec h hend (s1 := physWrite s (x.pkt + 22) 1 (statusOf x)) rfl
        exact ⟨h1, h2, fun o ho => by subst ho; exact h3⟩
    · rw [hcnt op hp, hop]
      exact ⟨_, rfl, finishGrid_completed hq hh hok hend⟩
    · rw [hcnt op hp]
      rw [if_neg fun e => hop (Option.isNone_iff_eq_none.mp e)]

end Sys2Proof.Machine
end

section
/-!
SUPPORT. The dispatcher: sorted lists, seats, new teams, turns, and teams placed again (01 R24 to R27; 12 R225 to R232).
-/
namespace Sys2Proof.Machine

/-! ## Sorted lists -/

theorem insertLe_perm {α : Type} (le : α → α → Bool) (x : α) (l : List α) : (insertLe le x l).Perm (x :: l) := by
  induction l with
  | nil => exact .refl _
  | cons y l ih =>
    rw [insertLe]
    split
    · exact .refl _
    · exact (ih.cons y).trans (.swap x y l)

theorem sortLe_perm {α : Type} (le : α → α → Bool) (l : List α) : (sortLe le l).Perm l := by
  induction l with
  | nil => exact .refl _
  | cons x l ih => exact (insertLe_perm le x _).trans (ih.cons x)

theorem mem_sortLe {α : Type} {le : α → α → Bool} {l : List α} {x : α} : x ∈ sortLe le l ↔ x ∈ l := (sortLe_perm le l).mem_iff

theorem insertLe_sorted {α : Type} {le : α → α → Bool} (htrans : ∀ a b c, le a b = true → le b c = true → le a c = true) {x : α}
    {l : List α} (hl : l.Pairwise fun a b => le a b = true) (htotal : ∀ y ∈ l, le x y = true ∨ le y x = true) :
    (insertLe le x l).Pairwise fun a b => le a b = true := by
  induction l with
  | nil => exact List.pairwise_singleton _ x
  | cons y l ih =>
    obtain ⟨hy, hrest⟩ := List.pairwise_cons.mp hl
    rw [insertLe]
    split
    · rename_i hxy
      refine List.pairwise_cons.mpr ⟨fun z hz => ?_, hl⟩
      rcases List.mem_cons.mp hz with rfl | hz
      · exact hxy
      · exact htrans x y z hxy (hy z hz)
    · rename_i hxy
      refine List.pairwise_cons.mpr ⟨fun z hz => ?_, ih hrest fun z hz => htotal z (List.mem_cons_of_mem _ hz)⟩
      rcases List.mem_cons.mp ((insertLe_perm le x l).mem_iff.mp hz) with rfl | hz
      · exact (htotal y (List.mem_cons_self ..)).resolve_left hxy
      · exact hy z hz

theorem sortLe_sorted {α : Type} {le : α → α → Bool} (htrans : ∀ a b c, le a b = true → le b c = true → le a c = true)
    {l : List α} (htotal : ∀ a ∈ l, ∀ b ∈ l, le a b = true ∨ le b a = true) : (sortLe le l).Pairwise fun a b => le a b = true := by
  induction l with
  | nil => exact List.Pairwise.nil
  | cons x l ih =>
    refine insertLe_sorted htrans (ih fun a ha b hb => htotal a (List.mem_cons_of_mem _ ha) b (List.mem_cons_of_mem _ hb)) fun y hy => ?_
    exact htotal x (List.mem_cons_self ..) y (List.mem_cons_of_mem _ (mem_sortLe.mp hy))

/-- The first of a sorted list comes before every other. -/
theorem sortLe_first {α : Type} {le : α → α → Bool} (htrans : ∀ a b c, le a b = true → le b c = true → le a c = true)
    {l rest : List α} {x y : α} (htotal : ∀ a ∈ l, ∀ b ∈ l, le a b = true ∨ le b a = true) (h : sortLe le l = x :: rest)
    (hy : y ∈ l) : x = y ∨ le x y = true := by
  have hs := sortLe_sorted htrans htotal
  rw [h] at hs
  have hm : y ∈ sortLe le l := mem_sortLe.mpr hy
  rw [h] at hm
  rcases List.mem_cons.mp hm with rfl | hm
  · exact .inl rfl
  · exact .inr ((List.pairwise_cons.mp hs).1 y hm)

theorem findSome_range {α : Type} {n k : Nat} {f : Nat → Option α} {x : α} (hk : k < n) (hx : f k = some x)
    (hno : ∀ j < k, f j = none) : (List.range n).findSome? f = some x := by
  obtain ⟨m, rfl⟩ : ∃ m, n = k + (m + 1) := ⟨n - k - 1, by omega⟩
  rw [List.range_add, List.findSome?_append, List.findSome?_eq_none_iff.mpr fun j hj => hno j (List.mem_range.mp hj),
    Option.none_or, List.range_succ_eq_map]
  simp [hx]

/-! ## Seats (R25) -/

/-- The quarter would take a group of these needs. -/
def SeatFits (r : Room) (n k q : Nat) : Prop := 0 < r.slots.getD q 0 ∧ n ≤ r.regs.getD q 0 ∧ k ≤ r.maps.getD q 0

/-- Quarter `b` is the best of those below `m`: it fits, with the most free registers, the least of equals. -/
def BestSeat (r : Room) (n k m : Nat) : Option Nat → Prop
  | some q => q < m ∧ SeatFits r n k q ∧ ∀ p < m, SeatFits r n k p →
      r.regs.getD p 0 < r.regs.getD q 0 ∨ (r.regs.getD p 0 = r.regs.getD q 0 ∧ q ≤ p)
  | none => ∀ p < m, ¬ SeatFits r n k p

/-- The best quarter so far once quarter `q` is looked at. -/
def seatStep (r : Room) (regs maps : Nat) (best : Option Nat) (q : Nat) : Option Nat :=
  if 0 < r.slots.getD q 0 ∧ regs ≤ r.regs.getD q 0 ∧ maps ≤ r.maps.getD q 0 then
    match best with
    | some b => if r.regs.getD b 0 < r.regs.getD q 0 then some q else some b
    | none => some q
  else best

theorem seat_eq (r : Room) (n k : Nat) : seat r n k = (List.range 4).foldl (seatStep r n k) none := rfl

theorem BestSeat.step {r : Room} {n k m : Nat} {b : Option Nat} (h : BestSeat r n k m b) :
    BestSeat r n k (m + 1) (seatStep r n k b m) := by
  unfold seatStep
  have hlast : ∀ p, p < m + 1 → p < m ∨ p = m := fun p hp => by omega
  by_cases hm : SeatFits r n k m
  · rw [if_pos (show 0 < r.slots.getD m 0 ∧ _ from hm)]
    cases b with
    | none =>
      refine ⟨Nat.lt_succ_self m, hm, fun p hp hf => ?_⟩
      rcases hlast p hp with hp | rfl
      · exact absurd hf (h p hp)
      · exact .inr ⟨rfl, Nat.le_refl _⟩
    | some q =>
      obtain ⟨hq, hfit, hbest⟩ := h
      dsimp only
      split
      · rename_i hlt
        refine ⟨Nat.lt_succ_self m, hm, fun p hp hf => ?_⟩
        rcases hlast p hp with hp | rfl
        · have := hbest p hp hf
          omega
        · exact .inr ⟨rfl, Nat.le_refl _⟩
      · rename_i hge
        refine ⟨by omega, hfit, fun p hp hf => ?_⟩
        rcases hlast p hp with hp | rfl
        · exact hbest p hp hf
        · omega
  · rw [if_neg (show ¬ (0 < r.slots.getD m 0 ∧ _) from hm)]
    cases b with
    | none =>
      intro p hp
      rcases hlast p hp with hp | rfl
      · exact h p hp
      · exact hm
    | some q =>
      obtain ⟨hq, hfit, hbest⟩ := h
      refine ⟨by omega, hfit, fun p hp hf => ?_⟩
      rcases hlast p hp with hp | rfl
      · exact hbest p hp hf
      · exact absurd hf hm

theorem seat_best (r : Room) (n k : Nat) : BestSeat r n k 4 (seat r n k) := by
  have h0 : BestSeat r n k 0 none := fun p hp => absurd hp (Nat.not_lt_zero p)
  rw [seat_eq]
  exact h0.step.step.step.step

theorem seat_some {r : Room} {n k q : Nat} (h : seat r n k = some q) : q < 4 ∧ SeatFits r n k q := by
  have := seat_best r n k
  rw [h] at this
  exact ⟨this.1, this.2.1⟩

theorem seat_iff (r : Room) (n k q : Nat) : seat r n k = some q ↔ (q < 4 ∧ SeatFits r n k q) ∧ ∀ p, p < 4 ∧ SeatFits r n k p →
    r.regs.getD p 0 < r.regs.getD q 0 ∨ (r.regs.getD p 0 = r.regs.getD q 0 ∧ q ≤ p) := by
  have hb := seat_best r n k
  constructor
  · intro h
    rw [h] at hb
    exact ⟨⟨hb.1, hb.2.1⟩, fun p hp => hb.2.2 p hp.1 hp.2⟩
  · rintro ⟨⟨hq, hf⟩, hmost⟩
    cases h : seat r n k with
    | none =>
      rw [h] at hb
      exact absurd hf (hb q hq)
    | some q' =>
      rw [h] at hb
      have h1 := hmost q' ⟨hb.1, hb.2.1⟩
      have h2 := hb.2.2 q hq hf
      exact congrArg some (by omega)

theorem seat_none_iff (r : Room) (n k : Nat) : seat r n k = none ↔ ∀ p, ¬ (p < 4 ∧ SeatFits r n k p) := by
  have hb := seat_best r n k
  constructor
  · intro h p hp
    rw [h] at hb
    exact hb p hp.1 hp.2
  · intro hno
    cases h : seat r n k with
    | none => rfl
    | some q =>
      rw [h] at hb
      exact absurd ⟨hb.1, hb.2.1⟩ (hno q)

theorem seatAll_length {r r' : Room} {needs : List (Nat × Nat)} {qs : List Nat} (h : seatAll r needs = some (qs, r')) :
    qs.length = needs.length := by
  induction needs generalizing r r' qs with
  | nil => rw [seatAll] at h; cases h; rfl
  | cons x needs ih =>
    obtain ⟨n, k⟩ := x
    rw [seatAll] at h
    cases hq : seat r n k with
    | none => rw [hq] at h; exact absurd h (by simp)
    | some q =>
      rw [hq] at h
      obtain ⟨⟨qs', r2⟩, hrec, he⟩ := Option.map_eq_some_iff.mp h
      cases he
      rw [List.length_cons, List.length_cons, ih hrec]

theorem admits_length {r : Room} {needs : List (Nat × Nat)} {spad : Nat} {pan : Bool} {qs : List Nat}
    (h : admits r needs spad pan = some qs) : qs.length = needs.length := by
  rw [admits] at h
  by_cases hr : r.teams < (if pan then 1 else 2) ∨ r.spad < spad
  · rw [if_pos hr] at h
    cases h
  · rw [if_neg hr] at h
    cases hs : seatAll r needs with
    | none => rw [hs] at h; cases h
    | some x =>
      rw [hs] at h
      dsimp only at h
      by_cases hp : (pan || decide (1 ≤ x.2.slots.sum)) = true
      · rw [if_pos hp] at h
        cases h
        exact seatAll_length hs
      · rw [if_neg hp] at h
        cases h

/-! ## New teams (R26, R27) -/

theorem offer_first {s : State} {gr : Grid} {c : Nat} {qs : List Nat} (h : FirstCore s gr c qs) :
    offer s (descNeeds gr.desc) (roundGranule gr.desc.spad) false [] = some (c, qs) := by
  obtain ⟨k, hk, rfl, ⟨hopen, hadm⟩, hno⟩ := h
  rw [offer, coreOrder, List.findSome?_map]
  refine findSome_range (k := k) hk ?_ fun j hj => ?_
  · simp only [Function.comp, List.contains_nil, Bool.not_false, Bool.and_true]
    rw [show Config.cores = 160 from rfl, hopen, if_pos rfl, hadm]
    rfl
  · simp only [Function.comp, List.contains_nil, Bool.not_false, Bool.and_true]
    rw [show Config.cores = 160 from rfl]
    split
    · rename_i ho
      cases ha : admits (roomOf s ((s.lastCore + 1 + j) % 160)) (descNeeds gr.desc) (roundGranule gr.desc.spad) false with
      | none => rfl
      | some rs => exact absurd ⟨ho, ha⟩ (hno j hj rs)
    · rfl

theorem offer_none {s : State} {gr : Grid} (h : ∀ k < 160, ∀ qs, ¬ Passes s gr k qs) :
    offer s (descNeeds gr.desc) (roundGranule gr.desc.spad) false [] = none := by
  rw [offer, List.findSome?_eq_none_iff]
  intro c hc
  rw [coreOrder] at hc
  obtain ⟨k, -, rfl⟩ := List.mem_map.mp hc
  rw [show Config.cores = 160 from rfl]
  split
  · rename_i ho
    simp only [Bool.and_eq_true] at ho
    cases ha : admits (roomOf s ((s.lastCore + 1 + k) % 160)) (descNeeds gr.desc) (roundGranule gr.desc.spad) false with
    | none => rfl
    | some rs => exact absurd ⟨ho.1, ha⟩ (h _ (Nat.mod_lt _ (by omega)) rs)
  · rfl

theorem placeTeams_all {gr : Grid} {base : Nat} {s t : State} {is : List Nat} (h : PlacedAll gr base s is t) :
    placeTeams s gr base (is.map fun i => (i, RunKind.plain)) = .ok t := by
  induction h with
  | nil s => rfl
  | cons s t i c is qs hfirst _ ih =>
    have h1 : placeTeam s gr base (i, RunKind.plain) = .ok (createTeam s gr i 0 c qs base) := by
      show placeRun s gr i 0 [] base = _
      rw [placeRun, offer_first hfirst]
    refine Eq.trans ?_ ih
    show List.foldl _ (placeTeam s gr base (i, RunKind.plain)) _ = List.foldl _ _ _
    rw [h1]

/-- A group as `addLaunched` starts it, of `x`: registers, quarter and GRPID. -/
def LaunchedAs (gr : Grid) (t : Team) (lbase : Nat) (x : Nat × Nat × Nat) (g : Group) : Prop :=
  ∃ gid sid agent priv now, g = startGroup gr t gid x.2.1 x.2.2 (if x.2.2 < gr.desc.groups0 then 0 else 1) x.1
    (t.teamid * gr.desc.groups + x.2.2) gr.teams gr.desc.groups lbase priv
    (firstSplit sid agent (Lanes.all gr.desc.narrow) gr.desc.code gr.desc.narrow now) [loWord gr.args, hiWord gr.args] []

theorem addLaunched_fold (gr : Grid) (t : Team) (lbase : Nat) (xs : List (Nat × Nat × Nat)) (s : State) :
    ∃ gs, (xs.foldl (addLaunched gr t lbase) s).groups = s.groups ++ gs ∧
      { xs.foldl (addLaunched gr t lbase) s with groups := s.groups, nextId := s.nextId } = s ∧
      List.Forall₂ (LaunchedAs gr t lbase) xs gs := by
  induction xs generalizing s with
  | nil => exact ⟨[], (List.append_nil _).symm, rfl, .nil⟩
  | cons x xs ih =>
    obtain ⟨g, hg, has⟩ : ∃ g, (addLaunched gr t lbase s x).groups = s.groups ++ [g] ∧ LaunchedAs gr t lbase x g :=
      ⟨_, rfl, _, _, _, _, _, rfl⟩
    obtain ⟨gs, hgs, hrest, hall⟩ := ih (addLaunched gr t lbase s x)
    refine ⟨g :: gs, ?_, ?_, .cons has hall⟩
    · rw [List.foldl_cons, hgs, hg, List.append_assoc]
      rfl
    · have := congrArg (fun r : State => { r with groups := s.groups, nextId := s.nextId }) hrest
      exact this

/-- What `createTeam` starts: its team, and its groups in order. -/
theorem createTeam_starts (s : State) (gr : Grid) (i no c : Nat) (qs : List Nat) (base : Nat) :
    let t := createTeam s gr i no c qs base
    let tm := startTeam gr s.nextId i c s.nextId no false gr.desc.spad
    ∃ gs, t.groups = s.groups ++ gs ∧ t.teams = s.teams ++ [tm] ∧ t.lastCore = c ∧ t.mem = s.mem ∧
      List.Forall₂ (LaunchedAs gr tm base) (((descSizes gr.desc).zip qs).zipIdx.map fun x => (x.1.1, x.1.2, x.2)) gs := by
  intro t tm
  obtain ⟨s1, hs1⟩ : ∃ s1, s1 = acquireDev { s with nextId := s.nextId + 1, teams := s.teams ++ [tm], lastCore := c } c := ⟨_, rfl⟩
  obtain ⟨gs, hgs, hrest, hall⟩ :=
    addLaunched_fold gr tm base (((descSizes gr.desc).zip qs).zipIdx.map fun x => (x.1.1, x.1.2, x.2)) s1
  have ht : t = List.foldl (addLaunched gr tm base) s1 (((descSizes gr.desc).zip qs).zipIdx.map fun x => (x.1.1, x.1.2, x.2)) := by
    rw [hs1]
    rfl
  rw [← ht] at hgs hrest
  have hmem : s1.mem = s.mem := by rw [hs1]; rfl
  refine ⟨gs, ?_, (congrArg State.teams hrest :).trans ?_, (congrArg State.lastCore hrest :).trans ?_,
    (congrArg State.mem hrest :).trans hmem, hall⟩
  · rw [hgs, hs1]
    rfl
  · rw [hs1]; rfl
  · rw [hs1]; rfl

theorem descSizes_get (d : Desc) {k n : Nat} (h : (descSizes d)[k]? = some n) :
    n = if k < d.groups0 then 8 * d.vregs0 else 8 * d.vregs1 := by
  rw [descSizes, List.getElem?_append] at h
  rw [List.length_replicate] at h
  split at h
  · rename_i hk
    rw [if_pos hk, List.eq_of_mem_replicate (List.mem_of_getElem? h)]
  · rename_i hk
    rw [if_neg hk, List.eq_of_mem_replicate (List.mem_of_getElem? h)]

theorem LaunchedAs.starts {gr : Grid} {t : Team} {base k n q : Nat} {g : Group} (h : LaunchedAs gr t base (n, q, k) g) :
    StartsAs gr t base k n q g := by
  obtain ⟨gid, sid, agent, priv, now, rfl⟩ := h
  refine ⟨rfl, rfl, rfl, rfl, rfl, rfl, rfl, rfl, rfl, rfl, rfl, rfl, ?_, rfl, ?_, rfl, rfl, rfl, rfl, rfl, rfl, rfl, rfl, rfl, rfl,
    fun x hx => ?_, _, rfl, rfl, rfl, rfl, rfl, rfl, rfl, rfl⟩
  · show ([] ++ List.replicate n LaneVec.zero).take n = _
    rw [List.nil_append, List.take_replicate, Nat.min_self]
  · rfl
  · rw [List.eq_of_mem_replicate (hx : x ∈ List.replicate 12 Slot.unbound)]
    rfl

theorem createTeam_spec (s : State) (gr : Grid) (i c base : Nat) {qs : List Nat}
    (hqs : qs.length = gr.desc.groups0 + gr.desc.groups1) :
    let t := createTeam s gr i 0 c qs base
    ∃ tm gs, t.teams = s.teams ++ [tm] ∧ t.groups = s.groups ++ gs ∧ gs.length = gr.desc.groups0 + gr.desc.groups1 ∧
      t.lastCore = c ∧ t.mem = s.mem ∧ tm.tid = s.nextId ∧ tm.grid = gr.uid ∧ tm.teamid = i ∧ tm.core = c ∧ tm.spad = [] ∧
      tm.spadSize = (gr.desc.spad + 4095) / 4096 * 4096 ∧ tm.place = .resident ∧ tm.prio = gr.prio ∧
      ∀ k g, gs[k]? = some g → StartsAs gr tm base k
        (if k < gr.desc.groups0 then 8 * gr.desc.vregs0 else 8 * gr.desc.vregs1) (qs.getD k 0) g := by
  intro t
  obtain ⟨gs, hgs, hteams, hlast, hmem, hall⟩ := createTeam_starts s gr i 0 c qs base
  have hlen : (descSizes gr.desc).length = gr.desc.groups0 + gr.desc.groups1 := by
    rw [descSizes, List.length_append, List.length_replicate, List.length_replicate]
  refine ⟨_, gs, hteams, hgs, ?_, hlast, hmem, rfl, rfl, rfl, rfl, rfl, rfl, rfl, rfl, fun k g hk => ?_⟩
  · rw [← hall.length_eq, List.length_map, List.length_zipIdx, List.length_zip, hlen, hqs, Nat.min_self]
  · obtain ⟨hkl, hkg⟩ := List.getElem?_eq_some_iff.mp hk
    have hkx := hall.length_eq ▸ hkl
    have hstart := hall.get hkx hkl
    simp only [List.get_eq_getElem, List.getElem_map, List.getElem_zipIdx, List.getElem_zip, Nat.zero_add, hkg] at hstart
    have hks : k < (descSizes gr.desc).length := by
      rw [List.length_map, List.length_zipIdx, List.length_zip] at hkx
      omega
    have hkq : k < qs.length := by omega
    rw [← descSizes_get gr.desc (List.getElem?_eq_getElem hks), List.getD_eq_getElem?_getD, List.getElem?_eq_getElem hkq]
    exact hstart.starts

/-! ## Turns (R225) -/

theorem turnOrder_first {s : State} {gr g : Grid} {rest : List Grid} (hq : ∀ x ∈ s.grids, x.queue < 8192)
    (h : turnOrder s = gr :: rest) (hg : g ∈ s.grids) (hw : gridWaits s g = true) :
    effPrio s g < effPrio s gr ∨ (effPrio s g = effPrio s gr ∧
      (roundPlace s gr.queue < roundPlace s g.queue ∨ (gr.queue = g.queue ∧ gr.slot ≤ g.slot))) := by
  have hplace : ∀ a b, a < 8192 → b < 8192 → roundPlace s a = roundPlace s b → a = b := by
    intro a b ha hb he
    unfold roundPlace at he
    rw [show Config.queues = 8192 from rfl] at he
    cases hl : s.lastQueue with
    | none => rw [hl] at he; exact he
    | some l =>
      rw [hl] at he
      dsimp only at he
      omega
  have hfirst := sortLe_first (fun a b c => ?_) (fun a ha b hb => ?_) h
    (List.mem_filter.mpr ⟨hg, hw⟩)
  · rcases hfirst with rfl | hle
    · exact .inr ⟨rfl, .inr ⟨rfl, Nat.le_refl _⟩⟩
    · simp only [Bool.or_eq_true, Bool.and_eq_true, decide_eq_true_eq, beq_iff_eq] at hle
      exact hle.imp_right fun ⟨he, hr⟩ => ⟨he.symm, hr⟩
  · simp only [Bool.or_eq_true, Bool.and_eq_true, decide_eq_true_eq, beq_iff_eq]
    intro h1 h2
    rcases h1 with h1 | ⟨h1, h1' | ⟨h1', h1''⟩⟩ <;> rcases h2 with h2 | ⟨h2, h2' | ⟨h2', h2''⟩⟩
    · exact .inl (by omega)
    · exact .inl (by omega)
    · exact .inl (by omega)
    · exact .inl (by omega)
    · exact .inr ⟨by omega, .inl (by omega)⟩
    · exact .inr ⟨by omega, .inl (by rw [← h2']; exact h1')⟩
    · exact .inl (by omega)
    · exact .inr ⟨by omega, .inl (by rw [h1']; exact h2')⟩
    · exact .inr ⟨by omega, .inr ⟨by omega, by omega⟩⟩
  · have hqa := hq a (List.mem_filter.mp ha).1
    have hqb := hq b (List.mem_filter.mp hb).1
    have hsame := hplace a.queue b.queue hqa hqb
    simp only [Bool.or_eq_true, Bool.and_eq_true, decide_eq_true_eq, beq_iff_eq]
    omega

theorem takeTurn_first {s : State} {gr : Grid} {rest : List Grid} {k : TurnKind} {t : State} (h : turnOrder s = gr :: rest)
    (hserve : serveGrid s gr = some (k, t)) (mine : TurnKind → Bool) (hk : mine k = true) : takeTurn s mine = t := by
  have hnext : nextTurn s = some (k, t) := by
    rw [nextTurn, h, List.findSome?_cons, hserve]
  rw [takeTurn, hnext]
  exact if_pos hk

theorem takeTurn_none {s : State} {gr : Grid} (h : turnOrder s = [gr]) (hserve : serveGrid s gr = none) (mine : TurnKind → Bool) :
    takeTurn s mine = s := by
  have hnext : nextTurn s = none := by
    rw [nextTurn, h, List.findSome?_cons, hserve]
    rfl
  rw [takeTurn, hnext]

/-- With no team saved and none on its way out, the grid's new teams are served. -/
theorem serveWaiting_new {s : State} {gr : Grid} (hs : savedTeams s gr = []) :
    serveWaiting s gr = if launchedLeaving s gr then none else serveNew s gr := by
  have h1 : savedSpawned s gr = [] := by rw [savedSpawned, hs]; rfl
  have h2 : savedLaunched s gr = [] := by rw [savedLaunched, hs]; rfl
  have hsp : (if gr.desc.prog = 0 ∧ gridHalting s gr.uid = true then [] else savedSpawned s gr) = [] := by rw [h1, ite_self]
  unfold serveWaiting
  dsimp only
  rw [hsp, h2]
  cases launchedLeaving s gr with
  | true => rfl
  | false =>
    show (serveNew s gr).or none = serveNew s gr
    exact Option.or_none

/-- The teams that an unchecked grid with none to run again places next, by number. -/
theorem nextTeams_plain {s : State} {gr : Grid} {is : List Nat} (hr : gr.rerun = []) (hch : gr.desc.checked = false)
    (hinv : gr.invalid = false) (hadm : gr.admission = false) (hmore : gr.nextTeam < gr.teams)
    (hwave : inWaves gr = true → gr.retired = gr.nextTeam)
    (his : is = if inWaves gr then (List.range (min gr.capacity (gr.teams - gr.nextTeam))).map (gr.nextTeam + ·) else [gr.nextTeam]) :
    nextTeams s gr = is.map fun i => (i, RunKind.plain) := by
  have hkind : ∀ i, firstKind gr i = .plain := fun i => by
    have hc : teamChecked gr i = false := by rw [teamChecked, hch, Bool.false_and]
    rw [firstKind, hc]
    rfl
  have hopen : ¬ (gr.teams ≤ gr.nextTeam ∨ gr.invalid = true ∨ gr.admission = true) := by
    rw [hinv, hadm]
    simp only [Bool.false_eq_true, or_false]
    omega
  unfold nextTeams
  rw [hr]
  dsimp only
  rw [if_neg hopen, his]
  cases hw : inWaves gr with
  | true =>
    rw [if_pos rfl, if_pos (hwave hw), if_pos rfl, List.map_map]
    exact List.map_congr_left fun k _ => by rw [hkind]; rfl
  | false => rfl

theorem sum_plain (is : List Nat) :
    ((is.map fun i => (i, RunKind.plain)).map fun u => if u.2 = .pair then 2 else 1).sum = is.length := by
  induction is with
  | nil => rfl
  | cons i is ih =>
    rw [List.map_cons, List.map_cons, List.sum_cons, ih, if_neg (by simp), List.length_cons, Nat.add_comm]

/-- The kind of the turn that places new teams of a grid with none to run again. -/
def newKind (gr : Grid) : TurnKind := if !inWaves gr then .team else if gr.desc.repro then .wave gr.uid else .whole gr.uid

theorem updGrid_twice (s : State) (n : Nat) (f f' : Grid → Grid) (hf : ∀ g, (f g).uid = g.uid) (hf' : ∀ g, (f' g).uid = g.uid) :
    updGrid (updGrid s n f) n f' = updGrid s n fun g => f' (f g) := by
  cases hg : gridOf s n with
  | none =>
    have hu : ∀ k, updGrid s n k = s := fun k => by rw [updGrid, hg]
    rw [hu, hu, hu]
  | some g =>
    rw [updGrid, gridOf_updGrid hg f (hf g), updGrid, hg, updGrid, hg]
    dsimp only
    simp only [setGrid, List.map_map]
    congr 1
    refine List.map_congr_left fun x _ => ?_
    simp only [Function.comp]
    by_cases hx : x.uid = g.uid
    · simp only [hf, hf', if_pos hx]
      rfl
    · simp only [hf, hf', if_neg hx]

section
variable {s : State} {gr : Grid} {is : List Nat} (hs : savedTeams s gr = []) (hr : gr.rerun = [])
  (hlv : launchedLeaving s gr = false) (href : gr.refused = false) (hne : is ≠ [])
  (hnext : nextTeams s gr = is.map fun i => (i, RunKind.plain)) (hholds : saveHolds s gr.ctx (is.length * descArea gr.desc) = true)
include hs hr hlv href hne hnext hholds

/-- New teams of a grid, each run once: what becomes of their placing. -/
theorem serveWaiting_plain (base : Nat) (hbase : baseOf gr = base) : serveWaiting s gr =
    match placeTeams s gr base (is.map fun i => (i, RunKind.plain)) with
    | .ok s' => some (newKind gr, placed s' gr is.length false base)
    | .error tried =>
      match makeWay s tried gr.prio
        { groups := descNeeds gr.desc, spad := roundGranule gr.desc.spad, pan := false
          skip := newSkip s tried (is.map fun i => (i, RunKind.plain)) } with
      | some s => some (.preempt, s)
      | none => some (.refused, updGrid s gr.uid fun g => { g with refused := true }) := by
  rw [serveWaiting_new hs, hlv, if_neg Bool.false_ne_true, serveNew, hnext]
  dsimp only
  rw [sum_plain, hholds, href, hr, hbase, List.length_map, if_neg]
  · rfl
  · simp only [List.isEmpty_iff, List.map_eq_nil_iff, Bool.or_eq_true, Bool.not_true, Bool.false_eq_true, or_false]
    exact hne

theorem serveGrid_placed {base : Nat} {s1 : State} (hbase : baseOf gr = base) (hall : PlacedAll gr base s is s1) :
    serveGrid s gr = some (newKind gr, served s1 gr is.length base) := by
  have hkind : ¬ (newKind gr = .preempt ∨ newKind gr = .refused) := by
    unfold newKind
    split
    · simp
    · split <;> simp
  rw [serveGrid, serveWaiting_plain hs hr hlv href hne hnext hholds base hbase, placeTeams_all hall]
  show some (newKind gr, if newKind gr = .preempt ∨ newKind gr = .refused then _ else _) = _
  rw [if_neg hkind, notWaiting, placed, updGrid_twice]
  · rfl
  · exact fun _ => rfl
  · exact fun _ => rfl

theorem serveGrid_stuck (hplain : inWaves gr = false) (his : is = [gr.nextTeam]) (hno : ∀ k < 160, ∀ qs, ¬ Passes s gr k qs) :
    serveGrid s gr =
      match makeWay s s gr.prio { groups := descNeeds gr.desc, spad := roundGranule gr.desc.spad, pan := false, skip := [] } with
      | some s => some (.preempt, s)
      | none => some (.refused, updGrid s gr.uid fun g => { g with refused := true }) := by
  subst his
  have hplace : placeTeams s gr (baseOf gr) [(gr.nextTeam, RunKind.plain)] = .error s := by
    show placeRun s gr gr.nextTeam 0 [] (baseOf gr) = _
    rw [placeRun, offer_none hno]
  have hskip : newSkip s s [(gr.nextTeam, RunKind.plain)] = [] := by
    unfold newSkip
    dsimp only
    split
    · rw [if_neg]
      simp
    · rfl
  rw [serveGrid, serveWaiting_plain hs hr hlv href hne hnext hholds _ rfl, List.map_cons, List.map_nil, hplace]
  dsimp only
  rw [hskip]
  cases makeWay s s gr.prio _ with
  | none => rfl
  | some s' => rfl

end

theorem exec_newTeams (s : State) (gr : Grid) :
    exec (if gr.desc.repro then .reproWavePlacement gr.uid else if gr.desc.prog = 0 then .concurrentPlacement gr.uid
      else .teamDispatch) s = .next (takeTurn s (if gr.desc.repro then (· == .wave gr.uid) else if gr.desc.prog = 0
        then (· == .whole gr.uid) else fun k => k == .team || k == .preempt || k == .refused)) := by
  cases gr.desc.repro with
  | true => rfl
  | false =>
    by_cases hp : gr.desc.prog = 0
    · rw [if_neg Bool.false_ne_true, if_pos hp, if_neg Bool.false_ne_true, if_pos hp]
      rfl
    · rw [if_neg Bool.false_ne_true, if_neg hp, if_neg Bool.false_ne_true, if_neg hp]
      rfl

theorem newKind_mine (gr : Grid) : (if gr.desc.repro then (· == TurnKind.wave gr.uid) else if gr.desc.prog = 0
    then (· == .whole gr.uid) else fun k => k == .team || k == .preempt || k == .refused) (newKind gr) = true := by
  unfold newKind inWaves
  cases gr.desc.repro with
  | true => simp
  | false => by_cases hp : gr.desc.prog = 0 <;> simp [hp]

theorem exec_teamDispatch (s : State) :
    exec .teamDispatch s = .next (takeTurn s fun k => k == .team || k == .preempt || k == .refused) := rfl

/-! ## Teams asked to leave (R227) -/

theorem makeWay_victim {s : State} {prio c : Nat} {n : Need} {v : Team} {vs : List Team} (hc : preemptCore s prio n = some c)
    (hv : lowerTeams s c prio = v :: vs) (hstay : ∀ t ∈ v :: vs, t.haltReq = false ∧ ∀ g ∈ s.groups, g.team = t.tid → g.haltReq = false) :
    makeWay s s prio n = some (askHalt s fun t => (leavesWith s v).contains t.tid) := by
  have hno : (v :: vs).any (teamLeaving s) = false := by
    rw [List.any_eq_false]
    intro t ht
    obtain ⟨h1, h2⟩ := hstay t ht
    simp only [teamLeaving, h1, Bool.false_or, List.any_eq_true, not_exists, not_and, Bool.and_eq_true, beq_iff_eq,
      Bool.not_eq_true]
    exact fun g hg hgt => h2 g hg hgt
  rw [makeWay, hc]
  dsimp only
  rw [hv, hno]
  rfl

theorem lowerTeams_first {s : State} {c prio : Nat} {v : Team} {vs : List Team} (h : lowerTeams s c prio = v :: vs) :
    v.prio < prio ∧ v.core = c ∧ ∀ t ∈ s.teams, t.core = c → t.place = .resident → v.prio ≤ t.prio := by
  have hv : v ∈ lowerTeams s c prio := by rw [h]; exact List.mem_cons_self ..
  rw [lowerTeams, mem_sortLe, List.mem_filter] at hv
  simp only [Bool.and_eq_true, beq_iff_eq, decide_eq_true_eq] at hv
  obtain ⟨-, ⟨hcore, -⟩, hlow⟩ := hv
  refine ⟨hlow, hcore, fun t ht htc htp => ?_⟩
  by_cases hl : t.prio < prio
  · have hfirst := sortLe_first (y := t) (fun a b c => ?_) (fun a _ b _ => ?_) h (List.mem_filter.mpr ⟨ht, by simp [htc, htp, hl]⟩)
    · rcases hfirst with rfl | hle
      · exact Nat.le_refl _
      · simp only [Bool.or_eq_true, Bool.and_eq_true, decide_eq_true_eq, beq_iff_eq] at hle
        omega
    · simp only [Bool.or_eq_true, Bool.and_eq_true, decide_eq_true_eq, beq_iff_eq]
      omega
    · simp only [Bool.or_eq_true, Bool.and_eq_true, decide_eq_true_eq, beq_iff_eq]
      omega
  · omega

theorem askHalt_teams (s : State) (sel : Team → Bool) :
    (askHalt s sel).teams = s.teams.map fun t => if sel t = true ∧ t.place ≠ .saved then { t with haltReq := true } else t := by
  show (s.teams.map fun t => _) = _
  refine List.map_congr_left fun t _ => if_congr ?_ rfl rfl
  rw [Bool.and_eq_true, bne_iff_ne]

/-! ## Private regions -/

/-- The first part of memory kept for groups that no group has: there are fewer groups than regions looked at. -/
theorem freePriv_free (s : State) (c : Nat) : ∀ g ∈ s.groups, g.ctx = c → g.priv ≠ freePriv s c := by
  intro g hg hc
  obtain ⟨used, hused⟩ : ∃ used, used = (s.groups.filter (·.ctx == c)).map Group.priv := ⟨_, rfl⟩
  have hin : g.priv ∈ used := by
    rw [hused]
    exact List.mem_map_of_mem (List.mem_filter.mpr ⟨hg, beq_iff_eq.mpr hc⟩)
  have hfree : freePriv s c = ((List.range (used.length + 1)).find? fun k => !used.contains k).getD 0 := by rw [hused]; rfl
  rw [hfree]
  cases hf : (List.range (used.length + 1)).find? fun k => !used.contains k with
  | some k =>
    have hk := List.find?_some hf
    rw [Bool.not_eq_true', List.contains_eq_mem, decide_eq_false_iff_not] at hk
    exact fun e => hk (by rw [show k = g.priv from e.symm]; exact hin)
  | none =>
    have hall : List.range (used.length + 1) ⊆ used := fun k hk => by
      have := List.find?_eq_none.mp hf k hk
      simpa using this
    have := (List.nodup_range.subperm hall).length_le
    rw [List.length_range] at this
    omega

/-! ## Groups and teams placed again (00 R3; R227) -/

theorem seatGroup_spec {s : State} {n core q : Nat} {x : Group} (h : groupOf s n = some x) :
    (∃ g, groupOf (seatGroup s core (n, q)) n = some g ∧ Reseated x core q g) ∧
    (∀ k, k ≠ n → groupOf (seatGroup s core (n, q)) k = groupOf s k) ∧
    { seatGroup s core (n, q) with groups := s.groups, cores := s.cores } = s ∧
    (∀ l ∈ (coreOf (seatGroup s core (n, q)) core).icache, l.ctx ≠ x.ctx) := by
  have hgid := groupOf_gid h
  obtain ⟨g, hg⟩ : ∃ g, g = renumber x (freeSlots s core q) := ⟨_, rfl⟩
  obtain ⟨y, hy⟩ : ∃ y : Group, y = { g with core, quarter := q, place := .resident, haltReq := false, resume := .due, splits := g.splits.map fun p => { p with halted := false } } := ⟨_, rfl⟩
  have hid : y.gid = n := by rw [hy, hg]; exact hgid
  have hseat : seatGroup s core (n, q) = setGroup (dropInstrs s core x.ctx) y := by
    rw [hy, hg, seatGroup]
    dsimp only
    rw [h]
    rfl
  rw [hseat]
  refine ⟨⟨y, groupOf_setGroup (s := dropInstrs s core x.ctx) h hid, ?_⟩, fun k hk => ?_, rfl, fun l hl => ?_⟩
  · rw [hy, hg]
    exact ⟨rfl, rfl, rfl, rfl, rfl, rfl⟩
  · exact groupOf_setGroup_other (s := dropInstrs s core x.ctx) (by rw [hid]; exact hk)
  · have hl : l ∈ (coreOf (dropInstrs s core x.ctx) core).icache := hl
    rw [dropInstrs] at hl
    by_cases hc : core < s.cores.length
    · rw [coreOf_setCore _ _ _ hc] at hl
      exact bne_iff_ne.mp (List.mem_filter.mp hl).2
    · have hsame : setCore s core { coreOf s core with icache := (coreOf s core).icache.filter (·.ctx != x.ctx), fbuf := (coreOf s core).fbuf.filter (·.ctx != x.ctx) } = s := by
        rw [setCore, List.set_eq_of_length_le (Nat.le_of_not_lt hc)]
      rw [hsame, coreOf, List.getD_eq_getElem?_getD, List.getElem?_eq_none (Nat.le_of_not_lt hc)] at hl
      exact absurd hl (List.not_mem_nil)

/-- Groups of different numbers seated one after another. -/
theorem seatGroups_spec (core : Nat) (l : List (Nat × Nat)) {s : State} (hn : (l.map Prod.fst).Nodup)
    (hin : ∀ p ∈ l, ∃ x, groupOf s p.1 = some x) :
    let t := l.foldl (fun s x => seatGroup s core x) s
    (∀ p ∈ l, ∀ x, groupOf s p.1 = some x → ∃ g, groupOf t p.1 = some g ∧ Reseated x core p.2 g) ∧
    (∀ k, k ∉ l.map Prod.fst → groupOf t k = groupOf s k) ∧
    { t with groups := s.groups, cores := s.cores } = s := by
  induction l generalizing s with
  | nil => exact ⟨fun p hp => absurd hp List.not_mem_nil, fun _ _ => rfl, rfl⟩
  | cons p l ih =>
    obtain ⟨n, q⟩ := p
    rw [List.map_cons, List.nodup_cons] at hn
    obtain ⟨hnot, hn⟩ := hn
    obtain ⟨x, hx⟩ := hin (n, q) (List.mem_cons_self ..)
    obtain ⟨⟨g, hg, hre⟩, hother, hrest, -⟩ := seatGroup_spec (core := core) (q := q) hx
    have hne : ∀ p ∈ l, p.1 ≠ n := fun p hp e => hnot (e ▸ List.mem_map.mpr ⟨p, hp, rfl⟩)
    obtain ⟨h1, h2, h3⟩ := ih (s := seatGroup s core (n, q)) hn fun p hp => by
      rw [hother _ (hne p hp)]
      exact hin p (List.mem_cons_of_mem _ hp)
    refine ⟨fun p hp y hy => ?_, fun k hk => ?_, ?_⟩
    · rcases List.mem_cons.mp hp with rfl | hp
      · have hxy : x = y := Option.some.inj (hx.symm.trans hy)
        subst hxy
        exact ⟨g, (h2 n hnot).trans hg, hre⟩
      · exact h1 p hp y (by rw [hother _ (hne p hp)]; exact hy)
    · rw [List.map_cons, List.mem_cons, not_or] at hk
      exact (h2 k hk.2).trans (hother k hk.1)
    · have := congrArg (fun r : State => { r with groups := s.groups, cores := s.cores }) h3
      exact this.trans hrest

theorem quarterFor_some {s : State} {g : Group} {spawned : Bool} {q : Nat} (h : quarterFor s g spawned = some q) :
    let r := roomOf s g.core
    (spawned = true ∨ 2 ≤ r.slots.sum) ∧ 0 < r.slots.getD q 0 ∧ g.vregs.length ≤ r.regs.getD q 0 ∧ g.phys.length ≤ r.maps.getD q 0 := by
  intro r
  unfold quarterFor at h
  dsimp only at h
  by_cases hs : (!spawned && decide ((roomOf s g.core).slots.sum < 2)) = true
  · rw [if_pos hs] at h
    cases h
  · rw [if_neg hs] at h
    refine ⟨?_, ?_⟩
    · cases spawned with
      | true => exact .inl rfl
      | false =>
        simp only [Bool.not_false, Bool.true_and, decide_eq_true_eq] at hs
        exact .inr (Nat.le_of_not_lt hs)
    · split at h
      · rename_i hfit
        cases h
        exact hfit
      · exact (seat_some h).2

theorem exec_evicted {s : State} {n q : Nat} {x : Group} {tm : Team} {gr : Grid} (h : groupOf s n = some x)
    (ht : teamOf s x.team = some tm) (hg : gridOf s x.grid = some gr) (hp : x.place = .evicted) (hh : x.haltReq = false)
    (hst : gridStopped s gr = false) (haw : awake s x = true) (htp : tm.place = .resident)
    (hq : quarterFor s { x with core := tm.core } tm.spawned = some q) :
    exec (.groupRestore n) s = .next (acquireDev (seatGroup s tm.core (n, q)) tm.core) := by
  have hexec : exec (.groupRestore n) s = execGroupRestore n s := rfl
  have hrestore : restoreGroup s x tm = some (acquireDev (seatGroup s tm.core (n, q)) tm.core) := by
    rw [restoreGroup, hq, ← groupOf_gid h]
    rfl
  rw [hexec, execGroupRestore, h]
  dsimp only
  rw [ht, hg]
  dsimp only
  rw [hp]
  dsimp only
  rw [hh, hst, haw, htp]
  dsimp only
  rw [hrestore]
  rfl

/-- A grid whose one saved team fits: the team returns. -/
theorem serveGrid_restore {s s1 : State} {gr : Grid} {tm : Team} (hs : savedTeams s gr = [tm]) (hh : gridHalting s gr.uid = false)
    (hr : restoreTeam s tm = some s1) :
    serveGrid s gr = some (.restore [tm.tid], { notWaiting s1 gr with lastQueue := some gr.queue }) := by
  have hlv : launchedLeaving s gr = false := by
    rw [launchedLeaving, List.any_eq_false]
    intro t ht he
    simp only [Bool.and_eq_true] at he
    obtain ⟨⟨hg, -⟩, hl⟩ := he
    have := List.any_eq_false.mp hh t ht
    rw [hg, hl] at this
    exact this rfl
  have hwait : serveWaiting s gr = some (.restore [tm.tid], s1) := by
    have hfit : ∀ l, (firstFit s [tm]).or l = some (.restore [tm.tid], s1) := fun l => by
      rw [firstFit, List.findSome?_cons, hr]
      rfl
    unfold serveWaiting
    dsimp only
    rw [hlv, hh, if_neg (fun e => Bool.false_ne_true e.2), if_neg Bool.false_ne_true]
    cases hsp : tm.spawned with
    | true =>
      have h1 : savedSpawned s gr = [tm] := by
        rw [savedSpawned, hs, List.filter_cons, hsp]
        rfl
      rw [h1]
      exact hfit _
    | false =>
      have h1 : savedSpawned s gr = [] := by
        rw [savedSpawned, hs, List.filter_cons, hsp]
        rfl
      have h2 : savedLaunched s gr = [tm] := by
        rw [savedLaunched, hs, List.filter_cons, hsp]
        rfl
      have htake : (if gr.desc.prog = 0 then [tm] else [tm].take 1) = [tm] := by
        split <;> rfl
      have hall : restoreAll s [tm] = .ok s1 := by
        rw [restoreAll, List.foldl_cons]
        dsimp only
        rw [hr]
        rfl
      have hserve : serveLaunched s gr = some (.restore [tm.tid], s1) := by
        unfold serveLaunched
        dsimp only
        rw [h2, htake, hall]
        rfl
      rw [h1, h2, if_neg (by simp), hserve]
      rfl
  rw [serveGrid, hwait]
  rfl

theorem restoreTurn_first {s s1 : State} {gr : Grid} {rest : List Grid} {tm : Team} (h : turnOrder s = gr :: rest)
    (hs : savedTeams s gr = [tm]) (hh : gridHalting s gr.uid = false) (hr : restoreTeam s tm = some s1) :
    restoreTurn s tm.tid = { notWaiting s1 gr with lastQueue := some gr.queue } :=
  takeTurn_first h (serveGrid_restore hs hh hr) _ (by simp)

theorem forall_mem_zip {α β : Type} {l : List α} {m : List β} (h : m.length = l.length) {a : α} (ha : a ∈ l) : ∃ b, (a, b) ∈ l.zip m := by
  induction l generalizing m with
  | nil => exact absurd ha List.not_mem_nil
  | cons x l ih =>
    cases m with
    | nil => simp at h
    | cons y m =>
      rw [List.zip_cons_cons]
      rcases List.mem_cons.mp ha with rfl | ha
      · exact ⟨y, List.mem_cons_self ..⟩
      · obtain ⟨b, hb⟩ := ih (Nat.succ.inj h) ha
        exact ⟨b, List.mem_cons_of_mem _ hb⟩

theorem map_fst_zip_eq {α β : Type} {l : List α} {m : List β} (h : m.length = l.length) : (l.zip m).map Prod.fst = l :=
  List.map_fst_zip (by omega)

theorem mem_teamGroups {s : State} {n : Nat} {g : Group} : g ∈ teamGroups s n ↔ g ∈ s.groups ∧ g.team = n := by
  rw [teamGroups, mem_sortLe, List.mem_filter, beq_iff_eq]

theorem teamGroups_nodup {s : State} (hn : (s.groups.map Group.gid).Nodup) (n : Nat) : ((teamGroups s n).map Group.gid).Nodup := by
  rw [teamGroups, ((sortLe_perm _ _).map Group.gid).nodup_iff]
  exact hn.sublist (List.filter_sublist.map _)

/-- A team saved whole that fits: on which core, and what it finds there. -/
theorem restoreTeam_spec {s s1 : State} {n : Nat} {tm : Team} (hids : IdsOk s) (ht : teamOf s n = some tm)
    (h : restoreTeam s tm = some s1) :
    ∃ c, (∀ qs, admitsTeam s tm tm.core = some qs → c = tm.core) ∧ (∃ qs, admitsTeam s tm c = some qs) ∧
      teamOf s1 tm.tid = some { tm with
        core := c, seq := s.nextId, place := .resident, haltReq := false
        ranOn := if c = tm.core then tm.ranOn else tm.core :: tm.ranOn } ∧ s1.lastCore = c ∧ s1.mem = s.mem ∧
      (∀ y ∈ s.groups, y.team = tm.tid → ∃ g q, groupOf s1 y.gid = some g ∧ Reseated y c q g) ∧
      (∀ y ∈ s.groups, y.team ≠ tm.tid → groupOf s1 y.gid = some y) ∧
      s1.copies = s.copies.map fun k => if k.team = tm.tid ∧ ∀ g ∈ s.groups, g.gid ≠ k.gid
        then { k with suspended := false, core := c, die := c / 40 } else k := by
  obtain ⟨⟨c, qs⟩, hfind, hs1⟩ := Option.map_eq_some_iff.mp h
  have hadm : admitsTeam s tm c = some qs := by
    obtain ⟨c', -, hc'⟩ := List.exists_of_findSome?_eq_some hfind
    obtain ⟨qs', hqs', he⟩ := Option.map_eq_some_iff.mp hc'
    cases he
    exact hqs'
  have hformer : ∀ rs, admitsTeam s tm tm.core = some rs → c = tm.core := fun rs hrs => by
    rw [List.findSome?_cons, hrs] at hfind
    cases hfind
    rfl
  obtain ⟨x, hx⟩ : ∃ x : Team, x = { tm with
      core := c, seq := s.nextId, place := .resident, haltReq := false
      ranOn := if c = tm.core then tm.ranOn else tm.core :: tm.ranOn } := ⟨_, rfl⟩
  obtain ⟨s0, hs0⟩ : ∃ s0 : State, s0 = reissue { setTeam { s with nextId := s.nextId + 1 } x with
      lastCore := c, handles := s.handles.map fun h => if tm.recv = some h.hid then { h with core := c } else h } c
      (fun k => k.team == tm.tid && !(s.groups.any fun g => g.gid == k.gid)) := ⟨_, rfl⟩
  have hgroups0 : s0.groups = s.groups := by rw [hs0]; rfl
  have hof : ∀ y ∈ s.groups, groupOf s0 y.gid = some y := fun y hy => by
    rw [groupOf, hgroups0]
    exact groupOf_of_mem hids.groups hy
  have hs1 : acquireDev ((((teamGroups s0 tm.tid).map Group.gid).zip qs).foldl (fun s x => seatGroup s c x) s0) c = s1 := by
    rw [hs0, hx]
    exact hs1
  have hteam : teamGroups s0 tm.tid = teamGroups s tm.tid := by rw [teamGroups, hgroups0]; rfl
  have hlen : qs.length = ((teamGroups s tm.tid).map Group.gid).length := by
    rw [admitsTeam] at hadm
    split at hadm
    · rw [admits_length hadm, List.length_map, List.length_map]
    · cases hadm
  rw [hteam] at hs1
  obtain ⟨hseat, hother, hrest⟩ := seatGroups_spec c (((teamGroups s tm.tid).map Group.gid).zip qs) (s := s0)
    (by rw [map_fst_zip_eq hlen]; exact teamGroups_nodup hids.groups _)
    (fun p hp => by
      obtain ⟨y, hy, he⟩ := List.mem_map.mp (List.of_mem_zip hp).1
      exact ⟨y, he ▸ hof y (mem_teamGroups.mp hy).1⟩)
  obtain ⟨s2, hs2⟩ : ∃ s2, s2 = (((teamGroups s tm.tid).map Group.gid).zip qs).foldl (fun s x => seatGroup s c x) s0 := ⟨_, rfl⟩
  rw [← hs2] at hseat hother hrest hs1
  have htid := teamOf_tid ht
  subst hs1
  refine ⟨c, hformer, ⟨qs, hadm⟩, ?_, (congrArg State.lastCore hrest :).trans ?_, (congrArg State.mem hrest :).trans ?_,
    fun y hy hyt => ?_, fun y hy hyt => ?_, (congrArg State.copies hrest :).trans ?_⟩
  · have hteams : (acquireDev s2 c).teams = (setTeam s x).teams := (congrArg State.teams hrest :).trans (by rw [hs0]; rfl)
    rw [teamOf_teams hteams, ← hx, htid]
    exact teamOf_setTeam ht (by rw [hx]; exact htid)
  · rw [hs0]; rfl
  · rw [hs0]; rfl
  · obtain ⟨q, hq⟩ := forall_mem_zip hlen (List.mem_map_of_mem (f := Group.gid) (mem_teamGroups.mpr ⟨hy, hyt⟩))
    obtain ⟨g, hg, hre⟩ := hseat _ hq y (hof y hy)
    exact ⟨g, q, hg, hre⟩
  · refine (hother y.gid ?_).trans (hof y hy)
    rw [map_fst_zip_eq hlen]
    rintro hin
    obtain ⟨z, hz, he⟩ := List.mem_map.mp hin
    obtain ⟨hz, hzt⟩ := mem_teamGroups.mp hz
    have h1 := hof z hz
    rw [he, hof y hy] at h1
    cases h1
    exact hyt hzt
  · rw [hs0]
    show (s.copies.map fun k => _) = _
    refine List.map_congr_left fun k _ => if_congr ?_ rfl rfl
    simp only [Bool.and_eq_true, beq_iff_eq, Bool.not_eq_true', List.any_eq_false]

/-- A copy of a checked team keeps off the cores of another copy of it. -/
theorem admitsTeam_barred {s : State} {t x : Team} {core : Nat} (hx : x ∈ s.teams) (hne : x.tid ≠ t.tid) (h1 : x.copyNo ≠ 0)
    (h2 : t.copyNo ≠ 0) (hg : x.grid = t.grid) (hi : x.teamid = t.teamid) (hc : core = x.core ∨ core ∈ x.ranOn) :
    admitsTeam s t core = none := by
  have hbar : core ∈ barredCores s t := by
    rw [barredCores, if_neg h2, List.mem_append]
    refine .inl (List.mem_flatMap.mpr ⟨x, hx, ?_⟩)
    rw [if_pos (by simp [hne, h1, hg, hi])]
    exact List.mem_cons.mpr hc
  rw [admitsTeam, if_neg]
  simp [hbar]

/-- Settles O50: the order of turns, new teams, teams asked to leave, and teams placed again. -/
theorem dispatch : Obligations.Dispatch := by
  unfold Obligations.Dispatch
  refine ⟨fun s gr g rest => turnOrder_first, ?_, fun s gr i c base qs h => createTeam_spec s gr i c base h,
    fun r n k q => ⟨seat_iff r n k q, seat_none_iff r n k⟩, ?_, ?_, ?_, freePriv_free, ?_, ?_, ?_, ?_⟩
  · intro s gr rest is s1 hturn hs hr hch hinv hadm hmore href hlv wave base hw his hholds hall
    have hwave : wave = inWaves gr := rfl
    have hplain := nextTeams_plain (s := s) (is := is) hr hch hinv hadm hmore (fun e => (hw (hwave ▸ e)).1) his
    have hne : is ≠ [] := by
      rw [his]
      cases hwv : wave with
      | false => exact List.cons_ne_nil _ _
      | true =>
        have := (hw hwv).2
        rw [if_pos rfl]
        simp only [ne_eq, List.map_eq_nil_iff, List.range_eq_nil]
        omega
    have hbase : baseOf gr = base := by
      rw [baseOf, hr]
      simp only [List.isEmpty_nil, Bool.not_true, Bool.false_eq_true, if_false, Bool.not_eq_true']
      rfl
    rw [exec_newTeams, takeTurn_first hturn (serveGrid_placed hs hr hlv href hne hplain hholds hbase hall) _ (newKind_mine gr)]
  · intro s gr rest c v vs hturn hs hr hch hinv hadm hmore hrepro hprog hholds href hlv hno hcore hv hstay
    have hw : inWaves gr = false := by simp [inWaves, hrepro, hprog]
    have hplain := nextTeams_plain (s := s) (is := [gr.nextTeam]) hr hch hinv hadm hmore (fun e => by rw [hw] at e; cases e)
      (by rw [hw]; rfl)
    have hserve := serveGrid_stuck hs hr hlv href (List.cons_ne_nil _ _) hplain (by rw [List.length_singleton, Nat.one_mul]; exact hholds)
      hw rfl hno
    rw [makeWay_victim hcore hv hstay] at hserve
    obtain ⟨h1, h2, h3⟩ := lowerTeams_first hv
    refine ⟨h1, h2, h3, ?_, askHalt_teams s _⟩
    rw [exec_teamDispatch, takeTurn_first hturn hserve _ (by simp)]
  · intro s gr hturn hs hr hch hinv hadm hmore hrepro hprog hholds hlv hno hcore
    have hw : inWaves gr = false := by simp [inWaves, hrepro, hprog]
    cases href : gr.refused with
    | true =>
      have hserve : serveGrid s gr = none := by
        rw [serveGrid, serveWaiting_new hs, hlv, if_neg Bool.false_ne_true, serveNew, href, Bool.or_true, Bool.true_or]
        rfl
      rw [exec_teamDispatch, takeTurn_none hturn hserve]
      rfl
    | false =>
      have hplain := nextTeams_plain (s := s) (is := [gr.nextTeam]) hr hch hinv hadm hmore (fun e => by rw [hw] at e; cases e)
        (by rw [hw]; rfl)
      have hserve := serveGrid_stuck hs hr hlv href (List.cons_ne_nil _ _) hplain (by rw [List.length_singleton, Nat.one_mul]; exact hholds)
        hw rfl hno
      rw [makeWay, hcore] at hserve
      rw [exec_teamDispatch, takeTurn_first hturn hserve _ (by simp)]
      rfl
  · intro s gr hturn hs hor
    have hserve : serveGrid s gr = none := by
      rw [serveGrid, serveWaiting_new hs]
      rcases hor with href | hlv
      · rw [serveNew, href, Bool.or_true, Bool.true_or]
        cases launchedLeaving s gr <;> rfl
      · rw [hlv]
        rfl
    rw [exec_teamDispatch, takeTurn_none hturn hserve]
  · intro s n q x tm gr hids h ht hg hp hh hst haw htp hq
    obtain ⟨h1, h2, h3, h4⟩ := seatGroup_spec (core := tm.core) (q := q) h
    obtain ⟨g, hg', hre⟩ := h1
    exact ⟨quarterFor_some hq, _, g, hg', hre, h2, h3, h4, exec_evicted h ht hg hp hh hst haw htp hq⟩
  · intro s s1 gr rest n x tm hids hturn h ht hg hp hs hh hr
    refine ⟨?_, restoreTeam_spec hids ht hr⟩
    have htp : tm.place = .saved := by
      have : tm ∈ savedTeams s gr := by rw [hs]; exact List.mem_singleton_self tm
      rw [savedTeams, List.mem_filter, Bool.and_eq_true, beq_iff_eq, beq_iff_eq] at this
      exact this.2.2
    have hexec : exec (.groupRestore n) s = execGroupRestore n s := rfl
    rw [hexec, execGroupRestore, h]
    dsimp only
    rw [ht, hg]
    dsimp only
    rw [hp]
    dsimp only
    rw [htp, if_neg (by simp), restoreTurn_first hturn hs hh hr]
  · intro s s1 gr rest n tm hturn h ht htp hs hh hr
    have hexec : exec (.groupRestore n) s = execGroupRestore n s := rfl
    rw [hexec, execGroupRestore, h, ht]
    dsimp only
    rw [show (some tm).any (·.place == .saved) = true by rw [Option.any_some, htp]; rfl, if_pos rfl, ← teamOf_tid ht,
      restoreTurn_first hturn hs hh hr]
  · exact fun s t x core hx hne h1 h2 hg hi hc => admitsTeam_barred hx hne h1 h2 hg hi hc

end Sys2Proof.Machine
end

section
/-!
SUPPORT. Pre-emption: commands of a queue, pans that are emptied, groups and teams written out, and groups that resume (11 R214 to
R217; 12 R220, R228).
-/
namespace Sys2Proof.Machine

/-! ## Queues and contexts -/

theorem queueOf_num {s : State} {n : Nat} {q : Queue} (h : queueOf s n = some q) : q.num = n := by
  simpa using List.find?_some h

theorem queueOf_setQueue_num {s : State} {n : Nat} {q x : Queue} (h : queueOf s n = some x) (hq : q.num = n) :
    queueOf (setQueue s q) n = some q := by
  subst hq
  exact find_map_key Queue.num s.queues x q q.num rfl h

theorem queueOf_setQueue_other {s : State} {q : Queue} {m : Nat} (h : m ≠ q.num) : queueOf (setQueue s q) m = queueOf s m :=
  find_map_other Queue.num s.queues q q.num m rfl h

theorem ctxOf_setCtx_num {s : State} {n : Nat} {c x : Context} (h : ctxOf s n = some x) (hc : c.num = n) :
    ctxOf (setCtx s c) n = some c := by
  subst hc
  exact find_map_key Context.num s.contexts x c c.num rfl h

theorem ctxOf_setCtx_other {s : State} {c : Context} {m : Nat} (h : m ≠ c.num) : ctxOf (setCtx s c) m = ctxOf s m :=
  find_map_other Context.num s.contexts c c.num m rfl h

/-! ## Brine -/

/-- From `s` to `t` contexts have only gained records in their brine queues. -/
def BrineGrew (s t : State) : Prop := ∀ n x, ctxOf s n = some x → ∃ l, ctxOf t n = some { x with brine := x.brine ++ l }

theorem BrineGrew.refl (s : State) : BrineGrew s s := fun _ x h => ⟨[], by rw [List.append_nil]; exact h⟩

theorem BrineGrew.trans {a b c : State} (h : BrineGrew a b) (k : BrineGrew b c) : BrineGrew a c := fun n x hx => by
  obtain ⟨l, hl⟩ := h n x hx
  obtain ⟨m, hm⟩ := k n _ hl
  exact ⟨l ++ m, by rw [hm, List.append_assoc]⟩

/-- A record to its context's brine queue. -/
def toBrine (s : State) (r : ThreadRec) : State :=
  match ctxOf s r.ctx with
  | some x => setCtx s { x with brine := x.brine ++ [r] }
  | none => s

theorem toBrine_rest (s : State) (r : ThreadRec) : { toBrine s r with contexts := s.contexts } = s := by
  unfold toBrine
  split <;> rfl

theorem toBrine_grew (s : State) (r : ThreadRec) : BrineGrew s (toBrine s r) ∧
    ∀ x, ctxOf s r.ctx = some x → ∃ x', ctxOf (toBrine s r) r.ctx = some x' ∧ r ∈ x'.brine := by
  unfold toBrine
  cases hc : ctxOf s r.ctx with
  | none => exact ⟨.refl s, fun x hx => nomatch hx⟩
  | some y =>
    have hy := ctxOf_num hc
    have hset : ctxOf (setCtx s { y with brine := y.brine ++ [r] }) r.ctx = some { y with brine := y.brine ++ [r] } :=
      ctxOf_setCtx_num hc hy
    refine ⟨fun n x hx => ?_, fun x hx => ⟨_, hset, List.mem_append.mpr (.inr (List.mem_singleton_self r))⟩⟩
    by_cases hn : n = r.ctx
    · subst hn
      rw [hc] at hx
      cases hx
      exact ⟨[r], hset⟩
    · refine ⟨[], ?_⟩
      rw [ctxOf_setCtx_other (by rw [show ({ y with brine := y.brine ++ [r] } : Context).num = y.num from rfl, hy]; exact hn),
        List.append_nil]
      exact hx

theorem toBrine_fold (rs : List ThreadRec) (s : State) :
    let t := rs.foldl toBrine s
    { t with contexts := s.contexts } = s ∧ BrineGrew s t ∧
      ∀ r ∈ rs, ∀ x, ctxOf s r.ctx = some x → ∃ x', ctxOf t r.ctx = some x' ∧ r ∈ x'.brine := by
  induction rs generalizing s with
  | nil => exact ⟨rfl, .refl s, fun r hr => absurd hr List.not_mem_nil⟩
  | cons r rs ih =>
    obtain ⟨h1, h2, h3⟩ := ih (toBrine s r)
    obtain ⟨hg, hr⟩ := toBrine_grew s r
    refine ⟨?_, hg.trans h2, fun r' hr' x hx => ?_⟩
    · have := congrArg (fun t : State => { t with contexts := s.contexts }) h1
      exact this.trans (toBrine_rest s r)
    · rcases List.mem_cons.mp hr' with rfl | hr'
      · obtain ⟨x', hx', hin⟩ := hr x hx
        obtain ⟨l, hl⟩ := h2 _ _ hx'
        exact ⟨_, hl, List.mem_append.mpr (.inl hin)⟩
      · obtain ⟨l, hl⟩ := hg _ _ hx
        exact h3 r' hr' _ hl

/-! ## Pans that are emptied -/

/-- A core without the pans of some grids. -/
def clearPans (sel : Nat → Bool) (k : Core) : Core :=
  { k with pans := k.pans.map fun p => if (p.map fun x => sel x.grid).getD false then none else p }

theorem clearPans_gone {sel : Nat → Bool} {k : Core} {p : Pan} (h : some p ∈ (clearPans sel k).pans) : sel p.grid = false := by
  obtain ⟨q, -, he⟩ := List.mem_map.mp h
  split at he
  · cases he
  · rename_i hs
    rw [he] at hs
    exact Bool.eq_false_iff.mpr hs

theorem clearPans_same {sel : Nat → Bool} {k : Core} (h : (k.pans.filter fun p => (p.map fun x => sel x.grid).getD false) = []) :
    clearPans sel k = k := by
  have hp : k.pans.map (fun p => if (p.map fun x => sel x.grid).getD false then none else p) = k.pans := by
    refine (List.map_congr_left fun p hp => ?_).trans (List.map_id _)
    rw [if_neg (List.filter_eq_nil_iff.mp h p hp)]
    rfl
  rw [clearPans, hp]

theorem spillPans_spec (s : State) (c : Nat) (sel : Nat → Bool) :
    let t := spillPans s c sel
    { t with contexts := s.contexts, cores := s.cores } = s ∧ BrineGrew s t ∧ t.cores = s.cores.set c (clearPans sel (coreOf s c)) ∧
      ∀ p, some p ∈ (coreOf s c).pans → sel p.grid = true → ∀ r ∈ p.recs, ∀ x, ctxOf s r.ctx = some x →
        ∃ x', ctxOf t r.ctx = some x' ∧ r ∈ x'.brine := by
  intro t
  obtain ⟨out, hout⟩ : ∃ out, out = (coreOf s c).pans.filter fun p => (p.map fun x => sel x.grid).getD false := ⟨_, rfl⟩
  have ht : t = if out.isEmpty then s else
      (out.flatMap fun p => (p.map Pan.recs).getD []).foldl toBrine (setCore s c (clearPans sel (coreOf s c))) := by
    rw [hout]
    rfl
  cases he : out.isEmpty with
  | true =>
    rw [he, if_pos rfl] at ht
    rw [List.isEmpty_iff] at he
    rw [he] at hout
    refine ⟨by rw [ht], by rw [ht]; exact .refl s, ?_, fun p hp hs => ?_⟩
    · rw [ht, clearPans_same hout.symm]
      by_cases hc : c < s.cores.length
      · refine (List.set_getElem_self (as := s.cores) hc).symm.trans ?_
        rw [coreOf, List.getD_eq_getElem?_getD, List.getElem?_eq_getElem hc]
        rfl
      · rw [List.set_eq_of_length_le (Nat.le_of_not_lt hc)]
    · exact absurd (show ((some p : Option Pan).map fun x => sel x.grid).getD false = true from hs) (List.filter_eq_nil_iff.mp hout.symm _ hp)
  | false =>
    rw [he, if_neg Bool.false_ne_true] at ht
    obtain ⟨h1, h2, h3⟩ := toBrine_fold (out.flatMap fun p => (p.map Pan.recs).getD []) (setCore s c (clearPans sel (coreOf s c)))
    rw [← ht] at h1 h2 h3
    refine ⟨(congrArg (fun t : State => { t with cores := s.cores }) h1 :), h2, (congrArg State.cores h1 :), fun p hp hs r hr x hx => ?_⟩
    refine h3 r (List.mem_flatMap.mpr ⟨some p, ?_, hr⟩) x hx
    rw [hout]
    exact List.mem_filter.mpr ⟨hp, hs⟩

/-- The pans of the first `m` cores emptied. -/
theorem spillAll_spec (s : State) (sel : Nat → Bool) (m : Nat) :
    let t := (List.range m).foldl (fun s c => spillPans s c sel) s
    { t with contexts := s.contexts, cores := s.cores } = s ∧ BrineGrew s t ∧
      (∀ (i : Nat) (k : Core), s.cores[i]? = some k → t.cores[i]? = some (if i < m then clearPans sel k else k)) ∧
      ∀ (i : Nat) (k : Core), i < m → s.cores[i]? = some k → ∀ p, some p ∈ k.pans → sel p.grid = true → ∀ r ∈ p.recs, ∀ x,
        ctxOf s r.ctx = some x → ∃ x', ctxOf t r.ctx = some x' ∧ r ∈ x'.brine := by
  induction m with
  | zero => exact ⟨rfl, .refl s, fun _ _ h => h, fun i _ h => absurd h (Nat.not_lt_zero i)⟩
  | succ m ih =>
    obtain ⟨h1, h2, h3, h4⟩ := ih
    rw [List.range_succ, List.foldl_append, List.foldl_cons, List.foldl_nil]
    generalize (List.range m).foldl (fun s c => spillPans s c sel) s = u at h1 h2 h3 h4
    obtain ⟨k1, k2, k3, k4⟩ := spillPans_spec u m sel
    have hat : ∀ k, s.cores[m]? = some k → coreOf u m = k := fun k hk => by
      rw [coreOf, List.getD_eq_getElem?_getD, h3 m k hk, if_neg (Nat.lt_irrefl m)]
      rfl
    refine ⟨?_, h2.trans k2, fun i k hk => ?_, fun i k hi hk p hp hs r hr x hx => ?_⟩
    · have := congrArg (fun t : State => { t with contexts := s.contexts, cores := s.cores }) k1
      exact this.trans h1
    · rw [k3]
      by_cases him : i = m
      · subst him
        have hlen : i < u.cores.length := (List.getElem?_eq_some_iff.mp (h3 i k hk)).1
        rw [List.getElem?_set_self hlen, hat k hk, if_pos (Nat.lt_succ_self i)]
      · rw [List.getElem?_set_ne (Ne.symm him), h3 i k hk]
        by_cases hlt : i < m
        · rw [if_pos hlt, if_pos (Nat.lt_succ_of_lt hlt)]
        · rw [if_neg hlt, if_neg (by omega)]
    · by_cases him : i = m
      · subst him
        obtain ⟨l, hl⟩ := h2 _ _ hx
        exact k4 p (by rw [hat k hk]; exact hp) hs r hr _ hl
      · obtain ⟨x', hx', hin⟩ := h4 i k (by omega) hk p hp hs r hr x hx
        obtain ⟨l, hl⟩ := k2 _ _ hx'
        exact ⟨_, hl, List.mem_append.mpr (.inl hin)⟩

/-! ## Commands (12 R220, R228) -/

/-- The groups that a pre-emption names and that have still to halt. -/
def haltNamed (s : State) (sel : Nat → Bool) : List Group :=
  s.groups.filter fun g => (teamOf s g.team).any (fun t => sel t.grid) && g.place == .resident && g.splits.any fun p => !p.halted

/-- What a pre-emption asks of groups and teams; it changes besides only cores and brine queues. -/
theorem preemptGrids_halts (s : State) (sel : Nat → Bool) :
    let t := preemptGrids s sel
    { t with contexts := s.contexts, cores := s.cores, groups := s.groups, teams := s.teams } = s ∧ BrineGrew s t ∧
      t.groups = s.groups.map (fun g => if (teamOf s g.team).any (fun t => sel t.grid) = true ∧ g.place ≠ .saved
        then { g with haltReq := true } else g) ∧
      t.teams = s.teams.map (fun t => if sel t.grid = true ∧ t.place ≠ .saved then { t with haltReq := true } else t) := by
  intro t
  obtain ⟨a, ha⟩ : ∃ a, a = askHalt s fun t => sel t.grid := ⟨_, rfl⟩
  obtain ⟨h1, h2, -, -⟩ := spillAll_spec a sel 160
  have ht : t = (List.range 160).foldl (fun s c => spillPans s c sel) a := by rw [ha]; rfl
  rw [← ht] at h1 h2
  clear_value t
  have hctx : ∀ n, ctxOf a n = ctxOf s n := fun n => by rw [ha]; rfl
  have hrest : { a with cores := s.cores, groups := s.groups, teams := s.teams } = s := by rw [ha]; rfl
  refine ⟨?_, fun n x hx => h2 n x ((hctx n).trans hx), ?_, ?_⟩
  · have := congrArg (fun t : State => { t with cores := s.cores, groups := s.groups, teams := s.teams }) h1
    refine Eq.trans ?_ (this.trans hrest)
    have hc : s.contexts = a.contexts := by rw [ha]; rfl
    rw [hc]
  · refine (congrArg State.groups h1 :).trans ?_
    rw [ha]
    show (s.groups.map fun g => _) = _
    refine List.map_congr_left fun g _ => if_congr ?_ rfl rfl
    rw [Bool.and_eq_true, bne_iff_ne]
  · refine (congrArg State.teams h1 :).trans ?_
    rw [ha]
    exact askHalt_teams s _

theorem preemptGrids_spec (s : State) (sel : Nat → Bool) (hlen : s.cores.length = 160) :
    let t := preemptGrids s sel
    { t with contexts := s.contexts, cores := s.cores, groups := s.groups, teams := s.teams } = s ∧ BrineGrew s t ∧
      t.groups = s.groups.map (fun g => if (teamOf s g.team).any (fun t => sel t.grid) = true ∧ g.place ≠ .saved
        then { g with haltReq := true } else g) ∧
      t.teams = s.teams.map (fun t => if sel t.grid = true ∧ t.place ≠ .saved then { t with haltReq := true } else t) ∧
      (∀ (i : Nat) (k : Core), s.cores[i]? = some k → ∃ k', t.cores[i]? = some k' ∧
        (∀ p, some p ∈ k'.pans → sel p.grid = false) ∧
        k'.boosts = if k.mhz < 2250 ∧ ∃ g ∈ haltNamed s sel, g.core = i then (haltNamed s sel).map Group.gid :: k.boosts else k.boosts) ∧
      (∀ k ∈ s.cores, ∀ p, some p ∈ k.pans → sel p.grid = true → ∀ r ∈ p.recs, ∀ x, ctxOf s r.ctx = some x →
        ∃ x', ctxOf t r.ctx = some x' ∧ r ∈ x'.brine) := by
  intro t
  have hk := preemptGrids_halts s sel
  dsimp only at hk
  rw [show preemptGrids s sel = t from rfl] at hk
  obtain ⟨k1, k2, k3, k4⟩ := hk
  obtain ⟨a, ha⟩ : ∃ a, a = askHalt s fun t => sel t.grid := ⟨_, rfl⟩
  obtain ⟨-, -, h3, h4⟩ := spillAll_spec a sel 160
  have ht : t = (List.range 160).foldl (fun s c => spillPans s c sel) a := by rw [ha]; rfl
  rw [← ht] at h3 h4
  clear_value t
  have hctx : ∀ n, ctxOf a n = ctxOf s n := fun n => by rw [ha]; rfl
  have hcore : ∀ (i : Nat) (k : Core), s.cores[i]? = some k → ∃ k', a.cores[i]? = some k' ∧ k'.pans = k.pans ∧
      k'.boosts = if k.mhz < 2250 ∧ ∃ g ∈ haltNamed s sel, g.core = i then (haltNamed s sel).map Group.gid :: k.boosts else k.boosts := by
    intro i k hk
    have hcores : a.cores = s.cores.zipIdx.map fun x => if x.1.mhz < 2250 ∧ (haltNamed s sel).any (·.core == x.2) = true
        then { x.1 with boosts := (haltNamed s sel).map Group.gid :: x.1.boosts } else x.1 := by rw [ha]; rfl
    have hany : (haltNamed s sel).any (·.core == i) = true ↔ ∃ g ∈ haltNamed s sel, g.core = i := by
      simp only [List.any_eq_true, beq_iff_eq]
    refine ⟨_, by rw [hcores, List.getElem?_map, List.getElem?_zipIdx, hk]; rfl, ?_, ?_⟩
    · dsimp only
      split <;> rfl
    · dsimp only
      simp only [Nat.zero_add, hany]
      split <;> rfl
  refine ⟨k1, k2, k3, k4, fun i k hk => ?_, fun k hk p hp hs r hr x hx => ?_⟩
  · obtain ⟨k', hk', hpans, hb⟩ := hcore i k hk
    have hi : i < 160 := hlen ▸ (List.getElem?_eq_some_iff.mp hk).1
    refine ⟨clearPans sel k', by rw [h3 i k' hk', if_pos hi], fun p hp => clearPans_gone hp, hb⟩
  · obtain ⟨i, hi, rfl⟩ := List.mem_iff_getElem.mp hk
    obtain ⟨k', hk', hpans, -⟩ := hcore i _ (List.getElem?_eq_getElem hi)
    exact h4 i k' (hlen ▸ hi) hk' p (by rw [hpans]; exact hp) hs r hr x ((hctx _).trans hx)

theorem runCmd_none {s : State} {n : Nat} {q : Queue} (h : queueOf s n = some q) (hn : newCmd s q = none) (op : Nat)
    (f : Queue → DWord → State) : runCmd s n op f = s := by
  rw [runCmd, h]
  dsimp only
  rw [hn]

theorem runCmd_some {s : State} {n : Nat} {q : Queue} {w : DWord} (h : queueOf s n = some q) (hw : newCmd s q = some w) {op : Nat}
    (ho : cmdOp w = op) (f : Queue → DWord → State) : runCmd s n op f = settleAcks (f q w) := by
  rw [runCmd, h]
  dsimp only
  rw [hw]
  exact if_pos ho

theorem exec_commands_none {s : State} {n : Nat} {q : Queue} (h : queueOf s n = some q) (hn : newCmd s q = none) {i : Instr}
    (hi : i ∈ [Instr.preemptQueue n, .resumeQueue n, .preemptContext n, .resumeContext n, .reservedQueueCommand n]) :
    exec i s = .next s := by
  simp only [List.mem_cons, List.not_mem_nil, or_false] at hi
  rcases hi with rfl | rfl | rfl | rfl | rfl
  · exact congrArg Host.Outcome.next (runCmd_none h hn 1 _)
  · exact congrArg Host.Outcome.next (runCmd_none h hn 2 _)
  · exact congrArg Host.Outcome.next (runCmd_none h hn 3 _)
  · exact congrArg Host.Outcome.next (runCmd_none h hn 4 _)
  · have hexec : exec (.reservedQueueCommand n) s = execReservedQueueCommand n s := rfl
    rw [hexec, execReservedQueueCommand, h]
    dsimp only
    rw [hn]

theorem gridStopped_preempted {s : State} {gr : Grid} (h : gr.preempted = true) : gridStopped s gr = true := by
  rw [gridStopped, h]
  rfl

theorem ctxStopped_preempted {s : State} {n : Nat} {c : Context} (h : ctxOf s n = some c) (hp : c.preempted = true) :
    ctxStopped s n = true := by
  rw [ctxStopped, h]
  dsimp only
  rw [hp]
  rfl

theorem mem_setQueue {s : State} {q y : Queue} (hy : y ∈ (setQueue s q).queues) : y = q ∨ (y ∈ s.queues ∧ y.num ≠ q.num) := by
  obtain ⟨z, hz, rfl⟩ := List.mem_map.mp hy
  split
  · exact .inl rfl
  · rename_i hne
    exact .inr ⟨hz, hne⟩

/-- What a pre-emption of a queue, or of its context, marks before the groups are asked to halt. -/
def preemptMark (s : State) (q : Queue) (w : DWord) (c : Context) : State :=
  if cmdOp w = 1 then
    let u := beginCmd s { q with preempted := true } w
    { u with grids := s.grids.map fun g => if (gridIds s fun g => g.queue == q.num && g.ctx == q.ctx).contains g.uid
        then { g with preempted := true } else g }
  else setCtx (beginCmd s q w) { c with preempted := true }

theorem cmdNames_queue {w : DWord} (h : cmdOp w = 1 ∨ cmdOp w = 2) (q : Queue) :
    cmdNames q w = fun g => g.queue == q.num && g.ctx == q.ctx := by
  funext g
  rw [cmdNames, if_neg (by omega)]

theorem cmdNames_context {w : DWord} (h : cmdOp w = 3 ∨ cmdOp w = 4) (q : Queue) : cmdNames q w = fun g => g.ctx == q.ctx := by
  funext g
  rw [cmdNames, if_pos h]

theorem exec_preempt {s : State} {n : Nat} {q : Queue} {w : DWord} {c : Context} (h : queueOf s n = some q) (hw : newCmd s q = some w)
    (ho : cmdOp w = 1 ∨ cmdOp w = 3) (hc : ctxOf s q.ctx = some c) :
    exec (if cmdOp w = 1 then .preemptQueue n else .preemptContext n) s =
      .next (settleAcks (preemptGrids (preemptMark s q w c) (gridIds s (cmdNames q w)).contains)) := by
  rcases ho with ho | ho
  · rw [if_pos ho, cmdNames_queue (.inl ho), preemptMark, if_pos ho]
    exact congrArg Host.Outcome.next (runCmd_some h hw ho _)
  · have h31 : ¬ cmdOp w = 1 := by omega
    rw [if_neg h31, cmdNames_context (.inl ho), preemptMark, if_neg h31]
    refine congrArg Host.Outcome.next ((runCmd_some h hw ho _).trans ?_)
    dsimp only
    rw [hc]
    rfl

/-- The mark: the queue has the command in progress, and every grid that the command names is stopped. -/
theorem preemptMark_spec {s : State} {n : Nat} {q : Queue} {w : DWord} {c : Context} (h : queueOf s n = some q)
    (ho : cmdOp w = 1 ∨ cmdOp w = 3) (hc : ctxOf s q.ctx = some c) :
    let u := preemptMark s q w c
    { u with queues := s.queues, grids := s.grids, contexts := s.contexts } = s ∧
      (∃ q', u.queues = (setQueue s q').queues ∧ q' = { q with preempted := q.preempted || cmdOp w == 1, cmd := some w }) ∧
      (∀ m x, ctxOf s m = some x → ∃ x', ctxOf u m = some x' ∧ x'.brine = x.brine) ∧
      (∀ gr ∈ u.grids, cmdNames q w gr = true → gr.preempted = true ∨ (cmdOp w = 3 ∧ gr.ctx = q.ctx)) ∧
      (cmdOp w = 3 → ∃ x, ctxOf u q.ctx = some x ∧ x.preempted = true) := by
  intro u
  rcases ho with ho | ho
  · have hu : u = { beginCmd s { q with preempted := true } w with grids := s.grids.map fun g =>
        if (gridIds s fun g => g.queue == q.num && g.ctx == q.ctx).contains g.uid then { g with preempted := true } else g } := if_pos ho
    refine ⟨by rw [hu]; rfl, ⟨_, by rw [hu]; rfl, ?_⟩, fun m x hx => ⟨x, by rw [hu]; exact hx, rfl⟩, fun gr hgr hn => .inl ?_,
      fun h3 => absurd (ho.symm.trans h3) (by decide)⟩
    · rw [ho]
      simp
    · rw [hu] at hgr
      obtain ⟨g, hg, rfl⟩ := List.mem_map.mp hgr
      rw [cmdNames_queue (.inl ho)] at hn
      split
      · rfl
      · rename_i hno
        rw [if_neg hno] at hn
        refine absurd ?_ hno
        rw [List.contains_iff_mem]
        exact List.mem_map_of_mem (List.mem_filter.mpr ⟨hg, hn⟩)
  · have hu : u = setCtx (beginCmd s q w) { c with preempted := true } := if_neg (by omega)
    have hnum := ctxOf_num hc
    have hset : ctxOf u q.ctx = some { c with preempted := true } := by
      rw [hu]
      exact ctxOf_setCtx_num (s := beginCmd s q w) hc hnum
    refine ⟨by rw [hu]; rfl, ⟨_, by rw [hu]; rfl, ?_⟩, fun m x hx => ?_, fun gr _ hn => .inr ⟨ho, ?_⟩, fun _ => ⟨_, hset, rfl⟩⟩
    · rw [ho]
      simp
    · by_cases hm : m = q.ctx
      · subst hm
        rw [hc] at hx
        cases hx
        exact ⟨_, hset, rfl⟩
      · refine ⟨x, ?_, rfl⟩
        rw [hu, ctxOf_setCtx_other (by rw [show ({ c with preempted := true } : Context).num = c.num from rfl, hnum]; exact hm)]
        exact hx
    · rw [cmdNames_context (.inl ho)] at hn
      exact beq_iff_eq.mp hn

/-- What a pre-emption leaves before acknowledgements are looked at. -/
theorem preempt_leaves {s : State} {n : Nat} {q : Queue} {w : DWord} {c : Context} (h : queueOf s n = some q)
    (ho : cmdOp w = 1 ∨ cmdOp w = 3) (hc : ctxOf s q.ctx = some c) (hlen : s.cores.length = 160) :
    let ids := gridIds s (cmdNames q w)
    let s1 := preemptGrids (preemptMark s q w c) ids.contains
    queueOf s1 n = some { q with preempted := q.preempted || cmdOp w == 1, cmd := some w } ∧ s1.mem = s.mem ∧
      (∀ gr ∈ s1.grids, cmdNames q w gr = true → gridStopped s1 gr = true) ∧
      (∀ y ∈ s1.queues, (y.num = n ∨ (cmdOp w = 3 ∧ y.ctx = q.ctx)) → mayTakePacket s1 y = false) ∧
      s1.groups = s.groups.map (fun g => if (teamOf s g.team).any (fun t => ids.contains t.grid) = true ∧ g.place ≠ .saved
        then { g with haltReq := true } else g) ∧
      s1.teams = s.teams.map (fun t => if ids.contains t.grid = true ∧ t.place ≠ .saved then { t with haltReq := true } else t) ∧
      (∀ (i : Nat) (k : Core), s.cores[i]? = some k → ∃ k', s1.cores[i]? = some k' ∧
        (∀ p, some p ∈ k'.pans → ids.contains p.grid = false) ∧
        k'.boosts = if k.mhz < 2250 ∧ ∃ g ∈ haltNamed s ids.contains, g.core = i
          then (haltNamed s ids.contains).map Group.gid :: k.boosts else k.boosts) ∧
      (∀ k ∈ s.cores, ∀ p, some p ∈ k.pans → ids.contains p.grid = true → ∀ r ∈ p.recs, ∀ x, ctxOf s r.ctx = some x →
        ∃ x', ctxOf s1 r.ctx = some x' ∧ r ∈ x'.brine) := by
  intro ids s1
  obtain ⟨u, hu⟩ : ∃ u, u = preemptMark s q w c := ⟨_, rfl⟩
  obtain ⟨m1, ⟨q', m2, hq'⟩, m3, m4, m5⟩ := preemptMark_spec h ho hc
  rw [← hu] at m1 m2 m3 m4 m5
  have hcores : u.cores = s.cores := (congrArg State.cores m1 :)
  have hgroups : u.groups = s.groups := (congrArg State.groups m1 :)
  have hteams : u.teams = s.teams := (congrArg State.teams m1 :)
  have hnamed : haltNamed u ids.contains = haltNamed s ids.contains := by
    unfold haltNamed
    rw [hgroups]
    simp only [teamOf_teams hteams]
  obtain ⟨p1, p2, p3, p4, p5, p6⟩ := preemptGrids_spec u ids.contains (by rw [hcores]; exact hlen)
  have hs1 : s1 = preemptGrids u ids.contains := by rw [hu]
  rw [← hs1] at p1 p2 p3 p4 p5 p6
  clear_value s1
  have hqs : s1.queues = (setQueue s q').queues := (congrArg State.queues p1 :).trans m2
  have hgrids : s1.grids = u.grids := (congrArg State.grids p1 :)
  have hqn := queueOf_num h
  have hnum : q'.num = n := by rw [hq']; exact hqn
  have hctx3 : cmdOp w = 3 → ctxStopped s1 q.ctx = true := fun h3 => by
    obtain ⟨x, hx, hp⟩ := m5 h3
    obtain ⟨l, hl⟩ := p2 _ _ hx
    exact ctxStopped_preempted hl hp
  refine ⟨?_, (congrArg State.mem p1 :).trans (congrArg State.mem m1 :), fun gr hgr hn => ?_, fun y hy hor => ?_, ?_, ?_, ?_, ?_⟩
  · rw [queueOf, hqs, ← hq']
    exact queueOf_setQueue_num h hnum
  · rw [hgrids] at hgr
    rcases m4 gr hgr hn with hp | ⟨h3, hctx⟩
    · exact gridStopped_preempted hp
    · rw [gridStopped, hctx, hctx3 h3, Bool.or_true]
  · rw [hqs] at hy
    have hstop : y.preempted = true ∨ ctxStopped s1 y.ctx = true := by
      rcases ho with h1 | h3
      · left
        rcases hor with hn | ⟨h3, -⟩
        · rcases mem_setQueue hy with rfl | ⟨-, hne⟩
          · rw [hq', h1]
            simp
          · exact absurd (hn.trans hnum.symm) hne
        · exact absurd (h1.symm.trans h3) (by decide)
      · right
        have hyc : y.ctx = q.ctx := by
          rcases hor with hn | ⟨-, hyc⟩
          · rcases mem_setQueue hy with rfl | ⟨-, hne⟩
            · rw [hq']
            · exact absurd (hn.trans hnum.symm) hne
          · exact hyc
        rw [hyc]
        exact hctx3 h3
    rw [mayTakePacket]
    rcases hstop with hp | hp <;> rw [hp] <;> simp
  · rw [p3, hgroups]
    simp only [teamOf_teams hteams]
  · rw [p4, hteams]
  · rw [hcores, hnamed] at p5
    exact p5
  · intro k hk p hp hs r hr x hx
    obtain ⟨x', hx', -⟩ := m3 _ _ hx
    exact p6 k (by rw [hcores]; exact hk) p hp hs r hr x' hx'

theorem exec_resume {s : State} {n : Nat} {q : Queue} {w : DWord} {c : Context} (h : queueOf s n = some q) (hw : newCmd s q = some w)
    (ho : cmdOp w = 2 ∨ cmdOp w = 4) (hc : ctxOf s q.ctx = some c) :
    ∃ s1, exec (if cmdOp w = 2 then .resumeQueue n else .resumeContext n) s = .next (settleAcks s1) ∧
      queueOf s1 n = some { q with preempted := q.preempted && cmdOp w == 4, cmd := some w } ∧
      (cmdOp w = 2 → ∀ gr ∈ s1.grids, cmdNames q w gr = true → gr.preempted = false) ∧
      (cmdOp w = 4 → ctxOf s1 q.ctx = some { c with preempted := false }) ∧
      { s1 with queues := s.queues, grids := s.grids, contexts := s.contexts } = s := by
  have hnum := queueOf_num h
  rcases ho with ho | ho
  · refine ⟨{ beginCmd s { q with preempted := false } w with grids := s.grids.map fun g =>
        if g.queue = q.num ∧ g.ctx = q.ctx then { g with preempted := false } else g }, ?_, ?_, fun _ gr hgr hn => ?_,
      fun h4 => absurd (ho.symm.trans h4) (by decide), rfl⟩
    · rw [if_pos ho]
      exact congrArg Host.Outcome.next (runCmd_some h hw ho _)
    · rw [ho]
      refine Eq.trans (queueOf_setQueue_num (q := { q with preempted := false, cmd := some w }) h hnum) ?_
      simp
    · obtain ⟨g, hg, rfl⟩ := List.mem_map.mp hgr
      rw [cmdNames_queue (.inr ho)] at hn
      split
      · rfl
      · rename_i hno
        rw [if_neg hno, Bool.and_eq_true, beq_iff_eq, beq_iff_eq] at hn
        exact absurd hn hno
  · have h42 : ¬ cmdOp w = 2 := by omega
    refine ⟨setCtx (beginCmd s q w) { c with preempted := false }, ?_, ?_, fun h2 => absurd h2 h42, fun _ => ?_, rfl⟩
    · rw [if_neg h42]
      show Host.Outcome.next (runCmd s n 4 _) = _
      rw [runCmd_some h hw ho, hc]
    · rw [ho]
      refine Eq.trans (queueOf_setQueue_num (q := { q with cmd := some w }) h hnum) ?_
      simp
    · have hcn := ctxOf_num hc
      exact ctxOf_setCtx_num (s := beginCmd s q w) hc hcn

/-! ## Acknowledgements -/

theorem ackQueue_acked {s : State} {n : Nat} {q : Queue} (w : DWord) (h : queueOf s n = some q) (hok : MemOk s) :
    Acked s q w (ackQueue s q w) := by
  have hw := wrote_physWrite (q.base + 24) 8 w.toNat hok
  have hrest := physWrite_rest s (q.base + 24) 8 w.toNat
  have hof : ∀ k, queueOf (physWrite s (q.base + 24) 8 w.toNat) k = queueOf s k := fun k => queueOf_physWrite s _ _ _ k
  rw [ackQueue]
  generalize physWrite s (q.base + 24) 8 w.toNat = u at hw hrest hof
  refine ⟨?_, fun k hk => ?_, hw.mono rfl, ?_⟩
  · exact queueOf_setQueue_num (x := q) ((hof _).trans (by rw [queueOf_num h]; exact h)) rfl
  · refine Eq.trans (queueOf_setQueue_other ?_) (hof k)
    exact hk
  · exact (congrArg (fun t : State => { t with queues := s.queues }) hrest :)

/-- The ACK of one queue, when its command is done. -/
def settleAck (s : State) (q : Queue) : State :=
  match q.cmd with
  | some w => if cmdDone s q w then ackQueue s q w else s
  | none => s

theorem settleAck_idle {q : Queue} (h : q.cmd = none) (s : State) : settleAck s q = s := by
  rw [settleAck, h]

theorem settleAck_fold_idle {qs : List Queue} (h : ∀ q ∈ qs, q.cmd = none) (s : State) : qs.foldl settleAck s = s := by
  induction qs with
  | nil => rfl
  | cons q qs ih =>
    rw [List.foldl_cons, settleAck_idle (h q (List.mem_cons_self ..))]
    exact ih fun p hp => h p (List.mem_cons_of_mem _ hp)

/-- With one command in progress its queue alone may be acknowledged. -/
theorem settleAcks_one {s : State} {n : Nat} {q : Queue} (h : queueOf s n = some q) (hn : (s.queues.map Queue.num).Nodup)
    (hother : ∀ y ∈ s.queues, y.num ≠ n → y.cmd = none) : settleAcks s = settleAck s q := by
  have hq := List.mem_of_find?_eq_some h
  obtain ⟨pre, post, hsplit⟩ := List.append_of_mem hq
  have hfold : settleAcks s = s.queues.foldl settleAck s := rfl
  have hnum := queueOf_num h
  rw [hsplit, List.map_append, List.map_cons, List.nodup_append, List.nodup_cons] at hn
  obtain ⟨-, ⟨hpost, -⟩, hpre⟩ := hn
  have h1 : ∀ y ∈ pre, y.cmd = none := fun y hy => hother y (by rw [hsplit]; exact List.mem_append_left _ hy) fun e =>
    hpre y.num (List.mem_map_of_mem hy) q.num (List.mem_cons_self ..) (e.trans hnum.symm)
  have h2 : ∀ y ∈ post, y.cmd = none := fun y hy => hother y (by rw [hsplit]; exact List.mem_append_right _ (List.mem_cons_of_mem _ hy)) fun e =>
    hpost (by rw [show q.num = y.num from hnum.trans e.symm]; exact List.mem_map_of_mem hy)
  rw [hfold, hsplit, List.foldl_append, settleAck_fold_idle h1, List.foldl_cons, settleAck_fold_idle h2]

theorem exec_reserved {s : State} {n : Nat} {q : Queue} {w : DWord} (h : queueOf s n = some q) (hw : newCmd s q = some w)
    (ho : cmdOp w = 0 ∨ 5 ≤ cmdOp w) : exec (.reservedQueueCommand n) s = .next (ackQueue s q w) := by
  have hexec : exec (.reservedQueueCommand n) s = execReservedQueueCommand n s := rfl
  rw [hexec, execReservedQueueCommand, h]
  dsimp only
  rw [hw]
  dsimp only
  rw [if_pos ho]

theorem cmdMet_iff (s : State) (q : Queue) (w : DWord) (grid : Nat) (off back : Bool) :
    cmdMet s q w grid off back = true ↔ ∀ gr, gridOf s grid = some gr → cmdNames q w gr = true →
      if cmdOp w = 1 ∨ cmdOp w = 3 then off = false else gridStopped s gr = true ∨ (back = true ∧ off = false) := by
  rw [cmdMet]
  cases gridOf s grid with
  | none => exact ⟨fun _ gr h => (nomatch h), fun _ => rfl⟩
  | some gr =>
    simp only [Bool.or_eq_true, Bool.not_eq_true', Option.some.injEq, forall_eq']
    by_cases ho : cmdOp w = 1 ∨ cmdOp w = 3
    · rw [if_pos ho, if_pos ho]
      cases cmdNames q w gr <;> simp
    · rw [if_neg ho, if_neg ho]
      cases cmdNames q w gr <;> simp

theorem cmdDone_iff (s : State) (q : Queue) (w : DWord) : cmdDone s q w = true ↔
    (∀ g ∈ s.groups, ∀ gr, gridOf s g.grid = some gr → cmdNames q w gr = true →
      if cmdOp w = 1 ∨ cmdOp w = 3 then g.haltReq = false
      else gridStopped s gr = true ∨ (g.place ≠ .saved ∧ g.resume ≠ .due ∧ g.haltReq = false)) ∧
    (∀ t ∈ s.teams, ∀ gr, gridOf s t.grid = some gr → cmdNames q w gr = true →
      if cmdOp w = 1 ∨ cmdOp w = 3 then t.haltReq = false
      else gridStopped s gr = true ∨ (t.place ≠ .saved ∧ t.haltReq = false)) := by
  rw [cmdDone, Bool.and_eq_true, List.all_eq_true, List.all_eq_true]
  simp only [cmdMet_iff, Bool.and_eq_true, bne_iff_ne, and_assoc]

/-! ## Groups and teams written out (R215, R216) -/

theorem writeArea_outside {s : State} {ctx : Nat} {c : Context} (hc : ctxOf s ctx = some c) (hok : MemOk s) (n : Nat) :
    MemOk (writeArea s ctx n) ∧
      ∀ a, (a < c.save ∨ c.save + c.saveSz ≤ a) → memRead (writeArea s ctx n).mem a = memRead s.mem a := by
  rw [writeArea, hc]
  dsimp only
  by_cases hn : n = 0 ∨ c.saveSz < n
  · rw [if_pos hn]
    exact ⟨hok, fun _ _ => rfl⟩
  · rw [if_neg hn, not_or] at *
    obtain ⟨img, himg⟩ : ∃ img, img = (List.range n).map (Config.contextImageByte s.freeCtr) := ⟨_, rfl⟩
    have hlen : img.length = n := by rw [himg, List.length_map, List.length_range]
    have hoff : Config.saveOffset s.freeCtr % (c.saveSz - n + 1) < c.saveSz - n + 1 := Nat.mod_lt _ (Nat.succ_pos _)
    generalize Config.saveOffset s.freeCtr % (c.saveSz - n + 1) = off at hoff
    rw [← himg]
    refine ⟨memOk_physWriteBytes _ _ hok, fun a ha => ?_⟩
    show memRead (memWriteBytes s.mem (c.save + off) img) a = _
    rw [memRead_writeBytes _ _ _ hok, if_neg (by omega)]

theorem teamSaves_iff_of (s : State) (t : Team) : teamSaves s t = true ↔
    t.place ≠ .saved ∧ (∀ y ∈ s.groups, y.team = t.tid → y.place = .saved) ∧
    (∀ c ∈ s.copies, c.team = t.tid → c.cls = .c1 ∧ c.acting = false ∧ (c.stopped = true ∨ c.parts = [])) ∧
    ((∃ y ∈ s.groups, y.team = t.tid) ∨ (t.haltReq = true ∧ ∃ c ∈ s.copies, c.team = t.tid)) := by
  have hidle : copiesIdle s (·.team == t.tid) = true ↔
      ∀ c ∈ s.copies, c.team = t.tid → c.cls = .c1 ∧ c.acting = false ∧ (c.stopped = true ∨ c.parts = []) := by
    rw [copiesIdle, List.all_eq_true]
    refine forall₂_congr fun c _ => ?_
    simp only [Bool.or_eq_true, Bool.and_eq_true, Bool.not_eq_true', beq_iff_eq, beq_eq_false_iff_ne, List.isEmpty_iff, ne_eq]
    tauto
  have hsome : (s.groups.filter (·.team == t.tid)).isEmpty = false ↔ ∃ y ∈ s.groups, y.team = t.tid := by
    rw [List.isEmpty_eq_false_iff_exists_mem]
    simp only [List.mem_filter, beq_iff_eq]
  unfold teamSaves
  dsimp only
  simp only [Bool.and_eq_true, bne_iff_ne, ne_eq, hidle, List.all_eq_true, beq_iff_eq, Bool.or_eq_true, Bool.not_eq_true', hsome,
    List.any_eq_true, List.mem_filter, and_imp, and_assoc]

/-- A team with a group on its core neither is saved nor evicted. -/
theorem teamGoes_standing {s : State} {n : Nat} {y : Group} (hy : y ∈ s.groups) (ht : y.team = n) (hp : y.place = .resident) :
    teamGoes s n = s := by
  rcases teamGoes_cases s n with h | ⟨tm, htm, h⟩
  · exact h
  · have htid := teamOf_tid htm
    rcases h with ⟨hs, -⟩ | ⟨-, he, -⟩
    · have := ((teamSaves_iff_of s tm).mp hs).2.1 y hy (ht.trans htid.symm)
      rw [hp] at this
      cases this
    · rw [teamEvicts, residentOf] at he
      simp only [Bool.and_eq_true, List.isEmpty_iff, List.filter_eq_nil_iff, beq_iff_eq] at he
      exact absurd ⟨ht.trans htid.symm, hp⟩ (he.1.1.2 y hy)

theorem teamGoes_saved {s : State} {n : Nat} {tm : Team} (h : teamOf s n = some tm) (hs : teamSaves s tm = true) :
    teamOf (teamGoes s n) n = some { tm with place := .saved, haltReq := false } ∧
      (teamGoes s n).copies = s.copies.map fun c => if c.team = n then { c with suspended := true, parts := [] } else c := by
  obtain ⟨h1, h2⟩ := teamAway_spec h .saved
  have hgo : teamGoes s n = suspend (teamAway s n .saved) fun c => c.team == n := by rw [teamGoes, h]; exact if_pos hs
  rw [hgo]
  refine ⟨h1.trans ?_, ?_⟩
  · rw [show (tm.haltReq && Place.saved != .saved) = false by simp]
  · rw [suspend, (congrArg State.copies h2 :)]
    exact List.map_congr_left fun c _ => if_congr beq_iff_eq rfl rfl

/-- Copies of a team that goes stay suspended. -/
theorem teamGoes_suspended {s : State} {n : Nat} {sel : Copy → Prop} (hsel : ∀ c : Copy, sel { c with suspended := true, parts := [] } → sel c)
    (h : ∀ c ∈ s.copies, sel c → c.suspended = true) : ∀ c ∈ (teamGoes s n).copies, sel c → c.suspended = true := by
  rcases teamGoes_cases s n with he | ⟨tm, htm, ⟨hs, -⟩ | ⟨-, -, he⟩⟩
  · rw [he]
    exact h
  · rw [(teamGoes_saved htm hs).2]
    intro c hc hselc
    obtain ⟨y, hy, rfl⟩ := List.mem_map.mp hc
    split
    · rfl
    · rename_i hne
      rw [if_neg hne] at hselc
      exact h y hy hselc
  · rw [he, (congrArg State.copies (teamAway_spec htm .evicted).2 :)]
    exact h

/-- Memory outside the save region of the team's context stands when the team goes. -/
theorem teamGoes_outside {s : State} {n : Nat} {c : Context} (htm : ∀ tm, teamOf s n = some tm → ctxOf s tm.ctx = some c) (hok : MemOk s)
    {a : Nat} (ha : a < c.save ∨ c.save + c.saveSz ≤ a) : memRead (teamGoes s n).mem a = memRead s.mem a := by
  have haway : ∀ tm p, teamOf s n = some tm → memRead (teamAway s n p).mem a = memRead s.mem a := fun tm p h => by
    rw [teamAway, h]
    exact (writeArea_outside (htm tm h) hok _).2 a ha
  rcases teamGoes_cases s n with he | ⟨tm, h, ⟨-, he⟩ | ⟨-, -, he⟩⟩
  · rw [he]
  · rw [he]
    exact haway tm .saved h
  · rw [he]
    exact haway tm .evicted h

/-- The group as its save area holds it. -/
def writtenGroup (g : Group) : Group :=
  { saveSlots g with place := .saved, haltReq := false, eng := g.eng.filter fun e => !e.done }

/-- The state behind a group written out, before its team is looked at. -/
def groupWritten (s : State) (g : Group) : State :=
  endBoost (suspend (setGroup (writeArea (spillPans s g.core (· == g.grid)) g.ctx (groupArea g.vregs.length g.phys.length)) (writtenGroup g))
    fun c => c.gid == g.gid)

theorem writeOut_eq (s : State) (g : Group) : writeOut s g = teamGoes (groupWritten s g) g.team := rfl

theorem groupWritten_spec (s : State) (g : Group) :
    let u := groupWritten s g
    u.groups = (setGroup s (writtenGroup g)).groups ∧
      u.copies = s.copies.map (fun c => if c.gid = g.gid then { c with suspended := true, parts := [] } else c) ∧
      u.teams = s.teams ∧ u.queues = s.queues ∧ BrineGrew s u ∧
      ∀ c, ctxOf s g.ctx = some c → MemOk s → MemOk u ∧ ∀ a, (a < c.save ∨ c.save + c.saveSz ≤ a) → memRead u.mem a = memRead s.mem a := by
  intro u
  obtain ⟨h1, h2, -, -⟩ := spillPans_spec s g.core (· == g.grid)
  obtain ⟨a, ha⟩ : ∃ a, a = spillPans s g.core (· == g.grid) := ⟨_, rfl⟩
  rw [← ha] at h1 h2
  have h3 := writeArea_rest a g.ctx (groupArea g.vregs.length g.phys.length)
  have hmem : ∀ c, ctxOf a g.ctx = some c → MemOk a → MemOk (writeArea a g.ctx (groupArea g.vregs.length g.phys.length)) ∧
      ∀ x, (x < c.save ∨ c.save + c.saveSz ≤ x) →
        memRead (writeArea a g.ctx (groupArea g.vregs.length g.phys.length)).mem x = memRead a.mem x :=
    fun c hc hok => writeArea_outside hc hok _
  obtain ⟨b, hb⟩ : ∃ b, b = writeArea a g.ctx (groupArea g.vregs.length g.phys.length) := ⟨_, rfl⟩
  rw [← hb] at h3 hmem
  have hu : u = endBoost (suspend (setGroup b (writtenGroup g)) fun c => c.gid == g.gid) := by rw [hb, ha]; rfl
  have hgroups : b.groups = s.groups := (congrArg State.groups h3 :).trans (congrArg State.groups h1 :)
  have hcopies : b.copies = s.copies := (congrArg State.copies h3 :).trans (congrArg State.copies h1 :)
  have hamem : a.mem = s.mem := (congrArg State.mem h1 :)
  have hctx : b.contexts = a.contexts := (congrArg State.contexts h3 :)
  have hum : u.mem = b.mem := by rw [hu]; rfl
  have huc : ∀ n, ctxOf u n = ctxOf a n := fun n => by
    rw [hu]
    exact congrArg (List.find? fun c : Context => c.num == n) hctx
  refine ⟨?_, ?_, ?_, ?_, fun n x hx => ?_, fun c hc hok => ?_⟩
  · rw [hu]
    show b.groups.map _ = s.groups.map _
    rw [hgroups]
  · rw [hu]
    show (b.copies.map fun c => _) = _
    rw [hcopies]
    exact List.map_congr_left fun c _ => if_congr beq_iff_eq rfl rfl
  · rw [hu]
    exact (congrArg State.teams h3 :).trans (congrArg State.teams h1 :)
  · rw [hu]
    exact (congrArg State.queues h3 :).trans (congrArg State.queues h1 :)
  · obtain ⟨l, hl⟩ := h2 n x hx
    exact ⟨l, (huc n).trans hl⟩
  · obtain ⟨l, hl⟩ := h2 _ _ hc
    have hoka : MemOk a := by rw [MemOk, hamem]; exact hok
    obtain ⟨k1, k2⟩ := hmem _ hl hoka
    refine ⟨by rw [MemOk, hum]; exact k1, fun x hx => ?_⟩
    rw [hum, k2 x hx, hamem]

theorem exec_contextSave {s : State} {n : Nat} {x : Group} (h : groupOf s n = some x) :
    exec (.contextSave n) s = .next (if mayWrite s x then settleAcks (writeOut s x) else s) := by
  have hexec : exec (.contextSave n) s = execContextSave n s := rfl
  rw [hexec, execContextSave, h]

theorem writeOut_queues (s : State) (g : Group) : (writeOut s g).queues = s.queues := by
  rw [writeOut_eq]
  obtain ⟨-, -, -, hq, -⟩ := groupWritten_spec s g
  exact (congrArg State.queues (teamGoes_rest (groupWritten s g) g.team) :).trans hq

theorem saveSlots_get {g : Group} {k : Nat} {sl : Slot} (h : g.slots[k]? = some sl) :
    (writtenGroup g).slots[k]? = some { sl with rebind := sl.rebind || (sl.st == .bound && sl.reload) } := by
  show (g.slots.map _)[k]? = _
  rw [List.getElem?_map, h, Option.map_some]
  cases hb : sl.st == .bound && sl.reload with
  | true => rw [if_pos rfl, Bool.or_true]
  | false => rw [if_neg Bool.false_ne_true, Bool.or_false]

/-- A group that is written out, what it takes along and what stands. -/
theorem writeOut_spec {s : State} {n : Nat} {x : Group} (h : groupOf s n = some x) (hids : IdsOk s) :
    let t := writeOut s x
    groupOf t n = some (writtenGroup x) ∧ (∀ k, k ≠ n → groupOf t k = groupOf s k) ∧
      (∀ c, ctxOf s x.ctx = some c → (∀ tm, teamOf s x.team = some tm → tm.ctx = x.ctx) → MemOk s →
        ∀ a, (a < c.save ∨ c.save + c.saveSz ≤ a) → memRead t.mem a = memRead s.mem a) ∧
      (∀ c ∈ t.copies, c.gid = n → c.suspended = true) ∧
      ∀ tm, teamOf s x.team = some tm →
        let mates := s.groups.filter fun y => y.team == x.team && y.gid != n
        ((∃ y ∈ mates, y.place = .resident) → teamOf t x.team = some tm) ∧
        (tm.place ≠ .saved → (∀ y ∈ mates, y.place = .saved) →
          (∀ c ∈ s.copies, c.team = x.team → c.cls = .c1 ∧ c.acting = false ∧ (c.stopped = true ∨ c.parts = [])) →
          teamOf t x.team = some { tm with place := .saved, haltReq := false } ∧
            ∀ c ∈ t.copies, c.team = x.team → c.suspended = true) := by
  intro t
  obtain ⟨hgroups, hcopies, hteams, -, hbrine, hmem⟩ := groupWritten_spec s x
  obtain ⟨u, hu⟩ : ∃ u, u = groupWritten s x := ⟨_, rfl⟩
  have ht : t = teamGoes u x.team := by rw [hu]; rfl
  rw [← hu] at hgroups hcopies hteams hbrine hmem
  have hgid := groupOf_gid h
  have htg : t.groups = u.groups := by rw [ht]; exact (congrArg State.groups (teamGoes_rest u x.team) :)
  have hof : ∀ k, groupOf t k = groupOf (setGroup s (writtenGroup x)) k := fun k => by
    rw [groupOf, htg, hgroups]
    rfl
  have hteam : ∀ k, teamOf u k = teamOf s k := teamOf_teams hteams
  have hsusp : ∀ c ∈ u.copies, c.gid = n → c.suspended = true := fun c hc hcg => by
    rw [hcopies] at hc
    obtain ⟨y, -, rfl⟩ := List.mem_map.mp hc
    split
    · rfl
    · rename_i hne
      rw [if_neg hne] at hcg
      exact absurd (hcg.trans hgid.symm) hne
  have hmate : ∀ y, y ∈ s.groups → y.gid ≠ n → y ∈ u.groups := fun y hy hyn => by
    rw [hgroups]
    refine List.mem_map.mpr ⟨y, hy, if_neg ?_⟩
    rw [show (writtenGroup x).gid = x.gid from rfl, hgid]
    exact hyn
  refine ⟨(hof n).trans (groupOf_setGroup h hgid), fun k hk => (hof k).trans (groupOf_setGroup_other ?_), fun c hc hctx hok a ha => ?_, ?_,
    fun tm htm => ⟨fun ⟨y, hy, hyp⟩ => ?_, fun htp hall hidle => ?_⟩⟩
  · rw [show (writtenGroup x).gid = x.gid from rfl, hgid]
    exact hk
  · obtain ⟨hoku, hout⟩ := hmem c hc hok
    obtain ⟨l, hl⟩ := hbrine _ _ hc
    rw [ht]
    refine (teamGoes_outside (c := { c with brine := c.brine ++ l }) (fun tm htm => ?_) hoku ha).trans (hout a ha)
    rw [hctx tm (by rw [← hteam]; exact htm)]
    exact hl
  · rw [ht]
    exact teamGoes_suspended (sel := fun c => c.gid = n) (fun _ hc => hc) hsusp
  · rw [List.mem_filter, Bool.and_eq_true, beq_iff_eq, bne_iff_ne] at hy
    rw [ht, teamGoes_standing (hmate y hy.1 hy.2.2) hy.2.1 hyp, hteam]
    exact htm
  · have htid := teamOf_tid htm
    have hsaves : teamSaves u tm = true := by
      rw [teamSaves_iff_of]
      refine ⟨htp, fun y hy hyt => ?_, fun c hc hct => ?_, .inl ⟨writtenGroup x, ?_, htid.symm⟩⟩
      · rw [hgroups] at hy
        obtain ⟨z, hz, rfl⟩ := List.mem_map.mp hy
        split
        · rfl
        · rename_i hne
          rw [if_neg hne] at hyt
          refine hall z (List.mem_filter.mpr ⟨hz, ?_⟩)
          rw [Bool.and_eq_true, beq_iff_eq, bne_iff_ne]
          exact ⟨hyt.trans htid, fun e => hne (e.trans hgid.symm)⟩
      · rw [hcopies] at hc
        obtain ⟨z, hz, rfl⟩ := List.mem_map.mp hc
        have hzt : z.team = x.team := by
          rw [← htid, ← hct]
          split <;> rfl
        obtain ⟨k1, k2, k3⟩ := hidle z hz hzt
        split
        · exact ⟨k1, k2, .inr rfl⟩
        · exact ⟨k1, k2, k3⟩
      · rw [hgroups]
        exact List.mem_map.mpr ⟨x, List.mem_of_find?_eq_some h, if_pos rfl⟩
    obtain ⟨k1, k2⟩ := teamGoes_saved ((hteam _).trans htm) hsaves
    rw [ht]
    refine ⟨k1, fun c hc hct => ?_⟩
    rw [k2] at hc
    obtain ⟨y, -, rfl⟩ := List.mem_map.mp hc
    split
    · rfl
    · rename_i hne
      rw [if_neg hne] at hct
      exact absurd hct hne

/-- A save of a team none of whose groups is left. -/
theorem exec_teamSave {s : State} {n : Nat} {tm : Team} (h : teamOf s n = some tm) (hg : groupOf s n = none)
    (hcmd : ∀ q ∈ s.queues, q.cmd = none) (hno : ∀ y ∈ s.groups, y.team ≠ n) (hp : tm.place ≠ .saved) :
    let waits := tm.haltReq = true ∧ (∃ c ∈ s.copies, c.team = n) ∧
      ∀ c ∈ s.copies, c.team = n → c.cls = .c1 ∧ c.acting = false ∧ (c.stopped = true ∨ c.parts = [])
    (waits → ∃ t, exec (.contextSave n) s = .next t ∧ teamOf t n = some { tm with place := .saved, haltReq := false } ∧
      t.groups = s.groups ∧ t.copies = s.copies.map fun c => if c.team = n then { c with suspended := true, parts := [] } else c) ∧
    (¬ waits → exec (.contextSave n) s = .next s) := by
  intro waits
  have htid := teamOf_tid h
  have hexec : exec (.contextSave n) s = .next (if teamSaves s tm || teamEvicts s tm then settleAcks (teamGoes s n) else s) := by
    have hexec : exec (.contextSave n) s = execContextSave n s := rfl
    rw [hexec, execContextSave, hg, h]
    rfl
  have hev : teamEvicts s tm = false := by
    have : (s.groups.any fun g => g.team == tm.tid && g.place == .evicted) = false := by
      rw [List.any_eq_false]
      intro y hy he
      rw [Bool.and_eq_true, beq_iff_eq] at he
      exact hno y hy (he.1.trans htid)
    rw [teamEvicts, this, Bool.and_false, Bool.false_and]
  have hiff : teamSaves s tm = true ↔ waits := by
    rw [teamSaves_iff_of, htid]
    constructor
    · rintro ⟨-, -, h3, ⟨y, hy, hyt⟩ | ⟨h4, h5⟩⟩
      · exact absurd hyt (hno y hy)
      · exact ⟨h4, h5, h3⟩
    · rintro ⟨h4, h5, h3⟩
      exact ⟨hp, fun y hy hyt => absurd hyt (hno y hy), h3, .inr ⟨h4, h5⟩⟩
  refine ⟨fun hw => ?_, fun hw => ?_⟩
  · have hs := hiff.mpr hw
    obtain ⟨k1, k2⟩ := teamGoes_saved h hs
    have hrest := teamGoes_rest s n
    refine ⟨teamGoes s n, ?_, k1, (congrArg State.groups hrest :), k2⟩
    rw [hexec, hs, Bool.true_or, if_pos rfl, settleAcks_idle]
    rw [(congrArg State.queues hrest :)]
    exact hcmd
  · rw [hexec, Bool.eq_false_iff.mpr fun e => hw (hiff.mp e), hev]
    rfl

/-! ## Groups that resume (R155, R217) -/

/-- From `s` to `t` group `x` has its splits' states as `f` says, LBASE raised perhaps, and L1s discarded; the other groups that `K`
names stand. -/
structure RetestedTo (s : State) (x : Group) (K : Nat → Prop) (f : Split → SplitState) (t : State) : Prop where
  rest : SameBut s t
  gids : t.groups.map Group.gid = s.groups.map Group.gid
  others : ∀ k, k ≠ x.gid → K k → groupOf t k = groupOf s k
  group : ∃ g, groupOf t x.gid = some g ∧ { g with splits := x.splits, lbase := x.lbase } = x ∧
    g.splits = x.splits.map fun p => { p with state := f p }

section
variable {s t : State} {x : Group} {K : Nat → Prop} {f : Split → SplitState}

theorem RetestedTo.start (h : groupOf s x.gid = some x) : RetestedTo s x (fun _ => True) Split.state s :=
  ⟨.refl s, rfl, fun _ _ _ => rfl, x, h, rfl, (List.map_id _).symm⟩

theorem RetestedTo.congr {f' : Split → SplitState} (h : RetestedTo s x K f t) (he : ∀ p ∈ x.splits, f p = f' p) : RetestedTo s x K f' t := by
  obtain ⟨g, hg, hx, hsp⟩ := h.group
  exact ⟨h.rest, h.gids, h.others, g, hg, hx, hsp.trans (List.map_congr_left fun p hp => by rw [he p hp])⟩

theorem RetestedTo.mono {K' : Nat → Prop} (h : RetestedTo s x K f t) (he : ∀ k, k ≠ x.gid → K' k → K k) : RetestedTo s x K' f t :=
  ⟨h.rest, h.gids, fun k hk hk' => h.others k hk (he k hk hk'), h.group⟩

theorem RetestedTo.acquire (h : RetestedTo s x K f t) (c : Nat) : RetestedTo s x K f (acquireDev t c) := ⟨h.rest, h.gids, h.others, h.group⟩

/-- One split's state changed, with LBASE raised. -/
theorem RetestedTo.change (h : RetestedTo s x K f t) (hn : (x.splits.map Split.sid).Nodup) {p : Split} (hp : p ∈ x.splits) {g : Group}
    (hg : groupOf t x.gid = some g) (w : Option Nat) (st : SplitState) :
    RetestedTo s x K (fun q => if q.sid = p.sid then st else f q) (setGroup t (setSplit (raiseLbase g w) { p with state := st })) := by
  obtain ⟨g', hg', hx, hsp⟩ := h.group
  rw [hg] at hg'
  cases hg'
  have hgid : (setSplit (raiseLbase g w) { p with state := st }).gid = x.gid := (sameRegs_raiseLbase g w).gid.trans (groupOf_gid hg)
  have hsplits : (raiseLbase g w).splits = g.splits := by
    unfold raiseLbase
    split
    · split <;> rfl
    · rfl
  have hrest : { raiseLbase g w with splits := x.splits, lbase := x.lbase } = x := by
    refine Eq.trans ?_ hx
    unfold raiseLbase
    split
    · split <;> rfl
    · rfl
  refine ⟨h.rest, (map_gid_setGroup _ _).trans h.gids, fun k hk hK => ?_, setSplit (raiseLbase g w) { p with state := st }, groupOf_setGroup hg hgid, hrest, ?_⟩
  · rw [groupOf_setGroup_other (by rw [hgid]; exact hk)]
    exact h.others k hk hK
  · show (raiseLbase g w).splits.map _ = _
    rw [hsplits, hsp, List.map_map]
    refine List.map_congr_left fun q hq => ?_
    dsimp only [Function.comp]
    by_cases hqp : q.sid = p.sid
    · rw [if_pos hqp, if_pos hqp, List.inj_on_of_nodup_map hn hq hp hqp]
    · rw [if_neg hqp, if_neg hqp]

/-- The split as it stands in the group. -/
theorem RetestedTo.split (h : RetestedTo s x K f t) (hn : (x.splits.map Split.sid).Nodup) {p : Split} (hp : p ∈ x.splits) :
    ∃ g, groupOf t x.gid = some g ∧ { g with splits := x.splits, lbase := x.lbase } = x ∧ splitOf g p.sid = some { p with state := f p } := by
  obtain ⟨g, hg, hx, hsp⟩ := h.group
  refine ⟨g, hg, hx, ?_⟩
  have hnd : (g.splits.map Split.sid).Nodup := by
    rw [hsp, List.map_map]
    exact hn
  have hin : ({ p with state := f p } : Split) ∈ g.splits := by
    rw [hsp]
    exact List.mem_map.mpr ⟨p, hp, rfl⟩
  exact splitOf_of_mem hnd hin

theorem RetestedTo.goOn (h : RetestedTo s x K f t) (hn : (x.splits.map Split.sid).Nodup) {p : Split} (hp : p ∈ x.splits)
    (lt : Option Nat) (dev : Bool) :
    RetestedTo s x K (fun q => if q.sid = p.sid then .ready else f q) (goOnPhase t x.gid p.sid lt dev) := by
  obtain ⟨g, hg, hx, hsp⟩ := h.split hn hp
  have hgid := groupOf_gid hg
  have hraise : (raiseLbase g lt).gid = x.gid := (sameRegs_raiseLbase g lt).gid.trans hgid
  have hsplits : splitOf (raiseLbase g lt) p.sid = splitOf g p.sid := by
    unfold raiseLbase
    split
    · split <;> rfl
    · rfl
  have hupd : updSplit (setGroup t (raiseLbase g lt)) x.gid p.sid (fun q => { q with state := .ready }) =
      setGroup t (setSplit (raiseLbase g lt) { p with state := .ready }) := by
    rw [updSplit_eq (groupOf_setGroup hg hraise) (hsplits.trans hsp)]
    exact setGroup_setGroup t _ _ rfl
  unfold goOnPhase
  rw [hg]
  dsimp only
  rw [hupd]
  have hc := h.change hn hp hg lt .ready
  split
  · exact hc.acquire _
  · exact hc

/-- What a split's own re-test leaves of its state; where its phase has a harvest, the waiting for that. -/
def retestState (s : State) (x : Group) (p : Split) : SplitState :=
  match p.state with
  | .waitJoin va pa seen lt => if seen || physRead s pa 4 == 0 then .ready else .waitJoin va pa seen lt
  | .waitPhase off ph none =>
    if (barAt s x.team off).completed ph then
      match (if x.repro && ((objOf s x.team off).info ph).dev then ((objOf s x.team off).info ph).key else none) with
      | none => .ready
      | some key => .waitPhase off ph (some { key, lt := ((objOf s x.team off).info ph).lt })
    else .waitPhase off ph none
  | st => st

theorem objOf_same {s t : State} (h : SameBut s t) (k off : Nat) : objOf t k off = objOf s k off := by
  obtain ⟨-, -, ht, hh, -, -⟩ := h.keeps
  rw [objOf, objOf, spadPlace_same ht hh, objsAt_same ht hh]

theorem barAt_same {s t : State} (h : SameBut s t) (k off : Nat) : barAt t k off = barAt s k off := by
  obtain ⟨-, -, ht, hh, -, -⟩ := h.keeps
  rw [barAt, barAt, spadRead_same ht hh]

/-- The re-test of a split that stands as the group held it. -/
theorem RetestedTo.retest (h : RetestedTo s x K f t) (hn : (x.splits.map Split.sid).Nodup) {p : Split} (hp : p ∈ x.splits)
    (hf : f p = p.state) :
    RetestedTo s x K (fun q => if q.sid = p.sid then retestState s x p else f q) (Sys2Proof.Machine.retest t x.gid p) := by
  obtain ⟨g, hg, hx, hsp⟩ := h.split hn hp
  have hteam : g.team = x.team := (congrArg Group.team hx :)
  have hrepro : g.repro = x.repro := (congrArg Group.repro hx :)
  have hmem := h.rest.keeps.1
  have hsame : ∀ st, st = f p → RetestedTo s x K (fun q => if q.sid = p.sid then st else f q) t := fun st hst =>
    h.congr fun q hq => by
      split
      · rename_i he
        rw [hst, List.inj_on_of_nodup_map hn hq hp he]
      · rfl
  unfold Sys2Proof.Machine.retest
  rw [hg]
  unfold retestState
  cases hst : p.state with
  | ready => exact hsame _ (hst.symm.trans hf.symm)
  | joined => exact hsame _ (hst.symm.trans hf.symm)
  | synced => exact hsame _ (hst.symm.trans hf.symm)
  | waitJoin va pa seen lt =>
    dsimp only
    unfold jwaitWake
    rw [hst]
    dsimp only
    have hread : physRead t pa 4 = physRead s pa 4 := congrArg (fun m => memReadN m pa 4) hmem
    rw [hread]
    by_cases hc : (seen || physRead s pa 4 == 0) = true
    · rw [if_pos hc, if_pos hc]
      exact (h.change hn hp hg _ .ready).acquire _
    · rw [if_neg hc, if_neg hc]
      exact hsame _ (hst.symm.trans hf.symm)
  | waitPhase off ph d =>
    cases d with
    | some d => exact hsame _ (hst.symm.trans hf.symm)
    | none =>
      dsimp only
      rw [hteam, barAt_same h.rest, objOf_same h.rest]
      by_cases hc : (barAt s x.team off).completed ph = true
      · rw [if_pos hc, if_pos hc]
        unfold wakeSplit
        rw [hg]
        dsimp only
        rw [hrepro]
        cases hk : (if x.repro && ((objOf s x.team off).info ph).dev then ((objOf s x.team off).info ph).key else none) with
        | none => exact h.goOn hn hp _ _
        | some key =>
          dsimp only
          rw [updSplit_eq hg hsp]
          have hst' : f p = .waitPhase off ph none := hf.trans hst
          rw [hst']
          have := h.change hn hp hg none (.waitPhase off ph (some { key, lt := ((objOf s x.team off).info ph).lt }))
          exact this
      · rw [if_neg hc, if_neg hc]
        exact hsame _ (hst.symm.trans hf.symm)

/-- The splits of the group re-tested one after another. -/
theorem RetestedTo.fold (hn : (x.splits.map Split.sid).Nodup) (ps : List Split) (done : List Nat) (hps : ∀ p ∈ ps, p ∈ x.splits)
    (hnd : (ps.map Split.sid).Nodup) (hdone : ∀ p ∈ ps, p.sid ∉ done)
    (h : RetestedTo s x K (fun q => if q.sid ∈ done then retestState s x q else q.state) t) :
    RetestedTo s x K (fun q => if q.sid ∈ done ++ ps.map Split.sid then retestState s x q else q.state)
      (ps.foldl (fun s p => Sys2Proof.Machine.retest s x.gid p) t) := by
  induction ps generalizing done t with
  | nil => rwa [List.map_nil, List.append_nil]
  | cons p ps ih =>
    have hp := hps p (List.mem_cons_self ..)
    rw [List.map_cons, List.nodup_cons] at hnd
    have h1 := (h.retest hn hp (if_neg (hdone p (List.mem_cons_self ..)))).congr
      (f' := fun q => if q.sid ∈ done ++ [p.sid] then retestState s x q else q.state) fun q hq => by
        by_cases hqp : q.sid = p.sid
        · rw [if_pos hqp, List.inj_on_of_nodup_map hn hq hp hqp, if_pos (by simp)]
        · rw [if_neg hqp]
          exact if_congr (by simp [hqp]) rfl rfl
    have h2 := ih (done ++ [p.sid]) (fun q hq => hps q (List.mem_cons_of_mem _ hq)) hnd.2 (fun q hq he => ?_) h1
    · rw [List.append_assoc, List.singleton_append] at h2
      exact h2
    · rcases List.mem_append.mp he with he | he
      · exact hdone q (List.mem_cons_of_mem _ hq) he
      · exact hnd.1 ((List.mem_singleton.mp he) ▸ List.mem_map_of_mem hq)

theorem RetestedTo.all (hn : (x.splits.map Split.sid).Nodup) (h : groupOf s x.gid = some x) :
    RetestedTo s x (fun _ => True) (retestState s x) (x.splits.foldl (fun s p => Sys2Proof.Machine.retest s x.gid p) s) := by
  refine (RetestedTo.fold (s := s) (x := x) hn x.splits [] (fun _ hp => hp) hn (fun _ _ => List.not_mem_nil) ((RetestedTo.start h).congr fun q _ => ?_)).congr
    fun q hq => ?_
  · rw [if_neg List.not_mem_nil]
  · rw [if_pos]
    rw [List.nil_append]
    exact List.mem_map_of_mem hq

theorem retested_eq (s : State) (x : Group) (p : Split) : retested s x p = match retestState s x p with
    | .waitPhase off ph (some d) => if harvestOver s x.grid d.key then .ready else .waitPhase off ph (some d)
    | st => st := by
  unfold retested retestState
  cases p.state with
  | ready => rfl
  | joined => rfl
  | synced => rfl
  | waitJoin va pa seen lt =>
    dsimp only
    split <;> rfl
  | waitPhase off ph d =>
    cases d with
    | some d => rfl
    | none =>
      dsimp only
      by_cases hc : (barAt s x.team off).completed ph = true
      · rw [hc, if_neg (by simp), if_pos rfl]
        cases (if x.repro && ((objOf s x.team off).info ph).dev then ((objOf s x.team off).info ph).key else none) with
        | none => rfl
        | some key => rfl
      · rw [Bool.eq_false_iff.mpr hc, if_pos rfl, if_neg Bool.false_ne_true]

theorem map_gid_updSplit (s : State) (n m : Nat) (f : Split → Split) : (updSplit s n m f).groups.map Group.gid = s.groups.map Group.gid := by
  unfold updSplit updGroup
  split
  · exact map_gid_setGroup _ _
  · rfl

theorem map_gid_goOnPhase (s : State) (n m : Nat) (lt : Option Nat) (dev : Bool) :
    (goOnPhase s n m lt dev).groups.map Group.gid = s.groups.map Group.gid := by
  unfold goOnPhase
  split
  · rfl
  · have h1 := (map_gid_updSplit (setGroup s (raiseLbase ‹Group› lt)) n m fun q => { q with state := .ready }).trans (map_gid_setGroup s _)
    dsimp only
    split <;> exact h1

theorem goOnPhase_other {s : State} {n m k : Nat} (lt : Option Nat) (dev : Bool) (h : k ≠ n) : groupOf (goOnPhase s n m lt dev) k = groupOf s k := by
  unfold goOnPhase
  cases hg : groupOf s n with
  | none => rfl
  | some g =>
    dsimp only
    have hgid := groupOf_gid hg
    have hraise : (raiseLbase g lt).gid = n := (sameRegs_raiseLbase g lt).gid.trans hgid
    have h1 : groupOf (updSplit (setGroup s (raiseLbase g lt)) n m fun q => { q with state := .ready }) k = groupOf s k := by
      rw [updSplit, updGroup, groupOf_setGroup hg hraise]
      dsimp only
      split
      · rw [groupOf_setGroup_other, groupOf_setGroup_other]
        · rw [hraise]; exact h
        · rw [show ∀ p, (setSplit (raiseLbase g lt) p).gid = (raiseLbase g lt).gid from fun _ => rfl, hraise]; exact h
      · rw [groupOf_setGroup_other, groupOf_setGroup_other] <;> (rw [hraise]; exact h)
    split
    · exact h1
    · exact h1

/-- Waiters whose harvest is over go on: those of the group as `retested` says. -/
theorem RetestedTo.wake (hn : (x.splits.map Split.sid).Nodup) (hrep : gridRepro s x.grid = true) (L : List (Nat × Nat × PhaseDue)) {t : State}
    {f : Split → SplitState} (hK : ∀ e ∈ L, ¬ K e.1) (hL : ∀ e ∈ L, e.1 = x.gid → ∃ q ∈ x.splits, q.sid = e.2.1 ∧ ∃ off ph, retestState s x q = .waitPhase off ph (some e.2.2))
    (hf : ∀ q ∈ x.splits, f q = retestState s x q ∨ f q = retested s x q) (h : RetestedTo s x K f t) :
    ∃ f', (∀ q ∈ x.splits, f' q = retestState s x q ∨ f' q = retested s x q) ∧
      (∀ q ∈ x.splits, (f q = retested s x q ∨ ∃ e ∈ L, e.1 = x.gid ∧ e.2.1 = q.sid) → f' q = retested s x q) ∧
      RetestedTo s x K f' (L.foldl (fun s e => if harvestOut s x.grid e.2.2.key then s else goOnPhase s e.1 e.2.1 e.2.2.lt true) t) := by
  induction L generalizing f t with
  | nil =>
    refine ⟨f, hf, fun q _ ho => ?_, h⟩
    rcases ho with ho | ⟨e, he, -⟩
    · exact ho
    · exact absurd he List.not_mem_nil
  | cons e L ih =>
    have hout : harvestOut t x.grid e.2.2.key = harvestOut s x.grid e.2.2.key := by
      rw [harvestOut, h.rest.keeps.2.1]
      rfl
    have hretest : ∀ q ∈ x.splits, q.sid = e.2.1 → e.1 = x.gid →
        retested s x q = if harvestOut s x.grid e.2.2.key then retestState s x q else .ready := fun q hq hqs he => by
      obtain ⟨q', hq', hqs', off, ph, hw⟩ := hL e (List.mem_cons_self ..) he
      have : q = q' := List.inj_on_of_nodup_map hn hq hq' (hqs.trans hqs'.symm)
      subst this
      rw [retested_eq, hw]
      dsimp only
      rw [harvestOver, hrep, Bool.true_and]
      cases harvestOut s x.grid e.2.2.key <;> rfl
    have hstep : ∃ f1, (∀ q ∈ x.splits, f1 q = retestState s x q ∨ f1 q = retested s x q) ∧
        (∀ q ∈ x.splits, (f q = retested s x q ∨ (e.1 = x.gid ∧ e.2.1 = q.sid)) → f1 q = retested s x q) ∧
        RetestedTo s x K f1 (if harvestOut t x.grid e.2.2.key then t else goOnPhase t e.1 e.2.1 e.2.2.lt true) := by
      rw [hout]
      by_cases ho : harvestOut s x.grid e.2.2.key = true
      · rw [if_pos ho]
        refine ⟨f, hf, fun q hq hor => ?_, h⟩
        rcases hor with hor | ⟨he, hqs⟩
        · exact hor
        · rcases hf q hq with hq' | hq'
          · rw [hq', hretest q hq hqs.symm he, if_pos ho]
          · exact hq'
      · rw [if_neg ho]
        by_cases he : e.1 = x.gid
        · obtain ⟨p, hp, hps, -⟩ := hL e (List.mem_cons_self ..) he
          have hready : ∀ q ∈ x.splits, q.sid = p.sid → retested s x q = .ready := fun q hq hqs => by
            rw [hretest q hq (hqs.trans hps) he, if_neg ho]
          rw [he, ← hps]
          refine ⟨_, fun q hq => ?_, fun q hq hor => ?_, h.goOn hn hp e.2.2.lt true⟩
          · by_cases hqs : q.sid = p.sid
            · exact .inr (by rw [if_pos hqs, hready q hq hqs])
            · rw [if_neg hqs]
              exact hf q hq
          · by_cases hqs : q.sid = p.sid
            · rw [if_pos hqs, hready q hq hqs]
            · rw [if_neg hqs]
              rcases hor with hor | ⟨-, hor⟩
              · exact hor
              · exact absurd hor.symm hqs
        · refine ⟨f, hf, fun q hq hor => ?_, h.rest.trans (goOnPhase_rest ..), (map_gid_goOnPhase ..).trans h.gids,
            fun k hk hkK => ?_, ?_⟩
          · rcases hor with hor | ⟨he', -⟩
            · exact hor
            · exact absurd he' he
          · rw [goOnPhase_other]
            · exact h.others k hk hkK
            · exact fun e' => hK e (List.mem_cons_self ..) (e' ▸ hkK)
          · obtain ⟨g, hg, hx⟩ := h.group
            exact ⟨g, (goOnPhase_other _ _ (Ne.symm he)).trans hg, hx⟩
    obtain ⟨f1, k1, k2, k3⟩ := hstep
    obtain ⟨f', m1, m2, m3⟩ := ih (fun e he => hK e (List.mem_cons_of_mem _ he)) (fun e he => hL e (List.mem_cons_of_mem _ he)) k1 k3
    refine ⟨f', m1, fun q hq hor => m2 q hq ?_, m3⟩
    rcases hor with hor | ⟨e', he', h1, h2⟩
    · exact .inl (k2 q hq (.inl hor))
    · rcases List.mem_cons.mp he' with rfl | he'
      · exact .inl (k2 q hq (.inr ⟨h1, h2⟩))
      · exact .inr ⟨e', he', h1, h2⟩

/-- Once the waiters of the grid whose harvest is over have gone on, each split is as `retested` says, and other groups stand that
wait for no harvest of the grid. -/
theorem RetestedTo.settle (hids : IdsOk s) (hn : (x.splits.map Split.sid).Nodup) (hp : x.place = .resident) {t : State}
    (h : RetestedTo s x (fun _ => True) (retestState s x) t) :
    RetestedTo s x (fun k => ∀ y, groupOf s k = some y → gridRepro s x.grid = false ∨ y.grid ≠ x.grid ∨
      ∀ p ∈ y.splits, ∀ off ph d, p.state ≠ .waitPhase off ph (some d)) (retested s x) (settleKeys x.grid (t, [])) := by
  have hgr : gridRepro t x.grid = gridRepro s x.grid := by
    rw [gridRepro, gridOf, h.rest.keeps.2.2.2.2.1]
    rfl
  rw [settleKeys_nil, hgr]
  cases hrep : gridRepro s x.grid with
  | false =>
    rw [if_neg Bool.false_ne_true]
    refine (h.mono fun _ _ _ => trivial).congr fun q _ => ?_
    rw [retested_eq]
    split
    · rename_i off ph d hst
      rw [hst, harvestOver, hrep, Bool.false_and, if_neg Bool.false_ne_true]
    · rfl
  | true =>
    rw [if_pos rfl]
    obtain ⟨g, hg, hx, hsp⟩ := h.group
    have hnd : (t.groups.map Group.gid).Nodup := by
      rw [h.gids]
      exact hids.groups
    have hgid := groupOf_gid hg
    have hgm := List.mem_of_find?_eq_some hg
    have hgrid : g.grid = x.grid := (congrArg Group.grid hx :)
    have hplace : g.place = x.place := (congrArg Group.place hx :)
    have hentry : ∀ e ∈ phasesDue t x.grid, ∃ y ∈ t.groups, y.grid = x.grid ∧ ∃ p ∈ y.splits, ∃ off ph, p.state = .waitPhase off ph (some e.2.2) ∧
        e.1 = y.gid ∧ e.2.1 = p.sid := by
      intro e he
      obtain ⟨y, hy, hm⟩ := List.mem_flatMap.mp he
      obtain ⟨p, hpm, hpe⟩ := List.mem_filterMap.mp hm
      rw [List.mem_filter, Bool.and_eq_true, beq_iff_eq] at hy
      refine ⟨y, hy.1, hy.2.1, p, hpm, ?_⟩
      split at hpe
      · rename_i off ph d hst
        cases hpe
        exact ⟨off, ph, hst, rfl, rfl⟩
      · cases hpe
    have hL : ∀ e ∈ phasesDue t x.grid, e.1 = x.gid →
        ∃ q ∈ x.splits, q.sid = e.2.1 ∧ ∃ off ph, retestState s x q = .waitPhase off ph (some e.2.2) := fun e he hex => by
      obtain ⟨y, hy, -, p, hpm, off, ph, hst, hye, hps⟩ := hentry e he
      have hyx : y = g := List.inj_on_of_nodup_map hnd hy hgm (hye.symm.trans (hex.trans hgid.symm))
      subst hyx
      rw [hsp] at hpm
      obtain ⟨q, hq, rfl⟩ := List.mem_map.mp hpm
      exact ⟨q, hq, hps.symm, off, ph, hst⟩
    have hK : ∀ e ∈ phasesDue t x.grid, ¬ (e.1 ≠ x.gid ∧ ∀ y, groupOf s e.1 = some y → y.grid ≠ x.grid ∨
        ∀ p ∈ y.splits, ∀ off ph d, p.state ≠ .waitPhase off ph (some d)) := fun e he ⟨hne, hK⟩ => by
      obtain ⟨y, hy, hyg, p, hpm, off, ph, hst, hye, -⟩ := hentry e he
      have hof : groupOf s e.1 = some y := by
        rw [← h.others e.1 hne trivial, hye]
        exact groupOf_of_mem hnd hy
      rcases hK y hof with hK | hK
      · exact hK hyg
      · exact hK p hpm off ph _ hst
    obtain ⟨f', -, h2, h3⟩ := RetestedTo.wake (K := fun k => k ≠ x.gid ∧ ∀ y, groupOf s k = some y → y.grid ≠ x.grid ∨
      ∀ p ∈ y.splits, ∀ off ph d, p.state ≠ .waitPhase off ph (some d)) hn hrep (phasesDue t x.grid) (t := t) (f := retestState s x)
      hK hL (fun q _ => .inl rfl) (h.mono fun _ _ _ => trivial)
    refine (h3.mono fun k hk hK => ⟨hk, fun y hy => (hK y hy).resolve_left (by simp)⟩).congr fun q hq => ?_
    by_cases hw : ∃ off ph d, retestState s x q = .waitPhase off ph (some d)
    · obtain ⟨off, ph, d, hw⟩ := hw
      refine h2 q hq (.inr ⟨(g.gid, q.sid, d), ?_, hgid, rfl⟩)
      refine List.mem_flatMap.mpr ⟨g, ?_, List.mem_filterMap.mpr ⟨{ q with state := retestState s x q }, ?_, ?_⟩⟩
      · rw [List.mem_filter, Bool.and_eq_true, beq_iff_eq, beq_iff_eq]
        exact ⟨hgm, hgrid, hplace.trans hp⟩
      · rw [hsp]
        exact List.mem_map.mpr ⟨q, hq, rfl⟩
      · rw [hw]
    · refine h2 q hq (.inl ?_)
      rw [retested_eq]
      split
      · rename_i off ph d hst
        exact absurd ⟨off, ph, d, hst⟩ hw
      · rfl

end

/-- The rings once a group's saved one is back in its quarter. -/
def ringBack (s : State) (g : Group) : State :=
  match g.savedRing with
  | some r => setRing s g.core g.quarter r
  | none => s

theorem ringBack_rest (s : State) (g : Group) : { ringBack s g with rings := s.rings } = s := by
  unfold ringBack
  split <;> rfl

theorem rebindGroup_none {s : State} {n : Nat} {g : Group} (h : groupOf s n = some g) (hsl : ∀ sl ∈ g.slots, sl.rebind = false) :
    rebindGroup s n = setGroup s { g with resume := .done } := by
  have hks : (g.slots.zipIdx.filter fun x => x.1.rebind) = [] := by
    rw [List.filter_eq_nil_iff]
    intro y hy
    rw [hsl y.1 (List.fst_mem_of_mem_zipIdx hy)]
    exact Bool.false_ne_true
  rw [rebindGroup, h]
  dsimp only
  rw [hks, setResume, updGroup, h]
  rfl

theorem resumed_ring {u : State} {n : Nat} {g : Group} (h : groupOf u n = some g) (hsl : ∀ sl ∈ g.slots, sl.rebind = false) :
    rebindGroup (restoreRing u g) n = setGroup (ringBack u g) { g with savedRing := none, resume := .done } := by
  have hgid := groupOf_gid h
  unfold restoreRing ringBack
  cases hr : g.savedRing with
  | none =>
    refine (rebindGroup_none h hsl).trans (congrArg (setGroup u) ?_)
    rw [← hr]
  | some r =>
    dsimp only
    rw [rebindGroup_none (s := setGroup (setRing u g.core g.quarter r) { g with savedRing := none })
      (groupOf_setGroup (s := setRing u g.core g.quarter r) h hgid) hsl]
    exact setGroup_setGroup _ _ _ rfl

theorem exec_groupResume_idle {s : State} {n : Nat} {x : Group} (h : groupOf s n = some x)
    (hno : x.place ≠ .resident ∨ x.resume = .done ∨ (∃ gr, gridOf s x.grid = some gr ∧ gridAway s gr = true)) :
    exec (.groupResume n) s = .next s := by
  have hexec : exec (.groupResume n) s = execGroupResume n s := rfl
  rw [hexec, execGroupResume, h]
  dsimp only
  rw [if_pos]
  rcases hno with hp | hd | ⟨gr, hg, ha⟩
  · rw [bne_iff_ne.mpr hp]
    rfl
  · rw [hd]
    simp
  · rw [hg, Option.any_some, ha, Bool.or_true]

theorem exec_groupResume_due {s : State} {n : Nat} {x : Group} (h : groupOf s n = some x) (hp : x.place = .resident) (hr : x.resume = .due)
    (hd : x.driver = none) (hring : ringBusy s x = false) (haway : ∀ gr, gridOf s x.grid = some gr → gridAway s gr = false) :
    exec (.groupResume n) s =
      let u := settleKeys x.grid (x.splits.foldl (fun s p => retest s n p) (reissue s x.core fun c => c.gid == n && c.suspended), [])
      .next (settleAcks (match groupOf u n with
        | some y => rebindGroup (restoreRing u y) n
        | none => u)) := by
  have hexec : exec (.groupResume n) s = execGroupResume n s := rfl
  have ha : (gridOf s x.grid).any (gridAway s) = false := by
    cases hg : gridOf s x.grid with
    | none => rfl
    | some gr => exact haway gr hg
  rw [hexec, execGroupResume, h]
  dsimp only
  rw [if_neg]
  · rw [hd]
    generalize settleKeys x.grid (List.foldl (fun s p => retest s n p) (reissue s x.core fun c => c.gid == n && c.suspended) x.splits, []) = u
    cases groupOf u n <;> rfl
  · rw [hp, hr, hd, hring, ha]
    simp

theorem retested_reissue (s : State) (c : Nat) (sel : Copy → Bool) (x : Group) (p : Split) :
    retested (reissue s c sel) x p = retested s x p := by
  have hbar : ∀ off, barAt (reissue s c sel) x.team off = barAt s x.team off := fun off => by
    rw [barAt, barAt, spadRead_same (s := s) (t := reissue s c sel) rfl rfl]
  have hobj : ∀ off, objOf (reissue s c sel) x.team off = objOf s x.team off := fun off => by
    rw [objOf, objOf, spadPlace_same (s := s) (t := reissue s c sel) rfl rfl, objsAt_same (s := s) (t := reissue s c sel) rfl rfl]
  have hread : ∀ pa, physRead (reissue s c sel) pa 4 = physRead s pa 4 := fun _ => rfl
  have hover : ∀ key, harvestOver (reissue s c sel) x.grid key = harvestOver s x.grid key := fun _ => rfl
  unfold retested
  simp only [hbar, hobj, hread, hover]

/-- A group that resumes: its splits re-tested, its ring and its copies back. -/
theorem groupResume_spec {s : State} {n : Nat} {x : Group} (h : groupOf s n = some x) (hids : IdsOk s) (hcmd : ∀ q ∈ s.queues, q.cmd = none)
    (hp : x.place = .resident) (hr : x.resume = .due) (hd : x.driver = none) (hring : ringBusy s x = false)
    (hsl : ∀ sl ∈ x.slots, sl.rebind = false) (haway : ∀ gr, gridOf s x.grid = some gr → gridAway s gr = false) :
    ∃ t g, exec (.groupResume n) s = .next t ∧ groupOf t n = some g ∧ g.resume = .done ∧ g.savedRing = none ∧
      g.splits = x.splits.map (fun p => { p with state := retested s x p }) ∧
      { g with resume := x.resume, savedRing := x.savedRing, splits := x.splits, lbase := x.lbase } = x ∧
      (∀ y ∈ s.groups, y.gid ≠ n → (gridRepro s x.grid = false ∨ y.grid ≠ x.grid ∨
        ∀ p ∈ y.splits, ∀ off ph d, p.state ≠ .waitPhase off ph (some d)) → groupOf t y.gid = some y) ∧ t.mem = s.mem ∧
      (∀ r, x.savedRing = some r → 4 * x.core + x.quarter < s.rings.length → ringOf t x.core x.quarter = r) ∧
      t.copies = s.copies.map fun c => if c.gid = n ∧ c.suspended = true
        then { c with suspended := false, core := x.core, die := x.core / 40 } else c := by
  obtain ⟨s0, hs0⟩ : ∃ s0, s0 = reissue s x.core fun c => c.gid == n && c.suspended := ⟨_, rfl⟩
  have hgid := groupOf_gid h
  have h0 : groupOf s0 x.gid = some x := by
    rw [hs0, hgid]
    exact h
  have hids0 : IdsOk s0 := by rw [hs0]; exact idsOk_of hids rfl rfl
  have hsids := (hids.splits x (List.mem_of_find?_eq_some h)).1
  have hret := (RetestedTo.all hsids h0).settle hids0 hsids hp
  rw [hgid] at hret
  obtain ⟨u, hu⟩ : ∃ u, u = settleKeys x.grid (x.splits.foldl (fun s p => retest s n p) s0, []) := ⟨_, rfl⟩
  rw [← hu] at hret
  obtain ⟨hrest, -, hothers, g, hg, hx, hsp⟩ := hret
  rw [hgid] at hg
  have hexec := exec_groupResume_due h hp hr hd hring haway
  dsimp only at hexec
  rw [← hs0, ← hu, hg] at hexec
  dsimp only at hexec
  have hgn := groupOf_gid hg
  have hslots : g.slots = x.slots := (congrArg Group.slots hx :)
  have hsaved : g.savedRing = x.savedRing := (congrArg Group.savedRing hx :)
  have hcore : g.core = x.core := (congrArg Group.core hx :)
  have hquarter : g.quarter = x.quarter := (congrArg Group.quarter hx :)
  rw [resumed_ring hg (by rw [hslots]; exact hsl)] at hexec
  obtain ⟨hmem, -, -, -, -, hrings⟩ := hrest.keeps
  have hback := ringBack_rest u g
  have hqueues : (ringBack u g).queues = s.queues := (congrArg State.queues hback :).trans ((congrArg State.queues hrest :).trans (by rw [hs0]; rfl))
  have hof : ∀ k, groupOf (ringBack u g) k = groupOf u k := fun k =>
    congrArg (List.find? fun y : Group => y.gid == k) (congrArg State.groups hback :)
  rw [settleAcks_idle (s := setGroup (ringBack u g) { g with savedRing := none, resume := .done }) (by
    rw [show (setGroup (ringBack u g) { g with savedRing := none, resume := .done }).queues = (ringBack u g).queues from rfl, hqueues]
    exact hcmd)] at hexec
  refine ⟨_, _, hexec, groupOf_setGroup ((hof n).trans hg) hgn, rfl, rfl, ?_, ?_, fun y hy hyn hor => ?_, ?_, fun r hr' hlen => ?_, ?_⟩
  · refine hsp.trans (List.map_congr_left fun p _ => ?_)
    rw [hs0, retested_reissue]
  · refine Eq.trans ?_ hx
    rw [← hsaved]
    have hres : g.resume = x.resume := (congrArg Group.resume hx :)
    rw [← hres]
  · rw [groupOf_setGroup_other (by rw [show ({ g with savedRing := none, resume := .done } : Group).gid = g.gid from rfl, groupOf_gid hg]; exact hyn), hof]
    have hys : groupOf s0 y.gid = some y := by
      rw [hs0]
      exact groupOf_of_mem hids.groups hy
    rw [hothers y.gid (by rw [hgid]; exact hyn) fun z hz => ?_, hys]
    rw [hys] at hz
    cases hz
    rw [hs0]
    exact hor
  · exact (congrArg State.mem hback :).trans (hmem.trans (by rw [hs0]; rfl))
  · show ringOf (ringBack u g) x.core x.quarter = r
    rw [ringBack, hsaved, hr', hcore, hquarter]
    have hlen' : 4 * x.core + x.quarter < u.rings.length := by
      rw [hrings, hs0]
      exact hlen
    simp [ringOf, setRing, List.getD_eq_getElem?_getD, hlen']
  · refine (congrArg State.copies hback :).trans ((congrArg State.copies hrest :).trans ?_)
    rw [hs0]
    show (s.copies.map fun c => _) = _
    refine List.map_congr_left fun c _ => if_congr ?_ rfl rfl
    rw [Bool.and_eq_true, beq_iff_eq]

/-- Settles O51: commands of a queue, what they pre-empt and resume, saves, and groups that resume. -/
theorem preemption : Obligations.Preemption := by
  unfold Obligations.Preemption
  refine ⟨fun s n q h hn i hi => exec_commands_none h hn hi, ?_, fun s n q w c h hw ho hc => exec_resume h hw ho hc, ?_, cmdDone_iff, ?_, ?_, ?_⟩
  · intro s n q w c h hw ho hc hlen ids
    exact ⟨_, exec_preempt h hw ho hc, preempt_leaves h ho hc hlen⟩
  · intro s n q w h hn hok
    refine ⟨fun hw ho => ⟨_, exec_reserved h hw ho, ackQueue_acked w h hok⟩, fun hc hother => ?_⟩
    rw [settleAcks_one h hn hother, settleAck, hc]
    refine ⟨fun hd => ?_, fun hd => ?_⟩
    · dsimp only
      rw [hd]
      rfl
    · dsimp only
      rw [hd]
      exact ackQueue_acked w h hok
  · intro s n x h hids hcmd
    have hexec := exec_contextSave h
    refine ⟨fun hm => by rw [hexec, hm]; rfl, fun hm => ?_⟩
    rw [hm, if_pos rfl, settleAcks_idle (by rw [writeOut_queues]; exact hcmd)] at hexec
    obtain ⟨h1, h2, h3, h4, h5⟩ := writeOut_spec h hids
    exact ⟨_, _, hexec, h1, rfl, rfl, rfl, rfl, fun k sl hk => saveSlots_get hk, h2, h3, h4, h5⟩
  · intro s n tm h hg hcmd hno hp
    exact exec_teamSave h hg hcmd hno hp
  · intro s n x h hids hcmd
    exact ⟨exec_groupResume_idle h, fun hp hr hd hring hsl haway => groupResume_spec h hids hcmd hp hr hd hring hsl haway⟩

end Sys2Proof.Machine
end

section
/-!
SUPPORT. Checked teams: copies discarded, streams performed, cores retired (00 R6, R7, R10; 12 R235, R236).
-/
namespace Sys2Proof.Machine

/-! ## What a stream's stores leave of the cores -/

theorem l1Update_active (s : State) (c pa : Nat) (bs : List Byte) (k : Nat) :
    (coreOf (l1Update s c pa bs) k).active = (coreOf s k).active := by
  unfold l1Update
  dsimp only
  split
  · rfl
  · by_cases hk : k = c
    · subst hk
      by_cases hl : k < s.cores.length
      · rw [coreOf_setCore _ _ _ hl]
      · rw [setCore, List.set_eq_of_length_le (Nat.le_of_not_lt hl)]
    · rw [coreOf_setCore_other _ _ hk]

theorem report_cores {s : State} {r : DriverRec} (h : r.link = .log) : (report s r).cores = s.cores := by
  obtain ⟨_, _, _, _, _, he⟩ := report_log (s := s) h
  rw [he]

theorem storeElem_active (s : State) (o : Op) {e : Elem} (he : e.space = .global) (k : Nat) :
    (coreOf (storeElem s o e).1 k).active = (coreOf s k).active := by
  have hof : ∀ t : State, t.cores = s.cores → (coreOf t k).active = (coreOf s k).active := fun t ht => by rw [coreOf, ht]; rfl
  unfold storeElem
  rw [he]
  dsimp only
  split
  · refine hof _ ?_
    unfold streamElem streamPut
    dsimp only
    split <;> (unfold updTeam; split <;> rfl)
  · split
    · exact hof _ (report_cores rfl)
    · split
      · exact hof _ rfl
      · exact (l1Update_active ..)

theorem performItem_active {s : State} {t : Team} {x : StreamItem} (items : List StreamItem) (id : Nat) (hx : x.rmw = none) (k : Nat) :
    (coreOf (performItem t items s id x) k).active = (coreOf s k).active := by
  unfold performItem
  rw [hx]
  exact storeElem_active _ _ rfl k

theorem performItems_active {t : Team} (items : List StreamItem) (k : Nat) : ∀ {s : State}, (∀ i ∈ items, i.rmw = none) →
    (coreOf (performItems t items s).2.2 k).active = (coreOf s k).active := by
  induction items with
  | nil => exact fun _ => rfl
  | cons x items ih =>
    intro s h
    have h1 := performItem_active (s := { s with nextId := s.nextId + 1 }) (t := t) (x :: items) s.nextId (h x (List.mem_cons_self ..)) k
    rw [performItems]
    dsimp only [fresh]
    split
    · exact h1
    · exact (ih fun i hi => h i (List.mem_cons_of_mem _ hi)).trans h1

/-! ## Streams performed -/

theorem performRun_stores {s : State} {k : CheckRun} {r : CopyRun} {g : Grid} (hg : gridOf s k.grid = some g)
    (hall : ∀ x ∈ r.stream, x.rmw = none) (hb : s.badGranules = []) (hops : ∀ o ∈ s.ops, o.id < s.nextId) (h0 : teamOf s 0 = none) :
    let t := performRun s k r
    t.mem = streamMem s.mem r.stream ∧ gridOf t k.grid = some { g with retired := g.retired + 1 } ∧
      t.checks = s.checks.filter (fun x => !(x.grid == k.grid && x.teamid == k.teamid)) ∧
      ∀ c, (coreOf t c).active = (coreOf s c).active := by
  intro t
  obtain ⟨z, hz⟩ : ∃ z, z = startTeam g 0 k.teamid r.core 0 4 false 0 := ⟨_, rfl⟩
  have hzg : z.grid = k.grid := by rw [hz]; exact gridOf_uid hg
  have hzs : z.spawned = false := by rw [hz]; rfl
  obtain ⟨s2, hper, hmem, hrest⟩ := performItems_stores (t := z) (by rw [hz]; rfl) r.stream hall h0 hb hops
  have hact := fun c => performItems_active (t := z) r.stream c hall (s := s)
  rw [hper] at hact
  have ht : t = countRetired (dropCheck s2 k) z := by
    show performRun s k r = _
    unfold performRun
    rw [hg]
    dsimp only
    rw [← hz, hper]
  have hcr := updGrid_rest (dropCheck s2 k) z.grid fun g => { g with retired := if z.spawned then g.retired else g.retired + 1 }
  rw [← countRetired, ← ht] at hcr
  refine ⟨(congrArg State.mem hcr :).trans hmem, ?_, (congrArg State.checks hcr :).trans ?_, fun c => ?_⟩
  · have hg2 : gridOf (dropCheck s2 k) z.grid = some g := by
      rw [hzg, gridOf, show (dropCheck s2 k).grids = s.grids from (congrArg State.grids hrest :)]
      exact hg
    have := gridOf_updGrid hg2 (fun g => { g with retired := if z.spawned then g.retired else g.retired + 1 }) rfl
    rw [hzg, hzs] at this
    rw [ht, countRetired, hzg, hzs]
    exact this
  · have hch : s2.checks = s.checks := (congrArg State.checks hrest :)
    rw [dropCheck, hch]
  · rw [coreOf, (congrArg State.cores hcr :)]
    exact hact c

/-! ## Copies discarded -/

theorem mem_checkTids {s : State} {k : CheckRun} {n : Nat} : ((checkTeams s k).map Team.tid).contains n = true ↔
    ∃ tm ∈ s.teams, (tm.grid = k.grid ∧ tm.teamid = k.teamid ∧ tm.copyNo ≠ 0) ∧ tm.tid = n := by
  rw [List.contains_iff_mem, List.mem_map]
  simp only [checkTeams, List.mem_filter, CheckRun.isOf, Bool.and_eq_true, beq_iff_eq, bne_iff_ne, ne_eq]
  constructor
  · rintro ⟨tm, ⟨hm, ⟨h1, h2⟩, h3⟩, rfl⟩
    exact ⟨tm, hm, ⟨h1.symm, h2.symm, h3⟩, rfl⟩
  · rintro ⟨tm, hm, ⟨h1, h2, h3⟩, rfl⟩
    exact ⟨tm, ⟨hm, ⟨h1.symm, h2.symm⟩, h3⟩, rfl⟩

theorem mem_kept {α : Type} {s : State} {k : CheckRun} {l : List α} {f : α → Nat} {x : α} :
    x ∈ l.filter (fun x => !((checkTeams s k).map Team.tid).contains (f x)) ↔
      x ∈ l ∧ ∀ tm ∈ s.teams, (tm.grid = k.grid ∧ tm.teamid = k.teamid ∧ tm.copyNo ≠ 0) → f x ≠ tm.tid := by
  rw [List.mem_filter, Bool.not_eq_true', ← Bool.not_eq_true, mem_checkTids]
  refine and_congr_right fun _ => ?_
  constructor
  · exact fun h tm hm hc he => h ⟨tm, hm, hc, he.symm⟩
  · rintro h ⟨tm, hm, hc, he⟩
    exact h tm hm hc he.symm

theorem discardCopies_spec (s : State) (k : CheckRun) : Discarded s k (discardCopies s k) ∧
    { discardCopies s k with cores := s.cores, groups := s.groups, ops := s.ops, copies := s.copies, teams := s.teams, grids := s.grids
                             fences := s.fences } = s ∧ (discardCopies s k).grids = (offerAgain s).grids := by
  refine ⟨⟨fun x => mem_kept (f := Team.tid), fun x => mem_kept (f := Group.team), fun x => mem_kept (f := Copy.team), rfl, ?_, rfl⟩, rfl, rfl⟩
  show ((s.cores.map fun c => _).map fun c => _) = s.cores.map fun c => _
  rw [List.map_map]
  rfl

/-- Discarding leaves what is discarded alike in a state that differs in grids, checks and driver's records alone. -/
theorem Discarded.same {s t t' : State} {k : CheckRun} (h : Discarded s k t) (h1 : t'.teams = t.teams) (h2 : t'.groups = t.groups)
    (h3 : t'.copies = t.copies) (h4 : t'.mem = t.mem) (h5 : t'.cores = t.cores) (h6 : t'.dies = t.dies) : Discarded s k t' := by
  obtain ⟨k1, k2, k3, k4, k5, k6⟩ := h
  exact ⟨by rw [h1]; exact k1, by rw [h2]; exact k2, by rw [h3]; exact k3, h4.trans k4, by rw [bareCores, h5]; exact k5, h6.trans k6⟩

theorem gridOf_discardCopies {s : State} {k : CheckRun} {n : Nat} {g : Grid} (h : gridOf s n = some g) :
    gridOf (discardCopies s k) n = some { g with refused := false } := by
  have := gridOf_offerAgain s n
  rw [h] at this
  exact this

/-- The copies discarded and the team to run again, behind some change of the checks. -/
theorem runAgain_spec (s : State) (k : CheckRun) (checked : Bool) (f : List CheckRun → List CheckRun) :
    let t := runAgain { discardCopies s k with checks := f s.checks } k checked
    Discarded s k t ∧ Reruns s k checked t ∧ t.checks = f s.checks := by
  intro t
  obtain ⟨hd, -, -⟩ := discardCopies_spec s k
  have hrest := updGrid_rest { discardCopies s k with checks := f s.checks } k.grid
    fun g => { g with rerun := g.rerun ++ [(k.teamid, checked)] }
  refine ⟨hd.same (congrArg State.teams hrest :) (congrArg State.groups hrest :) (congrArg State.copies hrest :) (congrArg State.mem hrest :)
    (congrArg State.cores hrest :) (congrArg State.dies hrest :), fun g hg => ?_, (congrArg State.checks hrest :)⟩
  exact gridOf_updGrid (s := { discardCopies s k with checks := f s.checks }) (gridOf_discardCopies (k := k) hg) _ rfl

/-! ## A core retired -/

theorem retireCore_spec (s : State) {c : Nat} (hc : c < s.cores.length) :
    Retired s c (retireCore s c) ∧ { retireCore s c with cores := s.cores, dies := s.dies } = s := by
  have hcores : (retireCore s c).cores = (setCore s c { coreOf s c with active := false }).cores := by
    unfold retireCore
    dsimp only
    split <;> rfl
  have hof : ∀ i, coreOf (retireCore s c) i = coreOf (setCore s c { coreOf s c with active := false }) i := fun i => by
    rw [coreOf, hcores]
    rfl
  have hdies : (retireCore s c).dies = match s.dies[c / 40]? with
      | none => s.dies
      | some x => s.dies.set (c / 40) { x with phys := x.phys.map fun m => if m = .logical (c % 40) then .retired else m } := by
    unfold retireCore
    dsimp only [setCore]
    rw [show dieOf c = c / 40 from rfl]
    cases s.dies[c / 40]? with
    | none => rfl
    | some x => rfl
  refine ⟨⟨?_, fun i hi => ?_, fun d hd => ?_, fun i hi => ?_⟩, ?_⟩
  · rw [hof, coreOf_setCore _ _ _ hc]
  · rw [hof, coreOf_setCore_other _ _ hi]
  · rw [hdies, hd]
    exact List.getElem?_set_self (List.getElem?_eq_some_iff.mp hd).1
  · rw [hdies]
    split
    · rfl
    · exact List.getElem?_set_ne (Ne.symm hi)
  · unfold retireCore
    dsimp only
    split <;> rfl

theorem checkLog_eq {s : State} {k : CheckRun} {g : Grid} (h : gridOf s k.grid = some g) (cause : Cause) (a b : Nat) :
    checkLog s k cause a b = report s
      { ctx := g.ctx, link := .log,
        body := { blankRec s g.gridid cause 4 (BitVec.ofNat 64 a) (BitVec.ofNat 64 b) with teamid := k.teamid } } := by
  rw [checkLog, h]

/-! ## The comparator -/

section
variable {s : State} {n : Nat} {k : CheckRun} (h : s.checks[n]? = some k)
include h

theorem exec_check_accepted {r : CopyRun} (hr : k.accepted = some r) :
    exec (.checkCompare n) s = .next (if (k.item.bind (opOf s)).isNone then performRun s k r else s) := by
  have hexec : exec (.checkCompare n) s = execCheckCompare n s := rfl
  rw [hexec, execCheckCompare, h]
  dsimp only
  rw [hr]

theorem exec_check_overflow (hr : k.accepted = none) {b : Nat} (hb : (checkTeams s k).findSome? Team.overflow = some b) :
    exec (.checkCompare n) s = .next (checkOverflow s k b) := by
  have hexec : exec (.checkCompare n) s = execCheckCompare n s := rfl
  rw [hexec, execCheckCompare, h]
  dsimp only
  rw [hr, hb]

theorem exec_check_two (hr : k.accepted = none) (hb : (checkTeams s k).findSome? Team.overflow = none) {x y : CopyRun}
    (hx : endedRun s k 1 = some x) (hy : endedRun s k 2 = some y) (ht : k.third = false) :
    exec (.checkCompare n) s = .next (if runsMatch x y then checkMatch s k x else checkMismatch s k x y) := by
  have hexec : exec (.checkCompare n) s = execCheckCompare n s := rfl
  rw [hexec, execCheckCompare, h]
  dsimp only
  rw [hr, hb]
  dsimp only
  rw [hx, hy]
  dsimp only
  rw [ht]
  rfl

theorem exec_check_three (hr : k.accepted = none) (hb : (checkTeams s k).findSome? Team.overflow = none) {x y z : CopyRun}
    (hx : endedRun s k 1 = some x) (hy : endedRun s k 2 = some y) (hz : endedRun s k 3 = some z) (ht : k.third = true) :
    exec (.checkCompare n) s = .next (checkThird s k x y z) := by
  have hexec : exec (.checkCompare n) s = execCheckCompare n s := rfl
  rw [hexec, execCheckCompare, h]
  dsimp only
  rw [hr, hb]
  dsimp only
  rw [hx, hy]
  dsimp only
  rw [ht, hz]
  rfl

end

theorem runsMatch_iff (a b : CopyRun) : runsMatch a b = true ↔ bareTraps a = bareTraps b ∧ ∀ i < 16, groupItems a i = groupItems b i := by
  rw [runsMatch, Bool.and_eq_true, List.all_eq_true, beq_iff_eq, and_comm]
  simp only [List.mem_range, beq_iff_eq]

theorem checkThird_winner {s : State} {k : CheckRun} {a b c : CopyRun} {loser : Nat}
    (h : (runsMatch c a = true ∧ loser = b.core) ∨ (runsMatch c a = false ∧ runsMatch c b = true ∧ loser = a.core)) :
    checkThird s k a b c = outvote s k c loser := by
  rw [checkThird]
  rcases h with ⟨h1, rfl⟩ | ⟨h1, h2, rfl⟩
  · rw [h1]; rfl
  · rw [h1, h2]; rfl

/-- The third copy accepted: the outvoted core retired and logged, the stream performed. -/
theorem outvote_spec {s : State} {k : CheckRun} {c : CopyRun} {loser : Nat} (hc : c.traps = []) {g : Grid} (hg : gridOf s k.grid = some g)
    (hl : loser < s.cores.length) :
    ∃ s1 s2 r, Retired s loser s1 ∧ { s1 with cores := s.cores, dies := s.dies } = s ∧ s2 = report s1 r ∧
      r.ctx = g.ctx ∧ r.link = .log ∧ r.body.cause = Cause.compareMismatch.code ∧ r.body.source = 4 ∧
      r.body.aux0 = BitVec.ofNat 64 loser ∧ r.body.aux1 = BitVec.ofNat 64 c.core ∧
      (s2.badGranules = [] → (∀ x ∈ c.stream, x.rmw = none) → (∀ o ∈ s.ops, o.id < s.nextId) → teamOf s 0 = none →
        ∃ t, outvote s k c loser = t ∧
        t.mem = streamMem s2.mem c.stream ∧ (coreOf t loser).active = false ∧
        gridOf t k.grid = some { g with retired := g.retired + 1 } ∧
        t.checks = s.checks.filter fun x => !(x.grid == k.grid && x.teamid == k.teamid)) := by
  obtain ⟨hret, hrest⟩ := retireCore_spec s hl
  obtain ⟨s1, hs1⟩ : ∃ s1, s1 = retireCore s loser := ⟨_, rfl⟩
  rw [← hs1] at hret hrest
  have hg1 : gridOf s1 k.grid = some g := by rw [gridOf, (congrArg State.grids hrest :)]; exact hg
  have hlog := checkLog_eq hg1 .compareMismatch loser c.core
  obtain ⟨r, hr⟩ : ∃ r : DriverRec, r = { ctx := g.ctx, link := .log, body := { blankRec s1 g.gridid .compareMismatch 4 (BitVec.ofNat 64 loser) (BitVec.ofNat 64 c.core) with teamid := k.teamid } } := ⟨_, rfl⟩
  rw [← hr] at hlog
  refine ⟨s1, report s1 r, r, hret, hrest, rfl, by rw [hr], by rw [hr], by rw [hr]; rfl, by rw [hr]; rfl, by rw [hr]; rfl, by rw [hr]; rfl,
    fun hb hall hops h0 => ?_⟩
  have hout : outvote s k c loser = performRun (report s1 r) k c := by
    rw [outvote, ← hs1, hlog, hc]
    rfl
  obtain ⟨m, b, cs, rs, is, hrep⟩ := report_log (s := s1) (r := r) (by rw [hr])
  obtain ⟨h1, h2, h3, h4⟩ := performRun_stores (s := report s1 r) (k := k) (r := c) (g := g) (by rw [hrep]; exact hg1) hall hb
    (by
      rw [hrep]
      show ∀ o ∈ s1.ops, o.id < s1.nextId
      rw [(congrArg State.ops hrest :), (congrArg State.nextId hrest :)]
      exact hops)
    (by
      rw [hrep]
      show teamOf s1 0 = none
      have hteams : s1.teams = s.teams := (congrArg State.teams hrest :)
      rw [teamOf_teams hteams]
      exact h0)
  refine ⟨_, hout, h1, (h4 loser).trans ?_, h2, h3.trans ?_⟩
  · rw [hrep]
    exact hret.1
  · rw [hrep]
    show s1.checks.filter _ = _
    rw [(congrArg State.checks hrest :)]

/-- The comparator's effect when a copy would overflow the check area. -/
theorem checkOverflow_spec (s : State) (k : CheckRun) (b : Nat) : ∃ r, Discarded s k (discardCopies s k) ∧
    (discardCopies s k).checks = s.checks ∧ ∀ g, gridOf s k.grid = some g →
      checkOverflow s k b = report { updGrid (discardCopies s k) k.grid (fun g => { g with rerun := g.rerun ++ [(k.teamid, false)] }) with
        checks := s.checks.filter fun x => !(x.grid == k.grid && x.teamid == k.teamid) } r ∧
      r.link = .log ∧ r.ctx = g.ctx ∧ r.body.cause = Cause.checkOverflow.code ∧ r.body.source = 4 ∧
      r.body.aux0 = BitVec.ofNat 64 b ∧ r.body.aux1 = BitVec.ofNat 64 k.teamid := by
  obtain ⟨hd, hrest, -⟩ := discardCopies_spec s k
  obtain ⟨s1, hs1⟩ : ∃ s1, s1 = discardCopies s k := ⟨_, rfl⟩
  have hof := fun g (hg : gridOf s k.grid = some g) => gridOf_discardCopies (k := k) hg
  rw [checkOverflow]
  rw [← hs1] at hd hrest hof ⊢
  have hch : s1.checks = s.checks := (congrArg State.checks hrest :)
  obtain ⟨u, hu⟩ : ∃ u : State, u = { updGrid s1 k.grid (fun g => { g with rerun := g.rerun ++ [(k.teamid, false)] }) with
    checks := s.checks.filter fun x => !(x.grid == k.grid && x.teamid == k.teamid) } := ⟨_, rfl⟩
  have hrun : runAgain (dropCheck s1 k) k false = u := by
    rw [hu, runAgain, dropCheck, hch]
    unfold updGrid
    rw [show gridOf { s1 with checks := s.checks.filter fun x => !(x.grid == k.grid && x.teamid == k.teamid) } k.grid = gridOf s1 k.grid from rfl]
    cases gridOf s1 k.grid <;> rfl
  rw [hrun, ← hu]
  cases hg : gridOf s k.grid with
  | none => exact ⟨{ ctx := 0, link := .log, body := blankRec s 0 .checkOverflow 4 0#64 0#64 }, hd, hch, fun g hg' => nomatch hg'⟩
  | some g =>
    have hgu : gridOf u k.grid = some { g with refused := false, rerun := g.rerun ++ [(k.teamid, false)] } := by
      rw [hu]
      exact gridOf_updGrid (s := s1) (hof g hg) (fun g => { g with rerun := g.rerun ++ [(k.teamid, false)] }) rfl
    refine ⟨_, hd, hch, fun g' hg' => ⟨checkLog_eq hgu .checkOverflow b k.teamid, rfl, ?_, rfl, rfl, rfl, rfl⟩⟩
    cases hg'
    rfl

/-- Settles O52: the comparator of checked teams, the streams it performs, and the cores a third copy keeps off. -/
theorem checkedTeams : Obligations.CheckedTeams := by
  unfold Obligations.CheckedTeams
  refine ⟨fun s n k h ha => ⟨fun b hb => ?_, fun hno => ⟨fun a b hx hy ht => ⟨fun hm htr g hg hok hbad hall hops h0 => ?_, fun hm => ?_⟩,
    fun a b c hx hy hz ht => ⟨fun h1 h2 => ?_, fun loser hl htr g hg hok hlt => ?_⟩⟩⟩, fun s n k r h ha => ⟨fun i hi hop => ?_, fun hi g hg hok hbad hall hops h0 => ?_⟩,
    runsMatch_iff, fun s gr i k hk => ?_⟩
  · obtain ⟨r, hd, hch, hg⟩ := checkOverflow_spec s k b
    exact ⟨discardCopies s k, _, r, exec_check_overflow h ha hb, hd, hch, hg⟩
  · have hexec := exec_check_two h ha hno hx hy ht
    rw [hm, if_pos rfl, checkMatch, htr] at hexec
    obtain ⟨h1, h2, h3, -⟩ := performRun_stores hg hall hbad hops h0
    exact ⟨_, hexec, h1, h2, h3⟩
  · have hexec := exec_check_two h ha hno hx hy ht
    rw [hm, if_neg Bool.false_ne_true] at hexec
    obtain ⟨h1, h2, h3⟩ := runAgain_spec s k true fun l => l.map fun x => if x.grid = k.grid ∧ x.teamid = k.teamid
      then { k with runs := [a, b], third := true } else x
    exact ⟨_, hexec, h1, h2, h3⟩
  · have hexec := exec_check_three h ha hno hx hy hz ht
    rw [checkThird, h1, h2, if_neg Bool.false_ne_true, if_neg Bool.false_ne_true] at hexec
    obtain ⟨k1, k2, k3⟩ := runAgain_spec s k true fun l => l.filter fun x => !(x.grid == k.grid && x.teamid == k.teamid)
    exact ⟨_, hexec, k1, k2, k3⟩
  · have hexec := exec_check_three h ha hno hx hy hz ht
    rw [checkThird_winner hl] at hexec
    rw [hexec]
    obtain ⟨s1, s2, r, k1, k2, k3, k4, k5, k6, k7, k8, k9, k10⟩ := outvote_spec htr hg hlt
    refine ⟨s1, s2, r, k1, k2, k3, k4, k5, k6, k7, k8, k9, fun hb hall hops h0 => ?_⟩
    obtain ⟨t, ht', m⟩ := k10 hb hall hops h0
    exact ⟨t, by rw [ht'], m⟩
  · rw [exec_check_accepted h ha, hi, if_neg]
    intro e
    exact hop (Option.isNone_iff_eq_none.mp e)
  · have hnone : (k.item.bind (opOf s)).isNone = true := by
      cases hit : k.item with
      | none => rfl
      | some i => exact Option.isNone_iff_eq_none.mpr (hi i hit)
    have hexec := exec_check_accepted h ha
    rw [hnone, if_pos rfl] at hexec
    obtain ⟨h1, h2, h3, -⟩ := performRun_stores hg hall hbad hops h0
    exact ⟨_, hexec, h1, h2, h3⟩
  · refine ⟨k.runs.flatMap fun r => r.core :: r.ranOn, ?_, fun c => ?_⟩
    · rw [rerunKind, if_neg (by simp)]
      dsimp only
      rw [hk]
    · simp only [List.mem_flatMap, List.mem_cons]

end Sys2Proof.Machine
end

section
/-!
SUPPORT. The package: reset, self-checks, power, temperature, the host die and captures (00 R5 to R9; 13 R237, R246 to R250).
-/
namespace Sys2Proof.Machine

/-! ## Management commands that end (13 R238) -/

theorem ended_finish {s : State} {base : Nat} (hb : s.mgmtBase = some base) (hok : MemOk s) (status : Nat) :
    Ended s status (mgmtFinish s status) := by
  obtain ⟨a, ha⟩ : ∃ a, a = base + 64 + 64 * (s.mgmtHead % 256) + 2 := ⟨_, rfl⟩
  have hok1 := memOk_physWrite a 1 status hok
  have h1 := fun x => memRead_physWrite a 1 status x hok
  have h2 := fun x => memRead_physWrite (base + 8) 8 ((s.mgmtHead + 1) % 2 ^ 64) x hok1
  have h3 := physRead_physWrite (base + 8) 8 ((s.mgmtHead + 1) % 2 ^ 64) hok1
  have ht : mgmtFinish s status = signal { physWrite (physWrite s a 1 status) (base + 8) 8 ((s.mgmtHead + 1) % 2 ^ 64) with
      mgmtHead := (s.mgmtHead + 1) % 2 ^ 64 } s.mgmtVec := by
    rw [mgmtFinish, hb, ha]
    rfl
  have hbyte : (natToBytes 1 status).getD 0 memDefault = BitVec.ofNat 8 status := by
    rw [natToBytes]
    rfl
  obtain ⟨u, hu⟩ : ∃ u, u = physWrite (physWrite s a 1 status) (base + 8) 8 ((s.mgmtHead + 1) % 2 ^ 64) := ⟨_, rfl⟩
  have hrest : { u with mem := s.mem, badGranules := s.badGranules } = s := by rw [hu]; rfl
  rw [← hu] at h2 h3 ht
  have htm : (mgmtFinish s status).mem = u.mem := by rw [ht]; rfl
  refine ⟨base, hb, ?_, ?_, ?_, ?_, fun x hx hout => ?_, ?_⟩
  · rw [ht]; rfl
  · rw [ht]
    exact congrArg (fun l : List Nat => l ++ [s.mgmtVec]) (congrArg State.irqs hrest :)
  · rw [htm, ← ha, h2, if_neg (by omega), h1, if_pos (by omega), Nat.sub_self, hbyte]
  · rw [physRead, htm]
    exact h3.trans (by omega)
  · rw [htm, h2, if_neg (by omega), h1, if_neg (by omega)]
  · rw [ht]
    exact (congrArg (fun r : State => { r with mgmtHead := s.mgmtHead, irqs := s.irqs }) hrest :)

theorem closed_memOk : Closed MemOk False 0 :=
  ⟨fun _ _ => Nat.zero_le _, fun _ hc => hc.elim, fun _ pa bs h => memOk_physWriteBytes pa bs h,
    fun _ _ hm _ _ _ _ _ _ _ _ h => by rw [MemOk, hm]; exact h, fun _ _ _ _ h => h, fun _ _ _ _ h => h⟩

/-! ## Rows spared (10 R205) -/

theorem writeGranules_spec (f : Nat → List Byte) (hf : ∀ j, (f j).length = 32) (l : List (Nat × Nat)) {s : State} (hok : MemOk s) :
    let t := l.foldl (fun t x => physWriteBytes t (32 * x.1) (f x.2)) s
    MemOk t ∧ { t with mem := s.mem, badGranules := s.badGranules } = s ∧
      ∀ a, (∀ x ∈ l, x.1 ≠ a / 32) → memRead t.mem a = memRead s.mem a := by
  induction l generalizing s with
  | nil => exact ⟨hok, rfl, fun _ _ => rfl⟩
  | cons x l ih =>
    obtain ⟨h1, h2, h3⟩ := ih (s := physWriteBytes s (32 * x.1) (f x.2)) (memOk_physWriteBytes _ _ hok)
    refine ⟨h1, (congrArg (fun r : State => { r with mem := s.mem, badGranules := s.badGranules }) h2 :), fun a ha => ?_⟩
    rw [List.foldl_cons, h3 a fun y hy => ha y (List.mem_cons_of_mem _ hy), memRead_physWriteBytes _ _ _ hok, hf, if_neg]
    have := ha x (List.mem_cons_self ..)
    omega

theorem spareRows_spec (s : State) (sel : Nat → Bool) (hok : MemOk s) :
    let t := spareRows s sel
    MemOk t ∧ (∀ a, ¬ (s.badGranules.contains (a / 32) = true ∧ sel (a / 32) = true) → memRead t.mem a = memRead s.mem a) ∧
      t.badGranules = s.badGranules.filter (fun g => !sel g) ∧
      { t with mem := s.mem, badGranules := s.badGranules, freeCtr := s.freeCtr } = s := by
  intro t
  cases he : (s.badGranules.filter sel).isEmpty with
  | true =>
    have ht : t = s := by
      show spareRows s sel = s
      unfold spareRows
      dsimp only
      rw [he, if_pos rfl]
    rw [List.isEmpty_iff, List.filter_eq_nil_iff] at he
    refine ⟨by rw [ht]; exact hok, fun a _ => by rw [ht], ?_, by rw [ht]⟩
    rw [ht, List.filter_eq_self.mpr]
    intro g hg
    rw [Bool.eq_false_iff.mpr (he g hg)]
    rfl
  | false =>
    obtain ⟨h1, h2, h3⟩ := writeGranules_spec (fun j => (List.range 32).map fun k => Config.openByte s.freeCtr (32 * j + k))
      (fun j => by rw [List.length_map, List.length_range]) (s.badGranules.filter sel).zipIdx hok
    obtain ⟨u, hu⟩ : ∃ u, u = (s.badGranules.filter sel).zipIdx.foldl (fun t x =>
      physWriteBytes t (32 * x.1) ((List.range 32).map fun k => Config.openByte s.freeCtr (32 * x.2 + k))) s := ⟨_, rfl⟩
    rw [← hu] at h1 h2 h3
    have ht : t = { u with badGranules := s.badGranules.filter fun g => !sel g, freeCtr := s.freeCtr + 1 } := by
      show spareRows s sel = _
      unfold spareRows
      dsimp only
      rw [he, if_neg Bool.false_ne_true, hu]
    refine ⟨by rw [ht]; exact h1, fun a ha => ?_, by rw [ht], ?_⟩
    · rw [ht]
      refine h3 a fun x hx hxa => ha ?_
      have := (List.mem_filter.mp (List.fst_mem_of_mem_zipIdx hx))
      rw [hxa] at this
      exact ⟨List.contains_iff_mem.mpr this.1, this.2⟩
    · rw [ht]
      exact (congrArg (fun r : State => { r with freeCtr := s.freeCtr }) h2 :)

/-! ## Reset (R5, R246) -/

theorem numberCores_length (l : List Bool) : ∀ next, (numberCores next l).length = l.length := by
  induction l with
  | nil => exact fun _ => rfl
  | cons b l ih =>
    intro next
    cases b with
    | false => rw [numberCores, List.length_cons, List.length_cons, ih]
    | true => rw [numberCores]; split <;> rw [List.length_cons, List.length_cons, ih]

/-- The mark of physical core `i`: passing cores take numbers in order. -/
theorem numberCores_get (l : List Bool) : ∀ (next i : Nat), i < l.length → (numberCores next l)[i]? = some (
    if l.getD i false = true then
      (if next + ((l.take i).filter id).length < 40 then .logical (next + ((l.take i).filter id).length) else .spare)
    else .retired) := by
  induction l with
  | nil => exact fun _ i h => absurd h (Nat.not_lt_zero i)
  | cons b l ih =>
    intro next i hi
    cases i with
    | zero =>
      cases b with
      | false => rfl
      | true =>
        rw [numberCores, show Config.coresPerDie = 40 from rfl]
        simp only [List.take_zero, List.filter_nil, List.length_nil, Nat.add_zero, List.getD_cons_zero, if_true]
        by_cases hn : next < 40
        · simp [hn]
        · simp [hn]
    | succ i =>
      have hi' : i < l.length := by simpa using hi
      rw [List.getD_cons_succ, List.take_succ_cons]
      cases b with
      | false =>
        rw [numberCores, List.getElem?_cons_succ, ih next i hi', List.filter_cons_of_neg (by simp)]
      | true =>
        rw [numberCores, show Config.coresPerDie = 40 from rfl, List.filter_cons_of_pos rfl, List.length_cons]
        split
        · rw [List.getElem?_cons_succ, ih (next + 1) i hi',
            show next + 1 + ((l.take i).filter id).length = next + (((l.take i).filter id).length + 1) by omega]
        · rw [List.getElem?_cons_succ, ih next i hi', if_neg (by omega : ¬ next + ((l.take i).filter id).length < 40),
            if_neg (by omega : ¬ next + (((l.take i).filter id).length + 1) < 40)]

/-- A die after reset: its image, and its cores numbered. -/
theorem bootDie_spec (x : DieBoot) :
    ((bootDie x).booted = true ↔ x.ed25519 = true ∧ x.mlDsa65 = true ∧ x.versionOk = true) ∧ ((bootDie x).rejected = !(bootDie x).booted) ∧
      ((bootDie x).booted = true → (bootDie x).phys.length = 44 ∧ ∀ i < 44,
        let k := ((x.pass.take i).filter id).length
        (bootDie x).phys[i]? = some (if x.pass.getD i false = true then (if k < 40 then .logical k else .spare) else .retired)) := by
  have hacc : imageAccepted x = true ↔ x.ed25519 = true ∧ x.mlDsa65 = true ∧ x.versionOk = true := by
    rw [imageAccepted, Bool.and_eq_true, Bool.and_eq_true, and_assoc]
  rw [← hacc]
  cases ha : imageAccepted x with
  | false =>
    have hd : bootDie x = { Die.dark with rejected := true } := by
      unfold bootDie
      rw [ha, if_neg Bool.false_ne_true]
    rw [hd]
    exact ⟨⟨fun h => h, fun h => h⟩, rfl, fun h => absurd h Bool.false_ne_true⟩
  | true =>
    obtain ⟨l, hl⟩ : ∃ l, l = (x.pass ++ List.replicate 44 false).take 44 := ⟨_, rfl⟩
    have hd : bootDie x = { booted := true, rejected := false, quiesce := none, phys := numberCores 0 l } := by
      unfold bootDie
      rw [ha, if_pos rfl, hl]
      rfl
    have hlen : l.length = 44 := by
      rw [hl, List.length_take, List.length_append, List.length_replicate]
      omega
    rw [hd]
    refine ⟨⟨fun _ => rfl, fun _ => rfl⟩, rfl, fun _ => ⟨(numberCores_length l 0).trans hlen, fun i hi => ?_⟩⟩
    have hget : l.getD i false = x.pass.getD i false := by
      rw [hl, List.getD_eq_getElem?_getD, List.getElem?_take, if_pos hi, List.getD_eq_getElem?_getD, List.getElem?_append]
      split
      · rfl
      · rename_i hge
        rw [List.getElem?_eq_none (Nat.le_of_not_lt hge), List.getElem?_replicate]
        split <;> rfl
    have htake : (l.take i).filter id = (x.pass.take i).filter id := by
      rw [hl, List.take_take, Nat.min_eq_left (Nat.le_of_lt hi), List.take_append, List.filter_append, List.take_replicate]
      have : (List.replicate (min (i - x.pass.length) 44) false).filter id = [] := by
        rw [List.filter_eq_nil_iff]
        intro b hb
        rw [List.eq_of_mem_replicate hb]
        exact Bool.false_ne_true
      rw [this, List.append_nil]
    rw [numberCores_get l 0 i (by omega), hget, htake, Nat.zero_add]

theorem indexActive_iff (dies : List Die) (c : Nat) :
    indexActive dies c = true ↔ ∃ y, dies[c / 40]? = some y ∧ .logical (c % 40) ∈ y.phys := by
  rw [indexActive, show dieOf c = c / 40 from rfl, show logicalOf c = c % 40 from rfl]
  cases dies[c / 40]? with
  | none => simp
  | some d => simp [Die.holds]

/-- The machine after a reset. -/
theorem booted_spec {s : State} (b : BootReport) (hok : MemOk s) :
    let t := booted s b
    (∀ d < 4, ∀ x, b.dies[d]? = some x → ∃ y, t.dies[d]? = some y ∧
      (y.booted = true ↔ x.ed25519 = true ∧ x.mlDsa65 = true ∧ x.versionOk = true) ∧ (y.rejected = !y.booted) ∧
      (y.booted = true → y.phys.length = 44 ∧ ∀ i < 44,
        let k := ((x.pass.take i).filter id).length
        y.phys[i]? = some (if x.pass.getD i false = true then (if k < 40 then .logical k else .spare) else .retired))) ∧
    (∀ c < 160, (coreOf t c).active = true ↔ ∃ y, t.dies[c / 40]? = some y ∧ .logical (c % 40) ∈ y.phys) ∧
    (∀ a, (a < b.mgmtBase + 8 ∨ b.mgmtBase + 16 ≤ a) → s.badGranules.contains (a / 32) = false →
      memRead t.mem a = memRead s.mem a) ∧
    t.badGranules = [] ∧ physRead t (b.mgmtBase + 8) 8 = 0 ∧ t.mgmtBase = some b.mgmtBase ∧ t.mgmtHead = 0 ∧ t.mgmtVec = b.mgmtVec ∧
    t.clock = 0#64 ∧ t.contexts = [] ∧ t.queues = [] ∧ t.grids = [] ∧ t.teams = [] ∧ t.groups = [] ∧ t.ops = [] ∧
    t.copies = [] ∧ t.lastCore = 159 ∧ t.lastQueue = none ∧ t.powered = true := by
  intro t
  obtain ⟨h1, h2, h3, -⟩ := spareRows_spec s (fun _ => true) hok
  obtain ⟨dies, hdies⟩ : ∃ dies, dies = (List.range 4).map fun d =>
    bootDie (b.dies.getD d { ed25519 := false, mlDsa65 := false, versionOk := false, pass := [] }) := ⟨_, rfl⟩
  obtain ⟨a, ha⟩ : ∃ a, a = spareRows s fun _ => true := ⟨_, rfl⟩
  rw [← ha] at h1 h2 h3
  obtain ⟨u, hu⟩ : ∃ u : State, u = { State.reset with
      mem := a.mem, badGranules := a.badGranules, remote := a.remote, hostReads := a.hostReads, dies,
      cores := (List.range 160).map fun c => { Core.idle with active := indexActive dies c }
      mgmtBase := some b.mgmtBase, mgmtVec := b.mgmtVec, irqs := a.irqs, turns := a.turns, freeCtr := a.freeCtr,
      nextId := a.nextId, boots := a.boots + 1 } := ⟨_, rfl⟩
  have ht : t = physWrite u (b.mgmtBase + 8) 8 0 := by
    rw [hu, hdies, ha]
    rfl
  have hum : u.mem = a.mem := by rw [hu]
  have huok : MemOk u := by rw [MemOk, hum]; exact h1
  have hub : u.badGranules = [] := by
    have hnone : a.badGranules = [] := h3.trans (List.filter_eq_nil_iff.mpr fun _ _ => Bool.false_ne_true)
    rw [hu]
    exact hnone
  have htd : t.dies = dies := by rw [ht, hu]; rfl
  have htc : t.cores = (List.range 160).map fun c => { Core.idle with active := indexActive dies c } := by rw [ht, hu]; rfl
  refine ⟨fun d hd x hx => ⟨bootDie x, ?_, bootDie_spec x⟩, fun c hc => ?_, fun x hx hg => ?_, ?_, ?_, ?_, ?_, ?_, ?_, ?_, ?_, ?_, ?_, ?_, ?_, ?_, ?_, ?_, ?_⟩
  · rw [htd, hdies, List.getElem?_map, List.getElem?_range hd, Option.map_some, List.getD_eq_getElem?_getD, hx]
    rfl
  · rw [htd, ← indexActive_iff, coreOf, htc, List.getD_eq_getElem?_getD, List.getElem?_map, List.getElem?_range hc]
    rfl
  · rw [ht, memRead_physWrite _ _ _ _ huok, if_neg (by omega), hum]
    exact h2 x fun e => by rw [hg] at e; exact Bool.false_ne_true e.1
  · rw [ht, physWrite, physWriteBytes, hub]
    rfl
  · rw [ht]
    exact physRead_physWrite _ _ _ huok
  all_goals rw [ht, hu]; rfl

/-! ## Self-checks (R8, R9) -/

/-- The fields that records leave. -/
def SameLogged (s t : State) : Prop :=
  { t with mem := s.mem, badGranules := s.badGranules, contexts := s.contexts, records := s.records, irqs := s.irqs } = s

theorem SameLogged.trans {a b c : State} (h : SameLogged a b) (k : SameLogged b c) : SameLogged a c :=
  (congrArg (fun r : State => { r with mem := a.mem, badGranules := a.badGranules, contexts := a.contexts, records := a.records, irqs := a.irqs }) k :).trans h

theorem selfCheckLog_same (s : State) (c : Nat) : SameLogged s (selfCheckLog s c) := by
  unfold selfCheckLog
  split
  · rfl
  · obtain ⟨_, _, _, _, _, he⟩ := report_log (s := s)
      (r := { ctx := (‹Context›).num, link := .log, body := blankRec s 0 .compareMismatch 4 (BitVec.ofNat 64 c) 0xFFFF_FFFF_FFFF_FFFF#64 }) rfl
    dsimp only
    rw [he]
    rfl

theorem selfCheckLog_memOk {s : State} (c : Nat) (h : MemOk s) : MemOk (selfCheckLog s c) := by
  unfold selfCheckLog
  split
  · exact h
  · exact kept_report closed_memOk _ h

theorem selfCheckLogs_same (f : Nat → Nat) (l : List Nat) {s : State} (hok : MemOk s) :
    let t := l.foldl (fun s k => selfCheckLog s (f k)) s
    SameLogged s t ∧ MemOk t := by
  induction l generalizing s with
  | nil => exact ⟨rfl, hok⟩
  | cons k l ih =>
    obtain ⟨h1, h2⟩ := ih (selfCheckLog_memOk (f k) hok)
    exact ⟨(selfCheckLog_same s (f k)).trans h1, h2⟩

theorem giveSpare_cases (phys : List CoreMark) (k : Nat) :
    (.logical k ∈ phys ∧ giveSpare phys k = phys) ∨ (.logical k ∉ phys ∧ .spare ∉ phys ∧ giveSpare phys k = phys) ∨
    ∃ i, ∃ _ : i < phys.length, phys[i] = .spare ∧ (∀ j (_ : j < phys.length), j < i → phys[j] ≠ .spare) ∧ .logical k ∉ phys ∧
      giveSpare phys k = phys.set i (.logical k) := by
  unfold giveSpare
  by_cases hk : .logical k ∈ phys
  · exact .inl ⟨hk, if_pos (List.contains_iff_mem.mpr hk)⟩
  · rw [if_neg (fun e => hk (List.contains_iff_mem.mp e))]
    cases hf : phys.findIdx? (· == CoreMark.spare) with
    | none =>
      refine .inr (.inl ⟨hk, fun hs => ?_, rfl⟩)
      have := List.findIdx?_eq_none_iff.mp hf _ hs
      simp at this
    | some i =>
      obtain ⟨hi, hp, hno⟩ := List.findIdx?_eq_some_iff_getElem.mp hf
      exact .inr (.inr ⟨i, hi, by simpa using hp, fun j _ hj => by simpa using hno j hj, hk, rfl⟩)

theorem giveSpare_length (phys : List CoreMark) (k : Nat) : (giveSpare phys k).length = phys.length := by
  rcases giveSpare_cases phys k with ⟨-, h⟩ | ⟨-, -, h⟩ | ⟨i, -, -, -, -, h⟩ <;> rw [h]
  exact List.length_set ..

/-- What is no spare stays as it is. -/
theorem giveSpare_keeps {phys : List CoreMark} {i : Nat} {m : CoreMark} (h : phys[i]? = some m) (hm : m ≠ .spare) (k : Nat) :
    (giveSpare phys k)[i]? = some m := by
  rcases giveSpare_cases phys k with ⟨-, he⟩ | ⟨-, -, he⟩ | ⟨j, hj, hsp, -, -, he⟩ <;> rw [he]
  · exact h
  · exact h
  · rw [List.getElem?_set_ne]
    · exact h
    · rintro rfl
      rw [List.getElem?_eq_getElem hj, hsp] at h
      exact hm (Option.some.inj h).symm

/-- A number is held once its turn has been, or no spare is left. -/
theorem giveSpare_serves (phys : List CoreMark) (k : Nat) : .logical k ∈ giveSpare phys k ∨ .spare ∉ giveSpare phys k := by
  rcases giveSpare_cases phys k with ⟨hk, he⟩ | ⟨-, hs, he⟩ | ⟨i, hi, -, -, -, he⟩ <;> rw [he]
  · exact .inl hk
  · exact .inr hs
  · exact .inl (List.mem_set hi _)

theorem giveSpares_spec (phys : List CoreMark) (m : Nat) :
    let q := (List.range m).foldl giveSpare phys
    (∀ (i : Nat) (x : CoreMark), phys[i]? = some x → x ≠ .spare → q[i]? = some x) ∧ (∀ k < m, .logical k ∉ q → .spare ∉ q) := by
  induction m with
  | zero => exact ⟨fun _ _ h _ => h, fun k hk => absurd hk (Nat.not_lt_zero k)⟩
  | succ m ih =>
    obtain ⟨h1, h2⟩ := ih
    rw [List.range_succ, List.foldl_append, List.foldl_cons, List.foldl_nil]
    generalize (List.range m).foldl giveSpare phys = q at h1 h2
    refine ⟨fun i x hx hs => giveSpare_keeps (h1 i x hx hs) hs m, fun k hk hno => ?_⟩
    by_cases hkm : k = m
    · subst hkm
      exact (giveSpare_serves q k).resolve_left hno
    · have hq : CoreMark.logical k ∉ q := fun hin => hno (by
        obtain ⟨i, hi, he⟩ := List.mem_iff_getElem.mp hin
        exact List.mem_of_getElem? (giveSpare_keeps (by rw [List.getElem?_eq_getElem hi, he]) (by simp) m))
      have hsp := h2 k (by omega) hq
      rcases giveSpare_cases q m with ⟨-, he⟩ | ⟨-, -, he⟩ | ⟨j, hj, hs, -⟩
      · rw [he]; exact hsp
      · rw [he]; exact hsp
      · exact absurd (hs ▸ List.getElem_mem hj) hsp

theorem checkPhys_get {phys : List CoreMark} (pass : List Bool) {i : Nat} (h : i < phys.length) :
    (checkPhys phys pass)[i]? = some (if pass.getD i false then phys[i] else .retired) := by
  rw [checkPhys, List.getElem?_map, List.getElem?_zipIdx, List.getElem?_eq_getElem h]
  simp only [Option.map_some, Nat.zero_add]

theorem quiesced_iff (s : State) : quiesced s = true ↔
    (∀ g ∈ s.groups, ∀ c, ctxOf s g.ctx = some c → c.quiesced = true → g.place = .saved) ∧
    (∀ t ∈ s.teams, ∀ c, ctxOf s t.ctx = some c → c.quiesced = true → t.place = .saved) := by
  have hheld : ∀ (n : Nat) (p : Place), (p == .saved || !((ctxOf s n).map Context.quiesced).getD false) = true ↔
      ∀ c, ctxOf s n = some c → c.quiesced = true → p = .saved := fun n p => by
    cases ctxOf s n with
    | none => simp
    | some c => cases hq : c.quiesced <;> simp [hq]
  rw [quiesced, Bool.and_eq_true, List.all_eq_true, List.all_eq_true]
  simp only [hheld]

theorem exec_selfCheckDone {s : State} {n : Nat} {d : Die} (h : s.dies[n]? = some d) (pass : List Bool) :
    exec (.selfCheckDone n pass) s = .next (if d.quiesce.isSome && quiesced s then mgmtFinish (endQuiesce s n d pass) 0 else s) := by
  have hexec : exec (.selfCheckDone n pass) s = execSelfCheckDone n pass s := rfl
  rw [hexec, execSelfCheckDone, h]

/-- A die whose quiesce ends. -/
theorem endQuiesce_spec {s : State} {n : Nat} {d : Die} (h : s.dies[n]? = some d) (pass : List Bool) (hok : MemOk s) :
    let s0 := (failed d pass).foldl (fun s k => selfCheckLog s (40 * n + k)) s
    let s1 := endQuiesce s n d pass
    ∃ d', MemOk s1 ∧ s1.mgmtBase = s.mgmtBase ∧ s1.dies[n]? = some d' ∧
      (∀ a, ¬ (s0.badGranules.contains (a / 32) = true ∧ granuleOn n (a / 32) = true) → memRead s1.mem a = memRead s0.mem a) ∧
      s1.badGranules = s0.badGranules.filter (fun g => !granuleOn n g) ∧
      d'.quiesce = none ∧ (∀ i, i ≠ n → s1.dies[i]? = s.dies[i]?) ∧ (∀ c ∈ s1.contexts, c.quiesced = false) ∧
      (∀ i < d.phys.length, pass.getD i false = false → d'.phys[i]? = some .retired) ∧
      (∀ i < d.phys.length, ∀ k, pass.getD i false = true → d.phys[i]? = some (.logical k) →
        d'.phys[i]? = some (.logical k)) ∧
      (∀ k < 40, .logical k ∉ d'.phys → .spare ∉ d'.phys) ∧
      (∀ c, c < s.cores.length → c / 40 = n → ((coreOf s1 c).active = true ↔ .logical (c % 40) ∈ d'.phys)) ∧
      ∀ c, c / 40 ≠ n → coreOf s1 c = coreOf s c := by
  intro s0 s1
  obtain ⟨hlog, hok0⟩ := selfCheckLogs_same (fun k => 40 * n + k) (failed d pass) hok
  obtain ⟨hokr, hmem, hbad, hrest⟩ := spareRows_spec s0 (granuleOn n) hok0
  obtain ⟨a, ha⟩ : ∃ a, a = spareRows s0 (granuleOn n) := ⟨_, rfl⟩
  rw [← ha] at hokr hmem hbad hrest
  obtain ⟨d', hd'⟩ : ∃ d' : Die, d' = { d with phys := (List.range 40).foldl giveSpare (checkPhys d.phys pass), quiesce := none } := ⟨_, rfl⟩
  obtain ⟨dies, hdies⟩ : ∃ dies, dies = a.dies.set n d' := ⟨_, rfl⟩
  have hs1 : s1 = { a with
      dies := dies
      cores := a.cores.zipIdx.map fun x => if dieOf x.2 = n then { x.1 with active := indexActive dies x.2 } else x.1
      contexts := a.contexts.map fun c => { c with quiesced := false } } := by
    rw [hdies, hd', ha]
    rfl
  have had : a.dies = s.dies := (congrArg State.dies hrest :).trans (congrArg State.dies hlog :)
  have hac : a.cores = s.cores := (congrArg State.cores hrest :).trans (congrArg State.cores hlog :)
  have hamb : a.mgmtBase = s.mgmtBase := (congrArg State.mgmtBase hrest :).trans (congrArg State.mgmtBase hlog :)
  have hdn : dies[n]? = some d' := by
    rw [hdies, had, List.getElem?_set_self (List.getElem?_eq_some_iff.mp h).1]
  obtain ⟨k1, k2⟩ := giveSpares_spec (checkPhys d.phys pass) 40
  have hphys : d'.phys = (List.range 40).foldl giveSpare (checkPhys d.phys pass) := by rw [hd']
  rw [← hphys] at k1 k2
  have hcore : ∀ c, c < s.cores.length → coreOf s1 c = if dieOf c = n then { coreOf s c with active := indexActive dies c } else coreOf s c := fun c hc => by
    rw [coreOf, hs1, List.getD_eq_getElem?_getD, List.getElem?_map, List.getElem?_zipIdx, hac, List.getElem?_eq_getElem hc, coreOf,
      List.getD_eq_getElem?_getD, List.getElem?_eq_getElem hc, Nat.zero_add]
    rfl
  refine ⟨d', by rw [hs1]; exact hokr, by rw [hs1]; exact hamb, by rw [hs1]; exact hdn, fun x hx => by rw [hs1]; exact hmem x hx,
    by rw [hs1]; exact hbad, by rw [hd'], fun i hi => ?_, fun c hc => ?_, fun i hi hp => ?_, fun i hi k hp hk => ?_, k2, fun c hc hcn => ?_,
    fun c hcn => ?_⟩
  · rw [hs1]
    show dies[i]? = _
    rw [hdies, had, List.getElem?_set_ne (Ne.symm hi)]
  · rw [hs1] at hc
    obtain ⟨y, -, rfl⟩ := List.mem_map.mp hc
    rfl
  · refine k1 i .retired ?_ (by simp)
    rw [checkPhys_get pass hi, hp]
    rfl
  · refine k1 i (.logical k) ?_ (by simp)
    rw [checkPhys_get pass hi, hp, if_pos rfl, ← List.getElem?_eq_getElem hi]
    exact hk
  · rw [hcore c hc, if_pos (show dieOf c = n from hcn)]
    show indexActive dies c = true ↔ _
    rw [indexActive_iff, hcn, hdn]
    simp
  · by_cases hc : c < s.cores.length
    · rw [hcore c hc, if_neg (show ¬ dieOf c = n from hcn)]
    · have hlen : s1.cores.length = s.cores.length := by
        rw [hs1]
        show (a.cores.zipIdx.map _).length = _
        rw [List.length_map, List.length_zipIdx, hac]
      rw [coreOf, coreOf, List.getD_eq_getElem?_getD, List.getD_eq_getElem?_getD, List.getElem?_eq_none (by omega), List.getElem?_eq_none (by omega)]

theorem giveSpare_first {phys : List CoreMark} {k i : Nat} (hk : .logical k ∉ phys) (hi : phys[i]? = some .spare)
    (hno : ∀ j < i, phys[j]? ≠ some .spare) : giveSpare phys k = phys.set i (.logical k) := by
  obtain ⟨hlt, hsp⟩ := List.getElem?_eq_some_iff.mp hi
  rcases giveSpare_cases phys k with ⟨hin, -⟩ | ⟨-, hs, -⟩ | ⟨j, hj, hjs, hjno, -, he⟩
  · exact absurd hin hk
  · exact absurd (hsp ▸ List.getElem_mem hlt) hs
  · have hij : j = i := by
      rcases Nat.lt_trichotomy j i with h | h | h
      · exact absurd (by rw [List.getElem?_eq_getElem hj, hjs]) (hno j h)
      · exact h
      · exact absurd hsp (hjno i hlt h)
    rw [he, hij]

/-- The record of a core that fails goes to the context of lowest number. -/
theorem selfCheckLog_lowest {s : State} {c : Context} (core : Nat) (hc : c ∈ s.contexts) (hleast : ∀ x ∈ s.contexts, x ≠ c → c.num < x.num) :
    selfCheckLog s core = report s
      { ctx := c.num, link := .log
        body := blankRec s 0 .compareMismatch 4 (BitVec.ofNat 64 core) 0xFFFF_FFFF_FFFF_FFFF#64 } := by
  rw [selfCheckLog]
  cases hl : sortLe (fun a b : Context => decide (a.num ≤ b.num)) s.contexts with
  | nil =>
    have := (mem_sortLe (le := fun a b : Context => decide (a.num ≤ b.num))).mpr hc
    rw [hl] at this
    exact absurd this List.not_mem_nil
  | cons x rest =>
    have hx : x ∈ s.contexts := (mem_sortLe (le := fun a b : Context => decide (a.num ≤ b.num))).mp (hl ▸ List.mem_cons_self ..)
    have hfirst := sortLe_first (fun a b c h1 h2 => decide_eq_true ((of_decide_eq_true h1).trans (of_decide_eq_true h2)))
      (fun a _ b _ => (Nat.le_total a.num b.num).imp decide_eq_true decide_eq_true) hl hc
    have hxc : x = c := by
      by_contra hne
      rcases hfirst with h | h
      · exact hne h
      · exact Nat.not_lt.mpr (of_decide_eq_true h) (hleast x hx hne)
    rw [hxc]
    rfl

/-! ## Temperature and power (R249, R250) -/

theorem exec_thermal {s : State} {c : Nat} {e : Thermal} (hc : c < s.cores.length) (he : ∀ f, e ≠ .recovered f) :
    ∃ t m, exec (.thermalEvent c e) s = .next t ∧ m < 2250 ∧ coreOf t c = { coreOf s c with mhz := m } ∧
      (∀ i, i ≠ c → coreOf t i = coreOf s i) ∧ t.irqs = s.irqs ++ [s.mgmtVec] ∧ t.thermal = s.thermal ++ [(c, e)] ∧
      { t with cores := s.cores, irqs := s.irqs, thermal := s.thermal, freeCtr := s.freeCtr } = s := by
  obtain ⟨m, hm⟩ : ∃ m, m = min (Config.throttledMhz s.freeCtr) 2249 := ⟨_, rfl⟩
  obtain ⟨a, ha⟩ : ∃ a, a = setCore s c { coreOf s c with mhz := m } := ⟨_, rfl⟩
  have hexec : exec (.thermalEvent c e) s = .next (signal { a with freeCtr := s.freeCtr + 1, thermal := s.thermal ++ [(c, e)] } s.mgmtVec) := by
    have hexec : exec (.thermalEvent c e) s = execThermalEvent c e s := rfl
    rw [hexec, execThermalEvent, if_neg (Nat.not_le.mpr hc), ha, hm]
    cases e with
    | recovered f => exact absurd rfl (he f)
    | _ => rfl
  refine ⟨_, m, hexec, by omega, ?_, fun i hi => ?_, by rw [ha]; rfl, rfl, by rw [ha]; rfl⟩
  · rw [ha]
    exact coreOf_setCore s c _ hc
  · rw [ha]
    exact coreOf_setCore_other s _ hi

theorem exec_recovered {s : State} {c f : Nat} (hc : c < s.cores.length) : exec (.thermalEvent c (.recovered f)) s =
    .next (if 2250 ≤ f ∧ f ≤ 2600 ∧ f % 25 = 0 then setCore s c { coreOf s c with mhz := f } else s) := by
  have hexec : exec (.thermalEvent c (.recovered f)) s = execThermalEvent c (.recovered f) s := rfl
  rw [hexec, execThermalEvent, if_neg (Nat.not_le.mpr hc)]
  refine congrArg Host.Outcome.next (if_congr ?_ rfl rfl)
  rw [governed]
  simp only [Bool.and_eq_true, decide_eq_true_eq, beq_iff_eq, and_assoc]

theorem coreOf_reset (c : Nat) : (coreOf State.reset c).active = false := by
  rw [coreOf, List.getD_eq_getElem?_getD]
  show ((List.replicate Config.cores Core.idle)[c]?.getD Core.idle).active = false
  rw [List.getElem?_replicate]
  split <;> rfl

theorem exec_powerOff (s : State) : ((∃ t ∈ s.teams, t.place ≠ .saved) → exec .computeDiePowerOff s = .next s) ∧
    ((∀ t ∈ s.teams, t.place = .saved) → ∃ t, exec .computeDiePowerOff s = .next t ∧ t.powered = false ∧ t.contexts = [] ∧
      t.groups = [] ∧ (∀ c, (coreOf t c).active = false) ∧ ∀ d ∈ t.dies, d.booted = false) := by
  have hexec : exec .computeDiePowerOff s = execComputeDiePowerOff s := rfl
  have hall : (s.teams.all fun t => t.place == .saved) = true ↔ ∀ t ∈ s.teams, t.place = .saved := by
    simp only [List.all_eq_true, beq_iff_eq]
  rw [hexec, execComputeDiePowerOff]
  refine ⟨fun ⟨t, ht, hp⟩ => if_neg fun e => hp (hall.mp e t ht), fun h => ⟨_, if_pos (hall.mpr h), rfl, rfl, rfl, coreOf_reset, fun d hd => ?_⟩⟩
  rw [List.eq_of_mem_replicate (hd : d ∈ List.replicate Config.dies Die.dark)]
  rfl

/-! ## The host die (R237) -/

theorem hostRead_spec (s : State) (pa n : Nat) : ∃ t bs, exec (.hostDieAccess (.read pa n)) s = .next t ∧
    t.hostReads = (pa, bs) :: s.hostReads ∧ { t with hostReads := s.hostReads, freeCtr := s.freeCtr } = s ∧ bs.length = n ∧
    ∀ i < n, s.badGranules.contains ((pa + i) / 32) = false → bs.getD i 0#8 = memRead s.mem (pa + i) :=
  ⟨_, outsideBytes s 0 pa n, rfl, rfl, rfl, by rw [outsideBytes, List.length_map, List.length_range], fun _ hi hb => outsideBytes_getD hi hb⟩

theorem hostWrite_spec {s : State} {pa : Nat} {bs : List Byte} (rel : Bool) (hok : MemOk s) (hne : bs ≠ []) (hp : partlyBad s pa bs.length = none) :
    ∃ t, exec (.hostDieAccess (.write pa bs rel)) s = .next t ∧
      (∀ i < bs.length, memRead t.mem (pa + i) = bs.getD i 0#8) ∧
      (∀ a, (a < pa ∨ pa + bs.length ≤ a) → memRead t.mem a = memRead s.mem a) ∧
      (∀ g ∈ t.badGranules, g * 32 < pa ∨ pa + bs.length < g * 32 + 32) := by
  have hmem := hostWrite_whole hp hne
  refine ⟨hostWrite s pa bs, rfl, fun i hi => ?_, fun a ha => ?_, fun g hg => ?_⟩
  · rw [hmem, memRead_writeBytes _ _ _ hok, if_pos (by omega), Nat.add_sub_cancel_left]
    rfl
  · rw [hmem, memRead_writeBytes _ _ _ hok, if_neg (by omega)]
  · rw [hostWrite, if_neg (by simpa using hne), if_pos (by rw [hp]; rfl)] at hg
    have hg : g ∈ (physWriteBytes s pa bs).badGranules := hg
    have := (List.mem_filter.mp hg).2
    simp only [Bool.not_eq_true', Bool.and_eq_false_iff, decide_eq_false_iff_not] at this
    omega

theorem hostGranule_spec {s : State} {pa g : Nat} {bs : List Byte} (hok : MemOk s) (h1 : pa < 32 * g + 32) (h2 : 32 * g < pa + bs.length) :
    let covered := pa ≤ 32 * g ∧ 32 * g + 32 ≤ pa + bs.length
    (s.badGranules.contains g = true → ¬ covered → hostGranule pa bs s g = eccLog s (32 * g)) ∧
    (s.badGranules.contains g = false ∨ covered → ∀ a, memRead (hostGranule pa bs s g).mem a =
      if a / 32 = g ∧ pa ≤ a ∧ a < pa + bs.length then bs.getD (a - pa) 0#8 else memRead s.mem a) := by
  intro covered
  obtain ⟨part, hpart⟩ : ∃ part, part = (bs.drop (max pa (32 * g) - pa)).take (min (pa + bs.length) (32 * g + 32) - max pa (32 * g)) := ⟨_, rfl⟩
  have hlen : part.length = min (pa + bs.length) (32 * g + 32) - max pa (32 * g) := by
    rw [hpart, List.length_take, List.length_drop]
    omega
  have hcov : covered ↔ part.length = 32 := by
    rw [hlen]
    constructor
    · rintro ⟨k1, k2⟩
      omega
    · intro k
      exact ⟨by omega, by omega⟩
  have hg : hostGranule pa bs s g = if s.badGranules.contains g && part.length != 32 then eccLog s (32 * g)
      else physWriteBytes s (max pa (32 * g)) part := by
    rw [hpart]
    rfl
  refine ⟨fun hb hc => ?_, fun hor a => ?_⟩
  · rw [hg, hb, Bool.true_and, if_pos (bne_iff_ne.mpr fun e => hc (hcov.mpr e))]
  · have hno : (s.badGranules.contains g && part.length != 32) = false := by
      rcases hor with hb | hc
      · rw [hb, Bool.false_and]
      · rw [hcov.mp hc, Bool.and_eq_false_iff]
        exact .inr rfl
    rw [hg, hno, if_neg Bool.false_ne_true, memRead_physWriteBytes _ _ _ hok]
    by_cases ha : a / 32 = g ∧ pa ≤ a ∧ a < pa + bs.length
    · rw [if_pos ha, if_pos (by omega), hpart, List.getD_eq_getElem?_getD, List.getElem?_take, if_pos (by omega), List.getElem?_drop,
        show max pa (32 * g) - pa + (a - max pa (32 * g)) = a - pa by omega, ← List.getD_eq_getElem?_getD]
      rfl
    · rw [if_neg ha, if_neg (by omega)]

/-! ## Captures and leases -/

theorem takeSample_spec {s : State} {core unit v src : Nat} {c : Capture} (hl : core < s.cores.length)
    (hc : (coreOf s core).captures[unit]? = some c) (hs : c.source = some src) (hv : v < 2 ^ 32) :
    let k := coreOf s core
    let w := if src = 3 then (k.pans.map fun p => (p.map fun x => x.recs.length).getD 0).sum
      else if src = 4 then (if k.boosts = [] then k.mhz else max k.mhz 2250) else v
    let first := ∀ n ∈ c.buckets, n = 0
    (coreOf (takeSample s core unit v) core).captures[unit]? = some
      { c with min := if first then w else min c.min w, max := if first then w else max c.max w,
               buckets := c.buckets.modify (if w = 0 then 0 else Nat.log2 w) fun n => min (n + 1) (2 ^ 32 - 1) } := by
  intro k w first
  have hw : sampleValue k src v = w := by
    show (if src = 3 then rakeCount k else if src = 4 then Core.clockMhz k else v) = _
    refine if_congr Iff.rfl rfl (if_congr Iff.rfl ?_ rfl)
    exact if_congr List.isEmpty_iff rfl rfl
  have ht : takeSample s core unit v = setCore s core { k with captures := k.captures.set unit (captureSample c w) } := by
    unfold takeSample
    dsimp only
    rw [hc]
    dsimp only
    rw [hs]
    dsimp only
    rw [if_pos hv, hw]
  have hfirst : c.buckets.all (· == 0) = true ↔ first := by
    simp only [List.all_eq_true, beq_iff_eq]
    rfl
  rw [ht, coreOf_setCore _ _ _ hl]
  show (k.captures.set unit (captureSample c w))[unit]? = _
  rw [List.getElem?_set_self (List.getElem?_eq_some_iff.mp hc).1]
  unfold captureSample sampleBucket
  dsimp only
  rw [if_congr hfirst rfl rfl, if_congr hfirst rfl rfl]

/-- Settles O53: reset, self-checks, temperature, power, the host die, captures and leases. -/
theorem package : Obligations.Package := by
  unfold Obligations.Package
  refine ⟨fun s b hok => ⟨booted s b, rfl, booted_spec b hok⟩, fun s n pass d h => ⟨fun hor => ?_, fun hq hqs hok hb => ?_⟩, quiesced_iff,
    fun phys k i hk hi hno => giveSpare_first hk hi hno, fun s core c hc hleast => ⟨_, selfCheckLog_lowest core hc hleast, rfl, rfl, rfl, rfl, rfl, rfl⟩,
    fun s c e hc he => exec_thermal hc he, fun s c f hc => exec_recovered hc, exec_powerOff, hostRead_spec,
    fun s pa bs rel hok hne hp => hostWrite_spec rel hok hne hp, fun s pa g bs hok h1 h2 => hostGranule_spec hok h1 h2,
    fun s core unit v src c hl hc hs hv => takeSample_spec hl hc hs hv, fun s c k e he => ?_⟩
  · rw [exec_selfCheckDone h, if_neg]
    rcases hor with hn | hn
    · rw [hn]
      simp
    · rw [hn, Bool.and_false]
      exact Bool.false_ne_true
  · obtain ⟨d', hok1, hmb, hrest⟩ := endQuiesce_spec h pass hok
    obtain ⟨base, hbase⟩ := Option.isSome_iff_exists.mp hb
    refine ⟨endQuiesce s n d pass, _, d', ?_, ended_finish (hmb.trans hbase) hok1 0, hrest⟩
    rw [exec_selfCheckDone h, hq, hqs]
    rfl
  · have hexec : exec (.tlbLeaseExpiry c k) s = execTlbLeaseExpiry c k s := rfl
    rw [hexec, execTlbLeaseExpiry, he]

end Sys2Proof.Machine
end

section
/-!
SUPPORT. The commands of the management ring (13 R238 to R240, R244, R247 to R249; 00 R8; 01 R32; 11 R218).
-/
namespace Sys2Proof.Machine

/-! ## How a command ends (R238) -/

theorem mgmtNext_record {s : State} {i : Instr} (h : mgmtNext s = some i) : s.mgmtBase.isSome = true ∧ ∃ base, s.mgmtBase = some base ∧
    i = mgmtInstr (physRead s (base + 64 + 64 * (s.mgmtHead % 256)) 64) := by
  obtain ⟨base, hb, hi⟩ := Option.bind_eq_some_iff.mp h
  split at hi
  · exact absurd hi (by simp)
  · exact ⟨by rw [hb]; rfl, base, hb, (Option.some.inj hi).symm⟩

/-- A command that is not the next record of the ring changes nothing. -/
theorem exec_mgmt_other {s : State} {x : Nat} (h : mgmtNext s ≠ some (mgmtInstr x)) : exec (mgmtInstr x) s = .next s := by
  generalize hi : mgmtInstr x = i at h
  unfold mgmtInstr at hi
  dsimp only at hi
  split at hi
  · subst hi
    exact if_neg h
  · split at hi <;> subst hi <;> exact if_neg h

section
variable {i : Instr} {s s1 : State} (hm : mgmtNext s = some i)
include hm

theorem commanded_of {status : Nat} (hexec : exec i s = .next (mgmtFinish s1 status)) (hb : s1.mgmtBase = s.mgmtBase) (hok : MemOk s1) :
    Commanded i s s1 status := by
  obtain ⟨-, base, hbase, -⟩ := mgmtNext_record hm
  exact ⟨_, hexec, ended_finish (hb.trans hbase) hok status⟩

theorem commanded_ok {d : Done} (hexec : exec i s = runMgmt i s d) (hd : d = .ok s1) (hb : s1.mgmtBase = s.mgmtBase) (hok : MemOk s1) :
    Commanded i s s1 0 :=
  commanded_of hm (by subst hd; exact hexec.trans (if_pos hm)) hb hok

theorem commanded_rejected (hok : MemOk s) {d : Done} (hexec : exec i s = runMgmt i s d) (hd : d = .rejected) : Commanded i s s 1 :=
  commanded_of hm (by subst hd; exact hexec.trans (if_pos hm)) rfl hok

theorem commanded_busy (hok : MemOk s) {d : Done} (hexec : exec i s = runMgmt i s d) (hd : d = .busy) : Commanded i s s 2 :=
  commanded_of hm (by subst hd; exact hexec.trans (if_pos hm)) rfl hok

theorem does_of (hok : MemOk s) {d : Done} {ok : Prop} (hexec : exec i s = runMgmt i s d) (hb : s1.mgmtBase = s.mgmtBase)
    (hyes : ok → d = .ok s1) (hno : ¬ ok → d = .rejected) : Does i s ok s1 :=
  ⟨fun h h1 => commanded_ok hm hexec (hyes h) hb h1, fun h => commanded_rejected hm hok hexec (hno h)⟩

end

theorem onCtx_held {s : State} {n : DWord} {c : Context} (h : Holds s n c) (f : Context → Done) : onCtx s n f = f c := by
  obtain ⟨hc, ht⟩ := h
  rw [onCtx, hc]
  dsimp only
  rw [ht, if_neg Bool.false_ne_true]

theorem onCtx_none {s : State} {n : DWord} (h : ∀ c, ¬ Holds s n c) (f : Context → Done) : onCtx s n f = .rejected := by
  unfold onCtx
  split
  next c hc =>
    cases ht : c.terminating with
    | true => rfl
    | false => exact absurd ⟨hc, ht⟩ (h c)
  next => rfl

/-- A command that names no context is rejected. -/
theorem commanded_noContext {s : State} {i : Instr} {n : DWord} (hok : MemOk s) (h : ∀ c, ¬ Holds s n c) (hm : mgmtNext s = some i)
    (hi : (∃ a b, i = .contextSettings n a b) ∨ i = .terminateContext n ∨ (∃ a, i = .setBreakpoints n a) ∨
      (∃ a b, i = .contextRead n a b) ∨ ∃ a b, i = .poolAdd n a b) : Commanded i s s 1 := by
  rcases hi with ⟨a, b, rfl⟩ | rfl | ⟨a, rfl⟩ | ⟨a, b, rfl⟩ | ⟨a, b, rfl⟩ <;>
    exact commanded_rejected hm hok (show exec _ s = runMgmt _ s (onCtx s n _) from rfl) (onCtx_none h _)

/-! ## Contexts (R239) -/

theorem createContext_spec (s : State) (num x : Nat) : ∃ c, (createContext s num x).contexts = s.contexts ++ [c] ∧ c.num = num ∧
    c.ptroot = x % 2 ^ 64 ∧ c.lease = (if x / 2 ^ 64 % 2 ^ 16 = 0 then 64 else x / 2 ^ 64 % 2 ^ 16) ∧ c.splitArea = 4096 * (x / 2 ^ 80 % 8) ∧
    c.fabric = x.testBit 83 ∧ c.highWater = x / 2 ^ 96 % 2 ^ 32 ∧ c.brineCap = x / 2 ^ 192 % 2 ^ 32 ∧ c.brine = [] ∧
    c.handler = BitVec.ofNat 64 (x / 2 ^ 256) ∧ c.fring = x / 2 ^ 320 % 2 ^ 64 ∧ c.fringK = x / 2 ^ 384 % 256 ∧
    c.poolK = x / 2 ^ 392 % 256 ∧ c.fvec = x / 2 ^ 400 % 2 ^ 16 ∧ c.pool = x / 2 ^ 448 % 2 ^ 64 ∧
    c.checkSz = x / 2 ^ 576 % 2 ^ 64 ∧ c.saveSz = x / 2 ^ 704 % 2 ^ 64 ∧ c.nextGrid = 1 ∧ c.terminating = false := by
  refine ⟨blockContext num x, rfl, rfl, ?_, rfl, rfl, rfl, rfl, rfl, rfl, ?_, rfl, rfl, rfl, rfl, rfl, rfl, rfl, rfl, rfl⟩
  · show fld x 0 64 = _
    rw [fld, Nat.pow_zero, Nat.div_one]
  · show BitVec.ofNat 64 (x / 2 ^ 256 % 2 ^ 64) = _
    exact BitVec.eq_of_toNat_eq (by simp)

theorem does_createContext {s : State} {num block : DWord} (hok : MemOk s) (hm : mgmtNext s = some (.createContext num block)) :
    let x := physRead s block.toNat 256
    Does (.createContext num block) s (num.toNat < 65536 ∧ ctxOf s num.toNat = none ∧ block.toNat % 64 = 0 ∧ blockOk x = true)
      (createContext s num.toNat x) := by
  intro x
  refine does_of hm hok (show exec _ s = runMgmt _ s (if num.toNat < 0x1_0000 ∧ (ctxOf s num.toNat).isNone ∧ block.toNat % 64 = 0 ∧
    blockOk x = true then .ok (createContext s num.toNat x) else .rejected) from rfl) rfl (fun ⟨h1, h2, h3, h4⟩ => ?_) fun h => ?_
  · exact if_pos ⟨h1, by rw [h2]; rfl, h3, h4⟩
  · exact if_neg fun ⟨h1, h2, h3, h4⟩ => h ⟨h1, Option.isNone_iff_eq_none.mp h2, h3, h4⟩

theorem does_contextSettings {s : State} {ctx hw lease : DWord} {c : Context} (hok : MemOk s)
    (hm : mgmtNext s = some (.contextSettings ctx hw lease)) (hh : Holds s ctx c) :
    Does (.contextSettings ctx hw lease) s (hw.toNat < 2 ^ 32 ∧ lease.toNat ≤ 1024)
      (setCtx s { c with
        highWater := if hw = 0#64 then c.highWater else hw.toNat
        lease := if lease = 0#64 then c.lease else lease.toNat
        leaseMax := if lease = 0#64 then c.leaseMax else max c.leaseMax lease.toNat }) := by
  refine does_of hm hok (show exec _ s = runMgmt _ s (onCtx s ctx _) from rfl) rfl (fun ⟨h1, h2⟩ => ?_) fun h => ?_
  · rw [onCtx_held hh, if_neg (by omega)]
    dsimp only
    split <;> split <;> rfl
  · rw [onCtx_held hh, if_pos (by omega)]

theorem does_setBreakpoints {s : State} {ctx list : DWord} {c : Context} (hok : MemOk s)
    (hm : mgmtNext s = some (.setBreakpoints ctx list)) (hh : Holds s ctx c) :
    let l := (List.range 8).map fun k => BitVec.ofNat 64 (physRead s (list.toNat + 8 * k) 8)
    Does (.setBreakpoints ctx list) s (∀ a ∈ l, a = 0xFFFF_FFFF_FFFF_FFFF#64 ∨ a.toNat % 16 = 0) (setCtx s { c with bps := l }) := by
  intro l
  have hl : (memWords s list.toNat 8 8).map (BitVec.ofNat 64) = l := by rw [memWords, List.map_map]; rfl
  have hall : (l.all fun x => x == 0xFFFF_FFFF_FFFF_FFFF#64 || bits x 0 4 == 0) = true ↔
      ∀ a ∈ l, a = 0xFFFF_FFFF_FFFF_FFFF#64 ∨ a.toNat % 16 = 0 := by
    rw [List.all_eq_true]
    refine forall₂_congr fun a _ => ?_
    rw [Bool.or_eq_true, beq_iff_eq, beq_iff_eq, bits]
    simp
  refine does_of hm hok (show exec _ s = runMgmt _ s (onCtx s ctx _) from rfl) rfl (fun h => ?_) fun h => ?_
  · rw [onCtx_held hh]
    dsimp only
    rw [hl, if_pos (hall.mpr h)]
  · rw [onCtx_held hh]
    dsimp only
    rw [hl, if_neg (mt hall.mp h)]

/-- The image of a group is written, and nothing else. -/
theorem commanded_contextRead {s : State} {ctx g buf : DWord} {c : Context} (hok : MemOk s)
    (hm : mgmtNext s = some (.contextRead ctx g buf)) (hh : Holds s ctx c) :
    ((∀ x, groupOf s g.toNat = some x → x.ctx ≠ c.num) → Commanded (.contextRead ctx g buf) s s 1) ∧
    ∀ x, groupOf s g.toNat = some x → x.ctx = c.num → ∃ s1 n, Commanded (.contextRead ctx g buf) s s1 0 ∧
      n = groupArea x.vregs.length x.phys.length ∧
      (∀ a, (a < buf.toNat ∨ buf.toNat + n ≤ a) → memRead s1.mem a = memRead s.mem a) ∧
      { s1 with mem := s.mem, badGranules := s.badGranules, freeCtr := s.freeCtr } = s := by
  have hexec : exec (.contextRead ctx g buf) s = runMgmt (.contextRead ctx g buf) s (onCtx s ctx _) := rfl
  rw [onCtx_held hh] at hexec
  refine ⟨fun hno => commanded_rejected hm hok hexec ?_, fun x hx hxc => ?_⟩
  · cases hg : groupOf s g.toNat with
    | none => rfl
    | some x => exact if_neg (hno x hg)
  · obtain ⟨n, hn⟩ : ∃ n, n = groupArea x.vregs.length x.phys.length := ⟨_, rfl⟩
    obtain ⟨img, himg⟩ : ∃ img, img = (List.range n).map (Config.contextImageByte s.freeCtr) := ⟨_, rfl⟩
    refine ⟨{ physWriteBytes s buf.toNat img with freeCtr := s.freeCtr + 1 }, n, commanded_ok hm hexec ?_ rfl ?_, hn, fun a ha => ?_, rfl⟩
    · rw [hx, himg, hn]
      exact if_pos hxc
    · exact memOk_physWriteBytes _ _ hok
    · have hlen : img.length = n := by rw [himg, List.length_map, List.length_range]
      exact (memRead_physWriteBytes _ _ _ hok).trans (if_neg (by omega))

/-! ## Reduction groups, capture units, power (R244, R248, R249) -/

theorem does_reductionGroup {s : State} {n list len limit : DWord} (hok : MemOk s)
    (hm : mgmtNext s = some (.reductionGroup n list len limit)) :
    Does (.reductionGroup n list len limit) s
      (n.toNat < 65536 ∧ 2 ≤ len.toNat ∧ len.toNat ≤ 4096 ∧ limit.toNat ≤ 10000)
      { s with
        sredGroups := { num := n.toNat, devices := (List.range len.toNat).map fun k => physRead s (list.toNat + 2 * k) 2,
                        limit := if limit = 0#64 then 200 else limit.toNat, nextInst := 0 } ::
          s.sredGroups.filter (·.num != n.toNat)
        sredInsts := s.sredInsts.filter (·.group != n.toNat) } :=
  does_of hm hok (show exec _ s = runMgmt _ s (ite _ _ _) from rfl) rfl (fun h => if_pos h) fun h => if_neg h

theorem does_captureSet {s : State} {core unit src : DWord} (hok : MemOk s) (hm : mgmtNext s = some (.captureSet core unit src)) :
    Does (.captureSet core unit src) s (core.toNat < 160 ∧ unit.toNat < 4 ∧ src.toNat ≤ 5)
      (setCore s core.toNat { coreOf s core.toNat with
        captures := (coreOf s core.toNat).captures.set unit.toNat (Capture.cleared (some src.toNat)) }) :=
  does_of hm hok (show exec _ s = runMgmt _ s (ite _ _ _) from rfl) rfl (fun h => if_pos h) fun h => if_neg h

theorem does_powerCap {s : State} {w : DWord} (hok : MemOk s) (hm : mgmtNext s = some (.powerCap w)) :
    Does (.powerCap w) s (1800 ≤ w.toNat ∧ w.toNat ≤ 3600) { s with powerCap := w.toNat } :=
  does_of hm hok (show exec _ s = runMgmt _ s (ite _ _ _) from rfl) rfl (fun h => if_pos h) fun h => if_neg h

/-! ## Words and runs of bytes in memory -/

/-- A chunk of a list made of chunks of one length. -/
theorem getD_flatMap_chunk {α β : Type} {f : α → List β} {n : Nat} (hf : ∀ x, (f x).length = n) (d : β) {x : α} {j : Nat} (hj : j < n)
    (l : List α) : ∀ {i : Nat}, l[i]? = some x → (l.flatMap f).getD (n * i + j) d = (f x).getD j d := by
  induction l with
  | nil => exact fun h => absurd h (by simp)
  | cons y l ih =>
    intro i h
    rw [List.flatMap_cons, List.getD_eq_getElem?_getD]
    cases i with
    | zero =>
      obtain rfl : y = x := by simpa using h
      rw [List.getElem?_append_left (by rw [hf]; omega), Nat.mul_zero, Nat.zero_add, List.getD_eq_getElem?_getD]
    | succ i =>
      rw [List.getElem?_append_right (by rw [hf, Nat.mul_succ]; omega), hf, show n * (i + 1) + j - n = n * i + j by rw [Nat.mul_succ]; omega,
        ← List.getD_eq_getElem?_getD]
      exact ih (by simpa using h)

theorem length_flatMap_chunk {α β : Type} {f : α → List β} {n : Nat} (hf : ∀ x, (f x).length = n) (l : List α) :
    (l.flatMap f).length = n * l.length := by
  induction l with
  | nil => rfl
  | cons y l ih => rw [List.flatMap_cons, List.length_append, hf, ih, List.length_cons, Nat.mul_succ, Nat.add_comm]

/-- A word of a run of words that has been written. -/
theorem physRead_words {s : State} (hok : MemOk s) (a n : Nat) (ws : List Nat) {j w : Nat} (hj : ws[j]? = some w) :
    physRead (physWriteBytes s a (ws.flatMap (natToBytes n))) (a + n * j) n = w % 256 ^ n := by
  have hlen := length_flatMap_chunk (natToBytes_length n) ws
  have hj' := (List.getElem?_eq_some_iff.mp hj).1
  have hle : n * j + n ≤ n * ws.length := by
    rw [← Nat.mul_succ]
    exact Nat.mul_le_mul_left n hj'
  refine memReadN_bytes _ n _ w fun k hk => ?_
  rw [memRead_physWriteBytes _ _ _ hok, hlen, if_pos (by omega), show a + n * j + k - a = n * j + k by omega,
    getD_flatMap_chunk (natToBytes_length n) _ hk ws hj, natToBytes_bytes n w k hk]

/-- Words written one by one in a row. -/
theorem writeRow_spec (b : Nat) (fs : List Nat) : ∀ (m : Nat) {s : State}, MemOk s →
    let t := (fs.zipIdx m).foldl (fun s x => physWrite s (b + 8 * x.2) 8 x.1) s
    MemOk t ∧ t.mgmtBase = s.mgmtBase ∧ (∀ (k f : Nat), fs[k]? = some f → physRead t (b + 8 * (m + k)) 8 = f % 256 ^ 8) ∧
      ∀ a, (a < b + 8 * m ∨ b + 8 * (m + fs.length) ≤ a) → memRead t.mem a = memRead s.mem a := by
  induction fs with
  | nil => exact fun m s hok => ⟨hok, rfl, fun k f h => absurd h (by simp), fun a _ => rfl⟩
  | cons f fs ih =>
    intro m s hok
    obtain ⟨h1, h2, h3, h4⟩ := ih (m + 1) (memOk_physWrite (b + 8 * m) 8 f hok)
    refine ⟨h1, h2, fun k g hg => ?_, fun a ha => ?_⟩
    · cases k with
      | zero =>
        obtain rfl : f = g := by simpa using hg
        refine Eq.trans (memReadN_congr 8 fun x hx1 hx2 => h4 x (.inl (by omega))) ?_
        exact physRead_physWrite _ _ _ hok
      | succ k =>
        have := h3 k g (by simpa using hg)
        rw [show m + 1 + k = m + (k + 1) by omega] at this
        exact this
    · rw [List.length_cons] at ha
      exact (h4 a (by omega)).trans ((memRead_physWrite _ _ _ _ hok).trans (if_neg (by omega)))

/-! ## Captures and attestation (R247, R248) -/

theorem commanded_captureRead {s : State} {core unit buf : DWord} (hok : MemOk s) (hm : mgmtNext s = some (.captureRead core unit buf)) :
    (¬ (core.toNat < 160 ∧ unit.toNat < 4) → Commanded (.captureRead core unit buf) s s 1) ∧
    (core.toNat < 160 → ∀ u, (coreOf s core.toNat).captures[unit.toNat]? = some u → unit.toNat < 4 → u.buckets.length = 32 →
      ∃ s1, Commanded (.captureRead core unit buf) s s1 0 ∧ physRead s1 buf.toNat 4 = u.min % 2 ^ 32 ∧
        physRead s1 (buf.toNat + 4) 4 = u.max % 2 ^ 32 ∧
        (∀ k < 32, physRead s1 (buf.toNat + 8 + 4 * k) 4 = u.buckets.getD k 0 % 2 ^ 32) ∧
        ∀ a, (a < buf.toNat ∨ buf.toNat + 136 ≤ a) → memRead s1.mem a = memRead s.mem a) := by
  have hexec : exec (.captureRead core unit buf) s = runMgmt (.captureRead core unit buf) s
    (if core.toNat < 160 ∧ unit.toNat < 4 then
      .ok (physWriteBytes s buf.toNat (((coreOf s core.toNat).captures.getD unit.toNat (Capture.cleared none)).bytes))
     else .rejected) := rfl
  refine ⟨fun h => commanded_rejected hm hok hexec (if_neg h), fun hc u hu hun hlen => ?_⟩
  obtain ⟨ws, hws⟩ : ∃ ws, ws = u.min :: u.max :: u.buckets := ⟨_, rfl⟩
  have hwl : ws.length = 34 := by rw [hws, List.length_cons, List.length_cons, hlen]
  have hword := fun (j w : Nat) => physRead_words hok buf.toNat 4 ws (j := j) (w := w)
  refine ⟨physWriteBytes s buf.toNat (ws.flatMap (natToBytes 4)), commanded_ok hm hexec ?_ rfl (memOk_physWriteBytes _ _ hok),
    hword 0 u.min (by rw [hws]; rfl), hword 1 u.max (by rw [hws]; rfl), fun k hk => ?_, fun a ha => ?_⟩
  · rw [if_pos ⟨hc, hun⟩, List.getD_eq_getElem?_getD, hu, hws]
    rfl
  · rw [show buf.toNat + 8 + 4 * k = buf.toNat + 4 * (k + 2) by omega]
    refine hword (k + 2) _ ?_
    rw [hws, List.getElem?_cons_succ, List.getElem?_cons_succ, List.getElem?_eq_getElem (by omega), List.getD_eq_getElem?_getD,
      List.getElem?_eq_getElem (by omega), Option.getD_some]
  · rw [memRead_physWriteBytes _ _ _ hok, length_flatMap_chunk (natToBytes_length 4), hwl, if_neg (by omega)]

theorem flatMap_ite {α β : Type} (p : α → Bool) (f : α → List β) (l : List α) :
    (l.flatMap fun x => if p x then f x else []) = (l.filter p).flatMap f := by
  induction l with
  | nil => rfl
  | cons x l ih =>
    rw [List.flatMap_cons, ih]
    cases hx : p x with
    | true => rw [if_pos rfl, List.filter_cons_of_pos hx, List.flatMap_cons]
    | false => rw [if_neg Bool.false_ne_true, List.filter_cons_of_neg (by simp [hx]), List.nil_append]

theorem commanded_attest {s : State} {nonce rep : DWord} (hok : MemOk s) (hm : mgmtNext s = some (.attest nonce rep)) :
    ∃ s1 bs, Commanded (.attest nonce rep) s s1 0 ∧
      s1.mem = memWriteBytes s.mem rep.toNat bs ∧ (∀ i < 32, bs.getD i 0#8 = memRead s.mem (nonce.toNat + i)) ∧
      3405 ≤ bs.length ∧
      (∀ i d n, (s.dies.zipIdx.filter fun d => d.1.booted)[i]? = some (d, n) → ∀ j < 48,
        bs.getD (32 + 48 * i + j) 0#8 = Config.measurements s.boots n j) ∧
      ∃ pre post, bs = pre ++ Config.coreMap (s.dies.flatMap fun d => d.phys.map (· == .retired)) (s.cores.map fun k => !k.active) ++ post := by
  obtain ⟨measure, hmeas⟩ : ∃ measure : Die × Nat → List Byte, measure = fun d => (List.range 48).map (Config.measurements s.boots d.2) := ⟨_, rfl⟩
  have hml : ∀ d, (measure d).length = 48 := fun d => by rw [hmeas, List.length_map, List.length_range]
  have himg : imageMeasures s = (s.dies.zipIdx.filter fun d => d.1.booted).flatMap measure := by
    rw [imageMeasures, hmeas]
    exact flatMap_ite _ _ _
  obtain ⟨post, hpost⟩ : ∃ post, post = (List.range (64 + 3309)).map (Config.attestSignature s.freeCtr) := ⟨_, rfl⟩
  obtain ⟨mid, hmid⟩ : ∃ mid, mid = Config.coreMap (s.dies.flatMap fun d => d.phys.map (· == .retired)) (s.cores.map fun k => !k.active) := ⟨_, rfl⟩
  have hbs : attestReport s nonce.toNat = memReadBytes s.mem nonce.toNat 32 ++
      (imageMeasures s ++ (Config.rollbackCounters s.boots ++ (mid ++ post))) := by
    rw [attestReport, hmid, hpost]
    simp only [List.append_assoc]
  have hlen := memReadBytes_length s.mem 32 nonce.toNat
  have hexec : exec (.attest nonce rep) s = runMgmt (.attest nonce rep) s
    (.ok { physWriteBytes s rep.toNat (attestReport s nonce.toNat) with freeCtr := s.freeCtr + 1 }) := rfl
  obtain ⟨bs, hbs'⟩ : ∃ bs, bs = attestReport s nonce.toNat := ⟨_, rfl⟩
  rw [← hbs'] at hbs hexec
  refine ⟨{ physWriteBytes s rep.toNat bs with freeCtr := s.freeCtr + 1 }, bs, commanded_ok hm hexec rfl rfl (memOk_physWriteBytes _ _ hok), rfl,
    fun i hi => ?_, ?_,
    fun i d n hd j hj => ?_, memReadBytes s.mem nonce.toNat 32 ++ imageMeasures s ++ Config.rollbackCounters s.boots, post, ?_⟩
  · rw [hbs, List.getD_eq_getElem?_getD, List.getElem?_append_left (by omega), ← List.getD_eq_getElem?_getD]
    exact memReadBytes_getD _ _ _ _ hi
  · have : post.length = 3373 := by rw [hpost, List.length_map, List.length_range]
    rw [hbs, List.length_append, hlen]
    simp only [List.length_append]
    omega
  · have hi := (List.getElem?_eq_some_iff.mp hd).1
    have hil : 48 * i + j < (imageMeasures s).length := by
      rw [himg, length_flatMap_chunk hml]
      omega
    rw [hbs, List.getD_eq_getElem?_getD, List.getElem?_append_right (by omega), hlen, show 32 + 48 * i + j - 32 = 48 * i + j by omega,
      List.getElem?_append_left hil, ← List.getD_eq_getElem?_getD, himg, getD_flatMap_chunk hml _ hj _ hd, hmeas]
    dsimp only
    rw [List.getD_eq_getElem?_getD, List.getElem?_map, List.getElem?_range hj]
    rfl
  · rw [hbs, ← hmid]
    simp only [List.append_assoc]

/-! ## Frames added to a pool (R240) -/

theorem commanded_poolAdd {s : State} {ctx list count : DWord} {c : Context} (hok : MemOk s)
    (hm : mgmtNext s = some (.poolAdd ctx list count)) (hh : Holds s ctx c) :
    let n := physRead s c.pool 8
    let fs := (List.range count.toNat).map fun k => physRead s (list.toNat + 8 * k) 8
    ((2 ^ c.poolK < n + count.toNat ∨ ∃ f ∈ fs, f % 65536 ≠ 0 ∨ 2 ^ 52 ≤ f) → Commanded (.poolAdd ctx list count) s s 1) ∧
    (n + count.toNat ≤ 2 ^ c.poolK → c.poolK ≤ 20 → (∀ f ∈ fs, f % 65536 = 0 ∧ f < 2 ^ 52) →
      ∃ s1, Commanded (.poolAdd ctx list count) s s1 0 ∧ physRead s1 c.pool 8 = n + count.toNat ∧
        (∀ k < count.toNat, physRead s1 (c.pool + 64 + 8 * (n + k)) 8 = fs.getD k 0) ∧
        ∀ a, (a < c.pool ∨ c.pool + 8 ≤ a) → (a < c.pool + 64 + 8 * n ∨ c.pool + 64 + 8 * (n + count.toNat) ≤ a) →
          memRead s1.mem a = memRead s.mem a) := by
  intro n fs
  have hexec : exec (.poolAdd ctx list count) s = runMgmt (.poolAdd ctx list count) s (onCtx s ctx _) := rfl
  rw [onCtx_held hh] at hexec
  have hall : (fs.all fun f => f % 0x1_0000 == 0 && f / 2 ^ 52 == 0) = true ↔ ∀ f ∈ fs, f % 65536 = 0 ∧ f < 2 ^ 52 := by
    rw [List.all_eq_true]
    refine forall₂_congr fun f _ => ?_
    rw [Bool.and_eq_true, beq_iff_eq, beq_iff_eq]
    omega
  refine ⟨fun h => commanded_rejected hm hok hexec ?_, fun hn hk hf => ?_⟩
  · rcases h with h | ⟨f, hf, hbad⟩
    · exact if_pos h
    · have : ¬ ((fs.all fun f => f % 0x1_0000 == 0 && f / 2 ^ 52 == 0) = true) := fun e => by
        have := hall.mp e f hf
        omega
      exact ite_eq_left_iff.mpr fun _ => if_neg this
  · have hfl : fs.length = count.toNat := by rw [List.length_map, List.length_range]
    have hpow : 2 ^ c.poolK ≤ 2 ^ 20 := Nat.pow_le_pow_right (by decide) hk
    obtain ⟨h1, h2, h3, h4⟩ := writeRow_spec (c.pool + 64 + 8 * n) fs 0 hok
    obtain ⟨u, hu⟩ : ∃ u, u = fs.zipIdx.foldl (fun s x => physWrite s (poolEntry c (n + x.2)) 8 x.1) s := ⟨_, rfl⟩
    have hu' : u = (fs.zipIdx 0).foldl (fun s x => physWrite s (c.pool + 64 + 8 * n + 8 * x.2) 8 x.1) s := by
      rw [hu]
      refine congrArg (fun F => fs.zipIdx.foldl F s) (funext fun s => funext fun x => ?_)
      rw [poolEntry, Nat.mul_add, Nat.add_assoc _ (8 * n)]
    rw [← hu'] at h1 h2 h3 h4
    refine ⟨physWrite u c.pool 8 (n + count.toNat), commanded_ok hm hexec ?_ h2 (memOk_physWrite _ _ _ h1), ?_, fun k hk => ?_, fun a ha1 ha2 => ?_⟩
    · refine (if_neg (by omega)).trans ((if_pos (hall.mpr hf)).trans ?_)
      show Done.ok (physWrite (fs.zipIdx.foldl (fun s x => physWrite s (poolEntry c (n + x.2)) 8 x.1) s) c.pool 8 (n + fs.length)) = _
      rw [hfl, hu]
    · rw [physRead_physWrite _ _ _ h1]
      exact Nat.mod_eq_of_lt (by omega)
    · have hget : fs[k]? = some (fs.getD k 0) := by
        rw [List.getD_eq_getElem?_getD, List.getElem?_eq_getElem (by omega)]
        rfl
      have hlt := (hf _ (List.mem_of_getElem? hget)).2
      have := h3 k _ hget
      rw [show c.pool + 64 + 8 * n + 8 * (0 + k) = c.pool + 64 + 8 * (n + k) by omega] at this
      refine Eq.trans (memReadN_congr 8 fun x hx1 hx2 => ?_) (this.trans (Nat.mod_eq_of_lt (by omega)))
      rw [memRead_physWrite _ _ _ _ h1, if_neg (by omega)]
    · rw [memRead_physWrite _ _ _ _ h1, if_neg (by omega)]
      exact h4 a (by omega)

/-! ## Queues (12 R220) -/

theorem slotsK_some {n k : Nat} (hk : 4 ≤ k ∧ k ≤ 16 ∧ n = 2 ^ k) : slotsK n = some k := by
  obtain ⟨h1, h2, rfl⟩ := hk
  rw [slotsK, List.find?_eq_some_iff_getElem]
  refine ⟨beq_self_eq_true _, k - 4, by simp only [List.length_map, List.length_range]; omega, by simp only [List.getElem_map, List.getElem_range]; omega, fun j hj => ?_⟩
  have : ((List.range 13).map (· + 4))[j]'(by simp only [List.length_map, List.length_range]; omega) = j + 4 := by
    simp only [List.getElem_map, List.getElem_range]
  rw [this]
  have hne : 2 ^ (j + 4) ≠ 2 ^ k := fun e => by
    have := Nat.pow_right_injective (Nat.le_refl 2) e
    omega
  simpa using hne

theorem slotsK_none {n : Nat} (h : ∀ j, 4 ≤ j → j ≤ 16 → n ≠ 2 ^ j) : slotsK n = none := by
  rw [slotsK, List.find?_eq_none]
  intro k hk
  obtain ⟨j, hj, rfl⟩ := List.mem_map.mp hk
  rw [List.mem_range] at hj
  rw [beq_iff_eq]
  exact fun e => h (j + 4) (by omega) (by omega) e.symm

theorem memReadN_lt (m : List Host.Cell) (n : Nat) : ∀ a, memReadN m a n < 256 ^ n := by
  induction n with
  | zero => exact fun _ => Nat.one_pos
  | succ n ih =>
    intro a
    have := ih (a + 1)
    have hb := (memRead m a).isLt
    rw [memReadN, Nat.pow_succ]
    omega

/-- The queue as it is registered. -/
def newQueue (s : State) (num base k ctx age : Nat) : Queue :=
  { num, base, k, ctx, age, tail := physRead s base 8, head := 0, taken := 0, ack := BitVec.ofNat 64 (physRead s (base + 16) 8),
    stopped := false, preempted := false, cmd := none }

theorem registerQueue_cases {s u : State} {num base k ctx age : Nat}
    (hu : u = physWrite (physWrite s (base + 8) 8 0) (base + 24) 8 (physRead s (base + 16) 8))
    (ht : physRead u base 8 = physRead s base 8) :
    let q := newQueue s num base k ctx age
    registerQueue s num base k ctx age = (if q.overfull then signal { u with queues := s.queues ++ [{ q with stopped := q.overfull }] } s.mgmtVec
      else { u with queues := s.queues ++ [{ q with stopped := q.overfull }] }) := by
  unfold registerQueue newQueue
  dsimp only
  rw [← hu, ht]
  have h1 : u.queues = s.queues := by rw [hu]; rfl
  have h2 : u.mgmtVec = s.mgmtVec := by rw [hu]; rfl
  rw [h1, h2]

theorem registerQueue_base (s : State) (num base k ctx age : Nat) : (registerQueue s num base k ctx age).mgmtBase = s.mgmtBase := by
  obtain ⟨b, l, v, u, he, hu⟩ : ∃ (b : Bool) (l : List Queue) (v : Nat) (u : State), registerQueue s num base k ctx age =
      (if b then signal { u with queues := l } v else { u with queues := l }) ∧ u.mgmtBase = s.mgmtBase := by
    unfold registerQueue
    exact ⟨_, _, _, _, rfl, rfl⟩
  rw [he]
  cases b <;> exact hu

theorem does_registerQueue {s : State} {q base slots ctx age : DWord} (hok : MemOk s)
    (hm : mgmtNext s = some (.registerQueue q base slots ctx age)) {k : Nat} (hk : k = 0 ∨ (4 ≤ k ∧ k ≤ 16 ∧ slots.toNat = 2 ^ k))
    (hk0 : k = 0 → ∀ j, 4 ≤ j → j ≤ 16 → slots.toNat ≠ 2 ^ j) :
    Does (.registerQueue q base slots ctx age) s
      ((∃ c, Holds s ctx c) ∧ k ≠ 0 ∧ q.toNat < 8192 ∧ queueOf s q.toNat = none ∧ base.toNat % 65536 = 0 ∧ age.toNat < 65536)
      (registerQueue s q.toNat base.toNat k ctx.toNat age.toNat) := by
  refine does_of hm hok (show exec _ s = runMgmt _ s (onCtx s ctx _) from rfl) (registerQueue_base ..) (fun ⟨⟨c, hh⟩, h0, h1, h2, h3, h4⟩ => ?_) fun h => ?_
  · rw [onCtx_held hh, slotsK_some (hk.resolve_left h0), ← ctxOf_num hh.1]
    exact if_pos ⟨h1, by rw [h2]; rfl, h3, h4⟩
  · by_cases hh : ∃ c, Holds s ctx c
    · obtain ⟨c, hh⟩ := hh
      rw [onCtx_held hh]
      by_cases h0 : k = 0
      · rw [slotsK_none (hk0 h0)]
      · rw [slotsK_some (hk.resolve_left h0)]
        exact if_neg fun ⟨h1, h2, h3, h4⟩ => h ⟨⟨c, hh⟩, h0, h1, Option.isNone_iff_eq_none.mp h2, h3, h4⟩
    · exact onCtx_none (fun c hc => hh ⟨c, hc⟩) _

theorem registerQueue_spec {s s1 : State} (hok : MemOk s) {num base k ctx age : Nat} (hs1 : s1 = registerQueue s num base k ctx age) :
    ∃ x, s1.queues = s.queues ++ [x] ∧ x.num = num ∧ x.base = base ∧ x.k = k ∧ x.ctx = ctx ∧
      x.age = age ∧ x.tail = physRead s base 8 ∧ x.head = 0 ∧ x.taken = 0 ∧
      x.ack = BitVec.ofNat 64 (physRead s (base + 16) 8) ∧ (x.stopped = decide (2 ^ k < x.tail)) ∧
      s1.irqs = s.irqs ++ (if x.stopped then [s.mgmtVec] else []) ∧ physRead s1 (base + 8) 8 = 0 ∧
      physRead s1 (base + 24) 8 = physRead s (base + 16) 8 ∧
      ∀ a, (a < base + 8 ∨ base + 32 ≤ a ∨ (base + 16 ≤ a ∧ a < base + 24)) → memRead s1.mem a = memRead s.mem a := by
  obtain ⟨w, hw⟩ : ∃ w, w = physRead s (base + 16) 8 := ⟨_, rfl⟩
  have hwlt : w < 256 ^ 8 := by rw [hw]; exact memReadN_lt _ _ _
  have hok1 := memOk_physWrite (base + 8) 8 0 hok
  have h1 := fun x => memRead_physWrite (base + 8) 8 0 x hok
  have h2 := fun x => memRead_physWrite (base + 24) 8 w x hok1
  obtain ⟨u, hu⟩ : ∃ u, u = physWrite (physWrite s (base + 8) 8 0) (base + 24) 8 w := ⟨_, rfl⟩
  have hread := physRead_physWrite (base + 24) 8 w hok1
  rw [← hu] at h2 hread
  have hout : ∀ a, (a < base + 8 ∨ base + 32 ≤ a ∨ (base + 16 ≤ a ∧ a < base + 24)) → memRead u.mem a = memRead s.mem a := fun a ha => by
    rw [h2, if_neg (by omega), h1, if_neg (by omega)]
  have htail : physRead u base 8 = physRead s base 8 := memReadN_congr 8 fun x hx1 hx2 => hout x (.inl (by omega))
  have htlt : physRead s base 8 < 2 ^ 64 := by
    have := memReadN_lt s.mem 8 base
    rw [physRead]
    omega
  obtain ⟨q, hq0⟩ : ∃ q, q = newQueue s num base k ctx age := ⟨_, rfl⟩
  have hqh : q.head = 0 := by rw [hq0]; rfl
  have hqk : q.k = k := by rw [hq0]; rfl
  have hqt : q.tail = physRead s base 8 := by rw [hq0]; rfl
  obtain ⟨b, hb⟩ : ∃ b, b = q.overfull := ⟨_, rfl⟩
  have hbv : b = decide (2 ^ k < physRead s base 8) := by
    rw [hb, Queue.overfull, hqh, hqk, hqt]
    exact decide_eq_decide.mpr (by omega)
  have hq := registerQueue_cases (num := num) (k := k) (ctx := ctx) (age := age) (hw ▸ hu) htail
  dsimp only at hq
  rw [← hq0, ← hb] at hq
  obtain ⟨x, hx⟩ : ∃ x, x = { q with stopped := b } := ⟨_, rfl⟩
  have hxs : x.stopped = b := by rw [hx]
  rw [← hx, ← hxs, ← hs1] at hq
  have hmem : s1.mem = u.mem := by rw [hq]; split <;> rfl
  have hirq : u.irqs = s.irqs := by rw [hu]; rfl
  have htl : x.tail = physRead s base 8 := by rw [hx, hq0]; rfl
  refine ⟨x, ?_, by rw [hx, hq0]; rfl, by rw [hx, hq0]; rfl, by rw [hx, hq0]; rfl, by rw [hx, hq0]; rfl, by rw [hx, hq0]; rfl, htl,
    by rw [hx, hq0]; rfl, by rw [hx, hq0]; rfl, by rw [hx, hq0]; rfl, by rw [hxs, hbv, htl], ?_, ?_, ?_, fun a ha => ?_⟩
  · rw [hq]; split <;> rfl
  · rw [hq]
    split
    · exact congrArg (· ++ [s.mgmtVec]) hirq
    · exact hirq.trans (List.append_nil _).symm
  · rw [physRead, hmem]
    refine Eq.trans (memReadN_congr 8 fun y hy1 hy2 => ?_) (physRead_physWrite (base + 8) 8 0 hok)
    rw [h2, if_neg (by omega)]
  · rw [physRead, hmem, ← hw]
    exact hread.trans (Nat.mod_eq_of_lt hwlt)
  · rw [hmem]
    exact hout a ha

theorem commanded_releaseQueue {s : State} {q : DWord} (hok : MemOk s) (hm : mgmtNext s = some (.releaseQueue q)) :
    (queueOf s q.toNat = none → Commanded (.releaseQueue q) s s 1) ∧
    (∀ x, queueOf s q.toNat = some x → (∃ g ∈ s.grids, g.queue = x.num) → Commanded (.releaseQueue q) s s 2) ∧
    (∀ x, queueOf s q.toNat = some x → (∀ g ∈ s.grids, g.queue ≠ x.num) →
      Commanded (.releaseQueue q) s { s with queues := s.queues.filter (·.num != x.num) } 0) := by
  obtain ⟨d, hd, hexec⟩ : ∃ d, d = (match queueOf s q.toNat with
     | none => Done.rejected
     | some x =>
       if s.grids.any fun g => g.queue == x.num then .busy
       else .ok { s with queues := s.queues.filter (·.num != x.num) }) ∧ exec (.releaseQueue q) s = runMgmt (.releaseQueue q) s d := ⟨_, rfl, rfl⟩
  have hany : ∀ x : Queue, (s.grids.any fun g => g.queue == x.num) = true ↔ ∃ g ∈ s.grids, g.queue = x.num := fun x => by
    simp only [List.any_eq_true, beq_iff_eq]
  refine ⟨fun h => commanded_rejected hm hok hexec ?_, fun x hx hg => commanded_busy hm hok hexec ?_, fun x hx hg => commanded_ok hm hexec ?_ rfl hok⟩
  · rw [hd, h]
  · rw [hd, hx]
    exact if_pos ((hany x).mpr hg)
  · rw [hd, hx]
    exact if_neg fun e => let ⟨g, hg', he⟩ := (hany x).mp e; hg g hg' he

/-! ## Resuming a halted group (11 R218) -/

theorem twinOf_setGroup {s : State} {g g' : Group} (hg : g'.gid = g.gid) (h : twinOf s g = none) : twinOf (setGroup s g') g = none := by
  rw [twinOf, List.find?_eq_none] at h ⊢
  intro x hx
  obtain ⟨y, hy, rfl⟩ := List.mem_map.mp hx
  split
  · simp [hg]
  · exact h y hy

theorem goOnSplit_gid (g : Group) (sid : Nat) (f : Split → Split) : (goOnSplit g sid f).gid = g.gid := by
  unfold goOnSplit
  split <;> rfl

theorem goOnSplit_eq {g : Group} {sid : Nat} {p : Split} (h : splitOf g sid = some p) (f : Split → Split) :
    goOnSplit g sid f = goOn (setSplit g (f p)) := by
  rw [goOnSplit, h]

theorem goOnShadow_gid (g : Group) (sh : Shadow) : (goOnShadow g sh).gid = g.gid := by
  unfold goOnShadow
  split <;> rfl

/-- The group goes on at TRAPPC with its shadow restored. -/
theorem goOnShadow_spec {g : Group} {sh : Shadow} {p : Split} (hp : splitOf g sh.sid = some p) :
    let g' := goOnShadow g sh
    ∃ p', g'.driver = none ∧ g'.resume = .due ∧ g'.shadow = none ∧ g'.status = sh.status ∧ g'.sregs = g.sregs.take 56 ++ sh.s56 ∧
      splitOf g' sh.sid = some p' ∧ p'.pc = g.trappc ∧ p'.em = sh.em &&& p.members ∧ p'.fmt = sh.fmt := by
  intro g'
  obtain ⟨g0, hg0⟩ : ∃ g0 : Group, g0 = { g with
      shadow := none, faults := [], status := sh.status, sregs := g.sregs.take 56 ++ sh.s56, savedRing := some sh.ring } := ⟨_, rfl⟩
  obtain ⟨p', hp'⟩ : ∃ p' : Split, p' = { p with
      em := sh.em &&& p.members, fmt := sh.fmt, swpidx := if g.trappc = sh.pc then sh.swpidx else 0, pc := g.trappc,
      chainLen := sh.chainLen, chainPC := sh.chainPC, bpMatch := sh.bpMatch, sweep := none } := ⟨_, rfl⟩
  have he : g' = goOn (setSplit g0 p') := by
    show goOnShadow g sh = _
    rw [goOnShadow, hp, hg0, hp']
  have hs : splitOf g0 sh.sid = some p := by rw [hg0]; exact hp
  have hps := splitOf_sid hp
  have hsid : p'.sid = sh.sid := by rw [hp']; exact hps
  clear_value g'
  subst he
  refine ⟨p', rfl, rfl, by rw [hg0]; rfl, by rw [hg0]; rfl, by rw [hg0]; rfl, splitOf_setSplit hs hsid, by rw [hp'], by rw [hp'], by rw [hp']⟩

theorem resumeAt_gid {g g' : Group} {d : DriverHalt} {n : Nat} (h : resumeAt g d n = some g') : g'.gid = g.gid := by
  unfold resumeAt at h
  split at h
  · obtain rfl := Option.some.inj h; rfl
  · obtain rfl := Option.some.inj h; exact goOnSplit_gid ..
  · exact absurd h (by simp)
  · split at h
    · split at h
      · obtain rfl := Option.some.inj h; exact goOnShadow_gid ..
      · obtain rfl := Option.some.inj h; rfl
    · obtain rfl := Option.some.inj h; rfl
  · obtain rfl := Option.some.inj h; exact goOnSplit_gid ..
  · obtain rfl := Option.some.inj h; exact goOnSplit_gid ..
  · exact absurd h (by simp)

/-- Where a group goes on from a halt of a kind other than a breakpoint or a debugger's. -/
theorem resumeAt_zero {g : Group} {d : DriverHalt} (hk : d.kind = .noHandler ∨ d.kind = .driver ∨ d.kind = .escape ∨ d.kind = .inHandler) :
    resumeAt g d 0 = (match g.shadow with
      | some sh => if d.kind = .escape ∨ d.body.inhandler = true then some (goOnShadow g sh) else some (goOn g)
      | none => some (goOn g)) := by
  unfold resumeAt
  rcases hk with hk | hk | hk | hk <;> rw [hk] <;> rfl

/-- A halt that is not the debugger's, outside a handler, is left where it stands. -/
theorem resumeAt_here {g : Group} {d : DriverHalt} (hk : d.kind = .breakpoint true ∨ d.kind = .noHandler ∨ d.kind = .driver)
    (hi : d.body.inhandler = false) : resumeAt g d 0 = some (goOn g) := by
  rcases hk with hk | hk
  · simp only [resumeAt, hk]
  · have hne : ¬ (d.kind = .escape ∨ d.body.inhandler = true) := fun e => e.elim
      (fun h => by rcases hk with hk | hk <;> exact nomatch hk.symm.trans h) fun h => Bool.false_ne_true (hi.symm.trans h)
    rw [resumeAt_zero (hk.imp_right .inl)]
    split
    · exact if_neg hne
    · rfl

theorem resumeAt_shadow {g : Group} {d : DriverHalt} {sh : Shadow} (hk : d.kind = .escape ∨ d.kind = .inHandler)
    (hi : d.body.inhandler = true) (hs : g.shadow = some sh) : resumeAt g d 0 = some (goOnShadow g sh) := by
  rw [resumeAt_zero (.inr (.inr hk)), hs]
  exact if_pos (.inr hi)

theorem resumeAt_one {g : Group} {d : DriverHalt} (h : d.kind ≠ .escape) : resumeAt g d 1 = none := by
  cases hk : d.kind
  case escape => exact absurd hk h
  all_goals simp only [resumeAt, hk]

theorem resumeAt_two {g : Group} {d : DriverHalt} (h : d.kind ≠ .noHandler) : resumeAt g d 2 = none := by
  cases hk : d.kind
  case noHandler => exact absurd hk h
  all_goals simp only [resumeAt, hk]

theorem resumeAt_past {g : Group} {d : DriverHalt} {n : Nat} (h : 2 < n) : resumeAt g d n = none := by
  obtain ⟨n, rfl⟩ := Nat.exists_eq_add_of_le' h
  cases hk : d.kind <;> simp only [resumeAt, hk]

section
variable {s : State} {r point : DWord} (hok : MemOk s) (hm : mgmtNext s = some (.resumeGroup r point))
include hok hm

theorem commanded_resume_other (h : ∀ gid, (recAt s r).map DriverRec.link ≠ some (.group gid)) : Commanded (.resumeGroup r point) s s 1 := by
  have hexec : exec (.resumeGroup r point) s = runMgmt (.resumeGroup r point) s (match (recAt s r).map DriverRec.link with
     | some (.group gid) =>
       match groupOf s gid with
       | none => .rejected
       | some g =>
         if !haltsNow g r.toNat then .rejected
         else match g.driver.bind fun d => resumeAt g d point.toNat with
         | some g' => .ok (resumeTwin (setGroup s g') g point.toNat)
         | none => .rejected
     | _ => .rejected) := rfl
  refine commanded_rejected hm hok hexec ?_
  split
  next gid hg => exact absurd hg (h gid)
  next => rfl

variable {gid : Nat} {g : Group} (hl : (recAt s r).map DriverRec.link = some (.group gid)) (hg : groupOf s gid = some g)
include hl hg

theorem exec_resumeGroup : exec (.resumeGroup r point) s = runMgmt (.resumeGroup r point) s
    (if !haltsNow g r.toNat then .rejected
     else match g.driver.bind fun d => resumeAt g d point.toNat with
       | some g' => .ok (resumeTwin (setGroup s g') g point.toNat)
       | none => .rejected) := by
  have hexec : exec (.resumeGroup r point) s = execResumeGroup r point s := rfl
  rw [hexec, execResumeGroup, hl]
  dsimp only
  rw [hg] <;> rfl

theorem commanded_resume_gone (hn : haltsNow g r.toNat = false) : Commanded (.resumeGroup r point) s s 1 :=
  commanded_rejected hm hok (exec_resumeGroup hok hm hl hg) (by rw [hn]; rfl)

variable {d : DriverHalt} (hn : haltsNow g r.toNat = true) (hd : g.driver = some d)
include hn hd

theorem commanded_resume_refused (ha : resumeAt g d point.toNat = none) : Commanded (.resumeGroup r point) s s 1 :=
  commanded_rejected hm hok (exec_resumeGroup hok hm hl hg) (by rw [hn, hd, Option.bind_some, ha]; rfl)

theorem commanded_resume {g' : Group} (ht : twinOf s g = none) (ha : resumeAt g d point.toNat = some g') :
    Commanded (.resumeGroup r point) s (setGroup s g') 0 := by
  refine commanded_ok hm (exec_resumeGroup hok hm hl hg) ?_ rfl hok
  rw [hn, hd, Option.bind_some, ha]
  show Done.ok (resumeTwin (setGroup s g') g point.toNat) = _
  rw [resumeTwin, twinOf_setGroup (resumeAt_gid ha) ht]

end

/-! ## Quiesce (00 R8) -/

theorem commanded_quiesce_dark {s : State} {die : DWord} (hok : MemOk s) (hm : mgmtNext s = some (.quiesceDie die))
    (h : ∀ d, s.dies[die.toNat]? = some d → d.booted = false) : Commanded (.quiesceDie die) s s 1 := by
  refine commanded_of hm ?_ rfl hok
  have hexec : exec (.quiesceDie die) s = execQuiesceDie die s := rfl
  rw [hexec, execQuiesceDie, if_pos hm]
  cases hd : s.dies[die.toNat]? with
  | none => rfl
  | some d =>
    dsimp only
    rw [h d hd, if_neg Bool.false_ne_true]

theorem exec_quiesceDie {s : State} {die : DWord} {d : Die} (hm : mgmtNext s = some (.quiesceDie die)) (hd : s.dies[die.toNat]? = some d)
    (hb : d.booted = true) : exec (.quiesceDie die) s = .next (beginQuiesce s die.toNat d) := by
  have hexec : exec (.quiesceDie die) s = execQuiesceDie die s := rfl
  rw [hexec, execQuiesceDie, if_pos hm, hd]
  dsimp only
  rw [hb, if_pos rfl]

/-- What is resident on the die is pre-empted. -/
theorem beginQuiesce_spec (s : State) (die : Nat) (d : Die) :
    let t := beginQuiesce s die d
    t.dies = s.dies.set die { d with quiesce := some s.clock.toNat } ∧ t.mgmtHead = s.mgmtHead ∧ t.mem = s.mem ∧
      (∀ c, (∃ tm ∈ s.teams, tm.ctx = c ∧ tm.core / 40 = die ∧ tm.place ≠ .saved) → (∃ x ∈ s.contexts, x.num = c) →
        ctxStopped t c = true ∧
        (∀ tm ∈ t.teams, ∀ gr ∈ s.grids, gr.ctx = c → tm.grid = gr.uid → tm.place ≠ .saved → tm.haltReq = true) ∧
        ∀ g ∈ t.groups, ∀ tm, teamOf s g.team = some tm → ∀ gr ∈ s.grids, gr.ctx = c → tm.grid = gr.uid →
          g.place ≠ .saved → g.haltReq = true) := by
  intro t
  obtain ⟨cs, hcs⟩ : ∃ cs, cs = (s.contexts.filter (onDie s die)).map Context.num := ⟨_, rfl⟩
  obtain ⟨u, hu⟩ : ∃ u : State, u = { s with
    contexts := s.contexts.map fun c => if cs.contains c.num then { c with quiesced := true } else c
    dies := s.dies.set die { d with quiesce := some s.clock.toNat } } := ⟨_, rfl⟩
  have ht : t = preemptGrids u (gridIds u fun g => cs.contains g.ctx).contains := by rw [hu, hcs]; rfl
  have hids : gridIds u (fun g => cs.contains g.ctx) = gridIds s fun g => cs.contains g.ctx := by rw [hu]; rfl
  rw [hids] at ht
  obtain ⟨k1, k2, k3, k4⟩ := preemptGrids_halts u (gridIds s fun g => cs.contains g.ctx).contains
  rw [← ht] at k1 k2 k3 k4
  clear_value t
  refine ⟨(congrArg State.dies k1 :).trans (by rw [hu]), (congrArg State.mgmtHead k1 :).trans (by rw [hu]),
    (congrArg State.mem k1 :).trans (by rw [hu]), fun c ⟨tm, htm, htc, htd, htp⟩ ⟨x, hx, hxc⟩ => ?_⟩
  have hin : cs.contains c = true := by
    rw [List.contains_iff_mem, hcs, ← hxc]
    refine List.mem_map_of_mem (List.mem_filter.mpr ⟨hx, ?_⟩)
    rw [onDie, List.any_eq_true]
    refine ⟨tm, htm, ?_⟩
    rw [Bool.and_eq_true, Bool.and_eq_true, beq_iff_eq, beq_iff_eq, bne_iff_ne]
    exact ⟨⟨htc.trans hxc.symm, htd⟩, htp⟩
  have hsel : ∀ gr ∈ s.grids, gr.ctx = c → (gridIds s fun g => cs.contains g.ctx).contains gr.uid = true := fun gr hgr hgc => by
    rw [List.contains_iff_mem]
    exact List.mem_map_of_mem (List.mem_filter.mpr ⟨hgr, by rw [hgc]; exact hin⟩)
  refine ⟨?_, fun tm' htm' gr hgr hgc hgu hp => ?_, fun g hg tm' htm' gr hgr hgc hgu hp => ?_⟩
  · have hctx : ctxOf u c = (ctxOf s c).map fun c => if cs.contains c.num then { c with quiesced := true } else c := by
      rw [ctxOf, hu, List.find?_map]
      refine congrArg _ (congrArg (fun p => List.find? p s.contexts) (funext fun y => ?_))
      rw [Function.comp_apply]
      split <;> rfl
    obtain ⟨y, hy⟩ : ∃ y, ctxOf s c = some y := by
      cases hf : ctxOf s c with
      | some y => exact ⟨y, rfl⟩
      | none => exact absurd (List.find?_eq_none.mp hf x hx) (by simp [hxc])
    have hyn : y.num = c := ctxOf_num hy
    rw [hy, Option.map_some, hyn, if_pos hin] at hctx
    obtain ⟨l, hl⟩ := k2 _ _ hctx
    rw [ctxStopped, hl]
    simp
  · rw [k4] at htm'
    obtain ⟨y, hy, rfl⟩ := List.mem_map.mp htm'
    split at hgu
    next h => rw [if_pos h]
    next h =>
      rw [if_neg h] at hp
      exact absurd ⟨by rw [hgu]; exact hsel gr hgr hgc, hp⟩ h
  · rw [k3] at hg
    obtain ⟨y, hy, rfl⟩ := List.mem_map.mp hg
    have hteam : ∀ n, teamOf u n = teamOf s n := fun n => by rw [hu]; rfl
    have hyt : teamOf s y.team = some tm' := by
      split at htm' <;> exact htm'
    by_cases hc : (teamOf u y.team).any (fun t => (gridIds s fun g => cs.contains g.ctx).contains t.grid) = true ∧ y.place ≠ .saved
    · rw [if_pos hc]
    · rw [if_neg hc] at hp
      refine absurd ⟨?_, hp⟩ hc
      rw [hteam, hyt, Option.any_some, hgu]
      exact hsel gr hgr hgc

/-! ## Termination (01 R32) -/

theorem kept_settleAcks {P : State → Prop} (h : ∀ s q w, P s → P (ackQueue s q w)) {s : State} (hs : P s) : P (settleAcks s) := by
  have key : ∀ (qs : List Queue) (t : State), P t → P (qs.foldl settleAck t) := by
    intro qs
    induction qs with
    | nil => exact fun t ht => ht
    | cons q qs ih =>
      intro t ht
      refine ih _ ?_
      unfold settleAck
      split
      · split
        · exact h _ _ _ ht
        · exact ht
      · exact ht
  exact key s.queues s hs

theorem settleAcks_memOk {s : State} (h : MemOk s) : MemOk (settleAcks s) :=
  kept_settleAcks (P := MemOk) (fun _ _ _ h => memOk_physWrite _ _ _ h) h

theorem settleAcks_base (s : State) : (settleAcks s).mgmtBase = s.mgmtBase :=
  kept_settleAcks (P := fun t => t.mgmtBase = s.mgmtBase) (fun _ _ _ h => h) rfl

theorem dropContext_rest (s : State) (n : Nat) :
    { dropContext s n with contexts := s.contexts, queues := s.queues, blocks := s.blocks } = s := by
  unfold dropContext
  split <;> rfl

/-- What a termination leaves of the context. -/
theorem terminate_spec {s : State} {c : Context} (hc : ctxOf s c.num = some c) :
    let t := terminate s c
    (∀ g, g ∈ t.groups ↔ g ∈ s.groups ∧ g.ctx ≠ c.num) ∧
      (∀ x, x ∈ t.copies ↔ x ∈ s.copies ∧ x.ctx ≠ c.num) ∧ t.mem = s.mem ∧
      (∀ r, r ∈ t.undelivered ↔ r ∈ s.undelivered ∧ r.ctx ≠ c.num) ∧
      (∀ x, ctxOf t c.num = some x → x.terminating = true ∧ x.brine = []) ∧
      (∀ k ∈ t.cores, ∀ p, some p ∈ k.pans → ∀ r ∈ p.recs, r.ctx ≠ c.num) ∧
      (∀ o ∈ t.ops, o.ctx = c.num → ∀ e ∈ o.elems, e.isParked = false) ∧
      (∀ g ∈ t.grids, g.ctx = c.num → g.phase = .active → g.faulted = true) ∧
      ∀ g ∈ s.groups, g.ctx ≠ c.num → g ∈ t.groups := by
  intro t
  have hmem : ∀ {α : Type} (f : α → Nat) (l : List α) (x : α), (x ∈ l.filter fun y => f y != c.num) ↔ x ∈ l ∧ f x ≠ c.num := fun f l x => by
    rw [List.mem_filter, bne_iff_ne]
  have hgroups := hmem Group.ctx s.groups
  refine ⟨hgroups, hmem Copy.ctx s.copies, rfl, hmem DriverRec.ctx s.undelivered, fun x hx => ?_, fun k hk p hp r hr => ?_, fun o ho hoc e he => ?_,
    fun g hg hgc ha => ?_, fun g hg hgc => (hgroups g).mpr ⟨hg, hgc⟩⟩
  · have hset : ctxOf t c.num = some { c with terminating := true, brine := [] } :=
      ctxOf_setCtx_num (c := { c with terminating := true, brine := [] }) hc rfl
    rw [hset] at hx
    obtain rfl := Option.some.inj hx
    exact ⟨rfl, rfl⟩
  · obtain ⟨k1, hk1, rfl⟩ := List.mem_map.mp hk
    obtain ⟨k2, -, rfl⟩ := List.mem_map.mp hk1
    obtain ⟨q, -, hq⟩ := List.mem_map.mp hp
    have := (Option.filter_eq_some_iff.mp hq).2
    rw [List.all_eq_true] at this
    exact bne_iff_ne.mp (this r hr)
  · obtain ⟨o', -, rfl⟩ := List.mem_map.mp (List.mem_filter.mp ho).1
    split at hoc
    next h =>
      rw [if_pos h] at he
      obtain ⟨e', -, rfl⟩ := List.mem_map.mp he
      cases hp : e'.isParked with
      | true => rfl
      | false => exact hp
    next h => exact absurd hoc h
  · obtain ⟨g', -, rfl⟩ := List.mem_map.mp hg
    split at hgc
    next h => rw [if_pos h]
    next h =>
      rw [if_neg h] at ha
      exact absurd ⟨hgc, ha⟩ h

theorem commanded_terminate {s : State} {num : DWord} {c : Context} (hok : MemOk s) (hm : mgmtNext s = some (.terminateContext num))
    (hh : Holds s num c) : Commanded (.terminateContext num) s (settleAcks (dropContext (terminate s c) c.num)) 0 := by
  have hr := dropContext_rest (terminate s c) c.num
  refine commanded_ok hm (show exec _ s = runMgmt _ s (onCtx s num _) from rfl) (onCtx_held hh _) ?_ (settleAcks_memOk ?_)
  · exact (settleAcks_base _).trans (congrArg State.mgmtBase hr :)
  · have e : (dropContext (terminate s c) c.num).mem = s.mem := (congrArg State.mem hr :)
    rw [MemOk, e]
    exact hok

/-! ## Parked requests that replay (R240) -/

theorem closed_mgmtBase (b : Option Nat) : Closed (fun t => t.mgmtBase = b) False 0 :=
  ⟨fun _ _ => Nat.zero_le _, fun _ hc => hc.elim, fun _ _ _ h => h, fun _ _ _ _ _ _ _ _ _ hm _ h => hm.trans h, fun _ _ _ _ h => h, fun _ _ _ _ h => h⟩

section
variable {P : State → Prop} {C : Prop} {n : Nat} (hP : Closed P C n)
include hP

theorem kept_replayElem (acc : State × List (Nat × Nat)) (x : Nat × Nat × Nat) (h : P acc.1) : P (replayElem acc x).1 := by
  unfold replayElem
  dsimp only
  split
  · exact h
  next o _ =>
    split
    next e c _ _ =>
      have hw := kept_walkAccess hP c e.va .rmw o.sup h
      split
      · exact h
      · split
        next f s1 he =>
          rw [he] at hw
          exact kept_report hP _ hw
        next pa s1 he =>
          rw [he] at hw
          exact kept_settleOp hP _ (kept_performHome hP _ _ _ _ hw)
    · exact h

theorem kept_replayParked {s : State} (ctx gid page : Nat) (h : P s) : P (replayParked s ctx gid page) :=
  kept_foldl_keys hP (fun acc x h => kept_replayElem hP acc x h) _ h

end

theorem wakeAll_same (s : State) : SameBut s (wakeAll s) := by
  have key : ∀ (gs : List Grid) (t : State), SameBut t (gs.foldl (fun s g => harvestKeys s g.uid []) t) := by
    intro gs
    induction gs with
    | nil => exact fun t => .refl t
    | cons g gs ih => exact fun t => (settleKeys_same g.uid t).trans (ih _)
  exact key s.grids s

/-- A request that replays alone is performed at its place. -/
theorem replayParked_wrote {s s2 : State} {ctx gid page q k pa : Nat} {o : Op} {e : Elem} {u : EltTy} {c : Context}
    (hp : parkedAt s ctx gid page = [(q, o.id, k)]) (ho : opOf s o.id = some o) (he : o.elems[k]? = some e)
    (hearly : earlierParked s o e = false) (hc : ctxOf s o.ctx = some c) (hw : walkAccess s c e.va .rmw o.sup = (.ok pa, s2))
    (hk : o.kind = .rmw u none) (hsp : e.space = .global) (hb : badGranule? s2 pa e.size = none) (hok : MemOk s2) :
    Wrote s2 (wakeAll (replayParked s ctx gid page)) pa e.size (rmwValue e.u e.op (physRead s2 pa e.size) e.data.toNat e.data2.toNat) := by
  obtain ⟨s3, hr, hwr, -⟩ := rmwElem_spec (k := k) (o := o) hok (by rw [hsp]; exact fun h => nomatch h) hb
  have hrep : replayParked s ctx gid page =
      settleOp (setElem s3 o k { e with st := .done, res := BitVec.ofNat 64 (physRead s2 pa e.size) }) o.id := by
    rw [replayParked, hp, List.foldl_cons, List.foldl_nil, replayElem]
    dsimp only
    rw [ho]
    dsimp only
    rw [he, hc]
    dsimp only
    rw [hearly, if_neg Bool.false_ne_true, hw]
    dsimp only
    rw [performHome_rmw ⟨u, none, hk⟩, hr]
  refine hwr.mono ((wakeAll_same _).keeps.1.trans ?_)
  rw [hrep]
  exact settleOp_mem _ _

/-! ## Parked requests that are dropped (01 R31) -/

/-- A request joins those that a fault holds when it is the group's own or parks behind one of them. -/
def joinParked (gid : Nat) (acc : List (Nat × Op × Nat)) (x : Nat × Op × Nat) : List (Nat × Op × Nat) :=
  if x.2.1.gid = gid ∨ acc.any (fun y => parksBehind x.2.1 y.2.1) then acc ++ [x] else acc

theorem parkedAt_eq (s : State) (ctx gid page : Nat) :
    parkedAt s ctx gid page = ((parkedOn s ctx page).foldl (joinParked gid) []).map fun x => (x.1, x.2.1.id, x.2.2) := rfl

theorem mem_joinParked_old {gid : Nat} {acc : List (Nat × Op × Nat)} {y : Nat × Op × Nat} (x : Nat × Op × Nat) (h : y ∈ acc) :
    y ∈ joinParked gid acc x := by
  unfold joinParked
  split
  · exact List.mem_append_left _ h
  · exact h

theorem mem_foldl_joinParked_old {gid : Nat} {y : Nat × Op × Nat} (l : List (Nat × Op × Nat)) : ∀ {acc}, y ∈ acc → y ∈ l.foldl (joinParked gid) acc := by
  induction l with
  | nil => exact fun h => h
  | cons x l ih => exact fun h => ih (mem_joinParked_old x h)

theorem mem_joinParked {gid : Nat} {acc : List (Nat × Op × Nat)} {x : Nat × Op × Nat}
    (h : x.2.1.gid = gid ∨ ∃ y ∈ acc, parksBehind x.2.1 y.2.1 = true) : x ∈ joinParked gid acc x := by
  rw [joinParked, if_pos (h.imp_right List.any_eq_true.mpr)]
  exact List.mem_append_right _ (List.mem_singleton.mpr rfl)

theorem mem_foldl_joinParked_own {gid : Nat} {x : Nat × Op × Nat} (hx : x.2.1.gid = gid) (l : List (Nat × Op × Nat)) :
    ∀ {acc}, x ∈ l → x ∈ l.foldl (joinParked gid) acc := by
  induction l with
  | nil => exact fun h => absurd h (by simp)
  | cons y l ih =>
    intro acc h
    rcases List.mem_cons.mp h with rfl | h
    · exact mem_foldl_joinParked_old l (mem_joinParked (.inl hx))
    · exact ih h

theorem mem_foldl_joinParked_behind {gid : Nat} {x y : Nat × Op × Nat} {l : List (Nat × Op × Nat)} (hl : l.Pairwise fun a b => a.1 ≤ b.1)
    (hx : x ∈ l) (hy : y ∈ l) (hlt : y.1 < x.1) (hown : y.2.1.gid = gid) (hb : parksBehind x.2.1 y.2.1 = true) :
    x ∈ l.foldl (joinParked gid) [] := by
  obtain ⟨l1, l2, rfl⟩ := List.append_of_mem hx
  have hy1 : y ∈ l1 := by
    rcases List.mem_append.mp hy with h | h
    · exact h
    · rcases List.mem_cons.mp h with rfl | h
      · exact absurd hlt (Nat.lt_irrefl _)
      · have := (List.pairwise_cons.mp (List.pairwise_append.mp hl).2.1).1 y h
        omega
  rw [List.foldl_append, List.foldl_cons]
  exact mem_foldl_joinParked_old l2 (mem_joinParked (.inr ⟨y, mem_foldl_joinParked_own hown l1 hy1, hb⟩))

theorem parkedOn_sorted (s : State) (ctx page : Nat) : (parkedOn s ctx page).Pairwise fun a b => a.1 ≤ b.1 := by
  refine (sortLe_sorted (fun a b c h1 h2 => ?_) fun a _ b _ => ?_).imp fun h => of_decide_eq_true h
  · exact decide_eq_true (Nat.le_trans (of_decide_eq_true h1) (of_decide_eq_true h2))
  · exact (Nat.le_total a.1 b.1).imp decide_eq_true decide_eq_true

/-- A parked element is among those of its page. -/
theorem mem_parkedOn {s : State} {ctx page : Nat} {o : Op} {e : Elem} (ho : opOf s o.id = some o) (he : e ∈ o.elems) (hc : o.ctx = ctx)
    (hp : e.isParked = true) (hpage : e.page = page) : ∃ k < o.elems.length, (e.seq, o, k) ∈ parkedOn s ctx page := by
  obtain ⟨k, hk, rfl⟩ := List.mem_iff_getElem.mp he
  refine ⟨k, hk, mem_sortLe.mpr (List.mem_flatMap.mpr ⟨o, List.mem_of_find?_eq_some ho, ?_⟩)⟩
  rw [if_pos hc]
  refine List.mem_map.mpr ⟨(o.elems[k], k), List.mem_filter.mpr ⟨List.mem_zipIdx_iff_getElem?.mpr (List.getElem?_eq_getElem hk), ?_⟩, rfl⟩
  rw [hp, hpage, Bool.true_and, beq_self_eq_true]

/-- What a fault of a group holds. -/
theorem mem_parkedAt {s : State} {ctx gid page : Nat} {o : Op} {e : Elem} (ho : opOf s o.id = some o) (he : e ∈ o.elems) (hc : o.ctx = ctx)
    (hp : e.isParked = true) (hpage : e.page = page)
    (hheld : o.gid = gid ∨ ∃ (o' : Op) (e' : Elem), opOf s o'.id = some o' ∧ e' ∈ o'.elems ∧ o'.ctx = ctx ∧ o'.gid = gid ∧
      e'.isParked = true ∧ e'.page = page ∧ e'.seq < e.seq ∧ parksBehind o o' = true) :
    ∃ k < o.elems.length, (e.seq, o.id, k) ∈ parkedAt s ctx gid page := by
  obtain ⟨k, hk, hmem⟩ := mem_parkedOn ho he hc hp hpage
  refine ⟨k, hk, ?_⟩
  rw [parkedAt_eq]
  refine List.mem_map_of_mem (f := fun x : Nat × Op × Nat => (x.1, x.2.1.id, x.2.2)) (a := (e.seq, o, k)) ?_
  rcases hheld with hown | ⟨o', e', ho', he', hc', hown, hp', hpage', hlt, hb⟩
  · exact mem_foldl_joinParked_own hown _ hmem
  · obtain ⟨k', -, hmem'⟩ := mem_parkedOn ho' he' hc' hp' hpage'
    exact mem_foldl_joinParked_behind (parkedOn_sorted s ctx page) hmem hmem' hlt hown hb

/-- A grid has lost a reduction, if it is there. -/
def Lost (t : State) (uid : Nat) : Prop := ∀ g, gridOf t uid = some g → g.lost = true

theorem lost_loseReduction (t : State) (n : Nat) : Lost (loseReduction t n) n := by
  intro g hg
  cases h : gridOf t n with
  | none =>
    rw [loseReduction, updGrid, h] at hg
    exact absurd (h.symm.trans hg) (by simp)
  | some x =>
    rw [loseReduction, gridOf_updGrid h _ rfl] at hg
    obtain rfl := Option.some.inj hg
    rfl

theorem Lost.loseReduction {t : State} {m : Nat} (h : Lost t m) (n : Nat) : Lost (Sys2Proof.Machine.loseReduction t n) m := by
  by_cases hmn : m = n
  · subst hmn
    exact lost_loseReduction t m
  · intro g hg
    rw [Sys2Proof.Machine.loseReduction, updGrid] at hg
    split at hg
    next x hx =>
      have hu : x.uid = n := gridOf_uid hx
      refine h g (Eq.trans (Eq.symm ?_) hg)
      exact find_map_other Grid.uid t.grids _ x.uid m rfl (fun e => hmn (e.trans hu))
    next => exact h g hg

theorem opOf_setElem_other {s : State} {o : Op} {k n : Nat} {e : Elem} (h : n ≠ o.id) : opOf (setElem s o k e) n = opOf s n :=
  find_map_other Op.id s.ops { o with elems := o.elems.set k e } o.id n rfl h

theorem opOf_settleOp_other {s : State} {n id : Nat} (h : n ≠ id) : opOf (settleOp s id) n = opOf s n := by
  rcases settleOp_cases s id with he | ⟨o, -, s1, h1, h2⟩
  · rw [he]
  · have e1 : s1.ops = s.ops := by
      rcases h1 with rfl | rfl
      · rfl
      · exact (congrArg State.ops (countOff_rest s o) :)
    have e2 : opOf s1 n = opOf s n := opOf_of_ops e1 n
    rcases h2 with h2 | ⟨h2, -⟩
    · rw [h2, e2]
    · rw [h2, ← e2]
      show (s1.ops.filter (·.id != id)).find? (·.id == n) = s1.ops.find? (·.id == n)
      rw [List.find?_filter]
      refine congrArg (fun p => List.find? p s1.ops) (funext fun x => ?_)
      by_cases hx : x.id = n
      · simp [hx, h]
      · simp [hx]

/-- An operation settled is as it was, or gone. -/
theorem opOf_settleOp {s : State} {id : Nat} {o : Op} (h : opOf s id = some o) : opOf (settleOp s id) id = some o ∨ opOf (settleOp s id) id = none := by
  rcases settleOp_cases s id with he | ⟨o1, -, s1, h1, h2⟩
  · exact .inl (by rw [he]; exact h)
  · have e1 : s1.ops = s.ops := by
      rcases h1 with rfl | rfl
      · rfl
      · exact (congrArg State.ops (countOff_rest s o1) :)
    rcases h2 with h2 | ⟨h2, -⟩
    · exact .inl (by rw [h2]; exact (opOf_of_ops e1 id).trans h)
    · refine .inr ?_
      rw [h2]
      exact List.find?_eq_none.mpr fun x hx => by simpa using removeOp_gone s1 id x hx

/-- One parked request dropped. -/
def dropElem (s : State) (x : Nat × Nat × Nat) : State :=
  match opOf s x.2.1 with
  | none => s
  | some o =>
    match o.elems[x.2.2]? with
    | none => s
    | some e => settleOp (setElem (loseReduction s o.grid) o x.2.2 { e with st := .done }) o.id

theorem dropParked_eq (s : State) (ctx gid page : Nat) : dropParked s ctx gid page = (parkedAt s ctx gid page).foldl dropElem s := rfl

/-- While parked requests of `s` are dropped: memory stands, and an operation stands until its grid has lost a reduction. -/
structure Dropping (s t : State) : Prop where
  mem : t.mem = s.mem
  base : t.mgmtBase = s.mgmtBase
  ops : ∀ n o, opOf s n = some o → (∃ o', opOf t n = some o' ∧ o'.grid = o.grid ∧ o'.elems.length = o.elems.length) ∨ Lost t o.grid

theorem dropElem_spec {s t : State} (h : Dropping s t) (x : Nat × Nat × Nat) :
    Dropping s (dropElem t x) ∧ (∀ n, Lost t n → Lost (dropElem t x) n) ∧
      ∀ o, opOf s x.2.1 = some o → x.2.2 < o.elems.length → Lost (dropElem t x) o.grid := by
  unfold dropElem
  cases hx : opOf t x.2.1 with
  | none =>
    refine ⟨h, fun _ hn => hn, fun o ho _ => ?_⟩
    rcases h.ops _ o ho with ⟨o', ho', -⟩ | hl
    · exact absurd (hx.symm.trans ho') (by simp)
    · exact hl
  | some o1 =>
    dsimp only
    cases he : o1.elems[x.2.2]? with
    | none =>
      refine ⟨h, fun _ hn => hn, fun o ho hk => ?_⟩
      rcases h.ops _ o ho with ⟨o', ho', -, hlen⟩ | hl
      · obtain rfl := Option.some.inj (hx.symm.trans ho')
        rw [List.getElem?_eq_none_iff] at he
        omega
      · exact hl
    | some e =>
      dsimp only
      have hid : o1.id = x.2.1 := opOf_id hx
      obtain ⟨a, ha⟩ : ∃ a, a = setElem (loseReduction t o1.grid) o1 x.2.2 { e with st := .done } := ⟨_, rfl⟩
      have hrest := settleOp_rest a o1.id
      have hgrids : (settleOp a o1.id).grids = (loseReduction t o1.grid).grids := (congrArg State.grids hrest :).trans (by rw [ha]; rfl)
      have hlose := updGrid_rest t o1.grid fun g => { g with lost := true }
      have hlost : ∀ n, Lost (loseReduction t o1.grid) n → Lost (settleOp a o1.id) n := fun n hn g hg => by
        rw [gridOf, hgrids] at hg
        exact hn g hg
      have hops : opOf (loseReduction t o1.grid) = opOf t := funext (opOf_of_ops (congrArg State.ops hlose :))
      have hself : opOf a x.2.1 = some { o1 with elems := o1.elems.set x.2.2 { e with st := .done } } := by
        rw [ha]
        exact opOf_setElem (by rw [hops]; exact hx) hid
      rw [← ha]
      refine ⟨⟨(settleOp_mem a o1.id).trans ?_, (congrArg State.mgmtBase hrest :).trans ?_, fun n o ho => ?_⟩, fun n hn => hlost n (hn.loseReduction _), fun o ho hk => ?_⟩
      · rw [ha]
        exact (congrArg State.mem hlose :).trans h.mem
      · rw [ha]
        exact (congrArg State.mgmtBase hlose :).trans h.base
      · rcases h.ops n o ho with ⟨o', ho', hg', hlen'⟩ | hl
        · by_cases hn : n = x.2.1
          · subst hn
            obtain rfl := Option.some.inj (hx.symm.trans ho')
            exact .inr (hg' ▸ hlost _ (lost_loseReduction t o1.grid))
          · refine .inl ⟨o', ?_, hg', hlen'⟩
            rw [opOf_settleOp_other (by rw [hid]; exact hn), ha]
            refine (opOf_setElem_other (o := o1) (by rw [hid]; exact hn)).trans ?_
            exact (opOf_of_ops (congrArg State.ops hlose :) n).trans ho'
        · exact .inr (hlost _ (hl.loseReduction _))
      · rcases h.ops _ o ho with ⟨o', ho', hg', -⟩ | hl
        · obtain rfl := Option.some.inj (hx.symm.trans ho')
          exact hg' ▸ hlost _ (lost_loseReduction t o1.grid)
        · exact hlost _ (hl.loseReduction _)

theorem dropElems_spec {s : State} (xs : List (Nat × Nat × Nat)) : ∀ {t : State}, Dropping s t →
    Dropping s (xs.foldl dropElem t) ∧ (∀ n, Lost t n → Lost (xs.foldl dropElem t) n) ∧
      ∀ x ∈ xs, ∀ o, opOf s x.2.1 = some o → x.2.2 < o.elems.length → Lost (xs.foldl dropElem t) o.grid := by
  induction xs with
  | nil => exact fun h => ⟨h, fun _ hn => hn, fun x hx => absurd hx (by simp)⟩
  | cons x xs ih =>
    intro t h
    obtain ⟨h1, h2, h3⟩ := dropElem_spec h x
    obtain ⟨k1, k2, k3⟩ := ih h1
    refine ⟨k1, fun n hn => k2 n (h2 n hn), fun y hy o ho hk => ?_⟩
    rcases List.mem_cons.mp hy with rfl | hy
    · exact k2 _ (h3 o ho hk)
    · exact k3 y hy o ho hk

/-! ## Fault records (R240) -/

section
variable {s : State} {r : DWord} (hok : MemOk s)
include hok

theorem commanded_repaired_none (hm : mgmtNext s = some (.faultRepaired r)) (hr : recAt s r = none) : Commanded (.faultRepaired r) s s 1 := by
  have hexec : exec (.faultRepaired r) s = execFaultRepaired r s := rfl
  rw [execFaultRepaired, hr] at hexec
  exact commanded_rejected hm hok hexec rfl

theorem commanded_unrepairable_none (hm : mgmtNext s = some (.faultUnrepairable r)) (hr : recAt s r = none) :
    Commanded (.faultUnrepairable r) s s 1 := by
  have hexec : exec (.faultUnrepairable r) s = execFaultUnrepairable r s := rfl
  rw [execFaultUnrepairable, hr] at hexec
  exact commanded_rejected hm hok hexec rfl

variable {x : DriverRec} (hr : recAt s r = some x)
include hr

theorem commanded_repaired_copy (hm : mgmtNext s = some (.faultRepaired r)) {cid : Nat} (hl : x.link = .copy cid) :
    Commanded (.faultRepaired r) s { s with copies := s.copies.map fun c => if c.cid = cid then { c with stopped := false } else c } 0 := by
  have hexec : exec (.faultRepaired r) s = execFaultRepaired r s := rfl
  rw [execFaultRepaired, hr] at hexec
  dsimp only at hexec
  rw [hl] at hexec
  exact commanded_ok hm hexec rfl rfl hok

theorem commanded_repaired_group (hm : mgmtNext s = some (.faultRepaired r)) {gid : Nat} (hl : x.link = .group gid) :
    Commanded (.faultRepaired r) s s 0 := by
  have hexec : exec (.faultRepaired r) s = execFaultRepaired r s := rfl
  rw [execFaultRepaired, hr] at hexec
  dsimp only at hexec
  rw [hl] at hexec
  exact commanded_ok hm hexec rfl rfl hok

theorem commanded_unrepairable_idle (hm : mgmtNext s = some (.faultUnrepairable r)) (hl : (∃ cid, x.link = .copy cid) ∨ ∃ gid, x.link = .group gid) :
    Commanded (.faultUnrepairable r) s s 0 := by
  have hexec : exec (.faultUnrepairable r) s = execFaultUnrepairable r s := rfl
  rw [execFaultUnrepairable, hr] at hexec
  dsimp only at hexec
  rcases hl with ⟨n, hl⟩ | ⟨n, hl⟩ <;> rw [hl] at hexec <;> exact commanded_ok hm hexec rfl rfl hok

variable {gid die page : Nat} (hl : x.link = .sluice gid die page)
include hl

theorem commanded_repaired_sluice (hm : mgmtNext s = some (.faultRepaired r)) :
    Commanded (.faultRepaired r) s (wakeAll (replayParked s x.ctx gid page)) 0 := by
  have hexec : exec (.faultRepaired r) s = execFaultRepaired r s := rfl
  rw [execFaultRepaired, hr] at hexec
  dsimp only at hexec
  rw [hl] at hexec
  refine commanded_ok hm hexec rfl ?_ (kept_wakeAll closed_memOk (kept_replayParked closed_memOk _ _ _ hok))
  exact kept_wakeAll (closed_mgmtBase _) (kept_replayParked (closed_mgmtBase _) _ _ _ rfl)

theorem commanded_unrepairable_sluice (hm : mgmtNext s = some (.faultUnrepairable r)) :
    ∃ s1, Commanded (.faultUnrepairable r) s s1 0 ∧ s1.mem = s.mem ∧
      ∀ (o : Op) (e : Elem), opOf s o.id = some o → e ∈ o.elems → o.ctx = x.ctx → e.isParked = true → e.page = page →
        (o.gid = gid ∨ ∃ (o' : Op) (e' : Elem), opOf s o'.id = some o' ∧ e' ∈ o'.elems ∧ o'.ctx = x.ctx ∧ o'.gid = gid ∧
          e'.isParked = true ∧ e'.page = page ∧ e'.seq < e.seq ∧ parksBehind o o' = true) →
        ∀ g, gridOf s1 o.grid = some g → g.lost = true := by
  have hexec : exec (.faultUnrepairable r) s = execFaultUnrepairable r s := rfl
  rw [execFaultUnrepairable, hr] at hexec
  dsimp only at hexec
  rw [hl] at hexec
  obtain ⟨h1, -, h3⟩ := dropElems_spec (parkedAt s x.ctx gid page) (s := s) (t := s)
    ⟨rfl, rfl, fun n o ho => .inl ⟨o, ho, rfl, rfl⟩⟩
  rw [← dropParked_eq] at h1 h3
  have hsame := wakeAll_same (dropParked s x.ctx gid page)
  have hmem := hsame.keeps.1.trans h1.mem
  refine ⟨_, commanded_ok hm hexec rfl ((congrArg State.mgmtBase hsame :).trans h1.base) (by rw [MemOk, hmem]; exact hok), hmem,
    fun o e ho he hc hp hpage hheld g hg => ?_⟩
  obtain ⟨k, hk, hin⟩ := mem_parkedAt ho he hc hp hpage hheld
  obtain ⟨-, -, -, -, hgrids, -⟩ := hsame.keeps
  rw [gridOf, hgrids] at hg
  exact h3 _ hin o ho hk g hg

end

/-- Settles O54: each command ends as its own lemma says, by the effect that the model gives it when it is the next of the ring. -/
theorem management : Obligations.Management := by
  unfold Obligations.Management
  intro s hok
  refine ⟨fun i => mgmtNext_record, fun x => exec_mgmt_other, fun hm => commanded_rejected hm hok (d := .rejected) rfl rfl,
    fun num block hm => ⟨does_createContext hok hm, createContext_spec ..⟩, fun num c hm hh => ?_,
    fun q base slots ctx age hm k hk hk0 => ⟨does_registerQueue hok hm hk hk0, registerQueue_spec hok rfl⟩, fun q hm => commanded_releaseQueue hok hm,
    fun die hm => ⟨commanded_quiesce_dark hok hm, fun d hd hb => ⟨_, exec_quiesceDie hm hd hb, beginQuiesce_spec ..⟩⟩,
    fun r => ⟨commanded_repaired_none hok, commanded_unrepairable_none hok, fun x hr => ⟨fun cid hl => ?_, fun g hl => ?_, fun gid die page hl => ?_⟩⟩,
    fun ctx list c hm hh => does_setBreakpoints hok hm hh, fun ctx g buf c hm hh => commanded_contextRead hok hm hh,
    fun n list len limit hm => does_reductionGroup hok hm, fun core unit src hm => does_captureSet hok hm,
    fun core unit buf hm => commanded_captureRead hok hm, fun w hm => does_powerCap hok hm, fun nonce rep hm => commanded_attest hok hm,
    fun ctx hw lease c hm hh => does_contextSettings hok hm hh,
    fun r point hm => ⟨commanded_resume_other hok hm, fun gid hl g hg => ⟨commanded_resume_gone hok hm hl hg, fun d hn hd ht => ?_⟩⟩,
    fun ctx list count c hm hh => commanded_poolAdd hok hm hh, fun n i hno hm hi => commanded_noContext hok hno hm hi⟩
  · have hn := ctxOf_num hh.1
    have hc : ctxOf s c.num = some c := by rw [hn]; exact hh.1
    exact ⟨_, commanded_terminate hok hm hh, rfl, terminate_spec hc⟩
  · exact ⟨fun hm => commanded_repaired_copy hok hr hm hl, fun hm => commanded_unrepairable_idle hok hr hm (.inl ⟨_, hl⟩)⟩
  · exact ⟨fun hm => commanded_repaired_group hok hr hm hl, fun hm => commanded_unrepairable_idle hok hr hm (.inr ⟨_, hl⟩)⟩
  · refine ⟨fun hm => ⟨fun _ => commanded_repaired_sluice hok hr hl hm, ?_⟩, fun hm => commanded_unrepairable_sluice hok hr hl hm⟩
    exact fun o k e q c u pa s2 hp ho he hearly hc hw hk hsp hb hok2 => replayParked_wrote hp ho he hearly hc hw hk hsp hb hok2
  · have hrefused := fun h => commanded_resume_refused hok hm hl hg hn hd h
    have hgoes := fun (g' : Group) h => commanded_resume (g' := g') hok hm hl hg hn hd ht h
    refine ⟨fun hp => hrefused (resumeAt_past hp), fun hp hk => hrefused (by rw [hp]; exact resumeAt_one hk),
      fun hp hk => hrefused (by rw [hp]; exact resumeAt_two hk), fun p hs => ⟨fun hp hk => hgoes _ ?_, fun hp hk => hgoes _ ?_, fun hp hk => hgoes _ ?_⟩,
      fun hp hk hi => hgoes _ (by rw [hp]; exact resumeAt_here hk hi), fun sh p hp hk hi hs hps => ?_⟩
    · simp only [hp, resumeAt, hk, goOnSplit_eq hs]
      rfl
    · simp only [hp, resumeAt, hk, goOnSplit_eq hs]
      rfl
    · simp only [hp, resumeAt, hk, goOnSplit_eq hs]
      rfl
    · obtain ⟨p', hspec⟩ := goOnShadow_spec hps
      exact ⟨_, p', hgoes _ (by rw [hp]; exact resumeAt_shadow hk hi hs), hspec⟩

end Sys2Proof.Machine
end

section
/-!
SUPPORT. What every step keeps: the canonical form of memories, and the model's numbers (O59, O60). One predicate serves both; the
parts of a step that registers and memories are made of keep it, and so does the issue of an instruction.
-/
namespace Sys2Proof.Machine

/-! ## The predicate -/

/-- Memories are canonical, if `D`; the model's numbers are distinct, if `C`; the next free number is at least `n`. -/
structure Kept (C D : Prop) (n : Nat) (s : State) : Prop where
  low : n ≤ s.nextId
  mems : D → MemsOk s
  ids : C → IdsOk s

/-- The fields that the predicate bears on. -/
def watched (s : State) : List Host.Cell × List Host.Cell × List Team × List Handle × List Group × Nat :=
  (s.mem, s.remote, s.teams, s.handles, s.groups, s.nextId)

section
variable {C D : Prop} {n : Nat} {s t : State}

theorem Kept.of (h : Kept C D n s) (hm : t.mem = s.mem) (hr : t.remote = s.remote) (ht : t.teams = s.teams) (hh : t.handles = s.handles)
    (hg : t.groups = s.groups) (hn : s.nextId ≤ t.nextId) : Kept C D n t := by
  refine ⟨Nat.le_trans h.low hn, fun hd => ?_, fun hc => ?_⟩
  · rw [MemsOk, MemOk, SpadsOk, hm, hr, ht, hh]
    exact h.mems hd
  · obtain ⟨h1, h2, h3, h4⟩ := h.ids hc
    refine ⟨by rw [hg]; exact h1, fun g hgs => ?_, fun g hgs => ?_, fun g hgs => ?_⟩ <;> rw [hg] at hgs
    · exact Nat.lt_of_lt_of_le (h2 g hgs) hn
    · exact ⟨(h3 g hgs).1, fun p hp => Nat.lt_of_lt_of_le ((h3 g hgs).2 p hp) hn⟩
    · exact ⟨(h4 g hgs).1, fun p hp => Nat.lt_of_lt_of_le ((h4 g hgs).2 p hp) hn⟩

/-- A state that differs in nothing that the predicate bears on. -/
theorem Kept.same (h : Kept C D n s) (e : watched t = watched s) : Kept C D n t := by
  obtain ⟨hm, hr, ht, hh, hg, hn⟩ : t.mem = s.mem ∧ t.remote = s.remote ∧ t.teams = s.teams ∧ t.handles = s.handles ∧ t.groups = s.groups ∧
      t.nextId = s.nextId := by simpa [watched] using e
  exact h.of hm hr ht hh hg (Nat.le_of_eq hn.symm)

theorem Kept.names (h : Kept C D n s) (hc : C) : ∀ g ∈ s.groups, NamesOk s.nextId g := fun g hg =>
  have h := h.ids hc
  ⟨h.fresh g hg, h.splits g hg, h.regions g hg⟩

theorem Kept.withGroups (h : Kept C D n s) {G : List Group} (hG : C → (G.map Group.gid).Nodup ∧ ∀ g ∈ G, NamesOk s.nextId g) :
    Kept C D n { s with groups := G } :=
  ⟨h.low, h.mems, fun hc => ⟨(hG hc).1, fun g hg => ((hG hc).2 g hg).gid, fun g hg => ((hG hc).2 g hg).splits,
    fun g hg => ((hG hc).2 g hg).regions⟩⟩

theorem Kept.withMem (h : Kept C D n s) {m : List Host.Cell} (hm : memWf s.mem = true → memWf m = true) : Kept C D n { s with mem := m } :=
  ⟨h.low, fun hd => ⟨hm (h.mems hd).1, (h.mems hd).2⟩, fun hc => ⟨(h.ids hc).groups, (h.ids hc).fresh, (h.ids hc).splits, (h.ids hc).regions⟩⟩

theorem Kept.withRemote (h : Kept C D n s) {m : List Host.Cell} (hm : memWf s.remote = true → memWf m = true) :
    Kept C D n { s with remote := m } :=
  ⟨h.low, fun hd => ⟨(h.mems hd).1, hm (h.mems hd).2.1, (h.mems hd).2.2⟩,
    fun hc => ⟨(h.ids hc).groups, (h.ids hc).fresh, (h.ids hc).splits, (h.ids hc).regions⟩⟩

theorem Kept.withSpads (h : Kept C D n s) {T : List Team} {H : List Handle} (hs : SpadsOk s → SpadsOk { s with teams := T, handles := H }) :
    Kept C D n { s with teams := T, handles := H } :=
  ⟨h.low, fun hd => ⟨(h.mems hd).1, (h.mems hd).2.1, hs (h.mems hd).2.2⟩,
    fun hc => ⟨(h.ids hc).groups, (h.ids hc).fresh, (h.ids hc).splits, (h.ids hc).regions⟩⟩

theorem Kept.lower {m : Nat} (h : Kept C D n s) (hm : m ≤ n) : Kept C D m s := ⟨Nat.le_trans hm h.low, h.mems, h.ids⟩

/-- The state itself sets the bound. -/
theorem Kept.raise (h : Kept C D n s) : Kept C D s.nextId s := ⟨Nat.le_refl _, h.mems, h.ids⟩

end

theorem closed_kept {C D : Prop} {n : Nat} : Closed (Kept C D n) C n where
  low := fun _ h => h.low
  fine := fun _ hc h => h.names hc
  phys := fun _ pa bs h => Kept.same (h.withMem fun hm => memWf_writeBytes bs pa hm) rfl
  rest := fun _ _ hm hr ht hh hg _ _ _ hn h => h.of hm hr ht hh hg hn
  groups := fun _ _ hsub hG h => h.withGroups fun hc => ⟨(h.ids hc).groups.sublist hsub, hG hc⟩
  spads := fun _ _ _ hs h => h.withSpads hs

section
variable {C D : Prop} {n : Nat} {s : State}

/-! ## Numbers, groups, teams, handles -/

theorem keeps_fresh (h : Kept C D n s) : Kept C D n (fresh s).2 := h.of rfl rfl rfl rfl rfl (Nat.le_succ _)

theorem keeps_ite {p : Prop} [Decidable p] {a b : State} (ha : Kept C D n a) (hb : Kept C D n b) : Kept C D n (if p then a else b) := by
  split
  · exact ha
  · exact hb

theorem keeps_choose (k : Nat) (h : Kept C D n s) : Kept C D n (choose s k).2 := h.same rfl

theorem keeps_setGroup {g : Group} (hg : C → NamesOk n g) (h : Kept C D n s) : Kept C D n (setGroup s g) :=
  kept_setGroup closed_kept (fun hc => (hg hc).mono h.low) h

/-- A new group, whose numbers are below the next free one and whose own is no other group's. -/
theorem keeps_addGroup {g : Group} (hg : C → NamesOk s.nextId g) (hnew : C → ∀ x ∈ s.groups, x.gid ≠ g.gid) (h : Kept C D n s) :
    Kept C D n { s with groups := s.groups ++ [g] } := by
  refine h.withGroups fun hc => ⟨?_, fun x hx => ?_⟩
  · rw [List.map_append, List.nodup_append]
    refine ⟨(h.ids hc).groups, List.nodup_singleton _, fun a ha b hb e => ?_⟩
    obtain ⟨x, hx, rfl⟩ := List.mem_map.mp ha
    exact hnew hc x hx (e.trans (List.mem_singleton.mp hb))
  · rcases List.mem_append.mp hx with hx | hx
    · exact h.names hc x hx
    · exact List.mem_singleton.mp hx ▸ hg hc

theorem keeps_mapTeams {f : Team → Team} (hf : ∀ t, memWf t.spad = true → memWf (f t).spad = true) (h : Kept C D n s) :
    Kept C D n { s with teams := s.teams.map f } := by
  refine Kept.same (h.withSpads (T := s.teams.map f) (H := s.handles) fun hs => ⟨fun t ht => ?_, hs.2⟩) rfl
  obtain ⟨x, hx, rfl⟩ := List.mem_map.mp ht
  exact hf x (hs.1 x hx)

theorem keeps_filterTeams (p : Team → Bool) (h : Kept C D n s) : Kept C D n { s with teams := s.teams.filter p } :=
  Kept.same (h.withSpads (T := s.teams.filter p) (H := s.handles) fun hs => ⟨fun t ht => hs.1 t (List.mem_of_mem_filter ht), hs.2⟩) rfl

theorem keeps_addTeam {t : Team} (ht : memWf t.spad = true) (h : Kept C D n s) : Kept C D n { s with teams := s.teams ++ [t] } := by
  refine Kept.same (h.withSpads (T := s.teams ++ [t]) (H := s.handles) fun hs => ⟨fun x hx => ?_, hs.2⟩) rfl
  rcases List.mem_append.mp hx with hx | hx
  · exact hs.1 x hx
  · exact List.mem_singleton.mp hx ▸ ht

theorem keeps_mapHandles {f : Handle → Handle} (hf : ∀ t, memWf t.bytes = true → memWf (f t).bytes = true) (h : Kept C D n s) :
    Kept C D n { s with handles := s.handles.map f } := kept_handles closed_kept hf h

theorem keeps_filterHandles (p : Handle → Bool) (h : Kept C D n s) : Kept C D n { s with handles := s.handles.filter p } :=
  Kept.same (h.withSpads (T := s.teams) (H := s.handles.filter p) fun hs => ⟨hs.1, fun x hx => hs.2 x (List.mem_of_mem_filter hx)⟩) rfl

theorem keeps_updTeam (tid : Nat) {f : Team → Team} (hf : ∀ t, (f t).spad = t.spad) (h : Kept C D n s) : Kept C D n (updTeam s tid f) :=
  kept_updTeam closed_kept tid (fun t ht => by rw [hf]; exact ht) h

theorem keeps_setGrid (g : Grid) (h : Kept C D n s) : Kept C D n (setGrid s g) := h.same rfl

theorem keeps_setQueue (q : Queue) (h : Kept C D n s) : Kept C D n (setQueue s q) := h.same rfl

theorem keeps_updGrid (uid : Nat) (f : Grid → Grid) (h : Kept C D n s) : Kept C D n (updGrid s uid f) := by
  unfold updGrid
  split
  · exact h.same rfl
  · exact h

theorem keeps_updGroup (k : Nat) {f : Group → Group} (hf : ∀ g, NamesOf g (f g)) (h : Kept C D n s) : Kept C D n (updGroup s k f) :=
  kept_updGroup closed_kept k hf h

theorem keeps_updSplit (k sid : Nat) (f : Split → Split) (h : Kept C D n s) : Kept C D n (updSplit s k sid f) :=
  kept_updSplit closed_kept k sid f h

/-- A group that is found has numbers below the next free one. -/
theorem Kept.found {k : Nat} {g : Group} (h : Kept C D n s) (hg : groupOf s k = some g) (hc : C) : NamesOk s.nextId g :=
  kept_fine closed_kept h hg hc

theorem keeps_setGroup_of {k : Nat} {g g' : Group} (h : Kept C D n s) (hg : groupOf s k = some g) (hs : NamesOf g g') :
    Kept C D n (setGroup s g') := kept_setGroup_of closed_kept hg hs h

theorem namesOf_setSplit_of {g g0 : Group} (h : NamesOf g g0) (p : Split) : NamesOf g (setSplit g0 p) := h.trans (namesOf_setSplit g0 p)

/-! ## Traps -/

theorem keeps_halted {g : Group} (hg : C → NamesOk s.nextId g) (h : Kept C D n s) (sid : Nat) (kind : HaltKind) (r : TrapRec) :
    Kept C D n (haltForDriver s g sid kind r) := by
  have h1 : Kept C D n (setGroup s { g with
      driver := some { kind, body := r, sid, addr := none }, splits := g.splits.map Split.holdSweep,
      savedRing := if kind = .breakpoint true then g.savedRing else chainRing s g }) := by
    refine kept_setGroup closed_kept (fun hc => (hg hc).of (.trans (namesOf_mapSplits g Split.holdSweep fun p => ?_) ⟨rfl, .refl _, .refl _⟩)) h
    unfold Split.holdSweep
    split <;> rfl
  exact keeps_ite (keeps_updTeam _ (fun _ => rfl) h1) (kept_report closed_kept _ h1)

theorem keeps_enterHandler {g : Group} (hg : C → NamesOk s.nextId g) (h : Kept C D n s) (p : Split) (r : TrapRec)
    (faults : List (Nat × DWord × Nat)) (handler : DWord) : Kept C D n (enterHandler s g p r faults handler) := by
  refine kept_setGroup closed_kept (fun hc => (hg hc).of ?_) h
  refine namesOf_setSplit_of ?_ _
  exact ⟨rfl, .refl _, .refl _⟩

theorem keeps_takeTrap (h : Kept C D n s) (gid sid : Nat) (t : TrapReq) : Kept C D n (takeTrap s gid sid t) := by
  unfold takeTrap
  split
  · exact h
  next g0 hg0 =>
    split
    · exact h
    next p0 _ =>
      dsimp only
      have hg := fun hc => (h.found hg0 hc).of (namesOf_setSplit g0 { p0.stopSweep t with awaiting := none, syncWait := none, syncOk := false })
      generalize setSplit g0 { p0.stopSweep t with awaiting := none, syncWait := none, syncOk := false } = g at hg
      refine keeps_ite (keeps_halted hg h ..) (keeps_ite (keeps_halted hg h ..) (keeps_ite (keeps_halted hg h ..) (keeps_ite ?_ (keeps_enterHandler hg h ..))))
      refine keeps_halted ?_ h _ _ _
      exact fun hc => (hg hc).of ⟨rfl, .refl _, .refl _⟩

theorem keeps_returnFromHandler {g : Group} (hg : C → NamesOk n g) (h : Kept C D n s) (sh : Shadow) :
    Kept C D n (returnFromHandler s g sh) := by
  unfold returnFromHandler
  split
  · exact h
  · refine keeps_setGroup (fun hc => (hg hc).of ?_) (kept_setRing closed_kept _ _ _ h)
    refine namesOf_setSplit_of ?_ _
    exact ⟨rfl, .refl _, .refl _⟩

/-! ## Issue -/

/-- What an instruction's effect leaves is kept. -/
def KeptEff (C D : Prop) (n : Nat) : Eff → Prop
  | .done s => Kept C D n s
  | .jump s => Kept C D n s
  | .trap s _ => Kept C D n s
  | .wait s => Kept C D n s

/-- What an instruction is issued from is kept, and its group's numbers are below `n`. -/
structure KeptIss (C D : Prop) (n : Nat) (u : Iss) : Prop where
  state : Kept C D n u.s
  group : C → NamesOk n u.g

/-- What an instruction or a step of the device leaves is kept. -/
def KeptOut (C D : Prop) (o : Host.Outcome State Fault Refusal) : Prop := ∀ t, o = .next t → Kept C D 0 t

theorem KeptOut.next (h : Kept C D n s) : KeptOut C D (.next s) := fun _ e => Host.Outcome.next.inj e ▸ h.lower (Nat.zero_le _)

theorem keeps_retire {u : Iss} (h : Kept C D n s) (next : Bool) : Kept C D n (retire s u next) := by
  refine keeps_updGroup _ (fun g => ?_) (keeps_updSplit _ _ _ (keeps_updGroup _ (fun g => ⟨rfl, .refl _, .refl _⟩) h))
  unfold chainBp
  split
  · split
    · exact .refl g
    · exact ⟨rfl, .refl _, .refl _⟩
  · exact .refl g

theorem keeps_commit {u : Iss} {e : Eff} (h : KeptEff C D n e) : Kept C D n (commit u e) := by
  cases e with
  | done s => exact keeps_retire h true
  | jump s => exact keeps_retire h false
  | trap s t => exact keeps_takeTrap h _ _ _
  | wait s => exact h

theorem keeps_issuer {i : Instr} {u : Iss} (h : Kept C D n s) (hu : issuer s i = some u) : KeptIss C D s.nextId u := by
  unfold issuer at hu
  split at hu
  · exact absurd hu (by simp)
  split at hu
  · exact absurd hu (by simp)
  next g hg =>
    split at hu
    · obtain rfl := Option.some.inj hu
      exact ⟨h.raise, fun hc => h.found hg hc⟩
    · exact absurd hu (by simp)

section
variable {u : Iss}

theorem KeptIss.setGroup (hu : KeptIss C D n u) {t : State} (ht : Kept C D n t) {g : Group} (hg : NamesOf u.g g) :
    Kept C D n (Sys2Proof.Machine.setGroup t g) := keeps_setGroup (fun hc => (hu.group hc).of hg) ht

/-- A trap that leaves the state as it stands at issue. -/
theorem KeptIss.trap (hu : KeptIss C D n u) (t : TrapReq) : KeptEff C D n (.trap u.s t) := hu.state

theorem keepsEff_illegal (hu : KeptIss C D n u) (c : Cause) : KeptEff C D n (illegal u c) := hu.state

theorem keepsEff_operandIllegal (hu : KeptIss C D n u) : KeptEff C D n (operandIllegal u) := hu.state

theorem keepsEff_ite {p : Prop} [Decidable p] {a b : Eff} (ha : KeptEff C D n a) (hb : KeptEff C D n b) : KeptEff C D n (if p then a else b) := by
  split
  · exact ha
  · exact hb

theorem keepsEff_firstTrap (hu : KeptIss C D n u) {e : Eff} (he : firstTrap u = some e) : KeptEff C D n e := by
  unfold firstTrap at he
  repeat' split at he
  all_goals first | exact Option.some.inj he ▸ hu.state | exact nomatch he

theorem keepsEff_badLoadTrap (hu : KeptIss C D n u) {e : Eff} (he : badLoadTrap u = some e) : KeptEff C D n e := by
  unfold badLoadTrap at he
  dsimp only at he
  split at he
  · exact absurd he (by simp)
  · obtain rfl := Option.some.inj he
    exact hu.setGroup hu.state ⟨rfl, .refl _, .refl _⟩

theorem keepsEff_earlyTrap (hu : KeptIss C D n u) {e : Eff} (he : earlyTrap u = some e) : KeptEff C D n e := by
  unfold earlyTrap at he
  split at he
  · rcases Option.or_eq_some_iff.mp he with he | ⟨-, he⟩
    · exact keepsEff_badLoadTrap hu he
    · exact keepsEff_firstTrap hu he
  · exact keepsEff_firstTrap hu he

end

/-- An instruction whose own effect keeps it. -/
theorem keeps_runInstr (h : Kept C D n s) {i : Instr} {body : Iss → Eff} (hb : ∀ m u, KeptIss C D m u → KeptEff C D m (body u)) :
    KeptOut C D (runInstr i body s) := by
  unfold runInstr
  cases hi : issuer s i with
  | none => exact fun t e => nomatch e
  | some u =>
    have hu := keeps_issuer h hi
    refine .next (n := s.nextId) (keeps_commit ?_)
    split
    next e he => exact keepsEff_earlyTrap hu he
    refine keepsEff_ite ?_ ?_
    · exact keeps_ite (keeps_updSplit _ _ _ hu.state) hu.state
    · split
      next e he => exact keepsEff_badLoadTrap hu he
      next => exact keepsEff_ite hu.state (keepsEff_ite (keeps_updSplit _ _ _ hu.state) (hb _ u hu))

/-! ## Results of a lane instruction -/

section
variable {u : Iss} (hu : KeptIss C D n u)
include hu

theorem keepsEff_slotTrap {k : Nat} {e : Eff} (he : slotTrap u k = some e) : KeptEff C D n e := by
  unfold slotTrap at he
  split at he
  · exact nomatch he
  · split at he
    · exact Option.some.inj he ▸ hu.state
    next sl _ =>
      split at he
      · exact Option.some.inj he ▸ hu.setGroup hu.state ⟨rfl, .refl _, .refl _⟩
      · split at he
        · exact Option.some.inj he ▸ hu.state
        · exact Option.some.inj he ▸ hu.state
        · exact nomatch he

theorem keepsEff_mapTrap {xs : List Src} {e : Eff} (he : mapTrap u xs = some e) : KeptEff C D n e := by
  unfold mapTrap at he
  split at he
  next e' he' =>
    obtain rfl := Option.some.inj he
    obtain ⟨x, -, hx⟩ := List.exists_of_findSome?_eq_some he'
    exact keepsEff_slotTrap hu hx
  next =>
    obtain ⟨x, -, hx⟩ := List.exists_of_findSome?_eq_some he
    split at hx
    · exact nomatch hx
    · split at hx
      · exact Option.some.inj hx ▸ hu.state
      · split at hx
        · exact nomatch hx
        · exact Option.some.inj hx ▸ hu.state

end

theorem namesOf_writeRegs (g : Group) (d : Opnd) (wide : Bool) (m : Lanes) (lo hi : Nat → Word) :
    NamesOf g (if wide then writeReg (writeReg g d m lo) (opPlus d 1) m hi else writeReg g d m lo) := by
  split
  · exact (namesOf_writeReg g d m lo).trans (namesOf_writeReg _ _ _ _)
  · exact namesOf_writeReg g d m lo

theorem keeps_pushRing (h : Kept C D n s) (g : Group) (p : Split) (v : LaneVec) : Kept C D n (pushRing s g p v) := h.same rfl

theorem keeps_writeVector {g : Group} (hg : C → NamesOk n g) (h : Kept C D n s) (p : Split) (d : Opnd) (wbs wide ring : Bool) (m : Lanes)
    (new : Nat → Nat) : Kept C D n (writeVector s g p d wbs wide ring m new) := by
  have h1 := keeps_setGroup (fun hc => (hg hc).of (namesOf_writeRegs g d wide m (fun l => BitVec.ofNat 32 (new l))
    fun l => BitVec.ofNat 32 (new l / 2 ^ 32))) h
  unfold writeVector
  exact keeps_ite h1 (keeps_ite (keeps_pushRing (keeps_pushRing h1 ..) ..) (keeps_pushRing h1 ..))

section
variable {u : Iss} (hu : KeptIss C D n u)
include hu

theorem KeptIss.writeVector {g : Group} (hg : NamesOf u.g g) {t : State} (ht : Kept C D n t) (p : Split) (d : Opnd) (wbs wide ring : Bool)
    (m : Lanes) (new : Nat → Nat) : Kept C D n (Sys2Proof.Machine.writeVector t g p d wbs wide ring m new) :=
  keeps_writeVector (fun hc => (hu.group hc).of hg) ht ..

theorem keepsEff_finishLanes (h : Hdr) (d : Opnd) (wide : Bool) (os : List Opnd) (smask : Option Lanes) (act : Lanes) (out : List LaneOut) :
    KeptEff C D n (finishLanes u h d wide os smask act out) := by
  unfold finishLanes
  dsimp only
  split
  · exact hu.state
  · have hg : ∀ rs fl, NamesOf u.g (raiseFlags (putCtrs u.g rs) fl) := fun _ _ => ⟨rfl, .refl _, .refl _⟩
    exact keepsEff_ite (hu.setGroup hu.state ((hg _ _).trans (namesOf_writeScalarNat _ _ _ _))) (hu.writeVector (hg _ _) hu.state ..)

theorem keepsEff_runSet (h : Hdr) (d : Opnd) (wide : Bool) (xs : List Src) (imm : Word) (legal : Bool) (smask : Lanes)
    (f : REnv → List RSrc → List Nat → List LaneOut) : KeptEff C D n (runSet u h d wide xs imm legal smask f) := by
  unfold runSet
  refine keepsEff_ite hu.state ?_
  split
  next e he => exact keepsEff_mapTrap hu he
  next => exact keepsEff_ite hu.state (keepsEff_finishLanes hu ..)

theorem keepsEff_runLanes (h : Hdr) (d : Opnd) (wide : Bool) (xs : List Src) (imm : Word) (legal : Bool)
    (f : REnv → List RSrc → Nat → Lane → Nat × Lane) : KeptEff C D n (runLanes u h d wide xs imm legal f) :=
  keepsEff_runSet hu ..

theorem keepsEff_runCross (h : Hdr) (d : Opnd) (wide : Bool) (xs : List Src) (imm : Word) (legal : Bool)
    (f : REnv → List RSrc → List Nat → List LaneOut) : KeptEff C D n (runCross u h d wide xs imm legal f) := by
  unfold runCross
  refine keepsEff_ite hu.state ?_
  split
  next e he => exact keepsEff_mapTrap hu he
  next => exact keepsEff_finishLanes hu ..

theorem keepsEff_unlessEmpty {e : Eff} (he : KeptEff C D n e) : KeptEff C D n (unlessEmpty u e) := keepsEff_ite hu.state he

end

/-! ## Addresses -/

/-- What a check that may stop an instruction leaves is kept. -/
def KeptTry {α : Type} (C D : Prop) (n : Nat) : Except Eff (State × α) → Prop
  | .error e => KeptEff C D n e
  | .ok r => Kept C D n r.1

theorem keepsEff_laneTrap (h : Kept C D n s) (c : Cause) (ls : List Nat) (a b : Nat → DWord) (f : Nat → Nat) :
    KeptEff C D n (laneTrap s c ls a b f) := h

theorem keepsEff_pageTrap (h : Kept C D n s) (fs : List (Nat × PageFault)) : KeptEff C D n (pageTrap s fs) := h

section
variable {u : Iss} (hu : KeptIss C D n u)
include hu

theorem keepsEff_addrTrap {sp : Space} {ls : List Nat} {ea : Nat → DWord} {align span : Nat} {e : Eff}
    (he : addrTrap u sp ls ea align span = some e) : KeptEff C D n e := by
  unfold addrTrap at he
  dsimp only at he
  split at he
  · exact Option.some.inj he ▸ hu.state
  · cases sp with
    | global => exact nomatch he
    | scratch =>
      dsimp only at he
      split at he
      · exact Option.some.inj he ▸ hu.state
      · split at he
        · exact Option.some.inj he ▸ hu.state
        · exact nomatch he
    | priv =>
      dsimp only at he
      split at he
      · exact Option.some.inj he ▸ hu.state
      · exact nomatch he

theorem keeps_translateLanes (h : Kept C D n s) (a : Access) (ls : List Nat) (va : Nat → DWord) : Kept C D n (translateLanes s u a ls va).1 := by
  have key : ∀ (ls : List Nat) (acc : State × List (Nat × Nat) × List (Nat × PageFault) × List PageLook), Kept C D n acc.1 →
      Kept C D n (ls.foldl (fun acc l =>
    let page := (va l).toNat / 0x1_0000
    let (r, s', looks) : Except PageFault Nat × State × List PageLook :=
      match acc.2.2.2.find? (·.1 == page) with
      | some x => (byLook x.2 (va l), acc.1, acc.2.2.2)
      | none =>
        match translate acc.1 u.g.core u.ctx (va l) a u.g.inHandler with
        | (.ok pa, s') => (.ok pa, s', (page, .ok (pa - (va l).toNat % 0x1_0000)) :: acc.2.2.2)
        | (.error e, s') => (.error e, s', (page, .error e) :: acc.2.2.2)
    match r with
    | .ok pa => (s', acc.2.1 ++ [(l, pa)], acc.2.2.1, looks)
    | .error e => (s', acc.2.1, acc.2.2.1 ++ [(l, e)], looks)) acc).1 := by
    intro ls
    induction ls with
    | nil => exact fun acc h => h
    | cons l ls ih =>
      intro acc h
      refine ih _ ?_
      have ht := kept_translate closed_kept u.g.core u.ctx (va l) a u.g.inHandler h
      dsimp only
      cases acc.2.2.2.find? (·.1 == (va l).toNat / 0x1_0000) with
      | some x =>
        dsimp only
        split
        · exact h
        · exact h
      | none =>
        dsimp only
        generalize translate acc.1 u.g.core u.ctx (va l) a u.g.inHandler = r at ht
        obtain ⟨r, s'⟩ := r
        cases r with
        | ok pa => exact ht
        | error e => exact ht
  exact key ls (s, [], [], []) h

theorem keepsTry_accessLanes (sp : Space) (a : Access) (ls : List Nat) (ea : Nat → DWord) (align span : Nat) :
    KeptTry C D n (accessLanes u sp a ls ea align span) := by
  unfold accessLanes
  split
  next e he => exact keepsEff_addrTrap hu he
  next =>
    have ht := keeps_translateLanes hu hu.state a ls fun l => accessVA u sp (ea l)
    cases sp with
    | scratch => exact hu.state
    | global =>
      dsimp only
      split
      · exact ht
      · exact ht
    | priv =>
      dsimp only
      split
      · exact ht
      · exact ht

end

end

end Sys2Proof.Machine
end

section
/-!
SUPPORT. Loads, stores, atomics and map slots keep the canonical form of memories and the model's numbers (O59, O60).
-/
namespace Sys2Proof.Machine

section
variable {C D : Prop} {n : Nat} {s : State}

/-! ## Results that a match takes apart -/

theorem KeptTry.error {α : Type} {r : Except Eff (State × α)} {e : Eff} (h : KeptTry C D n r) (he : r = .error e) : KeptEff C D n e := by
  rw [he] at h
  exact h

theorem keepsTry_error {α : Type} {e : Eff} (h : KeptEff C D n e) : KeptTry (α := α) C D n (.error e) := h

theorem KeptTry.ok {α : Type} {r : Except Eff (State × α)} {x : α} (h : KeptTry C D n r) (he : r = .ok (s, x)) : Kept C D n s := by
  rw [he] at h
  exact h

theorem Kept.fst {α : Type} {r : State × α} {x : α} (h : Kept C D n r.1) (he : r = (s, x)) : Kept C D n s := by
  rw [he] at h
  exact h

theorem Kept.snd {α : Type} {r : α × State} {x : α} (h : Kept C D n r.2) (he : r = (x, s)) : Kept C D n s := by
  rw [he] at h
  exact h

theorem keeps_map {α β : Type} {r : Except Eff (State × α)} {f : State × α → State × β} (hf : ∀ x, (f x).1 = x.1) (h : KeptTry C D n r) :
    KeptTry C D n (r.map f) := by
  cases r with
  | error e => exact h
  | ok x =>
    show Kept C D n (f x).1
    rw [hf]
    exact h

/-! ## Operations in flight -/

theorem keeps_addOp (h : Kept C D n s) (u : Iss) (kind : OpKind) (acq rel : Bool) (scope : Scope) (cls : Option EngClass) (es : List Elem) :
    Kept C D n (addOp u s kind acq rel scope cls es) := by
  have h1 : Kept C D n { (mkOp u s kind acq rel scope es).2 with
      ops := (mkOp u s kind acq rel scope es).2.ops ++ [(mkOp u s kind acq rel scope es).1] } := (keeps_fresh h).same rfl
  cases cls with
  | none => exact h1
  | some c => exact keeps_updGroup _ (fun _ => ⟨rfl, .refl _, .refl _⟩) h1

theorem keeps_bufferOp {u : Iss} (hu : KeptIss C D n u) (kind : OpKind) (rel : Bool) (sc : Scope) (es : List Elem) :
    Kept C D n (bufferOp u kind rel sc es) := by
  have h1 : Kept C D n (mkOp u u.s kind false rel sc es).2 := keeps_fresh hu.state
  unfold bufferOp
  dsimp only
  refine keeps_updGrid _ _ ?_
  cases kind
  case rmw => exact keeps_updGroup _ (fun _ => ⟨rfl, .refl _, .refl _⟩) h1
  all_goals exact h1

section
variable {u : Iss} (hu : KeptIss C D n u)
include hu

theorem keepsEff_onceTrap {e : Eff} (he : KeptEff C D n e) : KeptEff C D n (onceTrap u e) := by
  cases e <;> exact he

theorem keepsEff_runTrap {r : Run} {k : Nat} {e : Eff} (he : runTrap u r k = some e) : KeptEff C D n e := by
  unfold runTrap at he
  dsimp only at he
  split at he
  · exact Option.some.inj he ▸ hu.state
  · split at he
    · exact Option.some.inj he ▸ hu.state
    · split at he
      · exact Option.some.inj he ▸ hu.state
      · exact nomatch he

theorem keepsTry_placesOf (f : MFmt) (a : Access) (shape size : Nat) (once : Bool) (lanes : List Nat) :
    KeptTry C D n (placesOf u f a shape size once lanes) := by
  unfold placesOf
  split
  · have ht := keepsTry_accessLanes hu (spaceOf f.space) a lanes (effAddr u f) size size
    split
    next e he =>
      have := ht.error he
      cases once
      · exact this
      · exact keepsEff_onceTrap hu this
    next r he =>
      rw [he] at ht
      exact ht
  · dsimp only
    split
    next e he => exact keepsEff_runTrap hu he
    next => exact hu.state

theorem keepsEff_loadBody (w : Width) (f : MFmt) (shape : Nat) (spaces : List (BitVec 4)) : KeptEff C D n (loadBody u w f shape spaces) := by
  unfold loadBody
  refine keepsEff_ite hu.state ?_
  split
  next e he => exact (keepsTry_placesOf hu ..).error he
  next s ps he =>
    have hs := (keepsTry_placesOf hu ..).ok he
    exact keepsEff_ite hs (keepsEff_ite hu.state (keeps_addOp hs ..))

theorem keepsEff_storeBody (w : Width) (f : MFmt) (shape : Nat) (spaces : List (BitVec 4)) : KeptEff C D n (storeBody u w f shape spaces) := by
  unfold storeBody
  refine keepsEff_ite hu.state ?_
  split
  next e he => exact (keepsTry_placesOf hu ..).error he
  next s ps he =>
    have hs := (keepsTry_placesOf hu ..).ok he
    exact keepsEff_ite hs (keepsEff_ite hu.state (keeps_addOp hs ..))

theorem keeps_prefLines (f : MFmt) (lanes : List Nat) : Kept C D n (prefLines u f lanes).1 := by
  refine kept_foldl_keys closed_kept (fun r l hr => ?_) lanes hu.state
  dsimp only
  split
  · exact hr
  · split
    · exact hr
    · split
      next pa t he => exact (kept_translate closed_kept _ _ _ _ _ hr).snd he
      next => exact hr

theorem keepsEff_fenceBody (kind : Nat) (sc : Scope) : KeptEff C D n (fenceBody u kind sc) := by
  have hacq : Kept C D n (if scopeWide sc then acquireDev u.s u.g.core else u.s) :=
    keeps_ite (kept_acquireDev closed_kept _ hu.state) hu.state
  unfold fenceBody
  refine keepsEff_ite (keepsEff_ite hu.state hacq) (keepsEff_ite hu.state (keepsEff_ite ?_ (keepsEff_ite hu.state hacq)))
  exact (keeps_fresh hu.state).same rfl

theorem keepsEff_slotBadTrap {k : Nat} {x : Slot} {e : Eff} (he : slotBadTrap u k x = some e) : KeptEff C D n e := by
  obtain ⟨b, -, rfl⟩ := Option.map_eq_some_iff.mp he
  exact hu.setGroup hu.state ⟨rfl, .refl _, .refl _⟩

theorem keepsEff_sfmtTrap {k sf : Nat} {raw : Bool} {e : Eff} (he : sfmtTrap u k sf raw = some e) : KeptEff C D n e := by
  unfold sfmtTrap at he
  split at he
  next e' _ he' => exact Option.some.inj he ▸ keepsEff_slotTrap hu he'
  next =>
    split at he
    · exact nomatch he
    · exact Option.some.inj he ▸ hu.state
  next => exact Option.some.inj he ▸ hu.state

theorem keepsTry_translateRun (a : Access) (va : DWord) (k : Nat) : KeptTry C D n (translateRun u a va k) := by
  unfold translateRun
  dsimp only
  have ht := fun ls va => keeps_translateLanes hu hu.state a ls va
  split
  · exact ht _ _
  · exact keepsTry_error (keepsEff_onceTrap hu (keepsEff_pageTrap (ht _ _) _))

theorem keepsTry_bindElems (f : MFmt) : KeptTry C D n (bindElems u f) := by
  unfold bindElems
  dsimp only
  split
  · exact hu.state
  · split
    · exact keeps_map (fun _ => rfl) (keepsTry_translateRun hu ..)
    · split
      · exact hu.state
      · split
        · exact hu.state
        · exact hu.state

end

/-! ## The instructions -/

variable (h : Kept C D 0 s)
include h

theorem keeps_execPref (f : MFmt) : KeptOut C D (execPref f s) := keeps_runInstr h fun m u hu => by
  refine keepsEff_ite hu.state (keepsEff_ite hu.state (keepsEff_ite hu.state ?_))
  have hs := keeps_prefLines hu f (active u).toList
  exact keepsEff_ite hs (keeps_addOp hs ..)

theorem keeps_execCctl (f : MFmt) : KeptOut C D (execCctl f s) := keeps_runInstr h fun m u hu => by
  refine keepsEff_ite hu.state (keepsEff_ite hu.state (keepsEff_ite hu.state (keepsEff_ite hu.state (keepsEff_ite hu.state
    (keepsEff_ite hu.state ?_)))))
  exact keeps_updSplit _ _ _ (kept_setCore closed_kept _ _ hu.state)

theorem keeps_execFence (f : KFmt) : KeptOut C D (execFence f s) := keeps_runInstr h fun m u hu =>
  keepsEff_ite hu.state (keepsEff_ite hu.state (keepsEff_fenceBody hu ..))

theorem keeps_execAtom (t : EltTy) (f : MFmt) : KeptOut C D (execAtom t f s) := keeps_runInstr h fun m u hu => by
  refine keepsEff_ite hu.state (keepsEff_ite hu.state ?_)
  split
  next e he => exact (keepsTry_accessLanes hu ..).error he
  next s ps he => exact keepsEff_ite hu.state (keeps_addOp ((keepsTry_accessLanes hu ..).ok he) ..)

theorem keeps_execRed (t : EltTy) (f : MFmt) : KeptOut C D (execRed t f s) := keeps_runInstr h fun m u hu => by
  refine keepsEff_ite hu.state (keepsEff_ite hu.state ?_)
  split
  next e he => exact keepsEff_addrTrap hu he
  next =>
    exact keepsEff_ite hu.state (keepsEff_ite (keeps_bufferOp hu ..) (keepsEff_ite hu.state (keeps_addOp hu.state ..)))

theorem keeps_execCensus (t : CenTy) (f : RFmt) : KeptOut C D (execCensus t f s) := keeps_runInstr h fun m u hu =>
  keepsEff_ite hu.state (keepsEff_ite hu.state (keepsEff_ite hu.state (keepsEff_ite hu.state (keepsEff_ite (keeps_bufferOp hu ..)
    (keepsEff_ite hu.state (keeps_addOp hu.state ..))))))

theorem keeps_execDflush (f : KFmt) : KeptOut C D (execDflush f s) := keeps_runInstr h fun m u hu => by
  refine keepsEff_ite hu.state (keepsEff_ite hu.state ?_)
  have hs : Kept C D m (if u.g.repro then dflushHarvest u else u.s) := keeps_ite (kept_harvestGrid closed_kept _ _ hu.state) hu.state
  exact keepsEff_ite hs (kept_acquireDev closed_kept _ hs)

theorem keeps_execMapres (f : RFmt) : KeptOut C D (execMapres f s) := keeps_runInstr h fun m u hu => by
  refine keepsEff_ite hu.state (keepsEff_ite hu.state ?_)
  have hdone : ∀ (g : Group) (d : Opnd) (ok : Nat), NamesOf u.g g → KeptEff C D m (mapresDone u g d ok) := fun g d ok hg =>
    hu.setGroup hu.state (hg.trans (namesOf_writeScalarNat ..))
  unfold mapresBody
  refine keepsEff_ite hu.state (keepsEff_ite (keepsEff_ite hu.state (hdone _ _ _ ⟨rfl, .refl _, .refl _⟩)) (keepsEff_ite hu.state
    (keepsEff_ite (hdone _ _ _ ⟨rfl, .refl _, .refl _⟩) (keepsEff_ite ?_ (hdone _ _ _ (.refl _))))))
  exact hu.setGroup hu.state ⟨rfl, .refl _, .refl _⟩

theorem keeps_execMapbind (f : MFmt) : KeptOut C D (execMapbind f s) := keeps_runInstr h fun m u hu => by
  dsimp only
  split
  next x _ _ =>
    refine keepsEff_ite hu.state (keepsEff_ite hu.state ?_)
    split
    next e _ he => exact keepsEff_slotBadTrap hu he
    next => exact hu.state
    next k _ _ =>
      refine keepsEff_ite hu.state (keepsEff_ite (hu.setGroup hu.state ⟨rfl, .refl _, .refl _⟩) ?_)
      split
      next e he => exact (keepsTry_bindElems hu f).error he
      next s es he =>
        refine keepsEff_ite hu.state (keeps_addOp (keeps_updGroup _ (fun _ => ?_) ((keepsTry_bindElems hu f).ok he)) ..)
        exact ⟨rfl, .refl _, .refl _⟩
  next => exact hu.state

theorem keeps_execMapwr (f : RFmt) : KeptOut C D (execMapwr f s) := keeps_runInstr h fun m u hu => by
  refine keepsEff_ite hu.state ?_
  split
  next e _ he => exact keepsEff_sfmtTrap hu he
  next => exact hu.state
  next x _ _ =>
    refine keepsEff_ite hu.state ?_
    unfold mapwrDone
    dsimp only
    split
    · exact hu.state
    · have hg : ∀ rs fl, NamesOf u.g (raiseFlags (putCtrs u.g rs) fl) := fun _ _ => ⟨rfl, .refl _, .refl _⟩
      have hset : ∀ (g : Group) l k x, NamesOf u.g g → NamesOf u.g (setSlot { g with phys := l } k x) := fun g l k x h =>
        h.trans ⟨rfl, .refl _, .refl _⟩
      exact hu.setGroup hu.state (hset _ _ _ _ (hg _ _))

theorem keeps_execMaprd (f : RFmt) : KeptOut C D (execMaprd f s) := keeps_runInstr h fun m u hu => by
  refine keepsEff_ite hu.state ?_
  split
  next e _ he => exact keepsEff_sfmtTrap hu he
  next => exact hu.state
  next => exact keepsEff_finishLanes hu ..

end

end Sys2Proof.Machine
end

section
/-!
SUPPORT. MACC, LDL, accesses in flight, and the instructions of tasks keep the canonical form of memories and the model's numbers
(O59, O60).
-/
namespace Sys2Proof.Machine

theorem memWf_slice {m : List Host.Cell} (a k base : Nat) (h : memWf m = true) : memWf (memSlice m a k base) = true := by
  have key : ∀ (m : List Host.Cell) (lo lo' : Nat), memWfFrom lo m = true → (∀ x, lo ≤ x → a ≤ x → lo' ≤ x - a + base) →
      memWfFrom lo' (memSlice m a k base) = true := by
    intro m
    induction m with
    | nil => exact fun _ _ _ _ => rfl
    | cons c m ih =>
      intro lo lo' hm hlo
      obtain ⟨x, b⟩ := c
      rw [memWfFrom, Bool.and_eq_true, Bool.and_eq_true] at hm
      obtain ⟨⟨hx, hb⟩, hrest⟩ := hm
      have hx := of_decide_eq_true hx
      rw [memSlice, List.filterMap_cons]
      by_cases hin : a ≤ x ∧ x < a + k
      · simp only [if_pos hin]
        rw [memWfFrom, Bool.and_eq_true, Bool.and_eq_true]
        exact ⟨⟨decide_eq_true (hlo x hx hin.1), hb⟩, ih (x + 1) (x - a + base + 1) hrest fun y hy hay => by omega⟩
      · simp only [if_neg hin]
        exact ih (x + 1) lo' hrest fun y hy hay => hlo y (by omega) hay
  exact key m 0 0 h fun x _ _ => Nat.zero_le _

section
variable {C D : Prop} {n : Nat} {s : State}

/-! ## MACC and LDL -/

theorem keeps_writeVector_of {g : Group} (hg : C → NamesOk s.nextId g) (h : Kept C D n s) (p : Split) (d : Opnd) (wbs wide ring : Bool)
    (m : Lanes) (new : Nat → Nat) :
    Kept C D n (writeVector s g p d wbs wide ring m new) ∧ s.nextId ≤ (writeVector s g p d wbs wide ring m new).nextId :=
  have h1 := keeps_writeVector hg h.raise p d wbs wide ring m new
  ⟨h1.lower h.low, h1.low⟩

theorem keeps_maccWrite {g : Group} (hg : C → NamesOk s.nextId g) (h : Kept C D n s) (u : Iss) (d : Opnd) (wbs : Bool) (k : Nat) (act : Lanes)
    (v : Nat → Nat) : Kept C D n (maccWrite s u g d wbs k act v) := by
  have key : ∀ (ps : List Nat) (acc : State × Group), Kept C D n acc.1 → (C → NamesOk acc.1.nextId acc.2) →
      Kept C D n (ps.foldl (fun (acc : State × Group) p =>
        let s := writeVector acc.1 acc.2 u.p (opPlus d p) wbs false true act fun l => posWord (v l) p
        (s, (groupOf s g.gid).getD acc.2)) acc).1 := by
    intro ps
    induction ps with
    | nil => exact fun acc h _ => h
    | cons p ps ih =>
      intro acc h hg'
      obtain ⟨h1, h2⟩ := keeps_writeVector_of hg' h u.p (opPlus d p) wbs false true act fun l => posWord (v l) p
      refine ih _ h1 fun hc => ?_
      dsimp only
      cases hx : groupOf (writeVector acc.1 acc.2 u.p (opPlus d p) wbs false true act fun l => posWord (v l) p) g.gid with
      | none => exact (hg' hc).mono h2
      | some x => exact h1.found hx hc
  exact key _ (s, g) h hg

theorem namesOf_ldlWrite (g : Group) (d : Opnd) (k : Nat) (act : Lanes) (out : List LaneOut) : NamesOf g (ldlWrite g d k act out) := by
  have key : ∀ (ps : List Nat) (g : Group), NamesOf g (ps.foldl (fun g p =>
      writeReg g (opPlus d p) act fun l => BitVec.ofNat 32 (posWord (((out.find? (·.1 == l)).map (·.2.1)).getD 0) p)) g) := by
    intro ps
    induction ps with
    | nil => exact fun g => .refl g
    | cons p ps ih => exact fun g => (namesOf_writeReg _ _ _ _).trans (ih _)
  exact key _ g

theorem namesOf_flagsLater (g : Group) (o : Op) (fl : Flags) : NamesOf g (flagsLater g o fl) := by
  unfold flagsLater
  split
  · split
    · exact .refl g
    · exact ⟨rfl, .refl _, .refl _⟩
  · split
    · exact ⟨rfl, .refl _, .refl _⟩
    · exact ⟨rfl, .refl _, .refl _⟩

theorem namesOf_ldlCtrs (u : Iss) (f : MFmt) (act : Lanes) (g : Group) : NamesOf g (ldlCtrs u f act g) := by
  unfold ldlCtrs
  split
  · exact ⟨rfl, .refl _, .refl _⟩
  · exact .refl g

theorem keeps_readNow (h : Kept C D n s) {o : Op} {l1 : Bool} {bs : List Byte} {bad : Option Nat} {t : State}
    (hr : readNow s o l1 = some (bs, bad, t)) : Kept C D n t := by
  unfold readNow at hr
  split at hr
  · exact nomatch hr
  · have key : ∀ (es : List Elem) (acc : List Byte × Option Nat × State), Kept C D n acc.2.2 → Kept C D n (es.foldl (fun acc e =>
        let r := readElem acc.2.2 o e l1
        (acc.1 ++ natToBytes e.size r.1, acc.2.1.or r.2.1, r.2.2)) acc).2.2 := by
      intro es
      induction es with
      | nil => exact fun _ h => h
      | cons e es ih => exact fun acc h => ih _ (kept_readElem closed_kept o e l1 h)
    have := key o.elems ([], none, s) h
    rw [Option.some.inj hr] at this
    exact this

section
variable {u : Iss} (hu : KeptIss C D n u)
include hu

theorem keepsEff_ldlSlotTrap {x : Bool} {ma : BitVec 4} {e : Eff} (he : ldlSlotTrap u x ma = some e) : KeptEff C D n e := by
  unfold ldlSlotTrap at he
  split at he
  · exact nomatch he
  · split at he
    next he' => exact Option.some.inj he ▸ keepsEff_slotTrap hu he'
    next => exact Option.some.inj he ▸ hu.state
    next =>
      split at he
      · exact nomatch he
      · exact Option.some.inj he ▸ hu.state
    next => exact nomatch he

theorem keepsEff_ldlNow (h : Kept C D n s) (f : MFmt) (act : Lanes) (es : List Elem) : KeptEff C D n (ldlNow u s f act es) := by
  have h1 : Kept C D n (choose (mkOp u s .store false false .grp es).2 2).2 := keeps_choose 2 (keeps_fresh h)
  unfold ldlNow
  dsimp only
  split
  · exact hu.state
  next bs bad t he =>
    have h2 := keeps_readNow h1 he
    have h3 : Kept C D n (updGroup t u.g.gid fun g => engTick g .c0 (mkOp u s .store false false .grp es).1.id) :=
      keeps_updGroup _ (fun _ => ⟨rfl, .refl _, .refl _⟩) h2
    split
    next pa =>
      refine keeps_updGroup _ (fun g => NamesOf.trans ?_ (namesOf_ldlCtrs ..)) h3
      exact ⟨rfl, .refl _, .refl _⟩
    next =>
      split
      · exact h3
      · refine keeps_updGroup _ (fun g => NamesOf.trans ?_ (namesOf_ldlWrite ..)) h3
        exact ⟨rfl, .refl _, .refl _⟩

end

theorem keeps_finishLdl (h : Kept C D n s) (o : Op) (f : MFmt) (fmt : BitVec 9) (members act : Lanes)
    (view : Option (Nat × List (BitVec 16) × List Byte)) (seed : DWord) (ctrs : LaneVec) :
    Kept C D n (finishLdl s o f fmt members act view seed ctrs) := by
  unfold finishLdl
  refine kept_removeOp closed_kept _ (kept_countOff closed_kept o ?_)
  split
  · exact kept_failLoad closed_kept _ _ h
  · exact keeps_updGroup _ (fun g => (namesOf_flagsLater ..).trans (namesOf_ldlWrite ..)) h

theorem keeps_finishBind (h : Kept C D n s) (o : Op) (k : Nat) : Kept C D n (finishBind s o k) := by
  refine kept_removeOp closed_kept _ (kept_countOff closed_kept o (keeps_updGroup _ (fun g => ?_) h))
  split
  · exact .refl g
  · split
    · exact ⟨rfl, .refl _, .refl _⟩
    · exact ⟨rfl, .refl _, .refl _⟩

/-! ## Accesses in flight -/

theorem keeps_loadElems (h : Kept C D n s) (id : Nat) (lanes l1 : Lanes) : Kept C D n (loadElems s id lanes l1) := by
  unfold loadElems
  split
  · exact h
  · exact kept_foldl closed_kept (fun _ k h => kept_loadElem closed_kept _ _ k h) _ h

theorem keeps_prefElem (h : Kept C D n s) (id : Nat) (l1 : Bool) (k : Nat) : Kept C D n (prefElem s id l1 k) := by
  unfold prefElem
  split
  · exact h
  · split
    · exact h
    · exact keeps_ite (kept_setElem closed_kept _ _ _ (keeps_ite (kept_l1Fill closed_kept _ _ _ _ h) h)) h

theorem keeps_endReads (h : Kept C D n s) (id : Nat) : Kept C D n (endReads s id) := by
  unfold endReads
  split
  · exact h
  · refine keeps_ite h ?_
    split
    · exact kept_finishLoad closed_kept _ _ _ h
    · exact kept_removeOp closed_kept _ (kept_countOff closed_kept _ h)
    · exact h

theorem keeps_atomAcquire (h : Kept C D n s) (id : Nat) : Kept C D n (atomAcquire s id) := by
  unfold atomAcquire
  split
  · exact h
  · exact keeps_ite (kept_acquireOp closed_kept _ h) h

/-! ## Tasks -/

theorem namesOf_raiseLbaseAtIssue (g : Group) (w : Option Nat) : NamesOf g (raiseLbaseAtIssue g w) := by
  unfold raiseLbaseAtIssue
  split
  · split
    · exact ⟨rfl, .refl _, .refl _⟩
    · exact .refl g
  · exact .refl g

theorem keeps_addHandle {x : Handle} (hx : D → memWf x.bytes = true) (h : Kept C D n s) : Kept C D n { s with handles := s.handles ++ [x] } := by
  refine ⟨h.low, fun hd => ⟨(h.mems hd).1, (h.mems hd).2.1, (h.mems hd).2.2.1, fun y hy => ?_⟩,
    fun hc => ⟨(h.ids hc).groups, (h.ids hc).fresh, (h.ids hc).splits, (h.ids hc).regions⟩⟩
  rcases List.mem_append.mp hy with hy | hy
  · exact (h.mems hd).2.2.2 y hy
  · exact List.mem_singleton.mp hy ▸ hx hd

section
variable {u : Iss} (hu : KeptIss C D n u)
include hu

theorem keepsTry_readEntries (e : Opnd) (lanes : List Nat) : KeptTry C D n (readEntries u e lanes) := by
  have h1 := keeps_translateLanes hu hu.state .load lanes (readPair u e)
  have key : ∀ (o : Op) (va : Nat → DWord) (pas : List (Nat × Nat)) (acc : State × List (Nat × Nat × Option Nat)), Kept C D n acc.1 →
      Kept C D n (pas.foldl (fun (acc : State × List (Nat × Nat × Option Nat)) x =>
        let (c, s) := choose acc.1 2
        let r := readElem s o (mkElem x.1 .global (va x.1) (some x.2) 64) (c == 1)
        (r.2.2, acc.2 ++ [(x.1, r.1, r.2.1)])) acc).1 := by
    intro o va pas
    induction pas with
    | nil => exact fun _ h => h
    | cons x pas ih => exact fun acc h => ih _ (kept_readElem closed_kept _ _ _ (keeps_choose 2 h))
  unfold readEntries
  dsimp only
  generalize translateLanes u.s u .load lanes (readPair u e) = r at h1
  obtain ⟨t, pas, fs⟩ := r
  split
  · exact hu.state
  · dsimp only
    split
    · exact h1
    · have h2 := key (mkOp u t (.load .b64 .zero) false false .grp []).1 (readPair u e) pas (t, []) h1
      split
      · exact h2
      · split
        · exact h2
        · exact h2

theorem keepsEff_misaligned (h : Kept C D n s) {c : Opnd} {k : Nat} {lanes : List Nat} {e : Eff} (he : misaligned u s c k lanes = some e) :
    KeptEff C D n e := by
  unfold misaligned at he
  dsimp only at he
  split at he
  · exact nomatch he
  · exact Option.some.inj he ▸ h

theorem keepsTry_scalarPlace (f : MFmt) (a : Access) (k : Nat) : KeptTry C D n (scalarPlace u f a k) := by
  have h1 := keeps_translateLanes hu hu.state a [0] fun _ => effAddr u f 0
  unfold scalarPlace
  dsimp only
  split
  · exact hu.state
  · split
    next he => exact h1.fst he
    next he =>
      have := h1.fst he
      exact keepsTry_error (keepsEff_onceTrap hu (keepsEff_pageTrap this _))

theorem keepsEff_jwaitBody (h : Kept C D n s) (va : DWord) (pa : Nat) : KeptEff C D n (jwaitBody u va s pa) := by
  unfold jwaitBody
  dsimp only
  refine keepsEff_ite hu.state ?_
  split
  · exact h
  · exact keepsEff_ite (kept_acquireDev closed_kept _ (keeps_updGroup _ (fun g => namesOf_raiseLbaseAtIssue g _) h))
      (keeps_updSplit _ _ _ (keeps_fresh h))

end

theorem memWf_taken (o : Option Team) (a k : Nat) (h : ∀ t, o = some t → memWf t.spad = true) :
    memWf ((o.map fun t => memSlice t.spad a k 0).getD []) = true := by
  cases o with
  | none => rfl
  | some t => exact memWf_slice _ _ _ (h t rfl)

theorem keeps_handGranules (h : Kept C D n s) (u : Iss) (w : Word) : Kept C D n (handGranules u s w).2 := by
  refine keeps_addHandle (fun hd => memWf_taken _ _ _ fun t ht => ?_) (kept_updTeam closed_kept _ (fun t ht => memWf_clear _ _ ht) (keeps_fresh h))
  exact (h.mems hd).2.2.1 t (List.mem_of_find?_eq_some ht)

theorem keeps_fileLanes (h : Kept C D n s) (u : Iss) (recs : List (Nat × ThreadRec)) : Kept C D n (fileLanes u s recs).1 := by
  refine kept_foldl_keys closed_kept (fun r x hr => ?_) recs h
  split
  next t he =>
    split at he
    · exact nomatch he
    · exact kept_fileRec closed_kept he hr
  next => exact hr

section
variable {u : Iss} (hu : KeptIss C D n u)
include hu

theorem keepsEff_spawnFile (h : Kept C D n s) (f : RFmt) (ds : List (Nat × Nat)) : KeptEff C D n (spawnFile u f s ds) := by
  unfold spawnFile
  dsimp only
  split
  next e he =>
    split at he
    · exact keepsEff_misaligned hu h he
    · exact nomatch he
  next =>
    refine keepsEff_ite h (keepsEff_ite ?_ ?_)
    · exact h
    · refine keeps_updGroup _ (fun g => namesOf_writeReg ..) (keeps_ite h (keeps_fileLanes ?_ ..))
      exact keeps_ite (keeps_handGranules h ..) h

theorem keeps_await (h : Kept C D n s) : Kept C D n (await s u) := keeps_updSplit _ _ _ h

theorem keepsEff_fregDone (o : Op) (d : Opnd) : KeptEff C D n (fregDone u o d) := by
  refine keeps_updSplit _ _ _ (kept_removeOp closed_kept _ (keeps_updGroup _ (fun g => namesOf_writeReg ..) ?_))
  split
  · exact keeps_ite hu.state (kept_failLoad closed_kept _ _ hu.state)
  · exact hu.state

theorem keepsEff_fregStart (f : RFmt) (lanes : List Nat) : KeptEff C D n (fregStart u f lanes) := by
  unfold fregStart
  dsimp only
  split
  next e he => exact (keepsTry_readEntries hu ..).error he
  next s ds he =>
    have hs := (keepsTry_readEntries hu ..).ok he
    split
    next e he =>
      split at he
      · exact keepsEff_misaligned hu hs he
      · exact nomatch he
    next =>
      split
      next e he => exact keepsEff_misaligned hu hs he
      next =>
        have ht := keeps_translateLanes hu hs .rmw lanes (readPair u f.a)
        exact keepsEff_ite ht (keepsEff_ite ht (keeps_await hu (keeps_addOp ht ..)))

theorem keepsEff_fresDone (o : Op) : KeptEff C D n (fresDone u o) := by
  have hs : Kept C D n (updSplit (removeOp u.s o.id) u.g.gid u.p.sid fun p => { p with awaiting := none }) :=
    keeps_updSplit _ _ _ (kept_removeOp closed_kept _ hu.state)
  unfold fresDone
  dsimp only
  split
  · exact keepsEff_ite hs (keepsEff_ite hs (keepsEff_ite hs hs))
  · exact hs

end

/-! ## The instructions -/

section
variable (h : Kept C D 0 s)
include h

theorem keeps_execMaprel (f : RFmt) : KeptOut C D (execMaprel f s) := keeps_runInstr h fun m u hu => by
  refine keepsEff_ite hu.state (keepsEff_ite hu.state ?_)
  split
  · exact hu.state
  next x _ =>
    split
    next e he => exact keepsEff_slotBadTrap hu he
    next =>
      split
      · exact hu.state
      · exact hu.state
      · exact hu.setGroup hu.state ⟨rfl, .refl _, .refl _⟩

theorem keeps_execMacc (ty : MaccTy) (f : RFmt) : KeptOut C D (execMacc ty f s) := keeps_runInstr h fun m u hu => by
  refine keepsEff_ite hu.state ?_
  split
  next e _ he => exact keepsEff_mapTrap hu he
  next => exact hu.state
  next view _ _ =>
    dsimp only
    split
    · exact hu.state
    · have hg : ∀ rs fl, NamesOf u.g (raiseFlags (putCtrs u.g rs) fl) := fun _ _ => ⟨rfl, .refl _, .refl _⟩
      refine keeps_maccWrite (fun hc => ?_) ?_ ..
      · exact ((hu.group hc).of (hg _ _)).mono hu.state.low
      · exact hu.setGroup hu.state (hg _ _)

theorem keeps_execLdl (f : MFmt) : KeptOut C D (execLdl f s) := keeps_runInstr h fun m u hu => by
  refine keepsEff_ite hu.state ?_
  split
  next e he => exact keepsEff_ldlSlotTrap hu he
  next =>
    refine keepsEff_ite hu.state ?_
    split
    next e he => exact (keepsTry_translateRun hu ..).error he
    next s pages he =>
      have hs := (keepsTry_translateRun hu ..).ok he
      exact keepsEff_ite hu.state (keepsEff_ite (keepsEff_ldlNow hu hs ..) (keeps_updGroup _ (fun g => namesOf_ldlCtrs ..) (keeps_addOp hs ..)))

theorem keeps_execSpawn (f : RFmt) : KeptOut C D (execSpawn f s) := keeps_runInstr h fun m u hu => by
  refine keepsEff_ite hu.state (keepsEff_ite hu.state (keepsEff_ite hu.state (keepsEff_ite hu.state ?_)))
  split
  next e he => exact (keepsTry_readEntries hu ..).error he
  next s ds he => exact keepsEff_spawnFile hu ((keepsTry_readEntries hu ..).ok he) ..

theorem keeps_execJdec (f : MFmt) : KeptOut C D (execJdec f s) := keeps_runInstr h fun m u hu => by
  refine keepsEff_ite hu.state (keepsEff_ite hu.state ?_)
  split
  next e he => exact keepsEff_addrTrap hu he
  next => exact keepsEff_ite hu.state (keeps_addOp hu.state ..)

theorem keeps_execJwait (f : MFmt) : KeptOut C D (execJwait f s) := keeps_runInstr h fun m u hu => by
  refine keepsEff_ite hu.state (keepsEff_ite hu.state (keepsEff_ite hu.state ?_))
  split
  next e he => exact (keepsTry_scalarPlace hu ..).error he
  next s pa he => exact keepsEff_jwaitBody hu ((keepsTry_scalarPlace hu ..).ok he) ..

theorem keeps_execFreg (f : RFmt) : KeptOut C D (execFreg f s) := keeps_runInstr h fun m u hu => by
  split
  next o _ => exact keepsEff_ite (keepsEff_fregDone hu ..) hu.state
  next => exact keepsEff_ite hu.state (keepsEff_ite hu.state (keepsEff_ite hu.state (keepsEff_fregStart hu ..)))

theorem keeps_execFres (f : MFmt) : KeptOut C D (execFres f s) := keeps_runInstr h fun m u hu => by
  split
  next o _ => exact keepsEff_ite (keepsEff_fresDone hu ..) hu.state
  next =>
    refine keepsEff_ite hu.state (keepsEff_ite hu.state (keepsEff_ite hu.state ?_))
    split
    next e he => exact (keepsTry_scalarPlace hu ..).error he
    next s pa he => exact keepsEff_ite hu.state (keeps_await hu (keeps_addOp ((keepsTry_scalarPlace hu ..).ok he) ..))

/-! ## The steps of accesses in flight -/

theorem keeps_execLoadReturn (op : Nat) (lanes l1 : Lanes) : KeptOut C D (execLoadReturn op lanes l1 s) := by
  unfold execLoadReturn
  split
  · exact .next (keeps_endReads (keeps_loadElems h ..) _)
  · refine .next (n := 0) (keeps_endReads ?_ _)
    split
    · exact kept_foldl closed_kept (fun _ k h => keeps_prefElem h ..) _ h
    · exact h
  · exact .next (keeps_loadElems h ..)
  · exact .next (keeps_loadElems h ..)
  · exact .next h

theorem keeps_execLdlReturn (op : Nat) : KeptOut C D (execLdlReturn op s) := by
  unfold execLdlReturn
  split
  · have h1 := keeps_loadElems h op allLanes 0#64
    dsimp only
    split
    · exact .next (keeps_ite (keeps_finishLdl h1 ..) h1)
    · exact .next h1
  · exact .next h

theorem keeps_execMapBindComplete (op : Nat) : KeptOut C D (execMapBindComplete op s) := by
  unfold execMapBindComplete
  split
  · have h1 := keeps_loadElems h op allLanes 0#64
    dsimp only
    split
    · exact .next (keeps_ite (keeps_finishBind h1 ..) h1)
    · exact .next h1
  · exact .next h

theorem keeps_execAtomReturn (op : Nat) : KeptOut C D (execAtomReturn op s) := by
  unfold execAtomReturn
  split
  · exact .next h
  · split
    · exact .next (keeps_ite (kept_finishAtom closed_kept _ _ _ h) h)
    · exact .next h

theorem keeps_execStorePerform (op : Nat) (lanes : Lanes) : KeptOut C D (execStorePerform op lanes s) := by
  unfold execStorePerform
  split
  · exact .next h
  · split
    · exact .next (kept_settleKeys closed_kept _ (kept_performStore closed_kept _ _ h))
    · exact .next h

theorem keeps_execAtomicAtHome (op k : Nat) : KeptOut C D (execAtomicAtHome op k s) := by
  unfold execAtomicAtHome
  split
  · exact .next (keeps_atomAcquire (kept_homeRequest closed_kept _ _ h) _)
  · exact .next h

theorem keeps_execJoinCounterDecrement (op k : Nat) : KeptOut C D (execJoinCounterDecrement op k s) := by
  unfold execJoinCounterDecrement
  split
  · exact .next (kept_homeRequest closed_kept _ _ h)
  · exact .next h

theorem keeps_execCensusFold (op k : Nat) : KeptOut C D (execCensusFold op k s) := by
  unfold execCensusFold
  split
  · exact .next (kept_homeRequest closed_kept _ _ h)
  · exact .next h

theorem keeps_execFutureRegistration (op k : Nat) : KeptOut C D (execFutureRegistration op k s) := by
  unfold execFutureRegistration
  split
  · exact .next (kept_homeRequest closed_kept _ _ h)
  · exact .next h

theorem keeps_execFutureResolution (op : Nat) : KeptOut C D (execFutureResolution op s) := by
  unfold execFutureResolution
  split
  · exact .next (kept_homeRequest closed_kept _ _ h)
  · exact .next (kept_homeRequest closed_kept _ _ h)
  · exact .next h

theorem keeps_execGateDecrement (op : Nat) : KeptOut C D (execGateDecrement op s) := by
  unfold execGateDecrement
  split
  · exact .next (kept_homeRequest closed_kept _ _ h)
  · exact .next h

theorem keeps_execSluiceDeferredPark (op k : Nat) : KeptOut C D (execSluiceDeferredPark op k s) := by
  unfold execSluiceDeferredPark
  split
  · exact .next h
  next o _ =>
    split
    next e c _ _ =>
      split
      · exact .next h
      · split
        · exact .next (kept_settleOp closed_kept _ (kept_setElem closed_kept _ _ _ h))
        · split
          next he => exact .next (kept_settleOp closed_kept _ (kept_report closed_kept _ (kept_setElem closed_kept _ _ _
              ((kept_walkAccess closed_kept _ _ _ _ h).snd he))))
          next he => exact .next (kept_settleKeys closed_kept _ (kept_settleOp closed_kept _ (kept_performHome closed_kept _ _ _ _
              ((kept_walkAccess closed_kept _ _ _ _ h).snd he))))
    next => exact .next h

theorem keeps_execJwaitWake (g sp : Nat) : KeptOut C D (execJwaitWake g sp s) := by
  unfold execJwaitWake
  split
  · exact .next h
  next x hx =>
    split
    next p _ =>
      refine .next (keeps_ite ?_ h)
      unfold jwaitWake
      split
      · exact keeps_ite (kept_acquireDev closed_kept _ (keeps_setGroup_of h hx (namesOf_setSplit_of (namesOf_raiseLbase ..) _))) h
      · exact h
    next => exact .next h

end

end

end Sys2Proof.Machine
end

section
/-!
SUPPORT. Sweeps and barriers keep the canonical form of memories and the model's numbers (O59, O60).
-/
namespace Sys2Proof.Machine

section
variable {C D : Prop} {n : Nat} {s : State}

/-! ## Sweeps -/

section
variable {u : Iss} (hu : KeptIss C D n u)
include hu

theorem keepsEff_sweepStart (legal : Bool) : KeptEff C D n (sweepStart u legal) := keepsEff_ite hu.state (keeps_updSplit _ _ _ hu.state)

theorem keepsEff_segTrap {segs : List Seg} {e : Eff} (he : segTrap u segs = some e) : KeptEff C D n e := by
  unfold segTrap at he
  dsimp only at he
  split at he
  · exact Option.some.inj he ▸ hu.state
  · split at he
    · exact Option.some.inj he ▸ hu.state
    · obtain ⟨x, -, rfl⟩ := Option.map_eq_some_iff.mp he
      exact hu.state

omit hu in
theorem keeps_segWrite (h : Kept C D n s) (u : Iss) (x : Seg) (out : List (Nat × Nat)) : Kept C D n (segWrite u s x out) := by
  refine kept_settleKeys closed_kept _ (kept_foldl_keys closed_kept (fun r l hr => ?_) _ h)
  refine kept_foldl_keys closed_kept (fun _ _ hr => ?_) _ hr
  exact kept_spadWrite closed_kept _ _ _ _ hr

omit hu in
theorem keepsEff_segFinish (h : Kept C D n s) (u : Iss) (d : Seg) (out : List LaneOut) : KeptEff C D n (segFinish u s d out) := by
  unfold segFinish
  dsimp only
  split
  · exact h
  · refine keeps_segWrite ?_ ..
    exact keeps_updGroup _ (fun _ => ⟨rfl, .refl _, .refl _⟩) h

theorem keepsEff_segBody (hd : Hdr) (segs : List Seg) (d : Seg) (xs : List (Seg × Src)) (f : REnv → List RSrc → Nat → Lane → Nat × Lane) :
    KeptEff C D n (segBody u hd segs d xs f) := by
  unfold segBody
  split
  next e he =>
    rcases Option.or_eq_some_iff.mp he with he | ⟨-, he⟩
    · exact keepsEff_mapTrap hu he
    · exact keepsEff_segTrap hu he
  next => exact keepsEff_ite hu.state (keepsEff_segFinish hu.state ..)

theorem keepsEff_ldlSweepBody (f : SFmt) (k : Nat) : KeptEff C D n (ldlSweepBody u f k) := by
  unfold ldlSweepBody
  refine keepsEff_ite hu.state ?_
  split
  next e he =>
    rcases Option.or_eq_some_iff.mp he with he | ⟨-, he⟩
    · exact keepsEff_ldlSlotTrap hu he
    · exact keepsEff_segTrap hu he
  next =>
    refine keepsEff_ite hu.state ?_
    split
    next e he => exact (keepsTry_translateRun hu ..).error he
    next s pages he =>
      have hs := (keepsTry_translateRun hu ..).ok he
      have h1 := fun o => (keeps_choose 2 (n := n) (C := C) (D := D) (s := (mkOp u s (.load .b64 .zero) false false .grp o).2) (keeps_fresh hs))
      dsimp only
      split
      · exact hu.state
      next he =>
        obtain ⟨r, hr, he⟩ := Option.map_eq_some_iff.mp he
        obtain ⟨bs, bad, t⟩ := r
        obtain ⟨-, -, rfl⟩ : _ ∧ _ ∧ _ := by simpa using he
        exact keeps_updGroup _ (fun _ => ⟨rfl, .refl _, .refl _⟩) (keeps_readNow (h1 _) hr)
      next he =>
        obtain ⟨r, hr, he⟩ := Option.map_eq_some_iff.mp he
        obtain ⟨bs, bad, t⟩ := r
        obtain ⟨-, -, rfl⟩ : _ ∧ _ ∧ _ := by simpa using he
        refine keepsEff_segFinish ?_ ..
        exact keeps_updGroup _ (fun _ => ⟨rfl, .refl _, .refl _⟩) (keeps_readNow (h1 _) hr)

theorem keepsEff_floSweepBody (t : FloTy) (f : SFmt) (k j : Nat) (op : PosOp) : KeptEff C D n (floSweepBody u t f k j op) := by
  unfold floSweepBody
  exact keepsEff_segBody hu ..

theorem keepsEff_cvtSweepBody (c : CvtTy) (f : SFmt) (k : Nat) : KeptEff C D n (cvtSweepBody u c f k) := by
  unfold cvtSweepBody
  exact keepsEff_segBody hu ..

theorem keepsEff_quantSweepBody (t : FloTy) (f : SFmt) (k : Nat) : KeptEff C D n (quantSweepBody u t f k) := by
  unfold quantSweepBody
  exact keepsEff_segBody hu ..

theorem keepsEff_maccSweepBody (m : MaccTy) (f : SFmt) (k : Nat) : KeptEff C D n (maccSweepBody u m f k) := by
  unfold maccSweepBody
  exact keepsEff_segBody hu ..

theorem keepsEff_sweepBody (k : Nat) : KeptEff C D n (sweepBody u k) := by
  unfold sweepBody
  generalize u.i = i
  split
  · exact keepsEff_floSweepBody hu ..
  · exact keepsEff_floSweepBody hu ..
  · exact keepsEff_floSweepBody hu ..
  · exact keepsEff_cvtSweepBody hu ..
  · exact keepsEff_quantSweepBody hu ..
  · exact keepsEff_maccSweepBody hu ..
  · exact keepsEff_ldlSweepBody hu ..
  · exact hu.state

omit hu in
theorem keeps_sweepCommit {e : Eff} (h : KeptEff C D n e) (k : Nat) : Kept C D n (sweepCommit u k e) := by
  have hs : ∀ s, Kept C D n s → Kept C D n (if k + 1 < sweepCount u.i then updSplit s u.g.gid u.p.sid fun p => { p with sweep := some (u.i, k + 1) }
    else retire (updSplit s u.g.gid u.p.sid fun p => { p with sweep := none, swpidx := 0 }) u true) := fun s hs =>
    keeps_ite (keeps_updSplit _ _ _ hs) (keeps_retire (keeps_updSplit _ _ _ hs) true)
  cases e with
  | done s => exact hs s h
  | jump s => exact hs s h
  | trap s t => exact keeps_takeTrap h _ _ _
  | wait s => exact h

theorem keeps_sweepIter (k : Nat) : Kept C D n (sweepIter u k) :=
  keeps_ite (keeps_retire (keeps_updSplit _ _ _ hu.state) true) (keeps_ite hu.state (keeps_sweepCommit (keepsEff_sweepBody hu k) k))

end

theorem keeps_execSweepIteration (h : Kept C D 0 s) (g sp : Nat) : KeptOut C D (execSweepIteration g sp s) := by
  unfold execSweepIteration
  split
  · exact .next h
  next x hx =>
    split
    next p c _ _ =>
      split
      next i k _ =>
        split
        · refine .next (keeps_sweepIter (n := s.nextId) ?_ k)
          exact ⟨h.raise, fun hc => h.found hx hc⟩
        · exact .next h
      next => exact .next h
    next => exact .next h

/-! ## Barriers -/

section
variable {u : Iss} (hu : KeptIss C D n u)
include hu

theorem keepsEff_runBarrier (f : RFmt) (kinds values nondet : Bool) {body : Iss → Nat → Bar → Eff}
    (hb : ∀ v off b, KeptIss C D n v → KeptEff C D n (body v off b)) : KeptEff C D n (runBarrier u f kinds values nondet body) := by
  unfold runBarrier
  refine keepsEff_ite hu.state (keepsEff_ite hu.state (keepsEff_ite hu.state (keepsEff_ite hu.state ?_)))
  dsimp only
  split
  next e he =>
    unfold objTrap at he
    dsimp only at he
    split at he
    · exact Option.some.inj he ▸ hu.state
    · split at he
      · exact Option.some.inj he ▸ hu.state
      · split at he
        · exact Option.some.inj he ▸ hu.state
        · exact nomatch he
  next => exact keepsEff_ite (hb _ _ _ ⟨kept_meetObj closed_kept _ _ hu.state, hu.group⟩) hu.state

/-- An object written, with the check that follows. -/
theorem keeps_objWritten (off : Nat) (b : Bar) (f : BarObj → BarObj) :
    Kept C D n (settleKeys u.g.grid (barCheck (nameObj (putBar u.s u.g.team off b) u.g.team off f) u.g.team off)) :=
  kept_settleKeys closed_kept _ (kept_barCheck closed_kept _ _ (kept_nameObj closed_kept _ _ _ (kept_putBar closed_kept _ _ _ hu.state)))

theorem keepsEff_arrive (off : Nat) (b : Bar) (k p : Nat) (dev : Bool) : KeptEff C D n (arrive u off b k p dev) :=
  keepsEff_ite hu.state (keepsEff_ite hu.state (keeps_objWritten hu ..))

omit hu in
theorem keeps_phaseAcquire (h : Kept C D n s) (u : Iss) (off p : Nat) : Kept C D n (phaseAcquire u s off p) :=
  keeps_ite (kept_acquireDev closed_kept _ h) h

end

section
variable (h : Kept C D 0 s)
include h

theorem keeps_execBinit (f : RFmt) : KeptOut C D (execBinit f s) := keeps_runInstr h fun m u hu =>
  keepsEff_runBarrier hu f _ _ _ fun v off b hv => keeps_objWritten hv ..

theorem keeps_execBarr (f : RFmt) : KeptOut C D (execBarr f s) := keeps_runInstr h fun m u hu =>
  keepsEff_runBarrier hu f _ _ _ fun v off b hv => keepsEff_ite hv.state (keepsEff_ite hv.state (keepsEff_arrive hv ..))

theorem keeps_execBexp (f : RFmt) : KeptOut C D (execBexp f s) := keeps_runInstr h fun m u hu =>
  keepsEff_runBarrier hu f _ _ _ fun v off b hv => keepsEff_ite hv.state (keeps_objWritten hv ..)

theorem keeps_execBtest (f : RFmt) : KeptOut C D (execBtest f s) := keeps_runInstr h fun m u hu =>
  keepsEff_runBarrier hu f _ _ _ fun v off b hv => keepsEff_ite hv.state (by
    have h1 := hv.setGroup hv.state (namesOf_writeScalarNat v.g false f.d (bitOf (b.completed (barVal v f f.b % 2 ^ 16))))
    exact keeps_ite (keeps_phaseAcquire h1 ..) h1)

theorem keeps_execBwait (f : RFmt) : KeptOut C D (execBwait f s) := keeps_runInstr h fun m u hu =>
  keepsEff_runBarrier hu f _ _ _ fun v off b hv => keepsEff_ite hv.state (keepsEff_ite hv.state (keepsEff_ite
    (keepsEff_ite hv.state (keeps_phaseAcquire (hv.setGroup hv.state (namesOf_raiseLbaseAtIssue ..)) ..))
    (keeps_updSplit _ _ _ (keeps_fresh hv.state))))

end

end

end Sys2Proof.Machine
end

section
/-!
SUPPORT. Copy commands keep the canonical form of memories and the model's numbers (O59, O60).
-/
namespace Sys2Proof.Machine

section
variable {C D : Prop} {n : Nat} {s : State}

/-! ## COPY and WAITC -/

theorem namesOf_engAdd (g : Group) (c : EngClass) (id : Nat) : NamesOf g (engAdd g c id) := ⟨rfl, .refl _, .refl _⟩

theorem namesOf_engDone (g : Group) (id : Nat) : NamesOf g (engDone g id) := ⟨rfl, .refl _, .refl _⟩

theorem keepsEff_copyTrap {u : Iss} (hu : KeptIss C D n u) {f : RFmt} {b : CopyBlk} {bar : Option Nat} {caddr : DWord} {e : Eff}
    (he : copyTrap u f b bar caddr = some e) : KeptEff C D n e := by
  unfold copyTrap at he
  dsimp only at he
  split at he
  · exact Option.some.inj he ▸ hu.state
  · split at he
    · exact Option.some.inj he ▸ hu.state
    · split at he
      · exact Option.some.inj he ▸ hu.state
      · obtain ⟨x, -, rfl⟩ := Option.map_eq_some_iff.mp he
        exact hu.state

theorem keeps_sredTicket (h : Kept C D n s) (c : Copy) : Kept C D n (sredTicket s c).1 := by
  unfold sredTicket
  split
  · split
    · exact h.same rfl
    · exact h
  · exact h

theorem keeps_execCopy (h : Kept C D 0 s) (f : RFmt) : KeptOut C D (execCopy f s) := keeps_runInstr h fun m u hu => by
  refine keepsEff_ite hu.state (keepsEff_ite hu.state (keepsEff_ite hu.state (keepsEff_ite hu.state (keepsEff_ite hu.state ?_))))
  split
  next e he => exact keepsEff_copyTrap hu he
  next =>
    refine keepsEff_ite hu.state ?_
    have hs : ∀ cls c, Kept C D m (sredTicket (updGroup (fresh u.s).2 u.g.gid fun g => engAdd g cls (fresh u.s).1) c).1 := fun cls c =>
      keeps_sredTicket (keeps_updGroup _ (fun _ => namesOf_engAdd ..) (keeps_fresh hu.state)) c
    dsimp only
    split
    · exact Kept.same (kept_meetObj closed_kept _ _ (hs _ _)) rfl
    · exact Kept.same (hs _ _) rfl

theorem keeps_execWaitc (h : Kept C D 0 s) (f : RFmt) : KeptOut C D (execWaitc f s) := keeps_runInstr h fun m u hu => by
  refine keepsEff_ite hu.state (keepsEff_ite hu.state (keepsEff_ite hu.state (keepsEff_ite hu.state ?_)))
  split
  · exact kept_acquireDev closed_kept _ hu.state
  · exact kept_acquireDev closed_kept _ hu.state
  · exact hu.state

/-! ## Chunks -/

theorem keeps_stopCopy (h : Kept C D n s) (c : Copy) (x : CopyStop) : Kept C D n (stopCopy s c x) :=
  kept_report closed_kept _ (kept_setCopy closed_kept _ h)

theorem keeps_copyPages (h : Kept C D n s) (c : Copy) (a : Access) (va : DWord) (k : Nat) : Kept C D n (copyPages s c a va k).2 := by
  unfold copyPages
  split
  · exact h
  next ctx _ =>
    have key : ∀ (js : List Nat) (r : Except PageFault (List (DWord × Nat × Nat)) × State), Kept C D n r.2 →
        Kept C D n (js.foldl (fun r j =>
      match r.1 with
      | .error e => (.error e, r.2)
      | .ok l =>
        let lo := max va.toNat (0x1_0000 * (va.toNat / 0x1_0000 + j))
        let hi := min (va.toNat + k) (0x1_0000 * (va.toNat / 0x1_0000 + j) + 0x1_0000)
        match walkAccess r.2 ctx (BitVec.ofNat 64 lo) a c.sup with
        | (.error e, s) => (.error e, s)
        | (.ok pa, s) => (.ok (l ++ [(BitVec.ofNat 64 lo, pa, hi - lo)]), s)) r).2 := by
      intro js
      induction js with
      | nil => exact fun r h => h
      | cons j js ih =>
        intro r h
        refine ih _ ?_
        obtain ⟨x, t⟩ := r
        cases x with
        | error e => exact h
        | ok l =>
          have hw := kept_walkAccess closed_kept ctx (BitVec.ofNat 64 (max va.toNat (0x1_0000 * (va.toNat / 0x1_0000 + j)))) a c.sup h
          dsimp only at hw ⊢
          generalize walkAccess t ctx (BitVec.ofNat 64 (max va.toNat (0x1_0000 * (va.toNat / 0x1_0000 + j)))) a c.sup = w at hw
          obtain ⟨y, t'⟩ := w
          cases y with
          | error e => exact hw
          | ok pa => exact hw
    exact key _ _ h

theorem keeps_copyRead (h : Kept C D n s) (c : Copy) (va : DWord) (k : Nat) : Kept C D n (copyRead s c va k).2 := by
  have hp := keeps_copyPages h c .load va k
  unfold copyRead
  split
  · exact h
  · split
    next he => exact hp.snd he
    next he =>
      have := hp.snd he
      split
      · exact this
      · exact this

theorem keeps_clearBad (h : Kept C D n s) (pa k : Nat) : Kept C D n (clearBad s pa k) := h.same rfl

theorem keeps_copyWrite (h : Kept C D n s) (c : Copy) (va : DWord) (k lo : Nat) (bs : List Byte) : Kept C D n (copyWrite s c va k lo bs).2 := by
  have hp := keeps_copyPages h c .store va k
  unfold copyWrite
  split
  · exact kept_settleKeys closed_kept _ (kept_spadWrite closed_kept _ _ _ _ h)
  · split
    next he => exact hp.snd he
    next he =>
      have h1 := hp.snd he
      split
      · exact h1
      · dsimp only
        refine keeps_ite (kept_foldl closed_kept (fun _ _ h => kept_streamPut closed_kept _ _ _ h) _ ?_)
          (kept_foldl closed_kept (fun _ _ h => kept_noteZero closed_kept _ _ _ (closed_kept.phys _ _ _ h)) _ ?_)
        · exact keeps_ite h1 (kept_foldl closed_kept (fun _ _ h => keeps_clearBad h ..) _ h1)
        · exact keeps_ite h1 (kept_foldl closed_kept (fun _ _ h => keeps_clearBad h ..) _ h1)

theorem keeps_readPart (h : Kept C D n s) (c : Copy) (k : Nat) (x : Chunk) (rd : Nat) : Kept C D n (readPart s c k x rd).2.1 := by
  unfold readPart
  extract_lets p have' upto
  split
  · exact h
  · split
    next he => exact (keeps_copyRead h ..).snd he
    next he => exact (keeps_copyRead h ..).snd he

theorem keeps_writePart (h : Kept C D n s) (c : Copy) (k : Nat) (x : Chunk) (wr : Nat) : Kept C D n (writePart s c k x wr).2.1 := by
  unfold writePart
  extract_lets p upto
  split
  · exact h
  · split
    next he => exact (keeps_copyWrite h ..).snd he
    next he => exact (keeps_copyWrite h ..).snd he

theorem keeps_endChunk (h : Kept C D n s) (c : Copy) (k : Nat) (x : Chunk) : Kept C D n (endChunk s c k x) := by
  unfold endChunk
  refine keeps_ite (kept_setCopy closed_kept _ h) ?_
  dsimp only
  split
  · exact kept_settleKeys closed_kept _ (kept_landBytes closed_kept _ _ _ _ (kept_setCopy closed_kept _ h))
  · exact kept_setCopy closed_kept _ h

theorem keeps_performPart (h : Kept C D n s) (c : Copy) (k : Nat) (x : Chunk) (rd wr : Nat) : Kept C D n (performPart s c k x rd wr) := by
  have h1 := keeps_readPart h c k x rd
  unfold performPart
  split
  next he =>
    rw [he] at h1
    exact keeps_stopCopy h1 ..
  next s1 c1 he =>
    rw [he] at h1
    have h2 := keeps_writePart h1 c1 k x wr
    split
    next he =>
      rw [he] at h2
      exact keeps_stopCopy h2 ..
    next he =>
      rw [he] at h2
      exact keeps_endChunk h2 ..

theorem keeps_performChunk (h : Kept C D n s) (cid k : Nat) : Kept C D n (performChunk s cid k) := by
  unfold performChunk
  split
  · exact h
  · split
    · exact keeps_ite h (keeps_performPart h ..)
    · exact h

/-! ## Completion -/

theorem keeps_copyGone (h : Kept C D n s) (c : Copy) : Kept C D n (copyGone s c) :=
  Kept.same (keeps_updGroup c.gid (f := fun g => engDone g c.cid) (fun _ => ⟨rfl, .refl _, .refl _⟩) h) rfl

theorem keeps_copyAct (h : Kept C D n s) (c : Copy) : Kept C D n (copyAct s c) := by
  have h1 : Kept C D n (fresh s).2 := keeps_fresh h
  unfold copyAct
  split
  · exact Kept.same h1 rfl
  · exact keeps_ite (keeps_copyGone (keeps_updGrid _ _ h1) _) (Kept.same h1 rfl)
  · exact keeps_copyGone h _

variable (h : Kept C D 0 s)
include h

theorem keeps_execCopyChunk (c : Nat) (m : ChunkMove) : KeptOut C D (execCopyChunk c m s) := by
  unfold execCopyChunk
  split
  · exact .next h
  · dsimp only
    split
    · exact .next h
    · split
      · refine .next (n := 0) ?_
        split
        · exact keeps_performPart h ..
        · exact kept_foldl closed_kept (fun _ _ h => keeps_performChunk h ..) _ h
      · exact .next h

theorem keeps_execCopyCompletion (c : Nat) : KeptOut C D (execCopyCompletion c s) := by
  unfold execCopyCompletion
  split
  · exact .next h
  · split
    · exact .next h
    · split
      · exact .next (keeps_ite (keeps_copyGone h _) h)
      · split
        · exact .next (keeps_copyAct h _)
        · exact .next h

end

end Sys2Proof.Machine
end

section
/-!
SUPPORT. Divergence and the control class keep the canonical form of memories and the model's numbers: a new split or region takes
the next free number (O59, O60).
-/
namespace Sys2Proof.Machine

/-! ## New splits and regions -/

theorem sids_marked (ps : List Split) (k : Nat) (v : Option Nat) : (ps.map fun p =>
      if p.sid = k then { p with resident := true } else if v = some p.sid then { p with resident := false } else p).map Split.sid =
    ps.map Split.sid := by
  rw [List.map_map]
  refine List.map_congr_left fun x _ => ?_
  rw [Function.comp_apply]
  split
  · rfl
  · split <;> rfl

theorem makeResident_sids (g : Group) (k : Nat) : (makeResident g k).splits.map Split.sid = g.splits.map Split.sid := sids_marked ..

theorem rids_marked (rs : List Region) (v : Option Nat) :
    (rs.map fun x => if v = some x.rid then { x with resident := false } else x).map Region.rid = rs.map Region.rid := by
  rw [List.map_map]
  refine List.map_congr_left fun x _ => ?_
  rw [Function.comp_apply]
  split <;> rfl

/-- A split whose number none of the group has. -/
theorem NamesOk.addSplit {k m : Nat} {g : Group} {p : Split} (h : NamesOk k g) (hk : k ≤ p.sid) (hm : p.sid < m) :
    NamesOk m (addSplit g p) := by
  have hsids : (Sys2Proof.Machine.addSplit g p).splits.map Split.sid = g.splits.map Split.sid ++ [p.sid] := by
    rw [Sys2Proof.Machine.addSplit, makeResident_sids, List.map_append]
    rfl
  have hkm : k ≤ m := Nat.le_trans hk (Nat.le_of_lt hm)
  refine ⟨Nat.lt_of_lt_of_le h.gid hkm, ⟨?_, fun q hq => ?_⟩, ⟨h.regions.1, fun r hr => Nat.lt_of_lt_of_le (h.regions.2 r hr) hkm⟩⟩
  · rw [hsids, List.nodup_append]
    refine ⟨h.splits.1, List.nodup_singleton _, fun a ha b hb e => ?_⟩
    obtain ⟨x, hx, rfl⟩ := List.mem_map.mp ha
    have := h.splits.2 x hx
    have := List.mem_singleton.mp hb
    omega
  · have := List.mem_map_of_mem (f := Split.sid) hq
    rw [hsids] at this
    rcases List.mem_append.mp this with hx | hx
    · obtain ⟨x, hx, he⟩ := List.mem_map.mp hx
      exact he ▸ Nat.lt_of_lt_of_le (h.splits.2 x hx) hkm
    · rw [List.mem_singleton.mp hx]
      exact hm

theorem addRegion_rids (g : Group) (r : Region) : (addRegion g r).regions.map Region.rid = g.regions.map Region.rid ++ [r.rid] := by
  rw [addRegion, List.map_append, rids_marked]
  rfl

/-- A region whose number none of the group has. -/
theorem NamesOk.addRegion {k m : Nat} {g : Group} {r : Region} (h : NamesOk k g) (hk : k ≤ r.rid) (hm : r.rid < m) :
    NamesOk m (addRegion g r) := by
  have hkm : k ≤ m := Nat.le_trans hk (Nat.le_of_lt hm)
  refine ⟨Nat.lt_of_lt_of_le h.gid hkm, ⟨h.splits.1, fun p hp => Nat.lt_of_lt_of_le (h.splits.2 p hp) hkm⟩, ⟨?_, fun q hq => ?_⟩⟩
  · rw [addRegion_rids, List.nodup_append]
    refine ⟨h.regions.1, List.nodup_singleton _, fun a ha b hb e => ?_⟩
    obtain ⟨x, hx, rfl⟩ := List.mem_map.mp ha
    have := h.regions.2 x hx
    have := List.mem_singleton.mp hb
    omega
  · have := List.mem_map_of_mem (f := Region.rid) hq
    rw [addRegion_rids] at this
    rcases List.mem_append.mp this with hx | hx
    · obtain ⟨x, hx, he⟩ := List.mem_map.mp hx
      exact he ▸ Nat.lt_of_lt_of_le (h.regions.2 x hx) hkm
    · rw [List.mem_singleton.mp hx]
      exact hm

theorem namesOf_filterSplits (g : Group) (p : Split → Bool) : NamesOf g { g with splits := g.splits.filter p } :=
  ⟨rfl, List.filter_sublist.map _, .refl _⟩

theorem namesOf_filterRegions (g : Group) (p : Region → Bool) : NamesOf g { g with regions := g.regions.filter p } :=
  ⟨rfl, .refl _, List.filter_sublist.map _⟩

theorem namesOf_unexpect (g : Group) (rs : List Region) (x : Lanes) (as : List Nat) : NamesOf g (unexpect g rs x as) := by
  unfold unexpect
  induction rs generalizing g with
  | nil => exact .refl g
  | cons r rs ih =>
    refine NamesOf.trans ?_ (ih _)
    dsimp only
    split
    · exact namesOf_setRegion _ _
    · exact .refl g

theorem namesOf_setSplits (ps : List Split) (g : Group) : NamesOf g (ps.foldl setSplit g) := by
  induction ps generalizing g with
  | nil => exact .refl g
  | cons p ps ih => exact (namesOf_setSplit g p).trans (ih _)

section
variable {C D : Prop} {n : Nat} {s : State}

/-! ## Closes and releases -/

theorem keeps_closeCheck (h : Kept C D n s) (gid rid : Nat) : Kept C D n (closeCheck s gid rid) := by
  unfold closeCheck
  split
  · exact h
  next g hg =>
    split
    · exact h
    next r hr =>
      refine keeps_ite (keeps_setGroup_of h hg (namesOf_filterRegions ..)) (keeps_ite h ?_)
      dsimp only
      split
      · exact h
      next p ps _ =>
        refine kept_setGroup closed_kept (fun hc => ?_) (keeps_fresh (keeps_fresh h))
        refine NamesOk.addSplit (((h.found hg hc).of (namesOf_filterRegions ..)).of (namesOf_filterSplits ..)) (Nat.le_refl _) ?_
        exact Nat.lt_succ_of_lt (Nat.lt_succ_self _)

theorem keeps_closeChecks (h : Kept C D n s) (gid : Nat) (rs : List Region) : Kept C D n (closeChecks s gid rs) :=
  kept_foldl closed_kept (fun _ _ h => keeps_closeCheck h ..) rs h

theorem keeps_syncRelease (h : Kept C D n s) (gid : Nat) : Kept C D n (syncRelease s gid) := by
  unfold syncRelease
  split
  · exact h
  next g hg =>
    refine keeps_ite h ?_
    have h1 : ∀ (ps : List Split) as (acc : State × List Split), Kept C D s.nextId acc.1 → Kept C D s.nextId (ps.foldl (fun acc p =>
        let r := renew acc.1 as { p with state := .ready }
        (r.2, acc.2 ++ [r.1])) acc).1 := fun ps as acc h => kept_foldl_keys closed_kept (fun _ _ h => keeps_fresh h) ps h
    have h2 := h1 ((g.splits.filter fun p => p.state != .joined).filter fun p => p.state == .synced)
      (((g.splits.filter fun p => p.state != .joined).filter fun p => p.state == .synced).flatMap Split.agents) (s, []) h.raise
    refine kept_setGroup closed_kept (fun hc => ?_) (h2.lower h.low)
    exact ((h.found hg hc).mono h2.low).of (namesOf_setSplits ..)

theorem keeps_mergeBefore (h : Kept C D n s) (gid sid : Nat) : Kept C D n (mergeBefore s gid sid) := by
  unfold mergeBefore
  split
  · exact h
  next g hg =>
    split
    · exact h
    next p _ =>
      refine keeps_ite h ?_
      refine kept_setGroup closed_kept (fun hc => ?_) (keeps_fresh h)
      exact ((h.found hg hc).mono (Nat.le_succ _)).of (namesOf_setSplit_of (namesOf_filterSplits ..) _)

/-! ## The instructions -/

section
variable {u : Iss} (hu : KeptIss C D n u)
include hu

theorem KeptIss.names (hc : C) : NamesOk u.s.nextId u.g := (hu.group hc).mono hu.state.low

omit hu in
theorem keepsEff_jumpTo (h : Kept C D n s) (u : Iss) (pc : DWord) : KeptEff C D n (jumpTo u s pc) := keeps_updSplit _ _ _ h

theorem keepsEff_jumpAligned (h : Kept C D n s) (t : DWord) : KeptEff C D n (jumpAligned u s t) :=
  keepsEff_ite hu.state (keepsEff_jumpTo h ..)

theorem keepsEff_branchIf {e : Eff} (he : KeptEff C D n e) : KeptEff C D n (branchIf u e) := by
  unfold branchIf
  split
  · exact hu.state
  · exact hu.state
  · exact he

theorem keepsEff_divide (taken : Lanes) (tgt join : DWord) : KeptEff C D n (divide u taken tgt join) := by
  refine keepsEff_ite hu.state ?_
  refine kept_setGroup closed_kept (fun hc => ?_) (keeps_fresh (keeps_fresh (keeps_fresh (keeps_fresh hu.state))))
  refine NamesOk.addSplit (NamesOk.addRegion (m := u.s.nextId + 1) ((hu.names hc).of (namesOf_setSplit ..)) ?_ ?_) ?_ ?_
  · exact Nat.le_refl _
  · exact Nat.lt_succ_self _
  · exact Nat.le_refl _
  · show u.s.nextId + 1 < u.s.nextId + 1 + 1 + 1 + 1
    omega

theorem keepsEff_breakOut (x : Lanes) (rs : List Region) (tgt : DWord) : KeptEff C D n (breakOut u x rs tgt) := by
  have hend : ∀ t, Kept C D n t → Kept C D n (syncRelease (closeChecks t u.g.gid rs) u.g.gid) := fun t h =>
    keeps_syncRelease (keeps_closeChecks h ..) _
  refine keepsEff_ite (hend _ ?_) (keepsEff_ite hu.state (hend _ ?_))
  · refine kept_setGroup closed_kept (fun hc => ?_) (keeps_fresh hu.state)
    exact ((hu.names hc).mono (Nat.le_succ _)).of ((namesOf_setSplit ..).trans (namesOf_unexpect ..))
  · refine kept_setGroup closed_kept (fun hc => ?_) (keeps_fresh (keeps_fresh (keeps_fresh hu.state)))
    refine NamesOk.addSplit ((hu.names hc).of ((namesOf_setSplit ..).trans (namesOf_unexpect ..))) (Nat.le_refl _) ?_
    show u.s.nextId < u.s.nextId + 1 + 1 + 1
    omega

theorem keeps_exitLanes (h : Kept C D n s) (x : Lanes) : Kept C D n (exitLanes u s x) := by
  unfold exitLanes
  split
  · exact h
  next g hg =>
    refine keeps_syncRelease (keeps_closeChecks (keeps_setGroup_of h hg ?_) ..) _
    split
    · exact (namesOf_unexpect ..).trans (namesOf_filterSplits ..)
    · exact (namesOf_unexpect ..).trans (namesOf_setSplit ..)

theorem keepsEff_exitJBody (f : MFmt) (x : Lanes) : KeptEff C D n (exitJBody u f x) := by
  unfold exitJBody
  dsimp only
  split
  next e he => exact keepsEff_addrTrap hu he
  next =>
    have ht := keeps_translateLanes hu hu.state .rmw (x.toList.filter fun l => effAddr u f l != 0#64) (effAddr u f)
    exact keepsEff_ite ht (keepsEff_ite hu.state (keeps_exitLanes hu (keeps_ite ht (keeps_addOp ht ..)) x))

theorem keeps_parkAs (st : SplitState) : Kept C D n (parkAs u st) := keeps_updSplit _ _ _ (keeps_fresh hu.state)

end

section
variable (h : Kept C D 0 s)
include h

theorem keeps_execBra (f : CFmt) : KeptOut C D (execBra f s) := keeps_runInstr h fun _ _ hu =>
  keepsEff_branchIf hu (keepsEff_jumpTo hu.state ..)

theorem keeps_execBraD (f : CFmt) : KeptOut C D (execBraD f s) := keeps_runInstr h fun _ _ hu =>
  keepsEff_ite hu.state (keepsEff_ite (keepsEff_jumpTo hu.state ..) (keepsEff_divide hu ..))

theorem keeps_execBrk (f : CFmt) : KeptOut C D (execBrk f s) := keeps_runInstr h fun _ _ hu =>
  keepsEff_ite hu.state (keepsEff_ite hu.state (keepsEff_breakOut hu ..))

theorem keeps_execBrx (f : CFmt) : KeptOut C D (execBrx f s) := keeps_runInstr h fun _ _ hu => by
  refine keepsEff_ite hu.state (keepsEff_branchIf hu (keepsEff_ite (keepsEff_jumpAligned hu hu.state _) (keepsEff_ite hu.state ?_)))
  split
  · exact hu.state
  · exact keepsEff_jumpAligned hu hu.state _

theorem keeps_execCall (f : CFmt) : KeptOut C D (execCall f s) := keeps_runInstr h fun _ _ hu =>
  keepsEff_ite hu.state (keepsEff_branchIf hu (keepsEff_jumpAligned hu (hu.setGroup hu.state (namesOf_writeScalarNat ..)) _))

theorem keeps_execRet (f : CFmt) : KeptOut C D (execRet f s) := keeps_runInstr h fun _ _ hu =>
  keepsEff_ite hu.state (keepsEff_branchIf hu (keepsEff_jumpAligned hu hu.state _))

theorem keeps_execExit (f : CFmt) : KeptOut C D (execExit f s) := keeps_runInstr h fun _ _ hu =>
  keepsEff_ite hu.state (keeps_exitLanes hu hu.state _)

theorem keeps_execExitJ (f : MFmt) : KeptOut C D (execExitJ f s) := keeps_runInstr h fun _ _ hu =>
  keepsEff_ite hu.state (keepsEff_ite hu.state (keepsEff_exitJBody hu ..))

theorem keeps_execJoin (f : CFmt) : KeptOut C D (execJoin f s) := keeps_runInstr h fun _ _ hu => by
  split
  · exact hu.state
  · refine keepsEff_ite hu.state ?_
    exact keeps_syncRelease (keeps_closeCheck (keeps_updGroup _ (fun _ => namesOf_setRegion ..) (keeps_parkAs hu _)) ..) _

theorem keeps_execGsync (f : CFmt) : KeptOut C D (execGsync f s) := keeps_runInstr h fun _ _ hu => keeps_syncRelease (keeps_parkAs hu _) _

theorem keeps_execNop (f : CFmt) : KeptOut C D (execNop f s) := keeps_runInstr h fun _ _ hu => hu.state

end

end

end Sys2Proof.Machine
end

section
/-!
SUPPORT. The lane instructions and the system class keep the canonical form of memories and the model's numbers (O59, O60).
-/
namespace Sys2Proof.Machine

section
variable {C D : Prop} {n : Nat} {s : State}

/-! ## Lane instructions -/

section
variable {u : Iss} (hu : KeptIss C D n u)
include hu

theorem keepsEff_intLanes (f : RFmt) (wide : Bool) (xs : List Src) (op : REnv → List RSrc → Nat → Lane → Nat × Lane) :
    KeptEff C D n (intLanes u f wide xs op) := keepsEff_runLanes hu ..

theorem keepsEff_int1 (f : RFmt) (t : IntTy) (wide : Bool) (op : Nat → Nat) : KeptEff C D n (int1 u f t wide op) := keepsEff_intLanes hu ..

theorem keepsEff_int2 (f : RFmt) (t : IntTy) (wide : Bool) (b : Src) (op : REnv → Nat → Nat → Nat) : KeptEff C D n (int2 u f t wide b op) :=
  keepsEff_intLanes hu ..

theorem keepsEff_int3 (f : RFmt) (t : IntTy) (wide : Bool) (b c : Src) (op : REnv → Nat → Nat → Nat → Nat) :
    KeptEff C D n (int3 u f t wide b c op) := keepsEff_intLanes hu ..

theorem keepsEff_intBin (f : RFmt) (t : IntTy) (op : REnv → Nat → Nat → Nat) : KeptEff C D n (intBin u f t op) := keepsEff_int2 hu ..

theorem keepsEff_runFloat (t : FloTy) (f : RFmt) (k : Nat) (op : PosOp) : KeptEff C D n (runFloat u t f k op) := by
  unfold runFloat
  exact keepsEff_runLanes hu ..

/-- A group with no other numbers in place of the issuing split's. -/
theorem KeptIss.withGroup {g : Group} (hg : NamesOf u.g g) : KeptIss C D n { u with g } := ⟨hu.state, fun hc => (hu.group hc).of hg⟩

theorem keepsEff_setsrUniform (k v : Nat) : KeptEff C D n (setsrUniform u k v) := by
  have hg : ∀ f : Group → Group, (∀ g, NamesOf g (f g)) → Kept C D n (updGroup u.s u.g.gid f) := fun f hf => keeps_updGroup _ hf hu.state
  unfold setsrUniform
  dsimp only
  split
  · exact keeps_updSplit _ _ _ hu.state
  · exact keepsEff_ite (keeps_updSplit _ _ _ hu.state) hu.state
  · exact hg _ fun g => ⟨rfl, .refl _, .refl _⟩
  · exact hg _ fun g => ⟨rfl, .refl _, .refl _⟩
  · exact hg _ fun g => ⟨rfl, .refl _, .refl _⟩
  · exact hg _ fun g => ⟨rfl, .refl _, .refl _⟩
  · exact hg _ fun g => ⟨rfl, .refl _, .refl _⟩
  · exact hu.state

end

/-! ## Pages -/

theorem keeps_physZero (h : Kept C D n s) (pa k : Nat) : Kept C D n (physZero s pa k) :=
  Kept.same (h.withMem fun hm => memWf_clear pa k hm) rfl

theorem keeps_pgmapLane (h : Kept C D n s) (c : Context) (va : DWord) (rw : Bool) : Kept C D n (pgmapLane s c va rw).2 := by
  unfold pgmapLane
  split
  · exact h
  · split
    · exact kept_orEntry closed_kept _ _ _ _ h
    · exact h
    · split
      · exact h
      · split
        · exact h
        next f t ht =>
          have h1 : Kept C D n t := by
            unfold poolTake at ht
            dsimp only at ht
            split at ht
            · exact nomatch ht
            · obtain ⟨-, rfl⟩ := Prod.mk.inj (Option.some.inj ht)
              exact kept_physWrite closed_kept _ _ _ h
          have h2 := keeps_physZero h1 f 0x1_0000
          dsimp only
          split
          · exact kept_report closed_kept _ (kept_physWrite closed_kept _ _ _ h2)
          · exact kept_physWrite closed_kept _ _ _ h2

theorem keeps_pgmapLanes (u : Iss) (h : Kept C D n u.s) (f : MFmt) (lanes : List Nat) : Kept C D n (pgmapLanes u f lanes).1 := by
  refine kept_foldl_keys closed_kept (fun r l hr => ?_) lanes h
  exact keeps_pgmapLane hr ..

/-! ## The instructions -/

section
variable (h : Kept C D 0 s)
include h

theorem keeps_execPart (t : EltTy) (f : RFmt) : KeptOut C D (execPart t f s) := keeps_runInstr h fun _ _ hu => by
  refine keepsEff_unlessEmpty hu (keepsEff_runCross ?_ ..)
  exact hu.withGroup ⟨rfl, .refl _, .refl _⟩

theorem keeps_execYield (f : CFmt) : KeptOut C D (execYield f s) := keeps_runInstr h fun m _ hu => by
  refine keepsEff_ite hu.state (keeps_updSplit _ _ _ ?_)
  have key : ∀ (xs : List (Group × Split)) (acc : List (Nat × Nat × Nat) × State), Kept C D m acc.2 → Kept C D m (xs.foldl (fun acc x =>
      let r := choose acc.2 2
      (if r.1 = 1 then acc.1 ++ [(x.1.gid, x.2.sid, x.2.issues)] else acc.1, r.2)) acc).2 := by
    intro xs
    induction xs with
    | nil => exact fun _ h => h
    | cons x xs ih => exact fun acc h => ih _ (keeps_choose 2 h)
  exact key _ ([], _) hu.state

theorem keeps_execMovsr (f : KFmt) : KeptOut C D (execMovsr f s) := keeps_runInstr h fun _ _ hu =>
  keepsEff_ite hu.state (keepsEff_ite hu.state (keepsEff_ite hu.state (keepsEff_ite (hu.setGroup hu.state (namesOf_writeScalarNat ..))
    (hu.writeVector (.refl _) hu.state ..))))

theorem keeps_execSetsr (f : KFmt) : KeptOut C D (execSetsr f s) := keeps_runInstr h fun _ _ hu =>
  keepsEff_ite hu.state (keepsEff_ite (hu.setGroup hu.state ⟨rfl, .refl _, .refl _⟩) (keepsEff_ite hu.state (keepsEff_setsrUniform hu ..)))

theorem keeps_execFmtset (f : KFmt) : KeptOut C D (execFmtset f s) := keeps_runInstr h fun _ _ hu =>
  keepsEff_ite hu.state (keepsEff_ite hu.state (keepsEff_ite (keeps_updSplit _ _ _ hu.state) hu.state))

theorem keeps_execBkpt (f : KFmt) : KeptOut C D (execBkpt f s) := keeps_runInstr h fun _ _ hu =>
  keepsEff_ite hu.state (keepsEff_ite hu.state (keepsEff_ite hu.state (keeps_halted hu.names hu.state ..)))

theorem keeps_execTrap (f : KFmt) : KeptOut C D (execTrap f s) := keeps_runInstr h fun _ _ hu =>
  keepsEff_ite hu.state (keepsEff_ite hu.state hu.state)

theorem keeps_execTrapEsc (f : KFmt) : KeptOut C D (execTrapEsc f s) := keeps_runInstr h fun _ _ hu => by
  refine keepsEff_ite hu.state (keepsEff_ite hu.state ?_)
  split
  · exact hu.state
  · exact keeps_halted (fun hc => (hu.names hc).of (namesOf_setSplit ..)) hu.state ..

theorem keeps_execIret (f : KFmt) : KeptOut C D (execIret f s) := keeps_runInstr h fun _ _ hu => by
  refine keepsEff_ite hu.state (keepsEff_ite hu.state (keepsEff_ite hu.state ?_))
  split
  · exact hu.state
  · exact keeps_returnFromHandler hu.group hu.state _

theorem keeps_execFltrd (f : KFmt) : KeptOut C D (execFltrd f s) := keeps_runInstr h fun _ _ hu =>
  keepsEff_ite hu.state (hu.writeVector (.refl _) hu.state ..)

theorem keeps_execPgmap (f : MFmt) : KeptOut C D (execPgmap f s) := keeps_runInstr h fun _ u hu =>
  keepsEff_ite hu.state (keepsEff_ite hu.state (keepsEff_ite hu.state
    (keeps_updGroup _ (fun _ => namesOf_writeReg ..) (keeps_pgmapLanes u hu.state ..))))

theorem keeps_execReservedEncoding (w : IWord) : KeptOut C D (execReservedEncoding w s) := by
  unfold execReservedEncoding
  split
  · exact fun t e => nomatch e
  next u hi => exact .next (keeps_takeTrap (keeps_issuer h hi).state ..)

end

end

end Sys2Proof.Machine
end

section
/-!
SUPPORT. Fetches, breakpoints and halts keep the canonical form of memories and the model's numbers (O59, O60).
-/
namespace Sys2Proof.Machine

section
variable {C D : Prop} {n : Nat} {s : State}

/-! ## Breakpoints and fetches -/

theorem keeps_markBp (h : Kept C D n s) (gid sid : Nat) : Kept C D n (markBp s gid sid) := by
  unfold markBp
  split
  · exact h
  · split
    · exact h
    · exact keeps_updSplit _ _ _ h

theorem keeps_breakAt {x : Group} (hx : C → NamesOk s.nextId x) (h : Kept C D n s) (c : Context) (p : Split) (k : Nat) (a : DWord) (mask : Lanes)
    (chain : Bool) : Kept C D n (breakAt s x c p k a mask chain) := keeps_halted hx h ..

theorem keeps_breakDue {x : Group} (hx : C → NamesOk s.nextId x) (h : Kept C D n s) (c : Context) (d : BpDue) : Kept C D n (breakDue s x c d) := by
  have hy : C → NamesOk s.nextId { x with bpDue := none } := fun hc => (hx hc).of ⟨rfl, .refl _, .refl _⟩
  unfold breakDue
  dsimp only
  split
  · exact keeps_breakAt hy h ..
  · exact kept_setGroup closed_kept hy h

theorem keeps_bufferInstr (h : Kept C D n s) (core quarter ctx va : Nat) (w : IWord) : Kept C D n (bufferInstr s core quarter ctx va w) :=
  kept_setCore closed_kept _ _ h

theorem keeps_fillLine (h : Kept C D n s) (core ctx va pa : Nat) : Kept C D n (fillLine s core ctx va pa) := kept_setCore closed_kept _ _ h

theorem keeps_fetchAt (h : Kept C D n s) (core quarter : Nat) (c : Context) (pc : DWord) (src : FetchFrom) (afresh sup : Bool) :
    Kept C D n (fetchAt s core quarter c pc src afresh sup).2 := by
  have ht := kept_translate closed_kept core c pc .fetch sup h
  unfold fetchAt
  dsimp only
  split
  · exact h
  · split
    · exact h
    · split
      · exact h
      · split
        next he => exact ht.snd he
        next he =>
          have h1 := ht.snd he
          split
          · exact keeps_bufferInstr h1 ..
          · split
            · exact h1
            · split
              · exact h1
              · exact keeps_bufferInstr (keeps_fillLine h1 ..) ..

theorem keeps_fetchTrap (h : Kept C D n s) (gid sid : Nat) (r : Fetched) : Kept C D n (fetchTrap s gid sid r) := by
  unfold fetchTrap
  dsimp only
  split
  · exact h
  · exact h
  · exact keeps_takeTrap h ..
  · exact keeps_takeTrap h ..
  · exact keeps_takeTrap h ..
  · refine keeps_takeTrap ?_ ..
    exact h.same rfl

section
variable (h : Kept C D 0 s)
include h

theorem keeps_execHwBreakpoint (g sp : Nat) : KeptOut C D (execHwBreakpoint g sp s) := by
  unfold execHwBreakpoint
  split
  · exact .next h
  next x hx =>
    split
    next p c _ _ =>
      split
      · exact .next h
      · split
        · exact .next (keeps_ite (keeps_breakDue (h.found hx) h ..) h)
        · split
          · exact .next h
          · exact .next (keeps_ite (keeps_breakAt (h.found hx) h ..) h)
    next => exact .next h

theorem keeps_execInstructionFetchFault (g sp : Nat) : KeptOut C D (execInstructionFetchFault g sp s) := by
  unfold execInstructionFetchFault
  split
  · exact .next h
  next x hx =>
    split
    next p c _ _ =>
      have hf := keeps_fetchAt h x.core x.quarter c p.pc .memory p.refetch x.inHandler
      generalize fetchAt s x.core x.quarter c p.pc .memory p.refetch x.inHandler = r at hf
      obtain ⟨r, t⟩ := r
      split
      · exact .next h
      · refine .next (n := 0) ?_
        cases r with
        | word w => exact h
        | misaligned => exact h
        | fault f => exact keeps_fetchTrap hf ..
        | ecc pa => exact keeps_fetchTrap hf ..
        | fabric => exact keeps_fetchTrap hf ..
        | busy => exact keeps_fetchTrap hf ..
    next => exact .next h

/-! ## Halts -/

theorem keeps_execDebuggerHalt (g : Nat) : KeptOut C D (execDebuggerHalt g s) := by
  unfold execDebuggerHalt
  split
  · exact .next h
  next x hx =>
    split
    · exact .next h
    · split
      · exact .next h
      · refine .next (keeps_setGroup_of h hx ?_)
        exact (namesOf_mapSplits x Split.holdSweep holdSweep_sid).trans ⟨rfl, .refl _, .refl _⟩

omit h in
theorem keeps_endBoost (h : Kept C D n s) : Kept C D n (endBoost s) := h.same rfl

theorem keeps_execSplitHalt (g sp : Nat) : KeptOut C D (execSplitHalt g sp s) := by
  unfold execSplitHalt
  split
  · exact .next h
  next x hx =>
    split
    · exact .next h
    · split
      · refine .next (keeps_endBoost (keeps_setGroup_of h hx (namesOf_setSplit_of ?_ _)))
        exact ⟨rfl, .refl _, .refl _⟩
      · exact .next h

theorem keeps_execFaultRecordDeferredDelivery (k : Nat) : KeptOut C D (execFaultRecordDeferredDelivery k s) := by
  unfold execFaultRecordDeferredDelivery
  split
  · exact .next h
  · split
    · exact .next h
    · split
      · refine .next (n := 0) (kept_writeRec closed_kept _ _ ?_)
        exact h.same rfl
      · exact .next h

theorem keeps_execReproSyncProceed (g sp : Nat) : KeptOut C D (execReproSyncProceed g sp s) := by
  unfold execReproSyncProceed
  split
  · exact .next h
  · split
    · exact .next h
    · split
      · exact .next (keeps_updSplit _ _ _ h)
      · exact .next h

theorem keeps_execMapresDeferredGrant (g sp : Nat) : KeptOut C D (execMapresDeferredGrant g sp s) := by
  unfold execMapresDeferredGrant
  split
  · exact .next h
  next x hx =>
    split
    next f m _ =>
      split
      · have h1 : Kept C D 0 { s with cur := some (g, sp) } := h.same rfl
        split
        next t ht => exact .next (Kept.same (keeps_execMapres h1 f t ht) rfl)
        next => exact keeps_execMapres h1 f
      · exact .next h
    next => exact .next h

end

end

end Sys2Proof.Machine
end

section
/-!
SUPPORT. Placing teams, and the Rake's launches and evictions, keep the canonical form of memories and the model's numbers: a new
group and its split take the next free numbers (O59, O60).
-/
namespace Sys2Proof.Machine

section
variable {C D : Prop} {n : Nat} {s : State}

theorem Kept.team {tid : Nat} {t : Team} (h : Kept C D n s) (ht : teamOf s tid = some t) (hd : D) : memWf t.spad = true :=
  (h.mems hd).2.2.1 t (List.mem_of_find?_eq_some ht)

theorem Kept.handle {hid : Nat} {x : Handle} (h : Kept C D n s) (hx : handleOf s hid = some x) (hd : D) : memWf x.bytes = true :=
  (h.mems hd).2.2.2 x (List.mem_of_find?_eq_some hx)

theorem keeps_setTeam {t : Team} (ht : D → memWf t.spad = true) (h : Kept C D n s) : Kept C D n (setTeam s t) := by
  refine ⟨h.low, fun hd => ⟨(h.mems hd).1, (h.mems hd).2.1, fun x hx => ?_, (h.mems hd).2.2.2⟩,
    fun hc => ⟨(h.ids hc).groups, (h.ids hc).fresh, (h.ids hc).splits, (h.ids hc).regions⟩⟩
  obtain ⟨y, hy, rfl⟩ := List.mem_map.mp hx
  split
  · exact ht hd
  · exact (h.mems hd).2.2.1 y hy

/-- A new group of one split, whose numbers lie between a state's next free one and the present one. -/
theorem keeps_newGroup {k i : Nat} {g : Group} (hk : C → ∀ x ∈ s.groups, x.gid < k) (hg : k ≤ g.gid) (hlt : g.gid < s.nextId)
    (hp : g.splits.map Split.sid = [i]) (hi : i < s.nextId) (hr : g.regions = []) (h : Kept C D n s) :
    Kept C D n { s with groups := s.groups ++ [g] } := by
  refine keeps_addGroup (fun _ => ⟨hlt, ⟨?_, fun q hq => ?_⟩, ⟨?_, fun r hrm => ?_⟩⟩) (fun hc x hx => Nat.ne_of_lt (Nat.lt_of_lt_of_le (hk hc x hx) hg)) h
  · rw [hp]
    exact List.nodup_singleton _
  · have := List.mem_map_of_mem (f := Split.sid) hq
    rw [hp] at this
    exact List.mem_singleton.mp this ▸ hi
  · rw [hr]
    exact List.nodup_nil
  · rw [hr] at hrm
    exact nomatch hrm

/-! ## Teams -/

theorem keeps_writeArea (h : Kept C D n s) (ctx k : Nat) : Kept C D n (writeArea s ctx k) := by
  unfold writeArea
  split
  · exact h
  · split
    · exact h
    · exact Kept.same (closed_kept.phys _ _ _ h) rfl

theorem keeps_addLaunched (gr : Grid) (t : Team) (lbase : Nat) (h : Kept C D n s) (x : Nat × Nat × Nat) : Kept C D n (addLaunched gr t lbase s x) := by
  have h3 := keeps_fresh (keeps_fresh (keeps_fresh h))
  unfold addLaunched
  refine keeps_newGroup (k := s.nextId) (fun hc x hx => (h.ids hc).fresh x hx) (Nat.le_refl _) ?_ rfl ?_ rfl h3
  · show s.nextId < s.nextId + 1 + 1 + 1
    omega
  · show s.nextId + 1 < s.nextId + 1 + 1 + 1
    omega

theorem keeps_createTeam (h : Kept C D n s) (gr : Grid) (teamid copyNo core : Nat) (qs : List Nat) (lbase : Nat) :
    Kept C D n (createTeam s gr teamid copyNo core qs lbase) := by
  have h1 : Kept C D n { (fresh s).2 with teams := s.teams ++ [startTeam gr s.nextId teamid core s.nextId copyNo false gr.desc.spad], lastCore := core } :=
    Kept.same (keeps_addTeam (t := startTeam gr s.nextId teamid core s.nextId copyNo false gr.desc.spad) rfl (keeps_fresh h)) rfl
  exact kept_foldl closed_kept (fun _ x h => keeps_addLaunched gr _ lbase h x) _ (kept_acquireDev closed_kept _ h1)

/-- What a placement leaves is kept, whether or not it came about. -/
def KeptPut (C D : Prop) (n : Nat) : Except State State → Prop
  | .error s => Kept C D n s
  | .ok s => Kept C D n s

theorem keeps_placeRun (h : Kept C D n s) (gr : Grid) (teamid copyNo : Nat) (skip : List Nat) (lbase : Nat) :
    KeptPut C D n (placeRun s gr teamid copyNo skip lbase) := by
  unfold placeRun
  split
  · exact keeps_createTeam h ..
  · exact h

theorem keeps_placeTeam (h : Kept C D n s) (gr : Grid) (lbase : Nat) (u : Nat × RunKind) : KeptPut C D n (placeTeam s gr lbase u) := by
  have h1 := keeps_placeRun h gr u.1 1 [] lbase
  unfold placeTeam
  split
  · exact keeps_placeRun h ..
  · exact keeps_placeRun h ..
  · split
    next he =>
      rw [he] at h1
      exact h1
    next t he =>
      rw [he] at h1
      refine keeps_placeRun ?_ ..
      exact Kept.same (s := t) h1 rfl

theorem keeps_placeTeams (h : Kept C D n s) (gr : Grid) (lbase : Nat) (us : List (Nat × RunKind)) : KeptPut C D n (placeTeams s gr lbase us) := by
  have key : ∀ (us : List (Nat × RunKind)) (r : Except State State), KeptPut C D n r → KeptPut C D n (us.foldl (fun acc u => match acc with
      | .error e => .error e
      | .ok s => placeTeam s gr lbase u) r) := by
    intro us
    induction us with
    | nil => exact fun _ h => h
    | cons u us ih =>
      intro r hr
      refine ih _ ?_
      cases r with
      | error s => exact hr
      | ok s => exact keeps_placeTeam hr ..
  exact key us (.ok s) h

theorem keeps_offerAgain (h : Kept C D n s) : Kept C D n (offerAgain s) := h.same rfl

/-! ## Evictions -/

theorem namesOf_saveSlots (g : Group) : NamesOf g (saveSlots g) := ⟨rfl, .refl _, .refl _⟩

theorem keeps_teamAway (h : Kept C D n s) (tid : Nat) (p : Place) : Kept C D n (teamAway s tid p) := by
  unfold teamAway
  split
  · exact h
  next t ht =>
    refine keeps_setTeam (fun hd => ?_) (keeps_writeArea h ..)
    show memWf t.spad = true
    exact h.team ht hd

theorem keeps_teamFollows (h : Kept C D n s) (tid : Nat) (p : Place) : Kept C D n (teamFollows s tid p) :=
  keeps_ite (keeps_teamAway h ..) h

theorem writeArea_groups (s : State) (ctx k : Nat) : (writeArea s ctx k).groups = s.groups ∧ (writeArea s ctx k).nextId = s.nextId := by
  unfold writeArea
  split
  · exact ⟨rfl, rfl⟩
  · split
    · exact ⟨rfl, rfl⟩
    · exact ⟨rfl, rfl⟩

/-- A group set after a save area is written. -/
theorem keeps_setGroup_area {g g' : Group} (hg : C → NamesOk s.nextId g) (hs : NamesOf g g') (h : Kept C D n s) (ctx k : Nat) :
    Kept C D n (setGroup (writeArea s ctx k) g') :=
  kept_setGroup closed_kept (fun hc => (writeArea_groups s ctx k).2 ▸ (hg hc).of hs) (keeps_writeArea h ..)

theorem keeps_evict (h : Kept C D n s) (gid : Nat) : Kept C D n (evict s gid) := by
  unfold evict
  split
  · exact h
  next g hg =>
    refine keeps_teamFollows (keeps_setGroup_area (h.found hg) ?_ h ..) ..
    exact (namesOf_saveSlots g).trans ⟨rfl, .refl _, .refl _⟩

theorem keeps_evicts (h : Kept C D n s) (gs : List Nat) : Kept C D n (gs.foldl evict s) :=
  kept_foldl closed_kept (fun _ g h => keeps_evict h g) gs h

theorem keeps_evictTeams (h : Kept C D n s) (fuel core spad : Nat) : Kept C D n (evictTeams fuel s core spad) := by
  induction fuel generalizing s with
  | zero => exact h
  | succ k ih =>
    unfold evictTeams
    refine keeps_ite h ?_
    split
    · exact h
    · exact ih (keeps_evicts h _)

theorem keeps_makeRoom (h : Kept C D n s) (core regs spad : Nat) : Kept C D n (makeRoom s core regs spad) := by
  refine keeps_evictTeams (keeps_ite h ?_) ..
  split
  · exact keeps_evicts h _
  · exact h

/-! ## Launches -/

theorem memWf_writeCells (cs : List Host.Cell) {m : List Host.Cell} (hm : memWf m = true) :
    memWf (cs.foldl (fun m c => memWrite m c.1 c.2) m) = true := by
  induction cs generalizing m with
  | nil => exact hm
  | cons c cs ih => exact ih (memWf_write _ _ hm)

theorem keeps_receive (h : Kept C D n s) (tid hid : Nat) : Kept C D n (receive s tid hid) := by
  unfold receive
  split
  · exact h
  · refine keeps_mapHandles (fun x hx => ?_) (kept_updTeam closed_kept _ (fun t ht => memWf_writeCells _ ht) h)
    split
    · rfl
    · exact hx

/-- A team of one group, which takes the second of the next four numbers, and its split the third. -/
theorem keeps_launched {t : Team} {g : Group} (ht : t.spad = []) (hg : g.gid = s.nextId + 1) (hp : g.splits.map Split.sid = [s.nextId + 1 + 1])
    (hr : g.regions = []) (h : Kept C D n s) :
    Kept C D n { s with nextId := s.nextId + 1 + 1 + 1 + 1, teams := s.teams ++ [t], groups := s.groups ++ [g] } := by
  have h1 : Kept C D n { s with nextId := s.nextId + 1 + 1 + 1 + 1 } := h.of rfl rfl rfl rfl rfl (Nat.le_add_right s.nextId 4)
  have h4 : Kept C D n { s with nextId := s.nextId + 1 + 1 + 1 + 1, teams := s.teams ++ [t] } := keeps_addTeam (t := t) (by rw [ht]; rfl) h1
  have hlt : g.gid < s.nextId + 1 + 1 + 1 + 1 := by omega
  have hlt' : s.nextId + 1 + 1 < s.nextId + 1 + 1 + 1 + 1 := by omega
  have h5 := keeps_newGroup (s := { s with nextId := s.nextId + 1 + 1 + 1 + 1, teams := s.teams ++ [t] }) (k := s.nextId) (fun hc x hx => (h.ids hc).fresh x hx) (by omega) hlt hp hlt' hr h4
  exact h5

theorem keeps_launch (h : Kept C D n s) (gr : Grid) (core q lbase : Nat) (d : Desc) (rs : List ThreadRec) :
    Kept C D n (launch s gr core q lbase d rs) := by
  unfold launch
  dsimp only [fresh]
  split
  · refine keeps_receive (keeps_updGrid _ _ (kept_acquireDev closed_kept _ (keeps_launched ?_ ?_ ?_ ?_ h))) ..
    all_goals rfl
  · refine keeps_updGrid _ _ (kept_acquireDev closed_kept _ (keeps_launched ?_ ?_ ?_ ?_ h))
    all_goals rfl

theorem keeps_launchPan (h : Kept C D n s) {core pan : Nat} {p : Pan} {d : Desc} {gr : Grid} {t : State}
    (ht : launchPan s core pan p d gr = some t) : Kept C D n t := by
  unfold launchPan at ht
  dsimp only at ht
  split at ht
  · split at ht
    · obtain rfl := Option.some.inj ht
      exact kept_setCore closed_kept _ _ (keeps_launch (keeps_makeRoom h ..) ..)
    · exact nomatch ht
  · exact nomatch ht

section
variable (h : Kept C D 0 s)
include h

theorem keeps_execPanTimerExpiry (core pan : Nat) : KeptOut C D (execPanTimerExpiry core pan s) := by
  unfold execPanTimerExpiry
  dsimp only
  split
  · exact .next h
  · split
    · exact .next h
    · split
      · exact .next (kept_setCore closed_kept _ _ h)
      · exact .next h

theorem keeps_execPanLaunch (core pan : Nat) : KeptOut C D (execPanLaunch core pan s) := by
  unfold execPanLaunch
  split
  · exact .next h
  next p _ =>
    split
    next d gr _ _ =>
      split
      · refine .next (n := 0) ?_
        cases hl : launchPan s core pan p d gr with
        | none => exact h
        | some t => exact keeps_launchPan h hl
      · exact .next h
    next => exact .next h

omit h in
theorem keeps_fileInRake (h : Kept C D n s) {core : Nat} {r : ThreadRec} {t : State} (ht : fileInRake s core r = some t) : Kept C D n t := by
  unfold fileInRake at ht
  obtain ⟨i, -, rfl⟩ := Option.map_eq_some_iff.mp ht
  exact kept_setCore closed_kept _ _ h

theorem keeps_execBrineIntake (core ctx : Nat) : KeptOut C D (execBrineIntake core ctx s) := by
  unfold execBrineIntake
  split
  · exact .next h
  · split
    · exact .next h
    · split
      · split
        next ht => exact .next (kept_setCtx closed_kept _ (keeps_fileInRake h ht))
        next => exact .next h
      · exact .next h

theorem keeps_execDeferredRecordFile (k : Nat) : KeptOut C D (execDeferredRecordFile k s) := by
  unfold execDeferredRecordFile
  split
  · exact .next h
  · split
    · exact .next h
    · split
      next t ht => exact .next (Kept.same (kept_fileRec closed_kept ht h) rfl)
      next => exact .next h

end

end

end Sys2Proof.Machine
end

section
/-!
SUPPORT. Pre-emption, save, restore and resume keep the canonical form of memories and the model's numbers (O59, O60).
-/
namespace Sys2Proof.Machine

theorem namesOf_renumber (g : Group) (free : List Nat) : NamesOf g (renumber g free) := ⟨rfl, .refl _, .refl _⟩

section
variable {C D : Prop} {n : Nat} {s : State}

/-! ## Command words -/

theorem keeps_ackQueue (h : Kept C D n s) (q : Queue) (w : DWord) : Kept C D n (ackQueue s q w) :=
  keeps_setQueue _ (kept_physWrite closed_kept _ _ _ h)

theorem keeps_settleAcks (h : Kept C D n s) : Kept C D n (settleAcks s) := kept_settleAcks (P := Kept C D n) (fun _ q w h => keeps_ackQueue h q w) h

theorem keeps_spillPans (h : Kept C D n s) (core : Nat) (sel : Nat → Bool) : Kept C D n (spillPans s core sel) := by
  refine keeps_ite h (kept_foldl closed_kept (fun t r h => ?_) _ (kept_setCore closed_kept _ _ h))
  split
  · exact kept_setCtx closed_kept _ h
  · exact h

theorem keeps_askHalt (h : Kept C D n s) (sel : Team → Bool) : Kept C D n (askHalt s sel) := by
  have h1 := kept_mapGroups closed_kept (fun g => if (teamOf s g.team).any sel && g.place != .saved then { g with haltReq := true } else g)
    (fun g => by
      split
      · exact ⟨rfl, .refl _, .refl _⟩
      · exact .refl g) h
  have h2 := keeps_mapTeams (f := fun t => if sel t && t.place != .saved then { t with haltReq := true } else t)
    (fun t ht => by
      split
      · exact ht
      · exact ht) h1
  exact h2.same rfl

theorem keeps_preemptGrids (h : Kept C D n s) (sel : Nat → Bool) : Kept C D n (preemptGrids s sel) :=
  kept_foldl closed_kept (fun _ _ h => keeps_spillPans h ..) _ (keeps_askHalt h _)

theorem keeps_beginCmd (h : Kept C D n s) (q : Queue) (w : DWord) : Kept C D n (beginCmd s q w) := keeps_setQueue _ h

theorem keeps_runCmd (h : Kept C D n s) (q op : Nat) {f : Queue → DWord → State} (hf : ∀ q w, Kept C D n (f q w)) :
    Kept C D n (runCmd s q op f) := by
  unfold runCmd
  split
  · exact h
  · split
    · exact keeps_ite (keeps_settleAcks (hf _ _)) h
    · exact h

section
variable (h : Kept C D 0 s)
include h

theorem keeps_execPreemptQueue (q : Nat) : KeptOut C D (execPreemptQueue q s) := by
  refine .next (keeps_runCmd h _ _ fun q w => ?_)
  refine keeps_preemptGrids ?_ _
  exact Kept.same (keeps_beginCmd h { q with preempted := true } w) rfl

theorem keeps_execResumeQueue (q : Nat) : KeptOut C D (execResumeQueue q s) := by
  refine .next (keeps_runCmd h _ _ fun q w => ?_)
  exact Kept.same (keeps_beginCmd h { q with preempted := false } w) rfl

theorem keeps_execPreemptContext (q : Nat) : KeptOut C D (execPreemptContext q s) := by
  refine .next (keeps_runCmd h _ _ fun q w => ?_)
  split
  · exact keeps_beginCmd h ..
  · exact keeps_preemptGrids (kept_setCtx closed_kept _ (keeps_beginCmd h ..)) _

theorem keeps_execResumeContext (q : Nat) : KeptOut C D (execResumeContext q s) := by
  refine .next (keeps_runCmd h _ _ fun q w => ?_)
  split
  · exact keeps_beginCmd h ..
  · exact kept_setCtx closed_kept _ (keeps_beginCmd h ..)

theorem keeps_execReservedQueueCommand (q : Nat) : KeptOut C D (execReservedQueueCommand q s) := by
  unfold execReservedQueueCommand
  split
  · exact .next h
  · split
    · exact .next (keeps_ite (keeps_ackQueue h ..) h)
    · exact .next h

end

/-! ## Saves -/

theorem keeps_suspend (h : Kept C D n s) (sel : Copy → Bool) : Kept C D n (suspend s sel) := h.same rfl

theorem keeps_teamGoes (h : Kept C D n s) (tid : Nat) : Kept C D n (teamGoes s tid) := by
  unfold teamGoes
  split
  · exact h
  · exact keeps_ite (keeps_suspend (keeps_teamAway h ..) _) (keeps_ite (keeps_teamAway h ..) h)

theorem spillPans_groups (s : State) (core : Nat) (sel : Nat → Bool) : (spillPans s core sel).nextId = s.nextId := by
  have key : ∀ (rs : List ThreadRec) (t : State), (rs.foldl (fun s r => match ctxOf s r.ctx with
      | some x => setCtx s { x with brine := x.brine ++ [r] }
      | none => s) t).nextId = t.nextId := by
    intro rs
    induction rs with
    | nil => exact fun _ => rfl
    | cons r rs ih =>
      intro t
      refine (ih _).trans ?_
      dsimp only
      split <;> rfl
  unfold spillPans
  dsimp only
  split
  · rfl
  · exact key _ _

theorem keeps_writeOut {g : Group} (hg : C → NamesOk s.nextId g) (h : Kept C D n s) : Kept C D n (writeOut s g) := by
  have h1 := keeps_spillPans h g.core (· == g.grid)
  refine keeps_teamGoes (keeps_endBoost (keeps_suspend (keeps_setGroup_area (g := g) (fun hc => ?_) ?_ h1 ..) _)) _
  · exact (spillPans_groups s g.core (· == g.grid)).symm ▸ hg hc
  · exact (namesOf_saveSlots g).trans ⟨rfl, .refl _, .refl _⟩

theorem keeps_execContextSave (h : Kept C D 0 s) (g : Nat) : KeptOut C D (execContextSave g s) := by
  unfold execContextSave
  split
  · exact .next (keeps_ite (keeps_settleAcks (keeps_teamGoes h _)) h)
  next x hx => exact .next (keeps_ite (keeps_settleAcks (keeps_writeOut (h.found hx) h)) h)

/-! ## Restores -/

theorem keeps_seatGroup (h : Kept C D n s) (core : Nat) (x : Nat × Nat) : Kept C D n (seatGroup s core x) := by
  unfold seatGroup
  split
  · exact h
  next g hg =>
    refine kept_setGroup closed_kept (fun hc => (h.found hg hc).of ?_) (kept_setCore closed_kept _ _ h)
    refine (namesOf_renumber g (freeSlots s core x.2)).trans ?_
    generalize renumber g (freeSlots s core x.2) = g'
    refine ⟨rfl, ?_, .refl _⟩
    rw [List.map_map]
    exact .refl _

theorem keeps_reissue (h : Kept C D n s) (core : Nat) (sel : Copy → Bool) : Kept C D n (reissue s core sel) := h.same rfl

theorem keeps_restoreTeam (h : Kept C D n s) {t : Team} (ht : D → memWf t.spad = true) {r : State} (hr : restoreTeam s t = some r) :
    Kept C D n r := by
  obtain ⟨⟨core, qs⟩, -, rfl⟩ := Option.map_eq_some_iff.mp hr
  refine kept_acquireDev closed_kept _ (kept_foldl closed_kept (fun _ x h => keeps_seatGroup h core x) _ (keeps_reissue ?_ ..))
  have h1 := keeps_setTeam (t := { t with core, seq := s.nextId, place := .resident, haltReq := false, ranOn := if core = t.core then t.ranOn else t.core :: t.ranOn })
    ht (keeps_fresh h)
  have h2 := keeps_mapHandles (f := fun h => if t.recv = some h.hid then { h with core } else h) (fun x hx => by
    split
    · exact hx
    · exact hx) h1
  exact h2.same rfl

theorem keeps_restoreGroup (h : Kept C D n s) {g : Group} {t : Team} {r : State} (hr : restoreGroup s g t = some r) : Kept C D n r := by
  obtain ⟨q, -, rfl⟩ := Option.map_eq_some_iff.mp hr
  exact kept_acquireDev closed_kept _ (keeps_seatGroup h ..)

/-! ## Resumes -/

theorem keeps_jwaitWake {k : Nat} {g : Group} (h : Kept C D n s) (hg : groupOf s k = some g) (p : Split) : Kept C D n (jwaitWake s g p) := by
  unfold jwaitWake
  split
  · exact keeps_ite (kept_acquireDev closed_kept _ (keeps_setGroup_of h hg (namesOf_setSplit_of (namesOf_raiseLbase ..) _))) h
  · exact h

theorem keeps_retest (h : Kept C D n s) (gid : Nat) (p : Split) : Kept C D n (retest s gid p) := by
  unfold retest
  split
  · exact h
  next g hg =>
    split
    · exact keeps_jwaitWake h hg p
    · exact keeps_ite (kept_wakeSplit closed_kept _ _ _ _ h) h
    · exact h

/-- What a course that a trap may stop leaves is kept. -/
def KeptGo (C D : Prop) (n : Nat) : Except Eff State → Prop
  | .error e => KeptEff C D n e
  | .ok s => Kept C D n s

theorem keeps_rebindSlot {u : Iss} (hu : KeptIss C D n u) (k : Nat) (x : Slot) : KeptGo C D n (rebindSlot u k x) := by
  have hk : ∀ s bs, Kept C D n s → Kept C D n (updGroup s u.g.gid fun g =>
      setPhys (setSlot g k { x with rebind := false }) x.phys (imageOf x.sfmt x.tbind bs)) := fun s bs h =>
    keeps_updGroup _ (fun _ => ⟨rfl, .refl _, .refl _⟩) h
  unfold rebindSlot
  dsimp only
  split
  · exact hk _ _ hu.state
  · split
    next e he => exact (keepsTry_translateRun hu ..).error he
    next s pages he =>
      have hs := (keepsTry_translateRun hu ..).ok he
      split
      · refine keeps_updGroup _ (fun _ => ?_) hs
        exact ⟨rfl, .refl _, .refl _⟩
      · exact hk _ _ hs

theorem keeps_rebindAll {u : Iss} (hu : KeptIss C D n u) (ks : List (Slot × Nat)) : KeptGo C D n (rebindAll u ks) := by
  have key : ∀ (ks : List (Slot × Nat)) (r : Except Eff State), KeptGo C D n r → KeptGo C D n (ks.foldl (fun acc x => match acc with
      | .error e => .error e
      | .ok s => rebindSlot { u with s } (x.2 + 1) x.1) r) := by
    intro ks
    induction ks with
    | nil => exact fun _ h => h
    | cons x ks ih =>
      intro r hr
      refine ih _ ?_
      cases r with
      | error e => exact hr
      | ok s =>
        refine keeps_rebindSlot ?_ ..
        exact ⟨hr, hu.group⟩
  exact key ks (.ok u.s) hu.state

theorem keeps_setResume (h : Kept C D n s) (gid : Nat) (r : Resume) : Kept C D n (setResume s gid r) := by
  refine keeps_updGroup _ (fun _ => ?_) h
  exact ⟨rfl, .refl _, .refl _⟩

theorem keeps_rebindGroup (h : Kept C D n s) (gid : Nat) : Kept C D n (rebindGroup s gid) := by
  unfold rebindGroup
  split
  · exact h
  next g hg =>
    refine keeps_ite (keeps_setResume h ..) ?_
    split
    next p c _ _ =>
      have h1 := keeps_rebindAll (u := { s, i := (instrAt s g.core g.quarter c p.pc).getD (.groupResume gid), g, p, ctx := c })
        ⟨h.raise, fun hc => h.found hg hc⟩ (g.slots.zipIdx.filter fun x => x.1.rebind)
      dsimp only
      split
      next he =>
        rw [he] at h1
        exact keeps_setResume (Kept.lower h1 h.low) ..
      next he =>
        rw [he] at h1
        exact keeps_setResume (keeps_takeTrap (Kept.lower h1 h.low) ..) ..
      next => exact h
    next => exact h

theorem keeps_restoreRing {k : Nat} {g : Group} (h : Kept C D n s) (hg : groupOf s k = some g) : Kept C D n (restoreRing s g) := by
  unfold restoreRing
  split
  · refine kept_setGroup closed_kept (fun hc => (h.found hg hc).of ?_) (kept_setRing closed_kept _ _ _ h)
    exact ⟨rfl, .refl _, .refl _⟩
  · exact h

theorem keeps_execGroupResume (h : Kept C D 0 s) (g : Nat) : KeptOut C D (execGroupResume g s) := by
  unfold execGroupResume
  split
  · exact .next h
  next x hx =>
    dsimp only
    split
    · exact .next h
    · have h1 : Kept C D 0 (settleKeys x.grid (x.splits.foldl (fun s p => retest s g p) (reissue s x.core fun c => c.gid == g && c.suspended), [])) :=
        kept_settleKeys closed_kept _ (kept_foldl closed_kept (fun _ p h => keeps_retest h g p) _ (keeps_reissue h ..))
      refine .next (keeps_settleAcks (n := 0) ?_)
      split
      · exact keeps_setResume h1 ..
      next hy => exact keeps_rebindGroup (keeps_restoreRing h1 hy) _
      · exact h1

end

end Sys2Proof.Machine
end

section
/-!
SUPPORT. The dispatcher and the queue unit keep the canonical form of memories and the model's numbers (O59, O60).
-/
namespace Sys2Proof.Machine

section
variable {C D : Prop} {n : Nat} {s : State}

/-! ## The dispatcher -/

/-- Saved teams are canonical. -/
theorem Kept.savedTeam {gr : Grid} {t : Team} (h : Kept C D n s) (ht : t ∈ savedTeams s gr) (hd : D) : memWf t.spad = true :=
  (h.mems hd).2.2.1 t (List.mem_of_mem_filter ht)

theorem mem_savedSpawned {gr : Grid} {t : Team} (ht : t ∈ savedSpawned s gr) : t ∈ savedTeams s gr :=
  List.mem_of_mem_filter (mem_sortLe.mp ht)

theorem mem_savedLaunched {gr : Grid} {t : Team} (ht : t ∈ savedLaunched s gr) : t ∈ savedTeams s gr :=
  List.mem_of_mem_filter (mem_sortLe.mp ht)

theorem keeps_makeWay (h : Kept C D n s) {tried : State} {prio : Nat} {need : Need} {r : State} (hr : makeWay s tried prio need = some r) :
    Kept C D n r := by
  unfold makeWay at hr
  split at hr
  · exact nomatch hr
  · dsimp only at hr
    split at hr
    · exact Option.some.inj hr ▸ h
    · split at hr
      · exact nomatch hr
      · exact Option.some.inj hr ▸ keeps_askHalt h _

theorem keeps_makeWaySaved (h : Kept C D n s) {tried : State} {gr : Grid} {t : Team} {r : TurnKind × State}
    (hr : makeWaySaved s tried gr t = some r) : Kept C D n r.2 := by
  obtain ⟨x, hx, rfl⟩ := Option.map_eq_some_iff.mp hr
  exact keeps_makeWay h hx

theorem keeps_firstFit (h : Kept C D n s) {ts : List Team} (hts : D → ∀ t ∈ ts, memWf t.spad = true) {r : TurnKind × State}
    (hr : firstFit s ts = some r) : Kept C D n r.2 := by
  obtain ⟨t, ht, hx⟩ := List.exists_of_findSome?_eq_some hr
  obtain ⟨x, hx', rfl⟩ := Option.map_eq_some_iff.mp hx
  exact keeps_restoreTeam h (fun hd => hts hd t ht) hx'

/-- A turn at which several teams return leaves what is kept, where all fit. -/
theorem keeps_restoreAll (h : Kept C D n s) {ts : List Team} (hts : D → ∀ t ∈ ts, memWf t.spad = true) {r : State}
    (hr : restoreAll s ts = .ok r) : Kept C D n r := by
  have key : ∀ (ts : List Team) (acc : Except (Team × State) State), (D → ∀ t ∈ ts, memWf t.spad = true) → (∀ s, acc = .ok s → Kept C D n s) →
      ∀ r, ts.foldl (fun acc t => match acc with
        | .error e => .error e
        | .ok s => match restoreTeam s t with
          | some s => .ok s
          | none => .error (t, s)) acc = .ok r → Kept C D n r := by
    intro ts
    induction ts with
    | nil => exact fun acc _ h r e => h r e
    | cons t ts ih =>
      intro acc hts hacc r hr
      refine ih _ (fun hd x hx => hts hd x (List.mem_cons_of_mem _ hx)) (fun s' he => ?_) r hr
      cases acc with
      | error e => exact nomatch he
      | ok s =>
        dsimp only at he
        cases hx : restoreTeam s t with
        | none =>
          rw [hx] at he
          exact nomatch he
        | some x =>
          rw [hx] at he
          obtain rfl := Except.ok.inj he
          exact keeps_restoreTeam (hacc s rfl) (fun hd => hts hd t (List.mem_cons_self ..)) hx
  exact key ts (.ok s) hts (fun s' e => Except.ok.inj e ▸ h) r hr

theorem keeps_serveLaunched (h : Kept C D n s) {gr : Grid} {r : TurnKind × State} (hr : serveLaunched s gr = some r) : Kept C D n r.2 := by
  unfold serveLaunched at hr
  dsimp only at hr
  split at hr
  next s' hs =>
    obtain rfl := Option.some.inj hr
    refine keeps_restoreAll h (fun hd t ht => h.savedTeam (mem_savedLaunched (gr := gr) ?_) hd) hs
    split at ht
    · exact ht
    · exact List.mem_of_mem_take ht
  next => exact keeps_makeWaySaved h hr

theorem keeps_serveNew (h : Kept C D n s) {gr : Grid} {r : TurnKind × State} (hr : serveNew s gr = some r) : Kept C D n r.2 := by
  unfold serveNew at hr
  dsimp only at hr
  split at hr
  · exact nomatch hr
  · have hp := keeps_placeTeams h gr (baseOf gr) (nextTeams s gr)
    split at hr
    next hs =>
      rw [hs] at hp
      obtain rfl := Option.some.inj hr
      exact keeps_updGrid _ _ hp
    next =>
      split at hr
      next hx => exact Option.some.inj hr ▸ keeps_makeWay h hx
      next => exact Option.some.inj hr ▸ keeps_updGrid _ _ h

theorem keeps_serveWaiting (h : Kept C D n s) {gr : Grid} {r : TurnKind × State} (hr : serveWaiting s gr = some r) : Kept C D n r.2 := by
  have hmem : ∀ t ∈ (if gr.desc.prog = 0 ∧ gridHalting s gr.uid = true then [] else savedSpawned s gr), t ∈ savedTeams s gr := by
    intro t ht
    split at ht
    · exact nomatch ht
    · exact mem_savedSpawned ht
  unfold serveWaiting at hr
  dsimp only at hr
  rcases Option.or_eq_some_iff.mp hr with hr | ⟨-, hr⟩
  · exact keeps_firstFit h (fun hd t ht => h.savedTeam (hmem t ht) hd) hr
  · rcases Option.or_eq_some_iff.mp hr with hr | ⟨-, hr⟩
    · split at hr
      · exact nomatch hr
      · split at hr
        · exact keeps_serveNew h hr
        · exact keeps_serveLaunched h hr
    · obtain ⟨t, -, ht⟩ := Option.bind_eq_some_iff.mp hr
      exact keeps_makeWaySaved h ht

theorem keeps_takeTurn (h : Kept C D n s) (mine : TurnKind → Bool) : Kept C D n (takeTurn s mine) := by
  unfold takeTurn
  split
  next k t hk =>
    obtain ⟨gr, -, hx⟩ := List.exists_of_findSome?_eq_some hk
    obtain ⟨r, hr, hx⟩ := Option.map_eq_some_iff.mp hx
    obtain ⟨-, rfl⟩ := Prod.mk.inj hx
    have h1 := keeps_serveWaiting h hr
    exact keeps_ite (keeps_ite h1 (Kept.same (s := notWaiting r.2 gr) (keeps_updGrid _ _ h1) rfl)) h
  next => exact h

theorem keeps_restoreTurn (h : Kept C D n s) (tid : Nat) : Kept C D n (restoreTurn s tid) := keeps_takeTurn h _

/-! ## The queue unit -/

theorem keeps_queueRead (h : Kept C D n s) (c : Context) (va : DWord) (k : Nat) : Kept C D n (queueRead s c va k).2 := by
  have hw := kept_walkAccess closed_kept c va .load false h
  unfold queueRead
  split
  next he => exact hw.snd he
  next he => exact hw.snd he

theorem keeps_waitWord (h : Kept C D n s) (c : Context) (x en addr val : Nat) : Kept C D n (waitWord s c x en addr val).2 := by
  unfold waitWord
  split
  · exact h
  · exact keeps_queueRead h ..

theorem keeps_waitWords (h : Kept C D n s) (c : Context) (x : Nat) : Kept C D n (waitWords s c x).2 := keeps_waitWord (keeps_waitWord h ..) ..

theorem keeps_readDesc (h : Kept C D n s) (c : Context) (x : Nat) : Kept C D n (readDesc s c x).2 := keeps_queueRead h ..

theorem keeps_takePacket (h : Kept C D n s) (q : Queue) (c : Context) (x : Nat) (d : Option Desc) : Kept C D n (takePacket s q c x d) :=
  h.of rfl rfl rfl rfl rfl (Nat.le_succ _)

theorem keeps_takeUnreadable (h : Kept C D n s) (q : Queue) (c : Context) (x : Nat) (f : ReadFault) : Kept C D n (takeUnreadable s q c x f) :=
  kept_report closed_kept _ (keeps_takePacket h ..)

section
variable (h : Kept C D 0 s)
include h

theorem keeps_execQueueAgeing (q : Nat) : KeptOut C D (execQueueAgeing q s) := by
  unfold execQueueAgeing
  split
  · dsimp only
    split
    · exact .next (keeps_setGrid _ h)
    · exact .next h
  · exact .next h

theorem keeps_execGroupRestore (g : Nat) : KeptOut C D (execGroupRestore g s) := by
  unfold execGroupRestore
  split
  · exact .next (keeps_ite (keeps_settleAcks (keeps_restoreTurn h _)) h)
  next x _ =>
    have hgetD : ∀ r : Option State, (∀ t, r = some t → Kept C D 0 t) → Kept C D 0 (r.getD s) := fun r hr => by
      cases r with
      | none => exact h
      | some t => exact hr t rfl
    split
    next t gr ht _ =>
      split
      · exact .next h
      · split
        · exact .next (keeps_ite h (hgetD _ fun _ hr => keeps_restoreGroup h hr))
        · exact .next (keeps_restoreTurn h _)
      · split
        · exact .next h
        · split
          · exact .next (hgetD _ fun _ hr => keeps_restoreGroup h hr)
          · exact .next (hgetD _ fun _ hr => keeps_restoreTeam h (h.team ht) hr)
          · exact .next h
    next => exact .next h

theorem keeps_execQueueTailUpdate (q : Nat) : KeptOut C D (execQueueTailUpdate q s) := by
  unfold execQueueTailUpdate
  split
  · exact .next h
  · exact .next (keeps_ite (kept_signal closed_kept _ (keeps_setQueue _ h)) (keeps_setQueue _ h))

theorem keeps_execLaunchPacketTake (q : Nat) : KeptOut C D (execLaunchPacketTake q s) := by
  unfold execLaunchPacketTake
  split
  · exact .next h
  next qu _ =>
    split
    · exact .next h
    next c _ =>
      have hw := keeps_waitWords h c (physRead s (qu.base + 64 + 64 * (qu.taken % 2 ^ qu.k)) 64)
      dsimp only
      split
      · exact .next h
      · split
        next he => exact .next (keeps_takeUnreadable (hw.snd he) ..)
        next he => exact .next (hw.snd he)
        next he =>
          have h1 := hw.snd he
          split
          · exact .next (keeps_takePacket h1 ..)
          · have hr := keeps_readDesc h1 c (physRead s (qu.base + 64 + 64 * (qu.taken % 2 ^ qu.k)) 64)
            split
            next he => exact .next (keeps_takeUnreadable (hr.snd he) ..)
            next he => exact .next (keeps_takePacket (hr.snd he) ..)

end

end

end Sys2Proof.Machine
end

section
/-!
SUPPORT. The retirement of groups, teams and grids, and the comparator of checked teams, keep the canonical form of memories and the
model's numbers (O59, O60).
-/
namespace Sys2Proof.Machine

section
variable {C D : Prop} {n : Nat} {s : State}

/-! ## Groups and teams retire -/

theorem keeps_logSlots (h : Kept C D n s) (g : Group) : Kept C D n (logSlots s g) := by
  refine kept_foldl closed_kept (fun t x h => ?_) _ h
  split
  · exact kept_report closed_kept _ h
  · exact h

theorem keeps_noteLT (h : Kept C D n s) (g : Group) : Kept C D n (noteLT s g) := keeps_ite h (keeps_updGrid _ _ h)

theorem keeps_returnRegion (h : Kept C D n s) (t : Team) : Kept C D n (returnRegion s t) := by
  unfold returnRegion
  split
  · exact h
  · exact keeps_filterHandles _ (kept_updTeam closed_kept _ (fun _ hp => memWf_writeBytes _ _ hp) h)

theorem keeps_removeTeam (h : Kept C D n s) (tid : Nat) : Kept C D n (removeTeam s tid) := keeps_offerAgain (keeps_filterTeams _ h)

theorem keeps_countRetired (h : Kept C D n s) (t : Team) : Kept C D n (countRetired s t) := keeps_updGrid _ _ h

theorem keeps_performItem (t : Team) (items : List StreamItem) (h : Kept C D n s) (id : Nat) (x : StreamItem) :
    Kept C D n (performItem t items s id x) := by
  unfold performItem
  dsimp only
  split
  · refine kept_storeElem closed_kept _ _ ?_
    exact h.same rfl
  · refine kept_settleKeys closed_kept _ (kept_homeStep closed_kept _ _ ?_)
    exact h.same rfl

theorem keeps_performItems (t : Team) (items : List StreamItem) (h : Kept C D n s) : Kept C D n (performItems t items s).2.2 := by
  induction items generalizing s with
  | nil => exact h
  | cons x rest ih =>
    have h1 := keeps_performItem t (x :: rest) (keeps_fresh h) s.nextId x
    unfold performItems
    dsimp only
    split
    · exact h1
    · exact ih h1

theorem keeps_dropCheck (h : Kept C D n s) (k : CheckRun) : Kept C D n (dropCheck s k) := h.same rfl

theorem keeps_setCheck (h : Kept C D n s) (k : CheckRun) : Kept C D n (setCheck s k) := h.same rfl

theorem keeps_performRun (h : Kept C D n s) (k : CheckRun) (r : CopyRun) : Kept C D n (performRun s k r) := by
  unfold performRun
  split
  · exact keeps_dropCheck h _
  next g _ =>
    have h1 := keeps_performItems (startTeam g 0 k.teamid r.core 0 4 false 0) r.stream h
    dsimp only
    split
    next he =>
      rw [he] at h1
      exact keeps_countRetired (keeps_dropCheck h1 _) _
    next he =>
      rw [he] at h1
      exact keeps_setCheck h1 _

theorem keeps_retireTeam (h : Kept C D n s) (t : Team) : Kept C D n (retireTeam s t) := by
  unfold retireTeam
  split
  · exact keeps_countRetired (keeps_removeTeam (keeps_returnRegion h t) _) _
  · split
    · exact keeps_performRun (keeps_removeTeam h _) ..
    · exact keeps_countRetired (keeps_removeTeam h _) _
  · exact Kept.same (keeps_removeTeam h t.tid) rfl

/-! ## Grids -/

theorem keeps_advanceHead (h : Kept C D n s) (q : Nat) : Kept C D n (advanceHead s q) := by
  unfold advanceHead
  split
  · exact h
  · refine keeps_ite h (keeps_setQueue _ ?_)
    exact Kept.same (kept_physWrite closed_kept _ _ _ h) rfl

theorem keeps_dropContext (h : Kept C D n s) (k : Nat) : Kept C D n (dropContext s k) := keeps_ite (h.same rfl) h

theorem keeps_finishGrid (h : Kept C D n s) (gr : Grid) : Kept C D n (finishGrid s gr) :=
  keeps_dropContext (keeps_advanceHead (keeps_setGrid _ h) _) _

theorem keeps_completeGrid (h : Kept C D n s) (gr : Grid) : Kept C D n (completeGrid s gr) := by
  have h1 := kept_physWrite closed_kept (gr.pkt + 22) 1 (gridStatus gr) h
  refine keeps_ite (kept_harvestGrid closed_kept _ _ h) (keeps_ite (keeps_finishGrid h1 _) ?_)
  refine kept_homeRequest closed_kept _ _ ?_
  exact Kept.same (keeps_setGrid { gr with phase := .counting (fresh (physWrite s (gr.pkt + 22) 1 (gridStatus gr))).1 } (keeps_fresh h1)) rfl

/-! ## The comparator -/

theorem keeps_retireCore (h : Kept C D n s) (core : Nat) : Kept C D n (retireCore s core) := by
  have h1 := kept_setCore closed_kept core { coreOf s core with active := false } h
  unfold retireCore
  dsimp only
  split
  · exact h1
  · exact Kept.same h1 rfl

theorem keeps_dropFences (h : Kept C D n s) : Kept C D n (dropFences s) := h.same rfl

theorem keeps_discardCopies (h : Kept C D n s) (k : CheckRun) : Kept C D n (discardCopies s k) := by
  refine keeps_endBoost (keeps_dropFences ?_)
  have h1 := keeps_filterTeams (fun t => !((checkTeams s k).map Team.tid).contains t.tid)
    (kept_filterGroups closed_kept (fun g => !((checkTeams s k).map Team.tid).contains g.team) h)
  exact h1.same rfl

theorem keeps_runAgain (h : Kept C D n s) (k : CheckRun) (checked : Bool) : Kept C D n (runAgain s k checked) := keeps_updGrid _ _ h

theorem keeps_checkLog (h : Kept C D n s) (k : CheckRun) (cause : Cause) (a b : Nat) : Kept C D n (checkLog s k cause a b) := by
  unfold checkLog
  split
  · exact h
  · exact kept_report closed_kept _ h

theorem keeps_enterCompared {g : Group} (hg : C → NamesOk s.nextId g) (h : Kept C D n s) : Kept C D n (enterCompared s g) := by
  unfold enterCompared
  split
  · exact h
  · split
    · refine keeps_enterHandler (fun hc => (hg hc).of ?_) h ..
      exact ⟨rfl, .refl _, .refl _⟩
    · exact h

theorem keeps_reportTrap (h : Kept C D n s) (t : Team) (r : TrapRec) : Kept C D n (reportTrap s t r) := by
  unfold reportTrap
  split
  · exact keeps_ite h (kept_report closed_kept _ h)
  · exact h

theorem keeps_deliverTraps (h : Kept C D n s) (k : CheckRun) (no : Nat) : Kept C D n (deliverTraps s k no) := by
  unfold deliverTraps
  split
  · exact h
  next t _ =>
    have h1 : Kept C D n (t.traps.foldl (fun s r => reportTrap s t r) s) := kept_foldl closed_kept (fun _ r h => keeps_reportTrap h t r) _ h
    generalize t.traps.foldl (fun s r => reportTrap s t r) s = s1 at h1
    have key : ∀ (gs : List Group) (s : State), (C → ∀ g ∈ gs, NamesOk s1.nextId g) → Kept C D s1.nextId s →
        Kept C D s1.nextId (gs.foldl enterCompared s) := by
      intro gs
      induction gs with
      | nil => exact fun _ _ h => h
      | cons g gs ih =>
        intro s hgs h
        refine ih _ (fun hc x hx => hgs hc x (List.mem_cons_of_mem _ hx)) (keeps_enterCompared (fun hc => ?_) h)
        exact (hgs hc g (List.mem_cons_self ..)).mono h.low
    have h2 := (key (s1.groups.filter fun g => ((checkTeams s k).map Team.tid).contains g.team) s1
      (fun hc g hg => h1.names hc g (List.mem_of_mem_filter hg)) h1.raise).lower h1.low
    have h3 := keeps_mapTeams (f := fun x => if k.isOf x then { x with traps := [] } else x) (fun x hx => by
      split
      · exact hx
      · exact hx) h2
    exact h3

theorem keeps_checkMatch (h : Kept C D n s) (k : CheckRun) (a : CopyRun) : Kept C D n (checkMatch s k a) :=
  keeps_ite (keeps_performRun h ..) (keeps_deliverTraps h ..)

theorem keeps_checkMismatch (h : Kept C D n s) (k : CheckRun) (a b : CopyRun) : Kept C D n (checkMismatch s k a b) :=
  keeps_runAgain (keeps_setCheck (keeps_discardCopies h _) _) ..

theorem keeps_outvote (h : Kept C D n s) (k : CheckRun) (c : CopyRun) (loser : Nat) : Kept C D n (outvote s k c loser) := by
  have h1 := keeps_checkLog (keeps_retireCore h loser) k .compareMismatch loser c.core
  refine keeps_ite (keeps_performRun h1 ..) ?_
  exact keeps_mapTeams (f := fun t => if k.isOf t && t.copyNo == 3 then { t with copyNo := 4 } else t) (fun x hx => by
    split
    · exact hx
    · exact hx) (keeps_deliverTraps h1 k 3)

theorem keeps_checkThird (h : Kept C D n s) (k : CheckRun) (a b c : CopyRun) : Kept C D n (checkThird s k a b c) :=
  keeps_ite (keeps_outvote h ..) (keeps_ite (keeps_outvote h ..) (keeps_runAgain (keeps_dropCheck (keeps_discardCopies h _) _) ..))

theorem keeps_checkOverflow (h : Kept C D n s) (k : CheckRun) (used : Nat) : Kept C D n (checkOverflow s k used) :=
  keeps_checkLog (keeps_runAgain (keeps_dropCheck (keeps_discardCopies h _) _) ..) ..

/-! ## The steps -/

section
variable (h : Kept C D 0 s)
include h

theorem keeps_execGroupRetire (g : Nat) : KeptOut C D (execGroupRetire g s) := by
  unfold execGroupRetire
  split
  · exact .next h
  next x _ =>
    split
    · exact .next (keeps_settleAcks (keeps_endBoost (keeps_teamGoes (kept_filterGroups closed_kept _ (keeps_noteLT (keeps_logSlots h x) x)) _)))
    · exact .next h

theorem keeps_execTeamRetire (t : Nat) : KeptOut C D (execTeamRetire t s) := by
  unfold execTeamRetire
  split
  · exact .next h
  · exact .next (keeps_ite (keeps_retireTeam h _) h)

theorem keeps_execGridCompletion (gr : Nat) : KeptOut C D (execGridCompletion gr s) := by
  unfold execGridCompletion
  split
  · exact .next h
  · split
    · exact .next (keeps_ite (keeps_completeGrid h _) h)
    · exact .next (keeps_ite (keeps_finishGrid h _) h)
    · exact .next h

theorem keeps_execCheckCompare (t : Nat) : KeptOut C D (execCheckCompare t s) := by
  unfold execCheckCompare
  split
  · exact .next h
  next k _ =>
    split
    · exact .next (keeps_ite (keeps_performRun h ..) h)
    · exact .next (keeps_checkOverflow h ..)
    · split
      next a b _ _ =>
        split
        · exact .next (keeps_ite (keeps_checkMatch h ..) (keeps_checkMismatch h ..))
        · split
          · exact .next (keeps_checkThird h ..)
          · exact .next h
      next => exact .next h

end

end

end Sys2Proof.Machine
end

section
/-!
SUPPORT. Fabric commands keep the canonical form of memories and the model's numbers (O59, O60).
-/
namespace Sys2Proof.Machine

section
variable {C D : Prop} {n : Nat} {s : State}

/-! ## The rows of a command -/

theorem keeps_remoteWrite (h : Kept C D n s) (a : Nat) (bs : List Byte) :
    Kept C D n { s with remote := memWriteBytes s.remote a bs } :=
  h.withRemote fun hm => memWf_writeBytes bs a hm

theorem keeps_c3ReadRow (h : Kept C D n s) (c : Copy) (k : Nat) : Kept C D n (c3ReadRow s c k).2 := by
  unfold c3ReadRow
  extract_lets va
  split
  · exact h.same rfl
  · exact keeps_copyRead h ..

theorem keeps_c3WriteRow (h : Kept C D n s) (c : Copy) (k : Nat) (bs : List Byte) : Kept C D n (c3WriteRow s c k bs).2 := by
  unfold c3WriteRow
  extract_lets va
  split
  · exact keeps_remoteWrite h ..
  · exact keeps_copyWrite h ..

/-- A fold over pairs whose second part is a state. -/
theorem keeps_foldlSnd {α β : Type} {f : α × State → β → α × State} (hf : ∀ r b, Kept C D n r.2 → Kept C D n (f r b).2) (bs : List β) :
    ∀ r : α × State, Kept C D n r.2 → Kept C D n (bs.foldl f r).2 := by
  induction bs with
  | nil => exact fun _ h => h
  | cons b bs ih => exact fun r h => ih _ (hf r b h)

theorem keeps_c3ReadAll (h : Kept C D n s) (c : Copy) : Kept C D n (c3ReadAll s c).2 := by
  refine keeps_foldlSnd (fun r k hr => ?_) _ _ h
  obtain ⟨x, t⟩ := r
  cases x with
  | error e => exact hr
  | ok l => exact keeps_c3ReadRow hr c k

theorem keeps_c3WriteAll (h : Kept C D n s) (c : Copy) (rows : List (Nat × List Byte)) : Kept C D n (c3WriteAll s c rows).2 := by
  refine keeps_foldlSnd (fun r x hr => ?_) _ _ h
  obtain ⟨y, t⟩ := r
  cases y with
  | some e => exact hr
  | none => exact keeps_c3WriteRow hr c x.1 x.2

theorem keeps_c3Land (h : Kept C D n s) (c : Copy) : Kept C D n (c3Land s c) := by
  unfold c3Land
  split
  · exact h
  · exact kept_foldl closed_kept (fun _ _ h => kept_settleKeys closed_kept _ (kept_landBytes closed_kept _ _ _ _ h)) _ h

theorem keeps_c3Status (h : Kept C D n s) (c : Copy) (st : Nat) : Kept C D n (c3Status s c st) := kept_setCopy closed_kept _ h

theorem keeps_c3Rows (h : Kept C D n s) (c : Copy) : Kept C D n (c3Rows s c).2 := by
  unfold c3Rows
  split
  · exact keeps_c3ReadAll h c
  · exact h

theorem keeps_c3Commit (h : Kept C D n s) (c : Copy) (rows : List (Nat × List Byte)) : Kept C D n (c3Commit s c rows) := by
  have hw := keeps_c3WriteAll h c rows
  unfold c3Commit
  split
  next => exact keeps_stopCopy h ..
  next he => exact keeps_ite (keeps_c3Status (keeps_c3Land (hw.snd he) _) ..) (keeps_c3Status h ..)

theorem keeps_c3Perform (h : Kept C D n s) (c : Copy) : Kept C D n (c3Perform s c) := by
  have hr := keeps_c3Rows h c
  unfold c3Perform
  split
  · exact h
  · split
    next he => exact keeps_stopCopy (hr.snd he) ..
    next he => exact keeps_c3Commit (hr.snd he) ..

/-! ## Rows in parts -/

theorem keeps_c3ReadPart (h : Kept C D n s) (c : Copy) (k rd : Nat) : Kept C D n (c3ReadPart s c k rd).2.1 := by
  have hr := keeps_c3ReadRow h c k
  unfold c3ReadPart
  split
  · exact keeps_readPart h ..
  · split
    next he => exact hr.snd he
    next he => exact hr.snd he

theorem keeps_c3EndRows (h : Kept C D n s) (c : Copy) : Kept C D n (c3EndRows s c) :=
  keeps_ite (kept_setCopy closed_kept _ h) (keeps_c3Land (kept_setCopy closed_kept _ h) _)

/-- What follows a part of a row: the stop of the command, or what is given. -/
theorem keeps_partDone {r : Option CopyStop × State × Copy} (h : Kept C D n r.2.1) {f : State → Copy → State}
    (hf : ∀ t c, Kept C D n t → Kept C D n (f t c)) :
    Kept C D n (match r.1 with
      | some e => stopCopy r.2.1 r.2.2 e
      | none => f r.2.1 r.2.2) := by
  split
  · exact keeps_stopCopy h ..
  · exact hf _ _ h

theorem keeps_c3RowStep (h : Kept C D n s) (c : Copy) (m : ChunkMove) : Kept C D n (c3RowStep s c m) := by
  refine keeps_ite h ?_
  split
  · exact keeps_partDone (keeps_c3ReadPart h ..) fun _ _ h => kept_setCopy closed_kept _ h
  · exact keeps_ite (keeps_partDone (keeps_writePart h ..) fun _ _ h => keeps_c3EndRows h _) h
  · exact h

/-! ## Other devices -/

theorem keeps_incomingRow (h : Kept C D n s) (off : Nat) (data : List Byte) : Kept C D n (incomingRow s off data) := by
  unfold incomingRow
  split
  · exact h
  · exact kept_foldl closed_kept (fun _ _ h => kept_hostWrite closed_kept _ _ h) _ h

theorem keeps_incomingWrite (h : Kept C D n s) (rows : List (Nat × List Byte)) : Kept C D n (incomingWrite s rows) :=
  keeps_ite (kept_foldl closed_kept (fun _ _ h => keeps_incomingRow h ..) _ h) h

theorem keeps_sredComplete (h : Kept C D n s) (g : SredGroup) (c : Copy) (op ty : Nat) (agree : Bool) (others : List (Nat × List Byte)) :
    Kept C D n (sredComplete s g c op ty agree others) := by
  have hr := keeps_c3Rows h c
  unfold sredComplete
  split
  · exact h
  · split
    next he => exact keeps_stopCopy (hr.snd he) ..
    next he =>
      dsimp only
      split
      · exact h
      · exact keeps_ite (keeps_c3Status (hr.snd he) ..) (keeps_c3Commit (hr.snd he) ..)

theorem keeps_abortInst (h : Kept C D n s) (grp inst : Nat) : Kept C D n (abortInst s grp inst) := by
  unfold abortInst putInst
  dsimp only
  split
  · refine keeps_c3Status ?_ ..
    exact h.same rfl
  · exact h.same rfl

theorem keeps_c3Finish (h : Kept C D n s) (c : Copy) (st : Nat) : Kept C D n (c3Finish s c st) := by
  unfold c3Finish
  split
  · exact keeps_copyGone h _
  next a _ =>
    have hw := keeps_copyWrite h { c with dsp := false } a 8 0 (natToBytes 8 st)
    refine keeps_ite (keeps_copyGone (keeps_remoteWrite h ..) _) ?_
    split
    next he => exact keeps_stopCopy (hw.snd he) ..
    next he => exact keeps_copyGone (hw.snd he) _

variable (h : Kept C D 0 s)
include h

theorem keeps_execRemoteCopyWrite (w : RemoteWrite) : KeptOut C D (execRemoteCopyWrite w s) := by
  cases w with
  | incoming rows => exact .next (keeps_incomingWrite h rows)
  | incomingRead rows =>
    refine .next (n := 0) ?_
    split
    · exact h.same rfl
    · exact h
  | row cid m =>
    refine .next (n := 0) ?_
    split
    · exact keeps_c3RowStep h ..
    · exact h
  | outgoing cid bad =>
    unfold execRemoteCopyWrite
    dsimp only
    split
    · exact .next h
    · split
      · exact .next h
      · split
        · exact .next (keeps_ite (keeps_c3Status h ..) h)
        · exact .next (keeps_ite (keeps_c3Status h ..) (keeps_c3Perform h _))

theorem keeps_execSredInstanceReduce (grp inst : Nat) (agree : Bool) (others : List (Nat × List Byte)) :
    KeptOut C D (execSredInstanceReduce grp inst agree others s) := by
  unfold execSredInstanceReduce
  split
  · split
    · exact .next (keeps_c3Status h ..)
    · split
      · exact .next h
      · split
        · exact .next (keeps_sredComplete h ..)
        · exact .next h
  · exact .next h

theorem keeps_execSredTimeoutAbort (grp : Nat) (e : SredEvent) : KeptOut C D (execSredTimeoutAbort grp e s) := by
  unfold execSredTimeoutAbort
  dsimp only
  split
  · exact .next h
  · split
    · exact .next h
    · split
      · exact .next (keeps_ite h (h.same rfl))
      · exact .next (keeps_ite (keeps_abortInst h ..) h)
      · exact .next (keeps_ite (keeps_abortInst h ..) h)

theorem keeps_execLinkLoss (copies : List Nat) : KeptOut C D (execLinkLoss copies s) :=
  .next (n := 0) (Kept.same (s := s) h rfl)

theorem keeps_execC3CompletionRecord (c : Nat) : KeptOut C D (execC3CompletionRecord c s) := by
  unfold execC3CompletionRecord
  split
  · exact .next h
  · split
    · exact .next (keeps_ite (keeps_c3Finish h ..) h)
    · exact .next h

end

end Sys2Proof.Machine
end

section
/-!
SUPPORT. Management commands, and what happens to the package, keep the canonical form of memories and the model's numbers (O59, O60).
-/
namespace Sys2Proof.Machine

section
variable {C D : Prop} {n : Nat} {s : State}

/-! ## The ring -/

theorem keeps_signal (h : Kept C D n s) (v : Nat) : Kept C D n (signal s v) := kept_signal closed_kept v h

theorem keeps_physWrite (h : Kept C D n s) (pa k v : Nat) : Kept C D n (physWrite s pa k v) := kept_physWrite closed_kept pa k v h

theorem keeps_mgmtFinish (h : Kept C D n s) (status : Nat) : Kept C D n (mgmtFinish s status) := by
  unfold mgmtFinish
  split
  · exact h
  next base _ =>
    refine keeps_signal ?_ _
    exact Kept.same (keeps_physWrite (keeps_physWrite h (mgmtSlot s base + 2) 1 status) (base + 8) 8 ((s.mgmtHead + 1) % 2 ^ 64)) rfl

/-- A command that is done leaves what the predicate says. -/
def KeptDone (C D : Prop) (n : Nat) : Done → Prop
  | .ok s => Kept C D n s
  | _ => True

theorem keepsDone_ite {p : Prop} [Decidable p] {a b : Done} (ha : KeptDone C D n a) (hb : KeptDone C D n b) :
    KeptDone C D n (if p then a else b) := by
  split
  · exact ha
  · exact hb

theorem keepsDone_onCtx {k : DWord} {f : Context → Done} (hf : ∀ c, KeptDone C D n (f c)) : KeptDone C D n (onCtx s k f) := by
  unfold onCtx
  split
  · exact keepsDone_ite trivial (hf _)
  · trivial

theorem keeps_runMgmt (h : Kept C D n s) {i : Instr} {d : Done} (hd : KeptDone C D n d) : KeptOut C D (runMgmt i s d) := by
  unfold runMgmt
  split
  · cases d with
    | ok t => exact .next (keeps_mgmtFinish hd _)
    | rejected => exact .next (keeps_mgmtFinish h _)
    | busy => exact .next (keeps_mgmtFinish h _)
  · exact .next h

theorem keeps_execReservedManagementCommand (h : Kept C D n s) : KeptOut C D (execReservedManagementCommand s) :=
  keeps_runMgmt h trivial

/-! ## Contexts -/

theorem keeps_setCtx (h : Kept C D n s) (c : Context) : Kept C D n (setCtx s c) := kept_setCtx closed_kept c h

theorem keeps_createContext (h : Kept C D n s) (num x : Nat) : Kept C D n (createContext s num x) := by
  unfold createContext
  extract_lets c s1
  exact Kept.same (s := s1) (keeps_physWrite (keeps_physWrite h ..) ..) rfl

theorem keeps_terminate (h : Kept C D n s) (c : Context) : Kept C D n (terminate s c) := by
  unfold terminate
  extract_lets n mine held ops s1
  refine keeps_endBoost (keeps_dropFences ?_)
  have h1 : Kept C D _ { s1 with groups := s1.groups.filter (·.ctx != n) } := kept_filterGroups closed_kept _ (keeps_setCtx h _)
  have h2 := keeps_filterHandles (fun h => !(mine h.parent || (h.child.map mine).getD false || held.contains h.hid))
    (keeps_filterTeams (·.ctx != n) h1)
  exact Kept.same h2 rfl

variable (h : Kept C D n s)
include h

theorem keeps_execCreateContext (num block : DWord) : KeptOut C D (execCreateContext num block s) :=
  keeps_runMgmt h (keepsDone_ite (keeps_createContext h ..) trivial)

theorem keeps_execTerminateContext (num : DWord) : KeptOut C D (execTerminateContext num s) :=
  keeps_runMgmt h (keepsDone_onCtx fun c => keeps_settleAcks (keeps_dropContext (keeps_terminate h c) _))

theorem keeps_execContextSettings (ctx highwater lease : DWord) : KeptOut C D (execContextSettings ctx highwater lease s) :=
  keeps_runMgmt h (keepsDone_onCtx fun _ => keepsDone_ite trivial (keeps_setCtx h _))

theorem keeps_execSetBreakpoints (ctx list : DWord) : KeptOut C D (execSetBreakpoints ctx list s) := by
  refine keeps_runMgmt h (keepsDone_onCtx fun c => ?_)
  extract_lets l
  clear_value l
  exact keepsDone_ite (keeps_setCtx h _) trivial

theorem keeps_execContextRead (ctx g buf : DWord) : KeptOut C D (execContextRead ctx g buf s) := by
  refine keeps_runMgmt h (keepsDone_onCtx fun c => ?_)
  split
  next x _ =>
    refine keepsDone_ite ?_ trivial
    exact Kept.same (closed_kept.phys s buf.toNat
      ((List.range (groupArea x.vregs.length x.phys.length)).map (Config.contextImageByte s.freeCtr)) h) rfl
  next => trivial

theorem keeps_poolAppend (c : Context) (fs : List Nat) : Kept C D n (poolAppend s c fs) :=
  keeps_physWrite (kept_foldl closed_kept (fun _ _ h => keeps_physWrite h ..) _ h) ..

theorem keeps_execPoolAdd (ctx list count : DWord) : KeptOut C D (execPoolAdd ctx list count s) :=
  keeps_runMgmt h (keepsDone_onCtx fun c => keepsDone_ite trivial (keepsDone_ite (keeps_poolAppend h c _) trivial))

/-! ## Queues -/

theorem keeps_registerQueue (num base k ctx age : Nat) : Kept C D n (registerQueue s num base k ctx age) := by
  have h1 := keeps_physWrite (keeps_physWrite h (base + 8) 8 0) (base + 24) 8 (physRead s (base + 16) 8)
  unfold registerQueue
  extract_lets w s1 q s2
  have h2 : Kept C D n s2 := Kept.same (s := s1) h1 rfl
  exact keeps_ite (keeps_signal h2 _) h2

theorem keeps_execRegisterQueue (q base slots ctx age : DWord) : KeptOut C D (execRegisterQueue q base slots ctx age s) := by
  refine keeps_runMgmt h (keepsDone_onCtx fun c => ?_)
  split
  · trivial
  · exact keepsDone_ite (keeps_registerQueue h ..) trivial

theorem keeps_execReleaseQueue (q : DWord) : KeptOut C D (execReleaseQueue q s) := by
  refine keeps_runMgmt h ?_
  split
  · trivial
  · exact keepsDone_ite trivial (Kept.same (s := s) h rfl)

/-! ## Faults -/

theorem keeps_dropParked (ctx gid page : Nat) : Kept C D n (dropParked s ctx gid page) := by
  refine kept_foldl closed_kept (fun t x ht => ?_) _ h
  split
  · exact ht
  · split
    · exact ht
    · exact kept_settleOp closed_kept _ (kept_setElem closed_kept _ _ _ (kept_loseReduction closed_kept _ ht))

theorem keeps_execFaultRepaired (rec : DWord) : KeptOut C D (execFaultRepaired rec s) := by
  refine keeps_runMgmt h ?_
  split
  · trivial
  · split
    · exact kept_wakeAll closed_kept (kept_replayParked closed_kept _ _ _ h)
    · exact Kept.same (s := s) h rfl
    · exact h
    · exact h

theorem keeps_execFaultUnrepairable (rec : DWord) : KeptOut C D (execFaultUnrepairable rec s) := by
  refine keeps_runMgmt h ?_
  split
  · trivial
  · split
    · exact kept_wakeAll closed_kept (keeps_dropParked h ..)
    · exact h
    · exact h
    · exact h

omit h

/-! ## Resuming a halted group -/

theorem namesOf_goOn (g : Group) : NamesOf g (goOn g) := ⟨rfl, .refl _, .refl _⟩

theorem namesOf_goOnSplit (g : Group) (sid : Nat) (f : Split → Split) : NamesOf g (goOnSplit g sid f) := by
  unfold goOnSplit
  split
  · exact (namesOf_setSplit g _).trans (namesOf_goOn _)
  · exact namesOf_goOn g

theorem namesOf_goOnShadow (g : Group) (sh : Shadow) : NamesOf g (goOnShadow g sh) := by
  unfold goOnShadow
  split
  · exact namesOf_goOn g
  · refine (namesOf_setSplit_of ?_ _).trans (namesOf_goOn _)
    exact ⟨rfl, .refl _, .refl _⟩

theorem namesOf_resumeAt {g g' : Group} {d : DriverHalt} {point : Nat} (hr : resumeAt g d point = some g') : NamesOf g g' := by
  unfold resumeAt at hr
  split at hr
  · exact Option.some.inj hr ▸ namesOf_goOn g
  · exact Option.some.inj hr ▸ namesOf_goOnSplit ..
  · exact nomatch hr
  · split at hr
    · split at hr
      · exact Option.some.inj hr ▸ namesOf_goOnShadow ..
      · exact Option.some.inj hr ▸ namesOf_goOn g
    · exact Option.some.inj hr ▸ namesOf_goOn g
  · exact Option.some.inj hr ▸ namesOf_goOnSplit ..
  · exact Option.some.inj hr ▸ namesOf_goOnSplit ..
  · exact nomatch hr

theorem keeps_resumeTwin (h : Kept C D n s) (g : Group) (point : Nat) : Kept C D n (resumeTwin s g point) := by
  unfold resumeTwin
  split
  · exact h
  next x hx =>
    split
    next x' hx' =>
      obtain ⟨d, -, hd⟩ := Option.bind_eq_some_iff.mp hx'
      exact kept_setGroup closed_kept (fun hc => (h.names hc x (List.mem_of_find?_eq_some hx)).of (namesOf_resumeAt hd)) h
    next => exact h

theorem keeps_execResumeGroup (h : Kept C D n s) (rec point : DWord) : KeptOut C D (execResumeGroup rec point s) := by
  refine keeps_runMgmt h ?_
  split
  · split
    · trivial
    next g hg =>
      refine keepsDone_ite trivial ?_
      split
      next g' hg' =>
        obtain ⟨d, -, hd⟩ := Option.bind_eq_some_iff.mp hg'
        exact keeps_resumeTwin (keeps_setGroup_of h hg (namesOf_resumeAt hd)) ..
      next => trivial
  · trivial

/-! ## Quiesce, groups of the fabric, capture units, power, attestation -/

theorem keeps_beginQuiesce (h : Kept C D n s) (die : Nat) (d : Die) : Kept C D n (beginQuiesce s die d) := by
  unfold beginQuiesce
  refine keeps_preemptGrids ?_ _
  exact h.same rfl

variable (h : Kept C D n s)
include h

theorem keeps_execQuiesceDie (die : DWord) : KeptOut C D (execQuiesceDie die s) := by
  unfold execQuiesceDie
  split
  · split
    · exact .next (keeps_ite (keeps_beginQuiesce h ..) (keeps_mgmtFinish h _))
    · exact .next (keeps_mgmtFinish h _)
  · exact .next h

theorem keeps_execReductionGroup (k list len limit : DWord) : KeptOut C D (execReductionGroup k list len limit s) :=
  keeps_runMgmt h (keepsDone_ite (Kept.same (s := s) h rfl) trivial)

theorem keeps_execCaptureSet (core unit src : DWord) : KeptOut C D (execCaptureSet core unit src s) :=
  keeps_runMgmt h (keepsDone_ite (kept_setCore closed_kept _ _ h) trivial)

theorem keeps_execCaptureRead (core unit buf : DWord) : KeptOut C D (execCaptureRead core unit buf s) :=
  keeps_runMgmt h (keepsDone_ite (closed_kept.phys s _ _ h) trivial)

theorem keeps_execPowerCap (watts : DWord) : KeptOut C D (execPowerCap watts s) :=
  keeps_runMgmt h (keepsDone_ite (Kept.same (s := s) h rfl) trivial)

theorem keeps_execAttest (nonce report : DWord) : KeptOut C D (execAttest nonce report s) := by
  refine keeps_runMgmt h ?_
  generalize attestReport s nonce.toNat = bs
  exact Kept.same (closed_kept.phys s report.toNat bs h) rfl

/-! ## The package -/

theorem keeps_spareRows (sel : Nat → Bool) : Kept C D n (spareRows s sel) := by
  unfold spareRows
  extract_lets gs t
  split
  · exact h
  · exact Kept.same (s := t) (kept_foldl closed_kept (fun _ _ h => closed_kept.phys _ _ _ h) _ h) rfl

/-- A machine with no team, handle or group, beside memories and a next number of a state that is kept. -/
theorem Kept.emptied {t : State} (hm : t.mem = s.mem ∨ t.mem = []) (hr : t.remote = s.remote) (ht : t.teams = []) (hh : t.handles = [])
    (hg : t.groups = []) (hn : t.nextId = s.nextId) : Kept C D n t := by
  have none : ∀ {α : Type} {l : List α} {p : α → Prop}, l = [] → ∀ x ∈ l, p x := fun he x hx => by
    rw [he] at hx
    exact absurd hx List.not_mem_nil
  refine ⟨by rw [hn]; exact h.low, fun hd => ⟨?_, by rw [hr]; exact (h.mems hd).2.1, none ht, none hh⟩, fun hc =>
    ⟨by rw [hg]; exact .nil, none hg, none hg, none hg⟩⟩
  rcases hm with hm | hm
  · rw [MemOk, hm]
    exact (h.mems hd).1
  · rw [MemOk, hm]
    rfl

theorem keeps_execReset (b : BootReport) : KeptOut C D (execReset b s) := by
  have h1 := keeps_spareRows h fun _ => true
  refine .next (n := n) ?_
  unfold booted
  extract_lets dies r s1 k t
  exact keeps_physWrite (Kept.emptied (t := t) h1 (.inl rfl) rfl rfl rfl rfl rfl) ..

theorem keeps_execComputeDiePowerOff : KeptOut C D (execComputeDiePowerOff s) := by
  unfold execComputeDiePowerOff
  split
  · exact .next (Kept.emptied h (.inr rfl) rfl rfl rfl rfl rfl)
  · exact .next h

theorem keeps_selfCheckLog (core : Nat) : Kept C D n (selfCheckLog s core) := by
  unfold selfCheckLog
  split
  · exact h
  · exact kept_report closed_kept _ h

theorem keeps_endQuiesce (die : Nat) (d : Die) (pass : List Bool) : Kept C D n (endQuiesce s die d pass) :=
  Kept.same (keeps_spareRows (kept_foldl closed_kept (fun _ k h => keeps_selfCheckLog h (Config.coresPerDie * die + k)) (failed d pass) h)
    (granuleOn die)) rfl

theorem keeps_execSelfCheckDone (die : Nat) (pass : List Bool) : KeptOut C D (execSelfCheckDone die pass s) := by
  unfold execSelfCheckDone
  split
  · exact .next h
  · exact .next (keeps_ite (keeps_mgmtFinish (keeps_endQuiesce h ..) _) h)

theorem keeps_execThermalEvent (core : Nat) (e : Thermal) : KeptOut C D (execThermalEvent core e s) := by
  have hc : ∀ k, Kept C D n (setCore s core k) := fun k => kept_setCore closed_kept core k h
  unfold execThermalEvent
  split
  · exact .next h
  · dsimp only
    split
    · exact .next (keeps_ite (hc _) h)
    · refine .next (n := n) (keeps_signal ?_ _)
      exact Kept.same (hc { coreOf s core with mhz := min (Config.throttledMhz s.freeCtr) 2249 }) rfl

theorem keeps_setGovernor (core mhz : Nat) : Kept C D n (setGovernor s core mhz) := keeps_ite (kept_setCore closed_kept _ _ h) h

theorem keeps_execHostDieAccess (a : HostAccess) : KeptOut C D (execHostDieAccess a s) := by
  cases a with
  | read pa k => exact .next (n := n) (Kept.same (s := s) h rfl)
  | write pa bs _ => exact .next (kept_hostWrite closed_kept pa bs h)

theorem keeps_execTlbLeaseExpiry (core k : Nat) : KeptOut C D (execTlbLeaseExpiry core k s) := by
  unfold execTlbLeaseExpiry
  split
  · exact .next (keeps_ite (kept_setCore closed_kept _ _ h) h)
  · exact .next h

theorem keeps_takeSample (core unit v : Nat) : Kept C D n (takeSample s core unit v) := by
  unfold takeSample
  extract_lets k
  split
  · split
    · exact keeps_ite (kept_setCore closed_kept _ _ h) h
    · exact h
  · exact h

theorem keeps_eccError (pa : Nat) : Kept C D n (eccError s pa) := keeps_ite h (h.same rfl)

theorem keeps_evictL1 (core k : Nat) : Kept C D n (evictL1 s core k) := kept_setCore closed_kept _ _ h

end

end Sys2Proof.Machine
end

section
/-!
SUPPORT. Every instruction, every step of the device and every step of the machine keeps the canonical form of memories and the
model's numbers (O59, O60).
-/
namespace Sys2Proof.Machine

section
variable {C D : Prop} {n : Nat} {s : State}

/-! ## Instructions and steps of the device -/

theorem keeps_exec (h : Kept C D 0 s) (i : Instr) : KeptOut C D (exec i s) := by
  cases i with
  | and t f => exact keeps_runInstr h fun _ _ hu => keepsEff_intBin hu ..
  | andn t f => exact keeps_runInstr h fun _ _ hu => keepsEff_intBin hu ..
  | bfe t f => exact keeps_runInstr h fun _ _ hu => keepsEff_int2 hu ..
  | bfi t f => exact keeps_runInstr h fun _ _ hu => keepsEff_int3 hu ..
  | brev t f => exact keeps_runInstr h fun _ _ hu => keepsEff_int1 hu ..
  | clz t f => exact keeps_runInstr h fun _ _ hu => keepsEff_int1 hu ..
  | iabs t f => exact keeps_runInstr h fun _ _ hu => keepsEff_int1 hu ..
  | iadd t f => exact keeps_runInstr h fun _ _ hu => keepsEff_intBin hu ..
  | iaddImm64 signed f => exact keeps_runInstr h fun _ _ hu => keepsEff_runLanes hu ..
  | icmp t f => exact keeps_runInstr h fun _ _ hu => keepsEff_int2 hu ..
  | imad t f => exact keeps_runInstr h fun _ _ hu => keepsEff_int3 hu ..
  | imax t f => exact keeps_runInstr h fun _ _ hu => keepsEff_intBin hu ..
  | imin t f => exact keeps_runInstr h fun _ _ hu => keepsEff_intBin hu ..
  | imul t f => exact keeps_runInstr h fun _ _ hu => keepsEff_intBin hu ..
  | imulh t f => exact keeps_runInstr h fun _ _ hu => keepsEff_intBin hu ..
  | isub t f => exact keeps_runInstr h fun _ _ hu => keepsEff_intBin hu ..
  | lea t f => exact keeps_runInstr h fun _ _ hu => keepsEff_int3 hu ..
  | or t f => exact keeps_runInstr h fun _ _ hu => keepsEff_intBin hu ..
  | popc t f => exact keeps_runInstr h fun _ _ hu => keepsEff_int1 hu ..
  | prmt t f => exact keeps_runInstr h fun _ _ hu => keepsEff_int3 hu ..
  | sar t f => exact keeps_runInstr h fun _ _ hu => keepsEff_int2 hu ..
  | sel t f => exact keeps_runInstr h fun _ _ hu => keepsEff_int3 hu ..
  | shf t f => exact keeps_runInstr h fun _ _ hu => keepsEff_int3 hu ..
  | shl t f => exact keeps_runInstr h fun _ _ hu => keepsEff_int2 hu ..
  | shr t f => exact keeps_runInstr h fun _ _ hu => keepsEff_int2 hu ..
  | xor t f => exact keeps_runInstr h fun _ _ hu => keepsEff_intBin hu ..
  | fadd t f => exact keeps_runInstr h fun _ _ hu => keepsEff_runFloat hu ..
  | fclass t f => exact keeps_runInstr h fun _ _ hu => keepsEff_runFloat hu ..
  | fcmp t f => exact keeps_runInstr h fun _ _ hu => keepsEff_runFloat hu ..
  | fcospi t f => exact keeps_runInstr h fun _ _ hu => keepsEff_runFloat hu ..
  | fexp2 t f => exact keeps_runInstr h fun _ _ hu => keepsEff_runFloat hu ..
  | fgetexp t f => exact keeps_runInstr h fun _ _ hu => keepsEff_runFloat hu ..
  | flog2 t f => exact keeps_runInstr h fun _ _ hu => keepsEff_runFloat hu ..
  | fma t f => exact keeps_runInstr h fun _ _ hu => keepsEff_runFloat hu ..
  | fmax t f => exact keeps_runInstr h fun _ _ hu => keepsEff_runFloat hu ..
  | fmin t f => exact keeps_runInstr h fun _ _ hu => keepsEff_runFloat hu ..
  | fmul t f => exact keeps_runInstr h fun _ _ hu => keepsEff_runFloat hu ..
  | frcp t f => exact keeps_runInstr h fun _ _ hu => keepsEff_runFloat hu ..
  | frnd t f => exact keeps_runInstr h fun _ _ hu => keepsEff_runFloat hu ..
  | frsq t f => exact keeps_runInstr h fun _ _ hu => keepsEff_runFloat hu ..
  | fscale t f => exact keeps_runInstr h fun _ _ hu => keepsEff_runFloat hu ..
  | fsinpi t f => exact keeps_runInstr h fun _ _ hu => keepsEff_runFloat hu ..
  | fsqrt t f => exact keeps_runInstr h fun _ _ hu => keepsEff_runFloat hu ..
  | faddSweep t f => exact keeps_runInstr h fun _ _ hu => keepsEff_sweepStart hu ..
  | fmaSweep t f => exact keeps_runInstr h fun _ _ hu => keepsEff_sweepStart hu ..
  | fmulSweep t f => exact keeps_runInstr h fun _ _ hu => keepsEff_sweepStart hu ..
  | cvt c f => exact keeps_runInstr h fun _ _ hu => keepsEff_runLanes hu ..
  | cvtSweep c f => exact keeps_runInstr h fun _ _ hu => keepsEff_sweepStart hu ..
  | famax t f => exact keeps_runInstr h fun _ _ hu => keepsEff_runSet hu ..
  | fquant t f => exact keeps_runInstr h fun _ _ hu => keepsEff_runLanes hu ..
  | fquantSweep t f => exact keeps_runInstr h fun _ _ hu => keepsEff_sweepStart hu ..
  | census e f => exact keeps_execCensus h e f
  | rng f => exact keeps_runInstr h fun _ _ hu => keepsEff_runLanes hu ..
  | mapres f => exact keeps_execMapres h f
  | mapbind f => exact keeps_execMapbind h f
  | mapwr f => exact keeps_execMapwr h f
  | maprd f => exact keeps_execMaprd h f
  | maprel f => exact keeps_execMaprel h f
  | ldl f => exact keeps_execLdl h f
  | ldlSweep f => exact keeps_runInstr h fun _ _ hu => keepsEff_sweepStart hu ..
  | macc m f => exact keeps_execMacc h m f
  | maccSweep m f => exact keeps_runInstr h fun _ _ hu => keepsEff_sweepStart hu ..
  | sweepIteration g sp => exact keeps_execSweepIteration h g sp
  | lred u f => exact keeps_runInstr h fun _ _ hu => keepsEff_unlessEmpty hu (keepsEff_runCross hu ..)
  | lscan u f => exact keeps_runInstr h fun _ _ hu => keepsEff_runCross hu ..
  | matchLanes u f => exact keeps_runInstr h fun _ _ hu => keepsEff_runCross hu ..
  | part u f => exact keeps_execPart h u f
  | shfl u f => exact keeps_runInstr h fun _ _ hu => keepsEff_runCross hu ..
  | vote u f => exact keeps_runInstr h fun _ _ hu => keepsEff_unlessEmpty hu (keepsEff_runCross hu ..)
  | ld w f => exact keeps_runInstr h fun _ _ hu => keepsEff_loadBody hu ..
  | lds w f => exact keeps_runInstr h fun _ _ hu => keepsEff_loadBody hu ..
  | st w f => exact keeps_runInstr h fun _ _ hu => keepsEff_storeBody hu ..
  | sts w f => exact keeps_runInstr h fun _ _ hu => keepsEff_storeBody hu ..
  | atom u f => exact keeps_execAtom h u f
  | red u f => exact keeps_execRed h u f
  | pref f => exact keeps_execPref h f
  | cctl f => exact keeps_execCctl h f
  | fence f => exact keeps_execFence h f
  | copy f => exact keeps_execCopy h f
  | binit f => exact keeps_execBinit h f
  | barr f => exact keeps_execBarr h f
  | bexp f => exact keeps_execBexp h f
  | btest f => exact keeps_execBtest h f
  | bwait f => exact keeps_execBwait h f
  | waitc f => exact keeps_execWaitc h f
  | spawn f => exact keeps_execSpawn h f
  | jdec f => exact keeps_execJdec h f
  | jwait f => exact keeps_execJwait h f
  | freg f => exact keeps_execFreg h f
  | fres f => exact keeps_execFres h f
  | bra f => exact keeps_execBra h f
  | braD f => exact keeps_execBraD h f
  | brk f => exact keeps_execBrk h f
  | brx f => exact keeps_execBrx h f
  | call f => exact keeps_execCall h f
  | ret f => exact keeps_execRet h f
  | exit f => exact keeps_execExit h f
  | exitJ f => exact keeps_execExitJ h f
  | gsync f => exact keeps_execGsync h f
  | join f => exact keeps_execJoin h f
  | nop f => exact keeps_execNop h f
  | yield f => exact keeps_execYield h f
  | bkpt f => exact keeps_execBkpt h f
  | dflush f => exact keeps_execDflush h f
  | fltrd f => exact keeps_execFltrd h f
  | fmtset f => exact keeps_execFmtset h f
  | iret f => exact keeps_execIret h f
  | movB32 f => exact keeps_runInstr h fun _ _ hu => keepsEff_runLanes hu ..
  | movB64 f => exact keeps_runInstr h fun _ _ hu => keepsEff_runLanes hu ..
  | movB64Imm64 f => exact keeps_runInstr h fun _ _ hu => keepsEff_runLanes hu ..
  | movsr f => exact keeps_execMovsr h f
  | setsr f => exact keeps_execSetsr h f
  | pgmap f => exact keeps_execPgmap h f
  | trap f => exact keeps_execTrap h f
  | trapEsc f => exact keeps_execTrapEsc h f
  | faultRecordDeferredDelivery g => exact keeps_execFaultRecordDeferredDelivery h g
  | hwBreakpoint g sp => exact keeps_execHwBreakpoint h g sp
  | loadReturn op lanes fromL1 => exact keeps_execLoadReturn h op lanes fromL1
  | ldlReturn op => exact keeps_execLdlReturn h op
  | atomReturn op => exact keeps_execAtomReturn h op
  | storePerform op lanes => exact keeps_execStorePerform h op lanes
  | atomicAtHome op k => exact keeps_execAtomicAtHome h op k
  | joinCounterDecrement op k => exact keeps_execJoinCounterDecrement h op k
  | jwaitWake g sp => exact keeps_execJwaitWake h g sp
  | censusFold op k => exact keeps_execCensusFold h op k
  | futureRegistration op k => exact keeps_execFutureRegistration h op k
  | futureResolution op => exact keeps_execFutureResolution h op
  | gateDecrement op => exact keeps_execGateDecrement h op
  | sluiceDeferredPark op k => exact keeps_execSluiceDeferredPark h op k
  | mapBindComplete op => exact keeps_execMapBindComplete h op
  | panTimerExpiry core pan => exact keeps_execPanTimerExpiry h core pan
  | panLaunch core pan => exact keeps_execPanLaunch h core pan
  | brineIntake core ctx => exact keeps_execBrineIntake h core ctx
  | deferredRecordFile k => exact keeps_execDeferredRecordFile h k
  | groupRestore g => exact keeps_execGroupRestore h g
  | groupRetire g => exact keeps_execGroupRetire h g
  | teamRetire t => exact keeps_execTeamRetire h t
  | gridCompletion gr => exact keeps_execGridCompletion h gr
  | launchPacketTake q => exact keeps_execLaunchPacketTake h q
  | queueTailUpdate q => exact keeps_execQueueTailUpdate h q
  | teamDispatch => exact .next (keeps_takeTurn h _)
  | concurrentPlacement gr => exact .next (keeps_takeTurn h _)
  | reproWavePlacement gr => exact .next (keeps_takeTurn h _)
  | queueAgeing q => exact keeps_execQueueAgeing h q
  | preemptQueue q => exact keeps_execPreemptQueue h q
  | resumeQueue q => exact keeps_execResumeQueue h q
  | preemptContext q => exact keeps_execPreemptContext h q
  | resumeContext q => exact keeps_execResumeContext h q
  | splitHalt g sp => exact keeps_execSplitHalt h g sp
  | contextSave g => exact keeps_execContextSave h g
  | groupResume g => exact keeps_execGroupResume h g
  | reproSyncProceed g sp => exact keeps_execReproSyncProceed h g sp
  | mapresDeferredGrant g sp => exact keeps_execMapresDeferredGrant h g sp
  | copyChunk c m => exact keeps_execCopyChunk h c m
  | copyCompletion c => exact keeps_execCopyCompletion h c
  | c3CompletionRecord c => exact keeps_execC3CompletionRecord h c
  | remoteCopyWrite w => exact keeps_execRemoteCopyWrite h w
  | sredInstanceReduce grp inst agree others => exact keeps_execSredInstanceReduce h grp inst agree others
  | sredTimeoutAbort grp e => exact keeps_execSredTimeoutAbort h grp e
  | linkLoss copies => exact keeps_execLinkLoss h copies
  | checkCompare t => exact keeps_execCheckCompare h t
  | tlbLeaseExpiry core k => exact keeps_execTlbLeaseExpiry h core k
  | reset b => exact keeps_execReset h b
  | selfCheckDone die pass => exact keeps_execSelfCheckDone h die pass
  | thermalEvent core e => exact keeps_execThermalEvent h core e
  | createContext num block => exact keeps_execCreateContext h num block
  | terminateContext num => exact keeps_execTerminateContext h num
  | registerQueue q base slots ctx age => exact keeps_execRegisterQueue h q base slots ctx age
  | releaseQueue q => exact keeps_execReleaseQueue h q
  | quiesceDie die => exact keeps_execQuiesceDie h die
  | faultRepaired rec => exact keeps_execFaultRepaired h rec
  | setBreakpoints ctx list => exact keeps_execSetBreakpoints h ctx list
  | contextRead ctx g buf => exact keeps_execContextRead h ctx g buf
  | reductionGroup n list len limit => exact keeps_execReductionGroup h n list len limit
  | captureSet core unit src => exact keeps_execCaptureSet h core unit src
  | captureRead core unit buf => exact keeps_execCaptureRead h core unit buf
  | powerCap watts => exact keeps_execPowerCap h watts
  | attest nonce report => exact keeps_execAttest h nonce report
  | faultUnrepairable rec => exact keeps_execFaultUnrepairable h rec
  | contextSettings ctx highwater lease => exact keeps_execContextSettings h ctx highwater lease
  | resumeGroup rec point => exact keeps_execResumeGroup h rec point
  | poolAdd ctx list count => exact keeps_execPoolAdd h ctx list count
  | reservedEncoding w => exact keeps_execReservedEncoding h w
  | instructionFetchFault g sp => exact keeps_execInstructionFetchFault h g sp
  | reservedQueueCommand q => exact keeps_execReservedQueueCommand h q
  | reservedManagementCommand => exact keeps_execReservedManagementCommand h
  | debuggerHalt g => exact keeps_execDebuggerHalt h g
  | computeDiePowerOff => exact keeps_execComputeDiePowerOff h
  | hostDieAccess a => exact keeps_execHostDieAccess h a

/-! ## A split's issue -/

theorem keeps_execFor (h : Kept C D 0 s) (i : Instr) (gid sid : Nat) : KeptOut C D (execFor i gid sid s) := by
  have h1 : Kept C D 0 { s with cur := some (gid, sid) } := h.same rfl
  unfold execFor
  split
  next t ht => exact .next (n := 0) (Kept.same (keeps_exec h1 i t ht) rfl)
  next => exact keeps_exec h1 i

theorem keeps_execWord (h : Kept C D 0 s) (w : IWord) (gid sid : Nat) : KeptOut C D (execWord w gid sid s) := by
  unfold execWord
  split
  · exact keeps_execFor h _ _ _
  · exact keeps_execFor h _ _ _

theorem namesOf_beforeFetch (g : Group) (sid : Nat) (r : List Nat) : NamesOf g { makeResident g sid with round := r } :=
  ⟨rfl, by rw [makeResident_sids], .refl _⟩

theorem keeps_beforeFetch (h : Kept C D n s) (gid sid : Nat) : Kept C D n (beforeFetch s gid sid) :=
  keeps_markBp (keeps_mergeBefore (keeps_updGroup _ (fun g => namesOf_beforeFetch g sid (roundOf g)) h) ..) ..

theorem keeps_fetchAndRun (h : Kept C D 0 s) (gid sid : Nat) (src : FetchFrom) : KeptOut C D (fetchAndRun s gid sid src) := by
  unfold fetchAndRun
  split
  · exact .next h
  next g _ =>
    split
    next p c _ _ =>
      have hf := keeps_fetchAt h g.core g.quarter c p.pc src p.refetch g.inHandler
      split
      next he => exact keeps_execWord (keeps_updSplit _ _ _ (hf.snd he)) _ _ _
      next he => exact .next (keeps_fetchTrap (hf.snd he) ..)
    next => exact .next h

theorem keeps_issueTurn (h : Kept C D 0 s) (gid sid : Nat) (src : FetchFrom) (rule : IssueRule) :
    KeptOut C D (issueTurn s gid sid src rule) := by
  unfold issueTurn
  split
  · exact .next h
  · split
    · exact .next h
    · split
      · exact keeps_fetchAndRun (keeps_beforeFetch h _ _) _ _ _
      · exact .next h

/-! ## Moves -/

theorem keeps_passTime (h : Kept C D n s) (k : Nat) : Kept C D n (passTime s k) := h.same rfl

theorem keeps_runTurn (h : Kept C D 0 s) (t : Turn) : KeptOut C D (runTurn t s) := by
  cases t with
  | issue gid sid src rule => exact keeps_issueTurn h gid sid src rule
  | event e =>
    unfold runTurn
    dsimp only
    split
    · exact keeps_exec h e
    · exact .next h
  | management =>
    unfold runTurn
    dsimp only
    split
    · exact keeps_exec h _
    · exact .next h
  | clk k => exact .next (keeps_passTime h k)
  | ecc pa => exact .next (keeps_eccError h pa)
  | sample core unit v => exact .next (keeps_takeSample h core unit v)
  | governor core mhz => exact .next (keeps_setGovernor h core mhz)
  | evictLine core k => exact .next (keeps_evictL1 h core k)
  | showStore op lanes => exact .next (kept_showStore closed_kept op lanes h)

theorem keeps_nextMove (h : Kept C D n s) : Kept C D n (nextMove s).2 := by
  unfold nextMove
  extract_lets l
  split
  · exact h
  · exact keeps_choose (l.length + 1) h

theorem keeps_step (h : Kept C D 0 s) : KeptOut C D (step s) := by
  unfold step
  split
  · refine keeps_runTurn ?_ _
    exact h.same rfl
  · exact keeps_runTurn (keeps_nextMove h) _

end

/-- Settles O59: of what the parts of a step keep, the canonical form of memories. -/
theorem stepsKeepMemories : Obligations.StepsKeepMemories := fun s t hs ht =>
  (keeps_step (C := False) (D := True) ⟨Nat.zero_le _, fun _ => hs, False.elim⟩ t ht).mems trivial

/-- Settles O60: of what the parts of a step keep, the numbers; a new group, split or region takes the next free number. -/
theorem stepsKeepIdentities : Obligations.StepsKeepIdentities := fun s t hs ht =>
  (keeps_step (C := True) (D := False) ⟨Nat.zero_le _, False.elim, fun _ => hs⟩ t ht).ids trivial

end Sys2Proof.Machine
end
